-- ==== Sys2Proof/Word.lean ====
section
/-! DEFINITION. The word types of the module and the plainest bit arithmetic on naturals. -/

namespace Sys2Proof

/-- One byte of memory (R9: memory is little-endian bytes). -/
abbrev Byte := BitVec 8
/-- A 32-bit register word (R44). -/
abbrev Word := BitVec 32
/-- A 64-bit scalar register or address (R74, R151). -/
abbrev Dword := BitVec 64
/-- A 256-byte vector register. -/
abbrev VReg := BitVec 2048

end Sys2Proof
end

