-- ==== Sys2Proof/Syntax.lean ====
section
/-! DEFINITION. The commands of the module: one constructor of `Instr` per row of spec/opcode_table.json, with the operands
of the row's rule. A command is an access by a requester, an event on a pin or in an engine, an instruction that a thread
executes, or a packet that arrives. -/

namespace Sys2Proof

/-- Who accesses a register (R49, R50). `vf p` is the virtual function of partition p. -/
inductive Requester where
  | pf0 | vf (p : Fin 8) | i3c | mgmt
  deriving DecidableEq, Repr

/-- What a clock fault lost (R32): a divided clock off frequency by its index in R10's table (0 ACLK, 1 NCLK, 2 MCLK, 3 KCLK,
4 VCLK, 5 PCLK), the lock of the PLL, or the reference. -/
inductive ClockLoss where
  | clock (i : Fin 6) | pll | reference
  deriving DecidableEq, Repr

/-- Where an uncorrectable error was found (R90), or, by a read that no other command stands for, one that was corrected (R88, R89). -/
inductive ErrorSite where
  /-- a galley word: core and offset -/
  | galley (core : Fin 256) (off : BitVec 20)
  /-- a stack or bulk unit at a device physical address; `link` tells a bulk link error that failed its retry (R89) -/
  | phys (addr : BitVec 48) (link : Bool)
  /-- reported by a canopy peer for a REMOTE read through a context -/
  | remote (ctx : BitVec 12) (p : Fin 8)
  /-- a failed completion or a timeout of a host read by a part of partition p, by its UNIT code: the host bus address -/
  | host (p : Fin 8) (unit : BitVec 16) (bus : Dword)
  /-- a stack word or a bulk block that was corrected -/
  | corrected (addr : BitVec 48)
  /-- a galley word that was corrected -/
  | correctedGalley (core : Fin 256)
  /-- an error of a bulk link that link ECC corrected, or that one retry overcame -/
  | link (addr : BitVec 48) (retried : Bool)
  deriving DecidableEq, Repr

/-- What a write of BAR0 carries (R48): a word, or the two words of an access of 8 bytes, the lower address first. -/
inductive RegValue where
  | word (v : Word)
  | pair (low high : Word)
  deriving DecidableEq, Repr

/-- A containment event (R90) with what its record needs (R568). -/
structure ErrorEvent where
  site : ErrorSite
  /-- bits or symbols found in error, 0 if not known -/
  symbols : BitVec 16
  /-- the address the access used, 0 for a scrub -/
  addr : Dword
  deriving DecidableEq, Repr

/-- What a scrub of one 4 KiB unit found (R95): corrected errors at these device physical addresses, errors of a bulk link that link ECC
corrected or, with `true`, that one retry overcame, and an uncorrectable error; `link` tells that it is a link error whose retry
failed (R89). -/
structure ScrubFound where
  corrected : List (BitVec 48) := []
  links : List (BitVec 48 × Bool) := []
  uncorrectable : Option (BitVec 48 × BitVec 16) := none
  link : Bool := false
  deriving DecidableEq, Repr

/-- Errors that a read of the module's memory finds (R88 to R91): the device physical addresses of corrected ones, those of errors of a
bulk link as for a scrub, and of an uncorrectable one its place in the read and the bits or symbols in error; `link` as for a
scrub. -/
structure ReadErrors where
  corrected : List (BitVec 48) := []
  links : List (BitVec 48 × Bool) := []
  uncorrectable : Option (Nat × BitVec 16) := none
  link : Bool := false
  deriving DecidableEq, Repr

/-- How the answer to a thread's load or fetch arrives (R88 to R90, R105). Errors stand at offsets in the access. What a peer answers
comes in its packets. -/
inductive Arrival where
  /-- with these errors corrected, and these of a bulk link that link ECC corrected or, with `true`, that one retry overcame -/
  | read (corrected : List Nat) (links : List (Nat × Bool))
  /-- with the data of host memory, decrypted where its page has HOST_ENC 1 -/
  | data (bytes : List Byte)
  /-- not, for an uncorrectable error or a failed host read; `link` tells a bulk link error whose retry failed -/
  | uncorrectable (off : Nat) (symbols : BitVec 16) (link : Bool)
  deriving DecidableEq, Repr

/-- A routed packet (R413): header fields, the four argument words and the data lines. -/
structure Packet where
  kind : BitVec 4
  cls : BitVec 3
  level : BitVec 4 := 0
  pool : Bool := false
  dst : BitVec 16
  src : BitVec 16
  dstCtx : BitVec 12 := 0
  srcCtx : BitVec 12 := 0
  status : BitVec 4 := 0
  seq : BitVec 16 := 0
  w4 : Word := 0
  w5 : Word := 0
  w6 : Word := 0
  w7 : Word := 0
  /-- LINES; equals the data lines carried, or the lines asked for by a READ_REQ -/
  lines : BitVec 8 := 0
  data : List Byte := []
  deriving DecidableEq, Repr

/-- What the header of an encoded sample claims, as the engine that parses it finds (R372, R380, R386): whether every feature is
supported, the picture's or sound's shape, chroma subsampling as shifts, the signalled matrix (0 none of them, 1 BT.601, 2 BT.709,
3 BT.2020) and range, the claimed count of frames or samples (0 none), and the reference set. -/
structure StreamHeader where
  supported : Bool := true
  width : Nat := 1
  height : Nat := 1
  /-- components of a picture, or channels of sound -/
  comps : Nat := 1
  depth : Nat := 8
  subX : Nat := 0
  subY : Nat := 0
  matrix : Nat := 0
  full : Bool := false
  count : Nat := 0
  refs : Nat := 0
  rate : Nat := 48000
  /-- tiles and slices of its pictures, rows of coding tree units, and HEVC's entropy coding sync (R388) -/
  tiles : Nat := 1
  slices : Nat := 1
  ctuRows : Nat := 1
  sync : Bool := false
  deriving DecidableEq, Repr

/-- What an engine brings when it ends a unit (R381 to R383, R387): its VCLK, the decoded components or channels, whether a
picture is a reference, its place in display order if it is output, pictures that are references no more, damaged regions
(frame, position, coding units), the first missing unit, whether the stream ends here, and a new sequence header; of the samples that
its data does not reach or that lie in a damaged region, the component and place of each and whether inter-coded, and the number of the
first picture in reference list 0. -/
structure DecodedUnit where
  cycles : Nat := 0
  planes : List (List Int) := []
  isRef : Bool := false
  disp : Option Nat := none
  unref : List Nat := []
  damage : List (Nat × Nat × Nat) := []
  missing : Option (Nat × Nat) := none
  last : Bool := true
  header : Option StreamHeader := none
  lost : List (Nat × Nat × Bool) := []
  list0 : Option Nat := none
  deriving DecidableEq, Repr

/-- What a HELLO says (R411). -/
structure Hello where
  uid : Dword
  addr : BitVec 16
  valid : Bool
  group : BitVec 8
  split : BitVec 2
  lanes : BitVec 3
  index : BitVec 2
  reserved : BitVec 13
  shared : BitVec 13
  deriving DecidableEq, Repr

/-- A change of a function's configuration (R452, R455, R457): Bus Master Enable of a function, VF Enable with NumVFs, the address of BAR0,
BAR2 or BAR4, or the limits that the base specification lets the host set: Max_Payload_Size and Max_Read_Request_Size (128 times 2 to
the operand) and the completion timeout (0 the default range, 1 to 4 ranges A to D, 5 disabled). -/
inductive HostConfig where
  | bme (f : Fin 9) (on : Bool)
  | vf (enable : Bool) (num : Fin 9)
  | bar (f : Fin 9) (n : Fin 3) (addr : Dword)
  | limits (f : Fin 9) (payload : Fin 3) (readSize timeout : Fin 6)
  deriving DecidableEq, Repr

/-- Fuses that JTAG reaches (R531, R534): every field but UDS, in words of 32 bits; ROLLBACK by the count of its bits. -/
inductive FuseWord where
  | serial (w : Fin 4)
  | keyDigest (i : Fin 4) (w : Fin 8)
  | keyPresent | keyRevoked | rollback | lifecycle | deriveDisable
  deriving DecidableEq, Repr

/-- A debug access of JTAG (R534). Processors are those of R507, 0 to 7 planner cores, 8 and 9 media sequencers and 10 and 11 fabric engines,
then 12 the management pair and 13 the security core. -/
inductive DebugAccess where
  | halt (n : Fin 14)
  | resume (n : Fin 14)
  | step (n : Fin 14)
  /-- an access to the memory of a processor, whose content the spec does not give -/
  | memory (n : Fin 14)
  | scan
  /-- direct access to the bytes that stack or bulk stores, by device physical address -/
  | readStore (addr : Dword) (n : BitVec 13)
  | writeStore (addr : Dword) (data : List Byte)
  | readFuse (w : FuseWord)
  | programFuse (w : FuseWord) (v : Word)
  deriving DecidableEq, Repr

/-- JTAG instructions (R534). `din` are the bits shifted in; `dout` those that the part under debug gives back where the spec does not give
them. -/
inductive Jtag where
  | bypass (din : Nat)
  | idcode
  | sample (pins : Nat)
  | extest (pins : Nat)
  | debug (a : DebugAccess) (din dout : Nat)
  deriving DecidableEq, Repr

/-- The commands. -/
inductive Instr where
  | powerUpBegin
  | pwrEnFall
  | railStageComplete (stage : Fin 6)
  | stageWindowTimeout (rail : Fin 9)
  | workRailFault (rail : Fin 9)
  | mgmtRailFault (rail : Fin 9)
  | inputRange (mv : BitVec 16)
  | inputFault (mv : BitVec 16)
  | rootPllLock
  | governorSample (vinMv iin10ma : BitVec 16)
  | governorEvaluate
  | coreIdleRestart (core : Fin 256)
  | restartRampStep (core : Fin 256)
  | waveStart (owner : Option (Fin 8))
  | waveGapTakeEffect
  | thermalSample (sensors : List (BitVec 8)) (drams : List (BitVec 8)) (inlet : BitVec 8)
  | thermalTrip (sensor : Fin 96) (celsius : BitVec 8)
  | clockFault (lost : ClockLoss)
  | perstFall
  | perstRise
  | coldResetDone
  | warmResetDone
  | pwrResetWarm (who : Requester)
  | pwrPartReset (who : Requester) (parts : BitVec 8)
  | vfFlr (p : Fin 8)
  | pf0Flr
  | partitionQuiesced (p : Fin 8)
  | i3cDynamicAddress (addr : BitVec 7)
  | i3cRegRead (offset : BitVec 32)
  | i3cRegWrite (offset value : BitVec 32)
  | i3cColdReset
  | i3cWarmReset
  | registerWrite (who : Requester) (offset : BitVec 26) (value : RegValue)
  | refusedAccess (who : Requester) (offset : BitVec 26) (bytes : BitVec 4) (write : Bool)
  | applyRequest (who : Requester) (page : BitVec 14)
  | applyDiscard (who : Requester) (page : BitVec 14)
  | application (page : BitVec 14)
  | pageLockSet (who : Requester) (page : BitVec 14)
  | lockAll (who : Requester)
  | eventFlagClear (who : Requester) (page : BitVec 14) (clear setNow : Word)
  | eventMaskWrite (who : Requester) (page : BitVec 14) (mask : Word)
  | pmapWrite (who : Requester) (p : Fin 8)
  | pmapWriteDone (p : Fin 8)
  | pmapRead (who : Requester) (p : Fin 8)
  | divisionWrite (who : Requester) (log2k : BitVec 2)
  | partCreate (who : Requester) (parts : BitVec 8)
  | partTeardown (who : Requester) (parts : BitVec 8)
  | createZeroingDone (p : Fin 8)
  | teardownZeroingDone (p : Fin 8)
  | containmentEvent (err : ErrorEvent)
  | scrubUnit (inst : Fin 24) (found : ScrubFound)
  | threadStartRequest (core : Fin 256) (slot : Fin 4) (pc : Dword) (args : List Dword)
  | aluAdd (c : Fin 256) (t : Fin 64) (d a b : BitVec 5)
  | aluSub (c : Fin 256) (t : Fin 64) (d a b : BitVec 5)
  | aluAnd (c : Fin 256) (t : Fin 64) (d a b : BitVec 5)
  | aluOr (c : Fin 256) (t : Fin 64) (d a b : BitVec 5)
  | aluXor (c : Fin 256) (t : Fin 64) (d a b : BitVec 5)
  | aluShl (c : Fin 256) (t : Fin 64) (d a b : BitVec 5)
  | aluShrl (c : Fin 256) (t : Fin 64) (d a b : BitVec 5)
  | aluShra (c : Fin 256) (t : Fin 64) (d a b : BitVec 5)
  | aluMul (c : Fin 256) (t : Fin 64) (d a b : BitVec 5)
  | aluSlt (c : Fin 256) (t : Fin 64) (d a b : BitVec 5)
  | aluSltu (c : Fin 256) (t : Fin 64) (d a b : BitVec 5)
  | aluMin (c : Fin 256) (t : Fin 64) (d a b : BitVec 5)
  | aluMax (c : Fin 256) (t : Fin 64) (d a b : BitVec 5)
  | addi (c : Fin 256) (t : Fin 64) (d a : BitVec 5) (imm : BitVec 16)
  | andi (c : Fin 256) (t : Fin 64) (d a : BitVec 5) (imm : BitVec 16)
  | ori (c : Fin 256) (t : Fin 64) (d a : BitVec 5) (imm : BitVec 16)
  | xori (c : Fin 256) (t : Fin 64) (d a : BitVec 5) (imm : BitVec 16)
  | shli (c : Fin 256) (t : Fin 64) (d a : BitVec 5) (imm : BitVec 16)
  | shrli (c : Fin 256) (t : Fin 64) (d a : BitVec 5) (imm : BitVec 16)
  | shrai (c : Fin 256) (t : Fin 64) (d a : BitVec 5) (imm : BitVec 16)
  | ins16 (c : Fin 256) (t : Fin 64) (d h : BitVec 5) (imm : BitVec 16)
  | movs (c : Fin 256) (t : Fin 64) (d a b : BitVec 5)
  | sets (c : Fin 256) (t : Fin 64) (d a b : BitVec 5)
  | ld (c : Fin 256) (t : Fin 64) (d a : BitVec 5) (imm : BitVec 16)
  | lw (c : Fin 256) (t : Fin 64) (d a : BitVec 5) (imm : BitVec 16)
  | st (c : Fin 256) (t : Fin 64) (d a : BitVec 5) (imm : BitVec 16)
  | sw (c : Fin 256) (t : Fin 64) (d a : BitVec 5) (imm : BitVec 16)
  | vld (c : Fin 256) (t : Fin 64) (d a : BitVec 5) (imm : BitVec 16)
  | vst (c : Fin 256) (t : Fin 64) (d a : BitVec 5) (imm : BitVec 16)
  | beq (c : Fin 256) (t : Fin 64) (d a : BitVec 5) (imm : BitVec 16)
  | bne (c : Fin 256) (t : Fin 64) (d a : BitVec 5) (imm : BitVec 16)
  | blt (c : Fin 256) (t : Fin 64) (d a : BitVec 5) (imm : BitVec 16)
  | bge (c : Fin 256) (t : Fin 64) (d a : BitVec 5) (imm : BitVec 16)
  | jmp (c : Fin 256) (t : Fin 64) (offs : BitVec 26)
  | jalr (c : Fin 256) (t : Fin 64) (d a : BitVec 5) (imm : BitVec 16)
  | syncAdd (c : Fin 256) (t : Fin 64) (d a b : BitVec 5)
  | syncSet (c : Fin 256) (t : Fin 64) (d a b : BitVec 5)
  | syncRead (c : Fin 256) (t : Fin 64) (d a b : BitVec 5)
  | syncWait (c : Fin 256) (t : Fin 64) (d a b : BitVec 5)
  | syncClaim (c : Fin 256) (t : Fin 64) (d a b : BitVec 5)
  | syncClaimSet (c : Fin 256) (t : Fin 64) (d a b : BitVec 5)
  | post (c : Fin 256) (t : Fin 64) (d a b : BitVec 5)
  | start (c : Fin 256) (t : Fin 64) (d a b : BitVec 5) (slot : Fin 4)
  | fence (c : Fin 256) (t : Fin 64) (d a b : BitVec 5)
  | vadd (c : Fin 256) (t : Fin 64) (ty : BitVec 2) (d a b : BitVec 5)
  | vsub (c : Fin 256) (t : Fin 64) (ty : BitVec 2) (d a b : BitVec 5)
  | vmul (c : Fin 256) (t : Fin 64) (ty : BitVec 2) (d a b : BitVec 5)
  | vfma (c : Fin 256) (t : Fin 64) (ty : BitVec 2) (d a b : BitVec 5)
  | vmin (c : Fin 256) (t : Fin 64) (ty : BitVec 2) (d a b : BitVec 5)
  | vmax (c : Fin 256) (t : Fin 64) (ty : BitVec 2) (d a b : BitVec 5)
  | vabs (c : Fin 256) (t : Fin 64) (ty : BitVec 2) (d a b : BitVec 5)
  | vneg (c : Fin 256) (t : Fin 64) (ty : BitVec 2) (d a b : BitVec 5)
  | vdiv (c : Fin 256) (t : Fin 64) (ty : BitVec 2) (d a b : BitVec 5)
  | vsqrt (c : Fin 256) (t : Fin 64) (ty : BitVec 2) (d a b : BitVec 5)
  | vcmplt (c : Fin 256) (t : Fin 64) (ty : BitVec 2) (d a b : BitVec 5)
  | vcmple (c : Fin 256) (t : Fin 64) (ty : BitVec 2) (d a b : BitVec 5)
  | vcmpeq (c : Fin 256) (t : Fin 64) (ty : BitVec 2) (d a b : BitVec 5)
  | vsel (c : Fin 256) (t : Fin 64) (ty : BitVec 2) (d a b : BitVec 5)
  | vand (c : Fin 256) (t : Fin 64) (ty : BitVec 2) (d a b : BitVec 5)
  | vor (c : Fin 256) (t : Fin 64) (ty : BitVec 2) (d a b : BitVec 5)
  | vxor (c : Fin 256) (t : Fin 64) (ty : BitVec 2) (d a b : BitVec 5)
  | vcvt (c : Fin 256) (t : Fin 64) (ty : BitVec 2) (fmt : BitVec 3) (d a b : BitVec 5)
  | vbcast (c : Fin 256) (t : Fin 64) (ty : BitVec 2) (d a b : BitVec 5)
  | vredsum (c : Fin 256) (t : Fin 64) (ty : BitVec 2) (d a b : BitVec 5)
  | vredmax (c : Fin 256) (t : Fin 64) (ty : BitVec 2) (d a b : BitVec 5)
  | vcvtw (c : Fin 256) (t : Fin 64) (ty : BitVec 2) (fmt : BitVec 3) (d a b : BitVec 5)
  | sfuExp (c : Fin 256) (t : Fin 64) (d a b : BitVec 5)
  | sfuLog (c : Fin 256) (t : Fin 64) (d a b : BitVec 5)
  | sfuRecip (c : Fin 256) (t : Fin 64) (d a b : BitVec 5)
  | sfuRsqrt (c : Fin 256) (t : Fin 64) (d a b : BitVec 5)
  | progEnd (c : Fin 256) (t : Fin 64) (d a b : BitVec 5) (status : BitVec 8)
  | illegalInstr (c : Fin 256) (t : Fin 64) (w : Word)
  | loadDataArrive (c : Fin 256) (t : Fin 64) (index : Nat) (how : Arrival)
  | instrLineArrive (c : Fin 256) (t : Fin 64) (how : Arrival)
  | storeAck (c : Fin 256) (t : Fin 64) (index : Nat)
  | syncWaitTimeout (c : Fin 256) (t : Fin 64)
  | syncValueWrite (who : Requester) (ctr : Fin 8192) (v : Word)
  | syncCmdAdd (who : Requester) (page : Fin 32) (v : Word)
  | syncLimitWrite (who : Requester) (ctr : Fin 8192) (v : Word)
  | galleyShareApply (core : Fin 256)
  | postRetry (c : Fin 256) (t : Fin 64)
  | nop (c : Fin 256) (slot : Fin 4) (bytes : BitVec 512)
  | matmul (c : Fin 256) (slot : Fin 4) (bytes : BitVec 512)
  | gmatmul (c : Fin 256) (slot : Fin 4) (bytes : BitVec 512)
  | conv (c : Fin 256) (slot : Fin 4) (bytes : BitVec 512)
  | poolMax (c : Fin 256) (slot : Fin 4) (bytes : BitVec 512)
  | poolAvg (c : Fin 256) (slot : Fin 4) (bytes : BitVec 512)
  | cropResize (c : Fin 256) (slot : Fin 4) (bytes : BitVec 512)
  | attentionForward (c : Fin 256) (slot : Fin 4) (bytes : BitVec 512)
  | attentionBackward (c : Fin 256) (slot : Fin 4) (bytes : BitVec 512)
  | normForward (c : Fin 256) (slot : Fin 4) (bytes : BitVec 512)
  | normBackward (c : Fin 256) (slot : Fin 4) (bytes : BitVec 512)
  | softmaxForward (c : Fin 256) (slot : Fin 4) (bytes : BitVec 512)
  | softmaxBackward (c : Fin 256) (slot : Fin 4) (bytes : BitVec 512)
  | loss (c : Fin 256) (slot : Fin 4) (bytes : BitVec 512)
  | elementwise (c : Fin 256) (slot : Fin 4) (bytes : BitVec 512)
  | copy (c : Fin 256) (slot : Fin 4) (bytes : BitVec 512)
  | gather (c : Fin 256) (slot : Fin 4) (bytes : BitVec 512)
  | scatter (c : Fin 256) (slot : Fin 4) (bytes : BitVec 512)
  | allReduce (c : Fin 256) (slot : Fin 4) (bytes : BitVec 512)
  | reduceScatter (c : Fin 256) (slot : Fin 4) (bytes : BitVec 512)
  | allGather (c : Fin 256) (slot : Fin 4) (bytes : BitVec 512)
  | broadcast (c : Fin 256) (slot : Fin 4) (bytes : BitVec 512)
  | barrier (c : Fin 256) (slot : Fin 4) (bytes : BitVec 512)
  | reshard (c : Fin 256) (slot : Fin 4) (bytes : BitVec 512)
  | update (c : Fin 256) (slot : Fin 4) (bytes : BitVec 512)
  | badOpcode (c : Fin 256) (slot : Fin 4) (bytes : BitVec 512)
  | formeWaitMet (i : Nat)
  | formeCountersFree (i : Nat)
  | formePlanned (i : Nat)
  | formePostArrive (i : Nat) (core : Fin 256)
  | claimReturn (i : Nat) (core : Fin 256)
  | chunkStaged (core : Fin 256) (i : Nat) (corrected : List (BitVec 48))
  | tileBegin (core : Fin 256) (unit : Fin 2)
  | tileEnd (core : Fin 256) (i : Nat)
  | epilogueStart (core : Fin 256) (i : Nat)
  | coreReportEnd (i : Nat) (core : Fin 256)
  | tileFault (i : Nat) (core : Fin 256) (addr : Dword) (write : Bool)
  | proofTimeTrigger (core : Fin 256)
  | proofComplete (core : Fin 256) (i : Nat) (upset : List (Nat × Dword))
  | planFlush (who : Requester) (j : Fin 8)
  | reducerUpdate (index : Nat)
  | arenaSpillDone (p : Fin 8)
  | cambBlockArrive (unit : Fin 16)
  | cambBlockApply (unit : Fin 16)
  | cambBlockWritten (unit : Fin 16)
  | normAllreduceDone (p : Fin 8)
  | updateAbort (who : Requester) (unit : Fin 16)
  | updateTimeout (p : Fin 8)
  | cambNormPrevWrite (who : Requester) (unit : Fin 16) (valid : Bool) (value : Word)
  | kvAdmit (p : Fin 8)
  | schedule (p : Fin 8)
  | advance (p : Fin 8)
  | advanceResume (p : Fin 8)
  | release (p : Fin 8)
  | outAuto (p : Fin 8)
  | inAuto (p : Fin 8)
  | outSeq (p : Fin 8)
  | inSeq (p : Fin 8)
  | swapOutDone (p : Fin 8) (seq : BitVec 12)
  | swapInDone (p : Fin 8) (seq : BitVec 12)
  | prefixLookup (p : Fin 8)
  | handleOf (p : Fin 8)
  | evict (p : Fin 8)
  | trim (p : Fin 8)
  | budgetSet (p : Fin 8)
  | budgetAdd (p : Fin 8)
  | budgetRead (p : Fin 8)
  | budgetRefillTick (p : Fin 8)
  | ringIrqDelay (p : Fin 8) (vec : BitVec 8)
  | kvPeekRead (who : Requester) (p : Fin 8)
  | coppModeReq (who : Requester) (p : Fin 8) (target : BitVec 2)
  | drainComplete (p : Fin 8)
  | planBarrierComplete (p : Fin 8)
  | planComplete (p : Fin 8)
  | planTimeout (p : Fin 8)
  | intakeJobTake (p : Fin 8)
  | engineGrant (engine : Fin 35) (isRef : Bool)
  | decodeUnitDone (engine : Fin 35) (u : DecodedUnit)
  | decodeBudgetExceeded (engine : Fin 35) (cycles samples : Nat)
  | frameReserve (p : Fin 8) (j : Nat) (hdr : StreamHeader)
  | postprocessFrame (p : Fin 8) (j cycles : Nat)
  | liveSampleAvailable (p : Fin 8) (j : Nat)
  | batchDeliver (p : Fin 8) (j : Nat)
  | batchSlotFreed (p : Fin 8) (j : Nat)
  | linkSignalDetect (link : Fin 36) (cable : BitVec 4) (dm : BitVec 16)
  | linkTrainConverged (link : Fin 36)
  | linkTrainTimeout (link : Fin 36)
  | linkAlignLock (link : Fin 36)
  | linkAlignTimeout (link : Fin 36)
  | handshakeTimeout (link : Fin 36)
  | retrainCondition (link : Fin 36) (why : Fin 4)
  | retrainRegained (link : Fin 36)
  | retrainTimeout (link : Fin 36)
  | linkFailedHoldoff (link : Fin 36)
  | flitReceive (link : Fin 36) (num : Word) (bytes : List Byte) (corrected uncorrectable : BitVec 16)
  | ackTimer (link : Fin 36)
  | hello (link : Fin 36) (h : Hello)
  | helloTimer (link : Fin 36)
  | ack (link : Fin 36) (num : Word)
  | nak (link : Fin 36) (num : Word)
  | credit (link : Fin 36) (cls : BitVec 3) (level : BitVec 4) (pool : Bool) (units : BitVec 13)
  | readReq (src : Option (Fin 36)) (p : Packet) (found : ReadErrors)
  | writeReq (src : Option (Fin 36)) (p : Packet)
  | readRsp (src : Option (Fin 36)) (p : Packet)
  | writeRsp (src : Option (Fin 36)) (p : Packet)
  | collData (src : Option (Fin 36)) (p : Packet)
  | collGrant (src : Option (Fin 36)) (p : Packet)
  | collCtrl (src : Option (Fin 36)) (p : Packet)
  | route (link : Fin 36) (p : Packet)
  | routeAdvertise
  | elect (link : Fin 36) (p : Packet)
  | electSettle
  | cnpyAddrWrite (who : Requester) (value : Word)
  | reqTimeout (ctx : BitVec 12) (seq : BitVec 16)
  | collTimeout (i : Nat)
  | collectiveComplete (i : Nat)
  | cnpyTblRead (who : Requester)
  | cnpyTblWrite (who : Requester)
  | timeExchange (masters others : List (BitVec 16))
  | time (link : Fin 36) (p : Packet)
  | timeSyncLoss
  | bmeChange (c : HostConfig)
  | powerStateChange (f : Fin 9) (d3 : Bool)
  | sqEnable (who : Requester) (f : Fin 9) (q : Fin 16) (v : Word)
  | cqEnable (who : Requester) (f : Fin 9) (q : Fin 16) (v : Word)
  | cqCtrlWrite (who : Requester) (f : Fin 9) (q : Fin 16) (v : Word)
  | sqDoorbell (f : Fin 9) (q : Fin 16) (tail : Word)
  | cqDoorbell (f : Fin 9) (q : Fin 16) (head : Word)
  | sqEntryFetch (f : Fin 9) (q : Fin 16) (n : Fin 8) (host : Option (List Byte))
  | sqNop (f : Fin 9) (q : Fin 16)
  | sqForme (f : Fin 9) (q : Fin 16)
  | sqStart (f : Fin 9) (q : Fin 16)
  | sqSyncAdd (f : Fin 9) (q : Fin 16)
  | sqWait (f : Fin 9) (q : Fin 16)
  | sqWaitMet (f : Fin 9) (q : Fin 16)
  | sqWaitTimeout (f : Fin 9) (q : Fin 16)
  | badEntry (f : Fin 9) (q : Fin 16)
  | cqIrqDelay (f : Fin 9) (q : Fin 16)
  | msixUnmask (f : Fin 9) (vec : Option (BitVec 8 × Option (Dword × Word))) (mask : Bool)
  | bar2Read (f : Fin 9) (off : BitVec 36) (n : BitVec 13) (found : ReadErrors)
  | bar2Write (f : Fin 9) (off : BitVec 36) (data : List Byte)
  | hostReadFail (p : Fin 8) (unit : BitVec 16) (addr bus : Dword)
  | snapRequest (who : Requester) (p : Fin 8)
  | touchCopyDone (p : Fin 8)
  | snapshotComplete (p : Fin 8)
  | replayStart (who : Requester) (unit : Fin 16)
  | replayItem (p : Fin 8)
  | replayEnd (p : Fin 8)
  | snapIntervalCompute
  | fillStart (who : Requester) (p : Fin 8)
  | fillAbort (who : Requester) (p : Fin 8)
  | fillCheckDone (p : Fin 8)
  | fillCopyDone (p : Fin 8)
  | fillInstallDone (p : Fin 8)
  | lockstepMismatch
  | ctrlCoreUe (n : Fin 12)
  | auditPeriod
  | auditRead (page : BitVec 14) (word : BitVec 10) (upset : Option Word)
  | fhFlush
  | ceSummary
  | fhRead (who : Requester)
  | i3cFhRead (n : BitVec 32)
  | i3cFhNext
  | impArm (who : Requester)
  | impCancel (who : Requester)
  | impressionTake
  | lcProvision (who : Requester)
  | lcDeploy (who : Requester)
  | lcReturn (who : Requester)
  | lcDecommission (who : Requester)
  | rngHealthFail
  | secAttRequest (who : Requester)
  | i3cAttestRequest (nonce : BitVec 256)
  | reportReady
  | fwFetch (who : Requester) (host : List Byte)
  | i3cFwChunk (block : BitVec 16) (chunk : BitVec 16) (data : List Byte)
  | fwBlockCheck (good : Bool)
  | fwActivate (who : Requester) (reset : Bool)
  | fwInstallDone (good : Bool)
  | fwConfirm (who : Requester)
  | fwDiscard (who : Requester)
  | fwPropagateOffer
  | fwBitmapResend
  | fwPropagateRetry
  | secBoot
  | bootWatchdog
  | secSetRead (who : Requester)
  | secSetWrite (who : Requester) (good : Bool)
  | secSetDelete (who : Requester) (good : Bool)
  | fuseProgramKey (who : Requester) (key : BitVec 2) (good : Bool)
  | jtagInstruction (i : Jtag)
  | powerOnResetDone
  | vector0MessageSpacing (f : Fin 9)
  deriving DecidableEq, Repr

end Sys2Proof
end

