-- ==== Sys2Proof/Machine/Maps.lean ====
section
/-! DEFINITION. Bit fields of naturals, little-endian byte lists, and sparse maps from naturals, held as lists of pairs. -/

namespace Sys2Proof.Machine

/-! ### Bit fields (R9: ranges include both ends; here a field is its lowest bit and its width) -/

/-- The field of `x` of `w` bits from bit `lo`. -/
def bits (x lo w : Nat) : Nat := x / 2 ^ lo % 2 ^ w

/-- Bit `i` of `x`. -/
def bit (x i : Nat) : Bool := x / 2 ^ i % 2 == 1

/-- `x` with the field of `w` bits from bit `lo` replaced by the low `w` bits of `v`. -/
def putBits (x lo w v : Nat) : Nat := x - bits x lo w * 2 ^ lo + v % 2 ^ w * 2 ^ lo

/-- A truth value as a bit. -/
def b2n (b : Bool) : Nat := if b then 1 else 0

/-- Two's-complement value of the low `w` bits of `x`. -/
def sx (w x : Nat) : Int := if bit x (w - 1) then (x % 2 ^ w : Nat) - (2 ^ w : Nat) else (x % 2 ^ w : Nat)

/-- The low `w` bits of an integer, as a natural number. -/
def ux (w : Nat) (x : Int) : Nat := (x % (2 ^ w : Nat)).toNat

/-- Sum of two saturating counters of `w` bits. -/
def satAdd (w x n : Nat) : Nat := min (x + n) (2 ^ w - 1)

/-- Sum of wrapping counters of `w` bits. -/
def wrapAdd (w x n : Nat) : Nat := (x + n) % 2 ^ w

/-- `x` divided by `y`, rounded up. -/
def ceilDiv (x y : Nat) : Nat := (x + y - 1) / y

/-- `n` numbers from `a`. -/
def rangeFrom (a : Nat) : Nat → List Nat
  | 0 => []
  | n + 1 => a :: rangeFrom (a + 1) n

/-! ### Bytes, little-endian (R9) -/

/-- The low `n` bytes of `x`, lowest first. -/
def toBytes : Nat → Nat → List Byte
  | 0, _ => []
  | n + 1, x => BitVec.ofNat 8 x :: toBytes n (x / 256)

/-- The number that a little-endian list of bytes holds. -/
def ofBytes : List Byte → Nat
  | [] => 0
  | b :: t => b.toNat + 256 * ofBytes t

/-- The little-endian field of `n` bytes at offset `o` of a byte list; bytes beyond the end read 0. -/
def fieldAt (l : List Byte) (o n : Nat) : Nat := ofBytes ((l.drop o).take n)

/-- Split a list into pieces of `n` elements; `fuel` bounds the number of pieces. -/
def chunks {α : Type} (n : Nat) : Nat → List α → List (List α)
  | 0, _ => []
  | _ + 1, [] => []
  | f + 1, l => l.take n :: chunks n f (l.drop n)

/-! ### Sparse maps -/

/-- A sparse map from naturals: pairs with rising keys. -/
abbrev AMap (β : Type) := List (Nat × β)

/-- The value listed for `k`. -/
def AMap.get? {β : Type} (k : Nat) : AMap β → Option β
  | [] => none
  | (k', v) :: t => if k' = k then some v else AMap.get? k t

/-- `m` with `v` listed for `k`, in rising order of keys. -/
def AMap.put {β : Type} (k : Nat) (v : β) : AMap β → AMap β
  | [] => [(k, v)]
  | (k', v') :: t =>
    if k < k' then (k, v) :: (k', v') :: t
    else if k' = k then (k, v) :: t
    else (k', v') :: AMap.put k v t

/-- `m` with nothing listed for `k`. -/
def AMap.del {β : Type} (k : Nat) (m : AMap β) : AMap β := m.filter fun x => x.1 != k

/-- The value for `k`, or `d` where none is listed. -/
def AMap.getD {β : Type} (k : Nat) (d : β) (m : AMap β) : β := (AMap.get? k m).getD d

/-- `m` without the keys from `a` to below `b`. -/
def AMap.drop {β : Type} (a b : Nat) (m : AMap β) : AMap β := m.filter fun x => x.1 < a || b ≤ x.1

end Sys2Proof.Machine
end

