-- ==== Sys2Proof/Machine/Shake.lean ====
section
/-! DEFINITION. SHAKE256 as the device uses it (R85, R326, ch. 18): the sponge of FIPS 202 over byte lists. The function is
named by the spec and defined by that standard (log entry 21). -/

namespace Sys2Proof.Machine

/-- The lane of index i, i = column + 5 × row; indices wrap within the 25 lanes. -/
def keccakLane (a : List Nat) (i : Nat) : Nat := a.getD (i % 25) 0

/-- Rotate a lane of 64 bits left by n below 64. -/
def spin (n x : Nat) : Nat := bits (x * 2 ^ n) 0 64 + x / 2 ^ (64 - n)

/-- Every lane from its index. -/
def keccakLanes (f : Nat → Nat) : List Nat := (List.range 25).map f

/-- The shift register x^8 + x^6 + x^5 + x^4 + 1 that round constants come from, after n steps from 1. -/
def roundLfsr : Nat → Nat
  | 0 => 1
  | n + 1 =>
    let r := 2 * roundLfsr n
    if bit r 8 then r ^^^ 0x171 else r

/-- The constant of round r: bit 2^j - 1 is the lowest bit of the register after j + 7 r steps, j from 0 to 6. -/
def roundConst (r : Nat) : Nat :=
  (List.range 7).foldl (fun n j => n + roundLfsr (j + 7 * r) % 2 * 2 ^ (2 ^ j - 1)) 0

/-- The walk over the lanes other than lane 0: from column 1 of row 0, (x, y) to (y, 2 x + 3 y). -/
def laneWalk : Nat → Nat × Nat
  | 0 => (1, 0)
  | t + 1 =>
    let q := laneWalk t
    (q.2, (2 * q.1 + 3 * q.2) % 5)

/-- Offset by which a lane is rotated: the lane that the walk reaches at step t by (t + 1)(t + 2) / 2, lane 0 not at all. -/
def laneTurns : AMap Nat :=
  (List.range 24).foldl (fun m t => AMap.put ((laneWalk t).1 + 5 * (laneWalk t).2) ((t + 1) * (t + 2) / 2 % 64) m) []

/-- Theta: each lane takes the parities of the columns before and, turned by one, after its own. -/
def keccakTheta (a : List Nat) : List Nat :=
  let parity := (List.range 5).map fun x => (List.range 5).foldl (fun n y => n ^^^ keccakLane a (x + 5 * y)) 0
  keccakLanes fun i => keccakLane a i ^^^ parity.getD ((i + 4) % 5) 0 ^^^ spin 1 (parity.getD ((i + 1) % 5) 0)

/-- Rho and pi: the lane at column x + 3 y of row x, rotated, comes to column x of row y. -/
def keccakMove (a : List Nat) : List Nat :=
  keccakLanes fun i =>
    let k := (i % 5 + 3 * (i / 5)) % 5 + 5 * (i % 5)
    spin (AMap.getD k 0 laneTurns) (keccakLane a k)

/-- Chi: each bit turns over where the next of its row is 0 and the one after that is 1. -/
def keccakChi (a : List Nat) : List Nat :=
  keccakLanes fun i =>
    let at_ (n : Nat) : Nat := keccakLane a (i / 5 * 5 + (i + n) % 5)
    at_ 0 ^^^ (at_ 2 ^^^ (at_ 1 &&& at_ 2))

/-- The permutation of 24 rounds; iota adds the round's constant to lane 0. -/
def keccakF (a : List Nat) : List Nat :=
  (List.range 24).foldl (fun a r =>
    let b := keccakChi (keccakMove (keccakTheta a))
    b.set 0 (keccakLane b 0 ^^^ roundConst r)) a

/-- XOR a block of 136 bytes into the state. -/
def absorb (a : List Nat) (b : List Byte) : List Nat :=
  (List.range 25).map fun i => a.getD i 0 ^^^ (if i < 17 then fieldAt b (8 * i) 8 else 0)

/-- The first n bytes, n at most 136, of SHAKE256 of a message. -/
def shake256 (msg : List Byte) (n : Nat) : List Byte :=
  let k := 136 - msg.length % 136
  let pad : List Byte := if k == 1 then [0x9F] else [0x1F] ++ List.replicate (k - 2) 0 ++ [0x80]
  let blocks := chunks 136 (msg.length / 136 + 2) (msg ++ pad)
  let a := blocks.foldl (fun a b => keccakF (absorb a b)) (List.replicate 25 0)
  ((a.take 17).flatMap fun x => toBytes 8 x).take n

end Sys2Proof.Machine
end

