-- ==== Sys2Proof/Machine/Ed448.lean ====
section
/-! DEFINITION. Ed448 as the device uses it (ch. 18): the pure scheme with an empty context. The scheme is named by the spec and
defined by RFC 8032 (log entry 8). -/

namespace Sys2Proof.Machine

/-! ### The field and the curve x² + y² = 1 - 39081 x² y² -/

def edPrime : Nat := 2 ^ 448 - 2 ^ 224 - 1

/-- Order of the base point. -/
def edOrder : Nat := 2 ^ 446 - 13818066809895115352007386748515426880336692474882178609894547503885

/-- Raise to a power of 448 bits, from the highest bit down. -/
def edPow (x n : Nat) : Nat :=
  (List.range 448).foldl (fun r i => let q := r * r % edPrime; if bit n (447 - i) then q * x % edPrime else q) 1

/-- x - y in the field; y is reduced. -/
def edSub (x y : Nat) : Nat := (x + (edPrime - y)) % edPrime

/-- A point (x / z, y / z). -/
structure EdPoint where
  x : Nat
  y : Nat
  z : Nat
  deriving DecidableEq, Repr

/-- The neutral point. -/
def EdPoint.zero : EdPoint := ⟨0, 1, 1⟩

/-- The base point. -/
def EdPoint.base : EdPoint :=
  ⟨224580040295924300187604334099896036246789641632564134246125461686950415467406032909029192869357953282578032075146446173674602635247710,
   298819210078481492676017930443930673437544040154080242095928241372331506189835876003536878655418784733982303233503462500531545062832660,
   1⟩

/-- The sum of two points: (x₁y₂ + y₁x₂) / (1 + t) and (y₁y₂ - x₁x₂) / (1 - t) with t = -39081 x₁x₂y₁y₂, over one denominator. -/
def EdPoint.add (p q : EdPoint) : EdPoint :=
  let zz := p.z * q.z % edPrime
  let xx := p.x * q.x % edPrime
  let yy := p.y * q.y % edPrime
  let cross := (p.x * q.y + p.y * q.x) % edPrime
  let t := 39081 * xx % edPrime * yy % edPrime
  let z2 := zz * zz % edPrime
  let plus := edSub z2 t
  let minus := (z2 + t) % edPrime
  ⟨zz * minus % edPrime * cross % edPrime, zz * plus % edPrime * edSub yy xx % edPrime, plus * minus % edPrime⟩

/-- n times a point, n below 2^448. -/
def EdPoint.times (n : Nat) (p : EdPoint) : EdPoint :=
  (List.range 448).foldl (fun r i => let q := r.add r; if bit n (447 - i) then q.add p else q) .zero

/-- Two triples are one point. -/
def EdPoint.same (p q : EdPoint) : Bool :=
  (p.x * q.z) % edPrime == (q.x * p.z) % edPrime && (p.y * q.z) % edPrime == (q.y * p.z) % edPrime

/-! ### Encodings of 57 bytes -/

/-- y, with the lowest bit of x in the last bit. -/
def EdPoint.bytes (p : EdPoint) : List Byte :=
  let i := edPow p.z (edPrime - 2)
  toBytes 57 (p.y * i % edPrime + p.x * i % edPrime % 2 * 2 ^ 455)

/-- The point that 57 bytes encode, none where they encode none. -/
def edPoint (b : List Byte) : Option EdPoint :=
  let n := ofBytes (b.take 57)
  let y := bits n 0 455
  let yy := y * y % edPrime
  let u := edSub yy 1
  let v := edSub (edPrime - 39081 * yy % edPrime) 1
  -- a root of u / v, where there is one: (u / v)^((p + 1) / 4)
  let r := edPow (u * edPow v (edPrime - 2) % edPrime) ((edPrime + 1) / 4)
  let odd := bits n 455 1
  if edPrime ≤ y || v * (r * r % edPrime) % edPrime != u || (r == 0 && odd == 1) then none
  else some ⟨if r % 2 == odd then r else edPrime - r, y, 1⟩

/-! ### Keys and signatures -/

/-- The digest of a message under the name of the scheme and an empty context, as a number below the order. -/
def edHash (b : List Byte) : Nat :=
  ofBytes (shake256 ([0x53, 0x69, 0x67, 0x45, 0x64, 0x34, 0x34, 0x38, 0, 0] ++ b) 114) % edOrder

/-- The secret scalar of a private key: its two lowest bits are 0, and bit 447 is its highest. -/
def edScalar (key : List Byte) : Nat := putBits (bits (ofBytes (shake256 key 57)) 0 447) 0 2 0 + 2 ^ 447

/-- The public key of a private key. -/
def ed448Public (key : List Byte) : List Byte := (EdPoint.base.times (edScalar key)).bytes

/-- The signature over a message with a private key. -/
def ed448Sign (key msg : List Byte) : List Byte :=
  let r := edHash ((shake256 key 114).drop 57 ++ msg)
  let point := (EdPoint.base.times r).bytes
  let k := edHash (point ++ ed448Public key ++ msg)
  point ++ toBytes 57 ((r + k * edScalar key) % edOrder)

/-- A signature of 114 bytes over a message verifies under a public key: four times the equation, as the standard states it. -/
def ed448Verify (key msg sig : List Byte) : Bool :=
  match edPoint key, edPoint (sig.take 57) with
  | some a, some r =>
    let s := ofBytes ((sig.drop 57).take 57)
    let k := edHash (sig.take 57 ++ key ++ msg)
    s < edOrder && ((EdPoint.base.times s).times 4).same ((r.times 4).add ((a.times k).times 4))
  | _, _ => false

end Sys2Proof.Machine
end

