-- ==== Sys2Proof/Config.lean ====
section
/-! DEFINITION. What the spec leaves open: free values and functions, each an opaque constant that no proof can look into.
A statement that holds of the model holds for every choice of them. -/

namespace Sys2Proof

/-- The `n`-th random draw of the security core's generator, as a natural number of any size; users take the bits they need
(R85 keys, R533 generator, R537 challenge). Log entry 6. -/
opaque Config.draw (n : Nat) : Nat

/-- What a byte of bulk storage holds, as ciphertext, when nothing has been written there since the bulk lost its contents for the
`lost`-th time (R37). Log entry 5. -/
opaque Config.bulkByte (lost addr : Nat) : Byte

/-- What a byte of host memory reads as when the module has not written it; the host put it there. Log entry 5. -/
opaque Config.hostByte (addr : Nat) : Byte

/-- What a byte of a peer's memory reads as for a part of the device that reads it in the middle of a command: context and
offset. Log entry 10. -/
opaque Config.remoteByte (ctx off : Nat) : Byte

/-- What a tile takes for a byte at a thread address whose read faulted (R150 states no value). Log entry 35. -/
opaque Config.faultByte (addr : Nat) : Byte

/-- Coefficient of the audio front end's resampler: input rate, output rate, phase, tap, as an FP32 code (R392). Log entry 31. -/
opaque Config.sincTap (inRate outRate phase tap : Nat) : Nat

/-- Whether the front end holds a coefficient that is no FP32 value as the farther of its two neighbours: table, and place in it (R392
gives the coefficients and no rounding). Log entry 31. -/
opaque Config.coeffFar (table place : Nat) : Bool

/-- Weight of a bin in a mel filter whose edges the rule's formula does not give: FMIN, FMAX, band, bin (R392). Log entry 31. -/
opaque Config.melOpen (fmin fmax band bin : Nat) : Nat

/-- Whether fma(∞, 0, NaN) raises invalid, which IEEE 754-2019 leaves to the implementation (R159, R201). Log entry 155. -/
opaque Config.fmaNanInvalid : Bool

/-- Where partition p's page map lies in its area of the stack system region under a division into k, in units of its own size (R76,
R567 give the area and no place in it). Log entry 211. -/
opaque Config.pmapAt (k p : Nat) : Nat

/-- A result the spec does not state, numbered by `n`; the n-th use of one kind of open value. Log entry 9. -/
opaque Config.open (n : Nat) : Nat

end Sys2Proof
end

