-- ==== Sys2Proof/Machine/Flags.lean ====
section
/-! DEFINITION. Arithmetic on exact values: decoding the element formats, rounding into them with the IEEE flags, the basic
operations of IEEE 754-2019, the special functions of R212 and the random words of R205. -/

namespace Sys2Proof.Machine

/-! ### Exact values -/

/-- A value: a NaN, an infinity, or (−1)^neg × m × 2^e. -/
inductive Num where
  | nan
  | inf (neg : Bool)
  | fin (neg : Bool) (m : Nat) (e : Int)
  deriving DecidableEq, Repr

/-- +0. -/
def Num.zero : Num := .fin false 0 0

/-- The exponent of the leading bit of m × 2^e, m not 0. -/
def leadExp (m : Nat) (e : Int) : Int := Int.ofNat (Nat.log2 m) + e

/-- Sign as a Bool, and whether the value is a zero. -/
def Num.neg : Num → Bool
  | .nan => false
  | .inf n => n
  | .fin n _ _ => n
def Num.isNan : Num → Bool
  | .nan => true
  | _ => false

/-- The opposite value. -/
def Num.opp : Num → Num
  | .nan => .nan
  | .inf n => .inf !n
  | .fin n m e => .fin (!n) m e

/-- The magnitude. -/
def Num.abs : Num → Num
  | .nan => .nan
  | .inf _ => .inf false
  | .fin _ m e => .fin false m e

/-- The integer value at scale 2^q, for q at most e. -/
def scaled (neg : Bool) (m : Nat) (e q : Int) : Int :=
  let v := Int.ofNat (m * 2 ^ (e - q).toNat)
  if neg then -v else v

/-- An integer times 2^e; 0 gives the zero of the sign `z`. -/
def ofScaled (x : Int) (e : Int) (z : Bool) : Num := if x == 0 then .fin z 0 0 else .fin (x < 0) x.natAbs e

/-- An integer as a value. -/
def Num.ofInt (x : Int) : Num := ofScaled x 0 false

/-! ### Formats (R184) -/

/-- A binary floating-point format: mantissa and exponent field widths, bias, the code of the largest finite value, the code of
the infinity if it has one, and the canonical NaN if it has one. -/
structure FFmt where
  w : Nat
  ew : Nat
  bias : Nat
  maxCode : Nat
  infCode : Option Nat
  nanCode : Option Nat
  deriving DecidableEq, Repr

def fp4 : FFmt := { w := 1, ew := 2, bias := 1, maxCode := 0x7, infCode := none, nanCode := none }
def e4m3 : FFmt := { w := 3, ew := 4, bias := 7, maxCode := 0x7E, infCode := none, nanCode := some 0x7F }
def e5m2 : FFmt := { w := 2, ew := 5, bias := 15, maxCode := 0x7B, infCode := some 0x7C, nanCode := some 0x7E }
def fp16 : FFmt := { w := 10, ew := 5, bias := 15, maxCode := 0x7BFF, infCode := some 0x7C00, nanCode := some 0x7E00 }
def bf16 : FFmt := { w := 7, ew := 8, bias := 127, maxCode := 0x7F7F, infCode := some 0x7F80, nanCode := some 0x7FC0 }
def fp32 : FFmt :=
  { w := 23, ew := 8, bias := 127, maxCode := 0x7F7FFFFF, infCode := some 0x7F800000, nanCode := some 0x7FC00000 }
def fp64 : FFmt :=
  { w := 52, ew := 11, bias := 1023, maxCode := 0x7FEFFFFFFFFFFFFF, infCode := some 0x7FF0000000000000
    nanCode := some 0x7FF8000000000000 }

/-- Bits of a code. -/
def FFmt.bits (f : FFmt) : Nat := 1 + f.ew + f.w
/-- Exponent of the least subnormal value. -/
def FFmt.emin (f : FFmt) : Int := 1 - Int.ofNat f.bias - Int.ofNat f.w
/-- The canonical NaN, or 0 (R203: FP4). -/
def FFmt.nan (f : FFmt) : Nat := f.nanCode.getD 0

/-- The value of a code (R184). -/
def FFmt.decode (f : FFmt) (c : Nat) : Num :=
  let neg := bit c (f.w + f.ew)
  let mag := Machine.bits c 0 (f.w + f.ew)
  if f.maxCode < mag then (if f.infCode == some mag then .inf neg else .nan)
  else
    let e := Machine.bits c f.w f.ew
    let m := Machine.bits c 0 f.w
    if e == 0 then .fin neg m f.emin else .fin neg (2 ^ f.w + m) (f.emin + Int.ofNat e - 1)

/-! ### Rounding -/

/-- Rounding directions (R157 RMODE), and the stochastic one with its random word (R204). -/
inductive Rnd where
  | near | zero | up | down
  | stoch (u : Nat)
  deriving DecidableEq, Repr

/-- RMODE of R157. -/
def Rnd.ofMode (n : Nat) : Rnd := if n == 0 then .near else if n == 1 then .zero else if n == 2 then .up else .down

/-- IEEE flags as in FPFLAGS of R157. -/
def flInvalid : Nat := 1
def flDivZero : Nat := 2
def flOverflow : Nat := 4
def flUnderflow : Nat := 8
def flInexact : Nat := 16

/-- Whether a magnitude cut to `m` with the rest r / 2^k, r below 2^k, rounds up. -/
def roundsUp (r : Rnd) (neg : Bool) (m rest k : Nat) : Bool :=
  match r with
  | .near => 2 ^ k < 2 * rest || (2 * rest == 2 ^ k && m % 2 == 1)
  | .zero => false
  | .up => !neg && rest != 0
  | .down => neg && rest != 0
  | .stoch u => u < rest * 2 ^ 32 / 2 ^ k

/-- m × 2^e rounded to a multiple of 2^q: the multiple, and whether it is inexact. -/
def roundAt (r : Rnd) (neg : Bool) (m : Nat) (e q : Int) : Nat × Bool :=
  if q ≤ e then (m * 2 ^ (e - q).toNat, false)
  else
    let k := (q - e).toNat
    let h := m / 2 ^ k
    let rest := m % 2 ^ k
    ((if roundsUp r neg h rest k then h + 1 else h), rest != 0)

/-- How a finite value leaves a format's range. -/
structure Rounded where
  code : Nat
  /-- the magnitude exceeds the largest finite value (R203) -/
  big : Bool
  inexact : Bool
  /-- tiny after rounding (R159) -/
  tiny : Bool

/-- Round a finite value: the magnitude's code as if the exponent range had no upper bound. Codes of a format rise with the
magnitude, so that the code is the number of steps from 0. -/
def FFmt.roundFin (f : FFmt) (r : Rnd) (neg : Bool) (m : Nat) (e : Int) : Rounded :=
  if m == 0 then { code := 0, big := false, inexact := false, tiny := false }
  else
    let lead := leadExp m e
    let w := Int.ofNat f.w
    let q := if lead - w < f.emin then f.emin else lead - w
    let x := roundAt r neg m e q
    let code := (q - f.emin).toNat * 2 ^ f.w + x.1
    let big : Bool := match r with
      | .stoch _ =>
        -- stochastic rounding overflows where the value itself exceeds the largest finite value (R203)
        let mx := roundAt .zero false m e q
        f.maxCode < (q - f.emin).toNat * 2 ^ f.w + mx.1 ||
          ((q - f.emin).toNat * 2 ^ f.w + mx.1 == f.maxCode && mx.2)
      | _ => f.maxCode < code
    let tiny := lead < f.emin + w && (lead + 1 < f.emin + w || (roundAt r neg m e (lead - w)).1 < 2 ^ (f.w + 1))
    { code := code, big := big, inexact := x.2, tiny := tiny }

/-- Put the sign on a magnitude's code. -/
def FFmt.withSign (f : FFmt) (neg : Bool) (mag : Nat) : Nat := mag + (if neg then 2 ^ (f.w + f.ew) else 0)

/-- Round a value into a format that has infinities, as IEEE 754-2019 does: code and flags. -/
def FFmt.round (f : FFmt) (r : Rnd) (x : Num) : Nat × Nat :=
  match x with
  | .nan => (f.nan, 0)
  | .inf n => (f.withSign n (f.infCode.getD f.maxCode), 0)
  | .fin n m e =>
    let y := f.roundFin r n m e
    if y.big then
      let toMax := match r with
        | .near => false
        | .zero => true
        | .up => n
        | .down => !n
        | .stoch _ => false
      (f.withSign n (if toMax then f.maxCode else f.infCode.getD f.maxCode), flOverflow + flInexact)
    else
      (f.withSign n y.code, (if y.inexact then flInexact else 0) + (if y.inexact && y.tiny then flUnderflow else 0))

/-- Round to nearest even, the code only. -/
def FFmt.near (f : FFmt) (x : Num) : Nat := (f.round .near x).1

/-! ### Exact operations with their invalid flag -/

/-- Sign of an exact zero sum (IEEE 754-2019): minus only when rounding down. -/
def zeroSign (r : Rnd) : Bool := r == .down

/-- Exact sum. -/
def Num.add (r : Rnd) : Num → Num → Num × Nat
  | .nan, _ => (.nan, 0)
  | _, .nan => (.nan, 0)
  | .inf a, .inf b => if a == b then (.inf a, 0) else (.nan, flInvalid)
  | .inf a, _ => (.inf a, 0)
  | _, .inf b => (.inf b, 0)
  | .fin a m e, .fin b n g =>
    if m == 0 && n == 0 then (.fin (if a == b then a else zeroSign r) 0 0, 0)
    else if m == 0 then (.fin b n g, 0)
    else if n == 0 then (.fin a m e, 0)
    else
      let q := min e g
      (ofScaled (scaled a m e q + scaled b n g q) q (zeroSign r), 0)

/-- Exact product. -/
def Num.mul : Num → Num → Num × Nat
  | .nan, _ => (.nan, 0)
  | _, .nan => (.nan, 0)
  | .inf a, .inf b => (.inf (a != b), 0)
  | .inf a, .fin b m _ => if m == 0 then (.nan, flInvalid) else (.inf (a != b), 0)
  | .fin a m _, .inf b => if m == 0 then (.nan, flInvalid) else (.inf (a != b), 0)
  | .fin a m e, .fin b n g => (.fin (a != b) (m * n) (e + g), 0)

/-- Exact product plus addend, with the invalid flag of a fused multiply-add; for ∞ × 0 + NaN the implementation decides about it. -/
def Num.fma (r : Rnd) (a b c : Num) : Num × Nat :=
  let p := Num.mul a b
  if p.2 != 0 then (.nan, if !c.isNan || Config.fmaNanInvalid then flInvalid else 0) else Num.add r p.1 c

/-- Quotient, exact or with a sticky last bit that `p` bits of precision always lose. -/
def Num.div (p : Nat) : Num → Num → Num × Nat
  | .nan, _ => (.nan, 0)
  | _, .nan => (.nan, 0)
  | .inf _, .inf _ => (.nan, flInvalid)
  | .inf a, .fin b _ _ => (.inf (a != b), 0)
  | .fin a _ _, .inf b => (.fin (a != b) 0 0, 0)
  | .fin a m e, .fin b n g =>
    if n == 0 then (if m == 0 then (.nan, flInvalid) else (.inf (a != b), flDivZero))
    else if m == 0 then (.fin (a != b) 0 0, 0)
    else
      let k := p + 3 + Nat.log2 n
      let x := m * 2 ^ k
      (.fin (a != b) (2 * (x / n) + (if x % n == 0 then 0 else 1)) (e - g - Int.ofNat k - 1), 0)

/-- The integer square root, by its bits from bit `n` down. -/
def isqrtFrom : Nat → Nat → Nat → Nat
  | 0, r, x => if (r + 1) * (r + 1) ≤ x then r + 1 else r
  | n + 1, r, x =>
    let y := r + 2 ^ (n + 1)
    isqrtFrom n (if y * y ≤ x then y else r) x

/-- ⌊√x⌋. -/
def isqrt (x : Nat) : Nat := isqrtFrom (Nat.log2 x / 2 + 1) 0 x

/-- Square root, exact or with a sticky last bit that `p` bits of precision always lose. -/
def Num.sqrt (p : Nat) : Num → Num × Nat
  | .nan => (.nan, 0)
  | .inf n => if n then (.nan, flInvalid) else (.inf false, 0)
  | .fin n m e =>
    if m == 0 then (.fin n 0 0, 0)
    else if n then (.nan, flInvalid)
    else
      let k := 2 * (p + 3) + (if e % 2 == 0 then 0 else 1)
      let x := m * 2 ^ k
      let y := isqrt x
      (.fin false (2 * y + (if y * y == x then 0 else 1)) ((e - Int.ofNat k) / 2 - 1), 0)

/-- Order of two values: less, equal, greater; none with a NaN. Zeros compare equal. -/
def Num.cmp : Num → Num → Option Ordering
  | .nan, _ => none
  | _, .nan => none
  | .inf a, .inf b => some (if a == b then .eq else if a then .lt else .gt)
  | .inf a, _ => some (if a then .lt else .gt)
  | _, .inf b => some (if b then .gt else .lt)
  | .fin a m e, .fin b n g =>
    let q := min e g
    let x := scaled a m e q
    let y := scaled b n g q
    some (if x < y then .lt else if x == y then .eq else .gt)

/-- a < b, false with a NaN. -/
def Num.lt (a b : Num) : Bool := Num.cmp a b == some .lt
/-- a ≤ b, false with a NaN. -/
def Num.le (a b : Num) : Bool := match Num.cmp a b with
  | some .lt => true
  | some .eq => true
  | _ => false

/-- IEEE 754-2019 maximum: a NaN gives a NaN, and −0 < +0 (R159, R227). -/
def Num.max (a b : Num) : Num :=
  match Num.cmp a b with
  | none => .nan
  | some .lt => b
  | some .gt => a
  | some .eq => if a.neg then b else a
/-- IEEE 754-2019 minimum. -/
def Num.min (a b : Num) : Num :=
  match Num.cmp a b with
  | none => .nan
  | some .lt => a
  | some .gt => b
  | some .eq => if a.neg then a else b

/-- A value rounded to an integer. -/
def Num.toInt (r : Rnd) (neg : Bool) (m : Nat) (e : Int) : Int × Bool :=
  let x := roundAt r neg m e 0
  ((if neg then -(Int.ofNat x.1) else Int.ofNat x.1), x.2)

/-! ### Operations on codes -/

/-- An operation that rounds an exact result: code and flags. -/
def FFmt.fin (f : FFmt) (r : Rnd) (x : Num × Nat) : Nat × Nat :=
  let y := f.round r x.1
  (y.1, x.2 ||| y.2)

def FFmt.add (f : FFmt) (r : Rnd) (a b : Nat) : Nat × Nat := f.fin r (Num.add r (f.decode a) (f.decode b))
def FFmt.sub (f : FFmt) (r : Rnd) (a b : Nat) : Nat × Nat := f.fin r (Num.add r (f.decode a) (f.decode b).opp)
def FFmt.mul (f : FFmt) (r : Rnd) (a b : Nat) : Nat × Nat := f.fin r (Num.mul (f.decode a) (f.decode b))
def FFmt.fma (f : FFmt) (r : Rnd) (a b c : Nat) : Nat × Nat := f.fin r (Num.fma r (f.decode a) (f.decode b) (f.decode c))
def FFmt.div (f : FFmt) (r : Rnd) (a b : Nat) : Nat × Nat := f.fin r (Num.div (f.w + 1) (f.decode a) (f.decode b))
def FFmt.sqrt (f : FFmt) (r : Rnd) (a : Nat) : Nat × Nat := f.fin r (Num.sqrt (f.w + 1) (f.decode a))

/-- The same, round to nearest even, without flags. -/
def FFmt.addN (f : FFmt) (a b : Nat) : Nat := (f.add .near a b).1
def FFmt.subN (f : FFmt) (a b : Nat) : Nat := (f.sub .near a b).1
def FFmt.mulN (f : FFmt) (a b : Nat) : Nat := (f.mul .near a b).1
def FFmt.divN (f : FFmt) (a b : Nat) : Nat := (f.div .near a b).1
def FFmt.sqrtN (f : FFmt) (a : Nat) : Nat := (f.sqrt .near a).1
def FFmt.fmaN (f : FFmt) (a b c : Nat) : Nat := (f.fma .near a b c).1
/-- Maximum of two codes. -/
def FFmt.maxN (f : FFmt) (a b : Nat) : Nat := (f.round .near (Num.max (f.decode a) (f.decode b))).1
def FFmt.minN (f : FFmt) (a b : Nat) : Nat := (f.round .near (Num.min (f.decode a) (f.decode b))).1
/-- An integer in a format. -/
def FFmt.ofInt (f : FFmt) (x : Int) : Nat := f.near (Num.ofInt x)

/-! ### The special functions (R212) -/

/-- Bits of the fixed point in which the exponential and the logarithm are computed before the one rounding. -/
def sfuBits : Nat := 200

/-- 2 artanh(n / d) in fixed point: the sum of 2 z^(2i+1) / (2i+1) over `k` terms, z given in fixed point. -/
def artanh2 (z : Int) (k : Nat) : Int :=
  let one : Int := 2 ^ sfuBits
  let z2 := z * z / one
  ((List.range k).foldl (fun (x : Int × Int) i => (x.1 + 2 * x.2 / Int.ofNat (2 * i + 1), x.2 * z2 / one)) (0, z)).1

/-- ln 2 in fixed point. -/
def ln2Fixed : Int := artanh2 (2 ^ sfuBits / 3) 70

/-- m × 2^e in fixed point, rounded down. -/
def toFixed (neg : Bool) (m : Nat) (e : Int) : Int :=
  let v : Int := if 0 ≤ e + Int.ofNat sfuBits then Int.ofNat (m * 2 ^ (e + Int.ofNat sfuBits).toNat)
    else Int.ofNat (m / 2 ^ (-(e + Int.ofNat sfuBits)).toNat)
  if neg then -v else v

/-- The exponential of an FP32 code. -/
def sfuExp (a : Nat) : Nat :=
  match fp32.decode a with
  | .nan => fp32.nan
  | .inf n => if n then 0 else 0x7F800000
  | .fin n m e =>
    if m == 0 then 0x3F800000
    else if 7 ≤ leadExp m e then (if n then 0 else 0x7F800000)
    else
      let one : Int := 2 ^ sfuBits
      let x := toFixed n m e
      let k := x / ln2Fixed
      let r := x - k * ln2Fixed
      let sum := ((List.range 60).foldl (fun (y : Int × Int) i => (y.1 + y.2, y.2 * r / (Int.ofNat (i + 1) * one))) (0, one)).1
      fp32.near (.fin false sum.toNat (k - Int.ofNat sfuBits))

/-- The natural logarithm of an FP32 code. -/
def sfuLog (a : Nat) : Nat :=
  match fp32.decode a with
  | .nan => fp32.nan
  | .inf n => if n then fp32.nan else 0x7F800000
  | .fin n m e =>
    if m == 0 then 0xFF800000
    else if n then fp32.nan
    else if a == 0x3F800000 then 0
    else
      -- y in [3/4, 3/2) with the value y × 2^k
      let lead := leadExp m e
      let k := if 3 * 2 ^ Nat.log2 m ≤ 2 * m then lead + 1 else lead
      let one : Int := 2 ^ sfuBits
      let y := toFixed false m (e - k)
      let z := (y - one) * one / (y + one)
      let v := k * ln2Fixed + artanh2 z 60
      fp32.near (.fin (v < 0) v.natAbs (-(Int.ofNat sfuBits)))

/-- The reciprocal of an FP32 code. -/
def sfuRecip (a : Nat) : Nat := (fp32.div .near 0x3F800000 a).1

/-- The reciprocal square root of an FP32 code. -/
def sfuRsqrt (a : Nat) : Nat :=
  match fp32.decode a with
  | .nan => fp32.nan
  | .inf n => if n then fp32.nan else 0
  | .fin n m e =>
    if m == 0 then (if n then 0xFF800000 else 0x7F800000)
    else if n then fp32.nan
    else
      -- 1 / √(m 2^e) = √(2^(2t) / m') × 2^(−t − e'/2), with e' even
      let m' := if e % 2 == 0 then m else 2 * m
      let e' := if e % 2 == 0 then e else e - 1
      let t := 32 + Nat.log2 m'
      let x := 2 ^ (2 * t)
      let y := isqrt (x / m')
      fp32.near (.fin false (2 * y + (if y * y * m' == x then 0 else 1)) (-(Int.ofNat t) - e' / 2 - 1))

/-! ### Random words (R205, R206) -/

/-- One round of Philox. -/
def philoxRound (c : Nat × Nat × Nat × Nat) (k0 k1 : Nat) : Nat × Nat × Nat × Nat :=
  let p0 := 0xD2511F53 * c.1
  let p1 := 0xCD9E8D57 * c.2.2.1
  (((p1 / 2 ^ 32) ^^^ c.2.1) ^^^ k0, p1 % 2 ^ 32, ((p0 / 2 ^ 32) ^^^ c.2.2.2) ^^^ k1, p0 % 2 ^ 32)

/-- n rounds. -/
def philoxRounds : Nat → (Nat × Nat × Nat × Nat) → Nat → Nat → Nat × Nat × Nat × Nat
  | 0, c, _, _ => c
  | n + 1, c, k0, k1 =>
    philoxRounds n (philoxRound c k0 k1) ((k0 + 0x9E3779B9) % 2 ^ 32) ((k1 + 0xBB67AE85) % 2 ^ 32)

/-- Philox-4×32 with 10 rounds (R205). -/
def philox (c0 c1 c2 c3 seed : Nat) : Nat × Nat × Nat × Nat :=
  philoxRounds 10 (c0 % 2 ^ 32, c1 % 2 ^ 32, c2 % 2 ^ 32, c3 % 2 ^ 32) (seed % 2 ^ 32) (seed / 2 ^ 32 % 2 ^ 32)

/-- The random word of the element at position i (R206). -/
def randWord (seed i c2 c3 : Nat) : Nat :=
  let r := philox (i / 4 % 2 ^ 32) (i / 4 / 2 ^ 32) c2 c3 seed
  match i % 4 with
  | 0 => r.1
  | 1 => r.2.1
  | 2 => r.2.2.1
  | _ => r.2.2.2

end Sys2Proof.Machine
end

