-- ==== Sys2Proof/Machine/Regs.lean ====
section
/-! DEFINITION. The register fields of every page class and the access masks of every register,
transcribed from the field tables of spec/ (rule named per class). -/

namespace Sys2Proof.Machine

/-- A field of a register: byte offset of its register within the page, lowest bit, width (R12, R51). -/
structure Fld where
  off : Nat
  lo : Nat
  w : Nat
  deriving DecidableEq, Repr

/-- One row of registers of a page class: `cnt` registers from `off`, `stride` bytes apart, with the masks of R12's access
codes (`rw`, `w1c`, `mw`, `rsvp`, and the qualifiers `wl`, `ov`, `buf`) and the reset values of the three overlay copies
(the same for a register without OV fields). -/
structure RegRow where
  off : Nat
  cnt : Nat
  stride : Nat
  rw : Nat := 0
  w1c : Nat := 0
  mw : Nat := 0
  rsvp : Nat := 0
  wl : Nat := 0
  ov : Nat := 0
  buf : Nat := 0
  resetT : Nat := 0
  resetG : Nat := 0
  resetS : Nat := 0
  deriving DecidableEq, Repr

/-! ### PWR (R41) -/

def F.PWR_CAP_W : Fld := ⟨0x020, 0, 11⟩
def F.PWR_PEAK_W : Fld := ⟨0x024, 0, 11⟩
def F.PWR_ACLK_DIV : Fld := ⟨0x024, 11, 3⟩
def F.PWR_VCORE_MAX_MV : Fld := ⟨0x024, 14, 10⟩
def F.PWR_WAVE_GAP_NS : Fld := ⟨0x028, 0, 16⟩
def F.PWR_ISSUE_LEVEL : Fld := ⟨0x030, 0, 5⟩
def F.PWR_CAP_LEVEL : Fld := ⟨0x030, 5, 5⟩
def F.PWR_THERM_LEVEL : Fld := ⟨0x030, 10, 5⟩
def F.PWR_THERM_STAGE : Fld := ⟨0x030, 15, 3⟩
def F.PWR_DRAM_HOT : Fld := ⟨0x030, 18, 1⟩
def F.PWR_INPUT_OUT : Fld := ⟨0x030, 19, 1⟩
def F.PWR_VIN_MV : Fld := ⟨0x034, 0, 16⟩
def F.PWR_IIN_10MA : Fld := ⟨0x034, 16, 16⟩
def F.PWR_AVG_5MS_W : Fld := ⟨0x038, 0, 16⟩
def F.PWR_AVG_100US_W : Fld := ⟨0x038, 16, 16⟩
def F.PWR_JUNC_MAX_C : Fld := ⟨0x03C, 0, 8⟩
def F.PWR_STACK_MAX_C : Fld := ⟨0x03C, 8, 8⟩
def F.PWR_DRAM_MAX_C : Fld := ⟨0x03C, 16, 8⟩
def F.PWR_INLET_C : Fld := ⟨0x03C, 24, 8⟩
def F.PWR_T1_C : Fld := ⟨0x040, 0, 8⟩
def F.PWR_T2_C : Fld := ⟨0x040, 8, 8⟩
def F.PWR_T3_C : Fld := ⟨0x040, 16, 8⟩
def F.PWR_WARM : Fld := ⟨0x048, 0, 1⟩
def F.PWR_PART_RESET : Fld := ⟨0x048, 8, 8⟩
def F.PWR_CAUSE : Fld := ⟨0x04C, 0, 4⟩
def Ev.PWR_INPUT_RANGE : Nat := 0
def Ev.PWR_CAP_ACTIVE : Nat := 1
def Ev.PWR_PEAK_LIMIT : Nat := 2
def Ev.PWR_THERM_STAGE1 : Nat := 3
def Ev.PWR_THERM_STAGE2 : Nat := 4
def Ev.PWR_THERM_STAGE3 : Nat := 5
def Ev.PWR_DRAM_HOT : Nat := 6
def Ev.PWR_CLOCK_FAULT : Nat := 7
def Ev.PWR_RAIL_FAULT : Nat := 8

/-! ### Event flags of the SEC pages (R565) -/

def Ev.SEC0_LC_DONE : Nat := 0
def Ev.SEC1_BLOCK_REJECTED : Nat := 0
def Ev.SEC1_STAGING_COMPLETE : Nat := 1
def Ev.SEC1_INSTALL_DONE : Nat := 2
def Ev.SEC1_ACTIVATE_REFUSED : Nat := 3
def Ev.SEC1_RESET_DEFERRED : Nat := 4
def Ev.SEC1_FELL_BACK : Nat := 5
def Ev.SEC1_CONFIRMED : Nat := 6
def Ev.SEC1_SETTINGS_MIGRATED : Nat := 7
def Ev.SEC2_REPORT_READY : Nat := 0
def Ev.SEC3_RNG_HALTED : Nat := 0
def Ev.SEC3_FUSE_PROGRAMMED : Nat := 1

/-- Registers of class PWR by R41. -/
def rowsPWR : List RegRow := [
  { off := 0x020, cnt := 1, stride := 0, rw := 0x7FF, rsvp := 0xFFFFF800, resetT := 0x578, resetG := 0x578, resetS := 0x578 },
  { off := 0x024, cnt := 1, stride := 0, rw := 0xFFFFFF, rsvp := 0xFF000000, wl := 0xFFFFFF, resetT := 0xC826A4, resetG := 0xC826A4, resetS := 0xC826A4 },
  { off := 0x028, cnt := 1, stride := 0, rw := 0xFFFF, rsvp := 0xFFFF0000, wl := 0xFFFF, resetT := 0xFA0, resetG := 0xFA0, resetS := 0xFA0 },
  { off := 0x030, cnt := 1, stride := 0, rsvp := 0xFFF00000, resetT := 0x4210, resetG := 0x4210, resetS := 0x4210 },
  { off := 0x034, cnt := 1, stride := 0 },
  { off := 0x038, cnt := 1, stride := 0 },
  { off := 0x03C, cnt := 1, stride := 0 },
  { off := 0x040, cnt := 1, stride := 0, rw := 0xFFFFFF, rsvp := 0xFF000000, wl := 0xFFFFFF, resetT := 0x6E6964, resetG := 0x6E6964, resetS := 0x6E6964 },
  { off := 0x048, cnt := 1, stride := 0, mw := 0xFF01, rsvp := 0xFE },
  { off := 0x04C, cnt := 1, stride := 0, rsvp := 0xFFFFFFF0 }]

/-! ### DIR (R67, R525, R526) -/

def F.DIR_LAST_INDEX : Fld := ⟨0x020, 0, 16⟩
def F.DIR_CLASS_COUNT : Fld := ⟨0x020, 16, 8⟩
def F.DIR_COUNT : Fld := ⟨0x024, 0, 16⟩
def F.DIR_OFFSET : Fld := ⟨0x028, 0, 26⟩
def F.DIR_SOURCE : Fld := ⟨0x028, 26, 5⟩
def F.DIR_VALID_028 : Fld := ⟨0x028, 31, 1⟩
def F.DIR_LOCK_ALL : Fld := ⟨0x02C, 0, 1⟩
def F.DIR_FIRST_INDEX : Fld := ⟨0x040, 0, 16⟩
def F.DIR_INSTANCES : Fld := ⟨0x040, 16, 16⟩
def F.DIR_TIME_LO : Fld := ⟨0x100, 0, 32⟩
def F.DIR_TIME_HI : Fld := ⟨0x104, 0, 32⟩
def F.DIR_ARM : Fld := ⟨0x108, 0, 1⟩
def F.DIR_CANCEL : Fld := ⟨0x108, 1, 1⟩
def F.DIR_ARMED : Fld := ⟨0x108, 8, 1⟩
def F.DIR_SEQ : Fld := ⟨0x10C, 0, 32⟩
def F.DIR_TAKEN_LO : Fld := ⟨0x110, 0, 32⟩
def F.DIR_TAKEN_HI : Fld := ⟨0x114, 0, 32⟩
def F.DIR_PAGES : Fld := ⟨0x118, 0, 16⟩
def F.DIR_PENDING : Fld := ⟨0x200, 0, 32⟩
def F.DIR_EN : Fld := ⟨0x280, 0, 1⟩
def F.DIR_PASSES : Fld := ⟨0x284, 0, 32⟩
def F.DIR_MISMATCHES : Fld := ⟨0x288, 0, 32⟩
def F.DIR_PAGE : Fld := ⟨0x28C, 0, 16⟩
def F.DIR_WORD : Fld := ⟨0x28C, 16, 10⟩
def F.DIR_VALID_28C : Fld := ⟨0x28C, 31, 1⟩
def F.DIR_SUSPECT : Fld := ⟨0x2A0, 0, 32⟩
def F.DIR_SHORT_LIMIT : Fld := ⟨0x2C0, 0, 8⟩
def F.DIR_LOCKSTEP : Fld := ⟨0x2C4, 0, 1⟩
def F.DIR_PF0_EN : Fld := ⟨0x2C8, 0, 1⟩
def F.DIR_VF_EN : Fld := ⟨0x2C8, 1, 1⟩
def F.DIR_BMC_EN : Fld := ⟨0x2C8, 2, 1⟩
def F.DIR_INDEX : Fld := ⟨0x300, 0, 32⟩
def F.DIR_READ : Fld := ⟨0x304, 0, 1⟩
def F.DIR_BUSY : Fld := ⟨0x304, 8, 1⟩
def F.DIR_DAMAGED : Fld := ⟨0x304, 9, 1⟩
def F.DIR_NEXT : Fld := ⟨0x308, 0, 32⟩
def F.DIR_DROPPED : Fld := ⟨0x30C, 0, 32⟩
def F.DIR_DATA : Fld := ⟨0x340, 0, 32⟩
def Ev.DIR_IMPRESSION_TAKEN : Nat := 0
def Ev.DIR_IMPRESSION_LATE : Nat := 1
def Ev.DIR_AUDIT_MISMATCH : Nat := 2
def Ev.DIR_CORE_SUSPECT : Nat := 3
def Ev.DIR_LOCKSTEP_FAULT : Nat := 4
def Ev.DIR_CTRL_CORE_UE : Nat := 5

/-- Registers of class DIR by R67, R525, R526. -/
def rowsDIR : List RegRow := [
  { off := 0x020, cnt := 1, stride := 0, rsvp := 0xFF000000, resetT := 0xD031F, resetG := 0xD031F, resetS := 0xD031F },
  { off := 0x024, cnt := 1, stride := 0, rsvp := 0xFFFF0000 },
  { off := 0x028, cnt := 1, stride := 0, w1c := 0x80000000 },
  { off := 0x02C, cnt := 1, stride := 0, mw := 0x1, rsvp := 0xFFFE },
  { off := 0x040, cnt := 16, stride := 4 },
  { off := 0x100, cnt := 1, stride := 0, rw := 0xFFFFFFFF },
  { off := 0x104, cnt := 1, stride := 0, rw := 0xFFFFFFFF },
  { off := 0x108, cnt := 1, stride := 0, mw := 0x3, rsvp := 0xFEFC },
  { off := 0x10C, cnt := 1, stride := 0 },
  { off := 0x110, cnt := 1, stride := 0 },
  { off := 0x114, cnt := 1, stride := 0 },
  { off := 0x118, cnt := 1, stride := 0, rsvp := 0xFFFF0000 },
  { off := 0x200, cnt := 25, stride := 4 },
  { off := 0x280, cnt := 1, stride := 0, rw := 0x1, rsvp := 0xFFFFFFFE, wl := 0x1, resetT := 0x1, resetG := 0x1, resetS := 0x1 },
  { off := 0x284, cnt := 1, stride := 0 },
  { off := 0x288, cnt := 1, stride := 0 },
  { off := 0x28C, cnt := 1, stride := 0, w1c := 0x80000000, rsvp := 0x7C000000 },
  { off := 0x2A0, cnt := 8, stride := 4, w1c := 0xFFFFFFFF },
  { off := 0x2C0, cnt := 1, stride := 0, rw := 0xFF, rsvp := 0xFFFFFF00, resetT := 0x4, resetG := 0x4, resetS := 0x4 },
  { off := 0x2C4, cnt := 1, stride := 0, rsvp := 0xFFFFFFFE },
  { off := 0x2C8, cnt := 1, stride := 0, rw := 0x7, rsvp := 0xFFFFFFF8, resetT := 0x7, resetG := 0x7, resetS := 0x7 },
  { off := 0x300, cnt := 1, stride := 0, rw := 0xFFFFFFFF },
  { off := 0x304, cnt := 1, stride := 0, mw := 0x1, rsvp := 0xFCFE },
  { off := 0x308, cnt := 1, stride := 0 },
  { off := 0x30C, cnt := 1, stride := 0 },
  { off := 0x340, cnt := 16, stride := 4 }]

/-! ### MEMD (R95) -/

def F.MEMD_PERIOD : Fld := ⟨0x020, 0, 12⟩
def F.MEMD_POS : Fld := ⟨0x024, 0, 24⟩
def F.MEMD_PASSES : Fld := ⟨0x028, 0, 32⟩
def F.MEMD_CE : Fld := ⟨0x02C, 0, 32⟩
def F.MEMD_UE : Fld := ⟨0x030, 0, 32⟩
def F.MEMD_THRESH : Fld := ⟨0x034, 0, 16⟩
def F.MEMD_ADDR_LO : Fld := ⟨0x038, 0, 32⟩
def F.MEMD_ADDR_HI : Fld := ⟨0x03C, 0, 32⟩
def F.MEMD_LINK_CE : Fld := ⟨0x040, 0, 16⟩
def F.MEMD_LINK_RETRY : Fld := ⟨0x040, 16, 16⟩
def Ev.MEMD_CE_THRESHOLD : Nat := 0
def Ev.MEMD_UE : Nat := 1
def Ev.MEMD_SCRUB_PASS : Nat := 2
def Ev.MEMD_LINK_RETRY : Nat := 3

/-- Registers of class MEMD by R95. -/
def rowsMEMD : List RegRow := [
  { off := 0x020, cnt := 1, stride := 0, rw := 0xFFF, rsvp := 0xFFFFF000, wl := 0xFFF, resetT := 0x258, resetG := 0x258, resetS := 0x258 },
  { off := 0x024, cnt := 1, stride := 0, rsvp := 0xFF000000 },
  { off := 0x028, cnt := 1, stride := 0 },
  { off := 0x02C, cnt := 1, stride := 0 },
  { off := 0x030, cnt := 1, stride := 0 },
  { off := 0x034, cnt := 1, stride := 0, rw := 0xFFFF, rsvp := 0xFFFF0000, resetT := 0x100, resetG := 0x100, resetS := 0x100 },
  { off := 0x038, cnt := 1, stride := 0 },
  { off := 0x03C, cnt := 1, stride := 0 },
  { off := 0x040, cnt := 1, stride := 0 }]

/-! ### MEMP (R93, R97, R503) -/

def F.MEMP_LOG2_K : Fld := ⟨0x020, 0, 2⟩
def F.MEMP_CREATE : Fld := ⟨0x024, 0, 8⟩
def F.MEMP_TEARDOWN : Fld := ⟨0x024, 8, 8⟩
def F.MEMP_INDEX : Fld := ⟨0x030, 0, 19⟩
def F.MEMP_DATA_LO : Fld := ⟨0x034, 0, 32⟩
def F.MEMP_DATA_HI : Fld := ⟨0x038, 0, 32⟩
def F.MEMP_WRITE : Fld := ⟨0x03C, 0, 1⟩
def F.MEMP_READ : Fld := ⟨0x03C, 1, 1⟩
def F.MEMP_BUSY : Fld := ⟨0x03C, 8, 1⟩
def F.MEMP_RESULT : Fld := ⟨0x03C, 9, 3⟩
def F.MEMP_MAPPED : Fld := ⟨0x040, 0, 20⟩
def F.MEMP_FP_LO : Fld := ⟨0x044, 0, 32⟩
def F.MEMP_FP_HI : Fld := ⟨0x048, 0, 32⟩
def F.MEMP_WRITTEN : Fld := ⟨0x050, 0, 8⟩
def F.MEMP_LOST : Fld := ⟨0x050, 8, 8⟩
def F.MEMP_ACKED : Fld := ⟨0x054, 0, 8⟩
def F.MEMP_LIST_LO : Fld := ⟨0x060, 0, 32⟩
def F.MEMP_LIST_HI : Fld := ⟨0x064, 0, 32⟩
def F.MEMP_REQ_LIST_LO : Fld := ⟨0x068, 0, 32⟩
def F.MEMP_REQ_LIST_HI : Fld := ⟨0x06C, 0, 32⟩
def F.MEMP_DONE_CTR_070 : Fld := ⟨0x070, 0, 13⟩
def F.MEMP_DONE_EN_070 : Fld := ⟨0x070, 13, 1⟩
def F.MEMP_AUTO : Fld := ⟨0x070, 14, 1⟩
def F.MEMP_REQ : Fld := ⟨0x074, 0, 1⟩
def F.MEMP_PROTECTING : Fld := ⟨0x074, 8, 1⟩
def F.MEMP_STREAMING : Fld := ⟨0x074, 9, 1⟩
def F.MEMP_AUTO_MS : Fld := ⟨0x078, 0, 32⟩
def F.MEMP_MS : Fld := ⟨0x07C, 0, 32⟩
def F.MEMP_SCALE : Fld := ⟨0x080, 0, 16⟩
def F.MEMP_WINDOW_H : Fld := ⟨0x080, 16, 8⟩
def F.MEMP_MIN_S : Fld := ⟨0x084, 0, 16⟩
def F.MEMP_MAX_S : Fld := ⟨0x084, 16, 16⟩
def F.MEMP_FIRST : Fld := ⟨0x088, 0, 13⟩
def F.MEMP_COUNT : Fld := ⟨0x088, 13, 13⟩
def F.MEMP_LAST_STATUS : Fld := ⟨0x08C, 0, 8⟩
def F.MEMP_ENDED : Fld := ⟨0x08C, 8, 8⟩
def F.MEMP_LAST_KIND : Fld := ⟨0x08C, 16, 2⟩
def F.MEMP_LAST_STEP : Fld := ⟨0x090, 0, 32⟩
def F.MEMP_COST_US : Fld := ⟨0x094, 0, 32⟩
def F.MEMP_SNAP_ID : Fld := ⟨0x098, 0, 32⟩
def F.MEMP_TOUCHES : Fld := ⟨0x09C, 0, 32⟩
def F.MEMP_DESC_LO : Fld := ⟨0x0A0, 0, 32⟩
def F.MEMP_DESC_HI : Fld := ⟨0x0A4, 0, 32⟩
def F.MEMP_START : Fld := ⟨0x0A8, 0, 1⟩
def F.MEMP_ABORT : Fld := ⟨0x0A8, 1, 1⟩
def F.MEMP_STATE : Fld := ⟨0x0A8, 8, 3⟩
def F.MEMP_STATUS : Fld := ⟨0x0AC, 0, 8⟩
def F.MEMP_OTHER_LOST : Fld := ⟨0x0AC, 16, 16⟩
def F.MEMP_PAGES : Fld := ⟨0x0B0, 0, 32⟩
def F.MEMP_DONE_CTR_0B4 : Fld := ⟨0x0B4, 0, 13⟩
def F.MEMP_DONE_EN_0B4 : Fld := ⟨0x0B4, 13, 1⟩
def F.MEMP_PART_STATES : Fld := ⟨0x028, 0, 24⟩
def F.MEMP_ERR_RECORD : Fld := ⟨0x200, 0, 32⟩
def Ev.MEMP_ERROR_RECORD : Nat := 0
def Ev.MEMP_PART_STOPPED : Nat := 1
def Ev.MEMP_PMAP_DONE : Nat := 2
def Ev.MEMP_DIVISION_REFUSED : Nat := 3
def Ev.MEMP_CREATE_DONE : Nat := 4
def Ev.MEMP_TEARDOWN_DONE : Nat := 5

/-- Registers of class MEMP by R93, R97, R503. -/
def rowsMEMP : List RegRow := [
  { off := 0x020, cnt := 1, stride := 0, rw := 0x3, rsvp := 0xFFFFFFFC, wl := 0x3 },
  { off := 0x024, cnt := 1, stride := 0, mw := 0xFFFF },
  { off := 0x028, cnt := 1, stride := 0, rsvp := 0xFF000000 },
  { off := 0x030, cnt := 1, stride := 0, rw := 0x7FFFF, rsvp := 0xFFF80000 },
  { off := 0x034, cnt := 1, stride := 0, rw := 0xFFFFFFFF },
  { off := 0x038, cnt := 1, stride := 0, rw := 0xFFFFFFFF },
  { off := 0x03C, cnt := 1, stride := 0, mw := 0x3, rsvp := 0xF0FC },
  { off := 0x040, cnt := 1, stride := 0, rsvp := 0xFFF00000 },
  { off := 0x044, cnt := 1, stride := 0 },
  { off := 0x048, cnt := 1, stride := 0 },
  { off := 0x050, cnt := 1, stride := 0, rsvp := 0xFFFF0000 },
  { off := 0x054, cnt := 1, stride := 0, rw := 0xFF, rsvp := 0xFFFFFF00 },
  { off := 0x060, cnt := 1, stride := 0, rw := 0xFFFFFFFF },
  { off := 0x064, cnt := 1, stride := 0, rw := 0xFFFFFFFF },
  { off := 0x068, cnt := 1, stride := 0, rw := 0xFFFFFFFF },
  { off := 0x06C, cnt := 1, stride := 0, rw := 0xFFFFFFFF },
  { off := 0x070, cnt := 1, stride := 0, rw := 0x7FFF, rsvp := 0xFFFF8000 },
  { off := 0x074, cnt := 1, stride := 0, mw := 0x1, rsvp := 0xFCFE },
  { off := 0x078, cnt := 1, stride := 0, rw := 0xFFFFFFFF, resetT := 0xEA60, resetG := 0xEA60, resetS := 0xEA60 },
  { off := 0x07C, cnt := 1, stride := 0, rw := 0xFFFFFFFF },
  { off := 0x080, cnt := 1, stride := 0, rw := 0xFFFFFF, rsvp := 0xFF000000, resetT := 0xA80001, resetG := 0xA80001, resetS := 0xA80001 },
  { off := 0x084, cnt := 1, stride := 0, rw := 0xFFFFFFFF, resetT := 0xE10000A, resetG := 0xE10000A, resetS := 0xE10000A },
  { off := 0x088, cnt := 1, stride := 0, rw := 0x3FFFFFF, rsvp := 0xFC000000 },
  { off := 0x08C, cnt := 1, stride := 0, rsvp := 0xFFFC0000 },
  { off := 0x090, cnt := 1, stride := 0, resetT := 0xFFFFFFFF, resetG := 0xFFFFFFFF, resetS := 0xFFFFFFFF },
  { off := 0x094, cnt := 1, stride := 0 },
  { off := 0x098, cnt := 1, stride := 0 },
  { off := 0x09C, cnt := 1, stride := 0 },
  { off := 0x0A0, cnt := 1, stride := 0, rw := 0xFFFFFFFF },
  { off := 0x0A4, cnt := 1, stride := 0, rw := 0xFFFFFFFF },
  { off := 0x0A8, cnt := 1, stride := 0, mw := 0x3, rsvp := 0xF8FC },
  { off := 0x0AC, cnt := 1, stride := 0, rsvp := 0xFF00 },
  { off := 0x0B0, cnt := 1, stride := 0 },
  { off := 0x0B4, cnt := 1, stride := 0, rw := 0x3FFF, rsvp := 0xFFFFC000 },
  { off := 0x200, cnt := 64, stride := 4 }]

/-! ### CORE (R124, R125, R162, R214) -/

def F.CORE_SLOT_WORK : Fld := ⟨0x020, 0, 4⟩
def F.CORE_HELD : Fld := ⟨0x020, 4, 1⟩
def F.CORE_SHARE_PENDING : Fld := ⟨0x020, 5, 1⟩
def F.CORE_STOPPED : Fld := ⟨0x020, 6, 1⟩
def F.CORE_THREADS_LIVE : Fld := ⟨0x020, 8, 7⟩
def F.CORE_GALLEY_CE : Fld := ⟨0x024, 0, 32⟩
def F.CORE_WAITS : Fld := ⟨0x028, 0, 16⟩
def F.CORE_URGENT_GRANTS : Fld := ⟨0x02C, 0, 32⟩
def F.CORE_BUSY_LO : Fld := ⟨0x040, 0, 32⟩
def F.CORE_BUSY_HI : Fld := ⟨0x044, 0, 32⟩
def F.CORE_IDLE_LO : Fld := ⟨0x048, 0, 32⟩
def F.CORE_IDLE_HI : Fld := ⟨0x04C, 0, 32⟩
def F.CORE_IMP : Fld := ⟨0x0A0, 0, 32⟩
def F.CORE_URGENCY : Fld := ⟨0x104, 0, 16⟩
def F.CORE_TILES : Fld := ⟨0x030, 0, 32⟩
def F.CORE_PROG_STATUS : Fld := ⟨0x034, 0, 8⟩
def F.CORE_PROG_THREAD : Fld := ⟨0x034, 8, 6⟩
def F.CORE_PROG_VALID : Fld := ⟨0x034, 31, 1⟩
def F.CORE_PROG_PC_LO : Fld := ⟨0x038, 0, 32⟩
def F.CORE_PROG_PC_HI : Fld := ⟨0x03C, 0, 32⟩
def F.CORE_FORME_STATUS : Fld := ⟨0x0F8, 0, 8⟩
def F.CORE_FORME_OPCODE : Fld := ⟨0x0F8, 8, 8⟩
def F.CORE_FORME_SLOT : Fld := ⟨0x0F8, 16, 2⟩
def F.CORE_FORME_VALID : Fld := ⟨0x0F8, 31, 1⟩
def F.CORE_POSTED : Fld := ⟨0x0FC, 0, 32⟩
def F.CORE_RATE : Fld := ⟨0x400, 0, 16⟩
def F.CORE_TOL_LOG2 : Fld := ⟨0x400, 16, 5⟩
def F.CORE_PROOFS : Fld := ⟨0x404, 0, 32⟩
def F.CORE_MISMATCHES : Fld := ⟨0x408, 0, 32⟩
def F.CORE_LAST_LAYER : Fld := ⟨0x40C, 0, 16⟩
def F.CORE_LAST_MODE : Fld := ⟨0x40C, 16, 2⟩
def F.CORE_LAST_VALID : Fld := ⟨0x40C, 31, 1⟩
def F.CORE_RING_LO : Fld := ⟨0x410, 0, 32⟩
def F.CORE_RING_HI : Fld := ⟨0x414, 0, 32⟩
def F.CORE_WRITTEN : Fld := ⟨0x418, 0, 16⟩
def F.CORE_DROPPED : Fld := ⟨0x418, 16, 16⟩
def F.CORE_ACKED : Fld := ⟨0x41C, 0, 16⟩
def F.CORE_INVALID : Fld := ⟨0x420, 0, 1⟩
def F.CORE_DIV_ZERO : Fld := ⟨0x420, 1, 1⟩
def F.CORE_OVERFLOW : Fld := ⟨0x420, 2, 1⟩
def F.CORE_UNDERFLOW : Fld := ⟨0x420, 3, 1⟩
def F.CORE_INEXACT : Fld := ⟨0x420, 4, 1⟩
def F.CORE_SATURATED : Fld := ⟨0x424, 0, 32⟩
def F.CORE_IMP_PROOFS : Fld := ⟨0x428, 0, 32⟩
def F.CORE_IMP_MISMATCHES : Fld := ⟨0x42C, 0, 32⟩
def F.CORE_WEIGHT_0 : Fld := ⟨0x100, 0, 7⟩
def F.CORE_FILL_0 : Fld := ⟨0x100, 7, 1⟩
def F.CORE_SHARE_0 : Fld := ⟨0x108, 0, 4⟩
def F.CORE_WEIGHT_1 : Fld := ⟨0x100, 8, 7⟩
def F.CORE_FILL_1 : Fld := ⟨0x100, 15, 1⟩
def F.CORE_SHARE_1 : Fld := ⟨0x108, 4, 4⟩
def F.CORE_WEIGHT_2 : Fld := ⟨0x100, 16, 7⟩
def F.CORE_FILL_2 : Fld := ⟨0x100, 23, 1⟩
def F.CORE_SHARE_2 : Fld := ⟨0x108, 8, 4⟩
def F.CORE_WEIGHT_3 : Fld := ⟨0x100, 24, 7⟩
def F.CORE_FILL_3 : Fld := ⟨0x100, 31, 1⟩
def F.CORE_SHARE_3 : Fld := ⟨0x108, 12, 4⟩
def Ev.CORE_SYNC_TIMEOUT : Nat := 0
def Ev.CORE_SYNC_RANGE : Nat := 1
def Ev.CORE_GALLEY_CE : Nat := 2
def Ev.CORE_SHARE_CLAMPED : Nat := 3
def Ev.CORE_URGENT_SERVED : Nat := 4
def Ev.CORE_PROG_FAULT : Nat := 8
def Ev.CORE_FORME_ERROR : Nat := 9
def Ev.CORE_PROOF_MISMATCH : Nat := 16
def Ev.CORE_PROOF_DROPPED : Nat := 17
def Ev.CORE_PLATEN_INVALID : Nat := 18
def Ev.CORE_PLATEN_OVERFLOW : Nat := 19
def Ev.CORE_SATURATED : Nat := 20

/-- Registers of class CORE by R124, R125, R162, R214. -/
def rowsCORE : List RegRow := [
  { off := 0x020, cnt := 1, stride := 0, rsvp := 0xFFFF8080 },
  { off := 0x024, cnt := 1, stride := 0 },
  { off := 0x028, cnt := 1, stride := 0, rsvp := 0xFFFF0000 },
  { off := 0x02C, cnt := 1, stride := 0 },
  { off := 0x030, cnt := 1, stride := 0 },
  { off := 0x034, cnt := 1, stride := 0, w1c := 0x80000000, rsvp := 0x7FFFC000 },
  { off := 0x038, cnt := 1, stride := 0 },
  { off := 0x03C, cnt := 1, stride := 0 },
  { off := 0x040, cnt := 1, stride := 0 },
  { off := 0x044, cnt := 1, stride := 0 },
  { off := 0x048, cnt := 10, stride := 8 },
  { off := 0x04C, cnt := 10, stride := 8 },
  { off := 0x0A0, cnt := 22, stride := 4 },
  { off := 0x0F8, cnt := 1, stride := 0, w1c := 0x80000000, rsvp := 0x7FFC0000 },
  { off := 0x0FC, cnt := 1, stride := 0 },
  { off := 0x100, cnt := 1, stride := 0, rw := 0xFFFFFFFF, ov := 0xFFFFFFFF, buf := 0xFFFFFFFF, resetT := 0x1810808, resetG := 0x1040804, resetS := 0x1010101 },
  { off := 0x104, cnt := 1, stride := 0, rw := 0xFFFF, rsvp := 0xFFFF0000, ov := 0xFFFF, buf := 0xFFFFFFFF, resetT := 0x200, resetG := 0x200, resetS := 0x200 },
  { off := 0x108, cnt := 1, stride := 0, rw := 0xFFFF, rsvp := 0xFFFF0000, ov := 0xFFFF, buf := 0xFFFFFFFF, resetT := 0x1455, resetG := 0x2364, resetS := 0x3333 },
  { off := 0x400, cnt := 1, stride := 0, rw := 0x1FFFFF, rsvp := 0xFFE00000, resetT := 0xA1000, resetG := 0xA1000, resetS := 0xA1000 },
  { off := 0x404, cnt := 1, stride := 0 },
  { off := 0x408, cnt := 1, stride := 0 },
  { off := 0x40C, cnt := 1, stride := 0, w1c := 0x80000000, rsvp := 0x7FFC0000 },
  { off := 0x410, cnt := 1, stride := 0, rw := 0xFFFFFFFF },
  { off := 0x414, cnt := 1, stride := 0, rw := 0xFFFFFFFF },
  { off := 0x418, cnt := 1, stride := 0 },
  { off := 0x41C, cnt := 1, stride := 0, rw := 0xFFFF, rsvp := 0xFFFF0000 },
  { off := 0x420, cnt := 1, stride := 0, w1c := 0x1F, rsvp := 0xFFFFFFE0 },
  { off := 0x424, cnt := 1, stride := 0 },
  { off := 0x428, cnt := 1, stride := 0 },
  { off := 0x42C, cnt := 1, stride := 0 }]

/-! ### SYNC (R127) -/

def F.SYNC_INDEX : Fld := ⟨0x020, 0, 8⟩
def F.SYNC_ADD : Fld := ⟨0x024, 0, 32⟩
def F.SYNC_OPS : Fld := ⟨0x028, 0, 32⟩
def F.SYNC_WAITERS : Fld := ⟨0x02C, 0, 16⟩
def F.SYNC_IMP_OPS : Fld := ⟨0x030, 0, 32⟩
def F.SYNC_WAIT_CAUSE : Fld := ⟨0x400, 0, 2⟩
def F.SYNC_WEIGHT : Fld := ⟨0x400, 8, 8⟩
def F.SYNC_VALUE : Fld := ⟨0x800, 0, 32⟩
def F.SYNC_LIMIT : Fld := ⟨0xC00, 0, 32⟩

/-- Registers of class SYNC by R127. -/
def rowsSYNC : List RegRow := [
  { off := 0x020, cnt := 1, stride := 0, rw := 0xFF, rsvp := 0xFFFFFF00 },
  { off := 0x024, cnt := 1, stride := 0, rw := 0xFFFFFFFF },
  { off := 0x028, cnt := 1, stride := 0 },
  { off := 0x02C, cnt := 1, stride := 0, rsvp := 0xFFFF0000 },
  { off := 0x030, cnt := 1, stride := 0 },
  { off := 0x400, cnt := 256, stride := 4, rw := 0xFF03, rsvp := 0xFFFF00FC, resetT := 0x100, resetG := 0x100, resetS := 0x100 },
  { off := 0x800, cnt := 256, stride := 4, rw := 0xFFFFFFFF },
  { off := 0xC00, cnt := 256, stride := 4, rw := 0xFFFFFFFF, resetT := 0xFFFFFFFF, resetG := 0xFFFFFFFF, resetS := 0xFFFFFFFF }]

/-! ### PLAN (R181) -/

def F.PLAN_PASS1_MULT : Fld := ⟨0x020, 0, 4⟩
def F.PLAN_PASS2_MULT : Fld := ⟨0x020, 4, 4⟩
def F.PLAN_FLUSH : Fld := ⟨0x024, 0, 1⟩
def F.PLAN_HELD_FORMES : Fld := ⟨0x028, 0, 9⟩
def F.PLAN_HELD_PLANS : Fld := ⟨0x028, 9, 7⟩
def F.PLAN_TAKEN : Fld := ⟨0x02C, 0, 32⟩
def F.PLAN_REUSED : Fld := ⟨0x030, 0, 32⟩
def F.PLAN_PLANNED : Fld := ⟨0x034, 0, 32⟩
def F.PLAN_REFUSED : Fld := ⟨0x038, 0, 32⟩
def F.PLAN_IMP_TAKEN : Fld := ⟨0x044, 0, 32⟩
def F.PLAN_IMP_PLANNED : Fld := ⟨0x048, 0, 32⟩
def F.PLAN_TILE_M : Fld := ⟨0x03C, 0, 2⟩
def F.PLAN_TILE_N : Fld := ⟨0x03C, 2, 2⟩
def F.PLAN_K_CHUNK : Fld := ⟨0x03C, 4, 3⟩
def F.PLAN_ORDER : Fld := ⟨0x03C, 7, 2⟩
def F.PLAN_RELAXED : Fld := ⟨0x03C, 9, 1⟩
def F.PLAN_OPCODE : Fld := ⟨0x03C, 16, 8⟩
def F.PLAN_BRANCH : Fld := ⟨0x03C, 24, 3⟩
def F.PLAN_TILES : Fld := ⟨0x040, 0, 32⟩
def Ev.PLAN_QUEUE_FULL : Nat := 0
def Ev.PLAN_NO_FIT : Nat := 1
def Ev.PLAN_PIN_RELAXED : Nat := 2
def Ev.PLAN_PLANS_FLUSHED : Nat := 3

/-- Registers of class PLAN by R181. -/
def rowsPLAN : List RegRow := [
  { off := 0x020, cnt := 1, stride := 0, rw := 0xFF, rsvp := 0xFFFFFF00, buf := 0xFF, resetT := 0x12, resetG := 0x12, resetS := 0x12 },
  { off := 0x024, cnt := 1, stride := 0, mw := 0x1, rsvp := 0xFFFE },
  { off := 0x028, cnt := 1, stride := 0, rsvp := 0xFFFF0000 },
  { off := 0x02C, cnt := 1, stride := 0 },
  { off := 0x030, cnt := 1, stride := 0 },
  { off := 0x034, cnt := 1, stride := 0 },
  { off := 0x038, cnt := 1, stride := 0 },
  { off := 0x03C, cnt := 1, stride := 0, rsvp := 0xF800FC00 },
  { off := 0x040, cnt := 1, stride := 0 },
  { off := 0x044, cnt := 1, stride := 0 },
  { off := 0x048, cnt := 1, stride := 0 }]

/-! ### CAMBL (R266, R275, R297, R504) -/

def F.CAMBL_WATCH_BASE_LO : Fld := ⟨0x0C0, 0, 32⟩
def F.CAMBL_WATCH_BASE_HI : Fld := ⟨0x0C4, 0, 32⟩
def F.CAMBL_LAYERS : Fld := ⟨0x0C8, 0, 13⟩
def F.CAMBL_FRAC : Fld := ⟨0x0C8, 13, 9⟩
def F.CAMBL_RUN_LIMIT : Fld := ⟨0x0C8, 22, 10⟩
def F.CAMBL_LAYER : Fld := ⟨0x0CC, 0, 16⟩
def F.CAMBL_VALID : Fld := ⟨0x0CC, 31, 1⟩
def F.CAMBL_STARVED : Fld := ⟨0x0D0, 0, 32⟩
def F.CAMBL_OUTSIDE : Fld := ⟨0x0D4, 0, 32⟩
def F.CAMBL_ARENA_BASE_LO : Fld := ⟨0x0D8, 0, 32⟩
def F.CAMBL_ARENA_BASE_HI : Fld := ⟨0x0DC, 0, 32⟩
def F.CAMBL_COUNT : Fld := ⟨0x0E0, 0, 7⟩
def F.CAMBL_SPILLS : Fld := ⟨0x0E4, 0, 32⟩
def F.CAMBL_DROPS : Fld := ⟨0x0E8, 0, 32⟩
def F.CAMBL_FULLS : Fld := ⟨0x0EC, 0, 32⟩
def F.CAMBL_ABORT : Fld := ⟨0x0B0, 0, 1⟩
def F.CAMBL_NORM_PREV : Fld := ⟨0x080, 0, 32⟩
def F.CAMBL_PREV_VALID : Fld := ⟨0x084, 0, 1⟩
def F.CAMBL_ARMED : Fld := ⟨0x084, 1, 1⟩
def F.CAMBL_LAST_OUTCOME : Fld := ⟨0x084, 8, 8⟩
def F.CAMBL_NORM_LAST : Fld := ⟨0x088, 0, 32⟩
def F.CAMBL_CLIP_NOW : Fld := ⟨0x08C, 0, 32⟩
def F.CAMBL_STATS_BASE_LO : Fld := ⟨0x090, 0, 32⟩
def F.CAMBL_STATS_BASE_HI : Fld := ⟨0x094, 0, 32⟩
def F.CAMBL_WRITTEN : Fld := ⟨0x098, 0, 16⟩
def F.CAMBL_DROPPED : Fld := ⟨0x098, 16, 16⟩
def F.CAMBL_ACKED : Fld := ⟨0x09C, 0, 16⟩
def F.CAMBL_COMMITTED : Fld := ⟨0x0A0, 0, 32⟩
def F.CAMBL_NONFINITE_STEPS : Fld := ⟨0x0A4, 0, 32⟩
def F.CAMBL_CEILING_STEPS : Fld := ⟨0x0A8, 0, 32⟩
def F.CAMBL_IMP_COMMITTED : Fld := ⟨0x0AC, 0, 32⟩
def F.CAMBL_LIST_LO : Fld := ⟨0x0F0, 0, 32⟩
def F.CAMBL_LIST_HI : Fld := ⟨0x0F4, 0, 32⟩
def F.CAMBL_START : Fld := ⟨0x0F8, 0, 1⟩
def F.CAMBL_BUSY : Fld := ⟨0x0F8, 8, 1⟩
def F.CAMBL_STATUS : Fld := ⟨0x0FC, 0, 8⟩
def F.CAMBL_ITEMS_DONE : Fld := ⟨0x0FC, 8, 24⟩

/-- Registers of class CAMBL by R266, R275, R297, R504. -/
def rowsCAMBL : List RegRow := [
  { off := 0x080, cnt := 1, stride := 0, rw := 0xFFFFFFFF },
  { off := 0x084, cnt := 1, stride := 0, rw := 0x1, rsvp := 0xFFFF00FC },
  { off := 0x088, cnt := 1, stride := 0 },
  { off := 0x08C, cnt := 1, stride := 0, resetT := 0x3F800000, resetG := 0x3F800000, resetS := 0x3F800000 },
  { off := 0x090, cnt := 1, stride := 0, rw := 0xFFFFFFFF, buf := 0xFFFFFFFF },
  { off := 0x094, cnt := 1, stride := 0, rw := 0xFFFFFFFF, buf := 0xFFFFFFFF },
  { off := 0x098, cnt := 1, stride := 0 },
  { off := 0x09C, cnt := 1, stride := 0, rw := 0xFFFF, rsvp := 0xFFFF0000 },
  { off := 0x0A0, cnt := 1, stride := 0 },
  { off := 0x0A4, cnt := 1, stride := 0 },
  { off := 0x0A8, cnt := 1, stride := 0 },
  { off := 0x0AC, cnt := 1, stride := 0 },
  { off := 0x0B0, cnt := 1, stride := 0, mw := 0x1, rsvp := 0xFFFE },
  { off := 0x0C0, cnt := 1, stride := 0, rw := 0xFFFFFFFF, buf := 0xFFFFFFFF },
  { off := 0x0C4, cnt := 1, stride := 0, rw := 0xFFFFFFFF, buf := 0xFFFFFFFF },
  { off := 0x0C8, cnt := 1, stride := 0, rw := 0xFFFFFFFF, buf := 0xFFFFFFFF, resetT := 0x8200000, resetG := 0x8200000, resetS := 0x8200000 },
  { off := 0x0CC, cnt := 1, stride := 0, w1c := 0x80000000, rsvp := 0x7FFF0000 },
  { off := 0x0D0, cnt := 1, stride := 0 },
  { off := 0x0D4, cnt := 1, stride := 0 },
  { off := 0x0D8, cnt := 1, stride := 0, rw := 0xFFFFFFFF, buf := 0xFFFFFFFF },
  { off := 0x0DC, cnt := 1, stride := 0, rw := 0xFFFFFFFF, buf := 0xFFFFFFFF },
  { off := 0x0E0, cnt := 1, stride := 0, rw := 0x7F, rsvp := 0xFFFFFF80, buf := 0x7F },
  { off := 0x0E4, cnt := 1, stride := 0 },
  { off := 0x0E8, cnt := 1, stride := 0 },
  { off := 0x0EC, cnt := 1, stride := 0 },
  { off := 0x0F0, cnt := 1, stride := 0, rw := 0xFFFFFFFF },
  { off := 0x0F4, cnt := 1, stride := 0, rw := 0xFFFFFFFF },
  { off := 0x0F8, cnt := 1, stride := 0, mw := 0x1, rsvp := 0xFEFE },
  { off := 0x0FC, cnt := 1, stride := 0 }]

/-! ### CAMB (R296) -/

def F.CAMB_ARMED : Fld := ⟨0x020, 0, 1⟩
def F.CAMB_COMMITTING : Fld := ⟨0x020, 1, 1⟩
def F.CAMB_INTAKE : Fld := ⟨0x020, 8, 10⟩
def F.CAMB_BLOCKS_LO : Fld := ⟨0x024, 0, 32⟩
def F.CAMB_BLOCKS_HI : Fld := ⟨0x028, 0, 32⟩
def F.CAMB_STALL : Fld := ⟨0x02C, 0, 32⟩
def F.CAMB_RESCALE_UP : Fld := ⟨0x030, 0, 32⟩
def F.CAMB_RESCALE_DOWN : Fld := ⟨0x034, 0, 32⟩
def F.CAMB_SATURATED : Fld := ⟨0x038, 0, 32⟩
def F.CAMB_NONFINITE : Fld := ⟨0x03C, 0, 32⟩
def F.CAMB_OVERRUN : Fld := ⟨0x040, 0, 32⟩
def F.CAMB_SPILL_PAGES : Fld := ⟨0x044, 0, 32⟩
def F.CAMB_IMP_BLOCKS_LO : Fld := ⟨0x060, 0, 32⟩
def F.CAMB_IMP_BLOCKS_HI : Fld := ⟨0x064, 0, 32⟩
def F.CAMB_IMP_STALL : Fld := ⟨0x068, 0, 32⟩
def Ev.CAMB_LAYER_STARVED : Nat := 24
def Ev.CAMB_WATCH_FAULT : Nat := 25
def Ev.CAMB_ARENA_FULL : Nat := 26
def Ev.CAMB_ARENA_REFUSED : Nat := 27
def Ev.CAMB_SHARD_OVERRUN : Nat := 0
def Ev.CAMB_BLOCK_SATURATED : Nat := 1
def Ev.CAMB_GRAD_NONFINITE : Nat := 2
def Ev.CAMB_STEP_COMMITTED : Nat := 8
def Ev.CAMB_NORM_NONFINITE : Nat := 9
def Ev.CAMB_NORM_CEILING : Nat := 10
def Ev.CAMB_STATS_DROPPED : Nat := 11
def Ev.CAMB_NORM_WRITE_IGNORED : Nat := 12
def Ev.CAMB_UPDATE_ABORTED : Nat := 13

/-- Registers of class CAMB by R296. -/
def rowsCAMB : List RegRow := [
  { off := 0x020, cnt := 1, stride := 0, rsvp := 0xFFFC00FC },
  { off := 0x024, cnt := 1, stride := 0 },
  { off := 0x028, cnt := 1, stride := 0 },
  { off := 0x02C, cnt := 1, stride := 0 },
  { off := 0x030, cnt := 1, stride := 0 },
  { off := 0x034, cnt := 1, stride := 0 },
  { off := 0x038, cnt := 1, stride := 0 },
  { off := 0x03C, cnt := 1, stride := 0 },
  { off := 0x040, cnt := 1, stride := 0 },
  { off := 0x044, cnt := 1, stride := 0 },
  { off := 0x060, cnt := 1, stride := 0 },
  { off := 0x064, cnt := 1, stride := 0 },
  { off := 0x068, cnt := 1, stride := 0 }]

/-! ### KV (R342, R343, R344) -/

def F.KV_LAYERS : Fld := ⟨0x020, 0, 8⟩
def F.KV_HKV : Fld := ⟨0x020, 8, 8⟩
def F.KV_DH32 : Fld := ⟨0x020, 16, 4⟩
def F.KV_KV_FORMAT : Fld := ⟨0x020, 20, 2⟩
def F.KV_POOL_BASE_LO : Fld := ⟨0x024, 0, 32⟩
def F.KV_POOL_BASE_HI : Fld := ⟨0x028, 0, 32⟩
def F.KV_POOL_BLOCKS : Fld := ⟨0x02C, 0, 21⟩
def F.KV_LOW_WATER : Fld := ⟨0x030, 0, 21⟩
def F.KV_HIGH_WATER : Fld := ⟨0x034, 0, 21⟩
def F.KV_CTR : Fld := ⟨0x038, 0, 13⟩
def F.KV_EN : Fld := ⟨0x038, 13, 1⟩
def F.KV_COUNT : Fld := ⟨0x03C, 0, 8⟩
def F.KV_DELAY_US : Fld := ⟨0x03C, 8, 16⟩
def F.KV_FREE_BLOCKS : Fld := ⟨0x050, 0, 21⟩
def F.KV_ACTIVE : Fld := ⟨0x054, 0, 13⟩
def F.KV_SWAPPED : Fld := ⟨0x054, 16, 13⟩
def F.KV_NODES : Fld := ⟨0x058, 0, 18⟩
def F.KV_ADMITTED : Fld := ⟨0x05C, 0, 32⟩
def F.KV_TOKENS_LO : Fld := ⟨0x060, 0, 32⟩
def F.KV_TOKENS_HI : Fld := ⟨0x064, 0, 32⟩
def F.KV_PREEMPTED : Fld := ⟨0x068, 0, 32⟩
def F.KV_RESUMED : Fld := ⟨0x06C, 0, 32⟩
def F.KV_PREFIX_BLOCKS : Fld := ⟨0x070, 0, 32⟩
def F.KV_COLLISIONS : Fld := ⟨0x074, 0, 32⟩
def F.KV_STALE : Fld := ⟨0x078, 0, 32⟩
def F.KV_REWOUND : Fld := ⟨0x07C, 0, 32⟩
def F.KV_IMP_TOKENS_LO : Fld := ⟨0x0A0, 0, 32⟩
def F.KV_IMP_TOKENS_HI : Fld := ⟨0x0A4, 0, 32⟩
def F.KV_IMP_FREE : Fld := ⟨0x0A8, 0, 21⟩
def F.KV_INDEX : Fld := ⟨0x0C0, 0, 24⟩
def F.KV_TABLE : Fld := ⟨0x0C0, 24, 3⟩
def F.KV_READ : Fld := ⟨0x0C4, 0, 1⟩
def F.KV_BUSY : Fld := ⟨0x0C4, 8, 1⟩
def F.KV_BAD : Fld := ⟨0x0C4, 9, 1⟩
def F.KV_DATA : Fld := ⟨0x100, 0, 32⟩
def Ev.KV_KV_LOW : Nat := 0
def Ev.KV_GEOMETRY_REFUSED : Nat := 1
def Ev.KV_KV_COLLISION : Nat := 2
def Ev.KV_KV_SWAP_FAULT : Nat := 3
def Ev.KV_RING_FULL : Nat := 4
def Ev.KV_KV_NO_BLOCKS : Nat := 5

/-- Registers of class KV by R342, R343, R344. -/
def rowsKV : List RegRow := [
  { off := 0x020, cnt := 1, stride := 0, rw := 0x3FFFFF, rsvp := 0xFFC00000, buf := 0xFFFFFFFF },
  { off := 0x024, cnt := 1, stride := 0, rw := 0xFFFFFFFF, buf := 0xFFFFFFFF },
  { off := 0x028, cnt := 1, stride := 0, rw := 0xFFFFFFFF, buf := 0xFFFFFFFF },
  { off := 0x02C, cnt := 1, stride := 0, rw := 0x1FFFFF, rsvp := 0xFFE00000, buf := 0xFFFFFFFF },
  { off := 0x030, cnt := 1, stride := 0, rw := 0x1FFFFF, rsvp := 0xFFE00000, buf := 0xFFFFFFFF, resetT := 0x200, resetG := 0x200, resetS := 0x200 },
  { off := 0x034, cnt := 1, stride := 0, rw := 0x1FFFFF, rsvp := 0xFFE00000, buf := 0xFFFFFFFF, resetT := 0x800, resetG := 0x800, resetS := 0x800 },
  { off := 0x038, cnt := 1, stride := 0, rw := 0x3FFF, rsvp := 0xFFFFC000, buf := 0xFFFFFFFF },
  { off := 0x03C, cnt := 1, stride := 0, rw := 0xFFFFFF, rsvp := 0xFF000000, buf := 0xFFFFFFFF, resetT := 0x3210, resetG := 0x3210, resetS := 0x3210 },
  { off := 0x050, cnt := 1, stride := 0 },
  { off := 0x054, cnt := 1, stride := 0 },
  { off := 0x058, cnt := 1, stride := 0 },
  { off := 0x05C, cnt := 1, stride := 0 },
  { off := 0x060, cnt := 1, stride := 0 },
  { off := 0x064, cnt := 1, stride := 0 },
  { off := 0x068, cnt := 1, stride := 0 },
  { off := 0x06C, cnt := 1, stride := 0 },
  { off := 0x070, cnt := 1, stride := 0 },
  { off := 0x074, cnt := 1, stride := 0 },
  { off := 0x078, cnt := 1, stride := 0 },
  { off := 0x07C, cnt := 1, stride := 0 },
  { off := 0x0A0, cnt := 1, stride := 0 },
  { off := 0x0A4, cnt := 1, stride := 0 },
  { off := 0x0A8, cnt := 1, stride := 0 },
  { off := 0x0C0, cnt := 1, stride := 0, rw := 0x7FFFFFF, rsvp := 0xF8000000 },
  { off := 0x0C4, cnt := 1, stride := 0, mw := 0x1, rsvp := 0xFCFE },
  { off := 0x100, cnt := 32, stride := 4 }]

/-! ### COPP (R366, R367) -/

def F.COPP_CURRENT : Fld := ⟨0x020, 0, 2⟩
def F.COPP_TARGET : Fld := ⟨0x020, 2, 2⟩
def F.COPP_REQ : Fld := ⟨0x020, 4, 1⟩
def F.COPP_STATE : Fld := ⟨0x020, 5, 3⟩
def F.COPP_TIMEOUT_MS : Fld := ⟨0x040, 0, 16⟩
def F.COPP_MOVING : Fld := ⟨0x044, 0, 3⟩
def F.COPP_BARRIER : Fld := ⟨0x044, 3, 3⟩
def F.COPP_SWITCHES : Fld := ⟨0x048, 0, 32⟩
def F.COPP_PLANS : Fld := ⟨0x04C, 0, 32⟩
def F.COPP_BYTES_OUT_LO : Fld := ⟨0x050, 0, 32⟩
def F.COPP_BYTES_OUT_HI : Fld := ⟨0x054, 0, 32⟩
def F.COPP_BYTES_IN_LO : Fld := ⟨0x058, 0, 32⟩
def F.COPP_BYTES_IN_HI : Fld := ⟨0x05C, 0, 32⟩
def F.COPP_STRAY : Fld := ⟨0x060, 0, 32⟩
def F.COPP_TIMEOUTS : Fld := ⟨0x064, 0, 32⟩
def F.COPP_LAST_STATUS : Fld := ⟨0x068, 0, 8⟩
def F.COPP_LAST_PARTITION : Fld := ⟨0x068, 8, 3⟩
def F.COPP_LAST_VALID : Fld := ⟨0x068, 31, 1⟩
def F.COPP_IMP_OUT_LO : Fld := ⟨0x070, 0, 32⟩
def F.COPP_IMP_OUT_HI : Fld := ⟨0x074, 0, 32⟩
def F.COPP_ENTRIES_DONE : Fld := ⟨0x080, 0, 32⟩
def Ev.COPP_SWITCH_DONE : Nat := 0
def Ev.COPP_SWITCH_REFUSED : Nat := 1
def Ev.COPP_PLAN_TIMEOUT : Nat := 2
def Ev.COPP_STRAY_WRITE : Nat := 3
def Ev.COPP_PLAN_FAULT : Nat := 4

/-- Registers of class COPP by R366, R367. -/
def rowsCOPP : List RegRow := [
  { off := 0x020, cnt := 8, stride := 4, mw := 0x1C, rsvp := 0xFF00, resetT := 0x3, resetG := 0x3, resetS := 0x3 },
  { off := 0x040, cnt := 1, stride := 0, rw := 0xFFFF, rsvp := 0xFFFF0000, buf := 0xFFFF, resetT := 0x3E8, resetG := 0x3E8, resetS := 0x3E8 },
  { off := 0x044, cnt := 1, stride := 0, rsvp := 0xFFFFFFC0 },
  { off := 0x048, cnt := 1, stride := 0 },
  { off := 0x04C, cnt := 1, stride := 0 },
  { off := 0x050, cnt := 1, stride := 0 },
  { off := 0x054, cnt := 1, stride := 0 },
  { off := 0x058, cnt := 1, stride := 0 },
  { off := 0x05C, cnt := 1, stride := 0 },
  { off := 0x060, cnt := 1, stride := 0 },
  { off := 0x064, cnt := 1, stride := 0 },
  { off := 0x068, cnt := 1, stride := 0, w1c := 0x80000000, rsvp := 0x7FFFF800 },
  { off := 0x070, cnt := 1, stride := 0 },
  { off := 0x074, cnt := 1, stride := 0 },
  { off := 0x080, cnt := 8, stride := 4 }]

/-! ### INTK0 (R402) -/

def F.INTK0_CLASS0_US : Fld := ⟨0x020, 0, 16⟩
def F.INTK0_CLASS1_US : Fld := ⟨0x020, 16, 16⟩
def F.INTK0_CLASS2_US : Fld := ⟨0x024, 0, 16⟩
def F.INTK0_CLASS3_US : Fld := ⟨0x024, 16, 16⟩
def F.INTK0_MAX_CORES : Fld := ⟨0x028, 0, 5⟩
def F.INTK0_SAMPLES : Fld := ⟨0x030, 0, 32⟩
def F.INTK0_REJECTED : Fld := ⟨0x034, 0, 32⟩
def F.INTK0_TIMEOUTS : Fld := ⟨0x038, 0, 32⟩
def F.INTK0_CONCEALED : Fld := ⟨0x03C, 0, 32⟩
def F.INTK0_STALE_START : Fld := ⟨0x040, 0, 32⟩
def F.INTK0_STALE_DELIVERY : Fld := ⟨0x044, 0, 32⟩
def F.INTK0_CACHE_HITS : Fld := ⟨0x048, 0, 32⟩
def F.INTK0_CACHE_FILLS : Fld := ⟨0x04C, 0, 32⟩
def F.INTK0_BATCHES : Fld := ⟨0x050, 0, 32⟩
def F.INTK0_IMP_SAMPLES : Fld := ⟨0x054, 0, 32⟩
def F.INTK0_IMP_BATCHES : Fld := ⟨0x058, 0, 32⟩
def F.INTK0_FAULT_TAG : Fld := ⟨0x05C, 0, 16⟩
def F.INTK0_FAULT_STATUS : Fld := ⟨0x05C, 16, 8⟩
def F.INTK0_FAULT_PART : Fld := ⟨0x05C, 24, 3⟩
def F.INTK0_VALID : Fld := ⟨0x05C, 31, 1⟩
def F.INTK0_QUEUE_LO : Fld := ⟨0x100, 0, 32⟩
def F.INTK0_QUEUE_HI : Fld := ⟨0x104, 0, 32⟩
def F.INTK0_DOOR_CTR : Fld := ⟨0x108, 0, 13⟩
def F.INTK0_TAKEN_CTR : Fld := ⟨0x108, 13, 13⟩
def F.INTK0_LOG2 : Fld := ⟨0x108, 26, 4⟩
def F.INTK0_EN : Fld := ⟨0x108, 30, 1⟩
def F.INTK0_HEAD : Fld := ⟨0x10C, 0, 32⟩
def F.INTK0_POOL_LO : Fld := ⟨0x110, 0, 32⟩
def F.INTK0_POOL_HI : Fld := ⟨0x114, 0, 32⟩
def F.INTK0_FRAMES : Fld := ⟨0x118, 0, 11⟩
def F.INTK0_FRAME_MIB : Fld := ⟨0x118, 11, 7⟩
def F.INTK0_POOL_FREE : Fld := ⟨0x11C, 0, 11⟩
def F.INTK0_CACHE_LO : Fld := ⟨0x120, 0, 32⟩
def F.INTK0_CACHE_HI : Fld := ⟨0x124, 0, 32⟩
def F.INTK0_CACHE_FRAMES : Fld := ⟨0x128, 0, 20⟩
def F.INTK0_CACHE_ENTRIES : Fld := ⟨0x12C, 0, 19⟩
def F.INTK0_ACTIVE_JOBS : Fld := ⟨0x130, 0, 4⟩
def F.INTK0_SERVICE_HELD : Fld := ⟨0x130, 4, 1⟩
def Ev.INTK0_OVERSIZE : Nat := 0
def Ev.INTK0_TIMEOUT : Nat := 1
def Ev.INTK0_CONCEALED : Nat := 2
def Ev.INTK0_STALE_DROP : Nat := 3
def Ev.INTK0_JOB_FAULT : Nat := 4
def Ev.INTK0_CONFIG_REFUSED : Nat := 5
def Ev.INTK0_UNSUPPORTED : Nat := 6
def Ev.INTK0_NO_FRAMES : Nat := 7
def Ev.INTK0_DAMAGE_DROPPED : Nat := 8

/-- Registers of class INTK0 by R402. -/
def rowsINTK0 : List RegRow := [
  { off := 0x020, cnt := 1, stride := 0, rw := 0xFFFFFFFF, buf := 0xFFFFFFFF, resetT := 0x7D02710, resetG := 0x7D02710, resetS := 0x7D02710 },
  { off := 0x024, cnt := 1, stride := 0, rw := 0xFFFFFFFF, buf := 0xFFFFFFFF, resetT := 0x6401F4, resetG := 0x6401F4, resetS := 0x6401F4 },
  { off := 0x028, cnt := 1, stride := 0, rw := 0x1F, rsvp := 0xFFFFFFE0, buf := 0x1F, resetT := 0x4, resetG := 0x4, resetS := 0x4 },
  { off := 0x030, cnt := 1, stride := 0 },
  { off := 0x034, cnt := 1, stride := 0 },
  { off := 0x038, cnt := 1, stride := 0 },
  { off := 0x03C, cnt := 1, stride := 0 },
  { off := 0x040, cnt := 1, stride := 0 },
  { off := 0x044, cnt := 1, stride := 0 },
  { off := 0x048, cnt := 1, stride := 0 },
  { off := 0x04C, cnt := 1, stride := 0 },
  { off := 0x050, cnt := 1, stride := 0 },
  { off := 0x054, cnt := 1, stride := 0 },
  { off := 0x058, cnt := 1, stride := 0 },
  { off := 0x05C, cnt := 1, stride := 0, w1c := 0x80000000, rsvp := 0x78000000 },
  { off := 0x100, cnt := 8, stride := 64, rw := 0xFFFFFFFF, buf := 0xFFFFFFFF },
  { off := 0x104, cnt := 8, stride := 64, rw := 0xFFFFFFFF, buf := 0xFFFFFFFF },
  { off := 0x108, cnt := 8, stride := 64, rw := 0x7FFFFFFF, rsvp := 0x80000000, buf := 0x3FFFFFFF, resetT := 0x10000000, resetG := 0x10000000, resetS := 0x10000000 },
  { off := 0x10C, cnt := 8, stride := 64 },
  { off := 0x110, cnt := 8, stride := 64, rw := 0xFFFFFFFF, buf := 0xFFFFFFFF },
  { off := 0x114, cnt := 8, stride := 64, rw := 0xFFFFFFFF, buf := 0xFFFFFFFF },
  { off := 0x118, cnt := 8, stride := 64, rw := 0x3FFFF, rsvp := 0xFFFC0000, buf := 0x3FFFF, resetT := 0x4000, resetG := 0x4000, resetS := 0x4000 },
  { off := 0x11C, cnt := 8, stride := 64 },
  { off := 0x120, cnt := 8, stride := 64, rw := 0xFFFFFFFF, buf := 0xFFFFFFFF },
  { off := 0x124, cnt := 8, stride := 64, rw := 0xFFFFFFFF, buf := 0xFFFFFFFF },
  { off := 0x128, cnt := 8, stride := 64, rw := 0xFFFFF, rsvp := 0xFFF00000, buf := 0xFFFFF },
  { off := 0x12C, cnt := 8, stride := 64 },
  { off := 0x130, cnt := 8, stride := 64 }]

/-! ### INTKE (R403) -/

def F.INTKE_DISABLE : Fld := ⟨0x020, 0, 1⟩
def F.INTKE_BUSY : Fld := ⟨0x024, 0, 1⟩
def F.INTKE_PARTITION : Fld := ⟨0x024, 1, 3⟩
def F.INTKE_CLASS : Fld := ⟨0x024, 4, 2⟩
def F.INTKE_UNITS : Fld := ⟨0x028, 0, 32⟩
def F.INTKE_BUSY_LO : Fld := ⟨0x02C, 0, 32⟩
def F.INTKE_BUSY_HI : Fld := ⟨0x030, 0, 32⟩
def F.INTKE_ABANDONED : Fld := ⟨0x034, 0, 32⟩
def F.INTKE_DAMAGED : Fld := ⟨0x038, 0, 32⟩
def F.INTKE_IMP_UNITS : Fld := ⟨0x040, 0, 32⟩
def F.INTKE_IMP_BUSY_LO : Fld := ⟨0x044, 0, 32⟩
def F.INTKE_IMP_BUSY_HI : Fld := ⟨0x048, 0, 32⟩

/-- Registers of class INTKE by R403. -/
def rowsINTKE : List RegRow := [
  { off := 0x020, cnt := 1, stride := 0, rw := 0x1, rsvp := 0xFFFFFFFE, buf := 0x1 },
  { off := 0x024, cnt := 1, stride := 0, rsvp := 0xFFFFFFC0 },
  { off := 0x028, cnt := 1, stride := 0 },
  { off := 0x02C, cnt := 1, stride := 0 },
  { off := 0x030, cnt := 1, stride := 0 },
  { off := 0x034, cnt := 1, stride := 0 },
  { off := 0x038, cnt := 1, stride := 0 },
  { off := 0x040, cnt := 1, stride := 0 },
  { off := 0x044, cnt := 1, stride := 0 },
  { off := 0x048, cnt := 1, stride := 0 }]

/-! ### CNPYP (R446) -/

def F.CNPYP_EN : Fld := ⟨0x020, 0, 1⟩
def F.CNPYP_SPLIT : Fld := ⟨0x020, 1, 2⟩
def F.CNPYP_TYPE : Fld := ⟨0x028, 0, 4⟩
def F.CNPYP_LENGTH_DM : Fld := ⟨0x028, 4, 16⟩
def F.CNPYP_SHARED_FREE : Fld := ⟨0x02C, 0, 13⟩
def F.CNPYP_FLITS_TX : Fld := ⟨0x030, 0, 32⟩
def F.CNPYP_FLITS_RX : Fld := ⟨0x038, 0, 32⟩
def F.CNPYP_CRC_ERRORS : Fld := ⟨0x040, 0, 32⟩
def F.CNPYP_REPLAYS : Fld := ⟨0x044, 0, 32⟩
def F.CNPYP_RETRAINS : Fld := ⟨0x048, 0, 32⟩
def F.CNPYP_FEC_CORRECTED : Fld := ⟨0x04C, 0, 32⟩
def F.CNPYP_FEC_UNCORR : Fld := ⟨0x050, 0, 32⟩
def F.CNPYP_HOP_LIMIT : Fld := ⟨0x054, 0, 32⟩
def F.CNPYP_UNROUTABLE : Fld := ⟨0x058, 0, 32⟩
def F.CNPYP_IMP_FLITS : Fld := ⟨0x060, 0, 32⟩
def F.CNPYP_STATES : Fld := ⟨0x024, 0, 16⟩
def Ev.CNPYP_LINK_UP : Nat := 0
def Ev.CNPYP_LINK_FAILED : Nat := 1
def Ev.CNPYP_RETRAIN : Nat := 2
def Ev.CNPYP_REPLAY : Nat := 3
def Ev.CNPYP_HOP_LIMIT : Nat := 4
def Ev.CNPYP_UNROUTABLE : Nat := 5

/-- Registers of class CNPYP by R446. -/
def rowsCNPYP : List RegRow := [
  { off := 0x020, cnt := 1, stride := 0, rw := 0x7, rsvp := 0xFFFFFFF8, buf := 0x7, resetT := 0x1, resetG := 0x1, resetS := 0x1 },
  { off := 0x024, cnt := 1, stride := 0, rsvp := 0xFFFF0000 },
  { off := 0x028, cnt := 1, stride := 0, rsvp := 0xFFF00000 },
  { off := 0x02C, cnt := 1, stride := 0, rsvp := 0xFFFFE000 },
  { off := 0x030, cnt := 2, stride := 4 },
  { off := 0x038, cnt := 2, stride := 4 },
  { off := 0x040, cnt := 1, stride := 0 },
  { off := 0x044, cnt := 1, stride := 0 },
  { off := 0x048, cnt := 1, stride := 0 },
  { off := 0x04C, cnt := 1, stride := 0 },
  { off := 0x050, cnt := 1, stride := 0 },
  { off := 0x054, cnt := 1, stride := 0 },
  { off := 0x058, cnt := 1, stride := 0 },
  { off := 0x060, cnt := 4, stride := 4 }]

/-! ### CNPY9 (R448) -/

def F.CNPY9_ADDR : Fld := ⟨0x020, 0, 16⟩
def F.CNPY9_MODE : Fld := ⟨0x020, 16, 1⟩
def F.CNPY9_VALID : Fld := ⟨0x020, 17, 1⟩
def F.CNPY9_CONFLICT : Fld := ⟨0x020, 18, 1⟩
def F.CNPY9_UID : Fld := ⟨0x024, 0, 32⟩
def F.CNPY9_REQ_TIMEOUT_US : Fld := ⟨0x02C, 0, 16⟩
def F.CNPY9_COLL_TIMEOUT_MS : Fld := ⟨0x02C, 16, 16⟩
def F.CNPY9_W_RSP : Fld := ⟨0x030, 0, 8⟩
def F.CNPY9_W_REQ : Fld := ⟨0x030, 8, 8⟩
def F.CNPY9_W_COLL : Fld := ⟨0x030, 16, 8⟩
def F.CNPY9_URGENCY0 : Fld := ⟨0x034, 0, 32⟩
def F.CNPY9_URGENCY1 : Fld := ⟨0x038, 0, 16⟩
def F.CNPY9_VC_CAPS : Fld := ⟨0x03C, 0, 20⟩
def F.CNPY9_INDEX : Fld := ⟨0x040, 0, 14⟩
def F.CNPY9_TABLE : Fld := ⟨0x040, 16, 3⟩
def F.CNPY9_READ : Fld := ⟨0x044, 0, 1⟩
def F.CNPY9_WRITE : Fld := ⟨0x044, 1, 1⟩
def F.CNPY9_BUSY : Fld := ⟨0x044, 8, 1⟩
def F.CNPY9_RESULT : Fld := ⟨0x044, 9, 3⟩
def F.CNPY9_MASTER : Fld := ⟨0x050, 0, 1⟩
def F.CNPY9_IS_MASTER : Fld := ⟨0x050, 1, 1⟩
def F.CNPY9_SYNCED : Fld := ⟨0x050, 2, 1⟩
def F.CNPY9_PARENT_LINK : Fld := ⟨0x050, 3, 6⟩
def F.CNPY9_HOPS : Fld := ⟨0x050, 9, 5⟩
def F.CNPY9_OFFSET : Fld := ⟨0x054, 0, 32⟩
def F.CNPY9_DELAY : Fld := ⟨0x058, 0, 32⟩
def F.CNPY9_CTX_REFUSED : Fld := ⟨0x060, 0, 32⟩
def F.CNPY9_STALE_COLL : Fld := ⟨0x064, 0, 32⟩
def F.CNPY9_DUP_DROPPED : Fld := ⟨0x068, 0, 32⟩
def F.CNPY9_COLL_DONE : Fld := ⟨0x06C, 0, 32⟩
def F.CNPY9_TIME_STEPS : Fld := ⟨0x070, 0, 32⟩
def F.CNPY9_IMP_COLL_DONE : Fld := ⟨0x078, 0, 32⟩
def F.CNPY9_DATA : Fld := ⟨0x080, 0, 32⟩
def Ev.CNPY9_ADDR_ASSIGNED : Nat := 0
def Ev.CNPY9_ADDR_CONFLICT : Nat := 1
def Ev.CNPY9_ROUTES_CHANGED : Nat := 2
def Ev.CNPY9_CTX_DOWN : Nat := 3
def Ev.CNPY9_CTX_REFUSED : Nat := 4
def Ev.CNPY9_TIME_SYNCED : Nat := 5
def Ev.CNPY9_TIME_LOST : Nat := 6
def Ev.CNPY9_COLL_TIMEOUT : Nat := 7
def Ev.CNPY9_TBL_DONE : Nat := 8

/-- Registers of class CNPY9 by R448. -/
def rowsCNPY9 : List RegRow := [
  { off := 0x020, cnt := 1, stride := 0, rw := 0x1FFFF, rsvp := 0xFFF80000, wl := 0x1FFFF },
  { off := 0x024, cnt := 2, stride := 4 },
  { off := 0x02C, cnt := 1, stride := 0, rw := 0xFFFFFFFF, buf := 0xFFFFFFFF, resetT := 0x3E807D0, resetG := 0x3E807D0, resetS := 0x3E807D0 },
  { off := 0x030, cnt := 1, stride := 0, rw := 0xFFFFFF, rsvp := 0xFF000000, buf := 0xFFFFFF, resetT := 0x40204, resetG := 0x40204, resetS := 0x40204 },
  { off := 0x034, cnt := 1, stride := 0, rw := 0xFFFFFFFF, buf := 0xFFFFFFFF, resetT := 0x14140201, resetG := 0x14140201, resetS := 0x14140201 },
  { off := 0x038, cnt := 1, stride := 0, rw := 0xFFFF, rsvp := 0xFFFF0000, buf := 0xFFFF, resetT := 0xC814, resetG := 0xC814, resetS := 0xC814 },
  { off := 0x03C, cnt := 1, stride := 0, rw := 0xFFFFF, rsvp := 0xFFF00000, buf := 0xFFFFF, resetT := 0x7B771, resetG := 0x7B771, resetS := 0x7B771 },
  { off := 0x040, cnt := 1, stride := 0, rw := 0x73FFF, rsvp := 0xFFF8C000 },
  { off := 0x044, cnt := 1, stride := 0, mw := 0x3, rsvp := 0xF0FC },
  { off := 0x050, cnt := 1, stride := 0, rw := 0x1, rsvp := 0xFFFFC000 },
  { off := 0x054, cnt := 1, stride := 0 },
  { off := 0x058, cnt := 1, stride := 0 },
  { off := 0x060, cnt := 1, stride := 0 },
  { off := 0x064, cnt := 1, stride := 0 },
  { off := 0x068, cnt := 1, stride := 0 },
  { off := 0x06C, cnt := 1, stride := 0 },
  { off := 0x070, cnt := 1, stride := 0 },
  { off := 0x078, cnt := 1, stride := 0 },
  { off := 0x080, cnt := 16, stride := 4, rw := 0xFFFFFFFF }]

/-! ### HOST0 (R474, R529) -/

def F.HOST0_BME : Fld := ⟨0x020, 0, 1⟩
def F.HOST0_D3HOT : Fld := ⟨0x020, 1, 1⟩
def F.HOST0_PART_PRESENT : Fld := ⟨0x020, 2, 1⟩
def F.HOST0_WINDOW : Fld := ⟨0x024, 0, 4⟩
def F.HOST0_PARTITION : Fld := ⟨0x024, 4, 3⟩
def F.HOST0_COUNT : Fld := ⟨0x02C, 0, 16⟩
def F.HOST0_OFFSET_LO : Fld := ⟨0x030, 0, 32⟩
def F.HOST0_OFFSET_HI : Fld := ⟨0x034, 0, 4⟩
def F.HOST0_CAUSE : Fld := ⟨0x034, 4, 2⟩
def F.HOST0_VALID : Fld := ⟨0x034, 31, 1⟩
def F.HOST0_ENTRIES : Fld := ⟨0x038, 0, 32⟩
def F.HOST0_COMPLETIONS : Fld := ⟨0x03C, 0, 32⟩
def F.HOST0_IRQ_SENT : Fld := ⟨0x040, 0, 32⟩
def F.HOST0_IRQ_DROPPED : Fld := ⟨0x044, 0, 32⟩
def F.HOST0_BLOCKED : Fld := ⟨0x048, 0, 32⟩
def F.HOST0_CQ_LOST : Fld := ⟨0x04C, 0, 32⟩
def F.HOST0_IMP_ENTRIES : Fld := ⟨0x050, 0, 32⟩
def F.HOST0_IMP_COMPLETIONS : Fld := ⟨0x054, 0, 32⟩
def F.HOST0_CORE : Fld := ⟨0x060, 0, 32⟩
def F.HOST0_KV : Fld := ⟨0x080, 0, 1⟩
def F.HOST0_MEM : Fld := ⟨0x080, 1, 1⟩
def F.HOST0_HOST : Fld := ⟨0x080, 2, 4⟩
def F.HOST0_URG_0 : Fld := ⟨0x028, 0, 8⟩
def F.HOST0_URG_1 : Fld := ⟨0x028, 8, 8⟩
def F.HOST0_URG_2 : Fld := ⟨0x028, 16, 8⟩
def F.HOST0_URG_3 : Fld := ⟨0x028, 24, 8⟩
def Ev.HOST0_QUEUE_ERROR : Nat := 0
def Ev.HOST0_QUEUE_REFUSED : Nat := 1
def Ev.HOST0_BAR2_FAULT : Nat := 2
def Ev.HOST0_IRQ_DROPPED : Nat := 3
def Ev.HOST0_HOST_BLOCKED : Nat := 4

/-- Registers of class HOST0 by R474, R529. -/
def rowsHOST0 : List RegRow := [
  { off := 0x020, cnt := 1, stride := 0, rsvp := 0xFFFFFFF8 },
  { off := 0x024, cnt := 1, stride := 0, rw := 0x7F, rsvp := 0xFFFFFF80 },
  { off := 0x028, cnt := 1, stride := 0, rw := 0xFFFFFFFF, resetT := 0x20A32C8, resetG := 0x20A32C8, resetS := 0x20A32C8 },
  { off := 0x02C, cnt := 1, stride := 0, rsvp := 0xFFFF0000 },
  { off := 0x030, cnt := 1, stride := 0 },
  { off := 0x034, cnt := 1, stride := 0, w1c := 0x80000000, rsvp := 0x7FFFFFC0 },
  { off := 0x038, cnt := 1, stride := 0 },
  { off := 0x03C, cnt := 1, stride := 0 },
  { off := 0x040, cnt := 1, stride := 0 },
  { off := 0x044, cnt := 1, stride := 0 },
  { off := 0x048, cnt := 1, stride := 0 },
  { off := 0x04C, cnt := 1, stride := 0 },
  { off := 0x050, cnt := 1, stride := 0 },
  { off := 0x054, cnt := 1, stride := 0 },
  { off := 0x060, cnt := 8, stride := 4 },
  { off := 0x080, cnt := 1, stride := 0, rsvp := 0xFFFFFFC0 }]

/-! ### HOST1 (R474) -/

def F.HOST1_BASE_LO : Fld := ⟨0x040, 0, 32⟩
def F.HOST1_BASE_HI : Fld := ⟨0x044, 0, 32⟩
def F.HOST1_EN : Fld := ⟨0x048, 0, 1⟩
def F.HOST1_LOG2 : Fld := ⟨0x048, 1, 5⟩
def F.HOST1_CQ : Fld := ⟨0x048, 6, 4⟩
def F.HOST1_PRIORITY : Fld := ⟨0x048, 10, 2⟩
def F.HOST1_WEIGHT : Fld := ⟨0x048, 12, 8⟩
def F.HOST1_ERROR : Fld := ⟨0x04C, 0, 1⟩

/-- Registers of class HOST1 by R474. -/
def rowsHOST1 : List RegRow := [
  { off := 0x040, cnt := 16, stride := 16, rw := 0xFFFFFFFF },
  { off := 0x044, cnt := 16, stride := 16, rw := 0xFFFFFFFF },
  { off := 0x048, cnt := 16, stride := 16, rw := 0xFFFFF, rsvp := 0xFFF00000, resetT := 0x1408, resetG := 0x1408, resetS := 0x1408 },
  { off := 0x04C, cnt := 16, stride := 16, rsvp := 0xFFFFFFFE }]

/-! ### HOST2 (R474) -/

def F.HOST2_BASE_LO : Fld := ⟨0x040, 0, 32⟩
def F.HOST2_BASE_HI : Fld := ⟨0x044, 0, 32⟩
def F.HOST2_EN : Fld := ⟨0x048, 0, 1⟩
def F.HOST2_LOG2 : Fld := ⟨0x048, 1, 5⟩
def F.HOST2_VECTOR : Fld := ⟨0x048, 6, 8⟩
def F.HOST2_IRQ_EN : Fld := ⟨0x048, 14, 1⟩
def F.HOST2_COUNT : Fld := ⟨0x04C, 0, 8⟩
def F.HOST2_DELAY_US : Fld := ⟨0x04C, 8, 16⟩

/-- Registers of class HOST2 by R474. -/
def rowsHOST2 : List RegRow := [
  { off := 0x040, cnt := 16, stride := 16, rw := 0xFFFFFFFF },
  { off := 0x044, cnt := 16, stride := 16, rw := 0xFFFFFFFF },
  { off := 0x048, cnt := 16, stride := 16, rw := 0x7FFF, rsvp := 0xFFFF8000, resetT := 0x8, resetG := 0x8, resetS := 0x8 },
  { off := 0x04C, cnt := 16, stride := 16, rw := 0xFFFFFF, rsvp := 0xFF000000, resetT := 0x3210, resetG := 0x3210, resetS := 0x3210 }]

/-! ### HOST3 (R474) -/

def F.HOST3_SQ_FETCHED : Fld := ⟨0x040, 0, 32⟩
def F.HOST3_CQ_WRITTEN : Fld := ⟨0x080, 0, 32⟩

/-- Registers of class HOST3 by R474. -/
def rowsHOST3 : List RegRow := [
  { off := 0x040, cnt := 16, stride := 4 },
  { off := 0x080, cnt := 16, stride := 4 }]

/-! ### SEC0 (R560) -/

def F.SEC0_STATE : Fld := ⟨0x020, 0, 3⟩
def F.SEC0_DEBUG : Fld := ⟨0x020, 3, 3⟩
def F.SEC0_LIMIT : Fld := ⟨0x024, 0, 2⟩
def F.SEC0_OP : Fld := ⟨0x028, 0, 3⟩
def F.SEC0_BUSY : Fld := ⟨0x028, 8, 1⟩
def F.SEC0_STATUS : Fld := ⟨0x02C, 0, 8⟩
def F.SEC0_CHALLENGE : Fld := ⟨0x030, 0, 32⟩
def F.SEC0_TOKEN : Fld := ⟨0x100, 0, 32⟩

/-- Registers of class SEC0 by R560. -/
def rowsSEC0 : List RegRow := [
  { off := 0x020, cnt := 1, stride := 0, rsvp := 0xFFFFFFC0 },
  { off := 0x024, cnt := 1, stride := 0, rw := 0x3, rsvp := 0xFFFFFFFC, wl := 0x3, resetT := 0x3, resetG := 0x3, resetS := 0x3 },
  { off := 0x028, cnt := 1, stride := 0, mw := 0x7, rsvp := 0xFEF8, wl := 0x7 },
  { off := 0x02C, cnt := 1, stride := 0, rsvp := 0xFFFFFF00 },
  { off := 0x030, cnt := 4, stride := 4 },
  { off := 0x100, cnt := 56, stride := 4, rw := 0xFFFFFFFF, wl := 0xFFFFFFFF }]

/-! ### SEC1 (R561) -/

def F.SEC1_STAGE : Fld := ⟨0x020, 0, 3⟩
def F.SEC1_RECEIVED : Fld := ⟨0x020, 8, 11⟩
def F.SEC1_SLOT : Fld := ⟨0x024, 0, 1⟩
def F.SEC1_TRIAL : Fld := ⟨0x024, 1, 1⟩
def F.SEC1_TRIES : Fld := ⟨0x024, 2, 2⟩
def F.SEC1_RECOVERY : Fld := ⟨0x024, 4, 1⟩
def F.SEC1_FELL_BACK : Fld := ⟨0x024, 5, 1⟩
def F.SEC1_ACTIVATE : Fld := ⟨0x028, 0, 1⟩
def F.SEC1_RESET : Fld := ⟨0x028, 1, 1⟩
def F.SEC1_CONFIRM : Fld := ⟨0x028, 2, 1⟩
def F.SEC1_DISCARD : Fld := ⟨0x028, 3, 1⟩
def F.SEC1_FETCH : Fld := ⟨0x028, 4, 1⟩
def F.SEC1_BUSY_028 : Fld := ⟨0x028, 8, 1⟩
def F.SEC1_STATUS : Fld := ⟨0x02C, 0, 8⟩
def F.SEC1_BLOCK_STATUS : Fld := ⟨0x02C, 8, 8⟩
def F.SEC1_SRC : Fld := ⟨0x030, 0, 32⟩
def F.SEC1_INDEX : Fld := ⟨0x038, 0, 11⟩
def F.SEC1_PROPAGATE : Fld := ⟨0x03C, 0, 1⟩
def F.SEC1_ACCEPT_PEER : Fld := ⟨0x03C, 1, 1⟩
def F.SEC1_VERSION_RUN : Fld := ⟨0x040, 0, 32⟩
def F.SEC1_VERSION_STAGED : Fld := ⟨0x044, 0, 32⟩
def F.SEC1_BLOCKS_OK : Fld := ⟨0x048, 0, 32⟩
def F.SEC1_BLOCKS_BAD : Fld := ⟨0x04C, 0, 32⟩
def F.SEC1_DUPLICATES : Fld := ⟨0x050, 0, 32⟩
def F.SEC1_PEER_IN : Fld := ⟨0x054, 0, 32⟩
def F.SEC1_PEER_OUT : Fld := ⟨0x058, 0, 32⟩
def F.SEC1_STAGED_DIGEST : Fld := ⟨0x060, 0, 32⟩
def F.SEC1_RUN_DIGEST : Fld := ⟨0x080, 0, 32⟩
def F.SEC1_KEY : Fld := ⟨0x0A0, 0, 16⟩
def F.SEC1_READ : Fld := ⟨0x0A4, 0, 1⟩
def F.SEC1_WRITE : Fld := ⟨0x0A4, 1, 1⟩
def F.SEC1_DELETE : Fld := ⟨0x0A4, 2, 1⟩
def F.SEC1_BUSY_0A4 : Fld := ⟨0x0A4, 8, 1⟩
def F.SEC1_RESULT : Fld := ⟨0x0A4, 9, 3⟩
def F.SEC1_LEN : Fld := ⟨0x0A8, 0, 7⟩
def F.SEC1_SECRET : Fld := ⟨0x0A8, 7, 1⟩
def F.SEC1_STORE_VERSION : Fld := ⟨0x0AC, 0, 16⟩
def F.SEC1_DATA : Fld := ⟨0x0C0, 0, 32⟩
def F.SEC1_BITMAP : Fld := ⟨0x100, 0, 32⟩

/-- Registers of class SEC1 by R561. -/
def rowsSEC1 : List RegRow := [
  { off := 0x020, cnt := 1, stride := 0, rsvp := 0xFFF800F8 },
  { off := 0x024, cnt := 1, stride := 0, rsvp := 0xFFFFFFC0 },
  { off := 0x028, cnt := 1, stride := 0, mw := 0x1F, rsvp := 0xFEE0 },
  { off := 0x02C, cnt := 1, stride := 0, rsvp := 0xFFFF0000 },
  { off := 0x030, cnt := 2, stride := 4, rw := 0xFFFFFFFF },
  { off := 0x038, cnt := 1, stride := 0, rw := 0x7FF, rsvp := 0xFFFFF800 },
  { off := 0x03C, cnt := 1, stride := 0, rw := 0x3, rsvp := 0xFFFFFFFC },
  { off := 0x040, cnt := 1, stride := 0 },
  { off := 0x044, cnt := 1, stride := 0 },
  { off := 0x048, cnt := 1, stride := 0 },
  { off := 0x04C, cnt := 1, stride := 0 },
  { off := 0x050, cnt := 1, stride := 0 },
  { off := 0x054, cnt := 1, stride := 0 },
  { off := 0x058, cnt := 1, stride := 0 },
  { off := 0x060, cnt := 8, stride := 4 },
  { off := 0x080, cnt := 8, stride := 4 },
  { off := 0x0A0, cnt := 1, stride := 0, rw := 0xFFFF },
  { off := 0x0A4, cnt := 1, stride := 0, mw := 0x7, rsvp := 0xF0F8 },
  { off := 0x0A8, cnt := 1, stride := 0, rw := 0xFF, rsvp := 0xFFFFFF00 },
  { off := 0x0AC, cnt := 1, stride := 0 },
  { off := 0x0C0, cnt := 16, stride := 4, rw := 0xFFFFFFFF },
  { off := 0x100, cnt := 40, stride := 4 }]

/-! ### SEC2 (R562) -/

def F.SEC2_NONCE : Fld := ⟨0x020, 0, 32⟩
def F.SEC2_REQUEST : Fld := ⟨0x040, 0, 1⟩
def F.SEC2_BUSY : Fld := ⟨0x040, 8, 1⟩
def F.SEC2_VALID : Fld := ⟨0x040, 9, 1⟩
def F.SEC2_STATUS : Fld := ⟨0x044, 0, 8⟩
def F.SEC2_IGNORED : Fld := ⟨0x044, 8, 24⟩
def F.SEC2_REPORT : Fld := ⟨0x400, 0, 32⟩

/-- Registers of class SEC2 by R562. -/
def rowsSEC2 : List RegRow := [
  { off := 0x020, cnt := 8, stride := 4, rw := 0xFFFFFFFF },
  { off := 0x040, cnt := 1, stride := 0, mw := 0x1, rsvp := 0xFCFE },
  { off := 0x044, cnt := 1, stride := 0 },
  { off := 0x400, cnt := 144, stride := 4 }]

/-! ### SEC3 (R563) -/

def F.SEC3_LC_FUSES : Fld := ⟨0x020, 0, 4⟩
def F.SEC3_UDS_SET : Fld := ⟨0x020, 4, 1⟩
def F.SEC3_DERIVE_DISABLE : Fld := ⟨0x020, 5, 1⟩
def F.SEC3_KEY_PRESENT : Fld := ⟨0x020, 6, 4⟩
def F.SEC3_KEY_REVOKED : Fld := ⟨0x020, 10, 4⟩
def F.SEC3_COUNT : Fld := ⟨0x024, 0, 7⟩
def F.SEC3_KEY : Fld := ⟨0x028, 0, 2⟩
def F.SEC3_PROGRAM_KEY : Fld := ⟨0x028, 2, 1⟩
def F.SEC3_BUSY : Fld := ⟨0x028, 8, 1⟩
def F.SEC3_RESULT : Fld := ⟨0x028, 9, 3⟩
def F.SEC3_KEY_DATA : Fld := ⟨0x040, 0, 32⟩
def F.SEC3_DIGEST : Fld := ⟨0x060, 0, 32⟩
def F.SEC3_PUBKEY : Fld := ⟨0x0E0, 0, 32⟩
def F.SEC3_HALTED : Fld := ⟨0x120, 0, 1⟩
def F.SEC3_FAILS : Fld := ⟨0x120, 8, 8⟩
def F.SEC3_SERIAL : Fld := ⟨0x128, 0, 32⟩

/-- Registers of class SEC3 by R563. -/
def rowsSEC3 : List RegRow := [
  { off := 0x020, cnt := 1, stride := 0, rsvp := 0xFFFFC000 },
  { off := 0x024, cnt := 1, stride := 0, rsvp := 0xFFFFFF80 },
  { off := 0x028, cnt := 1, stride := 0, mw := 0x7, rsvp := 0xF0F8, wl := 0x7 },
  { off := 0x040, cnt := 8, stride := 4, rw := 0xFFFFFFFF, wl := 0xFFFFFFFF },
  { off := 0x060, cnt := 32, stride := 4 },
  { off := 0x0E0, cnt := 15, stride := 4 },
  { off := 0x120, cnt := 1, stride := 0, rsvp := 0xFFFF0000 },
  { off := 0x128, cnt := 2, stride := 4 }]

end Sys2Proof.Machine
end

