-- ==== Sys2Proof/Machine/State.lean ====
section
/-! DEFINITION. The state of the module, as plain data: every register in one sparse file, memory as canonical cells, and one
record per unit for what no register holds. A field's default value is its value at reset but where
`State.reset` gives another. -/

namespace Sys2Proof.Machine

/-- Reasons for a fault. No meaning of this model answers one: what the spec calls a fault of the module (R75, R90, R150) is a
next state, with its record written. Safe: a model without faults claims no stop that the hardware has not. -/
inductive Fault where
  /-- Raised by nobody. -/
  | none
  deriving DecidableEq, Repr

/-- Reasons for a refusal. -/
inductive Refusal where
  /-- The command's meaning is not written yet; raised by `exec`'s arm of that command. Safe: the model stops where the
  hardware goes on. -/
  | notModelled (mnemonic : String)
  deriving DecidableEq, Repr

/-- Where an access through a thread address lands (R74). `idx` is the page map index. -/
inductive Loc where
  | galley (core off : Nat)
  | phys (addr idx : Nat)
  | host (addr idx : Nat)
  | remote (ctx off : Nat)
  deriving DecidableEq, Repr

/-- Why an access through a thread address fails: the faults of R75 with TIER and PHYS of the record (R568); a read of host memory, by
its host bus address, while the partition's function may not issue requests, which fails at once (R455); and a unit of storage that
holds an uncorrectable error, with the bits or symbols in error, which a read of it finds and a write of a part of it (R90). -/
inductive AccFault where
  | region
  | translation
  | permission (tier phys : Nat)
  | host (bus : Nat)
  | damaged (at_ : Loc) (symbols : Nat)
  deriving DecidableEq, Repr

/-- Who writes: a thread (core and number), the tiles of a forme, the end actions of a forme (R149), a part of the device by its UNIT code
(R568), or a cambium unit that applies a block of an entry of the update table. -/
inductive Writer where
  | thread (core t : Nat)
  | forme (i : Nat)
  | ended (i unit : Nat)
  | unit (u : Nat)
  | block (unit entry index : Nat)
  | move (entry : Nat)
  deriving DecidableEq, Repr

/-- A write that waits until its page has been copied (R77, R483) or spilled (R251): page-map index, offset in the page, who writes,
the core that does, if one does, and how far the request goes on before and behind these bytes (R90). -/
structure HeldWrite where
  part : Nat
  idx : Nat
  off : Nat
  bytes : List Byte
  who : Writer
  core : Option Nat := none
  before : Nat := 0
  after : Nat := 0
  deriving DecidableEq, Repr

/-! ### Outputs -/

/-- What the module drives towards the outside. -/
inductive Output where
  /-- a pin changes level (R15): 0 PWR_GOOD, 1 THERM_TRIP_N -/
  | pin (which : Nat) (high : Bool)
  /-- an MSI-X message of a function's vector (R471), with the address and data of its table entry -/
  | msix (fn vec addr data : Nat)
  /-- an in-band interrupt to the BMC for a page (R39, R518) -/
  | ibi (page : Nat)
  /-- bytes of an I3C private read (R39), least significant first -/
  | i3cRead (bytes : List Byte)
  /-- the completion of a register or window read -/
  | readData (bytes : List Byte)
  /-- a flit sent on a lane of a canopy link: its number, and its body with the CRC (R407, R410) -/
  | flit (link lane num : Nat) (bytes : List Byte)
  /-- a function-level reset completes (R36) -/
  | flrDone (fn : Nat)
  /-- a configuration request to a function is answered with Request Retry Status (R34) -/
  | configRetry (fn : Nat)
  /-- bits shifted out by JTAG (R534) -/
  | jtag (bits : Nat)
  deriving DecidableEq, Repr

/-! ### Power, clocks, resets (ch. 01) -/

/-- How far the module's power has come (R17 to R19, R35). -/
inductive PowerPhase where
  /-- no rail is up -/
  | off
  /-- stages 1 to `done` are up and the next is rising -/
  | rising (done : Nat)
  /-- every rail is up -/
  | up
  /-- only the management domain is up, until PWR_EN falls (R18, R29) -/
  | workOff
  /-- no rail is up and none comes up until PWR_EN has fallen and risen (R19) -/
  | lockedOff
  deriving DecidableEq, Repr

/-- Whole-device resets (R36). -/
inductive WholeReset where
  | powerOn | cold | warm
  deriving DecidableEq, Repr

/-- Why a set of waves runs (R25). -/
inductive WaveKind where
  | device | partReset | create | modeSwitch
  deriving DecidableEq, Repr

/-- A set of eight waves in progress (R24, R25): the partition, or none for the whole device, the next wave, and the grid point at
which that wave is due, as a device time. -/
structure WaveSet where
  owner : Option Nat
  kind : WaveKind
  next : Nat
  due : Nat := 0
  deriving DecidableEq, Repr

/-- Power, clock and reset state that no register holds. -/
structure Power where
  phase : PowerPhase := .up
  pwrEn : Bool := true
  perstN : Bool := true
  pwrGood : Bool := true
  /-- ALERT_N is held low by a rail fault, a trip or a clock fault (R15) -/
  alertHeld : Bool := false
  thermTripN : Bool := true
  i3cAddr : Option Nat := none
  pllLocked : Bool := true
  /-- root cycles / 12 since the dividers were released (KCLK cycles) -/
  kclk : Nat := 0
  /-- device time, ns (R30) -/
  time : Nat := 0
  /-- the greatest device time reached before the last backward step of it (R24) -/
  high : Nat := 0
  /-- the greatest device time at a common edge before the present one (R24, R30) -/
  edge : Nat := 0
  /-- nanoseconds still to be slewed out of device time (R444) -/
  slew : Int := 0
  /-- counts to add to every 1,000,000,000, or withhold, for the frequency error measured, and what of them is not yet made up (R444) -/
  rate : Int := 0
  rateAcc : Int := 0
  aclkDiv : Nat := 4
  /-- KCLK count at the last release of ACLK (R20, R31) -/
  aclkFrom : Nat := 0
  /-- input power samples in units of 10 µW, newest first, at most 5,000 (R20) -/
  samples : List Nat := []
  /-- the 100 µs mean exceeded PEAK_W at the last sample (R43) -/
  peakOver : Bool := false
  /-- evaluations of the governor since its last raise, saturating at 10 (R21) -/
  sinceRaise : Nat := 10
  /-- thermal stage by the die sensors alone (R27) -/
  dieStage : Nat := 0
  /-- an LPDDR5X package reads above 95 °C (R28) -/
  dram95 : Bool := false
  /-- jobs are stopped by a clock fault, and no forme is accepted until a cold reset (R32) -/
  clockFault : Bool := false
  /-- the whole-device reset in progress (R36) -/
  reset : Option WholeReset := none
  /-- its cause (R42) -/
  cause : Nat := 0
  /-- the security core has chosen a slot in this start (R552) -/
  booted : Bool := true
  /-- the device is ready (R33 step 9) -/
  ready : Bool := true
  /-- it has been since power-on and since PERST_N last fell, so that it answers configuration requests (R34) -/
  linked : Bool := true
  /-- PCLK, KCLK or the PLL has failed: register accesses answer anything (R32) -/
  busUnsure : Bool := false
  waves : List WaveSet := []
  /-- the wave grid spacing in use (R41) -/
  waveGap : Nat := 4000
  deriving DecidableEq, Repr

/-! ### Partitions (ch. 03) -/

/-- Partition states (R83). -/
inductive PState where
  | absent | creating | active | stopped | tearingDown
  deriving DecidableEq, Repr

/-- The overlays (R7). -/
inductive Overlay where
  | train | generate | service
  deriving DecidableEq, Repr

/-- Requests held for a CREATING partition, in order of arrival (R83). -/
inductive HeldReq where
  | teardown | partReset | flr
  deriving DecidableEq, Repr

/-- A partition. -/
structure Part where
  st : PState := .absent
  overlay : Overlay := .service
  held : List HeldReq := []
  /-- number of the draw that made its key (R85); 0 while it has none -/
  keyGen : Nat := 0
  /-- page map entries that are not 0 (R76, R77) -/
  pmap : AMap Nat := []
  /-- a partition reset or FLR is in its first part (R36) -/
  quiescing : Bool := false
  /-- a partition reset or FLR has not ended -/
  resetting : Bool := false
  /-- an FLR waits for that end -/
  flrWaits : Bool := false
  /-- PWR_RESET.PART_RESET was written for that reset (R41) -/
  asked : Bool := false
  /-- zeroing by a creation or teardown has not ended -/
  zeroing : Bool := false
  /-- STEP of the last committed UPDATE (R482) -/
  lastStep : Nat := 0xFFFFFFFF
  /-- device time at which the last snapshot began (R481) -/
  snapBegin : Nat := 0
  deriving DecidableEq, Repr

/-! ### Integrity (ch. 17) -/

/-- A fault-history entry before it is in flash (R515, R516): kind, device time, boot number, payload words. -/
structure FhEntry where
  kind : Nat
  time : Nat
  boot : Nat
  payload : List Nat
  deriving DecidableEq, Repr

/-- Integrity state that no register holds. -/
structure Integ where
  gathered : List FhEntry := []
  /-- the flash ring: 64 bytes per slot -/
  ring : AMap (List Byte) := []
  next : Nat := 0
  /-- the second of device time in which entries were written last, and how many in it (R517) -/
  second : Nat := 0
  written : Nat := 0
  /-- power-on resets so far (BOOT of R515) -/
  boot : Nat := 0
  /-- control processors halted by R507: 0 to 7 planners, 8 and 9 media sequencers, 10 and 11 fabric engines -/
  halted : List Nat := []
  /-- processors that JTAG holds (R534): those above, 12 the management pair, 13 the security core -/
  debugged : List Nat := []
  /-- corrected errors since the last CE_SUMMARY: galley, stack, bulk symbol, bulk link (R516) -/
  ce : List Nat := [0, 0, 0, 0]
  /-- per core: MISMATCHES at the last audit period (R510) -/
  mismatchBase : AMap Nat := []
  /-- per core: short-mode mismatches in this audit period (R509) -/
  shortCount : AMap Nat := []
  /-- per function: the device time of its last vector-0 message while the spacing runs; true if a signal waits for its end (R518) -/
  spacing : AMap (Nat × Bool) := []
  deriving DecidableEq, Repr

/-! ### Threads and cores (ch. 04, 05) -/

/-- Thread states (R105). -/
inductive TState where
  | free | ready | waitSync | waitMem | waitPost
  deriving DecidableEq, Repr

/-- The tier that an access reaches, coded as TIER of R93. -/
inductive Tier where
  | galley | stack | bulk | host | remote
  deriving DecidableEq, Repr

/-- A load that has not completed: destination register (vector or scalar), width in bytes, thread address, the tier of its first byte, the
bytes that the model's memory supplies, the places that its address was translated to, each with its bytes, and whether that
translation is by an entry that a page-map WRITE has replaced since (R79). -/
structure Load where
  vec : Bool
  reg : Nat
  width : Nat
  addr : Nat
  tier : Tier
  bytes : List (Option Byte)
  places : List (Loc × Nat)
  old : Bool := false
  deriving DecidableEq, Repr

/-- A store that has not completed (R569): address, bytes and tier; `old` as of a load. -/
structure Store where
  addr : Nat
  n : Nat
  tier : Tier
  old : Bool := false
  deriving DecidableEq, Repr

/-- A line fetch that has not arrived (R570): line address, the bytes read at issue where this device's memory supplies them, the place
that the address was translated to or the fault met, and `old` as of a load. -/
structure Fetch where
  line : Nat
  bytes : Option (List Byte)
  loc : Option Loc := none
  fault : Option AccFault := none
  old : Bool := false
  deriving DecidableEq, Repr

/-- A registered wait (R115, R117): device counter, target, timeout in KCLK (0 none), the register that takes the result, and
the KCLK count at its issue. -/
structure SyncWait where
  ctr : Nat
  target : Nat
  timeout : Nat
  reg : Nat
  since : Nat
  deriving DecidableEq, Repr

/-- The host submission entry that something answers for (R463): function, queue, count, KIND, TAG, CQE. -/
structure HostRef where
  fn : Nat
  sq : Nat
  count : Nat
  kind : Nat
  tag : Nat
  cqe : Bool
  part : Nat
  cq : Nat
  deriving DecidableEq, Repr

/-- A start request (R105): program address, arguments, the end counter (device number) if any, and the host entry if any. -/
structure StartReq where
  pc : Nat
  args : List Nat
  endCtr : Option Nat
  host : Option HostRef
  /-- forme and tile whose epilogue this is (R160) -/
  epi : Option (Nat × Nat)
  seed : Nat := 0
  deriving DecidableEq, Repr

/-- The weighted draw of a CLAIM_SET (R120): first counter, count, credit per member, members exhausted. -/
structure ClaimSet where
  first : Nat
  count : Nat
  credit : List Int
  gone : List Nat
  deriving DecidableEq, Repr

/-- A hardware thread (R101, R105, R157, R570). -/
structure Thread where
  st : TState := .free
  pc : Nat := 0
  sregs : AMap Nat := []
  vregs : AMap VReg := []
  /-- the thread's status, written by a wait that times out (R105) -/
  status : Nat := 0
  fpflags : Nat := 0
  rmode : Nat := 0
  seed : Nat := 0
  /-- ACLK count at its start -/
  since : Nat := 0
  endCtr : Option Nat := none
  host : Option HostRef := none
  epi : Option (Nat × Nat) := none
  claim : Option ClaimSet := none
  loads : List Load := []
  stores : List Store := []
  /-- the two buffered instruction lines: line address and bytes -/
  buf : List (Nat × List Byte) := []
  /-- line fetches that have not arrived, oldest first -/
  fetching : List Fetch := []
  wait : Option SyncWait := none
  /-- the forme address of a post that was refused and is held -/
  post : Nat := 0
  deriving DecidableEq, Repr

/-- What a core holds beyond its registers (ch. 04): the restart ramp, the hold of R25, galley shares in use, slot queues and
the tiles it holds. -/
structure Core where
  /-- held by R25 until its wave starts -/
  held : Bool := false
  /-- the hold is for an overlay switch (R121) -/
  heldSwitch : Bool := false
  /-- level of the restart ramp, while it runs, and the ACLK count at which it took that level (R22) -/
  ramp : Option (Nat × Nat) := none
  /-- ACLK count at which the platen last issued (R22) -/
  lastIssue : Nat := 0
  /-- galley shares in use, 4 bits per slot in units of 64 KiB, none for the registers' present value (R103) -/
  shares : Option Nat := none
  /-- start requests that found no FREE thread, per slot, oldest first (R105) -/
  starts : AMap (List StartReq) := []
  /-- posted formes per slot, in queue order (R108): forme numbers -/
  queue : AMap (List Nat) := []
  /-- the thread of each slot that issued last (R106) -/
  last : AMap Nat := []
  /-- page-map indices whose entries the translation cache holds, at most 64, the newest first (R76) -/
  tlb : List Nat := []
  /-- credits and ages of R110, per 4 * unit + slot; unit 0 platen, 1 vector, 2 special functions -/
  credit : AMap Int := []
  age : AMap Nat := []
  /-- values of CORE_SLOT_ARB and CORE_SLOT_URGENCY that the slots run under until their next forme boundary (R63): per slot,
  the byte of CORE_SLOT_ARB and the urgency, none for the registers' present value -/
  arb : AMap (Nat × Nat) := []
  /-- tiles begun since the last proof, the device time of that proof, and whether the platen has issued since (R207) -/
  sinceProof : Nat := 0
  lastProof : Nat := 0
  issuedSince : Bool := false
  /-- the time rule of R207 asks for a proof of the next tile -/
  proofDue : Bool := false
  deriving DecidableEq, Repr

/-! ### Formes (ch. 05, 06) -/

/-- Forme states (R146); a forme that is DONE is no longer held, and `ended` is one whose end actions are not complete (R149). -/
inductive FState where
  | taken | waiting | claimHeld | planning | running | ended
  deriving DecidableEq, Repr

/-- A tensor descriptor as the planner read it (R131), the companion's fields with it. -/
structure TDesc where
  base : Nat := 0
  fmt : Nat := 0
  layout : Nat := 0
  rankM1 : Nat := 0
  scaled : Bool := false
  zmap : Bool := false
  sparse : Bool := false
  pad : List Nat := [1, 1, 1, 1]
  valid : List Nat := [1, 1, 1, 1]
  /-- strides of dimensions 1 to 3 in lines -/
  stride : List Nat := [0, 0, 0]
  scaleBase : Nat := 0
  block : Nat := 0
  share : Nat := 0
  scaleFmt : Nat := 0
  scaleStride : Nat := 0
  zmapBase : Nat := 0
  zmapStride : Nat := 0
  deriving DecidableEq, Repr

/-- The plan of a forme or of one branch (R170 to R174). -/
structure Plan where
  mt : Nat := 0
  nt : Nat := 0
  kc : Nat := 0
  /-- code of K_CHUNK as in R171 -/
  order : Nat := 0
  m : Nat := 0
  n : Nat := 0
  kk : Nat := 0
  batch : Nat := 1
  tiles : Nat := 0
  /-- operands as planned: A, B, C and what else the opcode names, in its order -/
  descs : List TDesc := []
  /-- extension blocks as planned, by what they are: 0 compute extension, 1 graft descriptor, 2 opcode block -/
  blocks : AMap (List Byte) := []
  /-- footprint in the galley share, bytes -/
  foot : Nat := 0
  /-- pins were dropped (R172) -/
  relaxed : Bool := false
  deriving DecidableEq, Repr

/-- A forme between TAKEN and DONE (R146). Its number orders formes by when they were taken. -/
structure Forme where
  st : FState := .taken
  part : Nat := 0
  slot : Nat := 0
  planner : Nat := 0
  bytes : List Byte := []
  host : Option HostRef := none
  /-- the partition was in TRAIN as it was taken, and from its entry into PLANNING on as it entered (R246, R352) -/
  train : Bool := false
  /-- WAIT_CTR has met WAIT_TARGET at some value (R117) -/
  waitMet : Bool := false
  /-- device counters that are busy for it (R148) -/
  busy : List Nat := []
  plans : List Plan := []
  /-- cores that have reported its end -/
  reported : List Nat := []
  /-- cores that have run or declined a tile of it (R148, R163) -/
  took : List Nat := []
  tilesDone : Nat := 0
  tilesTotal : Nat := 0
  startTime : Nat := 0
  status : Nat := 0
  detail : Nat := 0
  /-- it is being ended by a fault (R150) -/
  ending : Bool := false
  /-- its completion record has been written (R149) -/
  recorded : Bool := false
  /-- per core: the draw of a GMATMUL (R120) -/
  claims : AMap ClaimSet := []
  /-- cores of the set that have not reported its end, and those that its post has not reached yet -/
  cores : List Nat := []
  posts : List Nat := []
  /-- the plan being made is not to be held (R181) -/
  noHold : Bool := false
  /-- PASS1_MULT and PASS2_MULT in force as it entered PLANNING (R170, R181) -/
  passes : Nat × Nat := (0, 0)
  /-- an update was armed as it entered PLANNING (R274) -/
  armedBefore : Bool := false
  /-- tiles ended, as 8 × tile + branch -/
  doneTiles : List Nat := []
  /-- results of table-engine entries: the status of the first entry that is not OK, and how many are not (R318) -/
  entryStatus : Nat := 0
  entryBad : Nat := 0
  /-- accepted rows of a cache-mode ATTENTION (R312): row numbers refused, and sequences with rows in flight -/
  refusedRows : List Nat := []
  busySeqs : List Nat := []
  /-- out-of-range indices or boxes counted, and the lowest source position among them (R232, R234) -/
  oor : Nat := 0
  firstOor : Option Nat := none
  /-- SCATTER in ORDERED mode without ACCUM: per line, 1 + the greatest source position written (R235) -/
  lineMax : AMap Nat := []
  /-- elements and zero elements written through conversions, for the underflow watch (R263) -/
  gradElems : Nat := 0
  gradZero : Nat := 0
  /-- blocks of outputs with a zero map, by the place of their bit, 8 × address + bit: the elements of the block, row by row, whose last
  conversion gave zero (R136) -/
  zeros : AMap Nat := []
  deriving DecidableEq, Repr

/-- How far a tile has come on its core (R119, R160). -/
inductive TilePhase where
  | claimed | staged | executing | epilogueWait | epilogue | epilogueDone
  deriving DecidableEq, Repr

/-- A refused post (R166): the core, the thread, which is in WAIT_POST, or none with the slot and the forme's bytes for a post whose
command names no thread. -/
structure RefusedPost where
  core : Nat
  thread : Option Nat
  slot : Nat := 0
  bytes : List Byte := []
  deriving DecidableEq, Repr

/-- A proof in progress: its number, and the settings in force when it began (R208, R214): TOL_LOG2 and the address of the ring. -/
structure Proof where
  num : Nat
  tol : Nat
  ring : Nat
  deriving DecidableEq, Repr

/-- A tile that a core holds. -/
structure Tile where
  forme : Nat
  core : Nat
  slot : Nat
  branch : Nat
  index : Nat
  phase : TilePhase
  /-- chunks staged in the chunk buffers -/
  chunks : Nat := 0
  /-- the tile's elements after steps 1 to 4 of R138, row by row, and the number of columns -/
  out : List Num := []
  cols : Nat := 0
  /-- galley offset of the tile while an epilogue works on it (R160) -/
  galley : Nat := 0
  /-- the proof that the tile is sampled by, while it goes on (R207) -/
  proof : Option Proof := none
  deriving DecidableEq, Repr

/-- A held plan (R177): its key, the partition, the plans with the descriptor contents they were made from. -/
structure HeldPlan where
  key : List Nat
  part : Nat
  plans : List Plan
  deriving DecidableEq, Repr

/-- An update accepted by a reducer and not performed (R236): forme, source position, thread address of the line, the element
offset in bytes within the line, format of the destination and the contributions as FP32 codes. -/
structure RedUpdate where
  forme : Nat
  part : Nat
  j : Nat
  addr : Nat
  /-- the device physical address and the page-map index that its address translated to when it was accepted, and whether the page map
  has been written since (R79) -/
  place : Nat × Nat := (0, 0)
  old : Bool := false
  /-- row of the destination, and first element of the row -/
  row : Nat := 0
  col : Nat := 0
  fmt : Nat
  vals : List Nat
  ordered : Bool
  deriving DecidableEq, Repr

/-! ### Generation tables (ch. 11) -/

/-- A block-table entry (R305) of a block that is held; blocks not listed are on the free list. -/
structure KvBlock where
  tentative : Bool := false
  inTree : Bool := false
  fill : Nat := 0
  refs : Nat := 0
  deriving DecidableEq, Repr

/-- A pending ring entry (R337): kind, token or reason, and the position, time and handle of its creation. -/
structure RingEntry where
  kind : Nat
  tok : Nat
  pos : Nat
  time : Nat
  handle : Nat
  deriving DecidableEq, Repr

/-- A sequence record (R307) with its block list (R306); states as coded there. -/
structure KvSeq where
  st : Nat := 0
  inBatch : Bool := false
  cancel : Bool := false
  publish : Bool := false
  cls : Nat := 0
  busy : Nat := 0
  committed : Nat := 0
  written : Nat := 0
  /-- block-list entries: bits [19:0] BLOCK, bit 31 OUT -/
  list : List Nat := []
  account : Nat := 0
  ringLog2 : Nat := 0
  tag : Nat := 0
  ns : Nat := 0
  ring : Nat := 0
  swap : Nat := 0
  admitTime : Nat := 0
  ringSeq : Nat := 0
  vector : Nat := 0
  swapBlocks : Nat := 0
  node : Option Nat := none
  consumed : Nat := 0
  pend : List RingEntry := []
  deriving DecidableEq, Repr

/-- A prefix node (R325). -/
structure KvNode where
  hash : Nat := 0
  ns : Nat := 0
  block : Nat := 0
  valid : Bool := false
  parent : Option Nat := none
  depth : Nat := 0
  children : Nat := 0
  lastUse : Nat := 0
  gen : Nat := 0
  deriving DecidableEq, Repr

/-- A budget account (R339). -/
structure KvAccount where
  balance : Int := 0
  rate : Nat := 0
  cap : Int := 0
  rem : Nat := 0
  hard : Bool := false
  charged : Nat := 0
  deriving DecidableEq, Repr

/-- A swap copy in progress (R334, R335): the sequence and the forme that asked for it. -/
structure KvCopy where
  seq : Nat
  out : Bool
  forme : Nat
  deriving DecidableEq, Repr

/-- What waits for a table engine, in the order in which it came (R301): the entries of a forme, the rows of a cache-mode ATTENTION, a
refill tick, a READ of the table window. -/
inductive KvItem where
  | entries (forme : Nat)
  | rows (forme : Nat)
  | refill
  | peek (table index : Nat)
  deriving DecidableEq, Repr

/-- The generation tables of a partition and its table engine. -/
structure Kv where
  seqs : AMap KvSeq := []
  blocks : AMap KvBlock := []
  /-- the free list: these, and after them the blocks from `fresh` up to the pool's size -/
  freed : List Nat := []
  fresh : Nat := 0
  nodes : AMap KvNode := []
  accounts : AMap KvAccount := []
  /-- free blocks have been at or above HIGH_WATER since KV_LOW was last raised (R331) -/
  lowArmed : Bool := true
  /-- what waits for the engine, the front being served -/
  queue : List KvItem := []
  /-- entries of the front forme that have been served -/
  served : Nat := 0
  /-- an ADVANCE entry waits for BUSY to reach 0 (R322) -/
  advWaits : Bool := false
  copies : List KvCopy := []
  /-- per MSI-X vector: unsignalled ring entries and the device time of the oldest (R338) -/
  rings : AMap (Nat × Nat) := []
  deriving DecidableEq, Repr

/-! ### The update engine and activation arenas (ch. 09, 10) -/

/-- Page states of a managed arena (R249), with the two of a spill in progress (R251). -/
inductive ArenaSt where
  | empty | stack | bulk | dropped
  /-- a stack page that is being copied to a spill frame -/
  | spilling
  /-- a page that takes a spilling page's frame when the copy ends -/
  | placing
  deriving DecidableEq, Repr

/-- A page of an arena that is not EMPTY, or was touched in this step. -/
structure ArenaPage where
  st : ArenaSt := .empty
  layer : Nat := 0xFFFF
  /-- stack frame or spill frame, counted from the arena's first -/
  frame : Nat := 0
  /-- some write of this step did not come from a slot-0 forme with RECOMPUTE 1 -/
  kept : Bool := false
  /-- formes that wrote it in this step -/
  formes : List Nat := []
  /-- it was dropped in this step; and was touched again after that -/
  dropped : Bool := false
  retouched : Bool := false
  deriving DecidableEq, Repr

/-- A managed arena (R247, R248), as its entry was read. -/
structure Arena where
  num : Nat
  first : Nat
  pages : Nat
  budget : Nat
  stack0 : Nat
  bulk0 : Nat
  bulkN : Nat
  page : AMap ArenaPage := []
  peak : Nat := 0
  spilled : Nat := 0
  dropped : Nat := 0
  /-- stack and spill frames that stay unused until the arena reset, after page-map writes (R252) -/
  lostStack : List Nat := []
  lostBulk : List Nat := []
  deriving DecidableEq, Repr

/-- A spill in progress (R251): arena number, page spilled, spill frame, page that waits, unit that copies. -/
structure Spill where
  arena : Nat
  page : Nat
  dst : Nat
  waits : Nat
  unit : Nat
  /-- device time at which it was asked for (R429) -/
  since : Nat := 0
  deriving DecidableEq, Repr

/-- An entry of the armed update's table (R272). -/
structure UpdEntry where
  w : TDesc
  m : TDesc
  c : Option TDesc
  alt : Nat
  journal : Nat
  eta : Nat
  decay : Nat
  layer : Nat
  pingPong : Bool
  elems : Nat
  current : Bool
  received : Nat := 0
  nonzero : Bool := false
  deriving DecidableEq, Repr

/-- An exact sum of squares in units of 2^-298, with its NaN and infinity flags (R288). -/
structure SqSum where
  v : Nat := 0
  nan : Bool := false
  inf : Bool := false
  deriving DecidableEq, Repr

/-- An armed update (R271 to R275). -/
structure Update where
  forme : Nat
  table : Nat
  ext : List Byte
  entries : List UpdEntry
  /-- c of R289 -/
  clip : Nat
  /-- device time of arming -/
  since : Nat
  /-- SHARD_SQ and LOCAL_SQ so far -/
  sum : SqSum := {}
  localSq : SqSum := {}
  nonfinite : Nat := 0
  up : Nat := 0
  down : Nat := 0
  sat : Nat := 0
  applied : Nat := 0
  overrun : Bool := false
  /-- step 2 of R291 has been taken: s_p has gone to the all-reduce -/
  committing : Bool := false
  deriving DecidableEq, Repr

/-- A block of reduced gradient (R276): table entry, block number in the entry, 64 element codes in FP32 or BF16. -/
structure GradBlock where
  part : Nat
  entry : Nat
  block : Nat
  fp32 : Bool
  codes : List Nat
  /-- it has been applied and its last write is not accepted yet -/
  applied : Bool := false
  /-- device time at which it came to its intake (R429) -/
  since : Nat := 0
  deriving DecidableEq, Repr

/-- The cambium units and arenas of a partition. -/
structure Camb where
  upd : Option Update := none
  /-- blocks in the intakes, in order of arrival: unit number and block -/
  intake : List (Nat × GradBlock) := []
  /-- device time of the last grant of a unit's arbiter to a class, by 2 × unit + class: update blocks 0, spills 1 (R429, R431) -/
  grants : AMap Nat := []
  arenas : List Arena := []
  spills : List Spill := []
  /-- the layer table could not be used in this step (R262) -/
  watchBad : Bool := false
  deriving DecidableEq, Repr

/-! ### Coppice (ch. 12) -/

/-- A reshard plan as it was copied (R355, R356), and how far it has come. -/
structure ReshardPlan where
  id : Nat
  /-- source, destination, length -/
  entries : List (Nat × Nat × Nat)
  expect : Nat
  group : Nat
  /-- time limit in ns, and device time of entering BARRIER -/
  limit : Nat
  since : Nat := 0
  /-- per die, the entries it has looked at; requests outstanding per entry; entries all of whose writes have been accepted -/
  next : AMap Nat := []
  out : AMap Nat := []
  done : Nat := 0
  received : Nat := 0
  deriving DecidableEq, Repr

/-- Switch state of a partition (R351): state code, whether it switches, target, the RESHARD forme, the plan, its status. -/
structure Switch where
  st : Nat := 0
  on : Bool := false
  target : Overlay := .service
  forme : Option Nat := none
  plan : Option ReshardPlan := none
  status : Nat := 0
  deriving DecidableEq, Repr

/-! ### Media intake (ch. 13) -/

/-- A pool frame (R387) with the picture it holds. -/
structure IntkFrame where
  num : Nat
  /-- its frame of the pool -/
  slot : Nat := 0
  /-- DECODING (R387): an engine works on the picture -/
  decoding : Bool := false
  /-- device time since which it waits for its post-processing (R397) -/
  since : Nat := 0
  ref : Bool
  out : Bool
  disp : Nat := 0
  planes : List (List Int) := []
  width : Nat := 0
  height : Nat := 0
  deriving DecidableEq, Repr

/-- A sample that a job has begun. -/
structure IntkStream where
  /-- which of the job's samples it is, counted as they are begun -/
  no : Nat := 0
  /-- list index, and the 32 bytes of the sample entry -/
  index : Nat
  entry : List Byte
  header : Option StreamHeader := none
  reserved : Nat := 0
  frames : List IntkFrame := []
  /-- components of the most recently decoded picture -/
  recent : List (List Int) := []
  /-- sound decoded so far, per channel -/
  sound : List (List Int) := []
  units : Nat := 0
  /-- number of the stream's next picture: a live stream's pictures are numbered over its samples (R387, R398) -/
  nextNum : Nat := 0
  spent : Nat := 0
  /-- cycles and work of each unit, for the moving average -/
  costs : List (Nat × Nat) := []
  damage : List (Nat × Nat × Nat) := []
  missing : Option (Nat × Nat) := none
  limited : Bool := false
  /-- decoding has ended -/
  ended : Bool := false
  /-- selected pictures that have been decoded, and those written -/
  shown : Nat := 0
  valid : List Nat := []
  /-- places in display order of the pictures decoded, and of those never begun that are still to be concealed (R381) -/
  seen : List Nat := []
  lack : List Nat := []
  /-- parts of the present picture that engines have begun, and VCLK of the parts that have ended (R383, R388) -/
  begun : Nat := 0
  partVclk : Nat := 0
  /-- status of a rejected sample, until the samples before it have filled their positions (R393) -/
  fate : Option Nat := none
  /-- record found in the cache: offset and length in units of 256 bytes -/
  hit : Option (Nat × Nat) := none
  /-- device time since which its next unit of decoding waits -/
  since : Nat := 0
  deriving DecidableEq, Repr

/-- An active job (R373 to R378, R393 to R395). -/
structure IntkJob where
  num : Nat
  desc : List Byte
  limits : List Byte
  post : List Byte
  out : TDesc
  /-- the epoch order of the list indices (R378), empty without ORDER -/
  order : List Nat := []
  /-- samples begun, and positions filled -/
  taken : Nat := 0
  pos : Nat := 0
  /-- samples at work in sample order; the positions of the first are filled next -/
  streams : List IntkStream := []
  /-- a live video stream between two of its samples: header, frames and reservation last on (R386, R398) -/
  carry : Option IntkStream := none
  /-- its live stream's last sample has left (R377); the last batch has been completed, and no further sample comes -/
  noMore : Bool := false
  closed : Bool := false
  /-- per codec: the moving average and the units in it (R383) -/
  avg : AMap (Nat × Nat) := []
  /-- position entries of batches not delivered, and per batch the samples rejected and the damage entries written -/
  entries : AMap (List Byte) := []
  rejected : AMap Nat := []
  logged : AMap Nat := []
  stale : Nat := 0
  /-- delivered samples that the cache is to keep, with their positions (R400) -/
  toFill : List (Nat × IntkStream) := []
  delivered : Nat := 0
  /-- the record of the next batch to deliver has been written (step 2 of R395) -/
  recorded : Bool := false
  deriving DecidableEq, Repr

/-- A directory entry of the decoded-sample cache (R400). -/
structure CacheEntry where
  id : Nat
  digest : Nat
  off : Nat
  len : Nat
  seq : Nat
  deriving DecidableEq, Repr

/-- Media intake of a partition. -/
structure Intk where
  jobs : List IntkJob := []
  /-- jobs taken since the partition was created or reset (R373) -/
  taken : Nat := 0
  dir : List CacheEntry := []
  /-- the area's write point in units of 256 bytes, and the fills made -/
  point : Nat := 0
  fills : Nat := 0
  deriving DecidableEq, Repr

/-! ### Canopy (ch. 14) -/

/-- A flit kept for replay (R410, R412): its number, its body, and the routed packets that end in it. -/
structure Flit where
  num : Nat
  body : List Byte
  ends : List Packet
  deriving DecidableEq, Repr

/-- A packet that waits for an output link (R416, R430): since when, and for a forwarded one the link whose input buffer holds
it, with the level and the pool that it came with. -/
structure Waiting where
  pkt : Packet
  since : Nat
  src : Option (Nat × BitVec 4 × Bool) := none
  deriving DecidableEq, Repr

/-- A device link beyond its state code in CNPY_PORT_STATE (R409 to R412, R416, R421). -/
structure Link where
  /-- state code of R409; a reset leaves a link in DISABLED (R446) -/
  st : Nat := 0
  /-- device time at which it entered that state -/
  since : Nat := 0
  txNum : Nat := 0
  rxNum : Nat := 0
  /-- the lane that the next flit is sent on (R407) -/
  lane : Nat := 0
  /-- link packets that wait for room for their flit: all of them while the link retrains (R411, R412) -/
  ctl : List (List Byte) := []
  replay : List Flit := []
  /-- device time since which the replay buffer has been full -/
  full : Option Nat := none
  /-- device times at which uncorrectable codewords came in the last millisecond, and how many (R412) -/
  badWords : List (Nat × Nat) := []
  /-- the receiver discards flits until the one it NAKed comes (R412) -/
  discarding : Bool := false
  /-- good flits not acknowledged yet -/
  unacked : Nat := 0
  /-- the flit that the receiver, and that the sender, was last NAKed for, and how often in succession -/
  nakNum : Nat := 0
  nakCount : Nat := 0
  nakedNum : Nat := 0
  nakedCount : Nat := 0
  /-- units of the peer's buffer: shared pool size and use, use per class of the shared pool, use per class and level (key
  16 class + level) of the reserves -/
  sharedUnits : Nat := 0
  sharedUsed : Nat := 0
  clsUsed : AMap Nat := []
  resUsed : AMap Nat := []
  /-- packets that wait for credit or for the link, oldest first -/
  waiting : List Waiting := []
  /-- device time of the last grant per class, and the credits of the weighted draw -/
  lastGrant : AMap Nat := []
  credit : AMap Int := []
  /-- distances last heard: to groups, and to members of the neighbour's group -/
  advGroup : AMap Nat := []
  advMember : AMap Nat := []
  peerUid : Nat := 0
  peerAddr : Nat := 0
  peerValid : Bool := false
  peerGroup : Nat := 0
  /-- a HELLO has come in this HANDSHAKE -/
  helloSeen : Bool := false
  /-- entries into RETRAIN that no LINK_RETRAIN entry has told yet (R516) -/
  retrained : Nat := 0
  deriving DecidableEq, Repr

/-- Who waits for the answer to a remote request (R427). -/
inductive RemoteWho where
  /-- a thread's load: core and thread -/
  | load (core thread : Nat)
  | fetch (core thread : Nat)
  | store (core thread : Nat)
  /-- a write of a forme's tiles -/
  | forme (i : Nat)
  /-- a read of a tile's operands: forme, core, tile number with its branch -/
  | operand (i core code : Nat)
  /-- a write of a forme's end actions, by a planner's UNIT code -/
  | ended (i unit : Nat)
  /-- an entry of a partition's reshard plan (R357) -/
  | plan (p entry : Nat)
  /-- a page of a partition's snapshot, by its number (R484), or its record -/
  | snap (p page : Nat)
  /-- a piece of a fill's record, at an offset in it (R496) -/
  | fillRecord (p off : Nat)
  /-- a piece of a fill's data: page number, and the thread address that it goes to (R497) -/
  | fillData (p page dst : Nat)
  /-- a part of the device, by its UNIT code of R568 -/
  | unit (u : Nat)
  deriving DecidableEq, Repr

/-- A request outstanding on a context, or waiting for one of its 256 places (R427). -/
structure RemoteReq where
  ctx : Nat
  seq : Nat
  write : Bool
  off : Nat
  n : Nat
  data : List Byte
  part : Nat
  who : RemoteWho
  sent : Bool
  /-- PLAN_ID, and the class code -/
  plan : Nat := 0
  cls : Nat := 3
  /-- device time of its sending -/
  since : Nat := 0
  /-- its context's entry has been rewritten since (R425) -/
  lost : Bool := false
  deriving DecidableEq, Repr

/-- A piece of a collective's data: member-array word it comes from or goes to, shard, chunk, element codes. -/
structure CollData where
  word : Nat
  shard : Nat
  chunk : Nat
  codes : List Nat := []
  deriving DecidableEq, Repr

/-- A chunk that this member reduces (R438): the sum or extremum so far as FP32 codes, the words combined, and whether its own
part is among them. -/
structure Partial where
  shard : Nat
  chunk : Nat
  acc : List Nat := []
  words : List Nat := []
  own : Bool := false
  deriving DecidableEq, Repr

/-- A collective in progress on this device (R433 to R441), or the scalar sum of an update's norm (R440). -/
structure Coll where
  group : Nat
  seq : Nat
  part : Nat
  scalar : Bool := false
  /-- what a scalar sum serves: 0 an update's norm, 1 the barrier of a reshard plan (R351) -/
  purpose : Nat := 0
  /-- the forme that runs it -/
  forme : Nat := 0
  kind : Nat := 0
  op : Nat := 0
  ordered : Bool := false
  toCamb : Bool := false
  localGrad : Bool := false
  root : Nat := 0
  entry : Nat := 0
  seed : Nat := 0
  nonce : Nat := 0
  epoch : Nat := 0
  elems : Nat := 0
  src : TDesc := {}
  dst : TDesc := {}
  since : Nat := 0
  /-- time limit in ns -/
  limit : Nat := 0
  /-- contributions staged and not combined yet, oldest first -/
  staged : List CollData := []
  parts : List Partial := []
  /-- final chunks placed here: shard and chunk -/
  done : List (Nat × Nat) := []
  /-- data ready to go and waiting for a grant -/
  toSend : List CollData := []
  /-- grants received and not used -/
  granted : List CollData := []
  /-- chunks sent, and chunks that the peers have acknowledged, per word -/
  sent : AMap Nat := []
  acked : AMap Nat := []
  /-- grants given whose data has not come, and all data that has come -/
  asked : List CollData := []
  got : List CollData := []
  /-- barrier and scalar sum: words that have arrived, with their value; the result -/
  arrived : List (Nat × Nat) := []
  upSent : Bool := false
  result : Option Nat := none
  deriving DecidableEq, Repr

/-- Canopy state beyond its registers. -/
structure Canopy where
  links : AMap Link := []
  /-- routing tables: entries of R420 -/
  groupTbl : AMap Nat := []
  memberTbl : AMap Nat := []
  /-- contexts, 128-bit entries of R425, and the sequence numbers each has performed, newest first -/
  ctx : AMap Nat := []
  seen : AMap (List Nat) := []
  reqs : List RemoteReq := []
  /-- collective groups, 512-bit entries of R432, and the member array -/
  groups : AMap Nat := []
  members : AMap Nat := []
  /-- collectives in order of their start -/
  colls : List Coll := []
  /-- packets of collectives that this member has not begun: local context and packet -/
  early : List (Nat × Packet) := []
  /-- unique IDs known of the own group, with the election running (R419) -/
  ids : List Nat := []
  electing : Bool := true
  /-- device time at which the last new ID arrived -/
  electSince : Nat := 0
  /-- packets addressed to the device itself -/
  loop : List Packet := []
  /-- the first time exchange has been made (R444) -/
  everSynced : Bool := false
  /-- device time of the last exchange (R444) -/
  lastSync : Nat := 0
  /-- the exchange in progress: link and its t1 -/
  exchange : Option (Nat × Nat) := none
  deriving DecidableEq, Repr

/-! ### Host link (ch. 15) -/

/-- A submission queue beyond its registers (R462, R465). -/
structure SubQueue where
  head : Nat := 0
  tail : Nat := 0
  /-- entries fetched and not handed on: the reference, with the completion queue named at the fetch, and the 128 bytes -/
  fetched : List (HostRef × List Byte) := []
  /-- the WAIT entry that holds later entries: its reference, device counter, target, KCLK of issue, timeout in KCLK, met -/
  wait : Option (HostRef × Nat × Nat × Nat × Nat × Bool) := none
  /-- device time of the later of its last grant and the arrival of its oldest entry (R429, R466) -/
  since : Nat := 0
  deriving DecidableEq, Repr

/-- A completion queue beyond its registers (R467, R468, R472). -/
structure CompQueue where
  head : Nat := 0
  tail : Nat := 0
  /-- completions owed to fetched entries -/
  owed : Nat := 0
  unsignalled : Nat := 0
  /-- device time of the oldest unsignalled entry (R472) -/
  oldest : Nat := 0
  deriving DecidableEq, Repr

/-- A function of the host link. -/
structure Fn where
  bme : Bool := false
  d3hot : Bool := false
  /-- credits of the weighted draw among its submission queues (R466) -/
  arb : AMap Int := []
  sq : AMap SubQueue := []
  cq : AMap CompQueue := []
  /-- the function mask of MSI-X and the vectors whose mask bit is clear (R473) -/
  fnMask : Bool := false
  unmasked : List Nat := []
  pba : List Nat := []
  /-- completions held while the function may not issue requests (R455): reference, status, detail, device time -/
  heldCq : List (HostRef × Nat × Nat × Nat) := []
  heldIrq : List Nat := []
  /-- addresses of BAR0, BAR2 and BAR4 (R457) -/
  bars : AMap Nat := []
  /-- Max_Payload_Size and Max_Read_Request_Size, as 128 times 2 to this, and the completion timeout: 0 the default range, 1 to 4 ranges
  A to D, 5 disabled (R452) -/
  payload : Nat := 0
  readSize : Nat := 2
  timeout : Nat := 0
  /-- message address and data of the vectors in the MSI-X table (R475) -/
  table : AMap (Nat × Nat) := []
  deriving DecidableEq, Repr

/-! ### Snapshots, replays and fills (ch. 16) -/

/-- An entry of a snapshot (R478, R480): the entry as read, METHOD_USED and area, pages still to be read, pages of the entry to
copy. -/
structure SnapItem where
  src : Nat
  dst : Nat
  pages : Nat
  method : Nat
  baseArea : Bool
  baseStep : Nat
  used : Nat
  area : Nat
  todo : List Nat
  copied : Nat
  deriving DecidableEq, Repr

/-- A snapshot in progress (R481 to R485). -/
structure Snap where
  id : Nat
  kind : Nat
  list : Nat
  alt : Nat
  /-- address of the record, area applied -/
  record : Nat
  step : Nat
  since : Nat
  normPrev : Nat
  prevValid : Bool
  items : List SnapItem
  imageItems : Nat
  image : List Byte
  /-- pages in staging frames: item, page, frame -/
  staged : List (Nat × Nat × Nat) := []
  /-- pages streamed so far -/
  sent : Nat := 0
  /-- ACLK cycles counted as BULK_WAIT for held writes (R487) -/
  waits : Nat := 0
  /-- microseconds that steps 2 to 6 of R482 took (R487) -/
  protect : Nat := 0
  deriving DecidableEq, Repr

/-- A replay (R492, R493); `stopped` holds the status that ended it early. -/
structure Replay where
  list : Nat
  count : Nat
  ctr : Nat
  en : Bool
  next : Nat := 0
  stopped : Option Nat := none
  fill : Bool := false
  deriving DecidableEq, Repr

/-- A spare fill (R496, R497): its descriptor, the record as far as it is read, the source pages asked for, and the reads that a
source refused. -/
structure Fill where
  desc : List Byte
  record : AMap (List Byte) := []
  asked : Bool := false
  /-- next item and page to read -/
  item : Nat := 0
  page : Nat := 0
  /-- pages asked for; pages written -/
  sent : Nat := 0
  lost : Option Nat := none
  deriving DecidableEq, Repr

/-! ### Security and firmware (ch. 18) -/

/-- What a flash slot holds: nothing valid, the firmware of manufacture (log entry 32), or a package by its blocks (R542). -/
inductive Image where
  | none
  | factory
  | package (blocks : AMap (List Byte))
  deriving DecidableEq, Repr

/-- A settings record (R556). -/
structure SetRecord where
  key : Nat
  data : List Byte
  secret : Bool
  deleted : Bool
  seq : Nat
  deriving DecidableEq, Repr

/-- A half of the settings store (R556), with its records oldest first. -/
structure SetHalf where
  version : Nat := 0
  seq : Nat := 0
  complete : Bool := false
  records : List SetRecord := []
  deriving DecidableEq, Repr

/-- A block buffer being assembled (R546): the source (0 host, 1 BMC, 2 + canopy address), the block, its pieces by number. -/
structure FwBuffer where
  source : Nat
  block : Nat
  pieces : AMap (List Byte) := []
  deriving DecidableEq, Repr

/-- A propagation packet sent and not answered (R549): link, neighbour, offset, device time, SEQ. -/
structure FwSent where
  link : Nat
  peer : Nat
  off : Nat
  time : Nat
  seq : Nat
  deriving DecidableEq, Repr

/-- A copy of the boot record (R551): ACTIVE and TRIAL as 0 A, 1 B, the VALID bits, the sequence number, and whether its CRC is good. -/
structure BootRecord where
  active : Nat := 0
  trial : Option Nat := none
  tries : Nat := 0
  validA : Bool := true
  validB : Bool := false
  seq : Nat := 0
  crcGood : Bool := true
  deriving DecidableEq, Repr

/-- Secrets, fuses, flash and firmware delivery (R531 to R563). -/
structure Sec where
  serial : Nat := 0
  uds : Option Nat := none
  ownerSeed : Option Nat := none
  slotA : Image := .factory
  slotB : Image := .none
  /-- the two copies of the boot record in flash (R540, R551) -/
  boot0 : BootRecord := {}
  boot1 : BootRecord := { crcGood := false }
  /-- the staging region's blocks, manifest first (R548); its state, digest and bitmap stand in SEC 1 -/
  staging : AMap (List Byte) := []
  half0 : SetHalf := { complete := true }
  half1 : SetHalf := {}
  buffers : List FwBuffer := []
  /-- assembled blocks that wait for their check, oldest first: source, block, bytes -/
  assembled : List (Nat × Nat × List Byte) := []
  /-- ACTIVATE was written with RESET, and the command has not ended (R550) -/
  activating : Bool := false
  resetAfter : Bool := false
  /-- the content of the report being made (R538) -/
  report : Option (List Byte) := none
  /-- device times of the generator's latest health failures (R533) -/
  rngFails : List Nat := []
  /-- the sources that this device receives from: link, neighbour, and the device time of its last block (R549) -/
  sources : List (Nat × Nat × Nat) := []
  /-- bitmaps of the neighbours that receive from this device: link, neighbour, bitmap -/
  needs : List (Nat × Nat × List Byte) := []
  sent : List FwSent := []
  seq : Nat := 0
  deriving DecidableEq, Repr

/-- The state of the module. -/
structure State where
  /-- commands that wait, first in, first out -/
  pending : List Instr := []
  mem : List Host.Cell := []
  /-- units of storage that hold an uncorrectable error, by the memory key of their first byte: bits or symbols in error (R88, R90) -/
  faulty : AMap Nat := []
  /-- times that the bulk has lost its contents with its power (R37) -/
  bulkLost : Nat := 0
  /-- live register words that have been set; the rest hold their reset values -/
  regs : AMap Word := []
  /-- shadow words of registers with buffered fields (R59) -/
  shadow : AMap Word := []
  /-- per register with W1C bits, by its BAR0 offset: the PCLK cycle, counted from 1, in which hardware last set bits of it, and the
  bits that it set then (R12, R57, R58) -/
  lastSet : AMap (Nat × Nat) := []
  /-- the same for bits that read 1 and that writes have cleared (R58) -/
  lastClear : AMap (Nat × Nat) := []
  out : List Output := []
  /-- random draws made so far: the next draw is `Config.draw draws` (log entry 6) -/
  draws : Nat := 0
  /-- open values used so far: the next is `Config.open opens` (log entry 9) -/
  opens : Nat := 0
  power : Power := {}
  parts : AMap Part := []
  integ : Integ := {}
  /-- virtual functions enabled, and their number (R455) -/
  vfEnable : Bool := false
  numVfs : Nat := 0
  fns : AMap Fn := []
  /-- generation tables per partition -/
  kvs : AMap Kv := []
  cambs : AMap Camb := []
  /-- gradient blocks on their way from a reduce-scatter to a cambium intake, oldest first (R276) -/
  stream : List GradBlock := []
  switches : AMap Switch := []
  intks : AMap Intk := []
  /-- intake engines at work: partition, job number and sample, by INTK page -/
  engines : AMap (Nat × Nat × Nat) := []
  /-- pages with a pending application: the partitions that have passed a boundary since the request (R62) -/
  applyPassed : AMap (List Nat) := []
  threads : AMap Thread := []
  cores : AMap Core := []
  heldWrites : List HeldWrite := []
  /-- partitions that a failed host read or an error found in storage stops: the stop follows at the next tick, and no forme of theirs
  ends before (R90) -/
  hostStops : List Nat := []
  /-- function whose queue engine was served last (R466) -/
  hostTurn : Nat := 8
  formes : AMap Forme := []
  nextForme : Nat := 0
  tiles : List Tile := []
  /-- per planner: held plans, the most recently used first -/
  heldPlans : AMap (List HeldPlan) := []
  /-- per planner: posts that were refused, in order of refusal (R166) -/
  refused : AMap (List RefusedPost) := []
  reducers : List RedUpdate := []
  canopy : Canopy := {}
  snaps : AMap Snap := []
  fills : AMap Fill := []
  replays : AMap Replay := []
  sec : Sec := {}
  deriving DecidableEq, Repr

/-- The module right after power-on reset: rails up, device time 0, every partition ABSENT, memory with nothing listed. The start has
drawn SEC_LC_CHALLENGE (R537) and gathered its RESET entry (R516). -/
def State.reset : State :=
  { regs := (List.range 4).map fun w => (0x10 * 4096 + 0x030 + 4 * w, BitVec.ofNat 32 (Config.draw 0 / 2 ^ (32 * w)))
    draws := 1
    integ := { gathered := [{ kind := 0x0D, time := 0, boot := 0, payload := [0] }] } }

end Sys2Proof.Machine
end

