-- ==== Sys2Proof/Machine/Ops.lean ====
section
/-! DEFINITION. The named operations over registers, events, interrupts and memory that every meaning uses. -/

namespace Sys2Proof.Machine

/-- Outcomes of this model's steps are next states (R75: a fault of the module is a next state). -/
abbrev Out := Host.Outcome State Fault Refusal

/-! ### Pages (R44 to R46) -/

/-- Page classes (R45). -/
inductive PClass where
  | dir | pwr | sec | mem | plan | camb | copp | kv | intk | cnpy | host | core | sync
  deriving DecidableEq, Repr

/-- Class and instance of a page position, none where absent (R45, R46). -/
def classOf (i : Nat) : Option (PClass × Nat) :=
  if i == 0 then some (.dir, 0)
  else if i == 1 then some (.pwr, 0)
  else if 0x10 ≤ i && i ≤ 0x13 then some (.sec, i - 0x10)
  else if 0x20 ≤ i && i ≤ 0x3F then some (.mem, i - 0x20)
  else if 0x40 ≤ i && i ≤ 0x47 then some (.plan, i - 0x40)
  else if 0x48 ≤ i && i ≤ 0x57 then some (.camb, i - 0x48)
  else if 0x58 ≤ i && i ≤ 0x59 then some (.copp, i - 0x58)
  else if 0x60 ≤ i && i ≤ 0x67 then some (.kv, i - 0x60)
  else if 0x80 ≤ i && i ≤ 0xA2 then some (.intk, i - 0x80)
  else if 0xC0 ≤ i && i ≤ 0xC9 then some (.cnpy, i - 0xC0)
  else if 0xE0 ≤ i && i ≤ 0x103 then some (.host, i - 0xE0)
  else if 0x200 ≤ i && i ≤ 0x2FF then some (.core, i - 0x200)
  else if 0x300 ≤ i && i ≤ 0x31F then some (.sync, i - 0x300)
  else none

/-- Class code, first page index and instances (R45). -/
def classInfo : PClass → Nat × Nat × Nat
  | .dir => (0x01, 0x0, 1)
  | .pwr => (0x02, 0x1, 1)
  | .sec => (0x03, 0x10, 4)
  | .mem => (0x04, 0x20, 32)
  | .plan => (0x05, 0x40, 8)
  | .camb => (0x06, 0x48, 16)
  | .copp => (0x07, 0x58, 2)
  | .kv => (0x08, 0x60, 8)
  | .intk => (0x09, 0x80, 35)
  | .cnpy => (0x0A, 0xC0, 10)
  | .host => (0x0B, 0xE0, 36)
  | .core => (0x0C, 0x200, 256)
  | .sync => (0x0D, 0x300, 32)

/-- The classes in order of their codes. -/
def allClasses : List PClass :=
  [.dir, .pwr, .sec, .mem, .plan, .camb, .copp, .kv, .intk, .cnpy, .host, .core, .sync]

namespace Pg
def dir : Nat := 0
def pwr : Nat := 1
def sec (j : Nat) : Nat := 0x10 + j
def mem (j : Nat) : Nat := 0x20 + j
/-- page-map page of partition p -/
def part (p : Nat) : Nat := 0x38 + p
def plan (j : Nat) : Nat := 0x40 + j
def camb (j : Nat) : Nat := 0x48 + j
def copp (j : Nat) : Nat := 0x58 + j
def kv (p : Nat) : Nat := 0x60 + p
def intk (j : Nat) : Nat := 0x80 + j
def cnpy (j : Nat) : Nat := 0xC0 + j
def host (f j : Nat) : Nat := 0xE0 + 4 * f + j
def core (n : Nat) : Nat := 0x200 + n
def sync (j : Nat) : Nat := 0x300 + j
end Pg

/-- Offsets of the common header (R51). -/
def oApply : Nat := 0x008
def oLock : Nat := 0x00C
def oEvent : Nat := 0x010
def oMask : Nat := 0x014
def oCount : Nat := 0x018
def oSeq : Nat := 0x01C

/-- The block registers of a page, by class and instance. -/
def rowsOf : PClass → Nat → List RegRow
  | .dir, _ => rowsDIR
  | .pwr, _ => rowsPWR
  | .sec, j => if j == 0 then rowsSEC0 else if j == 1 then rowsSEC1 else if j == 2 then rowsSEC2 else rowsSEC3
  | .mem, j => if j < 24 then rowsMEMD else rowsMEMP
  | .plan, _ => rowsPLAN
  | .camb, _ => rowsCAMB ++ rowsCAMBL
  | .copp, _ => rowsCOPP
  | .kv, _ => rowsKV
  | .intk, j => if j == 0 then rowsINTK0 else rowsINTKE
  | .cnpy, j => if j == 9 then rowsCNPY9 else rowsCNPYP
  | .host, j => if j % 4 == 0 then rowsHOST0 else if j % 4 == 1 then rowsHOST1 else if j % 4 == 2 then rowsHOST2 else rowsHOST3
  | .core, _ => rowsCORE
  | .sync, _ => rowsSYNC

/-- Whether a row of registers holds one at page offset `o`. -/
def RegRow.has (r : RegRow) (o : Nat) : Bool :=
  if r.cnt == 1 then o == r.off
  else r.off ≤ o && (o - r.off) % r.stride == 0 && (o - r.off) / r.stride < r.cnt

/-- The row that holds page offset `o` and the overlay view through which it is seen (R65): 0 the register's own offset,
1 TRAIN, 2 GENERATE, 3 SERVICE. -/
def rowAt (rows : List RegRow) (o : Nat) : Option (RegRow × Nat) :=
  match rows.find? (fun r => r.has o) with
  | some r => some (r, 0)
  | none =>
    let v := o / 0x400
    match rows.find? (fun r => r.ov != 0 && 1 ≤ v && r.has (o - v * 0x400)) with
    | some r => some (r, v)
    | none => none

/-- The value a register holds at reset, by the Reset column of its field table; registers the spec gives no value hold 0
(log entry 4). `a` is the BAR0 offset of PF0. -/
def resetWord (a : Nat) : Nat :=
  let pg := a / 4096
  let o := a % 4096
  match classOf pg with
  | none => 0
  | some (c, j) =>
    if o == oMask then 0xFFFFFFFF
    else if c == .mem && 8 ≤ j && j < 24 && o == 0x020 then 0x0F0
    else match rowAt (rowsOf c j) o with
      | some (r, 2) => r.resetG
      | some (r, 3) => r.resetS
      | some (r, _) => r.resetT
      | none => 0

/-! ### Register access by the blocks -/

/-- The live word of the register at BAR0 offset `a`. -/
def State.reg (s : State) (a : Nat) : Nat :=
  match AMap.get? a s.regs with
  | some w => w.toNat
  | none => resetWord a

/-- `s` with the live word at BAR0 offset `a` set. -/
def State.setReg (s : State) (a v : Nat) : State :=
  { s with regs := AMap.put a (BitVec.ofNat 32 v) s.regs }

/-- A field of page `pg`. -/
def State.f (s : State) (pg : Nat) (f : Fld) : Nat := bits (s.reg (pg * 4096 + f.off)) f.lo f.w

/-- `s` with a field of page `pg` set. -/
def State.setF (s : State) (pg : Nat) (f : Fld) (v : Nat) : State :=
  s.setReg (pg * 4096 + f.off) (putBits (s.reg (pg * 4096 + f.off)) f.lo f.w v)

/-- The field of the register `d` bytes further on. -/
def Fld.sh (f : Fld) (d : Nat) : Fld := { f with off := f.off + d }

/-- A counter field that wraps. -/
def State.incF (s : State) (pg : Nat) (f : Fld) (n : Nat := 1) : State := s.setF pg f (wrapAdd f.w (s.f pg f) n)

/-- A counter field that saturates. -/
def State.satF (s : State) (pg : Nat) (f : Fld) (n : Nat := 1) : State := s.setF pg f (satAdd f.w (s.f pg f) n)

/-- Two 32-bit fields as one 64-bit number, low word first. -/
def State.f2 (s : State) (pg : Nat) (lo hi : Fld) : Nat := s.f pg lo + 2 ^ 32 * s.f pg hi

/-- A 64-bit counter over two fields. -/
def State.incF2 (s : State) (pg : Nat) (lo hi : Fld) (n : Nat := 1) : State :=
  let v := wrapAdd 64 (s.f2 pg lo hi) n
  (s.setF pg lo (v % 2 ^ 32)).setF pg hi (v / 2 ^ 32)

/-- The shadow word of a register: what writes to buffered fields changed (R59). -/
def State.shadowOf (s : State) (a : Nat) : Nat :=
  match AMap.get? a s.shadow with
  | some w => w.toNat
  | none => s.reg a

/-! ### Buffered configuration (R59) -/

/-- PAGE_APPLY as a field. -/
def fReq : Fld := ⟨0x008, 0, 1⟩
def fSeq : Fld := ⟨0x008, 8, 8⟩

/-- Copy the shadow words of a page to the live ones, where the mask of buffered bits allows. -/
def State.latchWords (s : State) (pg : Nat) : State :=
  let rows := match classOf pg with
    | some (c, j) => rowsOf c j
    | none => []
  let one (s : State) (x : Nat × Word) : State :=
    match rowAt rows (x.1 % 4096) with
    | some (r, _) => s.setReg x.1 ((s.reg x.1 &&& (0xFFFFFFFF - r.buf)) ||| (x.2.toNat &&& r.buf))
    | none => s
  let mine := s.shadow.filter fun x => x.1 / 4096 == pg
  let s := mine.foldl one s
  { s with shadow := s.shadow.filter fun x => x.1 / 4096 != pg }

/-- An application of a page (R59): every shadow value becomes live, APPLY_SEQ increases, REQ falls. -/
def State.latch (s : State) (pg : Nat) : State :=
  let s := s.latchWords pg
  let s := { s with applyPassed := AMap.del pg s.applyPassed }
  (s.setF pg fSeq (s.f pg fSeq + 1)).setF pg fReq 0

/-- Send something to the outside. -/
def State.emit (s : State) (o : Output) : State := { s with out := s.out ++ [o] }

/-! ### The division into partitions (R6, R80, R113) -/

/-- LOG2_K. -/
def State.log2k (s : State) : Nat := s.f (Pg.part 0) F.MEMP_LOG2_K
/-- The number of partitions. -/
def State.k (s : State) : Nat := 2 ^ s.log2k
/-- Cores of one partition. -/
def State.coresPer (s : State) : Nat := 256 / s.k
/-- The partition that holds core n (R6). -/
def State.corePart (s : State) (n : Nat) : Nat := n / s.coresPer
/-- Counters of one partition (R113). -/
def State.ctrsPer (s : State) : Nat := 8192 / s.k
/-- Device number of partition p's counter c (R113). -/
def State.devCtr (s : State) (p c : Nat) : Nat := s.ctrsPer * p + c
/-- The cores of partition p. -/
def State.coresOf (s : State) (p : Nat) : List Nat := rangeFrom (s.coresPer * p) s.coresPer
/-- A partition's record. -/
def State.part (s : State) (p : Nat) : Part := AMap.getD p {} s.parts
/-- `s` with a partition's record replaced. -/
def State.setPart (s : State) (p : Nat) (x : Part) : State := { s with parts := AMap.put p x s.parts }
/-- `s` with a partition's record changed. -/
def State.modPart (s : State) (p : Nat) (f : Part → Part) : State := s.setPart p (f (s.part p))
/-- The partition exists under the division and is not ABSENT. -/
def State.partHere (s : State) (p : Nat) : Bool := p < s.k && (s.part p).st != .absent
/-- The partition is ACTIVE. -/
def State.active (s : State) (p : Nat) : Bool := p < s.k && (s.part p).st == .active && !s.hostStops.contains p
/-- The die of a partition, 0 west, 1 east (R81); partition 0 of a division into one counts as west. -/
def State.dieOf (s : State) (p : Nat) : Nat := if s.k == 1 then 0 else if p < s.k / 2 then 0 else 1
/-- Overlay number in COPP_MODE_p and OVERLAY (R157, R366). -/
def Overlay.code : Overlay → Nat
  | .train => 0
  | .generate => 1
  | .service => 2

/-- The partition that a page belongs to under the current division, for the pages of R50 that serve one. -/
def State.pageOwner (s : State) (pg : Nat) : Option Nat :=
  match classOf pg with
  | some (.core, n) => some (s.corePart n)
  | some (.sync, j) => some (j * s.k / 32)
  | some (.kv, p) => some p
  | some (.mem, j) => if 24 ≤ j then some (j - 24) else none
  | some (.host, j) => if 4 ≤ j then some (j / 4 - 1) else none
  | _ => none

/-- The partition that PAGE_CAPS names (R51), to whose function the page's signals go (R518): that of `State.pageOwner`, and for a
CAMB page the partition that its cambium unit serves (R37, R270). Virtual functions do not see CAMB pages (R50). -/
def State.capsOwner (s : State) (pg : Nat) : Option Nat :=
  match classOf pg with
  | some (.camb, j) => some (j * s.k / 16)
  | _ => s.pageOwner pg

/-- The page is present (R50): its position is in use and the partition slot it serves exists. In recovery only the DIR, PWR and
SEC pages are (R555). -/
def State.present (s : State) (pg : Nat) : Bool :=
  match classOf pg with
  | none => false
  | some _ => (s.f (Pg.sec 1) F.SEC1_RECOVERY == 0 || pg < 0x20) && match s.pageOwner pg with
    | some p => p < s.k
    | none => true

/-- A control processor is halted, by an error of its memory (R507) or by JTAG (R534). -/
def State.ctrlHalted (s : State) (n : Nat) : Bool := s.integ.halted.contains n || s.integ.debugged.contains n

/-! ### Functions of the host link (R455, R456) -/

/-- A function's record; f is 0 for PF0 and p + 1 for the virtual function of partition p. -/
def State.fn (s : State) (f : Nat) : Fn := AMap.getD f {} s.fns
def State.setFn (s : State) (f : Nat) (x : Fn) : State := { s with fns := AMap.put f x s.fns }
def State.modFn (s : State) (f : Nat) (g : Fn → Fn) : State := s.setFn f (g (s.fn f))

/-- The function may issue host requests (R454, R455). -/
def State.fnReady (s : State) (f : Nat) : Bool :=
  (s.fn f).bme && !(s.fn f).d3hot && (f == 0 || (s.vfEnable && f - 1 < s.numVfs))

/-- MSI-X vectors of a function (R471). -/
def vectors (f : Nat) : Nat := if f == 0 then 256 else 224

/-! ### Interrupts and events (R56, R471 to R473, R518) -/

/-- The completion queues of function f on a vector, and its rings, have no unsignalled entry any more (R472). -/
def State.clearUnsignalled (s : State) (f vec : Nat) : State :=
  let s := s.modFn f fun x =>
    { x with
      cq := x.cq.map fun c =>
        if s.f (Pg.host f 2) (F.HOST2_VECTOR.sh (16 * c.1)) == vec then (c.1, { c.2 with unsignalled := 0 }) else c }
  if f == 0 then s
  else
    let x := AMap.getD (f - 1) {} s.kvs
    { s with kvs := AMap.put (f - 1) { x with rings := AMap.del vec x.rings } s.kvs }

/-- Device time of the last vector-0 message of a function, where that is less than 1 µs ago (R518). -/
def State.spacedSince (s : State) (f : Nat) : Option Nat :=
  match AMap.get? f s.integ.spacing with
  | some x => if s.power.time < x.1 + 1000 then some x.1 else none
  | none => none

/-- The spacing of vector 0 of a function: the time of its last message, and whether the next one is owed (R518). -/
def State.setSpacing (s : State) (f t : Nat) (owed : Bool) : State :=
  { s with integ := { s.integ with spacing := AMap.put f (t, owed) s.integ.spacing } }

/-- Write the message of a vector of function f to the host (R471, R472). -/
def State.sendMessage (s : State) (f vec : Nat) : State :=
  let m := AMap.getD vec (0, 0) (s.fn f).table
  ((s.emit (.msix f vec m.1 m.2)).incF (Pg.host f 0) F.HOST0_IRQ_SENT).clearUnsignalled f vec

/-- Send the message of a vector of function f, or set its pending bit while it is masked (R473), or hold it while the
function may not issue requests (R455). Messages on vector 0, whatever their source, are at least 1 µs apart (R518). -/
def State.message (s : State) (f vec : Nat) : State :=
  let x := s.fn f
  if !s.fnReady f then
    s.modFn f fun x => { x with heldIrq := if x.heldIrq.contains vec then x.heldIrq else x.heldIrq ++ [vec] }
  else if x.fnMask || !x.unmasked.contains vec then
    s.modFn f fun x => { x with pba := if x.pba.contains vec then x.pba else x.pba ++ [vec] }
  else if vec == 0 then
    match s.spacedSince f with
    | some t => s.setSpacing f t true
    | none => (s.sendMessage f 0).setSpacing f s.power.time false
  else s.sendMessage f vec

/-- Deliver a signal of a page (R518). An in-band interrupt is sent whether or not the BMC has assigned a dynamic address, which R39
leaves open (log entry 162). ALERT_N follows from the flags of the PWR page (`State.alertLow`). -/
def State.signal (s : State) (pg : Nat) : State :=
  let s := if s.f Pg.dir F.DIR_PF0_EN == 1 then s.message 0 0 else s
  let s := match s.capsOwner pg with
    | some p => if s.f Pg.dir F.DIR_VF_EN == 1 then s.message (p + 1) 0 else s
    | none => s
  if pg == Pg.pwr || (pg == Pg.dir && s.f Pg.dir F.DIR_BMC_EN == 1) then s.emit (.ibi pg) else s

/-- The present PCLK cycle, counted from 1: PCLK runs at a quarter of KCLK (R10). -/
def State.pclk (s : State) : Nat := s.power.kclk / 4 + 1

/-- Bits of the register at a BAR0 offset that a map of PCLK cycles lists for the present one. -/
def State.nowBits (s : State) (m : AMap (Nat × Nat)) (a : Nat) : Nat :=
  match AMap.get? a m with
  | some x => if x.1 == s.pclk then x.2 else 0
  | none => 0

/-- W1C bits that hardware has set in this PCLK cycle, which a write in the cycle does not clear (R12, R58). -/
def State.setNow (s : State) (a : Nat) : Nat := s.nowBits s.lastSet a
/-- Bits that read 1 and that a write has cleared in this PCLK cycle. -/
def State.clearedNow (s : State) (a : Nat) : Nat := s.nowBits s.lastClear a

/-- Hardware sets W1C bits of the register at BAR0 offset `a`. -/
def State.raise (s : State) (a m : Nat) : State :=
  { s.setReg a (s.reg a ||| m) with lastSet := AMap.put a (s.pclk, s.setNow a ||| m) s.lastSet }

/-- Hardware sets a W1C field of one bit. -/
def State.raiseF (s : State) (pg : Nat) (f : Fld) : State := s.raise (pg * 4096 + f.off) (2 ^ f.lo)

/-- A write clears W1C bits (R12, R58): those that hardware sets in the same PCLK cycle stay. -/
def State.clearW1c (s : State) (a m : Nat) : State :=
  let gone := s.reg a &&& m &&& (0xFFFFFFFF - s.setNow a)
  { s.setReg a (s.reg a &&& (0xFFFFFFFF - gone)) with lastClear := AMap.put a (s.pclk, s.clearedNow a ||| gone) s.lastClear }

/-- `n` settings of flag `b` of a page (R56 to R58): the flag reads 1, the settings are counted, and a change from 0 to 1 is signalled
while unmasked, but for a flag that a write has cleared in the same PCLK cycle. -/
def State.settings (s : State) (pg b n : Nat) : State :=
  let a := pg * 4096 + oEvent
  let t := (s.raise a (2 ^ b)).setReg (pg * 4096 + oCount) (wrapAdd 32 (s.reg (pg * 4096 + oCount)) n)
  if !bit (s.reg a) b && !bit (s.reg (pg * 4096 + oMask)) b && !bit (s.clearedNow a) b then t.signal pg else t

/-- Hardware sets flag `b` of a page: occurrences within one PCLK cycle are one setting (R57). -/
def State.event (s : State) (pg b : Nat) : State := s.settings pg b (b2n (!bit (s.setNow (pg * 4096 + oEvent)) b))

/-- Whether a page holds a flag that is 1 and unmasked (R520). -/
def State.signals (s : State) (pg : Nat) : Bool :=
  s.present pg && (s.reg (pg * 4096 + oEvent)) &&& (0xFFFFFFFF - s.reg (pg * 4096 + oMask)) != 0

/-- ALERT_N reads low (R15): the module has power, and a PWR event is unmasked and set or a fault holds the pin. -/
def State.alertLow (s : State) : Bool :=
  (match s.power.phase with
   | .off | .lockedOff => false
   | .rising n => 2 ≤ n
   | _ => true) && (s.power.alertHeld || s.signals Pg.pwr)

/-- An interrupt that a queue or a ring names (R471): counted and not sent on a vector beyond the table. -/
def State.interrupt (s : State) (f vec : Nat) : State :=
  if vec < vectors f then s.message f vec
  else (s.satF (Pg.host f 0) F.HOST0_IRQ_DROPPED).event (Pg.host f 0) Ev.HOST0_IRQ_DROPPED

/-- Gather a fault-history entry (R516, R517). While the management pair is held, only the security core's kinds are
written (R508). -/
def State.history (s : State) (kind : Nat) (payload : List Nat) : State :=
  if s.f Pg.dir F.DIR_LOCKSTEP == 1 && !([0x02, 0x03, 0x0B].contains kind) then s
  else { s with integ := { s.integ with
    gathered := s.integ.gathered ++ [{ kind := kind, time := s.power.time, boot := s.integ.boot, payload := payload }] } }

/-! ### Refused accesses (R47) -/

/-- SOURCE code of PAGE_DIR_BADADDR (R67). -/
def sourceCode : Requester → Nat
  | .pf0 => 0
  | .vf p => 1 + p.val
  | .i3c => 9
  | .mgmt => 10

/-- An access that the device does not perform is counted and the first is recorded (R47, R53, R67). -/
def State.refuse (s : State) (who : Requester) (offset : Nat) : State :=
  let s := s.satF Pg.dir F.DIR_COUNT
  if s.f Pg.dir F.DIR_VALID_028 == 1 then s
  else ((s.setF Pg.dir F.DIR_OFFSET offset).setF Pg.dir F.DIR_SOURCE (sourceCode who)).raiseF Pg.dir F.DIR_VALID_028

/-- Whether the requester sees the page (R50, R456; the INTK pages by log entry 197), and R40's limit while the work domain is off. -/
def State.sees (s : State) (who : Requester) (pg : Nat) : Bool :=
  s.present pg && match who with
  | .pf0 | .mgmt => true
  | .i3c => s.power.phase == .up || pg == Pg.pwr
  | .vf p => s.partHere p && s.pageOwner pg == some p.val

/-- Whether the requester's writes to the page are performed (R40, R50). -/
def State.mayWrite (s : State) (who : Requester) (pg : Nat) : Bool :=
  s.sees who pg && match who with
  | .pf0 | .mgmt => true
  | .i3c => pg == Pg.pwr || pg == Pg.sec 0 || pg == Pg.sec 1
  | .vf _ => match classOf pg with
    | some (.mem, _) => false
    | _ => true

/-! ### Memory (R73, R74) -/

/-- Memory as it is held: bytes by key, keys rising, no byte equal to what its unlisted key reads as. Keys: stack and bulk by
device physical address; galleys from 2^48, 2^20 per core; host memory from 2^64 by host bus address. -/
abbrev Memory := List Host.Cell

/-- Key of a galley byte. -/
def galleyKey (core off : Nat) : Nat := 2 ^ 48 + core * 2 ^ 20 + off
/-- Key of a byte of host memory. -/
def hostKey (a : Nat) : Nat := 2 ^ 64 + a

/-- What an unlisted key reads as: 0 in the stacks and the galleys, which power-up, creation, teardown and resets zero
(R33, R37, R83); no fixed value in bulk and in host memory (R83). -/
def unlisted (a : Nat) : Option Byte :=
  if a < 0x300000000 || (2 ^ 48 ≤ a && a < 2 ^ 48 + 2 ^ 28) then some 0 else none

/-- The canonical form. -/
abbrev Memory.wf (m : Memory) : Prop :=
  m.Pairwise (fun x y => x.1 < y.1) ∧ ∀ c ∈ m, unlisted c.1 ≠ some c.2

/-- Write one byte. -/
def Memory.set (a : Nat) (b : Byte) (m : Memory) : Memory :=
  if unlisted a = some b then AMap.del a m else AMap.put a b m

/-- Write consecutive bytes. -/
def Memory.setAll : Nat → List Byte → Memory → Memory
  | _, [], m => m
  | a, b :: t, m => Memory.setAll (a + 1) t (Memory.set a b m)

/-- Base and size of a partition's stack and bulk shares (R80, R81); for k = 1 the two areas of each tier. -/
def State.stackShare (s : State) (p : Nat) : List (Nat × Nat) :=
  if s.k == 1 then [(0, 0x170000000), (0x180000000, 0x170000000)]
  else let sz := 0x170000000 / (s.k / 2)
    [((if p < s.k / 2 then 0 else 0x180000000) + p % (s.k / 2) * sz, sz)]
def State.bulkShare (s : State) (p : Nat) : List (Nat × Nat) :=
  if s.k == 1 then [(0x10000000000, 0x3F80000000), (0x14000000000, 0x3F80000000)]
  else let sz := 0x3F80000000 / (s.k / 2)
    [((if p < s.k / 2 then 0x10000000000 else 0x14000000000) + p % (s.k / 2) * sz, sz)]

/-- Whether an address lies in one of the ranges. -/
def inRanges (l : List (Nat × Nat)) (a : Nat) : Bool := l.any fun r => r.1 ≤ a && a < r.1 + r.2

/-- The existing partition slot whose bulk share holds an address. -/
def State.bulkOwner (s : State) (a : Nat) : Option Nat := (List.range s.k).find? fun p => inRanges (s.bulkShare p) a
/-- The same for the stack. -/
def State.stackOwner (s : State) (a : Nat) : Option Nat := (List.range s.k).find? fun p => inRanges (s.stackShare p) a

/-- Read one byte of what is stored. Bulk bytes that nothing has written since the bulk had power, and host bytes that the module has
not written, are free values (R83; log entry 5). -/
def State.byte (s : State) (a : Nat) : Byte :=
  match AMap.get? a s.mem with
  | some b => b
  | none => match unlisted a with
    | some b => b
    | none =>
      if 2 ^ 64 ≤ a then Config.hostByte (a - 2 ^ 64)
      else Config.bulkByte s.bulkLost a

/-- Read consecutive bytes. -/
def State.bytes (s : State) (a n : Nat) : List Byte := (List.range n).map fun i => s.byte (a + i)

/-- Write consecutive bytes. -/
def State.poke (s : State) (a : Nat) (b : List Byte) : State := { s with mem := Memory.setAll a b s.mem }

/-- Zero a range of stack or galley, which then lists nothing; errors that it overwrites are cleared (R83, R90). -/
def State.wipe (s : State) (a n : Nat) : State := { s with mem := AMap.drop a (a + n) s.mem, faulty := AMap.drop a (a + n) s.faulty }

/-- A memory key of the bulk tier (R73). -/
def inBulk (a : Nat) : Bool := 0x300000000 ≤ a && a < 2 ^ 48

/-- Bytes of the unit of the code that protects a memory key: the 64-byte block of bulk, the 64-bit word elsewhere (R88, R90). -/
def unitBytes (a : Nat) : Nat := if inBulk a then 64 else 8

/-- The units in error that n bytes from a memory key on touch. -/
def State.faultyIn (s : State) (a n : Nat) : List (Nat × Nat) := s.faulty.filter fun u => u.1 < a + n && a < u.1 + unitBytes u.1

/-- The unit that holds a memory key is in error from now on, until a write covers it (R90). -/
def State.damage (s : State) (a symbols : Nat) : State :=
  { s with faulty := AMap.put (a / unitBytes a * unitBytes a) symbols s.faulty }

/-- The MEM instance that holds a device physical address (R46, R70, R71). -/
def memInst (a : Nat) : Nat :=
  if a < 0x300000000 then
    let h := if a < 0x180000000 then 0 else 1
    4 * h + (bits a 9 7 ^^^ bits a 21 7) / 32
  else
    let h := if a < 0x14000000000 then 0 else 1
    8 + 8 * h + (bits a 8 3 ^^^ bits a 21 3)

/-! ### Error records (R92 to R94, R568) -/

/-- Fields of an error record (R93). -/
structure ErrRec where
  cause : Nat
  sys : Bool := false
  notInUse : Bool := false
  tier : Nat := 7
  unit : Nat := 0xFFFF
  symbols : Nat := 0
  addr : Nat := 0
  phys : Nat := 0

/-- The eight words of a record of the file of partition p (R93). -/
def ErrRec.words (r : ErrRec) (p seq time : Nat) : List Nat :=
  [r.cause + p * 2 ^ 8 + b2n r.sys * 2 ^ 11 + b2n r.notInUse * 2 ^ 12 + r.tier * 2 ^ 13 + seq * 2 ^ 24,
   r.unit + r.symbols * 2 ^ 16, r.addr % 2 ^ 32, r.addr / 2 ^ 32 % 2 ^ 32, r.phys % 2 ^ 32, r.phys / 2 ^ 32 % 2 ^ 32,
   time % 2 ^ 32, time / 2 ^ 32 % 2 ^ 32]

/-- Write registers one after another. -/
def State.setRegs (s : State) (a : Nat) : List Nat → State
  | [] => s
  | v :: t => (s.setReg a v).setRegs (a + 4) t

/-- Write a record to the file of page MEM 24 + p, or drop it where the file is full (R94). SEQ is WRITTEN before the record counts in
it, so that of the first record is 0 (R93; log entry 178). -/
def State.fileRecord (s : State) (p : Nat) (r : ErrRec) (part : Nat) : State :=
  let pg := Pg.part p
  let w := s.f pg F.MEMP_WRITTEN
  let s :=
    if (w + 256 - s.f pg F.MEMP_ACKED) % 256 < 8 then
      (s.setRegs (pg * 4096 + 0x200 + 32 * (w % 8)) (r.words part w s.power.time)).incF pg F.MEMP_WRITTEN
    else s.satF pg F.MEMP_LOST
  s.event pg Ev.MEMP_ERROR_RECORD

/-- A record of one partition's event, copied to the fault history (R94). -/
def State.errRecord (s : State) (p : Nat) (r : ErrRec) : State :=
  let w := s.f (Pg.part p) F.MEMP_WRITTEN
  (s.fileRecord p r p).history 0x01 (r.words p w s.power.time)

/-- A record of an event that concerns every partition: one per file, one history entry (R94). -/
def State.errRecordAll (s : State) (r : ErrRec) : State :=
  let ps := (List.range s.k).filter s.partHere
  match ps with
  | [] => s.errRecord 0 r
  | p0 :: _ =>
    let h := r.words p0 (s.f (Pg.part p0) F.MEMP_WRITTEN) s.power.time
    (ps.foldl (fun s p => s.fileRecord p r p) s).history 0x01 h

end Sys2Proof.Machine
end

