-- ==== Sys2Proof/Machine/Net.lean ====
section
/-! DEFINITION. Links, routes and connection contexts of the canopy as the rest of the module uses them: choosing a link,
credits, arbitration, sending a packet, and originating a request on a context (R407 to R431). -/

namespace Sys2Proof.Machine

/-! ### The weighted draw (R110) -/

/-- The weighted draw over a set of numbered members with their weights, lowest number first: the pick and the credits after
it (R110, R120, R429). -/
def weightedDraw (m : List (Nat × Nat)) (credit : AMap Int) : Option (Nat × AMap Int) :=
  let c1 := m.foldl (fun c (x : Nat × Nat) => AMap.put x.1 (AMap.getD x.1 0 c + Int.ofNat x.2) c) credit
  let total := m.foldl (fun n x => n + x.2) 0
  match m with
  | [] => none
  | x0 :: _ =>
    let pick := m.foldl (fun b x => if AMap.getD b 0 c1 < AMap.getD x.1 0 c1 then x.1 else b) x0.1
    some (pick, AMap.put pick (AMap.getD pick 0 c1 - Int.ofNat total) c1)

/-! ### Links (R407, R409, R416) -/

def State.link (s : State) (l : Nat) : Link := AMap.getD l {} s.canopy.links
def State.setLink (s : State) (l : Nat) (x : Link) : State :=
  { s with canopy := { s.canopy with links := AMap.put l x s.canopy.links } }
def State.modLink (s : State) (l : Nat) (g : Link → Link) : State := s.setLink l (g (s.link l))

/-- SPLIT of a port, with code 3 acting as X4 (R407). -/
def State.split (s : State) (port : Nat) : Nat :=
  let v := s.f (Pg.cnpy port) F.CNPYP_SPLIT
  if v == 3 then 0 else v

/-- Whether the port's split makes device link l (R407). -/
def State.linkMade (s : State) (l : Nat) : Bool := l % 4 < 2 ^ s.split (l / 4)

/-- Lanes of a link of the port. -/
def State.lanes (s : State) (l : Nat) : Nat := 4 / 2 ^ s.split (l / 4)

/-- Units of the port's input buffer that a link receives, and its shared pool (R416). -/
def State.linkUnits (s : State) (l : Nat) : Nat := 2048 * s.lanes l
def State.linkShared (s : State) (l : Nat) : Nat := s.linkUnits l - 1105

/-- Set a link's state (R409). -/
def State.setLinkSt (s : State) (l st : Nat) : State :=
  s.modLink l fun x => { x with st := st, since := s.power.time }

/-- The links that are UP. -/
def State.upLinks (s : State) : List Nat := (List.range 36).filter fun l => (s.link l).st == 5 && s.linkMade l

/-- Flits that fit a link's part of the port's 1 MiB replay buffer (R412). -/
def State.replayRoom (s : State) (l : Nat) : Nat := 2 ^ 18 * s.lanes l / 1028

/-- Units that a packet occupies (R416). -/
def pktUnits (p : Packet) : Nat := if p.kind == 0xB then 1 else ceilDiv (32 + 32 * p.lines.toNat) 256

/-! ### Flits (R407, R410 to R413) -/

/-- One bit of CRC-32C, reflected (R410). -/
def crcBit (c : Nat) : Nat := if c % 2 == 1 then (c / 2) ^^^ 0x82F63B78 else c / 2

/-- CRC-32C of bytes (R410). -/
def crc32c (b : List Byte) : Nat :=
  let byte (c : Nat) (x : Byte) : Nat := (List.range 8).foldl (fun c _ => crcBit c) (c ^^^ x.toNat)
  (b.foldl byte 0xFFFFFFFF) ^^^ 0xFFFFFFFF

/-- The header of a routed packet: W0 to W7 (R413). -/
def pktHeader (p : Packet) : List Byte :=
  toBytes 4 (p.kind.toNat + p.cls.toNat * 2 ^ 4 + p.level.toNat * 2 ^ 7 + b2n p.pool * 2 ^ 11 + p.dst.toNat * 2 ^ 16) ++
  toBytes 4 (p.src.toNat + p.dstCtx.toNat * 2 ^ 16) ++
  toBytes 4 (p.srcCtx.toNat + p.status.toNat * 2 ^ 12 + p.seq.toNat * 2 ^ 16) ++ toBytes 4 p.lines.toNat ++
  toBytes 4 p.w4.toNat ++ toBytes 4 p.w5.toNat ++ toBytes 4 p.w6.toNat ++ toBytes 4 p.w7.toNat

/-- The bytes of a routed packet: its header, and its data as whole lines. -/
def pktBytes (p : Packet) : List Byte :=
  pktHeader p ++ p.data ++ List.replicate (ceilDiv p.data.length 32 * 32 - p.data.length) 0

/-- A link packet of 8 bytes: ACK, NAK, CREDIT (R411). -/
def linkPkt (word0 word1 : Nat) : List Byte := toBytes 4 word0 ++ toBytes 4 word1

/-- A flit as it crosses the line: the body, and the CRC over it (R410). -/
def flitBytes (body : List Byte) : List Byte := body ++ toBytes 4 (crc32c body)

/-- The CRC of a flit is right (R412). -/
def flitWhole (b : List Byte) : Bool := crc32c (b.take 1024) == fieldAt b 1024 4

/-- Flits that packets fill, laid back to back from the beginning of one (R410); the rest of the last is NULL packets, which are 0. The
packets are given as bytes, each with the routed packet that it is, if one. -/
def layFlits (num : Nat) (l : List (List Byte × Option Packet)) : List Flit :=
  let bytes := l.flatMap fun x => x.1
  let ends := (l.foldl (fun (a : Nat × List (Nat × Packet)) x =>
    let e := a.1 + x.1.length
    (e, a.2 ++ (x.2.map fun p => (e, p)).toList)) (0, [])).2
  (List.range (ceilDiv bytes.length 1024)).map fun i =>
    let b := (bytes.drop (1024 * i)).take 1024
    { num := (num + i) % 2 ^ 32, body := b ++ List.replicate (1024 - b.length) 0
      ends := (ends.filter fun e => (e.1 - 1) / 1024 == i).map fun e => e.2 }

/-- Shared units of a link's input buffer that packets not yet sent on do not hold (R416, R446). -/
def State.bufferFree (s : State) (l : Nat) : Nat :=
  s.linkShared l - s.canopy.links.foldl (fun n x => x.2.waiting.foldl (fun n w => match w.src with
    | some (k, _, pool) => if k == l && !pool then n + pktUnits w.pkt else n
    | none => n) n) 0

/-- A link's replay buffer becomes other flits; `full` keeps the time since which it has been full (R412). -/
def State.withReplay (s : State) (l : Nat) (x : Link) (fl : List Flit) : Link :=
  { x with replay := fl, full := if s.replayRoom l ≤ fl.length then some (x.full.getD s.power.time) else none }

/-- Reserved units of a class at a level (R416): TIME one at level 0, CTRL one, the rest 17. -/
def reserveOf (cls level : Nat) : Nat :=
  if cls == 0 then (if level == 0 then 1 else 0) else if cls == 1 then 1 else 17

/-- The shared units that a class may hold, by CNPY_VC_CAP (R448): nibbles CTRL, REQ, RSP, COLL, BULK; TIME has none. -/
def State.clsCap (s : State) (shared cls : Nat) : Nat :=
  let v := s.reg (Pg.cnpy 9 * 4096 + 0x03C)
  let nib := if cls == 1 then some 0 else if cls == 3 then some 1 else if cls == 2 then some 2 else if cls == 4 then some 3
    else if cls == 5 then some 4 else none
  match nib with
  | some i => shared * (bits v (4 * i) 4 + 1) / 16
  | none => shared

/-- The pool that a packet may debit now: shared, reserved, or none (R416). -/
def State.poolFor (s : State) (x : Link) (p : Packet) : Option Bool :=
  let c := p.cls.toNat
  let n := pktUnits p
  if x.sharedUsed + n ≤ x.sharedUnits && AMap.getD c 0 x.clsUsed < s.clsCap x.sharedUnits c then some false
  else if AMap.getD (16 * c + p.level.toNat) 0 x.resUsed + n ≤ reserveOf c p.level.toNat then some true
  else none

/-- Debit the pool (R416). -/
def Link.debit (x : Link) (p : Packet) (reserved : Bool) : Link :=
  let c := p.cls.toNat
  if reserved then
    let k := 16 * c + p.level.toNat
    { x with resUsed := AMap.put k (AMap.getD k 0 x.resUsed + pktUnits p) x.resUsed }
  else
    { x with sharedUsed := x.sharedUsed + pktUnits p, clsUsed := AMap.put c (AMap.getD c 0 x.clsUsed + pktUnits p) x.clsUsed }

/-- Flits go out on the lanes of their link in rotation and are counted (R407, R446). -/
def State.putFlits (s : State) (l : Nat) (fl : List Flit) : State :=
  let x := s.link l
  let n := s.lanes l
  let s := s.setLink l { x with lane := (x.lane + fl.length) % n }
  let s := s.incF2 (Pg.cnpy (l / 4)) ⟨0x030, 0, 32⟩ ⟨0x034, 0, 32⟩ fl.length
  { s with out := s.out ++ fl.mapIdx fun i f => Output.flit l ((x.lane + i) % n) f.num (flitBytes f.body) }

/-- Put packets on the wire back to back: their flits take the next numbers and enter the replay buffer (R410, R412). -/
def State.transmit (s : State) (l : Nat) (items : List (List Byte × Option Packet)) : State :=
  let x := s.link l
  let fl := layFlits x.txNum items
  (s.setLink l { s.withReplay l x (x.replay ++ fl) with txNum := (x.txNum + fl.length) % 2 ^ 32 }).putFlits l fl

/-- Bytes laid back to back fit the replay buffer beside what it holds (R412). -/
def State.replayFits (s : State) (l : Nat) (x : Link) (items : List (List Byte × Option Packet)) : Bool :=
  x.replay.length + ceilDiv (items.flatMap fun i => i.1).length 1024 ≤ s.replayRoom l

/-- Priority level, weight and urgency in ns of a class on an output link (R430, R448). -/
def State.clsArb (s : State) (cls : Nat) : Nat × Nat × Nat :=
  let u0 := s.reg (Pg.cnpy 9 * 4096 + 0x034)
  let u1 := s.reg (Pg.cnpy 9 * 4096 + 0x038)
  let us (v : Nat) : Nat := 1000 * max 1 v
  let w (f : Fld) : Nat := max 1 (s.f (Pg.cnpy 9) f)
  match cls with
  | 0 => (3, 1, us (bits u0 0 8))
  | 1 => (2, 1, us (bits u0 8 8))
  | 2 => (1, w F.CNPY9_W_RSP, us (bits u0 16 8))
  | 3 => (1, w F.CNPY9_W_REQ, us (bits u0 24 8))
  | 4 => (1, w F.CNPY9_W_COLL, us (bits u1 0 8))
  | _ => (0, 1, us (bits u1 8 8))

/-- The procedure of R429 over ready classes given as (class, level, weight, age, urgency): the class granted and the credits
after it. -/
def arbitrate (ready : List (Nat × Nat × Nat × Nat × Nat)) (credit : AMap Int) : Option (Nat × AMap Int) :=
  match ready.filter fun x => x.2.2.2.2 ≤ x.2.2.2.1 with
  | u :: us =>
    let b := us.foldl (fun (b : Nat × Nat × Nat × Nat × Nat) x => if b.2.2.2.1 < x.2.2.2.1 then x else b) u
    some (b.1, credit)
  | [] =>
    let top := ready.foldl (fun n x => max n x.2.1) 0
    weightedDraw ((ready.filter fun x => x.2.1 == top).map fun x => (x.1, x.2.2.1)) credit

/-- A packet of a class that may be sent now: the oldest that finds units (R416, R430). -/
def State.sendable (s : State) (x : Link) (c : Nat) : Option (Waiting × Bool) :=
  x.waiting.findSome? fun w => if w.pkt.cls.toNat == c then (s.poolFor x w.pkt).map fun r => (w, r) else none

/-- Link packets as what is laid into flits. -/
def Link.ctlItems (x : Link) : List (List Byte × Option Packet) := x.ctl.map fun b => (b, none)

/-- The waiting packets of an UP link that go out now, in the order of R430, while credit and replay room last: they leave the queue, and
their units are debited. -/
def State.pickPackets (s : State) (l : Nat) : Nat → Link → List (Waiting × Bool) → Link × List (Waiting × Bool)
  | 0, x, done => (x, done)
  | fuel + 1, x, done =>
    let bytes (l : List (Waiting × Bool)) : List (List Byte × Option Packet) := l.map fun w => (pktBytes w.1.pkt, none)
    let ready := (List.range 6).filterMap fun c =>
      match s.sendable x c, x.waiting.find? fun w => w.pkt.cls.toNat == c with
      | some v, some w =>
        let a := s.clsArb c
        if s.replayFits l x (x.ctlItems ++ bytes (done ++ [v])) then
          some (c, a.1, a.2.1, s.power.time - max w.since (AMap.getD c 0 x.lastGrant), a.2.2)
        else none
      | _, _ => none
    match arbitrate ready x.credit with
    | none => (x, done)
    | some (c, cr) =>
      match s.sendable x c with
      | none => (x, done)
      | some (w, r) =>
        let y : Link := { x with waiting := x.waiting.erase w, lastGrant := AMap.put c s.power.time x.lastGrant, credit := cr }
        s.pickPackets l fuel (y.debit w.pkt r) (done ++ [(w, r)])

/-- Send what waits for an UP link, as far as it may go: link packets first, then routed packets, which are answered with what has gone.
A full replay buffer lets nothing through (R412). -/
def State.sendWaiting (s : State) (l : Nat) : State × List Waiting :=
  let x := s.link l
  if x.st != 5 || !s.replayFits l x x.ctlItems then (s, [])
  else
    let r := s.pickPackets l x.waiting.length x []
    let items := x.ctlItems ++ r.2.map fun w => (pktBytes { w.1.pkt with pool := w.2 }, some { w.1.pkt with pool := w.2 })
    if items.isEmpty then (s, []) else ((s.setLink l { r.1 with ctl := [] }).transmit l items, r.2.map fun w => w.1)

/-- A link packet joins those of its link, which go out while the link is up and its replay buffer has room (R411, R412). -/
def State.sendLink (s : State) (l : Nat) (b : List Byte) : State :=
  let s := s.modLink l fun x => { x with ctl := x.ctl ++ [b] }
  let x := s.link l
  if x.st == 5 && s.replayFits l x x.ctlItems then (s.setLink l { x with ctl := [] }).transmit l x.ctlItems else s

/-- A packet that came with a level and a pool leaves the input buffer of a link that is up or retrains: its units go back by CREDIT
(R411, R416). -/
def State.giveCredit (s : State) (l : Nat) (p : Packet) (level : BitVec 4) (pool : Bool) : State :=
  if (s.link l).st == 5 || (s.link l).st == 6 then
    s.sendLink l (linkPkt (0xE + p.cls.toNat * 2 ^ 4 + level.toNat * 2 ^ 7 + b2n pool * 2 ^ 11 + pktUnits p * 2 ^ 12) 0)
  else s

/-- A packet leaves the buffer that it waited in. -/
def State.leaves (s : State) (w : Waiting) : State :=
  match w.src with
  | some (l, level, pool) => s.giveCredit l w.pkt level pool
  | none => s

/-- Send what waits for a link; what came from other links leaves their buffers. -/
def State.drain (s : State) (l : Nat) : State :=
  let r := s.sendWaiting l
  r.2.foldl (fun s w => s.leaves w) r.1

/-- A packet joins the packets that wait for a link (R430). -/
def State.sendFrom (s : State) (l : Nat) (w : Waiting) : State :=
  (s.modLink l fun x => { x with waiting := x.waiting ++ [w] }).drain l

/-- Send a packet of this device on a link. -/
def State.sendOn (s : State) (l : Nat) (p : Packet) : State := s.sendFrom l { pkt := p, since := s.power.time }

/-! ### Routes (R418, R420, R422) -/

/-- The device's own address while it is in force. -/
def State.ownAddr (s : State) : Option Nat :=
  if s.f (Pg.cnpy 9) F.CNPY9_VALID == 1 then some (s.f (Pg.cnpy 9) F.CNPY9_ADDR) else none

/-- The table entry for a destination (R422). -/
def State.routeEntry (s : State) (dst : Nat) : Nat :=
  if dst / 256 != s.f (Pg.cnpy 9) F.CNPY9_ADDR / 256 then AMap.getD (dst / 256) 0 s.canopy.groupTbl
  else AMap.getD (dst % 256) 0 s.canopy.memberTbl

/-- Free shared units of a link for a class, as its receiver shows them. -/
def State.freeFor (s : State) (l cls : Nat) : Nat :=
  let x := s.link l
  min (x.sharedUnits - x.sharedUsed) (s.clsCap x.sharedUnits cls - AMap.getD cls 0 x.clsUsed)

/-- The link that a packet to `dst` takes: among the UP links of the entry the one with the most free shared units for the
class, the lowest number on a tie (R422). -/
def State.routeLink (s : State) (dst cls : Nat) : Option Nat :=
  let e := s.routeEntry dst
  if !bit e 41 then none
  else match (s.upLinks.filter fun l => bit e l) with
    | [] => none
    | l0 :: ls => some (ls.foldl (fun b l => if s.freeFor b cls < s.freeFor l cls then l else b) l0)

/-- Send a packet that this device originates; none where it has no route (R422, R427). -/
def State.originate (s : State) (p : Packet) : Option State :=
  match s.ownAddr with
  | none => none
  | some a =>
    let p := { p with src := BitVec.ofNat 16 a, level := 0 }
    if p.dst.toNat == a then some { s with canopy := { s.canopy with loop := s.canopy.loop ++ [p] } }
    else match s.routeLink p.dst.toNat p.cls.toNat with
      | some l => some (s.sendOn l p)
      | none => none

/-! ### Connection contexts (R425, R427) -/

def State.ctx (s : State) (c : Nat) : Nat := AMap.getD c 0 s.canopy.ctx
def State.setCtx (s : State) (c e : Nat) : State :=
  { s with canopy := { s.canopy with ctx := AMap.put c e s.canopy.ctx } }

/-- The partition a context is bound to; a DOWN context is bound to none (R75, R425). -/
def State.ctxPart (s : State) (c : Nat) : Option Nat :=
  let e := s.ctx c
  if bit e 0 && !bit e 4 then some (bits e 1 3) else none

/-- The contexts that a fill's descriptor names as its sources (R496). -/
def Fill.sources (x : Fill) : List Nat :=
  (List.range (fieldAt x.desc 8 2)).map fun j => bits (fieldAt x.desc (0x40 + 8 * j) 8) 16 12

/-- A fill meets the loss of a context (R497): that of a source halts it before COPY ends and means nothing to it later; that of another
context is counted. -/
def State.fillLoses (s : State) (p c : Nat) : State :=
  let st := s.f (Pg.part p) F.MEMP_STATE
  match AMap.get? p s.fills with
  | none => s
  | some x =>
    if st == 0 || 5 ≤ st then s
    else if x.sources.contains c then (if st ≤ 2 then { s with fills := AMap.put p { x with lost := some 0x05 } s.fills } else s)
    else s.satF (Pg.part p) F.MEMP_OTHER_LOST

/-- A context goes DOWN: its entry, the event and the history (R427, R516). The requests outstanding on it fail when the
command REQ_TIMEOUT takes them up (log entry 12). -/
def State.ctxDown (s : State) (c : Nat) : State :=
  let e := s.ctx c
  if bit e 4 then s
  else ((((s.setCtx c (e ||| 16)).fillLoses (bits e 1 3) c).event (Pg.cnpy 9) Ev.CNPY9_CTX_DOWN).history 0x06 [c, bits e 16 16])

/-- The packet of a request. A read asks for whole lines; a write of part of a line carries its bytes and the offset of the
first (log entry 30). -/
def State.reqPacket (s : State) (r : RemoteReq) : Packet :=
  let e := s.ctx r.ctx
  let off := if r.write then r.off else r.off / 32 * 32
  { kind := if r.write then 0x2 else 0x1
    cls := BitVec.ofNat 3 r.cls
    dst := BitVec.ofNat 16 (bits e 16 16)
    src := 0
    dstCtx := BitVec.ofNat 12 (bits e 32 12)
    srcCtx := BitVec.ofNat 12 r.ctx
    seq := BitVec.ofNat 16 r.seq
    lines := BitVec.ofNat 8 (ceilDiv (r.off % 32 + r.n) 32)
    w4 := BitVec.ofNat 32 (off % 2 ^ 32)
    w5 := BitVec.ofNat 32 (off / 2 ^ 32)
    w6 := BitVec.ofNat 32 r.plan
    data := r.data }

/-- Send a request if its context has fewer than 256 outstanding; otherwise it waits (R427). -/
def State.request (s : State) (r : RemoteReq) : State :=
  let e := s.ctx r.ctx
  if 256 ≤ bits e 48 9 then
    { s with canopy := { s.canopy with reqs := s.canopy.reqs ++ [{ r with sent := false }] } }
  else
    let r := { r with seq := bits e 64 16, sent := true, since := s.power.time }
    let e := putBits (putBits e 48 9 (bits e 48 9 + 1)) 64 16 (r.seq + 1)
    let s := { (s.setCtx r.ctx e) with canopy := { (s.setCtx r.ctx e).canopy with reqs := s.canopy.reqs ++ [r] } }
    match s.originate (s.reqPacket r) with
    | some s => s
    | none => s.ctxDown r.ctx

/-- A write to a peer by a part of the device or by a thread (R427). -/
def State.remoteWrite (s : State) (p c off : Nat) (b : List Byte) (who : RemoteWho) (plan cls : Nat) : State :=
  s.request { ctx := c, seq := 0, write := true, off := off, n := b.length, data := b, part := p, who := who, sent := false
              plan := plan, cls := cls }

/-- A read from a peer. -/
def State.remoteRead (s : State) (p c off n : Nat) (who : RemoteWho) : State :=
  s.request { ctx := c, seq := 0, write := false, off := off, n := n, data := [], part := p, who := who, sent := false }

/-- The context and the partition that a packet is for, if R426 accepts it. -/
def State.accepts (s : State) (p : Packet) : Option (Nat × Nat) :=
  let c := p.dstCtx.toNat
  let e := s.ctx c
  if c != 0 && bit e 0 && !bit e 4 && bits e 16 16 == p.src.toNat && bits e 32 12 == p.srcCtx.toNat && s.active (bits e 1 3)
  then some (c, bits e 1 3) else none

/-- The 40-bit offset of a request. -/
def pktOff (p : Packet) : Nat := (p.w4.toNat + 2 ^ 32 * p.w5.toNat) % 2 ^ 40

end Sys2Proof.Machine
end

