-- ==== Sys2Proof/Machine/Xts.lean ====
section
/-! DEFINITION. XTS-AES-256 of one 32-byte line (R86): AES-256 of FIPS 197, which IEEE 1619 names, and the XTS mode on two blocks.
Bytes are naturals below 256; a block is 16 of them in the order of memory. -/

namespace Sys2Proof.Machine

/-- The S-box, 32 bytes to a number, lowest first. -/
def aesSbox : List Nat :=
  [0xC072A49CAFA2D4ADF04759FA7DC982CA76ABD7FE2B670130C56F6BF27B777C63,
   0x75B227EBE28012079A059618C323C7041531D871F1E5A534CCF73F362693FDB7,
   0xCF584C4A39BECB6A5BB1FC20ED00D153842FE329B3D63B52A05A6E1B1A2C8309,
   0xD2F3FF1021DAB6BCF5389D928F40A351A89F3C507F02F94585334D43FBAAEFD0,
   0xDB0B5EDE14B8EE4688902A22DC4F816073195D643D7EA7C41744975FEC130CCD,
   0x08AE7A65EAF4566CA94ED58D6D37C8E779E4959162ACD3C25C2406490A3A32E0,
   0x9E1DC186B95735610EF6034866B53E708A8BBD4B1F74DDE8C6B4A61C2E2578BA,
   0x16BB54B00F2D99416842E6BF0D89A18CDF2855CEE9871E9B948ED9691198F8E1]

/-- The inverse S-box. -/
def aesInvSbox : List Nat :=
  [0xCBE9DEC444438E3487FF2F9B8239E37CFBD7F3819EA340BF38A53630D56A0952,
   0x25D18B6D49A25B76B224D92866A12E084EC3FA420B954CEE3D23C2A632947B54,
   0x849D8DA75746155EDAB9EDFD5048706C92B6655DCC5CA4D41698688664F6F872,
   0x6B8A130103BDAFC1020F3FCA8F1E2CD00645B3B80558E4F70AD3BC8C00ABD890,
   0x6EDF751CE837F9E28535ADE72274AC9673E6B4F0CECFF297EADC674F4111913A,
   0xF45ACD78FEC0DB9A2079D2C64B3E56FC1BBE18AA0E62B76F89C5291D711AF147,
   0xEF9CC9939F7AE52D0D4AB519A97F51605FEC8027591012B131C7078833A8DD1F,
   0x7D0C2155631469E126D677BA7E042B17619953833CBBEBC8B0F52AAE4D3BE0A0]

/-- A byte of one of the two boxes. -/
def aesSub (box : List Nat) (b : Nat) : Nat := box.getD (b / 32) 0 / 2 ^ (8 * (b % 32)) % 256

/-- Twice a byte in GF(2^8). -/
def aesTwice (b : Nat) : Nat := if 128 ≤ b then 2 * b ^^^ 0x11B else 2 * b

/-- A byte times n, below 16, in GF(2^8). -/
def aesTimes (n b : Nat) : Nat :=
  let b2 := aesTwice b
  let b4 := aesTwice b2
  (n % 2 * b) ^^^ (n / 2 % 2 * b2) ^^^ (n / 4 % 2 * b4) ^^^ (n / 8 % 2 * aesTwice b4)

/-- Byte by byte. -/
def aesXor (a b : List Nat) : List Nat := List.zipWith (fun x y => x ^^^ y) a b

/-- Word i of the key schedule from the words before it. -/
def aesNextWord (w : List (List Nat)) (i : Nat) : List Nat :=
  let t := w.getD (i - 1) []
  let t :=
    if i % 8 == 0 then aesXor ((t.drop 1 ++ t.take 1).map (aesSub aesSbox)) [2 ^ (i / 8 - 1), 0, 0, 0]
    else if i % 8 == 4 then t.map (aesSub aesSbox)
    else t
  aesXor (w.getD (i - 8) []) t

/-- The round keys 0 to 14 of a 32-byte key. -/
def aesKeys (key : List Nat) : List (List Nat) :=
  let w := (rangeFrom 8 52).foldl (fun w i => w ++ [aesNextWord w i]) ((List.range 8).map fun i => (key.drop (4 * i)).take 4)
  (List.range 15).map fun r => ((w.drop (4 * r)).take 4).flatten

/-- Rotate row r of a block by r columns, to the left, or to the right for the inverse. -/
def aesShift (inverse : Bool) (s : List Nat) : List Nat :=
  (List.range 16).map fun i => s.getD (i % 4 + 4 * ((i / 4 + (if inverse then 4 - i % 4 else i % 4)) % 4)) 0

/-- Multiply each column by the circulant of the coefficients. -/
def aesMix (coef s : List Nat) : List Nat :=
  (List.range 16).map fun i =>
    (List.range 4).foldl (fun v j => v ^^^ aesTimes (coef.getD ((j + 4 - i % 4) % 4) 0) (s.getD (i / 4 * 4 + j) 0)) 0

/-- Encrypt a block under round keys. -/
def aesEncrypt (keys : List (List Nat)) (b : List Nat) : List Nat :=
  let s := (rangeFrom 1 13).foldl (fun s r =>
    aesXor (aesMix [2, 3, 1, 1] (aesShift false (s.map (aesSub aesSbox)))) (keys.getD r [])) (aesXor b (keys.getD 0 []))
  aesXor (aesShift false (s.map (aesSub aesSbox))) (keys.getD 14 [])

/-- Decrypt a block under round keys. -/
def aesDecrypt (keys : List (List Nat)) (b : List Nat) : List Nat :=
  let back (s : List Nat) (r : Nat) : List Nat := aesXor ((aesShift true s).map (aesSub aesInvSbox)) (keys.getD r [])
  let s := (List.range 13).foldl (fun s i => aesMix [14, 11, 13, 9] (back s (13 - i))) (aesXor b (keys.getD 14 []))
  back s 0

/-- The tweak of the next block: times x in GF(2^128), little-endian. -/
def xtsNext (t : List Nat) : List Nat :=
  let v := ofBytes (t.map (BitVec.ofNat 8))
  (toBytes 16 (if 2 ^ 127 ≤ v then 2 * v ^^^ 0x87 else 2 * v)).map BitVec.toNat

/-- Encrypt or decrypt a line of two blocks under key1 followed by key2, for a data unit number (R86). -/
def xtsLine (decrypt : Bool) (key : List Byte) (unit : Nat) (b : List Byte) : List Byte :=
  let k := key.map BitVec.toNat
  let keys := aesKeys (k.take 32)
  let t := aesEncrypt (aesKeys (k.drop 32)) ((toBytes 16 unit).map BitVec.toNat)
  let one (t : List Nat) (p : List Byte) : List Nat :=
    aesXor ((if decrypt then aesDecrypt else aesEncrypt) keys (aesXor (p.map BitVec.toNat) t)) t
  (one t (b.take 16) ++ one (xtsNext t) (b.drop 16)).map (BitVec.ofNat 8)

end Sys2Proof.Machine
end

