-- ==== Sys2Proof/Machine/Access.lean ====
section
/-! DEFINITION. Accesses through thread addresses: translation, faults, units of storage in error, the cipher of bulk, reads and
writes (R74 to R76, R86 to R90), for every part of the module. -/

namespace Sys2Proof.Machine

/-! ### Access through a thread address (R74, R75) -/

/-- Cause code (R92). -/
def AccFault.cause : AccFault → Nat
  | .region => 0x08
  | .translation => 0x09
  | .permission _ _ => 0x0A
  | .host _ => 0x06
  | .damaged (.galley _ _) _ => 0x01
  | .damaged (.phys a _) _ => if a < 0x300000000 then 0x02 else 0x03
  | .damaged _ _ => 0x05

/-- Forme or program status (R152); a failed host read and an error in storage stop the partition, and the status is seen by nobody. -/
def AccFault.status : AccFault → Nat
  | .region => 0x09
  | .translation => 0x0A
  | .permission _ _ => 0x0B
  | .host _ => 0x0B
  | .damaged _ _ => 0x0B

/-- The tier of a place (R93). -/
def Loc.tier : Loc → Tier
  | .galley _ _ => .galley
  | .phys a _ => if a < 0x300000000 then .stack else .bulk
  | .host _ _ => .host
  | .remote _ _ => .remote

/-- The page map entry of an index (R76, R77). -/
def State.entry (s : State) (p idx : Nat) : Nat := AMap.getD idx 0 (s.part p).pmap

/-- Base and size of the area of a partition in the stack system region of its die (R567). -/
def State.areaOf (s : State) (p : Nat) : Nat × Nat :=
  if s.k == 1 then (0x170000000, 0x0C000000)
  else ((if p < s.k / 2 then 0x170000000 else 0x2F0000000) + p % (s.k / 2) * (384 * 2 ^ 20 / s.k), 384 * 2 ^ 20 / s.k)

/-- Device physical address of a page-map entry (R76, R567; log entry 211). -/
def State.pmapWord (s : State) (p idx : Nat) : Nat :=
  (s.areaOf p).1 + Config.pmapAt s.k p % ((s.areaOf p).2 / 2 ^ 22) * 2 ^ 22 + 8 * idx

/-- The entry of an index is read from the stack, by a core whose translation cache lacks it or by another part, and its word is in
error (R76, R90). -/
def State.entryDamage (s : State) (p : Nat) (core : Option Nat) (idx : Nat) : Option AccFault :=
  if s.faulty.isEmpty || core.any (fun c => (AMap.getD c {} s.cores).tlb.contains idx) then none
  else (s.faultyIn (s.pmapWord p idx) 8).head?.map fun u => .damaged (.phys u.1 idx) u.2

/-- Translate a thread address of partition p; `core` is the core whose galley GALLEY_LOCAL names (R74, R75). A part that is no core has
no galley of its own, and its access to GALLEY_LOCAL is REGION (log entry 179). -/
def State.translate (s : State) (p : Nat) (core : Option Nat) (addr : Nat) (write : Bool) : Except AccFault Loc :=
  match bits addr 60 4 with
  | 0 =>
    if bits addr 40 20 != 0 then .error .region
    else
      let idx := bits addr 21 19
      let e := s.entry p idx
      let a := bits e 21 43 * 2 ^ 21 + bits addr 0 21
      if let some f := s.entryDamage p core idx then .error f
      else if !bit e 0 then .error .translation
      else if write && !bit e 3 then .error (.permission (1 + bits e 1 2) a)
      else if bits e 1 2 == 2 then .ok (.host a idx)
      else .ok (.phys a idx)
  | 1 =>
    if bits addr 20 40 != 0 then .error .region
    else match core with
      | some c => .ok (.galley c (bits addr 0 20))
      | none => .error .region
  | 2 =>
    if bits addr 28 32 != 0 || s.coresPer ≤ bits addr 20 8 then .error .region
    else .ok (.galley (s.coresPer * p + bits addr 20 8) (bits addr 0 20))
  | 3 =>
    if bits addr 52 8 != 0 || s.ctxPart (bits addr 40 12) != some p then .error .region
    else .ok (.remote (bits addr 40 12) (bits addr 0 40))
  | _ => .error .region

/-- Resolve an access: its translation, and for a read of host memory whether it can be issued (R455). -/
def State.resolve (s : State) (p : Nat) (core : Option Nat) (addr : Nat) (write : Bool) : Except AccFault Loc :=
  match s.translate p core addr write with
  | .ok (.host a i) => if !write && !s.fnReady (p + 1) then .error (.host a) else .ok (.host a i)
  | r => r

/-- The error of a unit of storage is found: UE of its MEM page, and the record with its cause (R90, R93, R95, R96, R568). -/
def State.damageRecord (s : State) (p addr symbols : Nat) (l : Loc) : State :=
  let r : ErrRec := { cause := (AccFault.damaged l symbols).cause, symbols := symbols, addr := addr }
  match l with
  | .galley c _ => s.errRecord p { r with tier := 0, unit := c }
  | .phys a _ =>
    let pg := Pg.mem (memInst a)
    ((s.satF pg F.MEMD_UE).event pg Ev.MEMD_UE).errRecord p
      { r with tier := if a < 0x300000000 then 1 else 2, unit := memInst a, phys := a / 32 * 32 }
  | _ => s

/-- The record of a fault of an access that a part of partition p made (R75, R90); of an access through a connection context, UNIT is
the context (R568). A failed host read and an error in storage stop the partition, before anything else happens in it (R90); a second
one in the same command is none. -/
def State.faultRecord (s : State) (p unit addr : Nat) (f : AccFault) : State :=
  let unit := if bits addr 60 4 == 3 then bits addr 40 12 else unit
  match f with
  | .host bus =>
    if s.hostStops.contains p then s
    else { s with hostStops := s.hostStops ++ [p] }.errRecord p
      { cause := f.cause, tier := 3, unit := unit, addr := addr, phys := bus }
  | .damaged l n =>
    if s.hostStops.contains p then s else { s with hostStops := s.hostStops ++ [p] }.damageRecord p addr n l
  | .permission t ph => s.errRecord p { cause := f.cause, tier := t, unit := unit, addr := addr, phys := ph }
  | _ => s.errRecord p { cause := f.cause, tier := 7, unit := unit, addr := addr }

/-! ### Reading and writing through thread addresses -/

/-- Split an access at line boundaries: addresses and lengths (a line is 32 bytes). -/
def lineSplit : Nat → Nat → Nat → List (Nat × Nat)
  | 0, _, _ => []
  | _, _, 0 => []
  | fuel + 1, a, n =>
    let m := min n (32 - a % 32)
    (a, m) :: lineSplit fuel (a + m) (n - m)

/-- The pieces of an access of n bytes. -/
def pieces (a n : Nat) : List (Nat × Nat) := lineSplit (n / 32 + 2) a n

/-- The key pair under which a host page of partition p is encrypted, key1 first (R85, R86); none with HOST_ENC 0. -/
def State.hostKeys (s : State) (p idx : Nat) : Option (List Byte) :=
  if bit (s.entry p idx) 6 then some (toBytes 64 (Config.draw ((s.part p).keyGen - 1))) else none

/-- The line of host memory that holds a bus address, as the partition reads it through a page-map index (R86). -/
def State.hostLine (s : State) (p a idx : Nat) : List Byte :=
  let b := s.bytes (hostKey (a / 32 * 32)) 32
  match s.hostKeys p idx with
  | some k => xtsLine true k (a / 32) b
  | none => b

/-- The key pair under which a line of bulk is encrypted: that of the partition whose share holds it (R85, R86); none where no
partition with a key does. -/
def State.bulkKey (s : State) (a : Nat) : Option (List Byte) :=
  match s.bulkOwner a with
  | some p => if (s.part p).keyGen == 0 then none else some (toBytes 64 (Config.draw ((s.part p).keyGen - 1)))
  | none => none

/-- The key of a line that is stored encrypted: one of bulk (R86); the stacks hold plaintext (R87). -/
def State.physKey (s : State) (a : Nat) : Option (List Byte) := if a < 0x300000000 then none else s.bulkKey a

/-- The plaintext of the line of stack or bulk at its device physical address (R86). -/
def State.physLine (s : State) (a : Nat) : List Byte :=
  match s.physKey a with
  | some k => xtsLine true k (a / 32) (s.bytes a 32)
  | none => s.bytes a 32

/-- Bytes of stack or bulk from a device physical address on, as their partition reads them. -/
def State.phys (s : State) (a n : Nat) : List Byte :=
  if a < 0x300000000 then s.bytes a n
  else (pieces a n).flatMap fun x => ((s.physLine (x.1 / 32 * 32)).drop (x.1 % 32)).take x.2

/-- Write stack or bulk from a device physical address on: a line of bulk is encrypted, and one that is written in part is read, merged
and written whole (R86, R87). -/
def State.pokePhys (s : State) (a : Nat) (b : List Byte) : State :=
  if a < 0x300000000 then s.poke a b
  else (pieces a b.length).foldl (fun (s : State) x =>
    let l := x.1 / 32 * 32
    match s.physKey l with
    | some k =>
      let old := s.physLine l
      s.poke l (xtsLine false k (l / 32) (old.take (x.1 % 32) ++ (b.drop (x.1 - a)).take x.2 ++ old.drop (x.1 % 32 + x.2)))
    | none => s.poke x.1 ((b.drop (x.1 - a)).take x.2)) s

/-- The bytes within a line at a place of partition p; a remote place reads as free bytes until its packet answers (log entry 10). -/
def State.locBytes (s : State) (p : Nat) (l : Loc) (n : Nat) : List Byte :=
  match l with
  | .remote c o => (List.range n).map fun i => Config.remoteByte c (o + i)
  | .galley c o => s.bytes (galleyKey c o) n
  | .phys a _ => s.phys a n
  | .host a i => ((s.hostLine p a i).drop (a % 32)).take n

/-- The memory key of a place in the module's own storage. -/
def Loc.key : Loc → Option Nat
  | .galley c o => some (galleyKey c o)
  | .phys a _ => some a
  | _ => none

/-- The place n bytes further on. -/
def Loc.plus (l : Loc) (n : Nat) : Loc :=
  match l with
  | .galley c o => .galley c (o + n)
  | .phys a i => .phys (a + n) i
  | .host a i => .host (a + n) i
  | .remote c o => .remote c (o + n)

/-- The bits or symbols in error that a read of n bytes at a place finds, if a unit that it touches is in error (R88, R90). -/
def State.damageAt (s : State) (l : Loc) (n : Nat) : Option Nat :=
  l.key.bind fun k => (s.faultyIn k n).head?.map fun u => u.2

/-- A write of n bytes at a place, of a request that goes on `before` bytes before it and `after` bytes behind it, meets the units in
error that it touches (R90): one that the request covers is cleared, and of one that it covers in part the error is found. -/
def State.overwrite (s : State) (l : Loc) (before n after : Nat) : Except Nat State :=
  match l.key with
  | none => .ok s
  | some k =>
    let hit := s.faultyIn k n
    match hit.find? fun u => !(k ≤ u.1 + before && u.1 + unitBytes u.1 ≤ k + n + after) with
    | some u => .error u.2
    | none => .ok { s with faulty := s.faulty.filter fun u => !hit.contains u }

/-- Read n bytes at a thread address; the first failing piece gives the fault with its address. -/
def State.load (s : State) (p : Nat) (core : Option Nat) (addr n : Nat) : Except (AccFault × Nat) (List Byte) :=
  (pieces addr n).foldl (fun r x =>
    match r with
    | .error e => .error e
    | .ok l => match s.resolve p core x.1 false with
      | .error e => .error (e, x.1)
      | .ok loc => match s.damageAt loc x.2 with
        | some e => .error (.damaged loc e, x.1)
        | none => .ok (l ++ s.locBytes p loc x.2)) (.ok [])

/-- Read a little-endian number of n bytes. -/
def State.loadNat (s : State) (p : Nat) (core : Option Nat) (addr n : Nat) : Except (AccFault × Nat) Nat :=
  match s.load p core addr n with
  | .ok b => .ok (ofBytes b)
  | .error e => .error e

/-- The memory keys that a write of n bytes within a line at a place of partition p goes to: the first and how many; none for a
remote place. A write of less than a line to encrypted memory writes the whole line (R87). -/
def State.span (s : State) (p : Nat) (l : Loc) (n : Nat) : Option (Nat × Nat) :=
  match l with
  | .galley c o => some (galleyKey c o, n)
  | .phys a _ => some (if (s.physKey a).isSome then (a / 32 * 32, 32) else (a, n))
  | .host a i => some (if (s.hostKeys p i).isSome then (hostKey (a / 32 * 32), 32) else (hostKey a, n))
  | .remote _ _ => none

/-- Mark the page of a write (DIRTY of R77). -/
def State.dirty (s : State) (p idx : Nat) : State :=
  s.modPart p fun x => { x with pmap := AMap.put idx (s.entry p idx ||| 32) x.pmap }

end Sys2Proof.Machine
end

