-- ==== Sys2Proof/Machine/Arena.lean ====
section
/-! DEFINITION. Writes through thread addresses: pages that hold their writes, activation arenas that place their pages
(R247 to R252), and the layer table (R262). -/

namespace Sys2Proof.Machine

def State.camb (s : State) (p : Nat) : Camb := AMap.getD p {} s.cambs
def State.setCamb (s : State) (p : Nat) (x : Camb) : State := { s with cambs := AMap.put p x s.cambs }
def State.modCamb (s : State) (p : Nat) (g : Camb → Camb) : State := s.setCamb p (g (s.camb p))

/-- Units of one partition, the number of its lead unit, and the lead's page (R270). -/
def State.unitsPer (s : State) : Nat := 16 / s.k
def State.lead (s : State) (p : Nat) : Nat := s.unitsPer * p
def State.leadPage (s : State) (p : Nat) : Nat := Pg.camb (s.lead p)

/-! ### Arena pages (R249) -/

/-- The managed arena that holds a page-map index. -/
def State.arenaAt (s : State) (p idx : Nat) : Option Arena :=
  (s.camb p).arenas.find? fun a => a.first ≤ idx && idx < a.first + a.pages

def Arena.pg (a : Arena) (x : Nat) : ArenaPage := AMap.getD x {} a.page
def Arena.setPg (a : Arena) (x : Nat) (g : ArenaPage) : Arena := { a with page := AMap.put x g a.page }

/-- `s` with arena number a of partition p changed. -/
def State.modArena (s : State) (p a : Nat) (g : Arena → Arena) : State :=
  s.modCamb p fun c => { c with arenas := c.arenas.map fun x => if x.num == a then g x else x }

/-- Address of 2 MiB frame f of a list of ranges (R247: frames count from the start of the share). -/
def frameAddr : List (Nat × Nat) → Nat → Nat
  | [], _ => 0
  | (b, n) :: t, f => if f < n / 2 ^ 21 then b + f * 2 ^ 21 else frameAddr t (f - n / 2 ^ 21)

/-- Address of a stack frame and of a spill frame of an arena. -/
def State.arenaStack (s : State) (p : Nat) (a : Arena) (f : Nat) : Nat := frameAddr (s.stackShare p) (a.stack0 + f)
def State.arenaBulk (s : State) (p : Nat) (a : Arena) (f : Nat) : Nat := frameAddr (s.bulkShare p) (a.bulk0 + f)

/-- Stack frames in use; a page that waits for a spill and the page that is spilled share a frame. -/
def Arena.inUse (a : Arena) : List Nat := (a.page.filterMap fun x =>
  match x.2.st with
  | .stack | .spilling | .placing => some x.2.frame
  | _ => none).eraseDups

/-- Stack frames that are not free: those in use, and those that stay unused until the arena reset (R252). -/
def Arena.usedStack (a : Arena) : List Nat := a.lostStack ++ a.inUse
/-- Spill frames that are not free. -/
def Arena.usedBulk (a : Arena) (spills : List Spill) : List Nat :=
  a.lostBulk ++ (a.page.filterMap fun x => if x.2.st == .bulk then some x.2.frame else none) ++
  (spills.filterMap fun x => if x.arena == a.num then some x.dst else none)

/-- MEM_PMAP_MAPPED counts the entries with VALID 1 (R97). -/
def State.showMapped (s : State) (p : Nat) : State :=
  s.setF (Pg.part p) F.MEMP_MAPPED ((s.part p).pmap.filter fun e => bit e.2 0).length

/-- Page-map entries are written, n from an index on: their words hold no error any more (R90). -/
def State.mapWritten (s : State) (p first n : Nat) : State :=
  { s with faulty := AMap.drop (s.pmapWord p first) (s.pmapWord p (first + n)) s.faulty }

/-- Set the page-map entry of an index, which no translation cache of the partition holds from then on (R77, R79). -/
def State.setEntry (s : State) (p idx e : Nat) : State :=
  let cores := s.cores.map fun (c : Nat × Core) =>
    if s.corePart c.1 == p && c.2.tlb.contains idx then (c.1, { c.2 with tlb := c.2.tlb.filter fun i => i != idx }) else c
  let s := { s.mapWritten p idx 1 with cores := cores }
  (s.modPart p fun x => { x with pmap := if e == 0 then AMap.del idx x.pmap else AMap.put idx e x.pmap }).showMapped p

/-- Entries from an index on are set to 0. -/
def State.dropEntries (s : State) (p first n : Nat) : State :=
  let cores := s.cores.map fun (c : Nat × Core) =>
    if s.corePart c.1 == p then (c.1, { c.2 with tlb := c.2.tlb.filter fun i => i < first || first + n ≤ i }) else c
  let s := { s.mapWritten p first n with cores := cores }
  (s.modPart p fun x => { x with pmap := AMap.drop first (first + n) x.pmap }).showMapped p

/-- An entry VALID 1, WRITABLE 1 of a tier (0 STACK, 1 BULK) at an address (R77, R249). -/
def mapEntry (tier addr : Nat) : Nat := addr / 2 ^ 21 * 2 ^ 21 + 9 + 2 * tier

/-- A page takes a stack frame: state STACK, with the layer of the write that touched it. -/
def State.placeStack (s : State) (p : Nat) (a : Arena) (x frame layer : Nat) : State :=
  let s := s.modArena p a.num fun a =>
    let g := a.pg x
    let a := a.setPg x { g with st := .stack, frame := frame, layer := layer, retouched := g.dropped }
    { a with peak := max a.peak a.inUse.length }
  s.setEntry p (a.first + x) (mapEntry 0 (s.arenaStack p a frame))

/-- The least element under a key of naturals, the first on a tie. -/
def leastBy {α : Type} (key : α → Nat) : List α → Option α
  | [] => none
  | x :: t => some (t.foldl (fun b y => if key y < key b then y else b) x)

/-! ### The layer table (R261 to R263) -/

/-- Entries in the layer table (CAMB_WATCH_CTRL). -/
def State.layers (s : State) (p : Nat) : Nat := min 4096 (s.f (s.leadPage p) F.CAMBL_LAYERS)

/-- Address of a layer's entry. -/
def State.layerAddr (s : State) (p l : Nat) : Nat :=
  s.f2 (s.leadPage p) F.CAMBL_WATCH_BASE_LO F.CAMBL_WATCH_BASE_HI / 4096 * 4096 + 32 * l

/-- The place of a layer's entry in STACK or BULK, and its page (R262): the table's first and last entry, which lie in at most two
pages, translate there for a write, and both units are without an error; or the fault that the table meets, with its address, if
it meets one. -/
def State.layerPlace (s : State) (p l : Nat) : Except (Option (AccFault × Nat)) (Nat × Nat) :=
  let at_ (l : Nat) : Except (Option (AccFault × Nat)) (Nat × Nat) :=
    let addr := s.layerAddr p l
    match s.resolve p none addr true with
    | .ok (.phys a i) => match s.damageAt (.phys a i) 32 with
      | some n => .error (some (.damaged (.phys a i) n, addr))
      | none => .ok (a, i)
    | .ok _ => .error none
    | .error f => .error (some (f, addr))
  match at_ 0, at_ (s.layers p - 1) with
  | .ok _, .ok _ => at_ l
  | .error f, _ => .error f
  | _, .error f => .error f

/-- The layer table cannot be used in this step (R262); a fault of the table is recorded, and an error in storage stops the partition
(R75, R90, R568). -/
def State.layerBad (s : State) (p : Nat) (f : Option (AccFault × Nat)) : State :=
  let s := s.modCamb p fun c => { c with watchBad := true }
  match f with
  | some (f, a) => s.faultRecord p (0x300 + s.lead p) a f
  | none => s

/-- A layer entry with a bit field changed. -/
def entryField (lo w : Nat) (g : Nat → Nat) (b : List Byte) : List Byte :=
  let v := ofBytes b
  toBytes 32 (putBits v lo w (g (bits v lo w)))

/-! ### Writes -/

/-- A write waits: its page has SNAP_WP (R77, R483), is being spilled, or waits for a spill (R251). -/
def State.writeHeld (s : State) (p idx : Nat) : Bool :=
  bit (s.entry p idx) 4 || match s.arenaAt p idx with
    | some a => (a.pg (idx - a.first)).st == .spilling || (a.pg (idx - a.first)).st == .placing
    | none => false

/-- Resolve a write (R75). A page that waits for a spilled page's frame resolves to that frame (R251). -/
def State.resolveWrite (s : State) (p : Nat) (core : Option Nat) (addr : Nat) : Except AccFault Loc :=
  let idx := bits addr 21 19
  if bits addr 60 4 != 0 || bits addr 40 20 != 0 then s.resolve p core addr true
  else match s.arenaAt p idx with
    | some a =>
      let g := a.pg (idx - a.first)
      if g.st == .placing then .ok (.phys (s.arenaStack p a g.frame + bits addr 0 21) idx) else s.resolve p core addr true
    | none => s.resolve p core addr true

/-- Write host memory at a bus address within a line, through a page-map index of partition p: as they are, or merged into the line
and encrypted (R86, R87). -/
def State.pokeHost (s : State) (p a idx : Nat) (b : List Byte) : State :=
  match s.hostKeys p idx with
  | some k =>
    let l := s.hostLine p a idx
    s.poke (hostKey (a / 32 * 32)) (xtsLine false k (a / 32) (l.take (a % 32) ++ b ++ l.drop (a % 32 + b.length)))
  | none => s.poke (hostKey a) b

/-- Perform a write at a place: into memory, or discarded while the partition's function may not issue requests (R455), or as
a packet to a peer. -/
def State.perform (s : State) (p : Nat) (l : Loc) (b : List Byte) (w : Writer) : State :=
  match l with
  | .galley c o => s.poke (galleyKey c o) b
  | .phys a i => (s.pokePhys a b).dirty p i
  | .host a i =>
    if s.fnReady (p + 1) then (s.pokeHost p a i b).dirty p i
    else (s.satF (Pg.host (p + 1) 0) F.HOST0_BLOCKED).event (Pg.host (p + 1) 0) Ev.HOST0_HOST_BLOCKED
  | .remote c o => s.remoteWrite p c o b (match w with | .thread c t => .store c t | .unit u => .unit u | .forme i => .forme i | .ended i u => .ended i u | .block u _ _ => .unit (0x300 + u) | .move _ => .unit (0x310 + s.dieOf p)) 0 3

/-- The page-map index and the offset in its page of a place that holds writes may stand in. -/
def Loc.page : Loc → Option (Nat × Nat)
  | .phys a i => some (i, a % 2 ^ 21)
  | .host a i => some (i, a % 2 ^ 21)
  | _ => none

/-- Bytes at offset `o` with those of a write at offset `h` put over them. -/
def overlaid (o : Nat) (b : List Byte) (h : Nat) (w : List Byte) : List Byte :=
  (List.range b.length).map fun k => if h ≤ o + k then w.getD (o + k - h) (b.getD k 0) else b.getD k 0

/-- What a place of partition p will hold when the writes that its page holds, or that are on their way to the peer, have been performed,
from the bytes there now. -/
def State.heldOver (s : State) (p : Nat) (l : Loc) (b : List Byte) : List Byte :=
  match l with
  | .remote c o => (s.canopy.reqs.filter fun q => q.write && q.ctx == c).foldl (fun b q => overlaid o b q.off q.data) b
  | _ => match l.page with
    | some (i, o) => (s.heldWrites.filter fun h => h.part == p && h.idx == i).foldl (fun b h => overlaid o b h.off h.bytes) b
    | none => b

/-- Write bytes at a place, of a request that goes on `before` bytes before them and `after` behind them, or hold the write (R483, R251).
A write that is performed clears a unit in error that the request covers, and finds the error of one that it covers in part, without
being made (R90). -/
def State.put (s : State) (p : Nat) (core : Option Nat) (l : Loc) (b : List Byte) (w : Writer) (before after : Nat) :
    State × Option Nat :=
  let now : State × Option Nat := match s.overwrite l before b.length after with
    | .error n => (s, some n)
    | .ok s => (s.perform p l b w, none)
  match l.page with
  | some (i, o) =>
    if s.writeHeld p i then
      ({ s with heldWrites := s.heldWrites ++
          [{ part := p, idx := i, off := o, bytes := b, who := w, core := core, before := before, after := after }] }, none)
    else now
  | none => now

/-- Change a layer's entry as one line, its reserved bits written 0 (R13, R238); a table that faults or does not translate to STACK or
BULK updates nothing in this step (R262). A page that is being copied holds the write (R77). With LAYERS 0 the watch is disabled and
counts nothing; a layer beyond the table counts in OUTSIDE (R263; log entry 181). -/
def State.modLayer (s : State) (p l : Nat) (g : List Byte → List Byte) : State :=
  if s.layers p == 0 then s
  else if s.layers p ≤ l then s.incF (s.leadPage p) F.CAMBL_OUTSIDE
  else if (s.camb p).watchBad then s
  else match s.layerPlace p l with
    | .ok (a, i) =>
      let old := s.heldOver p (.phys a i) (s.phys a 32)
      (s.put p none (.phys a i) (entryField 148 12 (fun _ => 0) (g old)) (.unit (0x300 + s.lead p)) 0 0).1
    | .error f => s.layerBad p f


/-! ### Placing a page (R249, R250, R251) -/

/-- What a write brings to an arena page: the forme that writes, if any. -/
def writerForme : Writer → Option Nat
  | .forme i => some i
  | _ => none

/-- Layer of a write, and whether it can be recomputed (R249, R250): a slot-0 forme with RECOMPUTE 1. -/
def State.writeLayer (s : State) (w : Writer) : Nat × Bool :=
  match writerForme w with
  | none => (0xFFFF, false)
  | some i =>
    let b := (AMap.getD i {} s.formes).bytes
    (bits (fieldAt b 20 4) 16 16, bit (fieldAt b 0 4) 18 && (AMap.getD i {} s.formes).slot == 0)

/-- Record a write to a STACK or BULK page of an arena (R250). -/
def State.touchArena (s : State) (p : Nat) (a : Arena) (x : Nat) (w : Writer) : State :=
  let wl := s.writeLayer w
  s.modArena p a.num fun a =>
    let g := a.pg x
    a.setPg x { g with
      kept := g.kept || !wl.2
      formes := match writerForme w with
        | some i => if g.formes.contains i then g.formes else i :: g.formes
        | none => g.formes }

/-- RELEASE_FROM of an arena as the table holds it now (R247); 0xFFFF where it cannot be read, which is recorded. -/
def State.releaseFrom (s : State) (p : Nat) (a : Arena) : State × Nat :=
  match s.loadNat p none (s.f2 (s.leadPage p) F.CAMBL_ARENA_BASE_LO F.CAMBL_ARENA_BASE_HI / 2048 * 2048 + 32 * a.num + 10) 2 with
  | .ok v => (s, v)
  | .error (f, at_) => (s.faultRecord p (0x300 + s.lead p) at_ f, 0xFFFF)

/-- place of R249 for an EMPTY or DROPPED page x; false where the write faults. Which cambium unit of the partition copies a spill is
open (log entry 205); outside TRAIN the units are Idle and take none (R8; log entry 209). -/
def State.place (s : State) (p : Nat) (a : Arena) (x : Nat) (w : Writer) : State × Bool :=
  let layer := (s.writeLayer w).1
  let used := a.usedStack
  match (List.range a.budget).find? fun f => !used.contains f with
  | some f => (s.placeStack p a x f layer, true)
  | none =>
    let r := s.releaseFrom p a
    let s := r.1
    let rel := r.2
    let stacked := a.page.filter fun y => y.2.st == .stack
    let dead := if rel == 0xFFFF then [] else stacked.filter fun y => rel ≤ y.2.layer
    match leastBy (fun (y : Nat × ArenaPage) => (0xFFFF - y.2.layer) * 2 ^ 20 + y.1) dead with
    | some v =>
      let s := (s.modArena p a.num fun a => a.setPg v.1 { kept := v.2.kept, dropped := v.2.dropped }).setEntry p (a.first + v.1) 0
      (s.placeStack p a x v.2.frame layer, true)
    | none =>
      let idle := stacked.filter fun y => y.2.formes.all fun i => (AMap.get? i s.formes).isNone
      match leastBy (fun (y : Nat × ArenaPage) => b2n y.2.retouched * 2 ^ 40 + y.2.layer * 2 ^ 20 + y.1) idle with
      | none => (s, false)
      | some v =>
        if !v.2.kept && !v.2.retouched && v.2.layer < s.layers p then
          let s := s.modArena p a.num fun a =>
            { a.setPg v.1 { v.2 with st := .dropped, dropped := true, formes := [] } with dropped := a.dropped + 1 }
          let s := (s.setEntry p (a.first + v.1) 0).incF (s.leadPage p) F.CAMBL_DROPS
          let s := s.modLayer p v.2.layer (entryField 192 64 fun m => m ||| 2 ^ a.num)
          (s.placeStack p a x v.2.frame layer, true)
        else
          let taken := a.usedBulk (s.camb p).spills
          match (if (s.part p).overlay == .train then (List.range a.bulkN).find? fun f => !taken.contains f else none) with
          | none => (s, false)
          | some b =>
            let s := s.modArena p a.num fun a =>
              (a.setPg v.1 { v.2 with st := .spilling }).setPg x
                { a.pg x with st := .placing, frame := v.2.frame, layer := layer, retouched := (a.pg x).dropped }
            let u := Config.open s.opens % s.unitsPer
            let s := { s with opens := s.opens + 1 }
            (s.modCamb p fun c => { c with spills := c.spills ++ [{ arena := a.num, page := v.1, dst := b, waits := x, unit := u, since := s.power.time }] },
             true)

/-- Before a write through a page-map index: place an EMPTY or DROPPED page of a managed arena, and record the touch. A write
that cannot be placed sets ARENA_FULL and then faults by R75. -/
def State.arenaWrite (s : State) (p addr : Nat) (w : Writer) : State :=
  let idx := bits addr 21 19
  if bits addr 60 4 != 0 || bits addr 40 20 != 0 then s
  else match s.arenaAt p idx with
    | none => s
    | some a =>
      let x := idx - a.first
      match (a.pg x).st with
      | .empty | .dropped =>
        match s.place p a x w with
        | (s, true) => s.touchArena p a x w
        | (s, false) => (s.incF (s.leadPage p) F.CAMBL_FULLS).event (s.leadPage p) Ev.CAMB_ARENA_FULL
      | _ => s.touchArena p a x w

/-- UNIT of a writer (R568). -/
def State.writerUnit (s : State) (p : Nat) (w : Writer) (core : Option Nat) : Nat :=
  match w with
  | .thread c _ => c
  | .forme _ => core.getD 0
  | .ended _ u => u
  | .unit u => u
  | .block u _ _ => 0x300 + u
  | .move _ => 0x310 + s.dieOf p

/-- Perform the writes held for a page that holds them no longer, in order. Each goes where the page now is, which is placed anew where
it has become EMPTY (R251, R252); a write that then faults, or that finds an error in storage, is recorded (R75, R90). -/
def State.releaseWrites (s : State) (p idx : Nat) : State :=
  let mine := s.heldWrites.filter fun h => h.part == p && h.idx == idx
  let s := { s with heldWrites := s.heldWrites.filter fun h => !(h.part == p && h.idx == idx) }
  mine.foldl (fun s h =>
    let addr := idx * 2 ^ 21 + h.off
    let s := s.arenaWrite p addr h.who
    match s.resolveWrite p h.core addr with
    | .error e => s.faultRecord p (s.writerUnit p h.who h.core) addr e
    | .ok loc => match s.put p h.core loc h.bytes h.who h.before h.after with
      | (s, some n) => s.faultRecord p 0 addr (.damaged loc n)
      | (s, none) => s) s

/-- Write bytes at a thread address piece by piece; lines written before a fault stay written (R75). A unit in error that the request
covers is cleared; one that it covers in part stops it like a fault (R90). -/
def State.store (s : State) (p : Nat) (core : Option Nat) (addr : Nat) (b : List Byte) (w : Writer) :
    State × Option (AccFault × Nat) :=
  (pieces addr b.length).foldl (fun r x =>
    match r.2 with
    | some _ => r
    | none =>
      let s := r.1.arenaWrite p x.1 w
      match s.resolveWrite p core x.1 with
      | .error e => (s, some (e, x.1))
      | .ok loc => match s.put p core loc ((b.drop (x.1 - addr)).take x.2) w (x.1 - addr) (addr + b.length - x.1 - x.2) with
        | (s, some n) => (s, some (.damaged loc n, x.1))
        | (s, none) => (s, none)) (s, none)

/-- The low bits of m from `b`, the rest from `a`, of a byte. -/
def mergeByte (a b : Byte) (m : Nat) : Byte := BitVec.ofNat 8 ((a.toNat &&& (255 - m % 256)) ||| (b.toNat &&& m))

/-- Write bits at a thread address: bytes of which the first is written in the bits of `m0` and the last in those of `m1` only (R134,
R136). A byte that is written in part is read, as it will stand when the writes that its page holds have been made, merged and
written; a unit in error is covered by none of it. -/
def State.storeBits (s : State) (p : Nat) (core : Option Nat) (addr : Nat) (b : List Byte) (m0 m1 : Nat) (w : Writer) :
    State × Option (AccFault × Nat) :=
  let n := b.length
  let lo := addr + b2n (m0 != 255)
  let hi := addr + n - b2n (m1 != 255)
  (pieces addr n).foldl (fun r x =>
    match r.2 with
    | some _ => r
    | none =>
      let s := r.1.arenaWrite p x.1 w
      match s.resolveWrite p core x.1 with
      | .error e => (s, some (e, x.1))
      | .ok loc =>
        let old := s.heldOver p loc (s.locBytes p loc x.2)
        let new := (List.range x.2).map fun k =>
          let i := x.1 + k - addr
          mergeByte (old.getD k 0) (b.getD i 0) ((if i == 0 then m0 else 255) &&& (if i + 1 == n then m1 else 255))
        -- an error in a unit of which the request writes a byte in part only
        let edge := (if x.1 < lo then (s.damageAt loc 1).toList else []) ++
          (if hi < x.1 + x.2 then (s.damageAt (loc.plus (x.2 - 1)) 1).toList else [])
        match edge.head? with
        | some k => (s, some (.damaged loc k, x.1))
        | none => match s.put p core loc new w (x.1 - addr) (addr + n - x.1 - x.2) with
          | (s, some k) => (s, some (.damaged loc k, x.1))
          | (s, none) => (s, none)) (s, none)

/-- Write by a part of the device: a fault writes its error record (R75, R568). -/
def State.storeRec (s : State) (p unit : Nat) (core : Option Nat) (addr : Nat) (b : List Byte) (who : Writer := .unit unit) :
    State × Option AccFault :=
  match s.store p core addr b who with
  | (s, none) => (s, none)
  | (s, some (e, a)) => (s.faultRecord p unit a e, some e)

/-! ### Reading the arena table, and the step boundary (R248, R252) -/

/-- Frames of the partition's share of a tier. -/
def shareFrames (r : List (Nat × Nat)) : Nat := r.foldl (fun n x => n + x.2 / 2 ^ 21) 0

/-- Two ranges of numbers, each a start and a count, overlap. -/
def overlap (a n b m : Nat) : Bool := n != 0 && m != 0 && a < b + m && b < a + n

/-- The arena that entry a of the table describes, if it is enabled. -/
def arenaEntry (num : Nat) (b : List Byte) : Option Arena :=
  if bit (fieldAt b 0 4) 19 then
    some { num := num, first := bits (fieldAt b 0 4) 0 19, pages := fieldAt b 4 2, budget := fieldAt b 6 2
           stack0 := fieldAt b 8 2, bulk0 := bits (fieldAt b 12 4) 0 18, bulkN := bits (fieldAt b 16 4) 0 18 }
  else none

/-- The enabled entries that R248 accepts, and whether one is refused. -/
def State.acceptArenas (s : State) (p : Nat) (l : List Arena) : List Arena × Bool :=
  let ok (a : Arena) : Bool :=
    a.first + a.pages ≤ 524288 &&
    (l.filter fun b => b.num < a.num).all (fun b => !overlap a.first a.pages b.first b.pages) &&
    (a.budget == 0 || a.stack0 + a.budget ≤ shareFrames (s.stackShare p)) &&
    (a.bulkN == 0 || a.bulk0 + a.bulkN ≤ shareFrames (s.bulkShare p)) &&
    (l.filter fun b => b.num != a.num).all (fun b =>
      !overlap a.stack0 a.budget b.stack0 b.budget && !overlap a.bulk0 a.bulkN b.bulk0 b.bulkN)
  (l.filter ok, l.any fun a => !ok a)

/-- The device reads the arena table (R248). An arena that stays as it was keeps its pages; a new one begins with every page
EMPTY. -/
def State.readArenas (s : State) (p : Nat) : State :=
  let pg := s.leadPage p
  let n := min 64 (s.f pg F.CAMBL_COUNT)
  let base := s.f2 pg F.CAMBL_ARENA_BASE_LO F.CAMBL_ARENA_BASE_HI / 2048 * 2048
  let table : Option (List Byte) :=
    match s.load p none base (32 * n) with
    | .ok b =>
      if (pieces base (32 * n)).all (fun x => match s.resolve p none x.1 false with
        | .ok (.phys _ _) => true
        | _ => false) then some b else none
    | .error _ => none
  let s := match s.load p none base (32 * n) with
    | .error (f, at_) => s.faultRecord p (0x300 + s.lead p) at_ f
    | .ok _ => s
  match table with
  | none => (s.modCamb p fun c => { c with arenas := [] }).event pg Ev.CAMB_ARENA_REFUSED
  | some b =>
    let r := s.acceptArenas p ((List.range n).filterMap fun i => arenaEntry i ((b.drop (32 * i)).take 32))
    let old := (s.camb p).arenas
    let same (a b : Arena) : Bool :=
      a.num == b.num && a.first == b.first && a.pages == b.pages && a.budget == b.budget && a.stack0 == b.stack0 &&
      a.bulk0 == b.bulk0 && a.bulkN == b.bulkN
    let fresh := r.1.filter fun a => !old.any (same a)
    let s := s.modCamb p fun c => { c with arenas := r.1.map fun a => (old.find? (same a)).getD a }
    let s := fresh.foldl (fun s a => s.dropEntries p a.first a.pages) s
    if r.2 then s.event pg Ev.CAMB_ARENA_REFUSED else s

/-- Figures and reset of every managed arena (R252). -/
def State.resetArenas (s : State) (p : Nat) : State :=
  let base := s.f2 (s.leadPage p) F.CAMBL_ARENA_BASE_LO F.CAMBL_ARENA_BASE_HI / 2048 * 2048
  let u := 0x300 + s.lead p
  let s := (s.camb p).arenas.foldl (fun s a =>
    let e := base + 32 * a.num
    let s := (s.storeRec p u none (e + 0x14) (toBytes 2 a.peak)).1
    let s := (s.storeRec p u none (e + 0x18) (toBytes 3 a.spilled)).1
    let s := (s.storeRec p u none (e + 0x1C) (toBytes 2 a.dropped)).1
    let s := (s.storeRec p u none (e + 0x0A) (toBytes 2 0xFFFF)).1
    let s := s.dropEntries p a.first a.pages
    s.modArena p a.num fun a => { a with page := [], peak := 0, spilled := 0, dropped := 0, lostStack := [], lostBulk := [] }) s
  s.modCamb p fun c => { c with spills := [] }

/-- A page-map WRITE to an index of a managed arena (R252): the page is EMPTY, and its frame is unused until the next arena reset. The
frame of a page that is being spilled is already its waiting page's. -/
def State.arenaLose (s : State) (p idx : Nat) : State :=
  match s.arenaAt p idx with
  | none => s
  | some a => s.modArena p a.num fun a => match AMap.get? (idx - a.first) a.page with
    | some g =>
      let a := a.setPg (idx - a.first) { kept := g.kept, dropped := g.dropped }
      if g.st == .bulk then { a with lostBulk := g.frame :: a.lostBulk }
      else if g.st == .stack || g.st == .placing then { a with lostStack := g.frame :: a.lostStack }
      else a
    | none => a

/-- Copy a 2 MiB frame, decrypted at its source and encrypted at its destination (R86); the whole of every unit is written (R90). -/
def State.copyFrame (s : State) (src dst : Nat) : State :=
  let s := s.pokePhys dst (s.phys src (2 ^ 21))
  { s with faulty := AMap.drop dst (dst + 2 ^ 21) s.faulty }

/-- A part that reads the frame of a page finds its first unit in error, if there is one (R90). -/
def State.frameDamage (s : State) (p unit idx frame : Nat) : Option State :=
  (s.faultyIn frame (2 ^ 21)).head?.map fun u =>
    s.faultRecord p unit (idx * 2 ^ 21 + (u.1 - frame)) (.damaged (.phys u.1 idx) u.2)

/-- The page of a spill has been copied: it is BULK, its entry names the spill frame, and an update that waits at a reducer goes there
(R238, R251). -/
def State.spillPage (s : State) (p : Nat) (a : Arena) (x : Spill) (src : Nat) : State :=
  let dst := s.arenaBulk p a x.dst
  let s := (s.copyFrame src dst).modArena p a.num fun a =>
    { (a.setPg x.page { a.pg x.page with st := .bulk, frame := x.dst }) with spilled := a.spilled + 1 }
  let s := { s with reducers := s.reducers.map fun (u : RedUpdate) =>
    if u.part == p && u.place.2 == a.first + x.page && !u.old then { u with place := (dst + u.place.1 % 2 ^ 21, u.place.2) } else u }
  let s := (s.setEntry p (a.first + x.page) (mapEntry 1 dst)).incF (s.leadPage p) F.CAMBL_SPILLS
  s.incF (Pg.camb (s.lead p + x.unit)) F.CAMB_SPILL_PAGES

/-- The page that waited for a spill takes the frame. -/
def State.spillWaiter (s : State) (p : Nat) (a : Arena) (x : Spill) : State :=
  let g := a.pg x.waits
  let s := s.modArena p a.num fun a => a.setPg x.waits { a.pg x.waits with st := .stack }
  s.setEntry p (a.first + x.waits) (mapEntry 0 (s.arenaStack p a g.frame))

/-- A spill copy of a partition ends (R251): the frame is copied, the entry names BULK, the waiting page takes the frame, and the writes
held for both proceed. A page that a page-map WRITE took from the arena meanwhile is left as the WRITE made it, and the spill frame of
one that was being spilled stays unused (R252). -/
def State.endSpill (s : State) (p : Nat) (x : Spill) : State :=
  let s := s.modCamb p fun c => { c with spills := c.spills.erase x }
  match (s.camb p).arenas.find? fun a => a.num == x.arena with
  | none => s
  | some a =>
    let spills := (a.pg x.page).st == .spilling
    let src := s.arenaStack p a (a.pg x.page).frame
    match if spills then s.frameDamage p (0x300 + s.lead p + x.unit) (a.first + x.page) src else none with
    | some s => s
    | none =>
      let s := if spills then s.spillPage p a x src
        else s.modArena p a.num fun a => { a with lostBulk := x.dst :: a.lostBulk }
      let s := if (a.pg x.waits).st == .placing then s.spillWaiter p a x else s
      (s.releaseWrites p (a.first + x.page)).releaseWrites p (a.first + x.waits)

end Sys2Proof.Machine
end

