-- ==== Sys2Proof/Machine/Operands.lean ====
section
/-! DEFINITION. Operands: element formats and conversions into them, tensor descriptors and where their elements lie, block
scales, zero maps, and reading and writing elements through thread addresses (ch. 05, 07, 08). -/

namespace Sys2Proof.Machine

/-! ### Element formats (R132, R184, R185) -/

/-- Bits of an element of a FORMAT code; 0 for a code outside R132. -/
def elemBits (fmt : Nat) : Nat :=
  match fmt with
  | 0x01 => 8 | 0x02 => 4 | 0x03 => 4 | 0x04 => 8 | 0x05 => 8 | 0x06 => 16 | 0x07 => 16 | 0x08 => 32 | 0x09 => 64
  | 0x0A => 16 | 0x0B => 32 | 0x0C => 8 | _ => 0

/-- The floating-point format of a FORMAT code. -/
def floatOf (fmt : Nat) : Option FFmt :=
  match fmt with
  | 0x03 => some fp4 | 0x04 => some e4m3 | 0x05 => some e5m2 | 0x06 => some fp16 | 0x07 => some bf16 | 0x08 => some fp32
  | 0x09 => some fp64 | _ => none

/-- The value of an element. -/
def decodeElem (fmt code : Nat) : Num :=
  match floatOf fmt with
  | some f => f.decode code
  | none => if fmt == 0x0C then Num.ofInt (Int.ofNat (bits code 0 8)) else Num.ofInt (sx (elemBits fmt) code)

/-- Range of an integer format. -/
def intRange (fmt : Nat) : Int × Int :=
  if fmt == 0x0C then (0, 255) else (-(2 ^ (elemBits fmt - 1) : Nat), (2 ^ (elemBits fmt - 1) : Nat) - 1)

/-- Convert a value to a format by R203 and R204: the code, and whether the element saturates. -/
def convert (fmt : Nat) (r : Rnd) (e4m3Nan : Bool) (x : Num) : Nat × Bool :=
  match floatOf fmt with
  | some f =>
    match x with
    | .nan => (f.nan, false)
    | .inf n =>
      if fmt == 0x04 && e4m3Nan then (f.nan, false)
      else (f.withSign n (f.infCode.getD f.maxCode), f.infCode.isNone)
    | .fin n m e =>
      let y := f.roundFin r n m e
      if y.big then
        if fmt == 0x04 && e4m3Nan then (f.nan, false)
        else (f.withSign n (f.infCode.getD f.maxCode), f.infCode.isNone)
      else (f.withSign n y.code, false)
  | none =>
    let w := elemBits fmt
    let lo := (intRange fmt).1
    let hi := (intRange fmt).2
    match x with
    | .nan => (0, false)
    | .inf n => (ux w (if n then lo else hi), true)
    | .fin n m e =>
      -- under stochastic rounding overflow is judged by the value itself (R203)
      let v := (Num.toInt r n m e).1
      let t := Num.toInt .zero n m e
      let past : Bool := match r with
        | .stoch _ => t.1 < lo || hi < t.1 || (t.1 == lo && t.2 && n && lo != 0) || (t.1 == hi && t.2 && !n) || (lo == 0 && n && t.1 == 0 && t.2)
        | _ => v < lo || hi < v
      if past then (ux w (if n then lo else hi), true) else (ux w v, false)

/-- The value of a scale code (R187). -/
def scaleValue (fmt c : Nat) : Num :=
  if fmt == 0 then (if c == 0xFF then .nan else .fin false 1 (Int.ofNat c - 127))
  else if 0x7F ≤ c then .nan else e4m3.decode c

/-! ### Tensor descriptors (R131, R133, R217) -/

/-- The descriptor in 64 bytes and its companion's 32 bytes (R131). Dimensions above the rank have extent 1. -/
def TDesc.parse (b : List Byte) : TDesc :=
  let w := fieldAt b 8 4
  let r := bits w 16 2
  let ext (o : Nat) : List Nat := (List.range 4).map fun d => if d ≤ r then fieldAt b (o + 4 * d) 4 else 1
  { base := fieldAt b 0 8, fmt := bits w 0 6, layout := bits w 8 8, rankM1 := r
    scaled := bit w 18, zmap := bit w 19, sparse := bit w 20
    pad := ext 0x10, valid := ext 0x20
    stride := (List.range 3).map fun d => if d + 1 ≤ r then fieldAt b (0x30 + 4 * d) 4 else 0
    scaleBase := fieldAt b 0x40 8, block := bits (fieldAt b 0x48 4) 0 3, share := bits (fieldAt b 0x48 4) 3 1
    scaleFmt := bits (fieldAt b 0x48 4) 4 1, scaleStride := fieldAt b 0x4C 4
    zmapBase := fieldAt b 0x50 8, zmapStride := fieldAt b 0x58 4 }

def TDesc.p (d : TDesc) (i : Nat) : Nat := d.pad.getD i 1
def TDesc.v (d : TDesc) (i : Nat) : Nat := d.valid.getD i 1
/-- STRIDE_d, d from 1. -/
def TDesc.st (d : TDesc) (i : Nat) : Nat := d.stride.getD (i - 1) 0
/-- Stored rows of dimension 1 (R192). -/
def TDesc.rows (d : TDesc) : Nat := if d.sparse then d.p 1 / 2 else d.p 1

/-- Lines of n elements. -/
def TDesc.linesOf (d : TDesc) (n : Nat) : Nat := ceilDiv (n * elemBits d.fmt) 256

/-- The checks of R133, R189, R192, R216 and R217 on one descriptor: true where it passes. -/
def TDesc.ok (d : TDesc) : Bool :=
  elemBits d.fmt != 0 && d.pad.all (fun x => x != 0) &&
  (List.range 4).all (fun i => d.v i ≤ d.p i) &&
  d.base % 32 == 0 && d.layout ≤ 1 &&
  !(d.sparse && d.zmap) && (!(d.scaled || d.zmap || d.sparse) || d.block ≤ 5) &&
  (!d.sparse || d.p 1 % 4 == 0) &&
  (!(d.fmt == 0x0A && d.scaled) || (d.block == 3 && d.share == 0 && d.scaleFmt == 0)) &&
  (if d.layout == 0 then
    (d.rankM1 < 1 || d.linesOf (d.p 0) ≤ d.st 1) && (d.rankM1 < 2 || d.rows * d.st 1 ≤ d.st 2) &&
    (d.rankM1 < 3 || d.p 2 * d.st 2 ≤ d.st 3)
  else
    d.st 1 == 0 && (d.rankM1 < 2 || ceilDiv (d.p 0 * elemBits d.fmt) 2048 * ceilDiv d.rows 64 * 512 ≤ d.st 2) &&
    (d.rankM1 < 3 || d.p 2 * d.st 2 ≤ d.st 3))

/-- Byte address of element (i0, i1, i2, i3) (R133, R217). -/
def TDesc.addr (d : TDesc) (i0 i1 i2 i3 : Nat) : Nat :=
  let b := i0 * elemBits d.fmt / 8
  (if d.layout == 0 then d.base + 32 * (i1 * d.st 1 + i2 * d.st 2 + i3 * d.st 3) + b
   else d.base + 32 * (i2 * d.st 2 + i3 * d.st 3) +
     16384 * (i1 / 64 * ceilDiv (d.p 0 * elemBits d.fmt) 2048 + b / 256) + 256 * (i1 % 64) + b % 256) % 2 ^ 64

/-- Byte address of the scale of an element (R133); dimensions 2 and 3 continue by whole scale arrays (log entry 13). -/
def TDesc.scaleAddr (d : TDesc) (i0 i1 i2 i3 : Nat) : Nat :=
  let bs := 8 * 2 ^ d.block
  let j0 := if d.share == 0 then i0 / bs else i0
  let j1 := if d.share == 0 then i1 else i1 / bs
  let ext := if d.share == 0 then d.p 1 else ceilDiv (d.p 1) bs
  (d.scaleBase + d.scaleStride * (j1 + ext * (i2 + d.p 2 * i3)) + j0) % 2 ^ 64

/-- Byte address and bit of the zero-map bit of an element (R135; log entry 13). -/
def TDesc.zmapAddr (d : TDesc) (i0 i1 i2 i3 : Nat) : Nat × Nat :=
  let b0 := i0 / 64
  let b1 := i1 / 8 + ceilDiv (d.p 1) 8 * (i2 + d.p 2 * i3)
  ((d.zmapBase + b1 * d.zmapStride + b0 / 8) % 2 ^ 64, b0 % 8)

/-! ### Reading and writing through thread addresses -/

/-- Who accesses: partition, and the core whose galley GALLEY_LOCAL names. -/
structure Acc where
  part : Nat
  core : Option Nat
  /-- who writes, for the pages that hold their writes -/
  who : Writer := .unit 0xFFFF

/-- Read n bytes; what a read that faults brings is free, and the caller looks for faults by `State.firstFault`. -/
def State.rdBytes (s : State) (w : Acc) (a n : Nat) : List Byte :=
  match s.load w.part w.core a n with
  | .ok b => b
  | .error _ => (List.range n).map fun i => Config.faultByte (a + i)

/-- Read a number of n bytes in the same way. -/
def State.rd (s : State) (w : Acc) (a n : Nat) : Nat := ofBytes (s.rdBytes w a n)

/-- The first access of a list that faults, with its address (R75), or that reads a unit in error (R90). A write to a page of an arena
that has no frame does not fault where the page can be placed (R249). -/
def State.firstFault (s : State) (w : Acc) (l : List (Nat × Nat)) (write : Bool) : Option (AccFault × Nat) :=
  (l.flatMap fun x => pieces x.1 x.2).findSome? fun x =>
    match (if write then (s.arenaWrite w.part x.1 w.who).resolveWrite w.part w.core x.1
      else s.resolve w.part w.core x.1 false) with
    | .error e => some (e, x.1)
    | .ok l => if write then none else (s.damageAt l x.2).map fun n => (.damaged l n, x.1)

/-- Read n bytes, or none where an access faults. -/
def State.rd? (s : State) (w : Acc) (a n : Nat) : Except (AccFault × Nat) (List Byte) := s.load w.part w.core a n

/-- The stored code of an element. -/
def State.elemCode (s : State) (w : Acc) (d : TDesc) (i0 i1 i2 i3 : Nat) : Nat :=
  let a := d.addr i0 i1 i2 i3
  if elemBits d.fmt == 4 then bits (s.rd w a 1) (4 * (i0 % 2)) 4 else s.rd w a (elemBits d.fmt / 8)

/-- The effective value of an element whose code is given: times its scale (R188). -/
def State.effective (s : State) (w : Acc) (d : TDesc) (code i0 i1 i2 i3 : Nat) : Num :=
  let x := decodeElem d.fmt code
  if d.scaled then (Num.mul x (scaleValue d.scaleFmt (s.rd w (d.scaleAddr i0 i1 i2 i3) 1))).1 else x

/-- The effective value of an element. -/
def State.elem (s : State) (w : Acc) (d : TDesc) (i0 i1 i2 i3 : Nat) : Num :=
  s.effective w d (s.elemCode w d i0 i1 i2 i3) i0 i1 i2 i3

/-- The zero-map bit of an element (R135, R136). -/
def State.marked (s : State) (w : Acc) (d : TDesc) (i0 i1 i2 i3 : Nat) : Bool :=
  d.zmap && (let z := d.zmapAddr i0 i1 i2 i3; bit (s.rd w z.1 1) z.2)

/-- The byte ranges of the elements a0 to below b0 of a row. -/
def TDesc.rowRanges (d : TDesc) (a0 b0 i1 i2 i3 : Nat) : List (Nat × Nat) :=
  if b0 ≤ a0 then []
  else
    let f := a0 * elemBits d.fmt / 8
    let t := ceilDiv (b0 * elemBits d.fmt) 8
    if d.layout == 0 then [(d.addr 0 i1 i2 i3 + f, t - f)]
    else (rangeFrom (f / 256) (ceilDiv t 256 - f / 256)).map fun c =>
      let lo := max f (256 * c)
      (d.addr (lo * 8 / elemBits d.fmt) i1 i2 i3, min t (256 * (c + 1)) - lo)

/-- The byte ranges of a block of rows, with its scales and zero-map bytes. -/
def TDesc.blockRanges (d : TDesc) (a0 b0 a1 b1 i2 i3 : Nat) : List (Nat × Nat) :=
  (rangeFrom a1 (b1 - a1)).flatMap fun i1 =>
    d.rowRanges a0 b0 i1 i2 i3 ++
    (if d.scaled then
      let f := d.scaleAddr a0 i1 i2 i3
      [(f, d.scaleAddr (b0 - 1) i1 i2 i3 + 1 - f)] else []) ++
    (if d.zmap then
      let f := (d.zmapAddr a0 i1 i2 i3).1
      [(f, (d.zmapAddr (b0 - 1) i1 i2 i3).1 + 1 - f)] else [])

/-- Write bytes at a thread address for an accessor; the first fault is returned, lines before it stay written (R75). -/
def State.wr (s : State) (w : Acc) (a : Nat) (b : List Byte) : State × Option (AccFault × Nat) := s.store w.part w.core a b w.who

/-- Codes of 4 bits as bytes, the lower index in the low half (R132). -/
def packNibbles : List Nat → List Byte
  | [] => []
  | [a] => [BitVec.ofNat 8 (a % 16)]
  | a :: b :: t => BitVec.ofNat 8 (a % 16 + b % 16 * 16) :: packNibbles t

/-- Write codes as consecutive elements of a row from index a0, one run for each part of the row that lies together (R134, R180, R219):
a 4-bit element at the end of the codes keeps its neighbour. -/
def State.writeRow (s : State) (w : Acc) (d : TDesc) (a0 i1 i2 i3 : Nat) (codes : List Nat) : State × Option (AccFault × Nat) :=
  let half := elemBits d.fmt == 4
  let odd := half && a0 % 2 == 1
  let short := half && (a0 + codes.length) % 2 == 1
  let n := elemBits d.fmt / 8
  let bytes := if half then packNibbles (if odd then 0 :: codes else codes) else codes.flatMap fun c => toBytes n c
  (d.rowRanges a0 (a0 + codes.length) i1 i2 i3).foldl (fun (r : State × Option (AccFault × Nat) × Nat) x =>
    match r.2.1 with
    | some _ => r
    | none =>
      let y := r.1.storeBits w.part w.core x.1 ((bytes.drop r.2.2).take x.2) (if odd && r.2.2 == 0 then 0xF0 else 0xFF)
        (if short && r.2.2 + x.2 == bytes.length then 0x0F else 0xFF) w.who
      (y.1, y.2, r.2.2 + x.2)) (s, none, 0) |> fun r => (r.1, r.2.1)

/-- The position of an output element for its random word (R206). -/
def TDesc.position (d : TDesc) (i0 i1 i2 i3 : Nat) : Nat := i0 + d.v 0 * (i1 + d.v 1 * (i2 + d.v 2 * i3))

/-- Rounding of an output element: to nearest even, or stochastic with purpose OUTPUT (R204, R206). -/
def outRound (stoch : Bool) (seed layer pos : Nat) : Rnd :=
  if stoch then .stoch (randWord seed pos 0 layer) else .near

end Sys2Proof.Machine
end

