-- ==== Sys2Proof/Machine/Platen.lean ====
section
/-! DEFINITION. Platen arithmetic: the short accumulator, the integer accumulator and the fused chains, the order of
accumulation, the steps after the accumulator, and the proofing reference (R138 to R142, R190 to R202, R209). -/

namespace Sys2Proof.Machine

/-! ### The compute extension (R139) -/

/-- The compute extension. -/
structure Ext where
  seed : Nat := 0
  epilogue : Nat := 0
  graft : Nat := 0
  alpha : Nat := 0x3F800000
  beta : Nat := 0x3F800000
  epiArg : Nat := 0
  bias : Nat := 0

/-- The extension in 64 bytes; the values for AUX 0 where there are none. -/
def Ext.parse (b : List Byte) : Ext :=
  if b.isEmpty then {}
  else { seed := fieldAt b 0 8, epilogue := fieldAt b 8 8, graft := fieldAt b 0x10 8, alpha := fieldAt b 0x18 4
         beta := fieldAt b 0x1C 4, epiArg := fieldAt b 0x20 8, bias := fieldAt b 0x28 8 }

/-! ### Modes (R140, R190, R198) -/

/-- Platen modes. `int` is the integer accumulator of R198. -/
inductive Mode where
  | short8 | short16 | int | chain32 | chain64
  deriving DecidableEq, Repr

/-- The combinations of R140: the mode without R198. -/
def modeOf (a b : Nat) : Option Mode :=
  if a == 0x01 && (b == 0x01 || b == 0x02) then some .short8
  else if (a == 0x04 || a == 0x05) && (b == 0x04 || b == 0x05 || b == 0x03) then some .short8
  else if a == 0x07 && b == 0x07 then some .short16
  else if a == 0x06 && b == 0x06 then some .short16
  else if a == 0x08 && b == 0x08 then some .chain32
  else if a == 0x09 && b == 0x09 then some .chain64
  else none

/-- Code of a mode in proof records and CORE_PROOF_LAST (R211). -/
def Mode.code : Mode → Nat
  | .short8 => 0 | .int => 0 | .short16 => 1 | .chain32 => 2 | .chain64 => 3

/-- Cost factor of a mode in planning (R175), times 2 so that it halves. -/
def Mode.cost : Mode → Nat
  | .short8 => 2 | .int => 2 | .short16 => 4 | .chain32 => 16 | .chain64 => 64

/-! ### The accumulators -/

/-- The short accumulator (R195): flags, and the finite part x × 2^e. -/
structure SAcc where
  nan : Bool := false
  pinf : Bool := false
  ninf : Bool := false
  x : Int := 0
  e : Int := 0
  deriving DecidableEq, Repr

/-- x × 2^e in units of 2^q, rounded toward zero. -/
def truncAt (x : Int) (e q : Int) : Int :=
  if q ≤ e then x * Int.ofNat (2 ^ (e - q).toNat) else Int.tdiv x (Int.ofNat (2 ^ (q - e).toNat))

/-- Add a product (R196). -/
def SAcc.add (a : SAcc) (p : Num) : SAcc :=
  match p with
  | .nan => { a with nan := true }
  | .inf n => if n then { a with ninf := true } else { a with pinf := true }
  | .fin n m e =>
    if m == 0 then a
    else
      let l := leadExp m e
      let top := if a.x == 0 then l else max l (leadExp a.x.natAbs a.e)
      let q := top - 25
      let x := truncAt a.x a.e q + truncAt (if n then -(Int.ofNat m) else Int.ofNat m) e q
      if x == 0 then { a with x := 0, e := 0 }
      else
        let k := Nat.log2 x.natAbs
        if 26 ≤ k then { a with x := Int.tdiv x 2, e := q + 1 }
        else { a with x := x * Int.ofNat (2 ^ (25 - k)), e := q - Int.ofNat (25 - k) }

/-- What the accumulator yields (R199). -/
def SAcc.value (a : SAcc) : Num :=
  if a.nan || (a.pinf && a.ninf) then .nan
  else if a.pinf then .inf false
  else if a.ninf then .inf true
  else ofScaled a.x a.e false

/-- One link of a chain: code and flags so far (R200, R201). -/
def chainLink (f : FFmt) (acc : Nat × Nat) (a b : Num) : Nat × Nat :=
  let r := f.fin .near (Num.fma .near a b (f.decode acc.1))
  (r.1, acc.2 ||| r.2)

/-- The accumulator after the base products and the graft products s × T × R (R194, R196, R198, R200): value and flags. -/
def accumulate (mode : Mode) (base : List (Num × Num)) (s : Num) (graft : List (Num × Num)) : Num × Nat :=
  let chain (f : FFmt) : Num × Nat :=
    let x := base.foldl (fun acc (p : Num × Num) => chainLink f acc p.1 p.2) (0, 0)
    let y := graft.foldl (fun (acc : Nat × Nat) (p : Num × Num) =>
      let t := f.fin .near (Num.mul s p.1)
      chainLink f (acc.1, acc.2 ||| t.2) (f.decode t.1) p.2) x
    (f.decode y.1, y.2)
  match mode with
  | .chain32 => chain fp32
  | .chain64 => chain fp64
  | .int =>
    (Num.ofInt (base.foldl (fun (n : Int) (p : Num × Num) =>
      match (Num.mul p.1 p.2).1 with
      | .fin sg m e => n + scaled sg m e 0
      | _ => n) 0), 0)
  | _ =>
    let x := base.foldl (fun (a : SAcc) (p : Num × Num) => a.add (Num.mul p.1 p.2).1) {}
    let y := graft.foldl (fun (a : SAcc) (p : Num × Num) => a.add (Num.mul (Num.mul s p.1).1 p.2).1) x
    (y.value, 0)

/-- Reference and magnitude sum of a proof in a short mode (R209), as FP32 codes. -/
def proofReference (base : List (Num × Num)) (s : Num) (graft : List (Num × Num)) : Nat × Nat :=
  let n32 (x : Num) : Num := fp32.decode (fp32.near x)
  let st (acc : Nat × Nat) (a b : Num) : Nat × Nat :=
    ((chainLink fp32 (acc.1, 0) a b).1, (chainLink fp32 (acc.2, 0) a.abs b.abs).1)
  let x := base.foldl (fun acc (p : Num × Num) => st acc (n32 p.1) (n32 p.2)) (0, 0)
  graft.foldl (fun acc (p : Num × Num) => st acc (fp32.decode (fp32.near (Num.mul s (n32 p.1)).1)) (n32 p.2)) x

/-! ### After the accumulator (R138, R202) -/

/-- Steps 2 to 4 of R138 apply, or an epilogue does (R202). -/
def Ext.hasSteps (x : Ext) (accum : Bool) : Bool :=
  x.alpha != 0x3F800000 || accum || x.bias != 0 || x.epilogue != 0

/-- Steps 2 to 4 of R138 on an accumulator's value; `c` and `b` are the element of C and of the bias, widened exactly. -/
def Ext.steps (x : Ext) (f : FFmt) (accum : Bool) (v c b : Num) : Num :=
  if !x.hasSteps accum then v
  else
    let y0 := f.decode (f.near v)
    let y1 := if x.alpha == 0x3F800000 then y0 else f.decode (f.fin .near (Num.mul y0 (fp32.decode x.alpha))).1
    let y2 := if !accum then y1
      else
        let t := if x.beta == 0x3F800000 then c else f.decode (f.fin .near (Num.mul (fp32.decode x.beta) c)).1
        f.decode (f.fin .near (Num.add .near y1 t)).1
    if x.bias == 0 then y2 else f.decode (f.fin .near (Num.add .near y2 b)).1

/-! ### Plans of matrix products -/

/-- The descriptors of a matrix product's plan: A (or X), B (or W), C (or Y), bias, and the graft factors L and R. -/
def Plan.dA (p : Plan) : TDesc := p.descs.getD 0 {}
def Plan.dB (p : Plan) : TDesc := p.descs.getD 1 {}
def Plan.dC (p : Plan) : TDesc := p.descs.getD 2 {}
def Plan.dBias (p : Plan) : TDesc := p.descs.getD 3 {}
def Plan.dL (p : Plan) : TDesc := p.descs.getD 4 {}
def Plan.dR (p : Plan) : TDesc := p.descs.getD 5 {}
/-- Compute extension, graft descriptor and opcode block. -/
def Plan.ext (p : Plan) : Ext := Ext.parse (AMap.getD 0 [] p.blocks)
def Plan.graftBytes (p : Plan) : List Byte := AMap.getD 1 [] p.blocks
def Plan.block (p : Plan) : List Byte := AMap.getD 2 [] p.blocks
/-- Rank of the graft, 0 without one (R142). -/
def Plan.rank (p : Plan) : Nat := bits (fieldAt p.graftBytes 0x14 4) 16 8

/-- The mode of a plan (R140, R198). -/
def Plan.mode (p : Plan) : Mode :=
  match modeOf p.dA.fmt p.dB.fmt with
  | some .short8 =>
    if p.dA.fmt == 0x01 && !p.dA.scaled && !p.dB.scaled && p.graftBytes.isEmpty then .int else .short8
  | some m => m
  | none => .short8

/-- The window block (R221). -/
structure Window where
  kw : Nat
  kh : Nat
  sw : Nat
  sh : Nat
  dw : Nat
  dh : Nat
  pl : Nat
  pt : Nat
  groups : Nat

def Window.parse (b : List Byte) : Window :=
  { kw := fieldAt b 0 2, kh := fieldAt b 2 2, sw := fieldAt b 4 1, sh := fieldAt b 5 1, dw := fieldAt b 6 1
    dh := fieldAt b 7 1, pl := fieldAt b 8 2, pt := fieldAt b 0xA 2, groups := fieldAt b 0xC 2 }

/-- Fields within their ranges (R221); `conv` checks GROUPS. -/
def Window.ok (w : Window) (conv : Bool) : Bool :=
  1 ≤ w.kw && w.kw ≤ 4096 && 1 ≤ w.kh && w.kh ≤ 4096 && 1 ≤ w.sw && 1 ≤ w.sh && 1 ≤ w.dw && 1 ≤ w.dh &&
  (!conv || 1 ≤ w.groups)

/-- Input column and row of a tap, none outside the padded extent (R222). -/
def Window.tap (w : Window) (x : TDesc) (ox oy kx ky : Nat) : Option (Nat × Nat) :=
  let cx := ox * w.sw + kx * w.dw
  let cy := oy * w.sh + ky * w.dh
  if w.pl ≤ cx && cx - w.pl < x.p 1 && w.pt ≤ cy && cy - w.pt < x.p 2 then some (cx - w.pl, cy - w.pt) else none

/-- The A element at (m, k) of batch bt, none where its product is omitted (R136, R194, R222); with `zeroed` the element of a block
that the zero map marks is zero instead (R209). -/
def State.aElem (s : State) (w : Acc) (p : Plan) (conv : Bool) (bt m k : Nat) (zeroed : Bool := false) : Option Num :=
  if conv then
    let win := Window.parse p.block
    let cg := p.dA.v 0 / win.groups
    let ow := p.dC.v 1
    let oh := p.dC.v 2
    let c := k % cg
    let t := k / cg
    match win.tap p.dA (m % ow) (m / ow % oh) (t % win.kw) (t / win.kw) with
    | some (x, y) => some (s.elem w p.dA (bt * cg + c) x y (m / (ow * oh)))
    | none => some .zero
  else
    let d := p.dA
    let b := if d.p 2 == 1 then 0 else bt
    let skips : Bool := match modeOf d.fmt p.dB.fmt with
      | some .chain32 => false
      | some .chain64 => false
      | _ => true
    if skips && s.marked w d k m b 0 then (if zeroed then some .zero else none) else some (s.elem w d k m b 0)

/-- The B element of a stored row (R191, R192): `row` is the stored row and `k` the logical position of its scale. -/
def State.bElem (s : State) (w : Acc) (p : Plan) (conv : Bool) (bt n row k : Nat) : Num :=
  let d := p.dB
  let b := if conv then bt else if d.p 2 == 1 then 0 else bt
  s.effective w d (s.elemCode w d n row b 0) n k b 0

/-- The two stored positions of a group of a sparse operand, in ascending position (R192, R194): stored row and position. The metadata of
matrix b follow those of the matrix before (log entry 202). -/
def State.sparseRows (s : State) (w : Acc) (d : TDesc) (b g n : Nat) : List (Nat × Nat) :=
  let nib := bits (s.rd w ((d.zmapBase + (g + d.p 1 / 4 * b) * d.zmapStride + n / 2) % 2 ^ 64) 1) (4 * (n % 2)) 4
  let x := (2 * g, 4 * g + bits nib 0 2)
  let y := (2 * g + 1, 4 * g + bits nib 2 2)
  if y.2 < x.2 then [y, x] else [x, y]

/-- The products of an output element, in order (R194); with `zeroed` those of marked blocks too (R209). -/
def State.products (s : State) (w : Acc) (p : Plan) (conv : Bool) (bt m n : Nat) (zeroed : Bool := false) : List (Num × Num) :=
  if p.dB.sparse then
    let b := if p.dB.p 2 == 1 then 0 else bt
    (List.range (ceilDiv p.kk 4)).flatMap fun g => ((s.sparseRows w p.dB b g n).filter fun x => x.2 < p.kk).filterMap fun x =>
      match s.aElem w p conv bt m x.2 zeroed with
      | some a => some (a, s.bElem w p conv bt n x.1 x.2)
      | none => none
  else
    (List.range p.kk).filterMap fun k =>
      match s.aElem w p conv bt m k zeroed with
      | some a => some (a, s.bElem w p conv bt n k k)
      | none => none

/-- Mode of the product A · L of a graft: that of the wider of the two formats (R141). -/
def graftMode (a l : Nat) : Mode :=
  if a == 0x08 then .chain32 else if a == 0x09 then .chain64
  else if elemBits a == 16 || elemBits l == 16 then .short16 else .short8

/-- The graft products of an output element (R141, R194): T[m, j] in R's format, and R[j, n]; flags of T's chains. T is rounded
under the forme's E4M3_NAN (log entry 14). -/
def State.graftProducts (s : State) (w : Acc) (p : Plan) (e4nan : Bool) (bt m n : Nat) : List (Num × Num) × Nat :=
  (List.range p.rank).foldl (fun (r : List (Num × Num) × Nat) j =>
    let ps := (List.range p.kk).filterMap fun k =>
      match s.aElem w p false bt m k with
      | some a => some (a, s.elem w p.dL j k 0 0)
      | none => none
    let t := accumulate (graftMode p.dA.fmt p.dL.fmt) ps .zero []
    let tr := decodeElem p.dR.fmt (convert p.dR.fmt .near e4nan t.1).1
    (r.1 ++ [(tr, s.elem w p.dR n j 0 0)], r.2 ||| t.2)) ([], 0)

/-- The graft's scale s (R142). -/
def Plan.graftScale (p : Plan) : Num := fp32.decode (fieldAt p.graftBytes 0x10 4)

/-- Accumulator of an output element, and its flags. -/
def State.platenElem (s : State) (w : Acc) (p : Plan) (conv e4nan : Bool) (bt m n : Nat) : Num × Nat :=
  let g := s.graftProducts w p e4nan bt m n
  let r := accumulate p.mode (s.products w p conv bt m n) p.graftScale g.1
  (r.1, r.2 ||| g.2)

/-- The comparison of a short mode (R209): p as an FP32 code, the reference and the magnitude sum, and whether it passes. -/
def shortProof (tolLog2 p : Nat) (r : Nat × Nat) : Nat × Nat × Nat × Bool :=
  let tol := max 1 (min 24 tolLog2)
  let pass := match fp32.decode p, fp32.decode r.1 with
    | .nan, .nan => true
    | .inf a, .inf b => a == b
    | .fin _ _ _, .fin _ _ _ =>
      Num.le (fp32.decode (fp32.subN p r.1)).abs
        (fp32.decode (fp32.near (Num.mul (.fin false 1 (-(Int.ofNat tol))) (fp32.decode r.2)).1))
    | _, _ => false
  (p, r.1, r.2, pass)

/-- A platen sum of products in a mode, to FP32 (R202). -/
def platenSum (m : Mode) (l : List (Num × Num)) : Nat := fp32.near (accumulate m l .zero []).1

/-- Reference p, r and m of a proofed element (R209): p and r as codes of the comparison format, m as an FP32 code, and whether
the comparison passes. `platen` is the value that the platen produced. -/
def State.proofElem (s : State) (w : Acc) (p : Plan) (conv e4nan : Bool) (bt m n tolLog2 : Nat) (platen : Num) :
    Nat × Nat × Nat × Bool :=
  let g := (s.graftProducts w p e4nan bt m n).1
  let ps := s.products w p conv bt m n true
  match p.mode with
  | .chain32 =>
    let r := fp32.near (accumulate .chain32 ps p.graftScale g).1
    (fp32.near platen, r, 0, fp32.near platen == r)
  | .chain64 =>
    let r := fp64.near (accumulate .chain64 ps p.graftScale g).1
    (fp64.near platen, r, 0, fp64.near platen == r)
  | _ => shortProof tolLog2 (fp32.near platen) (proofReference ps p.graftScale g)

end Sys2Proof.Machine
end

