-- ==== Sys2Proof/Machine/Prog.lean ====
section
/-! DEFINITION. Shared operations over threads, sync counters, host completions and the life of programs and formes: issue levels
and restart ramps, common edges and device time, the counter operations of R115 with their wakes, starting and ending a program,
ending a forme, and stopping a partition. -/

namespace Sys2Proof.Machine

/-! ### Threads and their registers (R101, R154) -/

/-- Key of a thread. -/
def thKey (core t : Nat) : Nat := core * 64 + t
def State.th (s : State) (core t : Nat) : Thread := AMap.getD (thKey core t) {} s.threads
def State.setTh (s : State) (core t : Nat) (x : Thread) : State :=
  { s with threads := AMap.put (thKey core t) x s.threads }
def State.modTh (s : State) (core t : Nat) (g : Thread → Thread) : State := s.setTh core t (g (s.th core t))

/-- Scalar register r; s0 reads 0 (ch. 05). -/
def Thread.s (x : Thread) (r : Nat) : Nat := if r == 0 then 0 else AMap.getD r 0 x.sregs % 2 ^ 64
/-- Write scalar register r, 64 bits; writes to s0 are discarded. -/
def Thread.setS (x : Thread) (r v : Nat) : Thread :=
  if r == 0 then x else { x with sregs := AMap.put r (v % 2 ^ 64) x.sregs }
def Thread.v (x : Thread) (r : Nat) : VReg := AMap.getD r 0 x.vregs
def Thread.setV (x : Thread) (r : Nat) (v : VReg) : Thread := { x with vregs := AMap.put r v x.vregs }

def State.core (s : State) (n : Nat) : Core := AMap.getD n {} s.cores
def State.setCore (s : State) (n : Nat) (x : Core) : State := { s with cores := AMap.put n x s.cores }
def State.modCore (s : State) (n : Nat) (g : Core → Core) : State := s.setCore n (g (s.core n))

/-! ### Clocks and issue (R20, R24, R30, R31) -/

/-- ACLK cycles since the last release of ACLK, at a KCLK count (R20): KCLK counts 12 root cycles, ACLK one in `aclkDiv`. -/
def Power.aclkAt (p : Power) (k : Nat) : Nat := (k - p.aclkFrom) * 12 / p.aclkDiv
/-- The present ACLK count. -/
def State.aclk (s : State) : Nat := s.power.aclkAt s.power.kclk
/-- ACLK cycles of the present KCLK cycle; none while ACLK is stopped. -/
def State.cycles (s : State) : List Nat := rangeFrom s.aclk (s.power.aclkAt (s.power.kclk + 1) - s.aclk)

/-- ACLK cycle c issues at a level (R20). -/
def issues (level c : Nat) : Bool := c * level / 16 < (c + 1) * level / 16

/-- The effective issue level (R20). -/
def State.level (s : State) : Nat := s.f Pg.pwr F.PWR_ISSUE_LEVEL

/-- The issue level of a core: the effective level, or that of its restart ramp while it is lower (R20, R22). -/
def State.levelOf (s : State) (c : Nat) : Nat :=
  match (s.core c).ramp with
  | some r => min r.1 s.level
  | none => s.level

/-- A core's thread engine may issue to its units in the present KCLK cycle: one of its ACLK cycles is an issuing one (R20). -/
def State.mayIssue (s : State) (c : Nat) : Bool := s.cycles.any fun n => issues (s.levelOf c) n

/-- KCLK counts between common edges (R30): 144 root cycles, 720 with ACLK divider 5. -/
def Power.edgePeriod (p : Power) : Nat := if p.aclkDiv == 5 then 60 else 12

/-- The present KCLK count is a common edge of the six clocks. -/
def Power.commonEdge (p : Power) : Bool := p.aclkFrom ≤ p.kclk && (p.kclk - p.aclkFrom) % p.edgePeriod == 0

/-- Device time has reached a value, now or before a backward step of it (R24). -/
def Power.reached (p : Power) (t : Nat) : Bool := t ≤ max p.time p.high

/-- The first grid point that device time has not reached (R24, R25). -/
def Power.nextGrid (p : Power) : Nat := (max p.time p.high / p.waveGap + 1) * p.waveGap

/-- Begin a set of waves: wave 0 is due at the first grid point after now (R25; log entry 182). -/
def State.beginWaves (s : State) (owner : Option Nat) (kind : WaveKind) : State :=
  { s with power := { s.power with
    waves := s.power.waves ++ [{ owner := owner, kind := kind, next := 0, due := s.power.nextGrid }] } }

/-- Device time is stepped (R24, R444): a wave whose grid point a forward step passes is due at the next one that it does not pass,
and a grid point that was reached before a backward step stays reached. -/
def State.stepTime (s : State) (t : Nat) : State :=
  let p := s.power
  let later (w : WaveSet) : WaveSet :=
    if p.time < w.due && w.due < t then { w with due := (t + p.waveGap - 1) / p.waveGap * p.waveGap } else w
  { s with power := { p with time := t, high := if t < p.time then max p.high p.time else p.high, waves := p.waves.map later } }

/-- A core executes no instruction while it is held, while its partition is not ACTIVE (R25, R83, R91), and once a host read of its
partition has failed (R90). -/
def State.coreRuns (s : State) (n : Nat) : Bool :=
  s.active (s.corePart n) && !(s.core n).held && !s.hostStops.contains (s.corePart n)

/-- The ramp under which a core starts: level 4 from now on, none where the effective level is no higher (R22). -/
def State.rampStart (s : State) : Option (Nat × Nat) := if s.level ≤ 4 then none else some (4, s.aclk)

/-- A platen that has issued nothing for 3,000 ACLK or more restarts (R22). -/
def State.idleRestart (s : State) (c : Nat) : State :=
  if s.aclk < (s.core c).lastIssue + 3000 then s
  else s.modCore c fun x => { x with ramp := s.rampStart, lastIssue := s.aclk }

/-- A step of the ramp, 1,000 ACLK after the last (R22). -/
def State.rampStep (s : State) (c : Nat) : State :=
  match (s.core c).ramp with
  | none => s
  | some r =>
    if s.aclk < r.2 + 1000 then s
    else s.modCore c fun x => { x with ramp := if s.level ≤ r.1 + 4 then none else some (r.1 + 4, r.2 + 1000) }

/-! ### Formes (R129, R146) -/

def State.forme (s : State) (i : Nat) : Forme := AMap.getD i {} s.formes
def State.setForme (s : State) (i : Nat) (x : Forme) : State := { s with formes := AMap.put i x s.formes }
def State.modForme (s : State) (i : Nat) (g : Forme → Forme) : State := s.setForme i (g (s.forme i))

namespace Forme
def word (x : Forme) (o : Nat) : Nat := fieldAt x.bytes o 4
def opcode (x : Forme) : Nat := bits (x.word 0) 0 8
def variant (x : Forme) : Nat := bits (x.word 0) 8 8
def round (x : Forme) : Bool := bit (x.word 0) 16
def e4m3Nan (x : Forme) : Bool := bit (x.word 0) 17
def recompute (x : Forme) : Bool := bit (x.word 0) 18
def coreFirst (x : Forme) : Nat := bits (x.word 4) 0 8
def coreCount (x : Forme) : Nat := bits (x.word 4) 8 8 + 1
def hints (x : Forme) : Nat := bits (x.word 4) 16 16
def waitCtr (x : Forme) : Nat := bits (x.word 8) 0 13
def waitEn (x : Forme) : Bool := bit (x.word 8) 13
def waitTarget (x : Forme) : Nat := x.word 12
def doneCtr (x : Forme) : Nat := bits (x.word 16) 0 13
def doneEn (x : Forme) : Bool := bit (x.word 16) 13
def doneAdd (x : Forme) : Int := sx 16 (bits (x.word 16) 16 16)
def claimCtr (x : Forme) : Nat := bits (x.word 20) 0 13
def branches (x : Forme) : Nat := bits (x.word 20) 13 3 + 1
def layer (x : Forme) : Nat := bits (x.word 20) 16 16
def statusAddr (x : Forme) : Nat := fieldAt x.bytes 0x18 8
def opd (x : Forme) (i : Nat) : Nat := fieldAt x.bytes (0x20 + 8 * i) 8
def aux (x : Forme) : Nat := fieldAt x.bytes 0x38 8
end Forme

/-! ### Sync counters (R112 to R118, R148) -/

/-- VALUE, LIMIT and attributes of a device counter (R114, R127). -/
def State.value (s : State) (c : Nat) : Nat := s.reg (Pg.sync (c / 256) * 4096 + 0x800 + 4 * (c % 256))
def State.limit (s : State) (c : Nat) : Nat := s.reg (Pg.sync (c / 256) * 4096 + 0xC00 + 4 * (c % 256))
def State.ctrAttr (s : State) (c : Nat) : Nat := s.reg (Pg.sync (c / 256) * 4096 + 0x400 + 4 * (c % 256))

/-- WEIGHT of a counter, 0 acting as 1 (R120). -/
def State.ctrWeight (s : State) (c : Nat) : Nat := max 1 (bits (s.ctrAttr c) 8 8)

/-- The condition of WAIT: VALUE − t as a signed 32-bit value is 0 or more (R115). -/
def meets (v t : Nat) : Bool := !bit ((v + 2 ^ 32 - t % 2 ^ 32) % 2 ^ 32) 31

/-- A counter is busy as a claim counter (R146, R148). -/
def State.ctrBusy (s : State) (c : Nat) : Bool := s.formes.any fun x => x.2.busy.contains c

/-- OPS counts an operation received for a counter (R127). -/
def State.countOp (s : State) (c : Nat) : State := s.incF (Pg.sync (c / 256)) F.SYNC_OPS

/-- A wait of `lim` KCLK issued at `since` has not run out at KCLK count k: cycle `lim` still counts; 0 is no limit (R118). -/
def inTime (since lim k : Nat) : Bool := lim == 0 || k ≤ since + lim

/-- A thread whose wait the value meets in time: the wait is removed and its result register returns 0 (R105, R118, R155). -/
def Thread.wake (x : Thread) (c v k : Nat) : Thread :=
  match x.wait with
  | some w =>
    if x.st == .waitSync && w.ctr == c && meets v w.target && inTime w.since w.timeout k then { (x.setS w.reg 0) with st := .ready, wait := none } else x
  | none => x

/-- A counter takes a value: every wait registered on it is tested against it (R117). Waits of formes and of host entries
that the value meets are marked, and the commands FORME_WAIT_MET and SQ_WAIT_MET act on the mark. -/
def State.setValue (s : State) (c v : Nat) : State :=
  let v := v % 2 ^ 32
  let s := s.setReg (Pg.sync (c / 256) * 4096 + 0x800 + 4 * (c % 256)) v
  { s with
    threads := s.threads.map fun x => (x.1, x.2.wake c v s.power.kclk)
    formes := s.formes.map fun x =>
      if x.2.st == .waiting && s.devCtr x.2.part x.2.waitCtr == c && meets v x.2.waitTarget
      then (x.1, { x.2 with waitMet := true }) else x
    fns := s.fns.map fun f => (f.1, { f.2 with
      sq := f.2.sq.map fun q => match q.2.wait with
        | some (r, c', t, k, lim, _) =>
          if c' == c && meets v t && inTime k lim s.power.kclk then (q.1, { q.2 with wait := some (r, c', t, k, lim, true) }) else q
        | none => q }) }

/-- ADD that R148 does not hold back (R115). -/
def State.opAddAlways (s : State) (c : Nat) (n : Int) : State :=
  let s := s.countOp c
  s.setValue c (ux 32 (s.value c + n))

/-- ADD (R115): performed as nothing while the counter is a busy claim counter (R148), and counted either way. -/
def State.opAdd (s : State) (c : Nat) (n : Int) : State :=
  let s := s.countOp c
  if s.ctrBusy c then s else s.setValue c (ux 32 (s.value c + n))

/-- SET (R115). -/
def State.opSet (s : State) (c v : Nat) : State :=
  let s := s.countOp c
  if s.ctrBusy c then s else s.setValue c v

/-- What a claim returns when no tile is left (R115, R155). -/
def exhausted : Nat := 2 ^ 64 - 1

/-- CLAIM without the rule of R148: the value before, or `none` for EXHAUSTED (R115). -/
def State.claimRaw (s : State) (c : Nat) : State × Option Nat :=
  let s := s.countOp c
  let v := s.value c
  if v < s.limit c then (s.setValue c (v + 1), some v) else (s, none)

/-- CLAIM by a thread program (R115, R148). -/
def State.opClaim (s : State) (c : Nat) : State × Option Nat :=
  if s.ctrBusy c then (s.countOp c, none) else s.claimRaw c

/-- CLAIM_SET: draw a member, claim from it, and drop members that are exhausted until one gives a tile (R120). The fuel is the
number of members plus one. `claim` is the CLAIM to issue. -/
def claimSetLoop (claim : State → Nat → State × Option Nat) (base : Nat) : Nat → State → ClaimSet → State × ClaimSet × Option (Nat × Nat)
  | 0, s, x => (s, x, none)
  | fuel + 1, s, x =>
    let m := ((List.range x.count).filter fun i => !x.gone.contains i).map fun i => (i, s.ctrWeight (base + i))
    let cr : AMap Int := (List.range x.count).map fun i => (i, x.credit.getD i 0)
    match weightedDraw m cr with
    | none => (s, x, none)
    | some (i, cr) =>
      match claim s (base + i) with
      | (s, some t) => (s, { x with credit := (List.range x.count).map fun j => AMap.getD j 0 cr }, some (i, t))
      | (s, none) =>
        let cr := AMap.put i 0 cr
        claimSetLoop claim base fuel s
          { x with gone := i :: x.gone, credit := (List.range x.count).map fun j => AMap.getD j 0 cr }

/-! ### Host completions (R467 to R472) -/

/-- Entries of a completion or submission queue of 2^LOG2, LOG2 taken from 4 to 16 (R474). -/
def queueLog2 (v : Nat) : Nat := max 4 (min 16 v)

def State.cqState (s : State) (f q : Nat) : CompQueue := AMap.getD q {} (s.fn f).cq
def State.modCq (s : State) (f q : Nat) (g : CompQueue → CompQueue) : State :=
  s.modFn f fun x => { x with cq := AMap.put q (g (AMap.getD q {} x.cq)) x.cq }
def State.sqState (s : State) (f q : Nat) : SubQueue := AMap.getD q {} (s.fn f).sq
def State.modSq (s : State) (f q : Nat) (g : SubQueue → SubQueue) : State :=
  s.modFn f fun x => { x with sq := AMap.put q (g (AMap.getD q {} x.sq)) x.sq }

/-- The 32 bytes of a completion entry written at count n of a queue of 2^l entries (R467). -/
def cqeBytes (r : HostRef) (status detail n l time : Nat) : List Byte :=
  toBytes 4 (status % 256 + r.kind % 16 * 2 ^ 8 + r.sq % 16 * 2 ^ 12 + (if bit n l then 0 else 2 ^ 31)) ++
  toBytes 4 r.count ++ toBytes 8 r.tag ++ toBytes 4 detail ++ toBytes 4 0 ++ toBytes 8 time

/-- Write a completion entry and signal it (R467, R468, R472). -/
def State.writeCqe (s : State) (r : HostRef) (status detail time : Nat) : State :=
  let d := 16 * r.cq
  let pg := Pg.host r.fn 2
  let s := s.modCq r.fn r.cq fun c => { c with owed := c.owed - 1 }
  if s.f pg (F.HOST2_EN.sh d) == 0 then s.satF (Pg.host r.fn 0) F.HOST0_CQ_LOST
  else
    let l := queueLog2 (s.f pg (F.HOST2_LOG2.sh d))
    let c := s.cqState r.fn r.cq
    let base := s.f2 pg (F.HOST2_BASE_LO.sh d) (F.HOST2_BASE_HI.sh d) / 4096 * 4096
    let s := s.poke (hostKey (base + 32 * (c.tail % 2 ^ l))) (cqeBytes r status detail c.tail l time)
    let s := s.modCq r.fn r.cq fun c => { c with tail := (c.tail + 1) % 2 ^ 32, unsignalled := c.unsignalled + 1
                                                 oldest := if c.unsignalled == 0 then s.power.time else c.oldest }
    let s := (s.incF (Pg.host r.fn 0) F.HOST0_COMPLETIONS).incF (Pg.host r.fn 3) (F.HOST3_CQ_WRITTEN.sh (4 * r.cq))
    if s.f pg (F.HOST2_IRQ_EN.sh d) == 1 &&
       (max 1 (s.f pg (F.HOST2_COUNT.sh d)) ≤ c.unsignalled + 1 || status != 0)
    then s.interrupt r.fn (s.f pg (F.HOST2_VECTOR.sh d)) else s

/-- A submission entry ends (R464, R468): with CQE 1 a completion is written, or held while the function may not issue
requests (R455). -/
def State.endEntry (s : State) (r : HostRef) (status detail : Nat) : State :=
  if !r.cqe then s
  else if !s.fnReady r.fn then
    s.modFn r.fn fun x => { x with heldCq := x.heldCq ++ [(r, status, detail, s.power.time)] }
  else s.writeCqe r status detail s.power.time

/-- An entry ends without a completion entry (R470). -/
def State.dropEntry (s : State) (r : HostRef) : State :=
  if r.cqe then s.modCq r.fn r.cq fun c => { c with owed := c.owed - 1 } else s

/-! ### Starting and ending a program (R105, R161) -/

/-- The bytes that a thread's read finds in this device's own memory at its issue, with a gap where the host or a peer supplies them. A
write of the thread itself that still waits for its page counts as made (R158). -/
def State.localBytes (s : State) (core t addr n : Nat) : List (Option Byte) :=
  let p := s.corePart core
  (pieces addr n).flatMap fun x =>
    match s.resolve p (some core) x.1 false with
    | .ok (.galley c o) => (s.bytes (galleyKey c o) x.2).map some
    | .ok (.phys a i) =>
      let mine := s.heldWrites.filter fun h => h.part == p && h.idx == i && h.who == .thread core t
      (mine.foldl (fun b h => overlaid (a % 2 ^ 21) b h.off h.bytes) (s.phys a x.2)).map some
    | _ => List.replicate x.2 none

/-- Bytes without a gap. -/
def wholeBytes (l : List (Option Byte)) : Option (List Byte) := if l.all Option.isSome then some (l.map fun b => b.getD 0) else none

/-- The places that an access of n bytes was translated to, each with its bytes. -/
def State.placesOf (s : State) (p : Nat) (core : Option Nat) (addr n : Nat) : List (Loc × Nat) :=
  (pieces addr n).filterMap fun x => match s.resolve p core x.1 false with
    | .ok l => some (l, x.2)
    | .error _ => none

/-- The place of the byte at an offset in an access. -/
def placeAt : List (Loc × Nat) → Nat → Option Loc
  | [], _ => none
  | x :: t, o => if o < x.2 then some (x.1.plus o) else placeAt t (o - x.2)

/-- The first place of an access that holds a unit in error: its offset, the place, and the bits or symbols in error (R90). -/
def State.damageIn (s : State) : List (Loc × Nat) → Nat → Option (Nat × Loc × Nat)
  | [], _ => none
  | x :: t, o => match s.damageAt x.1 x.2 with
    | some n => some (o, x.1, n)
    | none => s.damageIn t (o + x.2)

/-- A core translates a thread address: an index that its translation cache lacks is read from the page map, and takes the place of an
open one of 64 (R76; log entry 174). -/
def State.tlbUse (s : State) (core addr : Nat) : State :=
  let idx := bits addr 21 19
  let l := (s.core core).tlb
  if bits addr 40 24 != 0 || !bit (s.entry (s.corePart core) idx) 0 || l.contains idx then s
  else
    let full := 64 ≤ l.length
    let s := if full then { s with opens := s.opens + 1 } else s
    s.modCore core fun x => { x with tlb := idx :: (if full then l.eraseIdx (Config.open (s.opens - 1) % 64) else l) }

/-- Issue the fetch of a line for a thread (R570). -/
def State.fetchLine (s : State) (core t line : Nat) : State :=
  let r := s.resolve (s.corePart core) (some core) line false
  let f : Fetch :=
    { line := line, bytes := wholeBytes (s.localBytes core t line 32)
      loc := match r with | .ok l => some l | .error _ => none
      fault := match r with | .ok _ => none | .error e => some e }
  let s := (s.modTh core t fun x => { x with fetching := x.fetching ++ [f] }).tlbUse core line
  match r with
  | .ok (.remote c o) => s.remoteRead (s.corePart core) c o 32 (.fetch core t)
  | .error (.host b) => s.faultRecord (s.corePart core) core line (.host b)
  | _ => s

/-- Load a start request into a thread (R105). Its first line is fetched at once (R570). -/
def State.startThread (s : State) (core t : Nat) (r : StartReq) : State :=
  let x : Thread :=
    { st := .ready, pc := r.pc, endCtr := r.endCtr, host := r.host, epi := r.epi, seed := r.seed, since := s.aclk
      sregs := ((List.range 4).map fun i => (i + 1, r.args.getD i 0 % 2 ^ 64)) }
  (s.setTh core t x).fetchLine core t (r.pc / 32 * 32)

/-- The lowest-numbered FREE thread of a slot (R105). -/
def State.freeThread (s : State) (core slot : Nat) : Option Nat :=
  (rangeFrom (16 * slot) 16).find? fun t => (s.th core t).st == .free

/-- A start request takes a FREE thread or waits (R105). -/
def State.startReq (s : State) (core slot : Nat) (r : StartReq) : State :=
  match s.freeThread core slot with
  | some t => s.startThread core t r
  | none => s.modCore core fun x => { x with starts := AMap.put slot (AMap.getD slot [] x.starts ++ [r]) x.starts }

/-- A fault ends a forme (R150): its claim counters' VALUEs go to their LIMITs, and the first fault gives status and detail. -/
def State.formeFault (s : State) (i status detail : Nat) : State :=
  let x := s.forme i
  if x.ending then s
  else
    let s := s.setForme i { x with ending := true, status := status, detail := detail }
    x.busy.foldl (fun s c => s.setValue c (s.limit c)) s

/-- A tile's number with its branch. -/
def Tile.code (x : Tile) : Nat := 8 * x.index + x.branch

/-- Change a tile that a core holds of forme i. -/
def State.modTile (s : State) (core i code : Nat) (g : Tile → Tile) : State :=
  { s with
    tiles := s.tiles.map fun (x : Tile) => if x.forme == i && x.core == core && x.code == code then g x else x }

/-- Set the phase of a tile of forme i. -/
def State.setTilePhase (s : State) (core i code : Nat) (ph : TilePhase) : State :=
  s.modTile core i code fun x => { x with phase := ph }

/-- An epilogue program ends (R160): its tile goes on to be written, or its forme ends. A tile whose program ended by a fault, and
not at END, is not written (log entry 39). -/
def State.epilogueEnd (s : State) (core i tile status : Nat) : State :=
  if status == 0 then
    s.setTilePhase core i tile .epilogueDone
  else
    let s := if status < 0x80 then
        { s with tiles := s.tiles.filter fun (x : Tile) => !(x.forme == i && x.core == core && x.code == tile) }
      else s.setTilePhase core i tile .epilogueDone
    if status == 0x09 || status == 0x0A || status == 0x0B then s.formeFault i status core
    else s.formeFault i 0x0F status

/-- Record a program end with a status other than 0 (R161, R162). -/
def State.progFault (s : State) (core t status pc : Nat) : State :=
  let pg := Pg.core core
  if s.f pg F.CORE_PROG_VALID == 1 then s
  else
    (((((s.setF pg F.CORE_PROG_STATUS status).setF pg F.CORE_PROG_THREAD t).raiseF pg F.CORE_PROG_VALID).setF pg
      F.CORE_PROG_PC_LO (pc % 2 ^ 32)).setF pg F.CORE_PROG_PC_HI (pc / 2 ^ 32)).event pg Ev.CORE_PROG_FAULT

/-- Requests that a thread's program still has at peers complete unseen. -/
def State.orphan (s : State) (core t : Nat) : State :=
  { s with canopy := { s.canopy with reqs := s.canopy.reqs.map fun (r : RemoteReq) =>
      if [RemoteWho.load core t, .fetch core t, .store core t].contains r.who then { r with who := .unit 0xFFFF } else r } }

/-- Thread t of a core issues an instruction (R106). -/
def State.issued (s : State) (core t : Nat) : State := s.modCore core fun x => { x with last := AMap.put (t / 16) t x.last }

/-- A program ends (R161): the thread becomes FREE, the counter that START named is added to, the host entry or the forme is
told, and the oldest waiting start request of the slot takes the thread. -/
def State.endProgram (s : State) (core t status : Nat) : State :=
  let x := s.th core t
  let s := if x.st == .ready then s.issued core t else s
  let s := (s.setTh core t {}).orphan core t
  let s := match x.endCtr with
    | some c => s.opAdd c 1
    | none => s
  let s := match x.epi with
    | some (i, tile) => s.epilogueEnd core i tile status
    | none => if status == 0 then s else s.progFault core t status x.pc
  let s := match x.host with
    | some r => s.endEntry r status t
    | none => s
  match AMap.getD (t / 16) [] (s.core core).starts with
  | [] => s
  | r :: rs => (s.modCore core fun y => { y with starts := AMap.put (t / 16) rs y.starts }).startThread core t r

/-- A thread's access faults by R75: the record, then the end of the program with the fault's status. After a failed host read, or an
error found in storage, the thread does not go on (R90). -/
def State.threadFault (s : State) (core t addr : Nat) (f : AccFault) : State :=
  match f with
  | .host _ | .damaged _ _ => (s.faultRecord (s.corePart core) core addr f).modTh core t fun x => { x with st := .waitMem }
  | _ => (s.faultRecord (s.corePart core) core addr f).endProgram core t f.status

/-! ### The end of a forme (R149, R153) -/

/-- The completion record (R153). -/
def Forme.record (x : Forme) (status endTime : Nat) : List Byte :=
  toBytes 4 (status + x.opcode * 2 ^ 8 + x.slot * 2 ^ 16) ++ toBytes 4 x.tilesDone ++ toBytes 4 x.tilesTotal ++
  toBytes 4 x.detail ++ toBytes 8 x.startTime ++ toBytes 8 endTime

/-- A forme that ends with an error is recorded on the cores that ran or declined its tiles (R162, R163). -/
def State.formeError (s : State) (core status opcode slot : Nat) : State :=
  let pg := Pg.core core
  let s := s.event pg Ev.CORE_FORME_ERROR
  if s.f pg F.CORE_FORME_VALID == 1 then s
  else (((s.setF pg F.CORE_FORME_STATUS status).setF pg F.CORE_FORME_OPCODE opcode).setF pg F.CORE_FORME_SLOT slot).raiseF
    pg F.CORE_FORME_VALID

/-- Step 1 of R149: the gradient counts of the watch, for the opcodes that use LAYER (R263, R350, R433), FIRST_OOR of GATHER
and SCATTER (R234), and BUSY of the sequences with accepted rows (R312). -/
def State.endStep1 (s : State) (i : Nat) (x : Forme) : State :=
  let s :=
    if x.train && (x.slot == 1 || x.slot == 2) && (x.st == .running || x.opcode == 0) && x.opcode < 0x10 then
      s.modLayer x.part x.layer fun b =>
        entryField 144 1 (fun _ => 1) (entryField 64 64 (fun v => satAdd 64 v x.gradZero)
          (entryField 0 64 (fun v => satAdd 64 v x.gradElems) b))
    else s
  let s :=
    if (x.opcode == 0x0C || x.opcode == 0x0D) && x.st == .running && x.aux != 0 then
      (s.storeRec x.part (0x100 + x.planner) none ((x.aux + 0x10) % 2 ^ 64) (toBytes 4 (x.firstOor.getD 0xFFFFFFFF))
        (.ended i (0x100 + x.planner))).1
    else s
  x.busySeqs.foldl (fun s n =>
    let k := AMap.getD x.part {} s.kvs
    let q := AMap.getD n {} k.seqs
    { s with kvs := AMap.put x.part { k with seqs := AMap.put n { q with busy := q.busy - 1 } k.seqs } s.kvs }) s

/-- DETAIL of the completion record: of a fault the core, else the counts that the opcode keeps there (R150, R153, R232, R234,
R256, R312, R318). -/
def Forme.finalDetail (x : Forme) : Nat :=
  if x.ending then x.detail
  else if [0x05, 0x09, 0x0C, 0x0D].contains x.opcode then x.oor % 2 ^ 32
  else if x.opcode == 0x06 then x.refusedRows.length
  else if 0x18 ≤ x.opcode then x.entryBad
  else x.detail

/-- A write of forme i's end actions has not been accepted (R149). -/
def State.endWaits (s : State) (i : Nat) : Bool :=
  let mine (w : Writer) : Bool := match w with
    | .ended j _ => j == i
    | _ => false
  let away (w : RemoteWho) : Bool := match w with
    | .ended j _ => j == i
    | _ => false
  s.heldWrites.any (fun h => mine h.who) || s.canopy.reqs.any fun r => away r.who

/-- Step 2 of R149, once the writes of step 1 are complete: the completion record. It goes to STATUS_ADDR as it stands, whatever its
alignment (log entry 170). -/
def State.endStep2 (s : State) (i : Nat) : State :=
  match AMap.get? i s.formes with
  | none => s
  | some x =>
    if x.recorded || s.endWaits i then s
    else
      let s := s.setForme i { x with recorded := true }
      if x.statusAddr == 0 then s
      else (s.storeRec x.part (0x100 + x.planner) none x.statusAddr (x.record x.status s.power.time)
        (.ended i (0x100 + x.planner))).1

/-- Step 3 of R149, once the record is complete: the ADD to DONE_CTR, which takes place at every end (R148 does not name it), and the
host entry. The forme is no longer held. -/
def State.endStep3 (s : State) (i : Nat) : State :=
  match AMap.get? i s.formes with
  | none => s
  | some x =>
    if !x.recorded || s.endWaits i then s
    else
      let s := { s with formes := AMap.del i s.formes }
      let s := if x.doneEn && x.doneCtr < s.ctrsPer then s.opAddAlways (s.devCtr x.part x.doneCtr) x.doneAdd else s
      let s := match x.host with
        | some r => s.endEntry r x.status x.detail
        | none => s
      if x.status == 0 then s else x.took.foldl (fun s c => s.formeError c x.status x.opcode x.slot) s

/-- The end actions of R149 with a status, as far as they can be taken now; the claim counters are free (R146). A forme whose partition
is about to stop ends by that (R90). -/
def State.endForme (s : State) (i status : Nat) : State :=
  if s.hostStops.contains (s.forme i).part then s
  else
    let x := s.forme i
    let x := { x with detail := x.finalDetail }
    let s := { s with tiles := s.tiles.filter fun y => y.forme != i }.endStep1 i x
    ((s.setForme i { x with st := .ended, busy := [], status := status }).endStep2 i).endStep3 i

end Sys2Proof.Machine
end

