-- ==== Sys2Proof/Machine/Plan.lean ====
section
/-! DEFINITION. What a planner core computes: reading descriptors and blocks, the checks of matrix products, tile shapes, loop
orders, branch weights (R133, R137 to R144, R167 to R177, R220 to R222). -/

namespace Sys2Proof.Machine

/-- Why planning ends a forme: the status, the access fault to record, and whether pins had been dropped (R172). -/
structure PlanErr where
  status : Nat
  fault : Option (AccFault × Nat) := none
  relaxed : Bool := false
  /-- branches that R170 has planned before the one that fails (R181) -/
  made : Nat := 0

/-- BAD_DESCRIPTOR (R152). -/
def badDesc : PlanErr := { status := 0x06 }
/-- BAD_GRAFT. -/
def badGraft : PlanErr := { status := 0x08 }
/-- NO_FIT. -/
def noFit : PlanErr := { status := 0x0E }

/-- Fail with BAD_DESCRIPTOR unless a condition holds. -/
def want (b : Bool) : Except PlanErr Unit := if b then .ok () else .error badDesc

/-- Read a block at the alignment that its rule states, 1 where none does (R147 check 5; log entry 166). -/
def State.readBlock (s : State) (w : Acc) (a n align : Nat) : Except PlanErr (List Byte) :=
  if a % align != 0 then .error badDesc
  else match s.rd? w a n with
    | .ok b => .ok b
    | .error e => .error { status := e.1.status, fault := some e }

/-- Read and check a tensor descriptor with its companion (R131, R133). -/
def State.readDesc (s : State) (w : Acc) (a : Nat) : Except PlanErr TDesc := do
  let b ← s.readBlock w a 64 32
  let d := TDesc.parse b
  let c ← if d.scaled || d.zmap || d.sparse then s.readBlock w ((a + 64) % 2 ^ 64) 32 32 else .ok []
  let d := TDesc.parse (b ++ c)
  want d.ok
  pure d

/-- The compute extension of AUX, empty for AUX 0 (R139). -/
def State.readExt (s : State) (w : Acc) (aux : Nat) : Except PlanErr (List Byte) :=
  if aux == 0 then .ok [] else s.readBlock w aux 64 64

/-! ### Galley shares (R102) -/

/-- The shares that a programmed register gives the four slots, in units of 64 KiB, clamped in slot order. -/
def clampShares (v : Nat) : List Nat :=
  (List.range 4).foldl (fun (l : List Nat) i =>
    l ++ [min (bits v (4 * i) 4) (16 - l.foldl (· + ·) 0)]) []

/-- CORE_SLOT_GALLEY in force in a partition's overlay: the copy of the overlay (R65). -/
def State.galleyReg (s : State) (core : Nat) : Nat :=
  s.reg (Pg.core core * 4096 + 0x108 + 0x400 * ((s.part (s.corePart core)).overlay.code + 1))

/-- The share of a slot in use on a core, in bytes (R102, R103). -/
def State.shareOf (s : State) (core slot : Nat) : Nat :=
  65536 * (clampShares ((s.core core).shares.getD (s.galleyReg core))).getD slot 0

/-- The cores of a forme's core set, as device numbers. -/
def State.formeCores (s : State) (x : Forme) : List Nat := rangeFrom (s.coresPer * x.part + x.coreFirst) x.coreCount

/-- The smallest share of the forme's slot among the cores of its set. -/
def State.minShare (s : State) (x : Forme) : Nat :=
  (s.formeCores x).foldl (fun n c => min n (s.shareOf c x.slot)) (2 ^ 20)

/-! ### Hints (R171) -/

def Forme.hintM (x : Forme) : Nat := bits x.hints 0 2
def Forme.hintN (x : Forme) : Nat := bits x.hints 2 2
def Forme.hintK (x : Forme) : Nat := bits x.hints 4 3
def Forme.hintOrder (x : Forme) : Nat := bits x.hints 7 2
def Forme.exactPins (x : Forme) : Bool := bit x.hints 9
def Forme.weightsFixed (x : Forme) : Bool := bit x.hints 10
def Forme.reuse (x : Forme) : Bool := bit x.hints 11
/-- Codes that R171 refuses. -/
def Forme.hintsOk (x : Forme) : Bool := x.hintK ≤ 4 && bits x.hints 12 4 == 0

/-! ### Footprint and shape (R169, R170, R172) -/

def r256 (n : Nat) : Nat := ceilDiv n 256 * 256
def r64 (n : Nat) : Nat := ceilDiv n 64 * 64

/-- Footprint of a candidate (R169). -/
def Plan.footprint (p : Plan) (conv accum : Bool) (mt nt kc : Nat) : Nat :=
  let a := p.dA
  let b := p.dB
  let bs (d : TDesc) : Nat := 8 * 2 ^ d.block
  let eacc := if p.mode == .chain64 then 8 else 4
  let na := mt * kc * elemBits a.fmt / 8 + (if a.scaled then ceilDiv (mt * kc) (bs a) else 0) +
    (if a.zmap && !conv then ceilDiv (mt * kc) 4096 else 0)
  let nb := (if b.sparse then kc / 2 * nt * elemBits b.fmt / 8 + kc * nt / 8 else kc * nt * elemBits b.fmt / 8) +
    (if b.scaled then ceilDiv (kc * nt) (bs b) else 0)
  let r := p.rank
  2 * r256 na + 2 * r256 nb + 2 * r256 (mt * nt * eacc) +
  (if accum then r256 (mt * nt * elemBits p.dC.fmt / 8) else 0) +
  (if p.ext.bias != 0 then r256 (nt * 4) else 0) +
  (if p.graftBytes.isEmpty then 0 else
    2 * r256 (kc * r * elemBits p.dL.fmt / 8) + 2 * r256 (mt * r * 4) + 2 * r256 (r * nt * elemBits p.dR.fmt / 8))

/-- The pairs of R170 in order. -/
def tilePairs : List (Nat × Nat) := [(256, 256), (256, 128), (128, 256), (128, 128), (128, 64), (64, 128), (64, 64)]

/-- Choose a tile shape (R170); `pins` are Mt, Nt and Kc, 0 where free. -/
def Plan.choose (p : Plan) (conv accum : Bool) (c pass1 pass2 share : Nat) (pins : Nat × Nat × Nat) :
    Option (Nat × Nat × Nat) :=
  let pairs := tilePairs.filter fun x => (pins.1 == 0 || x.1 == pins.1) && (pins.2.1 == 0 || x.2 == pins.2.1)
  [pass1 * c, pass2 * c, 0].findSome? fun need =>
    pairs.findSome? fun x =>
      if p.batch * ceilDiv p.m x.1 * ceilDiv p.n x.2 < need then none
      else [512, 256, 128, 64].findSome? fun kc =>
        if r64 p.kk < kc then none
        else if pins.2.2 != 0 && kc != pins.2.2 then none
        else if p.footprint conv accum x.1 x.2 kc ≤ share then some (x.1, x.2, kc) else none

/-- The loop order (R173). -/
def loopOrder (hint tm tn : Nat) : Nat :=
  if hint != 0 then hint else if 8 ≤ tm && 8 ≤ tn then 3 else if tn ≤ tm then 1 else 2

/-- Give a checked product its shape, loop order and tile count (R167, R170, R172, R173). -/
def Plan.shape (p : Plan) (x : Forme) (conv accum : Bool) (c pass1 pass2 share : Nat) : Except PlanErr Plan :=
  let pin (h : Nat) : Nat := if h == 0 then 0 else 32 * 2 ^ h
  let pins := (pin x.hintM, pin x.hintN, pin x.hintK)
  let fin (s : Nat × Nat × Nat) (relaxed : Bool) : Plan :=
    let tm := ceilDiv p.m s.1
    let tn := ceilDiv p.n s.2.1
    { p with mt := s.1, nt := s.2.1, kc := s.2.2, order := loopOrder x.hintOrder tm tn, relaxed := relaxed
             tiles := p.batch * tm * tn, foot := p.footprint conv accum s.1 s.2.1 s.2.2 }
  match p.choose conv accum c pass1 pass2 share pins with
  | some s => .ok (fin s false)
  | none =>
    if pins == (0, 0, 0) || x.exactPins then .error noFit
    else match p.choose conv accum c pass1 pass2 share (0, 0, 0) with
      | some s => .ok (fin s true)
      | none => .error { noFit with relaxed := true }

/-- The block of tile i (R174): batch index, block row and block column. -/
def Plan.tileBlock (p : Plan) (i : Nat) : Nat × Nat × Nat :=
  let tm := ceilDiv p.m p.mt
  let tn := ceilDiv p.n p.nt
  let j := i % (tm * tn)
  let bt := i / (tm * tn)
  if p.order == 1 then (bt, j / tn, j % tn)
  else if p.order == 2 then (bt, j % tm, j / tm)
  else
    let band := j / (4 * tn)
    let h := min 4 (tm - 4 * band)
    let q := j - 4 * tn * band
    (bt, 4 * band + q % h, q / h)

/-! ### Checks of matrix products -/

/-- Formats that C may have (R140). -/
def outFmt (f : Nat) : Bool := elemBits f != 0 && !([0x02, 0x03, 0x0B, 0x0C].contains f)

/-- Read the bias descriptor (R139): rank 1, PLAIN, at least n elements; an empty descriptor where there is none. -/
def State.readBias (s : State) (w : Acc) (a n : Nat) : Except PlanErr TDesc :=
  if a == 0 then .ok {} else do
    let d ← s.readDesc w a
    want (d.rankM1 == 0 && n ≤ d.p 0 && d.layout == 0 && !d.zmap && !d.sparse && !d.scaled)
    pure d

/-- Read a graft's descriptor and its factors for check 5 of R147, with whether they pass check 6, which is R142; `k` and `n` are those
of the product. -/
def State.readGraft (s : State) (w : Acc) (a k n : Nat) : Except PlanErr (List Byte × TDesc × TDesc × Bool) := do
  let b ← s.readBlock w a 32 32
  let l ← s.readDesc w (fieldAt b 0 8)
  let r ← s.readDesc w (fieldAt b 8 8)
  let rank := bits (fieldAt b 0x14 4) 16 8
  want (!l.scaled && !r.scaled && !l.zmap && !r.zmap && !l.sparse && !r.sparse && l.p 2 == 1 && r.p 2 == 1 &&
    l.p 3 == 1 && r.p 3 == 1 && n ≤ r.p 0 && (64 < rank || rank ≤ l.p 0))
  pure (b, l, r, 1 ≤ rank && rank ≤ 64 && l.fmt == r.fmt && [0x07, 0x06, 0x04, 0x05].contains l.fmt && l.p 1 == k && rank ≤ r.p 1)

/-- Check 5 of one matrix product (R137 to R142) from the addresses of A, B, C and the graft descriptor, with whether its graft passes
check 6. -/
def State.readMatmul (s : State) (w : Acc) (ext : List Byte) (aA aB aC aG : Nat) : Except PlanErr (Plan × Bool) := do
  let dA ← s.readDesc w aA
  let dB ← s.readDesc w aB
  let dC ← s.readDesc w aC
  want ((modeOf dA.fmt dB.fmt).isSome && outFmt dC.fmt && !dC.scaled && !dC.sparse && !dA.sparse && !dB.zmap)
  let short8 := modeOf dA.fmt dB.fmt == some .short8
  let short := short8 || modeOf dA.fmt dB.fmt == some .short16
  want ((short8 || (!dA.scaled && !dB.scaled)) && (short || !dB.sparse))
  want (dA.p 0 == dB.p 1 && dC.v 1 ≤ dA.p 1 && dC.v 0 ≤ dB.p 0 && dA.p 3 == 1 && dB.p 3 == 1 && dC.p 3 == 1 &&
    (dA.p 2 == dC.v 2 || dA.p 2 == 1) && (dB.p 2 == dC.v 2 || dB.p 2 == 1))
  let e := Ext.parse ext
  let bias ← s.readBias w e.bias (dC.v 0)
  let base : Plan := { m := dC.v 1, n := dC.v 0, kk := dA.p 0, batch := dC.v 2, descs := [dA, dB, dC, bias]
                       blocks := if ext.isEmpty then [] else [(0, ext)] }
  if aG == 0 then pure (base, true) else do
    let g ← s.readGraft w aG (dA.p 0) (dC.v 0)
    pure ({ base with descs := [dA, dB, dC, bias, g.2.1, g.2.2.1], blocks := AMap.put 1 g.1 base.blocks }, g.2.2.2)

/-- Shapes of branches with their balance core counts, in order; what has been dropped of pins stands in a refusal too (R172). -/
def shapeAll (x : Forme) (pass1 pass2 share : Nat) : List (Plan × Nat) → Except PlanErr (List Plan)
  | [] => .ok []
  | (p, c) :: rest =>
    match p.shape x (x.opcode == 0x03) (bit x.variant 0) c pass1 pass2 share with
    | .error e => .error e
    | .ok q =>
      match shapeAll x pass1 pass2 share rest with
      | .error e => .error { e with relaxed := e.relaxed || q.relaxed, made := e.made + 1 }
      | .ok l => .ok (q :: l)

/-- Checks 6 to 8 of matrix products that have passed check 5 (R142, R147, R170). -/
def planProducts (x : Forme) (pass1 pass2 share : Nat) (l : List ((Plan × Bool) × Nat)) : Except PlanErr (List Plan) :=
  if l.any fun p => !p.1.2 then .error badGraft
  else if share == 0 then .error { status := 0x01 }
  else shapeAll x pass1 pass2 share (l.map fun p => (p.1.1, p.2))

/-- Plan MATMUL (R137 to R142). -/
def State.planMatmul (s : State) (w : Acc) (x : Forme) (pass1 pass2 share : Nat) : Except PlanErr (List Plan) := do
  want x.hintsOk
  let ext ← s.readExt w x.aux
  let p ← s.readMatmul w ext (x.opd 0) (x.opd 1) (x.opd 2) (Ext.parse ext).graft
  planProducts x pass1 pass2 share [(p, x.coreCount)]

/-- Plan a convolution (R220 to R222). -/
def State.planConv (s : State) (w : Acc) (x : Forme) (pass1 pass2 share : Nat) : Except PlanErr (List Plan) := do
  want (x.hintsOk && x.aux != 0)
  let ext ← s.readExt w x.aux
  let blk ← s.readBlock w ((x.aux + 0x40) % 2 ^ 64) 32 1
  let win := Window.parse blk
  want (win.ok true)
  let dX ← s.readDesc w (x.opd 0)
  let dW ← s.readDesc w (x.opd 1)
  let dY ← s.readDesc w (x.opd 2)
  let e := Ext.parse ext
  want ((modeOf dX.fmt dW.fmt).isSome && outFmt dY.fmt && dX.layout == 0 && !dX.scaled && !dX.zmap && !dX.sparse &&
    !dY.scaled && !dY.sparse && !dW.zmap)
  let short8 := modeOf dX.fmt dW.fmt == some .short8
  let short := short8 || modeOf dX.fmt dW.fmt == some .short16
  want ((short8 || !dW.scaled) && (short || !dW.sparse))
  want (dX.v 0 % win.groups == 0 && dY.v 0 % win.groups == 0 && dY.v 3 == dX.v 3 && dW.p 3 == 1 && dW.p 2 == win.groups)
  let cg := dX.v 0 / win.groups
  let n := dY.v 0 / win.groups
  let k := win.kh * win.kw * cg
  want (k < 2 ^ 31 && n ≤ dW.p 0 && k ≤ dW.p 1)
  let bias ← s.readBias w e.bias n
  let p : Plan := { m := dY.v 1 * dY.v 2 * dY.v 3, n := n, kk := k, batch := win.groups, descs := [dX, dW, dY, bias]
                    blocks := (if ext.isEmpty then [] else [(0, ext)]) ++ [(2, blk)] }
  planProducts x pass1 pass2 share [((p, e.graft == 0), x.coreCount)]

/-! ### Branches (R175) -/

/-- Balance core counts of branches with weights tb × M × N × K (R175); 1 each where every weight is 0 (log entry 167). -/
def balance (c : Nat) (w : List Nat) : List Nat :=
  let total := w.foldl (· + ·) 0
  w.map fun x => max 1 (ceilDiv (c * x) total)

/-- WEIGHTs of the branches (R175); 1 each where every cost is 0 (log entry 167). -/
def branchWeights (ps : List Plan) : List Nat :=
  let cost (p : Plan) : Nat :=
    p.tiles * ceilDiv (p.mt * p.nt * p.kk) 4096 * (if p.dB.sparse then p.mode.cost / 2 else p.mode.cost)
  let top := ps.foldl (fun n p => max n (cost p)) 1
  ps.map fun p => max 1 (ceilDiv (255 * cost p) top)

/-- Plan the branches of a GMATMUL (R144, R175): each check of R147 is made of every branch before the next check. No rule states
an alignment of the branch table (log entry 166). -/
def State.planGmatmul (s : State) (w : Acc) (x : Forme) (pass1 pass2 share : Nat) : Except PlanErr (List Plan) := do
  want x.hintsOk
  let ext ← s.readExt w x.aux
  let tbl ← s.readBlock w (x.opd 0) (32 * x.branches) 1
  let entry (b o : Nat) : Nat := fieldAt tbl (32 * b + o) 8
  let l ← (List.range x.branches).mapM fun b => s.readMatmul w ext (entry b 0) (entry b 8) (entry b 16) (entry b 24)
  planProducts x pass1 pass2 share (l.zip (balance x.coreCount (l.map fun p => p.1.batch * p.1.m * p.1.n * p.1.kk)))

/-- Code of a tile edge in HINTS and PLAN_LAST (R171): 1, 2, 3 for 64, 128, 256. -/
def edgeCode (n : Nat) : Nat := if n == 0 then 0 else Nat.log2 n - 5

/-- The chunks that a tile is staged in (R169, R119). -/
def Plan.chunkCount (p : Plan) (x : Forme) : Nat := if x.opcode ≤ 0x03 then max 1 (ceilDiv p.kk p.kc) else 1

/-- The plan of a tile. -/
def Forme.planOf (x : Forme) (t : Tile) : Plan := x.plans.getD t.branch {}

end Sys2Proof.Machine
end

