-- ==== Sys2Proof/Machine/Cambium.lean ====
section
/-! DEFINITION. The update engine: arming an update, its blocks and their arithmetic, and the squared norm (R269 to R288). -/

namespace Sys2Proof.Machine

/-! ### The update extension and table (R271 to R273) -/

namespace Update
def step (u : Update) : Nat := fieldAt u.ext 8 4
def seed (u : Update) : Nat := fieldAt u.ext 0 8
def group (u : Update) : Nat := fieldAt u.ext 0x0E 2
def beta1 (u : Update) : Nat := fieldAt u.ext 0x10 4
def beta2 (u : Update) : Nat := fieldAt u.ext 0x14 4
def gradScale (u : Update) : Nat := fieldAt u.ext 0x18 4
def normCeil (u : Update) : Nat := fieldAt u.ext 0x20 4
def tokens (u : Update) : Nat := fieldAt u.ext 0x24 4
def samples (u : Update) : Nat := fieldAt u.ext 0x28 4
/-- TIMEOUT_MS in ns, 0 acting as 60,000 ms. -/
def timeout (u : Update) : Nat :=
  let t := fieldAt u.ext 0x2C 2
  1000000 * (if t == 0 then 60000 else t)
/-- Every entry has received its blocks. -/
def full (u : Update) : Bool := u.entries.all fun e => e.elems ≤ e.received
/-- The blocks expected (R299). -/
def blocks (u : Update) : Nat := u.entries.foldl (fun n e => n + e.elems / 64) 0
end Update

/-- A descriptor with ALT_OFFSET added to its bases (R272). -/
def TDesc.alt (d : TDesc) (off : Nat) : TDesc :=
  { d with base := (d.base + off) % 2 ^ 64, scaleBase := (d.scaleBase + off) % 2 ^ 64 }

/-- A vector of n elements in the plain layout (R273). -/
def TDesc.shard (d : TDesc) (n : Nat) : Bool := d.rankM1 == 0 && d.layout == 0 && d.p 0 == n && d.v 0 == n

/-- The form BLOCK 3, SHARE 0, SCALE_FMT 0 with SCALED (R189). -/
def TDesc.block64 (d : TDesc) : Bool := d.scaled && d.block == 3 && d.share == 0 && d.scaleFmt == 0

/-- Unscaled, and not sparse. -/
def TDesc.bare (d : TDesc) : Bool := !d.scaled && !d.sparse

/-- Formats that R273 accepts for weights, momentum and the compute copy. -/
def weightForm (d : TDesc) : Bool := (d.fmt == 0x0A && d.block64) || (d.fmt == 0x08 && d.bare)
def momentumForm (d : TDesc) : Bool := (d.fmt == 0x04 && d.block64) || ((d.fmt == 0x07 || d.fmt == 0x08) && d.bare)
def copyForm (d : TDesc) : Bool :=
  ((d.fmt == 0x07 || d.fmt == 0x06 || d.fmt == 0x05) && d.bare) || (d.fmt == 0x04 && (d.bare || d.block64))

/-- A range of thread addresses translates to STACK or BULK everywhere. -/
def State.inFrames (s : State) (p a n : Nat) : Bool :=
  (pieces a n).all fun x => match s.resolve p none x.1 false with
    | .ok (.phys _ _) => true
    | _ => false

/-- A shard's buffers, its scale codes with it, translate to STACK or BULK. -/
def State.shardInFrames (s : State) (p : Nat) (d : TDesc) : Bool :=
  s.inFrames p d.base (d.p 0 * (elemBits d.fmt / 8)) && (!d.scaled || s.inFrames p d.scaleBase (ceilDiv (d.p 0) 64))

/-- Read and check one entry of the update table (R273). -/
def State.readUpdEntry (s : State) (w : Acc) (a : Nat) : Except PlanErr UpdEntry := do
  let b ← s.readBlock w a 64 64
  let n := fieldAt b 0x34 4
  want (n != 0 && n % 64 == 0)
  let dw ← s.readDesc w (fieldAt b 0 8)
  let dm ← s.readDesc w (fieldAt b 8 8)
  let c := fieldAt b 0x10 8
  let dc ← if c == 0 then pure none else (s.readDesc w c).map some
  want (weightForm dw && dw.shard n && momentumForm dm && dm.shard n)
  want (match dc with
    | some d => copyForm d && d.shard n
    | none => true)
  let alt := fieldAt b 0x18 8
  let pp := bit (fieldAt b 0x30 4) 16
  let all := [dw, dm] ++ dc.toList
  want (all.all fun d => s.shardInFrames w.part d && (!pp || s.shardInFrames w.part (d.alt alt)))
  let j := fieldAt b 0x20 8
  want (j == 0 || s.inFrames w.part j (n / 8))
  pure { w := dw, m := dm, c := dc, alt := alt, journal := j, eta := fieldAt b 0x28 4, decay := fieldAt b 0x2C 4
         layer := bits (fieldAt b 0x30 4) 0 16, pingPong := pp, elems := n, current := bit (fieldAt b 0x38 1) 0 }

/-- A threshold that is in use: not 0, NaN or +Inf (R271). -/
def thresholdOn (c : Nat) : Bool :=
  match fp32.decode c with
  | .fin _ m _ => m != 0
  | .inf n => n
  | .nan => false

/-- The clip factor (R289). -/
def clipFactor (clipMax normPrev : Nat) (prevValid : Bool) : Nat :=
  if !thresholdOn clipMax || !prevValid || normPrev == 0 then 0x3F800000
  else
    let c := fp32.divN clipMax (fp32.sqrtN normPrev)
    if Num.lt (fp32.decode 0x3F800000) (fp32.decode c) then 0x3F800000 else c

/-- Check 5 of R147 for UPDATE: the update that the forme would arm. -/
def State.planUpdate (s : State) (w : Acc) (x : Forme) (i : Nat) : Except PlanErr Update := do
  want (x.aux != 0)
  let ext ← s.readBlock w x.aux 64 1
  let n := fieldAt ext 0x0C 2
  want (n != 0 && x.opd 0 % 64 == 0)
  let es ← (List.range n).foldlM (fun (l : List UpdEntry) e => do
    let r ← s.readUpdEntry w ((x.opd 0 + 64 * e) % 2 ^ 64)
    pure (l ++ [r])) []
  let pg := s.leadPage w.part
  pure { forme := i, table := x.opd 0, ext := ext, entries := es, since := s.power.time
         clip := clipFactor (fieldAt ext 0x1C 4) (s.f pg F.CAMBL_NORM_PREV) (s.f pg F.CAMBL_PREV_VALID == 1) }

/-- Units of a partition, as numbers. -/
def State.unitsOf (s : State) (p : Nat) : List Nat := rangeFrom (s.lead p) s.unitsPer

/-- Show in every unit of the partition, and in its lead, whether an update is armed and committing (R296, R297). -/
def State.showArmed (s : State) (p : Nat) (armed committing : Bool) : State :=
  let s := (s.unitsOf p).foldl (fun s u =>
    (s.setF (Pg.camb u) F.CAMB_ARMED (b2n armed)).setF (Pg.camb u) F.CAMB_COMMITTING (b2n committing)) s
  s.setF (s.leadPage p) F.CAMBL_ARMED (b2n armed)

/-- Arm the partition's units (R271, R274, R289). -/
def State.arm (s : State) (p : Nat) (u : Update) : State :=
  let s := s.modCamb p fun c => { c with upd := some u }
  (s.showArmed p true false).setF (s.leadPage p) F.CAMBL_CLIP_NOW u.clip

/-! ### Intake (R270, R277, R278) -/

/-- Blocks held by a unit's intake. -/
def Camb.held (c : Camb) (unit : Nat) : Nat := (c.intake.filter fun x => x.1 == unit).length

/-- Show INTAKE of a unit. -/
def State.showIntake (s : State) (p unit : Nat) : State := s.setF (Pg.camb unit) F.CAMB_INTAKE ((s.camb p).held unit)

/-- The unit that applies a block (R270). -/
def State.blockUnit (s : State) (b : GradBlock) : Nat := s.lead b.part + (b.block + b.entry) % s.unitsPer

/-- A block is dropped as an overrun, or discarded while no update is armed (R275, R277). -/
def State.overrun (s : State) (b : GradBlock) : State :=
  let pg := Pg.camb (s.blockUnit b)
  let s := s.satF pg F.CAMB_OVERRUN
  match (s.camb b.part).upd with
  | none => s
  | some u => (s.modCamb b.part fun c => { c with upd := some { u with overrun := true } }).event pg Ev.CAMB_SHARD_OVERRUN

/-- A block reaches its unit's intake (R277). -/
def State.blockArrives (s : State) (b : GradBlock) : State :=
  match (s.camb b.part).upd with
  | none => s.overrun b
  | some u =>
    match u.entries[b.entry]? with
    | none => s.overrun b
    | some e =>
      if e.elems ≤ 64 * b.block || e.elems ≤ e.received then s.overrun b
      else
        let unit := s.blockUnit b
        let u := { u with entries := u.entries.set b.entry { e with received := e.received + 64 } }
        (s.modCamb b.part fun c => { c with upd := some u, intake := c.intake ++ [(unit, { b with since := s.power.time })] }).showIntake b.part unit

/-- A block of the gradient stream has writes that wait for their page. -/
def State.blockHeld (s : State) (unit : Nat) (b : GradBlock) : Bool :=
  s.heldWrites.any fun h => h.part == b.part && h.who == .block unit b.entry b.block

/-- Disarm the update (R274, R294): its intakes are emptied, the blocks in them discarded, those whose writes still wait for a page among
them, and counted (R275, R278; at a stop too, log entry 208). -/
def State.disarm (s : State) (p : Nat) : State :=
  let c := s.camb p
  let s := (c.intake.filter fun x => !x.2.applied || s.blockHeld x.1 x.2).foldl (fun s x => s.satF (Pg.camb x.1) F.CAMB_OVERRUN) s
  let s := { s with heldWrites := s.heldWrites.filter fun h => h.part != p || !(match h.who with
    | .block _ _ _ => true
    | _ => false) }
  let s := s.modCamb p fun c => { c with upd := none, intake := [] }
  (s.unitsOf p).foldl (fun s u => s.showIntake p u) (s.showArmed p false false)

/-- An abort of the armed update (R275): no commit, and the UPDATE forme ends with UPDATE_ABORTED. -/
def State.abortUpdate (s : State) (p : Nat) : State :=
  match (s.camb p).upd with
  | none => s
  | some u =>
    if u.committing then s
    else
      let s := s.modForme u.forme fun x => { x with tilesTotal := u.blocks, tilesDone := u.applied }
      ((s.disarm p).endForme u.forme 0x2D).event (s.leadPage p) Ev.CAMB_UPDATE_ABORTED

/-- A forme ends (R149); a COLLECTIVE with TO_CAMBIUM or LOCAL_GRAD that does not end OK aborts an armed update (R275). -/
def State.finishForme (s : State) (i status : Nat) : State :=
  let x := s.forme i
  let s := s.endForme i status
  if status != 0 && x.opcode == 0x10 && (bit x.variant 6 || bit x.variant 7) then s.abortUpdate x.part else s

/-! ### Arithmetic of one block (R280 to R285) -/

/-- FP32 1.0 and the opposite code. -/
def negCode (c : Nat) : Nat := if bit c 31 then c - 2 ^ 31 else c + 2 ^ 31

/-- Whether a code is finite. -/
def finite32 (c : Nat) : Bool := match fp32.decode c with
  | .fin _ _ _ => true
  | _ => false

/-- Add the square of an FP32 value exactly (R288). -/
def SqSum.add (x : SqSum) (c : Nat) : SqSum :=
  match fp32.decode c with
  | .nan => { x with nan := true }
  | .inf _ => { x with inf := true }
  | .fin _ m e => { x with v := x.v + m * m * 2 ^ (2 * e + 298).toNat }

def SqSum.value (x : SqSum) : Num := if x.nan then .nan else if x.inf then .inf false else .fin false x.v (-298)

/-- What an element of a block gives: the gradient for the sum, whether it counts as non-finite, the journal bit and m_new
(R280). -/
structure BlockElem where
  g : Nat
  nonfinite : Bool
  bit : Bool
  mNew : Nat

/-- R280 for one element. -/
def Update.elemStep (u : Update) (gIn m : Nat) : BlockElem :=
  let omb1 := fp32.subN 0x3F800000 u.beta1
  let omb2 := fp32.subN 0x3F800000 u.beta2
  let g := fp32.mulN u.gradScale gIn
  let bad := !finite32 g
  let g' := if bad then 0 else g
  let cg := fp32.mulN u.clip g'
  let v := fp32.fmaN omb1 cg (fp32.mulN u.beta1 m)
  { g := g, nonfinite := bad, bit := Machine.bit v 31, mNew := fp32.fmaN omb2 cg (fp32.mulN u.beta2 m) }

/-- d × x for the direction bit. -/
def signed32 (neg : Bool) (x : Nat) : Nat := if neg then negCode x else x

/-- A rescaled block of mantissas (R282): code, mantissas, and which of up, down, saturated happened. -/
structure Rescaled where
  code : Nat
  mant : List Int
  up : Bool := false
  down : Bool := false
  sat : Bool := false

/-- n / 2^s to nearest even. -/
def shrNear (n : Int) (s : Nat) : Int := (Num.toInt .near (n < 0) n.natAbs (-Int.ofNat s)).1

def inInt16 (n : Int) : Bool := -32768 ≤ n && n ≤ 32767

/-- The least s from `k` on for which the block fits. -/
def growBy (ns : List Int) : Nat → Nat → Nat
  | 0, k => k
  | fuel + 1, k => if ns.all fun n => inInt16 (shrNear n k) then k else growBy ns fuel (k + 1)

/-- R282. -/
def rescale (cb : Nat) (ns : List Int) : Rescaled :=
  if ns.all inInt16 then
    if 1 ≤ cb && ns.all (fun n => n.natAbs < 8192) then { code := cb - 1, mant := ns.map (2 * ·), down := true }
    else { code := cb, mant := ns }
  else
    let k := growBy ns 256 1
    if 254 < cb + k then
      { code := 254, mant := ns.map (fun n => max (-32768) (min 32767 (shrNear n (254 - cb)))), sat := true }
    else { code := cb + k, mant := ns.map (shrNear · k), up := true }

/-- The largest magnitude of finite values, and whether one is not finite. -/
def largest (l : List Num) : Num × Bool :=
  (l.foldl (fun b x => match x with
    | .fin _ _ _ => if Num.lt b x.abs then x.abs else b
    | _ => b) Num.zero,
   l.any fun x => match x with
    | .fin _ _ _ => false
    | _ => true)

/-- The scale code of a block of FP8_E4M3 (R284); for a block with a value that is not finite the spec states none, and the code
is the open value `o` (log entry 9). -/
def fp8Code (l : List Num) (o : Nat) : Nat :=
  let a := largest l
  if a.2 then o % 256
  else match a.1 with
    | .fin _ m e => if m == 0 then 0 else min 254 (max 0 (leadExp m e + 120)).toNat
    | _ => 0

/-- x divided by the scale of a code. -/
def unscale (x : Num) (code : Nat) : Num :=
  match x with
  | .fin n m e => .fin n m (e + 127 - Int.ofNat code)
  | y => y

/-- The purpose word c2 of an update's random word (R287). -/
def updC2 (site entry : Nat) : Nat := 2 + site * 2 ^ 8 + entry % 2 ^ 16 * 2 ^ 16

/-- New weights of a block of elements (R281 to R283): codes, scale code if INT16, exact values, and what happened. -/
structure NewWeights where
  codes : List Nat
  scale : Option Nat
  values : List Num
  nonzero : Bool
  up : Bool := false
  down : Bool := false
  sat : Bool := false

/-- INT16 weights with block code cb (R281, R282); a step that is not a number moves nothing, and an infinite one is the open
value of `opens` on (log entry 9). -/
def int16Step (e : UpdEntry) (words : List Nat) (cb : Nat) (ms : List Int) (dirs : List Bool) (opens : Nat) : NewWeights :=
  let q := fp32.near (match fp32.decode e.eta with
    | .fin n m x => .fin n m (x + 127 - Int.ofNat cb)
    | y => y)
  let ks := (List.range ms.length).map fun j =>
    let delta := negCode (fp32.fmaN e.decay (fp32.ofInt (ms.getD j 0)) (signed32 (dirs.getD j false) q))
    match fp32.decode delta with
    | .fin n m x => (Num.toInt (.stoch (words.getD j 0)) n m x).1
    | .nan => 0
    | .inf _ => Int.ofNat (Config.open (opens + j))
  let r := rescale cb (List.zipWith (· + ·) ms ks)
  { codes := r.mant.map (ux 16), scale := some r.code, up := r.up, down := r.down, sat := r.sat
    values := r.mant.map fun n => .fin (n < 0) n.natAbs (Int.ofNat r.code - 127), nonzero := ks.any (· != 0) }

/-- FP32 weights (R283). -/
def fp32Step (e : UpdEntry) (words ws : List Nat) (dirs : List Bool) : NewWeights :=
  let out := (List.range ws.length).map fun j =>
    let w := ws.getD j 0
    let t := fp32.fmaN e.decay w (signed32 (dirs.getD j false) e.eta)
    (convert 0x08 (.stoch (words.getD j 0)) false (Num.add .near (fp32.decode w) (fp32.decode t).opp).1).1
  { codes := out, scale := none, values := out.map fp32.decode, nonzero := out != ws }

/-- Codes of a block of values in a format, with the scale code where the descriptor is scaled (R284, R285). -/
def packBlock (d : TDesc) (vals : List Num) (rnd : Nat → Rnd) (o : Nat) : List Nat × Option Nat :=
  if d.scaled then
    let code := fp8Code vals o
    ((List.range vals.length).map fun j => (convert d.fmt (rnd j) false (unscale (vals.getD j .zero) code)).1, some code)
  else ((List.range vals.length).map fun j => (convert d.fmt (rnd j) false (vals.getD j .zero)).1, none)

/-- Momentum of a block: a block of zeros is written as such, whatever their signs (R284). -/
def packMomentum (d : TDesc) (vals : List Num) (rnd : Nat → Rnd) (o : Nat) : List Nat × Option Nat :=
  if d.scaled && vals.all (fun v => match v with
      | .fin _ m _ => m == 0
      | _ => false) then (vals.map fun _ => 0, some 0)
  else packBlock d vals rnd o

/-! ### Applying a block (R270, R280, R286) -/

/-- Write the elements of a block and its scale code. -/
def State.writeShard (s : State) (w : Acc) (d : TDesc) (i0 : Nat) (codes : List Nat) (scale : Option Nat) :
    State × Option (AccFault × Nat) :=
  match s.writeRow w d i0 0 0 0 codes with
  | (s, some e) => (s, some e)
  | (s, none) => match scale with
    | some c => s.wr w (d.scaleAddr i0 0 0 0) [BitVec.ofNat 8 c]
    | none => (s, none)

/-- What a unit counts of a block's new weights (R279, R280, R297). -/
def State.countWeights (s : State) (unit : Nat) (nw : NewWeights) : State :=
  let pg := Pg.camb unit
  let s := if nw.up then s.incF pg F.CAMB_RESCALE_UP else s
  let s := if nw.down then s.incF pg F.CAMB_RESCALE_DOWN else s
  if nw.sat then (s.satF pg F.CAMB_SATURATED).event pg Ev.CAMB_BLOCK_SATURATED else s

/-- A unit applies a block (R280 to R287). A read or write that faults by R75 writes its record and the rest of the block is
not written (log entry 29). -/
def State.applyBlock (s : State) (unit : Nat) (b : GradBlock) (u : Update) (e : UpdEntry) : State :=
  let p := b.part
  let w : Acc := { part := p, core := none, who := .block unit b.entry b.block }
  let i0 := 64 * b.block
  let src (d : TDesc) : TDesc := if e.pingPong && e.current then d.alt e.alt else d
  let dst (d : TDesc) : TDesc := if e.pingPong && !e.current then d.alt e.alt else d
  let dw := src e.w
  let dm := src e.m
  let reads := dw.blockRanges i0 (i0 + 64) 0 1 0 0 ++ dm.blockRanges i0 (i0 + 64) 0 1 0 0
  let pg := Pg.camb unit
  match s.firstFault w reads false with
  | some f => s.faultRecord p (0x300 + unit) f.2 f.1
  | none =>
    let idx := rangeFrom i0 64
    let ms := idx.map fun i => fp32.near (s.elem w dm i 0 0 0)
    let gs := b.codes.map fun c => if b.fp32 then c else fp32.near (bf16.decode c)
    let es := (List.range 64).map fun j => u.elemStep (gs.getD j 0) (ms.getD j 0)
    let word (site j : Nat) : Nat := randWord u.seed (i0 + j) (updC2 site b.entry) u.step
    let dirs := es.map fun x => x.bit
    let words := (List.range 64).map (word 0)
    let nw :=
      if dw.fmt == 0x0A then
        int16Step e words (s.rd w (dw.scaleAddr i0 0 0 0) 1) (idx.map fun i => sx 16 (s.elemCode w dw i 0 0 0)) dirs s.opens
      else fp32Step e words (idx.map fun i => s.elemCode w dw i 0 0 0) dirs
    let mv := es.map fun x => fp32.decode x.mNew
    let mw := if dm.fmt == 0x08 then (es.map fun x => x.mNew, none)
      else packMomentum dm mv (fun j => .stoch (word 1 j)) (Config.open (s.opens + 64))
    let cw := e.c.map fun d => (d, packBlock d nw.values (fun _ => .near) (Config.open (s.opens + 65)))
    let s := { s with opens := s.opens + 66 }
    let bad := (es.filter fun x => x.nonfinite).length
    let r := s.writeShard w (dst e.w) i0 nw.codes nw.scale
    let r := match r.2 with
      | some _ => r
      | none => r.1.writeShard w (dst e.m) i0 mw.1 mw.2
    let r := match r.2, cw with
      | none, some c => r.1.writeShard w (dst c.1) i0 c.2.1 c.2.2
      | _, _ => r
    let r := match r.2 with
      | none =>
        if e.journal == 0 then r
        else r.1.wr w ((e.journal + i0 / 8) % 2 ^ 64)
          (toBytes 8 ((List.range 64).foldl (fun n j => n + b2n (dirs.getD j false) * 2 ^ j) 0))
      | some _ => r
    let s := match r.2 with
      | some f => r.1.faultRecord p (0x300 + unit) f.2 f.1
      | none => r.1
    let s := s.incF2 pg F.CAMB_BLOCKS_LO F.CAMB_BLOCKS_HI
    let s := s.countWeights unit nw
    let s := if bad == 0 then s else (s.satF pg F.CAMB_NONFINITE bad).event pg Ev.CAMB_GRAD_NONFINITE
    s.modCamb p fun c =>
      { c with
        upd := some { u with
          entries := u.entries.set b.entry { e with nonzero := e.nonzero || nw.nonzero }
          sum := es.foldl (fun n x => n.add x.g) u.sum
          nonfinite := u.nonfinite + bad
          up := u.up + b2n nw.up
          down := u.down + b2n nw.down
          sat := u.sat + b2n nw.sat
          applied := u.applied + 1 } }

/-- The oldest block of a unit's intake that has not been applied; of its partition. -/
def Camb.nextBlock (c : Camb) (unit : Nat) : Option GradBlock :=
  (c.intake.find? fun x => x.1 == unit && !x.2.applied).map fun x => x.2

/-- Mark the oldest block of a unit's intake that has not been applied. -/
def markApplied (unit : Nat) : List (Nat × GradBlock) → List (Nat × GradBlock)
  | [] => []
  | x :: t => if x.1 == unit && !x.2.applied then (unit, { x.2 with applied := true }) :: t else x :: markApplied unit t

/-- The partition that a unit serves. -/
def State.unitPart (s : State) (unit : Nat) : Nat := unit / s.unitsPer

/-- The class that a cambium unit's arbiter grants next: update blocks 0, arena spills 1 (R270, R429, R431). A block that waits for an
earlier one of its entry and index is not ready. -/
def State.cambPick (s : State) (unit : Nat) : Option Nat :=
  let c := s.camb (s.unitPart unit)
  let age (k since : Nat) : Nat := s.power.time - max since (AMap.getD (2 * unit + k) 0 c.grants)
  let blocks := match c.nextBlock unit with
    | some b => if s.blockHeld unit b then [] else [(0, 1, 1, age 0 b.since, 20000)]
    | none => []
  let spills := match c.spills.find? fun x => s.lead (s.unitPart unit) + x.unit == unit with
    | some x => [(1, 0, 1, age 1 x.since, 100000)]
    | none => []
  (arbitrate (blocks ++ spills) []).map fun r => r.1

/-- A grant of a unit's arbiter to a class. -/
def State.cambGrant (s : State) (unit k : Nat) : State :=
  s.modCamb (s.unitPart unit) fun c => { c with grants := AMap.put (2 * unit + k) s.power.time c.grants }

/-- Apply the next block of a unit, where its arbiter grants it (R277: in arrival order, and after every write of an earlier block with
its entry and index; R278: it keeps its slot until its writes are accepted). -/
def State.applyNext (s : State) (unit : Nat) : State :=
  let p := s.unitPart unit
  match (s.camb p).nextBlock unit, (s.camb p).upd with
  | some b, some u =>
    match u.entries[b.entry]? with
    | none => s
    | some e =>
      if s.cambPick unit != some 0 then s
      else ((s.cambGrant unit 0).applyBlock unit b u e).modCamb p fun c => { c with intake := markApplied unit c.intake }
  | _, _ => s

/-- A spill copy of a partition ends: the oldest whose unit's arbiter grants it. -/
def State.spillDone (s : State) (p : Nat) : State :=
  match (s.camb p).spills.find? fun x => s.cambPick (s.lead p + x.unit) == some 1 with
  | none => s
  | some x => (s.cambGrant (s.lead p + x.unit) 1).endSpill p x

end Sys2Proof.Machine
end

