-- ==== Sys2Proof/Machine/Coll.lean ====
section
/-! DEFINITION. The collective engines: groups and their paths, chunks and grants, reductions and narrowing, barriers and scalar
sums, and the end of a collective (R432 to R442). The layout of the data of COLL_GRANT and COLL_CTRL packets is the model's own
(log entry 30). -/

namespace Sys2Proof.Machine

/-! ### Group entries (R432) -/

def State.grp (s : State) (g : Nat) : Nat := AMap.getD g 0 s.canopy.groups
def State.setGrp (s : State) (g e : Nat) : State :=
  { s with canopy := { s.canopy with groups := if e == 0 then AMap.del g s.canopy.groups else AMap.put g e s.canopy.groups } }

namespace Grp
def valid (e : Nat) : Bool := bit e 0
def owner (e : Nat) : Nat := bits e 1 3
def tree (e : Nat) : Bool := bit e 4
def scalarOrdered (e : Nat) : Bool := bit e 5
def epoch (e : Nat) : Nat := bits e 16 16
def gid (e : Nat) : Nat := bits e 32 32
def size (e : Nat) : Nat := bits e 64 16 + 1
def rank (e : Nat) : Nat := bits e 80 16
def first (e : Nat) : Nat := bits e 96 14
def count (e : Nat) : Nat := bits e 112 16
def seq (e : Nat) : Nat := bits e 128 32
def scalarSeq (e : Nat) : Nat := bits e 160 32
end Grp

/-- Member-array word k of a group. -/
def State.member (s : State) (e k : Nat) : Nat := AMap.getD (Grp.first e + k) 0 s.canopy.members
/-- The context of word k. -/
def State.wordCtx (s : State) (e k : Nat) : Nat := bits (s.member e k) 0 12

/-- Words that reach another member, in the order of an ordered combination (R438): ascending rank, or the children and then
the parent. -/
def State.peers (s : State) (e : Nat) : List Nat :=
  if Grp.tree e then
    rangeFrom 1 (Grp.count e - 1) ++ (if Grp.count e == 0 || bit (s.member e 0) 12 then [] else [0])
  else (List.range (Grp.size e)).filter fun k => k != Grp.rank e

/-- The word toward rank r, none at r itself (R432, R437). -/
def State.toward (s : State) (e r : Nat) : Option Nat :=
  if r == Grp.rank e then none
  else if !Grp.tree e then some r
  else
    match (rangeFrom 1 (Grp.count e - 1)).find? fun k =>
      let lo := if k == 1 then Grp.rank e else bits (s.member e (k - 1)) 16 16
      lo < r && r ≤ bits (s.member e k) 16 16 with
    | some k => some k
    | none => some 0

/-! ### Collectives in progress -/

def State.modColl (s : State) (c : Coll) (g : Coll → Coll) : State :=
  { s with canopy := { s.canopy with
    colls := s.canopy.colls.map fun x =>
      if x.group == c.group && x.seq == c.seq && x.scalar == c.scalar then g x else x } }

/-- The collective as it stands now. -/
def State.coll? (s : State) (group seq : Nat) (scalar : Bool) : Option Coll :=
  s.canopy.colls.find? fun x => x.group == group && x.seq == seq && x.scalar == scalar

/-- The engine's UNIT code: the die of the partition's first core (R436, R568). -/
def State.collUnit (s : State) (p : Nat) : Nat := 0x330 + s.dieOf p

/-- Elements in 4 KiB of source-format data (R436). -/
def Coll.per (c : Coll) : Nat := 32768 / max 1 (elemBits c.src.fmt)

/-- Shards that are reduced: rank, first element, end (R437). -/
def Coll.reduced (c : Coll) (e : Nat) : List (Nat × Nat × Nat) :=
  let n := Grp.size e
  let all := (List.range n).map fun r => (r, r * c.elems / n, (r + 1) * c.elems / n)
  if c.kind == 1 then all
  else if c.kind == 0 then (if Grp.tree e then [(0, 0, c.elems)] else all)
  else []

/-- Parts that flow from their owner without arithmetic (R437). -/
def Coll.spread (c : Coll) (e : Nat) : List (Nat × Nat × Nat) :=
  let n := Grp.size e
  if c.kind == 0 then c.reduced e
  else if c.kind == 2 then (List.range n).map fun r => (r, r * c.elems, (r + 1) * c.elems)
  else if c.kind == 3 then [(c.root, 0, c.elems)]
  else []

/-- Chunks of a range of elements. -/
def Coll.chunksOf (c : Coll) (lo hi : Nat) : List Nat :=
  if hi ≤ lo then [] else rangeFrom (lo / c.per) ((hi - 1) / c.per - lo / c.per + 1)

/-- The shard or part of rank r. -/
def Coll.range (c : Coll) (e r : Nat) : Nat × Nat :=
  match (c.reduced e ++ c.spread e).find? fun x => x.1 == r with
  | some x => x.2
  | none => (0, 0)

/-- Elements of chunk k of rank r's shard: first, and how many. -/
def Coll.extent (c : Coll) (e r k : Nat) : Nat × Nat :=
  let x := c.range e r
  let lo := max x.1 (k * c.per)
  (lo, min x.2 ((k + 1) * c.per) - lo)

/-- Words whose contributions to shard r meet here (R437). -/
def State.inputs (s : State) (e r : Nat) : List Nat :=
  if Grp.tree e then (s.peers e).filter fun k => some k != s.toward e r
  else if r == Grp.rank e then s.peers e else []

/-- Words that part r goes on to from here. -/
def State.outputs (s : State) (e r : Nat) : List Nat :=
  if Grp.tree e then (s.peers e).filter fun k => some k != s.toward e r
  else if r == Grp.rank e then s.peers e else []

/-- Whether data of shard r from word k is a contribution to a reduction. -/
def State.contributes (s : State) (c : Coll) (e r k : Nat) : Bool :=
  c.kind ≤ 1 && (s.inputs e r).contains k

/-- Everything this member receives, in the order in which it grants it. -/
def State.expected (s : State) (c : Coll) (e : Nat) : List CollData :=
  ((c.reduced e).flatMap fun x => (c.chunksOf x.2.1 x.2.2).flatMap fun k =>
    (s.inputs e x.1).map fun w => { word := w, shard := x.1, chunk := k }) ++
  ((c.spread e).flatMap fun x => match s.toward e x.1 with
    | some w => (c.chunksOf x.2.1 x.2.2).map fun k => { word := w, shard := x.1, chunk := k }
    | none => [])

/-! ### Packets -/

/-- Codes of elements packed into bytes, and taken out again. -/
def packCodes (w : Nat) (l : List Nat) : List Byte :=
  if w == 4 then
    (chunks 2 l.length l).map fun x => BitVec.ofNat 8 (x.getD 0 0 + 16 * x.getD 1 0)
  else l.flatMap fun c => toBytes (w / 8) c
def unpackCodes (w n : Nat) (b : List Byte) : List Nat :=
  (List.range n).map fun i =>
    if w == 4 then bits (fieldAt b (i / 2) 1) (4 * (i % 2)) 4 else fieldAt b (i * (w / 8)) (w / 8)

/-- Fill up to whole lines. -/
def padLines (b : List Byte) : List Byte := b ++ List.replicate (ceilDiv b.length 32 * 32 - b.length) 0

/-- Send a packet of a collective to word k; without a route its context goes DOWN (R427). -/
def State.collSend (s : State) (c : Coll) (k kind cls w6 w7 : Nat) (data : List Byte) : State :=
  let e := s.grp c.group
  let ctx := s.wordCtx e k
  let x := s.ctx ctx
  let p : Packet :=
    { kind := BitVec.ofNat 4 kind, cls := BitVec.ofNat 3 cls, dst := BitVec.ofNat 16 (bits x 16 16), src := 0
      dstCtx := BitVec.ofNat 12 (bits x 32 12), srcCtx := BitVec.ofNat 12 ctx
      w4 := BitVec.ofNat 32 (Grp.gid e), w5 := BitVec.ofNat 32 (Grp.epoch e + c.seq % 2 ^ 16 * 2 ^ 16)
      w6 := BitVec.ofNat 32 w6, w7 := BitVec.ofNat 32 w7
      lines := BitVec.ofNat 8 (ceilDiv data.length 32), data := padLines data }
  match s.originate p with
  | some s => s
  | none => s.ctxDown ctx

/-- The data of a COLL_GRANT: KIND, OP, format, whether it grants a chunk, E, and the chunks received from this peer. -/
def Coll.grantBytes (c : Coll) (grants : Bool) (recv : Nat) : List Byte :=
  [BitVec.ofNat 8 c.kind, BitVec.ofNat 8 c.op, BitVec.ofNat 8 c.src.fmt, BitVec.ofNat 8 (b2n grants)] ++
  toBytes 4 c.elems ++ toBytes 4 recv ++ List.replicate 20 0

/-! ### The end of a collective (R441) -/

/-- A collective ends with a status: COLL_DONE counts, its forme ends, and one that feeds the cambium aborts an armed update
unless it ended OK (R275). -/
def State.endColl (s : State) (c : Coll) (status : Nat) : State :=
  let s := { s with canopy := { s.canopy with
    colls := s.canopy.colls.filter fun x => !(x.group == c.group && x.seq == c.seq && x.scalar == c.scalar) } }
  if c.scalar then s
  else (s.incF (Pg.cnpy 9) F.CNPY9_COLL_DONE).finishForme c.forme status

/-- The collective engines that work for a partition: that of its first core's die, and under k = 1 both (R436). -/
def State.collEngines (s : State) (p : Nat) : List Nat := if s.k == 1 then [0, 1] else [s.dieOf p]

/-- UNIT of the engine that accesses an address for a collective: under k = 1 the engines share each chunk by halves (R436, R568). -/
def State.collUnitAt (s : State) (c : Coll) (a : Nat) : Nat :=
  if s.k != 1 then s.collUnit c.part
  else
    let here (d : TDesc) : Bool := d.base ≤ a && a < d.base + ceilDiv (d.v 0 * elemBits d.fmt) 8
    let d := if here c.src then c.src else c.dst
    let n := 4096 * elemBits d.fmt / max 1 (elemBits c.src.fmt)
    0x330 + 2 * ((a - d.base) % max 1 n) / max 1 n

/-- A fault of the engine's access ends the collective with the fault's status (R150). -/
def State.collFault (s : State) (c : Coll) (f : AccFault × Nat) : State :=
  (s.faultRecord c.part (s.collUnitAt c f.2) f.2 f.1).endColl c f.1.status

/-- Whether a context of the collective's group is DOWN. -/
def State.collLost (s : State) (c : Coll) : Bool :=
  let e := s.grp c.group
  (s.peers e).any fun k => bit (s.ctx (s.wordCtx e k)) 4

/-- Collectives with a context DOWN end with PEER_LOST (R441). -/
def State.collSweep (s : State) : State :=
  s.canopy.colls.foldl (fun s c => if !c.scalar && s.collLost c then s.endColl c 0x4B else s) s

/-! ### Arithmetic (R438, R439) -/

def widen (fmt c : Nat) : Nat := if fmt == 0x07 then fp32.near (bf16.decode c) else c

def combine (op a b : Nat) : Nat :=
  if op == 0 then fp32.addN a b else if op == 1 then fp32.maxN a b else fp32.minN a b

/-- A narrowing to BF16 of element i (R439). -/
def State.narrow (s : State) (c : Coll) (i x : Nat) : Nat :=
  let f := s.forme c.forme
  let stoch := c.kind == 1 || f.round || (f.train && f.slot != 0)
  let u := randWord c.seed i (1 + Grp.rank (s.grp c.group) % 2 ^ 16 * 2 ^ 8) c.nonce
  (convert 0x07 (if stoch then .stoch u else .near) false (fp32.decode x)).1

/-- FP32 results as elements of the source format, from element lo on. -/
def State.toSource (s : State) (c : Coll) (lo : Nat) (l : List Nat) : List Nat :=
  (List.range l.length).map fun i =>
    if c.src.fmt == 0x07 then s.narrow c (lo + i) (l.getD i 0) else l.getD i 0

/-- Source-format elements as elements of the destination format. -/
def State.toDest (s : State) (c : Coll) (lo : Nat) (l : List Nat) : List Nat :=
  if c.src.fmt == c.dst.fmt then l
  else (List.range l.length).map fun i =>
    if c.dst.fmt == 0x07 then s.narrow c (lo + i) (l.getD i 0) else widen c.src.fmt (l.getD i 0)

/-! ### Data of this member -/

def State.collAcc (s : State) (c : Coll) : Acc := { part := c.part, core := none, who := .unit (s.collUnit c.part) }

/-- Read this member's own elements of a chunk; with LOCAL_GRAD their squares go to LOCAL_SQ (R293). -/
def State.readOwn (s : State) (c : Coll) (r k : Nat) : State × Option (AccFault × Nat) × List Nat :=
  let e := s.grp c.group
  let x := c.extent e r k
  let at0 := if c.kind == 2 then x.1 - Grp.rank e * c.elems else x.1
  let w := s.collAcc c
  match s.firstFault w (c.src.rowRanges at0 (at0 + x.2) 0 0 0) false with
  | some f => (s, some f, [])
  | none =>
    let codes := (rangeFrom at0 x.2).map fun i => s.elemCode w c.src i 0 0 0
    let s := if !c.localGrad then s
      else match (s.camb c.part).upd with
        | some u => s.modCamb c.part fun b =>
            { b with
              upd := some { u with
                localSq := codes.foldl (fun q v => q.add (fp32.mulN u.gradScale (widen c.src.fmt v))) u.localSq } }
        | none => s
    (s, none, codes)

/-- Keep a final chunk here: at the destination, or on its way to the cambium (R439, R440). -/
def State.place1 (s : State) (c : Coll) (r k : Nat) (codes : List Nat) : State × Option (AccFault × Nat) :=
  let e := s.grp c.group
  let x := c.extent e r k
  let base := if c.kind == 1 then (c.range e r).1 else 0
  let s := s.modColl c fun c => { c with done := (r, k) :: c.done }
  if c.toCamb then
    ({ s with stream := s.stream ++ (chunks 64 (codes.length / 64 + 1) codes).mapIdx fun i v =>
        { part := c.part, entry := c.entry, block := (x.1 - base) / 64 + i, fp32 := c.src.fmt == 0x08, codes := v } }, none)
  else s.writeRow (s.collAcc c) c.dst (x.1 - base) 0 0 0 (s.toDest c x.1 codes)

/-- A part that flows without arithmetic reaches this member: keep it and send it on (R437). -/
def State.spreadHere (s : State) (c : Coll) (r k : Nat) (codes : List Nat) : State × Option (AccFault × Nat) :=
  let e := s.grp c.group
  let out := (s.outputs e r).map fun w => ({ word := w, shard := r, chunk := k, codes := codes } : CollData)
  (s.modColl c fun c => { c with toSend := c.toSend ++ out }).place1 c r k codes

/-- A chunk is reduced here: it goes toward its shard's rank, or is final (R437 to R439). -/
def State.reducedHere (s : State) (c : Coll) (r k : Nat) (acc : List Nat) : State × Option (AccFault × Nat) :=
  let e := s.grp c.group
  let v := s.toSource c (c.extent e r k).1 acc
  match s.toward e r with
  | some w => (s.modColl c fun c => { c with toSend := c.toSend ++ [{ word := w, shard := r, chunk := k, codes := v }] }, none)
  | none => if c.kind == 0 then s.spreadHere c r k v else s.place1 c r k v

/-- The record of a chunk being reduced. -/
def Coll.partAt (c : Coll) (r k : Nat) : Partial :=
  (c.parts.find? fun x => x.shard == r && x.chunk == k).getD { shard := r, chunk := k }

def Coll.setPart (c : Coll) (x : Partial) : Coll :=
  { c with parts := (c.parts.filter fun y => !(y.shard == x.shard && y.chunk == x.chunk)) ++ [x] }

/-- Combine codes into a partial result. -/
def Coll.into (c : Coll) (x : Partial) (codes : List Nat) : List Nat :=
  let v := codes.map (widen c.src.fmt)
  if x.acc.isEmpty then v else List.zipWith (combine c.op) x.acc v

/-- Combine what can be combined of a chunk (R438). By default this member's own part may be read before or after the first
that arrives: an open value decides (R213; log entry 9). -/
def State.reduceChunk (s : State) (c : Coll) (r k : Nat) : State × Option (AccFault × Nat) :=
  let e := s.grp c.group
  let ins := s.inputs e r
  let here := c.staged.filter fun d => d.shard == r && d.chunk == k && ins.contains d.word
  let x := c.partAt r k
  if c.done.contains (r, k) || (here.isEmpty && !(ins.isEmpty && !x.own)) then (s, none)
  else if c.ordered && here.length != ins.length then (s, none)
  else
    let last := x.words.length + here.length == ins.length
    let early := c.ordered || Config.open s.opens % 2 == 0
    let s := { s with opens := s.opens + 1 }
    let order := if c.ordered then ins.filterMap fun w => here.find? fun d => d.word == w else here
    let own := !x.own && (early || last)
    let r0 := if own then s.readOwn c r k else (s, none, [])
    match r0.2.1 with
    | some f => (r0.1, some f)
    | none =>
      let x1 := if own && early then { x with acc := c.into x r0.2.2, own := true } else x
      let x2 := order.foldl (fun (x : Partial) d => { x with acc := c.into x d.codes, words := d.word :: x.words }) x1
      let x3 := if own && !early then { x2 with acc := c.into x2 r0.2.2, own := true } else x2
      let s := r0.1.modColl c fun c =>
        { (c.setPart x3) with staged := c.staged.filter fun d => !(d.shard == r && d.chunk == k && ins.contains d.word) }
      if x3.own && x3.words.length == ins.length then
        let s := s.modColl c fun c => { c with parts := c.parts.filter fun y => !(y.shard == r && y.chunk == k) }
        s.reducedHere c r k x3.acc
      else (s, none)

/-! ### Grants (R436) -/

/-- Chunks of staging that a collective uses: granted, staged, being reduced, or waiting for a cambium intake. -/
def State.staging (s : State) (c : Coll) : Nat :=
  c.asked.length + c.staged.length + (c.parts.filter fun x => !x.words.isEmpty).length +
  (if c.toCamb then ceilDiv (s.stream.filter fun b => b.part == c.part && b.entry == c.entry).length (max 1 (c.per / 64)) else 0)

/-- Whether collective c may grant one more chunk to word w: within its own guaranteed 16 chunks per peer, or in the staging
that the guarantees leave. -/
def State.mayGrant (s : State) (c : Coll) (w : Nat) : Bool :=
  let mine := s.canopy.colls.filter fun x => !x.scalar && s.collUnit x.part == s.collUnit c.part
  let sure (x : Coll) : Nat := 16 * (s.peers (s.grp x.group)).length
  let used := mine.foldl (fun n x => n + max (sure x) (s.staging x)) 0
  ((c.asked ++ c.staged).filter fun d => d.word == w).length < 16 || used < 4096 * (s.collEngines c.part).length

/-- Grant the expected data that has not been granted, while staging lasts. -/
def State.giveGrants (s : State) (c0 : Coll) : State :=
  let e := s.grp c0.group
  (s.expected c0 e).foldl (fun s d =>
    match s.coll? c0.group c0.seq c0.scalar with
    | none => s
    | some c =>
      if c.asked.contains d || c.got.contains d || !s.mayGrant c d.word then s
      else
        let s := s.modColl c fun c => { c with asked := c.asked ++ [d] }
        s.collSend c d.word 6 1 d.chunk d.shard (c.grantBytes true (c.got.filter fun x => x.word == d.word).length)) s

/-- Send what grants allow (R436). -/
def State.sendGranted (s : State) (c0 : Coll) : State × Option (AccFault × Nat) :=
  c0.toSend.foldl (fun (r : State × Option (AccFault × Nat)) d =>
    let s := r.1
    match r.2, s.coll? c0.group c0.seq c0.scalar with
    | none, some c =>
      let key : CollData := { d with codes := [] }
      if !c.granted.contains key then r
      else
        let own := if d.codes.isEmpty then s.readOwn c d.shard d.chunk else (s, none, d.codes)
        match own.2.1 with
        | some f => (own.1, some f)
        | none =>
          let s := own.1.modColl c fun c =>
            { c with
              granted := c.granted.erase key
              toSend := c.toSend.erase d
              sent := AMap.put d.word (AMap.getD d.word 0 c.sent + 1) c.sent }
          (s.collSend c d.word 5 4 d.chunk d.shard (packCodes (elemBits c.src.fmt) own.2.2), none)
    | _, _ => r) (s, none)

/-- A fabric engine that works for a partition is halted: its collectives end by their timeouts (R507). -/
def State.fabricHalted (s : State) (p : Nat) : Bool := (s.collEngines p).any fun d => s.ctrlHalted (10 + d)

/-- Run a collective as far as its data allows. -/
def State.pump (s : State) (c0 : Coll) : State :=
  if s.fabricHalted c0.part then s else
  let e := s.grp c0.group
  let chunksR := (c0.reduced e).flatMap fun x => (c0.chunksOf x.2.1 x.2.2).map fun k => (x.1, k)
  let r := chunksR.foldl (fun (r : State × Option (AccFault × Nat)) x =>
    match r.2, r.1.coll? c0.group c0.seq c0.scalar with
    | none, some c => if (r.1.inputs e x.1).isEmpty then r else r.1.reduceChunk c x.1 x.2
    | _, _ => r) (s, none)
  let r := match r.2, r.1.coll? c0.group c0.seq c0.scalar with
    | none, some c => r.1.sendGranted c
    | _, _ => r
  match r.2, r.1.coll? c0.group c0.seq c0.scalar with
  | none, some c => r.1.giveGrants c
  | some f, some c => r.1.collFault c f
  | _, none => r.1

/-- Run every collective, in order of start. -/
def State.pumpAll (s : State) : State :=
  (s.canopy.colls.filter fun c => !c.scalar && c.kind != 4).foldl (fun s c0 =>
    match s.coll? c0.group c0.seq c0.scalar with
    | some c => s.pump c
    | none => s) s

/-! ### Barriers and scalar sums (R437, R440) -/

/-- Words that arrivals come from: the children, or every other member at rank 0 of a flat group. -/
def State.arrivals (s : State) (e : Nat) : List Nat :=
  if Grp.tree e then rangeFrom 1 (Grp.count e - 1) else if Grp.rank e == 0 then s.peers e else []

/-- Everyone below has arrived: tell the member above, or give the result (R437, R440). Control codes: 0 arrival, 1 release,
2 scalar value, 3 scalar result, 4 mismatch. -/
def State.pumpCtrl (s : State) (c : Coll) : State :=
  let e := s.grp c.group
  let ins := s.arrivals e
  if s.fabricHalted c.part || c.upSent || c.result.isSome || !(ins.all fun w => c.arrived.any fun a => a.1 == w) || !(c.arrived.any fun a => a.1 == 0xFFFF)
  then s
  else
    let val (w : Nat) : Nat := ((c.arrived.find? fun a => a.1 == w).getD (0, 0)).2
    let order := if Grp.scalarOrdered e then 0xFFFF :: ins else c.arrived.map fun a => a.1
    let sum := match order with
      | [] => 0
      | w :: t => t.foldl (fun n w => fp32.addN n (val w)) (val w)
    match s.toward e 0 with
    | some w => (s.modColl c fun c => { c with upSent := true }).collSend c w 7 4 (if c.scalar then 2 else 0) (Grp.rank e) (toBytes 32 sum)
    | none =>
      let s := s.modColl c fun c => { c with upSent := true, result := some sum }
      (s.outputs e 0).foldl (fun s w => s.collSend c w 7 4 (if c.scalar then 3 else 1) 0 (toBytes 32 sum)) s

/-- An arrival of word w with a value (0xFFFF is this member's own). -/
def State.arrive (s : State) (c : Coll) (w v : Nat) : State :=
  let s := s.modColl c fun c => { c with arrived := if c.arrived.any fun a => a.1 == w then c.arrived else c.arrived ++ [(w, v)] }
  match s.coll? c.group c.seq c.scalar with
  | some c => s.pumpCtrl c
  | none => s

/-- A release or a result from above: it goes on down (R437). -/
def State.released (s : State) (c : Coll) (v : Nat) : State :=
  let e := s.grp c.group
  let s := s.modColl c fun c => { c with result := some v }
  if Grp.tree e then (s.outputs e 0).foldl (fun s w => s.collSend c w 7 4 (if c.scalar then 3 else 1) 0 (toBytes 32 v)) s else s

/-! ### Packets that arrive (R435, R436, R441) -/

/-- The group and the word that a context serves for a packet's GID. -/
def State.groupOf (s : State) (ctx gid : Nat) : Option (Nat × Nat) :=
  (s.canopy.groups.filter fun g => Grp.valid g.2 && Grp.gid g.2 == gid && gid != 0).findSome? fun g =>
    ((s.peers g.2).find? fun k => s.wordCtx g.2 k == ctx).map fun k => (g.1, k)

/-- A packet of a collective that has ended, or of another epoch (R441). -/
def State.staleColl (s : State) : State := s.satF (Pg.cnpy 9) F.CNPY9_STALE_COLL

/-- Whether sequence number q (16 bits) is of a collective that a counter has already begun. -/
def begun (counter q : Nat) : Bool :=
  let d := (counter + 2 ^ 16 - q) % 2 ^ 16
  0 < d && d ≤ 2 ^ 15

/-- A COLL_DATA chunk (R436). -/
def State.collData (s : State) (c : Coll) (w : Nat) (p : Packet) : State :=
  let key : CollData := { word := w, shard := bits p.w7.toNat 0 16, chunk := p.w6.toNat }
  if c.got.contains key then s.satF (Pg.cnpy 9) F.CNPY9_DUP_DROPPED
  else if !c.asked.contains key then s.staleColl
  else
    let e := s.grp c.group
    let codes := unpackCodes (elemBits c.src.fmt) (c.extent e key.shard key.chunk).2 p.data
    let s := s.modColl c fun c => { c with asked := c.asked.erase key, got := c.got ++ [key] }
    let r := if s.contributes c e key.shard w then
        (s.modColl c fun c => { c with staged := c.staged ++ [{ key with codes := codes }] }, none)
      else s.spreadHere c key.shard key.chunk codes
    match r.2 with
    | some f => r.1.collFault c f
    | none =>
      let s := r.1.collSend c w 6 1 0xFFFFFFFF 0 (c.grantBytes false (c.got.filter fun x => x.word == w).length.succ)
      s.pumpAll

/-- A COLL_GRANT (R435, R436). -/
def State.collGrant (s : State) (c : Coll) (w : Nat) (p : Packet) : State :=
  if fieldAt p.data 0 1 != c.kind || fieldAt p.data 1 1 != c.op || fieldAt p.data 2 1 != c.src.fmt || fieldAt p.data 4 4 != c.elems
  then (s.collSend c w 7 4 4 0 []).endColl c 0x4C
  else
    let s := s.modColl c fun c =>
      { c with
        acked := AMap.put w (max (fieldAt p.data 8 4) (AMap.getD w 0 c.acked)) c.acked
        granted := if fieldAt p.data 3 1 == 1 then c.granted ++ [{ word := w, shard := bits p.w7.toNat 0 16, chunk := p.w6.toNat }]
          else c.granted }
    s.pumpAll

/-- A COLL_CTRL (R435, R437, R440). -/
def State.collCtrl (s : State) (c : Coll) (w : Nat) (p : Packet) : State :=
  match p.w6.toNat with
  | 0 => s.arrive c w 0
  | 2 => s.arrive c w (fieldAt p.data 0 4)
  | 1 => s.released c 0
  | 3 => s.released c (fieldAt p.data 0 4)
  | 4 => s.endColl c 0x4C
  | _ => s

/-- A packet of a collective on context ctx (R436, R441): one of a collective not begun here waits; of one that has ended, or of
another epoch, it is dropped. -/
def State.collPacket (s : State) (ctx : Nat) (p : Packet) : State :=
  match s.groupOf ctx p.w4.toNat with
  | none => s.staleColl
  | some (g, w) =>
    let e := s.grp g
    let scalar := p.kind == 7 && (p.w6 == 2 || p.w6 == 3)
    let q := bits p.w5.toNat 16 16
    if bits p.w5.toNat 0 16 != Grp.epoch e then s.staleColl
    else match s.canopy.colls.find? fun c => c.group == g && c.seq % 2 ^ 16 == q && c.scalar == scalar with
      | some c =>
        if s.fabricHalted c.part then s
        else if p.kind == 5 then s.collData c w p else if p.kind == 6 then s.collGrant c w p else s.collCtrl c w p
      | none =>
        if begun (if scalar then Grp.scalarSeq e else Grp.seq e) q then s.staleColl
        else { s with canopy := { s.canopy with early := s.canopy.early ++ [(ctx, p)] } }

/-- Take up the packets that came before this member began (R436). -/
def State.takeEarly (s : State) : State :=
  let l := s.canopy.early
  l.foldl (fun s x => s.collPacket x.1 x.2) { s with canopy := { s.canopy with early := [] } }

/-! ### Starting (R433 to R436, R440) -/

/-- Checks of R434; the collective that the forme would start. -/
def State.planColl (s : State) (w : Acc) (x : Forme) (i : Nat) : Except PlanErr Coll := do
  want (x.aux != 0)
  let b ← s.readBlock w x.aux 64 1
  let g := fieldAt b 0 2
  let e := s.grp g
  if 1024 ≤ g || !Grp.valid e || Grp.owner e != x.part then throw { status := 0x48 }
  if fieldAt b 2 2 != Grp.epoch e then throw { status := 0x49 }
  let kind := bits x.variant 0 3
  let op := bits x.variant 3 2
  let ordered := bit x.variant 5
  let camb := bit x.variant 6
  let localG := bit x.variant 7
  want (kind ≤ 4 && (op ≤ 2 || 2 ≤ kind))
  want (!camb || (kind == 1 && op == 0))
  want (!localG || kind == 1)
  want (!ordered || op ≤ 2)
  if (camb || localG) && (s.camb x.part).upd.isNone then throw { status := 0x29 }
  let n := Grp.size e
  let plain (d : TDesc) : Bool := d.rankM1 == 0 && d.layout == 0 && d.bare
  let src ← if kind == 4 || (kind == 3 && fieldAt b 4 2 != Grp.rank e) then pure {} else s.readDesc w (x.opd 0)
  let dst ← if kind == 4 || camb then pure {} else s.readDesc w (x.opd 2)
  let fp (d : TDesc) : Bool := d.fmt == 0x08 || d.fmt == 0x07
  let root := fieldAt b 4 2
  want (kind == 4 || (kind == 3 && root != Grp.rank e) || plain src)
  want (kind == 4 || camb || plain dst)
  want (match kind with
    | 0 => fp src && fp dst && src.v 0 == dst.v 0
    | 1 => fp src && src.v 0 % (64 * n) == 0 && (camb || (fp dst && dst.v 0 * n == src.v 0))
    | 2 => src.fmt == dst.fmt && dst.v 0 == src.v 0 * n
    | 3 => root < n && (root != Grp.rank e || (src.fmt == dst.fmt && src.v 0 == dst.v 0))
    | _ => true)
  let src := if kind == 3 && root != Grp.rank e then { dst with base := 0 } else src
  let t := fieldAt b 0x14 2
  pure { group := g, seq := Grp.seq e, part := x.part, forme := i, kind := kind, op := op, ordered := ordered, toCamb := camb
         localGrad := localG, root := root, entry := fieldAt b 6 2, seed := fieldAt b 8 8, nonce := fieldAt b 0x10 4
         epoch := Grp.epoch e, elems := if kind == 4 then 0 else src.v 0, src := src, dst := dst, since := s.power.time
         limit := 1000000 * (if t == 0 then s.f (Pg.cnpy 9) F.CNPY9_COLL_TIMEOUT_MS else t) }

/-- Collectives that the engine of a partition runs; one more than 256 stays in PLANNING (R436). -/
def State.collsRunning (s : State) (p : Nat) : Nat :=
  (s.canopy.colls.filter fun c => !c.scalar && s.collUnit c.part == s.collUnit p).length

/-- Start a collective: it takes the group's next SEQ (R435); what needs nothing from others is ready at once. A halted engine does nothing
for it (R507). -/
def State.startColl (s : State) (c : Coll) : State :=
  let e := s.grp c.group
  let s := s.setGrp c.group (putBits e 128 32 (Grp.seq e + 1))
  let leaf := ((c.reduced e).filter fun x => (s.inputs e x.1).isEmpty).flatMap fun x => match s.toward e x.1 with
    | some w => (c.chunksOf x.2.1 x.2.2).map fun k => ({ word := w, shard := x.1, chunk := k } : CollData)
    | none => []
  let c := { c with toSend := leaf }
  let s := { s with canopy := { s.canopy with colls := s.canopy.colls ++ [c] } }
  if s.fabricHalted c.part then s
  else if c.kind == 4 then (s.arrive c 0xFFFF 0).takeEarly
  else
    -- a member alone in its group reduces by itself, and an owner's part leaves here
    let alone := ((c.reduced e).filter fun x => (s.inputs e x.1).isEmpty && (s.toward e x.1).isNone).flatMap fun x =>
      (c.chunksOf x.2.1 x.2.2).map fun k => (x.1, k)
    let mine := if c.kind ≤ 1 then [] else ((c.spread e).filter fun x => x.1 == Grp.rank e).flatMap fun x =>
      (c.chunksOf x.2.1 x.2.2).map fun k => (x.1, k)
    let r := (alone ++ mine).foldl (fun (r : State × Option (AccFault × Nat)) x =>
      match r.2 with
      | some _ => r
      | none =>
        let o := r.1.readOwn c x.1 x.2
        match o.2.1 with
        | some f => (o.1, some f)
        | none => if c.kind ≤ 1 then o.1.reducedHere c x.1 x.2 (o.2.2.map (widen c.src.fmt)) else o.1.spreadHere c x.1 x.2 o.2.2)
      (s, none)
    match r.2 with
    | some f => r.1.collFault c f
    | none => (r.1.pumpAll).takeEarly

/-- The cambium joins the scalar sum of s_p over a group (R288, R440), or a reshard plan enters its barrier (R351). A group that is not
valid, or not the partition's, is joined by nobody (log entry 207). -/
def State.joinScalar (s : State) (p g v purpose : Nat) : State :=
  let e := s.grp g
  if !Grp.valid e || Grp.owner e != p then s
  else
    let c : Coll := { group := g, seq := Grp.scalarSeq e, part := p, scalar := true, purpose := purpose, since := s.power.time, epoch := Grp.epoch e }
    let s := s.setGrp g (putBits e 160 32 (Grp.scalarSeq e + 1))
    let s := { s with canopy := { s.canopy with colls := s.canopy.colls ++ [c] } }
    (s.arrive c 0xFFFF v).takeEarly

/-! ### Completion (R441) -/

/-- A collective has done all that R441 asks of its completion. -/
def State.collComplete (s : State) (c : Coll) : Bool :=
  let e := s.grp c.group
  if c.scalar || s.fabricHalted c.part then false
  else if c.kind == 4 then c.result.isSome
  else
    let keeps := if c.kind == 1 then (c.reduced e).filter fun x => x.1 == Grp.rank e else c.spread e
    (keeps.all fun x => (c.chunksOf x.2.1 x.2.2).all fun k => c.done.contains (x.1, k)) &&
    c.toSend.isEmpty && c.parts.isEmpty && c.staged.isEmpty &&
    (c.reduced e).all (fun x => (c.chunksOf x.2.1 x.2.2).all fun k =>
      (s.inputs e x.1).all fun w => c.got.contains { word := w, shard := x.1, chunk := k }) &&
    c.sent.all (fun x => x.2 ≤ AMap.getD x.1 0 c.acked) &&
    (!c.toCamb || !(s.stream.any fun b => b.part == c.part && b.entry == c.entry)) &&
    !(s.heldWrites.any fun h => h.who == .unit (s.collUnit c.part) && h.part == c.part)

/-- The collective engine of a partition ends its collectives of a part: a group entry was written (R441), or the partition
stops (R146). -/
def State.staleGroup (s : State) (g : Nat) : State :=
  (s.canopy.colls.filter fun c => c.group == g && !c.scalar).foldl (fun s c => s.endColl c 0x49) s

end Sys2Proof.Machine
end

