-- ==== Sys2Proof/Machine/Rows.lean ====
section
/-! DEFINITION. Writing the outputs of tiles (R134, R136, R203, R246), and the formes that work on rows in FP32: NORM, SOFTMAX
and LOSS (R253 to R257, R259). -/

namespace Sys2Proof.Machine

/-! ### Writing outputs -/

/-- A run of output elements along dimension 0. -/
structure OutRow where
  d : TDesc
  a0 : Nat
  i1 : Nat
  i2 : Nat
  i3 : Nat
  vals : List Num
  /-- the elements are converted, as R246 names them; the positions of an argmax are not -/
  conv : Bool := true

/-- Codes for consecutive elements of an output along dimension 0. -/
structure CodeRow where
  d : TDesc
  a0 : Nat
  i1 : Nat
  i2 : Nat := 0
  i3 : Nat := 0
  codes : List Nat

/-- The conversion of an element rounds stochastically: ROUND, or R246 for a forme of slot 1 or 2 in TRAIN and a target
narrower than FP32. -/
def Forme.stochastic (x : Forme) (fmt : Nat) : Bool :=
  x.round || (x.train && (x.slot == 1 || x.slot == 2) && elemBits fmt < 32)

/-- Codes of a run, and how many elements saturate (step 6 of R138, R203). -/
def OutRow.codes (o : OutRow) (x : Forme) (seed : Nat) : List Nat × Nat :=
  let cs := (List.range o.vals.length).map fun i =>
    convert o.d.fmt (outRound (x.stochastic o.d.fmt) seed x.layer (o.d.position (o.a0 + i) o.i1 o.i2 o.i3)) x.e4m3Nan
      (o.vals.getD i .nan)
  (cs.map fun c => c.1, (cs.filter fun c => c.2).length)

/-- Whether a code is a zero of its format. -/
def zeroCode (fmt c : Nat) : Bool :=
  match floatOf fmt with
  | some f => bits c 0 (f.w + f.ew) == 0
  | none => c == 0

/-- Count saturated elements (R203, R214, R215). -/
def State.saturated (s : State) (core n : Nat) : State :=
  if n == 0 then s else (s.incF (Pg.core core) F.CORE_SATURATED n).event (Pg.core core) Ev.CORE_SATURATED

/-- The place of the zero-map bit of element k of a run's row: 8 × address + bit (R135). -/
def CodeRow.blockOf (o : CodeRow) (k : Nat) : Nat :=
  let z := o.d.zmapAddr k o.i1 o.i2 o.i3
  8 * z.1 + z.2

/-- The blocks that a run touches. -/
def CodeRow.blocks (o : CodeRow) : List Nat :=
  if o.codes.isEmpty || !o.d.zmap then []
  else (rangeFrom (o.a0 / 64) (ceilDiv (o.a0 + o.codes.length) 64 - o.a0 / 64)).map fun c => o.blockOf (64 * c)

/-- Keep which elements of the blocks that a run touches have converted to zero (R136). -/
def CodeRow.mark (o : CodeRow) (m : AMap Nat) : AMap Nat :=
  if !o.d.zmap then m
  else (List.range o.codes.length).foldl (fun (m : AMap Nat) k =>
    let b := o.blockOf (o.a0 + k)
    let one := b2n (zeroCode o.d.fmt (o.codes.getD k 0))
    AMap.put b (putBits (AMap.getD b 0 m) (o.i1 % 8 * 64 + (o.a0 + k) % 64) 1 one) m) m

/-- Write a run of codes of forme i, and keep what its zero map will need. -/
def State.writeCodes (s : State) (i : Nat) (w : Acc) (o : CodeRow) : State × Option (AccFault × Nat) :=
  let s := if o.d.zmap then s.modForme i fun x => { x with zeros := o.mark x.zeros } else s
  let s := match w.core with
    | some c => s.tlbUse c (o.d.addr o.a0 o.i1 o.i2 o.i3)
    | none => s
  s.writeRow w o.d o.a0 o.i1 o.i2 o.i3 o.codes

/-- Write a run of forme i from a core; the conversions whose elements are written count for the watch (R263). -/
def State.writeOut (s : State) (i core seed : Nat) (o : OutRow) : State × Option (AccFault × Nat) :=
  let x := s.forme i
  let c := o.codes x seed
  let r := s.writeCodes i { part := x.part, core := some core, who := .forme i }
    { d := o.d, a0 := o.a0, i1 := o.i1, i2 := o.i2, i3 := o.i3, codes := c.1 }
  let s := r.1.saturated core c.2
  let written := match r.2 with
    | none => c.1
    | some f => c.1.take ((List.range c.1.length).filter fun k => o.d.addr (o.a0 + k) o.i1 o.i2 o.i3 < f.2).length
  let s := if !o.conv then s else s.modForme i fun x =>
    { x with
      gradElems := x.gradElems + written.length
      gradZero := x.gradZero + (written.filter fun v => zeroCode o.d.fmt v).length }
  (s, r.2)

/-- Write runs one after another until one faults. -/
def State.writeOuts (s : State) (i core seed : Nat) (l : List OutRow) : State × Option (AccFault × Nat) :=
  l.foldl (fun (r : State × Option (AccFault × Nat)) o =>
    match r.2 with
    | some _ => r
    | none => r.1.writeOut i core seed o) (s, none)

/-- Write the zero-map bits of blocks that forme i has written into: 1 for a block all of whose elements have converted to zero, which
then lies within the valid extent (R136; log entry 186). A byte of the map is written with the bits of all its blocks that the forme
has touched so far, and with no other bit changed. -/
def State.writeZmap (s : State) (i : Nat) (w : Acc) (blocks : List Nat) : State × Option (AccFault × Nat) :=
  (blocks.map fun b => b / 8).eraseDups.foldl (fun (r : State × Option (AccFault × Nat)) a =>
    match r.2 with
    | some _ => r
    | none =>
      let z := (r.1.forme i).zeros
      let mine := (List.range 8).filter fun k => (AMap.get? (8 * a + k) z).isSome || blocks.contains (8 * a + k)
      let mask := mine.foldl (fun m k => m + 2 ^ k) 0
      let ones := mine.foldl (fun m k => m + b2n (AMap.getD (8 * a + k) 0 z == 2 ^ 512 - 1) * 2 ^ k) 0
      r.1.storeBits w.part w.core a [BitVec.ofNat 8 ones] mask mask w.who) (s, none)

/-! ### Row operations (R253) -/

/-- The tree of VREDSUM over 64 lanes (R159). -/
def tree64 (op : Nat → Nat → Nat) (l : List Nat) : Nat :=
  ([32, 16, 8, 4, 2, 1].foldl (fun (l : List Nat) h =>
    (List.range h).map fun i => op (l.getD i 0) (l.getD (i + h) 0)) l).getD 0 0

/-- Lane sums by an operation on lane and element. -/
def rowLanes (init : Nat) (f : Nat → Nat → Nat) (v : List Nat) : List Nat :=
  (chunks 64 v.length v).foldl (fun (lanes : List Nat) c =>
    (List.range 64).map fun i => if i < c.length then f (lanes.getD i init) (c.getD i 0) else lanes.getD i init)
    (List.replicate 64 init)

def rowsum (v : List Nat) : Nat := tree64 fp32.addN (rowLanes 0 fp32.addN v)
def rowsumsq (v : List Nat) : Nat := tree64 fp32.addN (rowLanes 0 (fun l x => fp32.fmaN x x l) v)
def rowmax (v : List Nat) : Nat := tree64 fp32.maxN (rowLanes 0xFF800000 fp32.maxN v)

/-- FP32 constants and tests. -/
def f32One : Nat := 0x3F800000
def f32NegInf : Nat := 0xFF800000
def f32PosInf : Nat := 0x7F800000
def isNan32 (c : Nat) : Bool := (fp32.decode c).isNan

/-- The rows of a tensor, numbered as in ch. 09: row r of valid extents V1 and V2. -/
def rowIndex (d : TDesc) (r : Nat) : Nat × Nat × Nat := (r % d.v 1, r / d.v 1 % d.v 2, r / (d.v 1 * d.v 2))
/-- The number of rows. -/
def rowCount (d : TDesc) : Nat := d.v 1 * d.v 2 * d.v 3

/-- Row r of a tensor, widened exactly to FP32. -/
def State.rowOf (s : State) (w : Acc) (d : TDesc) (r n : Nat) : List Nat :=
  let i := rowIndex d r
  (List.range n).map fun k => fp32.near (s.elem w d k i.1 i.2.1 i.2.2)

/-- An output run of a whole row of FP32 codes. -/
def rowOut (d : TDesc) (r : Nat) (v : List Nat) : OutRow :=
  let i := rowIndex d r
  { d := d, a0 := 0, i1 := i.1, i2 := i.2.1, i3 := i.2.2, vals := v.map fp32.decode }

/-- Dropout of one element (R254, R259): kept times the scale, else +0. -/
def dropElem (seed thresh scale site layer pos v : Nat) : Nat :=
  if randWord seed pos (3 + site * 256) layer < thresh then 0 else fp32.mulN v scale

/-- Zip with an operation. -/
def zipW (f : Nat → Nat → Nat) (a b : List Nat) : List Nat := List.zipWith f a b

/-! ### NORM (R254) -/

/-- Descriptors of a row forme's plan by role. -/
def Plan.d (p : Plan) (i : Nat) : TDesc := p.descs.getD i {}

/-- Data formats of R257. -/
def rowFmt (f : Nat) : Bool := [0x04, 0x05, 0x06, 0x07, 0x08].contains f

/-- Rows per tile and the footprint (R257); rows 1 where the forme runs segmented. -/
def rowTile (d n share : Nat) : Nat × Nat :=
  let foot (r : Nat) : Nat := r * r256 (4 * d) * n + 4096
  match [64, 32, 16, 8, 4, 2, 1].find? fun r => foot r ≤ share with
  | some r => (r, foot r)
  | none => (1, 0)

/-- Checks of a row operand against the primary operand (R257). -/
def rowOperand (a d : TDesc) : Bool :=
  rowFmt d.fmt && !d.scaled && !d.sparse && d.layout ≤ 1 && (List.range 4).all fun i => d.v i == a.v i
def rowOperand32 (a d : TDesc) (v0 : Nat) : Bool :=
  d.fmt == 0x08 && !d.scaled && !d.sparse && d.v 0 == v0 && (rangeFrom 1 3).all fun i => d.v i == a.v i

/-- Read an optional descriptor. -/
def State.readDesc0 (s : State) (w : Acc) (a : Nat) : Except PlanErr TDesc :=
  if a == 0 then .ok {} else s.readDesc w a

/-- Plan NORM; P has the two dimensions of R254, and P and STATS, which are no data tensors, are PLAIN (R218, R257; log entry 169).
Descriptors 0 X or h, 1 P, 2 Y or dh, 3 STATS, 4 Res or dY, 5 H or Gres, 6 dRes, 7 XDY (R254, R257). -/
def State.planNorm (s : State) (w : Acc) (x : Forme) (share : Nat) : Except PlanErr Plan := do
  want (x.aux != 0)
  let blk ← s.readBlock w x.aux 64 1
  let rms := bit x.variant 0
  let bwd := bit x.variant 1
  let res := bit x.variant 2
  let drop := bit x.variant 3
  want (!drop || res)
  let a (o : Nat) : Nat := fieldAt blk o 8
  let dX ← s.readDesc w (x.opd 0)
  let dP ← s.readDesc w (x.opd 1)
  let dY ← s.readDesc w (x.opd 2)
  want (rowFmt dX.fmt && rowOperand dX dX && rowOperand dX dY && 1 ≤ dX.v 0 && dX.v 0 ≤ 2 ^ 24)
  want (rowFmt dP.fmt && !dP.scaled && !dP.sparse && dP.layout == 0 && dP.v 0 == dX.v 0 && dP.v 1 == (if rms then 1 else 2) &&
    dP.v 2 == 1 && dP.v 3 == 1)
  let stats ← s.readDesc0 w (a 0x18)
  want ((a 0x18 == 0 && !bwd) || (rowOperand32 dX stats 2 && stats.layout == 0))
  let d1 ← if bwd || res then s.readDesc w (a 0x20) else pure {}
  want (!(bwd || res) || rowOperand dX d1)
  let d2 ← if bwd then s.readDesc0 w (a 0x28) else if res then s.readDesc w (a 0x28) else pure {}
  let has2 := if bwd then a 0x28 != 0 else res
  want (!has2 || rowOperand dX d2)
  let d3 ← if bwd && drop then s.readDesc w (a 0x30) else pure {}
  want (!(bwd && drop) || rowOperand dX d3)
  let d4 ← if bwd then s.readDesc0 w (a 0x38) else pure {}
  let has4 := bwd && a 0x38 != 0
  want (!has4 || rowOperand32 dX d4 (dX.v 0))
  if share == 0 then .error { status := 0x01 } else
    let n := 3 + b2n (a 0x18 != 0) + b2n (bwd || res) + b2n has2 + b2n (bwd && drop) + b2n has4
    let t := rowTile (dX.v 0) n share
    pure { mt := t.1, foot := t.2, tiles := ceilDiv (rowCount dX) t.1, m := rowCount dX, n := dX.v 0
           descs := [dX, dP, dY, stats, d1, d2, d3, d4], blocks := [(2, blk)] }

/-- The runs that row r of a NORM forme writes (R254). -/
def State.normRow (s : State) (w : Acc) (x : Forme) (p : Plan) (r : Nat) : List OutRow :=
  let b := p.block
  let eps := fieldAt b 0 4
  let dX := p.d 0
  let n := dX.v 0
  let df := fp32.ofInt (Int.ofNat n)
  let i := rowIndex dX r
  let drop (l : List Nat) : List Nat := if !(bit x.variant 3) then l
    else (List.range n).map fun k => dropElem (fieldAt b 0x10 8) (fieldAt b 8 4) (fieldAt b 4 4) 0 x.layer
      (dX.position k i.1 i.2.1 i.2.2) (l.getD k 0)
  let gamma := (List.range n).map fun k => fp32.near (s.elem w (p.d 1) k 0 0 0)
  let rms := bit x.variant 0
  let xs := s.rowOf w dX r n
  let stat (v : List Nat) : List OutRow := if fieldAt b 0x18 8 == 0 then [] else [rowOut (p.d 3) r v]
  if bit x.variant 1 then
    let dy := s.rowOf w (p.d 4) r n
    let st := s.rowOf w (p.d 3) r 2
    let mu := st.getD 0 0
    let rho := st.getD 1 0
    let g := zipW fp32.mulN dy gamma
    let xh := if rms then xs.map fun v => fp32.mulN v rho else xs.map fun v => fp32.mulN (fp32.subN v mu) rho
    let a := if rms then 0 else fp32.divN (rowsum g) df
    let c := fp32.divN (rowsum (zipW fp32.mulN g xh)) df
    let dh := zipW (fun gv xv => fp32.mulN rho (fp32.subN (fp32.subN gv a) (fp32.mulN xv c))) g xh
    let dh := if fieldAt b 0x28 8 == 0 then dh else zipW fp32.addN dh (s.rowOf w (p.d 5) r n)
    [rowOut (p.d 2) r dh] ++
    (if bit x.variant 3 then [rowOut (p.d 6) r (drop dh)] else []) ++
    (if fieldAt b 0x38 8 == 0 then [] else [rowOut (p.d 7) r (zipW fp32.mulN xh dy)])
  else
    let sum := zipW fp32.addN xs (drop (s.rowOf w (p.d 4) r n))
    let hOut := rowOut (p.d 5) r sum
    let h := if bit x.variant 2 then (hOut.codes x 0).1.map fun c => fp32.near (decodeElem (p.d 5).fmt c) else xs
    let hs := if bit x.variant 2 then [hOut] else []
    if rms then
      let rho := sfuRsqrt (fp32.addN (fp32.divN (rowsumsq h) df) eps)
      hs ++ [rowOut (p.d 2) r (zipW (fun v g => fp32.mulN (fp32.mulN v rho) g) h gamma)] ++ stat [0, rho]
    else
      let beta := (List.range n).map fun k => fp32.near (s.elem w (p.d 1) k 1 0 0)
      let mu := fp32.divN (rowsum h) df
      let c := h.map fun v => fp32.subN v mu
      let rho := sfuRsqrt (fp32.addN (fp32.divN (rowsumsq c) df) eps)
      let y := (List.range n).map fun k => fp32.fmaN (fp32.mulN (c.getD k 0) rho) (gamma.getD k 0) (beta.getD k 0)
      hs ++ [rowOut (p.d 2) r y] ++ stat [mu, rho]

/-! ### SOFTMAX (R255) -/

/-- Plan SOFTMAX: descriptors 0 X, 1 dY, 2 Y or dX. -/
def State.planSoftmax (s : State) (w : Acc) (x : Forme) (share : Nat) : Except PlanErr Plan := do
  let bwd := bit x.variant 0
  want (x.aux != 0 || !(bit x.variant 1))
  let blk ← if x.aux == 0 then pure [] else s.readBlock w x.aux 32 1
  let dX ← s.readDesc w (x.opd 0)
  let dG ← if bwd then s.readDesc w (x.opd 1) else pure {}
  let dY ← s.readDesc w (x.opd 2)
  want (rowOperand dX dX && rowOperand dX dY && (!bwd || rowOperand dX dG) && 1 ≤ dX.v 0 && dX.v 0 ≤ 2 ^ 24)
  if share == 0 then .error { status := 0x01 } else
    let t := rowTile (dX.v 0) (2 + b2n bwd) share
    pure { mt := t.1, foot := t.2, tiles := ceilDiv (rowCount dX) t.1, m := rowCount dX, n := dX.v 0
           descs := [dX, dG, dY], blocks := [(2, blk)] }

/-- Softmax of a row without dropout. -/
def softmaxRow (scale : Nat) (xs : List Nat) : List Nat :=
  let z := xs.map fun v => fp32.mulN v scale
  let m := rowmax z
  if z.any isNan32 then z.map fun _ => fp32.nan
  else if m == f32NegInf then z.map fun _ => 0
  else if m == f32PosInf then
    let q := sfuRecip (fp32.ofInt (Int.ofNat (z.filter fun v => v == f32PosInf).length))
    z.map fun v => if v == f32PosInf then q else 0
  else
    let e := z.map fun v => sfuExp (fp32.subN v m)
    let q := sfuRecip (rowsum e)
    e.map fun v => fp32.mulN v q

/-- The runs that row r of a SOFTMAX forme writes. -/
def State.softmaxRuns (s : State) (w : Acc) (x : Forme) (p : Plan) (r : Nat) : List OutRow :=
  let b := p.block
  let scale := if b.isEmpty then f32One else fieldAt b 0 4
  let dX := p.d 0
  let n := dX.v 0
  let i := rowIndex dX r
  let drop (l : List Nat) : List Nat := if !(bit x.variant 1) then l
    else (List.range n).map fun k => dropElem (fieldAt b 0x10 8) (fieldAt b 8 4) (fieldAt b 4 4) 1 x.layer
      (dX.position k i.1 i.2.1 i.2.2) (l.getD k 0)
  let y := softmaxRow scale (s.rowOf w dX r n)
  if bit x.variant 0 then
    let g := drop (s.rowOf w (p.d 1) r n)
    let t := rowsum (zipW fp32.mulN g y)
    [rowOut (p.d 2) r (zipW (fun yv gv => fp32.mulN (fp32.mulN yv (fp32.subN gv t)) scale) y g)]
  else [rowOut (p.d 2) r (drop y)]

/-! ### LOSS (R256) -/

/-- Plan LOSS: descriptors 0 Z, 1 targets, 2 dZ, 3 LOSSES. -/
def State.planLoss (s : State) (w : Acc) (x : Forme) (share : Nat) : Except PlanErr Plan := do
  want (x.aux != 0)
  let blk ← s.readBlock w x.aux 32 1
  let grad := bit x.variant 0
  let dZ ← s.readDesc w (x.opd 0)
  let dT ← s.readDesc w (x.opd 1)
  let dG ← if grad then s.readDesc w (x.opd 2) else pure {}
  let dL ← s.readDesc0 w (fieldAt blk 0x10 8)
  want (rowOperand dZ dZ && (!grad || rowOperand dZ dG) && 1 ≤ dZ.v 0 && dZ.v 0 ≤ 2 ^ 24)
  want (dT.fmt == 0x0B && !dT.scaled && dT.layout == 0 && dT.v 0 * rowCount dT == rowCount dZ)
  want (fieldAt blk 0x10 8 == 0 || (dL.fmt == 0x08 && !dL.scaled && dL.layout == 0 && dL.v 0 * rowCount dL == rowCount dZ))
  if share == 0 then .error { status := 0x01 } else
    let t := rowTile (dZ.v 0) (1 + b2n grad) share
    pure { mt := t.1, foot := t.2, tiles := ceilDiv (rowCount dZ) t.1, m := rowCount dZ, n := dZ.v 0
           descs := [dZ, dT, dG, dL], blocks := [(2, blk)] }

/-- Indices of the element at linear position r of a tensor with one element per row (R256). -/
def linearIndex (d : TDesc) (r : Nat) : Nat × Nat × Nat × Nat :=
  let i := rowIndex d (r / d.v 0)
  (r % d.v 0, i.1, i.2.1, i.2.2)

/-- The runs that row r of a LOSS forme writes, and whether its target is out of range (R256). -/
def State.lossRuns (s : State) (w : Acc) (x : Forme) (p : Plan) (r : Nat) : List OutRow × Bool :=
  let b := p.block
  let n := (p.d 0).v 0
  let z := s.rowOf w (p.d 0) r n
  let it := linearIndex (p.d 1) r
  let t := sx 32 (s.elemCode w (p.d 1) it.1 it.2.1 it.2.2.1 it.2.2.2)
  let ignore := sx 32 (fieldAt b 8 4)
  let eps := fieldAt b 4 4
  let v := fp32.ofInt (Int.ofNat n)
  let m := rowmax z
  let inRange := 0 ≤ t && t < Int.ofNat n
  let e := z.map fun a => sfuExp (fp32.subN a m)
  let sum := rowsum e
  let lse := fp32.addN m (sfuLog sum)
  let bad := z.any isNan32 || m == f32NegInf || m == f32PosInf
  let skip := t == ignore || !inRange
  let e1 := fp32.divN eps v
  let zbar := fp32.divN (rowsum z) v
  let zt := z.getD t.toNat 0
  let loss := if bad then fp32.nan else if skip then 0
    else fp32.fmaN eps (fp32.subN zt zbar) (fp32.subN lse zt)
  let q := sfuRecip sum
  let dz := (List.range n).map fun i =>
    if bad then fp32.nan else if skip then 0
    else
      let pr := fp32.mulN (e.getD i 0) q
      let wi := if Int.ofNat i == t then fp32.addN (fp32.subN f32One eps) e1 else e1
      fp32.mulN (fp32.subN pr wi) (fieldAt b 0 4)
  let il := linearIndex (p.d 3) r
  ((if fieldAt b 0x10 8 == 0 then []
    else [{ d := p.d 3, a0 := il.1, i1 := il.2.1, i2 := il.2.2.1, i3 := il.2.2.2, vals := [fp32.decode loss] }]) ++
   (if bit x.variant 0 then [rowOut (p.d 2) r dz] else []), !inRange && t != ignore)

end Sys2Proof.Machine
end

