-- ==== Sys2Proof/Machine/Attention.lean ====
section
/-! DEFINITION. The KV pool's geometry, the rotary unit and the ATTENTION opcode (R303, R309 to R317). -/

namespace Sys2Proof.Machine

/-! ### The KV pool (R303) -/

def State.kv (s : State) (p : Nat) : Kv := AMap.getD p {} s.kvs
def State.setKv (s : State) (p : Nat) (x : Kv) : State := { s with kvs := AMap.put p x s.kvs }
def State.modKv (s : State) (p : Nat) (g : Kv → Kv) : State := s.setKv p (g (s.kv p))
/-- A sequence record; FREE where none is listed. -/
def Kv.seq (k : Kv) (n : Nat) : KvSeq := AMap.getD n {} k.seqs
def Kv.setSeq (k : Kv) (n : Nat) (q : KvSeq) : Kv := { k with seqs := AMap.put n q k.seqs }
def State.kvSeq (s : State) (p n : Nat) : KvSeq := (s.kv p).seq n
def State.modSeq (s : State) (p n : Nat) (g : KvSeq → KvSeq) : State := s.modKv p fun k => k.setSeq n (g (k.seq n))

/-- L, H and D of KV_GEOMETRY, and the FORMAT code of KV_FORMAT. -/
def State.kvL (s : State) (p : Nat) : Nat := s.f (Pg.kv p) F.KV_LAYERS
def State.kvH (s : State) (p : Nat) : Nat := s.f (Pg.kv p) F.KV_HKV
def State.kvD (s : State) (p : Nat) : Nat := 32 * s.f (Pg.kv p) F.KV_DH32
def State.kvFmt (s : State) (p : Nat) : Nat :=
  match s.f (Pg.kv p) F.KV_KV_FORMAT with
  | 0 => 0x07
  | 1 => 0x06
  | 2 => 0x04
  | _ => 0x05
/-- Size of one layer of one block, and the block stride. -/
def State.kvLB (s : State) (p : Nat) : Nat := 2 * s.kvH p * 64 * s.kvD p * (elemBits (s.kvFmt p) / 8)
def State.kvS (s : State) (p : Nat) : Nat := 256 + s.kvL p * s.kvLB p
/-- Address of block b; bits [20:0] of the base are ignored (R342). -/
def State.kvBlock (s : State) (p b : Nat) : Nat :=
  s.f2 (Pg.kv p) F.KV_POOL_BASE_LO F.KV_POOL_BASE_HI / 2 ^ 21 * 2 ^ 21 + b * s.kvS p
/-- Address of the key or value vector of a position of a block, a layer and a KV head. -/
def State.kvVec (s : State) (p b layer g j : Nat) (value : Bool) : Nat :=
  let e := elemBits (s.kvFmt p) / 8
  s.kvBlock p b + 256 + layer * s.kvLB p + (g * 64 + j) * s.kvD p * e + (if value then s.kvLB p / 2 else 0)

/-- The block that holds a position of a sequence, none beyond its list or where the block is out. -/
def KvSeq.blockAt (q : KvSeq) (pos : Nat) : Option Nat :=
  match q.list[pos / 64]? with
  | some e => if bit e 31 then none else some (bits e 0 20)
  | none => none

/-- A fault of an access to the pool: R75's, and one where the entry's tier is HOST or the address is remote (R303; of cause
TRANSLATION, log entry 25). -/
def State.poolFault (s : State) (w : Acc) (a n : Nat) (write : Bool) : Option (AccFault × Nat) :=
  match s.firstFault w [(a, n)] write with
  | some e => some e
  | none => (pieces a n).findSome? fun x =>
    match s.resolve w.part w.core x.1 write with
    | .ok (.phys _ _) => none
    | .ok _ => some (.translation, x.1)
    | .error e => some (e, x.1)

/-- Read a number of the pool in the manner of `State.rd`: a read that faults brings no data of storage (R75, R303). -/
def State.poolRd (s : State) (w : Acc) (a n : Nat) : Nat :=
  if (s.poolFault w a n false).isSome then ofBytes ((List.range n).map fun i => Config.faultByte (a + i)) else s.rd w a n

/-! ### Cosine, sine and power (R314) -/

/-- arctan(1/n) in fixed point of p bits: the alternating sum over `k` terms. -/
def atanInv (p n k : Nat) : Int :=
  let one : Int := 2 ^ p
  let n2 : Int := Int.ofNat (n * n)
  ((List.range k).foldl (fun (x : Int × Int) i =>
    ((if i % 2 == 0 then x.1 + x.2 / Int.ofNat (2 * i + 1) else x.1 - x.2 / Int.ofNat (2 * i + 1)), x.2 / n2))
    (0, one / Int.ofNat n)).1

/-- π in fixed point of p bits, by 16 arctan(1/5) − 4 arctan(1/239). -/
def piFixed (p : Nat) : Int := 16 * atanInv p 5 p - 4 * atanInv p 239 p

/-- Cosine and sine, in fixed point of p bits, of an angle r in that form. -/
def trigFixed (p : Nat) (r : Int) : Int × Int :=
  let one : Int := 2 ^ p
  let sum (odd : Nat) : Int :=
    ((List.range p).foldl (fun (y : Int × Int) i =>
      (y.1 + y.2, -(y.2 * r / one * r) / (one * Int.ofNat ((2 * i + 1 + odd) * (2 * i + 2 + odd)))))
      (0, if odd == 0 then one else r)).1
  (sum 0, sum 1)

/-- Cosine and sine of m × 2^e, correctly rounded to FP32. -/
def cosSin (x : Num) : Nat × Nat :=
  match x with
  | .fin n m e =>
    if m == 0 then (f32One, if n then 0x80000000 else 0)
    else
      let lead := leadExp m e
      let p := 256 + 2 * lead.natAbs
      let v : Int := if 0 ≤ e + Int.ofNat p then Int.ofNat (m * 2 ^ (e + Int.ofNat p).toNat)
        else Int.ofNat (m / 2 ^ (-(e + Int.ofNat p)).toNat)
      let t := trigFixed p (v % (2 * piFixed p))
      let c := t.1
      let d := if n then -t.2 else t.2
      (fp32.near (.fin (c < 0) c.natAbs (-(Int.ofNat p))), fp32.near (.fin (d < 0) d.natAbs (-(Int.ofNat p))))
  | _ => (fp32.nan, fp32.nan)

/-- base^(−a / b) of an FP64 code, correctly rounded in FP64; a and b are naturals, b not 0. -/
def powNeg (base a b : Nat) : Nat :=
  if a == 0 then 0x3FF0000000000000
  else match fp64.decode base with
    | .nan => fp64.nan
    | .inf n => if n then fp64.nan else 0
    | .fin n m e =>
      if m == 0 then 0x7FF0000000000000
      else if n then fp64.nan
      else
        let lead := leadExp m e
        let one : Int := 2 ^ sfuBits
        -- ln base = lead ln 2 + ln y with y in [1, 2)
        let y := toFixed false m (e - lead)
        let ln := lead * ln2Fixed + artanh2 ((y - one) * one / (y + one)) 80
        let x := -(ln * Int.ofNat a) / Int.ofNat b
        let k := x / ln2Fixed
        let r := x - k * ln2Fixed
        let sum := ((List.range 60).foldl (fun (z : Int × Int) i =>
          (z.1 + z.2, z.2 * r / (Int.ofNat (i + 1) * one))) (0, one)).1
        fp64.near (.fin false sum.toNat (k - Int.ofNat sfuBits))

/-- The rotary table's header and factors (R314). -/
structure Rope where
  base : Nat
  scale : Nat
  rdim : Nat
  halves : Bool
  factors : List Nat

/-- Read a rotary table. -/
def State.readRope (s : State) (w : Acc) (a : Nat) : Rope :=
  let c := s.rd w (a + 0xC) 4
  let rdim := bits c 0 9
  { base := s.rd w a 8, scale := s.rd w (a + 8) 4, rdim := rdim, halves := bit c 9
    factors := if bit c 10 then (List.range (rdim / 2)).map fun i => s.rd w (a + 16 + 4 * i) 4 else [] }

/-- Cosine and sine of pair i at position p. -/
def Rope.trig (t : Rope) (p i : Nat) : Nat × Nat :=
  let m (a b : Nat) : Nat := fp64.mulN a b
  let widen (c : Nat) : Nat := fp64.near (fp32.decode c)
  let x := m (m (fp64.ofInt (Int.ofNat p)) (widen t.scale)) (powNeg t.base (2 * i) t.rdim)
  let x := match t.factors[i]? with
    | some f => m x (widen f)
    | none => x
  cosSin (fp64.decode x)

/-- Rotate a vector of FP32 codes at position p; `inv` negates the sines. -/
def Rope.apply (t : Rope) (p : Nat) (inv : Bool) (x : List Nat) : List Nat :=
  let cs := (List.range (t.rdim / 2)).map fun i => t.trig p i
  let ng (c : Nat) : Nat := c ^^^ 0x80000000
  (List.range x.length).map fun d =>
    if t.rdim ≤ d then x.getD d 0
    else
      let i := if t.halves then d % (t.rdim / 2) else d / 2
      let first := if t.halves then d < t.rdim / 2 else d % 2 == 0
      let a := if t.halves then i else 2 * i
      let b := if t.halves then i + t.rdim / 2 else 2 * i + 1
      let c := (cs.getD i (0, 0)).1
      let sn := (cs.getD i (0, 0)).2
      let sn := if inv then ng sn else sn
      if first then fp32.fmaN (x.getD a 0) c (ng (fp32.mulN (x.getD b 0) sn))
      else fp32.fmaN (x.getD a 0) sn (fp32.mulN (x.getD b 0) c)

/-! ### ATTENTION (R310 to R317) -/

/-- Fields of the attention block. -/
structure AttBlock where
  hq : Nat
  hkv : Nat
  d : Nat
  scale : Nat
  rows : Nat
  rope : Nat
  lse : Nat
  outF : Nat
  dout : Nat
  dnew : Nat

def AttBlock.parse (b : List Byte) : AttBlock :=
  { hq := fieldAt b 0 1, hkv := fieldAt b 1 1, d := bits (fieldAt b 2 2) 0 9, scale := fieldAt b 4 4, rows := fieldAt b 8 8
    rope := fieldAt b 0x10 8, lse := fieldAt b 0x18 8, outF := fieldAt b 0x20 8, dout := fieldAt b 0x28 8
    dnew := fieldAt b 0x30 8 }

/-- Row list entry r of a plan: POSITION, SEQ, WRITE (R312). -/
def Plan.row (p : Plan) (r : Nat) : Nat × Nat × Bool :=
  let e := fieldAt (AMap.getD 3 [] p.blocks) (8 * r) 8
  (bits e 0 32, bits e 32 12, bit e 44)

/-- Rows cut into runs of at most `rt` consecutive rows of one sequence or segment: first row and count (R317). -/
def rowRuns (seqs : List Nat) (rt : Nat) : List (Nat × Nat) :=
  ((List.range seqs.length).foldl (fun (l : List (Nat × Nat)) r =>
    match l with
    | (a, n) :: t => if seqs.getD a 0 == seqs.getD r 0 && n < rt then (a, n + 1) :: t else (r, 1) :: l
    | [] => [(r, 1)]) []).reverse

def Plan.runs (p : Plan) : List (Nat × Nat) := rowRuns ((List.range p.m).map fun r => (p.row r).2.1) p.mt

/-- Element size of the keys and values of an ATTENTION forme. -/
def State.attElem (s : State) (x : Forme) (p : Plan) : Nat :=
  elemBits (if bit x.variant 0 then s.kvFmt x.part else (p.d 1).fmt) / 8

/-- Footprint of an ATTENTION tile of rt rows with elements of e bytes, and the rows that fit a share (R317). -/
def attFoot (b : AttBlock) (e rt : Nat) : Nat :=
  let g := b.hq / b.hkv
  4 * r256 (64 * b.d * e) + 2 * r256 (rt * g * b.d * 4) + r256 (rt * g * 64 * 4) + 4096
def attRows (b : AttBlock) (e share : Nat) : Option Nat := [64, 32, 16, 8, 4, 2, 1].find? fun rt => attFoot b e rt ≤ share

/-- The checks of R310 that need nothing of memory: a cache only in GENERATE, and none with BACKWARD. -/
def State.attAllowed (s : State) (x : Forme) : Except PlanErr Unit :=
  if bit x.variant 0 && (s.part x.part).overlay != .generate then .error { status := 0x30 }
  else want (!(bit x.variant 0 && bit x.variant 1))

/-- Shapes and formats of R309, R310 and R316, of descriptors 0 Q, 1 NEWKV, 2 O or dQ, 3 LSE, 4 OUT_F, 5 DOUT and 6 DNEWKV; PLAIN is
the only layout of these operands (R218). -/
def State.attFits (s : State) (x : Forme) (b : AttBlock) (l : List TDesc) : Bool :=
  let d (i : Nat) : TDesc := l.getD i {}
  let ok (d : TDesc) : Bool := rowFmt d.fmt && !d.scaled && !d.sparse && d.layout == 0 && d.v 2 == 1 && d.v 3 == 1
  let bwd := bit x.variant 1
  let like (i j : Nat) : Bool := ok (d i) && (d i).v 0 == (d j).v 0 && (d i).v 1 == (d j).v 1
  1 ≤ b.hq && 1 ≤ b.hkv && b.hq % b.hkv == 0 && 32 ≤ b.d && b.d ≤ 256 && b.d % 32 == 0 &&
  ok (d 0) && (d 0).v 0 == b.hq * b.d && like 2 0 && ok (d 1) && (d 1).v 0 == 2 * b.hkv * b.d && (d 1).v 1 == (d 0).v 1 &&
  (if bit x.variant 0 then b.hkv == s.kvH x.part && b.d == s.kvD x.part && x.layer < s.kvL x.part else (d 1).fmt != 0x08) &&
  ((b.lse == 0 && !bwd) ||
    ((d 3).fmt == 0x08 && !(d 3).scaled && (d 3).layout == 0 && (d 3).v 0 == b.hq && (d 3).v 1 == (d 0).v 1)) &&
  (!bwd || (like 4 0 && like 5 0 && like 6 1))

/-- Plan ATTENTION: descriptors as `attFits` takes them; block 2 the attention block, block 3 the row list. -/
def State.planAttention (s : State) (w : Acc) (x : Forme) (share : Nat) : Except PlanErr Plan := do
  let bwd := bit x.variant 1
  s.attAllowed x
  want (x.aux != 0)
  let blk ← s.readBlock w x.aux 64 64
  let b := AttBlock.parse blk
  let dQ ← s.readDesc w (x.opd 0)
  let dN ← s.readDesc w (x.opd 1)
  let dO ← s.readDesc w (x.opd 2)
  let rows ← s.readBlock w b.rows (8 * dQ.v 1) 1
  let rope ← if b.rope == 0 then pure [] else s.readBlock w b.rope 16 1
  let rdim := bits (fieldAt rope 0xC 4) 0 9
  want (b.rope == 0 || (rdim % 2 == 0 && 2 ≤ rdim && rdim ≤ b.d))
  let lse ← s.readDesc0 w b.lse
  let dF ← if bwd then s.readDesc w b.outF else pure {}
  let dD ← if bwd then s.readDesc w b.dout else pure {}
  let dW ← if bwd then s.readDesc w b.dnew else pure {}
  let p : Plan := { m := dQ.v 1, n := b.hkv, descs := [dQ, dN, dO, lse, dF, dD, dW], blocks := [(2, blk), (3, rows)] }
  want (s.attFits x b p.descs)
  if share == 0 then .error { status := 0x01 } else
    match attRows b (s.attElem x p) share with
    | none => .error noFit
    | some rt =>
      let p : Plan := { p with mt := rt, foot := attFoot b (s.attElem x p) rt }
      pure { p with tiles := p.runs.length * b.hkv }

/-- A vector of FP32 codes rotated by the block's table. -/
def State.rotate (s : State) (w : Acc) (b : AttBlock) (pos : Nat) (inv : Bool) (v : List Nat) : List Nat :=
  if b.rope == 0 then v else (s.readRope w b.rope).apply pos inv v

/-- Codes of a vector in a format, from FP32 codes, to nearest even. -/
def toFmt (fmt : Nat) (e4nan : Bool) (v : List Nat) : List Nat := v.map fun c => (convert fmt .near e4nan (fp32.decode c)).1

/-- The key row of NEWKV for row r and KV head g, rotated, as codes of format κ (R314, R315). -/
def State.newKey (s : State) (w : Acc) (b : AttBlock) (p : Plan) (e4nan : Bool) (kappa r g : Nat) : List Nat :=
  let k := (List.range b.d).map fun d => fp32.near (s.elem w (p.d 1) (g * b.d + d) r 0 0)
  toFmt kappa e4nan (s.rotate w b (p.row r).1 false k)

/-- The value row of NEWKV. -/
def State.newVal (s : State) (w : Acc) (b : AttBlock) (p : Plan) (e4nan : Bool) (kappa r g : Nat) : List Nat :=
  toFmt kappa e4nan ((List.range b.d).map fun d => fp32.near (s.elem w (p.d 1) ((b.hkv + g) * b.d + d) r 0 0))

/-- Keys and values of a KV head by chunks of 64, with their visibility, for a row: chunks of (key, value, visible) as codes
of κ (R309, R312, R315; log entries 22, 23). -/
def State.keyChunks (s : State) (w : Acc) (x : Forme) (b : AttBlock) (p : Plan) (kappa r g : Nat) :
    List (List (List Nat × List Nat × Bool)) :=
  let row := p.row r
  let e := elemBits kappa / 8
  let vec (a : Nat) : List Nat := (List.range b.d).map fun d => s.poolRd w (a + d * e) e
  if bit x.variant 0 then
    let q := s.kvSeq x.part row.2.1
    (List.range (row.1 / 64 + 1)).map fun c => (List.range 64).map fun j =>
      let pos := 64 * c + j
      match q.blockAt pos with
      | some blk =>
        if pos ≤ row.1 then (vec (s.kvVec x.part blk x.layer g j false), vec (s.kvVec x.part blk x.layer g j true), true)
        else ([], [], false)
      | none => ([], [], false)
  else
    let rows := (List.range p.m).filter fun r' => (p.row r').2.1 == row.2.1
    (chunks 64 rows.length rows).map fun c => c.map fun r' =>
      (s.newKey w b p x.e4m3Nan kappa r' g, s.newVal w b p x.e4m3Nan kappa r' g,
        !(bit x.variant 2) || (p.row r').1 ≤ row.1)

/-- A platen sum of products of two lists of κ codes, to FP32 (R315). -/
def dotK (kappa : Nat) (a b : List Nat) : Nat :=
  platenSum (if elemBits kappa == 8 then .short8 else .short16) ((a.zip b).map fun x => (decodeElem kappa x.1, decodeElem kappa x.2))

/-- A query row and head: rotated and converted to κ. -/
def State.queryK (s : State) (w : Acc) (x : Forme) (b : AttBlock) (p : Plan) (kappa r h : Nat) : List Nat :=
  toFmt kappa x.e4m3Nan (s.rotate w b (p.row r).1 false
    ((List.range b.d).map fun d => fp32.near (s.elem w (p.d 0) (h * b.d + d) r 0 0)))

/-- The running maximum, the running sum and the accumulators of a row and head as FP32 codes (R315), and per chunk with a visible key
the weights in format κ with the values that they multiply. -/
structure AttPass where
  max : Nat := f32NegInf
  sum : Nat := 0
  acc : List Nat
  sums : List (List Nat × List (List Nat)) := []

/-- One chunk of the forward pass (R315); the flag says that a score has ended it. -/
def Forme.attChunk (x : Forme) (b : AttBlock) (kappa : Nat) (q : List Nat) (st : AttPass × Bool)
    (c : List (List Nat × List Nat × Bool)) : AttPass × Bool :=
  let y := st.1
  if st.2 || !c.any (fun k => k.2.2) then st
  else
    let sc := c.map fun k => if k.2.2 then fp32.mulN (dotK kappa q k.1) b.scale else f32NegInf
    let vis := (c.zip sc).filter fun k => k.1.2.2
    let mn := fp32.maxN y.max (rowmax (vis.map fun k => k.2))
    if vis.any fun k => isNan32 k.2 || k.2 == f32PosInf then (y, true)
    else if mn == f32NegInf then st
    else
      let f := sfuExp (fp32.subN y.max mn)
      let e := (c.zip sc).map fun k => if k.1.2.2 then sfuExp (fp32.subN k.2 mn) else 0
      let seen := (c.zip (toFmt kappa x.e4m3Nan e)).filter fun k => k.1.2.2
      let ws := seen.map fun k => k.2
      let vs := seen.map fun k => k.1.2.1
      let acc := (List.range b.d).map fun d =>
        fp32.addN (fp32.mulN (y.acc.getD d 0) f) (dotK kappa ws (vs.map fun v => v.getD d 0))
      ({ max := mn, sum := fp32.addN (fp32.mulN y.sum f) (rowsum e), acc := acc, sums := y.sums ++ [(ws, vs)] }, false)

/-- Forward pass of a row and head over its chunks; the flag says that its outputs are NaN. -/
def State.attPass (s : State) (w : Acc) (x : Forme) (b : AttBlock) (p : Plan) (kappa r h : Nat) : AttPass × Bool :=
  (s.keyChunks w x b p kappa r (h * b.hkv / b.hq)).foldl (x.attChunk b kappa (s.queryK w x b p kappa r h))
    ({ acc := List.replicate b.d 0 }, false)

/-- Forward pass of a row and head: outputs and log-sum-exp as FP32 codes (R315). -/
def State.attForward (s : State) (w : Acc) (x : Forme) (b : AttBlock) (p : Plan) (kappa r h : Nat) : List Nat × Nat :=
  match s.attPass w x b p kappa r h with
  | (_, true) => (List.replicate b.d fp32.nan, fp32.nan)
  | (y, false) =>
    if fp32.decode y.sum == .fin false 0 fp32.emin then (List.replicate b.d 0, f32NegInf)
    else
      let q := sfuRecip y.sum
      (y.acc.map fun a => fp32.mulN a q, fp32.addN y.max (sfuLog y.sum))

/-- The common part of the backward pass for a row, head and its keys: per visible key row, the row number, p and ds (R316). -/
def State.attScores (s : State) (w : Acc) (x : Forme) (b : AttBlock) (p : Plan) (kappa r h : Nat) :
    List (Nat × List Nat × Nat × Nat) :=
  let g := h * b.hkv / b.hq
  let q := s.queryK w x b p kappa r h
  let el (d : TDesc) (i : Nat) : Nat := fp32.near (s.elem w d (h * b.d + i) r 0 0)
  let dout := (List.range b.d).map (el (p.d 5))
  let dsum := rowsum (zipW fp32.mulN dout ((List.range b.d).map (el (p.d 4))))
  let lse := fp32.near (s.elem w (p.d 3) h r 0 0)
  let dk := toFmt kappa x.e4m3Nan dout
  let rows := (List.range p.m).filter fun r' =>
    (p.row r').2.1 == (p.row r).2.1 && (!(bit x.variant 2) || (p.row r').1 ≤ (p.row r).1)
  rows.map fun r' =>
    let k := s.newKey w b p x.e4m3Nan kappa r' g
    let sc := fp32.mulN (dotK kappa q k) b.scale
    let pj := sfuExp (fp32.subN sc lse)
    let dp := dotK kappa dk (s.newVal w b p x.e4m3Nan kappa r' g)
    (r', k, pj, fp32.mulN pj (fp32.subN dp dsum))

/-- dQ of a row and head. -/
def State.attDq (s : State) (w : Acc) (x : Forme) (b : AttBlock) (p : Plan) (kappa r h : Nat) : List Nat :=
  let sc := s.attScores w x b p kappa r h
  let ds := toFmt kappa x.e4m3Nan (sc.map fun t => t.2.2.2)
  let v := (List.range b.d).map fun d => fp32.mulN b.scale (dotK kappa ds (sc.map fun t => t.2.1.getD d 0))
  s.rotate w b (p.row r).1 true v

/-- dK and dV of key row j and KV head g: sums over rows, then query heads, ascending. -/
def State.attDkv (s : State) (w : Acc) (x : Forme) (b : AttBlock) (p : Plan) (kappa j g : Nat) : List Nat × List Nat :=
  let heads := (List.range b.hq).filter fun h => h * b.hkv / b.hq == g
  let z : List Nat := List.replicate b.d 0
  let r := (List.range p.m).foldl (fun (a : List Nat × List Nat) r => heads.foldl (fun (a : List Nat × List Nat) h =>
    match (s.attScores w x b p kappa r h).find? fun t => t.1 == j with
    | none => a
    | some t =>
      let q := (s.queryK w x b p kappa r h).map fun c => fp32.near (decodeElem kappa c)
      let dout := (List.range b.d).map fun d => fp32.near (s.elem w (p.d 5) (h * b.d + d) r 0 0)
      let f := fp32.mulN b.scale t.2.2.2
      (zipW fp32.addN a.1 (q.map fun c => fp32.mulN f c), zipW fp32.addN a.2 (dout.map fun c => fp32.mulN t.2.2.1 c))) a)
    (z, z)
  (s.rotate w b (p.row j).1 true r.1, r.2)

/-- κ of an ATTENTION forme: the format of the keys and values (R309). -/
def State.attKappa (s : State) (x : Forme) (p : Plan) : Nat := if bit x.variant 0 then s.kvFmt x.part else (p.d 1).fmt

/-- The platen sums of the output element at row r and column n of an ATTENTION forme, as products (R315, R316): the value sum of each
chunk going forward, the sum over keys of a dQ element going backward. -/
def State.attSums (s : State) (w : Acc) (x : Forme) (p : Plan) (r n : Nat) : List (List (Num × Num)) :=
  let b := AttBlock.parse p.block
  let kappa := s.attKappa x p
  let h := n / b.d
  let d := n % b.d
  let products (ws : List Nat) (vs : List (List Nat)) : List (Num × Num) :=
    ws.zip vs |>.map fun y => (decodeElem kappa y.1, decodeElem kappa (y.2.getD d 0))
  if bit x.variant 1 then
    let sc := s.attScores w x b p kappa r h
    [products (toFmt kappa x.e4m3Nan (sc.map fun t => t.2.2.2)) (sc.map fun t => t.2.1)]
  else if x.refusedRows.contains r then []
  else (s.attPass w x b p kappa r h).1.sums.map fun y => products y.1 y.2

/-- Output runs of an ATTENTION tile (R315 to R317). -/
def State.attRuns (s : State) (w : Acc) (x : Forme) (p : Plan) (i : Nat) : List OutRow :=
  let b := AttBlock.parse p.block
  let runs := p.runs
  let run := runs.getD (i % runs.length) (0, 0)
  let g := i / runs.length
  let kappa := s.attKappa x p
  let heads := (List.range b.hq).filter fun h => h * b.hkv / b.hq == g
  let out (d : TDesc) (a0 r : Nat) (v : List Nat) : OutRow :=
    { d := d, a0 := a0, i1 := r, i2 := 0, i3 := 0, vals := v.map fp32.decode }
  (rangeFrom run.1 run.2).flatMap fun r =>
    if bit x.variant 1 then
      let kv := s.attDkv w x b p kappa r g
      (heads.map fun h => out (p.d 2) (h * b.d) r (s.attDq w x b p kappa r h)) ++
      [out (p.d 6) (g * b.d) r kv.1, out (p.d 6) ((b.hkv + g) * b.d) r kv.2]
    else if x.refusedRows.contains r then []
    else heads.flatMap fun h =>
      let o := s.attForward w x b p kappa r h
      [out (p.d 2) (h * b.d) r o.1] ++ (if b.lse == 0 then [] else [out (p.d 3) h r [o.2]])

/-- Row validation of a cache-mode forme by the table engine, in order (R312): refused rows, sequences with accepted rows. -/
def State.validateRows (s : State) (i : Nat) (p : Plan) : State :=
  let x := s.forme i
  (List.range p.m).foldl (fun (s : State) r =>
    let e := p.row r
    let q := s.kvSeq x.part e.2.1
    let bad := q.st != 1 || !q.inBatch || (e.2.2 && (e.1 < q.committed || q.written < e.1)) ||
      64 * q.list.length ≤ e.1 || (!e.2.2 && q.written ≤ e.1)
    if bad then s.modForme i fun y => { y with refusedRows := y.refusedRows ++ [r], oor := y.oor + 1 }
    else
      let s := if e.2.2 then
          let s := s.modSeq x.part e.2.1 fun q => { q with written := max q.written (e.1 + 1) }
          match q.blockAt e.1 with
          | some b => s.modKv x.part fun k =>
            { k with blocks := AMap.put b { (AMap.getD b {} k.blocks) with tentative := true } k.blocks }
          | none => s
        else s
      if (s.forme i).busySeqs.contains e.2.1 then s
      else (s.modForme i fun y => { y with busySeqs := y.busySeqs ++ [e.2.1] }).modSeq x.part e.2.1 fun q =>
        { q with busy := q.busy + 1 }) s

/-- Keys and values of the accepted WRITE rows go to the cache (R313); the first fault of the pool is returned. -/
def State.writeCache (s : State) (i : Nat) (w : Acc) (p : Plan) : State × Option (AccFault × Nat) :=
  let x := s.forme i
  let b := AttBlock.parse p.block
  let kappa := s.kvFmt x.part
  let e := elemBits kappa / 8
  let jobs := (List.range p.m).flatMap fun r =>
    if (p.row r).2.2 && !x.refusedRows.contains r then (List.range b.hkv).map fun g => (r, g) else []
  jobs.foldl (fun (a : State × Option (AccFault × Nat)) j =>
    match a.2 with
    | some _ => a
    | none =>
      let pos := (p.row j.1).1
      match (a.1.kvSeq x.part (p.row j.1).2.1).blockAt pos with
      | none => a
      | some blk =>
        let put (s : State) (value : Bool) (v : List Nat) : State × Option (AccFault × Nat) :=
          let ad := s.kvVec x.part blk x.layer j.2 (pos % 64) value
          match s.poolFault w ad (b.d * e) true with
          | some f => (s, some f)
          | none => s.wr w ad (v.flatMap fun c => toBytes e c)
        match put a.1 false (s.newKey w b p x.e4m3Nan kappa j.1 j.2) with
        | (s1, some f) => (s1, some f)
        | (s1, none) => put s1 true (s.newVal w b p x.e4m3Nan kappa j.1 j.2)) (s, none)

end Sys2Proof.Machine
end

