-- ==== Sys2Proof/Machine/KvTables.lean ====
section
/-! DEFINITION. What the table engine of a partition does with one entry: blocks, sequences, prefix nodes, rings and accounts
(R304 to R341). -/

namespace Sys2Proof.Machine

/-- Bytes as little-endian words. -/
def wordsOf (b : List Byte) : List Nat := (List.range (ceilDiv b.length 4)).map fun i => fieldAt b (4 * i) 4

/-- Pad or cut to n bytes. -/
def fit (n : Nat) (b : List Byte) : List Byte := (b ++ List.replicate n 0).take n

/-! ### Table sizes and results -/

def State.kvSeqs (s : State) : Nat := 4096 / s.k
def State.kvNodes (s : State) : Nat := 131072 / s.k
def State.kvAccounts (s : State) : Nat := 16384 / s.k
def State.kvPool (s : State) (p : Nat) : Nat := s.f (Pg.kv p) F.KV_POOL_BLOCKS

/-- Codes of R346 used below. -/
def kvNoSeq : Nat := 0x32
def kvNoBlocks : Nat := 0x33
def kvStale : Nat := 0x34
def kvState : Nat := 0x35
def kvBeyond : Nat := 0x36
def kvCount : Nat := 0x37
def kvSwapArea : Nat := 0x38
def kvNoVictim : Nat := 0x39
def kvAccount : Nat := 0x3A
def kvDeferred : Nat := 0x3B
def kvTooLong : Nat := 0x3C
def kvUnset : Nat := 0x3D

/-- Why an entry fails: a code of R346, or a fault. -/
inductive KvErr where
  | code (c : Nat)
  | fault (f : AccFault) (addr : Nat)
  /-- a code whose entry leaves a mark: a deferred release (R323), a swap area refused (R334) -/
  | after (c : Nat) (s : State)

/-- What an entry answers: the state after it, and words 1 to 3 of its result. -/
abbrev KvRes := Except KvErr (State × Nat × Nat × Nat)

/-- The table engine as an accessor, and its UNIT code (R568). -/
def kvUnit (p : Nat) : Nat := 0x320 + p
def kvAcc (p : Nat) : Acc := { part := p, core := none, who := .unit (kvUnit p) }

/-! ### Accesses of the engine -/

/-- Read bytes at a thread address. -/
def State.kvRead (s : State) (p a n : Nat) : Except KvErr (List Byte) :=
  match s.rd? (kvAcc p) a n with
  | .ok b => .ok b
  | .error e => .error (.fault e.1 e.2)

/-- Write bytes at a thread address. -/
def State.kvWrite (s : State) (p a : Nat) (b : List Byte) : Except KvErr State :=
  match s.wr (kvAcc p) a b with
  | (s, none) => .ok s
  | (_, some e) => .error (.fault e.1 e.2)

/-- Write to the pool. -/
def State.poolWrite (s : State) (p a : Nat) (b : List Byte) : Except KvErr State :=
  match s.poolFault (kvAcc p) a b.length true with
  | some e => .error (.fault e.1 e.2)
  | none => s.kvWrite p a b

/-- Read from the pool. -/
def State.poolRead (s : State) (p a n : Nat) : Except KvErr (List Byte) :=
  match s.poolFault (kvAcc p) a n false with
  | some e => .error (.fault e.1 e.2)
  | none => s.kvRead p a n

/-! ### Blocks (R305, R320) -/

/-- Free blocks of a pool of n blocks. -/
def Kv.free (k : Kv) (n : Nat) : Nat := k.freed.length + (n - k.fresh)

/-- Take the block at the head of the free list. -/
def Kv.take (k : Kv) (n : Nat) : Option (Nat × Kv) :=
  match k.freed with
  | b :: t => some (b, { k with freed := t, blocks := AMap.put b { refs := 1 } k.blocks })
  | [] => if k.fresh < n then some (k.fresh, { k with fresh := k.fresh + 1, blocks := AMap.put k.fresh { refs := 1 } k.blocks })
    else none

def Kv.block (k : Kv) (b : Nat) : KvBlock := AMap.getD b {} k.blocks
def Kv.setBlock (k : Kv) (b : Nat) (x : KvBlock) : Kv := { k with blocks := AMap.put b x k.blocks }

/-- One more reference. -/
def Kv.incRef (k : Kv) (b : Nat) : Kv := k.setBlock b { (k.block b) with refs := (k.block b).refs + 1 }

/-- One reference less; at 0 the block goes to the head of the free list (R305). -/
def Kv.decRef (k : Kv) (b : Nat) : Kv :=
  if (k.block b).refs ≤ 1 then { k with blocks := AMap.del b k.blocks, freed := b :: k.freed }
  else k.setBlock b { (k.block b) with refs := (k.block b).refs - 1 }

/-- Copy a block whole (R320). -/
def State.copyBlock (s : State) (p src dst : Nat) : Except KvErr State := do
  let b ← s.poolRead p (s.kvBlock p src) (s.kvS p)
  s.poolWrite p (s.kvBlock p dst) b

/-- Reserve a list of n entries for a sequence: copy-on-write of a shared block that holds COMMITTED, and a block for each
missing entry (R320). -/
def State.reserve (s : State) (p : Nat) (q : KvSeq) (n : Nat) : Except KvErr (State × KvSeq) := do
  let pool := s.kvPool p
  let r ← match q.blockAt q.committed with
    | some b =>
      if 1 < ((s.kv p).block b).refs then
        match (s.kv p).take pool with
        | none => Except.error (KvErr.code kvNoBlocks)
        | some (b', k) =>
          let k := (k.setBlock b' { refs := 1, fill := q.committed % 64 }).decRef b
          let s ← (s.setKv p k).copyBlock p b b'
          pure (s, { q with list := q.list.set (q.committed / 64) b' })
      else pure (s, q)
    | none => pure (s, q)
  (List.range (n - r.2.list.length)).foldlM (fun (a : State × KvSeq) _ =>
    match (a.1.kv p).take pool with
    | none => .error (.code kvNoBlocks)
    | some (b, k) => .ok (a.1.setKv p k, { a.2 with list := a.2.list ++ [b] })) r

/-- Write tokens to the headers of consecutive positions of a sequence; positions beyond its list are skipped (R322). -/
def State.writeTokens (s : State) (p : Nat) (q : KvSeq) (pos : Nat) (toks : List Nat) : Except KvErr State :=
  (List.range toks.length).foldlM (fun (s : State) i =>
    match q.blockAt (pos + i) with
    | some b => s.poolWrite p (s.kvBlock p b + 4 * ((pos + i) % 64)) (toBytes 4 (toks.getD i 0))
    | none => .ok s) s

/-- Free blocks at or above HIGH_WATER make KV_LOW ready to be raised again (R331). Between two entries blocks only come free, so it is
enough to look as each entry begins. -/
def State.kvArm (s : State) (p : Nat) : State :=
  s.modKv p fun k => { k with lowArmed := k.lowArmed || s.f (Pg.kv p) F.KV_HIGH_WATER ≤ k.free (s.kvPool p) }

/-- Watermarks after an entry that allocates blocks (R331). -/
def State.watermarks (s : State) (p : Nat) : State :=
  let k := s.kv p
  if k.lowArmed && k.free (s.kvPool p) < s.f (Pg.kv p) F.KV_LOW_WATER then
    let s := (s.setKv p { k with lowArmed := false }).event (Pg.kv p) Ev.KV_KV_LOW
    if s.f (Pg.kv p) F.KV_EN == 1 && s.f (Pg.kv p) F.KV_CTR < s.ctrsPer then s.opAdd (s.devCtr p (s.f (Pg.kv p) F.KV_CTR)) 1
    else s
  else s

/-! ### Rings (R336 to R338) -/

/-- Handle of a node (R327). -/
def Kv.handle (k : Kv) (n : Option Nat) : Nat :=
  match n with
  | some i => i + (AMap.getD i {} k.nodes).gen * 2 ^ 17
  | none => 0

/-- Write one entry to a ring that has room: the entry and RING_SEQ. -/
def State.ringPut (s : State) (p n : Nat) (e : RingEntry) : State :=
  let q := s.kvSeq p n
  let b := toBytes 4 q.ringSeq ++ toBytes 4 (if e.kind == 0 then e.tok else 0) ++
    toBytes 4 (e.kind + (if e.kind == 1 then e.tok % 256 * 256 else 0)) ++ toBytes 4 e.pos ++ toBytes 8 e.time ++
    toBytes 8 e.handle
  let s := (s.storeRec p (kvUnit p) none (q.ring + 32 + 32 * (q.ringSeq % 2 ^ q.ringLog2)) b).1
  s.modSeq p n fun q => { q with ringSeq := (q.ringSeq + 1) % 2 ^ 32 }

/-- Whether a ring is full, reading CONSUMED only when the copy shows it full (R337). A read that fails leaves its record; the copy
stays, and so does the entry (R75, R90, R455). -/
def State.ringFull (s : State) (p n : Nat) : State × Bool :=
  let q := s.kvSeq p n
  let full (c : Nat) : Bool := (q.ringSeq + 2 ^ 32 - c) % 2 ^ 32 == 2 ^ q.ringLog2
  if !full q.consumed then (s, false)
  else
    match s.rd? (kvAcc p) (q.ring + 4) 4 with
    | .error e => (s.faultRecord p (kvUnit p) e.2 e.1, true)
    | .ok b => (s.modSeq p n fun q => { q with consumed := ofBytes b }, full (ofBytes b))

/-- Offer one entry to the ring: written, or held with every entry after it (R337). -/
def State.ringOffer (s : State) (p n : Nat) (e : RingEntry) : State × Bool :=
  let q := s.kvSeq p n
  let hold (s : State) : State :=
    let s := if (s.kvSeq p n).pend.isEmpty then s.event (Pg.kv p) Ev.KV_RING_FULL else s
    s.modSeq p n fun q => { q with pend := q.pend ++ [e] }
  if !q.pend.isEmpty then (hold s, false)
  else
    let r := s.ringFull p n
    if r.2 then (hold r.1, false) else (r.1.ringPut p n e, true)

/-- PRODUCED after a sequence's entries, and the interrupt of R338; `urgent` tells an END or PREEMPTED among them. The message clears the
vector's count when it is sent; while the vector is masked the count runs on (R473). -/
def State.ringProduced (s : State) (p n count : Nat) (urgent : Bool) : State :=
  if count == 0 then s
  else
    let q := s.kvSeq p n
    let s := (s.storeRec p (kvUnit p) none q.ring (toBytes 4 q.ringSeq)).1
    let old := AMap.getD q.vector (0, s.power.time) (s.kv p).rings
    let c := old.1 + count
    let s := s.modKv p fun k => { k with rings := AMap.put q.vector (c, old.2) k.rings }
    if urgent || max 1 (s.f (Pg.kv p) F.KV_COUNT) ≤ c then s.interrupt (p + 1) q.vector else s

/-- Write entries of one sequence to its ring (R336). -/
def State.ringWrite (s : State) (p n : Nat) (es : List RingEntry) : State :=
  let r := es.foldl (fun (a : State × Nat × Bool) e =>
    let w := a.1.ringOffer p n e
    if w.2 then (w.1, a.2.1 + 1, a.2.2 || e.kind == 1 || e.kind == 2) else (w.1, a.2.1, a.2.2)) (s, 0, false)
  let toks := (es.filter fun e => e.kind == 0).length
  (r.1.incF2 (Pg.kv p) F.KV_TOKENS_LO F.KV_TOKENS_HI toks).ringProduced p n r.2.1 r.2.2

/-- A ring entry of kinds END, PREEMPTED and RESUMED, created now. -/
def State.ringEvent (s : State) (p n kind reason : Nat) : RingEntry :=
  let q := s.kvSeq p n
  { kind := kind, tok := reason, pos := q.committed, time := s.power.time
    handle := if kind == 1 then (s.kv p).handle q.node else 0 }

/-- A record becomes FREE. -/
def State.freeSeq (s : State) (p n : Nat) : State := s.modKv p fun k => { k with seqs := AMap.del n k.seqs }

/-- Retry a sequence's pending entries in order (R337). -/
def State.retryPending (s : State) (p n : Nat) : State :=
  let es := (s.kvSeq p n).pend
  let s0 := s.modSeq p n fun q => { q with pend := [] }
  let r := es.foldl (fun (a : State × Nat × Bool) e =>
    let q := a.1.kvSeq p n
    if !q.pend.isEmpty then (a.1.modSeq p n fun q => { q with pend := q.pend ++ [e] }, a.2)
    else
      let f := a.1.ringFull p n
      if f.2 then (f.1.modSeq p n fun q => { q with pend := [e] }, a.2)
      else (f.1.ringPut p n e, a.2.1 + 1, a.2.2 || e.kind == 1 || e.kind == 2)) (s0, 0, false)
  let s := r.1.ringProduced p n r.2.1 r.2.2
  if (s.kvSeq p n).pend.isEmpty && (s.kvSeq p n).st == 5 then s.freeSeq p n else s

/-! ### Rewinding and releasing (R308, R322) -/

/-- Step 3 of R322: COMMITTED and WRITTEN become c', FILL and TENTATIVE follow, blocks beyond c' leave the list. A block that others name
too keeps the positions that they have committed in it. -/
def State.commitTo (s : State) (p n c' : Nat) : State :=
  let q := s.kvSeq p n
  let keep := q.list.take (c' / 64 + 1)
  let drop := q.list.drop (c' / 64 + 1)
  let k := drop.foldl (fun (k : Kv) e => if bit e 31 then k else k.decRef (bits e 0 20)) (s.kv p)
  let k := (List.range keep.length).foldl (fun (k : Kv) j =>
    let e := keep.getD j 0
    let b := bits e 0 20
    let x := k.block b
    if bit e 31 then k
    else k.setBlock b { x with
      fill := if 1 < x.refs then max x.fill (min 64 (c' - 64 * j)) else min 64 (c' - 64 * j)
      tentative := false }) k
  let s := s.setKv p (k.setSeq n { q with committed := c', written := c', list := keep })
  s.incF (Pg.kv p) F.KV_REWOUND (q.written - c')

/-- Release a sequence with an END entry, which follows the entries `es` of the same table-engine entry (R308, R336). -/
def State.releaseSeq (s : State) (p n reason : Nat) (es : List RingEntry := []) : State :=
  let q := s.kvSeq p n
  let e := s.ringEvent p n 1 reason
  let k := q.list.foldl (fun (k : Kv) e => if bit e 31 then k else k.decRef (bits e 0 20)) (s.kv p)
  let s := s.setKv p (k.setSeq n { q with list := [], inBatch := false, st := 5 })
  let s := s.ringWrite p n (es ++ [e])
  if (s.kvSeq p n).pend.isEmpty then s.freeSeq p n else s

/-! ### The prefix tree (R325 to R330) -/

def Kv.node (k : Kv) (i : Nat) : KvNode := AMap.getD i {} k.nodes
def Kv.setNode (k : Kv) (i : Nat) (x : KvNode) : Kv := { k with nodes := AMap.put i x k.nodes }

/-- Chain hash of a block of tokens under a parent (R326). -/
def Kv.chainHash (k : Kv) (parent : Option Nat) (ns : Nat) (tokens : List Byte) : Nat :=
  ofBytes (shake256 (toBytes 8 (match parent with | some i => (k.node i).hash | none => 0) ++ toBytes 8 ns ++ tokens) 8)

/-- The valid node with a hash, parent and namespace, lowest number first. -/
def Kv.findNode (k : Kv) (hash : Nat) (parent : Option Nat) (ns : Nat) : Option Nat :=
  (k.nodes.find? fun x => x.2.valid && x.2.hash == hash && x.2.parent == parent && x.2.ns == ns).map fun x => x.1

/-- LAST_USE of now (R325). -/
def State.lastUse (s : State) : Nat := bits s.power.time 20 32

/-- Mark a node as used. -/
def State.useNode (s : State) (p i : Nat) : State :=
  s.modKv p fun k => k.setNode i { (k.node i) with lastUse := s.lastUse }

/-- A hash matched with differing tokens (R328, R329). -/
def State.collision (s : State) (p : Nat) : State :=
  (s.satF (Pg.kv p) F.KV_COLLISIONS).event (Pg.kv p) Ev.KV_KV_COLLISION

/-- Evict a node (R328). -/
def Kv.evict (k : Kv) (i : Nat) : Kv :=
  let x := k.node i
  let k := match x.parent with
    | some j => k.setNode j { (k.node j) with children := (k.node j).children - 1 }
    | none => k
  let k := k.setNode i { x with valid := false }
  (k.setBlock x.block { (k.block x.block) with inTree := false }).decRef x.block

/-- Whether EVICT could evict a node (R328, R330). -/
def Kv.evictable (k : Kv) (i : Nat) : Bool :=
  (k.node i).valid && (k.node i).children == 0 && (k.block (k.node i).block).refs == 1

/-- The least recently used node that can be evicted; the lowest number on a tie (log entry 26). -/
def Kv.lruNode (k : Kv) : Option Nat :=
  (k.nodes.filter fun x => k.evictable x.1).foldl (fun (b : Option Nat) x =>
    match b with
    | some i => if x.2.lastUse < (k.node i).lastUse then some x.1 else b
    | none => some x.1) none

/-- Evict up to n nodes in least-recently-used order, while `go` says so; the count evicted. -/
def Kv.trim (go : Kv → Bool) : Nat → Kv → Nat × Kv
  | 0, k => (0, k)
  | n + 1, k =>
    if !go k then (0, k)
    else match k.lruNode with
      | none => (0, k)
      | some i => let r := Kv.trim go n (k.evict i); (r.1 + 1, r.2)

/-- A node slot: the lowest that is not valid, else the least recently used that can be evicted (R328). -/
def State.nodeSlot (s : State) (p : Nat) : Option (Nat × State) :=
  let k := s.kv p
  match (List.range s.kvNodes).find? fun i => !(k.node i).valid with
  | some i => some (i, s)
  | none => match k.lruNode with
    | some i => some (i, s.setKv p (k.evict i))
    | none => none

/-- Publish full block j of a sequence (R328). -/
def State.publish (s : State) (p n j : Nat) : Except KvErr State := do
  let q := s.kvSeq p n
  let stop (s : State) : State := s.modSeq p n fun q => { q with publish := false }
  let b := bits (q.list.getD j 0) 0 20
  let onChain := j == 0 || (match q.node with | some i => ((s.kv p).node i).depth == j | none => false)
  if !onChain then pure (stop s)
  else
    let parent := if j == 0 then none else q.node
    let tokens ← s.poolRead p (s.kvBlock p b) 256
    let h := (s.kv p).chainHash parent q.ns tokens
    match (s.kv p).findNode h parent q.ns with
    | some i =>
      let other ← s.poolRead p (s.kvBlock p ((s.kv p).node i).block) 256
      if other == tokens then pure ((s.useNode p i).modSeq p n fun q => { q with node := some i })
      else pure (stop (s.collision p))
    | none =>
      match s.nodeSlot p with
      | none => pure (stop s)
      | some (i, s) =>
        let k := s.kv p
        let gen := if (k.node i).gen + 1 < 2 ^ 47 then (k.node i).gen + 1 else 1
        let depth := match parent with | some j => (k.node j).depth + 1 | none => 1
        let k := match parent with
          | some j => k.setNode j { (k.node j) with children := (k.node j).children + 1 }
          | none => k
        let k := k.setNode i { hash := h, ns := q.ns, block := b, valid := true, parent := parent, depth := depth
                               children := 0, lastUse := s.lastUse, gen := gen }
        let k := (k.setBlock b { (k.block b) with inTree := true }).incRef b
        pure ((s.setKv p k).modSeq p n fun q => { q with node := some i })

/-- Match the leading full blocks of tokens, at most `fuel` (R329): the state, the nodes' blocks in order, the deepest node. -/
def State.matchBlocks (s : State) (p ns addr : Nat) : Nat → Nat → Option Nat → List Nat →
    Except KvErr (State × List Nat × Option Nat)
  | 0, _, node, blocks => .ok (s, blocks, node)
  | fuel + 1, j, node, blocks => do
    let tokens ← s.kvRead p (addr + 256 * j) 256
    let h := (s.kv p).chainHash node ns tokens
    match (s.kv p).findNode h node ns with
    | none => pure (s, blocks, node)
    | some i =>
      let b := ((s.kv p).node i).block
      let other ← s.poolRead p (s.kvBlock p b) 256
      if other == tokens then (s.useNode p i).matchBlocks p ns addr fuel (j + 1) (some i) (blocks ++ [b])
      else pure (s.collision p, blocks, node)

/-- Resolve a handle (R329). -/
def Kv.resolveHandle (k : Kv) (h ns : Nat) : Option Nat :=
  let i := bits h 0 17
  if (k.node i).valid && (k.node i).gen == h / 2 ^ 17 && (k.node i).ns == ns then some i else none

/-- The blocks from the root to a node; the fuel is its depth. -/
def Kv.chain (k : Kv) : Nat → Option Nat → List Nat
  | 0, _ => []
  | _, none => []
  | n + 1, some i => Kv.chain k n (k.node i).parent ++ [(k.node i).block]

/-! ### Entries of DECODE_REQ (R318 to R323) -/

/-- ADMIT (R319). -/
def State.admitEntry (s : State) (p : Nat) (b : List Byte) : KvRes := do
  let w := fieldAt b 0x1C 4
  let w38 := fieldAt b 0x38 4
  let len := fieldAt b 0x18 4
  let prompt := fieldAt b 0x10 8
  let ns := fieldAt b 0x20 8
  let fork := bit w 18
  let handle := fieldAt b 8 8
  let lookup := bit w 17
  if s.kvPool p == 0 then .error (.code kvUnset) else
  match (List.range s.kvSeqs).find? fun n => (s.kvSeq p n).st == 0 with
  | none => .error (.code kvNoSeq)
  | some n =>
    if s.kvAccounts ≤ bits w 0 14 then .error (.code kvAccount)
    -- fields outside their ranges (log entry 28)
    else if (len == 0 && !fork) || bits w38 0 5 < 4 || 20 < bits w38 0 5 then .error (.code kvCount)
    else
      -- start of the list: state, list, committed, node
      let st ← if fork then
          let q := s.kvSeq p (bits w 19 12)
          if q.st != 1 then Except.error (KvErr.code kvState)
          else pure (s, q.list.take (q.committed / 64 + 1), q.committed, q.node)
        else if handle != 0 then
          match (s.kv p).resolveHandle handle ns with
          | none => Except.error (KvErr.code kvStale)
          | some i =>
            let d := ((s.kv p).node i).depth
            pure (s.useNode p i, (s.kv p).chain d (some i), 64 * d, some i)
        else if lookup then do
          let r ← s.matchBlocks p ns prompt ((len - 1) / 64) 0 none []
          pure (r.1, r.2.1, 64 * r.2.1.length, r.2.2)
        else pure (s, [], 0, none)
      let s1 := st.1
      let list := st.2.1
      let committed := st.2.2.1
      let k := list.foldl (fun (k : Kv) e => k.incRef (bits e 0 20)) (s1.kv p)
      let first := if !fork && handle == 0 && lookup then committed else 0
      let count := len - first
      let need := max list.length (ceilDiv (committed + count) 64)
      if 4096 < need then .error (.code kvTooLong)
      else
        let q : KvSeq :=
          { st := 1, publish := bit w 16, cls := bits w 14 2, committed := committed, written := committed, list := list
            account := bits w 0 14, ringLog2 := bits w38 0 5, tag := fieldAt b 0 8, ns := ns, ring := fieldAt b 0x28 8
            swap := fieldAt b 0x30 8, admitTime := s.power.time, vector := bits w38 8 8, swapBlocks := bits w38 16 16
            node := st.2.2.2 }
        let r ← if count == 0 then pure (s1.setKv p k, q) else (s1.setKv p k).reserve p q need
        let toks ← r.1.kvRead p (prompt + 4 * first) (4 * count)
        let s2 ← r.1.writeTokens p r.2 committed ((chunks 4 count toks).map ofBytes)
        let s3 := (s2.modKv p fun k => k.setSeq n r.2).incF (Pg.kv p) F.KV_ADMITTED
        let s4 := (s3.incF (Pg.kv p) F.KV_PREFIX_BLOCKS list.length).watermarks p
        pure (s4, n, committed, r.2.list.length)

/-- Whether a sequence may be scheduled (R320). -/
def State.schedulable (s : State) (p : Nat) (q : KvSeq) : Bool :=
  let a := AMap.getD q.account {} (s.kv p).accounts
  q.st == 1 && !q.inBatch && q.pend.isEmpty && !q.cancel && !(a.hard && a.balance < 0)

/-- Budget order, highest first (R320): whether sequence a comes before b. -/
def State.budgetBefore (s : State) (p a b : Nat) : Bool :=
  let x := s.kvSeq p a
  let y := s.kvSeq p b
  let bx := (AMap.getD x.account {} (s.kv p).accounts).balance
  let by' := (AMap.getD y.account {} (s.kv p).accounts).balance
  if x.cls != y.cls then y.cls < x.cls
  else if bx != by' then by' < bx
  else if x.admitTime != y.admitTime then x.admitTime < y.admitTime
  else a < b

/-- Insert into a list that is in the order `before`. -/
def insertBy {α : Type} (before : α → α → Bool) (x : α) : List α → List α
  | [] => [x]
  | y :: t => if before x y then x :: y :: t else y :: insertBy before x t

/-- Sort by an order. -/
def sortBy {α : Type} (before : α → α → Bool) (l : List α) : List α := l.foldr (insertBy before) []

/-- The sequences that have a record, in order of number. -/
def Kv.seqNums (k : Kv) : List Nat := k.seqs.map fun x => x.1

/-- SCHEDULE (R320); the batch boundary of R302 has taken place. -/
def State.scheduleEntry (s : State) (p : Nat) (b : List Byte) : KvRes := do
  let maxSeqs := fieldAt b 0 4
  let look := fieldAt b 4 4
  let out := fieldAt b 8 8
  if s.kvPool p == 0 then .error (.code kvUnset)
  else if look < 1 || 64 < look then .error (.code kvCount)
  else
    let s := ((s.kv p).seqNums.filter fun n => !(s.kvSeq p n).pend.isEmpty).foldl (fun s n => s.retryPending p n) s
    let cand := sortBy (s.budgetBefore p) ((s.kv p).seqNums.filter fun n => s.schedulable p (s.kvSeq p n))
    let r ← cand.foldlM (fun (a : State × Nat) n =>
      if maxSeqs ≤ a.2 then Except.ok a
      else
        let q := a.1.kvSeq p n
        let need := max q.list.length (ceilDiv (q.written + look) 64)
        let skip : State × Nat := (a.1.event (Pg.kv p) Ev.KV_KV_NO_BLOCKS, a.2)
        if 4096 < need then .ok skip
        else match a.1.reserve p q need with
          | .error (.code _) => .ok skip
          | .error e => .error e
          | .ok (s1, q1) => do
            let s2 := s1.modKv p fun k => k.setSeq n { q1 with inBatch := true }
            let s3 ← s2.kvWrite p (out + 16 * a.2)
              (toBytes 4 n ++ toBytes 4 q1.committed ++ toBytes 4 q1.written ++ toBytes 4 q1.list.length)
            pure (s3, a.2 + 1)) (s, 0)
    pure (r.1.watermarks p, 0, r.2, 0)

/-- Saturate a balance (R339). -/
def satBalance (x : Int) : Int := max (-(2 ^ 31 - 1)) (min (2 ^ 31 - 1) x)

/-- ADVANCE (R322), once BUSY is 0. -/
def State.advanceEntry (s : State) (p : Nat) (b : List Byte) : KvRes := do
  let w := fieldAt b 0 4
  let n := bits w 0 12
  let emit := bits w 12 4
  let finish := bit w 16
  let accept := fieldAt b 4 4
  let q := s.kvSeq p n
  if q.st != 1 || !q.inBatch then .error (.code kvState)
  else if q.written - q.committed < accept || accept < emit || 8 < emit then .error (.code kvCount)
  else
    let c' := q.committed + accept
    if 1 ≤ emit && !finish && 64 * q.list.length ≤ c' then .error (.code kvBeyond)
    else
      let toks := (List.range emit).map fun i => fieldAt b (8 + 4 * i) 4
      let s1 ← s.writeTokens p q (c' + 1 - emit) toks
      let s2 := s1.commitTo p n c'
      let s3 := s2.modKv p fun k =>
        let a := AMap.getD q.account {} k.accounts
        { k with
          accounts := AMap.put q.account { a with balance := satBalance (a.balance - Int.ofNat accept)
                                                  charged := a.charged + accept } k.accounts }
      let full := (rangeFrom (q.committed / 64) (c' / 64 - q.committed / 64))
      let s4 ← full.foldlM (fun (s : State) j => if (s.kvSeq p n).publish then s.publish p n j else Except.ok s) s3
      let es := (List.range emit).map fun i =>
        ({ kind := 0, tok := toks.getD i 0, pos := c' + 1 - emit + i, time := s.power.time, handle := 0 } : RingEntry)
      let s5 := if finish then s4.releaseSeq p n (bits w 24 7) es
        else if q.cancel then s4.releaseSeq p n 0x80 es
        else (s4.ringWrite p n es).modSeq p n fun q => { q with inBatch := false }
      pure (s5, n, c', q.written - c')

/-- RELEASE (R323). -/
def State.releaseEntry (s : State) (p : Nat) (b : List Byte) : KvRes :=
  let n := bits (fieldAt b 0 4) 0 12
  let q := s.kvSeq p n
  if (q.st == 1 && !q.inBatch) || q.st == 3 then .ok (s.releaseSeq p n 0x80, n, 0, 0)
  else if q.st == 1 || q.st == 2 || q.st == 4 then
    .error (.after kvDeferred (s.modSeq p n fun q => { q with cancel := true }))
  else .error (.code kvState)

/-! ### Swaps (R332 to R335) -/

/-- Blocks that only the sequence holds. -/
def Kv.privateBlocks (k : Kv) (q : KvSeq) : Nat := (q.list.filter fun e => !bit e 31 && (k.block (bits e 0 20)).refs == 1).length

/-- The check of R334: every page of the area translates to HOST with HOST_ENC 1. -/
def State.swapAreaOk (s : State) (p : Nat) (q : KvSeq) : Bool :=
  let n := q.list.length * s.kvS p
  n == 0 || (rangeFrom (q.swap / 2 ^ 21) ((q.swap + n - 1) / 2 ^ 21 + 1 - q.swap / 2 ^ 21)).all fun pg =>
    let e := s.entry p pg
    q.swap < 2 ^ 40 && bit e 0 && bits e 1 2 == 2 && bit e 6

/-- Begin to swap a sequence out: rewind, check, copy (R334). A sequence skipped for its area stays rewound. -/
def State.swapOut (s : State) (p n forme : Nat) : Except KvErr State :=
  let q := s.kvSeq p n
  let s := s.commitTo p n q.committed
  if !s.swapAreaOk p (s.kvSeq p n) then .error (.after kvSwapArea (s.event (Pg.kv p) Ev.KV_KV_SWAP_FAULT))
  else .ok ((s.modSeq p n fun q => { q with st := 2 }).modKv p fun k =>
    { k with copies := k.copies ++ [{ seq := n, out := true, forme := forme }] })

/-- Whether a sequence may be a victim (R333). -/
def State.victimOk (s : State) (p n : Nat) : Bool :=
  let q := s.kvSeq p n
  q.st == 1 && !q.inBatch && !q.cancel && q.pend.isEmpty && q.swap != 0 && q.list.length ≤ q.swapBlocks

/-- Victim order (R333). -/
def State.victimBefore (s : State) (p a b : Nat) : Bool :=
  let x := s.kvSeq p a
  let y := s.kvSeq p b
  let bx := (AMap.getD x.account {} (s.kv p).accounts).balance
  let by' := (AMap.getD y.account {} (s.kv p).accounts).balance
  if x.cls != y.cls then x.cls < y.cls
  else if bx != by' then bx < by'
  else if x.admitTime != y.admitTime then y.admitTime < x.admitTime
  else b < a

/-- Blocks that a swap-out that has begun frees: those that its rewind has freed since state s, and the private ones (R333). -/
def State.outFrees (s s1 : State) (p n : Nat) : Nat :=
  (s1.kv p).free (s1.kvPool p) - (s.kv p).free (s.kvPool p) + (s1.kv p).privateBlocks (s1.kvSeq p n)

/-- OUT_AUTO (R333): the victims and the projected free count. Without a victim it fails and changes nothing (R318), but a swap area that
was refused on the way has set KV_SWAP_FAULT (R334). -/
def State.outAuto (s : State) (p forme : Nat) : KvRes :=
  let high := s.f (Pg.kv p) F.KV_HIGH_WATER
  let pool := s.kvPool p
  let free0 := (s.kv p).free pool
  let t := Kv.trim (fun k => k.free pool < high) s.kvNodes (s.kv p)
  let s0 := s
  let s := s.setKv p t.2
  let order := sortBy (s.victimBefore p) ((s.kv p).seqNums.filter fun n => s.victimOk p n)
  let r := order.foldl (fun (a : State × Nat × Nat) n =>
    if high ≤ a.2.2 then a
    else match a.1.swapOut p n forme with
      | .ok s1 => (s1, a.2.1 + 1, a.2.2 + a.1.outFrees s1 p n)
      | .error (.after _ s1) => (s1, a.2.1, a.2.2 + ((s1.kv p).free pool - (a.1.kv p).free pool))
      | .error _ => a) (s, 0, (s.kv p).free pool)
  if r.2.1 == 0 && r.2.2 < high then
    (if order.isEmpty then .error (.code kvNoVictim) else .error (.after kvNoVictim (s0.event (Pg.kv p) Ev.KV_KV_SWAP_FAULT)))
  else .ok (r.1, 0, r.2.1, r.2.2 - free0)

/-- OUT_SEQ (R334). -/
def State.outSeqEntry (s : State) (p forme : Nat) (b : List Byte) : KvRes :=
  let n := bits (fieldAt b 0 4) 0 12
  let q := s.kvSeq p n
  if q.st != 1 || q.inBatch || !q.pend.isEmpty then .error (.code kvState)
  else if q.swap == 0 || q.swapBlocks < q.list.length then
    if (s.commitTo p n q.committed).swapAreaOk p ((s.commitTo p n q.committed).kvSeq p n) then .error (.code kvSwapArea)
    else .error (.after kvSwapArea (s.event (Pg.kv p) Ev.KV_KV_SWAP_FAULT))
  else match s.swapOut p n forme with
    | .ok s1 => .ok (s1, n, 0, s.outFrees s1 p n)
    | .error _ => .error (.after kvSwapArea (s.event (Pg.kv p) Ev.KV_KV_SWAP_FAULT))

/-- Blocks that a resume needs. -/
def KvSeq.outCount (q : KvSeq) : Nat := (q.list.filter fun e => bit e 31).length

/-- Begin to resume a sequence: allocate one block per OUT entry; OUT stays set until the data is back (R335). -/
def State.resumeSeq (s : State) (p n forme : Nat) : Except KvErr State := do
  let q := s.kvSeq p n
  let pool := s.kvPool p
  let r ← (List.range q.list.length).foldlM (fun (a : Kv × List Nat) j =>
    let e := q.list.getD j 0
    if bit e 31 then
      match a.1.take pool with
      | none => Except.error (KvErr.code kvNoBlocks)
      | some (b, k) => .ok (k.setBlock b { refs := 1, fill := min 64 (q.committed - 64 * j) }, a.2 ++ [b + 2 ^ 31])
    else .ok (a.1, a.2 ++ [e])) (s.kv p, [])
  pure ((s.setKv p { r.1 with copies := r.1.copies ++ [{ seq := n, out := false, forme := forme }] }).modSeq p n fun q =>
    { q with list := r.2, st := 4 })

/-- IN_SEQ. -/
def State.inSeqEntry (s : State) (p forme : Nat) (b : List Byte) : KvRes := do
  let n := bits (fieldAt b 0 4) 0 12
  if (s.kvSeq p n).st != 3 then .error (.code kvState)
  else
    let s1 ← s.resumeSeq p n forme
    pure (s1.watermarks p, n, 0, (s.kvSeq p n).outCount)

/-- IN_AUTO (R335). -/
def State.inAuto (s : State) (p forme : Nat) : KvRes :=
  let pool := s.kvPool p
  let low := s.f (Pg.kv p) F.KV_LOW_WATER
  let order := sortBy (s.budgetBefore p) ((s.kv p).seqNums.filter fun n => (s.kvSeq p n).st == 3)
  let r := order.foldl (fun (a : State × Nat × Bool) n =>
    if a.2.2 then a
    else
      let free := (a.1.kv p).free pool
      let need := (a.1.kvSeq p n).outCount
      if free < need + low then (a.1, a.2.1, true)
      else match a.1.resumeSeq p n forme with
        | .ok s1 => (s1, a.2.1 + 1, false)
        | .error _ => (a.1, a.2.1, true)) (s, 0, false)
  .ok (r.1.watermarks p, 0, r.2.1, 0)

/-! ### PREFIX and BUDGET (R330, R341) -/

/-- A PREFIX entry. -/
def State.prefixEntry (s : State) (p op : Nat) (b : List Byte) : KvRes :=
  let h := fieldAt b 8 8
  match op with
  | 0 => do
    let r ← s.matchBlocks p (fieldAt b 0x18 8) h (fieldAt b 0x10 4 / 64) 0 none []
    let v := (r.1.kv p).handle r.2.2
    pure (r.1, 0, v % 2 ^ 32, v / 2 ^ 32)
  | 1 =>
    let n := bits (fieldAt b 4 4) 0 12
    let v := (s.kv p).handle (s.kvSeq p n).node
    .ok (s, n, v % 2 ^ 32, v / 2 ^ 32)
  | 2 =>
    let i := bits h 0 17
    let x := (s.kv p).node i
    if !x.valid || x.gen != h / 2 ^ 17 then .error (.code kvStale)
    else if !(s.kv p).evictable i then .error (.code kvState)
    else .ok (s.setKv p ((s.kv p).evict i), 0, 0, 0)
  | _ =>
    let r := Kv.trim (fun _ => true) (min (fieldAt b 4 4) s.kvNodes) (s.kv p)
    .ok (s.setKv p r.2, 0, r.1, 0)

/-- Bytes of an account (R339). -/
def KvAccount.bytes (a : KvAccount) : List Byte :=
  toBytes 4 (ux 32 a.balance) ++ toBytes 4 a.rate ++ toBytes 4 (ux 32 a.cap) ++
  toBytes 4 (a.rem + b2n a.hard * 2 ^ 10) ++ toBytes 8 a.charged ++ toBytes 8 0

/-- A BUDGET entry. -/
def State.budgetEntry (s : State) (p op : Nat) (b : List Byte) : KvRes :=
  let n := bits (fieldAt b 0 4) 16 16
  let a := AMap.getD n {} (s.kv p).accounts
  let put (a : KvAccount) : State := s.modKv p fun k => { k with accounts := AMap.put n a k.accounts }
  if s.kvAccounts ≤ n then .error (.code kvAccount)
  else match op with
    | 0 => .ok (put { balance := satBalance (sx 32 (fieldAt b 4 4)), rate := fieldAt b 8 4, cap := sx 32 (fieldAt b 0xC 4)
                      hard := bit (fieldAt b 0x10 4) 0 }, 0, 0, 0)
    | 1 => .ok (put { a with balance := satBalance (a.balance + sx 32 (fieldAt b 4 4)) }, 0, 0, 0)
    | 2 => do
      let s1 ← s.kvWrite p (fieldAt b 8 8) a.bytes
      pure (s1, 0, 0, 0)
    | _ => .error (.code kvState)

/-- One refill of an account (R340). -/
def KvAccount.refill (a : KvAccount) : KvAccount :=
  let t := a.rate + a.rem
  { a with rem := t % 1000
           balance := if a.balance < a.cap then min a.cap (a.balance + Int.ofNat (t / 1000)) else a.balance }

/-! ### KV page (R304, R344) -/

/-- Apply the KV page (R304). -/
def State.applyKv (s : State) (p : Nat) : State :=
  let pg := Pg.kv p
  let k := s.kv p
  let sh (o : Nat) : Nat := s.shadowOf (pg * 4096 + o)
  let geo := sh 0x020
  let bad := k.seqs.any (fun x => x.2.st != 0) || k.nodes.any (fun x => x.2.valid) ||
    1048576 / s.k < bits (sh 0x02C) 0 21 || bits geo 0 8 == 0 || bits geo 8 8 == 0 || bits geo 16 4 == 0 || 8 < bits geo 16 4
  if bad then
    let s := { s with shadow := s.shadow.filter fun x => !(pg * 4096 + 0x020 ≤ x.1 && x.1 ≤ pg * 4096 + 0x02C) }
    (s.latch pg).event pg Ev.KV_GEOMETRY_REFUSED
  else
    (s.latch pg).modKv p fun k => { k with freed := [], fresh := 0, blocks := [] }

/-- Words of a table entry (R344). -/
def State.kvPeek (s : State) (p table i : Nat) : Option (List Byte) :=
  let k := s.kv p
  match table with
  | 0 =>
    if 1048576 / s.k ≤ i then none
    else match AMap.get? i k.blocks with
      -- a block that more than one list names does not read as TENTATIVE (R305, R309; log entry 184)
      | some b => some (toBytes 8 (1 + b2n (b.tentative && b.refs == 1) * 2 + b2n b.inTree * 4 + b.fill * 8 + b.refs * 2 ^ 10))
      | none =>
        -- NEXT_FREE: the block after this one on the free list, 0 for the last (log entry 20)
        let next := match k.freed.dropWhile (fun b => b != i) with
          | _ :: n :: _ => n
          | [_] => if k.fresh < s.kvPool p then k.fresh else 0
          | [] => if k.fresh ≤ i && i + 1 < s.kvPool p then i + 1 else 0
        some (toBytes 8 (next * 2 ^ 26))
  | 1 =>
    if s.kvSeqs ≤ i then none
    else
      let q := k.seq i
      let kinds := (List.range q.pend.length).foldl (fun n j => n + (match q.pend[j]? with | some e => e.kind | none => 0) * 4 ^ j) 0
      some (toBytes 4 (q.st + b2n q.inBatch * 8 + b2n (!q.pend.isEmpty) * 16 + b2n q.cancel * 32 + b2n q.publish * 64 +
          q.cls * 128 + q.busy * 2 ^ 16) ++
        toBytes 4 q.committed ++ toBytes 4 q.written ++ toBytes 4 (q.list.length + q.account * 2 ^ 13 + q.ringLog2 * 2 ^ 27) ++
        toBytes 8 q.tag ++ toBytes 8 q.ns ++ toBytes 8 q.ring ++ toBytes 8 q.swap ++ toBytes 8 q.admitTime ++
        toBytes 4 q.ringSeq ++ toBytes 4 (q.vector + q.pend.length * 2 ^ 8 + q.swapBlocks * 2 ^ 16) ++
        toBytes 4 (match q.node with | some n => n + 2 ^ 17 | none => 0) ++ toBytes 4 q.consumed ++ toBytes 4 kinds ++
        ((List.range 12).flatMap fun j => toBytes 4 (match q.pend[j]? with | some e => e.tok | none => 0)) ++ toBytes 4 0)
  | 2 => if 4096 * s.kvSeqs ≤ i then none else some (toBytes 4 ((k.seq (i / 4096)).list.getD (i % 4096) 0))
  | 3 =>
    if s.kvNodes ≤ i then none
    else
      let x := k.node i
      some (toBytes 8 x.hash ++ toBytes 8 x.ns ++ toBytes 4 (x.block + b2n x.valid * 2 ^ 20 + b2n (x.valid && x.parent.isNone) * 2 ^ 21) ++
        toBytes 4 (x.parent.getD 0) ++ toBytes 4 (x.depth + x.children * 2 ^ 16) ++ toBytes 4 x.lastUse ++ toBytes 8 x.gen ++
        List.replicate 24 0)
  | 4 => if s.kvAccounts ≤ i then none else some (AMap.getD i {} k.accounts).bytes
  | _ => none

end Sys2Proof.Machine
end

