-- ==== Sys2Proof/Machine/Windows.lean ====
section
/-! DEFINITION. ELEMENTWISE and COPY, pooling, crop-and-resize, gather and scatter: their checks, tiles and values (R145, R176,
R226 to R239). -/

namespace Sys2Proof.Machine

/-! ### ELEMENTWISE and COPY (R145, R176) -/

/-- Plan ELEMENTWISE or COPY: descriptors 0 input, 1 unused, 2 output; tiles of 64 by 64. -/
def State.planElem (s : State) (w : Acc) (x : Forme) (share : Nat) : Except PlanErr Plan := do
  let copy := x.opcode == 0x0B
  let ext ← if copy then pure [] else s.readExt w x.aux
  let dX ← s.readDesc w (x.opd 0)
  let dY ← s.readDesc w (x.opd 2)
  let e := Ext.parse ext
  want ((List.range 4).all fun i => dX.v i == dY.v i)
  want (!dX.sparse && !dY.sparse && !dY.scaled && (copy || (e.epilogue != 0 && outFmt dY.fmt)))
  if e.graft != 0 then .error badGraft
  else if share == 0 then .error { status := 0x01 }
  else
    let tn := ceilDiv (dX.v 0) 64
    let tm := ceilDiv (dX.v 1) 64
    pure { mt := 64, nt := 64, m := dX.v 1, n := dX.v 0, order := 1, tiles := tn * tm * dX.v 2 * dX.v 3
           foot := if dX.fmt == 0x09 then 65536 else 32768
           descs := [dX, {}, dY], blocks := if ext.isEmpty then [] else [(0, ext)] }

/-- Block of tile i over four dimensions, N_INNER: first column, first row, and the indices of dimensions 2 and 3. -/
def Plan.elemBlock (p : Plan) (i : Nat) : Nat × Nat × Nat × Nat :=
  let d := p.d 2
  let tn := ceilDiv (d.v 0) 64
  let tm := ceilDiv (d.v 1) 64
  (64 * (i % tn), 64 * (i / tn % tm), i / (tn * tm) % d.v 2, i / (tn * tm * d.v 2))

/-- Values of a tile's input, row by row. -/
def State.elemTile (s : State) (w : Acc) (p : Plan) (i : Nat) : List (List Num) :=
  let b := p.elemBlock i
  let d := p.d 0
  (rangeFrom b.2.1 (min 64 (d.v 1 - b.2.1))).map fun r =>
    (rangeFrom b.1 (min 64 (d.v 0 - b.1))).map fun c => s.elem w d c r b.2.2.1 b.2.2.2

/-- Output runs of a tile given its values. -/
def Plan.elemRuns (p : Plan) (i : Nat) (rows : List (List Num)) : List OutRow :=
  let b := p.elemBlock i
  (List.range rows.length).map fun r =>
    { d := p.d 2, a0 := b.1, i1 := b.2.1 + r, i2 := b.2.2.1, i3 := b.2.2.2, vals := rows.getD r [] }

/-! ### Pooling (R226 to R229) -/

/-- Formats of POOL. -/
def poolFmt (f : Nat) : Bool := [0x01, 0x0C, 0x04, 0x05, 0x06, 0x07, 0x08, 0x09].contains f

/-- Footprint of a POOL tile (R229). -/
def poolFoot (w : Window) (argmax f64 : Bool) (wt : Nat) : Nat :=
  let q := if f64 then 512 else 256
  2 * r256 (((wt - 1) * w.sw + (w.kw - 1) * w.dw + 1) * q) + 2 * r256 (wt * q) + (if argmax then r256 (wt * 256) else 0)

/-- Plan POOL: descriptors 0 X, 1 argmax, 2 Y. -/
def State.planPool (s : State) (w : Acc) (x : Forme) (share : Nat) : Except PlanErr Plan := do
  want (x.aux != 0)
  let blk ← s.readBlock w x.aux 32 1
  let win := Window.parse blk
  let avg := bit x.variant 0
  let arg := bit x.variant 2
  want (win.ok false && !(avg && arg))
  let dX ← s.readDesc w (x.opd 0)
  let dA ← if arg then s.readDesc w (x.opd 1) else pure {}
  let dY ← s.readDesc w (x.opd 2)
  want (poolFmt dX.fmt && poolFmt dY.fmt && ((dX.fmt == 0x09) == (dY.fmt == 0x09)) && dX.layout == 0 &&
    !dX.scaled && !dY.scaled && !dX.sparse && !dY.sparse && dX.v 0 == dY.v 0 && dX.v 3 == dY.v 3)
  want (!arg || (dA.fmt == 0x0B && dA.layout == 0 && !dA.scaled && (List.range 4).all fun i => dA.v i == dY.v i))
  if share == 0 then .error { status := 0x01 } else
    match [64, 32, 16, 8].find? fun wt => poolFoot win arg (dX.fmt == 0x09) wt ≤ share with
    | none => .error noFit
    | some wt =>
      pure { mt := wt, nt := 64, m := dY.v 1, n := dY.v 0, foot := poolFoot win arg (dX.fmt == 0x09) wt
             tiles := ceilDiv (dY.v 0) 64 * ceilDiv (dY.v 1) wt * dY.v 2 * dY.v 3
             descs := [dX, dA, dY], blocks := [(2, blk)] }

/-- Tile of POOL: first channel, first column, row, image. -/
def Plan.poolBlock (p : Plan) (i : Nat) : Nat × Nat × Nat × Nat :=
  let d := p.d 2
  let cb := ceilDiv (d.v 0) 64
  let wb := ceilDiv (d.v 1) p.mt
  (64 * (i % cb), p.mt * (i / cb % wb), i / (cb * wb) % d.v 2, i / (cb * wb * d.v 2))

/-- The result of a window for one channel, and the argmax position (R227, R228). -/
def State.poolElem (s : State) (w : Acc) (p : Plan) (variant c ox oy img : Nat) : Num × Int :=
  let win := Window.parse p.block
  let d := p.d 0
  let f := if d.fmt == 0x09 then fp64 else fp32
  let taps := (List.range win.kh).flatMap fun ky => (List.range win.kw).filterMap fun kx => win.tap d ox oy kx ky
  let vals := taps.map fun t => (s.elem w d c t.1 t.2 img, Int.ofNat (t.1 + d.p 1 * t.2))
  if bit variant 0 then
    let sum := vals.foldl (fun a v => f.addN a (f.near v.1)) 0
    let n := if bit variant 1 then win.kh * win.kw else vals.length
    ((if n == 0 then .zero else f.decode (f.divN sum (f.ofInt (Int.ofNat n)))), -1)
  else
    let m := vals.foldl (fun a v => Num.max a v.1) (.inf true)
    let pos := (vals.find? fun v => f.near v.1 == f.near m).map fun v => v.2
    (m, pos.getD (-1))

/-- Output runs of a POOL tile. -/
def State.poolRuns (s : State) (w : Acc) (x : Forme) (p : Plan) (i : Nat) : List OutRow :=
  let b := p.poolBlock i
  let d := p.d 2
  (rangeFrom b.2.1 (min p.mt (d.v 1 - b.2.1))).flatMap fun ox =>
    let r := (rangeFrom b.1 (min 64 (d.v 0 - b.1))).map fun c => s.poolElem w p x.variant c ox b.2.2.1 b.2.2.2
    [({ d := d, a0 := b.1, i1 := ox, i2 := b.2.2.1, i3 := b.2.2.2, vals := r.map fun v => v.1 } : OutRow)] ++
    (if bit x.variant 2 then
      [{ d := p.d 1, a0 := b.1, i1 := ox, i2 := b.2.2.1, i3 := b.2.2.2, vals := r.map fun v => Num.ofInt v.2, conv := false }] else [])

/-! ### Crop-and-resize (R230 to R232) -/

/-- Plan CROP_RESIZE: descriptors 0 X, 2 Y. -/
def State.planCrop (s : State) (w : Acc) (x : Forme) (share : Nat) : Except PlanErr Plan := do
  want (x.aux != 0)
  let blk ← s.readBlock w x.aux 32 1
  let dX ← s.readDesc w (x.opd 0)
  let dY ← s.readDesc w (x.opd 2)
  want (x.opd 1 % 32 == 0 && [0x0C, 0x01, 0x06, 0x07, 0x08].contains dX.fmt && [0x06, 0x07, 0x08].contains dY.fmt &&
    dX.layout == 0 && !dX.scaled && !dY.scaled && !dX.sparse && !dY.sparse && dY.v 0 == dX.v 0)
  if share == 0 then .error { status := 0x01 } else
    pure { mt := 64, nt := 64, m := dY.v 1, n := dY.v 0, foot := 65536
           tiles := ceilDiv (dY.v 0) 64 * ceilDiv (dY.v 1) 64 * dY.v 2 * dY.v 3
           descs := [dX, {}, dY], blocks := [(2, blk)] }

/-- Where sample() of R231 looks, in an image of h rows and w columns for a grid of ch rows and cw columns: nothing outside the
image's reach; one pixel for NEAREST; four for bilinear, none standing for FILL; and the fractions fy and fx. -/
def boxTaps (h w : Nat) (nearest const : Bool) (ch cw : Nat) (box : List Byte) (i j : Nat) :
    List (Option (Nat × Nat)) × Nat × Nat :=
  let half := 0x3F000000
  let h := Int.ofNat h
  let wd := Int.ofNat w
  let centre (a len idx n : Nat) : Nat :=
    fp32.subN (fp32.addN a (fp32.mulN (fp32.addN (fp32.ofInt (Int.ofNat idx)) half)
      (fp32.divN len (fp32.ofInt (Int.ofNat n))))) half
  let cy := centre (fieldAt box 8 4) (fieldAt box 0x10 4) i ch
  let cx := centre (fieldAt box 0xC 4) (fieldAt box 0x14 4) j cw
  let le (a b : Nat) : Bool := Num.le (fp32.decode a) (fp32.decode b)
  let flo (a : Nat) : Int := match fp32.decode a with
    | .fin n m e => (Num.toInt .down n m e).1
    | _ => 0
  let px (r q : Int) : Option (Nat × Nat) :=
    if 0 ≤ r && r ≤ h - 1 && 0 ≤ q && q ≤ wd - 1 then some (r.toNat, q.toNat)
    else if const then none
    else some ((min (h - 1) (max 0 r)).toNat, (min (wd - 1) (max 0 q)).toNat)
  if !(le 0xBF000000 cy && le cy (fp32.subN (fp32.ofInt h) half) && le 0xBF000000 cx &&
            le cx (fp32.subN (fp32.ofInt wd) half)) then ([], 0, 0)
  else if nearest then ([px (flo (fp32.addN cy half)) (flo (fp32.addN cx half))], 0, 0)
  else
    let t := flo cy
    let l := flo cx
    ([px t l, px t (l + 1), px (t + 1) l, px (t + 1) (l + 1)], fp32.subN cy (fp32.ofInt t), fp32.subN cx (fp32.ofInt l))

/-- sample() of R231 over an image of h rows and w columns with pixels `v`: FILL, NEAREST, EDGE CONSTANT, and the bytes of the
box. -/
def sampleBox (v : Nat → Nat → Nat) (h w : Nat) (fill : Nat) (nearest const : Bool) (ch cw : Nat) (box : List Byte) (i j : Nat) :
    Nat :=
  let t := boxTaps h w nearest const ch cw box i j
  let px := t.1.map fun (c : Option (Nat × Nat)) =>
    match c with
    | some x => v x.1 x.2
    | none => fill
  let lerp (a b f : Nat) : Nat := fp32.addN a (fp32.mulN (fp32.subN b a) f)
  match px with
  | [a] => a
  | [a, b, c, d] => lerp (lerp a b t.2.2) (lerp c d t.2.2) t.2.1
  | _ => fill

/-- A sample of a CROP_RESIZE forme: channel c, output row i, output column j, and the box's bytes (R231, R232). -/
def State.cropSample (s : State) (w : Acc) (p : Plan) (box : List Byte) (c i j : Nat) : Nat :=
  let d := p.d 0
  let fill := fieldAt p.block 0 4
  let img := fieldAt box 0 4
  if d.v 3 ≤ img then fill
  else sampleBox (fun r q => fp32.near (s.elem w d c q r img)) (d.v 2) (d.v 1) fill (bit (fieldAt p.block 4 4) 0)
    (bit (fieldAt p.block 4 4) 1) ((p.d 2).v 2) ((p.d 2).v 1) box i j

/-- Output runs of a CROP_RESIZE tile, and whether it counts its box in DETAIL: the first tile of a box whose image does not
exist (R232). -/
def State.cropRuns (s : State) (w : Acc) (x : Forme) (p : Plan) (i : Nat) : List OutRow × Bool :=
  let b := p.poolBlock i
  let d := p.d 2
  let box := s.rdBytes w (x.opd 1 + 32 * b.2.2.2) 32
  ((rangeFrom b.2.1 (min 64 (d.v 1 - b.2.1))).map fun j =>
    { d := d, a0 := b.1, i1 := j, i2 := b.2.2.1, i3 := b.2.2.2
      vals := (rangeFrom b.1 (min 64 (d.v 0 - b.1))).map fun c => fp32.decode (s.cropSample w p box c b.2.2.1 j) },
   b.1 == 0 && b.2.1 == 0 && b.2.2.1 == 0 && (p.d 0).v 3 ≤ fieldAt box 0 4)

/-! ### Gather and scatter (R233 to R239) -/

/-- Plan GATHER or SCATTER: descriptors 0 S or U, 1 I, 2 O or T. -/
def State.planGather (s : State) (w : Acc) (x : Forme) (share : Nat) : Except PlanErr Plan := do
  let scatter := x.opcode == 0x0D
  let accum := bit x.variant 1
  want (bits x.variant 3 5 == 0 && (scatter || bits x.variant 1 2 == 0))
  let blk ← if x.aux == 0 then pure [] else s.readBlock w x.aux 32 1
  let dS ← s.readDesc w (x.opd 0)
  let dI ← s.readDesc w (x.opd 1)
  let dO ← s.readDesc w (x.opd 2)
  let tbl := if scatter then dO else dS
  let rows := if scatter then dS else dO
  want (dI.fmt == 0x0B && dI.rankM1 ≤ 1 && tbl.rankM1 ≤ 1 && dS.layout == 0 && dI.layout == 0 && dO.layout == 0 &&
    !dS.scaled && !dI.scaled && !dO.scaled && !dS.sparse && !dI.sparse && !dO.sparse)
  want (rows.v 0 == tbl.v 0 && rows.v 1 == dI.v 0 && rows.v 2 == dI.v 1 && rows.v 3 == 1)
  want (if scatter && accum then [0x06, 0x07, 0x08].contains dS.fmt && [0x06, 0x07, 0x08].contains dO.fmt
    else dS.fmt == dO.fmt)
  if share == 0 then .error { status := 0x01 } else
    match [1024, 512, 256].find? fun n => 2 * 64 * n + 512 ≤ share with
    | none => .error noFit
    | some n =>
      pure { mt := 64, nt := n, m := dI.v 0 * dI.v 1, n := tbl.v 0, tiles := ceilDiv (dI.v 0 * dI.v 1) 64
             foot := 2 * 64 * n + 512, descs := [dS, dI, dO], blocks := [(2, blk)] }

/-- Index of source position j resolved against D (R234). -/
def State.resolveIndex (s : State) (w : Acc) (x : Forme) (p : Plan) (j : Nat) : Option Nat :=
  let dI := p.d 1
  let dim := if x.opcode == 0x0D then (p.d 2).v 1 else (p.d 0).v 1
  let i := sx 32 (s.elemCode w dI (j % dI.v 0) (j / dI.v 0) 0 0)
  let i := if bit x.variant 0 && i < 0 then i + Int.ofNat dim else i
  if 0 ≤ i && i < Int.ofNat dim then some i.toNat else none

/-- Codes of a row of the table or of the rows tensor. -/
def State.rowCodes (s : State) (w : Acc) (d : TDesc) (n i1 i2 : Nat) : List Nat :=
  (List.range n).map fun k => s.elemCode w d k i1 i2 0

/-- Source positions of a tile. -/
def Plan.positions (p : Plan) (i : Nat) : List Nat := rangeFrom (64 * i) (min 64 (p.m - 64 * i))

/-- Count an out-of-range index (R234). -/
def State.outOfRange (s : State) (i j : Nat) : State :=
  s.modForme i fun x =>
    { x with
      oor := x.oor + 1
      firstOor := some (match x.firstOor with | some k => min k j | none => j) }

/-- Write a row in pieces of the plan's p bytes, each one run (R239). -/
def State.writePieces (s : State) (i : Nat) (w : Acc) (p : Plan) (o : CodeRow) : State × Option (AccFault × Nat) :=
  let k := p.nt * 8 / elemBits o.d.fmt
  (List.range (ceilDiv o.codes.length k)).foldl (fun (r : State × Option (AccFault × Nat)) c =>
    match r.2 with
    | some _ => r
    | none => r.1.writeCodes i w { o with a0 := o.a0 + k * c, codes := (o.codes.drop (k * c)).take k }) (s, none)

/-- Run a GATHER tile. -/
def State.gatherTile (s : State) (i core : Nat) (p : Plan) (tile : Nat) : State × Option (AccFault × Nat) :=
  let x := s.forme i
  let w : Acc := { part := x.part, core := some core, who := .forme i }
  let n := p.n
  (p.positions tile).foldl (fun (r : State × Option (AccFault × Nat)) j =>
    match r.2 with
    | some _ => r
    | none =>
      let j0 := j % (p.d 1).v 0
      let j1 := j / (p.d 1).v 0
      match r.1.resolveIndex w x p j with
      | some k => r.1.writePieces i w p { d := p.d 2, a0 := 0, i1 := j0, i2 := j1, codes := r.1.rowCodes w (p.d 0) n k 0 }
      | none =>
        let fill := fieldAt p.block 0 8 % 2 ^ elemBits (p.d 2).fmt
        (r.1.outOfRange i j).writePieces i w p { d := p.d 2, a0 := 0, i1 := j0, i2 := j1, codes := List.replicate n fill }) (s, none)

/-- Elements of a row that lie in one line: first element, count. -/
def lineRuns (d : TDesc) (n : Nat) : List (Nat × Nat) :=
  let k := 256 / elemBits d.fmt
  (List.range (ceilDiv n k)).map fun c => (k * c, min k (n - k * c))

/-- Join the pieces of a row, each a first element and a count, that follow one another within a run of k elements (R239). -/
def joinRuns (k : Nat) : List (Nat × Nat) → List (Nat × Nat)
  | [] => []
  | x :: t => match joinRuns k t with
    | [] => [x]
    | y :: l => if x.1 + x.2 == y.1 && x.1 / k == y.1 / k then (x.1, x.2 + y.2) :: l else x :: y :: l

/-- Write a row of an ORDERED scatter without ACCUM: each line keeps the greatest source position (R235). What is written of a piece of
p bytes is one run where it lies together (R239). -/
def State.scatterOrdered (s : State) (i : Nat) (w : Acc) (p : Plan) (k j : Nat) (codes : List Nat) :
    State × Option (AccFault × Nat) :=
  let d := p.d 2
  let mine := (lineRuns d codes.length).filter fun c => !(j + 1 ≤ AMap.getD (d.addr c.1 k 0 0) 0 (s.forme i).lineMax)
  let s := s.modForme i fun x =>
    { x with lineMax := mine.foldl (fun (m : AMap Nat) c => AMap.put (d.addr c.1 k 0 0) (j + 1) m) x.lineMax }
  (joinRuns (p.nt * 8 / elemBits d.fmt) mine).foldl (fun (r : State × Option (AccFault × Nat)) c =>
    match r.2 with
    | some _ => r
    | none => r.1.writeCodes i w { d := d, a0 := c.1, i1 := k, codes := (codes.drop c.1).take c.2 }) (s, none)

/-- What stops a scatter's tile: an access fault, or a destination outside stack and bulk (R237). -/
inductive ScatterStop where
  | fault (f : AccFault) (addr : Nat)
  | tier

/-- Hand the contributions of a row to the reducers, line by line (R236); a line's place is fixed here (log entry 187). -/
def State.scatterAccum (s : State) (i : Nat) (x : Forme) (w : Acc) (p : Plan) (k j : Nat) : State × Option ScatterStop :=
  let d := p.d 2
  let u := p.d 0
  (lineRuns d p.n).foldl (fun (r : State × Option ScatterStop) c =>
    match r.2 with
    | some _ => r
    | none =>
      let a := d.addr c.1 k 0 0
      let s := r.1.arenaWrite w.part a w.who
      match s.resolveWrite w.part w.core a with
      | .error e => (s, some (.fault e a))
      | .ok (.phys b idx) =>
        let vals := (rangeFrom c.1 c.2).map fun e =>
          fp32.near (s.elem w u e (j % (p.d 1).v 0) (j / (p.d 1).v 0) 0)
        ({ s with
           reducers := s.reducers ++
             [{ forme := i, part := w.part, j := j, addr := a, place := (b, idx), row := k, col := c.1, fmt := d.fmt, vals := vals
                ordered := bit x.variant 2 }] }, none)
      | .ok _ => (s, some .tier)) (s, none)

/-- Run a SCATTER tile: rows are written whole in the order of the tile's positions (ORDERED 0: log entry 204). -/
def State.scatterTile (s : State) (i core : Nat) (p : Plan) (tile : Nat) : State × Option ScatterStop :=
  let x := s.forme i
  let w : Acc := { part := x.part, core := some core, who := .forme i }
  let wrap (r : State × Option (AccFault × Nat)) : State × Option ScatterStop :=
    (r.1, r.2.map fun e => .fault e.1 e.2)
  (p.positions tile).foldl (fun (r : State × Option ScatterStop) j =>
    match r.2 with
    | some _ => r
    | none =>
      match r.1.resolveIndex w x p j with
      | none => (r.1.outOfRange i j, none)
      | some k =>
        let codes := r.1.rowCodes w (p.d 0) p.n (j % (p.d 1).v 0) (j / (p.d 1).v 0)
        if bit x.variant 1 then r.1.scatterAccum i x w p k j
        else if bit x.variant 2 then wrap (r.1.scatterOrdered i w p k j codes)
        else wrap (r.1.writePieces i w p { d := p.d 2, a0 := 0, i1 := k, codes := codes })) (s, none)

/-- The codes of a reducer's line after an update (R236). -/
def State.updateCodes (s : State) (u : RedUpdate) : List Nat :=
  let f := (floatOf u.fmt).getD fp32
  let n := elemBits u.fmt / 8
  let b := s.phys u.place.1 (n * u.vals.length)
  (List.range u.vals.length).map fun i =>
    let sum := fp32.addN (fp32.near (f.decode (fieldAt b (n * i) n))) (u.vals.getD i 0)
    if u.fmt == 0x08 then sum else f.near (fp32.decode sum)

/-- One reducer update: read, add and write a line, where its address translated to (R236, R238). A unit in error that the line touches
is found (R90). -/
def State.performUpdate (s : State) (u : RedUpdate) : State :=
  let n := elemBits u.fmt / 8
  let loc : Loc := .phys u.place.1 u.place.2
  match s.damageAt loc (n * u.vals.length) with
  | some e => s.faultRecord u.part (memInst u.place.1) u.addr (.damaged loc e)
  | none => s.perform u.part loc ((s.updateCodes u).flatMap fun c => toBytes n c) (.forme u.forme)

end Sys2Proof.Machine
end

