-- ==== Sys2Proof/Machine/IntakeOps.lean ====
section
/-! DEFINITION. Media intake: jobs, samples and their limits, the frame pool, post-processing of pictures and sound, batches and
the decoded-sample cache (R370 to R402). The decoded contents of a unit come with the command that ends it. -/

namespace Sys2Proof.Machine

/-! ### Jobs (R373 to R379) -/

def State.intk (s : State) (p : Nat) : Intk := AMap.getD p {} s.intks
def State.modIntk (s : State) (p : Nat) (g : Intk → Intk) : State := { s with intks := AMap.put p (g (s.intk p)) s.intks }
def State.job? (s : State) (p j : Nat) : Option IntkJob := (s.intk p).jobs.find? fun x => x.num == j
def State.modJob (s : State) (p j : Nat) (g : IntkJob → IntkJob) : State :=
  s.modIntk p fun x => { x with jobs := x.jobs.map fun y => if y.num == j then g y else y }

/-- Sample n of a job, if it is at work. -/
def IntkJob.sample? (x : IntkJob) (n : Nat) : Option IntkStream := x.streams.find? fun t => t.no == n

/-- Change sample n of a job. -/
def State.modStream (s : State) (p j n : Nat) (g : IntkStream → IntkStream) : State :=
  s.modJob p j fun x => { x with streams := x.streams.map fun t => if t.no == n then g t else t }

/-- A field of INTK_PART_p. -/
def State.ip (s : State) (p : Nat) (f : Fld) : Nat := s.f (Pg.intk 0) (f.sh (0x40 * p))

namespace IntkJob
def w0 (x : IntkJob) : Nat := fieldAt x.desc 0 4
def audio (x : IntkJob) : Bool := bits x.w0 0 2 == 1
def live (x : IntkJob) : Bool := bit x.w0 4
/-- Class in force (R397). -/
def cls (x : IntkJob) : Nat := if x.live then 3 else min 2 (bits x.w0 2 2)
def pad (x : IntkJob) : Bool := bit x.w0 5 && !x.live
def ordered (x : IntkJob) : Bool := bit x.w0 6
def cacheUse (x : IntkJob) : Bool := bit x.w0 7
def cacheFill (x : IntkJob) : Bool := bit x.w0 8
def listLog2 (x : IntkJob) : Nat := bits x.w0 9 5
def samples (x : IntkJob) : Nat := fieldAt x.desc 4 4
def listAt (x : IntkJob) : Nat := fieldAt x.desc 8 8
def records (x : IntkJob) : Nat := fieldAt x.desc 0x28 8
def maskAt (x : IntkJob) : Nat := fieldAt x.desc 0x30 8
def doneCtr (x : IntkJob) : Nat := bits (fieldAt x.desc 0x38 4) 0 13
def releaseCtr (x : IntkJob) : Nat := bits (fieldAt x.desc 0x38 4) 13 13
def listCtr (x : IntkJob) : Nat := bits (fieldAt x.desc 0x3C 4) 0 13
def slotsLog2 (x : IntkJob) : Nat := bits (fieldAt x.desc 0x3C 4) 13 3
def batch (x : IntkJob) : Nat := bits (fieldAt x.desc 0x3C 4) 16 16
def slotStride (x : IntkJob) : Nat := fieldAt x.desc 0x40 8
def tag (x : IntkJob) : Nat := fieldAt x.desc 0x54 4
def damageAt (x : IntkJob) : Nat := fieldAt x.desc 0x60 8
def damageLog2 (x : IntkJob) : Nat := bits (fieldAt x.desc 0x68 4) 0 5
def mel (x : IntkJob) : Bool := x.audio && bit (fieldAt x.post 4 4) 4
def outLen (x : IntkJob) : Nat := fieldAt x.post 0x20 4
def outW (x : IntkJob) : Nat := fieldAt x.post 0 2
def outH (x : IntkJob) : Nat := fieldAt x.post 2 2
def patchSide (x : IntkJob) : Nat := if x.audio then 0 else fieldAt x.post 4 1
def framesPer (x : IntkJob) : Nat := fieldAt x.post 0x0C 2
def boxes (x : IntkJob) : Nat := if x.audio then 0 else fieldAt x.post 0x0E 2
/-- Positions of one sample (R393). -/
def span (x : IntkJob) : Nat := max 1 x.boxes
/-- Units of a position (R394). -/
def units (x : IntkJob) : Nat :=
  if !x.audio then x.framesPer else if x.mel then x.outLen else ceilDiv x.outLen 64
def padValue (x : IntkJob) : Nat := if x.audio then fieldAt x.post 0x1C 4 else fieldAt x.post 0x28 4
/-- Channels of the output. -/
def chans (x : IntkJob) : Nat := if x.patchSide == 0 then x.out.v 0 else x.out.v 0 / (x.patchSide * x.patchSide)
def staleNs (x : IntkJob) : Nat := 1000 * fieldAt x.limits 0x1C 4
end IntkJob

namespace IntkStream
def data (x : IntkStream) : Nat := fieldAt x.entry 0 8
def len (x : IntkStream) : Nat := fieldAt x.entry 8 4
def codec (x : IntkStream) : Nat := fieldAt x.entry 0x0C 1
def ends (x : IntkStream) : Bool := bit (fieldAt x.entry 0x0C 4) 8
def noCache (x : IntkStream) : Bool := bit (fieldAt x.entry 0x0C 4) 9
def id (x : IntkStream) : Nat := fieldAt x.entry 0x10 8
def capture (x : IntkStream) : Nat := fieldAt x.entry 0x18 8
end IntkStream

/-- The intake's access: UNIT 0x200 plus the instance (R375, R568). -/
def intkAcc (p e : Nat) : Acc := { part := p, core := none, who := .unit (0x200 + e) }

/-- Alignment and ranges of a job's descriptor and blocks (R374, R375, R379, R389, R390, R392). -/
def State.jobOk (s : State) (x : IntkJob) : Bool :=
  let b := x.desc
  let c := x.out
  let zero (o n : Nat) : Bool := fieldAt b o n == 0
  bits x.w0 0 2 ≤ 1 && bits x.w0 14 18 == 0 && (x.live || 1 ≤ x.samples) && x.listAt % 32 == 0 &&
  (!x.live || (4 ≤ x.listLog2 && x.listLog2 ≤ 20)) && !(x.ordered && (x.live || 2 ^ 24 < x.samples)) &&
  bits (fieldAt b 0x38 4) 26 6 == 0 && x.doneCtr < s.ctrsPer && x.releaseCtr < s.ctrsPer && x.listCtr < s.ctrsPer &&
  1 ≤ x.batch && x.batch ≤ 1024 && x.slotStride % 32 == 0 && x.damageLog2 ≤ 16 && bits (fieldAt b 0x68 4) 5 27 == 0 &&
  zero 0x6C 20 && fieldAt x.limits 0x0D 3 == 0 &&
  c.ok && !c.scaled && !c.zmap && !c.sparse && [0x0C, 0x04, 0x06, 0x07, 0x08].contains c.fmt &&
  (if x.audio then
    let k := x.post
    8000 ≤ fieldAt k 0 4 && fieldAt k 0 4 ≤ 192000 && bits (fieldAt k 4 4) 0 4 ≤ 1 && 8 ≤ bits (fieldAt k 4 4) 5 5 &&
    bits (fieldAt k 4 4) 5 5 ≤ 11 && bits (fieldAt k 4 4) 10 22 == 0 && 1 ≤ fieldAt k 8 2 &&
    fieldAt k 8 2 ≤ 2 ^ bits (fieldAt k 4 4) 5 5 && 1 ≤ fieldAt k 0x0A 2 && 1 ≤ fieldAt k 0x0C 2 && fieldAt k 0x0C 2 ≤ 128 &&
    fieldAt k 0x0E 2 == 0 && fieldAt k 0x24 28 == 0 &&
    (if x.mel then c.v 0 == fieldAt k 0x0C 2 else 1 ≤ c.v 0 && c.v 0 ≤ 8) && c.v 1 == x.outLen && c.v 2 == x.batch && c.v 3 == 1
  else
    let k := x.post
    let w4 := fieldAt k 4 4
    let ps := x.patchSide
    1 ≤ x.outW && x.outW ≤ 8192 && 1 ≤ x.outH && x.outH ≤ 8192 && bits w4 8 2 ≤ 2 && bits w4 10 3 ≤ 4 && bits w4 14 18 == 0 &&
    1 ≤ x.framesPer && fieldAt k 0x2C 4 == 0 && fieldAt k 0x38 8 == 0 && !(bits w4 8 2 == 2 && x.boxes != 0) &&
    (if ps == 0 then
      (c.v 0 == 1 || c.v 0 == 3) && c.v 1 == x.outW && c.v 2 == x.outH && c.v 3 == x.batch * x.framesPer
    else
      x.outW % ps == 0 && x.outH % ps == 0 && (c.v 0 == ps * ps || c.v 0 == 3 * ps * ps) &&
      c.v 1 == x.outW / ps * (x.outH / ps) && c.v 2 == x.framesPer && c.v 3 == x.batch))

/-- The epoch order (R260, R378): list indices by ascending (word, index). -/
def epochOrder (seed epoch n : Nat) : List Nat :=
  let word (i : Nat) : Nat := randWord seed i 4 epoch
  sortBy (fun a b => word a < word b || (word a == word b && a < b)) (List.range n)

/-- Frames reserved by a partition's streams (R386). -/
def State.poolUsed (s : State) (p : Nat) : Nat :=
  (s.intk p).jobs.foldl (fun n x => (x.streams ++ x.carry.toList).foldl (fun n t => n + t.reserved) n) 0

/-- Release the engines whose work a test picks. -/
def State.releaseEngines (s : State) (here : Nat × Nat × Nat → Bool) : State :=
  (s.engines.filter fun x => here x.2).foldl (fun s x =>
    { (s.setF (Pg.intk x.1) F.INTKE_BUSY 0) with engines := AMap.del x.1 s.engines }) s

/-- A fallible write. -/
abbrev Wr := State × Option (AccFault × Nat)
def Wr.bind (r : Wr) (g : State → Wr) : Wr := match r.2 with
  | none => g r.1
  | some _ => r

/-! ### Positions (R390, R393, R394) -/

/-- The output descriptor of the slot that holds a position (R390, R395). -/
def IntkJob.slotOut (x : IntkJob) (pos : Nat) : TDesc :=
  { x.out with base := (x.out.base + pos / x.batch % 2 ^ x.slotsLog2 * x.slotStride) % 2 ^ 64 }

/-- Write channel-last values of an output frame f of a position: `v` gives the FP32 code of channel c at row i, column j. -/
def State.writeFrame (s : State) (w : Acc) (x : IntkJob) (pos f : Nat) (v : Nat → Nat → Nat → Nat) : Wr :=
  let d := x.slotOut pos
  let b := pos % x.batch
  let c := x.chans
  let code (u : Nat) : Nat := (convert d.fmt .near false (fp32.decode u)).1
  let ps := x.patchSide
  if ps == 0 then
    (List.range (x.outW * x.outH)).foldl (fun (r : Wr) k =>
      r.bind fun s => s.writeRow w d 0 (k % x.outW) (k / x.outW) (b * x.framesPer + f)
        ((List.range c).map fun ch => code (v ch (k / x.outW) (k % x.outW)))) (s, none)
  else
    let pw := x.outW / ps
    (List.range (pw * (x.outH / ps))).foldl (fun (r : Wr) k =>
      r.bind fun s => s.writeRow w d 0 k f b
        ((List.range (ps * ps * c)).map fun e =>
          code (v (e % c) (k / pw * ps + e / c / ps) (k % pw * ps + e / c % ps)))) (s, none)

/-- Write sound: `v` gives the FP32 code of element c at output step t of a position. -/
def State.writeSound (s : State) (w : Acc) (x : IntkJob) (pos : Nat) (v : Nat → Nat → Nat) : Wr :=
  let d := x.slotOut pos
  (List.range x.outLen).foldl (fun (r : Wr) t =>
    r.bind fun s => s.writeRow w d 0 t (pos % x.batch) 0
      ((List.range (d.v 0)).map fun c => (convert d.fmt .near false (fp32.decode (v c t))).1)) (s, none)

/-- Write the mask bytes of a position (R394). -/
def State.writeMask (s : State) (w : Acc) (x : IntkJob) (pos : Nat) (valid : Nat → Bool) : Wr :=
  if x.maskAt == 0 then (s, none)
  else
    let u := x.units
    let slot := pos / x.batch % 2 ^ x.slotsLog2
    s.wr w ((x.maskAt + slot * (ceilDiv (x.batch * u) 32 * 32) + pos % x.batch * u) % 2 ^ 64)
      ((List.range u).map fun i => BitVec.ofNat 8 (b2n (valid i)))

/-- The 32 bytes of a position entry (R396). -/
def posEntry (index status flags box valid regions mf mp : Nat) : List Byte :=
  toBytes 4 index ++ toBytes 1 status ++ toBytes 1 flags ++ toBytes 2 box ++ toBytes 4 valid ++ toBytes 4 regions ++
  toBytes 4 mf ++ toBytes 4 mp ++ toBytes 8 0

/-- A padded position (R393): every element PAD, mask 0, and its entry, with the box and the damaged regions found of a rejected
sample (R396). -/
def State.padPosition (s : State) (p : Nat) (x : IntkJob) (pos index status box regions : Nat) : Wr :=
  let w := intkAcc p 0
  let r : Wr := if x.audio then s.writeSound w x pos fun _ _ => x.padValue
    else (List.range x.framesPer).foldl (fun (r : Wr) f => r.bind fun s => s.writeFrame w x pos f fun _ _ _ => x.padValue) (s, none)
  (r.bind fun s => s.writeMask w x pos fun _ => false).bind fun s =>
    (s.modJob p x.num fun y => { y with entries := AMap.put pos (posEntry index status 0 box 0 regions 0xFFFFFFFF 0) y.entries }, none)

/-! ### Pictures (R389, R391) -/

/-- a / b rounded once to FP32. -/
def ratio32 (a b : Int) : Nat := (fp32.fin .near (Num.div 24 (Num.ofInt a) (Num.ofInt b))).1

/-- Kr and Kb in units of 1/10000: 1 BT.601, 2 BT.709, 3 BT.2020. -/
def lumaK (m : Nat) : Int × Int := if m == 1 then (2990, 1140) else if m == 3 then (2627, 593) else (2126, 722)

/-- The matrix in force and its range: 0 for none, else as in `lumaK`; 5 for values divided by 2^d − 1 (R391). -/
def matrixOf (x : IntkJob) (codec : Nat) (h : StreamHeader) : Nat × Bool :=
  let m := bits (fieldAt x.post 4 4) 10 3
  if m == 4 then (0, false)
  else if codec == 0x11 then (5, true)
  else if m != 0 then (m, bit (fieldAt x.post 4 4) 13)
  else if codec == 0x10 then (1, true)
  else if 1 ≤ h.matrix && h.matrix ≤ 3 then (h.matrix, h.full)
  else if 720 ≤ h.height then (2, false) else (1, false)

/-- A decoded sample of component c at luma position (r, q): chroma at the nearest sample at or before it. -/
def IntkFrame.at (f : IntkFrame) (h : StreamHeader) (c r q : Nat) : Int :=
  let sub := c == 1 || c == 2
  let w := if sub then ceilDiv f.width (2 ^ h.subX) else f.width
  let r := if sub then r / 2 ^ h.subY else r
  let q := if sub then q / 2 ^ h.subX else q
  (f.planes.getD c []).getD (r * w + q) 0

/-- Clamp to 0 .. 1. -/
def clamp01 (a : Nat) : Nat := fp32.minN (fp32.maxN a 0) 0x3F800000

/-- Channel values of a pixel: step 1 of R391, for an output of `chans` channels. -/
def IntkFrame.pixel (f : IntkFrame) (x : IntkJob) (codec : Nat) (h : StreamHeader) (chans c r q : Nat) : Nat :=
  let mr := matrixOf x codec h
  let d := h.depth
  let grey := h.comps ≤ 2
  let raw (k : Nat) : Nat := fp32.ofInt (f.at h k r q)
  let one (k : Nat) : Nat := fp32.divN (raw k) (fp32.ofInt (2 ^ d - 1))
  if mr.1 == 0 then raw (if grey then 0 else c)
  else
    let k := lumaK mr.1
    let kg := 10000 - k.1 - k.2
    let ys := if mr.2 then ratio32 1 (2 ^ d - 1) else ratio32 256 (219 * 2 ^ d)
    let cs := if mr.2 then ratio32 1 (2 ^ d - 1) else ratio32 256 (224 * 2 ^ d)
    let yo := if mr.2 then 0 else ratio32 (16 * 2 ^ d) 256
    let co := ratio32 (2 ^ d) 2
    let yn := fp32.mulN (fp32.subN (raw 0) yo) ys
    let rgb (c : Nat) : Nat :=
      if mr.1 == 5 then one (if grey then 0 else c)
      else if grey then clamp01 yn
      else
        let pb := fp32.mulN (fp32.subN (raw 1) co) cs
        let pr := fp32.mulN (fp32.subN (raw 2) co) cs
        clamp01 (match c with
          | 0 => fp32.addN yn (fp32.mulN (ratio32 (2 * (10000 - k.1)) 10000) pr)
          | 1 => fp32.subN yn (fp32.addN (fp32.mulN (ratio32 (2 * k.2 * (10000 - k.2)) (kg * 10000)) pb)
              (fp32.mulN (ratio32 (2 * k.1 * (10000 - k.1)) (kg * 10000)) pr))
          | _ => fp32.addN yn (fp32.mulN (ratio32 (2 * (10000 - k.2)) 10000) pb))
    if chans == 1 && !grey then
      let k := lumaK 2
      fp32.addN (fp32.addN (fp32.mulN (ratio32 k.1 10000) (rgb 0)) (fp32.mulN (ratio32 (10000 - k.1 - k.2) 10000) (rgb 1)))
        (fp32.mulN (ratio32 k.2 10000) (rgb 2))
    else rgb c

/-- An output value of a frame: steps 1 to 3 of R391 before conversion. -/
def IntkFrame.outValue (f : IntkFrame) (x : IntkJob) (codec : Nat) (h : StreamHeader) (box : List Byte) (c i j : Nat) : Nat :=
  let px (r q : Nat) : Nat := f.pixel x codec h x.chans c r q
  let meth := bits (fieldAt x.post 4 4) 8 2
  let v :=
    if meth == 2 then
      let rows := rangeFrom (i * f.height / x.outH) (((i + 1) * f.height - 1) / x.outH + 1 - i * f.height / x.outH)
      let cols := rangeFrom (j * f.width / x.outW) (((j + 1) * f.width - 1) / x.outW + 1 - j * f.width / x.outW)
      fp32.divN (rows.foldl (fun n r => cols.foldl (fun n q => fp32.addN n (px r q)) n) 0)
        (fp32.ofInt (Int.ofNat (rows.length * cols.length)))
    else sampleBox px f.height f.width x.padValue (meth == 1) false x.outH x.outW box i j
  fp32.mulN (fp32.subN v (fieldAt x.post (0x10 + 4 * c) 4)) (fieldAt x.post (0x1C + 4 * c) 4)

/-- The whole picture as a box (R391). -/
def wholeBox (h w : Nat) : List Byte :=
  toBytes 16 0 ++ toBytes 4 (fp32.ofInt (Int.ofNat h)) ++ toBytes 4 (fp32.ofInt (Int.ofNat w)) ++ toBytes 8 0

/-! ### Sound (R392) -/

/-- PCM as FP32 (step 1). -/
def pcm (bits : Nat) (v : Int) : Nat := fp32.divN (fp32.ofInt v) (fp32.ofInt (2 ^ (bits - 1)))

/-- Sample n of a channel at the output rate (step 2): 32 taps of the nearest of 256 phases, summed in ascending order. -/
def resampled (xs : List Nat) (inRate outRate n : Nat) : Nat :=
  if inRate == outRate then xs.getD n 0
  else
    let t := (n * inRate * 512 / outRate + 1) / 2
    (List.range 32).foldl (fun acc k =>
      let i := t / 256 + k
      fp32.addN acc (fp32.mulN (Config.sincTap inRate outRate (t % 256) k) (if 15 ≤ i then xs.getD (i - 15) 0 else 0))) 0

/-- A coefficient x / 2^p of the front end as it holds it in FP32: where it is no FP32 value, one of its two neighbours (log entry 31). -/
def coeff32 (table place p : Nat) (x : Int) : Nat :=
  let v := fp32.near (.fin (x < 0) x.natAbs (-(Int.ofNat p)))
  match fp32.decode v with
  | .fin n m e =>
    let y : Int := Int.ofNat (m * 2 ^ (e + Int.ofNat p).toNat)
    let d := (if n then -y else y) - x
    if d.natAbs < 2 ^ 32 || !Config.coeffFar table place then v
    else if v % 2 ^ 31 == 0 then (if d < 0 then 1 else 0x80000001)
    else if (d < 0) == (v < 2 ^ 31) then v + 1 else v - 1
  | _ => v

/-- The periodic Hann window of n points at i (R392). -/
def hann (n i : Nat) : Nat :=
  coeff32 0 (n * 2 ^ 16 + i) 256 ((2 ^ 256 - (trigFixed 256 (2 * piFixed 256 * Int.ofNat i / Int.ofNat n)).1) / 2)

/-- Twiddle factor k of a transform of n points: real part, imaginary part (R392). -/
def twiddle (n k : Nat) : Nat × Nat :=
  let t := trigFixed 256 (2 * piFixed 256 * Int.ofNat k / Int.ofNat n)
  (coeff32 1 (n * 2 ^ 16 + k) 256 t.1, coeff32 2 (n * 2 ^ 16 + k) 256 (-t.2))

/-- ln(1 + f / 700) of a frequency in fixed point, none where that is no real number. -/
def melLog (f : Nat) : Option Int :=
  match fp32.decode f with
  | .fin n m e =>
    let one : Int := 2 ^ sfuBits
    let a := one + toFixed n m e / 700
    if a ≤ 0 || 128 < leadExp m e then none
    else
      let k := Int.ofNat (Nat.log2 a.natAbs) - Int.ofNat sfuBits
      let y := toFixed false a.natAbs (-(Int.ofNat sfuBits) - k)
      some (k * ln2Fixed + artanh2 ((y - one) * one / (y + one)) 140)
  | _ => none

/-- e^x of a fixed-point number, in the same form. -/
def expFixed (x : Int) : Int :=
  let k := x / ln2Fixed
  let r := x - k * ln2Fixed
  let y := ((List.range 60).foldl (fun (z : Int × Int) i => (z.1 + z.2, z.2 * r / (Int.ofNat (i + 1) * 2 ^ sfuBits))) (0, 2 ^ sfuBits)).1
  if 0 ≤ k then y * 2 ^ k.toNat else y / 2 ^ (-k).toNat

/-- Weight of a bin in triangular filter `band` (R392): edges equally spaced in HTK mel, 2595 log10(1 + f / 700), from FMIN to FMAX, the
sides straight over frequency, 1 at the middle edge (log entry 31). -/
def melWeight (rate lg bands fmin fmax band bin : Nat) : Nat :=
  match melLog fmin, melLog fmax with
  | some a, some b =>
    let edge (j : Nat) : Int := 700 * (expFixed (a + (b - a) * Int.ofNat j / Int.ofNat (bands + 1)) - 2 ^ sfuBits)
    let f : Int := Int.ofNat (bin * rate) * 2 ^ sfuBits / 2 ^ lg
    let e0 := edge band
    let e1 := edge (band + 1)
    let e2 := edge (band + 2)
    if e2 ≤ e0 || e1 ≤ e0 || e2 ≤ e1 then Config.melOpen fmin fmax band bin
    else
      let w := if f ≤ e0 || e2 ≤ f then 0 else if f ≤ e1 then (f - e0) * 2 ^ sfuBits / (e1 - e0) else (e2 - f) * 2 ^ sfuBits / (e2 - e1)
      coeff32 3 (band * 2 ^ 16 + bin) sfuBits w
  | _, _ => Config.melOpen fmin fmax band bin

/-- Radix-2 decimation in frequency over real and imaginary parts. -/
def fftDif : Nat → List (Nat × Nat) → List (Nat × Nat)
  | 0, l => l
  | k + 1, l =>
    let n := 2 ^ (k + 1)
    let h := 2 ^ k
    let a := l.take h
    let b := l.drop h
    let top := List.zipWith (fun x y => (fp32.addN x.1 y.1, fp32.addN x.2 y.2)) a b
    let bot := (List.zipWith (fun x y => (fp32.subN x.1 y.1, fp32.subN x.2 y.2)) a b).mapIdx fun i z =>
      let w := twiddle n i
      (fp32.subN (fp32.mulN z.1 w.1) (fp32.mulN z.2 w.2), fp32.addN (fp32.mulN z.1 w.2) (fp32.mulN z.2 w.1))
    let even := fftDif k top
    let odd := fftDif k bot
    (List.zipWith (fun x y => [x, y]) even odd).flatten

/-- Output elements of a sound sample: element c at step t (R392). -/
def soundValue (x : IntkJob) (h : StreamHeader) (ch : List (List Int)) (c t : Nat) : Nat :=
  let rate := fieldAt x.post 0 4
  let chan (k : Nat) : List Nat := (ch.getD k []).map (pcm h.depth)
  let mono := bits (fieldAt x.post 4 4) 0 4 == 1
  let at' (k n : Nat) : Nat :=
    if mono then
      fp32.divN ((List.range ch.length).foldl (fun a i => fp32.addN a (resampled (chan i) h.rate rate n)) 0)
        (fp32.ofInt (Int.ofNat ch.length))
    else resampled (chan k) h.rate rate n
  if !x.mel then at' c t
  else
    let lg := bits (fieldAt x.post 4 4) 5 5
    let win := fieldAt x.post 8 2
    let len := (ch.getD 0 []).length * rate / max 1 h.rate
    let frame := (List.range (2 ^ lg)).map fun i =>
      let n := t * fieldAt x.post 0x0A 2 + i
      (if i < win && n < len then fp32.mulN (at' 0 n) (hann win i) else 0, 0)
    let sp := fftDif lg frame
    let sum := (List.range (2 ^ lg / 2 + 1)).foldl (fun acc b =>
      let z := sp.getD b (0, 0)
      fp32.addN acc (fp32.mulN (fp32.addN (fp32.mulN z.1 z.1) (fp32.mulN z.2 z.2))
        (melWeight rate lg (fieldAt x.post 0x0C 2) (fieldAt x.post 0x10 4) (fieldAt x.post 0x14 4) c b))) 0
    sfuLog (fp32.maxN (fieldAt x.post 0x18 4) sum)

/-! ### The decoded-sample cache (R399, R400) -/

/-- The transform digest. -/
def IntkJob.digest (x : IntkJob) (codec : Nat) : Nat :=
  let d := x.out
  let below := if x.audio then 1 else 2
  ofBytes (shake256 (x.post ++ x.limits ++ toBytes 1 codec ++ toBytes 1 d.fmt ++ toBytes 1 d.layout ++
    ((List.range 4).flatMap fun i => toBytes 4 (d.v i) ++ toBytes 4 (d.p i)) ++
    ((List.range below).flatMap fun i => toBytes 4 (d.st (i + 1)))) 8)

/-- Address and length of a position's span of the output (R390). -/
def IntkJob.dataSpan (x : IntkJob) (pos : Nat) : Nat × Nat :=
  let d := x.slotOut pos
  let n := 32 * (if x.audio then d.st 2 else if x.patchSide == 0 then d.st 3 * x.framesPer else d.st 3)
  (d.base + pos % x.batch * n, n)

/-- The cache area of a partition: address and units of 256 bytes. -/
def State.cacheArea (s : State) (p : Nat) : Nat × Nat :=
  ((s.ip p F.INTK0_CACHE_LO + 2 ^ 32 * s.ip p F.INTK0_CACHE_HI) / 2 ^ 21 * 2 ^ 21, 8192 * s.ip p F.INTK0_CACHE_FRAMES)

/-- Whether a sample takes part in the cache. -/
def IntkJob.cacheable (x : IntkJob) (t : IntkStream) : Bool := !t.noCache && !x.live && x.boxes == 0

/-- Writes of intake units of a partition that their tiers have not accepted: held for a page, or outstanding at a peer (R395, R427). -/
def State.intakeWrites (s : State) (p : Nat) : Bool :=
  let mine (w : Nat) : Bool := 0x200 ≤ w && w < 0x200 + 35
  s.heldWrites.any (fun h => h.part == p && (match h.who with | .unit w => mine w | _ => false)) ||
  s.canopy.reqs.any fun r => r.part == p && (match r.who with | .unit w => mine w | _ => false)

/-- No write of a record of the cache waits for its page (R400). -/
def State.recordWhole (s : State) (p : Nat) (k : CacheEntry) : Bool :=
  !(s.heldWrites.any fun h =>
    h.part == p && overlap (h.idx * 2 ^ 21 + h.off) h.bytes.length ((s.cacheArea p).1 + 256 * k.off) (256 * k.len))

/-- The record that a sample finds in the cache (R399, R400): none while the cache is disabled (R402), or while it is incomplete. -/
def State.lookup (s : State) (p : Nat) (x : IntkJob) (t : IntkStream) : Option CacheEntry :=
  if !(x.cacheUse && x.cacheable t) || s.ip p F.INTK0_CACHE_FRAMES == 0 then none
  else (s.intk p).dir.find? fun k => k.id == t.id && k.digest == x.digest t.codec && s.recordWhole p k

/-- Append a record of a delivered sample (R400). One whose mask the record's first 256 bytes cannot hold beside its position entry is
not kept (log entry 189). A record whose write faults is no entry. -/
def State.fillCache (s : State) (p : Nat) (x : IntkJob) (t : IntkStream) (pos : Nat) : State :=
  let entry := AMap.getD pos (posEntry 0 0 0 0 0 0 0 0) x.entries
  let area := s.cacheArea p
  let sp := x.dataSpan pos
  let n := 1 + ceilDiv sp.2 256
  let k := s.intk p
  if !(x.cacheFill && x.cacheable t) || 224 < x.units || area.2 < n || !s.inFrames p area.1 (256 * area.2) then s
  else
    let off := if k.point + n ≤ area.2 then k.point else 0
    let w := intkAcc p 34
    let mask := (List.range x.units).map fun i => BitVec.ofNat 8 (b2n (t.valid.contains i))
    let head := entry ++ mask ++ List.replicate (224 - mask.length) (0 : Byte)
    let r := s.wr w (area.1 + 256 * off) (head ++ s.rdBytes w sp.1 sp.2)
    let kept := k.dir.filter fun e => !(overlap e.off e.len off n) && !(e.id == t.id && e.digest == x.digest t.codec)
    let cap := 262144 / s.k
    let kept := if cap ≤ kept.length then
        match leastBy (fun (e : CacheEntry) => e.seq) kept with
        | some o => kept.filter fun e => e != o
        | none => kept
      else kept
    match r.2 with
    | some f => (r.1.faultRecord p (0x200 + 34) f.2 f.1).modIntk p fun k => { k with dir := k.dir.filter fun e => !(overlap e.off e.len off n) }
    | none =>
      let s := r.1.modIntk p fun k =>
        { k with
          point := off + n, fills := k.fills + 1
          dir := kept ++ [{ id := t.id, digest := x.digest t.codec, off := off, len := n, seq := k.fills }] }
      s.incF (Pg.intk 0) F.INTK0_CACHE_FILLS

/-! ### The frame pool and limits (R380, R386) -/

/-- Bytes of a picture as a pool frame stores it. -/
def headerBytes (h : StreamHeader) : Nat :=
  let luma := h.width * h.height
  let chroma := ceilDiv h.width (2 ^ h.subX) * ceilDiv h.height (2 ^ h.subY)
  (luma + min 2 (h.comps - 1) * chroma + (h.comps - 3) * luma) * ceilDiv h.depth 8

/-- A header's claims exceed the limits (R380). -/
def State.oversize (s : State) (p : Nat) (x : IntkJob) (h : StreamHeader) : Bool :=
  let l := x.limits
  if x.audio then
    fieldAt l 8 4 < h.count || fieldAt l 0x10 8 < 4 * h.count * h.comps
  else
    fieldAt l 0 2 < h.width || fieldAt l 2 2 < h.height || fieldAt l 4 4 < h.count ||
    max 1 (min 64 (s.ip p F.INTK0_FRAME_MIB)) * 2 ^ 20 < headerBytes h ||
    fieldAt l 0x10 8 < max 1 h.count * (h.width * h.height * h.comps * ceilDiv h.depth 8)

/-- The features of a codec that its header shows are supported (R372); `supported` tells of the others. -/
def headerFeatures (codec : Nat) (h : StreamHeader) : Bool :=
  let yuv420 := h.comps == 3 && h.subX == 1 && h.subY == 1
  h.supported && match codec with
  | 0x01 => h.depth == 8 && (yuv420 || h.comps == 1)
  | 0x02 => (h.depth == 8 || h.depth == 9 || h.depth == 10) && yuv420
  | 0x03 => (h.depth == 8 || h.depth == 10) && (yuv420 || h.comps == 1)
  | 0x10 => h.depth == 8 && (h.comps == 1 || h.comps == 3) && h.subX ≤ 1 && h.subY ≤ 1
  | 0x11 => h.comps ≤ 4 && [1, 2, 4, 8, 16].contains h.depth
  | 0x20 => h.comps ≤ 8 && 8 ≤ h.depth && h.depth ≤ 24 && 8000 ≤ h.rate && h.rate ≤ 192000
  | 0x21 => h.comps ≤ 2 && h.rate == 48000
  | 0x22 => (h.comps ≤ 6 || h.comps == 8) && 8000 ≤ h.rate && h.rate ≤ 96000
  | _ => false

/-- Parts that a picture divides into: tiles, else slices, else rows of coding tree units under entropy coding sync, else one (R388). -/
def headerParts (h : StreamHeader) (codec : Nat) : Nat :=
  if 2 ≤ h.tiles then h.tiles else if 2 ≤ h.slices then h.slices else if codec == 0x02 && h.sync then h.ctuRows else 1

/-- Frames that a stream reserves (R386). -/
def reserveFrames (codec : Nat) (h : StreamHeader) : Nat :=
  if codec == 0x03 then 10 else if codec < 0x10 then h.refs + 2 else if codec < 0x20 then 1 else 2

/-- The codec belongs to the job's kind and exists (R377). -/
def codecFits (audio : Bool) (c : Nat) : Bool :=
  if audio then 0x20 ≤ c && c ≤ 0x22 else [0x01, 0x02, 0x03, 0x10, 0x11].contains c

/-- Urgency limit of a class in ns (R397, R402). -/
def State.intkUrgency (s : State) (c : Nat) : Nat :=
  let f := [F.INTK0_CLASS0_US, F.INTK0_CLASS1_US, F.INTK0_CLASS2_US, F.INTK0_CLASS3_US].getD c F.INTK0_CLASS3_US
  1000 * max 1 (s.f (Pg.intk 0) f)

/-- The first of some waiting units, each with its class and the time since which it waits (R397): the oldest beyond its class's limit,
else the highest class, the oldest within it. -/
def State.intkFirst {α : Type} (s : State) (l : List (α × Nat × Nat)) : Option α :=
  let late := l.filter fun w => s.intkUrgency w.2.1 < s.power.time - w.2.2
  match leastBy (fun (w : α × Nat × Nat) => w.2.2) late with
  | some w => some w.1
  | none => (leastBy (fun (w : α × Nat × Nat) => (3 - w.2.1) * 2 ^ 64 + w.2.2) l).map fun w => w.1

/-- Frames that a started stream must reserve and has not. -/
def IntkStream.needs (t : IntkStream) : Option Nat :=
  t.header.bind fun h => if t.fate.isNone && t.reserved < reserveFrames t.codec h then some (reserveFrames t.codec h) else none

/-- Serve unreserved frames to waiting streams in the order of R397; the first that does not fit is waited for (R386). -/
def State.serveFrames (s : State) (p : Nat) : Nat → State
  | 0 => s
  | fuel + 1 =>
    let waiting : List ((Nat × Nat × Nat × Nat) × Nat × Nat) := (s.intk p).jobs.flatMap fun x =>
      x.streams.filterMap fun t => t.needs.map fun n => ((x.num, t.no, t.reserved, n), x.cls, t.since)
    match s.intkFirst waiting with
    | none => s
    | some (j, no, had, n) =>
      if s.ip p F.INTK0_FRAMES < s.poolUsed p - had + n then s
      else (s.modStream p j no fun t => { t with reserved := n, since := s.power.time }).serveFrames p fuel

/-- Serve the pool's frames; it has at most 1,024. -/
def State.servePool (s : State) (p : Nat) : State := s.serveFrames p 1024

/-- A job leaves the active jobs; its frames are served to streams that wait (R386). -/
def State.dropJob (s : State) (p j : Nat) : State :=
  ((s.releaseEngines fun e => e.1 == p && e.2.1 == j).modIntk p fun x => { x with jobs := x.jobs.filter fun y => y.num != j }).servePool p

/-- A job ends by R375 with a status. -/
def State.jobFault (s : State) (p j status : Nat) : State :=
  let pg := Pg.intk 0
  let tag := match s.job? p j with
    | some x => x.tag
    | none => 0
  let s := (s.dropJob p j).event pg Ev.INTK0_JOB_FAULT
  if s.f pg F.INTK0_VALID == 1 then s
  else (((s.setF pg F.INTK0_FAULT_TAG tag).setF pg F.INTK0_FAULT_STATUS status).setF pg F.INTK0_FAULT_PART p).raiseF pg F.INTK0_VALID

/-- A job ends by a fault of R75 on one of its structures that INTK instance e accessed, 0 for intake control (R375). -/
def State.jobAccess (s : State) (p j e : Nat) (f : AccFault × Nat) : State :=
  (s.faultRecord p (0x200 + e) f.2 f.1).jobFault p j f.1.status

/-! ### Samples: beginning, delivery, rejection (R376, R381 to R383, R393, R398) -/

/-- The slot of the batch that the positions of the job's next sample would end in, were all before it delivered, is free (R395). -/
def State.slotFree (s : State) (p : Nat) (x : IntkJob) : Bool :=
  let n := (x.pos + x.span * (x.streams.length + 1) - 1) / x.batch
  sx 32 ((n + 2 ^ 32 - s.value (s.devCtr p x.releaseCtr)) % 2 ^ 32) < 2 ^ x.slotsLog2

/-- Padded positions that complete the job's last batch (R393): a batch of nothing else where samples beyond the last full batch filled
none. -/
def IntkJob.padding (x : IntkJob) : Nat :=
  let b := x.pos / x.batch
  if x.pos % x.batch != 0 then (b + 1) * x.batch - x.pos
  else if x.delivered + b2n x.recorded == b || AMap.getD b 0 x.rejected != 0 then x.batch else 0

/-- Pad the job's last batch and close it (R393). -/
def State.closeJob (s : State) (p : Nat) (x : IntkJob) : State :=
  let n := x.padding
  let r := (rangeFrom x.pos n).foldl (fun (r : Wr) k => r.bind fun s => s.padPosition p x k 0xFFFFFFFF 0x57 0 0) (s, none)
  match r.2 with
  | some f => r.1.jobAccess p x.num 0 f
  | none => (r.1.modJob p x.num fun y => { y with closed := true, pos := y.pos + n, streams := [], carry := none }).servePool p

/-- A job reads its next entry once the headers of the samples before have been checked; a live stream is one sample at a time
(log entry 131). -/
def IntkJob.mayBegin (x : IntkJob) : Bool :=
  if x.live then x.streams.isEmpty else x.streams.all fun t => t.header.isSome || t.hit.isSome || t.fate.isSome

/-- The job begins its next sample if it may (R376, R395, R398): it reads the entry, and looks the sample up in the cache. After its
last sample it is closed; under SERVICE the padding of its last batch waits. A live stream's sample goes on with its header, frames and
numbers; one of no data takes nothing over, and so ends the stream (R377). -/
def State.beginSample (s : State) (p j : Nat) : State :=
  match s.job? p j with
  | none => s
  | some x =>
    let held := (s.part p).overlay == .service
    if x.closed || !s.active p then s
    else if x.noMore || (!x.live && x.samples ≤ x.taken) then (if x.streams.isEmpty && !(held && x.padding != 0) then s.closeJob p x else s)
    else if held || !x.mayBegin || !s.slotFree p x then s
    else if x.live && sx 32 ((s.value (s.devCtr p x.listCtr) + 2 ^ 32 - x.taken % 2 ^ 32) % 2 ^ 32) ≤ 0 then s
    else
      let index := if x.ordered then x.order.getD x.taken 0 else x.taken
      let a := if x.live then x.listAt + 32 * (x.taken % 2 ^ x.listLog2) else x.listAt + 32 * index
      match s.rd? (intkAcc p 0) (a % 2 ^ 64) 32 with
      | .error f => s.jobAccess p j 0 f
      | .ok e =>
        let t : IntkStream := { no := x.taken, index := index % 2 ^ 32, entry := e, since := s.power.time }
        let t := { t with hit := (s.lookup p x t).map fun k => (k.off, k.len) }
        let t : IntkStream := match x.carry with
          | some c => if c.codec == t.codec && t.len != 0 then
              { t with header := c.header, reserved := c.reserved, frames := c.frames, recent := c.recent, nextNum := c.nextNum }
            else t
          | none => t
        (s.modJob p j fun y => { y with streams := y.streams ++ [t], carry := none, taken := y.taken + 1 }).servePool p

/-- The job's first sample leaves: its pool frames are freed, and the job goes on to its next sample (R387, R393). -/
def State.endSample (s : State) (p j : Nat) : State :=
  match s.job? p j with
  | none => s
  | some x => match x.streams with
    | [] => s
    | t :: rest =>
      let carry : Option IntkStream :=
        if x.live && t.codec ≤ 3 && t.header.isSome then
          some { t with frames := (t.frames.filter fun f => f.ref).map fun (f : IntkFrame) => { f with out := false } }
        else none
      let s := (s.releaseEngines fun e => e == (p, j, t.no)).modJob p j fun y => { y with streams := rest, carry := carry }
      ((s.servePool p).modJob p j fun y => { y with noMore := y.noMore || (x.live && t.ends) }).beginSample p j

/-- The job's first sample was rejected: it fills padded positions under PAD, and none under NEXT (R393). -/
def State.rejectHead (s : State) (p j : Nat) (x : IntkJob) (t : IntkStream) (status : Nat) : State :=
  let b := x.pos / x.batch
  let s := s.modJob p j fun y => { y with rejected := AMap.put b (AMap.getD b 0 y.rejected + 1) y.rejected }
  if !x.pad then s.endSample p j
  else
    let r := (rangeFrom x.pos x.span).foldl (fun (r : Wr) k => r.bind fun s => s.padPosition p x k t.index status (k - x.pos) t.damage.length) (s, none)
    match r.2 with
    | some f => r.1.jobAccess p j 0 f
    | none => (r.1.modJob p j fun y => { y with pos := y.pos + x.span }).endSample p j

/-- A live picture is dropped as stale (R398). -/
def State.staleSample (s : State) (p j : Nat) (atStart : Bool) : State :=
  let s := (s.incF (Pg.intk 0) (if atStart then F.INTK0_STALE_START else F.INTK0_STALE_DELIVERY)).event (Pg.intk 0) Ev.INTK0_STALE_DROP
  (s.modJob p j fun y => { y with stale := y.stale + 1 }).endSample p j

/-- The picture of a live sample is too old (R398). -/
def State.isStale (s : State) (x : IntkJob) (t : IntkStream) : Bool :=
  x.live && x.staleNs != 0 && t.capture + x.staleNs < s.power.time

/-- Write the sample's damage regions to the log of the slot of its first position (R394). -/
def State.writeDamage (s : State) (p : Nat) (x : IntkJob) (t : IntkStream) : Wr :=
  if x.damageAt == 0 then (s, none)
  else
    let b := x.pos / x.batch
    let at0 := x.damageAt + 16 * (b % 2 ^ x.slotsLog2) * 2 ^ x.damageLog2
    t.damage.foldl (fun (r : Wr) d => r.bind fun s =>
      let n := match s.job? p x.num with
        | some y => AMap.getD b 0 y.logged
        | none => 0
      if 2 ^ x.damageLog2 ≤ n then (s.event (Pg.intk 0) Ev.INTK0_DAMAGE_DROPPED, none)
      else
        Wr.bind (s.wr (intkAcc p 0) ((at0 + 16 * n) % 2 ^ 64)
          (toBytes 4 t.index ++ toBytes 4 d.1 ++ toBytes 4 d.2.1 ++ toBytes 4 d.2.2)) fun s => (s.modJob p x.num fun y => { y with logged := AMap.put b (n + 1) y.logged }, none)) (s, none)

/-- The moving average takes the units of a sample (R383). Its first value is open (log entry 9). -/
def State.learnCosts (s : State) (p j codec : Nat) (costs : List (Nat × Nat)) : State :=
  let start := Config.open s.opens % 2 ^ 32
  let s := { s with opens := s.opens + 1 }
  s.modJob p j fun y =>
    let a := AMap.getD codec (start, 0) y.avg
    let a := costs.foldl (fun (a : Nat × Nat) c =>
      let x := fp32.divN (fp32.ofInt (Int.ofNat c.1)) (fp32.ofInt (Int.ofNat c.2))
      (fp32.addN a.1 (fp32.divN (fp32.subN x a.1) (fp32.ofInt 16)), a.2 + 1)) a
    { y with avg := AMap.put codec a y.avg }

/-- The job's first sample is delivered: its position entries, masks, damage log and averages (R381, R382, R393, R394). The cache takes it
with its batch (R400; log entry 213). -/
def State.deliverHead (s : State) (p j : Nat) : State :=
  match s.job? p j with
  | none => s
  | some x => match x.streams with
    | [] => s
    | t :: _ =>
      let w := intkAcc p 0
      let pg := Pg.intk 0
      let status := if t.damage.isEmpty && t.missing.isNone then 0 else 0x52
      let flags := 2 * b2n t.missing.isSome + 4 * b2n (!t.damage.isEmpty) + 8 * b2n t.limited
      let mf := (t.missing.getD (0xFFFFFFFF, 0)).1
      let mp := (t.missing.getD (0, 0)).2
      let entry (b : Nat) : List Byte := posEntry t.index status flags b t.valid.length t.damage.length mf mp
      let r := (List.range x.span).foldl (fun (r : Wr) b =>
        let r := if x.audio then r else
          (List.range x.framesPer).foldl (fun (r : Wr) f => r.bind fun s =>
            if t.valid.contains f then (s, none) else s.writeFrame w x (x.pos + b) f fun _ _ _ => x.padValue) r
        (r.bind fun s => s.writeMask w x (x.pos + b) fun i => t.valid.contains i).bind fun s =>
          (s.modJob p j fun y => { y with entries := AMap.put (x.pos + b) (entry b) y.entries }, none)) (s, none)
      let r := r.bind fun s => s.writeDamage p x t
      match r.2 with
      | some f => r.1.jobAccess p j 0 f
      | none =>
        let s := r.1.incF pg F.INTK0_SAMPLES x.span
        let s := if status == 0x52 then (s.incF pg F.INTK0_CONCEALED).event pg Ev.INTK0_CONCEALED else s
        let s := s.learnCosts p j t.codec t.costs
        let fill := if status == 0 && x.cacheFill && x.cacheable t then [(x.pos, { t with sound := [], recent := [], frames := [] })] else []
        (s.modJob p j fun y => { y with pos := y.pos + x.span, toFill := y.toFill ++ fill }).endSample p j

/-- All of a sample's pictures that are wanted have been decoded and written. -/
def IntkStream.complete (t : IntkStream) : Bool := t.ended && t.lack.isEmpty && !(t.frames.any fun f => f.out)

/-- The job's samples leave in sample order as far as they are done: rejected, or complete pictures. -/
def State.settleJob (s : State) (p j : Nat) : Nat → State
  | 0 => s
  | fuel + 1 => match s.job? p j with
    | none => s
    | some x => match x.streams with
      | [] => s
      | t :: _ => match t.fate with
        | some st => (s.rejectHead p j x t st).settleJob p j fuel
        | none => if !x.audio && t.complete then (s.deliverHead p j).settleJob p j fuel else s

/-- As far as that goes. -/
def State.settleSamples (s : State) (p j : Nat) : State :=
  s.settleJob p j (match s.job? p j with
    | some x => x.streams.length + 1
    | none => 0)

/-- A sample is rejected (R380, R383 to R386): engines and frames are given back, the reservation too but for a live stream's, which goes
on; its positions are settled in sample order (R393). -/
def State.rejectSample (s : State) (p j n status : Nat) : State :=
  let pg := Pg.intk 0
  let s := if status == 0x51 then s.incF pg F.INTK0_TIMEOUTS else s.incF pg F.INTK0_REJECTED
  let s := match status with
    | 0x50 => s.event pg Ev.INTK0_OVERSIZE
    | 0x51 => s.event pg Ev.INTK0_TIMEOUT
    | 0x53 => s.event pg Ev.INTK0_UNSUPPORTED
    | 0x55 => s.event pg Ev.INTK0_NO_FRAMES
    | _ => s
  let live := (s.job? p j).any fun x => x.live
  let s := (s.releaseEngines fun e => e == (p, j, n)).modStream p j n fun t =>
    { t with fate := some status, frames := [], reserved := if live then t.reserved else 0 }
  (s.servePool p).settleSamples p j

/-- A sample is copied from the cache (R400), reserved bits of its entry written as 0 (R13). Where the record cannot be read, the sample is
decoded. -/
def State.copyCached (s : State) (p : Nat) (x : IntkJob) (t : IntkStream) (off len : Nat) : State :=
  let w := intkAcc p 34
  let area := s.cacheArea p
  let sp := x.dataSpan x.pos
  match s.rd? w (area.1 + 256 * off) (256 * len) with
  | .error f => (s.faultRecord p (0x200 + 34) f.2 f.1).modStream p x.num t.no fun y => { y with hit := none }
  | .ok rec_ =>
  let u := x.units
  let e := toBytes 4 t.index ++ toBytes 1 (fieldAt rec_ 4 1) ++ toBytes 1 (bits (fieldAt rec_ 5 1) 0 4 ||| 1) ++ (rec_.drop 6).take 18 ++
    toBytes 8 0
  let r := Wr.bind (s.wr w sp.1 ((rec_.drop 256).take sp.2)) fun s => s.writeMask w x x.pos fun i => fieldAt rec_ (32 + i) 1 == 1 && i < u
  match r.2 with
  | some f => r.1.jobAccess p x.num 34 f
  | none =>
    let s := (r.1.incF (Pg.intk 0) F.INTK0_CACHE_HITS).incF (Pg.intk 0) F.INTK0_SAMPLES
    ((s.modJob p x.num fun y => { y with entries := AMap.put y.pos e y.entries, pos := y.pos + 1 }).endSample p x.num).settleSamples p x.num

/-! ### Engines (R370, R397) -/

/-- The kind of INTK page e (1 to 34): 1 video, 2 JPEG, 3 DEFLATE, 4 audio, 5 front end, 6 post-processor. -/
def engineKind (e : Nat) : Nat :=
  if e ≤ 16 then 1 else if e ≤ 24 then 2 else if e ≤ 28 then 3 else if e ≤ 32 then 4 else if e == 33 then 5 else 6

/-- The kind that decodes a codec. -/
def codecKind (c : Nat) : Nat := if c ≤ 3 then 1 else if c == 0x10 then 2 else if c == 0x11 then 3 else 4

/-- The selected frames in display order (R391). -/
def IntkJob.selected (x : IntkJob) (f : Nat) : Option Nat :=
  if x.live then (if f == 0 then some 0 else none)
  else
    let first := fieldAt x.post 8 2
    let step := max 1 (fieldAt x.post 0x0A 2)
    if first ≤ f && (f - first) % step == 0 && (f - first) / step < x.framesPer then some ((f - first) / step) else none

/-- The next frame of a stream to post-process: the first in display order among those held as output; of sound, the first chunk. -/
def IntkStream.nextOut (t : IntkStream) : Option IntkFrame := leastBy (fun (f : IntkFrame) => f.disp) (t.frames.filter fun f => f.out)

/-- Engines that decode for a sample. -/
def State.decoders (s : State) (p j n : Nat) : Nat := (s.engines.filter fun e => e.2 == (p, j, n) && engineKind e.1 ≤ 4).length

/-- A sample waits for a unit of decoding: its next picture, with a frame of its reservation free for it (R387), or a further part of
the present one (R388). -/
def State.wantsDecode (s : State) (p : Nat) (x : IntkJob) (t : IntkStream) : Bool :=
  match t.header with
  | none => false
  | some h =>
    let n := s.decoders p x.num t.no
    !t.ended && reserveFrames t.codec h ≤ t.reserved &&
    (if n == 0 then x.audio || t.frames.length < t.reserved
    else t.codec ≤ 3 && t.begun < headerParts h t.codec && n < max 1 (min 16 (s.f (Pg.intk 0) F.INTK0_MAX_CORES)))

/-- A sample waits for an engine of a kind (R397). Only the first of its job may fill positions. -/
def State.wantsKind (s : State) (p : Nat) (x : IntkJob) (t : IntkStream) (kind : Nat) : Bool :=
  let first := x.streams.head?.any fun y => y.no == t.no
  let post := first && !(s.engines.any fun e => e.2 == (p, x.num, t.no) && 5 ≤ engineKind e.1)
  t.fate.isNone &&
  (if t.hit.isSome then kind == 6 && post
  else if 5 ≤ kind then kind == (if x.audio then 5 else 6) && post && t.nextOut.isSome
  else kind == codecKind t.codec && s.wantsDecode p x t)

/-- Device time since which a sample's unit for an engine of a kind waits: the frame to be post-processed, or the next to decode (R397). -/
def IntkStream.waitsSince (t : IntkStream) (kind : Nat) : Nat :=
  if 5 ≤ kind && t.hit.isNone then (t.nextOut.map fun f => f.since).getD t.since else t.since

/-- The waiting unit that an engine of a kind takes (R397): partition, job number and sample. -/
def State.grantChoice (s : State) (kind : Nat) : Option (Nat × Nat × Nat) :=
  s.intkFirst ((List.range s.k).flatMap fun p => if s.active p then (s.intk p).jobs.flatMap fun x => x.streams.filterMap fun t =>
    if s.wantsKind p x t kind then some ((p, x.num, t.no), x.cls, t.waitsSince kind) else none else [])

/-- An engine ends its unit: BUSY falls, and its VCLK and units count (R403). -/
def State.freeEngine (s : State) (e cycles : Nat) : State :=
  let pg := Pg.intk e
  let s := ((s.setF pg F.INTKE_BUSY 0).incF pg F.INTKE_UNITS).incF2 pg F.INTKE_BUSY_LO F.INTKE_BUSY_HI cycles
  { s with engines := AMap.del e s.engines }

/-- Work of a unit: luma samples of a picture, or decoded samples of sound (R383). -/
def unitWork (audio : Bool) (h : StreamHeader) (u : DecodedUnit) : Nat :=
  if audio then u.planes.foldl (fun n c => n + c.length) 0 else h.width * h.height

/-- A unit's or its sample's cycles exceed the budget (R383). -/
def IntkJob.overBudget (x : IntkJob) (t : IntkStream) (cycles work : Nat) : Bool :=
  let ceil := fieldAt x.limits 0x18 4
  let a := AMap.getD t.codec (0, 0) x.avg
  let mult := fieldAt x.limits 0x0C 1
  (if ceil == 0 then 2 ^ 32 - 1 else ceil) < t.spent + cycles ||
  (16 ≤ a.2 && mult != 0 &&
    Num.lt (Num.mul (Num.ofInt (Int.ofNat (mult * work))) (fp32.decode a.1)).1 (Num.ofInt (Int.ofNat cycles)))

/-- The batch record of R396. -/
def State.batchRecord (s : State) (x : IntkJob) (n : Nat) (last : Bool) : List Byte :=
  let ps := rangeFrom (n * x.batch) x.batch
  let es := ps.map fun k => AMap.getD k (posEntry 0xFFFFFFFF 0x57 0 0 0 0 0xFFFFFFFF 0) x.entries
  let filled := (es.filter fun e => fieldAt e 4 1 == 0 || fieldAt e 4 1 == 0x52).length
  toBytes 4 n ++ toBytes 4 (filled + 65536 * b2n last) ++ toBytes 4 x.tag ++ toBytes 4 (AMap.getD n 0 x.logged) ++
  toBytes 4 (AMap.getD n 0 x.rejected) ++ toBytes 4 x.stale ++ toBytes 8 s.power.time ++ toBytes 32 0 ++ es.flatten

end Sys2Proof.Machine
end

