-- ==== Sys2Proof/Machine/Tables.lean ====
section
/-! DEFINITION. Writes of the canopy's tables: routes, contexts, groups and member words (R420, R425, R432, R441, R449, R490). -/

namespace Sys2Proof.Machine

/-- The device's unique ID (R532): from the identity's public key where there is one, else from the serial. -/
def identitySeed (x : Sec) (deriveDisabled : Bool) : Option (List Byte) :=
  match x.uds with
  | some u => if deriveDisabled then none else some (shake256 (toBytes 32 u ++ [1]) 57)
  | none => none

/-- The public key of the identity, none where the device has no identity key. -/
def State.idPublic (s : State) : Option (List Byte) :=
  (identitySeed s.sec (s.f (Pg.sec 3) F.SEC3_DERIVE_DISABLE == 1)).map ed448Public

/-- CNPY_UID (R532). -/
def State.uid (s : State) : Nat :=
  match s.idPublic with
  | some k => ofBytes (shake256 k 8)
  | none => ofBytes (shake256 (toBytes 16 s.sec.serial) 8)

/-- Table sizes by TABLE code (R448): group routes, member routes, contexts, groups, member array. -/
def tblSize (t : Nat) : Nat :=
  match t with
  | 0 => 256
  | 1 => 256
  | 2 => 4096
  | 3 => 1024
  | 4 => 16384
  | _ => 0

/-- Bytes of an entry. -/
def tblBytes (t : Nat) : Nat :=
  match t with
  | 2 => 16
  | 3 => 64
  | 4 => 4
  | _ => 8

/-- An entry as a number. -/
def State.tblEntry (s : State) (t i : Nat) : Nat :=
  match t with
  | 0 => AMap.getD i 0 s.canopy.groupTbl
  | 1 => AMap.getD i 0 s.canopy.memberTbl
  | 2 => s.ctx i
  | 3 => s.grp i
  | _ => AMap.getD i 0 s.canopy.members

/-- Put an entry of an AMap, or drop it where it is 0. -/
def putOrDel (i v : Nat) (m : AMap Nat) : AMap Nat := if v == 0 then AMap.del i m else AMap.put i v m

/-- A write of a context (R425): DOWN, NEXT_SEQ and the duplicate window are cleared; requests outstanding on it fail. -/
def State.writeCtx (s : State) (i v : Nat) : State :=
  let c := s.canopy
  -- DOWN, OUTSTANDING and NEXT_SEQ are read-only and begin at 0
  let e := putBits (putBits (putBits v 4 1 0) 48 9 0) 64 16 0
  { s with canopy := { c with
      ctx := putOrDel i e c.ctx
      seen := AMap.del i c.seen
      reqs := c.reqs.map fun r => if r.ctx == i then { r with lost := true } else r } }

/-- A write of a group (R441, R490): collectives that run on it end with STALE_EPOCH; a new EPOCH sets SEQ and SCALAR_SEQ to 0. -/
def State.writeGroup (s : State) (i v : Nat) : State :=
  let old := s.grp i
  let keep := if Grp.epoch v == Grp.epoch old then bits old 128 64 else 0
  let s := s.staleGroup i
  s.setGrp i (putBits v 128 64 keep)

/-- A write of a member word. -/
def State.writeMember (s : State) (i v : Nat) : State :=
  { s with canopy := { s.canopy with members := putOrDel i v s.canopy.members } }

/-- A write of a route entry; a change of any entry sets ROUTES_CHANGED (R421, R450). -/
def State.writeRoute (s : State) (member : Bool) (i v : Nat) : State :=
  let s := if AMap.getD i 0 (if member then s.canopy.memberTbl else s.canopy.groupTbl) == v then s
    else s.event (Pg.cnpy 9) Ev.CNPY9_ROUTES_CHANGED
  if member then { s with canopy := { s.canopy with memberTbl := putOrDel i v s.canopy.memberTbl } }
  else { s with canopy := { s.canopy with groupTbl := putOrDel i v s.canopy.groupTbl } }

/-- Write an entry. -/
def State.tblWrite (s : State) (t i v : Nat) : State :=
  match t with
  | 0 => s.writeRoute false i v
  | 1 => s.writeRoute true i v
  | 2 => s.writeCtx i v
  | 3 => s.writeGroup i v
  | _ => s.writeMember i v

/-- Reserved bits of an entry, and read-only ones, which a write may carry (R420, R425, R432). -/
def tblReserved (t v : Nat) : Bool :=
  match t with
  | 0 | 1 => bits v 43 21 != 0
  | 2 => bits v 5 11 != 0 || bits v 44 4 != 0 || bits v 57 7 != 0 || bits v 80 48 != 0
  | 3 => bits v 6 10 != 0 || bits v 110 2 != 0 || bits v 192 320 != 0
  | _ => bits v 13 3 != 0

/-- RESULT of a write (R449): 0 OK, 1 BAD_INDEX, 2 BAD_ENTRY, 3 OWNER_ABSENT. -/
def State.tblCheck (s : State) (t i v : Nat) : Nat :=
  let valid := if t ≤ 1 then bit v 41 else bit v 0
  if tblSize t ≤ i then 1
  else if t ≤ 3 && !valid then 0
  else if tblReserved t v then 2
  else if (t == 2 || t == 3) && s.k ≤ bits v 1 3 then 2
  else if t == 3 && 16384 < Grp.first v + Grp.count v then 2
  else if (t == 2 || t == 3) && (let st := (s.part (bits v 1 3)).st; st != .active && st != .stopped) then 3
  else 0

/-- Clear the contexts and groups that a partition owns (R37, R432). Its member words stay. -/
def State.clearTables (s : State) (p : Nat) : State :=
  let mine := (s.canopy.ctx.filter fun x => bit x.2 0 && bits x.2 1 3 == p).map fun x => x.1
  let s := mine.foldl (fun s i => s.writeCtx i 0) s
  { s with canopy := { s.canopy with groups := s.canopy.groups.filter fun g => !(Grp.valid g.2 && Grp.owner g.2 == p) } }

end Sys2Proof.Machine
end

