-- ==== Sys2Proof/Machine/Resil.lean ====
section
/-! DEFINITION. Snapshots, journal replay and spare fills: their lists, records, steps and ends (R478 to R499). -/

namespace Sys2Proof.Machine

/-! ### Snapshots -/

/-- The snapshot machinery's UNIT: the coppice path of the partition's die (R484, R568). -/
def State.coppUnit (s : State) (p : Nat) : Nat := 0x310 + s.dieOf p

/-- 2 MiB. -/
def page2M : Nat := 2 ^ 21

/-- Tag of an address (R74): TRANSLATED or REMOTE, aligned to 32 bytes. -/
def destForm (a : Nat) : Bool := (bits a 60 4 == 0 || bits a 60 4 == 3) && a % 32 == 0

/-- Write n bytes for a snapshot at a destination (R484): through the page map, or as WRITE_REQs of 4 KiB in class BULK. The
status where it ends the snapshot. -/
def State.snapWrite (s : State) (p page a : Nat) (b : List Byte) : State × Option Nat :=
  if bits a 60 4 == 3 then
    let c := bits a 40 12
    if s.ctxPart c != some p then (s, some 0x01)
    else
      ((chunks 4096 (b.length / 4096 + 1) b).mapIdx fun i v => (i, v)).foldl (fun (r : State × Option Nat) x =>
        (r.1.remoteWrite p c (bits a 0 40 + 4096 * x.1) x.2 (.snap p page) 0 5, r.2)) (s, none)
  else
    match s.storeRec p (s.coppUnit p) none a b with
    | (s, none) => (s, none)
    | (s, some _) => (s, some 0x02)

/-- The 128 bytes of the record's header (R488). -/
def State.snapHeader (s : State) (p : Nat) (x : Snap) (done : Bool) : List Byte :=
  toBytes 4 x.id ++ toBytes 4 (x.kind + b2n done * 4) ++ toBytes 4 x.step ++ toBytes 4 x.items.length ++
  toBytes 8 x.since ++ toBytes 8 (if done then s.power.time else 0) ++ toBytes 4 x.normPrev ++
  toBytes 4 (b2n x.prevValid + p * 2 + s.f (Pg.cnpy 9) F.CNPY9_ADDR * 2 ^ 16) ++ toBytes 4 x.imageItems ++
  toBytes 4 x.image.length ++ toBytes 8 (page2M * x.items.foldl (fun n i => n + i.copied) 0) ++ toBytes 72 0

/-- An item of the record (R488). -/
def SnapItem.bytes (i : SnapItem) (alt : Nat) : List Byte :=
  toBytes 8 i.src ++ toBytes 8 (i.dst + i.area * alt) ++ toBytes 4 i.pages ++ toBytes 4 (i.used + i.area * 4) ++
  toBytes 4 (if i.used == 1 || i.used == 2 then i.baseStep else 0) ++ toBytes 4 i.copied

/-- The membership image of a partition (R489): the number of items, and the bytes. -/
def State.membership (s : State) (p : Nat) : Nat × List Byte :=
  let item (t i n v : Nat) : List Byte := toBytes 4 (t + i * 2 ^ 16) ++ toBytes 4 0 ++ toBytes (ceilDiv n 8 * 8) v
  let ctxs := (s.canopy.ctx.filter fun x => bit x.2 0 && bits x.2 1 3 == p).map fun x => item 0 x.1 16 x.2
  let grps := s.canopy.groups.filter fun x => Grp.valid x.2 && Grp.owner x.2 == p
  let gs := grps.map fun x => item 1 x.1 64 x.2
  let words := grps.flatMap fun x => (rangeFrom (Grp.first x.2) (Grp.count x.2)).map fun i =>
    item 2 i 4 (AMap.getD i 0 s.canopy.members)
  let pins (t : Nat) (m : AMap Nat) : List (List Byte) := (m.filter fun x => bit x.2 42).map fun x => item t x.1 8 x.2
  let all := ctxs ++ gs ++ words ++ pins 3 s.canopy.groupTbl ++ pins 4 s.canopy.memberTbl
  (all.length, all.flatten)

/-- The pages of a range that starts at a TRANSLATED address are frames of STACK or BULK outside every managed arena (R479). -/
def State.snapSource (s : State) (p src pages : Nat) : Bool :=
  src % page2M == 0 && src + pages * page2M ≤ 2 ^ 40 &&
  (rangeFrom (src / page2M) pages).all fun i =>
    let e := s.entry p i
    bit e 0 && bits e 1 2 ≤ 1 && (s.arenaAt p i).isNone

/-- How an entry is secured (R480): METHOD_USED, area, and the pages to copy. -/
def State.secure (s : State) (p kind id step jmin rebase : Nat) (e : SnapItem) : SnapItem :=
  let all := List.range e.pages
  let full : SnapItem := { e with used := 0, area := id % 2, todo := all, copied := e.pages }
  if kind != 0 || e.method == 0 then full
  else if e.method == 2 then
    let d := all.filter fun i => bit (s.entry p (e.src / page2M + i)) 5
    { e with used := 3, area := 0, todo := d, copied := d.length }
  else if e.pages < jmin then full
  else if e.baseStep == 0xFFFFFFFF || max 1 rebase ≤ (step + 2 ^ 32 - e.baseStep) % 2 ^ 32 then
    { e with used := 1, area := 1 - b2n e.baseArea, baseStep := step, todo := all, copied := e.pages }
  else { e with used := 2, area := b2n e.baseArea, todo := [], copied := 0 }

/-- Read and check a list (R478, R479): the header and the entries, or the status that ends the snapshot and the KIND as far as it
has been read. -/
def State.snapRead (s : State) (p list : Nat) (auto : Bool) : State × Except (Nat × Nat) (List Byte × List SnapItem) :=
  match s.load p none list 64 with
  | .error e => (s.faultRecord p (s.coppUnit p) e.2 e.1, .error (0x02, 0))
  | .ok h =>
    let kind := bits (fieldAt h 0 4) 16 2
    let n := bits (fieldAt h 0 4) 0 16
    match s.load p none (list + 64) (32 * n) with
    | .error e => (s.faultRecord p (s.coppUnit p) e.2 e.1, .error (0x02, kind))
    | .ok b =>
      let entry (i : Nat) : List Byte := (b.drop (32 * i)).take 32
      let items := (List.range n).map fun i =>
        let e := entry i
        let m := fieldAt e 0x14 1
        ({ src := fieldAt e 0 8, dst := fieldAt e 8 8, pages := fieldAt e 0x10 4, method := bits m 0 2, baseArea := bit m 2
           baseStep := fieldAt e 0x18 4, used := 0, area := 0, todo := [], copied := 0 } : SnapItem)
      let headOk := n != 0 && kind != 3 && (!auto || kind == 0) && bits (fieldAt h 0 4) 18 14 == 0 && destForm (fieldAt h 8 8) &&
        (h.drop 0x18).all (fun x => x == 0)
      let entriesOk := (List.range n).all fun i =>
        let e := entry i
        bits (fieldAt e 0x14 1) 0 2 != 3 && bits (fieldAt e 0x14 1) 3 5 == 0 && fieldAt e 0x15 3 == 0 && fieldAt e 0x1C 4 == 0 &&
        fieldAt e 0x10 4 != 0 && destForm (fieldAt e 8 8) && s.snapSource p (fieldAt e 0 8) (fieldAt e 0x10 4)
      let apart := (List.range n).all fun i => (List.range i).all fun j =>
        match items[i]?, items[j]? with
        | some x, some y => !overlap (x.src / page2M) x.pages (y.src / page2M) y.pages
        | _, _ => true
      (s, if headOk && entriesOk && apart then .ok (h, items) else .error (0x03, kind))

/-- Steps 4 and 5 of R485. -/
def State.snapReport (s : State) (p status kind : Nat) (x : Option Snap) : State :=
  let pg := Pg.part p
  let s := ((s.setF pg F.MEMP_LAST_STATUS status).incF pg F.MEMP_ENDED).setF pg F.MEMP_LAST_KIND kind
  let s := match x with
    | some x =>
      let s := if status == 0 then s.setF pg F.MEMP_LAST_STEP x.step else s
      if x.kind == 0 then s.setF pg F.MEMP_COST_US (min (2 ^ 32 - 1) (x.protect + x.waits / s.coresPer / 3000)) else s
    | none => s
  let c := s.f pg F.MEMP_DONE_CTR_070
  if s.f pg F.MEMP_DONE_EN_070 == 1 && c < s.ctrsPer then s.opAdd (s.devCtr p c) 1 else s

/-- Clear SNAP_WP of a page and let its held writes go (R483). -/
def State.unprotect (s : State) (p idx : Nat) : State :=
  let e := s.entry p idx
  if bit e 4 then (s.setEntry p idx (e - 16)).releaseWrites p idx else s

/-- A snapshot is over: SNAP_WP is cleared everywhere, held writes go on, staging frames are free (R486). -/
def State.snapClear (s : State) (p : Nat) : State :=
  match AMap.get? p s.snaps with
  | none => s
  | some x =>
    -- what it has outstanding at peers is no later snapshot's
    let s := { s with
      snaps := AMap.del p s.snaps
      canopy := { s.canopy with reqs := s.canopy.reqs.map fun (r : RemoteReq) =>
        match r.who with
        | .snap q _ => if q == p then { r with who := .unit 0xFFFF } else r
        | _ => r } }
    let s := x.items.foldl (fun s i => i.todo.foldl (fun s k => s.unprotect p (i.src / page2M + k)) s) s
    (s.setF (Pg.part p) F.MEMP_STREAMING 0).setF (Pg.part p) F.MEMP_PROTECTING 0

/-- A snapshot ends early with a status (R486). -/
def State.snapFail (s : State) (p status : Nat) : State :=
  match AMap.get? p s.snaps with
  | none => s
  | some x => (s.snapClear p).snapReport p status x.kind (some x)

/-- Begin a snapshot with a list (R479, R481, R482). Protection is one step of the model; how long it takes is open (R487, log entry
141). -/
def State.snapBegin (s : State) (p list : Nat) (auto : Bool) : State :=
  let pg := Pg.part p
  let s := s.modPart p fun x => { x with snapBegin := s.power.time }
  match s.snapRead p list auto with
  | (s, .error st) => s.snapReport p st.1 st.2 none
  | (s, .ok (h, items)) =>
    let id := wrapAdd 32 (s.f pg F.MEMP_SNAP_ID) 1
    let kind := bits (fieldAt h 0 4) 16 2
    let alt := fieldAt h 0x10 8
    let step := (s.part p).lastStep
    let items := items.map (s.secure p kind id step (fieldAt h 4 2) (fieldAt h 6 2))
    let im := s.membership p
    let x : Snap :=
      { id := id, kind := kind, list := list, alt := alt, record := fieldAt h 8 8 + id % 2 * alt, step := step, since := s.power.time
        normPrev := s.f (s.leadPage p) F.CAMBL_NORM_PREV, prevValid := s.f (s.leadPage p) F.CAMBL_PREV_VALID == 1
        items := items, imageItems := im.1, image := im.2, protect := Config.open s.opens }
    let s := ({ s with opens := s.opens + 1 }.setF pg F.MEMP_SNAP_ID id).setF pg F.MEMP_STREAMING 1
    let protect (s : State) (i : Nat) : State := s.setEntry p i (putBits (putBits (s.entry p i) 4 1 1) 5 1 0)
    let s := { s with snaps := AMap.put p x s.snaps }
    let w := s.snapWrite p 0xFFFFFFFF x.record
      (s.snapHeader p x false ++ (items.flatMap fun i => i.bytes alt) ++ im.2)
    match w.2 with
    | some st => w.1.snapFail p st
    | none => items.foldl (fun s i => i.todo.foldl (fun s k => protect s (i.src / page2M + k)) s) w.1

/-- The snapshot that begins at a boundary, if any: a pending request first, then the interval's (R481). -/
def State.snapTry (s : State) (p : Nat) : State :=
  let pg := Pg.part p
  if (AMap.get? p s.snaps).isSome || !s.active p then s
  else if s.f pg F.MEMP_REQ == 1 then
    (s.setF pg F.MEMP_REQ 0).snapBegin p (s.f2 pg F.MEMP_REQ_LIST_LO F.MEMP_REQ_LIST_HI / 64 * 64) false
  else
    let ms := if s.f pg F.MEMP_MS != 0 then s.f pg F.MEMP_MS else s.f pg F.MEMP_AUTO_MS
    if s.f pg F.MEMP_AUTO == 1 && (s.part p).overlay != .service && (s.part p).snapBegin + 1000000 * ms ≤ s.power.time then
      s.snapBegin p (s.f2 pg F.MEMP_LIST_LO F.MEMP_LIST_HI / 64 * 64) true
    else s

/-- Pages of a snapshot whose writes are outstanding at a peer. -/
def State.snapOut (s : State) (p : Nat) : List Nat :=
  (s.canopy.reqs.filterMap fun r => match r.who with
    | .snap q n => if q == p then some n else none
    | _ => none).eraseDups

/-- The next page to stream: item, page and staging frame, in ascending order of item and page (R484). -/
def Snap.nextPage (x : Snap) : Option (Nat × Nat × Option Nat) :=
  let live := (x.items.mapIdx fun i e => (i, e)).filterMap fun y => y.2.todo.head?.map fun k => (y.1, k, (none : Option Nat))
  let held := x.staged.map fun y => (y.1, y.2.1, some y.2.2)
  leastBy (fun (y : Nat × Nat × Option Nat) => y.1 * 2 ^ 32 + y.2.1) (live ++ held)

/-- Frame of the partition's share for staging (R483). -/
def State.stageAddr (s : State) (p frame : Nat) : Nat := frameAddr (s.stackShare p) frame

/-- Drop a page from the pages still to be read, or from the staged ones. -/
def Snap.took (x : Snap) (i k : Nat) : Snap :=
  { x with
    items := x.items.mapIdx fun j e => if j == i then { e with todo := e.todo.erase k } else e
    staged := x.staged.filter fun y => !(y.1 == i && y.2.1 == k) }

/-- Stream one page of a snapshot: every line is read, an error there stops the partition (R90), SNAP_WP is cleared, the data goes to its destination (R483, R484). -/
def State.streamPage (s : State) (p : Nat) (x : Snap) (i k : Nat) (frame : Option Nat) : State :=
  match x.items[i]? with
  | none => s
  | some e =>
    let idx := e.src / page2M + k
    let src := match frame with
      | some f => s.stageAddr p f
      | none => bits (s.entry p idx) 21 43 * page2M
    match s.frameDamage p (s.coppUnit p) idx src with
    | some s => s
    | none =>
    let data := s.phys src page2M
    let s := { s with snaps := AMap.put p { x.took i k with sent := x.sent + 1 } s.snaps }
    let s := if frame.isNone then s.unprotect p idx else s
    match s.snapWrite p x.sent (e.dst + e.area * x.alt + k * page2M) data with
    | (s, some st) => s.snapFail p st
    | (s, none) => s

/-- Stream the next page, with at most 16 pages outstanding (R484). -/
def State.snapStream (s : State) (p : Nat) : State :=
  match AMap.get? p s.snaps with
  | none => s
  | some x =>
    if 16 ≤ ((s.snapOut p).filter fun n => n != 0xFFFFFFFF).length then s
    else match x.nextPage with
      | some (i, k, f) => s.streamPage p x i k f
      | none => s

/-- The page-map indices of partition p that writes wait for: held ones, then updates at reducers, then peers' requests (R236, R483). -/
def State.waitingPages (s : State) (p : Nat) : List Nat :=
  (s.heldWrites.filterMap fun h => if h.part == p then some h.idx else none) ++
  (s.reducers.filterMap fun u => if u.part == p then some u.place.2 else none) ++
  s.canopy.loop.flatMap fun k => match s.accepts k with
    | some (_, q) => if k.kind == 2 && q == p then ((pieces (pktOff k) k.data.length).map fun x => x.1 / page2M).eraseDups else []
    | none => []

/-- The page that a write waits for: the snapshot's item and page of the oldest held write to a protected page (R483). -/
def State.touched (s : State) (p : Nat) (x : Snap) : Option (Nat × Nat) :=
  (s.waitingPages p).findSome? fun h =>
    if !bit (s.entry p h) 4 then none
    else (x.items.mapIdx fun i e => (i, e)).findSome? fun y =>
      if y.2.src / page2M ≤ h && h < y.2.src / page2M + y.2.pages && y.2.todo.contains (h - y.2.src / page2M)
      then some (y.1, h - y.2.src / page2M) else none

/-- A touch copy completes (R483): to a free staging frame, or to its destination ahead of every other page. -/
def State.touchCopy (s : State) (p : Nat) : State :=
  match AMap.get? p s.snaps with
  | none => s
  | some x =>
    match s.touched p x with
    | none => s
    | some (i, k) =>
      let pg := Pg.part p
      let s := s.incF pg F.MEMP_TOUCHES
      let first := s.f pg F.MEMP_FIRST
      let frames := (rangeFrom first (s.f pg F.MEMP_COUNT)).filter fun f =>
        f < shareFrames (s.stackShare p) && !(x.staged.any fun y => y.2.2 == f)
      match frames, x.items[i]? with
      | f :: _, some e =>
        let idx := e.src / page2M + k
        let src := bits (s.entry p idx) 21 43 * page2M
        match s.frameDamage p (s.coppUnit p) idx src with
        | some s => s
        | none =>
          let s := s.copyFrame src (s.stageAddr p f)
          let x := x.took i k
          ({ s with snaps := AMap.put p { x with staged := x.staged ++ [(i, k, f)] } s.snaps }).unprotect p idx
      | _, _ => s.streamPage p x i k none

/-- Every destination write of a snapshot has been accepted (R485). -/
def State.snapDone (s : State) (p : Nat) (x : Snap) : Bool :=
  x.nextPage.isNone && (s.snapOut p).isEmpty &&
  !(s.heldWrites.any fun h => h.part == p && h.who == .unit (s.coppUnit p))

/-- A snapshot completes (R485). -/
def State.snapComplete (s : State) (p : Nat) (x : Snap) : State :=
  let bases := (x.items.mapIdx fun i e => (i, e)).filter fun y => x.kind == 0 && y.2.used == 1
  let r := bases.foldl (fun (r : State × Option AccFault) y =>
    match r.2 with
    | some _ => r
    | none =>
      let a := x.list + 64 + 32 * y.1
      let w := r.1.storeRec p (s.coppUnit p) none (a + 0x18) (toBytes 4 x.step)
      match w.2 with
      | some _ => w
      | none => w.1.storeRec p (s.coppUnit p) none (a + 0x14) [BitVec.ofNat 8 (y.2.method + y.2.area * 4)]) (s, none)
  match r.2 with
  | some _ => r.1.snapFail p 0x02
  | none =>
    match r.1.snapWrite p 0xFFFFFFFF x.record (r.1.snapHeader p x true) with
    | (s, some st) => s.snapFail p st
    | (s, none) => (s.snapClear p).snapReport p 0 x.kind (some x)

/-- Contexts that a snapshot writes to. -/
def Snap.contexts (x : Snap) : List Nat :=
  ((x.record :: x.items.map fun i => i.dst).filter fun a => bits a 60 4 == 3).map fun a => bits a 40 12

/-- Snapshots with a destination context DOWN end (R486). -/
def State.snapSweep (s : State) : State :=
  s.snaps.foldl (fun s x => if x.2.contexts.any fun c => bit (s.ctx c) 4 then s.snapFail x.1 0x01 else s) s

/-! ### Replay (R491 to R494) -/

def State.showReplay (s : State) (p : Nat) (busy : Bool) : State := s.setF (s.leadPage p) F.CAMBL_BUSY (b2n busy)

/-- Start a replay of a list (R492). -/
def State.replayStart (s : State) (p list : Nat) (fill : Bool) : State :=
  let pg := s.leadPage p
  let s := (s.setF pg F.CAMBL_ITEMS_DONE 0).setF pg F.CAMBL_STATUS 0
  let put (s : State) (x : Replay) : State := ({ s with replays := AMap.put p x s.replays }).showReplay p true
  if (s.part p).overlay != .service || (s.camb p).upd.isSome then
    put s { list := list, count := 0, ctr := 0, en := false, stopped := some 0x09, fill := fill }
  else match s.load p none list 32 with
    | .error e => put (s.faultRecord p (0x300 + s.lead p) e.2 e.1)
        { list := list, count := 0, ctr := 0, en := false, stopped := some 0x02, fill := fill }
    | .ok h => put s { list := list, count := fieldAt h 0 4, ctr := bits (fieldAt h 4 4) 0 13, en := bit (fieldAt h 4 4) 13, fill := fill }

/-- A replay stops (R493). -/
def State.replayStop (s : State) (p status : Nat) : State :=
  match AMap.get? p s.replays with
  | some x => { s with replays := AMap.put p { x with stopped := some status } s.replays }
  | none => s

/-- Reapply block b of a record whose bits start at address `bitsAt` (R493); a fault is returned. -/
def State.replayBlock (s : State) (p : Nat) (h : List Byte) (dw : TDesc) (dc : Option TDesc) (bitsAt b : Nat) :
    State × Option (AccFault × Nat) :=
  let unit := s.lead p + b % s.unitsPer
  let w : Acc := { part := p, core := none, who := .unit (0x300 + unit) }
  let i0 := 64 * b
  match s.firstFault w ((bitsAt + 8 * b, 8) :: dw.blockRanges i0 (i0 + 64) 0 1 0 0) false with
  | some f => (s, some f)
  | none =>
    let jb := s.rd w (bitsAt + 8 * b) 8
    let idx := rangeFrom i0 64
    let words := (List.range 64).map fun j => randWord (fieldAt h 8 8) (i0 + j) (updC2 0 (fieldAt h 6 2)) (fieldAt h 0 4)
    let dirs := (List.range 64).map fun j => bit jb j
    let e : UpdEntry := { w := dw, m := {}, c := none, alt := 0, journal := 0, eta := fieldAt h 0x10 4, decay := fieldAt h 0x14 4
                          layer := 0, pingPong := false, elems := fieldAt h 0x18 4, current := false }
    let nw := if dw.fmt == 0x0A then
        int16Step e words (s.rd w (dw.scaleAddr i0 0 0 0) 1) (idx.map fun i => sx 16 (s.elemCode w dw i 0 0 0)) dirs s.opens
      else fp32Step e words (idx.map fun i => s.elemCode w dw i 0 0 0) dirs
    let cw := dc.map fun d => (d, packBlock d nw.values (fun _ => .near) (Config.open (s.opens + 65)))
    let s := { s with opens := s.opens + 66 }.countWeights unit nw
    let r := s.writeShard w dw i0 nw.codes nw.scale
    match r.2, cw with
    | none, some c => r.1.writeShard w c.1 i0 c.2.1 c.2.2
    | _, _ => r

/-- Run the next item of a replay (R493). Outside SERVICE, or with an update armed, it stops with REPLAY_OVERLAY (R8, R492, R502). -/
def State.replayItem (s : State) (p : Nat) : State :=
  match AMap.get? p s.replays with
  | none => s
  | some x =>
    if x.stopped.isSome || x.count ≤ x.next then s
    else
      let unit := 0x300 + s.lead p
      let w : Acc := { part := p, core := none, who := .unit unit }
      let fail (s : State) (e : PlanErr) : State :=
        match e.fault with
        | some f => (s.faultRecord p unit f.2 f.1).replayStop p 0x02
        | none => s.replayStop p 0x03
      let done (s : State) : State :=
        ({ s with replays := AMap.put p { x with next := x.next + 1 } s.replays }).incF (s.leadPage p) F.CAMBL_ITEMS_DONE
      let head : Except PlanErr (List Byte × List Byte) := do
        let it ← s.readBlock w (x.list + 32 + 32 * x.next) 32 1
        let h ← s.readBlock w (fieldAt it 0 8) 64 64
        pure (it, h)
      let descs (it : List Byte) : Except PlanErr (TDesc × Option TDesc) := do
        let dw ← s.readDesc w (fieldAt it 8 8)
        let c := fieldAt it 0x10 8
        let dc ← if c == 0 then pure none else (s.readDesc w c).map some
        pure (dw, dc)
      if (s.part p).overlay != .service || (s.camb p).upd.isSome then s.replayStop p 0x09
      else match head with
      | .error e => fail s e
      | .ok (it, h) =>
        if fieldAt h 0 4 != fieldAt it 0x18 4 || fieldAt h 6 2 != fieldAt it 0x1C 2 then s.replayStop p 0x08
        else if bit (fieldAt h 4 4) 8 && fieldAt h 4 1 != 0 then done s
        else match descs it with
        | .error e => fail s e
        | .ok (dw, dc) =>
          let n := fieldAt h 0x18 4
          let descOk := weightForm dw && dw.shard n && (dw.fmt == 0x08) == bit (fieldAt h 4 4) 9 && s.shardInFrames p dw &&
            (match dc with
             | some d => copyForm d && d.shard n && s.shardInFrames p d
             | none => true)
          if !descOk then s.replayStop p 0x03
          else
            let r := (List.range (n / 64)).foldl (fun (r : State × Option (AccFault × Nat)) b =>
              match r.2 with
              | some _ => r
              | none => r.1.replayBlock p h dw dc (fieldAt it 0 8 + 64) b) (s, none)
            match r.2 with
            | some f => (r.1.faultRecord p unit f.2 f.1).replayStop p 0x02
            | none => done r.1

/-- A replay is over with a status: it shows, and 1 is added to DONE_CTR (R494). -/
def State.replayTell (s : State) (p : Nat) (x : Replay) (status : Nat) : State :=
  let s := ({ s with replays := AMap.del p s.replays }.showReplay p false).setF (s.leadPage p) F.CAMBL_STATUS status
  if x.en && x.ctr < s.ctrsPer then s.opAdd (s.devCtr p x.ctr) 1 else s

/-- A replay of partition p, if there is one, is cut off (R494). -/
def State.replayCut (s : State) (p status : Nat) : State :=
  match AMap.get? p s.replays with
  | some x => s.replayTell p x status
  | none => s

/-! ### Fills (R496 to R499) -/

def State.fillState (s : State) (p : Nat) : Nat := s.f (Pg.part p) F.MEMP_STATE
def State.setFillState (s : State) (p st : Nat) : State := s.setF (Pg.part p) F.MEMP_STATE st

/-- Add to MEM_FILL_CTRL.DONE_CTR. -/
def State.fillTell (s : State) (p : Nat) : State :=
  let c := s.f (Pg.part p) F.MEMP_DONE_CTR_0B4
  if s.f (Pg.part p) F.MEMP_DONE_EN_0B4 == 1 && c < s.ctrsPer then s.opAdd (s.devCtr p c) 1 else s

/-- A fill issues no more reads, drops what it asked for, and cuts off its replay. -/
def State.fillQuiet (s : State) (p status : Nat) : State :=
  let s := { s with canopy := { s.canopy with reqs := s.canopy.reqs.map fun (r : RemoteReq) =>
    match r.who with
    | .fillRecord q _ => if q == p then { r with who := .unit 0xFFFF } else r
    | .fillData q _ _ => if q == p then { r with who := .unit 0xFFFF } else r
    | _ => r } }
  if s.fillState p == 3 then s.replayCut p status else s

/-- Halt a fill with a status (R497). -/
def State.fillHalt (s : State) (p status : Nat) : State :=
  (((s.fillQuiet p status).setFillState p 6).setF (Pg.part p) F.MEMP_STATUS status).fillTell p

/-- The bytes of the record from an offset, as far as they have come. -/
def Fill.bytes (x : Fill) : List Byte := x.record.flatMap fun r => r.2

/-- Length of the record by its header. -/
def recordSize (h : List Byte) : Nat := 0x80 + 32 * fieldAt h 0x0C 4 + fieldAt h 0x2C 4

/-- Ask for bytes of the record through its context; a context that is not the partition's loses the source. -/
def State.askRecord (s : State) (p : Nat) (x : Fill) (l : List (Nat × Nat)) : State :=
  let a := fieldAt x.desc 0 8
  let c := bits a 40 12
  if s.ctxPart c != some p then { s with fills := AMap.put p { x with lost := some 0x05 } s.fills }
  else l.foldl (fun s r => s.remoteRead p c (bits a 0 40 + r.1) r.2 (.fillRecord p r.1)) s

/-- START (R496). -/
def State.fillStart (s : State) (p : Nat) : State :=
  let pg := Pg.part p
  let a := s.f2 pg F.MEMP_DESC_LO F.MEMP_DESC_HI / 64 * 64
  let s := (s.setF pg F.MEMP_STATUS 0).setF pg F.MEMP_PAGES 0
  let s := (s.setF pg F.MEMP_OTHER_LOST 0).setFillState p 1
  let bad (s : State) (st : Nat) : State := s.fillHalt p st
  match s.load p none a 64 with
  | .error e => bad (s.faultRecord p (s.coppUnit p) e.2 e.1) 0x02
  | .ok h =>
    let n := fieldAt h 8 2
    match s.load p none (a + 64) (8 * n) with
    | .error e => bad (s.faultRecord p (s.coppUnit p) e.2 e.1) 0x02
    | .ok m =>
      let x : Fill := { desc := h ++ m }
      if n == 0 || 4096 < n || bits (fieldAt h 0 8) 60 4 != 3 then bad { s with fills := AMap.put p x s.fills } 0x03
      else { s with fills := AMap.put p x s.fills }.askRecord p x [(0, 0x80)]

/-- A piece of the record comes (R496); after the header the rest is asked for. -/
def State.fillRecordCame (s : State) (p off : Nat) (b : List Byte) : State :=
  match AMap.get? p s.fills with
  | none => s
  | some x =>
    let x := { x with record := AMap.put off b x.record }
    if off == 0 && !x.asked then
      let n := recordSize b - 0x80
      let x := { x with asked := true }
      { s with fills := AMap.put p x s.fills }.askRecord p x
        ((List.range (ceilDiv n 4096)).map fun i => (0x80 + 4096 * i, min 4096 (n - 4096 * i)))
    else { s with fills := AMap.put p x s.fills }

/-- The items of a membership image: type, index, payload. -/
def imageItems : Nat → List Byte → List (Nat × Nat × Nat)
  | 0, _ => []
  | n + 1, b =>
    let t := fieldAt b 0 1
    let size := if t == 0 then 16 else if t == 1 then 64 else 8
    (t, fieldAt b 2 2, fieldAt b 8 size) :: imageItems n (b.drop (8 + size))

/-- Items of the record: SRC, DST, PAGES. -/
def Fill.items (x : Fill) : List (Nat × Nat × Nat) :=
  let b := x.bytes
  (List.range (fieldAt b 0x0C 4)).map fun i =>
    (fieldAt b (0x80 + 32 * i) 8, fieldAt b (0x88 + 32 * i) 8, fieldAt b (0x90 + 32 * i) 4)

/-- The image of the record. -/
def Fill.image (x : Fill) : List (Nat × Nat × Nat) :=
  let b := x.bytes
  imageItems (fieldAt b 0x28 4) (b.drop (0x80 + 32 * fieldAt b 0x0C 4))

/-- The spare's context for a context of the failed member. -/
def Fill.mapCtx (x : Fill) (c : Nat) : Option Nat :=
  (List.range (fieldAt x.desc 8 2)).findSome? fun j =>
    let m := fieldAt x.desc (0x40 + 8 * j) 8
    if bits m 0 12 == c then some (bits m 16 12) else none

/-- The whole record has come. -/
def Fill.complete (x : Fill) : Bool := x.asked && x.bytes.length == recordSize x.bytes

/-- The conditions of CHECK (R497). -/
def Fill.passes (x : Fill) : Bool :=
  let b := x.bytes
  let w := fieldAt b 4 4
  let step := fieldAt x.desc 0x0C 4
  let epoch := fieldAt x.desc 0x0A 2
  bit w 2 && bits w 0 2 ≤ 1 && (step == 0xFFFFFFFF || fieldAt b 8 4 == step) &&
  x.items.all (fun i => bits i.2.1 60 4 != 3 || (x.mapCtx (bits i.2.1 40 12)).isSome) &&
  x.image.all (fun i => i.1 != 1 || (let d := (epoch + 2 ^ 16 - Grp.epoch i.2.2) % 2 ^ 16; 1 ≤ d && d ≤ 32767))

/-- Source pages of a fill that have been asked for and not written. -/
def State.fillOut (s : State) (p : Nat) : List Nat :=
  (s.canopy.reqs.filterMap fun r => match r.who with
    | .fillData q n _ => if q == p then some n else none
    | _ => none).eraseDups

/-- MEM_FILL_PAGES counts the pages of a fill that have been copied: those read, without those that a read or a held write of is
outstanding (R497, R503). -/
def State.showFillPages (s : State) (p : Nat) : State :=
  match AMap.get? p s.fills with
  | none => s
  | some x =>
    let busy := (s.canopy.reqs.filterMap fun r => match r.who with
      | .fillData q _ dst => if q == p then some (dst / page2M) else none
      | _ => none) ++
      s.heldWrites.filterMap fun h => if h.part == p && h.who == .unit (s.coppUnit p) then some h.idx else none
    s.setF (Pg.part p) F.MEMP_PAGES (x.sent - busy.eraseDups.length)

/-- Write data of a fill at a SRC address (R497). -/
def State.fillPut (s : State) (p dst : Nat) (b : List Byte) : State :=
  match s.storeRec p (s.coppUnit p) none dst b with
  | (s, none) => s.showFillPages p
  | (s, some _) => s.fillHalt p 0x02

/-- Read the next page of COPY (R497): a REMOTE source through its mapped context, another through the spare's page map.
Outside SERVICE it waits (R8; log entry 210). -/
def State.fillPage (s : State) (p : Nat) : State :=
  match AMap.get? p s.fills with
  | none => s
  | some x =>
    if s.fillState p != 2 || (s.part p).overlay != .service || x.lost.isSome || 16 ≤ (s.fillOut p).length then s
    else match x.items[x.item]? with
      | none => s
      | some (src, dst, pages) =>
        if pages ≤ x.page then { s with fills := AMap.put p { x with item := x.item + 1, page := 0 } s.fills }
        else
          let x' := { x with page := x.page + 1, sent := x.sent + 1 }
          let at0 := src + x.page * page2M
          let from0 := dst + x.page * page2M
          let s := { s with fills := AMap.put p x' s.fills }
          if bits dst 60 4 == 3 then
            match x.mapCtx (bits dst 40 12) with
            | none => s.fillHalt p 0x06
            | some c =>
              if s.ctxPart c != some p then { s with fills := AMap.put p { x' with lost := some 0x05 } s.fills }
              else (List.range 512).foldl (fun s i =>
                s.remoteRead p c (bits from0 0 40 + 4096 * i) 4096 (.fillData p x.sent (at0 + 4096 * i))) s
          else match s.load p none from0 page2M with
            | .error e => (s.faultRecord p (s.coppUnit p) e.2 e.1).fillHalt p 0x02
            | .ok b => s.fillPut p at0 b

/-- Every page of COPY has been written and accepted. -/
def State.fillCopied (s : State) (p : Nat) (x : Fill) : Bool :=
  x.items.length ≤ x.item && (s.fillOut p).isEmpty &&
  !(s.heldWrites.any fun h => h.part == p && h.who == .unit (s.coppUnit p))

/-- INSTALL writes a group: its SEQ and SCALAR_SEQ are 0, also where the entry held the new EPOCH before (R499). -/
def State.installGroup (s : State) (g v : Nat) : State :=
  let s := s.writeGroup g v
  s.setGrp g (putBits (s.grp g) 128 64 0)

/-- INSTALL (R499): INSTALL_CONFLICT where another partition holds an index, else every item is written by its table command, which
refuses what R449 refuses (log entry 212). -/
def State.install (s : State) (p : Nat) (x : Fill) : State :=
  let im := x.image
  let held (t i : Nat) : Bool :=
    let e := if t == 0 then s.ctx i else s.grp i
    bit e 0 && bits e 1 3 != p
  if im.any fun i => i.1 ≤ 1 && held i.1 i.2.1 then s.fillHalt p 0x07
  else
    let epoch := fieldAt x.desc 0x0A 2
    let s := im.foldl (fun s i =>
      let put (t v : Nat) (g : State) : State := if s.tblCheck t i.2.1 v == 0 then g else s
      match i.1 with
      | 0 => let v := putBits i.2.2 1 3 p; put 2 v (s.writeCtx i.2.1 v)
      | 1 => let v := putBits (putBits i.2.2 1 3 p) 16 16 epoch; put 3 v (s.installGroup i.2.1 v)
      | 2 => put 4 (i.2.2 % 2 ^ 32) (s.writeMember i.2.1 (i.2.2 % 2 ^ 32))
      | 3 => put 0 i.2.2 (s.writeRoute false i.2.1 i.2.2)
      | 4 => put 1 i.2.2 (s.writeRoute true i.2.1 i.2.2)
      | _ => s) s
    let b := x.bytes
    let pg := s.leadPage p
    let s := (s.setF pg F.CAMBL_NORM_PREV (fieldAt b 0x20 4)).setF pg F.CAMBL_PREV_VALID (bits (fieldAt b 0x24 4) 0 1)
    (s.setFillState p 5).fillTell p

/-- A fill that has lost a source halts (R497). -/
def State.fillSweep (s : State) : State :=
  s.fills.foldl (fun s x =>
    match x.2.lost with
    | some st => if 1 ≤ s.fillState x.1 && s.fillState x.1 ≤ 2 then s.fillHalt x.1 st else s
    | none => s) s

/-- A fill is cleared by partition reset, FLR or teardown (R497). -/
def State.fillClear (s : State) (p : Nat) : State :=
  let s := s.fillQuiet p 0x04
  ({ s with fills := AMap.del p s.fills }.setFillState p 0).setF (Pg.part p) F.MEMP_STATUS 0

/-- A replay ends (R494): its status, its counter, and the fill that waits for it. -/
def State.replayEnd (s : State) (p : Nat) (x : Replay) : State :=
  let st := x.stopped.getD 0
  let s := s.replayTell p x st
  if x.fill && s.fillState p == 3 then (if st == 0 then s.setFillState p 4 else s.fillHalt p st) else s

end Sys2Proof.Machine
end

