-- ==== Sys2Proof/Machine/Copp.lean ====
section
/-! DEFINITION. Overlay switches and reshard plans: requests, the drain, the barrier, the moves and their ends (R349 to R363).
The actions at the mode boundary stand in Boundary. -/

namespace Sys2Proof.Machine

/-! ### Slot roles (R107) -/

/-- The slot of a partition under an overlay may post an opcode. -/
def slotRoleOk (v : Overlay) (slot opcode : Nat) : Bool :=
  if opcode == 0x12 then v != .train || slot == 3
  else if opcode == 0x18 then v != .generate || slot == 1
  else if 0x19 ≤ opcode && opcode ≤ 0x1B then v != .generate || slot == 3
  else true

/-- The part that an opcode's work goes to is idle in an overlay, and accepts none (R8): the table engine outside GENERATE, the cambium
outside TRAIN. -/
def partIdle (v : Overlay) (opcode : Nat) : Bool :=
  if opcode == 0x12 then v != .train else if 0x18 ≤ opcode then v != .generate else false

/-! ### Switch state (R351) -/

def State.sw (s : State) (p : Nat) : Switch := AMap.getD p {} s.switches
def State.setSw (s : State) (p : Nat) (x : Switch) : State := { s with switches := AMap.put p x s.switches }
def State.modSw (s : State) (p : Nat) (g : Switch → Switch) : State := s.setSw p (g (s.sw p))

/-- Page of the coppice that serves a partition's switch (R366). -/
def State.coppPage (s : State) (p : Nat) : Nat := Pg.copp (s.dieOf p)

/-- ENTRIES_DONE_p as a field of its page. -/
def fEntriesDone (p : Nat) : Fld := F.COPP_ENTRIES_DONE.sh (4 * p)

/-! ### Plans (R355, R356) -/

/-- Bytes of a plan's copy. -/
def ReshardPlan.size (x : ReshardPlan) : Nat := 64 + 32 * x.entries.length

/-- Plan space in use on a die. -/
def State.planSpace (s : State) (die : Nat) : Nat :=
  s.switches.foldl (fun n x => match x.2.plan with
    | some y => if s.dieOf x.1 == die then n + y.size else n
    | none => n) 0

/-- The plan at OPD0 of a RESHARD, read and checked (R356). -/
def State.readReshard (s : State) (w : Acc) (a : Nat) : Except PlanErr ReshardPlan := do
  let h ← s.readBlock w a 64 64
  let n := fieldAt h 4 4
  want (1 ≤ n && n ≤ 1048576)
  let b ← s.readBlock w ((a + 64) % 2 ^ 64) (32 * n) 64
  let es := (List.range n).map fun i =>
    (fieldAt b (32 * i) 8, fieldAt b (32 * i + 8) 8, fieldAt b (32 * i + 16) 4)
  want (fieldAt h 0 4 != 0 && fieldAt h 8 8 % 32 == 0 && (h.drop 0x14).all (fun x => x == 0))
  want (es.all fun e => bits e.1 60 4 == 0 && e.1 % 32 == 0 && destForm e.2.1 && e.2.2 != 0 && e.2.2 % 32 == 0 && e.2.2 ≤ 2 ^ 30)
  want ((List.range n).all fun i => fieldAt b (32 * i + 20) 12 == 0)
  let t := fieldAt h 0x12 2
  let t := if t == 0 then max 1 (s.f (s.coppPage w.part) F.COPP_TIMEOUT_MS) else t
  pure { id := fieldAt h 0 4, entries := es, expect := fieldAt h 8 8, group := fieldAt h 0x10 2, limit := 1000000 * t }

/-! ### Barrier and ends -/

/-- Enter BARRIER with the partition's plan (R351, R440). -/
def State.enterBarrier (s : State) (p : Nat) : State :=
  match (s.sw p).plan with
  | none => s
  | some x =>
    let s := s.modSw p fun y => { y with st := 2, plan := some { x with since := s.power.time } }
    (s.setF (s.coppPage p) (fEntriesDone p) 0).joinScalar p x.group 0 1

/-- Enter RISING: the cores come up in waves (R354). -/
def State.rise (s : State) (p : Nat) : State :=
  (s.modSw p fun x => { x with st := 4 }).beginWaves (some p) .modeSwitch

/-- The RESHARD of a partition ends with a status, its record's tile counts set (R369). -/
def State.endReshard (s : State) (p status : Nat) : State :=
  match (s.sw p).forme with
  | none => s
  | some i => (s.modSw p fun x => { x with forme := none }).finishForme i status

/-- Forget a plan's barrier and its requests that are not on the wire; those that are complete unseen. -/
def State.dropPlan (s : State) (p : Nat) : State :=
  let c := s.canopy
  { s with canopy := { c with
      colls := c.colls.filter fun x => !(x.scalar && x.purpose == 1 && x.part == p)
      reqs := c.reqs.filterMap fun (r : RemoteReq) =>
        match r.who with
        | .plan q _ => if q != p then some r else if r.sent then some { r with who := .unit 0xFFFF } else none
        | _ => some r } }

/-- Change a partition's plan. -/
def State.modPlan (s : State) (p : Nat) (g : ReshardPlan → ReshardPlan) : State :=
  s.modSw p fun x => { x with plan := x.plan.map g }

/-- All writes of an entry have been accepted. -/
def State.entryDone (s : State) (p : Nat) : State :=
  (s.modPlan p fun y => { y with done := y.done + 1 }).incF (s.coppPage p) (fEntriesDone p)

/-- An entry has local writes that wait for their page. -/
def State.moveHeld (s : State) (p i : Nat) : Bool := s.heldWrites.any fun h => h.part == p && h.who == .move i

/-- Entries whose local writes waited for their pages, where none does any more. -/
def State.settledMoves (s : State) (p : Nat) (y : ReshardPlan) : List Nat :=
  (y.out.filter fun o => o.2 == 0 && !s.moveHeld p o.1).map fun o => o.1

/-- These entries are done. -/
def State.movesDone (s : State) (p : Nat) : State :=
  match (s.sw p).plan with
  | none => s
  | some y => (s.settledMoves p y).foldl (fun s i => (s.modPlan p fun z => { z with out := AMap.del i z.out }).entryDone p) s

/-- A plan ends with a status (R358, R361, R367). -/
def State.endPlan (s : State) (p status : Nat) : State :=
  let s := s.movesDone p
  let x := s.sw p
  match x.plan with
  | none => s
  | some y =>
    let pg := s.coppPage p
    let s := s.dropPlan p
    let s := s.modSw p fun z => { z with plan := none, status := status }
    let s := match x.forme with
      | some i => s.modForme i fun f => { f with tilesTotal := y.entries.length, tilesDone := y.done }
      | none => s
    let s := s.incF pg F.COPP_PLANS
    let s := if status == 0 || s.f pg F.COPP_LAST_VALID == 1 then s
      else ((s.setF pg F.COPP_LAST_STATUS status).setF pg F.COPP_LAST_PARTITION p).raiseF pg F.COPP_LAST_VALID
    let s := if status == 0x42 then (s.incF pg F.COPP_TIMEOUTS).event pg Ev.COPP_PLAN_TIMEOUT
      else if status == 0 || status == 0x43 then s else s.event pg Ev.COPP_PLAN_FAULT
    if x.on then s.rise p
    else (s.modSw p fun z => { z with st := 0, status := 0 }).endReshard p status

/-- A source read or a local write of a plan faults (R361). -/
def State.planFault (s : State) (p addr : Nat) (f : AccFault) : State :=
  (s.faultRecord p (s.coppUnit p) addr f).endPlan p f.status

/-! ### Moves (R357) -/

/-- The die whose stack or bulk holds a source. -/
def State.sourceDie (s : State) (p src : Nat) : Nat :=
  match s.resolve p none src false with
  | .ok (.phys a _) =>
    if a < 0x300000000 then (if a < 0x180000000 then 0 else 1) else (if a < 0x14000000000 then 0 else 1)
  | _ => s.dieOf p

/-- The coppice of a die has written n bytes (R367). -/
def State.bytesOut (s : State) (die n : Nat) : State := s.incF2 (Pg.copp die) F.COPP_BYTES_OUT_LO F.COPP_BYTES_OUT_HI n

/-- Copy n lines of an entry within the partition, line after line; the first fault is returned with its address. -/
def State.copyLines (s : State) (p die entry src dst : Nat) : Nat → State × Option (AccFault × Nat)
  | 0 => (s, none)
  | n + 1 =>
    match s.load p none src 32 with
    | .error e => (s, some e)
    | .ok b => match s.store p none dst b (.move entry) with
      | (s, some e) => (s, some e)
      | (s, none) => (s.bytesOut die 32).copyLines p die entry (src + 32) (dst + 32) n

/-- Send n pieces of at most 4 KiB of an entry to a peer. -/
def State.sendPieces (s : State) (p die entry ctx src off len plan : Nat) : Nat → State × Option (AccFault × Nat)
  | 0 => (s, none)
  | n + 1 =>
    match s.load p none src (min 4096 len) with
    | .error e => (s, some e)
    | .ok b => ((s.remoteWrite p ctx off b (.plan p entry) plan 4).bytesOut die b.length).sendPieces p die entry ctx (src + 4096)
        (off + 4096) (len - 4096) plan n

/-- Execute entry i of a plan. It stays outstanding while peers have yet to answer its writes, or local ones wait for their page. -/
def State.moveEntry (s : State) (p die i : Nat) (x : ReshardPlan) (e : Nat × Nat × Nat) : State :=
  if bits e.2.1 60 4 == 3 then
    let c := bits e.2.1 40 12
    if s.ctxPart c != some p then s.planFault p e.2.1 .region
    else
      let n := ceilDiv e.2.2 4096
      let s := s.modPlan p fun z => { z with out := AMap.put i n z.out }
      match s.sendPieces p die i c e.1 (bits e.2.1 0 40) e.2.2 x.id n with
      | (s, some f) => s.planFault p f.2 f.1
      | (s, none) => s
  else
    match s.copyLines p die i e.1 e.2.1 (e.2.2 / 32) with
    | (s, some f) => s.planFault p f.2 f.1
    | (s, none) => if s.moveHeld p i then s.modPlan p fun z => { z with out := AMap.put i 0 z.out } else s.entryDone p

/-- The coppice of a die issues entries in ascending order, with at most 16 outstanding (R357). -/
def State.pumpDie (s : State) (p die : Nat) : Nat → State
  | 0 => s
  | fuel + 1 =>
    let x := s.sw p
    match x.plan with
    | none => s
    | some y =>
      let i := AMap.getD die 0 y.next
      let busy := (y.out.filter fun o => s.sourceDie p (y.entries.getD o.1 (0, 0, 0)).1 == die).length
      if x.st != 3 || 16 ≤ busy then s
      else match y.entries[i]? with
        | none => s
        | some e =>
          let s := s.modPlan p fun v => { v with next := AMap.put die (i + 1) v.next }
          if s.sourceDie p e.1 == die then (s.moveEntry p die i y e).pumpDie p die fuel else s.pumpDie p die fuel

/-- Both coppices go on with a partition's plan. -/
def State.planPump (s : State) (p : Nat) : State :=
  let s := s.movesDone p
  match (s.sw p).plan with
  | none => s
  | some y =>
    let n := y.entries.length + 1
    if s.k == 1 then (s.pumpDie p 0 n).pumpDie p 1 n else s.pumpDie p (s.dieOf p) n

/-- A peer answers a write of entry i: accepted, refused as stray, or lost with its context (R358, R361). -/
def State.planAck (s : State) (p i : Nat) (status : Option Nat) : State :=
  match (s.sw p).plan, status with
  | some y, some 0 =>
    let left := AMap.getD i 0 y.out - 1
    let s := s.modSw p fun x => { x with plan := some { y with out := if left == 0 then AMap.del i y.out else AMap.put i left y.out } }
    (if left == 0 then s.entryDone p else s).planPump p
  | some y, none => s.planFault p (y.entries.getD i (0, 0, 0)).2.1 .region
  | some _, some _ => s.endPlan p 0x43
  | none, _ => s

/-- The writer code of peers whose writes a page holds back (log entry 30). -/
def peerUnit : Nat := 0xFFFE

/-- Completion (R358). -/
def State.planDone (s : State) (p : Nat) : Bool :=
  let x := s.sw p
  match x.plan with
  | some y =>
    x.st == 3 && y.done + (s.settledMoves p y).length == y.entries.length && y.received == y.expect &&
    !(s.heldWrites.any fun h => h.part == p && h.who == .unit peerUnit)
  | none => false

/-! ### Received writes (R358, R360) -/

/-- A stray write is dropped. -/
def State.stray (s : State) (p : Nat) : State :=
  (s.satF (s.coppPage p) F.COPP_STRAY).event (s.coppPage p) Ev.COPP_STRAY_WRITE

/-- Partition p takes n bytes of plan `id`. -/
def State.planTakes (s : State) (p id n : Nat) : Bool :=
  (s.sw p).st == 3 && match (s.sw p).plan with
    | some y => y.id == id && y.received + n ≤ y.expect
    | none => false

/-- Count bytes of the plan that have been accepted. -/
def State.planGot (s : State) (p n : Nat) : State :=
  (s.modPlan p fun y => { y with received := y.received + n }).incF2
    (s.coppPage p) F.COPP_BYTES_IN_LO F.COPP_BYTES_IN_HI n

/-! ### Requests (R349 to R352) -/

/-- A switch that would leave TRAIN while an update is armed (R351). -/
def State.leavesArmed (s : State) (p : Nat) (target : Overlay) : Bool :=
  (s.part p).overlay == .train && target != .train && (s.camb p).upd.isSome

/-- The drain of R352 is complete. -/
def State.drained (s : State) (p : Nat) : Bool :=
  let x := s.sw p
  x.st == 1 &&
  s.formes.all (fun f => f.2.part != p || x.forme == some f.1 || (f.2.st != .planning && f.2.st != .running)) &&
  s.threads.all (fun t => s.corePart (t.1 / 64) != p || t.2.epi.isNone) &&
  s.cores.all (fun c => s.corePart c.1 != p || c.2.starts.all fun q => q.2.all fun r => r.epi.isNone) &&
  (s.kv p).queue.isEmpty && (s.kv p).copies.isEmpty

/-- A request that the state machine accepts (R351). -/
def State.beginSwitch (s : State) (p : Nat) (on : Bool) (target : Overlay) (forme : Option Nat) (plan : Option ReshardPlan) : State :=
  let s := s.setSw p { st := 1, on := on, target := target, forme := forme, plan := plan }
  if on then s else s.enterBarrier p

/-- TARGET codes. -/
def overlayOf (c : Nat) : Option Overlay :=
  if c == 0 then some .train else if c == 1 then some .generate else if c == 2 then some .service else none

/-- Checks 5 of a RESHARD and its request (R350, R351, R356): the plan, or the status it ends with. -/
def State.planReshard (s : State) (w : Acc) (x : Forme) : Except PlanErr (Bool × Overlay × Option ReshardPlan) := do
  let v := x.variant
  let on := bit v 0
  let target := overlayOf (bits v 1 2)
  want (target.isSome && (on || x.opd 0 != 0))
  let plan ← if x.opd 0 == 0 then pure none else (s.readReshard w (x.opd 0)).map some
  let die := if s.k == 1 then 0 else s.dieOf x.part
  let room := match plan with
    | some y => s.planSpace die + y.size ≤ 2 ^ 25
    | none => true
  if !room || (s.sw x.part).st != 0 then throw { status := 0x41 }
  if on && s.leavesArmed x.part (target.getD .service) then throw { status := 0x40 }
  pure (on, target.getD .service, plan)

/-- A write of COPP_MODE_p.REQ (R351, R366). -/
def State.requestMode (s : State) (p target : Nat) : State :=
  match overlayOf target with
  | none => s
  | some v =>
    if (s.sw p).st != 0 || s.leavesArmed p v then s.event (s.coppPage p) Ev.COPP_SWITCH_REFUSED
    else s.beginSwitch p true v none none

/-- RISING ends with wave 7 (R351, R363): formes before PLANNING are checked against their slots' new roles, SWITCH_DONE, and the
RESHARD ends. -/
def State.endSwitch (s : State) (p : Nat) : State :=
  let x := s.sw p
  if x.st != 4 then s
  else
    let s := (s.modSw p fun y => { y with st := 0, status := 0 })
    let bad := s.formes.filter fun f => f.2.part == p && (f.2.st == .waiting || f.2.st == .claimHeld) && x.forme != some f.1 &&
      !slotRoleOk (s.part p).overlay f.2.slot f.2.opcode
    let s := bad.foldl (fun s f => s.finishForme f.1 0x02) s
    let s := (s.incF (s.coppPage p) F.COPP_SWITCHES).event (s.coppPage p) Ev.COPP_SWITCH_DONE
    match x.forme with
    | none => s
    | some i => (s.modSw p fun y => { y with forme := none }).finishForme i x.status

end Sys2Proof.Machine
end

