-- ==== Sys2Proof/Machine/Stop.lean ====
section
/-! DEFINITION. Abandoning the work of a partition: containment stops, partition and function-level resets, creation and teardown
(R36 to R38, R83, R91, R146, R294, R401, R470, R486, R497). -/

namespace Sys2Proof.Machine

/-! ### Host entries (R463, R470) -/

/-- The partition that a submission entry on function f's queues is for (R463). -/
def entryPart (f : Nat) (b : List Byte) : Nat := if f == 0 then bits (fieldAt b 0 4) 16 3 else f - 1

/-- The reference to a submission entry, made when it is fetched: the completion queue is the one named then (R463, R468). -/
def State.entryRef (s : State) (f q n : Nat) (b : List Byte) : HostRef :=
  let w := fieldAt b 0 4
  { fn := f, sq := q, count := n, kind := bits w 0 4, tag := fieldAt b 0x10 8, cqe := bit w 6, part := entryPart f b
    cq := s.f (Pg.host f 1) (F.HOST1_CQ.sh (16 * q)) }

/-- Entries of partition p that have been fetched and have not ended, with the DETAIL of R467: those that threads, start requests, formes
and waits answer for, and those not handed on (R470). Their order of ending is the model's (log entry 33). -/
def State.entriesOf (s : State) (p : Nat) : List (HostRef × Nat) :=
  let l : List (HostRef × Nat) :=
    (s.threads.filterMap fun t => t.2.host.map fun r => (r, t.1 % 64)) ++
    (s.cores.flatMap fun c => c.2.starts.flatMap fun q => q.2.filterMap fun r => r.host.map fun r => (r, 0)) ++
    (s.formes.filterMap fun f => f.2.host.map fun r => (r, f.2.detail)) ++
    s.fns.flatMap fun f => f.2.sq.flatMap fun q =>
      (match q.2.wait with
       | some w => [(w.1, 0)]
       | none => []) ++ q.2.fetched.map fun e => (e.1, 0)
  l.filter fun r => r.1.part == p

/-- The entries of a partition end with PART_ENDED; on a reset those of its own function end without a completion entry
(R470). -/
def State.endEntries (s : State) (p : Nat) (reset : Bool) : State :=
  let l := s.entriesOf p
  let s := { s with fns := s.fns.map fun f => (f.1, { f.2 with
    sq := f.2.sq.map fun q => (q.1, { q.2 with
      wait := (match q.2.wait with
        | some w => if w.1.part == p then none else some w
        | none => none)
      fetched := q.2.fetched.filter fun e => e.1.part != p }) }) }
  l.foldl (fun s r => if reset && r.1.fn == p + 1 then s.dropEntry r.1 else s.endEntry r.1 0x63 r.2) s

/-! ### Abandoning (R91, R105, R146) -/

/-- Whether a held write of a partition stays when the partition stops: a host write through BAR2 or a peer's (R91). -/
def HeldWrite.outside (h : HeldWrite) : Bool :=
  match h.who with
  | .unit u => u == peerUnit || (0x340 ≤ u && u < 0x349)
  | _ => false

/-- Threads, start requests, formes, tiles, slot queues and refused posts of a partition are dropped (R105, R146). -/
def State.dropFormes (s : State) (p : Nat) : State :=
  let mine (c : Nat) : Bool := s.corePart c == p
  { s with
    threads := s.threads.filter fun t => !mine (t.1 / 64)
    tiles := s.tiles.filter fun t => !mine t.core
    formes := s.formes.filter fun f => f.2.part != p
    cores := s.cores.map fun c => if mine c.1 then (c.1, { c.2 with starts := [], queue := [] }) else c
    refused := s.refused.map fun r => (r.1, r.2.filter fun t => !mine t.core)
    heldWrites := s.heldWrites.filter fun h => h.part != p || h.outside }

/-- Collectives, requests and gradient blocks of a partition are dropped: requests on the wire complete unseen. -/
def State.dropFabric (s : State) (p : Nat) : State :=
  let c := s.canopy
  { s with
    stream := s.stream.filter fun b => b.part != p
    canopy := { c with
      colls := c.colls.filter fun x => x.part != p
      reqs := c.reqs.filterMap fun (r : RemoteReq) =>
        if r.part != p then some r else if r.sent then some { r with who := .unit 0xFFFF } else none } }

/-- The switch of a partition is abandoned (R351): IDLE; cores that no wave will bring up are held no longer. -/
def State.dropSwitch (s : State) (p : Nat) : State :=
  let s := (s.dropPlan p).setSw p {}
  let sets := s.power.waves.filter fun w => w.owner == some p || w.owner == none
  if sets.any fun w => w.kind == .modeSwitch then s
  else { s with
    cores := s.cores.map fun c =>
      if s.corePart c.1 == p && c.2.heldSwitch then
        (c.1, { c.2 with held := sets.any (fun w => w.next ≤ c.1 % 8), heldSwitch := false })
      else c }

/-- Intake jobs of a partition are abandoned (R401). -/
def State.dropJobs (s : State) (p : Nat) : State :=
  (s.intk p).jobs.foldl (fun s x => s.dropJob p x.num) s

/-- A READ of the table window, which does not end when its partition stops (R301). -/
def KvItem.isPeek : KvItem → Bool
  | .peek _ _ => true
  | _ => false

/-- What a stop, a reset and a teardown abandon alike (R91, R146, R294, R401, R470, R486). -/
def State.abandon (s : State) (p : Nat) (reset : Bool) : State :=
  let s := (sortBy (fun u v => u.j ≤ v.j) (s.reducers.filter fun u => u.part == p)).foldl (fun s u => s.performUpdate u) s
  let s := { s with reducers := s.reducers.filter fun u => u.part != p }
  let s := (s.endEntries p reset).dropFormes p
  let s := ((s.disarm p).dropFabric p).dropJobs p
  let s := s.modKv p fun k => { k with queue := k.queue.filter KvItem.isPeek, served := 0, advWaits := false, copies := [] }
  ((s.dropSwitch p).snapClear p).replayCut p 4

/-- A fill of a partition that is not IDLE, HALTED or DONE halts with ABANDONED (R497). -/
def State.fillStop (s : State) (p : Nat) : State :=
  let st := s.fillState p
  if 1 ≤ st && st ≤ 4 then s.fillHalt p 0x04 else s

/-- The job of a partition stops (R91). -/
def State.stopJob (s : State) (p : Nat) : State := (s.abandon p false).fillStop p

/-- An ACTIVE partition enters STOPPED (R83, R91); a partition in another state stays as it is. -/
def State.stopPartition (s : State) (p : Nat) : State :=
  if s.k ≤ p || (s.part p).st != .active then s
  else
    ((s.stopJob p).modPart p fun x => { x with st := .stopped }).event (Pg.part p) Ev.MEMP_PART_STOPPED

/-- Partitions that a failed host read stops do so (R90, R455). -/
def State.hostSweep (s : State) : State :=
  let l := s.hostStops
  l.foldl (fun s p => s.stopPartition p) { s with hostStops := [] }

/-! ### Clearing (R37) -/

/-- Registers of pages return to their reset values. -/
def State.resetPages (s : State) (pgs : List Nat) : State :=
  { s with
    regs := s.regs.filter fun r => !pgs.contains (r.1 / 4096)
    shadow := s.shadow.filter fun r => !pgs.contains (r.1 / 4096)
    applyPassed := s.applyPassed.filter fun r => !pgs.contains r.1 }

/-- The pages of a partition that a reset of it returns to their reset values (R37). -/
def State.pagesOf (s : State) (p : Nat) : List Nat :=
  (s.coresOf p).map Pg.core ++ (rangeFrom (32 / s.k * p) (32 / s.k)).map Pg.sync ++ [Pg.kv p] ++
  (s.unitsOf p).map Pg.camb ++ (List.range 4).map (Pg.host (p + 1))

/-- The galleys of a partition's cores are zeroed. -/
def State.zeroGalleys (s : State) (p : Nat) : State :=
  (s.coresOf p).foldl (fun s c => s.wipe (galleyKey c 0) (2 ^ 20)) s

/-- The stack share of a partition is zeroed. -/
def State.zeroStack (s : State) (p : Nat) : State := (s.stackShare p).foldl (fun s r => s.wipe r.1 r.2) s

/-- What zeroing a partition's memory overwrites holds no error any more: its stack share, its galleys, its page map (R83, R90). -/
def State.errorsZeroed (s : State) (p : Nat) : State := (((s.zeroStack p).zeroGalleys p).mapWritten p 0 (2 ^ 19))

/-- Held plans of a partition are discarded (R177). -/
def State.dropPlans (s : State) (p : Nat) : State :=
  { s with heldPlans := s.heldPlans.map fun h => (h.1, h.2.filter fun x => x.part != p) }

/-- Writes that still wait for a page of the partition are performed: no page of it is being copied any more. -/
def State.freeWrites (s : State) (p : Nat) : State :=
  let idxs := ((s.heldWrites.filter fun h => h.part == p).map fun h => h.idx).eraseDups
  idxs.foldl (fun s i => s.releaseWrites p i) s

/-- Tables, arenas, intake state and galleys of a partition are cleared, its cores held until their waves start (R25, R37,
R401). -/
def State.clearPart (s : State) (p : Nat) : State :=
  let s := { s with kvs := AMap.del p s.kvs, cambs := AMap.del p s.cambs, intks := AMap.del p s.intks }
  let s := (s.freeWrites p).clearTables p
  let s := (((s.dropPlans p).zeroGalleys p).mapWritten p 0 (2 ^ 19)).fillClear p
  { s with
    cores := (s.coresOf p).foldl (fun m c => AMap.put c { held := true } m) s.cores
    switches := AMap.del p s.switches }

/-- The own queues of a partition's function return to their reset values (R470). -/
def State.clearQueues (s : State) (f : Nat) : State :=
  s.modFn f fun x => { x with sq := [], cq := [], heldCq := [], heldIrq := [] }

/-- The configuration of a virtual function that its FLR clears, by PCI Express (log entry 34). -/
def State.flrConfig (s : State) (p : Nat) : State :=
  s.modFn (p + 1) fun x => { x with bme := false, d3hot := false, fnMask := false, unmasked := [], pba := [] }

/-- The first part of a partition reset begins (R36): the partition's work is abandoned, and its cores execute nothing until their
waves. -/
def State.beginReset (s : State) (p : Nat) (flr : Bool) : State :=
  let x := s.part p
  if x.resetting then
    let s := s.modPart p fun x => { x with flrWaits := x.flrWaits || flr, asked := x.asked || !flr }
    if flr then s.flrConfig p else s
  else
    let s := { s with power := { s.power with waves := s.power.waves.filter fun w => w.owner != some p } }.abandon p true
    let s := (s.fillClear p).modPart p fun x => { x with resetting := true, quiescing := true, flrWaits := flr, asked := !flr }
    (s.coresOf p).foldl (fun s c => s.modCore c fun y => { y with held := true }) s

/-- A request of a partition reset or an FLR by the partition's state (R83): FLR of an absent one completes at once. -/
def State.requestReset (s : State) (p : Nat) (flr : Bool) : State :=
  let done : State := if flr then s.emit (.flrDone (p + 1)) else s
  if s.k ≤ p then done
  else match (s.part p).st with
    | .absent | .tearingDown => done
    | .creating =>
      let h : HeldReq := if flr then .flr else .partReset
      if (s.part p).held.contains h then s else s.modPart p fun x => { x with held := x.held ++ [h] }
    | .active | .stopped => s.beginReset p flr

/-- The partition is quiescent: what was asked of it since the reset began is abandoned too, its state is cleared, and wave 0 waits
for its grid point (R36 to R38). -/
def State.quiesced (s : State) (p : Nat) : State :=
  let s := ((s.abandon p true).clearPart p).resetPages (s.pagesOf p)
  let s := s.clearQueues (p + 1)
  let s := if (s.part p).flrWaits then s.flrConfig p else s
  (s.modPart p fun x =>
    { x with quiescing := false, st := .active, overlay := .service, lastStep := 0xFFFFFFFF }).beginWaves (some p) .partReset

/-- Creation (R83, R85): a key is drawn, memory zeroed, the map and the contexts cleared. A halted generator draws none, and the
partition stays in CREATING (R533). -/
def State.createPart (s : State) (p : Nat) : State :=
  let s := (s.clearPart p).zeroStack p
  let halted := s.f (Pg.sec 3) F.SEC3_HALTED == 1
  let s := s.setPart p
    { st := .creating, overlay := .service, keyGen := if halted then 0 else s.draws + 1, zeroing := true }
  let s := s.setF (Pg.part p) F.MEMP_MAPPED 0
  if halted then s
  else
    let fp := ofBytes (shake256 (toBytes 64 (Config.draw s.draws)) 8)
    let s := { s with draws := s.draws + 1 }
    (s.setF (Pg.part p) F.MEMP_FP_LO (fp % 2 ^ 32)).setF (Pg.part p) F.MEMP_FP_HI (fp / 2 ^ 32)

/-- Teardown (R83): the job stops; key, memory, map, contexts and tables go. -/
def State.tearDown (s : State) (p : Nat) : State :=
  let s := { s with power := { s.power with waves := s.power.waves.filter fun w => w.owner != some p } }
  let x := s.part p
  let s := (((s.abandon p false).clearPart p).zeroStack p)
  let s := (s.clearQueues (p + 1)).resetPages (s.pagesOf p)
  let s := if x.resetting && x.flrWaits then s.emit (.flrDone (p + 1)) else s
  (s.setPart p { st := .tearingDown, overlay := .service, zeroing := true }).setF (Pg.part p) F.MEMP_MAPPED 0

/-- A held request of a partition whose creation has completed (R83). -/
def State.takeHeld (s : State) (p : Nat) : State :=
  let h := (s.part p).held
  let s := s.modPart p fun x => { x with held := [] }
  h.foldl (fun s r => match r with
    | .teardown => if s.active p || (s.part p).st == .stopped then s.tearDown p else s
    | .partReset => s.requestReset p false
    | .flr => s.requestReset p true) s

end Sys2Proof.Machine
end

