-- ==== Sys2Proof/Machine/Boundary.lean ====
section
/-! DEFINITION. Boundaries: applications of buffered pages at the step, batch, forme and mode boundaries, the watch's evaluation,
the commit of an update, and the mode boundary of a switch (R59 to R66, R103, R243, R264, R288 to R292, R353). -/

namespace Sys2Proof.Machine

/-! ### Applications (R62, R63) -/

/-- An application of a page is requested and has not taken place. -/
def State.requested (s : State) (pg : Nat) : Bool := s.f pg fReq == 1

/-- A partition holds no work (R62). -/
def State.workless (s : State) (p : Nat) : Bool :=
  s.formes.all (fun f => f.2.part != p) && (s.entriesOf p).isEmpty &&
  s.threads.all (fun t => s.corePart (t.1 / 64) != p || t.2.st == .free)

/-- Partitions that have passed a boundary since a page's request (R62, code 2), those with them that are not ACTIVE or hold no work
now: a test plan in SERVICE has ended when its partition holds no work (log entry 198). -/
def State.stepPassed (s : State) (pg : Nat) : List Nat :=
  let passed := AMap.getD pg [] s.applyPassed
  (List.range s.k).filter fun p => passed.contains p || !s.active p || s.workless p

/-- Application of a PLAN page: the planner's held plans are discarded (R177, R181); one being made is held afterwards (log entry 200). -/
def State.applyPlan (s : State) (pg : Nat) : State :=
  let j := pg - 0x40
  let held := AMap.getD j [] s.heldPlans
  let s := { s.latch pg with heldPlans := AMap.del j s.heldPlans }
  if held.isEmpty then s else s.event pg Ev.PLAN_PLANS_FLUSHED

/-- Application of a CAMB page: the lead's partition reads its arena table (R248). -/
def State.applyCamb (s : State) (pg : Nat) : State :=
  let u := pg - 0x48
  let s := s.latch pg
  if u == s.lead (s.unitPart u) && s.partHere (s.unitPart u) then s.readArenas (s.unitPart u) else s

/-- A PLAN or CAMB page applies if its boundary has come; otherwise who has passed is kept. -/
def State.applyStep (s : State) (pg : Nat) : State :=
  if !s.requested pg then s
  else if (s.stepPassed pg).length < s.k then { s with applyPassed := AMap.put pg (s.stepPassed pg) s.applyPassed }
  else if pg < 0x48 then s.applyPlan pg else s.applyCamb pg

/-- Pages that apply at step boundaries. -/
def stepPages : List Nat := (List.range 8).map Pg.plan ++ (List.range 16).map Pg.camb

/-- A partition passes a boundary (R62): pages whose request every partition has now passed apply. -/
def State.passBoundary (s : State) (p : Nat) : State :=
  let pgs := stepPages.filter fun pg => s.requested pg
  let s := pgs.foldl (fun s pg => { s with applyPassed := AMap.put pg ((p :: AMap.getD pg [] s.applyPassed).eraseDups) s.applyPassed }) s
  pgs.foldl (fun s pg => s.applyStep pg) s

/-! ### CORE pages (R63, R103, R110) -/

/-- BAR0 offset of a core's overlay-valued register in force. -/
def State.ovReg (s : State) (c o : Nat) : Nat :=
  Pg.core c * 4096 + o + 0x400 * ((s.part (s.corePart c)).overlay.code + 1)

/-- WEIGHT and FILL byte of a slot, and the urgency, as the registers hold them. -/
def State.arbReg (s : State) (c slot : Nat) : Nat × Nat :=
  (bits (s.reg (s.ovReg c 0x100)) (8 * slot) 8, bits (s.reg (s.ovReg c 0x104)) 0 16)

/-- Those that a slot runs under (R63). -/
def State.arbOf (s : State) (c slot : Nat) : Nat × Nat :=
  match AMap.get? slot (s.core c).arb with
  | some v => v
  | none => s.arbReg c slot

/-- A slot has no forme in its queue or in flight on a core (R63). -/
def State.slotIdle (s : State) (c slot : Nat) : Bool :=
  (AMap.getD slot [] (s.core c).queue).isEmpty && s.tiles.all fun t => t.core != c || t.slot != slot

/-- SHARE_CLAMPED where the clamp of R102 reduces a share. -/
def State.clampEvent (s : State) (c : Nat) : State :=
  let v := s.galleyReg c
  if clampShares v == (List.range 4).map (fun i => bits v (4 * i) 4) then s else s.event (Pg.core c) Ev.CORE_SHARE_CLAMPED

/-- All four slots of a core are idle, no epilogue running (R103). -/
def State.sharesIdle (s : State) (c : Nat) : Bool :=
  (List.range 4).all (fun i => s.slotIdle c i) && s.threads.all (fun t => t.1 / 64 != c || t.2.epi.isNone)

/-- New galley shares take effect (R103). -/
def State.takeShares (s : State) (c : Nat) : State :=
  let s := s.modCore c fun x => { x with shares := none }
  (s.setF (Pg.core c) F.CORE_SHARE_PENDING 0).clampEvent c

/-- The register value that gives the shares in use on a core. -/
def State.galleyUsed (s : State) (c : Nat) : Nat := (s.core c).shares.getD (s.galleyReg c)

/-- CORE_SLOT_GALLEY in force may have changed: where it differs from what was used, the new shares wait until all four slots
are idle (R103). -/
def State.newShares (s : State) (c used : Nat) : State :=
  if s.galleyReg c == used || s.sharesIdle c then
    (if s.galleyReg c == used && (s.core c).shares.isNone then s else s.takeShares c)
  else
    (s.modCore c fun x => { x with shares := some used }).setF (Pg.core c) F.CORE_SHARE_PENDING 1

/-- Application of a CORE page: idle slots take the new values at once, the others at their next forme boundaries; credits are set
to 0 (R63, R110). -/
def State.applyCore (s : State) (c : Nat) : State :=
  let busy := (List.range 4).filter fun i => !s.slotIdle c i
  let old : AMap (Nat × Nat) := busy.map fun i => (i, s.arbOf c i)
  let used := s.galleyUsed c
  let s := (s.latch (Pg.core c)).modCore c fun x => { x with arb := old, credit := [] }
  let s := s.newShares c used
  if busy.isEmpty then s else s.setF (Pg.core c) fReq 1

/-- A slot of a core passes its forme boundary (R63). -/
def State.slotPasses (s : State) (c slot : Nat) : State :=
  match AMap.get? slot (s.core c).arb with
  | none => s
  | some _ =>
    let s := s.modCore c fun x => { x with arb := AMap.del slot x.arb }
    if (s.core c).arb.isEmpty then s.setF (Pg.core c) fReq 0 else s

/-! ### The watch (R264, R265) -/

/-- Evaluate one entry of the layer table. -/
def State.evalLayer (s : State) (p l : Nat) : State :=
  let pg := s.leadPage p
  match s.layerPlace p l with
  | .error f => s.layerBad p f
  | .ok (a, i) =>
    let v := ofBytes (s.heldOver p (.phys a i) (s.phys a 32))
    if !bit v 144 then s
    else
      let frac := min 256 (s.f pg F.CAMBL_FRAC)
      let lim := max 1 (s.f pg F.CAMBL_RUN_LIMIT)
      let starved := (frac != 0 && bits v 0 64 != 0 && frac * bits v 0 64 ≤ bits v 64 64 * 256) || (bit v 145 && !bit v 146)
      let run := if starved then min 65535 (bits v 128 16 + 1) else 0
      let raise := starved && run % lim == 0
      let s := s.modLayer p l fun b =>
        entryField 0 128 (fun _ => 0) (entryField 128 16 (fun _ => run) (entryField 144 3 (fun _ => 0)
          (entryField 147 1 (fun x => if raise then 1 else x) (entryField 192 64 (fun _ => 0) b))))
      if !raise || (s.camb p).watchBad then s
      else
        let s := (s.settings pg Ev.CAMB_LAYER_STARVED 1).incF pg F.CAMBL_STARVED
        if s.f pg F.CAMBL_VALID == 1 then s else (s.setF pg F.CAMBL_LAYER l).raiseF pg F.CAMBL_VALID

/-- The evaluation of every entry in ascending order; WATCH_FAULT where the table could not be used in the step (R262). -/
def State.evalWatch (s : State) (p : Nat) : State :=
  let s := (List.range (s.layers p)).foldl (fun s l => if (s.camb p).watchBad then s else s.evalLayer p l) s
  let s := if (s.camb p).watchBad then s.event (s.leadPage p) Ev.CAMB_WATCH_FAULT else s
  s.modCamb p fun c => { c with watchBad := false }

/-- The step boundary of a partition (R243, R248, R252, R481). Spills in progress complete first. -/
def State.stepBoundary (s : State) (p : Nat) : State :=
  let s := (s.camb p).spills.foldl (fun s x => s.endSpill p x) s
  (((s.evalWatch p).resetArenas p).readArenas p |>.passBoundary p).snapTry p

/-! ### The commit (R288 to R292, R491) -/

/-- The commit may begin: every entry has its blocks and the last writes have been accepted (R288, R291). -/
def State.commitReady (s : State) (p : Nat) : Bool :=
  match (s.camb p).upd with
  | some u => u.full && !u.committing && (s.camb p).intake.isEmpty
  | none => false

/-- Steps 2 and 3 of R291 begin: s_p goes to the all-reduce of NORM_GROUP. -/
def State.beginCommit (s : State) (p : Nat) : State :=
  match (s.camb p).upd with
  | none => s
  | some u =>
    let s := (s.modCamb p fun c => { c with upd := some { u with committing := true } }).showArmed p true true
    s.joinScalar p u.group (fp32.near u.sum.value) 0

/-- The outcome of R290. -/
def Update.outcome (u : Update) (n2 : Nat) : Nat :=
  if !finite32 n2 then 1
  else if thresholdOn u.normCeil && Num.lt (fp32.decode u.normCeil) (fp32.decode (fp32.sqrtN n2)) then 2 else 0

/-- FP64 code of a sum of squares. -/
def SqSum.code64 (x : SqSum) : Nat := (convert 0x09 .near false x.value).1

/-- The statistics record (R292). -/
def Update.stats (u : Update) (outcome n2 time : Nat) : List Byte :=
  toBytes 4 u.step ++ toBytes 4 outcome ++ toBytes 4 n2 ++ toBytes 4 u.clip ++ toBytes 8 u.sum.code64 ++ toBytes 8 u.localSq.code64 ++
  toBytes 4 u.nonfinite ++ toBytes 4 u.up ++ toBytes 4 u.down ++ toBytes 4 u.sat ++ toBytes 4 u.tokens ++ toBytes 4 u.samples ++
  toBytes 8 time

/-- Write the statistics record to its ring, or drop it (R292). -/
def State.writeStats (s : State) (p : Nat) (b : List Byte) : State :=
  let pg := s.leadPage p
  let base := s.f2 pg F.CAMBL_STATS_BASE_LO F.CAMBL_STATS_BASE_HI / 16384 * 16384
  let w := s.f pg F.CAMBL_WRITTEN
  let drop (s : State) : State := (s.satF pg F.CAMBL_DROPPED).event pg Ev.CAMB_STATS_DROPPED
  if base == 0 || 256 ≤ (w + 65536 - s.f pg F.CAMBL_ACKED) % 65536 then drop s
  else match s.storeRec p (0x300 + s.lead p) none (base + 64 * (w % 256)) b with
    | (s, none) => s.incF pg F.CAMBL_WRITTEN
    | (s, some _) => drop s

/-- The header of a journal record (R491). -/
def Update.header (u : Update) (i : Nat) (e : UpdEntry) (outcome n2 time : Nat) : List Byte :=
  toBytes 4 u.step ++ toBytes 4 (outcome + b2n e.pingPong * 2 ^ 8 + b2n (e.w.fmt == 0x08) * 2 ^ 9 + i % 2 ^ 16 * 2 ^ 16) ++
  toBytes 8 u.seed ++ toBytes 4 e.eta ++ toBytes 4 e.decay ++ toBytes 4 e.elems ++ toBytes 4 e.layer ++ toBytes 8 time ++
  toBytes 4 u.clip ++ toBytes 4 n2 ++ toBytes 16 0

/-- Steps 4 to 7 of R291: the outcome, the layer flags, CURRENT, the records; UPDATE ends, and the step boundary follows. -/
def State.commit (s : State) (p n2 : Nat) : State :=
  match (s.camb p).upd with
  | none => s
  | some u =>
    let pg := s.leadPage p
    let unit := 0x300 + s.lead p
    let o := u.outcome n2
    let es := u.entries.mapIdx fun i e => (i, e)
    let s := (s.setF pg F.CAMBL_LAST_OUTCOME o).setF pg F.CAMBL_NORM_LAST n2
    let s := if o == 0 then (s.setF pg F.CAMBL_NORM_PREV n2).setF pg F.CAMBL_PREV_VALID 1 else s
    let s := es.foldl (fun s x => if o != 0 && x.2.layer < s.layers p then s else
      s.modLayer p x.2.layer fun b =>
        entryField 145 1 (fun _ => 1) (entryField 146 1 (fun v => if x.2.nonzero then 1 else v) b)) s
    let s := if o == 0 then
        es.foldl (fun s x => if x.2.pingPong then
          (s.storeRec p unit none ((u.table + 64 * x.1 + 0x38) % 2 ^ 64) [BitVec.ofNat 8 (b2n (!x.2.current))]).1 else s) s
      else s
    let time := s.power.time
    let s := s.writeStats p (u.stats o n2 time)
    let s := es.foldl (fun s x => if x.2.journal == 0 then s
      else (s.storeRec p unit none ((x.2.journal + 2 ^ 64 - 64) % 2 ^ 64) (u.header x.1 x.2 o n2 time)).1) s
    let s := if o == 0 then s.incF pg F.CAMBL_COMMITTED
      else if o == 1 then (s.incF pg F.CAMBL_NONFINITE_STEPS).event pg Ev.CAMB_NORM_NONFINITE
      else (s.incF pg F.CAMBL_CEILING_STEPS).event pg Ev.CAMB_NORM_CEILING
    let s := s.event pg Ev.CAMB_STEP_COMMITTED
    let s := (s.modForme u.forme fun x => { x with tilesTotal := u.blocks, tilesDone := u.applied }).disarm p
    let s := s.modPart p fun x => { x with lastStep := u.step }
    let status := if u.overrun then 0x2A else if o == 0 then 0 else if o == 1 then 0x2B else 0x2C
    let s := s.finishForme u.forme status
    if (s.part p).overlay == .train then s.stepBoundary p else s

/-! ### The mode boundary (R353) -/

/-- Rewind a sequence in the batch (R353 action 1). -/
def State.rewindSeq (s : State) (p n : Nat) : State :=
  let q := s.kvSeq p n
  if !q.inBatch then s
  else
    let s := (s.commitTo p n q.committed).modSeq p n fun q => { q with inBatch := false }
    if q.cancel then s.releaseSeq p n 0x80 else s

/-- Pages of the partition alone with buffered fields apply what is pending (R353 action 3, R66). -/
def State.applyOwn (s : State) (p : Nat) : State :=
  let s := (s.coresOf p).foldl (fun s c =>
    let s := if s.requested (Pg.core c) && (s.core c).arb.isEmpty then s.applyCore c else s
    (List.range 4).foldl (fun s i => s.slotPasses c i) s) s
  let s := if s.requested (Pg.kv p) then s.applyKv p else s
  (s.unitsOf p).foldl (fun s u => if s.requested (Pg.camb u) then s.applyCamb (Pg.camb u) else s) s

/-- The partition crosses its mode boundary to an overlay (R353). -/
def State.modeBoundary (s : State) (p : Nat) (target : Overlay) : State :=
  let from0 := (s.part p).overlay
  let s := if from0 == .generate && target != .generate then
      (s.kv p).seqNums.foldl (fun s n => s.rewindSeq p n) s else s
  let s := if from0 == .train && target != .train then s.resetArenas p else s
  let s := (s.applyOwn p).passBoundary p
  let s := s.modPart p fun x => { x with overlay := target }
  (s.coresOf p).foldl (fun s c =>
    (s.modCore c fun x => { x with credit := [], age := [], held := true, heldSwitch := true }).takeShares c) s

/-- The drain of a partition is complete: boundary actions, then BARRIER or RISING (R351). -/
def State.crossBoundary (s : State) (p : Nat) : State :=
  let s := s.modeBoundary p (s.sw p).target
  if (s.sw p).plan.isSome then s.enterBarrier p else s.rise p

/-- The batch boundary of a partition (R302, R481). -/
def State.batchBoundary (s : State) (p : Nat) : State :=
  let s := if s.requested (Pg.kv p) then s.applyKv p else s
  let s := s.passBoundary p
  if (s.part p).overlay == .generate then s.snapTry p else s

end Sys2Proof.Machine
end

