-- ==== Sys2Proof/Machine/Post.lean ====
section
/-! DEFINITION. Planner cores at work: taking a forme, holding it back, planning it, posting it to its cores, and ending it (R129,
R146 to R151, R165, R166, R175, R177, R181). -/

namespace Sys2Proof.Machine

/-! ### Taking a forme -/

/-- Formes that a planner holds between TAKEN and DONE, at most 256 (R166). -/
def State.plannerHeld (s : State) (j : Nat) : Nat := (s.formes.filter fun f => f.2.planner == j).length
def State.plannerFull (s : State) (j : Nat) : Bool := 256 ≤ s.plannerHeld j

/-- A planner that takes no formes: it is halted (R507), or a clock has failed (R32). -/
def State.plannerShut (s : State) (j : Nat) : Bool := s.ctrlHalted j || s.power.clockFault

/-- The planner that takes formes of a slot posted from a core (R165). -/
def plannerOf (core slot : Nat) : Nat := 4 * (core / 128) + slot

/-- Opcodes of R130. -/
def opListed (op : Nat) : Bool := op ≤ 0x0D || (0x10 ≤ op && op ≤ 0x12) || (0x18 ≤ op && op ≤ 0x1B)

/-- Opcodes whose formes have tiles. -/
def opTiled (op : Nat) : Bool := 1 ≤ op && op ≤ 0x0D

/-- Opcodes that leave CLAIM_CTR and BRANCHES_M1 unused: COLLECTIVE, RESHARD, UPDATE (R271, R350, R433). -/
def opClaimless (op : Nat) : Bool := 0x10 ≤ op && op ≤ 0x12

/-- Checks 1 to 4 of R147: the status of the first that fails. CLAIM_CTR and BRANCHES_M1 are checked where the opcode uses them
(log entry 36). -/
def State.takeChecks (s : State) (x : Forme) : Option Nat :=
  if !opListed x.opcode then some 0x05
  else if !slotRoleOk (s.part x.part).overlay x.slot x.opcode then some 0x02
  else if s.ctrsPer ≤ x.waitCtr || s.ctrsPer ≤ x.doneCtr || (!opClaimless x.opcode && s.ctrsPer < x.claimCtr + x.branches) then some 0x03
  else if !opClaimless x.opcode && x.opcode != 0x02 && x.branches != 1 then some 0x06
  else if s.coresPer < x.coreFirst + x.coreCount then some 0x07
  else none

/-- A post that finds the planner full is refused (R166). -/
def State.refusePost (s : State) (j : Nat) : State :=
  (s.incF (Pg.plan j) F.PLAN_REFUSED).event (Pg.plan j) Ev.PLAN_QUEUE_FULL

/-- A planner takes a forme (R146, R147). `core` is the core of the thread that posted it, whose SYNC_RANGE flag a counter out of
range sets (R113). -/
def State.takeForme (s : State) (j part slot : Nat) (bytes : List Byte) (host : Option HostRef) (core : Option Nat) : State :=
  let i := s.nextForme
  let x : Forme := { part := part, slot := slot, planner := j, bytes := bytes, host := host
                     train := (s.part part).overlay == .train }
  let s := ({ s with nextForme := i + 1 }).incF (Pg.plan j) F.PLAN_TAKEN
  match s.takeChecks x with
  | some st =>
    let s := match core with
      | some c => if st == 0x03 then s.event (Pg.core c) Ev.CORE_SYNC_RANGE else s
      | none => s
    (s.setForme i x).finishForme i st
  | none =>
    if x.waitEn then
      let c := s.devCtr part x.waitCtr
      let s := s.countOp c
      s.setForme i { x with st := .waiting, waitMet := meets (s.value c) x.waitTarget }
    else s.setForme i { x with st := .claimHeld }

/-- WAIT_CTR has met WAIT_TARGET (R146). -/
def State.waitIsMet (s : State) (i : Nat) : State :=
  match AMap.get? i s.formes with
  | none => s
  | some x => if x.st == .waiting && x.waitMet then s.setForme i { x with st := .claimHeld } else s

/-- Device numbers of a forme's claim counters (R146). -/
def State.claimCtrs (s : State) (x : Forme) : List Nat :=
  if opClaimless x.opcode then [] else rangeFrom (s.devCtr x.part x.claimCtr) x.branches

/-- A forme in CLAIM_HELD goes on: no earlier forme of its planner and slot is held back, its counters are free, its partition does not
switch (R146, R352; a plan without a switch holds nothing), and the part that it is for is not idle (R8, log entry 173). It runs under the overlay in force now. An UPDATE notes whether another is armed now (R274). -/
def State.countersFree (s : State) (i : Nat) : State :=
  match AMap.get? i s.formes with
  | none => s
  | some x =>
    let first := s.formes.all fun f => i ≤ f.1 || f.2.planner != x.planner || f.2.slot != x.slot ||
      !(f.2.st == .waiting || f.2.st == .claimHeld)
    let cs := s.claimCtrs x
    if x.st == .claimHeld && first && ((s.sw x.part).st == 0 || !(s.sw x.part).on) && cs.all (fun c => !s.ctrBusy c) &&
        !partIdle (s.part x.part).overlay x.opcode then
      let pg := Pg.plan x.planner
      s.setForme i { x with
        st := .planning, busy := cs, train := (s.part x.part).overlay == .train, passes := (s.f pg F.PLAN_PASS1_MULT, s.f pg F.PLAN_PASS2_MULT)
        armedBefore := (s.camb x.part).upd.isSome }
    else s

/-! ### Planning -/

/-- A planner as an accessor. -/
def Forme.planAcc (x : Forme) : Acc := { part := x.part, core := none, who := .unit (0x100 + x.planner) }

/-- Checks 5 to 8 of an opcode with tiles (R147). -/
def State.planTiles (s : State) (x : Forme) : Except PlanErr (List Plan) :=
  let w := x.planAcc
  let share := s.minShare x
  let one (r : Except PlanErr Plan) : Except PlanErr (List Plan) := r.map fun p => [p]
  match x.opcode with
  | 0x01 => s.planMatmul w x x.passes.1 x.passes.2 share
  | 0x02 => s.planGmatmul w x x.passes.1 x.passes.2 share
  | 0x03 => s.planConv w x x.passes.1 x.passes.2 share
  | 0x04 => one (s.planPool w x share)
  | 0x05 => one (s.planCrop w x share)
  | 0x06 => one (s.planAttention w x share)
  | 0x07 => one (s.planNorm w x share)
  | 0x08 => one (s.planSoftmax w x share)
  | 0x09 => one (s.planLoss w x share)
  | 0x0A => one (s.planElem w x share)
  | 0x0B => one (s.planElem w x share)
  | _ => one (s.planGather w x share)

/-- A forme of the table engine without a list: OUT_AUTO and IN_AUTO (R332). -/
def Forme.kvAuto (x : Forme) : Bool := x.opcode == 0x19 && bits x.variant 0 2 < 2

/-- Bytes of an entry of a list of the table engine (R319 to R323, R330, R332, R341). -/
def Forme.kvSize (x : Forme) : Nat :=
  if x.opcode == 0x18 then (if bit x.variant 0 then (if bit x.variant 1 then 8 else 32) else 64)
  else if x.opcode == 0x19 then 8 else 32

/-- Check 5 of the opcodes of the table engine: AUX, VARIANT and the list (R318, R330, R332, R341); with a held plan, which has nothing
of the list, the list is not read (R177). -/
def State.planEntries (s : State) (x : Forme) (held : Bool) : Except PlanErr Unit := do
  want (x.aux == 0 && (x.opcode < 0x1A || x.variant == 0))
  if x.kvAuto || held then pure ()
  else
    let h ← s.readBlock x.planAcc (x.opd 0) 32 1
    let n := fieldAt h 0 4
    match s.firstFault x.planAcc [((x.opd 0 + 32) % 2 ^ 64, x.kvSize * n)] false with
    | some f => throw { status := f.1.status, fault := some f }
    | none => pure ()

/-- The size of a plan made again from the contents that it holds, of an opcode that R170 does not plan (R177). -/
def State.sizeAgain (s : State) (x : Forme) (share : Nat) (p : Plan) : Except PlanErr Plan :=
  let rows (n : Nat) : Plan :=
    let t := rowTile p.n n share
    { p with mt := t.1, foot := t.2, tiles := ceilDiv p.m t.1 }
  let held (l : List Nat) : Nat := (l.filter fun i => (p.d i).fmt != 0).length
  if share == 0 then .error { status := 0x01 }
  else match x.opcode with
  | 0x04 =>
    let w := Window.parse p.block
    let arg := (p.d 1).fmt != 0
    let f64 := (p.d 0).fmt == 0x09
    match [64, 32, 16, 8].find? fun wt => poolFoot w arg f64 wt ≤ share with
    | none => .error noFit
    | some wt => .ok { p with mt := wt, foot := poolFoot w arg f64 wt
                              tiles := ceilDiv ((p.d 2).v 0) 64 * ceilDiv ((p.d 2).v 1) wt * (p.d 2).v 2 * (p.d 2).v 3 }
  | 0x06 =>
    let b := AttBlock.parse p.block
    match attRows b (s.attElem x p) share with
    | none => .error noFit
    | some rt =>
      let p : Plan := { p with mt := rt, foot := attFoot b (s.attElem x p) rt }
      .ok { p with tiles := p.runs.length * b.hkv }
  | 0x07 => .ok (rows (held [0, 1, 2, 3, 4, 5, 6, 7]))
  | 0x08 => .ok (rows (held [0, 1, 2]))
  | 0x09 => .ok (rows (held [0, 2]))
  | 0x0C | 0x0D =>
    match [1024, 512, 256].find? fun n => 2 * 64 * n + 512 ≤ share with
    | none => .error noFit
    | some n => .ok { p with nt := n, foot := 2 * 64 * n + 512 }
  | _ => .ok p

/-- The key of a held plan (R177). -/
def Forme.key (x : Forme) : List Nat :=
  [x.part, x.slot, x.opcode, x.opd 0, x.opd 1, x.opd 2, x.aux, x.coreFirst, x.coreCount, putBits x.hints 11 1 0]

/-- A held plan of an ATTENTION forme: the checks of R310 that the overlay, the cache and VARIANT decide are made of every forme, and
the row list is data and is read for every forme (log entry 37). -/
def State.freshRows (s : State) (x : Forme) (p : Plan) : Except PlanErr Plan := do
  if x.opcode != 0x06 then pure p
  else
    s.attAllowed x
    want (s.attFits x (AttBlock.parse p.block) p.descs)
    let rows ← s.readBlock x.planAcc (AttBlock.parse p.block).rows (8 * p.m) 1
    let p : Plan := { p with blocks := AMap.put 3 rows p.blocks }
    pure { p with tiles := p.runs.length * (AttBlock.parse p.block).hkv }

/-- Plans of a forme: whether they come from a held plan, how many R170 has made now, and whether it dropped pins for one of them. -/
structure Planned where
  plans : List Plan
  reused : Bool := false
  made : Nat := 0
  relaxed : Bool := false

/-- The held plan that a forme with REUSE 1 finds (R177). -/
def State.heldPlan (s : State) (x : Forme) : Option HeldPlan :=
  if x.reuse then (AMap.getD x.planner [] s.heldPlans).find? fun h => h.key == x.key else none

/-- The plans of a forme with tiles (R170, R177). -/
def State.plansOf (s : State) (x : Forme) : Except PlanErr Planned := do
  let share := s.minShare x
  let product := x.opcode ≤ 0x03
  match s.heldPlan x with
  | none =>
    let l ← s.planTiles x
    pure { plans := l, made := if product then l.length else 0, relaxed := l.any fun p => p.relaxed }
  | some h =>
    let fits (p : Plan) : Bool := share != 0 && p.foot ≤ share
    if product then
      if share == 0 then .error { status := 0x01 }
      else
        let cs := if x.opcode == 0x02 then balance x.coreCount (h.plans.map fun p => p.batch * p.m * p.n * p.kk)
          else h.plans.map fun _ => x.coreCount
        let again := (h.plans.zip cs).filter fun y => !fits y.1
        let new ← shapeAll x x.passes.1 x.passes.2 share again
        let l := h.plans.foldl (fun (r : List Plan × List Plan) p =>
          if fits p then (r.1 ++ [p], r.2) else (r.1 ++ [r.2.headD p], r.2.tail)) ([], new)
        pure { plans := l.1, reused := true, made := new.length, relaxed := new.any fun p => p.relaxed }
    else
      let l ← h.plans.mapM fun p => do
        let p ← s.freshRows x p
        if fits p then pure p else s.sizeAgain x share p
      pure { plans := l, reused := true }

/-- Hold a plan as the most recently used of its planner, at most 64 (R177). -/
def State.holdPlan (s : State) (x : Forme) (ps : List Plan) : State :=
  let l := AMap.getD x.planner [] s.heldPlans
  let h : HeldPlan := { key := x.key, part := x.part, plans := ps }
  { s with heldPlans := AMap.put x.planner ((h :: l.filter fun y => y.key != x.key).take 64) s.heldPlans }

/-- PLAN_LAST and PLAN_LAST_TILES of the last plan made or reused (R181); of an opcode that tiles no product the tile's fields are 0 (log
entry 201). -/
def State.showPlan (s : State) (x : Forme) (b : Nat) (p : Plan) : State :=
  let pg := Pg.plan x.planner
  let matrix := x.opcode ≤ 0x03
  let v := (if matrix then edgeCode p.mt + edgeCode p.nt * 4 + edgeCode p.kc * 16 else 0) + p.order * 128 + b2n p.relaxed * 512 +
    x.opcode * 2 ^ 16 + b * 2 ^ 24
  (s.setReg (pg * 4096 + 0x03C) v).setF pg F.PLAN_TILES p.tiles

/-- The planner sets a forme's claim counters: VALUE 0 and LIMIT the tile count (R146), which OPS counts once each (R127). -/
def State.setClaims (s : State) (x : Forme) (tiles : List Nat) : State :=
  let cs := s.claimCtrs x
  (List.range cs.length).foldl (fun (s : State) b =>
    let c := cs.getD b 0
    ((s.countOp c).setReg (Pg.sync (c / 256) * 4096 + 0xC00 + 4 * (c % 256)) (tiles.getD b 0)).setValue c 0) s

/-- Counts, flag and held plan of a forme whose planning is done (R172, R177, R181, R182). A forme with REUSE 1 that was planned anew or
again is held with what was made (log entry 168). -/
def State.countPlan (s : State) (x : Forme) (pl : Planned) : State :=
  let pg := Pg.plan x.planner
  let s := if pl.reused then s.incF pg F.PLAN_REUSED else s
  let s := if pl.made == 0 then s else s.incF pg F.PLAN_PLANNED pl.made
  let s := if pl.relaxed then s.event pg Ev.PLAN_PIN_RELAXED else s
  if x.noHold then s else s.holdPlan x pl.plans

/-- Planning of a forme with tiles has passed its checks: counters, weights, registers, posts (R146, R175, R177, R181). Of a held plan with
more branches than the forme names, those that its claim counters reach run (log entry 199). -/
def State.runTiles (s : State) (i : Nat) (pl : Planned) : State :=
  let x := s.forme i
  let ps := if opClaimless x.opcode then pl.plans else pl.plans.take x.branches
  let s := s.setClaims x (ps.map fun p => p.tiles)
  let cs := s.claimCtrs x
  let s := if x.opcode == 0x02 && !x.weightsFixed then
      let ws := branchWeights ps
      (List.range ps.length).foldl (fun (s : State) b =>
        let c := cs.getD b 0
        s.setReg (Pg.sync (c / 256) * 4096 + 0x400 + 4 * (c % 256)) (putBits (s.ctrAttr c) 8 8 (ws.getD b 1))) s
    else s
  let s := s.countPlan x pl
  let s := s.showPlan x (ps.length - 1) (ps.getD (ps.length - 1) {})
  s.modForme i fun x =>
    { x with
      st := .running, plans := ps, tilesTotal := ps.foldl (fun n p => n + p.tiles) 0, cores := s.formeCores x, posts := s.formeCores x }

/-- A read or write of a tile faults, or an epilogue's access does (R150): the record names the core, the forme is being ended. -/
def State.tileFault (s : State) (i core : Nat) (f : AccFault) (addr : Nat) : State :=
  (s.faultRecord (s.forme i).part core addr f).formeFault i f.status core

/-- A cache-mode ATTENTION, whose rows the table engine validates at PLANNING (R312). -/
def Forme.cached (x : Forme) : Bool := x.opcode == 0x06 && bit x.variant 0

/-- The rows of a cache-mode ATTENTION are validated and written to the cache before any tile reads it (R312, R313). -/
def State.cacheRows (s : State) (i : Nat) : State :=
  let x := s.forme i
  if !x.cached then s
  else
    let p := x.plans.getD 0 {}
    let s := s.validateRows i p
    let unit := 0x320 + x.part
    match s.writeCache i { part := x.part, core := none, who := .forme i } p with
    | (s, none) => s
    | (s, some f) => (s.faultRecord x.part unit f.2 f.1).formeFault i f.1.status 0

/-- Planning fails: the counters are released with the forme, which ends with the check's status (R146). -/
def State.planFails (s : State) (i : Nat) (e : PlanErr) : State :=
  let x := s.forme i
  let s := match e.fault with
    | some f => s.faultRecord x.part (0x100 + x.planner) f.2 f.1
    | none => s
  let s := if e.made == 0 then s else s.incF (Pg.plan x.planner) F.PLAN_PLANNED e.made
  let s := if e.relaxed then s.event (Pg.plan x.planner) Ev.PLAN_PIN_RELAXED else s
  let s := if e.status == 0x0E then s.event (Pg.plan x.planner) Ev.PLAN_NO_FIT else s
  s.finishForme i e.status

/-- Planning of a forme with tiles ends: its checks, and the rows of a cache-mode ATTENTION, which have reached the table engine. -/
def State.planEnds (s : State) (i : Nat) : State :=
  match s.plansOf (s.forme i) with
  | .error e => s.planFails i e
  | .ok pl => (s.runTiles i pl).cacheRows i

/-- The rows of a cache-mode ATTENTION are at the front of the table engine (R301, R312). -/
def State.rowsReach (s : State) (i : Nat) : State :=
  match AMap.get? i s.formes with
  | none => s
  | some x => if x.st == .planning then s.planEnds i else s

/-- The rows of a cache-mode ATTENTION that passes its checks wait behind what has reached the table engine before them (R301). -/
def State.rowsWait (s : State) (x : Forme) : Bool :=
  x.cached && !(s.kv x.part).queue.isEmpty && (s.plansOf x).isOk

/-- The oldest forme in PLANNING of its planner, which plans one forme at a time. -/
def State.plansNext (s : State) (i : Nat) (x : Forme) : Bool :=
  x.st == .planning && s.formes.all fun f => i ≤ f.1 || f.2.planner != x.planner || f.2.st != .planning

/-- Planning ends (R146). -/
def State.formePlanned (s : State) (i : Nat) : State :=
  match AMap.get? i s.formes with
  | none => s
  | some x =>
    if !s.plansNext i x || s.ctrlHalted x.planner then s
    else match x.opcode with
    | 0x00 =>
      if s.minShare x == 0 then s.planFails i { status := 0x01 }
      else (((s.setClaims x []).countPlan x { plans := [], reused := (s.heldPlan x).isSome }).showPlan x 0 {}).finishForme i 0
    | 0x10 =>
      match s.planColl x.planAcc x i with
      | .error e => s.planFails i e
      | .ok c =>
        if 256 ≤ s.collsRunning x.part then s else ((s.modForme i fun y => { y with st := .running }).startColl c).collSweep
    | 0x11 =>
      match s.planReshard x.planAcc x with
      | .error e => s.planFails i e
      | .ok (on, target, plan) => (s.modForme i fun y => { y with st := .running }).beginSwitch x.part on target (some i) plan
    | 0x12 =>
      if x.armedBefore || (s.camb x.part).upd.isSome then s.planFails i { status := 0x28 }
      else match s.planUpdate x.planAcc x i with
      | .error e => s.planFails i e
      | .ok u => (s.modForme i fun y => { y with st := .running }).arm x.part u
    | op =>
      if opTiled op then
        if (s.kv x.part).queue.contains (.rows i) then s
        else if s.rowsWait x then s.modKv x.part fun k => { k with queue := k.queue ++ [.rows i] }
        else s.planEnds i
      else
        let held := (s.heldPlan x).isSome
        match s.planEntries x held with
        | .error e => s.planFails i e
        | .ok _ =>
          if s.minShare x == 0 then s.planFails i { status := 0x01 } else
          let s := ((s.setClaims x []).countPlan x { plans := [], reused := held }).showPlan x 0 {}
          (s.modForme i fun y => { y with st := .running }).modKv x.part fun k => { k with queue := k.queue ++ [.entries i] }

/-! ### The end of a running forme with tiles (R146, R148, R149) -/

/-- Everything that a forme with tiles has begun is over: its cores have reported, its updates and its writes have been
performed. -/
def State.formeOver (s : State) (i : Nat) (x : Forme) : Bool :=
  x.st == .running && opTiled x.opcode && x.cores.isEmpty && s.tiles.all (fun t => t.forme != i) &&
  s.reducers.all (fun u => u.forme != i) && s.heldWrites.all (fun h => h.who != .forme i) &&
  s.canopy.reqs.all (fun r => r.who != .forme i)

/-- End a forme whose work is over, or go on with its end actions (R149); refused rows give ROW_REFUSED (R312). -/
def State.tryEnd (s : State) (i : Nat) : State :=
  match AMap.get? i s.formes with
  | none => s
  | some x =>
    if x.st == .ended then (s.endStep2 i).endStep3 i
    else if s.formeOver i x then s.finishForme i (if x.status == 0 && !x.refusedRows.isEmpty then 0x31 else x.status) else s

/-- End every forme whose work is over. -/
def State.endFormes (s : State) : State := (s.formes.map fun f => f.1).foldl (fun s i => s.tryEnd i) s

/-- FLUSH discards a planner's held plans; a plan being made is not held (R181). -/
def State.flushPlans (s : State) (j : Nat) : State :=
  let had := !(AMap.getD j [] s.heldPlans).isEmpty
  let s := { s with
    heldPlans := AMap.del j s.heldPlans
    formes := s.formes.map fun f => if f.2.planner == j && f.2.st == .planning then (f.1, { f.2 with noHold := true }) else f }
  if had then s.event (Pg.plan j) Ev.PLAN_PLANS_FLUSHED else s

end Sys2Proof.Machine
end

