-- ==== Sys2Proof/Machine/Errors.lean ====
section
/-! DEFINITION. Memory errors: corrected ones, containment events, the scrubber (R70, R71, R88 to R96, R567, R568). -/

namespace Sys2Proof.Machine

/-- One more corrected error of a kind for the next CE_SUMMARY (R516): 0 galley, 1 stack, 2 bulk symbol, 3 bulk link. -/
def State.countCe (s : State) (kind : Nat) : State :=
  { s with integ := { s.integ with ce := s.integ.ce.set kind (s.integ.ce.getD kind 0 + 1) } }

/-- A corrected error at a device physical address (R89, R95, R96). -/
def State.correctedAt (s : State) (a : Nat) : State :=
  let pg := Pg.mem (memInst a)
  let n := s.f pg F.MEMD_CE
  let s := ((s.satF pg F.MEMD_CE).setF pg F.MEMD_ADDR_LO (a % 2 ^ 32)).setF pg F.MEMD_ADDR_HI (a / 2 ^ 32)
  let s := s.countCe (if a < 0x300000000 then 1 else 2)
  let m := s.f pg F.MEMD_CE
  let t := s.f pg F.MEMD_THRESH
  if m != n && t != 0 && m % t == 0 then s.event pg Ev.MEMD_CE_THRESHOLD else s

/-- A corrected error in a galley (R89). -/
def State.correctedGalley (s : State) (core : Nat) : State :=
  ((s.satF (Pg.core core) F.CORE_GALLEY_CE).event (Pg.core core) Ev.CORE_GALLEY_CE).countCe 0

/-- A corrected error at a place (R88: host and remote places have none of the module's codes). -/
def State.correctedLoc (s : State) (l : Loc) : State :=
  match l with
  | .galley c _ => s.correctedGalley c
  | .phys a _ => s.correctedAt a
  | _ => s

/-- An error of a bulk link that link ECC corrected, or that one retry overcame (R89, R95, R96, R516). -/
def State.linkAt (s : State) (a : Nat) (retried : Bool) : State :=
  if a < 0x300000000 then s
  else
    let pg := Pg.mem (memInst a)
    let s := s.countCe 3
    if retried then (s.satF pg F.MEMD_LINK_RETRY).event pg Ev.MEMD_LINK_RETRY else s.satF pg F.MEMD_LINK_CE

/-- Such an error of a read at a place. -/
def State.linkLoc (s : State) (l : Loc) (retried : Bool) : State :=
  match l with
  | .phys a _ => s.linkAt a retried
  | _ => s

/-- Whom an error at a device physical address concerns (R90, R567): a partition number, which may be of no partition in use, or
none for a shared part of a system region. -/
def State.errorOwner (s : State) (a : Nat) : Option Nat :=
  let area (b die : Nat) : Option Nat :=
    if 0x0C000000 ≤ a - b then none
    else if s.k == 1 then some (if die == 0 then 0 else 8)
    else some (die * (s.k / 2) + (a - b) / (384 * 2 ^ 20 / s.k))
  if a < 0x300000000 then
    match s.stackOwner a with
    | some p => some p
    | none => if a < 0x180000000 then area 0x170000000 0 else area 0x2F0000000 1
  else s.bulkOwner a

/-- The record of an error where no partition is in use: it goes to the file of page MEM 24 (R90, R94). -/
def State.recordUnused (s : State) (p : Nat) (r : ErrRec) : State :=
  let w := s.f (Pg.part 0) F.MEMP_WRITTEN
  (s.fileRecord 0 r p).history 0x01 (r.words p w s.power.time)

/-- An uncorrectable error that concerns partition p: the record, and the stop (R90, R91). The per-partition area of the east die, which
with k = 1 is no partition's, has a NOT_IN_USE record with PARTITION 0 (log entry 175). -/
def State.contain (s : State) (p : Nat) (r : ErrRec) : State :=
  if s.partHere p then (s.errRecord p r).stopPartition p else s.recordUnused (p % 8) { r with notInUse := true }

/-- An uncorrectable error at a device physical address (R90, R568), which its unit of storage keeps until it is overwritten; with `link`
one of a bulk link whose retry failed (R89), which sets LINK_RETRY and leaves the count, as log entry 176 says. -/
def State.uncorrectable (s : State) (a symbols addr : Nat) (link : Bool) : State :=
  let inst := memInst a
  let s := if link && 0x300000000 ≤ a then s else s.damage a symbols
  let s := (s.satF (Pg.mem inst) F.MEMD_UE).event (Pg.mem inst) Ev.MEMD_UE
  let s := if link && 0x300000000 ≤ a then s.event (Pg.mem inst) Ev.MEMD_LINK_RETRY else s
  let r : ErrRec :=
    { cause := if a < 0x300000000 then 0x02 else if link then 0x04 else 0x03
      tier := if a < 0x300000000 then 1 else 2, unit := inst, symbols := symbols, addr := addr, phys := a / 32 * 32 }
  match s.errorOwner a with
  | some p => s.contain p r
  | none =>
    let s := s.errRecordAll { r with sys := true }
    (List.range s.k).foldl (fun s p => s.stopPartition p) s

/-- An uncorrectable galley error at an offset (R90, R568), which its word keeps until it is overwritten. -/
def State.galleyUe (s : State) (core off symbols addr : Nat) : State :=
  (s.damage (galleyKey core off) symbols).contain (s.corePart core) { cause := 0x01, tier := 0, unit := core, symbols := symbols, addr := addr }

/-- An uncorrectable error reported by a peer (R90). -/
def State.remoteUe (s : State) (p ctx addr : Nat) : State :=
  s.contain p { cause := 0x05, tier := 4, unit := ctx, addr := addr }

/-- A failed read of host memory (R90). -/
def State.hostFail (s : State) (p unit addr bus : Nat) : State :=
  s.contain p { cause := 0x06, tier := 3, unit := unit, addr := addr, phys := bus }

/-- An uncorrectable error at a place (R90), `link` as above; a host place fails its read. -/
def State.errorAt (s : State) (p unit : Nat) (l : Loc) (symbols addr : Nat) (link : Bool) : State :=
  match l with
  | .galley c o => s.galleyUe c o symbols addr
  | .phys a _ => s.uncorrectable a symbols addr link
  | .host a _ => s.hostFail p unit addr a
  | .remote c _ => s.remoteUe p c addr

/-- What a read for partition p finds and corrects, at device physical addresses: errors in storage, and errors of a bulk link; one
outside the partition's memory is none of its (R89). The write-back of a corrected unit leaves its bytes as they are, so that any
write wins over it. -/
def State.correctedFor (s : State) (p : Nat) (l : List (BitVec 48)) : State :=
  l.foldl (fun (s : State) a => if s.errorOwner a.toNat == some p then s.correctedAt a.toNat else s) s
def State.linksFor (s : State) (p : Nat) (l : List (BitVec 48 × Bool)) : State :=
  l.foldl (fun (s : State) a => if s.errorOwner a.1.toNat == some p then s.linkAt a.1.toNat a.2 else s) s

/-! ### Scrubbing (R88, R89, R95) -/

/-- Units of 4 KiB in a pass of a MEM instance (R95). -/
def scrubUnits (inst : Nat) : Nat := if inst < 8 then 393216 else 8388608

/-- The unit of a pass of its instance that holds a device physical address (R70, R71, R95): a stack die holds 16 KiB of every 64 KiB
of its die half, and a bulk package 256 bytes of every 2 KiB of its die. -/
def scrubUnit (a : Nat) : Nat :=
  if a < 0x300000000 then a % 0x180000000 / 65536 * 4 + a % 16384 / 4096 else a % 0x4000000000 / 32768

/-- The unit that an instance scrubs next holds an address. -/
def State.scrubs (s : State) (inst a : Nat) : Bool := a < 2 ^ 48 && memInst a == inst && scrubUnit a == s.f (Pg.mem inst) F.MEMD_POS

/-- The scrubber visits the next unit of an instance (R89, R90, R95): it finds what the command brings, and every unit of the code there
that is already in error. -/
def State.scrub (s : State) (inst : Nat) (found : ScrubFound) : State :=
  let pg := Pg.mem inst
  let here (a : Nat) : Bool := s.scrubs inst a
  let stored := s.faulty.filter fun u => here u.1
  let s := found.corrected.foldl (fun (s : State) a => if here a.toNat then s.correctedAt a.toNat else s) s
  let s := found.links.foldl (fun (s : State) a => if here a.1.toNat then s.linkAt a.1.toNat a.2 else s) s
  let pos := s.f pg F.MEMD_POS + 1
  let s := if scrubUnits inst ≤ pos then
      ((s.setF pg F.MEMD_POS 0).incF pg F.MEMD_PASSES).event pg Ev.MEMD_SCRUB_PASS
    else s.setF pg F.MEMD_POS pos
  let s := stored.foldl (fun s u => s.uncorrectable u.1 u.2 0 false) s
  match found.uncorrectable with
  | some (a, n) =>
    if here a.toNat && !stored.any (fun u => u.1 == a.toNat / unitBytes a.toNat * unitBytes a.toNat) then
      s.uncorrectable a.toNat n.toNat 0 found.link
    else s
  | none => s

/-- A containment event (R90), or a corrected error that a read of some other part of the module has found (R89). -/
def State.containment (s : State) (e : ErrorEvent) : State :=
  match e.site with
  | .galley c o => s.galleyUe c.val o.toNat e.symbols.toNat e.addr.toNat
  | .phys a link => s.uncorrectable a.toNat e.symbols.toNat e.addr.toNat link
  | .remote c p => s.remoteUe p.val c.toNat e.addr.toNat
  | .host p unit bus => s.hostFail p.val unit.toNat e.addr.toNat bus.toNat
  | .corrected a => s.correctedAt a.toNat
  | .correctedGalley c => s.correctedGalley c
  | .link a retried => s.linkAt a.toNat retried

end Sys2Proof.Machine
end

