-- ==== Sys2Proof/Machine/Arb.lean ====
section
/-! DEFINITION. Encodings and legality of the instructions of threads (R154 to R156, R159), and the arbitration of the platen, the
vector unit and the special-function unit among the slots of a core and their threads (R106, R110). -/

namespace Sys2Proof.Machine

/-! ### Encodings (R154 to R156, R159) -/

def encR (op d a b f : Nat) : Nat := op * 2 ^ 26 + d * 2 ^ 21 + a * 2 ^ 16 + b * 2 ^ 11 + f
def encI (op d a imm : Nat) : Nat := op * 2 ^ 26 + d * 2 ^ 21 + a * 2 ^ 16 + imm
def encJ (op offs : Nat) : Nat := op * 2 ^ 26 + offs
/-- A vector operation: type and format field in F. -/
def encV (o ty fmt d a b : Nat) : Nat := encR 0x28 d a b (o + ty * 64 + fmt * 256)

/-- Whether a vector operation is defined with its type, format field and registers. -/
def legalVop (d a b f : Nat) : Bool :=
  let o := bits f 0 6
  let ty := bits f 6 2
  let fm := bits f 8 3
  let usesB := o ≤ 0x05 || o == 0x08 || (0x0A ≤ o && o ≤ 0x10)
  o ≤ 0x15 && ty != 3 && (o == 0x11 || o == 0x15 || fm == 0) && (o != 0x11 || fm ≤ 6) && (o != 0x15 || (3 ≤ fm && fm ≤ 6)) &&
  ((o != 0x08 && o != 0x09) || ty != 2) && (o == 0x13 || o == 0x14 || d < 8) && (o == 0x12 || a < 8) && (!usesB || b < 8)

/-- Whether a word is a legal instruction (R155, R156). -/
def legalWord (w : Nat) : Bool :=
  let op := bits w 26 6
  let d := bits w 21 5
  let a := bits w 16 5
  let b := bits w 11 5
  let f := bits w 0 11
  if op == 0x00 then f ≤ 12
  else if op ≤ 0x07 then true
  else if op == 0x08 then a ≤ 3
  else if op == 0x09 then f == 0 && a ≤ 9
  else if op == 0x0A then f == 0 && (a == 8 || a == 9)
  else if 0x10 ≤ op && op ≤ 0x13 then true
  else if op == 0x14 || op == 0x15 then d < 8
  else if 0x18 ≤ op && op ≤ 0x1D then true
  else if op == 0x20 then f ≤ 5
  else if op == 0x21 || op == 0x23 then f == 0
  else if op == 0x22 then f ≤ 3 && b ≤ 28
  else if op == 0x28 then legalVop d a b f
  else if op == 0x29 then f ≤ 3 && d < 8 && a < 8
  else if op == 0x3F then f == 0 || (0x80 ≤ f && f ≤ 0xFF)
  else false

/-! ### The next instruction of a thread (R105, R570) -/

/-- The line of the next instruction. -/
def Thread.line (x : Thread) : Nat := x.pc / 32 * 32

/-- The next instruction, if its line is in the buffer. -/
def Thread.word (x : Thread) : Option Nat := (AMap.get? x.line x.buf).map fun l => fieldAt l (x.pc % 32) 4

/-- Registers, vector or scalar, that a word's instruction reads or writes (R154, R155, R159). -/
def wordUses (w : Nat) : List (Bool × Nat) :=
  let op := bits w 26 6
  let d := bits w 21 5
  let a := bits w 16 5
  let b := bits w 11 5
  let f := bits w 0 11
  let sc (l : List Nat) : List (Bool × Nat) := l.map fun r => (false, r)
  if op == 0x00 then sc [d, a, b]
  else if op == 0x08 || op == 0x09 || op == 0x0A then sc [d]
  else if op ≤ 0x13 || (0x18 ≤ op && op ≤ 0x1B) || op == 0x1D then sc [d, a]
  else if op == 0x14 || op == 0x15 then [(true, d), (false, a)]
  else if op == 0x20 then (if f ≤ 1 then sc [a, b] else if f == 3 then sc [d, a, b] else sc [d, a])
  else if op == 0x21 then sc [a]
  else if op == 0x22 then sc (d :: a :: rangeFrom b 4)
  else if op == 0x29 then [(true, d), (true, a)]
  else if op == 0x28 then
    let o := bits w 0 6
    if o == 0x12 then [(true, d), (false, a)]
    else if o == 0x13 || o == 0x14 then [(false, d), (true, a)]
    else if o ≤ 0x05 || o == 0x08 || (0x0A ≤ o && o ≤ 0x10) then [(true, d), (true, a), (true, b)]
    else [(true, d), (true, a)]
  else []

/-- The instruction takes effect only after every earlier store of its thread (R158): SYNC of ADD and SET, POST, START, FENCE. -/
def wordOrdered (w : Nat) : Bool :=
  let op := bits w 26 6
  (op == 0x20 && bits w 0 11 ≤ 1) || op == 0x21 || op == 0x22 || op == 0x23

/-- A load into one of the registers has not completed. `uses` lists registers, vector or scalar. -/
def Thread.pendingOn (x : Thread) (uses : List (Bool × Nat)) : Bool :=
  x.loads.any fun l => uses.contains (l.vec, l.reg) && (l.vec || l.reg != 0)

/-! ### Arbitration (R110) -/

/-- WEIGHT, FILL and URGENCY that a slot runs under; a WEIGHT or an URGENCY of 0 acts as 1 (R128). -/
def State.slotWeight (s : State) (c slot : Nat) : Nat := max 1 (bits (s.arbOf c slot).1 0 7)
def State.slotFill (s : State) (c slot : Nat) : Bool := bit (s.arbOf c slot).1 7
def State.slotUrgency (s : State) (c slot : Nat) : Nat := max 1 (s.arbOf c slot).2

/-- A choice of a unit among ready slots: the pick, and whether it is by urgency. -/
def State.arbPick (s : State) (c unit : Nat) (ready : List Nat) : Option (Nat × State) :=
  let key (slot : Nat) : Nat := 4 * unit + slot
  let aged (s : State) (slot : Nat) : State := s.modCore c fun x => { x with age := AMap.put (key slot) 0 x.age }
  let urgent := ready.filter fun k =>
    s.slotFill c k && s.slotUrgency c k * 256 ≤ AMap.getD (key k) 0 (s.core c).age
  match urgent with
  | k :: _ => some (k, ((aged s k).incF (Pg.core c) F.CORE_URGENT_GRANTS).event (Pg.core c) Ev.CORE_URGENT_SERVED)
  | [] =>
    match ready.filter fun k => !s.slotFill c k with
    | [] => ready.head?.map fun k => (k, aged s k)
    | fg =>
      let cr : AMap Int := fg.map fun k => (k, AMap.getD (key k) 0 (s.core c).credit)
      match weightedDraw (fg.map fun k => (k, s.slotWeight c k)) cr with
      | none => none
      | some (k, cr) =>
        some (k, s.modCore c fun x => { x with credit := cr.foldl (fun m y => AMap.put (key y.1) y.2 m) x.credit })

/-- The unit whose choice points begin an opcode's tiles (R110): 0 the platen, 1 the vector unit. -/
def tileUnit (op : Nat) : Nat := if [0x01, 0x02, 0x03, 0x06].contains op then 0 else 1

/-- A staged tile of a slot for a unit whose forme goes on. -/
def State.readyTile (s : State) (c unit slot : Nat) : Option Tile :=
  s.tiles.find? fun (t : Tile) => t.core == c && t.slot == slot && t.phase == .staged && !(s.forme t.forme).ending &&
    tileUnit (s.forme t.forme).opcode == unit

/-- The unit of a word's instruction: 1 the vector unit, 2 the special-function unit; 0 for no instruction of theirs. -/
def wordUnit (w : Nat) : Nat := if bits w 26 6 == 0x28 then 1 else if bits w 26 6 == 0x29 then 2 else 0

/-- The unit that a word's instruction issues to; an illegal one needs none. -/
def issueUnit (w : Nat) : Nat := if legalWord w then wordUnit w else 0

/-- The thread's next instruction, if it has arrived, waits for a load or for the thread's earlier stores (R105, R158). -/
def Thread.waits (x : Thread) (w : Nat) : Bool :=
  legalWord w && (x.pendingOn (wordUses w) || (wordOrdered w && !x.stores.isEmpty))

/-- A thread has a ready instruction for a unit, 0 the thread engine itself: it is READY, and its next instruction has arrived, is that
unit's and waits for nothing. -/
def Thread.readyFor (x : Thread) (unit : Nat) : Bool :=
  x.st == .ready && match x.word with
    | some w => issueUnit w == unit && !x.waits w
    | none => false

/-- The thread of a slot whose turn it is to issue to a unit: the next one ready for it after the thread of the slot that issued last,
upward by number and wrapping (R106; log entry 163). -/
def State.nextReady (s : State) (c slot unit : Nat) : Option Nat :=
  let first := AMap.getD slot 15 (s.core c).last + 1
  ((List.range 16).map fun k => 16 * slot + (first + k) % 16).find? fun t => (s.th c t).readyFor unit

/-- A slot has work ready for a unit: a tile, or an instruction of a thread. -/
def State.unitReady (s : State) (c unit slot : Nat) : Bool :=
  (s.readyTile c unit slot).isSome || (unit != 0 && (rangeFrom (16 * slot) 16).any fun t => (s.th c t).readyFor unit)

/-- Proofing work of a core, which the vector unit serves ahead of every slot (R110, R208; log entry 164). -/
def State.proofing (s : State) (c : Nat) : Bool := s.tiles.any fun (t : Tile) => t.core == c && t.proof.isSome &&
  (t.phase != .executing || ((s.forme t.forme).planOf t).chunkCount (s.forme t.forme) ≤ t.chunks)

/-- A choice of the vector unit or the special-function unit that falls on the slot of thread t, and the state after it; none where the
core may not issue to it now (R20). -/
def State.unitTurn (s : State) (c t unit : Nat) : Option State :=
  if !s.mayIssue c || (unit == 1 && s.proofing c) then none
  else match s.arbPick c unit ((List.range 4).filter fun k => s.unitReady c unit k) with
  | some (k, s') => if k == t / 16 then some s' else none
  | none => none

end Sys2Proof.Machine
end

