-- ==== Sys2Proof/Machine/Vector.lean ====
section
/-! DEFINITION. The vector unit and the special-function unit on lanes (R159, R212). -/

namespace Sys2Proof.Machine

/-! ### Lanes -/

/-- Lane k of w bits of a vector register. -/
def lane (w : Nat) (v : VReg) (k : Nat) : Nat := bits v.toNat (w * k) w

/-- A vector register from its lanes, lane 0 lowest; lanes not given are 0. -/
def ofLanes (w : Nat) (l : List Nat) : VReg := BitVec.ofNat 2048 (l.foldr (fun c n => c % 2 ^ w + 2 ^ w * n) 0)

/-- The types of a vector operation (R159). -/
inductive VType where
  | f32 | f64 | i32
  deriving DecidableEq, Repr

/-- The type of F[7:6]; type 3 is illegal and never reaches an operation. -/
def VType.of (ty : Nat) : VType := if ty == 0 then .f32 else if ty == 1 then .f64 else .i32

def VType.width : VType → Nat
  | .f64 => 64
  | _ => 32
def VType.lanes : VType → Nat
  | .f64 => 32
  | _ => 64
/-- The format of a floating-point type. -/
def VType.fmt : VType → FFmt
  | .f64 => fp64
  | _ => fp32

/-- The lanes of a register as a type. -/
def VType.read (ty : VType) (v : VReg) : List Nat := (List.range ty.lanes).map (lane ty.width v)

/-- A register from results with flags, and the flags together. -/
def VType.pack (w : Nat) (l : List (Nat × Nat)) : VReg × Nat :=
  (ofLanes w (l.map fun x => x.1), l.foldl (fun n x => n ||| x.2) 0)

/-! ### Operations on one lane: result and flags -/

def VType.add (ty : VType) (r : Rnd) (a b : Nat) : Nat × Nat :=
  match ty with
  | .i32 => ((a + b) % 2 ^ 32, 0)
  | _ => ty.fmt.add r a b
def VType.sub (ty : VType) (r : Rnd) (a b : Nat) : Nat × Nat :=
  match ty with
  | .i32 => ((a + 2 ^ 32 - b) % 2 ^ 32, 0)
  | _ => ty.fmt.sub r a b
def VType.mul (ty : VType) (r : Rnd) (a b : Nat) : Nat × Nat :=
  match ty with
  | .i32 => (a * b % 2 ^ 32, 0)
  | _ => ty.fmt.mul r a b
def VType.fma (ty : VType) (r : Rnd) (a b d : Nat) : Nat × Nat :=
  match ty with
  | .i32 => ((a * b + d) % 2 ^ 32, 0)
  | _ => ty.fmt.fma r a b d
/-- Minimum and maximum: a NaN operand gives a NaN, and −0 < +0; signed for INT32. -/
def VType.min (ty : VType) (a b : Nat) : Nat :=
  match ty with
  | .i32 => if sx 32 b < sx 32 a then b else a
  | _ => ty.fmt.minN a b
def VType.max (ty : VType) (a b : Nat) : Nat :=
  match ty with
  | .i32 => if sx 32 a < sx 32 b then b else a
  | _ => ty.fmt.maxN a b
/-- Magnitude and negation: of floating point only the sign bit changes. -/
def VType.abs (ty : VType) (a : Nat) : Nat :=
  match ty with
  | .i32 => if bit a 31 then (2 ^ 32 - a) % 2 ^ 32 else a
  | _ => putBits a (ty.width - 1) 1 0
def VType.neg (ty : VType) (a : Nat) : Nat :=
  match ty with
  | .i32 => (2 ^ 32 - a) % 2 ^ 32
  | _ => putBits a (ty.width - 1) 1 (b2n (!bit a (ty.width - 1)))

/-- All ones of a lane, or 0. -/
def VType.mask (ty : VType) (b : Bool) : Nat := if b then 2 ^ ty.width - 1 else 0

/-- Whether a lane holds a NaN. -/
def VType.isNan (ty : VType) (a : Nat) : Bool :=
  match ty with
  | .i32 => false
  | _ => (ty.fmt.decode a).isNan

/-- Comparisons: false with a NaN; less and less-or-equal raise invalid with one. -/
def VType.lt (ty : VType) (a b : Nat) : Nat × Nat :=
  match ty with
  | .i32 => (ty.mask (sx 32 a < sx 32 b), 0)
  | _ => (ty.mask (Num.lt (ty.fmt.decode a) (ty.fmt.decode b)), if ty.isNan a || ty.isNan b then flInvalid else 0)
def VType.le (ty : VType) (a b : Nat) : Nat × Nat :=
  match ty with
  | .i32 => (ty.mask (sx 32 a ≤ sx 32 b), 0)
  | _ => (ty.mask (Num.le (ty.fmt.decode a) (ty.fmt.decode b)), if ty.isNan a || ty.isNan b then flInvalid else 0)
def VType.eq (ty : VType) (a b : Nat) : Nat :=
  match ty with
  | .i32 => ty.mask (a == b)
  | _ => ty.mask (Num.cmp (ty.fmt.decode a) (ty.fmt.decode b) == some .eq)

/-! ### Conversions -/

/-- FORMAT code of a conversion's format field (R159, R132). -/
def cvtFmt (f : Nat) : Nat :=
  if f == 0 then 0x08 else if f == 1 then 0x09 else if f == 2 then 0x0B else if f == 3 then 0x07 else if f == 4 then 0x06
  else if f == 5 then 0x04 else 0x05

/-- The value of a lane. -/
def VType.value (ty : VType) (a : Nat) : Num :=
  match ty with
  | .i32 => Num.ofInt (sx 32 a)
  | _ => ty.fmt.decode a

/-- Convert a value to INT32: saturating, 0 for a NaN, invalid for a NaN or a value out of range (R159); a value that is rounded raises
inexact, as IEEE 754-2019 has it (log entry 180). -/
def toInt32 (r : Rnd) (x : Num) : Nat × Nat :=
  match x with
  | .nan => (0, flInvalid)
  | .inf n => (if n then 2 ^ 31 else 2 ^ 31 - 1, flInvalid)
  | .fin n m e =>
    let v := Num.toInt r n m e
    if v.1 < -(2 ^ 31) then (2 ^ 31, flInvalid)
    else if 2 ^ 31 - 1 < v.1 then (2 ^ 31 - 1, flInvalid)
    else (ux 32 v.1, if v.2 then flInexact else 0)

/-- Convert a value to FP8_E4M3: saturating to ±448. -/
def toE4m3 (r : Rnd) (x : Num) : Nat × Nat :=
  match x with
  | .nan => (e4m3.nan, 0)
  | .inf n => (e4m3.withSign n e4m3.maxCode, flInvalid)
  | .fin n m e =>
    let y := e4m3.roundFin r n m e
    if y.big then (e4m3.withSign n e4m3.maxCode, flOverflow + flInexact)
    else (e4m3.withSign n y.code, (if y.inexact then flInexact else 0) + (if y.inexact && y.tiny then flUnderflow else 0))

/-- Convert a value to the format of a code of VCVT. -/
def cvtTo (f : Nat) (r : Rnd) (x : Num) : Nat × Nat :=
  match f with
  | 0 => fp32.round r x
  | 1 => fp64.round r x
  | 2 => toInt32 r x
  | 3 => bf16.round r x
  | 4 => fp16.round r x
  | 5 => toE4m3 r x
  | _ => e5m2.round r x

/-- VCVT: as many lanes as fill 256 bytes in the narrower of type and result, packed from byte 0. -/
def VType.cvt (ty : VType) (f : Nat) (r : Rnd) (a : VReg) : VReg × Nat :=
  let w := elemBits (cvtFmt f)
  VType.pack w ((List.range (Nat.min ty.lanes (2048 / w))).map fun k => cvtTo f r (ty.value (lane ty.width a k)))

/-- VCVTW: packed elements of a format, codes 3 to 6, widened to the type. -/
def VType.cvtw (ty : VType) (f : Nat) (r : Rnd) (a : VReg) : VReg × Nat :=
  let w := elemBits (cvtFmt f)
  VType.pack ty.width ((List.range ty.lanes).map fun k =>
    let x := decodeElem (cvtFmt f) (lane w a k)
    match ty with
    | .i32 => toInt32 r x
    | _ => (ty.fmt.near x, 0))

/-! ### Reductions -/

/-- A tree of halves from h lanes down: lane i + h joins lane i. -/
def halves (op : Nat → Nat → Nat × Nat) : List Nat → List Nat → Nat → Nat × Nat
  | [], l, fl => (l.getD 0 0, fl)
  | h :: hs, l, fl =>
    let x := (List.range h).map fun i => op (l.getD i 0) (l.getD (i + h) 0)
    halves op hs (x.map fun y => y.1) (x.foldl (fun n y => n ||| y.2) fl)

/-- Halves of a type's tree. -/
def VType.tree (ty : VType) : List Nat :=
  match ty with
  | .f64 => [16, 8, 4, 2, 1]
  | _ => [32, 16, 8, 4, 2, 1]

/-- A reduction's result as it is placed in a scalar register. -/
def VType.place (ty : VType) (x : Nat) : Nat :=
  match ty with
  | .i32 => ux 64 (sx 32 x)
  | _ => x

def VType.redsum (ty : VType) (r : Rnd) (a : VReg) : Nat × Nat :=
  let x := halves (ty.add r) ty.tree (ty.read a) 0
  (ty.place x.1, x.2)
def VType.redmax (ty : VType) (a : VReg) : Nat :=
  ty.place (halves (fun x y => (ty.max x y, 0)) ty.tree (ty.read a) 0).1

end Sys2Proof.Machine
end

