-- ==== Sys2Proof/Machine/Threads.lean ====
section
/-! DEFINITION. How a thread executes: fetching, issuing, loads and stores, counter operations, posts (R105, R113 to R120, R157, R158,
R166, R569, R570). -/

namespace Sys2Proof.Machine

/-! ### Fetching (R570) -/

/-- Keep the buffer supplied: the line of the next instruction, and while that executes the next line in address order. -/
def State.feed (s : State) (c t : Nat) : State :=
  let x := s.th c t
  let n := (x.line + 32) % 2 ^ 64
  let has (l : Nat) : Bool := (AMap.get? l x.buf).isSome
  let coming (l : Nat) : Bool := x.fetching.any fun f => f.line == l
  if has x.line then (if has n || coming n then s else s.fetchLine c t n)
  else if coming x.line then s
  else (s.modTh c t fun x => { x with fetching := [] }).fetchLine c t x.line

/-- The thread goes on at an address, and its slot's turn moves on (R106). -/
def State.goTo (s : State) (c t : Nat) (x : Thread) (pc : Nat) : State :=
  ((s.setTh c t { x with pc := pc % 2 ^ 64 }).issued c t).feed c t

/-- The thread goes on at the next instruction. -/
def State.goOn (s : State) (c t : Nat) (x : Thread) : State := s.goTo c t x (x.pc + 4)

/-- The next instruction has not arrived or needs a register whose load has not completed (R105). -/
def Thread.blocked (x : Thread) : Bool :=
  match x.word with
  | none => true
  | some w => legalWord w && x.pendingOn (wordUses w)

/-- A thread in WAIT_MEM is READY once nothing that it waits for is missing (R105). -/
def Thread.resume (x : Thread) : Thread := if x.st == .waitMem && !x.blocked then { x with st := .ready } else x

/-- Errors of a read that were corrected are counted, each at its own place (R89). -/
def State.readErrors (s : State) (at_ : List (Loc × Nat)) (corrected : List Nat) (links : List (Nat × Bool)) : State :=
  let s := corrected.foldl (fun (s : State) o => match placeAt at_ o with
    | some l => s.correctedLoc l
    | none => s) s
  links.foldl (fun (s : State) x => match placeAt at_ x.1 with
    | some l => s.linkLoc l x.2
    | none => s) s

/-- What a read of core c's at a thread address brings from its places, of which `known` are the bytes of this device's memory: `take`
gets them, or an error of its storage, of a bulk link, or of the host stops the partition (R79, R89, R90). -/
def State.arrival (s : State) (p c addr : Nat) (at_ : List (Loc × Nat)) (known : List (Option Byte)) (how : Arrival)
    (take : State → List Byte → State) : State :=
  match s.damageIn at_ 0 with
  | some (o, l, n) => s.errorAt p c l n (addr + o) false
  | none => match how with
    | .uncorrectable o n link => match placeAt at_ o with
      | none => s
      | some l => if l.tier == .remote || (link && l.tier != .bulk) then s else s.errorAt p c l n.toNat (addr + o) link
    | .read cs ls => match wholeBytes known with
      | some b => take (s.readErrors at_ cs ls) b
      | none => s
    | .data d => match wholeBytes known with
      | some b => take s b
      | none =>
        if at_.all (fun x => x.1.tier != .remote) && d.length == known.length then
          take s ((List.range d.length).map fun k => ((known.getD k none).getD (d.getD k 0)))
        else s

/-- A line arrives from the place that its address was translated to, or its fetch faults or fails (R79, R90, R105, R158, R570). -/
def State.lineArrives (s : State) (c t : Nat) (how : Arrival) : State :=
  let x := s.th c t
  match x.fetching with
  | [] => s
  | f :: rest =>
    let p := s.corePart c
    let l := f.line
    let take (s : State) (b : List Byte) : State :=
      let wanted (l : Nat) : Bool := l == x.line || l == (x.line + 32) % 2 ^ 64
      let keep := x.buf.filter fun y => y.1 != l && wanted y.1
      let y : Thread := { x with buf := if wanted l then keep ++ [(l, b)] else keep, fetching := rest }
      (s.setTh c t y.resume).feed c t
    if x.pc % 4 != 0 then s.endProgram c t 0x0C
    else match f.fault, f.loc with
      | some e, _ => s.threadFault c t l e
      | none, none => s
      | none, some loc =>
        s.arrival p c l [(loc, 32)] ((f.bytes.map fun b => b.map some).getD (List.replicate 32 none)) how take

/-! ### Executing -/

/-- The thread waits for a register or for its next line (R105). -/
def State.stall (s : State) (c t : Nat) : State := s.modTh c t fun x => { x with st := .waitMem }

/-- A thread executes the instruction `w`: it is READY on a core that runs, `w` is its next instruction, and it is its turn (R106). It
waits while the line has not arrived or a register that the instruction needs is still being loaded; an illegal instruction ends the
program. -/
def State.instr (s : State) (c t w : Nat) (uses : List (Bool × Nat)) (g : Thread → State) : State :=
  let x := s.th c t
  if x.st != .ready || !s.coreRuns c then s
  else match x.word with
    | none => s.stall c t
    | some v =>
      if v != w then s
      else if legalWord w && x.pendingOn uses then s.stall c t
      else if s.nextReady c (t / 16) (issueUnit w) != some t then s
      else if !legalWord w then s.endProgram c t 0x0D
      else g x

/-- An instruction that writes a scalar register and goes on. -/
def State.scalar (s : State) (c t w d : Nat) (uses : List Nat) (f : Thread → Nat) : State :=
  s.instr c t w ((d :: uses).map fun r => (false, r)) fun x => s.goOn c t (x.setS d (f x))

/-- An instruction of the vector unit or of the special-function unit: it executes when the unit's choice falls on its thread's slot,
on the state after the choice; while the choice falls on another slot, nothing happens (R110). -/
def State.unitInstr (s : State) (c t w : Nat) (uses : List (Bool × Nat)) (g : State → Thread → State) : State :=
  s.instr c t w uses fun x =>
    match s.unitTurn c t (wordUnit w) with
    | some s' => g s' x
    | none => s

/-- An instruction of a unit that writes a vector register, raises flags and goes on. -/
def State.vector (s : State) (c t w d : Nat) (uses : List (Bool × Nat)) (f : Thread → VReg × Nat) : State :=
  s.unitInstr c t w ((true, d) :: uses) fun s x =>
    let r := f x
    s.goOn c t { x.setV d r.1 with fpflags := x.fpflags ||| r.2 }

/-- Lane by lane over two operands. -/
def lanes2 (ty : VType) (f : Nat → Nat → Nat × Nat) (a b : VReg) : VReg × Nat :=
  VType.pack ty.width ((List.range ty.lanes).map fun k => f (lane ty.width a k) (lane ty.width b k))
/-- Lane by lane over one operand. -/
def lanes1 (ty : VType) (f : Nat → Nat × Nat) (a : VReg) : VReg × Nat :=
  VType.pack ty.width ((List.range ty.lanes).map fun k => f (lane ty.width a k))

/-- A branch by a signed offset in instructions. -/
def State.branch (s : State) (c t w d a imm : Nat) (test : Nat → Nat → Bool) : State :=
  s.instr c t w [(false, d), (false, a)] fun x =>
    if test (x.s d) (x.s a) then s.goTo c t x (ux 64 (Int.ofNat x.pc + 4 * sx 16 imm)) else s.goOn c t x

/-- An address from a register and a signed immediate. -/
def Thread.address (x : Thread) (a imm : Nat) : Nat := ux 64 (Int.ofNat (x.s a) + sx 16 imm)

/-! ### Loads and stores (R158, R569) -/

/-- A load is issued; it does not block (R106). -/
def State.issueLoad (s : State) (c t : Nat) (x : Thread) (vec : Bool) (reg n align addr : Nat) : State :=
  let p := s.corePart c
  if addr % align != 0 then s.endProgram c t 0x0C
  else match s.load p (some c) addr n, s.resolve p (some c) addr false with
    | .error f, _ => s.threadFault c t f.2 f.1
    | .ok _, .error f => s.threadFault c t addr f
    | .ok _, .ok loc =>
      let l : Load :=
        { vec := vec, reg := reg, width := n, addr := addr, tier := loc.tier, bytes := s.localBytes c t addr n
          places := s.placesOf p (some c) addr n }
      let s := match loc with
        | .remote k o => s.remoteRead p k o n (.load c t)
        | _ => s
      (s.tlbUse c addr).goOn c t { x with loads := x.loads ++ [l] }

/-- Data arrives for load k of a thread from the place that its address was translated to, or the load fails (R79, R89, R90, R105). -/
def State.loadArrives (s : State) (c t k : Nat) (how : Arrival) : State :=
  let x := s.th c t
  match x.loads[k]? with
  | none => s
  | some l =>
    let p := s.corePart c
    let give (s : State) (b : List Byte) : State :=
      let y : Thread := { x with loads := x.loads.eraseIdx k }
      s.setTh c t (if l.vec then y.setV l.reg (BitVec.ofNat 2048 (ofBytes b)) else y.setS l.reg (ofBytes b)).resume
    s.arrival p c l.addr l.places l.bytes how give

/-- A store is issued; its writes are made or held, and it completes when its tier acknowledges it (R569). -/
def State.issueStore (s : State) (c t : Nat) (x : Thread) (align addr : Nat) (b : List Byte) : State :=
  let p := s.corePart c
  if addr % align != 0 then s.endProgram c t 0x0C
  else
    let tier := match s.resolveWrite p (some c) addr with
      | .ok loc => loc.tier
      | .error _ => Tier.stack
    match s.store p (some c) addr b (.thread c t) with
    | (s, some f) => s.threadFault c t f.2 f.1
    | (s, none) => (s.tlbUse c addr).goOn c t { x with stores := x.stores ++ [{ addr := addr, n := b.length, tier := tier }] }

/-- A tier acknowledges store k: its writes have been made, and a peer has answered (R569). -/
def State.storeAck (s : State) (c t k : Nat) : State :=
  let x := s.th c t
  match x.stores[k]? with
  | none => s
  | some y =>
    let held := s.heldWrites.any fun h => h.part == s.corePart c && h.who == .thread c t &&
      (h.off + 2 ^ 21 - y.addr % 2 ^ 21) % 2 ^ 21 < y.n
    let away := y.tier == .remote && s.canopy.reqs.any fun r => r.who == .store c t && (r.off + 2 ^ 40 - y.addr % 2 ^ 40) % 2 ^ 40 < y.n
    if held || away then s else s.setTh c t { x with stores := x.stores.eraseIdx k }

/-! ### Sync counters (R113 to R120, R148) -/

/-- A counter number out of range ends the program (R113). -/
def State.outOfRangeCtr (s : State) (c t : Nat) : State := (s.event (Pg.core c) Ev.CORE_SYNC_RANGE).endProgram c t 0x03

/-- A counter operation of a thread: F, the scalar registers it needs, and what to do with the device counter. -/
def State.syncOp (s : State) (c t d a b f : Nat) (uses : List Nat) (g : Thread → Nat → State) : State :=
  s.instr c t (encR 0x20 d a b f) (uses.map fun r => (false, r)) fun x =>
    let n := bits (x.s a) 0 13
    if s.ctrsPer ≤ n then s.outOfRangeCtr c t
    else g x (s.devCtr (s.corePart c) n)

/-- WAIT (R117, R118). -/
def State.waitOp (s : State) (c t : Nat) (x : Thread) (d b ctr : Nat) : State :=
  let s := s.countOp ctr
  let target := x.s b % 2 ^ 32
  if meets (s.value ctr) target then s.goOn c t (x.setS d 0)
  else
    s.goOn c t
      { x with st := .waitSync, wait := some { ctr := ctr, target := target, timeout := x.s d, reg := d, since := s.power.kclk } }

/-- A wait's timeout expires, reported once cycle T has ended (R105, R118). -/
def State.waitExpires (s : State) (c t : Nat) : State :=
  let x := s.th c t
  match x.wait with
  | some w =>
    if x.st == .waitSync && !inTime w.since w.timeout s.power.kclk then
      (s.setTh c t { x.setS w.reg 4 with st := .ready, wait := none, status := 4 }).event (Pg.core c) Ev.CORE_SYNC_TIMEOUT
    else s
  | none => s

/-- CLAIM_SET by a thread program (R120). -/
def State.claimSetOp (s : State) (c t : Nat) (x : Thread) (d first count : Nat) : State :=
  let base := s.devCtr (s.corePart c) first
  let old : ClaimSet := match x.claim with
    | some y => if y.first == first && y.count == count then y else { first := first, count := count, credit := [], gone := [] }
    | none => { first := first, count := count, credit := [], gone := [] }
  match claimSetLoop (fun s k => s.opClaim k) base (count + 1) s old with
  | (s, y, some (i, v)) => s.goOn c t ({ x with claim := some y }.setS d (i * 2 ^ 32 + v))
  | (s, _, none) => s.goOn c t ({ x with claim := none }.setS d exhausted)

/-! ### Posts and starts (R129, R155, R165, R166) -/

/-- A thread's post: the planner takes the forme, or refuses it and the thread waits. -/
def State.postOp (s : State) (c t : Nat) (x : Thread) (addr : Nat) : State :=
  let p := s.corePart c
  let j := plannerOf c (t / 16)
  if addr % 64 != 0 then s.endProgram c t 0x0C
  else if s.plannerShut j || s.plannerFull j then
    let s := if s.plannerShut j then s else s.refusePost j
    { (s.setTh c t { x with st := .waitPost, post := addr }).issued c t with
      refused := AMap.put j (AMap.getD j [] s.refused ++ [{ core := c, thread := some t }]) s.refused }
  else match s.load p (some c) addr 64 with
    | .error f => s.threadFault c t f.2 f.1
    | .ok b => (s.goOn c t x).takeForme j p (t / 16) b none (some c)

/-- Refused posts of a planner that still wait: those of threads in WAIT_POST, and those without a thread. -/
def State.refusedPosts (s : State) (j : Nat) : List RefusedPost :=
  (AMap.getD j [] s.refused).filter fun y => y.thread.all fun t => (s.th y.core t).st == .waitPost

/-- The first refused post of a planner is accepted once there is room (R166). A retry that finds none is no refusal (log entry
172). -/
def State.postRetry (s : State) (c t : Nat) : State :=
  let x := s.th c t
  let j := plannerOf c (t / 16)
  let waiting := s.refusedPosts j
  if x.st != .waitPost || (waiting.head?.all fun y => y.core != c || y.thread != some t) || s.plannerShut j || s.plannerFull j || !s.coreRuns c then s
  else { s with refused := AMap.put j waiting.tail s.refused }.postOp c t { x with st := .ready } x.post

/-- A start request of a thread to a slot of its own core (R105, R113, R155). -/
def State.startOp (s : State) (c t : Nat) (x : Thread) (d a b slot : Nat) : State :=
  let v := x.s d
  let n := bits v 0 13
  if bit v 13 && s.ctrsPer ≤ n then s.outOfRangeCtr c t
  else
    (s.goOn c t x).startReq c slot
      { pc := x.s a, args := (rangeFrom b 4).map x.s
        endCtr := if bit v 13 then some (s.devCtr (s.corePart c) n) else none, host := none, epi := none }

/-! ### Special registers (R157) -/

/-- The value of a special register. -/
def State.special (s : State) (c t : Nat) (x : Thread) (a : Nat) : Nat :=
  match a with
  | 0 => t
  | 1 => t / 16
  | 2 => c % s.coresPer
  | 3 => s.corePart c
  | 4 => (s.part (s.corePart c)).overlay.code
  | 5 => s.power.time
  | 6 => s.aclk - x.since
  | 7 => x.seed
  | 8 => x.fpflags
  | _ => x.rmode

/-- FPFLAGS or RMODE takes a value; the bits above the register's are ignored (log entry 38). -/
def Thread.setSpecial (x : Thread) (a v : Nat) : Thread :=
  if a == 8 then { x with fpflags := v % 32 } else { x with rmode := v % 4 }

end Sys2Proof.Machine
end

