-- ==== Sys2Proof/Machine/Tiles.lean ====
section
/-! DEFINITION. Tiles on a core: what a tile reads, its values, its epilogue, its outputs, its proof (R110, R119, R134 to R138, R160,
R207 to R211). -/

namespace Sys2Proof.Machine

/-- A tile that has not begun. -/
def Tile.unbegun (t : Tile) : Bool := t.phase == .claimed || t.phase == .staged

/-- A core working for a forme, as an accessor. -/
def Forme.tileAcc (x : Forme) (i core : Nat) : Acc := { part := x.part, core := some core, who := .forme i }

/-! ### What a tile reads (R134, R174, R222, R232, R317) -/

/-- Columns n0 to below n1 of the B operand, whole in K, of batch b: stored rows, scales and the metadata of a sparse operand
(R191, R192). -/
def Plan.bReads (p : Plan) (n0 n1 b : Nat) : List (Nat × Nat) :=
  let d := p.dB
  ((List.range (if d.sparse then 2 * ceilDiv p.kk 4 else p.kk)).flatMap fun r => d.rowRanges n0 n1 r b 0) ++
  (if d.scaled then (List.range p.kk).map fun k =>
    let a := d.scaleAddr n0 k b 0
    (a, d.scaleAddr (n1 - 1) k b 0 + 1 - a) else []) ++
  (if d.sparse then (List.range (ceilDiv p.kk 4)).map fun g =>
    ((d.zmapBase + (g + d.p 1 / 4 * b) * d.zmapStride + n0 / 2) % 2 ^ 64, ceilDiv n1 2 - n0 / 2) else [])

/-- Batch index, first row, end row, first column and end column of a product's tile, within the valid extents (R174). -/
def Plan.area (p : Plan) (i : Nat) : Nat × Nat × Nat × Nat × Nat :=
  let t := p.tileBlock i
  (t.1, t.2.1 * p.mt, min p.m (t.2.1 * p.mt + p.mt), t.2.2 * p.nt, min p.n (t.2.2 * p.nt + p.nt))

/-- Place of a product's element in its output: the offset of column 0, and the indices of dimensions 1 to 3 (R137, R222). -/
def Plan.place (p : Plan) (conv : Bool) (bt m : Nat) : Nat × Nat × Nat × Nat :=
  if conv then
    let ow := p.dC.v 1
    let oh := p.dC.v 2
    (bt * p.n, m % ow, m / ow % oh, m / (ow * oh))
  else (0, m, bt, 0)

/-- X is dense along columns: its positions follow one another line after line (R224). -/
def TDesc.dense (d : TDesc) : Bool := d.st 1 == d.linesOf (d.p 0)

/-- The least and the greatest of a list of naturals. -/
def extremes : List Nat → Option (Nat × Nat)
  | [] => none
  | x :: t => some (t.foldl min x, t.foldl max x)

/-- The run over input row y from the least to the greatest of the columns used, each counted from `pl` columns left of the input, clipped
to the padded extent, with every line of their positions (R224). -/
def TDesc.columnRun (d : TDesc) (pl : Nat) (xs : List Nat) (y img : Nat) : List (Nat × Nat) :=
  match extremes xs with
  | none => []
  | some (a, b) =>
    let a := a - pl
    let e := min (d.p 1) (b + 1 - pl)
    if e ≤ a then [] else [(d.addr 0 a y img, 32 * d.linesOf (d.p 0) * (e - a))]

/-- The lines read of the input row that tap row ky of output row oy meets: one run where X is dense along columns, and else one for each
position touched; none where the row lies outside the padded extent. The columns are counted from PAD_L left of the input. -/
def Window.rowRuns (w : Window) (d : TDesc) (xs : List Nat) (oy ky img : Nat) : List (Nat × Nat) :=
  let cy := oy * w.sh + ky * w.dh
  if !(w.pt ≤ cy && cy - w.pt < d.p 2) then []
  else if d.dense then d.columnRun w.pl xs (cy - w.pt) img
  else xs.eraseDups.flatMap fun x => if w.pl ≤ x then d.columnRun w.pl [x] (cy - w.pt) img else []

/-- Reads of the input of a CONV tile, rows m0 to below m1, chunk by chunk (R224). -/
def Plan.convReads (p : Plan) (m0 m1 : Nat) : List (Nat × Nat) :=
  let win := Window.parse p.block
  let d := p.dA
  let cg := d.v 0 / win.groups
  let ow := p.dC.v 1
  let oh := p.dC.v 2
  let kc := max 1 p.kc
  (List.range (ceilDiv p.kk kc)).flatMap fun j =>
    let t0 := kc * j / cg
    let taps := rangeFrom t0 ((min p.kk (kc * (j + 1)) - 1) / cg + 1 - t0)
    (rangeFrom (m0 / ow) ((m1 - 1) / ow + 1 - m0 / ow)).flatMap fun r =>
      let oxs := (rangeFrom m0 (m1 - m0)).filterMap fun m => if m / ow == r then some (m % ow) else none
      (taps.map fun t => t / win.kw).eraseDups.flatMap fun ky =>
        win.rowRuns d ((taps.filter fun t => t / win.kw == ky).flatMap fun t => oxs.map fun ox => ox * win.sw + t % win.kw * win.dw)
          (r % oh) ky (r / oh)

/-- Reads of a tile of MATMUL, GMATMUL or CONV. -/
def Plan.matReads (p : Plan) (conv accum : Bool) (i : Nat) : List (Nat × Nat) :=
  let t := p.area i
  let bt := t.1
  let ms := rangeFrom t.2.1 (t.2.2.1 - t.2.1)
  let n0 := t.2.2.2.1
  let n1 := t.2.2.2.2
  let a :=
    if conv then p.convReads t.2.1 t.2.2.1
    else p.dA.blockRanges 0 p.kk t.2.1 t.2.2.1 (if p.dA.p 2 == 1 then 0 else bt) 0
  a ++ p.bReads n0 n1 (if !conv && p.dB.p 2 == 1 then 0 else bt) ++
  (if accum then ms.flatMap fun m =>
    let o := p.place conv bt m
    p.dC.rowRanges (o.1 + n0) (o.1 + n1) o.2.1 o.2.2.1 o.2.2.2 else []) ++
  (if p.ext.bias == 0 then [] else p.dBias.rowRanges n0 n1 0 0 0) ++
  (if p.graftBytes.isEmpty then [] else p.dL.blockRanges 0 p.rank 0 p.kk 0 0 ++ p.dR.blockRanges n0 n1 0 p.rank 0 0)

/-- Reads of a POOL tile: window row by window row, one run each where X is dense along columns (R229). -/
def Plan.poolReads (p : Plan) (i : Nat) : List (Nat × Nat) :=
  let b := p.poolBlock i
  let d := p.d 0
  let win := Window.parse p.block
  let oxs := rangeFrom b.2.1 (min p.mt ((p.d 2).v 1 - b.2.1))
  (List.range win.kh).flatMap fun ky =>
    let xs := oxs.flatMap fun ox => (List.range win.kw).map fun kx => ox * win.sw + kx * win.dw
    if d.dense then win.rowRuns d xs b.2.2.1 ky b.2.2.2
    else
      let cy := b.2.2.1 * win.sh + ky * win.dh
      if !(win.pt ≤ cy && cy - win.pt < d.p 2) then []
      else (xs.eraseDups.filter fun x => win.pl ≤ x && x - win.pl < d.p 1).flatMap fun x =>
        d.rowRanges b.1 (min ((p.d 2).v 0) (b.1 + 64)) (x - win.pl) (cy - win.pt) b.2.2.2

/-- Reads of a CROP_RESIZE tile: the box, and each pixel that a sample takes (R232). -/
def State.cropReads (s : State) (w : Acc) (x : Forme) (p : Plan) (i : Nat) : List (Nat × Nat) :=
  let b := p.poolBlock i
  let d := p.d 0
  let a := (x.opd 1 + 32 * b.2.2.2) % 2 ^ 64
  let box := s.rdBytes w a 32
  let img := fieldAt box 0 4
  (a, 32) :: (if d.v 3 ≤ img then []
    else (rangeFrom b.2.1 (min 64 ((p.d 2).v 1 - b.2.1))).flatMap fun j =>
      (boxTaps (d.v 2) (d.v 1) (bit (fieldAt p.block 4 4) 0) (bit (fieldAt p.block 4 4) 1) ((p.d 2).v 2) ((p.d 2).v 1)
        box b.2.2.1 j).1.flatMap fun (c : Option (Nat × Nat)) =>
          match c with
          | some t => d.rowRanges 0 (d.p 0) t.2 t.1 img
          | none => [])

/-- Reads of a GATHER or SCATTER tile: the indices and the rows. -/
def State.gatherReads (s : State) (w : Acc) (x : Forme) (p : Plan) (i : Nat) : List (Nat × Nat) :=
  let dI := p.d 1
  (p.positions i).flatMap fun j =>
    let j0 := j % dI.v 0
    let j1 := j / dI.v 0
    dI.rowRanges j0 (j0 + 1) j1 0 0 ++
    (match s.resolveIndex w x p j with
     | some k => if x.opcode == 0x0D then (p.d 0).rowRanges 0 p.n j0 j1 0 else (p.d 0).rowRanges 0 p.n k 0 0
     | none => [])

/-- Rows of a row forme's tile. -/
def Plan.tileRows (p : Plan) (i : Nat) : List Nat := rangeFrom (i * p.mt) (min p.mt (p.m - i * p.mt))

/-- Reads of rows of a tensor. -/
def rowsReads (d : TDesc) (n : Nat) (rows : List Nat) : List (Nat × Nat) :=
  rows.flatMap fun r =>
    let i := rowIndex d r
    d.rowRanges 0 n i.1 i.2.1 i.2.2

/-- Reads of a NORM tile (R254). -/
def Plan.normReads (p : Plan) (x : Forme) (i : Nat) : List (Nat × Nat) :=
  let rows := p.tileRows i
  let n := p.n
  let bwd := bit x.variant 1
  rowsReads (p.d 0) n rows ++ (p.d 1).rowRanges 0 n 0 0 0 ++
  (if !bwd && !(bit x.variant 0) then (p.d 1).rowRanges 0 n 1 0 0 else []) ++
  (if bwd then rowsReads (p.d 3) 2 rows else []) ++
  (if bwd || bit x.variant 2 then rowsReads (p.d 4) n rows else []) ++
  (if bwd && fieldAt p.block 0x28 8 != 0 then rowsReads (p.d 5) n rows else [])

/-- Reads of a LOSS tile (R256). -/
def Plan.lossReads (p : Plan) (i : Nat) : List (Nat × Nat) :=
  let rows := p.tileRows i
  rowsReads (p.d 0) p.n rows ++ rows.flatMap fun r =>
    let t := linearIndex (p.d 1) r
    (p.d 1).rowRanges t.1 (t.1 + 1) t.2.1 t.2.2.1 t.2.2.2

/-- Rows and KV head of an ATTENTION tile (R317). -/
def Plan.attArea (p : Plan) (i : Nat) : List Nat × Nat :=
  let runs := p.runs
  let run := runs.getD (i % runs.length) (0, 0)
  (rangeFrom run.1 run.2, i / runs.length)

/-- Reads of an ATTENTION tile outside the pool. -/
def Plan.attReads (p : Plan) (x : Forme) (i : Nat) : List (Nat × Nat) :=
  let b := AttBlock.parse p.block
  let a := p.attArea i
  let q := b.hq / b.hkv * b.d
  let seg := (List.range p.m).filter fun r => a.1.any fun r' => (p.row r).2.1 == (p.row r').2.1
  let heads (d : TDesc) (rows : List Nat) : List (Nat × Nat) :=
    rows.flatMap fun r => d.rowRanges (a.2 * q) (a.2 * q + q) r 0 0
  (if b.rope == 0 then [] else [(b.rope, 16)]) ++
  (if bit x.variant 0 then heads (p.d 0) a.1
   else heads (p.d 0) (if bit x.variant 1 then seg else a.1) ++
     seg.flatMap fun r => (p.d 1).rowRanges (a.2 * b.d) (a.2 * b.d + b.d) r 0 0 ++
       (p.d 1).rowRanges ((b.hkv + a.2) * b.d) ((b.hkv + a.2) * b.d + b.d) r 0 0) ++
  (if bit x.variant 1 then heads (p.d 4) seg ++ heads (p.d 5) seg ++
     seg.flatMap fun r => (p.d 3).rowRanges (a.2 * (b.hq / b.hkv)) (a.2 * (b.hq / b.hkv) + b.hq / b.hkv) r 0 0 else [])

/-- The keys and values of the pool that a cache-mode ATTENTION tile reads (R312). -/
def State.cacheReads (s : State) (x : Forme) (p : Plan) (i : Nat) : List (Nat × Nat) :=
  let b := AttBlock.parse p.block
  let a := p.attArea i
  let n := b.d * (elemBits (s.kvFmt x.part) / 8)
  (a.1.filter fun r => !x.refusedRows.contains r).flatMap fun r =>
    let q := s.kvSeq x.part (p.row r).2.1
    (List.range ((p.row r).1 + 1)).flatMap fun pos =>
      match q.blockAt pos with
      | none => []
      | some blk =>
        [(s.kvVec x.part blk x.layer a.2 (pos % 64) false, n), (s.kvVec x.part blk x.layer a.2 (pos % 64) true, n)]

/-- A range of bytes as the whole lines that hold it: the tile fetch unit reads runs of lines (R219). -/
def wholeLines (x : Nat × Nat) : Nat × Nat := (x.1 / 32 * 32, if x.2 == 0 then 0 else ceilDiv (x.1 + x.2) 32 * 32 - x.1 / 32 * 32)

/-- The bytes that a tile needs, at thread addresses. -/
def State.tileNeeds (s : State) (w : Acc) (x : Forme) (p : Plan) (i : Nat) : List (Nat × Nat) :=
  match x.opcode with
  | 0x04 => p.poolReads i
  | 0x05 => s.cropReads w x p i
  | 0x06 => p.attReads x i
  | 0x07 => p.normReads x i
  | 0x08 => rowsReads (p.d 0) p.n (p.tileRows i) ++ (if bit x.variant 0 then rowsReads (p.d 1) p.n (p.tileRows i) else [])
  | 0x09 => p.lossReads i
  | 0x0C => s.gatherReads w x p i
  | 0x0D => s.gatherReads w x p i
  | op =>
    if op ≤ 0x03 then p.matReads (op == 0x03) (bit x.variant 0) i
    else
      let b := p.elemBlock i
      let d := p.d 0
      d.blockRanges b.1 (min (d.v 0) (b.1 + 64)) b.2.1 (min (d.v 1) (b.2.1 + 64)) b.2.2.1 b.2.2.2

/-- What a tile reads of the KV pool. -/
def State.kvPoolReads (s : State) (x : Forme) (p : Plan) (i : Nat) : List (Nat × Nat) :=
  if x.opcode == 0x06 && bit x.variant 0 then (s.cacheReads x p i).map wholeLines else []

/-- What a tile reads outside the KV pool: whole lines (R219). -/
def State.tileReads (s : State) (w : Acc) (x : Forme) (p : Plan) (i : Nat) : List (Nat × Nat) :=
  (s.tileNeeds w x p i).map wholeLines

/-- All that a tile reads through thread addresses. -/
def State.allReads (s : State) (w : Acc) (x : Forme) (p : Plan) (i : Nat) : List (Nat × Nat) :=
  s.tileReads w x p i ++ s.kvPoolReads x p i

/-- The first read of a tile that faults (R150); one of the pool where the pool may not lie (R303). -/
def State.tileReadFault (s : State) (w : Acc) (x : Forme) (p : Plan) (i : Nat) : Option (AccFault × Nat) :=
  match s.firstFault w (s.tileReads w x p i) false with
  | some f => some f
  | none => (s.kvPoolReads x p i).findSome? fun a => s.poolFault w a.1 a.2 false

/-! ### Values of a tile (R138, R145) -/

/-- The format that steps 2 to 5 work in. -/
def Plan.stepFmt (p : Plan) : FFmt := if p.mode == .chain64 then fp64 else fp32

/-- A product's tile after steps 1 to 4 of R138, row by row, and the flags that its chains raised (R201). -/
def State.matTile (s : State) (w : Acc) (x : Forme) (p : Plan) (i : Nat) : List Num × Nat :=
  let conv := x.opcode == 0x03
  let accum := bit x.variant 0
  let t := p.area i
  let n0 := t.2.2.2.1
  let l := (rangeFrom t.2.1 (t.2.2.1 - t.2.1)).flatMap fun m => (rangeFrom n0 (t.2.2.2.2 - n0)).map fun n =>
    let v := s.platenElem w p conv x.e4m3Nan t.1 m n
    let o := p.place conv t.1 m
    let c := if accum then s.elem w p.dC (o.1 + n) o.2.1 o.2.2.1 o.2.2.2 else .zero
    let b := if p.ext.bias == 0 then .zero else s.elem w p.dBias n 0 0 0
    (p.ext.steps p.stepFmt accum v.1 c b, v.2)
  (l.map fun v => v.1, l.foldl (fun f v => f ||| v.2) 0)

/-- Output runs of a product's tile. -/
def Plan.matRuns (p : Plan) (conv : Bool) (i : Nat) (out : List Num) : List OutRow :=
  let t := p.area i
  let n0 := t.2.2.2.1
  let cols := t.2.2.2.2 - n0
  (List.range (t.2.2.1 - t.2.1)).map fun r =>
    let o := p.place conv t.1 (t.2.1 + r)
    { d := p.dC, a0 := o.1 + n0, i1 := o.2.1, i2 := o.2.2.1, i3 := o.2.2.2, vals := (out.drop (r * cols)).take cols }

/-- First row, first column, rows and columns of a tile of an opcode that takes an epilogue, and of every platen tile. -/
def Plan.tileArea (p : Plan) (x : Forme) (i : Nat) : Nat × Nat × Nat × Nat :=
  if x.opcode ≤ 0x03 then
    let t := p.area i
    (t.2.1, t.2.2.2.1, t.2.2.1 - t.2.1, t.2.2.2.2 - t.2.2.2.1)
  else if x.opcode == 0x06 then
    let b := AttBlock.parse p.block
    let a := p.attArea i
    (a.1.headD 0, a.2 * (b.hq / b.hkv * b.d), a.1.length, b.hq / b.hkv * b.d)
  else
    let b := p.elemBlock i
    (b.2.1, b.1, min 64 ((p.d 0).v 1 - b.2.1), min 64 ((p.d 0).v 0 - b.1))

/-! ### Claims (R109, R119, R120, R148) -/

/-- The share of a core does not hold the forme's tiles (R148). -/
def State.declines (s : State) (x : Forme) (core : Nat) : Bool :=
  let share := s.shareOf core x.slot
  share == 0 || x.plans.any fun p => share < p.foot

/-- Keys and values of a forme's rows wait for their page; its tiles wait for them (R313). -/
def State.cacheWaits (s : State) (i : Nat) : Bool := s.heldWrites.any fun h => h.who == .forme i && h.core.isNone

/-- A core may claim a tile of forme i, the first of its slot's queue (R109, R119, R160). -/
def State.mayClaim (s : State) (i core : Nat) : Bool :=
  let x := s.forme i
  s.coreRuns core && x.st == .running && !x.ending && (AMap.getD x.slot [] (s.core core).queue).head? == some i &&
  !s.declines x core && !s.cacheWaits i &&
  s.tiles.all (fun (t : Tile) => t.core != core || t.slot != x.slot || !t.unbegun) &&
  (s.tiles.filter fun (t : Tile) => t.core == core && t.forme == i).length < 2 &&
  ((s.freeThread core x.slot).isSome || s.tiles.all fun (t : Tile) => t.core != core || t.forme != i || t.phase != .epilogueWait)

/-- The claim that a core makes: branch and tile number, or none for EXHAUSTED (R115, R120). -/
def State.claimTile (s : State) (i core : Nat) : State × Option (Nat × Nat) :=
  let x := s.forme i
  let base := s.devCtr x.part x.claimCtr
  if x.opcode == 0x02 then
    let old := AMap.getD core { first := x.claimCtr, count := x.branches, credit := [], gone := [] } x.claims
    let r := claimSetLoop (fun s k => s.claimRaw k) base (x.branches + 1) s old
    (r.1.modForme i fun x => { x with claims := AMap.put core r.2.1 x.claims }, r.2.2)
  else
    let r := s.claimRaw base
    (r.1, r.2.map fun t => (0, t))

/-- The next forme of a slot's queue takes the place of the first, which is the slot's forme boundary (R63, R119); without a next one
the boundary is passed when the slot is idle or takes one. -/
def State.popQueue (s : State) (core slot : Nat) : State :=
  let rest := (AMap.getD slot [] (s.core core).queue).tail
  let s := s.modCore core fun c => { c with queue := AMap.put slot rest c.queue }
  if rest.isEmpty then s else s.slotPasses core slot

/-- A range of bytes as requests of at most 128 lines (R414). -/
def requestRuns (x : Nat × Nat) : List (Nat × Nat) :=
  (List.range (ceilDiv x.2 4096)).map fun k => (x.1 + 4096 * k, min 4096 (x.2 - 4096 * k))

/-- The tile fetch unit asks the peers for what a claimed tile reads of them (R427); what the lines then hold is free (log entry 10). -/
def State.fetchRemote (s : State) (i core : Nat) (t : Tile) : State :=
  let x := s.forme i
  ((s.allReads (x.tileAcc i core) x (x.planOf t) t.index).flatMap requestRuns).foldl (fun (s : State) a =>
    match s.resolve x.part (some core) a.1 false with
    | .ok (.remote c off) => s.remoteRead x.part c off a.2 (.operand i core t.code)
    | _ => s) s

/-- The peers have answered for the operands of a tile (R427). -/
def State.remoteHere (s : State) (i core : Nat) (t : Tile) : Bool :=
  s.canopy.reqs.all fun r => r.who != .operand i core t.code

/-- A claim returns (R119): the tile is the core's, and its operands are fetched. -/
def State.claimReturn (s : State) (i core : Nat) : State :=
  if !s.mayClaim i core then s
  else
    let x := s.forme i
    match s.claimTile i core with
    | (s, some (b, t)) =>
      let t : Tile := { forme := i, core := core, slot := x.slot, branch := b, index := t, phase := .claimed }
      { s with tiles := s.tiles ++ [t] }.fetchRemote i core t
    | (s, none) => s.popQueue core x.slot

/-- The phase of a tile that has all its chunks: its epilogue, where one is named, or its end (R138, R160). -/
def Forme.computed (x : Forme) (p : Plan) : TilePhase :=
  if p.ext.epilogue != 0 && x.opcode != 0x0B then .epilogueWait else .executing

/-- A chunk of a tile is staged: the first makes a claimed tile ready to begin, and the last completes what the platen computes (R119,
R224). The tiles that have begun go on when their forme ends by a fault (R150). -/
def State.chunkStaged (s : State) (core i : Nat) (corrected : List (BitVec 48)) : State :=
  let x := s.forme i
  let got (s : State) : State := s.correctedFor (s.corePart core) corrected
  let mine (t : Tile) : Bool := t.core == core && t.forme == i && t.chunks < (x.planOf t).chunkCount x && s.remoteHere i core t
  match s.tiles.find? fun t => mine t && t.phase == .executing with
  | some t => (got s).modTile core i t.code fun t =>
      { t with chunks := t.chunks + 1
               phase := if t.chunks + 1 == (x.planOf t).chunkCount x then x.computed (x.planOf t) else t.phase }
  | none =>
    match s.tiles.find? fun t => mine t && t.phase == .claimed && !x.ending with
    | some t => (got s).modTile core i t.code fun t => { t with phase := .staged, chunks := 1 }
    | none => s

/-! ### A tile begins (R110, R119, R207) -/

/-- The platen is at a tile boundary: what it executes has all its chunks (R119), and no proof makes it wait (R208). -/
def State.platenFree (s : State) (c : Nat) : Bool :=
  s.tiles.all fun (t : Tile) => t.core != c || (t.proof.isNone && (t.phase != .executing ||
    ((s.forme t.forme).planOf t).chunkCount (s.forme t.forme) ≤ t.chunks))

/-- Flags that chains raise stick in CORE_PLATEN_FLAGS (R201, R214, R215). -/
def State.raiseFlags (s : State) (c fl : Nat) : State :=
  let a := Pg.core c * 4096 + 0x420
  let old := s.reg a
  let s := s.raise a fl
  let s := if bit fl 0 && !bit old 0 then s.event (Pg.core c) Ev.CORE_PLATEN_INVALID else s
  if bit fl 2 && !bit old 2 then s.event (Pg.core c) Ev.CORE_PLATEN_OVERFLOW else s

/-- A core's proof under the present settings (R208, R214). -/
def State.proofNow (s : State) (c : Nat) : Proof :=
  let pg := Pg.core c
  { num := s.f pg F.CORE_PROOFS, tol := s.f pg F.CORE_TOL_LOG2, ring := s.f2 pg F.CORE_RING_LO F.CORE_RING_HI / 4096 * 4096 }

/-- The proofing count of a core as a tile begins on its platen: the proof, if the tile is proofed (R207, R208). -/
def State.proofCount (s : State) (c : Nat) : State × Option Proof :=
  let x := s.core c
  let rate := s.f (Pg.core c) F.CORE_RATE
  let n := x.sinceProof + 1
  if x.proofDue || (rate != 0 && rate ≤ n) then
    (s.modCore c fun x => { x with sinceProof := 0, lastProof := s.power.time, issuedSince := true, proofDue := false },
     some (s.proofNow c))
  else (s.modCore c fun x => { x with sinceProof := n, issuedSince := true }, none)

/-- A core runs a tile of forme i, or declines them (R148, R163). -/
def State.takesPart (s : State) (i c : Nat) : State :=
  s.modForme i fun x => { x with took := if x.took.contains c then x.took else x.took ++ [c] }

/-- A tile begins. -/
def State.beginTile (s : State) (t : Tile) : State :=
  let i := t.forme
  let c := t.core
  let x := s.forme i
  let p := x.planOf t
  let w := x.tileAcc i c
  let s := if x.startTime == 0 then s.modForme i fun x => { x with startTime := s.power.time } else s
  let bad := s.tileReadFault w x p t.index
  let s := (s.allReads w x p t.index).foldl (fun (s : State) a => (s.tlbUse c a.1).tlbUse c (a.1 + a.2 - 1)) s
  let v : List Num × Nat :=
    if x.opcode ≤ 0x03 then s.matTile w x p t.index
    else if x.opcode == 0x0A || x.opcode == 0x0B then ((s.elemTile w p t.index).flatten, 0) else ([], 0)
  let s := if v.2 == 0 then s else s.raiseFlags c v.2
  let r := if tileUnit x.opcode == 0 then s.proofCount c else (s, none)
  let s := (r.1.takesPart i c).modTile c i t.code fun t =>
    { t with
      phase := if p.chunkCount x ≤ t.chunks then x.computed p else .executing
      out := v.1
      cols := (p.tileArea x t.index).2.2.2
      proof := r.2 }
  match bad with
  | some f => s.tileFault i c f.1 f.2
  | none => s

/-- The platen of a core issues now (R22). -/
def State.platenIssues (s : State) (c : Nat) : State := s.modCore c fun x => { x with lastIssue := s.aclk }

/-- A choice point of a unit of a core: the tile of the slot it picks begins. Where the pick's work is an instruction of a thread, it is
that instruction that executes (`State.unitTurn`). -/
def State.pickTile (s : State) (c unit : Nat) : State :=
  if !s.mayIssue c || (unit == 1 && s.proofing c) then s
  else
    match s.arbPick c unit ((List.range 4).filter fun k => s.unitReady c unit k) with
    | none => s
    | some (k, s') =>
      match s'.readyTile c unit k with
      | some t => (if unit == 0 then s'.platenIssues c else s').beginTile t
      | none => s

/-- A tile begins on a unit of a core that runs; a platen that has been idle restarts under the ramp (R22), and begins its tile where
the core may issue (R20). -/
def State.tileBegin (s : State) (c unit : Nat) : State :=
  if !s.coreRuns c then s
  else if unit != 0 then s.pickTile c unit
  else if !s.platenFree c || (List.range 4).all fun k => !s.unitReady c 0 k then s
  else (s.idleRestart c).pickTile c 0

/-! ### Epilogues (R160) -/

/-- Pitch in bytes of a tile that an epilogue works on, and the size of its elements. -/
def Plan.epiPitch (p : Plan) (x : Forme) : Nat × Nat :=
  let e := if x.opcode ≤ 0x03 then (if p.mode == .chain64 then 8 else 4) else if (p.d 0).fmt == 0x09 then 8 else 4
  (r256 (p.nt * e), e)

/-- Galley offset where a slot's share begins (R102). -/
def State.shareBase (s : State) (c slot : Nat) : Nat :=
  65536 * ((clampShares (s.galleyUsed c)).take slot).foldl (· + ·) 0

/-- Bytes of the galley that a tile takes while its epilogue works on it. -/
def State.epiSize (s : State) (t : Tile) : Nat :=
  let x := s.forme t.forme
  ((x.planOf t).epiPitch x).1 * (x.planOf t).mt

/-- The place of n bytes for a tile that waits for its epilogue: the lowest of the slot's share that overlaps no tile of the slot whose
epilogue works or has worked on it (log entry 15). -/
def State.epiPlace (s : State) (c slot n : Nat) : Option Nat :=
  let base := s.shareBase c slot
  let used := (s.tiles.filter fun (t : Tile) => t.core == c && t.slot == slot && (t.phase == .epilogue || t.phase == .epilogueDone)).map
    fun t => (t.galley, t.galley + s.epiSize t)
  let clear (o : Nat) : Bool := o + n ≤ base + s.shareOf c slot && used.all fun u => u.2 ≤ o || o + n ≤ u.1
  (base :: (used.map fun u => u.2)).foldl (fun (r : Option Nat) o =>
    if clear o && r.all fun q => o < q then some o else r) none

/-- The epilogue of the oldest waiting tile of forme i on a core starts on a FREE thread of the slot. -/
def State.epilogueStart (s : State) (c i : Nat) : State :=
  let x := s.forme i
  match s.tiles.find? fun (t : Tile) => t.core == c && t.forme == i && t.phase == .epilogueWait with
  | none => s
  | some t =>
    let p := x.planOf t
    if !s.coreRuns c || (s.freeThread c t.slot).isNone || t.proof.isSome then s
    else match s.epiPlace c t.slot (s.epiSize t) with
    | none => s
    | some off =>
      let a := p.tileArea x t.index
      let pe := p.epiPitch x
      let f := if pe.2 == 8 then fp64 else fp32
      let rows := a.2.2.1
      let s := (List.range rows).foldl (fun (s : State) r =>
        s.poke (galleyKey c ((off + r * pe.1) % 2 ^ 20)) (((t.out.drop (r * t.cols)).take t.cols).flatMap fun v =>
          toBytes pe.2 (f.near v))) s
      let s := s.modTile c i t.code fun t => { t with phase := .epilogue, galley := off }
      s.startReq c t.slot
        { pc := p.ext.epilogue
          args := [2 ^ 60 + off, a.1 + a.2.1 * 2 ^ 32,
            rows + a.2.2.2 * 2 ^ 16 + pe.1 * 2 ^ 32 + (if pe.2 == 8 then 0x09 else 0x08) * 2 ^ 48, p.ext.epiArg]
          endCtr := none, host := none, epi := some (i, t.code), seed := p.ext.seed }

/-- The values of a tile after its epilogue. -/
def State.epiValues (s : State) (x : Forme) (p : Plan) (t : Tile) : List Num :=
  let a := p.tileArea x t.index
  let pe := p.epiPitch x
  let f := if pe.2 == 8 then fp64 else fp32
  (List.range a.2.2.1).flatMap fun r => (List.range t.cols).map fun k =>
    f.decode (ofBytes (s.bytes (galleyKey t.core ((t.galley + r * pe.1 + k * pe.2) % 2 ^ 20)) pe.2))

/-! ### A tile ends (R119, R134, R136, R150) -/

/-- Write runs of a tile and the zero maps of their outputs. -/
def State.writeRuns (s : State) (i core seed : Nat) (l : List OutRow) : State × Option ScatterStop :=
  match s.writeOuts i core seed l with
  | (s, some f) => (s, some (.fault f.1 f.2))
  | (s, none) =>
    let r := s.writeZmap i ((s.forme i).tileAcc i core) (l.flatMap fun o =>
      { d := o.d, a0 := o.a0, i1 := o.i1, i2 := o.i2, i3 := o.i3, codes := o.vals.map fun _ => 0 : CodeRow }.blocks)
    (r.1, r.2.map fun f => .fault f.1 f.2)

/-- Count boxes or targets out of range in DETAIL (R232, R256). -/
def State.countOor (s : State) (i n : Nat) : State := s.modForme i fun x => { x with oor := x.oor + n }

/-- Blocks that the rows of a GATHER or SCATTER tile have touched; those of ACCUM follow their updates. -/
def State.movedBlocks (s : State) (w : Acc) (x : Forme) (p : Plan) (i : Nat) : List Nat :=
  let row (i1 i2 : Nat) : List Nat := { d := p.d 2, a0 := 0, i1 := i1, i2 := i2, codes := List.replicate p.n 0 : CodeRow }.blocks
  (p.positions i).flatMap fun j =>
    if x.opcode == 0x0C then row (j % (p.d 1).v 0) (j / (p.d 1).v 0)
    else if bit x.variant 1 then []
    else match s.resolveIndex w x p j with
      | some k => row k 0
      | none => []

/-- Compute, where that is left to do, and write a tile. -/
def State.writeTile (s : State) (t : Tile) : State × Option ScatterStop :=
  let i := t.forme
  let x := s.forme i
  let p := x.planOf t
  let w := x.tileAcc i t.core
  let maps (r : State × Option ScatterStop) : State × Option ScatterStop :=
    match r with
    | (s, some e) => (s, some e)
    | (s, none) =>
      let r := s.writeZmap i w (s.movedBlocks w x p t.index)
      (r.1, r.2.map fun f => .fault f.1 f.2)
  let out := if t.phase == .epilogueDone then s.epiValues x p t else t.out
  match x.opcode with
  | 0x04 => s.writeRuns i t.core 0 (s.poolRuns w x p t.index)
  | 0x05 =>
    let r := s.cropRuns w x p t.index
    (s.countOor i (b2n r.2)).writeRuns i t.core 0 r.1
  | 0x06 => s.writeRuns i t.core 0 (s.attRuns w x p t.index)
  | 0x07 => s.writeRuns i t.core 0 ((p.tileRows t.index).flatMap fun r => s.normRow w x p r)
  | 0x08 => s.writeRuns i t.core 0 ((p.tileRows t.index).flatMap fun r => s.softmaxRuns w x p r)
  | 0x09 =>
    let l := (p.tileRows t.index).map fun r => s.lossRuns w x p r
    (s.countOor i (l.filter fun r => r.2).length).writeRuns i t.core 0 (l.flatMap fun r => r.1)
  | 0x0C =>
    let r := s.gatherTile i t.core p t.index
    maps (r.1, r.2.map fun f => .fault f.1 f.2)
  | 0x0D => maps (s.scatterTile i t.core p t.index)
  | op =>
    if op ≤ 0x03 then s.writeRuns i t.core p.ext.seed (p.matRuns (op == 0x03) t.index out)
    else s.writeRuns i t.core p.ext.seed
      (p.elemRuns t.index ((List.range (p.tileArea x t.index).2.2.1).map fun r => (out.drop (r * t.cols)).take t.cols))

/-- The oldest tile of forme i on a core that can end: computed, proofed, and through its epilogue. -/
def State.endingTile (s : State) (c i : Nat) : Option Tile :=
  let x := s.forme i
  s.tiles.find? fun (t : Tile) => t.core == c && t.forme == i && t.proof.isNone && (x.planOf t).chunkCount x ≤ t.chunks &&
    (t.phase == .executing || t.phase == .epilogueDone)

/-- A tile of forme i on a core ends: its outputs are written (R119); a fault of its own write ends the forme (R150), and so does
a destination outside stack and bulk (R237). -/
def State.tileEnd (s : State) (c i : Nat) : State :=
  match s.endingTile c i with
  | none => s
  | some t =>
    let drop (s : State) : State :=
      { s with tiles := s.tiles.filter fun (y : Tile) => !(y.forme == i && y.core == c && y.code == t.code) }
    match s.writeTile t with
    | (s, some (.fault f a)) => drop (s.tileFault i c f a)
    | (s, some .tier) => drop (s.formeFault i 0x20 c)
    | (s, none) =>
      let s := (drop s).incF (Pg.core c) F.CORE_TILES
      s.modForme i fun x => { x with tilesDone := x.tilesDone + 1, doneTiles := x.doneTiles ++ [t.code] }

/-- A tile's access faults (R150): the forme has a begun tile on the core, and the access does fault. -/
def State.tileAccessFault (s : State) (i c addr : Nat) (write : Bool) : State :=
  let x := s.forme i
  if s.tiles.any fun (t : Tile) => t.core == c && t.forme == i && !t.unbegun then
    match s.firstFault (x.tileAcc i c) [(addr, 1)] write with
    | some f => (if write then s.arenaWrite x.part f.2 (.forme i) else s).tileFault i c f.1 f.2
    | none => s
  else s

/-! ### A core's end of a forme (R148) -/

/-- A core reports its end of a forme, or declines it. -/
def State.reportEnd (s : State) (i c : Nat) : State :=
  let x := s.forme i
  let q := AMap.getD x.slot [] (s.core c).queue
  let begun := s.tiles.any fun (t : Tile) => t.forme == i && t.core == c && !t.unbegun
  let mine := s.tiles.any fun (t : Tile) => t.forme == i && t.core == c
  let done (s : State) : State :=
    let s := { s with tiles := s.tiles.filter fun (t : Tile) => !(t.forme == i && t.core == c) }
    (s.modForme i fun x => { x with cores := x.cores.filter fun k => k != c, reported := x.reported ++ [c] }).tryEnd i
  if x.st != .running || !opTiled x.opcode || !x.cores.contains c || x.posts.contains c then s
  else if !q.contains i then (if mine && !(x.ending && !begun) then s else done s)
  else if begun then s
  else if x.ending then
    let s := s.modCore c fun k => { k with queue := AMap.put x.slot (q.filter fun j => j != i) k.queue }
    done (if q.head? == some i && 1 < q.length then s.slotPasses c x.slot else s)
  else if q.head? == some i && !mine && s.declines x c then
    let s := s.popQueue c x.slot
    done ((s.takesPart i c).modForme i fun x => { x with status := if x.status == 0 then 0x01 else x.status })
  else s

/-! ### Proofing (R207 to R211, R509) -/

/-- The management core marks a core suspect (R509): cause 0 a chain mode, 1 a short mode. -/
def State.markSuspect (s : State) (c cause : Nat) : State :=
  let fd := F.DIR_SUSPECT.sh (4 * (c / 32))
  let v := s.f Pg.dir fd
  if s.f Pg.dir F.DIR_LOCKSTEP == 1 || bit v (c % 32) then s
  else ((s.raise (Pg.dir * 4096 + fd.off) (2 ^ (c % 32))).history 0x09 [c, cause]).event Pg.dir Ev.DIR_CORE_SUSPECT

/-- Write a proof record to the ring at `base`, or drop it (R210). -/
def State.proofRecord (s : State) (c base : Nat) (b : List Byte) : State :=
  let pg := Pg.core c
  let w := s.f pg F.CORE_WRITTEN
  let drop (s : State) : State := (s.satF pg F.CORE_DROPPED).event pg Ev.CORE_PROOF_DROPPED
  if base == 0 || 128 ≤ (w + 65536 - s.f pg F.CORE_ACKED) % 65536 then drop s
  else match s.storeRec (s.corePart c) c none ((base + 32 * (w % 128)) % 2 ^ 64) b with
    | (s, none) => s.incF pg F.CORE_WRITTEN
    | (s, some _) => drop s

/-- The mode of a platen tile. -/
def State.tileMode (s : State) (x : Forme) (p : Plan) : Mode :=
  if x.opcode == 0x06 then
    (if elemBits (s.attKappa x p) == 8 then .short8 else .short16)
  else p.mode

/-- A proof found a mismatch at row m and column n (R210, R211, R261, R509). -/
def State.proofMismatch (s : State) (c ring : Nat) (x : Forme) (p : Plan) (row col : Nat) (v : Nat × Nat × Nat) : State :=
  let pg := Pg.core c
  let mode := s.tileMode x p
  let s := (s.satF pg F.CORE_MISMATCHES).event pg Ev.CORE_PROOF_MISMATCH
  let s := if s.f pg F.CORE_LAST_VALID == 1 then s
    else ((s.setF pg F.CORE_LAST_LAYER x.layer).setF pg F.CORE_LAST_MODE mode.code).raiseF pg F.CORE_LAST_VALID
  let s := if (s.part x.part).overlay == .train && x.layer < s.layers x.part then
      s.modLayer x.part x.layer (entryField 160 32 fun n => satAdd 32 n 1) else s
  let graft := if x.opcode ≤ 0x03 && !p.graftBytes.isEmpty then fieldAt p.graftBytes 0x14 2 else 0
  let body := if mode == .chain64 then toBytes 8 v.1 ++ toBytes 8 v.2.1
    else toBytes 4 v.1 ++ toBytes 4 v.2.2 ++ toBytes 4 v.2.1 ++ toBytes 4 (s.power.time % 2 ^ 32)
  let s := s.proofRecord c ring (toBytes 4 (mode.code + x.layer * 2 ^ 16) ++
    toBytes 4 (graft + c % s.coresPer * 2 ^ 16 + x.slot * 2 ^ 24) ++ toBytes 4 row ++ toBytes 4 col ++ body)
  if mode == .chain32 || mode == .chain64 then s.markSuspect c 0
  else { s with integ := { s.integ with shortCount := AMap.put c (AMap.getD c 0 s.integ.shortCount + 1) s.integ.shortCount } }

/-- Row, and columns from a first one, that proof number q samples of a tile (R208). -/
def proofSample (q rows cols : Nat) : Nat × Nat × Nat :=
  let g := 64 * (q / max 1 rows % max 1 (ceilDiv cols 64))
  (q % max 1 rows, g, min 64 (cols - g))

/-- The check of column k of a proof's sample (R209): for a mismatch, the column's number and p, r and m. `upset` gives codes that the
platen brings in place of its result, by sampled column; without it the platen's result is the rule's. An output element of an
ATTENTION tile is checked by its platen sums, and an upset is of the last of them (log entry 40). -/
def State.proofCheck (s : State) (c : Nat) (t : Tile) (pr : Proof) (upset : List (Nat × Nat)) (k : Nat) : Option (Nat × Nat × Nat × Nat) :=
  let x := s.forme t.forme
  let p := x.planOf t
  let w := x.tileAcc t.forme c
  let a := p.tileArea x t.index
  let sm := proofSample pr.num a.2.2.1 a.2.2.2
  let m := a.1 + sm.1
  let n := a.2.1 + sm.2.1 + k
  let bad := AMap.get? (sm.2.1 + k) upset
  let found (r : Nat × Nat × Nat × Bool) : Option (Nat × Nat × Nat × Nat) := if r.2.2.2 then none else some (n, r.1, r.2.1, r.2.2.1)
  if x.opcode ≤ 0x03 then
    let conv := x.opcode == 0x03
    let bt := (p.area t.index).1
    let fm := if p.mode == .chain64 then fp64 else fp32
    let v := match bad with
      | some e => fm.decode e
      | none => (s.platenElem w p conv x.e4m3Nan bt m n).1
    found (s.proofElem w p conv x.e4m3Nan bt m n pr.tol v)
  else
    let sums := s.attSums w x p m n
    ((List.range sums.length).map fun j =>
      let l := sums.getD j []
      let v := match bad with
        | some e => if j + 1 == sums.length then e else platenSum (s.tileMode x p) l
        | none => platenSum (s.tileMode x p) l
      found (shortProof pr.tol v (proofReference l .zero []))).findSome? id

/-- A proof of the tile of forme i that is proofed on a core ends, once the tile has all its chunks (R208 to R210). -/
def State.proofComplete (s : State) (c i : Nat) (upset : List (Nat × Nat)) : State :=
  let x := s.forme i
  match s.tiles.find? fun (t : Tile) => t.core == c && t.forme == i && t.proof.isSome with
  | none => s
  | some t =>
    match t.proof with
    | none => s
    | some pr =>
      let p := x.planOf t
      if t.chunks < p.chunkCount x then s
      else
        let a := p.tileArea x t.index
        let sm := proofSample pr.num a.2.2.1 a.2.2.2
        let bt := if x.opcode ≤ 0x03 then (p.area t.index).1 else 0
        let done := (s.modTile c i t.code fun t => { t with proof := none }).incF (Pg.core c) F.CORE_PROOFS
        match (List.range sm.2.2).findSome? (s.proofCheck c t pr upset) with
        | none => done
        | some (n, v) => done.proofMismatch c pr.ring x p (a.1 + sm.1 + p.m * bt) n v

/-- The time rule of R207. -/
def State.proofTime (s : State) (c : Nat) : State :=
  let x := s.core c
  if s.active (s.corePart c) && x.issuedSince && x.lastProof + 20000000 ≤ s.power.time then
    s.modCore c fun x => { x with proofDue := true }
  else s

/-! ### Posts and updates -/

/-- A planner's post of forme i reaches a core (R108). -/
def State.postArrives (s : State) (i c : Nat) : State :=
  let x := s.forme i
  let q := AMap.getD x.slot [] (s.core c).queue
  let first := s.formes.all fun f => i ≤ f.1 || f.2.planner != x.planner || !f.2.posts.contains c
  if !x.posts.contains c || !first || 32 ≤ q.length then s
  else
    let s := if q.isEmpty then s.slotPasses c x.slot else s
    let s := s.modCore c fun k => { k with queue := AMap.put x.slot (q ++ [i]) k.queue }
    (s.modForme i fun x => { x with posts := x.posts.filter fun k => k != c }).incF (Pg.core c) F.CORE_POSTED

/-- A reducer performs the update at an index of those that wait (R236); updates of one line go in ascending source position
under ORDERED. An update waits while writes to its page wait (R251, R483). The zero map of the destination follows (R136). -/
def State.reducerUpdate (s : State) (index : Nat) : State :=
  match s.reducers[index]? with
  | none => s
  | some u =>
    let lower := s.reducers.any fun v => v.forme == u.forme && v.addr == u.addr && v.j < u.j
    -- under ORDERED no claimed or running tile of the forme may still bring an earlier position
    let x := s.forme u.forme
    let pending := (List.range x.tilesTotal).any fun n => n < u.j / 64 && !x.doneTiles.contains (8 * n) && !x.ending
    if (u.ordered && (lower || pending)) || s.writeHeld u.part u.place.2 then s
    else
      let row : CodeRow := { d := (x.plans.getD 0 {}).d 2, a0 := u.col, i1 := u.row, codes := s.updateCodes u }
      let s := { s with reducers := s.reducers.eraseIdx index }.performUpdate u
      let s := if !row.d.zmap then s
        else ((s.modForme u.forme fun x => { x with zeros := row.mark x.zeros }).writeZmap u.forme
          { part := u.part, core := none, who := .forme u.forme } row.blocks).1
      s.tryEnd u.forme

end Sys2Proof.Machine
end

