-- ==== Sys2Proof/Machine/Formes.lean ====
section
/-! DEFINITION. The meanings of the commands of formes and tiles: rows NOP to PROOF_COMPLETE, REDUCER_UPDATE and ARENA_SPILL_DONE. A
forme row is a thread's POST of that forme, from a core and a slot, reaching its planner (R129, R146, R165). -/

namespace Sys2Proof.Machine

/-- OPCODE and VARIANT of a forme's 64 bytes (R129). -/
def opOf (b : BitVec 512) : Nat := bits b.toNat 0 8
def varOf (b : BitVec 512) : Nat := bits b.toNat 8 8

/-- A post reaches its planner: refused where the queue is full, and held to be retried in its turn (R166), else taken and checked
(R146, R147). -/
def State.postForme (s : State) (c : Fin 256) (slot : Fin 4) (b : BitVec 512) (is : Bool) : State :=
  let p := s.corePart c
  let j := plannerOf c slot
  if !is || !s.active p || s.plannerShut j then s
  else if s.plannerFull j then
    let s := s.refusePost j
    let y : RefusedPost := { core := c, thread := none, slot := slot, bytes := toBytes 64 b.toNat }
    { s with refused := AMap.put j (AMap.getD j [] s.refused ++ [y]) s.refused }
  else s.takeForme j p slot (toBytes 64 b.toNat) none (some c)

/-- The first refused post of a planner is one without a thread, and there is room for it (R166). -/
def State.retryPost (s : State) (j : Nat) : State :=
  match s.refusedPosts j with
  | y :: rest =>
    let p := s.corePart y.core
    if y.thread.isSome || !s.active p || s.plannerShut j || s.plannerFull j then s
    else { s with refused := AMap.put j rest s.refused }.takeForme j p y.slot y.bytes none (some y.core)
  | [] => s

/-- R130. -/
def execNop (c : Fin 256) (slot : Fin 4) (b : BitVec 512) (s : State) : Out :=
  .next (s.postForme c slot b (opOf b == 0x00))
/-- R137, R138. -/
def execMatmul (c : Fin 256) (slot : Fin 4) (b : BitVec 512) (s : State) : Out :=
  .next (s.postForme c slot b (opOf b == 0x01))
/-- R144, R175. -/
def execGmatmul (c : Fin 256) (slot : Fin 4) (b : BitVec 512) (s : State) : Out :=
  .next (s.postForme c slot b (opOf b == 0x02))
/-- R220 to R225. -/
def execConv (c : Fin 256) (slot : Fin 4) (b : BitVec 512) (s : State) : Out :=
  .next (s.postForme c slot b (opOf b == 0x03))
/-- R227. -/
def execPoolMax (c : Fin 256) (slot : Fin 4) (b : BitVec 512) (s : State) : Out :=
  .next (s.postForme c slot b (opOf b == 0x04 && !bit (varOf b) 0))
/-- R228. -/
def execPoolAvg (c : Fin 256) (slot : Fin 4) (b : BitVec 512) (s : State) : Out :=
  .next (s.postForme c slot b (opOf b == 0x04 && bit (varOf b) 0))
/-- R230 to R232. -/
def execCropResize (c : Fin 256) (slot : Fin 4) (b : BitVec 512) (s : State) : Out :=
  .next (s.postForme c slot b (opOf b == 0x05))
/-- R310 to R315. -/
def execAttentionForward (c : Fin 256) (slot : Fin 4) (b : BitVec 512) (s : State) : Out :=
  .next (s.postForme c slot b (opOf b == 0x06 && !bit (varOf b) 1))
/-- R316. -/
def execAttentionBackward (c : Fin 256) (slot : Fin 4) (b : BitVec 512) (s : State) : Out :=
  .next (s.postForme c slot b (opOf b == 0x06 && bit (varOf b) 1))
/-- R254. -/
def execNormForward (c : Fin 256) (slot : Fin 4) (b : BitVec 512) (s : State) : Out :=
  .next (s.postForme c slot b (opOf b == 0x07 && !bit (varOf b) 1))
/-- R254. -/
def execNormBackward (c : Fin 256) (slot : Fin 4) (b : BitVec 512) (s : State) : Out :=
  .next (s.postForme c slot b (opOf b == 0x07 && bit (varOf b) 1))
/-- R255. -/
def execSoftmaxForward (c : Fin 256) (slot : Fin 4) (b : BitVec 512) (s : State) : Out :=
  .next (s.postForme c slot b (opOf b == 0x08 && !bit (varOf b) 0))
/-- R255. -/
def execSoftmaxBackward (c : Fin 256) (slot : Fin 4) (b : BitVec 512) (s : State) : Out :=
  .next (s.postForme c slot b (opOf b == 0x08 && bit (varOf b) 0))
/-- R256. -/
def execLoss (c : Fin 256) (slot : Fin 4) (b : BitVec 512) (s : State) : Out :=
  .next (s.postForme c slot b (opOf b == 0x09))
/-- R145. -/
def execElementwise (c : Fin 256) (slot : Fin 4) (b : BitVec 512) (s : State) : Out :=
  .next (s.postForme c slot b (opOf b == 0x0A))
/-- R145. -/
def execCopy (c : Fin 256) (slot : Fin 4) (b : BitVec 512) (s : State) : Out :=
  .next (s.postForme c slot b (opOf b == 0x0B))
/-- R233, R234. -/
def execGather (c : Fin 256) (slot : Fin 4) (b : BitVec 512) (s : State) : Out :=
  .next (s.postForme c slot b (opOf b == 0x0C))
/-- R235 to R237. -/
def execScatter (c : Fin 256) (slot : Fin 4) (b : BitVec 512) (s : State) : Out :=
  .next (s.postForme c slot b (opOf b == 0x0D))
/-- R437. -/
def execAllReduce (c : Fin 256) (slot : Fin 4) (b : BitVec 512) (s : State) : Out :=
  .next (s.postForme c slot b (opOf b == 0x10 && bits (varOf b) 0 3 == 0))
/-- R437. -/
def execReduceScatter (c : Fin 256) (slot : Fin 4) (b : BitVec 512) (s : State) : Out :=
  .next (s.postForme c slot b (opOf b == 0x10 && bits (varOf b) 0 3 == 1))
/-- R437. -/
def execAllGather (c : Fin 256) (slot : Fin 4) (b : BitVec 512) (s : State) : Out :=
  .next (s.postForme c slot b (opOf b == 0x10 && bits (varOf b) 0 3 == 2))
/-- R437. -/
def execBroadcast (c : Fin 256) (slot : Fin 4) (b : BitVec 512) (s : State) : Out :=
  .next (s.postForme c slot b (opOf b == 0x10 && bits (varOf b) 0 3 == 3))
/-- R437. -/
def execBarrier (c : Fin 256) (slot : Fin 4) (b : BitVec 512) (s : State) : Out :=
  .next (s.postForme c slot b (opOf b == 0x10 && bits (varOf b) 0 3 == 4))
/-- R350. -/
def execReshard (c : Fin 256) (slot : Fin 4) (b : BitVec 512) (s : State) : Out :=
  .next (s.postForme c slot b (opOf b == 0x11))
/-- R271. -/
def execUpdate (c : Fin 256) (slot : Fin 4) (b : BitVec 512) (s : State) : Out :=
  .next (s.postForme c slot b (opOf b == 0x12))
/-- R147. -/
def execBadOpcode (c : Fin 256) (slot : Fin 4) (b : BitVec 512) (s : State) : Out :=
  .next (s.postForme c slot b (!opListed (opOf b)))

/-! ### The life of a forme (R146) -/

def execFormeWaitMet (i : Nat) (s : State) : Out := .next (s.waitIsMet i)
def execFormeCountersFree (i : Nat) (s : State) : Out := .next (s.countersFree i)
def execFormePlanned (i : Nat) (s : State) : Out := .next (s.formePlanned i)
/-- R108. -/
def execFormePostArrive (i : Nat) (core : Fin 256) (s : State) : Out := .next (s.postArrives i core)
/-- R119, R120. -/
def execClaimReturn (i : Nat) (core : Fin 256) (s : State) : Out := .next (s.claimReturn i core)
/-- R119, R224. -/
def execChunkStaged (core : Fin 256) (i : Nat) (corrected : List (BitVec 48)) (s : State) : Out :=
  .next (s.chunkStaged core i corrected)
/-- R110, R119. -/
def execTileBegin (core : Fin 256) (unit : Fin 2) (s : State) : Out := .next (s.tileBegin core unit)
/-- R119. -/
def execTileEnd (core : Fin 256) (i : Nat) (s : State) : Out := .next (s.tileEnd core i)
/-- R160. -/
def execEpilogueStart (core : Fin 256) (i : Nat) (s : State) : Out := .next (s.epilogueStart core i)
/-- R148. -/
def execCoreReportEnd (i : Nat) (core : Fin 256) (s : State) : Out := .next (s.reportEnd i core)
/-- R150. -/
def execTileFault (i : Nat) (core : Fin 256) (addr : Dword) (write : Bool) (s : State) : Out :=
  .next (s.tileAccessFault i core addr.toNat write)
/-- R207. -/
def execProofTimeTrigger (core : Fin 256) (s : State) : Out := .next (s.proofTime core)
/-- R208 to R211. -/
def execProofComplete (core : Fin 256) (i : Nat) (upset : List (Nat × Dword)) (s : State) : Out :=
  .next (s.proofComplete core i (upset.map fun u => (u.1, u.2.toNat)))
/-- R236. -/
def execReducerUpdate (index : Nat) (s : State) : Out := .next (s.reducerUpdate index)
/-- R251. -/
def execArenaSpillDone (p : Fin 8) (s : State) : Out := .next (s.spillDone p).endFormes

end Sys2Proof.Machine
end

