-- ==== Sys2Proof/Machine/Train.lean ====
section
/-! DEFINITION. The meanings of the commands of the update engine: rows CAMB_BLOCK_ARRIVE to NORM_ALLREDUCE_DONE and
UPDATE_TIMEOUT (R275 to R292). -/

namespace Sys2Proof.Machine

/-- The oldest block of the gradient stream on its way to a unit. -/
def State.streamNext (s : State) (unit : Nat) : Option (Nat × GradBlock) :=
  (s.stream.mapIdx fun i b => (i, b)).find? fun x => s.blockUnit x.2 == unit

/-- A block reaches a unit's intake, which has a free slot (R276 to R278). -/
def State.blockComes (s : State) (unit : Nat) : State :=
  match s.streamNext unit with
  | none => s
  | some (i, b) =>
    if 512 ≤ (s.camb b.part).held unit then s
    else { s with stream := s.stream.eraseIdx i }.blockArrives b

/-- The last write of a unit's oldest applied block without a waiting write is accepted: its slot is free (R278); after the step's last
block the commit begins (R291). -/
def State.blockWritten (s : State) (unit : Nat) : State :=
  let p := s.unitPart unit
  match (s.camb p).intake.findIdx? fun x => x.1 == unit && x.2.applied && !s.blockHeld unit x.2 with
  | none => s
  | some i =>
    let s := (s.modCamb p fun c => { c with intake := c.intake.eraseIdx i }).showIntake p unit
    if s.commitReady p then s.beginCommit p else s

/-- The scalar all-reduce of a partition's norm that has its result (R291). -/
def State.normResult (s : State) (p : Nat) : Option (Coll × Nat) :=
  s.canopy.colls.findSome? fun c =>
    if c.part == p && c.scalar && c.purpose == 0 then c.result.map fun v => (c, v) else none

/-- n² is known: the commit goes through (R291). -/
def State.normDone (s : State) (p : Nat) : State :=
  match s.normResult p with
  | none => s
  | some (c, v) => (s.endColl c 0).commit p v

/-- The armed update has waited too long for its blocks (R275). -/
def State.updateExpires (s : State) (p : Nat) : State :=
  match (s.camb p).upd with
  | none => s
  | some u => if !u.full && u.since + u.timeout ≤ s.power.time then s.abortUpdate p else s

def execCambBlockArrive (unit : Fin 16) (s : State) : Out := .next (s.blockComes unit)
/-- R280 to R287. -/
def execCambBlockApply (unit : Fin 16) (s : State) : Out := .next (s.applyNext unit)
def execCambBlockWritten (unit : Fin 16) (s : State) : Out := .next (s.blockWritten unit)
def execNormAllreduceDone (p : Fin 8) (s : State) : Out := .next (s.normDone p)
def execUpdateTimeout (p : Fin 8) (s : State) : Out := .next (s.updateExpires p)

end Sys2Proof.Machine
end

