-- ==== Sys2Proof/Machine/Generate.lean ====
section
/-! DEFINITION. The table engine's work on formes, and the meanings of the commands of generation: rows ADMIT to RING_IRQ_DELAY (R318 to
R341). Each entry row serves the next entry of the partition's table engine if it is that operation. -/

namespace Sys2Proof.Machine

/-! ### Formes of the table engine (R318) -/

/-- A forme whose entries have been served ends when its copies are done (R334, R335). -/
def State.kvFinish (s : State) (p i : Nat) : State :=
  let k := s.kv p
  if k.queue.contains (.entries i) || k.copies.any (fun c => c.forme == i) then s
  else match AMap.get? i s.formes with
    | some x => s.finishForme i x.entryStatus
    | none => s

/-- The front of the engine's queue is done with. -/
def State.kvPop (s : State) (p : Nat) : State :=
  s.modKv p fun k => { k with queue := k.queue.tail, served := 0, advWaits := false }

/-- An access of the engine for its front forme faults: the record, and the forme ends with the fault's status (R150). -/
def State.kvFault (s : State) (p i : Nat) (f : AccFault) (a : Nat) : State :=
  let s := (s.faultRecord p (kvUnit p) a f).modKv p fun k =>
    { k with
      queue := k.queue.filter fun j => j != .entries i
      served := 0
      advWaits := false
      copies := k.copies.map fun c => if c.forme == i then { c with forme := 2 ^ 64 } else c }
  s.finishForme i f.status

/-- Entries of a forme: COUNT of the list's header. -/
def State.kvCountOf (s : State) (p : Nat) (x : Forme) : Except KvErr Nat :=
  if x.kvAuto then .ok 1 else (s.kvRead p (x.opd 0) 4).map ofBytes

/-- Entry n of a forme's list. -/
def State.kvEntry (s : State) (p : Nat) (x : Forme) (n : Nat) : Except KvErr (List Byte) :=
  if x.kvAuto then .ok [] else s.kvRead p ((x.opd 0 + 32 + x.kvSize * n) % 2 ^ 64) x.kvSize

/-- One refill of every account (R340). -/
def State.refillAll (s : State) (p : Nat) : State :=
  s.modKv p fun k => { k with accounts := k.accounts.map fun a => (a.1, a.2.refill) }

/-- The READ of the table window is performed (R344). -/
def State.peekNow (s : State) (p table i : Nat) : State :=
  let pg := Pg.kv p
  let b := s.kvPeek p table i
  ((s.setRegs (pg * 4096 + 0x100) (wordsOf (fit 128 (b.getD [])))).setF pg F.KV_BAD (b2n b.isNone)).setF pg F.KV_BUSY 0

/-- The front of the engine's queue, where that is not an entry that a command serves: a forme all of whose entries have been served
goes; rows are validated, accounts refilled, and the table window read, each as one entry (R301). -/
def State.kvFront (s : State) (p : Nat) : State :=
  match (s.kv p).queue with
  | [] => s
  | .rows i :: _ => (s.kvPop p).rowsReach i
  | .refill :: _ => (s.kvPop p).refillAll p
  | .peek t n :: _ => (s.kvPop p).peekNow p t n
  | .entries i :: _ =>
    match s.kvCountOf p (s.forme i) with
    | .ok n => if n ≤ (s.kv p).served then (s.kvPop p).kvFinish p i else s
    | .error (.fault f a) => s.kvFault p i f a
    | .error _ => s

/-- The engine goes on until an entry that a command serves is at its front; in a STOPPED partition it performs nothing (R301). -/
def State.kvSettle (s : State) (p : Nat) : State :=
  if (s.part p).st == .stopped then s else (List.range (s.kv p).queue.length).foldl (fun s _ => s.kvFront p) s

/-- The sequence that an entry names, for the result of one that fails. -/
def kvNamed (x : Forme) (b : List Byte) : Nat :=
  if (x.opcode == 0x18 && bits x.variant 0 2 ≥ 2) || (x.opcode == 0x19 && !x.kvAuto) then bits (fieldAt b 0 4) 0 12
  else if x.opcode == 0x1A && bits (fieldAt b 0 4) 0 2 == 1 then bits (fieldAt b 4 4) 0 12 else 0

/-- Write the result of the front forme's entry and go on to the next (R318). -/
def State.kvResult (s : State) (p i : Nat) (status w1 w2 w3 : Nat) : State :=
  let x := s.forme i
  let n := (s.kv p).served
  match s.kvWrite p ((x.opd 2 + 16 * n) % 2 ^ 64) (toBytes 4 status ++ toBytes 4 w1 ++ toBytes 4 w2 ++ toBytes 4 w3) with
  | .error (.fault f a) => s.kvFault p i f a
  | .error _ => s
  | .ok s =>
    let s := if status == kvStale then s.incF (Pg.kv p) F.KV_STALE else s
    let s := if status == 0 then s
      else s.modForme i fun x =>
        { x with
          entryStatus := if x.entryStatus == 0 then status else x.entryStatus
          entryBad := x.entryBad + 1 }
    (s.modKv p fun k => { k with served := n + 1 }).kvSettle p

/-- What an operation answers becomes the entry's result; an entry that fails changes nothing but its mark, and one on which the
partition stops has no result (R90). -/
def State.kvAnswer (s : State) (p i : Nat) (b : List Byte) (r : KvRes) : State :=
  let n := kvNamed (s.forme i) b
  match r with
  | .ok (s, w1, w2, w3) => if s.hostStops.contains p then s else s.kvResult p i 0 w1 w2 w3
  | .error (.code c) => s.kvResult p i c n 0 0
  | .error (.after c s) => s.kvResult p i c n 0 0
  | .error (.fault f a) => s.kvFault p i f a

/-- Serve the next entry of a partition's table engine if `is` tells that it is the command's operation. -/
def State.kvServe (s : State) (p : Nat) (is : Forme → List Byte → Bool) (act : State → Nat → List Byte → State) : State :=
  let s := s.kvSettle p
  match (s.kv p).queue with
  | .entries i :: _ =>
    if (s.kv p).advWaits || !s.active p then s
    else
      let s := s.kvArm p
      match s.kvEntry p (s.forme i) (s.kv p).served with
      | .error (.fault f a) => s.kvFault p i f a
      | .error _ => s
      | .ok b => if is (s.forme i) b then act s i b else s
  | _ => s

/-- An operation of DECODE_REQ or KV_SWAP, by VARIANT. -/
def kvVariant (op v : Nat) (x : Forme) (_ : List Byte) : Bool := x.opcode == op && bits x.variant 0 2 == v

/-- An operation of PREFIX or BUDGET, by the entry's OP. -/
def kvOp (op v : Nat) (x : Forme) (b : List Byte) : Bool := x.opcode == op && bits (fieldAt b 0 4) 0 2 == v

/-- ADMIT; one that finds too few blocks sets KV_NO_BLOCKS (R319, R320, R345). -/
def State.admitNext (s : State) (p : Nat) : State :=
  s.kvServe p (kvVariant 0x18 0) fun s i b =>
    let r := s.admitEntry p b
    let s := match r with
      | .error (.code c) => if c == kvNoBlocks then s.event (Pg.kv p) Ev.KV_KV_NO_BLOCKS else s
      | _ => s
    s.kvAnswer p i b r

/-- SCHEDULE, after the batch boundary (R302, R320). -/
def State.scheduleNext (s : State) (p : Nat) : State :=
  s.kvServe p (kvVariant 0x18 1) fun s i b =>
    let s := s.batchBoundary p
    s.kvAnswer p i b (s.scheduleEntry p b)

/-- ADVANCE, or its wait for BUSY (R322). -/
def State.advanceNext (s : State) (p : Nat) : State :=
  s.kvServe p (kvVariant 0x18 2) fun s i b =>
    let q := s.kvSeq p (bits (fieldAt b 0 4) 0 12)
    if q.st == 1 && q.inBatch && q.busy != 0 then s.modKv p fun k => { k with advWaits := true }
    else s.kvAnswer p i b (s.advanceEntry p b)

/-- A waiting ADVANCE goes on once BUSY is 0. -/
def State.advanceAgain (s : State) (p : Nat) : State :=
  if (s.kv p).advWaits then (s.modKv p fun k => { k with advWaits := false }).advanceNext p else s

/-! ### Swap copies (R334, R335) -/

/-- A fault of the host or in storage, which stops the partition (R90). -/
def AccFault.stops : AccFault → Bool
  | .host _ | .damaged _ _ => true
  | _ => false

/-- The copies of a sequence's blocks: for each list entry that is copied its number and the block. -/
def State.copyJobs (s : State) (p : Nat) (q : KvSeq) (out : Bool) : List (Nat × Nat) :=
  (List.range q.list.length).filterMap fun j =>
    let e := q.list.getD j 0
    let b := bits e 0 20
    if bit e 31 == out || (out && ((s.kv p).block b).refs != 1) then none else some (j, b)

/-- The first read of a sequence's copies that fails so that the partition stops (R335). -/
def State.copyStops (s : State) (p : Nat) (q : KvSeq) (out : Bool) : Option (AccFault × Nat) :=
  (s.copyJobs p q out).findSome? fun j =>
    match s.firstFault (kvAcc p) [(if out then s.kvBlock p j.2 else q.swap + j.1 * s.kvS p, s.kvS p)] false with
    | some f => if f.1.stops then some f else none
    | none => none

/-- Copy one block of a sequence to its swap area or back. A pool page in HOST or REMOTE faults (R303); of a fault the record is written,
and a copy with a fault at either end moves no data (R75; log entry 185). -/
def State.copyOne (s : State) (p : Nat) (q : KvSeq) (out : Bool) (j b : Nat) : State :=
  let n := s.kvS p
  let pool := s.kvBlock p b
  let area := q.swap + j * n
  match (if out then s.poolFault (kvAcc p) pool n false
      else (s.firstFault (kvAcc p) [(area, n)] false).or (s.poolFault (kvAcc p) pool n true)) with
  | some f => s.faultRecord p (kvUnit p) f.2 f.1
  | none =>
    (s.storeRec p (kvUnit p) none (if out then area else pool) (s.rdBytes (kvAcc p) (if out then pool else area) n)).1

/-- A copy of a sequence is over: it acts as the RELEASE that waits for it (R323), or its entry is written (R308). -/
def State.endCopy (s : State) (p n : Nat) (c : KvCopy) (counter : Fld) (kind st : Nat) : State :=
  let s := s.modKv p fun k => { k with copies := k.copies.filter fun d => !(d.seq == n && d.out == c.out) }
  let s := if (s.kvSeq p n).cancel then s.releaseSeq p n 0x80
    else
      let s := (s.modSeq p n fun q => { q with st := st }).incF (Pg.kv p) counter
      s.ringWrite p n [s.ringEvent p n kind 0]
  s.kvFinish p c.forme

/-- The swap-out copies of a sequence have been accepted (R334). -/
def State.swapOutDone (s : State) (p n : Nat) : State :=
  match (s.kv p).copies.find? fun c => c.seq == n && c.out with
  | none => s
  | some c =>
    let q := s.kvSeq p n
    match s.copyStops p q true with
    | some f => s.faultRecord p (kvUnit p) f.2 f.1
    | none =>
      let s := (s.copyJobs p q true).foldl (fun (s : State) j =>
        ((s.copyOne p q true j.1 j.2).modKv p fun k => k.decRef j.2).modSeq p n fun q => { q with list := q.list.set j.1 (2 ^ 31) }) s
      s.endCopy p n c F.KV_PREEMPTED 2 3

/-- The reads of a resume are complete (R335); one that fails stops the partition, and nothing else happens (R90). -/
def State.swapInDone (s : State) (p n : Nat) : State :=
  match (s.kv p).copies.find? fun c => c.seq == n && !c.out with
  | none => s
  | some c =>
    let q := s.kvSeq p n
    match s.copyStops p q false with
    | some f => s.faultRecord p (kvUnit p) f.2 f.1
    | none =>
      let s := (s.copyJobs p q false).foldl (fun (s : State) j =>
        (s.copyOne p q false j.1 j.2).modSeq p n fun q => { q with list := q.list.set j.1 j.2 }) s
      s.endCopy p n c F.KV_RESUMED 3 1

/-! ### Time (R338, R340) -/

/-- A refill tick of a partition in GENERATE reaches its table engine (R301, R340). -/
def State.refillTick (s : State) (p : Nat) : State :=
  if s.active p && (s.part p).overlay == .generate then
    (s.modKv p fun k => { k with queue := k.queue ++ [.refill] }).kvSettle p
  else s

/-- The oldest unsignalled ring entry of a vector has reached DELAY_US. -/
def State.ringDelay (s : State) (p vec : Nat) : State :=
  match AMap.get? vec (s.kv p).rings with
  | none => s
  | some r =>
    if r.1 != 0 && r.2 + 1000 * max 1 (s.f (Pg.kv p) F.KV_DELAY_US) ≤ s.power.time then
      s.interrupt (p + 1) vec
    else s

/-! ### Commands -/

/-- R319. -/
def execAdmit (p : Fin 8) (s : State) : Out := .next (s.admitNext p)
/-- R320. -/
def execSchedule (p : Fin 8) (s : State) : Out := .next (s.scheduleNext p)
/-- R322. -/
def execAdvance (p : Fin 8) (s : State) : Out := .next (s.advanceNext p)
/-- R322. -/
def execAdvanceResume (p : Fin 8) (s : State) : Out := .next (s.advanceAgain p)
/-- R323. -/
def execRelease (p : Fin 8) (s : State) : Out :=
  .next (s.kvServe p (kvVariant 0x18 3) fun s i b => s.kvAnswer p i b (s.releaseEntry p b))
/-- R333. -/
def execOutAuto (p : Fin 8) (s : State) : Out :=
  .next (s.kvServe p (kvVariant 0x19 0) fun s i b => s.kvAnswer p i b (s.outAuto p i))
/-- R335. -/
def execInAuto (p : Fin 8) (s : State) : Out :=
  .next (s.kvServe p (kvVariant 0x19 1) fun s i b => s.kvAnswer p i b (s.inAuto p i))
/-- R334. -/
def execOutSeq (p : Fin 8) (s : State) : Out :=
  .next (s.kvServe p (kvVariant 0x19 2) fun s i b => s.kvAnswer p i b (s.outSeqEntry p i b))
/-- R335. -/
def execInSeq (p : Fin 8) (s : State) : Out :=
  .next (s.kvServe p (kvVariant 0x19 3) fun s i b => s.kvAnswer p i b (s.inSeqEntry p i b))
/-- R334. -/
def execSwapOutDone (p : Fin 8) (seq : BitVec 12) (s : State) : Out := .next (s.swapOutDone p seq.toNat)
/-- R335. -/
def execSwapInDone (p : Fin 8) (seq : BitVec 12) (s : State) : Out := .next (s.swapInDone p seq.toNat)
/-- R330. -/
def execPrefixLookup (p : Fin 8) (s : State) : Out :=
  .next (s.kvServe p (kvOp 0x1A 0) fun s i b => s.kvAnswer p i b (s.prefixEntry p 0 b))
/-- R330. -/
def execHandleOf (p : Fin 8) (s : State) : Out :=
  .next (s.kvServe p (kvOp 0x1A 1) fun s i b => s.kvAnswer p i b (s.prefixEntry p 1 b))
/-- R330. -/
def execEvict (p : Fin 8) (s : State) : Out :=
  .next (s.kvServe p (kvOp 0x1A 2) fun s i b => s.kvAnswer p i b (s.prefixEntry p 2 b))
/-- R330. -/
def execTrim (p : Fin 8) (s : State) : Out :=
  .next (s.kvServe p (kvOp 0x1A 3) fun s i b => s.kvAnswer p i b (s.prefixEntry p 3 b))
/-- R341. -/
def execBudgetSet (p : Fin 8) (s : State) : Out :=
  .next (s.kvServe p (kvOp 0x1B 0) fun s i b => s.kvAnswer p i b (s.budgetEntry p 0 b))
/-- R341. -/
def execBudgetAdd (p : Fin 8) (s : State) : Out :=
  .next (s.kvServe p (kvOp 0x1B 1) fun s i b => s.kvAnswer p i b (s.budgetEntry p 1 b))
/-- R341; an entry of the reserved OP 3 is served here too and fails (log entry 41). -/
def execBudgetRead (p : Fin 8) (s : State) : Out :=
  .next (s.kvServe p (fun x b => kvOp 0x1B 2 x b || kvOp 0x1B 3 x b) fun s i b =>
    s.kvAnswer p i b (s.budgetEntry p (bits (fieldAt b 0 4) 0 2) b))
/-- R340. -/
def execBudgetRefillTick (p : Fin 8) (s : State) : Out := .next (s.refillTick p)
/-- R338. -/
def execRingIrqDelay (p : Fin 8) (vec : BitVec 8) (s : State) : Out := .next (s.ringDelay p vec.toNat)

end Sys2Proof.Machine
end

