-- ==== Sys2Proof/Machine/Coppice.lean ====
section
/-! DEFINITION. The meanings of the commands of mode switches and reshard plans: rows DRAIN_COMPLETE to PLAN_TIMEOUT (R351 to R361). -/

namespace Sys2Proof.Machine

/-- Every member of a plan's group has entered the barrier: the moves begin (R351). -/
def State.barrierDone (s : State) (p : Nat) : State :=
  let c := s.canopy.colls.find? fun c => c.part == p && c.scalar && c.purpose == 1 && c.result.isSome
  match c with
  | none => s
  | some c =>
    let s := s.endColl c 0
    if (s.sw p).st == 2 then (s.modSw p fun x => { x with st := 3 }).planPump p else s

/-- TIMEOUT_MS has passed since BARRIER was entered (R361). -/
def State.planExpires (s : State) (p : Nat) : State :=
  let x := s.sw p
  match x.plan with
  | some y => if (x.st == 2 || x.st == 3) && y.since + y.limit ≤ s.power.time then s.endPlan p 0x42 else s
  | none => s

/-- R351 to R353. -/
def execDrainComplete (p : Fin 8) (s : State) : Out := .next (if s.drained p then s.crossBoundary p else s)
def execPlanBarrierComplete (p : Fin 8) (s : State) : Out := .next (s.barrierDone p)
/-- R358. -/
def execPlanComplete (p : Fin 8) (s : State) : Out := .next (if s.planDone p then s.endPlan p 0 else s)
def execPlanTimeout (p : Fin 8) (s : State) : Out := .next (s.planExpires p)

end Sys2Proof.Machine
end

