-- ==== Sys2Proof/Machine/Intake.lean ====
section
/-! DEFINITION. The meanings of the commands of media intake: rows INTAKE_JOB_TAKE to BATCH_SLOT_FREED (R373 to R402). -/

namespace Sys2Proof.Machine

/-! ### Applications of the INTK pages (R62, R402) -/

/-- An application of INTK 0: a partition with an active job keeps its INTK_PART values. -/
def State.applyIntake (s : State) : State :=
  let pg := Pg.intk 0
  let s := (List.range 8).foldl (fun (s : State) p =>
    if (s.intk p).jobs.isEmpty then s
    else
      let lo := pg * 4096 + 0x100 + 0x40 * p
      { s with shadow := s.shadow.filter fun x => !(lo ≤ x.1 && x.1 < lo + 0x40) }.event pg Ev.INTK0_CONFIG_REFUSED) s
  s.latch pg

/-- An INTK page applies if it is asked to and is at its boundary: no active job at all, or an engine between two units. -/
def State.applyIntkIdle (s : State) (e : Nat) : State :=
  let idle := if e == 0 then s.intks.all fun x => x.2.jobs.isEmpty else (AMap.get? e s.engines).isNone
  if s.requested (Pg.intk e) && idle then (if e == 0 then s.applyIntake else s.latch (Pg.intk e)) else s

/-! ### Taking a job (R373 to R378) -/

/-- The next job of a partition's queue may be taken. -/
def State.jobReady (s : State) (p : Nat) : Bool :=
  let n := (s.intk p).taken
  let c := s.ip p F.INTK0_DOOR_CTR
  s.active p && (s.part p).overlay != .service && s.ip p F.INTK0_EN == 1 && (s.intk p).jobs.length < 8 &&
  !s.ctrlHalted (8 + s.dieOf p) && c < s.ctrsPer &&
  0 < sx 32 ((s.value (s.devCtr p c) + 2 ^ 32 - n % 2 ^ 32) % 2 ^ 32)

/-- The order's sort leaves 8 bytes per sample in SCRATCH, whose form the spec does not give (log entry 9). -/
def State.writeScratch (s : State) (w : Acc) (a n : Nat) : Wr :=
  let k := s.opens
  { s with opens := k + n }.wr w a ((List.range n).flatMap fun i => toBytes 8 (Config.open (k + i)))

/-- A job and its blocks as the intake reads them. -/
def State.readJob (s : State) (p n : Nat) (desc : List Byte) : Except PlanErr IntkJob := do
  let w := intkAcc p 0
  let limits ← s.readBlock w (fieldAt desc 0x10 8) 32 1
  let post ← s.readBlock w (fieldAt desc 0x18 8) 64 1
  let raw ← s.readBlock w (fieldAt desc 0x20 8) 64 32
  -- reserved bits of the OUT descriptor (R131)
  want (bits (fieldAt raw 8 4) 6 2 == 0 && bits (fieldAt raw 8 4) 21 11 == 0 && fieldAt raw 0xC 4 == 0 && fieldAt raw 0x3C 4 == 0)
  let out ← s.readDesc w (fieldAt desc 0x20 8)
  let x : IntkJob := { num := n, desc := desc, limits := limits, post := post, out := out }
  want (s.jobOk x)
  pure x

/-- Take the next job (R373, R375, R378). -/
def State.takeJob (s : State) (p : Nat) : State :=
  let n := (s.intk p).taken
  let base := (s.ip p F.INTK0_QUEUE_LO + 2 ^ 32 * s.ip p F.INTK0_QUEUE_HI) / 128 * 128
  let lg := max 4 (min 12 (s.ip p F.INTK0_LOG2))
  let w := intkAcc p 0
  let got := s.rd? w ((base + 128 * (n % 2 ^ lg)) % 2 ^ 64) 128
  let c := s.ip p F.INTK0_TAKEN_CTR
  let s := s.modIntk p fun x => { x with taken := x.taken + 1 }
  let s := if c < s.ctrsPer then s.opAdd (s.devCtr p c) 1 else s
  match got with
  | .error f => s.jobAccess p n 0 f
  | .ok desc =>
    -- the job is active while its blocks are read, so that a fault finds its tag
    let blank : IntkJob := { num := n, desc := desc, limits := [], post := [], out := {} }
    let s := s.modIntk p fun x => { x with jobs := x.jobs ++ [blank] }
    match s.readJob p n desc with
    | .error e => match e.fault with
      | some f => s.jobAccess p n 0 f
      | none => s.jobFault p n e.status
    | .ok x =>
      if x.ordered then
        let x := { x with order := epochOrder (fieldAt desc 0x48 8) (fieldAt desc 0x50 4) x.samples }
        let r := (s.modJob p n fun _ => x).writeScratch w (fieldAt desc 0x58 8) x.samples
        match r.2 with
        | some f => r.1.jobAccess p n 0 f
        | none => r.1.beginSample p n
      else (s.modJob p n fun _ => x).beginSample p n

/-! ### Streams (R377, R380, R384, R386) -/

/-- The sample's data cannot be read: it is rejected and recorded (R384). -/
def State.sampleFault (s : State) (p j n e : Nat) (f : AccFault × Nat) : State :=
  (s.faultRecord p (0x200 + e) f.2 f.1).rejectSample p j n 0x56

/-- Why a stream's header rejects its sample (R372, R377, R380, R386). -/
def State.headerRejects (s : State) (p : Nat) (x : IntkJob) (t : IntkStream) (h : StreamHeader) : Option Nat :=
  if !codecFits x.audio t.codec || !headerFeatures t.codec h then some 0x53
  else if s.oversize p x h then some 0x50
  else if s.ip p F.INTK0_FRAMES < reserveFrames t.codec h then some 0x55
  else none

/-- The sample of a job whose header is to be checked next. -/
def IntkJob.unstarted (x : IntkJob) : Option IntkStream :=
  x.streams.find? fun t => t.header.isNone && t.hit.isNone && t.fate.isNone

/-- A stream starts: its header is checked, and its frames are reserved or waited for (R380, R386); the job goes on to its next entry.
A live sample of no data only ends its stream (R377). -/
def State.startStream (s : State) (p j : Nat) (h : StreamHeader) : State :=
  match s.job? p j with
  | none => s
  | some x => match x.unstarted with
    | none => s
    | some t =>
      if t.len == 0 then (if x.live && t.ends then s.endSample p j else s.rejectSample p j t.no 0x53)
      else match s.firstFault (intkAcc p 0) [(t.data, t.len)] false with
        | some f => s.sampleFault p j t.no 0 f
        | none => match s.headerRejects p x t h with
          | some st => s.rejectSample p j t.no st
          | none => ((s.modStream p j t.no fun y => { y with header := some h, since := s.power.time }).servePool p).beginSample p j

/-! ### Engines (R383, R384, R387, R397) -/

/-- An engine takes a unit of a sample (R403). -/
def State.putEngine (s : State) (e p j n cls : Nat) : State :=
  let pg := Pg.intk e
  let s := { s with engines := AMap.put e (p, j, n) s.engines }
  ((s.setF pg F.INTKE_BUSY 1).setF pg F.INTKE_PARTITION p).setF pg F.INTKE_CLASS cls

/-- A picture is dropped at decode start: it is stale and no reference; a picture of no video codec never is one (R398). -/
def State.dropsAtStart (s : State) (x : IntkJob) (t : IntkStream) (isRef : Bool) : Bool :=
  !x.audio && t.begun == 0 && (!isRef || 0x10 ≤ t.codec) && s.isStale x t

/-- A reference picture is dropped at delivery: it is stale when its post-processing would begin (R398). -/
def State.dropsAtEnd (s : State) (x : IntkJob) (t : IntkStream) : Bool :=
  t.nextOut.any (fun f => f.ref) && s.isStale x t

/-- The lowest pool frame of a partition that holds no picture. -/
def State.poolSlot (s : State) (p : Nat) : Nat :=
  let used := (s.intk p).jobs.flatMap fun x => (x.streams ++ x.carry.toList).flatMap fun t => t.frames.map fun (f : IntkFrame) => f.slot
  ((List.range 1024).find? fun i => !used.contains i).getD 0

/-- A pool frame is allocated to the picture or chunk that a stream begins: DECODING (R387). -/
def State.allocFrame (s : State) (p j n : Nat) : State :=
  let slot := s.poolSlot p
  s.modStream p j n fun y =>
    { y with
      frames := y.frames ++ [{ num := y.nextNum, slot := slot, decoding := true, ref := false, out := false }]
      nextNum := y.nextNum + 1 }

/-- An engine takes the waiting unit that R397 gives it. -/
def State.grantEngine (s : State) (e : Nat) (isRef : Bool) : State :=
  if e == 0 || (AMap.get? e s.engines).isSome || s.f (Pg.intk e) F.INTKE_DISABLE == 1 then s
  else match s.grantChoice (engineKind e) with
    | none => s
    | some (p, j, n) => match s.job? p j with
      | none => s
      | some x => match x.sample? n with
        | none => s
        | some t =>
          if 5 ≤ engineKind e then (if s.dropsAtEnd x t then s.staleSample p j false else s.putEngine e p j n x.cls)
          else if s.dropsAtStart x t isRef then s.staleSample p j true
          else match s.firstFault (intkAcc p e) [(t.data, t.len)] false with
            | some f => s.sampleFault p j n e f
            | none => ((if t.begun == 0 then s.allocFrame p j n else s).putEngine e p j n x.cls).modStream p j n fun y =>
                { y with begun := y.begun + 1 }

/-- A sample is abandoned for its budget (R383): the engine counts it. -/
def State.abandonSample (s : State) (e p j n cycles : Nat) : State :=
  let pg := Pg.intk e
  let s := ((s.incF pg F.INTKE_ABANDONED).incF2 pg F.INTKE_BUSY_LO F.INTKE_BUSY_HI cycles).setF pg F.INTKE_BUSY 0
  ({ s with engines := AMap.del e s.engines }.rejectSample p j n 0x51).applyIntkIdle e

/-- Address and bytes of a pool frame (R386). -/
def State.poolFrame (s : State) (p slot : Nat) : Nat × Nat :=
  let n := max 1 (min 64 (s.ip p F.INTK0_FRAME_MIB)) * 2 ^ 20
  ((s.ip p F.INTK0_POOL_LO + 2 ^ 32 * s.ip p F.INTK0_POOL_HI) / 2 ^ 21 * 2 ^ 21 + slot * n, n)

/-- A picture as its pool frame holds it: planar components at ⌈depth / 8⌉ bytes per sample (R386). -/
def planarBytes (depth : Nat) (planes : List (List Int)) : List Byte :=
  planes.flatten.flatMap fun v => toBytes (ceilDiv depth 8) (ux (8 * ceilDiv depth 8) v)

/-- Write bytes to a pool frame, which must lie in STACK or BULK (R386). -/
def State.writeFrameBytes (s : State) (p e slot : Nat) (b : List Byte) : Wr :=
  let a := s.poolFrame p slot
  if s.inFrames p a.1 a.2 then s.wr (intkAcc p e) a.1 (b.take a.2) else (s, some (.translation, a.1))

/-- The pool frame of the unit that a stream decodes, and its others. -/
def IntkStream.inWork (t : IntkStream) : Option IntkFrame := t.frames.find? fun f => f.decoding
def IntkStream.others (t : IntkStream) : List IntkFrame := t.frames.filter fun f => !f.decoding

/-- A frame that holds something (R387). -/
def IntkFrame.kept (f : IntkFrame) : Bool := f.decoding || f.ref || f.out

/-- A picture has been decoded into a pool frame: HELD with its marks, or FREE (R386, R387). -/
def State.holdPicture (s : State) (p j e : Nat) (x : IntkJob) (t : IntkStream) (h : StreamHeader) (f : IntkFrame) (isRef : Bool)
    (disp : Option Nat) (planes : List (List Int)) : Wr :=
  let sel := disp.bind x.selected
  let t0 := { t with recent := planes, frames := t.others }
  if !isRef && sel.isNone then (s.modStream p j t.no fun _ => t0, none)
  else
    let g : IntkFrame := { f with
      decoding := false, since := s.power.time, ref := isRef, out := sel.isSome, disp := disp.getD 0, planes := planes
      width := h.width, height := h.height }
    (s.modStream p j t.no fun _ => { t0 with frames := t0.frames ++ [g] }).writeFrameBytes p e f.slot (planarBytes h.depth planes)

/-- A chunk of sound has been decoded into a pool frame, where it is held until it has been post-processed (R386). -/
def State.holdSound (s : State) (p j e : Nat) (t : IntkStream) (h : StreamHeader) (f : IntkFrame) (planes : List (List Int)) : Wr :=
  let g : IntkFrame := { f with decoding := false, since := s.power.time, out := true, disp := f.num }
  (s.modStream p j t.no fun y => { y with frames := y.others ++ [g] }).writeFrameBytes p e f.slot (planarBytes h.depth planes)

/-- Pictures that a sample must hold: those its header claims, as far as any is selected (R381). -/
def IntkJob.claimed (x : IntkJob) (h : StreamHeader) : Nat :=
  if x.live then 0
  else min h.count (fieldAt x.post 8 2 + (x.framesPer - 1) * max 1 (fieldAt x.post 0x0A 2) + 1)

/-- What stands for a picture that was never begun (R381): the picture decoded last, or mid-grey. -/
def concealed (h : StreamHeader) (t : IntkStream) : List (List Int) :=
  if t.codec ≤ 3 && !t.recent.isEmpty then t.recent
  else
    let grey (n : Nat) : List Int := List.replicate n (2 ^ (h.depth - 1))
    (List.range h.comps).map fun c =>
      if c == 1 || c == 2 then grey (ceilDiv h.width (2 ^ h.subX) * ceilDiv h.height (2 ^ h.subY)) else grey (h.width * h.height)

/-- A unit's planes with what its data does not reach, or what is damaged, concealed (R381, R382): an inter-coded area copies the co-located
samples of the first picture in reference list 0, or of the picture decoded last; another is mid-grey, and sound is silence. -/
def concealLost (audio : Bool) (h : StreamHeader) (t : IntkStream) (u : DecodedUnit) : List (List Int) :=
  let from0 := match u.list0.bind fun n => t.frames.find? fun f => f.num == n with
    | some f => f.planes
    | none => t.recent
  u.planes.mapIdx fun c l => l.mapIdx fun i v =>
    match u.lost.find? fun y => y.1 == c && y.2.1 == i with
    | none => v
    | some y =>
      if audio then 0
      else
        let grey := 2 ^ (h.depth - 1)
        if y.2.2 && t.codec ≤ 3 then (from0.getD c []).getD i grey else grey

/-- Pictures never begun are concealed whole, each as its stream's reservation has a frame for it (R381, R386, R387). -/
def State.concealMore (s : State) (p j n e : Nat) : Nat → Wr
  | 0 => (s, none)
  | fuel + 1 => match (s.job? p j).bind fun x => (x.sample? n).map fun t => (x, t) with
    | none => (s, none)
    | some (x, t) => match t.header, t.lack with
      | some h, k :: rest =>
        if t.reserved ≤ t.frames.length then (s, none)
        else
          let f : IntkFrame := { num := t.nextNum, slot := s.poolSlot p, ref := false, out := false }
          (s.holdPicture p j e x { t with lack := rest, nextNum := t.nextNum + 1 } h f false (some k) (concealed h t)).bind fun s =>
            s.concealMore p j n e fuel
      | _, _ => (s, none)

/-- A picture has been decoded (R381 to R383, R387, R391). -/
def State.pictureDone (s : State) (p j n e : Nat) (x : IntkJob) (t : IntkStream) (h : StreamHeader) (u : DecodedUnit) : State :=
  let frames := (t.frames.map fun (f : IntkFrame) => if u.unref.contains f.num then { f with ref := false } else f).filter fun f => f.kept
  let units := t.units + 1
  let cap := h.count == 0 && fieldAt x.limits 4 4 ≤ units && !u.last
  let shown := t.shown + b2n (u.disp.bind x.selected).isSome
  let seen := t.seen ++ u.disp.toList
  let lack := if u.last && shown < x.framesPer then (List.range (x.claimed h)).filter fun k => !seen.contains k else []
  let t' := { t with
    frames := frames, units := units, shown := shown, seen := seen, since := s.power.time
    ended := u.last || cap || x.live || x.framesPer ≤ shown, limited := t.limited || cap
    lack := lack.filter fun k => (x.selected k).isSome
    missing := (t.missing.or u.missing).or (lack.head?.map fun k => (k, 0)), damage := t.damage ++ u.damage }
  let f := t.inWork.getD { num := t.nextNum, slot := s.poolSlot p, ref := false, out := false }
  let r := (s.holdPicture p j e x t' h f u.isRef u.disp (concealLost false h t u)).bind fun s => s.concealMore p j n e x.framesPer
  match r.2 with
  | some f => r.1.jobAccess p j e f
  | none => r.1.settleSamples p j

/-- A frame of sound has been decoded (R380 to R382); a claimed length that the data does not reach is silence. -/
def State.soundDone (s : State) (p j n e : Nat) (x : IntkJob) (t : IntkStream) (h : StreamHeader) (u : DecodedUnit) : State :=
  let cap := fieldAt x.limits 8 4
  let planes := concealLost true h t u
  let all := (List.range h.comps).map fun c => t.sound.getD c [] ++ planes.getD c []
  let len := (all.getD 0 []).length
  let full := h.count == 0 && cap ≤ len && !u.last
  let cut := h.count == 0 && cap < len
  let missing := (t.missing.or u.missing).or (if u.last && len < h.count then some (len, 0) else none)
  let all := if full || cut then all.map fun c => c.take cap
    else if u.last then all.map fun c => c ++ List.replicate (h.count - len) 0 else all
  let f := t.inWork.getD { num := t.nextNum, slot := s.poolSlot p, ref := false, out := false }
  let r := s.holdSound p j e t h f planes
  match r.2 with
  | some f => r.1.jobAccess p j e f
  | none => r.1.modStream p j n fun y =>
    { y with
      sound := all, units := y.units + 1, ended := u.last || full, limited := y.limited || full || cut, missing := missing
      damage := y.damage ++ u.damage, since := s.power.time }

/-- What an engine at a kind that decodes works on: partition, job and its number, sample and header. -/
def State.decoding (s : State) (e : Nat) : Option (Nat × Nat × IntkJob × IntkStream × StreamHeader) := do
  let (p, j, n) ← AMap.get? e s.engines
  let x ← s.job? p j
  let t ← x.sample? n
  let h ← t.header
  if engineKind e ≤ 4 then pure (p, j, x, t, h) else none

/-- An engine ends its unit, or its part of a picture on which another engine still works (R380 to R383, R387, R388). -/
def State.unitDone (s : State) (e : Nat) (u : DecodedUnit) : State :=
  match s.decoding e with
  | none => s
  | some (p, j, x, t, h0) =>
    let h := u.header.getD h0
    let work := unitWork x.audio h u
    let cycles := t.partVclk + u.cycles
    if x.overBudget t cycles work then s.abandonSample e p j t.no u.cycles
    else
      let shared := s.decoders p j t.no != 1
      let s := (s.freeEngine e u.cycles).incF (Pg.intk e) F.INTKE_DAMAGED u.damage.length
      if shared then
        (s.modStream p j t.no fun y => { y with partVclk := cycles, damage := y.damage ++ u.damage, since := s.power.time }).applyIntkIdle e
      else match (if u.header.isSome then s.headerRejects p x t h else none) with
        | some st => (s.rejectSample p j t.no st).applyIntkIdle e
        | none =>
          let t := { t with
            header := some h, spent := t.spent + cycles, begun := 0, partVclk := 0
            costs := if work == 0 then t.costs else t.costs ++ [(cycles, work)] }
          let s := s.modStream p j t.no fun _ => t
          let s := if x.audio then s.soundDone p j t.no e x t h u else s.pictureDone p j t.no e x t h u
          (s.servePool p).applyIntkIdle e

/-- A unit runs past its budget and is abandoned (R383). -/
def State.budgetExceeded (s : State) (e cycles samples : Nat) : State :=
  match s.decoding e with
  | none => s
  | some (p, j, x, t, h) =>
    let work := if x.audio then samples else h.width * h.height
    if x.overBudget t (t.partVclk + cycles) work then s.abandonSample e p j t.no cycles else s

/-! ### Post-processing (R391, R392, R398) -/

/-- Write the boxes of a frame into the positions of the job's first sample (R391, R393). -/
def State.postPicture (s : State) (p j e : Nat) (x : IntkJob) (t : IntkStream) (f : IntkFrame) (h : StreamHeader) : State :=
  let w := intkAcc p e
  let k := (x.selected f.disp).getD 0
  let r := (List.range x.span).foldl (fun (r : Wr) b => r.bind fun s =>
    let box : Except (AccFault × Nat) (List Byte) :=
      if x.boxes == 0 then .ok (wholeBox f.height f.width) else s.rd? w ((fieldAt x.post 0x30 8 + 32 * b) % 2 ^ 64) 32
    match box with
    | .error e => (s, some e)
    | .ok box => s.writeFrame w x (x.pos + b) k (f.outValue x t.codec h box)) (s, none)
  let r := r.bind fun s => (s.modStream p j t.no fun y =>
    { y with
      valid := y.valid ++ [k]
      frames := (y.frames.map fun (g : IntkFrame) => if g == f then { g with out := false } else g).filter fun g => g.kept }).concealMore p j t.no e x.framesPer
  match r.2 with
  | some f => r.1.jobAccess p j e f
  | none => r.1.settleSamples p j

/-- Write the job's first sample of sound (R392, R394) and deliver it. -/
def State.postSound (s : State) (p j e : Nat) (x : IntkJob) (t : IntkStream) (h : StreamHeader) : State :=
  let len := (t.sound.getD 0 []).length * fieldAt x.post 0 4 / max 1 h.rate
  let first (k : Nat) : Nat := if x.mel then k * fieldAt x.post 0x0A 2 else 64 * k
  let valid := (List.range x.units).filter fun k => first k < len
  let unitOf (n : Nat) : Nat := if x.mel then n else n / 64
  let r := s.writeSound (intkAcc p e) x x.pos fun c n =>
    if valid.contains (unitOf n) then soundValue x h t.sound c n else x.padValue
  match r.2 with
  | some f => r.1.jobAccess p j e f
  | none => ((r.1.modStream p j t.no fun y => { y with valid := valid }).deliverHead p j).settleSamples p j

/-- A chunk of sound is post-processed, and its frame freed (R386); the last brings the sample's output. -/
def State.postChunk (s : State) (p j e : Nat) (x : IntkJob) (t : IntkStream) (f : IntkFrame) (h : StreamHeader) : State :=
  let t := { t with frames := t.frames.filter fun g => g != f }
  let s := s.modStream p j t.no fun _ => t
  if t.ended && t.nextOut.isNone then s.postSound p j e x t h else s

/-- The record that a sample was to be copied from is still in the directory (R400). -/
def State.hitStands (s : State) (p : Nat) (x : IntkJob) (t : IntkStream) (hit : Nat × Nat) : Bool :=
  (s.lookup p x t).any fun k => (k.off, k.len) == hit

/-- The front end or the post-processor that works for a job's first sample ends (R391, R392, R400). A record overwritten meanwhile is
none: the sample is then decoded. -/
def State.postprocess (s : State) (p j cycles : Nat) : State :=
  match (s.engines.find? fun e => e.2.1 == p && e.2.2.1 == j && 5 ≤ engineKind e.1), s.job? p j with
  | some (e, _), some x =>
    match x.streams with
    | [] => s
    | t :: _ =>
      let s := s.freeEngine e cycles
      let s := match t.hit, t.header with
        | some hit, _ =>
          if s.hitStands p x t hit then s.copyCached p x t hit.1 hit.2 else s.modStream p j t.no fun y => { y with hit := none }
        | none, some h => match t.nextOut with
          | some f => if x.audio then s.postChunk p j e x t f h else s.postPicture p j e x t f h
          | none => s
        | none, none => s
      s.applyIntkIdle e
  | _, _ => s

/-! ### Batches (R393, R395, R396) -/

/-- Address of the record of a batch (R396). -/
def IntkJob.recordAt (x : IntkJob) (n : Nat) : Nat := (x.records + n % 2 ^ x.slotsLog2 * (64 + 32 * x.batch)) % 2 ^ 64

/-- The oldest undelivered batch of a job is full, and its writes have been accepted (R395). -/
def State.batchReady (s : State) (p : Nat) (x : IntkJob) : Bool := (x.delivered + 1) * x.batch ≤ x.pos && !s.intakeWrites p

/-- Step 2 of R395 for a job's next batch: its samples enter the cache, and the record is written. -/
def State.recordBatch (s : State) (p j : Nat) (x : IntkJob) (last : Bool) : Wr :=
  let n := x.delivered
  let here (f : Nat × IntkStream) : Bool := f.1 / x.batch == n
  let s := (x.toFill.filter here).foldl (fun s f => s.fillCache p x f.2 f.1) s
  Wr.bind (s.wr (intkAcc p 0) (x.recordAt n) (s.batchRecord x n last)) fun s =>
    (s.modJob p j fun y => { y with recorded := true, stale := 0, toFill := y.toFill.filter fun f => !here f }, none)

/-- Deliver a batch: its record, then DONE_CTR once that has been accepted, and the end of the job after its last (R393, R395, R396).
INTK 0 applies at a delivered batch (R62). -/
def State.deliverBatch (s : State) (p j : Nat) : State :=
  match s.job? p j with
  | none => s
  | some x =>
    if !s.batchReady p x then s
    else
      let n := x.delivered
      let last := x.closed && (n + 1) * x.batch == x.pos
      let r : Wr := if x.recorded then (s, none) else s.recordBatch p j x last
      match r.2 with
      | some f => r.1.jobAccess p j 0 f
      | none =>
        if r.1.intakeWrites p then r.1 else
        let s := (r.1.opAdd (s.devCtr p x.doneCtr) 1).incF (Pg.intk 0) F.INTK0_BATCHES
        let s := s.modJob p j fun y =>
          { y with
            delivered := n + 1, recorded := false, rejected := AMap.del n y.rejected, logged := AMap.del n y.logged
            entries := AMap.drop (n * y.batch) ((n + 1) * y.batch) y.entries }
        let s := if last then s.dropJob p j else s
        if s.requested (Pg.intk 0) then s.applyIntake else s

/-! ### Meanings -/

/-- R373 to R378. -/
def execIntakeJobTake (p : Fin 8) (s : State) : Out := .next (if s.jobReady p then (s.takeJob p).applyIntkIdle 0 else s)
/-- R397. -/
def execEngineGrant (engine : Fin 35) (isRef : Bool) (s : State) : Out := .next (s.grantEngine engine isRef)
/-- R381 to R383, R387. -/
def execDecodeUnitDone (engine : Fin 35) (u : DecodedUnit) (s : State) : Out := .next (s.unitDone engine u)
/-- R383. -/
def execDecodeBudgetExceeded (engine : Fin 35) (cycles samples : Nat) (s : State) : Out :=
  .next (s.budgetExceeded engine cycles samples)
/-- R380, R386. -/
def execFrameReserve (p : Fin 8) (j : Nat) (hdr : StreamHeader) (s : State) : Out := .next (s.startStream p j hdr)
/-- R391, R392. -/
def execPostprocessFrame (p : Fin 8) (j cycles : Nat) (s : State) : Out := .next (s.postprocess p j cycles)
/-- R398. -/
def execLiveSampleAvailable (p : Fin 8) (j : Nat) (s : State) : Out := .next (s.beginSample p j)
/-- R395, R396. -/
def execBatchDeliver (p : Fin 8) (j : Nat) (s : State) : Out := .next (s.deliverBatch p j)
/-- R395. -/
def execBatchSlotFreed (p : Fin 8) (j : Nat) (s : State) : Out := .next (s.beginSample p j)

end Sys2Proof.Machine
end

