-- ==== Sys2Proof/Machine/Firm.lean ====
section
/-! DEFINITION. Firmware packages, the staging region, propagation between neighbours, and the choice of a slot at a start (R540 to
R552). -/

namespace Sys2Proof.Machine

/-- SHAKE256-256. -/
def sha256bits (b : List Byte) : List Byte := shake256 b 32

def fwPage : Nat := Pg.sec 1

/-! ### Manifests (R543 to R545) -/

namespace Man
def version (m : List Byte) : Nat := fieldAt m 4 4
def secVersion (m : List Byte) : Nat := bits (fieldAt m 8 4) 0 7
def keyIndex (m : List Byte) : Nat := bits (fieldAt m 8 4) 8 2
def revoke (m : List Byte) : Nat := bits (fieldAt m 8 4) 10 4
def blocks (m : List Byte) : Nat := fieldAt m 0x0C 2
def setVersion (m : List Byte) : Nat := fieldAt m 0x10 2
def minVersion (m : List Byte) : Nat := fieldAt m 0x12 2
def imgId (m : List Byte) (i : Nat) : Nat := fieldAt m (0x40 + 48 * i) 1
def imgFirst (m : List Byte) (i : Nat) : Nat := fieldAt m (0x44 + 48 * i) 2
def imgLen (m : List Byte) (i : Nat) : Nat := fieldAt m (0x48 + 48 * i) 4
def imgDigest (m : List Byte) (i : Nat) : List Byte := (m.drop (0x50 + 48 * i)).take 32
def imgBlocks (m : List Byte) (i : Nat) : Nat := ceilDiv (imgLen m i) 65536
def pubkey (m : List Byte) : List Byte := (m.drop 0x1C0).take 57
def signature (m : List Byte) : List Byte := (m.drop 0x200).take 114
def blockDigest (m : List Byte) (b : Nat) : List Byte := (m.drop (0x280 + 32 * (b - 1))).take 32
/-- The signed message. -/
def message (m : List Byte) : List Byte := m.take 0x200 ++ (m.drop 0x280).take (32 * (blocks m - 1))
/-- The manifest digest. -/
def digest (m : List Byte) : List Byte := sha256bits (message m)

/-- The entry that holds an image. -/
def entryOf (m : List Byte) (id : Nat) : Option Nat := (List.range 8).find? fun i => imgLen m i != 0 && imgId m i == id

/-- Fields in range, reserved bytes 0, images within BLOCKS and apart (R543 to R545). -/
def formed (m : List Byte) : Bool :=
  let zero (o n : Nat) : Bool := fieldAt m o n == 0
  let used := (List.range 8).filter fun i => imgLen m i != 0
  m.length == 65536 && fieldAt m 0 4 == 1 && secVersion m ≤ 64 && !bit (fieldAt m 8 4) 7 && bits (fieldAt m 8 4) 14 18 == 0 &&
  2 ≤ blocks m && blocks m ≤ 1280 && zero 0x0E 2 && zero 0x14 44 && zero 0x1F9 7 && zero 0x272 14 &&
  (List.range 8).all (fun i => zero (0x41 + 48 * i) 3 && zero (0x46 + 48 * i) 2 && zero (0x4C + 48 * i) 4) &&
  (List.range 5).all (fun id => (used.filter fun i => imgId m i == id).length == 1) && used.length == 5 &&
  used.all (fun i => 1 ≤ imgFirst m i && imgFirst m i + imgBlocks m i ≤ blocks m && (imgId m i != 0 || imgLen m i ≤ 2 ^ 24)) &&
  used.all (fun i => used.all fun j => i == j || !overlap (imgFirst m i) (imgBlocks m i) (imgFirst m j) (imgBlocks m j))
end Man

/-- The digest of vendor key i as the fuses hold it. -/
def State.keyDigest (s : State) (i : Nat) : List Byte :=
  (List.range 8).flatMap fun w => toBytes 4 (s.f (Pg.sec 3) (F.SEC3_DIGEST.sh (32 * i + 4 * w)))

/-- A public key is vendor key i, present and not revoked. -/
def State.keyGood (s : State) (i : Nat) (pub : List Byte) : Bool :=
  bit (s.f (Pg.sec 3) F.SEC3_KEY_PRESENT) i && !bit (s.f (Pg.sec 3) F.SEC3_KEY_REVOKED) i && sha256bits pub == s.keyDigest i

/-- The status that R545 gives a manifest (R564). -/
def State.manStatus (s : State) (m : List Byte) : Nat :=
  if !Man.formed m then 0x03
  else if !s.keyGood (Man.keyIndex m) (Man.pubkey m) then 0x04
  else if !ed448Verify (Man.pubkey m) (Man.message m) (Man.signature m) then 0x05
  else if Man.secVersion m < s.f (Pg.sec 3) F.SEC3_COUNT then 0x06
  else 0

/-- The bytes of an image in a package. -/
def pkgImage (blocks : AMap (List Byte)) (m : List Byte) (i : Nat) : List Byte :=
  ((rangeFrom (Man.imgFirst m i) (Man.imgBlocks m i)).flatMap fun b => AMap.getD b [] blocks).take (Man.imgLen m i)

/-- The manifest of an image slot, none for a slot without a package. -/
def Image.manifest : Image → Option (List Byte)
  | .package b => AMap.get? 0 b
  | _ => Option.none

/-- A slot verifies (R552, R554): its manifest passes R545 and its images match their digests. The firmware of manufacture
has security version 0 (log entry 32). -/
def State.verified (s : State) (x : Image) : Bool :=
  match x with
  | .none => false
  | .factory => s.f (Pg.sec 3) F.SEC3_COUNT == 0
  | .package b => match AMap.get? 0 b with
    | none => false
    | some m => s.manStatus m == 0 && (List.range 5).all fun id => match Man.entryOf m id with
      | some i => sha256bits (pkgImage b m i) == Man.imgDigest m i
      | none => false

def Sec.slot (x : Sec) (n : Nat) : Image := if n == 0 then x.slotA else x.slotB

/-! ### The flash (R540, R551) -/

/-- Regions of the flash; each is held in the fields of State that its comment names. -/
inductive FlashRegion where
  /-- `boot0` and `boot1` of Sec -/
  | boot (copy : Fin 2)
  /-- `ownerSeed` of Sec -/
  | owner
  /-- the bitmap and the digest of SEC 1 -/
  | delivery
  /-- `half0` and `half1` of Sec -/
  | settings (half : Fin 2)
  /-- `ring` of Integ: entry n at byte 64 n -/
  | history
  /-- `slotA` and `slotB` of Sec: block b at byte 65,536 b -/
  | slot (n : Fin 2)
  /-- `staging` of Sec: block b at byte 65,536 b -/
  | staging
  | reserved
  deriving DecidableEq, Repr

/-- First byte, bytes and content of the regions (R540). -/
def flashLayout : List (Nat × Nat × FlashRegion) := [
  (0x00000000, 0x8000, .boot 0), (0x00008000, 0x8000, .boot 1), (0x00010000, 0x10000, .owner), (0x00020000, 0x10000, .delivery),
  (0x00030000, 0xD0000, .reserved), (0x00100000, 0x200000, .settings 0), (0x00300000, 0x200000, .settings 1),
  (0x00500000, 0x400000, .history), (0x00900000, 0x700000, .reserved), (0x01000000, 0x5000000, .slot 0), (0x06000000, 0x5000000, .slot 1),
  (0x0B000000, 0x5000000, .staging)]

/-- The region of a flash address, and the offset in it. -/
def flashAt (a : Nat) : Option (FlashRegion × Nat) :=
  (flashLayout.find? fun r => r.1 ≤ a && a < r.1 + r.2.1).map fun r => (r.2.2, a - r.1)

/-- The copy of the boot record in use: of those with a good CRC, that of the higher sequence number. -/
def Sec.bootCopy (x : Sec) : Nat := if x.boot1.crcGood && (!x.boot0.crcGood || x.boot0.seq < x.boot1.seq) then 1 else 0
def Sec.record (x : Sec) : BootRecord := if x.bootCopy == 1 then x.boot1 else x.boot0

/-- Write the boot record: into the copy not in use, with the next sequence number. -/
def Sec.modRecord (x : Sec) (g : BootRecord → BootRecord) : Sec :=
  let r := { g x.record with seq := x.record.seq + 1, crcGood := true }
  if x.bootCopy == 1 then { x with boot0 := r } else { x with boot1 := r }

def BootRecord.valid (r : BootRecord) (n : Nat) : Bool := if n == 0 then r.validA else r.validB
def BootRecord.setValid (r : BootRecord) (n : Nat) (v : Bool) : BootRecord :=
  if n == 0 then { r with validA := v } else { r with validB := v }

def Sec.setSlot (x : Sec) (n : Nat) (i : Image) : Sec := if n == 0 then { x with slotA := i } else { x with slotB := i }
def State.modSec (s : State) (g : Sec → Sec) : State := { s with sec := g s.sec }

/-- The choice at a start (R552): the boot record after it, the slot or none for recovery, a trial, and FELL_BACK. -/
def State.bootChoice (s : State) : Sec × Option Nat × Bool × Bool :=
  let x := s.sec
  let ok (n : Nat) : Bool := s.verified (x.slot n)
  let first : Sec × Nat × Bool × Bool := match x.record.trial with
    | some t => if x.record.tries != 0 then (x.modRecord fun r => { r with tries := r.tries - 1 }, t, true, false)
      else (x.modRecord fun r => { r with trial := none }, x.record.active, false, true)
    | none => (x, x.record.active, false, false)
  let y := first.1
  if ok first.2.1 then (y, some first.2.1, first.2.2.1, first.2.2.2)
  else
    let back := first.2.2.2 || first.2.2.1
    let y := if first.2.2.1 then y.modRecord fun r => { r with trial := none } else y
    let c := y.record.active
    if ok c then (y, some c, false, back)
    else if y.record.valid (1 - c) && ok (1 - c) then (y.modRecord fun r => r.setValid c false, some (1 - c), false, true)
    else (y, none, false, back)

/-- The security core boots (R552): SEC_FW_BOOT and what it runs. -/
def State.boot (s : State) : State :=
  let r := s.bootChoice
  let n := r.2.1.getD 0
  let m := (r.1.slot n).manifest
  let s := { s with sec := r.1 }
  let s := ((s.setF fwPage F.SEC1_SLOT n).setF fwPage F.SEC1_TRIAL (b2n r.2.2.1)).setF fwPage F.SEC1_TRIES r.1.record.tries
  let s := (s.setF fwPage F.SEC1_RECOVERY (b2n r.2.1.isNone)).setF fwPage F.SEC1_FELL_BACK (b2n r.2.2.2)
  let run := if r.2.1.isSome then m else none
  let s := s.setF fwPage F.SEC1_VERSION_RUN (match run with | some m => Man.version m | none => 0)
  s.setRegs (fwPage * 4096 + 0x080) (match run with | some m => wordsOf (Man.digest m) | none => List.replicate 8 0)

/-- The device is in recovery (R555). -/
def State.recovery (s : State) : Bool := s.f fwPage F.SEC1_RECOVERY == 1

/-! ### The staging region (R547, R548) -/

/-- A block has been received. -/
def State.blockBit (s : State) (b : Nat) : Bool := bit (s.f fwPage (F.SEC1_BITMAP.sh (4 * (b / 32)))) (b % 32)

/-- Set the bit of a block. -/
def State.setBlockBit (s : State) (b : Nat) : State :=
  let f := F.SEC1_BITMAP.sh (4 * (b / 32))
  s.setF fwPage f (s.f fwPage f ||| 2 ^ (b % 32))

/-- The staged manifest. -/
def State.stagedMan (s : State) : List Byte := AMap.getD 0 [] s.sec.staging

/-- A block is refused with a status (R547). -/
def State.refuseBlock (s : State) (st : Nat) : State :=
  ((s.setF fwPage F.SEC1_BLOCK_STATUS st).incF fwPage F.SEC1_BLOCKS_BAD).event fwPage Ev.SEC1_BLOCK_REJECTED

/-- A block is programmed, and its bit afterwards (R547, R548). -/
def State.takeBlock (s : State) (src b : Nat) (d : List Byte) : State :=
  let s := (s.modSec fun x => { x with staging := AMap.put b d x.staging }).setBlockBit b
  let s := ((s.setF fwPage F.SEC1_BLOCK_STATUS 0).incF fwPage F.SEC1_BLOCKS_OK).incF fwPage F.SEC1_RECEIVED
  let s := if 2 ≤ src then s.incF fwPage F.SEC1_PEER_IN else s
  if s.f fwPage F.SEC1_RECEIVED == Man.blocks s.stagedMan then
    (s.setF fwPage F.SEC1_STAGE 2).event fwPage Ev.SEC1_STAGING_COMPLETE
  else s

/-- A block whose bit is set is counted and not written again. -/
def State.dupBlock (s : State) : State := (s.setF fwPage F.SEC1_BLOCK_STATUS 0).incF fwPage F.SEC1_DUPLICATES

/-- The staging region becomes empty (R548). -/
def State.emptyStaging (s : State) : State :=
  let s := s.modSec fun x => { x with staging := [] }
  let s := ((s.setF fwPage F.SEC1_STAGE 0).setF fwPage F.SEC1_RECEIVED 0).setF fwPage F.SEC1_VERSION_STAGED 0
  (s.setRegs (fwPage * 4096 + 0x060) (List.replicate 8 0)).setRegs (fwPage * 4096 + 0x100) (List.replicate 40 0)

/-- Treat an assembled block (R547); `good` tells that erasing and programming verified. -/
def State.treatBlock (s : State) (src b : Nat) (d : List Byte) (good : Bool) : State :=
  let st := s.f fwPage F.SEC1_STAGE
  if b == 0 then
    if st == 0 then
      let e := s.manStatus d
      if e != 0 then s.refuseBlock e
      else if !good then s.refuseBlock 0x0C
      else
        let s := (s.emptyStaging.setF fwPage F.SEC1_STAGE 1).setF fwPage F.SEC1_VERSION_STAGED (Man.version d)
        (s.setRegs (fwPage * 4096 + 0x060) (wordsOf (Man.digest d))).takeBlock src 0 d
    else if st == 1 then (if Man.digest d == Man.digest s.stagedMan then s.dupBlock else s.refuseBlock 0x08)
    else s.refuseBlock 0x02
  else if st != 1 then s.refuseBlock 0x02
  else if Man.blocks s.stagedMan ≤ b then s.refuseBlock 0x03
  else if s.blockBit b then s.dupBlock
  else if sha256bits d != Man.blockDigest s.stagedMan b then s.refuseBlock 0x07
  else if !good then s.refuseBlock 0x0C
  else s.takeBlock src b d

/-! ### Assembly buffers (R546) -/

/-- A piece of a block arrives from a source; a piece of another block restarts the host's and the BMC's buffers. With the last
of `n` pieces the block is assembled. -/
def State.piece (s : State) (src b n i : Nat) (d : List Byte) : State :=
  let x := s.sec
  let mine (f : FwBuffer) : Bool := f.source == src && (f.block == b || src < 2)
  let old := x.buffers.find? mine
  let pieces : AMap (List Byte) := match old with
    | some f => if f.block == b then f.pieces else []
    | none => []
  let pieces := AMap.put i d pieces
  let rest := x.buffers.filter fun f => !mine f
  if pieces.length == n then
    { s with sec := { x with buffers := rest, assembled := x.assembled ++ [(src, b, (pieces.map fun y => y.2).flatten)] } }
  else { s with sec := { x with buffers := rest ++ [{ source := src, block := b, pieces := pieces }] } }

/-! ### Propagation (R549) -/

/-- UP links to neighbours that hold an address, with that address. -/
def State.fwPeers (s : State) : List (Nat × Nat) :=
  (s.upLinks.filter fun l => (s.link l).peerValid).map fun l => (l, (s.link l).peerAddr)

/-- The device is a source. -/
def State.fwSource (s : State) : Bool :=
  let st := s.f fwPage F.SEC1_STAGE
  (st == 2 || st == 4) && s.f fwPage F.SEC1_PROPAGATE == 1 && s.ownAddr.isSome && !s.recovery

/-- The device accepts blocks from a source. -/
def State.fwAccepts (s : State) : Bool := s.f fwPage F.SEC1_ACCEPT_PEER == 1 && s.ownAddr.isSome && !s.recovery

/-- The 160-byte bitmap, 1 for a received block. -/
def State.bitmapBytes (s : State) : List Byte :=
  (List.range 40).flatMap fun w => toBytes 4 (s.f fwPage (F.SEC1_BITMAP.sh (4 * w)))

/-- The bytes that a propagation packet carries. -/
def State.fwData (s : State) (off : Nat) : List Byte :=
  if bit off 39 then s.bitmapBytes
  else ((AMap.getD (off / 65536) [] s.sec.staging).drop (off % 65536)).take 4096

/-- The packet itself. -/
def State.fwPacket (s : State) (x : FwSent) : Packet :=
  let d := s.fwData x.off
  { kind := 2, cls := 5, dst := BitVec.ofNat 16 x.peer, src := BitVec.ofNat 16 (s.ownAddr.getD 0), seq := BitVec.ofNat 16 x.seq
    lines := BitVec.ofNat 8 (ceilDiv d.length 32), w4 := BitVec.ofNat 32 (x.off % 2 ^ 32), w5 := BitVec.ofNat 32 (x.off / 2 ^ 32)
    data := d }

/-- Send a propagation packet and remember it until it is answered. -/
def State.fwSend (s : State) (l peer off : Nat) : State :=
  let x : FwSent := { link := l, peer := peer, off := off, time := s.power.time, seq := s.sec.seq % 2 ^ 16 }
  let s := s.modSec fun y => { y with seq := (y.seq + 1) % 2 ^ 16, sent := y.sent ++ [x] }
  s.sendOn l (s.fwPacket x)

/-- Send a block to a neighbour as 16 packets. -/
def State.fwSendBlock (s : State) (l peer b : Nat) : State :=
  ((List.range 16).foldl (fun s i => s.fwSend l peer (65536 * b + 4096 * i)) s).incF fwPage F.SEC1_PEER_OUT

/-- Blocks in flight to a neighbour. -/
def State.fwFlight (s : State) (l peer : Nat) : List Nat :=
  ((s.sec.sent.filter fun x => x.link == l && x.peer == peer && !bit x.off 39).map fun x => x.off / 65536).eraseDups

/-- Send a neighbour the next blocks that its bitmap lacks, at most four in flight. -/
def State.fwPump (s : State) (l peer : Nat) : Nat → State
  | 0 => s
  | fuel + 1 =>
    match s.sec.needs.find? fun x => x.1 == l && x.2.1 == peer with
    | none => s
    | some (_, _, map) =>
      if !s.fwSource || 4 ≤ (s.fwFlight l peer).length then s
      else match (List.range (Man.blocks s.stagedMan)).find? fun b => !bit (fieldAt map (b / 8) 1) (b % 8) with
        | none => s
        | some b =>
          let map := map.set (b / 8) (BitVec.ofNat 8 (fieldAt map (b / 8) 1 ||| 2 ^ (b % 8)))
          let s := s.modSec fun x =>
            { x with needs := (l, peer, map) :: x.needs.filter fun y => !(y.1 == l && y.2.1 == peer) }
          (s.fwSendBlock l peer b).fwPump l peer fuel

/-- Tell a source what has been received (R549 step 2). -/
def State.fwTell (s : State) (l a : Nat) : State :=
  if s.f fwPage F.SEC1_STAGE == 1 && (s.link l).st == 5 then s.fwSend l a (2 ^ 39) else s

/-- A propagation packet arrives on a link (R549): the state, and the STATUS of its answer, none where no buffer takes it. -/
def State.fwReceive (s : State) (l : Nat) (p : Packet) : State × Option Nat :=
  let x := s.link l
  let off := (p.w4.toNat + 2 ^ 32 * p.w5.toNat) % 2 ^ 40
  let peer := p.src.toNat
  if p.level != 0 || !x.peerValid || x.peerAddr != peer then (s, some 1)
  else if bit off 39 then
    if !s.fwSource then (s, some 1)
    else
      let s := s.modSec fun y =>
        { y with needs := (l, peer, (p.data ++ List.replicate 160 (0 : Byte)).take 160) :: y.needs.filter fun z => !(z.1 == l && z.2.1 == peer) }
      (s.fwPump l peer 4, some 0)
  else if !s.fwAccepts then (s, some 1)
  else
    let b := off / 65536
    let src := 2 + peer
    let s := s.modSec fun y => { y with sources := y.sources.map fun z => if z.2.1 == peer then (z.1, z.2.1, s.power.time) else z }
    let have_ := s.sec.buffers.any fun f => f.source == src && f.block == b
    let known := (s.sec.assembled.any fun y => y.1 == src && y.2.1 == b) || (s.blockBit b && b != 0)
    if known then (s, some 0)
    else if !have_ && 4 ≤ (s.sec.buffers.filter fun f => 2 ≤ f.source).length then (s, none)
    else (s.piece src b 16 (off % 65536 / 4096) p.data, some 0)

/-- A propagation packet is answered. -/
def State.fwAnswered (s : State) (seq peer : Nat) : State :=
  match s.sec.sent.find? fun x => x.seq == seq && x.peer == peer with
  | none => s
  | some x => (s.modSec fun y => { y with sent := y.sent.erase x }).fwPump x.link x.peer 4

/-- After a block has been treated (R549 step 2): a receiver of a manifest it is receiving answers its source with the bitmap. -/
def State.fwAfterBlock (s : State) (src b : Nat) (d : List Byte) : State :=
  if src < 2 then s
  else match s.fwPeers.find? fun x => x.2 == src - 2 with
    | none => s
    | some (l, a) =>
      if b == 0 && s.f fwPage F.SEC1_STAGE == 1 && Man.digest d == Man.digest s.stagedMan then
        (s.modSec fun x => { x with sources := (x.sources.filter fun z => z.2.1 != a) ++ [(l, a, s.power.time)] }).fwTell l a
      else s

end Sys2Proof.Machine
end

