-- ==== Sys2Proof/Machine/Fabric.lean ====
section
/-! DEFINITION. The meanings of the commands of the canopy: rows LINK_SIGNAL_DETECT to COLLECTIVE_COMPLETE and TIME_EXCHANGE to
TIME_SYNC_LOSS (R406 to R444). -/

namespace Sys2Proof.Machine

/-! ### Routing tables and addresses (R418 to R422) -/

/-- A page position of a link's port. -/
def portPage (l : Nat) : Nat := Pg.cnpy (l / 4)

/-- Distance that the device advertises: 0 for itself, 31 for what it cannot reach; everything while it has no address. -/
def State.distTo (s : State) (member : Bool) (x : Nat) : Nat :=
  match s.ownAddr with
  | none => 31
  | some a =>
    if x == (if member then a % 256 else a / 256) then 0
    else
      let e := AMap.getD x 0 (if member then s.canopy.memberTbl else s.canopy.groupTbl)
      if bit e 41 then bits e 36 5 else 31

/-- A ROUTE packet: 256 distances of 5 bits (R421); W4 tells groups from members (log entry 30). -/
def State.routePacket (s : State) (member : Bool) : Packet :=
  { kind := 8, cls := 1, dst := 0, src := BitVec.ofNat 16 (s.ownAddr.getD 0), w4 := BitVec.ofNat 32 (b2n member), lines := 5
    data := toBytes 160 (((List.range 256).map fun x => s.distTo member x * 2 ^ (5 * x)).foldl (fun a b => a + b) 0) }

/-- Send the device's distances on a link. -/
def State.advertiseOn (s : State) (l : Nat) : State := (s.sendOn l (s.routePacket false)).sendOn l (s.routePacket true)

/-- Send the device's distances on every UP link (R421). -/
def State.advertise (s : State) : State := s.upLinks.foldl (fun s l => s.advertiseOn l) s

/-- The entry that R421 gives a destination. -/
def State.routeFor (s : State) (member : Bool) (x old : Nat) : Nat :=
  let own := s.f (Pg.cnpy 9) F.CNPY9_ADDR
  let mine := x == (if member then own % 256 else own / 256) && (s.ownAddr.isSome || !member)
  let ls := if member then s.upLinks.filter fun l => (s.link l).peerGroup == own / 256 else s.upLinks
  let adv (l : Nat) : Nat := AMap.getD x 31 (if member then (s.link l).advMember else (s.link l).advGroup)
  let d := ls.foldl (fun n l => min n (adv l)) 31
  if bit old 42 then old
  else if mine || 16 ≤ d then 31 * 2 ^ 36
  else (ls.filter fun l => adv l == d).foldl (fun e l => e + 2 ^ l) 0 + (d + 1) * 2 ^ 36 + 2 ^ 41

/-- Recompute both tables (R421) and tell a change of any entry to the neighbours: since now, or since the tables were those of `old`. -/
def State.recomputeFrom (s : State) (was : Canopy) : State :=
  let old := s.canopy
  let tbl (member : Bool) (m : AMap Nat) : AMap Nat := (List.range 256).foldl (fun (n : AMap Nat) x =>
    putOrDel x (s.routeFor member x (AMap.getD x 0 m)) n) m
  let g := tbl false old.groupTbl
  let m := tbl true old.memberTbl
  if g == was.groupTbl && m == was.memberTbl then s
  else ({ s with canopy := { old with groupTbl := g, memberTbl := m } }.event (Pg.cnpy 9) Ev.CNPY9_ROUTES_CHANGED).advertise

def State.recompute (s : State) : State := s.recomputeFrom s.canopy

/-- The exchange of every 100 µs (R421): a device with an address also gives every entry that is not pinned its value again, such as one
that software wrote; a change is told at once. -/
def State.routeTick (s : State) : State :=
  let t := if s.ownAddr.isSome then s.recompute else s
  if t.canopy.groupTbl == s.canopy.groupTbl && t.canopy.memberTbl == s.canopy.memberTbl then s.advertise else t

/-- ELECT of an ID and an address (R419): W4 and W5 the ID, W6 the address with bit 16 VALID (log entry 30). -/
def electPacket (uid addr : Nat) (valid : Bool) : Packet :=
  { kind := 9, cls := 1, dst := 0, src := 0, w4 := BitVec.ofNat 32 (uid % 2 ^ 32), w5 := BitVec.ofNat 32 (uid / 2 ^ 32)
    w6 := BitVec.ofNat 32 (addr + 65536 * b2n valid) }

/-- The device's own ELECT. -/
def State.ownElect (s : State) : Packet := electPacket s.uid (s.f (Pg.cnpy 9) F.CNPY9_ADDR) s.ownAddr.isSome

/-- MODE is AUTO. -/
def State.autoAddr (s : State) : Bool := s.f (Pg.cnpy 9) F.CNPY9_MODE == 0

/-- Election begins (R419 step 1). -/
def State.electStart (s : State) : State :=
  let s := { s with canopy := { s.canopy with ids := [s.uid], electing := true, electSince := s.power.time } }
  s.upLinks.foldl (fun s l => s.sendOn l s.ownElect) s

/-- An address comes into force. -/
def State.assigned (s : State) : State :=
  let s := (s.setF (Pg.cnpy 9) F.CNPY9_VALID 1).setF (Pg.cnpy 9) F.CNPY9_CONFLICT 0
  ({ s with canopy := { s.canopy with electing := false } }.event (Pg.cnpy 9) Ev.CNPY9_ADDR_ASSIGNED).recompute

/-- A write of CNPY_ADDR restarts assignment and clears the routes that are not pinned (R419). -/
def State.restartAddr (s : State) : State :=
  let keep (m : AMap Nat) : AMap Nat := m.filter fun e => bit e.2 42
  let old := s.canopy
  let s := { s with canopy := { old with groupTbl := keep old.groupTbl, memberTbl := keep old.memberTbl, electing := false } }
  let s := if s.canopy.groupTbl == old.groupTbl && s.canopy.memberTbl == old.memberTbl then s
    else s.event (Pg.cnpy 9) Ev.CNPY9_ROUTES_CHANGED
  let s := (s.setF (Pg.cnpy 9) F.CNPY9_VALID 0).setF (Pg.cnpy 9) F.CNPY9_CONFLICT 0
  let s := if s.canopy.groupTbl == old.groupTbl && s.canopy.memberTbl == old.memberTbl then s else s.advertise
  if s.autoAddr then s.electStart else s.assigned

/-- Another device shows the device's own address (R419): the one of higher ID gives it up. -/
def State.checkConflict (s : State) (addr uid : Nat) : State :=
  if s.ownAddr != some addr || uid == s.uid then s
  else
    let s := s.event (Pg.cnpy 9) Ev.CNPY9_ADDR_CONFLICT
    if s.uid ≤ uid then s
    else
      let s := (s.setF (Pg.cnpy 9) F.CNPY9_VALID 0).setF (Pg.cnpy 9) F.CNPY9_CONFLICT 1
      if s.autoAddr then s.electStart else s

/-- Member numbers that ROUTE advertisements of the own group show in use. -/
def State.numbersInUse (s : State) : List Nat :=
  let g := s.f (Pg.cnpy 9) F.CNPY9_ADDR / 256
  (List.range 256).filter fun n => s.upLinks.any fun l =>
    (s.link l).peerGroup == g && AMap.getD n 31 (s.link l).advMember ≤ 16

/-- No new ID has arrived for 10 ms: the device takes its number (R419 steps 3 and 4). -/
def State.settle (s : State) : State :=
  let c := s.canopy
  if !c.electing || !s.autoAddr || s.ownAddr.isSome || s.power.time < c.electSince + 10000000 then s
  else
    let used := s.numbersInUse
    let n := if used.isEmpty then ((s.uid :: c.ids).eraseDups.filter fun i => i < s.uid).length
      else ((List.range 256).find? fun i => !used.contains i).getD 256
    if 256 ≤ n then
      let s := { s with canopy := { c with electing := false } }.setF (Pg.cnpy 9) F.CNPY9_CONFLICT 1
      s.event (Pg.cnpy 9) Ev.CNPY9_ADDR_CONFLICT
    else (s.setF (Pg.cnpy 9) F.CNPY9_ADDR (s.f (Pg.cnpy 9) F.CNPY9_ADDR / 256 * 256 + n)).assigned

/-! ### Link states (R409, R412, R424) -/

/-- HELLO of this device on a link: 64 bytes, the fields of R411 in order (log entry 30). -/
def State.helloBytes (s : State) (l : Nat) : List Byte :=
  let a := s.f (Pg.cnpy 9) F.CNPY9_ADDR
  toBytes 8 0xA ++ toBytes 8 s.uid ++ toBytes 8 (a + b2n s.ownAddr.isSome * 2 ^ 16) ++ toBytes 8 (a / 256) ++ toBytes 8 (s.split (l / 4)) ++
  toBytes 8 (s.lanes l) ++ toBytes 8 (l % 4) ++ toBytes 8 (1105 + s.linkShared l * 2 ^ 32)

/-- The device says HELLO on an UP link, or on one in HANDSHAKE, where it goes out in the first flits (R409, R411). -/
def State.sayHello (s : State) (l : Nat) : State :=
  if (s.link l).st == 4 then s.transmit l [(s.helloBytes l, none)] else s.sendLink l (s.helloBytes l)

/-- A packet finds no link: counted at a port (R422, R424). -/
def State.unroutable (s : State) (l : Nat) : State :=
  (s.satF (portPage l) F.CNPYP_UNROUTABLE).event (portPage l) Ev.CNPYP_UNROUTABLE

/-- Send a packet on over whatever link its destination has now. -/
def State.reroute (s : State) (l : Nat) (w : Waiting) : State :=
  if w.pkt.kind == 8 || w.pkt.kind == 9 || w.pkt.kind == 0xB then s
  else match s.routeLink w.pkt.dst.toNat w.pkt.cls.toNat with
    | some l' => s.sendFrom l' w
    | none => (s.unroutable l).leaves w

/-- A link leaves UP or RETRAIN other than to UP (R424), for a state. -/
def State.linkDown (s : State) (l st : Nat) : State :=
  let x := s.link l
  let was := x.st == 5 || x.st == 6
  let unsent := x.replay.flatMap fun f => f.ends.map fun p => ({ pkt := p, since := s.power.time } : Waiting)
  let all := unsent ++ x.waiting
  let s := (s.setLink l { since := s.power.time, retrained := x.retrained }).setLinkSt l st
  if !was then s
  else
    let strip (m : AMap Nat) : AMap Nat := m.map fun e => (e.1, if bit e.2 l then e.2 - 2 ^ l else e.2)
    let gone (w : Waiting) : Waiting := match w.src with
      | some (k, _) => if k == l then { w with src := none } else w
      | none => w
    let was := s.canopy
    let s := { s with canopy := { s.canopy with
      groupTbl := strip s.canopy.groupTbl, memberTbl := strip s.canopy.memberTbl
      links := s.canopy.links.map fun (k : Nat × Link) => (k.1, { k.2 with waiting := k.2.waiting.map gone }) } }
    all.foldl (fun s w => s.reroute l (gone w)) (s.recomputeFrom was)

/-- A link enters FAILED. -/
def State.linkFail (s : State) (l : Nat) : State :=
  ((s.linkDown l 7).event (portPage l) Ev.CNPYP_LINK_FAILED).history 0x05 [l]

/-- A link in state `st` moves on to another. -/
def State.linkMove (s : State) (l st next : Nat) : State :=
  if (s.link l).st == st && s.linkMade l then s.setLinkSt l next else s

/-- A link that has been `ns` nanoseconds in state `st` fails. -/
def State.linkExpires (s : State) (l st ns : Nat) : State :=
  let x := s.link l
  if x.st == st && s.linkMade l && x.since + ns ≤ s.power.time then s.linkFail l else s

/-- An application of PORT_CFG (R409): links of a port that is disabled or split anew go down, and those that are DISABLED in a port that
is enabled start signal detection. -/
def State.applyPort (s : State) (n : Nat) : State :=
  let pg := Pg.cnpy n
  let en := s.f pg F.CNPYP_EN
  let sp := s.f pg F.CNPYP_SPLIT
  let s := s.latch pg
  let en' := s.f pg F.CNPYP_EN
  let changed := s.f pg F.CNPYP_SPLIT != sp
  if en == en' && !changed then
    if en' == 1 then (rangeFrom (4 * n) 4).foldl (fun s l => if (s.link l).st == 0 then s.setLinkSt l 1 else s) s else s
  else (rangeFrom (4 * n) 4).foldl (fun s l => s.linkDown l (if en' == 1 then 1 else 0)) s

/-- The ends of a link agree: it is UP (R409). -/
def State.linkUp (s : State) (l : Nat) (h : Hello) : State :=
  let x : Link :=
    { st := 5, since := s.power.time, sharedUnits := h.shared.toNat, peerUid := h.uid.toNat, peerAddr := h.addr.toNat
      peerValid := h.valid, peerGroup := h.group.toNat, helloSeen := true, retrained := (s.link l).retrained }
  let s := (s.setLink l x).event (portPage l) Ev.CNPYP_LINK_UP
  let s := if s.canopy.electing && s.autoAddr then
      { s with canopy := { s.canopy with electSince := s.power.time } }.sendOn l s.ownElect
    else s
  s.recompute.advertiseOn l

/-- A HELLO arrives (R409, R411, R419). -/
def State.hello (s : State) (l : Nat) (h : Hello) : State :=
  let x := s.link l
  if x.st == 4 && s.linkMade l then
    let s := if h.split.toNat == s.split (l / 4) && h.lanes.toNat == s.lanes l then s.linkUp l h else s.linkFail l
    if h.valid then s.checkConflict h.addr.toNat h.uid.toNat else s
  else if x.st == 5 then
    let y : Link := { x with peerUid := h.uid.toNat, peerAddr := h.addr.toNat, peerValid := h.valid, peerGroup := h.group.toNat }
    let s := s.setLink l y
    let s := if y.peerGroup != x.peerGroup then s.recompute else s
    if h.valid then s.checkConflict h.addr.toNat h.uid.toNat else s
  else s

/-- Uncorrectable codewords of the last millisecond, with `n` that come now (R412). -/
def State.countWords (s : State) (l n : Nat) : State :=
  if n == 0 then s
  else s.modLink l fun x => { x with badWords := (x.badWords.filter fun w => s.power.time < w.1 + 1000000) ++ [(s.power.time, n)] }

/-- Uncorrectable codewords that came within the last millisecond. -/
def State.wordsBad (s : State) (l : Nat) : Nat :=
  (s.link l).badWords.foldl (fun n w => if s.power.time < w.1 + 1000000 then n + w.2 else n) 0

/-- A retrain condition of R412: repeated NAKs, a replay buffer full for 100 µs, loss of signal, or more than 1,000 uncorrectable
codewords within 1 ms. -/
def State.retrain (s : State) (l why : Nat) : State :=
  let x := s.link l
  let holds := match why with
    | 0 => 8 ≤ x.nakCount || 8 ≤ x.nakedCount
    | 1 => x.full.any fun t => t + 100000 ≤ s.power.time
    | 2 => true
    | _ => 1000 < s.wordsBad l
  if x.st != 5 || !holds then s
  else
    let s := (s.setLinkSt l 6).modLink l fun y => { y with nakCount := 0, nakedCount := 0, retrained := y.retrained + 1 }
    (s.satF (portPage l) F.CNPYP_RETRAINS).event (portPage l) Ev.CNPYP_RETRAIN

/-- Resend flits as they were sent (R412). -/
def State.resend (s : State) (l : Nat) (fl : List Flit) : State :=
  if fl.isEmpty then s else (s.putFlits l fl).event (portPage l) Ev.CNPYP_REPLAY

/-- RETRAIN succeeds: every unacknowledged flit is resent (R409). -/
def State.regained (s : State) (l : Nat) : State :=
  if (s.link l).st != 6 then s
  else
    let s := s.setLinkSt l 5
    (s.resend l (s.link l).replay).drain l

/-! ### Flits (R410 to R412) -/

/-- Acknowledge what has been received. -/
def State.sendAck (s : State) (l : Nat) : State :=
  let x := s.link l
  if x.st != 5 || x.unacked == 0 then s
  else (s.setLink l { x with unacked := 0 }).sendLink l (linkPkt 0xC ((x.rxNum + 2 ^ 32 - 1) % 2 ^ 32))

/-- A flit arrives, with what the line code corrected in it: its CRC is checked before any byte of it is used (R412). -/
def State.flit (s : State) (l num : Nat) (bytes : List Byte) (corr unc : Nat) : State :=
  let s := if (s.link l).st == 5 then s.countWords l unc else s
  let x := s.link l
  let pg := portPage l
  if x.st != 5 then s
  else
    let s := (s.satF pg F.CNPYP_FEC_CORRECTED corr).satF pg F.CNPYP_FEC_UNCORR unc
    if !flitWhole bytes then
      let s := s.satF pg F.CNPYP_CRC_ERRORS
      if x.discarding && num != x.rxNum then s
      else
        let n := if x.nakedNum == x.rxNum then x.nakedCount + 1 else 1
        (s.setLink l { x with discarding := true, nakedNum := x.rxNum, nakedCount := n }).sendLink l (linkPkt 0xD x.rxNum)
    else if num != x.rxNum then s
    else
      let s := s.setLink l
        { x with rxNum := (x.rxNum + 1) % 2 ^ 32, discarding := false, unacked := x.unacked + 1, nakedCount := 0 }
      let s := s.incF2 pg F.CNPYP_FLITS_RX ⟨0x03C, 0, 32⟩
      if 16 ≤ x.unacked + 1 then s.sendAck l else s

/-- An ACK arrives: flits up to its number leave the replay buffer. -/
def State.acked (s : State) (l num : Nat) : State :=
  let x := s.link l
  if x.st != 5 && x.st != 6 then s
  else
    (s.setLink l
      { s.withReplay l x (x.replay.filter fun f => 0 < sx 32 ((f.num + 2 ^ 32 - num) % 2 ^ 32)) with nakCount := 0 }).drain l

/-- A NAK arrives: flits from its number are resent. -/
def State.naked (s : State) (l num : Nat) : State :=
  let x := s.link l
  if x.st != 5 then s
  else
    let n := if x.nakNum == num then x.nakCount + 1 else 1
    let s := (s.setLink l { x with nakNum := num, nakCount := n }).satF (portPage l) F.CNPYP_REPLAYS
    s.resend l (x.replay.filter fun f => 0 ≤ sx 32 ((f.num + 2 ^ 32 - num) % 2 ^ 32))

/-- A CREDIT arrives: units go back to the pool that they came from (R416). -/
def State.credited (s : State) (l cls level : Nat) (pool : Bool) (n : Nat) : State :=
  let x := s.link l
  if x.st != 5 && x.st != 6 then s
  else
    let y : Link := if pool then
        let k := 16 * cls + level
        { x with resUsed := AMap.put k (AMap.getD k 0 x.resUsed - n) x.resUsed }
      else { x with sharedUsed := x.sharedUsed - n, clsUsed := AMap.put cls (AMap.getD cls 0 x.clsUsed - n) x.clsUsed }
    (s.setLink l y).drain l

/-! ### Packets that arrive (R418, R422, R426) -/

/-- A packet is refused by R426. -/
def State.ctxRefused (s : State) : State := (s.satF (Pg.cnpy 9) F.CNPY9_CTX_REFUSED).event (Pg.cnpy 9) Ev.CNPY9_CTX_REFUSED

/-- Send a packet on, one hop further (R422). -/
def State.forward (s : State) (l : Nat) (p : Packet) : State :=
  if p.level == 15 then
    ((s.satF (portPage l) F.CNPYP_HOP_LIMIT).event (portPage l) Ev.CNPYP_HOP_LIMIT).giveCredit l p p.level p.pool
  else match s.routeLink p.dst.toNat p.cls.toNat with
    | some l' => s.sendFrom l' { pkt := { p with level := p.level + 1 }, since := s.power.time, src := some (l, p.level, p.pool) }
    | none => (s.unroutable l).giveCredit l p p.level p.pool

/-- A routed packet of a kind arrives on a link, or from the device itself: it is delivered, forwarded, or refused while the device
has no address (R418, R422). -/
def State.receive (s : State) (src : Option (Fin 36)) (p : Packet) (kind : BitVec 4) (deliver : State → State) : State :=
  if p.kind != kind then s
  else match src with
    | none => if s.canopy.loop.contains p then deliver { s with canopy := { s.canopy with loop := s.canopy.loop.erase p } } else s
    | some l =>
      if (s.link l).st != 5 then s
      else match s.ownAddr with
        | none => (if kind == 1 || kind == 2 then s.ctxRefused else s).giveCredit l p p.level p.pool
        | some a => if p.dst.toNat == a then (deliver s).giveCredit l p p.level p.pool else s.forward l p

/-- Answer a request (R428). -/
def State.answer (s : State) (p : Packet) (status : Nat) (data : List Byte) : State :=
  let r : Packet :=
    { kind := if p.kind == 1 then 3 else 4, cls := 2, dst := p.src, src := 0, dstCtx := p.srcCtx, srcCtx := p.dstCtx
      status := BitVec.ofNat 4 status, seq := p.seq, lines := BitVec.ofNat 8 (ceilDiv data.length 32), data := data }
  (s.originate r).getD s

/-- STATUS of a fault (R428). A failed host read answers as uncorrectable data does (log entry 43). -/
def AccFault.rsp : AccFault → Nat
  | .permission _ _ => 3
  | .host _ | .damaged _ _ => 4
  | _ => 2

/-- A request has been performed: its number is remembered with the last 256 (R427). -/
def State.remember (s : State) (c seq : Nat) : State :=
  { s with canopy := { s.canopy with seen := AMap.put c ((seq :: AMap.getD c [] s.canopy.seen).take 256) s.canopy.seen } }

/-- A request bears a number that has been performed. -/
def State.isDup (s : State) (c seq : Nat) : Bool := (AMap.getD c [] s.canopy.seen).contains seq

/-- READ_REQ for this device (R426 to R428). An uncorrectable error's place is the line that
holds it. -/
def State.readRequest (s : State) (p : Packet) (found : ReadErrors) : State :=
  match s.accepts p with
  | none => s.ctxRefused.answer p 1 []
  | some (c, q) =>
    let s := if s.isDup c p.seq.toNat then s.satF (Pg.cnpy 9) F.CNPY9_DUP_DROPPED else s
    let n := 32 * p.lines.toNat
    match s.load q none (pktOff p) n with
    | .error f => (s.faultRecord q c f.2 f.1).answer p f.1.rsp []
    | .ok b =>
      let s := (s.correctedFor q found.corrected).linksFor q found.links
      let ue := match found.uncorrectable with
        | some (k, sym) => if k < p.lines.toNat then match s.resolve q none ((pktOff p) + 32 * k) false with
            | .ok loc => some (loc, sym, (pktOff p) + 32 * k)
            | .error _ => none
          else none
        | none => none
      match ue with
      | some (loc, sym, a) => (s.answer p 4 []).errorAt q c loc sym.toNat a found.link
      | none => (s.remember c p.seq.toNat).answer p 0 b

/-- WRITE_REQ for a partition (R357, R358, R360, R426 to R428). A write whose page is being copied waits among the packets for
the device itself. -/
def State.writeRequest (s : State) (p : Packet) : State :=
  match s.accepts p with
  | none => s.ctxRefused.answer p 1 []
  | some (c, q) =>
    let n := p.data.length
    let plan := p.w6.toNat
    let pages := ((pieces (pktOff p) n).map fun x => x.1 / page2M).eraseDups
    if s.isDup c p.seq.toNat then (s.satF (Pg.cnpy 9) F.CNPY9_DUP_DROPPED).answer p 0 []
    else if pages.any fun i => s.writeHeld q i then { s with canopy := { s.canopy with loop := s.canopy.loop ++ [p] } }
    else if plan != 0 && !s.planTakes q plan n then (s.stray q).answer p 1 []
    else match (if plan != 0 then s.firstFault { part := q, core := none, who := .unit peerUnit } [((pktOff p), n)] true else none) with
      | some f => (((s.arenaWrite q f.2 (.unit peerUnit)).faultRecord q c f.2 f.1).stray q).answer p 1 []
      | none => match s.store q none (pktOff p) p.data (.unit peerUnit) with
        | (s, some f) => (s.faultRecord q c f.2 f.1).answer p f.1.rsp []
        | (s, none) =>
          let s := if plan != 0 then s.planGot q n else s
          (s.remember c p.seq.toNat).answer p 0 []

/-- A WRITE_REQ arrives: one of class BULK without a context carries firmware (R549). -/
def State.writeArrives (s : State) (src : Option (Fin 36)) (p : Packet) : State :=
  if p.dstCtx == 0 && p.cls == 5 then
    match src with
    | none => s.answer p 1 []
    | some l => match s.fwReceive l p with
      | (s, some st) => s.answer p st []
      | (s, none) => s
  else s.writeRequest p

/-! ### Responses and requests that fail (R427, R428) -/

/-- A request is over: its place goes to the next that waits for its context. -/
def State.retire (s : State) (r : RemoteReq) : State :=
  let s := { s with canopy := { s.canopy with reqs := s.canopy.reqs.erase r } }
  if !r.sent || r.lost then s
  else
    let e := s.ctx r.ctx
    let s := s.setCtx r.ctx (putBits e 48 9 (bits e 48 9 - 1))
    match s.canopy.reqs.find? fun x => x.ctx == r.ctx && !x.sent && !x.lost with
    | some x => if bit e 4 then s else { s with canopy := { s.canopy with reqs := s.canopy.reqs.erase x } }.request x
    | none => s

/-- The thread address of a request. -/
def RemoteReq.addr (r : RemoteReq) : Nat := 3 * 2 ^ 60 + r.ctx * 2 ^ 40 + r.off

/-- Record a fault of an access through a context (R568): TIER is 4 where the peer reports it. -/
def State.remoteRecord (s : State) (r : RemoteReq) (f : AccFault) (byPeer : Bool) : State :=
  s.errRecord r.part { cause := f.cause, tier := if byPeer then 4 else 7, unit := r.ctx, addr := r.addr }

/-- A request's access faults: its program or forme ends (R75, R427, R428), its snapshot with DEST_LOST (R486), its fill with
FILL_SOURCE_LOST (R497). -/
def State.remoteFault (s : State) (r : RemoteReq) (f : AccFault) (byPeer : Bool) : State :=
  match r.who with
  | .load c t => (s.remoteRecord r f byPeer).endProgram c t f.status
  | .fetch c t => (s.remoteRecord r f byPeer).endProgram c t f.status
  | .store c t => (s.remoteRecord r f byPeer).endProgram c t f.status
  | .forme i => (s.remoteRecord r f byPeer).formeFault i f.status 0
  | .operand i c code =>
    if s.tiles.any fun (t : Tile) => t.forme == i && t.core == c && t.code == code then (s.remoteRecord r f byPeer).formeFault i f.status c
    else s.remoteRecord r f byPeer
  | .plan p e => if byPeer then s.planAck p e (some 1) else s.planAck p e none
  | .snap p _ => (if f != .region then s.remoteRecord r f byPeer else s).snapFail p 0x01
  | .fillRecord p _ | .fillData p _ _ => (if f != .region then s.remoteRecord r f byPeer else s).fillHalt p 0x05
  | .ended _ _ => s.remoteRecord r f byPeer
  | .unit u => if u == 0xFFFF then s else s.remoteRecord r f byPeer

/-- A request of a context that is DOWN, or whose entry has been rewritten, fails (R425, R427). -/
def State.failLost (s : State) : State :=
  (s.canopy.reqs.filter fun r => r.lost || bit (s.ctx r.ctx) 4).foldl (fun s r =>
    if s.canopy.reqs.contains r then (s.retire r).remoteFault r .region false else s) s

/-- What the loss of a context ends: requests (R427), collectives (R441), snapshots (R486) and fills (R497). -/
def State.sweepLost (s : State) : State := s.failLost.collSweep.snapSweep.fillSweep

/-- Data of a read comes to whoever asked for it. -/
def State.readCame (s : State) (r : RemoteReq) (d : List Byte) : State :=
  match r.who with
  | .load c t =>
    let x := s.th c t
    match x.loads.findIdx? fun l => l.tier == .remote && (wholeBytes l.bytes).isNone && l.addr % 2 ^ 40 == r.off && l.width == r.n with
    | some i => s.setTh c t { x with loads := x.loads.modify i fun (l : Load) => { l with bytes := d.map some } }
    | none => s
  | .fetch c t =>
    let x := s.th c t
    match x.fetching.findIdx? fun f => f.bytes.isNone && f.line % 2 ^ 40 == r.off with
    | some i => s.setTh c t { x with fetching := x.fetching.modify i fun f => { f with bytes := some d } }
    | none => s
  | .fillRecord p o => s.fillRecordCame p o d
  | .fillData p _ dst => s.fillPut p dst d
  | _ => s

/-- A response for this device (R427, R428). -/
def State.response (s : State) (p : Packet) (write : Bool) : State :=
  match s.accepts p with
  | none => s.ctxRefused
  | some (c, _) =>
    match s.canopy.reqs.find? fun r => r.ctx == c && r.seq == p.seq.toNat && r.write == write && r.sent && !r.lost with
    | none => s
    | some r =>
      let s := s.retire r
      match p.status.toNat with
      | 0 =>
        if write then (match r.who with
          | .plan q e => s.planAck q e (some 0)
          | _ => s)
        else s.readCame r ((p.data.drop (r.off % 32)).take r.n)
      | 1 => ((s.ctxDown c).remoteFault r .region true).sweepLost
      | 2 => s.remoteFault r .translation true
      | 3 => s.remoteFault r (.permission 4 0) true
      | _ => s.remoteUe r.part c r.addr

/-- A WRITE_RSP arrives; one without a context answers a propagation packet (R549). -/
def State.writeAnswered (s : State) (p : Packet) : State :=
  if p.dstCtx == 0 then s.fwAnswered p.seq.toNat p.src.toNat else s.response p true

/-- A request has gone unanswered too long: its context goes DOWN (R427). Requests of contexts that are DOWN already fail. -/
def State.requestExpires (s : State) (c seq : Nat) : State :=
  let limit := 1000 * s.f (Pg.cnpy 9) F.CNPY9_REQ_TIMEOUT_US
  let late := s.canopy.reqs.any fun r => r.ctx == c && r.seq == seq && r.sent && !r.lost && r.since + limit ≤ s.power.time
  (if late then s.ctxDown c else s).sweepLost

/-- A collective packet for this device (R426, R436 to R441). -/
def State.collArrives (s : State) (p : Packet) : State :=
  match s.accepts p with
  | none => s.ctxRefused
  | some (c, _) => (s.collSweep.collPacket c p).collSweep

/-- A collective's time limit has passed (R441); one that has lost a context ends with that. -/
def State.collExpires (s : State) (i : Nat) : State :=
  match s.canopy.colls[i]? with
  | some c =>
    if !c.scalar && s.collLost c then s.endColl c 0x4B
    else if !c.scalar && c.since + c.limit ≤ s.power.time then (s.event (Pg.cnpy 9) Ev.CNPY9_COLL_TIMEOUT).endColl c 0x4A else s
  | none => s

/-- A collective has done all it must (R441). -/
def State.collEnds (s : State) (i : Nat) : State :=
  match s.canopy.colls[i]? with
  | some c => if !c.scalar && s.collLost c then s.endColl c 0x4B else if s.collComplete c then s.endColl c 0 else s
  | none => s

/-! ### Link-local packets (R419, R421, R443, R444) -/

/-- A link-local packet of a kind arrives on an UP link. -/
def State.linkLocal (s : State) (l : Nat) (p : Packet) (kind : BitVec 4) (g : State → State) : State :=
  if p.kind != kind || (s.link l).st != 5 then s else (g s).giveCredit l p p.level p.pool

/-- Distances that a ROUTE packet carries; 31 is not kept. -/
def routeDists (d : List Byte) : AMap Nat :=
  let v := ofBytes d
  (List.range 256).filterMap fun x => if bits v (5 * x) 5 == 31 then none else some (x, bits v (5 * x) 5)

/-- ROUTE (R421). -/
def State.routeCame (s : State) (l : Nat) (p : Packet) : State :=
  let m := routeDists p.data
  (s.modLink l fun x => if p.w4 == 0 then { x with advGroup := m } else { x with advMember := m }).recompute

/-- ELECT (R419). -/
def State.electCame (s : State) (p : Packet) : State :=
  let uid := p.w4.toNat + 2 ^ 32 * p.w5.toNat
  let addr := bits p.w6.toNat 0 16
  let own := s.f (Pg.cnpy 9) F.CNPY9_ADDR / 256
  let s := if bit p.w6.toNat 16 then s.checkConflict addr uid else s
  if addr / 256 != own || s.canopy.ids.contains uid || uid == s.uid then s
  else
    let s := { s with canopy := { s.canopy with ids := s.canopy.ids ++ [uid], electSince := s.power.time } }
    (s.upLinks.filter fun l => (s.link l).peerGroup == own).foldl (fun s l => s.sendOn l { p with level := 0 }) s

/-- A TIME packet: its op (0 asks, 1 answers) in W4, its time stamps in one data line (log entry 30). -/
def timePacket (op t1 t2 t3 : Nat) : Packet :=
  { kind := 0xB, cls := 0, dst := 0, src := 0, w4 := BitVec.ofNat 32 op, lines := 1
    data := toBytes 8 t1 ++ toBytes 8 t2 ++ toBytes 8 t3 ++ toBytes 8 0 }

/-- The time master among the other devices of the canopy, given by address and MASTER bit, and this one: the lowest address of those with
MASTER set, or of all where none has it set (R443). -/
def State.timeMaster (s : State) (devices : List (Nat × Bool)) : Option Nat :=
  let all := (s.ownAddr.map fun a => (a, s.f (Pg.cnpy 9) F.CNPY9_MASTER == 1)).toList ++ devices
  let set := all.filter fun d => d.2
  ((if set.isEmpty then all else set).map fun d => d.1).foldl (fun (m : Option Nat) a => some (match m with
    | some b => min a b
    | none => a)) none

/-- Distance to an address that a link's neighbour advertises, 31 where it has none. -/
def State.advTo (s : State) (l a : Nat) : Nat :=
  let own := s.f (Pg.cnpy 9) F.CNPY9_ADDR / 256
  if a / 256 != own then AMap.getD (a / 256) 31 (s.link l).advGroup
  else if (s.link l).peerGroup == own then AMap.getD (a % 256) 31 (s.link l).advMember else 31

/-- The link to the parent, and the neighbour's distance to the master: the UP link of least distance, the lowest number on a tie (R443). -/
def State.timeParent (s : State) (master : Nat) : Option (Nat × Nat) :=
  ((s.upLinks.map fun l => (l, s.advTo l master)).filter fun x => x.2 < 31).foldl (fun (b : Option (Nat × Nat)) x => match b with
    | some y => if x.2 < y.2 then some x else b
    | none => some x) none

/-- An exchange is due (R443): with the parent that the time tree gives the device; the master has none. The other devices of the canopy
come with the command (log entry 112). -/
def State.timeAsk (s : State) (devices : List (Nat × Bool)) : State :=
  let pg := Pg.cnpy 9
  let master := s.timeMaster devices
  let own := s.ownAddr.isSome && master == s.ownAddr
  let s := { s.setF pg F.CNPY9_IS_MASTER (b2n own) with canopy := { s.canopy with exchange := none } }
  match (if own then none else master.bind fun a => s.timeParent a) with
  | none => if own then s.setF pg F.CNPY9_HOPS 0 else s
  | some (l, d) =>
    let s := (s.setF pg F.CNPY9_HOPS (d + 1)).setF pg F.CNPY9_PARENT_LINK l
    { s with canopy := { s.canopy with exchange := some (l, s.power.time) } }.sendOn l (timePacket 0 s.power.time 0 0)

/-- The rate that cancels the frequency error measured by an exchange (R444): what the offset has grown by since the last exchange,
beyond what was still to be slewed, over the time between them; at most 250 ppm either way (log entry 190). -/
def State.measuredRate (s : State) (theta : Int) : Int :=
  let dt : Int := Int.ofNat (s.power.time - s.canopy.lastSync)
  max (-250000) (min 250000 (s.power.rate + (1000000000 * (theta - s.power.slew)).tdiv dt))

/-- Correct device time by an offset (R444). -/
def State.correctTime (s : State) (theta : Int) : State :=
  let pg := Pg.cnpy 9
  let first := !s.canopy.everSynced
  let s := if first || s.f pg F.CNPY9_SYNCED == 0 then s else { s with power := { s.power with rate := s.measuredRate theta } }
  let s := (s.setF pg F.CNPY9_SYNCED 1)
  let s := { s with canopy := { s.canopy with everSynced := true } }
  let jump (s : State) : State := { s with power := { s.power with slew := 0 } }.stepTime (Int.ofNat s.power.time + theta).toNat
  let s := if first then (jump s).event pg Ev.CNPY9_TIME_SYNCED
    else if 1000 < theta then ((jump s).satF pg F.CNPY9_TIME_STEPS).event pg Ev.CNPY9_TIME_SYNCED
    else
      let fast := s.power.slew < -1000
      let s := { s with power := { s.power with slew := theta } }
      if theta < -1000 && !fast then s.event pg Ev.CNPY9_TIME_SYNCED else s
  { s with canopy := { s.canopy with lastSync := s.power.time } }

/-- TIME (R443, R444): a request is answered; an answer completes the exchange. -/
def State.timeCame (s : State) (l : Nat) (p : Packet) : State :=
  let t1 := fieldAt p.data 0 8
  if p.w4 == 0 then s.sendOn l (timePacket 1 t1 s.power.time s.power.time)
  else
    if s.canopy.exchange != some (l, t1) then s
    else
      let t2 : Int := Int.ofNat (fieldAt p.data 8 8)
      let t3 : Int := Int.ofNat (fieldAt p.data 16 8)
      let a := t2 - Int.ofNat t1
      let b := Int.ofNat s.power.time - t3
      let s := { s with canopy := { s.canopy with exchange := none } }
      let s := (s.setF (Pg.cnpy 9) F.CNPY9_OFFSET (ux 32 ((a - b).tdiv 2))).setF (Pg.cnpy 9) F.CNPY9_DELAY (ux 32 ((a + b).tdiv 2))
      s.correctTime ((a - b).tdiv 2)

/-- No exchange for 100 ms: time runs on from KCLK alone (R444). -/
def State.timeLost (s : State) : State :=
  if s.f (Pg.cnpy 9) F.CNPY9_SYNCED == 1 && s.canopy.lastSync + 100000000 ≤ s.power.time then
    let s := s.setF (Pg.cnpy 9) F.CNPY9_SYNCED 0
    { s with power := { s.power with slew := 0, rate := 0, rateAcc := 0 } }.event (Pg.cnpy 9) Ev.CNPY9_TIME_LOST
  else s

/-! ### Table commands (R449) -/

/-- CNPY_TBL_CMD: READ copies an entry to DATA, WRITE checks and writes it. -/
def State.tblCommand (s : State) (write : Bool) : State :=
  let pg := Pg.cnpy 9
  let i := s.f pg F.CNPY9_INDEX
  let t := s.f pg F.CNPY9_TABLE
  let n := tblBytes t / 4
  let r :=
    if write then
      let v := ((List.range n).map fun w => s.f pg (F.CNPY9_DATA.sh (4 * w)) * 2 ^ (32 * w)).foldl (fun a b => a + b) 0
      let e := s.tblCheck t i v
      (if e == 0 then s.tblWrite t i v else s, e)
    else if tblSize t ≤ i then (s, 1)
    else (s.setRegs (pg * 4096 + 0x080) (wordsOf (toBytes (4 * n) (s.tblEntry t i))), 0)
  (r.1.setF pg F.CNPY9_RESULT r.2).event pg Ev.CNPY9_TBL_DONE

/-! ### Meanings -/

/-- A link detects signal: it is in DETECT, or a reset has left it in DISABLED with its port enabled, and it is to be retrained (R37,
R409; log entry 106). -/
def State.detecting (s : State) (l : Nat) : Bool :=
  s.linkMade l && ((s.link l).st == 1 || ((s.link l).st == 0 && s.f (portPage l) F.CNPYP_EN == 1))

/-- R408, R409. -/
def execLinkSignalDetect (link : Fin 36) (cable : BitVec 4) (dm : BitVec 16) (s : State) : Out :=
  .next (if s.detecting link then
      ((s.setF (portPage link) F.CNPYP_TYPE cable.toNat).setF (portPage link) F.CNPYP_LENGTH_DM dm.toNat).setLinkSt link 2
    else s)
def execLinkTrainConverged (link : Fin 36) (s : State) : Out := .next (s.linkMove link 2 3)
def execLinkTrainTimeout (link : Fin 36) (s : State) : Out := .next (s.linkExpires link 2 100000000)
def execLinkAlignLock (link : Fin 36) (s : State) : Out :=
  .next (if (s.link link).st == 3 && s.linkMade link then (s.setLinkSt link 4).sayHello link else s)
def execLinkAlignTimeout (link : Fin 36) (s : State) : Out := .next (s.linkExpires link 3 10000000)
def execHandshakeTimeout (link : Fin 36) (s : State) : Out := .next (s.linkExpires link 4 1000000)
/-- R412. -/
def execRetrainCondition (link : Fin 36) (why : Fin 4) (s : State) : Out := .next (s.retrain link why)
def execRetrainRegained (link : Fin 36) (s : State) : Out := .next (s.regained link)
/-- R424. -/
def execRetrainTimeout (link : Fin 36) (s : State) : Out := .next (s.linkExpires link 6 50000000)
def execLinkFailedHoldoff (link : Fin 36) (s : State) : Out :=
  .next (let x := s.link link
    if x.st == 7 && x.since + 1000000000 ≤ s.power.time then s.setLinkSt link 1 else s)
/-- R412. -/
def execFlitReceive (link : Fin 36) (num : Word) (bytes : List Byte) (corrected uncorrectable : BitVec 16) (s : State) : Out :=
  .next (s.flit link num.toNat bytes corrected.toNat uncorrectable.toNat)
def execAckTimer (link : Fin 36) (s : State) : Out := .next (s.sendAck link)
/-- R411, R419. -/
def execHello (link : Fin 36) (h : Hello) (s : State) : Out := .next (s.hello link h)
def execHelloTimer (link : Fin 36) (s : State) : Out := .next (if (s.link link).st == 5 then s.sayHello link else s)
def execAck (link : Fin 36) (num : Word) (s : State) : Out := .next (s.acked link num.toNat)
def execNak (link : Fin 36) (num : Word) (s : State) : Out := .next (s.naked link num.toNat)
/-- R416. -/
def execCredit (link : Fin 36) (cls : BitVec 3) (level : BitVec 4) (pool : Bool) (units : BitVec 13) (s : State) : Out :=
  .next (s.credited link cls.toNat level.toNat pool units.toNat)
/-- R426 to R428. -/
def execReadReq (src : Option (Fin 36)) (p : Packet) (found : ReadErrors) (s : State) : Out :=
  .next (s.receive src p 1 fun s => s.readRequest p found)
def execWriteReq (src : Option (Fin 36)) (p : Packet) (s : State) : Out := .next (s.receive src p 2 fun s => s.writeArrives src p)
def execReadRsp (src : Option (Fin 36)) (p : Packet) (s : State) : Out := .next (s.receive src p 3 fun s => s.response p false)
def execWriteRsp (src : Option (Fin 36)) (p : Packet) (s : State) : Out := .next (s.receive src p 4 fun s => s.writeAnswered p)
/-- R436 to R440. -/
def execCollData (src : Option (Fin 36)) (p : Packet) (s : State) : Out := .next (s.receive src p 5 fun s => s.collArrives p)
def execCollGrant (src : Option (Fin 36)) (p : Packet) (s : State) : Out := .next (s.receive src p 6 fun s => s.collArrives p)
def execCollCtrl (src : Option (Fin 36)) (p : Packet) (s : State) : Out := .next (s.receive src p 7 fun s => s.collArrives p)
/-- R421. -/
def execRoute (link : Fin 36) (p : Packet) (s : State) : Out := .next (s.linkLocal link p 8 fun s => s.routeCame link p)
def execRouteAdvertise (s : State) : Out := .next s.routeTick
/-- R419. -/
def execElect (link : Fin 36) (p : Packet) (s : State) : Out := .next (s.linkLocal link p 9 fun s => s.electCame p)
def execElectSettle (s : State) : Out := .next s.settle
/-- R427. -/
def execReqTimeout (ctx : BitVec 12) (seq : BitVec 16) (s : State) : Out := .next (s.requestExpires ctx.toNat seq.toNat)
/-- R441. -/
def execCollTimeout (i : Nat) (s : State) : Out := .next (s.collExpires i)
def execCollectiveComplete (i : Nat) (s : State) : Out := .next (s.collEnds i)
/-- R443, R444. -/
def execTimeExchange (masters others : List (BitVec 16)) (s : State) : Out :=
  .next (s.timeAsk (masters.map (fun a => (a.toNat, true)) ++ others.map fun a => (a.toNat, false)))
def execTime (link : Fin 36) (p : Packet) (s : State) : Out := .next (s.linkLocal link p 0xB fun s => s.timeCame link p)
def execTimeSyncLoss (s : State) : Out := .next s.timeLost

end Sys2Proof.Machine
end

