-- ==== Sys2Proof/Machine/Apply.lean ====
section
/-! DEFINITION. Applications of buffered pages of every class, at a request and when their boundaries come (R59 to R64), the
lifecycle state, PAGE_LOCK, and the settings store as it is used at a start (R534, R54, R55, R556, R557). -/

namespace Sys2Proof.Machine

/-! ### Applications (R62 to R64) -/

/-- A page has buffered fields. -/
def buffered (pg : Nat) : Bool :=
  match classOf pg with
  | some (c, j) => (rowsOf c j).any fun r => r.buf != 0
  | none => false

/-- A requested page applies if its natural boundary has come. A CORE page applies at once, and its slots follow (R63). A KV
page waits for the batch boundary itself (R302), or the mode boundary (R353). -/
def State.applyIfReady (s : State) (pg : Nat) : State :=
  if !s.requested pg then s
  else match classOf pg with
    | some (.core, c) => if (s.core c).arb.isEmpty then s.applyCore c else s
    | some (.plan, _) => s.applyStep pg
    | some (.camb, _) => s.applyStep pg
    | some (.kv, _) => s
    | some (.intk, e) => s.applyIntkIdle e
    | some (.cnpy, n) => if n == 9 then s.latch pg else s.applyPort n
    | some (.copp, d) => if s.switches.any fun x => x.2.st != 0 && x.2.on && (s.k == 1 || s.dieOf x.1 == d) then s else s.latch pg
    | _ => s

/-- PAGE_APPLY.REQ is written 1 (R59, R60, R64): a request joins a pending one. On a CORE page that includes a request whose application
has taken place and that some slot has yet to pass (R63): shadow values written since then wait for a further REQ (log entry 95). -/
def State.requestApply (s : State) (pg : Nat) : State :=
  if !buffered pg || s.requested pg then s else (s.setF pg fReq 1).applyIfReady pg

/-- PAGE_APPLY.DISCARD (R59, R60): shadows are reloaded; a request that has not led to its application is cancelled. -/
def State.discard (s : State) (pg : Nat) : State :=
  if !buffered pg then s
  else
    let s := { s with shadow := s.shadow.filter fun x => x.1 / 4096 != pg }
    let taken := match classOf pg with
      | some (.core, c) => !(s.core c).arb.isEmpty
      | _ => false
    if taken then s else { s with applyPassed := AMap.del pg s.applyPassed }.setF pg fReq 0

/-! ### Lifecycle (R534) -/

/-- The lifecycle state by the fuses. -/
def State.lcState (s : State) : Nat :=
  let f := s.f (Pg.sec 3) F.SEC3_LC_FUSES
  if bit f 3 then 4 else if bit f 2 then 3 else if bit f 1 then 2 else if bit f 0 then 1 else 0

/-- Highest debug level of a lifecycle state. -/
def lcDebug (st : Nat) : Nat :=
  match st with
  | 0 => 3
  | 1 => 2
  | 3 => 3
  | _ => 0

/-- The effective debug level. -/
def State.debugLevel (s : State) : Nat := min (lcDebug s.lcState) (s.f (Pg.sec 0) F.SEC0_LIMIT)

/-! ### PAGE_LOCK (R54, R55) -/

def fLock : Fld := ⟨0x00C, 0, 1⟩
def fIgnored : Fld := ⟨0x00C, 8, 8⟩

/-- Every page position in use, in ascending order (R45). -/
def allPages : List Nat := (List.range 0x320).filter fun i => (classOf i).isSome

/-- LOCK is set on every present page (R55). -/
def State.lockPages (s : State) : State :=
  (allPages.filter s.present).foldl (fun s pg => s.setF pg fLock 1) s

/-! ### The power settings' ranges (R41) -/

/-- The value that a write of a PWR register leaves: CAP_W and PEAK_W are clamped, a threshold is not raised above its reset
value. -/
def pwrFix (o old v : Nat) : Nat :=
  let clamp (lo hi x : Nat) : Nat := max lo (min hi x)
  let keep (lo lim : Nat) (w : Nat) : Nat := if lim < bits w lo 8 then putBits w lo 8 (bits old lo 8) else w
  if o == 0x020 then putBits v 0 11 (clamp 600 1400 (bits v 0 11))
  else if o == 0x024 then putBits v 0 11 (clamp 1400 1700 (bits v 0 11))
  else if o == 0x040 then keep 0 0x64 (keep 8 0x69 (keep 16 0x6E v))
  else v

/-! ### Settings at a start (R556, R557) -/

/-- The manifest that runs, none in recovery and for the firmware of manufacture. -/
def State.runMan (s : State) : Option (List Byte) :=
  if s.recovery then none else (s.sec.slot (s.f fwPage F.SEC1_SLOT)).manifest

/-- MIN_SETTINGS_VERSION and SETTINGS_VERSION of the running package; 0 and 0 for the firmware of manufacture (log entry 32). -/
def State.setRange (s : State) : Nat × Nat :=
  match s.runMan with
  | some m => (Man.minVersion m, Man.setVersion m)
  | none => (0, 0)

def Sec.half (x : Sec) (n : Nat) : SetHalf := if n == 0 then x.half0 else x.half1
def Sec.setHalf (x : Sec) (n : Nat) (h : SetHalf) : Sec := if n == 0 then { x with half0 := h } else { x with half1 := h }

/-- The half in use: the complete half of highest SEQ whose VERSION the running package uses. -/
def State.halfInUse (s : State) : Option Nat :=
  let r := s.setRange
  let fit (n : Nat) : Bool := (s.sec.half n).complete && r.1 ≤ (s.sec.half n).version && (s.sec.half n).version ≤ r.2
  match [0, 1].filter fit with
  | [a] => some a
  | [a, b] => if (s.sec.half a).seq < (s.sec.half b).seq then some b else some a
  | _ => none

/-- Records of a half in force: the latest of each key, unless it is a deletion. -/
def SetHalf.live (h : SetHalf) : List SetRecord :=
  h.records.filter fun r => !r.deleted && h.records.all fun x => x.key != r.key || x.seq ≤ r.seq

/-- The record of a key. -/
def SetHalf.get (h : SetHalf) (key : Nat) : Option SetRecord := h.live.find? fun r => r.key == key

/-- The store is made ready for the running package (R557): a new half where none fits, a migrated one where it is older. The
records of a migrated half are those of the older one (log entry 42). -/
def State.openStore (s : State) : State :=
  let x := s.sec
  let set := s.setRange.2
  match s.halfInUse with
  | none =>
    let n := if x.half0.complete && (!x.half1.complete || x.half1.seq < x.half0.seq) then 1 else 0
    let h : SetHalf := { version := set, seq := max x.half0.seq x.half1.seq + 1, complete := true }
    { s with sec := x.setHalf n h }
  | some n =>
    let h := x.half n
    if h.version < set then
      { s with sec := x.setHalf (1 - n) { version := set, seq := h.seq + 1, complete := true, records := h.live } }.event fwPage
        Ev.SEC1_SETTINGS_MIGRATED
    else s

/-- The data of a setting in force. -/
def State.setting (s : State) (key : Nat) : Option (List Byte) :=
  match s.halfInUse with
  | some n => ((s.sec.half n).get key).map fun r => r.data
  | none => none

/-- Write a PWR register from a setting. -/
def State.setPwr (s : State) (o mask v : Nat) : State :=
  s.setReg (Pg.pwr * 4096 + o) (pwrFix o (s.reg (Pg.pwr * 4096 + o)) (v &&& mask))

/-- The settings that the firmware applies before the device is ready (R556). -/
def State.applySettings (s : State) : State :=
  let s := s.openStore
  let s := s.setF fwPage ⟨0x0AC, 0, 16⟩ (match s.halfInUse with | some n => (s.sec.half n).version | none => 0)
  let s := match s.setting 1 with
    | some d => (s.setReg (Pg.cnpy 9 * 4096 + 0x020) (fieldAt d 0 4 &&& 0x1FFFF)).restartAddr
    | none => s
  let s := match s.setting 2 with
    | some d => ((s.setPwr 0x020 0x7FF (fieldAt d 0 4)).setPwr 0x024 0xFFFFFF (fieldAt d 4 4)).setPwr 0x040 0xFFFFFF (fieldAt d 8 4)
    | none => s
  let s := match s.setting 5 with
    | some d => s.setReg (fwPage * 4096 + 0x03C) (fieldAt d 0 4 &&& 3)
    | none => s
  match s.setting 4 with
  | some d => if fieldAt d 0 64 != 0 then s.lockPages else s
  | none => s

/-- Defaults of MEM_SNAP_POLICY and MEM_SNAP_BOUNDS at a partition's creation (R556). -/
def State.snapDefaults (s : State) (p : Nat) : State :=
  match s.setting 3 with
  | some d => (s.setReg (Pg.part p * 4096 + 0x080) (fieldAt d 0 4 &&& 0xFFFFFF)).setReg (Pg.part p * 4096 + 0x084) (fieldAt d 4 4)
  | none => s

end Sys2Proof.Machine
end

