-- ==== Sys2Proof/Machine/Reset.lean ====
section
/-! DEFINITION. Whole-device resets: what each clears and keeps, the start of the security core, and readiness (R25, R31, R33 to R37,
R42, R532, R537, R548, R552 to R556). -/

namespace Sys2Proof.Machine

/-! ### What a reset keeps (R37) -/

/-- A register that a whole-device reset does not return to its reset value: the fuses, the staging state in flash, and at a warm
reset the port configurations and the address that the kept links work under, and the halt of the generator. -/
def keptReg (k : WholeReset) (a : Nat) : Bool :=
  let pg := a / 4096
  let o := a % 4096
  (pg == Pg.sec 3 && (o == 0x020 || o == 0x024 || (0x060 ≤ o && o < 0x0E0))) ||
  (pg == Pg.sec 1 && (o == 0x020 || o == 0x044 || (0x060 ≤ o && o < 0x080) || (0x100 ≤ o && o < 0x1A0))) ||
  (k == .warm && (
    (Pg.cnpy 0 ≤ pg && pg ≤ Pg.cnpy 8 && (o == 0x020 || o == 0x028)) || (pg == Pg.cnpy 9 && o == 0x020) ||
    (pg == Pg.sec 3 && o == 0x120)))

/-- The canopy after a whole-device reset: at a warm one links, address and routes stay, contexts and what runs on them go. -/
def Canopy.after (c : Canopy) (k : WholeReset) : Canopy :=
  if k == .warm then
    { c with ctx := [], seen := [], reqs := [], groups := [], members := [], colls := [], early := [], loop := [] }
  else {}

/-- A function after a whole-device reset: its queues are reset; a cold one resets its configuration too. -/
def Fn.after (x : Fn) (k : WholeReset) : Fn :=
  if k == .warm then { x with sq := [], cq := [], heldCq := [], heldIrq := [] } else {}

/-- Integrity state after a whole-device reset. Entries gathered and not in flash are lost with power (R517). -/
def Integ.after (i : Integ) (k : WholeReset) : Integ :=
  { i with
    gathered := if k == .powerOn then [] else i.gathered
    boot := if k == .powerOn then (i.boot + 1) % 65536 else i.boot
    halted := [], debugged := [], ce := [0, 0, 0, 0], mismatchBase := [], shortCount := [], spacing := [] }

/-- The security core's working state after a whole-device reset; flash and fuses stay. -/
def Sec.after (x : Sec) (k : WholeReset) : Sec :=
  { x with
    buffers := [], assembled := [], activating := false, resetAfter := false, report := none
    rngFails := if k == .warm then x.rngFails else []
    sources := [], needs := [], sent := [] }

/-- Power state when a whole-device reset begins: the root PLL restarts but at a warm reset, where ACLK alone is released again with
the divider of PWR_LIMITS on the next edge of the other five clocks (R30, R31; log entry 159). -/
def Power.after (p : Power) (k : WholeReset) (cause div : Nat) : Power :=
  let w := k == .warm
  { p with
    pllLocked := w && p.pllLocked
    kclk := if w then p.kclk else 0
    time := if w then p.time else 0
    high := if w then p.high else 0
    edge := if w then p.edge else 0
    slew := if w then p.slew else 0
    rate := if w then p.rate else 0
    rateAcc := if w then p.rateAcc else 0
    aclkDiv := if w then (if div == 5 || div == 6 then div else 4) else 4
    aclkFrom := if w then (p.kclk / 12 + 1) * 12 else 0
    samples := [], peakOver := false, sinceRaise := 10, dieStage := 0, dram95 := false
    clockFault := w && p.clockFault
    busUnsure := w && p.busUnsure
    linked := w && p.linked
    reset := some k, cause := cause, booted := false, ready := false, waves := [], waveGap := 4000 }

/-- All cores, held until their waves. -/
def heldCores : AMap Core := (List.range 256).map fun c => (c, { held := true })

/-- The state as a whole-device reset leaves it (R37): the bulk keeps its ciphertext but at power-on, under keys that are gone. -/
def State.clear (s : State) (k : WholeReset) (cause : Nat) : State :=
  let regs := s.regs.filter fun r => keptReg k r.1
  let cnpyAddr := s.reg (Pg.cnpy 9 * 4096 + 0x020)
  let t : State :=
    { pending := s.pending
      mem := s.mem.filter fun c => 2 ^ 64 ≤ c.1 || (inBulk c.1 && k != .powerOn)
      faulty := s.faulty.filter fun u => inBulk u.1 && k != .powerOn
      bulkLost := if k == .powerOn then s.bulkLost + 1 else s.bulkLost
      regs := regs
      out := s.out
      draws := s.draws
      opens := s.opens
      power := s.power.after k cause (s.f Pg.pwr F.PWR_ACLK_DIV)
      integ := s.integ.after k
      vfEnable := k == .warm && s.vfEnable
      numVfs := if k == .warm then s.numVfs else 0
      fns := (s.fns.map fun f => (f.1, f.2.after k))
      cores := heldCores
      canopy := s.canopy.after k
      sec := s.sec.after k }
  let t := if k == .warm then (t.setReg (Pg.cnpy 9 * 4096 + 0x020) cnpyAddr).setF (Pg.sec 3) F.SEC3_FAILS 0 else t
  -- an install that was cut short (R548, R541): the staged package is whole, the slot is not
  if t.f fwPage F.SEC1_STAGE == 3 then t.setF fwPage F.SEC1_STAGE 2 else t

/-! ### Requests (R36) -/

def WholeReset.rank : WholeReset → Nat
  | .warm => 0
  | .cold => 1
  | .powerOn => 2

/-- The module has power for its management domain, so that a reset can take place. -/
def State.powered (s : State) : Bool :=
  match s.power.phase with
  | .off | .lockedOff => false
  | .rising n => 2 ≤ n
  | _ => true

/-- A reset can be carried out: the work domain is not off until PWR_EN falls (R18, R29). -/
def State.resettable (s : State) : Bool := s.power.phase != .workOff

/-- A whole-device reset is requested: it takes effect unless one at least as high is in progress (R36), or the work domain stays off
until PWR_EN falls, so that no start could end (log entry 160). -/
def State.requestWhole (s : State) (k : WholeReset) (cause : Nat) : State :=
  if !s.powered || !s.resettable then s
  else match s.power.reset with
    | some r => if k.rank ≤ r.rank then s else s.clear k cause
    | none => s.clear k cause

/-! ### The start (R33, R552, R554) -/

/-- A new challenge (R537). -/
def State.newChallenge (s : State) : State :=
  let v := Config.draw s.draws
  ({ s with draws := s.draws + 1 }).setRegs (Pg.sec 0 * 4096 + 0x030) ((List.range 4).map fun w => v / 2 ^ (32 * w) % 2 ^ 32)

/-- The management pair works: its image runs (R33 steps 5 to 7), which it does in no recovery (R555), and it is held neither by a difference
(R508) nor by JTAG (R534). -/
def State.mgmtRuns (s : State) : Bool :=
  s.powered && s.power.booted && !s.recovery && s.f Pg.dir F.DIR_LOCKSTEP == 0 && !s.ctrlHalted 12

/-- The waves of a start begin once the processors run and every rail is up (R25, R33). -/
def State.startWaves (s : State) : State :=
  if s.power.reset.isSome && s.mgmtRuns && s.power.phase == .up && s.power.waves.isEmpty &&
      s.cores.any (fun c => c.2.held) then
    s.beginWaves none .device
  else s

/-- The security core starts (R552, R554): challenge, slot, processors released. -/
def State.secBoot (s : State) : State :=
  if s.power.reset.isNone || s.power.booted || !s.power.pllLocked || !s.powered then s
  else
    let s := s.newChallenge.boot
    { s with power := { s.power with booted := true } }.startWaves

/-- A start may end: booted, every rail up, the waves ended under a management pair that runs. -/
def State.startDone (s : State) (k : WholeReset) : Bool :=
  s.power.reset == some k && s.power.booted && s.power.phase == .up && s.power.waves.isEmpty &&
  (s.recovery || (s.mgmtRuns && s.cores.all fun c => !c.2.held))

/-- The device becomes ready (R33 step 9, R37, R42, R516, R556, R565). -/
def State.becomeReady (s : State) : State :=
  let s := { s with power := { s.power with reset := none, ready := true, linked := true } }.setF Pg.pwr F.PWR_CAUSE s.power.cause
  let s := if s.recovery then s else s.applySettings
  let s := s.history 0x0D [s.power.cause]
  if s.f fwPage F.SEC1_FELL_BACK == 1 then s.event fwPage Ev.SEC1_FELL_BACK else s

/-- A whole-device reset completes. -/
def State.endWhole (s : State) (k : WholeReset) : State := if s.startDone k then s.becomeReady else s

/-- The boot watchdog's warm reset (R552): it restarts a start whose firmware is not ready in 10 s, whatever reset that start
belongs to. -/
def State.watchdog (s : State) : State :=
  if !s.powered || s.recovery || !s.power.booted then s
  else match s.power.reset with
    | some _ => s.clear .warm 8
    | none => s

/-! ### Configuration requests (R34) -/

/-- The device carries out configuration requests: its rails are up, PERST_N is high, and it has been ready since power-on and since
PERST_N last fell; a warm reset of a device that has been ready keeps the link (R37), one that the boot watchdog begins in a start
does not make it ready. -/
def State.configures (s : State) : Bool := s.power.phase == .up && s.power.perstN && s.power.linked

/-- A configuration request that the device does not carry out: Request Retry Status from PERST_N rising until it is ready, and no
answer while PERST_N is low or the rails are down. -/
def State.configRetry (s : State) (f : Nat) : State :=
  if s.power.phase == .up && s.power.perstN then s.emit (.configRetry f) else s

end Sys2Proof.Machine
end

