-- ==== Sys2Proof/Machine/HostIf.lean ====
section
/-! DEFINITION. The host link: function configuration, submission and completion queues, MSI-X, BAR2 (R452 to R476). Host memory is
the host's; a command that reads it may bring the bytes that the host has put there. -/

namespace Sys2Proof.Machine

/-! ### Function configuration (R454, R455) -/

/-- A function that may issue requests again writes what it held, completions first and then interrupts, in order (R455). -/
def State.fnRelease (s : State) (f : Nat) : State :=
  if !s.fnReady f then s
  else
    let x := s.fn f
    let s := s.modFn f fun y => { y with heldCq := [], heldIrq := [] }
    let s := x.heldCq.foldl (fun s e => s.writeCqe e.1 e.2.1 e.2.2.1 e.2.2.2) s
    x.heldIrq.foldl (fun s v => s.message f v) s

/-- Bytes of BAR0, BAR2 and BAR4 (R457). -/
def barBytes (n : Nat) : Nat := if n == 0 then 2 ^ 26 else if n == 1 then 2 ^ 36 else 2 ^ 18

/-- The function whose configuration space a change is made in; VF Enable lies in PF0's. -/
def configFn : HostConfig → Nat
  | .bme f _ => f.val
  | .vf _ _ => 0
  | .bar f _ _ => f.val
  | .limits f _ _ _ => f.val

/-- What the configuration space of a function reports that no command changes (R452, R454, R456, R457). -/
structure Identity where
  vendor : Nat
  device : Nat
  revision : Nat
  classCode : Nat
  /-- the Device Serial Number capability -/
  serial : Nat
  /-- the requester ID below the bus number, which ARI makes a function number of 8 bits -/
  function : Nat
  noSoftReset : Bool
  /-- First VF Offset, VF Stride, InitialVFs and TotalVFs, which PF0 reports -/
  sriov : Option (Nat × Nat × Nat × Nat)
  /-- sizes of BAR0, BAR2 and BAR4, for a virtual function in the SR-IOV capability of PF0 -/
  barSizes : List Nat
  /-- entries of the MSI-X table -/
  vectors : Nat
  deriving DecidableEq, Repr

/-- The identity of function f: 0 is PF0 and p + 1 the virtual function of partition p (R46, R456). -/
def State.identity (s : State) (f : Nat) : Identity :=
  { vendor := 0x1F5C, device := if f == 0 then 0x0096 else 0x0097, revision := 0x01, classCode := 0x120000
    serial := s.uid, function := f, noSoftReset := true
    sriov := if f == 0 then some (1, 1, 8, 8) else none
    barSizes := (List.range 3).map barBytes, vectors := vectors f }

/-- Bus Master Enable, the VF enable, a BAR or a limit changes, where the device answers configuration requests (R34). -/
def State.hostConfig (s : State) (c : HostConfig) : State :=
  if !s.configures then s.configRetry (configFn c)
  else match c with
  | .bme f on => (s.modFn f.val fun x => { x with bme := on }).fnRelease f.val
  | .vf e n => (rangeFrom 1 8).foldl (fun s f => s.fnRelease f) { s with vfEnable := e, numVfs := n.val }
  | .bar f n a => s.modFn f.val fun x => { x with bars := AMap.put n.val (a.toNat / barBytes n.val * barBytes n.val) x.bars }
  | .limits f pay rd tmo => s.modFn f.val fun x => { x with payload := pay.val, readSize := rd.val, timeout := tmo.val }

/-- A function enters D3hot or returns to D0 (R34). -/
def State.powerState (s : State) (f : Nat) (d3 : Bool) : State :=
  if !s.configures then s.configRetry f else (s.modFn f fun x => { x with d3hot := d3 }).fnRelease f

/-- The windows of a function that serves no present partition act as R47 does (R456). -/
def State.fnPresent (s : State) (f : Nat) : Bool := f == 0 || s.partHere (f - 1)

/-! ### Submission queues (R462 to R466) -/

/-- Registers of queue q of function f. -/
def State.sqF (s : State) (f q : Nat) (x : Fld) : Nat := s.f (Pg.host f 1) (x.sh (16 * q))
def State.cqF (s : State) (f q : Nat) (x : Fld) : Nat := s.f (Pg.host f 2) (x.sh (16 * q))
def State.sqSize (s : State) (f q : Nat) : Nat := 2 ^ queueLog2 (s.sqF f q F.HOST1_LOG2)
def State.cqSize (s : State) (f q : Nat) : Nat := 2 ^ queueLog2 (s.cqF f q F.HOST2_LOG2)

/-- A queue stops (R462). -/
def State.sqStop (s : State) (f q : Nat) : State :=
  let s := (s.setF (Pg.host f 1) (F.HOST1_EN.sh (16 * q)) 0).setF (Pg.host f 1) (F.HOST1_ERROR.sh (16 * q)) 1
  s.event (Pg.host f 0) Ev.HOST0_QUEUE_ERROR

/-- Entries that the doorbell offers: TAIL − HEAD as a signed number. -/
def SubQueue.offered (x : SubQueue) : Int := sx 32 ((x.tail + 2 ^ 32 - x.head) % 2 ^ 32)

/-- A write of a submission queue's doorbell (R462). -/
def State.sqBell (s : State) (f q v : Nat) : State :=
  if !s.fnPresent f then s.satF Pg.dir F.DIR_COUNT
  else if s.sqF f q F.HOST1_EN == 0 then s
  else
    let s := s.modSq f q fun x => { x with tail := v }
    let d := (s.sqState f q).offered
    if d < 0 || Int.ofNat (s.sqSize f q) < d then s.sqStop f q else s

/-- A write of HOST_SQ_CTRL (R462): BASE, LOG2 and CQ ignore writes while EN is 1. `v` is the composed word. -/
def State.sqCtrl (s : State) (f q v : Nat) : State :=
  let pg := Pg.host f 1
  let d := 16 * q
  let was := s.sqF f q F.HOST1_EN
  let v := if was == 1 then putBits (putBits v 1 5 (s.sqF f q F.HOST1_LOG2)) 6 4 (s.sqF f q F.HOST1_CQ) else v
  let s := s.setReg (pg * 4096 + 0x048 + d) v
  if was == 0 && bit v 0 then
    (s.modSq f q fun x => { x with head := 0, tail := 0 }).setF pg (F.HOST1_ERROR.sh d) 0
  else s

/-- A write of HOST_CQ_CTRL (R474): a VECTOR beyond the table is refused; LOG2 ignores writes while EN is 1. -/
def State.cqCtrl (s : State) (f q v : Nat) : State :=
  let pg := Pg.host f 2
  let d := 16 * q
  if vectors f ≤ bits v 6 8 then s.event (Pg.host f 0) Ev.HOST0_QUEUE_REFUSED
  else
    let was := s.cqF f q F.HOST2_EN
    let v := if was == 1 then putBits v 1 5 (s.cqF f q F.HOST2_LOG2) else v
    let s := s.setReg (pg * 4096 + 0x048 + d) v
    if was == 0 && bit v 0 then s.modCq f q fun c => { c with head := 0, tail := 0 } else s

/-- A write of a completion queue's doorbell (R468). -/
def State.cqBell (s : State) (f q v : Nat) : State :=
  if !s.fnPresent f then s.satF Pg.dir F.DIR_COUNT
  else
    let c := s.cqState f q
    if (v + 2 ^ 32 - c.head) % 2 ^ 32 ≤ (c.tail + 2 ^ 32 - c.head) % 2 ^ 32 then s.modCq f q fun c => { c with head := v }
    else s.event (Pg.host f 0) Ev.HOST0_QUEUE_ERROR

/-- Address of the slot of entry n of a submission queue. -/
def State.sqSlot (s : State) (f q n : Nat) : Nat :=
  let base := s.f2 (Pg.host f 1) (F.HOST1_BASE_LO.sh (16 * q)) (F.HOST1_BASE_HI.sh (16 * q)) / 4096 * 4096
  base + 128 * (n % s.sqSize f q)

/-- Room for one more completion on a queue (R468). -/
def State.cqRoom (s : State) (f q : Nat) : Bool :=
  let c := s.cqState f q
  (c.tail + 2 ^ 32 - c.head) % 2 ^ 32 + c.owed < s.cqSize f q

/-- Fetch the next entry, while the queue offers one and its completion has room. -/
def State.fetchOne (s : State) (f q : Nat) : State :=
  let x := s.sqState f q
  if s.sqF f q F.HOST1_EN == 0 || x.offered < 1 || Int.ofNat (s.sqSize f q) < x.offered then s
  else
    let b := s.bytes (hostKey (s.sqSlot f q x.head)) 128
    let cqe := bit (fieldAt b 0 4) 6
    let cq := s.sqF f q F.HOST1_CQ
    if cqe && !s.cqRoom f cq then s
    else
      let s := if cqe then s.modCq f cq fun c => { c with owed := c.owed + 1 } else s
      let s := s.modSq f q fun x => { x with
        head := (x.head + 1) % 2 ^ 32, fetched := x.fetched ++ [(s.entryRef f q x.head b, b)]
        since := if x.fetched.isEmpty then s.power.time else x.since }
      (s.incF (Pg.host f 0) F.HOST0_ENTRIES).incF (Pg.host f 3) (F.HOST3_SQ_FETCHED.sh (4 * q))

/-- A read of n + 1 consecutive entries returns, or fails (R462, R465). `host` are the bytes that the host has put into the slots,
empty where the model's host memory holds them already. -/
def State.sqFetch (s : State) (f q n : Nat) (host : Option (List Byte)) : State :=
  let x := s.sqState f q
  if !s.fnReady f || s.sqF f q F.HOST1_EN == 0 || x.offered < 1 then s
  else match host with
    | none => s.sqStop f q
    | some d =>
      let l := (chunks 128 (n + 1) d).mapIdx fun i e => (i, e)
      let s := l.foldl (fun s e => s.poke (hostKey (s.sqSlot f q (x.head + e.1))) e.2) s
      (List.range (n + 1)).foldl (fun s _ => s.fetchOne f q) s

/-- The front entry of a queue that is not held by a WAIT. -/
def State.sqFront (s : State) (f q : Nat) : Option (HostRef × List Byte) :=
  let x := s.sqState f q
  if x.wait.isSome then none else x.fetched.head?

/-- A kind that R464 lists, without a reserved bit. -/
def entryOk (b : List Byte) : Bool := bits (fieldAt b 0 4) 0 4 ≤ 4 && bits (fieldAt b 0 4) 19 13 == 0 && bits (fieldAt b 4 4) 13 19 == 0

/-- The planner of an inline forme (R165); one whose first core lies outside its partition goes to the die of the partition (log
entry 171). -/
def State.sqPlanner (s : State) (p : Nat) (b : List Byte) : Nat :=
  let n := bits (fieldAt b 0x44 4) 0 8
  plannerOf (s.coresPer * p + (if n < s.coresPer then n else 0)) (bits (fieldAt b 0 4) 4 2)

/-- The front entry of a queue can be handed on now: a forme needs room at its planner (R465). -/
def State.sqReady (s : State) (f q : Nat) : Bool :=
  match s.sqFront f q with
  | none => false
  | some (_, b) =>
    let p := entryPart f b
    if entryOk b && bits (fieldAt b 0 4) 0 4 == 1 && s.active p then
      !s.plannerShut (s.sqPlanner p b) && !s.plannerFull (s.sqPlanner p b)
    else true

/-- Functions with an entry ready; one that may issue no requests still hands on what it has fetched (R455). -/
def State.fnsReady (s : State) : List Nat := (List.range 9).filter fun f => (List.range 16).any fun q => s.sqReady f q

/-- The function that the device serves next: each in turn, in ascending number (R466). -/
def State.nextFn (s : State) : Option Nat :=
  let l := s.fnsReady
  match l.find? fun f => s.hostTurn < f with
  | some f => some f
  | none => l.head?

/-- The queue that a function's engine picks (R429, R466), and the credits after the pick. -/
def State.pickSq (s : State) (f : Nat) : Option (Nat × AMap Int) :=
  let urg (p : Nat) : Nat := 10000 * max 1 (s.f (Pg.host f 0) ⟨0x028, 8 * p, 8⟩)
  let l := ((List.range 16).filter fun q => s.sqReady f q).map fun q =>
    let p := s.sqF f q F.HOST1_PRIORITY
    (q, p, max 1 (s.sqF f q F.HOST1_WEIGHT), s.power.time - (s.sqState f q).since, urg p)
  arbitrate l (s.fn f).arb

/-- Take the front entry off its queue. -/
def State.sqTake (s : State) (f q : Nat) (arb : AMap Int) : State :=
  let s := s.modSq f q fun x => { x with fetched := x.fetched.tail, since := s.power.time }
  { s.modFn f fun x => { x with arb := arb } with hostTurn := f }

/-- The queue engines hand on the front entry of queue q of function f, if it is next by R466, its kind is the one asked for, and
no reserved bit is set; it ends at once where its partition is not ACTIVE (R464). -/
def State.handOn (s : State) (f q kind : Nat) (act : State → Nat → HostRef → List Byte → State) : State :=
  match s.sqFront f q, s.pickSq f with
  | some (r, b), some (q', arb) =>
    if s.nextFn != some f || q' != q || !entryOk b || bits (fieldAt b 0 4) 0 4 != kind then s
    else
      let p := entryPart f b
      let s := s.sqTake f q arb
      if !s.active p then s.endEntry r 0x61 0 else act s p r b
  | _, _ => s

/-- FORME (R464): the planner takes the inline forme as one posted by a thread of SLOT. -/
def State.sqForme (s : State) (p : Nat) (r : HostRef) (b : List Byte) : State :=
  s.takeForme (s.sqPlanner p b) p (bits (fieldAt b 0 4) 4 2) ((b.drop 0x40).take 64) (some r) none

/-- START (R464). -/
def State.sqStart (s : State) (p : Nat) (r : HostRef) (b : List Byte) : State :=
  let w := fieldAt b 0 4
  let c := bits w 8 8
  let ctr := bits (fieldAt b 4 4) 0 13
  if s.coresPer ≤ c then s.endEntry r 0x62 0
  else if bit w 7 && s.ctrsPer ≤ ctr then s.endEntry r 0x03 0
  else
    s.startReq (s.coresPer * p + c) (bits w 4 2)
      { pc := fieldAt b 0x18 8, args := (List.range 4).map fun i => fieldAt b (0x20 + 8 * i) 8
        endCtr := if bit w 7 then some (s.devCtr p ctr) else none, host := some r, epi := none }

/-- SYNC_ADD (R464). -/
def State.sqAdd (s : State) (p : Nat) (r : HostRef) (b : List Byte) : State :=
  let ctr := bits (fieldAt b 4 4) 0 13
  if s.ctrsPer ≤ ctr then s.endEntry r 0x03 0
  else (s.opAdd (s.devCtr p ctr) (sx 32 (fieldAt b 8 4))).endEntry r 0 0

/-- WAIT (R464, R118): the current value is tested at once. -/
def State.sqHold (s : State) (f q p : Nat) (r : HostRef) (b : List Byte) : State :=
  let ctr := bits (fieldAt b 4 4) 0 13
  let t := fieldAt b 8 4
  if s.ctrsPer ≤ ctr then s.endEntry r 0x03 0
  else
    let c := s.devCtr p ctr
    let s := s.countOp c
    if meets (s.value c) t then s.endEntry r 0 0
    else s.modSq f q fun x => { x with wait := some (r, c, t, s.power.kclk, 1000 * fieldAt b 0x0C 4, false) }

/-- A WAIT entry ends with a status. The age of its queue has run on while later entries waited behind it (R429). -/
def State.sqRelease (s : State) (f q : Nat) (r : HostRef) (status : Nat) : State :=
  (s.modSq f q fun x => { x with wait := none }).endEntry r status 0

/-- The counter of a WAIT entry has met its target. -/
def State.sqMet (s : State) (f q : Nat) : State :=
  match (s.sqState f q).wait with
  | some (r, _, _, _, _, true) => s.sqRelease f q r 0
  | _ => s

/-- The timeout of a WAIT entry expires, unless its counter has met the target (R118). -/
def State.sqExpires (s : State) (f q : Nat) : State :=
  match (s.sqState f q).wait with
  | some (r, _, _, k, lim, false) => if !inTime k lim s.power.kclk then s.sqRelease f q r 0x04 else s
  | _ => s

/-- An entry with an unknown KIND or a reserved bit set ends with BAD_ENTRY (R464). -/
def State.sqBad (s : State) (f q : Nat) : State :=
  match s.sqFront f q, s.pickSq f with
  | some (r, b), some (q', arb) =>
    if s.nextFn != some f || q' != q || entryOk b then s
    else (s.sqTake f q arb).endEntry r 0x60 0
  | _, _ => s

/-! ### Interrupts (R472, R473) -/

/-- The oldest unsignalled entry of a completion queue reaches its age. -/
def State.cqDelay (s : State) (f q : Nat) : State :=
  let c := s.cqState f q
  if s.cqF f q F.HOST2_IRQ_EN == 1 && c.unsignalled != 0 &&
      c.oldest + 1000 * max 1 (s.cqF f q F.HOST2_DELAY_US) ≤ s.power.time then
    s.interrupt f (s.cqF f q F.HOST2_VECTOR)
  else s

/-- Send the pending messages of a function that are not masked. -/
def State.sendPending (s : State) (f : Nat) : State :=
  let x := s.fn f
  if x.fnMask then s
  else
    let go := x.pba.filter fun v => x.unmasked.contains v
    let s := s.modFn f fun y => { y with pba := y.pba.filter fun v => !go.contains v }
    go.foldl (fun s v => s.message f v) s

/-- A vector's entry of the MSI-X table, its mask bit with it, or the function mask is written (R473, R475). The table lies in BAR4, which
acts by R47 on a function without a present partition (R456); the function mask lies in configuration space (R34). -/
def State.msixMask (s : State) (f : Nat) (vec : Option (Nat × Option (Nat × Nat))) (mask : Bool) : State :=
  match vec with
  | none => if !s.configures then s.configRetry f else (s.modFn f fun x => { x with fnMask := mask }).sendPending f
  | some (v, msg) =>
    if !s.fnPresent f then s.satF Pg.dir F.DIR_COUNT
    else if vectors f ≤ v then s
    else
      (s.modFn f fun x => { x with
        unmasked := if mask then x.unmasked.filter fun y => y != v else if x.unmasked.contains v then x.unmasked else v :: x.unmasked
        table := match msg with
          | some m => AMap.put v m x.table
          | none => x.table }).sendPending f

/-- A 32-bit word of BAR4, as a host read of it finds it (R475); the rows of commands hold no such read. -/
def State.bar4Word (s : State) (f o : Nat) : Nat :=
  let x := s.fn f
  let q := o / 0x1000 % 16
  if !s.fnPresent f then 0
  else if o < 0x10000 then
    if o % 0x1000 == 0 then (s.sqState f q).tail else if o % 0x1000 == 4 then (s.sqState f q).head else 0
  else if o < 0x20000 then
    if o % 0x1000 == 0 then (s.cqState f q).head else if o % 0x1000 == 4 then (s.cqState f q).tail else 0
  else if o < 0x20000 + 16 * vectors f then
    let v := (o - 0x20000) / 16
    let m := AMap.getD v (0, 0) x.table
    match o / 4 % 4 with
    | 0 => m.1 % 2 ^ 32
    | 1 => m.1 / 2 ^ 32
    | 2 => m.2
    | _ => b2n (!x.unmasked.contains v)
  else if 0x30000 ≤ o && o < 0x30000 + vectors f / 8 then
    (x.pba.filter fun v => v / 32 == (o - 0x30000) / 4).foldl (fun a v => a ||| 2 ^ (v % 32)) 0
  else 0

/-! ### BAR2 (R458, R459, R91) -/

/-- The partition of a function's BAR2. -/
def State.bar2Part (s : State) (f : Nat) : Nat := if f == 0 then s.f (Pg.host 0 0) F.HOST0_PARTITION else f - 1

/-- The address of a BAR2 offset in the partition's translated space. -/
def State.bar2Addr (s : State) (f off : Nat) : Nat := s.f (Pg.host f 0) F.HOST0_WINDOW * 2 ^ 36 + off

/-- Why a BAR2 access fails: the code of CAUSE (R459, R474), and the offset of the first failing byte. -/
def State.bar2Fault (s : State) (f off n : Nat) (write : Bool) : Option (Nat × Nat) :=
  let p := s.bar2Part f
  if !s.partHere p then some (3, off)
  else (pieces (s.bar2Addr f off) n).findSome? fun x =>
    let e := s.entry p (bits x.1 21 19)
    let o := off + (x.1 - s.bar2Addr f off)
    if !bit e 0 then some (0, o) else if bits e 1 2 == 2 then some (2, o) else if write && !bit e 3 then some (1, o) else none

/-- A BAR2 failure is counted and the first recorded (R459). -/
def State.bar2Fail (s : State) (f cause off : Nat) : State :=
  let pg := Pg.host f 0
  let s := (s.satF pg F.HOST0_COUNT).event pg Ev.HOST0_BAR2_FAULT
  if s.f pg F.HOST0_VALID == 1 then s
  else (((s.setF pg F.HOST0_OFFSET_LO (off % 2 ^ 32)).setF pg F.HOST0_OFFSET_HI (off / 2 ^ 32)).setF pg F.HOST0_CAUSE cause).raiseF
    pg F.HOST0_VALID

/-- A host read of BAR2. The words of a block with an uncorrectable error read as ones, and a record is written (R91); an error that the
command brings has its place as a byte of the read. -/
def State.bar2Read (s : State) (f off n : Nat) (found : ReadErrors) : State :=
  let p := s.bar2Part f
  let zero := List.replicate n (0 : Byte)
  if !s.fnPresent f then (s.satF Pg.dir F.DIR_COUNT).emit (.readData zero)
  else match s.bar2Fault f off n false with
    | some (c, o) => (s.bar2Fail f c o).emit (.readData zero)
    | none =>
      let a := s.bar2Addr f off
      let place (i : Nat) : Nat := bits (s.entry p (bits (a + i) 21 19)) 21 43 * 2 ^ 21 + bits (a + i) 0 21
      let s := (s.correctedFor p found.corrected).linksFor p found.links
      -- errors: the place of the read that finds each, its unit, the bits or symbols, and whether the link failed
      let stored := (pieces a n).flatMap fun x => (s.faultyIn (place (x.1 - a)) x.2).map fun u => (x.1 - a, u.1, u.2, false)
      let new := match found.uncorrectable with
        | some (k, sym) =>
          let u := place k / unitBytes (place k) * unitBytes (place k)
          if k < n && !stored.any (fun e => e.2.1 == u) then [(k, u, sym.toNat, found.link)] else []
        | none => []
      let bad := stored ++ new
      let data := (pieces a n).flatMap fun x => s.phys (place (x.1 - a)) x.2
      let shown := data.mapIdx fun i v =>
        if bad.any (fun e => e.2.1 ≤ place i && place i < e.2.1 + unitBytes e.2.1) then (255 : Byte) else v
      bad.foldl (fun s e => s.uncorrectable e.2.1 e.2.2.1 (a + e.1) e.2.2.2) (s.emit (.readData shown))

/-- A host write of BAR2; a write to a page that holds its writes waits (R458, R483), and one of a part of a unit in error finds the error
(R90). -/
def State.bar2Write (s : State) (f off : Nat) (b : List Byte) : State :=
  let p := s.bar2Part f
  if !s.fnPresent f then s.satF Pg.dir F.DIR_COUNT
  else match s.bar2Fault f off b.length true with
    | some (c, o) => s.bar2Fail f c o
    | none => match s.store p none (s.bar2Addr f off) b (.unit (0x340 + f)) with
      | (s, some e) => s.faultRecord p (0x340 + f) e.2 e.1
      | (s, none) => s

/-! ### Commands -/

/-- R455. -/
def execBmeChange (c : HostConfig) (s : State) : Out := .next (s.hostConfig c)
/-- R454. -/
def execPowerStateChange (f : Fin 9) (d3 : Bool) (s : State) : Out := .next (s.powerState f.val d3)
/-- R462. -/
def execSqDoorbell (f : Fin 9) (q : Fin 16) (tail : Word) (s : State) : Out := .next (s.sqBell f.val q.val tail.toNat)
/-- R468. -/
def execCqDoorbell (f : Fin 9) (q : Fin 16) (head : Word) (s : State) : Out := .next (s.cqBell f.val q.val head.toNat)
/-- R462, R465. -/
def execSqEntryFetch (f : Fin 9) (q : Fin 16) (n : Fin 8) (host : Option (List Byte)) (s : State) : Out :=
  .next (s.sqFetch f.val q.val n.val host)
/-- R464. -/
def execSqNop (f : Fin 9) (q : Fin 16) (s : State) : Out := .next (s.handOn f.val q.val 0 fun s _ r _ => s.endEntry r 0 0)
/-- R464, R465. -/
def execSqForme (f : Fin 9) (q : Fin 16) (s : State) : Out := .next (s.handOn f.val q.val 1 State.sqForme)
/-- R464. -/
def execSqStart (f : Fin 9) (q : Fin 16) (s : State) : Out := .next (s.handOn f.val q.val 2 State.sqStart)
/-- R464. -/
def execSqSyncAdd (f : Fin 9) (q : Fin 16) (s : State) : Out := .next (s.handOn f.val q.val 3 State.sqAdd)
/-- R464. -/
def execSqWait (f : Fin 9) (q : Fin 16) (s : State) : Out := .next (s.handOn f.val q.val 4 fun s => s.sqHold f.val q.val)
/-- R464. -/
def execSqWaitMet (f : Fin 9) (q : Fin 16) (s : State) : Out := .next (s.sqMet f.val q.val)
/-- R118. -/
def execSqWaitTimeout (f : Fin 9) (q : Fin 16) (s : State) : Out := .next (s.sqExpires f.val q.val)
/-- R464. -/
def execBadEntry (f : Fin 9) (q : Fin 16) (s : State) : Out := .next (s.sqBad f.val q.val)
/-- R472. -/
def execCqIrqDelay (f : Fin 9) (q : Fin 16) (s : State) : Out := .next (s.cqDelay f.val q.val)
/-- R473. -/
def execMsixUnmask (f : Fin 9) (vec : Option (BitVec 8 × Option (Dword × Word))) (mask : Bool) (s : State) : Out :=
  .next (s.msixMask f.val (vec.map fun v => (v.1.toNat, v.2.map fun m => (m.1.toNat, m.2.toNat))) mask)
/-- R458, R459, R91. -/
def execBar2Read (f : Fin 9) (off : BitVec 36) (n : BitVec 13) (found : ReadErrors) (s : State) : Out :=
  .next (s.bar2Read f.val off.toNat n.toNat found)
/-- R458, R459. -/
def execBar2Write (f : Fin 9) (off : BitVec 36) (data : List Byte) (s : State) : Out := .next (s.bar2Write f.val off.toNat data)
/-- R90. -/
def execHostReadFail (p : Fin 8) (unit : BitVec 16) (addr bus : Dword) (s : State) : Out :=
  .next (s.hostFail p.val unit.toNat addr.toNat bus.toNat)

end Sys2Proof.Machine
end

