-- ==== Sys2Proof/Machine/Failures.lean ====
section
/-! DEFINITION. The ends of snapshots, replays and fills as events, the snapshot interval that the firmware computes, and the fault
history as entries of the flash ring (R410, R481 to R499, R515 to R517). -/

namespace Sys2Proof.Machine

/-! ### Fault-history entries (R410, R515) -/

/-- The 64 bytes of an entry (R515). -/
def FhEntry.bytes (e : FhEntry) (seq : Nat) : List Byte :=
  let b := toBytes 4 seq ++ toBytes 4 (e.kind % 256 + e.boot % 65536 * 65536) ++ toBytes 8 e.time ++
    ((e.payload ++ List.replicate 8 0).take 8).flatMap (fun w => toBytes 4 w) ++ toBytes 12 0
  b ++ toBytes 4 (crc32c b)

/-- An entry of the ring is whole. -/
def fhWhole (b : List Byte) : Bool := crc32c (b.take 0x3C) == fieldAt b 0x3C 4

/-- What the ring holds in a slot: erased flash where nothing has been written. -/
def State.fhSlot (s : State) (n : Nat) : List Byte := AMap.getD (n % 65536) (List.replicate 64 0xFF) s.integ.ring

/-! ### The snapshot interval (R495, R516) -/

/-- Integer square root. -/
def isqrtFuel : Nat → Nat → Nat → Nat → Nat
  | 0, _, lo, _ => lo
  | f + 1, n, lo, hi =>
    if hi ≤ lo + 1 then lo
    else
      let m := (lo + hi) / 2
      if m * m ≤ n then isqrtFuel f n m hi else isqrtFuel f n lo m

/-- Weight of an entry for the score of R495 in units of 1/4096. -/
def fhScore (b : List Byte) : Nat :=
  match fieldAt b 4 1 with
  | 0x04 => 256 * fieldAt b 0x14 4
  | 0x05 => 4096
  | 0x06 => 4096
  | 0x07 => fieldAt b 0x10 4 + fieldAt b 0x14 4 + fieldAt b 0x18 4 + fieldAt b 0x1C 4
  | _ => 0

/-- AUTO_MS for a partition's policy (R495). Entries of an earlier start stand on another time scale, and the spec does not say how
their age is told: where one could count, the interval is an open value within its bounds (log entry 44). -/
def State.autoMs (s : State) (p : Nat) : Nat :=
  let pg := Pg.part p
  let hours := max 1 (s.f pg F.MEMP_WINDOW_H)
  let good := (s.integ.ring.map fun x => x.2).filter fun b => fhWhole b && fhScore b != 0
  let foreign (b : List Byte) : Bool := fieldAt b 6 2 != s.integ.boot || s.power.time < fieldAt b 8 8
  let within := good.filter fun b => s.power.time ≤ fieldAt b 8 8 + hours * 3600 * 1000000000
  let score := max 4096 ((within.map fhScore).foldl (fun a b => a + b) 0)
  let cost := if s.f pg F.MEMP_COST_US == 0 then 100000 else s.f pg F.MEMP_COST_US
  let sq := 2 * cost * hours * 3600 * 4096 / (score * max 1 (s.f pg F.MEMP_SCALE))
  let root := isqrtFuel 128 sq 0 (2 ^ 64)
  let v := if good.any foreign then Config.open s.opens else root
  min (1000 * s.f pg F.MEMP_MAX_S) (max (1000 * s.f pg F.MEMP_MIN_S) v)

/-- R495, for every partition with AUTO set. -/
def State.snapIntervals (s : State) : State :=
  if !s.mgmtRuns then s
  else (List.range s.k).foldl (fun s p =>
    if s.f (Pg.part p) F.MEMP_AUTO == 1 then
      { s with opens := s.opens + 1 }.setF (Pg.part p) F.MEMP_AUTO_MS (s.autoMs p)
    else s) s

/-! ### Snapshots, replays and fills end (R485, R494, R497, R499) -/

/-- MEM_SNAP_CMD.REQ is written 1: in SERVICE the snapshot begins at once (R481). -/
def State.snapAsk (s : State) (p : Nat) : State :=
  let s := s.setF (Pg.part p) F.MEMP_REQ 1
  if (s.part p).overlay == .service then s.snapTry p else s

/-- A snapshot whose destination writes have all been accepted completes. -/
def State.snapEnds (s : State) (p : Nat) : State :=
  match AMap.get? p s.snaps with
  | some x => if s.snapDone p x then s.snapComplete p x else s
  | none => s

/-- A replay ends, which is a boundary of a partition in SERVICE (R62, R494). -/
def State.replayOver (s : State) (p : Nat) (x : Replay) : State :=
  if (s.part p).overlay == .service then (s.replayEnd p x).passBoundary p else s.replayEnd p x

/-- A replay that has run its items, or has stopped, ends. -/
def State.replayEnds (s : State) (p : Nat) : State :=
  match AMap.get? p s.replays with
  | some x => if x.stopped.isSome || x.count ≤ x.next then s.replayOver p x else s
  | none => s

/-- Start a replay; one that may not run ends at once (R494). -/
def State.replayBegin (s : State) (p list : Nat) (fill : Bool) : State :=
  let s := s.replayStart p list fill
  match AMap.get? p s.replays with
  | some x => if x.stopped.isSome then s.replayOver p x else s
  | none => s

/-- CAMB_REPLAY_CMD.START on a lead page: a second start during a replay is ignored. -/
def State.replayAsk (s : State) (unit : Nat) : State :=
  let p := s.unitPart unit
  if s.lead p != unit || (AMap.get? p s.replays).isSome || !s.active p then s
  else
    let pg := Pg.camb unit
    s.replayBegin p (s.f2 pg F.CAMBL_LIST_LO F.CAMBL_LIST_HI / 32 * 32) false

/-- MEM_FILL_CMD.START (R496). -/
def State.fillAsk (s : State) (p : Nat) : State :=
  let st := s.fillState p
  if (st == 0 || st == 5 || st == 6) && s.active p && (s.part p).overlay == .service then s.fillStart p else s

/-- MEM_FILL_CMD.ABORT (R497). -/
def State.fillAbort (s : State) (p : Nat) : State :=
  let st := s.fillState p
  if 1 ≤ st && st ≤ 4 then s.fillHalt p 0x0A else s

/-- CHECK ends once the record is here (R497). -/
def State.fillChecked (s : State) (p : Nat) : State :=
  match AMap.get? p s.fills with
  | some x =>
    if s.fillState p != 1 || x.lost.isSome || !x.complete then s
    else if x.passes then s.setFillState p 2
    else s.fillHalt p 0x06
  | none => s

/-- COPY ends (R497): a replay follows where the descriptor names one. -/
def State.fillCopyEnds (s : State) (p : Nat) : State :=
  match AMap.get? p s.fills with
  | some x =>
    if s.fillState p != 2 || x.lost.isSome || !s.fillCopied p x then s
    else
      let s := s.showFillPages p
      let l := fieldAt x.desc 0x10 8
      if l == 0 then s.setFillState p 4
      else (s.setFillState p 3).replayBegin p (l / 32 * 32) true
  | none => s

/-- INSTALL ends (R499). -/
def State.fillInstalls (s : State) (p : Nat) : State :=
  match AMap.get? p s.fills with
  | some x => if s.fillState p == 4 then s.install p x else s
  | none => s

def execTouchCopyDone (p : Fin 8) (s : State) : Out := .next (s.touchCopy p)
def execSnapshotComplete (p : Fin 8) (s : State) : Out := .next (s.snapEnds p)
/-- R493. -/
def execReplayItem (p : Fin 8) (s : State) : Out := .next (s.replayItem p)
/-- R494. -/
def execReplayEnd (p : Fin 8) (s : State) : Out := .next (s.replayEnds p)
/-- R495. -/
def execSnapIntervalCompute (s : State) : Out := .next s.snapIntervals
def execFillCheckDone (p : Fin 8) (s : State) : Out := .next (s.fillChecked p)
def execFillCopyDone (p : Fin 8) (s : State) : Out := .next (s.fillCopyEnds p)
def execFillInstallDone (p : Fin 8) (s : State) : Out := .next (s.fillInstalls p)

end Sys2Proof.Machine
end

