-- ==== Sys2Proof/Machine/Integrity.lean ====
section
/-! DEFINITION. The lockstep pair, control processors, the audit, the fault history in flash and impressions (R506 to R527). -/

namespace Sys2Proof.Machine

/-! ### Control processors (R507, R508) -/

/-- The two cores of the management pair differ: the pair is held (R508). -/
def State.lockstep (s : State) : State :=
  if !s.mgmtRuns then s
  else ((s.setF Pg.dir F.DIR_LOCKSTEP 1).history 0x0B []).event Pg.dir Ev.DIR_LOCKSTEP_FAULT

/-- A control processor halts on an uncorrectable error of its local memory (R507); the pair reports it. -/
def State.ctrlUe (s : State) (n : Nat) : State :=
  if !s.power.booted || s.integ.halted.contains n then s
  else
    let s := { s with integ := { s.integ with halted := s.integ.halted ++ [n] } }
    if !s.mgmtRuns then s else (s.history 0x0C [n]).event Pg.dir Ev.DIR_CTRL_CORE_UE

/-! ### Proof summaries and suspects (R509, R510) -/

/-- One core at the end of an audit period. A page that was reset in the period counts from 0. -/
def State.auditCore (s : State) (c : Nat) : State :=
  let n := s.f (Pg.core c) F.CORE_MISMATCHES
  let b := AMap.getD c 0 s.integ.mismatchBase
  let s := if n == b then s else s.history 0x08 [c, if b ≤ n then n - b else n]
  let s := { s with integ := { s.integ with mismatchBase := AMap.put c n s.integ.mismatchBase } }
  if max 1 (s.f Pg.dir F.DIR_SHORT_LIMIT) ≤ AMap.getD c 0 s.integ.shortCount then s.markSuspect c 1 else s

/-- Every 100 ms. -/
def State.auditPeriod (s : State) : State :=
  if !s.mgmtRuns then s
  else
    let s := (List.range 256).foldl (fun s c => s.auditCore c) s
    { s with integ := { s.integ with shortCount := [] } }

/-! ### The audit (R511 to R514) -/

/-- Registers that the audit leaves out (R511). -/
def unaudited (c : PClass) (j o : Nat) : Bool :=
  match c with
  | .sync => o == 0x024 || 0x800 ≤ o
  | .mem => 24 ≤ j && (o == 0x034 || o == 0x038 || o == 0x078)
  | .cnpy => j == 9 && 0x080 ≤ o && o < 0x0C0
  | .camb => o == 0x080 || o == 0x084
  | .dir => o == 0x300
  | _ => false

/-- Offset o of a page holds an audited word. The registers of R297 exist on lead pages only. -/
def State.audited (s : State) (pg o : Nat) : Bool :=
  match classOf pg with
  | none => false
  | some (c, j) =>
    if c == .camb && 0x080 ≤ o && o < 0x100 && s.lead (s.unitPart j) != j then false
    else if o == oMask || o == oLock then true
    else match rowAt (rowsOf c j) o with
      | some (r, v) => (r.rw ||| r.wl) != 0 && !unaudited c j o && (r.ov == 0 || v != 0)
      | none => false

/-- The last audited word of the device: the end of a pass (R514). -/
def State.lastAudited (s : State) : Nat :=
  let pg := (allPages.filter s.present).foldl (fun a b => max a b) 0
  pg * 1024 + ((List.range 1024).filter fun w => s.audited pg (4 * w)).foldl (fun a b => max a b) 0

/-- The procedure of R513 for a word that reads otherwise than its reference. -/
def State.auditMismatch (s : State) (pg word ref v : Nat) : State :=
  let s := s.satF Pg.dir F.DIR_MISMATCHES
  let s := if s.f Pg.dir F.DIR_VALID_28C == 1 then s
    else ((s.setF Pg.dir F.DIR_PAGE pg).setF Pg.dir F.DIR_WORD word).raiseF Pg.dir F.DIR_VALID_28C
  (s.event Pg.dir Ev.DIR_AUDIT_MISMATCH).history 0x0A [pg, 4 * word, ref, v]

/-- The firmware reads an audited word; `upset` is the value that it holds after a spontaneous change (R506, R512). -/
def State.auditRead (s : State) (pg word : Nat) (upset : Option Nat) : State :=
  if !s.mgmtRuns || s.f Pg.dir F.DIR_EN == 0 || !s.present pg || !s.audited pg (4 * word) then s
  else
    let a := pg * 4096 + 4 * word
    let s := match upset with
      | some v => if v == s.reg a then s else (s.setReg a v).auditMismatch pg word (s.reg a) v
      | none => s
    if pg * 1024 + word == s.lastAudited then s.satF Pg.dir F.DIR_PASSES else s

/-! ### The fault history (R515 to R517, R527) -/

/-- Entries kept of a list where only n may be written: error records are dropped last. -/
def keepEntries (n : Nat) (l : List FhEntry) : List FhEntry :=
  let extra := l.length - n
  let others := (l.filter fun e => e.kind != 1).length
  let cut (keep : Nat) (p : FhEntry → Bool) (l : List FhEntry) : List FhEntry :=
    (l.foldl (fun (r : List FhEntry × Nat) e =>
      if !p e then (r.1 ++ [e], r.2) else if 0 < r.2 then (r.1 ++ [e], r.2 - 1) else r) ([], keep)).1
  if extra ≤ others then cut (others - extra) (fun e => e.kind != 1) l
  else cut n (fun _ => true) (l.filter fun e => e.kind == 1)

/-- Write entries to the ring. -/
def State.fhWrite (s : State) (l : List FhEntry) : State :=
  l.foldl (fun s e =>
    let i := s.integ
    { s with integ := { i with
        ring := AMap.put (i.next % 65536) (e.bytes i.next) i.ring
        next := (i.next + 1) % 2 ^ 32 } }) s

/-- Gathered entries go to flash, at most 256 in a second of device time; while the pair is held only those of the security core
(R508, R517). -/
def State.fhFlush (s : State) : State :=
  if !s.powered then s
  else
    let held := s.f Pg.dir F.DIR_LOCKSTEP == 1
    let mine (e : FhEntry) : Bool := !held || [0x02, 0x03, 0x0B].contains e.kind
    let now := s.power.time / 1000000000
    let done := if s.integ.second == now then s.integ.written else 0
    let l := s.integ.gathered.filter mine
    let keep := if l.length ≤ 256 - done then l else keepEntries (256 - done) l
    let s := (s.fhWrite keep).satF Pg.dir F.DIR_DROPPED (l.length - keep.length)
    { s with integ := { s.integ with
        gathered := s.integ.gathered.filter fun e => !mine e
        second := now, written := done + keep.length } }

/-- A CE_SUMMARY entry (R516). -/
def State.ceSummary (s : State) : State :=
  if !s.mgmtRuns then s
  else { s.history 0x07 s.integ.ce with integ := { (s.history 0x07 s.integ.ce).integ with ce := [0, 0, 0, 0] } }

/-- LINK_RETRAIN entries of the links that have retrained (R516). -/
def State.retrainSummary (s : State) : State :=
  if !s.mgmtRuns then s
  else
    let l := s.canopy.links.filter fun x => x.2.retrained != 0
    let s := l.foldl (fun s x => s.history 0x04 [x.1, x.2.retrained]) s
    { s with canopy := { s.canopy with links := s.canopy.links.map fun x => (x.1, { x.2 with retrained := 0 }) } }

/-- PAGE_DIR_FH_CMD.READ (R527). -/
def State.fhRead (s : State) : State :=
  let b := s.fhSlot (s.f Pg.dir F.DIR_INDEX)
  (s.setRegs 0x340 ((List.range 16).map fun w => fieldAt b (4 * w) 4)).setF Pg.dir F.DIR_DAMAGED (b2n !(fhWhole b))

/-- The target takes part in the I3C bus and has its address (R39). -/
def State.i3cLive (s : State) : Bool := s.powered && s.power.i3cAddr.isSome

/-- I3C command 0x20 with its private read (R517). -/
def State.i3cFhRead (s : State) (n : Nat) : State := if s.i3cLive then s.emit (.i3cRead (s.fhSlot n)) else s

/-- I3C command 0x21 (R517). -/
def State.i3cFhNext (s : State) : State := if s.i3cLive then s.emit (.i3cRead (toBytes 4 s.integ.next)) else s

/-! ### Impressions (R521 to R523) -/

/-- PAGE_DIR_IMP_CMD.ARM (R521). -/
def State.impArm (s : State) : State :=
  if s.f Pg.dir F.DIR_ARMED == 1 then s
  else if s.f2 Pg.dir F.DIR_TIME_LO F.DIR_TIME_HI < s.power.time + 2000 then s.event Pg.dir Ev.DIR_IMPRESSION_LATE
  else (s.incF Pg.dir F.DIR_SEQ).setF Pg.dir F.DIR_ARMED 1

/-- PAGE_DIR_IMP_CMD.CANCEL (R521). -/
def State.impCancel (s : State) : State := s.setF Pg.dir F.DIR_ARMED 0

/-- Registers that a page of a class copies at an impression: offset of the copy, offset of the counter. -/
def impCopies : PClass → Nat → List (Nat × Nat)
  | .core, _ => (List.range 22).map (fun i => (0x0A0 + 4 * i, 0x040 + 4 * i)) ++ [(0x428, 0x404), (0x42C, 0x408)]
  | .sync, _ => [(0x030, 0x028)]
  | .plan, _ => [(0x044, 0x02C), (0x048, 0x034)]
  | .camb, _ => [(0x060, 0x024), (0x064, 0x028), (0x068, 0x02C), (0x0AC, 0x0A0)]
  | .kv, _ => [(0x0A0, 0x060), (0x0A4, 0x064)]
  | .copp, _ => [(0x070, 0x050), (0x074, 0x054)]
  | .intk, j => if j == 0 then [(0x054, 0x030), (0x058, 0x050)] else [(0x040, 0x028), (0x044, 0x02C), (0x048, 0x030)]
  | .cnpy, j => if j == 9 then [(0x078, 0x06C)] else (List.range 4).map fun i => (0x060 + 4 * i, 0x030 + 4 * i)
  | .host, j => if j % 4 == 0 then [(0x050, 0x038), (0x054, 0x03C)] else []
  | _, _ => []

/-- PAGE_CAPS.IMPRESSION of a class. -/
def PClass.impression : PClass → Bool
  | .dir => false
  | .pwr => false
  | .sec => false
  | _ => true

/-- A page takes the impression. -/
def State.pageImpression (s : State) (seq pg : Nat) : State :=
  match classOf pg with
  | none => s
  | some (c, j) =>
    let s := (impCopies c j).foldl (fun s x => s.setReg (pg * 4096 + x.1) (s.reg (pg * 4096 + x.2))) s
    let s := if c == .kv then s.setF pg F.KV_IMP_FREE ((AMap.getD j {} s.kvs).free (s.kvPool j)) else s
    s.setReg (pg * 4096 + oSeq) seq

/-- The impression is taken at the first common edge at which device time has reached its value (R30, R522). -/
def State.impTake (s : State) : State :=
  if s.f Pg.dir F.DIR_ARMED == 0 || !s.power.commonEdge || s.power.time < s.f2 Pg.dir F.DIR_TIME_LO F.DIR_TIME_HI then s
  else
    let pgs := allPages.filter fun pg => s.present pg && match classOf pg with
      | some (c, _) => c.impression
      | none => false
    let s := pgs.foldl (fun s pg => s.pageImpression (s.f Pg.dir F.DIR_SEQ) pg) s
    let s := ((s.setF Pg.dir F.DIR_ARMED 0).setF Pg.dir F.DIR_TAKEN_LO (s.power.time % 2 ^ 32)).setF Pg.dir F.DIR_TAKEN_HI
      (s.power.time / 2 ^ 32)
    (s.setF Pg.dir F.DIR_PAGES pgs.length).event Pg.dir Ev.DIR_IMPRESSION_TAKEN

/-- The vector-0 spacing of a function is over (R518): signals that came within it are carried by one message. -/
def State.spacingEnds (s : State) (f : Nat) : State :=
  match AMap.get? f s.integ.spacing with
  | none => s
  | some x =>
    if (s.spacedSince f).isSome then s
    else
      let s := { s with integ := { s.integ with spacing := AMap.del f s.integ.spacing } }
      if x.2 then s.message f 0 else s

/-- R508. -/
def execLockstepMismatch (s : State) : Out := .next s.lockstep
/-- R507. -/
def execCtrlCoreUe (n : Fin 12) (s : State) : Out := .next (s.ctrlUe n.val)
def execAuditPeriod (s : State) : Out := .next s.auditPeriod
def execAuditRead (page : BitVec 14) (word : BitVec 10) (upset : Option Word) (s : State) : Out :=
  .next (s.auditRead page.toNat word.toNat (upset.map fun v => v.toNat))
def execFhFlush (s : State) : Out := .next s.fhFlush
def execCeSummary (s : State) : Out := .next s.ceSummary
def execI3cFhRead (n : BitVec 32) (s : State) : Out := .next (s.i3cFhRead n.toNat)
def execI3cFhNext (s : State) : Out := .next s.i3cFhNext
def execImpressionTake (s : State) : Out := .next s.impTake
def execVector0MessageSpacing (f : Fin 9) (s : State) : Out := .next (s.spacingEnds f.val)

end Sys2Proof.Machine
end

