-- ==== Sys2Proof/Machine/Security.lean ====
section
/-! DEFINITION. Lifecycle commands, the generator's health, attestation, firmware commands, propagation in time, settings and fuse
commands, JTAG (R531 to R565). -/

namespace Sys2Proof.Machine

/-- The security core serves commands: the module has power, no reset is in progress, and JTAG does not hold it (R534). -/
def State.secRuns (s : State) : Bool := s.powered && s.power.reset.isNone && !s.ctrlHalted 13

/-! ### The generator (R533) -/

/-- The generator is halted. -/
def State.rngHalted (s : State) : Bool := s.f (Pg.sec 3) F.SEC3_HALTED == 1

/-- A health test fails. -/
def State.rngFail (s : State) : State :=
  if !s.powered then s
  else
    let s := s.satF (Pg.sec 3) F.SEC3_FAILS
    let l := s.power.time :: s.sec.rngFails.filter fun t => s.power.time < t + 1000000000
    let s := s.modSec fun x => { x with rngFails := l.take 16 }
    if 16 ≤ l.length && !s.rngHalted then
      (s.setF (Pg.sec 3) F.SEC3_HALTED 1).event (Pg.sec 3) Ev.SEC3_RNG_HALTED
    else s

/-! ### Lifecycle commands (R535 to R537) -/

/-- Every partition's owner data in flash goes: the owner block and the settings store. -/
def Sec.eraseOwner (x : Sec) : Sec := { x with ownerSeed := none, half0 := {}, half1 := {} }

/-- A lifecycle command ends other than by a transition. -/
def State.lcEnds (s : State) (st : Nat) : State :=
  (s.setF (Pg.sec 0) F.SEC0_STATUS st).event (Pg.sec 0) Ev.SEC0_LC_DONE

/-- A transition: the LIFECYCLE fuses up to the target's, and the cold reset. -/
def State.lcMove (s : State) (target : Nat) : State :=
  ((s.setF (Pg.sec 3) F.SEC3_LC_FUSES (2 ^ target - 1)).setF (Pg.sec 0) F.SEC0_STATUS 0).requestWhole .cold 5

/-- SEC_LC_TOKEN. -/
def State.token (s : State) : List Byte := (List.range 56).flatMap fun w => toBytes 4 (s.f (Pg.sec 0) (F.SEC0_TOKEN.sh (4 * w)))

/-- A return token is valid (R536). -/
def State.tokenGood (s : State) : Bool :=
  let t := s.token
  let w := fieldAt t 0x18 4
  let pub := (t.drop 0x20).take 57
  fieldAt t 0 8 == s.uid &&
  (List.range 4).all (fun i => fieldAt t (8 + 4 * i) 4 == s.f (Pg.sec 0) (F.SEC0_CHALLENGE.sh (4 * i))) &&
  bits w 0 3 == 3 && s.keyGood (bits w 4 2) pub && ed448Verify pub (t.take 0x60) ((t.drop 0x60).take 114)

/-- A lifecycle command is written (R535, R537): 1 PROVISION, 2 DEPLOY, 3 RETURN, 4 DECOMMISSION. -/
def State.lcCommand (s : State) (op : Nat) : State :=
  if !s.secRuns || op == 0 || 4 < op then s
  else
    let st := s.lcState
    let ok := s.tokenGood
    let s := if op == 3 then s.newChallenge else s
    if s.f (Pg.sec 0) F.SEC0_BUSY == 1 || s.f fwPage F.SEC1_BUSY_028 == 1 then s.lcEnds 0x01
    else match op, st with
      | 1, 0 =>
        if s.f (Pg.sec 3) F.SEC3_KEY_PRESENT == 0 then s.lcEnds 0x02
        else if s.rngHalted then s.lcEnds 0x0D
        else
          let v := Config.draw s.draws % 2 ^ 256
          (({ s with draws := s.draws + 1 }.modSec fun x => { x with uds := some v }).setF (Pg.sec 3) F.SEC3_UDS_SET 1).lcMove 1
      | 2, 1 =>
        if s.rngHalted then s.lcEnds 0x0D
        else
          let v := Config.draw s.draws % 2 ^ 256
          ({ s with draws := s.draws + 1 }.modSec fun x => { x with ownerSeed := some v }).lcMove 2
      | 3, 1 => if ok then (s.modSec Sec.eraseOwner).lcMove 3 else s.lcEnds 0x0B
      | 3, 2 => if ok then (s.modSec Sec.eraseOwner).lcMove 3 else s.lcEnds 0x0B
      | 4, n =>
        if n == 4 then s.lcEnds 0x02
        else (((s.modSec Sec.eraseOwner).emptyStaging).setF (Pg.sec 3) F.SEC3_DERIVE_DISABLE 1).lcMove 4
      | _, _ => s.lcEnds 0x02

/-! ### Attestation (R538, R539) -/

/-- State code of a partition (MEM_PART_STATE). -/
def PState.code : PState → Nat
  | .absent => 0
  | .creating => 1
  | .active => 2
  | .stopped => 3
  | .tearingDown => 4

/-- Words of a page as bytes. -/
def State.wordBytes (s : State) (pg : Nat) (f : Fld) (n : Nat) : List Byte :=
  (List.range n).flatMap fun w => toBytes 4 (s.f pg (f.sh (4 * w)))

/-- Digest of image i as loaded (R544): that of the running manifest, zeros where no package runs. -/
def State.imageDigest (s : State) (i : Nat) : List Byte :=
  match s.runMan with
  | some m => match Man.entryOf m i with
    | some e => Man.imgDigest m e
    | none => toBytes 32 0
  | none => toBytes 32 0

/-- The report's content at its capture (R539), bytes 0x000 to 0x1BF. -/
def State.reportBody (s : State) : List Byte :=
  let pg := fwPage
  let part (p : Nat) : List Byte :=
    let x := s.part p
    let here := s.partHere p
    toBytes 8 ((if here then x.st.code else 0) + 8 * (if here then x.overlay.code else 3)) ++
    toBytes 8 (if here then s.f2 (Pg.part p) F.MEMP_FP_LO F.MEMP_FP_HI else 0)
  toBytes 4 0x02400001 ++ toBytes 4 (s.lcState + 8 * s.debugLevel + 256 * s.log2k) ++ toBytes 8 s.uid ++ toBytes 8 s.power.time ++
  toBytes 4 (s.f pg F.SEC1_VERSION_RUN) ++
  toBytes 4 (s.f (Pg.sec 3) F.SEC3_COUNT + 128 * s.f pg F.SEC1_TRIAL + 256 * s.f pg F.SEC1_SLOT) ++
  s.wordBytes (Pg.sec 2) F.SEC2_NONCE 8 ++ s.wordBytes pg F.SEC1_RUN_DIGEST 8 ++ (List.range 5).flatMap s.imageDigest ++
  (List.range 8).flatMap part ++ fit 64 (s.idPublic.getD [])

/-- A request of a report (R538). -/
def State.attest (s : State) : State :=
  let pg := Pg.sec 2
  if !s.secRuns then s
  else if s.f pg F.SEC2_BUSY == 1 then s.satF pg F.SEC2_IGNORED
  else ((s.modSec fun x => { x with report := some s.reportBody }).setF pg F.SEC2_BUSY 1).setF pg F.SEC2_VALID 0

/-- I3C command 0x30 (R538). -/
def State.i3cAttest (s : State) (nonce : Nat) : State :=
  if !s.i3cLive || s.power.phase != .up || !s.secRuns then s
  else (s.setRegs (Pg.sec 2 * 4096 + 0x020) ((List.range 8).map fun w => nonce / 2 ^ (32 * w) % 2 ^ 32)).attest

/-- The signed report stands in SEC_ATT_REPORT (R538, R539). -/
def State.reportReady (s : State) : State :=
  match s.sec.report with
  | none => s
  | some b =>
    if !s.secRuns then s
    else
      let sig := match identitySeed s.sec (s.f (Pg.sec 3) F.SEC3_DERIVE_DISABLE == 1) with
        | some k => fit 114 (ed448Sign k b)
        | none => toBytes 114 0
      let pg := Pg.sec 2
      let s := (s.modSec fun x => { x with report := none }).setRegs (pg * 4096 + 0x400) (wordsOf (fit 576 (b ++ sig)))
      (((s.setF pg F.SEC2_BUSY 0).setF pg F.SEC2_VALID 1).setF pg F.SEC2_STATUS 0).event pg Ev.SEC2_REPORT_READY

/-! ### Firmware commands (R546 to R553, R558) -/

/-- The status of a firmware command. -/
def State.fwStatus (s : State) (st : Nat) : State := s.setF fwPage F.SEC1_STATUS st

/-- The complete half of highest SEQ. -/
def Sec.newest (x : Sec) : Option Nat :=
  match x.half0.complete, x.half1.complete with
  | true, true => if x.half0.seq < x.half1.seq then some 1 else some 0
  | true, false => some 0
  | false, true => some 1
  | false, false => none

/-- The check of the settings store for a package (R558). -/
def State.storeStatus (s : State) (m : List Byte) : Nat :=
  match s.sec.newest with
  | none => 0
  | some n =>
    let fits (h : SetHalf) : Bool := h.complete && Man.minVersion m ≤ h.version && h.version ≤ Man.setVersion m
    if (s.sec.half n).version < Man.minVersion m then 0x09
    else if fits s.sec.half0 || fits s.sec.half1 then 0
    else 0x0A

/-- An ACTIVATE ends other than OK. -/
def State.activateRefused (s : State) (st : Nat) : State := (s.fwStatus st).event fwPage Ev.SEC1_ACTIVATE_REFUSED

/-- The slot that is not running. -/
def State.otherSlot (s : State) : Nat := 1 - s.f fwPage F.SEC1_SLOT

/-- ACTIVATE (R550). In recovery no slot runs, and slot B is taken as not running (R555). -/
def State.fwActivate (s : State) (reset : Bool) : State :=
  if s.f fwPage F.SEC1_STAGE != 2 then s.activateRefused 0x02
  else
    let m := s.stagedMan
    let st := s.manStatus m
    let st := if st == 0 then s.storeStatus m else st
    if st != 0 then s.activateRefused st
    else
      let s := s.modSec fun x => { x.setSlot s.otherSlot .none with activating := true, resetAfter := reset }
      ((s.setF fwPage F.SEC1_STAGE 3).setF fwPage F.SEC1_BUSY_028 1).fwStatus 0

/-- Every partition is ABSENT or in SERVICE. -/
def State.allQuiet (s : State) : Bool := (List.range s.k).all fun p => (s.part p).st == .absent || (s.part p).overlay == .service

/-- The install ends (R548, R550, R551). -/
def State.installDone (s : State) (good : Bool) : State :=
  if !s.secRuns || s.f fwPage F.SEC1_STAGE != 3 || !s.sec.activating then s
  else
    let n := s.otherSlot
    let reset := s.sec.resetAfter
    let s := (s.modSec fun x => { x with activating := false, resetAfter := false }).setF fwPage F.SEC1_BUSY_028 0
    if !good then
      ((s.modSec fun x => x.modRecord fun r => r.setValid n false).setF fwPage F.SEC1_STAGE 2).activateRefused 0x0C
    else
      let s := s.modSec fun x =>
        (x.setSlot n (.package x.staging)).modRecord fun r => { r.setValid n true with trial := some n, tries := 3 }
      let s := ((s.setF fwPage F.SEC1_STAGE 4).fwStatus 0).event fwPage Ev.SEC1_INSTALL_DONE
      if !reset then s
      else if s.allQuiet then s.requestWhole .warm 7
      else s.event fwPage Ev.SEC1_RESET_DEFERRED

/-- SECURITY_VERSION of what a slot holds. -/
def Image.secVersion (x : Image) : Nat :=
  match x.manifest with
  | some m => Man.secVersion m
  | Option.none => 0

/-- CONFIRM (R553). -/
def State.fwConfirm (s : State) : State :=
  if s.f fwPage F.SEC1_TRIAL == 0 then s.fwStatus 0x02
  else
    let n := s.f fwPage F.SEC1_SLOT
    let count := max (s.f (Pg.sec 3) F.SEC3_COUNT) (s.sec.slot n).secVersion
    let revoke := match (s.sec.slot n).manifest with
      | some m => (List.range 4).foldl (fun v i => if bit (Man.revoke m) i && i != Man.keyIndex m then v ||| 2 ^ i else v)
          (s.f (Pg.sec 3) F.SEC3_KEY_REVOKED)
      | none => s.f (Pg.sec 3) F.SEC3_KEY_REVOKED
    let s := (s.setF (Pg.sec 3) F.SEC3_COUNT count).setF (Pg.sec 3) F.SEC3_KEY_REVOKED revoke
    let s := s.modSec fun x =>
      x.modRecord fun r =>
        let r := { r with active := n, trial := none }
        if (x.slot (1 - n)).secVersion < count then r.setValid (1 - n) false else r
    let s := match s.halfInUse with
      | some h =>
        if (s.sec.half (1 - h)).complete && (s.sec.half (1 - h)).seq < (s.sec.half h).seq then
          s.modSec fun x => x.setHalf (1 - h) {}
        else s
      | none => s
    ((s.setF fwPage F.SEC1_TRIAL 0).fwStatus 0).event fwPage Ev.SEC1_CONFIRMED

/-- DISCARD (R548). -/
def State.fwDiscard (s : State) : State :=
  match s.f fwPage F.SEC1_STAGE with
  | 0 => s.fwStatus 0x02
  | 3 => s.fwStatus 0x01
  | _ => s.emptyStaging.fwStatus 0

/-- FETCH (R546): a read that the function may not issue fails, with a status that the spec does not give (R455). -/
def State.fwFetch (s : State) : State :=
  if !s.fnReady 0 then { s with opens := s.opens + 1 }.fwStatus (Config.open s.opens % 256)
  else
    let src := (s.f fwPage F.SEC1_SRC + 2 ^ 32 * s.f fwPage (F.SEC1_SRC.sh 4)) / 4096 * 4096
    let b := s.bytes (hostKey src) 65536
    (s.modSec fun x => { x with assembled := x.assembled ++ [(0, s.f fwPage F.SEC1_INDEX, b)] }).setF fwPage F.SEC1_BUSY_028 1

/-- A write of SEC_FW_CMD with its selected bits (R561); commands written together act in the order of their bits. -/
def State.fwCommand (s : State) (v : Nat) : State :=
  let one (s : State) (i : Nat) (f : State → State) (busy : State → State) : State :=
    if !bit v i || !s.secRuns then s
    else if s.f fwPage F.SEC1_BUSY_028 == 1 || s.f (Pg.sec 0) F.SEC0_BUSY == 1 then busy s
    else f s
  let s := one s 0 (fun s => s.fwActivate (bit v 1)) (fun s => s.activateRefused 0x01)
  let s := one s 2 State.fwConfirm (fun s => s.fwStatus 0x01)
  let s := one s 3 State.fwDiscard (fun s => s.fwStatus 0x01)
  one s 4 State.fwFetch (fun s => s.fwStatus 0x01)

/-- I3C command 0x40 (R546): a chunk of a block from the BMC. -/
def State.fwChunk (s : State) (b i : Nat) (d : List Byte) : State :=
  if !s.i3cLive || s.power.phase != .up || !s.secRuns || 256 ≤ i || d.length != 256 then s else s.piece 1 b 256 i d

/-- The oldest assembled block is checked and programmed (R547); the host's FETCH ends with it. -/
def State.fwCheck (s : State) (good : Bool) : State :=
  match s.sec.assembled with
  | [] => s
  | (src, b, d) :: rest =>
    if !s.secRuns then s
    else
      let s := ((s.modSec fun x => { x with assembled := rest }).treatBlock src b d good).fwAfterBlock src b d
      if src == 0 then (s.setF fwPage F.SEC1_BUSY_028 0).fwStatus 0 else s

/-- The source's offer of block 0 (R549 step 1). -/
def State.fwOffer (s : State) : State :=
  if !s.secRuns || !s.fwSource then s else s.fwPeers.foldl (fun s x => s.fwSendBlock x.1 x.2 0) s

/-- Sources that still receive the bitmap: the device is RECEIVING, and 10 s have not passed without a block from them (R549 step 2). -/
def State.liveSources (s : State) : List (Nat × Nat × Nat) :=
  if s.f fwPage F.SEC1_STAGE == 1 then s.sec.sources.filter fun x => s.power.time < x.2.2 + 10000000000 else []

/-- The bitmap is sent again to the sources (R549 step 2). -/
def State.fwResend (s : State) : State :=
  if !s.secRuns then s
  else s.liveSources.foldl (fun s x => s.fwTell x.1 x.2.1) (s.modSec fun y => { y with sources := s.liveSources })

/-- Propagation packets unanswered for 10 ms are sent again (R549 step 4); those to a neighbour whose link is no longer UP go. -/
def State.fwRetry (s : State) : State :=
  if !s.secRuns then s
  else
    let up (x : FwSent) : Bool := (s.link x.link).st == 5
    let due (x : FwSent) : Bool := x.time + 10000000 ≤ s.power.time
    let late := s.sec.sent.filter fun x => up x && due x
    let s := s.modSec fun x =>
      { x with sent := (x.sent.filter up).map fun y => if due y then { y with time := s.power.time } else y }
    late.foldl (fun s x => s.sendOn x.link (s.fwPacket x)) s

/-! ### Settings (R556, R559) -/

/-- Bytes that a record takes in its half. -/
def SetRecord.size (r : SetRecord) : Nat := 12 + ceilDiv r.data.length 4 * 4 + 16 * b2n r.secret

/-- Bytes of a half in use. -/
def SetHalf.size (h : SetHalf) : Nat := 32 + (h.records.map SetRecord.size).foldl (fun a b => a + b) 0

/-- The result of a settings command. -/
def State.setResult (s : State) (r : Nat) : State := s.setF fwPage F.SEC1_RESULT r

/-- The highest SEQ of a half's records. -/
def SetHalf.top (h : SetHalf) : Nat := (h.records.map fun r => r.seq).foldl max 0

/-- Append a record to the half in use; where it is full, the latest records are compacted into the other half. -/
def State.putRecord (s : State) (n : Nat) (r : SetRecord) : State :=
  let h := s.sec.half n
  let r := { r with seq := h.top + 1 }
  if h.size + r.size ≤ 2 ^ 21 then
    (s.modSec fun x => x.setHalf n { h with records := h.records ++ [r] }).setResult 0
  else
    let c : SetHalf := { h with seq := max s.sec.half0.seq s.sec.half1.seq + 1, records := h.live }
    let c := { c with records := c.records.filter fun x => x.key != r.key }
    let c := if r.deleted then c else { c with records := c.records ++ [r] }
    if c.size ≤ 2 ^ 21 then (s.modSec fun x => x.setHalf (1 - n) c).setResult 0 else s.setResult 3

/-- SECRET records can be written and read. -/
def State.sealed (s : State) : Bool := s.lcState == 2 && s.sec.ownerSeed.isSome

/-- SEC_SET_DATA. -/
def State.setData (s : State) : List Byte := s.wordBytes fwPage F.SEC1_DATA 16

/-- SEC_SET_CMD.READ (R559). -/
def State.setRead (s : State) : State :=
  match s.halfInUse.bind fun n => (s.sec.half n).get (s.f fwPage F.SEC1_KEY) with
  | none => s.setResult 1
  | some r =>
    if r.secret && !s.sealed then s.setResult 2
    else
      let s := s.setRegs (fwPage * 4096 + 0x0C0) (wordsOf (fit 64 r.data))
      ((s.setF fwPage F.SEC1_LEN r.data.length).setF fwPage F.SEC1_SECRET (b2n r.secret)).setResult 0

/-- SEC_SET_CMD.WRITE (R559). -/
def State.setWrite (s : State) : State :=
  let secret := s.f fwPage F.SEC1_SECRET == 1
  if secret && !s.sealed then s.setResult 2
  else
    let s := if s.halfInUse.isNone then s.openStore else s
    match s.halfInUse with
    | none => s.setResult 3
    | some n =>
      s.putRecord n
        { key := s.f fwPage F.SEC1_KEY, data := s.setData.take (min 64 (s.f fwPage F.SEC1_LEN)), secret := secret, deleted := false, seq := 0 }

/-- SEC_SET_CMD.DELETE (R559). -/
def State.setDelete (s : State) : State :=
  let key := s.f fwPage F.SEC1_KEY
  match s.halfInUse with
  | none => s.setResult 1
  | some n =>
    if ((s.sec.half n).get key).isNone then s.setResult 1
    else s.putRecord n { key := key, data := [], secret := false, deleted := true, seq := 0 }

/-- A write of SEC_SET_CMD with its selected bits (R561): DELETE before WRITE before READ, and one acts. -/
def State.setCommand (s : State) (v : Nat) : State :=
  if !s.secRuns || s.f fwPage F.SEC1_BUSY_0A4 == 1 then s
  else if bit v 2 then s.setDelete
  else if bit v 1 then s.setWrite
  else if bit v 0 then s.setRead
  else s

/-! ### Fuses (R563) -/

/-- SEC_FUSE_PROG is written with PROGRAM_KEY: fuse bits go from 0 to 1 alone (R531). -/
def State.programKey (s : State) : State :=
  let pg := Pg.sec 3
  if !s.secRuns || s.f pg F.SEC3_BUSY == 1 then s
  else
    let i := s.f pg F.SEC3_KEY
    let s' : State :=
      if s.lcState != 0 then s.setF pg F.SEC3_RESULT 1
      else if bit (s.f pg F.SEC3_KEY_PRESENT) i then s.setF pg F.SEC3_RESULT 2
      else
        let s := s.setRegs (pg * 4096 + 0x060 + 32 * i) ((List.range 8).map fun w =>
          s.f pg (F.SEC3_DIGEST.sh (32 * i + 4 * w)) ||| s.f pg (F.SEC3_KEY_DATA.sh (4 * w)))
        (s.setF pg F.SEC3_KEY_PRESENT (s.f pg F.SEC3_KEY_PRESENT ||| 2 ^ i)).setF pg F.SEC3_RESULT 0
    s'.event pg Ev.SEC3_FUSE_PROGRAMMED

/-! ### JTAG (R534) -/

/-- The level that a debug access needs: PERIPHERAL for the processors of R507, FULL for the rest. -/
def debugNeeds : DebugAccess → Nat
  | .halt n | .resume n | .step n | .memory n => if n.val < 12 then 2 else 3
  | _ => 3

/-- The value of a fuse word (R531). -/
def State.fuse (s : State) : FuseWord → Nat
  | .serial w => s.sec.serial / 2 ^ (32 * w.val) % 2 ^ 32
  | .keyDigest i w => s.f (Pg.sec 3) (F.SEC3_DIGEST.sh (32 * i.val + 4 * w.val))
  | .keyPresent => s.f (Pg.sec 3) F.SEC3_KEY_PRESENT
  | .keyRevoked => s.f (Pg.sec 3) F.SEC3_KEY_REVOKED
  | .rollback => s.f (Pg.sec 3) F.SEC3_COUNT
  | .lifecycle => s.f (Pg.sec 3) F.SEC3_LC_FUSES
  | .deriveDisable => s.f (Pg.sec 3) F.SEC3_DERIVE_DISABLE

/-- Program fuse bits: each goes from 0 to 1 alone (R531). The value for ROLLBACK is how many more of its bits are programmed. -/
def State.programFuse (s : State) (w : FuseWord) (v : Nat) : State :=
  let x := s.fuse w ||| v
  match w with
  | .serial w => s.modSec fun y => { y with serial := y.serial ||| (v % 2 ^ 32) * 2 ^ (32 * w.val) }
  | .keyDigest i w => s.setF (Pg.sec 3) (F.SEC3_DIGEST.sh (32 * i.val + 4 * w.val)) x
  | .keyPresent => s.setF (Pg.sec 3) F.SEC3_KEY_PRESENT x
  | .keyRevoked => s.setF (Pg.sec 3) F.SEC3_KEY_REVOKED x
  | .rollback => s.setF (Pg.sec 3) F.SEC3_COUNT (min 64 (s.fuse .rollback + v))
  | .lifecycle => s.setF (Pg.sec 3) F.SEC3_LC_FUSES x
  | .deriveDisable => s.setF (Pg.sec 3) F.SEC3_DERIVE_DISABLE x

/-- n bytes from a device physical address on lie in the stacks or in one half of bulk. -/
def inStores (a n : Nat) : Bool :=
  a + n ≤ 0x300000000 || (0x10000000000 ≤ a && a + n ≤ 0x14000000000) || (0x14000000000 ≤ a && a + n ≤ 0x18000000000)

/-- A granted debug access, and the bits that it gives back. A step runs one instruction of a processor whose programs the spec does not
give, and a scan chain's use is the debugger's: the model changes nothing for these (log entry 195). -/
def State.debugAccess (s : State) (a : DebugAccess) (dout : Nat) : State × Nat :=
  match a with
  | .halt n => ({ s with integ := { s.integ with debugged := if s.integ.debugged.contains n.val then s.integ.debugged else
      n.val :: s.integ.debugged } }, dout)
  | .resume n => ({ s with integ := { s.integ with debugged := s.integ.debugged.filter fun x => x != n.val } }, dout)
  | .step _ => (s, dout)
  | .memory _ => (s, dout)
  | .scan => (s, dout)
  | .readStore a n => (s, if inStores a.toNat n.toNat then ofBytes (s.bytes a.toNat n.toNat) else dout)
  | .writeStore a d => (if inStores a.toNat d.length then s.poke a.toNat d else s, dout)
  | .readFuse w => (s, s.fuse w)
  | .programFuse w v => (s.programFuse w v.toNat, dout)

/-- A JTAG instruction: BYPASS where the level does not grant it. The bypass register is one bit that starts at 0. -/
def State.jtag (s : State) (i : Jtag) : State :=
  if !s.powered then s
  else match i with
    | .bypass din => s.emit (.jtag (2 * din))
    | .idcode => s.emit (.jtag 0x1009674F)
    | .sample pins => s.emit (.jtag pins)
    | .extest pins => s.emit (.jtag pins)
    | .debug a din dout =>
      if debugNeeds a ≤ s.debugLevel then (s.debugAccess a dout).1.emit (.jtag (s.debugAccess a dout).2) else s.emit (.jtag (2 * din))

def execRngHealthFail (s : State) : Out := .next s.rngFail
def execI3cAttestRequest (nonce : BitVec 256) (s : State) : Out := .next (s.i3cAttest nonce.toNat)
def execReportReady (s : State) : Out := .next s.reportReady
def execI3cFwChunk (block chunk : BitVec 16) (data : List Byte) (s : State) : Out := .next (s.fwChunk block.toNat chunk.toNat data)
def execFwBlockCheck (good : Bool) (s : State) : Out := .next (s.fwCheck good)
def execFwInstallDone (good : Bool) (s : State) : Out := .next (s.installDone good)
def execFwPropagateOffer (s : State) : Out := .next s.fwOffer
def execFwBitmapResend (s : State) : Out := .next s.fwResend
def execFwPropagateRetry (s : State) : Out := .next s.fwRetry
def execSecBoot (s : State) : Out := .next s.secBoot
def execBootWatchdog (s : State) : Out := .next s.watchdog
def execPowerOnResetDone (s : State) : Out := .next (s.endWhole .powerOn)
def execJtagInstruction (i : Jtag) (s : State) : Out := .next (s.jtag i)

end Sys2Proof.Machine
end

