-- ==== Sys2Proof/Machine/Power.lean ====
section
/-! DEFINITION. Rails, the input, the governor, waves, temperature, clocks and the pins of reset (R15 to R38, R83). -/

namespace Sys2Proof.Machine

def State.modPower (s : State) (g : Power → Power) : State := { s with power := g s.power }

/-! ### Rails (R15, R17 to R19, R33, R35) -/

/-- Stage of a rail, by its row of R17. -/
def railStage (rail : Nat) : Nat := [1, 2, 2, 2, 3, 4, 4, 4, 5].getD rail 5

/-- PWR_GOOD goes to a level, if it is not there. -/
def State.setGood (s : State) (v : Bool) : State :=
  if s.power.pwrGood == v then s else (s.modPower fun x => { x with pwrGood := v }).emit (.pin 0 v)

/-- THERM_TRIP_N goes to a level. -/
def State.setTrip (s : State) (v : Bool) : State :=
  if s.power.thermTripN == v then s else (s.modPower fun x => { x with thermTripN := v }).emit (.pin 1 v)

/-- All power goes (R15, R18, R19, R35): nothing but fuses and flash is kept. -/
def State.powerGone (s : State) (phase : PowerPhase) : State :=
  let s := (s.setGood false).setTrip true
  let boot := s.integ.boot
  let s := s.clear .powerOn 0
  { s with
    power := { s.power with phase := phase, alertHeld := false, i3cAddr := none, reset := none }
    integ := { s.integ with boot := boot } }

/-- PWR_EN is high and the input has held: stage 1 begins (R19, R33). -/
def State.powerUp (s : State) : State :=
  if s.power.phase != .off then s
  else (s.clear .powerOn 0).modPower fun x => { x with phase := .rising 0, pwrEn := true }

/-- PWR_EN falls (R35); a module that was locked off may come up again (R19). -/
def State.powerDown (s : State) : State :=
  match s.power.phase with
  | .off => s
  | .lockedOff => s.modPower fun x => { x with phase := .off, pwrEn := false }
  | _ => (s.powerGone .off).modPower fun x => { x with pwrEn := false }

/-- Stages of the work domain wait for the management core (R33 steps 4 to 6), which a lockstep difference or JTAG may hold (R508, R534);
in recovery the security core brings them up (R555; log entry 214). -/
def State.stageMayRise (s : State) (stage : Nat) : Bool :=
  stage ≤ 2 || (s.power.pllLocked && s.power.booted && (s.recovery || s.mgmtRuns))

/-- Every rail of a stage is within its window (R17, R33). -/
def State.stageUp (s : State) (stage : Nat) : State :=
  match s.power.phase with
  | .rising n =>
    if stage != n + 1 || !s.stageMayRise stage then s
    else if stage == 5 then ((s.modPower fun x => { x with phase := .up }).setGood true).startWaves
    else s.modPower fun x => { x with phase := .rising stage }
  | _ => s

/-- The work domain powers off and every job stops (R18, R29), its memories lost; ALERT_N is held low. A start in progress does not go
on, and the registers that R40 names are written as after it. -/
def State.workDown (s : State) : State :=
  let s := ((List.range s.k).filter s.partHere).foldl (fun s p => s.stopJob p) s
  let s := { s with parts := [], cores := heldCores, mem := s.mem.filter fun c => 2 ^ 64 ≤ c.1, faulty := [], bulkLost := s.bulkLost + 1 }
  ((s.modPower fun x => { x with phase := .workOff, alertHeld := true, waves := [], reset := none, ready := false }).setGood false)

/-- A work-domain rail fault (R18). -/
def State.workFault (s : State) (rail : Nat) : State := (s.workDown.event Pg.pwr Ev.PWR_RAIL_FAULT).history 0x02 [rail]

/-- A rail may be watched (R18): its stage is up, or is rising. In a rising stage a rail is watched from the moment at which it enters
its window; that it had entered is what the command of its fault says (log entry 161). -/
def State.watched (s : State) (rail : Nat) : Bool :=
  match s.power.phase with
  | .rising n => railStage rail ≤ n || (railStage rail == n + 1 && s.stageMayRise (n + 1))
  | .up => true
  | .workOff => railStage rail ≤ 2
  | _ => false

/-- A rail's stage has not come up in 2 ms (R18). -/
def State.stageExpires (s : State) (rail : Nat) : State :=
  match s.power.phase with
  | .rising n =>
    if railStage rail != n + 1 || !s.stageMayRise (n + 1) then s
    else if n + 1 ≤ 2 then s.powerGone .lockedOff
    else s.workFault rail
  | _ => s

/-- A watched work-domain rail leaves its window. -/
def State.workRail (s : State) (rail : Nat) : State := if s.watched rail && 3 ≤ railStage rail then s.workFault rail else s

/-- A watched management-domain rail leaves its window. -/
def State.mgmtRail (s : State) (rail : Nat) : State := if s.watched rail && railStage rail ≤ 2 then s.powerGone .lockedOff else s

/-- Some rail is up, so the input is watched (R19). -/
def State.anyRail (s : State) : Bool := s.watched 0

/-- 37 V to 40 V or 60 V to 63 V (R19). -/
def State.inputEdge (s : State) (mv : Nat) : State :=
  if s.anyRail && ((37000 ≤ mv && mv < 40000) || (60000 < mv && mv ≤ 63000)) then
    (s.setF Pg.pwr F.PWR_INPUT_OUT 1).event Pg.pwr Ev.PWR_INPUT_RANGE
  else s

/-- Below 37 V or above 63 V (R19). -/
def State.inputLost (s : State) (mv : Nat) : State := if s.anyRail && (mv < 37000 || 63000 < mv) then s.powerGone .lockedOff else s

/-- The root PLL locks: the dividers are released and device time starts at 0 (R30, R33). -/
def State.pllLock (s : State) : State :=
  if s.powered && !s.power.pllLocked && s.power.reset.isSome then
    s.modPower fun x => { x with pllLocked := true, kclk := 0, aclkFrom := 0, time := 0, high := 0, edge := 0, slew := 0, rate := 0, rateAcc := 0 }
  else s

/-! ### The governor (R20 to R23) -/

/-- The module's clocks run, so that samples are taken. -/
def State.clocked (s : State) : Bool := s.powered && s.power.pllLocked

/-- Sum and number of the latest n samples. -/
def State.recent (s : State) (n : Nat) : Nat × Nat :=
  let l := s.power.samples.take n
  (l.foldl (fun a b => a + b) 0, l.length)

/-- Mean power of the latest n samples in W, rounded down. -/
def State.meanW (s : State) (n : Nat) : Nat :=
  let r := s.recent n
  r.1 / (100000 * max 1 r.2)

/-- The mean of the latest n samples exceeds w watts. -/
def State.meanAbove (s : State) (n w : Nat) : Bool :=
  let r := s.recent n
  w * 100000 * r.2 < r.1

/-- The mean of the latest n samples lies below w watts. -/
def State.meanBelow (s : State) (n w : Nat) : Bool :=
  let r := s.recent n
  r.1 < w * 100000 * r.2

/-- A sample of input voltage and current (R20, R41, R43). -/
def State.govSample (s : State) (vin iin : Nat) : State :=
  if !s.clocked then s
  else
    let was := s.power.peakOver
    let s := s.modPower fun x => { x with samples := (vin * iin :: x.samples).take 5000 }
    let above := s.meanAbove 100 (s.f Pg.pwr F.PWR_PEAK_W)
    let s := s.modPower fun x => { x with peakOver := above }
    let s := (s.setF Pg.pwr F.PWR_VIN_MV vin).setF Pg.pwr F.PWR_IIN_10MA iin
    let s := (s.setF Pg.pwr F.PWR_AVG_5MS_W (min 65535 (s.meanW 5000))).setF Pg.pwr F.PWR_AVG_100US_W (min 65535 (s.meanW 100))
    let s := s.setF Pg.pwr F.PWR_INPUT_OUT (b2n (vin < 40000 || 60000 < vin))
    if !was && above then s.event Pg.pwr Ev.PWR_PEAK_LIMIT else s

/-- The effective issue level is the lower of the governor's and the thermal level (R20). -/
def State.showLevel (s : State) : State :=
  s.setF Pg.pwr F.PWR_ISSUE_LEVEL (min (s.f Pg.pwr F.PWR_CAP_LEVEL) (s.f Pg.pwr F.PWR_THERM_LEVEL))

/-- The governor's evaluation (R21). -/
def State.govEvaluate (s : State) : State :=
  if !s.clocked then s
  else
    let cap := s.f Pg.pwr F.PWR_CAP_LEVEL
    let capW := s.f Pg.pwr F.PWR_CAP_W
    let since := min 10 (s.power.sinceRaise + 1)
    let raise := !s.meanAbove 100 (s.f Pg.pwr F.PWR_PEAK_W) && !s.meanAbove 5000 (capW - 20) && s.meanBelow 5000 (capW - 60) && 10 ≤ since
    let new :=
      if s.meanAbove 100 (s.f Pg.pwr F.PWR_PEAK_W) then cap - 4
      else if s.meanAbove 5000 (capW - 20) then cap - 1
      else if raise then min 16 (cap + 1)
      else cap
    let s := s.modPower fun x => { x with sinceRaise := if raise then 0 else since }
    let s := (s.setF Pg.pwr F.PWR_CAP_LEVEL new).showLevel
    if cap == 16 && new < 16 then s.event Pg.pwr Ev.PWR_CAP_ACTIVE else s

/-! ### Waves (R24 to R26, R36, R38, R83) -/

/-- What the end of a set of waves brings: the creation completes, the partition reset ends, the switch ends. -/
def State.wavesEnd (s : State) (w : WaveSet) : State :=
  match w.owner, w.kind with
  | some p, .create =>
    ((s.modPart p fun x => { x with st := .active }).event (Pg.part p) Ev.MEMP_CREATE_DONE).takeHeld p
  | some p, .partReset =>
    let flr := (s.part p).flrWaits
    let s := s.modPart p fun x => { x with resetting := false, flrWaits := false, asked := false }
    if flr then s.emit (.flrDone (p + 1)) else s
  | some p, .modeSwitch => s.endSwitch p
  | _, _ => s

/-- The next wave of a set starts at the first common edge at which device time has reached its grid point (R24 to R26); the one after
it is due at the next grid point. Cores that a switch holds stay held through waves of another kind (R354). -/
def State.waveStart (s : State) (owner : Option Nat) : State :=
  if !s.clocked || s.power.phase != .up || !s.power.commonEdge then s
  else match s.power.waves.find? fun w => w.owner == owner && s.power.reached w.due with
    | none => s
    | some w =>
      let mine (c : Nat × Core) : Bool := c.1 % 8 == w.next && (w.kind == .modeSwitch || !c.2.heldSwitch) && (match owner with
        | some p => s.corePart c.1 == p
        | none => true)
      let ramp := s.rampStart
      let s : State := { s with
        cores := s.cores.map fun (c : Nat × Core) =>
          if mine c then (c.1, { c.2 with held := false, heldSwitch := false, ramp := ramp, lastIssue := s.aclk }) else c }
      let rest := s.power.waves.erase w
      if 7 ≤ w.next then (s.modPower fun x => { x with waves := rest }).wavesEnd w
      else s.modPower fun x => { x with waves := rest ++ [{ w with next := w.next + 1, due := x.nextGrid }] }

/-- The present common edge is the first at which device time has reached some grid point (R24, R30). -/
def Power.atGrid (p : Power) : Bool := p.commonEdge && p.edge < max p.time p.high / p.waveGap * p.waveGap

/-- A written WAVE_GAP_NS takes effect at the first grid point at which no set of waves is in progress (R41). -/
def State.takeGap (s : State) : State :=
  if s.clocked && s.power.waves.isEmpty && s.power.atGrid then
    s.modPower fun x => { x with waveGap := max 4000 (s.f Pg.pwr F.PWR_WAVE_GAP_NS) }
  else s

/-! ### Temperature (R27 to R29) -/

/-- Threshold of a stage. -/
def State.thermAt (s : State) (i : Nat) : Nat :=
  if i == 1 then s.f Pg.pwr F.PWR_T1_C else if i == 2 then s.f Pg.pwr F.PWR_T2_C else s.f Pg.pwr F.PWR_T3_C

/-- The stage by the hottest die sensor: the highest whose threshold is reached, or the present one until the sensor has fallen 3 °C
below its threshold, which is the present one where software has rewritten it meanwhile (R27; log entry 196). -/
def State.stageFor (s : State) (now hot : Nat) : Nat :=
  let up := ([3, 2, 1].find? fun i => s.thermAt i ≤ hot).getD 0
  let stay := ([3, 2, 1].find? fun i => i ≤ now && s.thermAt i < hot + 3).getD 0
  max up stay

/-- Thermal level of a stage. -/
def thermLevel (i : Nat) : Nat := [16, 12, 8, 4].getD i 4

def maxOf (l : List Nat) : Nat := l.foldl max 0

/-- The sensors are sampled (R27, R28, R41). -/
def State.thermSample (s : State) (sensors drams : List Nat) (inlet : Nat) : State :=
  if !s.powered then s
  else
    let dram := maxOf drams
    let old := s.f Pg.pwr F.PWR_THERM_STAGE
    let die := s.stageFor s.power.dieStage (maxOf sensors)
    let new := if 95 < dram then max 2 die else die
    let hot := s.f Pg.pwr F.PWR_DRAM_HOT
    let s := s.modPower fun x => { x with dieStage := die, dram95 := 95 < dram }
    let s := ((s.setF Pg.pwr F.PWR_JUNC_MAX_C (maxOf (sensors.take 64))).setF Pg.pwr F.PWR_STACK_MAX_C (maxOf (sensors.drop 64))).setF
      Pg.pwr F.PWR_DRAM_MAX_C dram
    let s := ((s.setF Pg.pwr F.PWR_INLET_C inlet).setF Pg.pwr F.PWR_THERM_STAGE new).setF Pg.pwr F.PWR_THERM_LEVEL (thermLevel new)
    let s := (s.setF Pg.pwr F.PWR_DRAM_HOT (b2n (85 < dram))).showLevel
    let s := if 85 < dram && hot == 0 then s.event Pg.pwr Ev.PWR_DRAM_HOT else s
    if old < new then s.event Pg.pwr (Ev.PWR_THERM_STAGE1 + new - 1) else s

/-- The trip comparator (R29), which the management domain feeds; a module that has tripped trips no further. -/
def State.thermTrip (s : State) (sensor celsius : Nat) : State :=
  if !s.powered || !s.power.thermTripN || celsius < 118 then s else (s.workDown.setTrip false).history 0x03 [sensor, celsius]

/-! ### Clocks (R32) -/

/-- A clock fault: every partition stops, and no forme is accepted until a cold reset. -/
def State.clockFails (s : State) (l : ClockLoss) : State :=
  if !s.clocked then s
  else
    let kclk := match l with
      | .clock i => i.val != 3
      | .pll => Config.open s.opens % 2 == 1
      | .reference => true
    let unsure := match l with
      | .clock i => i.val == 3 || i.val == 5
      | .pll => true
      | .reference => false
    let s := { s with opens := s.opens + 1 }.event Pg.pwr Ev.PWR_CLOCK_FAULT
    let s := s.modPower fun x =>
      { x with alertHeld := true, clockFault := true, busUnsure := x.busUnsure || unsure
               pllLocked := x.pllLocked && !(match l with | .pll => true | _ => false) }
    let s := if kclk then s.errRecordAll { cause := 0x10 } else s
    (List.range s.k).foldl (fun s p => s.stopPartition p) s

/-! ### Pins and requests of resets (R36, R39, R470) -/

/-- PERST_N falls (R36). -/
def State.perstDown (s : State) : State :=
  let s := s.modPower fun x => { x with perstN := false, linked := false }
  s.requestWhole .cold 1

/-- PERST_N rises. -/
def State.perstUp (s : State) : State := s.modPower fun x => { x with perstN := true }

/-- A cold reset completes only after PERST_N has risen (R36). -/
def State.coldDone (s : State) : State := if s.power.perstN then s.endWhole .cold else s

/-- FLR of PF0 (R34, R470): its configuration is cleared as PCI Express has it, Max_Payload_Size kept (log entry 34). -/
def State.pf0Flr (s : State) : State :=
  if !s.configures then s.configRetry 0
  else
    let s := s.setFn 0 { payload := (s.fn 0).payload }
    { s with vfEnable := false, numVfs := 0 }.requestWhole .warm 6

/-- FLR of the virtual function of a partition (R36, R83); dropped during a whole-device reset. -/
def State.vfFlr (s : State) (p : Nat) : State :=
  if !s.configures then s.configRetry (p + 1) else if s.power.reset.isSome then s else s.requestReset p true

/-- The first part of a partition reset is over (R36). -/
def State.partQuiet (s : State) (p : Nat) : State := if (s.part p).quiescing then s.quiesced p else s

/-- The BMC assigns the dynamic address (R39). -/
def State.i3cAddress (s : State) (a : Nat) : State := if s.powered then s.modPower fun x => { x with i3cAddr := some a } else s

/-- I3C commands 0x10 and 0x11 (R39). -/
def State.i3cReset (s : State) (k : WholeReset) (cause : Nat) : State :=
  if s.i3cLive then s.requestWhole k cause else s

/-! ### Creation and teardown complete (R83) -/

/-- Zeroing of a CREATING partition is over, and what came in error meanwhile is overwritten: its cores come up in waves. A partition without a key waits (R533). -/
def State.createZeroed (s : State) (p : Nat) : State :=
  let x := s.part p
  if x.st == .creating && x.zeroing && x.keyGen != 0 then
    ((s.errorsZeroed p).modPart p fun x => { x with zeroing := false }).beginWaves (some p) .create
  else s

/-- Zeroing of a TEARING_DOWN partition is over. -/
def State.teardownZeroed (s : State) (p : Nat) : State :=
  let x := s.part p
  if x.st == .tearingDown && x.zeroing then
    ((((s.errorsZeroed p).setPart p {}).setF (Pg.part p) F.MEMP_FP_LO 0).setF (Pg.part p) F.MEMP_FP_HI 0).event (Pg.part p) Ev.MEMP_TEARDOWN_DONE
  else s

/-- The work domain is up and the device is ready, so that its memories are in use. -/
def State.memoryUp (s : State) : Bool := s.power.ready && s.power.phase == .up

def execPowerUpBegin (s : State) : Out := .next s.powerUp
def execPwrEnFall (s : State) : Out := .next s.powerDown
def execRailStageComplete (stage : Fin 6) (s : State) : Out := .next (s.stageUp stage)
def execStageWindowTimeout (rail : Fin 9) (s : State) : Out := .next (s.stageExpires rail)
def execWorkRailFault (rail : Fin 9) (s : State) : Out := .next (s.workRail rail)
def execMgmtRailFault (rail : Fin 9) (s : State) : Out := .next (s.mgmtRail rail)
def execInputRange (mv : BitVec 16) (s : State) : Out := .next (s.inputEdge mv.toNat)
def execInputFault (mv : BitVec 16) (s : State) : Out := .next (s.inputLost mv.toNat)
def execRootPllLock (s : State) : Out := .next s.pllLock
def execGovernorSample (vinMv iin10ma : BitVec 16) (s : State) : Out := .next (s.govSample vinMv.toNat iin10ma.toNat)
def execGovernorEvaluate (s : State) : Out := .next s.govEvaluate
def execCoreIdleRestart (core : Fin 256) (s : State) : Out := .next (s.idleRestart core)
def execRestartRampStep (core : Fin 256) (s : State) : Out := .next (s.rampStep core)
def execWaveStart (owner : Option (Fin 8)) (s : State) : Out := .next (s.waveStart (owner.map fun p => p.val))
def execWaveGapTakeEffect (s : State) : Out := .next s.takeGap
def execThermalSample (sensors drams : List (BitVec 8)) (inlet : BitVec 8) (s : State) : Out :=
  .next (s.thermSample (sensors.map fun v => v.toNat) (drams.map fun v => v.toNat) inlet.toNat)
def execThermalTrip (sensor : Fin 96) (celsius : BitVec 8) (s : State) : Out := .next (s.thermTrip sensor celsius.toNat)
def execClockFault (lost : ClockLoss) (s : State) : Out := .next (s.clockFails lost)
def execPerstFall (s : State) : Out := .next s.perstDown
def execPerstRise (s : State) : Out := .next s.perstUp
def execColdResetDone (s : State) : Out := .next s.coldDone
def execWarmResetDone (s : State) : Out := .next (s.endWhole .warm)
def execVfFlr (p : Fin 8) (s : State) : Out := .next (s.vfFlr p)
def execPf0Flr (s : State) : Out := .next s.pf0Flr
def execPartitionQuiesced (p : Fin 8) (s : State) : Out := .next (s.partQuiet p)
def execI3cDynamicAddress (addr : BitVec 7) (s : State) : Out := .next (s.i3cAddress addr.toNat)
def execI3cColdReset (s : State) : Out := .next (s.i3cReset .cold 2)
def execI3cWarmReset (s : State) : Out := .next (s.i3cReset .warm 4)
def execCreateZeroingDone (p : Fin 8) (s : State) : Out := .next (s.createZeroed p)
def execTeardownZeroingDone (p : Fin 8) (s : State) : Out := .next (s.teardownZeroed p)
/-- R90. -/
def execContainmentEvent (err : ErrorEvent) (s : State) : Out := .next (if s.memoryUp then s.containment err else s)
/-- R95. -/
def execScrubUnit (inst : Fin 24) (found : ScrubFound) (s : State) : Out := .next (if s.memoryUp then s.scrub inst found else s)

end Sys2Proof.Machine
end

