-- ==== Sys2Proof/Machine/Bus.lean ====
section
/-! DEFINITION. Register accesses: what every register reads as, and what a write of one does, with the effects of the registers that
start something (R44 to R67, and the register tables of every chapter). -/

namespace Sys2Proof.Machine

/-! ### Reads (R51, R65) -/

/-- Rows of the common header (R51). -/
def rowsHeader : List RegRow := [
  { off := 0x000, cnt := 1, stride := 0 },
  { off := 0x004, cnt := 1, stride := 0, rsvp := 0xF800 },
  { off := 0x008, cnt := 1, stride := 0, mw := 0x3, rsvp := 0xF8 },
  { off := 0x00C, cnt := 1, stride := 0, rw := 0x1, rsvp := 0xFFFF00FE, wl := 0x1 },
  { off := 0x010, cnt := 1, stride := 0, w1c := 0xFFFFFFFF },
  { off := 0x014, cnt := 1, stride := 0, rw := 0xFFFFFFFF },
  { off := 0x018, cnt := 1, stride := 0 },
  { off := 0x01C, cnt := 1, stride := 0 }]

/-- The flags that PAGE_EVENT of a page defines (R43, R96, R98, R126, R163, R182, R215, R267, R298, R345, R368, R404, R447, R450,
R476, R528, R565). -/
def eventBits (c : PClass) (j : Nat) : Nat :=
  match c with
  | .dir => 0x3F
  | .pwr => 0x1FF
  | .sec => if j == 0 then 1 else if j == 1 then 0xFF else if j == 2 then 1 else 3
  | .mem => if j < 24 then 0xF else 0x3F
  | .plan => 0xF
  | .camb => 0x0F003F07
  | .copp => 0x1F
  | .kv => 0x3F
  | .intk => if j == 0 then 0x1FF else 0
  | .cnpy => if j == 9 then 0x1FF else 0x3F
  | .host => if j % 4 == 0 then 0x1F else 0
  | .core => 0x1F031F
  | .sync => 0

/-- The row of a page offset and its overlay view. The positions of PAGE_EVENT that hold no flag are reserved. An offset of a present
page that no table names is taken as one of reserved bits (log entry 45). -/
def regAt (c : PClass) (j o : Nat) : RegRow × Nat :=
  if o == oEvent then
    ({ off := o, cnt := 1, stride := 0, w1c := eventBits c j, rsvp := 0xFFFFFFFF - eventBits c j }, 0)
  else match rowAt (rowsHeader ++ rowsOf c j) o with
  | some x => x
  | none => ({ off := o, cnt := 1, stride := 0, rsvp := 0xFFFFFFFF }, 0)

/-- PAGE_CAPS of a class without PART_PAGE and OWNER (R51 and the page paragraphs of each chapter). -/
def State.capsWord (s : State) (c : PClass) (j : Nat) : Nat :=
  let mk (buf ov wl imp bound caps : Nat) : Nat := buf + 2 * ov + 4 * wl + 8 * imp + 16 * bound + 2 ^ 16 * caps
  match c with
  | .dir => mk 0 0 1 0 0 0
  | .pwr => mk 0 0 1 0 0 0
  | .sec => mk 0 0 (b2n (j == 0 || j == 3)) 0 0 0
  | .mem => mk 0 0 1 1 0 (if j < 8 then 1 else if j < 24 then 2 else 4)
  | .plan => mk 1 0 0 1 2 0x40
  | .camb => mk 1 0 0 1 2 (b2n (s.lead (s.unitPart j) == j) + 2 * Nat.log2 s.unitsPer)
  | .copp => mk 1 0 0 1 6 0
  | .kv => mk 1 0 0 1 3 0
  | .intk =>
    if j == 0 then mk 1 0 0 1 3 0
    else mk 1 0 0 1 4 (if j ≤ 16 then 1 else if j ≤ 24 then 2 else if j ≤ 28 then 3 else if j ≤ 32 then 4 else if j == 33 then 5 else 6)
  | .cnpy => if j == 9 then mk 1 0 1 1 5 0 else mk 1 0 0 1 5 4
  | .host => mk 0 0 0 1 0 (j % 4 + 256 * (vectors (j / 4) / 32))
  | .core => mk 1 1 0 1 1 (16 + 256 * 4)
  | .sync => mk 0 0 0 1 0 0

/-- What a header register reads as (R51). -/
def State.headerRead (s : State) (c : PClass) (j pg o : Nat) : Nat :=
  let v := s.reg (pg * 4096 + o)
  if o == 0x000 then 1 + 2 ^ 8 * j + 2 ^ 24 * (classInfo c).1
  else if o == 0x004 then
    let own := match s.capsOwner pg with
      | some p => 2 ^ 7 + 2 ^ 8 * p
      | none => 0
    (s.capsWord c j + own) ||| (v &&& 0xF800)
  else if o == oApply then
    if buffered pg then putBits v 2 1 (b2n (s.shadow.any fun x => x.1 / 4096 == pg)) else 0
  else v

/-- Counters with a wait registered on them, one entry a wait: of threads, of formes and of host WAIT entries (R116, R127). -/
def State.waitedCtrs (s : State) : List Nat :=
  (s.threads.filter fun t => t.2.st == .waitSync).filterMap (fun t => t.2.wait.map fun w => w.ctr) ++
  (s.formes.filter fun x => x.2.st == .waiting && !x.2.waitMet).map (fun x => s.devCtr x.2.part x.2.waitCtr) ++
  s.fns.flatMap fun f => f.2.sq.filterMap fun q => match q.2.wait with
    | some (_, c, _, _, _, false) => some c
    | _ => none

/-- Sync waits registered on the counters from `a` to below `b`. -/
def State.waitsOn (s : State) (a b : Nat) : Nat := (s.waitedCtrs.filter fun c => a ≤ c && c < b).length

/-- The partition of a COPP_MODE register that lies on the page's die (R366). -/
def State.coppHas (s : State) (d p : Nat) : Bool := p < s.k && s.dieOf p == d

/-- A COPP_MODE register. -/
def State.coppMode (s : State) (d p v : Nat) : Nat :=
  if !s.coppHas d p then 3
  else
    let st := (s.sw p).st
    putBits (putBits (putBits v 0 2 (if s.partHere p then (s.part p).overlay.code else 3)) 4 1 (b2n (st != 0))) 5 3 st

/-- Pending bits of the pages whose indices start at `a` (R520). -/
def State.pendingBits (s : State) (a n : Nat) : Nat :=
  (List.range n).foldl (fun v i => if s.signals (a + i) then v + 2 ^ i else v) 0

/-- Pool frames that no reservation of a partition takes (R402). -/
def State.poolFree (s : State) (p : Nat) : Nat :=
  s.f (Pg.intk 0) (F.INTK0_FRAMES.sh (0x40 * p)) - s.poolUsed p

/-- A job of the partition is held in SERVICE (R376). -/
def State.serviceHeld (s : State) (p : Nat) : Bool := (s.part p).overlay == .service && !(s.intk p).jobs.isEmpty

/-- What a block register reads as where hardware forms it from state: `v` is the stored word. -/
def State.viewRead (s : State) (c : PClass) (j o v : Nat) : Nat :=
  match c with
  | .dir =>
    if 0x040 ≤ o && o < 0x080 then
      match allClasses.find? fun c => (classInfo c).1 == (o - 0x040) / 4 with
      | some c => (classInfo c).2.1 + 2 ^ 16 * (classInfo c).2.2
      | none => 0
    else if 0x200 ≤ o && o < 0x264 then s.pendingBits (32 * ((o - 0x200) / 4)) 32
    else if o == 0x308 then s.integ.next
    else v
  | .pwr =>
    if o == 0x048 then
      let busy (p : Nat) : Bool := p < s.k && ((s.part p).asked || (s.part p).held.contains .partReset)
      let m := (List.range 8).foldl (fun a p => if busy p then a + 2 ^ p else a) 0
      putBits (putBits v 8 8 m) 0 1 (b2n (s.power.reset == some .warm))
    else v
  | .sec =>
    if j == 0 && o == 0x020 then putBits (putBits v 0 3 s.lcState) 3 3 s.debugLevel
    else if j == 3 && 0x0E0 ≤ o && o < 0x11C then fieldAt (s.idPublic.getD []) (o - 0x0E0) 4
    else if j == 3 && (o == 0x128 || o == 0x12C) then s.sec.serial / 2 ^ (8 * (o - 0x128)) % 2 ^ 32
    else v
  | .mem =>
    if 24 < j && 0x020 ≤ o && o ≤ 0x028 then 0
    else if j == 24 && o == 0x024 then
      let mask (f : Nat → Bool) : Nat := (List.range s.k).foldl (fun a p => if f p then a + 2 ^ p else a) 0
      mask (fun p => (s.part p).st == .creating) +
        256 * mask fun p => (s.part p).st == .tearingDown || (s.part p).held.contains .teardown
    else if j == 24 && o == 0x028 then
      (List.range s.k).foldl (fun a p => putBits a (3 * p) 3 (s.part p).st.code) v
    else v
  | .core =>
    if o == 0x020 then
      let live (x : Thread) : Bool := x.st != .free
      let mine := s.threads.filter fun t => t.1 / 64 == j && live t.2
      let work := (List.range 4).foldl (fun a i =>
        if mine.any (fun t => t.1 % 64 / 16 == i) || !s.slotIdle j i then a + 2 ^ i else a) 0
      let v := putBits (putBits v 0 4 work) 4 1 (b2n (s.core j).held)
      putBits (putBits v 6 1 (b2n ((s.part (s.corePart j)).st == .stopped))) 8 7 mine.length
    else if o == 0x028 then
      putBits v 0 16 (s.threads.filter fun t => t.1 / 64 == j && t.2.st == .waitSync).length
    else v
  | .sync =>
    if o == 0x024 then 0
    else if o == 0x02C then putBits v 0 16 (s.waitsOn (256 * j) (256 * j + 256))
    else v
  | .plan =>
    if o == 0x028 then putBits (putBits v 0 9 (s.plannerHeld j)) 9 7 (AMap.getD j [] s.heldPlans).length else v
  | .camb => if 0x080 ≤ o && o < 0x100 && s.lead (s.unitPart j) != j then 0 else v
  | .kv =>
    let k := s.kv j
    if o == 0x050 then k.free (s.kvPool j)
    else if o == 0x054 then
      (k.seqs.filter fun q => q.2.st == 1).length + 2 ^ 16 * (k.seqs.filter fun q => q.2.st == 3).length
    else if o == 0x058 then (k.nodes.filter fun n => n.2.valid).length
    else v
  | .copp =>
    if 0x020 ≤ o && o < 0x040 then s.coppMode j ((o - 0x020) / 4) v
    else if o == 0x044 then
      let n (st : Nat) : Nat := (s.switches.filter fun x => x.2.st == st && x.2.plan.isSome && s.coppHas j x.1).length
      putBits (putBits v 0 3 (n 3)) 3 3 (n 2)
    else v
  | .intk =>
    if j != 0 || o < 0x100 then v
    else
      let p := (o - 0x100) / 0x40
      let x := s.intk p
      match (o - 0x100) % 0x40 with
      | 0x0C => x.taken % 2 ^ 32
      | 0x1C => putBits v 0 11 (s.poolFree p)
      | 0x2C => putBits v 0 19 x.dir.length
      | 0x30 => putBits (putBits v 0 4 x.jobs.length) 4 1 (b2n (s.serviceHeld p))
      | _ => v
  | .cnpy =>
    if j == 9 then
      if o == 0x024 then s.uid % 2 ^ 32 else if o == 0x028 then s.uid / 2 ^ 32 else v
    else if o == 0x024 then
      (List.range 4).foldl (fun a i => putBits a (4 * i) 4 (if s.linkMade (4 * j + i) then (s.link (4 * j + i)).st else 0)) v
    else if o == 0x02C then
      putBits v 0 13 (((rangeFrom (4 * j) 4).filter fun l => (s.link l).st == 5 && s.linkMade l).foldl (fun a l => a + s.bufferFree l) 0)
    else v
  | .host =>
    let f := j / 4
    if j % 4 != 0 then v
    else if o == 0x020 then
      putBits (putBits (putBits v 0 1 (b2n (s.fnReady f))) 1 1 (b2n (s.fn f).d3hot)) 2 1 (b2n (s.fnPresent f))
    else if o == 0x024 then if f == 0 then v else putBits v 4 3 (f - 1)
    else if f == 0 then if 0x060 ≤ o && o ≤ 0x080 then 0 else v
    else if 0x060 ≤ o && o < 0x080 then
      let w := (o - 0x060) / 4
      if s.coresPer ≤ 32 * w then 0
      else s.pendingBits (Pg.core (s.coresPer * (f - 1) + 32 * w)) (min 32 (s.coresPer - 32 * w))
    else if o == 0x080 then
      b2n (s.signals (Pg.kv (f - 1))) + 2 * b2n (s.signals (Pg.part (f - 1))) + 4 * s.pendingBits (Pg.host f 0) 4 + (v &&& 0xFFFFFFC0)
    else v

/-- The overlay copy that view `w` of an overlay-valued register shows (R65). -/
def State.viewCode (s : State) (pg w : Nat) : Nat :=
  if w == 0 then (match s.pageOwner pg with | some p => (s.part p).overlay.code | none => 0) else w - 1

/-- What a register of a present page reads as. -/
def State.regRead (s : State) (pg o : Nat) : Nat :=
  match classOf pg with
  | none => 0
  | some (c, j) =>
    if o < 0x020 then s.headerRead c j pg o
    else
      let x := regAt c j o
      if x.1.ov != 0 then
        let own := o - 0x400 * x.2
        let copy := s.reg (pg * 4096 + own + 0x400 * (s.viewCode pg x.2 + 1))
        (s.reg (pg * 4096 + own) &&& (0xFFFFFFFF - x.1.ov)) ||| (copy &&& x.1.ov)
      else s.viewRead c j o (s.reg (pg * 4096 + o))

/-! ### Writes: masks (R52 to R54, R59) -/

/-- A write in hand: the row, its view, the value and the write selects, and the bits that lock and requester let change. -/
structure WriteReq where
  row : RegRow
  view : Nat
  val : Nat
  sel : Nat
  can : Nat

/-- Bits of the written word that are MW and selected. -/
def WriteReq.masked (w : WriteReq) : Nat := w.val &&& w.sel &&& w.row.mw &&& w.can

/-- The word that the RW bits of a write make of `old`. -/
def WriteReq.compose (w : WriteReq) (old : Nat) : Nat :=
  let m := w.row.rw &&& w.can
  (old &&& (0xFFFFFFFF - m)) ||| (w.val &&& m)

/-- The requester is one whose writes WL fields accept (R54). -/
def writesWl : Requester → Bool
  | .vf _ => false
  | _ => true

/-- The write by its row, with WL bits cut out as R54 has it. -/
def State.writeReq (s : State) (who : Requester) (pg : Nat) (x : RegRow × Nat) (val : Nat) : WriteReq :=
  let open_ := writesWl who && s.f pg fLock == 0
  { row := x.1, view := x.2, val := val
    sel := if x.1.mw == 0 then 0xFFFFFFFF else val / 2 ^ 16 % 2 ^ 16
    can := if open_ then 0xFFFFFFFF else 0xFFFFFFFF - x.1.wl }

/-- A write that a set LOCK keeps from WL fields is counted (R51, R54). -/
def State.countLocked (s : State) (who : Requester) (pg : Nat) (w : WriteReq) : State :=
  if writesWl who && s.f pg fLock == 1 && w.row.wl &&& w.sel != 0 then s.satF pg fIgnored else s

/-- RSVP bits by the lifecycle state (R53): counted and kept, or written. Those of an overlay-valued register hold one value that
every view shows (R65). -/
def State.writeRsvp (s : State) (who : Requester) (pg o : Nat) (w : WriteReq) : State :=
  let a := pg * 4096 + (o - 0x400 * w.view)
  let m := w.row.rsvp &&& w.sel
  if (w.val ^^^ s.reg a) &&& m == 0 then s
  else if s.lcState == 0 || s.lcState == 3 then s.setReg a ((s.reg a &&& (0xFFFFFFFF - m)) ||| (w.val &&& m))
  else s.refuse who (pg * 4096 + o)

/-- RW and W1C bits of a register without an effect of its own: buffered bits to the shadow, the rest to the live word (R59, R61,
R65, R66). -/
def State.writePlain (s : State) (pg o : Nat) (w : WriteReq) : State :=
  let own := o - 0x400 * w.view
  let a := pg * 4096 + (if w.row.ov == 0 then o else own + 0x400 * (s.viewCode pg w.view + 1))
  let live := w.row.rw &&& w.can &&& (0xFFFFFFFF - w.row.buf)
  let s := if live == 0 then s else s.setReg a ((s.reg a &&& (0xFFFFFFFF - live)) ||| (w.val &&& live))
  let s := if w.row.w1c == 0 then s else s.clearW1c a (w.val &&& w.row.w1c)
  let buf := w.row.rw &&& w.can &&& w.row.buf
  if buf == 0 then s
  else
    let v := (s.shadowOf a &&& (0xFFFFFFFF - buf)) ||| (w.val &&& buf)
    { s with shadow := AMap.put a (BitVec.ofNat 32 v) s.shadow }

/-! ### Writes of the header (R51, R54, R56, R58 to R60) -/

/-- PAGE_EVENT_MASK is written: each flag that reads 1 and that the write unmasks is signalled (R56). -/
def State.setMask (s : State) (pg v : Nat) : State :=
  let a := pg * 4096 + oMask
  let shown := s.reg a &&& (0xFFFFFFFF - v) &&& s.reg (pg * 4096 + oEvent)
  let s := s.setReg a v
  ((List.range 32).filter fun b => bit shown b).foldl (fun s _ => s.signal pg) s

/-- A header register is written. -/
def State.writeHeader (s : State) (pg o : Nat) (w : WriteReq) : State :=
  if o == oApply then
    if bit w.masked 1 then s.discard pg else if bit w.masked 0 then s.requestApply pg else s
  else if o == oLock then if bit (w.val &&& w.row.rw &&& w.can) 0 then s.setF pg fLock 1 else s
  else if o == oEvent then s.clearW1c (pg * 4096 + oEvent) (w.val &&& w.row.w1c)
  else if o == oMask then s.setMask pg w.val
  else s

/-! ### Writes with effects -/

/-- Cause code of PWR_RESET.WARM by its writer (R42). -/
def warmCause : Requester → Nat
  | .i3c => 4
  | .mgmt => 9
  | _ => 3

/-- PWR_RESET (R36, R41): partition resets first, then the warm reset. -/
def State.writeReset (s : State) (who : Requester) (m : Nat) : State :=
  let s := (List.range s.k).foldl (fun s p => if bit m (8 + p) then s.requestReset p false else s) s
  if bit m 0 then s.requestWhole .warm (warmCause who) else s

/-- The PWR page. -/
def State.writePwr (s : State) (who : Requester) (pg o : Nat) (w : WriteReq) : State :=
  let a := pg * 4096 + o
  if o == 0x048 then s.writeReset who w.masked
  else s.setReg a (pwrFix o (s.reg a) (w.compose (s.reg a)))

/-- The DIR page: LOCK_ALL, ARM, CANCEL and READ act; ARM comes before CANCEL where one write holds both. -/
def State.writeDir (s : State) (pg o : Nat) (w : WriteReq) : State :=
  if o == 0x02C then if bit w.masked 0 then s.lockPages else s
  else if o == 0x108 then
    let s := if bit w.masked 0 then s.impArm else s
    if bit w.masked 1 then s.impCancel else s
  else if o == 0x304 then if bit w.masked 0 then s.fhRead else s
  else s.writePlain pg o w

/-- MEM_SCRUB (R95): PERIOD is clamped. -/
def State.writeScrub (s : State) (j pg : Nat) (w : WriteReq) : State :=
  let a := pg * 4096 + 0x020
  let v := w.compose (s.reg a)
  s.setReg a (putBits v 0 12 (max 60 (min (if j < 8 then 600 else 240) (bits v 0 12))))

/-- MEM_DIVISION (R82). `can` tells whether the lock and the requester let it change. -/
def State.writeDivision (s : State) (pg : Nat) (w : WriteReq) : State :=
  if w.can &&& 3 == 0 then s
  else if (List.range 8).all fun p => (s.part p).st == .absent then s.setF pg F.MEMP_LOG2_K w.val
  else s.event pg Ev.MEMP_DIVISION_REFUSED

/-- A TEARDOWN event (R83). -/
def State.askTeardown (s : State) (p : Nat) : State :=
  match (s.part p).st with
  | .active | .stopped => s.tearDown p
  | .creating =>
    if (s.part p).held.contains .teardown then s else s.modPart p fun x => { x with held := x.held ++ [.teardown] }
  | _ => s

/-- A CREATE event (R83): ignored in DECOMMISSIONED (R534) and for a partition that is not ABSENT. -/
def State.askCreate (s : State) (p : Nat) : State :=
  if (s.part p).st == .absent && s.lcState != 4 then (s.createPart p).snapDefaults p else s

/-- MEM_PART_CTRL (R83, R97): TEARDOWN events before CREATE events. -/
def State.writePartCtrl (s : State) (m : Nat) : State :=
  (List.range s.k).foldl (fun s p =>
    let s := if bit m (8 + p) then s.askTeardown p else s
    if bit m p then s.askCreate p else s) s

/-- Entry that MEM_PMAP_DATA holds. -/
def State.pmapData (s : State) (pg : Nat) : Nat := s.f2 pg F.MEMP_DATA_LO F.MEMP_DATA_HI

/-- RESULT of a page map WRITE (R78). -/
def State.pmapCheck (s : State) (p idx e : Nat) : Nat :=
  let st := (s.part p).st
  let frame := e / 2 ^ 21 * 2 ^ 21
  if st != .active && st != .stopped then 4
  else if bits e 1 2 == 3 then 2
  else if (bits e 1 2 == 0 && !inRanges (s.stackShare p) frame) || (bits e 1 2 == 1 && !inRanges (s.bulkShare p) frame) then 1
  else if bit (s.entry p idx) 4 then 3
  else 0

/-- A page map command ends. -/
def State.pmapEnds (s : State) (pg r : Nat) : State :=
  ((s.setF pg F.MEMP_RESULT r).setF pg F.MEMP_BUSY 0).event pg Ev.MEMP_PMAP_DONE

/-- Outstanding accesses of the partition's threads through a page-map index are by its old entry from now on (R79). -/
def State.oldAccesses (s : State) (p idx : Nat) : State :=
  let uses (a : Nat) : Bool := bits a 40 24 == 0 && bits a 21 19 == idx
  { s with
    reducers := s.reducers.map fun u => if u.part == p && u.place.2 == idx then { u with old := true } else u
    threads := s.threads.map fun (x : Nat × Thread) =>
      if s.corePart (x.1 / 64) != p then x
      else (x.1, { x.2 with
        loads := x.2.loads.map fun l => if uses l.addr then { l with old := true } else l
        stores := x.2.stores.map fun y => if uses y.addr then { y with old := true } else y
        fetching := x.2.fetching.map fun f => if uses f.line then { f with old := true } else f }) }

/-- An access of the partition's threads, or an update at its reducers, by an old entry is outstanding. -/
def State.oldOutstanding (s : State) (p : Nat) : Bool :=
  s.reducers.any (fun u => u.part == p && u.old) ||
  s.threads.any fun (x : Nat × Thread) => s.corePart (x.1 / 64) == p &&
    (x.2.loads.any (fun l => l.old) || x.2.stores.any (fun y => y.old) || x.2.fetching.any fun f => f.old)

/-- An accepted WRITE (R77, R78, R252): the entry changes, an arena loses the page, MAPPED follows; BUSY stays 1. -/
def State.pmapPut (s : State) (p pg idx e : Nat) : State :=
  let e := putBits (putBits e 4 2 0) 7 14 0
  let s := ((s.oldAccesses p idx).arenaLose p idx).setEntry p idx e
  (s.setF pg F.MEMP_BUSY 1).setF pg F.MEMP_RESULT 0

/-- MEM_PMAP_CMD (R78, R79, R97). -/
def State.writePmap (s : State) (p pg m : Nat) : State :=
  let idx := s.f pg F.MEMP_INDEX
  if s.f pg F.MEMP_BUSY == 1 then s
  else if bit m 0 then
    let r := s.pmapCheck p idx (s.pmapData pg)
    if r == 0 then s.pmapPut p pg idx (s.pmapData pg) else s.pmapEnds pg r
  else if bit m 1 then
    let st := (s.part p).st
    if st != .active && st != .stopped then s.pmapEnds pg 4
    else
      -- an entry in error is found, and what DATA then holds is open (R90)
      let r := match s.entryDamage p none idx with
        | some f => ({ s with opens := s.opens + 1 }.faultRecord p 0 (idx * 2 ^ 21) f, Config.open s.opens % 2 ^ 64)
        | none => (s, s.entry p idx)
      ((r.1.setF pg F.MEMP_DATA_LO (r.2 % 2 ^ 32)).setF pg F.MEMP_DATA_HI (r.2 / 2 ^ 32)).pmapEnds pg 0
  else s

/-- Pages MEM 0 to 23, and 24 + p. -/
def State.writeMem (s : State) (j pg o : Nat) (w : WriteReq) : State :=
  if j < 24 then if o == 0x020 then s.writeScrub j pg w else s.writePlain pg o w
  else
    let p := j - 24
    if o == 0x020 then if p == 0 then s.writeDivision pg w else s
    else if o == 0x024 then if p == 0 then s.writePartCtrl w.masked else s
    else if o == 0x03C then s.writePmap p pg w.masked
    else if o == 0x074 then if bit w.masked 0 then s.snapAsk p else s
    else if o == 0x0A8 then
      let s := if bit w.masked 0 then s.fillAsk p else s
      if bit w.masked 1 then s.fillAbort p else s
    else s.writePlain pg o w

/-- SYNC pages (R116, R127, R148). -/
def State.writeSync (s : State) (j pg o : Nat) (w : WriteReq) : State :=
  if o == 0x024 then s.opAdd (256 * j + s.f pg F.SYNC_INDEX) (sx 32 w.val)
  else if 0xC00 ≤ o then
    let c := 256 * j + (o - 0xC00) / 4
    let s := s.countOp c
    if s.ctrBusy c then s else s.setReg (pg * 4096 + o) w.val
  else if 0x800 ≤ o then s.opSet (256 * j + (o - 0x800) / 4) w.val
  else s.writePlain pg o w

/-- CAMB pages (R275, R295, R297, R492). -/
def State.writeCamb (s : State) (j pg o : Nat) (w : WriteReq) : State :=
  let p := s.unitPart j
  let leads := s.lead p == j
  if 0x080 ≤ o && !leads then s
  else if o == 0x0B0 then if bit w.masked 0 then s.abortUpdate p else s
  else if o == 0x0F8 then if bit w.masked 0 then s.replayAsk j else s
  else if (o == 0x080 || o == 0x084) && (s.camb p).upd.isSome then s.event pg Ev.CAMB_NORM_WRITE_IGNORED
  else s.writePlain pg o w

/-- KV_PEEK_CMD.READ (R344): an entry of the partition's table engine, performed at once where nothing is before it, and not at all
while the partition is STOPPED (R301); a READ that finds one in progress joins it. -/
def State.peek (s : State) (p pg : Nat) : State :=
  let t := s.f pg F.KV_TABLE
  let i := s.f pg F.KV_INDEX
  if s.f pg F.KV_BUSY == 1 then s
  else if (s.kv p).queue.isEmpty && (s.part p).st != .stopped then s.peekNow p t i
  else (s.modKv p fun k => { k with queue := k.queue ++ [.peek t i] }).setF pg F.KV_BUSY 1

/-- COPP_MODE_p (R349, R351, R366): TARGET is stored, and REQ acts for a partition that is ACTIVE or STOPPED. -/
def State.writeMode (s : State) (d pg o m sel : Nat) : State :=
  let p := (o - 0x020) / 4
  if !s.coppHas d p then s
  else
    let a := pg * 4096 + o
    let tm := sel &&& 0xC
    let s := s.setReg a ((s.reg a &&& (0xFFFFFFFF - tm)) ||| (m &&& tm))
    let st := (s.part p).st
    if bit m 4 && (st == .active || st == .stopped) then s.requestMode p (s.f pg (F.COPP_TARGET.sh (4 * p))) else s

/-- CNPY 9 (R419, R449). -/
def State.writeFabric (s : State) (pg o : Nat) (w : WriteReq) : State :=
  if o == 0x020 then
    if w.can &&& 0x1FFFF == 0 then s else (s.setReg (pg * 4096 + o) (w.compose (s.reg (pg * 4096 + o)))).restartAddr
  else if o == 0x044 then
    if bit w.masked 1 then s.tblCommand true else if bit w.masked 0 then s.tblCommand false else s
  else s.writePlain pg o w

/-- HOST pages (R458, R462, R474). -/
def State.writeHost (s : State) (j pg o : Nat) (w : WriteReq) : State :=
  let f := j / 4
  let q := (o - 0x040) / 16
  if j % 4 == 0 && o == 0x024 && f != 0 then s.setF pg F.HOST0_WINDOW w.val
  else if j % 4 == 1 && 0x040 ≤ o && o % 16 < 8 then if s.sqF f q F.HOST1_EN == 1 then s else s.writePlain pg o w
  else if j % 4 == 1 && 0x040 ≤ o && o % 16 == 8 then s.sqCtrl f q (w.compose (s.reg (pg * 4096 + o)))
  else if j % 4 == 2 && 0x040 ≤ o && o % 16 == 8 then s.cqCtrl f q (w.compose (s.reg (pg * 4096 + o)))
  else s.writePlain pg o w

/-- SEC pages (R560 to R563). -/
def State.writeSec (s : State) (j pg o : Nat) (w : WriteReq) : State :=
  match j, o with
  | 0, 0x028 => s.lcCommand w.masked
  | 1, 0x028 => s.fwCommand w.masked
  | 1, 0x0A4 => s.setCommand w.masked
  | 2, 0x040 => if bit w.masked 0 then s.attest else s
  | 3, 0x028 =>
    let a := pg * 4096 + o
    let km := w.sel &&& w.can &&& 3
    let s := s.setReg a ((s.reg a &&& (0xFFFFFFFF - km)) ||| (w.masked &&& km))
    if bit w.masked 2 then s.programKey else s
  | _, _ => s.writePlain pg o w

/-- A block register is written. -/
def State.writeBlock (s : State) (who : Requester) (c : PClass) (j pg o : Nat) (w : WriteReq) : State :=
  match c with
  | .dir => s.writeDir pg o w
  | .pwr => s.writePwr who pg o w
  | .sec => s.writeSec j pg o w
  | .mem => s.writeMem j pg o w
  | .plan => if o == 0x024 then (if bit w.masked 0 then s.flushPlans j else s) else s.writePlain pg o w
  | .camb => s.writeCamb j pg o w
  | .copp => if 0x020 ≤ o && o < 0x040 then s.writeMode j pg o w.masked w.sel else s.writePlain pg o w
  | .kv => if o == 0x0C4 then (if bit w.masked 0 then s.peek j pg else s) else s.writePlain pg o w
  | .intk => s.writePlain pg o w
  | .cnpy => if j == 9 then s.writeFabric pg o w else s.writePlain pg o w
  | .host => s.writeHost j pg o w
  | .core => s.writePlain pg o w
  | .sync => s.writeSync j pg o w

/-- A word of a page that the requester may write is written. -/
def State.writeWord (s : State) (who : Requester) (c : PClass) (j pg o val : Nat) : State :=
  let w := s.writeReq who pg (regAt c j o) val
  let s := (s.countLocked who pg w).writeRsvp who pg o w
  if o < 0x020 then s.writeHeader pg o w else s.writeBlock who c j pg o w

/-! ### Accesses (R39, R40, R47, R50) -/

/-- The requester's accesses reach the pages: over the host link while every rail is up, over I3C once the target has its address,
and from the management core while it works. -/
def State.reaches (s : State) (who : Requester) : Bool :=
  match who with
  | .i3c => s.i3cLive
  | .mgmt => s.mgmtRuns
  | _ => s.power.phase == .up

/-- While PCLK, KCLK or the PLL has failed a write may be lost (R32). -/
def State.mayLose (s : State) : State × Bool :=
  if s.power.busUnsure then ({ s with opens := s.opens + 1 }, Config.open s.opens % 2 == 1) else (s, false)

/-- While a whole-device reset is in progress writes are ignored, but for those of the PWR page over I3C, which the management domain
serves (R40; log entry 47). -/
def State.takesWrites (s : State) (who : Requester) (off : Nat) : Bool :=
  s.power.reset.isNone || (who == .i3c && off / 4096 == Pg.pwr)

/-- A 32-bit write at a BAR0 offset. -/
def State.busWrite (s : State) (who : Requester) (off val : Nat) : State :=
  if !s.reaches who || !s.takesWrites who off then s
  else
    let l := s.mayLose
    let s := l.1
    let pg := off / 4096
    if l.2 then s
    else if off % 4 != 0 || !s.sees who pg then s.refuse who off
    else if !s.mayWrite who pg then s
    else match classOf pg with
      | some (c, j) => s.writeWord who c j pg (off % 4096) val
      | none => s

/-- A 32-bit read at a BAR0 offset: the state after it and the value (R32, R47). -/
def State.busRead (s : State) (who : Requester) (off : Nat) : State × Nat :=
  if s.power.busUnsure then ({ s with opens := s.opens + 1 }, Config.open s.opens % 2 ^ 32)
  else if off % 4 != 0 || !s.sees who (off / 4096) then (s.refuse who off, 0)
  else (s, s.regRead (off / 4096) (off % 4096))

end Sys2Proof.Machine
end

