-- ==== Sys2Proof/Machine/Pages.lean ====
section
/-! DEFINITION. The commands that are register accesses: each is the access that its rule describes, through `busWrite` (R36, R39,
R47, R53 to R62, R78 to R83, R116, R148, R181, R275, R295, R344, R349, R419, R449, R462, R474, R481, R492, R496, R521, R527, R535 to
R563). -/

namespace Sys2Proof.Machine

/-- A write of MW bits of a register, with their selects. -/
def State.maskedWrite (s : State) (who : Requester) (pg o bitsSet sel : Nat) : State :=
  s.busWrite who (pg * 4096 + o) (bitsSet + 2 ^ 16 * sel)

/-- A write of one field of a register, every other bit as it reads. -/
def State.fieldWrite (s : State) (who : Requester) (pg : Nat) (x : Fld) (v : Nat) : State :=
  s.busWrite who (pg * 4096 + x.off) (putBits (s.reg (pg * 4096 + x.off)) x.lo x.w v)

/-- A register read over I3C (R39). -/
def State.i3cReads (s : State) (off : Nat) : State :=
  if !s.i3cLive then s
  else
    let r := s.busRead .i3c off
    r.1.emit (.i3cRead (toBytes 4 r.2))

/-- The words of an access that the device does not perform (R47, R48). -/
def State.unperformed (s : State) (who : Requester) (off n : Nat) : List Nat :=
  if n < 4 || off % 4 != 0 then [off]
  else ((List.range (n / 4)).map fun i => off + 4 * i).filter fun a => !s.sees who (a / 4096)

/-- A refused access (R47): each word is counted, a read answers 0. -/
def State.refused_ (s : State) (who : Requester) (off n : Nat) (write : Bool) : State :=
  let l := s.unperformed who off n
  if !s.reaches who || l.isEmpty then s
  else
    let s := l.foldl (fun s a => s.refuse who a) s
    if write then s else s.emit (.readData (toBytes n 0))

/-- Flags that a page's table gives it, of a word (R51). -/
def State.flagsOf (s : State) (pg now : Nat) : List Nat :=
  match classOf pg with
  | some (c, j) => if s.present pg then (List.range 32).filter fun b => bit (now &&& eventBits c j) b else []
  | none => []

/-- A write of PAGE_EVENT in whose PCLK cycle hardware sets the flags `now` of the page (R57, R58; log entry 54): each is set and
counted, and the write clears none of them. -/
def State.clearEvents (s : State) (who : Requester) (pg clear now : Nat) : State :=
  ((s.flagsOf pg now).foldl (fun s b => s.event pg b) s).busWrite who (pg * 4096 + oEvent) clear

/-- Accesses through the old entry have completed (R79). -/
def State.pmapWritten (s : State) (p : Nat) : State :=
  let pg := Pg.part p
  if s.f pg F.MEMP_BUSY == 1 && !s.oldOutstanding p then s.pmapEnds pg 0 else s

/-- CAMB_NORM_PREV and PREV_VALID are written (R295). -/
def State.normWrite (s : State) (who : Requester) (unit : Nat) (valid : Bool) (v : Nat) : State :=
  (s.busWrite who (Pg.camb unit * 4096 + 0x080) v).fieldWrite who (Pg.camb unit) F.CAMBL_PREV_VALID (b2n valid)

/-- FETCH (R546): the host has put the block where SEC_FW_SRC points. -/
def State.fetchWrite (s : State) (who : Requester) (host : List Byte) : State :=
  let src := (s.f fwPage F.SEC1_SRC + 2 ^ 32 * s.f fwPage (F.SEC1_SRC.sh 4)) / 4096 * 4096
  (s.poke (hostKey src) (host.take 65536)).maskedWrite who fwPage 0x028 0x10 0x10

/-- A settings command that changes flash (R559): where flash fails, nothing is changed and RESULT is FLASH_FAULT. -/
def State.flashCommand (s : State) (who : Requester) (b : Nat) (good : Bool) : State :=
  let t := s.maskedWrite who fwPage 0x0A4 b b
  if good || t.sec == s.sec then t else { t with sec := s.sec }.setResult 4

/-- PROGRAM_KEY (R563): where programming fails, any of the digest's fuses may have been programmed, none is cleared (R531), and KEY_PRESENT
stays. -/
def State.fuseCommand (s : State) (who : Requester) (key : Nat) (good : Bool) : State :=
  let pg := Pg.sec 3
  let t := s.maskedWrite who pg 0x028 (key + 4) 7
  if good || t.f pg F.SEC3_KEY_PRESENT == s.f pg F.SEC3_KEY_PRESENT then t
  else
    let words := (List.range 8).map fun w => s.f pg (F.SEC3_DIGEST.sh (32 * key + 4 * w)) ||| Config.open (s.opens + w) % 2 ^ 32
    let t := { t with opens := t.opens + 8 }.setRegs (pg * 4096 + 0x060 + 32 * key) words
    (t.setF pg F.SEC3_KEY_PRESENT (s.f pg F.SEC3_KEY_PRESENT)).setF pg F.SEC3_RESULT 3

/-! ### Meanings -/

/-- R36. -/
def execPwrResetWarm (who : Requester) (s : State) : Out := .next (s.maskedWrite who Pg.pwr 0x048 1 1)
/-- R36. -/
def execPwrPartReset (who : Requester) (parts : BitVec 8) (s : State) : Out :=
  .next (s.maskedWrite who Pg.pwr 0x048 (256 * parts.toNat) (256 * parts.toNat))
/-- R39. -/
def execI3cRegRead (offset : BitVec 32) (s : State) : Out := .next (s.i3cReads offset.toNat)
/-- R39. -/
def execI3cRegWrite (offset value : BitVec 32) (s : State) : Out := .next (s.busWrite .i3c offset.toNat value.toNat)
/-- R48, R61: an access of 8 bytes is two of 4, the lower address first. One that is aligned to 4 bytes only is split like one that is
naturally aligned (log entry 177); one that is not aligned to 4 bytes is one refused access (R47). -/
def execRegisterWrite (who : Requester) (offset : BitVec 26) (value : RegValue) (s : State) : Out :=
  .next (match value with
    | .word v => s.busWrite who offset.toNat v.toNat
    | .pair l h =>
      let t := s.busWrite who offset.toNat l.toNat
      if offset.toNat % 4 != 0 then t else t.busWrite who (offset.toNat + 4) h.toNat)
/-- R47. -/
def execRefusedAccess (who : Requester) (offset : BitVec 26) (n : BitVec 4) (write : Bool) (s : State) : Out :=
  .next (s.refused_ who offset.toNat n.toNat write)
/-- R59. -/
def execApplyRequest (who : Requester) (page : BitVec 14) (s : State) : Out := .next (s.maskedWrite who page.toNat oApply 1 1)
/-- R60. -/
def execApplyDiscard (who : Requester) (page : BitVec 14) (s : State) : Out := .next (s.maskedWrite who page.toNat oApply 2 2)
/-- R62. -/
def execApplication (page : BitVec 14) (s : State) : Out := .next (s.applyIfReady page.toNat)
/-- R54. -/
def execPageLockSet (who : Requester) (page : BitVec 14) (s : State) : Out := .next (s.fieldWrite who page.toNat fLock 1)
/-- R55. -/
def execLockAll (who : Requester) (s : State) : Out := .next (s.maskedWrite who Pg.dir 0x02C 1 1)
/-- R58. -/
def execEventFlagClear (who : Requester) (page : BitVec 14) (clear setNow : Word) (s : State) : Out :=
  .next (s.clearEvents who page.toNat clear.toNat setNow.toNat)
/-- R56. -/
def execEventMaskWrite (who : Requester) (page : BitVec 14) (mask : Word) (s : State) : Out :=
  .next (s.busWrite who (page.toNat * 4096 + oMask) mask.toNat)
/-- R78. -/
def execPmapWrite (who : Requester) (p : Fin 8) (s : State) : Out := .next (s.maskedWrite who (Pg.part p) 0x03C 1 1)
/-- R79. -/
def execPmapWriteDone (p : Fin 8) (s : State) : Out := .next (s.pmapWritten p)
/-- R79. -/
def execPmapRead (who : Requester) (p : Fin 8) (s : State) : Out := .next (s.maskedWrite who (Pg.part p) 0x03C 2 2)
/-- R82. -/
def execDivisionWrite (who : Requester) (log2k : BitVec 2) (s : State) : Out :=
  .next (s.fieldWrite who (Pg.part 0) F.MEMP_LOG2_K log2k.toNat)
/-- R83. -/
def execPartCreate (who : Requester) (parts : BitVec 8) (s : State) : Out :=
  .next (s.maskedWrite who (Pg.part 0) 0x024 parts.toNat parts.toNat)
/-- R83. -/
def execPartTeardown (who : Requester) (parts : BitVec 8) (s : State) : Out :=
  .next (s.maskedWrite who (Pg.part 0) 0x024 (256 * parts.toNat) (256 * parts.toNat))
/-- R116, R127. -/
def execSyncValueWrite (who : Requester) (ctr : Fin 8192) (v : Word) (s : State) : Out :=
  .next (s.busWrite who (Pg.sync (ctr / 256) * 4096 + 0x800 + 4 * (ctr % 256)) v.toNat)
/-- R116, R127. -/
def execSyncCmdAdd (who : Requester) (page : Fin 32) (v : Word) (s : State) : Out :=
  .next (s.busWrite who (Pg.sync page * 4096 + 0x024) v.toNat)
/-- R148. -/
def execSyncLimitWrite (who : Requester) (ctr : Fin 8192) (v : Word) (s : State) : Out :=
  .next (s.busWrite who (Pg.sync (ctr / 256) * 4096 + 0xC00 + 4 * (ctr % 256)) v.toNat)
/-- R181. -/
def execPlanFlush (who : Requester) (j : Fin 8) (s : State) : Out := .next (s.maskedWrite who (Pg.plan j) 0x024 1 1)
/-- R275. -/
def execUpdateAbort (who : Requester) (unit : Fin 16) (s : State) : Out := .next (s.maskedWrite who (Pg.camb unit) 0x0B0 1 1)
/-- R295. -/
def execCambNormPrevWrite (who : Requester) (unit : Fin 16) (valid : Bool) (value : Word) (s : State) : Out :=
  .next (s.normWrite who unit valid value.toNat)
/-- R344. -/
def execKvPeekRead (who : Requester) (p : Fin 8) (s : State) : Out := .next (s.maskedWrite who (Pg.kv p) 0x0C4 1 1)
/-- R349, R351, R366. -/
def execCoppModeReq (who : Requester) (p : Fin 8) (target : BitVec 2) (s : State) : Out :=
  .next (s.maskedWrite who (s.coppPage p) (0x020 + 4 * p) (4 * target.toNat + 16) 0x1C)
/-- R419. -/
def execCnpyAddrWrite (who : Requester) (value : Word) (s : State) : Out :=
  .next (s.busWrite who (Pg.cnpy 9 * 4096 + 0x020) value.toNat)
/-- R449. -/
def execCnpyTblRead (who : Requester) (s : State) : Out := .next (s.maskedWrite who (Pg.cnpy 9) 0x044 1 1)
/-- R449. -/
def execCnpyTblWrite (who : Requester) (s : State) : Out := .next (s.maskedWrite who (Pg.cnpy 9) 0x044 2 2)
/-- R462. -/
def execSqEnable (who : Requester) (f : Fin 9) (q : Fin 16) (v : Word) (s : State) : Out :=
  .next (s.busWrite who (Pg.host f 1 * 4096 + 0x048 + 16 * q) v.toNat)
/-- R474. -/
def execCqEnable (who : Requester) (f : Fin 9) (q : Fin 16) (v : Word) (s : State) : Out :=
  .next (s.busWrite who (Pg.host f 2 * 4096 + 0x048 + 16 * q) v.toNat)
/-- R474. -/
def execCqCtrlWrite (who : Requester) (f : Fin 9) (q : Fin 16) (v : Word) (s : State) : Out :=
  .next (s.busWrite who (Pg.host f 2 * 4096 + 0x048 + 16 * q) v.toNat)
/-- R481. -/
def execSnapRequest (who : Requester) (p : Fin 8) (s : State) : Out := .next (s.maskedWrite who (Pg.part p) 0x074 1 1)
/-- R492. -/
def execReplayStart (who : Requester) (unit : Fin 16) (s : State) : Out := .next (s.maskedWrite who (Pg.camb unit) 0x0F8 1 1)
/-- R496. -/
def execFillStart (who : Requester) (p : Fin 8) (s : State) : Out := .next (s.maskedWrite who (Pg.part p) 0x0A8 1 1)
/-- R497. -/
def execFillAbort (who : Requester) (p : Fin 8) (s : State) : Out := .next (s.maskedWrite who (Pg.part p) 0x0A8 2 2)
/-- R527. -/
def execFhRead (who : Requester) (s : State) : Out := .next (s.maskedWrite who Pg.dir 0x304 1 1)
/-- R521. -/
def execImpArm (who : Requester) (s : State) : Out := .next (s.maskedWrite who Pg.dir 0x108 1 1)
/-- R521. -/
def execImpCancel (who : Requester) (s : State) : Out := .next (s.maskedWrite who Pg.dir 0x108 2 2)
/-- R535. -/
def execLcProvision (who : Requester) (s : State) : Out := .next (s.maskedWrite who (Pg.sec 0) 0x028 1 7)
/-- R535. -/
def execLcDeploy (who : Requester) (s : State) : Out := .next (s.maskedWrite who (Pg.sec 0) 0x028 2 7)
/-- R535 to R537. -/
def execLcReturn (who : Requester) (s : State) : Out := .next (s.maskedWrite who (Pg.sec 0) 0x028 3 7)
/-- R535. -/
def execLcDecommission (who : Requester) (s : State) : Out := .next (s.maskedWrite who (Pg.sec 0) 0x028 4 7)
/-- R538. -/
def execSecAttRequest (who : Requester) (s : State) : Out := .next (s.maskedWrite who (Pg.sec 2) 0x040 1 1)
/-- R546. -/
def execFwFetch (who : Requester) (host : List Byte) (s : State) : Out := .next (s.fetchWrite who host)
/-- R550. -/
def execFwActivate (who : Requester) (reset : Bool) (s : State) : Out :=
  .next (s.maskedWrite who fwPage 0x028 (1 + 2 * b2n reset) 3)
/-- R553. -/
def execFwConfirm (who : Requester) (s : State) : Out := .next (s.maskedWrite who fwPage 0x028 4 4)
/-- R548. -/
def execFwDiscard (who : Requester) (s : State) : Out := .next (s.maskedWrite who fwPage 0x028 8 8)
/-- R559. -/
def execSecSetRead (who : Requester) (s : State) : Out := .next (s.maskedWrite who fwPage 0x0A4 1 1)
/-- R559. -/
def execSecSetWrite (who : Requester) (good : Bool) (s : State) : Out := .next (s.flashCommand who 2 good)
/-- R559. -/
def execSecSetDelete (who : Requester) (good : Bool) (s : State) : Out := .next (s.flashCommand who 4 good)
/-- R563. -/
def execFuseProgramKey (who : Requester) (key : BitVec 2) (good : Bool) (s : State) : Out :=
  .next (s.fuseCommand who key.toNat good)

end Sys2Proof.Machine
end

