-- ==== Sys2Proof/Machine/Programs.lean ====
section
/-! DEFINITION. The meanings of the instructions of thread programs and of the events of threads: rows THREAD_START_REQUEST to
SYNC_WAIT_TIMEOUT, GALLEY_SHARE_APPLY and POST_RETRY (R103, R105, R115 to R120, R155 to R161, R166, R569, R570). -/

namespace Sys2Proof.Machine

/-- R105: a start request, of a partition that runs. -/
def execThreadStartRequest (core : Fin 256) (slot : Fin 4) (pc : Dword) (args : List Dword) (s : State) : Out :=
  .next (if s.active (s.corePart core) then
      s.startReq core slot
        { pc := pc.toNat, args := (args.take 4).map fun a => a.toNat, endCtr := none, host := none, epi := none }
    else s)

/-! ### ALU (R155) -/

/-- The word of an ALU instruction. -/
def encAlu (f : Nat) (d a b : BitVec 5) : Nat := encR 0x00 d.toNat a.toNat b.toNat f

/-- An ALU instruction. -/
def State.alu (s : State) (c : Fin 256) (t : Fin 64) (f : Nat) (d a b : BitVec 5) (op : Nat → Nat → Nat) : State :=
  s.scalar c t (encAlu f d a b) d.toNat [a.toNat, b.toNat] fun x => op (x.s a.toNat) (x.s b.toNat)

def execAluAdd (c : Fin 256) (t : Fin 64) (d a b : BitVec 5) (s : State) : Out := .next (s.alu c t 0 d a b fun x y => x + y)
def execAluSub (c : Fin 256) (t : Fin 64) (d a b : BitVec 5) (s : State) : Out :=
  .next (s.alu c t 1 d a b fun x y => x + 2 ^ 64 - y)
def execAluAnd (c : Fin 256) (t : Fin 64) (d a b : BitVec 5) (s : State) : Out := .next (s.alu c t 2 d a b fun x y => x &&& y)
def execAluOr (c : Fin 256) (t : Fin 64) (d a b : BitVec 5) (s : State) : Out := .next (s.alu c t 3 d a b fun x y => x ||| y)
def execAluXor (c : Fin 256) (t : Fin 64) (d a b : BitVec 5) (s : State) : Out := .next (s.alu c t 4 d a b fun x y => x ^^^ y)
def execAluShl (c : Fin 256) (t : Fin 64) (d a b : BitVec 5) (s : State) : Out :=
  .next (s.alu c t 5 d a b fun x y => x * 2 ^ (y % 64))
def execAluShrl (c : Fin 256) (t : Fin 64) (d a b : BitVec 5) (s : State) : Out :=
  .next (s.alu c t 6 d a b fun x y => x / 2 ^ (y % 64))
def execAluShra (c : Fin 256) (t : Fin 64) (d a b : BitVec 5) (s : State) : Out :=
  .next (s.alu c t 7 d a b fun x y => ux 64 (sx 64 x / Int.ofNat (2 ^ (y % 64))))
def execAluMul (c : Fin 256) (t : Fin 64) (d a b : BitVec 5) (s : State) : Out := .next (s.alu c t 8 d a b fun x y => x * y)
def execAluSlt (c : Fin 256) (t : Fin 64) (d a b : BitVec 5) (s : State) : Out :=
  .next (s.alu c t 9 d a b fun x y => b2n (sx 64 x < sx 64 y))
def execAluSltu (c : Fin 256) (t : Fin 64) (d a b : BitVec 5) (s : State) : Out :=
  .next (s.alu c t 10 d a b fun x y => b2n (x < y))
def execAluMin (c : Fin 256) (t : Fin 64) (d a b : BitVec 5) (s : State) : Out :=
  .next (s.alu c t 11 d a b fun x y => if sx 64 y < sx 64 x then y else x)
def execAluMax (c : Fin 256) (t : Fin 64) (d a b : BitVec 5) (s : State) : Out :=
  .next (s.alu c t 12 d a b fun x y => if sx 64 x < sx 64 y then y else x)

/-! ### Immediates (R155) -/

/-- The word of an instruction of form I. -/
def encImm (op : Nat) (d a : BitVec 5) (imm : BitVec 16) : Nat := encI op d.toNat a.toNat imm.toNat

/-- An instruction on a register and an immediate. -/
def State.immOp (s : State) (c : Fin 256) (t : Fin 64) (op : Nat) (d a : BitVec 5) (imm : BitVec 16) (f : Nat → Nat) : State :=
  s.scalar c t (encImm op d a imm) d.toNat [a.toNat] fun x => f (x.s a.toNat)

def execAddi (c : Fin 256) (t : Fin 64) (d a : BitVec 5) (imm : BitVec 16) (s : State) : Out :=
  .next (s.immOp c t 0x01 d a imm fun x => ux 64 (Int.ofNat x + sx 16 imm.toNat))
def execAndi (c : Fin 256) (t : Fin 64) (d a : BitVec 5) (imm : BitVec 16) (s : State) : Out :=
  .next (s.immOp c t 0x02 d a imm fun x => x &&& imm.toNat)
def execOri (c : Fin 256) (t : Fin 64) (d a : BitVec 5) (imm : BitVec 16) (s : State) : Out :=
  .next (s.immOp c t 0x03 d a imm fun x => x ||| imm.toNat)
def execXori (c : Fin 256) (t : Fin 64) (d a : BitVec 5) (imm : BitVec 16) (s : State) : Out :=
  .next (s.immOp c t 0x04 d a imm fun x => x ^^^ imm.toNat)
def execShli (c : Fin 256) (t : Fin 64) (d a : BitVec 5) (imm : BitVec 16) (s : State) : Out :=
  .next (s.immOp c t 0x05 d a imm fun x => x * 2 ^ (imm.toNat % 64))
def execShrli (c : Fin 256) (t : Fin 64) (d a : BitVec 5) (imm : BitVec 16) (s : State) : Out :=
  .next (s.immOp c t 0x06 d a imm fun x => x / 2 ^ (imm.toNat % 64))
def execShrai (c : Fin 256) (t : Fin 64) (d a : BitVec 5) (imm : BitVec 16) (s : State) : Out :=
  .next (s.immOp c t 0x07 d a imm fun x => ux 64 (sx 64 x / Int.ofNat (2 ^ (imm.toNat % 64))))
def execIns16 (c : Fin 256) (t : Fin 64) (d h : BitVec 5) (imm : BitVec 16) (s : State) : Out :=
  .next (s.scalar c t (encImm 0x08 d h imm) d.toNat [] fun x => putBits (x.s d.toNat) (16 * h.toNat) 16 imm.toNat)

/-! ### Special registers (R157) -/

def execMovs (c : Fin 256) (t : Fin 64) (d a b : BitVec 5) (s : State) : Out :=
  .next (s.scalar c t (encR 0x09 d.toNat a.toNat b.toNat 0) d.toNat [] fun x => s.special c t x a.toNat)
def execSets (c : Fin 256) (t : Fin 64) (d a b : BitVec 5) (s : State) : Out :=
  .next (s.instr c t (encR 0x0A d.toNat a.toNat b.toNat 0) [(false, d.toNat)] fun x =>
    s.goOn c t (x.setSpecial a.toNat (x.s d.toNat)))

/-! ### Loads and stores (R158) -/

/-- A load: register kind, bytes and alignment. -/
def State.loadOp (s : State) (c : Fin 256) (t : Fin 64) (op n align : Nat) (vec : Bool) (d a : BitVec 5) (imm : BitVec 16) : State :=
  s.instr c t (encImm op d a imm) [(vec, d.toNat), (false, a.toNat)] fun x =>
    s.issueLoad c t x vec d.toNat n align (x.address a.toNat imm.toNat)

/-- A store of bytes that a function of the thread gives. -/
def State.storeOp (s : State) (c : Fin 256) (t : Fin 64) (op align : Nat) (vec : Bool) (d a : BitVec 5) (imm : BitVec 16)
    (b : Thread → List Byte) : State :=
  s.instr c t (encImm op d a imm) [(vec, d.toNat), (false, a.toNat)] fun x =>
    s.issueStore c t x align (x.address a.toNat imm.toNat) (b x)

def execLd (c : Fin 256) (t : Fin 64) (d a : BitVec 5) (imm : BitVec 16) (s : State) : Out :=
  .next (s.loadOp c t 0x10 8 8 false d a imm)
def execLw (c : Fin 256) (t : Fin 64) (d a : BitVec 5) (imm : BitVec 16) (s : State) : Out :=
  .next (s.loadOp c t 0x11 4 4 false d a imm)
def execSt (c : Fin 256) (t : Fin 64) (d a : BitVec 5) (imm : BitVec 16) (s : State) : Out :=
  .next (s.storeOp c t 0x12 8 false d a imm fun x => toBytes 8 (x.s d.toNat))
def execSw (c : Fin 256) (t : Fin 64) (d a : BitVec 5) (imm : BitVec 16) (s : State) : Out :=
  .next (s.storeOp c t 0x13 4 false d a imm fun x => toBytes 4 (x.s d.toNat))
def execVld (c : Fin 256) (t : Fin 64) (d a : BitVec 5) (imm : BitVec 16) (s : State) : Out :=
  .next (s.loadOp c t 0x14 256 32 true d a imm)
def execVst (c : Fin 256) (t : Fin 64) (d a : BitVec 5) (imm : BitVec 16) (s : State) : Out :=
  .next (s.storeOp c t 0x15 32 true d a imm fun x => toBytes 256 (x.v d.toNat).toNat)

/-! ### Branches and jumps (R155, R158) -/

def execBeq (c : Fin 256) (t : Fin 64) (d a : BitVec 5) (imm : BitVec 16) (s : State) : Out :=
  .next (s.branch c t (encImm 0x18 d a imm) d.toNat a.toNat imm.toNat fun x y => x == y)
def execBne (c : Fin 256) (t : Fin 64) (d a : BitVec 5) (imm : BitVec 16) (s : State) : Out :=
  .next (s.branch c t (encImm 0x19 d a imm) d.toNat a.toNat imm.toNat fun x y => x != y)
def execBlt (c : Fin 256) (t : Fin 64) (d a : BitVec 5) (imm : BitVec 16) (s : State) : Out :=
  .next (s.branch c t (encImm 0x1A d a imm) d.toNat a.toNat imm.toNat fun x y => sx 64 x < sx 64 y)
def execBge (c : Fin 256) (t : Fin 64) (d a : BitVec 5) (imm : BitVec 16) (s : State) : Out :=
  .next (s.branch c t (encImm 0x1B d a imm) d.toNat a.toNat imm.toNat fun x y => sx 64 y ≤ sx 64 x)
def execJmp (c : Fin 256) (t : Fin 64) (offs : BitVec 26) (s : State) : Out :=
  .next (s.instr c t (encJ 0x1C offs.toNat) [] fun x => s.goTo c t x (ux 64 (Int.ofNat x.pc + 4 * sx 26 offs.toNat)))
def execJalr (c : Fin 256) (t : Fin 64) (d a : BitVec 5) (imm : BitVec 16) (s : State) : Out :=
  .next (s.instr c t (encImm 0x1D d a imm) [(false, d.toNat), (false, a.toNat)] fun x =>
    let target := x.address a.toNat imm.toNat
    let y := x.setS d.toNat (x.pc + 4)
    if target % 4 == 0 then s.goTo c t y target else (s.setTh c t { y with pc := target }).endProgram c t 0x0C)

/-! ### Sync counters (R115 to R120) -/

def execSyncAdd (c : Fin 256) (t : Fin 64) (d a b : BitVec 5) (s : State) : Out :=
  .next (s.syncOp c t d.toNat a.toNat b.toNat 0 [a.toNat, b.toNat] fun x k => (s.goOn c t x).opAdd k (sx 32 (x.s b.toNat)))
def execSyncSet (c : Fin 256) (t : Fin 64) (d a b : BitVec 5) (s : State) : Out :=
  .next (s.syncOp c t d.toNat a.toNat b.toNat 1 [a.toNat, b.toNat] fun x k => (s.goOn c t x).opSet k (x.s b.toNat))
def execSyncRead (c : Fin 256) (t : Fin 64) (d a b : BitVec 5) (s : State) : Out :=
  .next (s.syncOp c t d.toNat a.toNat b.toNat 2 [d.toNat, a.toNat] fun x k => (s.countOp k).goOn c t (x.setS d.toNat (s.value k)))
def execSyncWait (c : Fin 256) (t : Fin 64) (d a b : BitVec 5) (s : State) : Out :=
  .next (s.syncOp c t d.toNat a.toNat b.toNat 3 [d.toNat, a.toNat, b.toNat] fun x k => s.waitOp c t x d.toNat b.toNat k)
def execSyncClaim (c : Fin 256) (t : Fin 64) (d a b : BitVec 5) (s : State) : Out :=
  .next (s.syncOp c t d.toNat a.toNat b.toNat 4 [d.toNat, a.toNat] fun x k =>
    let r := s.opClaim k
    r.1.goOn c t (x.setS d.toNat (r.2.getD exhausted)))
def execSyncClaimSet (c : Fin 256) (t : Fin 64) (d a b : BitVec 5) (s : State) : Out :=
  .next (s.syncOp c t d.toNat a.toNat b.toNat 5 [d.toNat, a.toNat] fun x _ =>
    let first := bits (x.s a.toNat) 0 13
    let count := bits (x.s a.toNat) 16 3 + 1
    if s.ctrsPer < first + count then s.outOfRangeCtr c t else s.claimSetOp c t x d.toNat first count)

/-! ### Posts, starts and fences (R129, R155, R158) -/

def execPost (c : Fin 256) (t : Fin 64) (d a b : BitVec 5) (s : State) : Out :=
  .next (s.instr c t (encR 0x21 d.toNat a.toNat b.toNat 0) [(false, a.toNat)] fun x =>
    s.postOp c t x (x.s a.toNat))
def execStart (c : Fin 256) (t : Fin 64) (d a b : BitVec 5) (slot : Fin 4) (s : State) : Out :=
  .next (s.instr c t (encR 0x22 d.toNat a.toNat b.toNat slot)
      ((false, d.toNat) :: (false, a.toNat) :: (rangeFrom b.toNat 4).map fun r => (false, r)) fun x =>
    s.startOp c t x d.toNat a.toNat b.toNat slot)
def execFence (c : Fin 256) (t : Fin 64) (d a b : BitVec 5) (s : State) : Out :=
  .next (s.instr c t (encR 0x23 d.toNat a.toNat b.toNat 0) [] fun x => s.goOn c t x)

/-! ### The vector unit (R159) -/

/-- A vector operation over two vector registers. -/
def State.vop2 (s : State) (c : Fin 256) (t : Fin 64) (o : Nat) (ty : BitVec 2) (d a b : BitVec 5)
    (f : VType → Rnd → Nat → Nat → Nat × Nat) : State :=
  let v := VType.of ty.toNat
  s.vector c t (encV o ty.toNat 0 d.toNat a.toNat b.toNat) d.toNat [(true, a.toNat), (true, b.toNat)] fun x =>
    lanes2 v (f v (Rnd.ofMode x.rmode)) (x.v a.toNat) (x.v b.toNat)

/-- A vector operation over one vector register. -/
def State.vop1 (s : State) (c : Fin 256) (t : Fin 64) (o : Nat) (ty : BitVec 2) (d a b : BitVec 5)
    (f : VType → Rnd → Nat → Nat × Nat) : State :=
  let v := VType.of ty.toNat
  s.vector c t (encV o ty.toNat 0 d.toNat a.toNat b.toNat) d.toNat [(true, a.toNat)] fun x =>
    lanes1 v (f v (Rnd.ofMode x.rmode)) (x.v a.toNat)

/-- A bitwise vector operation; the type is ignored. -/
def State.vbits (s : State) (c : Fin 256) (t : Fin 64) (o : Nat) (ty : BitVec 2) (d a b : BitVec 5)
    (f : VReg → VReg → VReg) : State :=
  s.vector c t (encV o ty.toNat 0 d.toNat a.toNat b.toNat) d.toNat [(true, a.toNat), (true, b.toNat)] fun x =>
    (f (x.v a.toNat) (x.v b.toNat), 0)

/-- A reduction of a vector register into a scalar register. -/
def State.vred (s : State) (c : Fin 256) (t : Fin 64) (o : Nat) (ty : BitVec 2) (d a b : BitVec 5)
    (f : VType → Rnd → VReg → Nat × Nat) : State :=
  s.unitInstr c t (encV o ty.toNat 0 d.toNat a.toNat b.toNat) [(false, d.toNat), (true, a.toNat)] fun s x =>
    let r := f (VType.of ty.toNat) (Rnd.ofMode x.rmode) (x.v a.toNat)
    s.goOn c t { x.setS d.toNat r.1 with fpflags := x.fpflags ||| r.2 }

def execVadd (c : Fin 256) (t : Fin 64) (ty : BitVec 2) (d a b : BitVec 5) (s : State) : Out := .next (s.vop2 c t 0x00 ty d a b VType.add)
def execVsub (c : Fin 256) (t : Fin 64) (ty : BitVec 2) (d a b : BitVec 5) (s : State) : Out := .next (s.vop2 c t 0x01 ty d a b VType.sub)
def execVmul (c : Fin 256) (t : Fin 64) (ty : BitVec 2) (d a b : BitVec 5) (s : State) : Out := .next (s.vop2 c t 0x02 ty d a b VType.mul)
def execVfma (c : Fin 256) (t : Fin 64) (ty : BitVec 2) (d a b : BitVec 5) (s : State) : Out :=
  let v := VType.of ty.toNat
  .next (s.vector c t (encV 0x03 ty.toNat 0 d.toNat a.toNat b.toNat) d.toNat [(true, a.toNat), (true, b.toNat)] fun x =>
    VType.pack v.width ((List.range v.lanes).map fun k =>
      v.fma (Rnd.ofMode x.rmode) (lane v.width (x.v a.toNat) k) (lane v.width (x.v b.toNat) k) (lane v.width (x.v d.toNat) k)))
def execVmin (c : Fin 256) (t : Fin 64) (ty : BitVec 2) (d a b : BitVec 5) (s : State) : Out :=
  .next (s.vop2 c t 0x04 ty d a b fun v _ x y => (v.min x y, 0))
def execVmax (c : Fin 256) (t : Fin 64) (ty : BitVec 2) (d a b : BitVec 5) (s : State) : Out :=
  .next (s.vop2 c t 0x05 ty d a b fun v _ x y => (v.max x y, 0))
def execVabs (c : Fin 256) (t : Fin 64) (ty : BitVec 2) (d a b : BitVec 5) (s : State) : Out :=
  .next (s.vop1 c t 0x06 ty d a b fun v _ x => (v.abs x, 0))
def execVneg (c : Fin 256) (t : Fin 64) (ty : BitVec 2) (d a b : BitVec 5) (s : State) : Out :=
  .next (s.vop1 c t 0x07 ty d a b fun v _ x => (v.neg x, 0))
def execVdiv (c : Fin 256) (t : Fin 64) (ty : BitVec 2) (d a b : BitVec 5) (s : State) : Out :=
  .next (s.vop2 c t 0x08 ty d a b fun v r x y => v.fmt.div r x y)
def execVsqrt (c : Fin 256) (t : Fin 64) (ty : BitVec 2) (d a b : BitVec 5) (s : State) : Out :=
  .next (s.vop1 c t 0x09 ty d a b fun v r x => v.fmt.sqrt r x)
def execVcmplt (c : Fin 256) (t : Fin 64) (ty : BitVec 2) (d a b : BitVec 5) (s : State) : Out :=
  .next (s.vop2 c t 0x0A ty d a b fun v _ x y => v.lt x y)
def execVcmple (c : Fin 256) (t : Fin 64) (ty : BitVec 2) (d a b : BitVec 5) (s : State) : Out :=
  .next (s.vop2 c t 0x0B ty d a b fun v _ x y => v.le x y)
def execVcmpeq (c : Fin 256) (t : Fin 64) (ty : BitVec 2) (d a b : BitVec 5) (s : State) : Out :=
  .next (s.vop2 c t 0x0C ty d a b fun v _ x y => (v.eq x y, 0))
def execVsel (c : Fin 256) (t : Fin 64) (ty : BitVec 2) (d a b : BitVec 5) (s : State) : Out :=
  let v := VType.of ty.toNat
  .next (s.vector c t (encV 0x0D ty.toNat 0 d.toNat a.toNat b.toNat) d.toNat [(true, a.toNat), (true, b.toNat)] fun x =>
    VType.pack v.width ((List.range v.lanes).map fun k =>
      (if lane v.width (x.v d.toNat) k != 0 then lane v.width (x.v a.toNat) k else lane v.width (x.v b.toNat) k, 0)))
def execVand (c : Fin 256) (t : Fin 64) (ty : BitVec 2) (d a b : BitVec 5) (s : State) : Out :=
  .next (s.vbits c t 0x0E ty d a b fun x y => x &&& y)
def execVor (c : Fin 256) (t : Fin 64) (ty : BitVec 2) (d a b : BitVec 5) (s : State) : Out :=
  .next (s.vbits c t 0x0F ty d a b fun x y => x ||| y)
def execVxor (c : Fin 256) (t : Fin 64) (ty : BitVec 2) (d a b : BitVec 5) (s : State) : Out :=
  .next (s.vbits c t 0x10 ty d a b fun x y => x ^^^ y)
def execVcvt (c : Fin 256) (t : Fin 64) (ty : BitVec 2) (fmt : BitVec 3) (d a b : BitVec 5) (s : State) : Out :=
  .next (s.vector c t (encV 0x11 ty.toNat fmt.toNat d.toNat a.toNat b.toNat) d.toNat [(true, a.toNat)] fun x =>
    (VType.of ty.toNat).cvt fmt.toNat (Rnd.ofMode x.rmode) (x.v a.toNat))
def execVbcast (c : Fin 256) (t : Fin 64) (ty : BitVec 2) (d a b : BitVec 5) (s : State) : Out :=
  let v := VType.of ty.toNat
  .next (s.vector c t (encV 0x12 ty.toNat 0 d.toNat a.toNat b.toNat) d.toNat [(false, a.toNat)] fun x =>
    (ofLanes v.width (List.replicate v.lanes (x.s a.toNat)), 0))
def execVredsum (c : Fin 256) (t : Fin 64) (ty : BitVec 2) (d a b : BitVec 5) (s : State) : Out :=
  .next (s.vred c t 0x13 ty d a b fun v r x => v.redsum r x)
def execVredmax (c : Fin 256) (t : Fin 64) (ty : BitVec 2) (d a b : BitVec 5) (s : State) : Out :=
  .next (s.vred c t 0x14 ty d a b fun v _ x => (v.redmax x, 0))
def execVcvtw (c : Fin 256) (t : Fin 64) (ty : BitVec 2) (fmt : BitVec 3) (d a b : BitVec 5) (s : State) : Out :=
  .next (s.vector c t (encV 0x15 ty.toNat fmt.toNat d.toNat a.toNat b.toNat) d.toNat [(true, a.toNat)] fun x =>
    (VType.of ty.toNat).cvtw fmt.toNat (Rnd.ofMode x.rmode) (x.v a.toNat))

/-! ### Special functions (R212) -/

/-- A special function over the FP32 lanes of a register. -/
def State.sfu (s : State) (c : Fin 256) (t : Fin 64) (o : Nat) (d a b : BitVec 5) (f : Nat → Nat) : State :=
  s.vector c t (encR 0x29 d.toNat a.toNat b.toNat o) d.toNat [(true, a.toNat)] fun x =>
    lanes1 .f32 (fun v => (f v, 0)) (x.v a.toNat)

def execSfuExp (c : Fin 256) (t : Fin 64) (d a b : BitVec 5) (s : State) : Out := .next (s.sfu c t 0 d a b sfuExp)
def execSfuLog (c : Fin 256) (t : Fin 64) (d a b : BitVec 5) (s : State) : Out := .next (s.sfu c t 1 d a b sfuLog)
def execSfuRecip (c : Fin 256) (t : Fin 64) (d a b : BitVec 5) (s : State) : Out := .next (s.sfu c t 2 d a b sfuRecip)
def execSfuRsqrt (c : Fin 256) (t : Fin 64) (d a b : BitVec 5) (s : State) : Out := .next (s.sfu c t 3 d a b sfuRsqrt)

/-! ### Ends (R156, R161) -/

def execEnd (c : Fin 256) (t : Fin 64) (d a b : BitVec 5) (status : BitVec 8) (s : State) : Out :=
  .next (s.instr c t (encR 0x3F d.toNat a.toNat b.toNat status.toNat) [] fun _ => s.endProgram c t status.toNat)
/-- A word that is no legal instruction. -/
def execIllegalInstr (c : Fin 256) (t : Fin 64) (w : Word) (s : State) : Out :=
  .next (if legalWord w.toNat then s else s.instr c t w.toNat [] fun _ => s)

/-! ### Events of threads (R105, R118, R166, R569, R570) -/

def execLoadDataArrive (c : Fin 256) (t : Fin 64) (index : Nat) (how : Arrival) (s : State) : Out := .next (s.loadArrives c t index how)
def execInstrLineArrive (c : Fin 256) (t : Fin 64) (how : Arrival) (s : State) : Out := .next (s.lineArrives c t how)
def execStoreAck (c : Fin 256) (t : Fin 64) (index : Nat) (s : State) : Out := .next (s.storeAck c t index)
def execSyncWaitTimeout (c : Fin 256) (t : Fin 64) (s : State) : Out := .next (s.waitExpires c t)
/-- R103: new galley shares, once all four slots of the core are idle. -/
def execGalleyShareApply (core : Fin 256) (s : State) : Out :=
  .next (if (s.core core).shares.isSome && s.sharesIdle core then s.takeShares core else s)
def execPostRetry (c : Fin 256) (t : Fin 64) (s : State) : Out := .next (s.postRetry c t)

end Sys2Proof.Machine
end

