-- ==== Sys2Proof/Machine/Dispatch.lean ====
section
/-! DEFINITION. One arm per command: its meaning. -/

namespace Sys2Proof.Machine

/-- The effect of a command on everything but the queue. -/
def exec (i : Instr) (s : State) : Host.Outcome State Fault Refusal :=
  match i with
  | .powerUpBegin => Sys2Proof.Machine.execPowerUpBegin s
  | .pwrEnFall => Sys2Proof.Machine.execPwrEnFall s
  | .railStageComplete stage => Sys2Proof.Machine.execRailStageComplete stage s
  | .stageWindowTimeout rail => Sys2Proof.Machine.execStageWindowTimeout rail s
  | .workRailFault rail => Sys2Proof.Machine.execWorkRailFault rail s
  | .mgmtRailFault rail => Sys2Proof.Machine.execMgmtRailFault rail s
  | .inputRange mv => Sys2Proof.Machine.execInputRange mv s
  | .inputFault mv => Sys2Proof.Machine.execInputFault mv s
  | .rootPllLock => Sys2Proof.Machine.execRootPllLock s
  | .governorSample vinMv iin10ma => Sys2Proof.Machine.execGovernorSample vinMv iin10ma s
  | .governorEvaluate => Sys2Proof.Machine.execGovernorEvaluate s
  | .coreIdleRestart core => Sys2Proof.Machine.execCoreIdleRestart core s
  | .restartRampStep core => Sys2Proof.Machine.execRestartRampStep core s
  | .waveStart owner => Sys2Proof.Machine.execWaveStart owner s
  | .waveGapTakeEffect => Sys2Proof.Machine.execWaveGapTakeEffect s
  | .thermalSample sensors drams inlet => Sys2Proof.Machine.execThermalSample sensors drams inlet s
  | .thermalTrip sensor celsius => Sys2Proof.Machine.execThermalTrip sensor celsius s
  | .clockFault lost => Sys2Proof.Machine.execClockFault lost s
  | .perstFall => Sys2Proof.Machine.execPerstFall s
  | .perstRise => Sys2Proof.Machine.execPerstRise s
  | .coldResetDone => Sys2Proof.Machine.execColdResetDone s
  | .warmResetDone => Sys2Proof.Machine.execWarmResetDone s
  | .pwrResetWarm who => Sys2Proof.Machine.execPwrResetWarm who s
  | .pwrPartReset who parts => Sys2Proof.Machine.execPwrPartReset who parts s
  | .vfFlr p => Sys2Proof.Machine.execVfFlr p s
  | .pf0Flr => Sys2Proof.Machine.execPf0Flr s
  | .partitionQuiesced p => Sys2Proof.Machine.execPartitionQuiesced p s
  | .i3cDynamicAddress addr => Sys2Proof.Machine.execI3cDynamicAddress addr s
  | .i3cRegRead offset => Sys2Proof.Machine.execI3cRegRead offset s
  | .i3cRegWrite offset value => Sys2Proof.Machine.execI3cRegWrite offset value s
  | .i3cColdReset => Sys2Proof.Machine.execI3cColdReset s
  | .i3cWarmReset => Sys2Proof.Machine.execI3cWarmReset s
  | .registerWrite who offset value => Sys2Proof.Machine.execRegisterWrite who offset value s
  | .refusedAccess who offset bytes write => Sys2Proof.Machine.execRefusedAccess who offset bytes write s
  | .applyRequest who page => Sys2Proof.Machine.execApplyRequest who page s
  | .applyDiscard who page => Sys2Proof.Machine.execApplyDiscard who page s
  | .application page => Sys2Proof.Machine.execApplication page s
  | .pageLockSet who page => Sys2Proof.Machine.execPageLockSet who page s
  | .lockAll who => Sys2Proof.Machine.execLockAll who s
  | .eventFlagClear who page clear setNow => Sys2Proof.Machine.execEventFlagClear who page clear setNow s
  | .eventMaskWrite who page mask => Sys2Proof.Machine.execEventMaskWrite who page mask s
  | .pmapWrite who p => Sys2Proof.Machine.execPmapWrite who p s
  | .pmapWriteDone p => Sys2Proof.Machine.execPmapWriteDone p s
  | .pmapRead who p => Sys2Proof.Machine.execPmapRead who p s
  | .divisionWrite who log2k => Sys2Proof.Machine.execDivisionWrite who log2k s
  | .partCreate who parts => Sys2Proof.Machine.execPartCreate who parts s
  | .partTeardown who parts => Sys2Proof.Machine.execPartTeardown who parts s
  | .createZeroingDone p => Sys2Proof.Machine.execCreateZeroingDone p s
  | .teardownZeroingDone p => Sys2Proof.Machine.execTeardownZeroingDone p s
  | .containmentEvent err => Sys2Proof.Machine.execContainmentEvent err s
  | .scrubUnit inst found => Sys2Proof.Machine.execScrubUnit inst found s
  | .threadStartRequest core slot pc args => Sys2Proof.Machine.execThreadStartRequest core slot pc args s
  | .aluAdd c t d a b => Sys2Proof.Machine.execAluAdd c t d a b s
  | .aluSub c t d a b => Sys2Proof.Machine.execAluSub c t d a b s
  | .aluAnd c t d a b => Sys2Proof.Machine.execAluAnd c t d a b s
  | .aluOr c t d a b => Sys2Proof.Machine.execAluOr c t d a b s
  | .aluXor c t d a b => Sys2Proof.Machine.execAluXor c t d a b s
  | .aluShl c t d a b => Sys2Proof.Machine.execAluShl c t d a b s
  | .aluShrl c t d a b => Sys2Proof.Machine.execAluShrl c t d a b s
  | .aluShra c t d a b => Sys2Proof.Machine.execAluShra c t d a b s
  | .aluMul c t d a b => Sys2Proof.Machine.execAluMul c t d a b s
  | .aluSlt c t d a b => Sys2Proof.Machine.execAluSlt c t d a b s
  | .aluSltu c t d a b => Sys2Proof.Machine.execAluSltu c t d a b s
  | .aluMin c t d a b => Sys2Proof.Machine.execAluMin c t d a b s
  | .aluMax c t d a b => Sys2Proof.Machine.execAluMax c t d a b s
  | .addi c t d a imm => Sys2Proof.Machine.execAddi c t d a imm s
  | .andi c t d a imm => Sys2Proof.Machine.execAndi c t d a imm s
  | .ori c t d a imm => Sys2Proof.Machine.execOri c t d a imm s
  | .xori c t d a imm => Sys2Proof.Machine.execXori c t d a imm s
  | .shli c t d a imm => Sys2Proof.Machine.execShli c t d a imm s
  | .shrli c t d a imm => Sys2Proof.Machine.execShrli c t d a imm s
  | .shrai c t d a imm => Sys2Proof.Machine.execShrai c t d a imm s
  | .ins16 c t d h imm => Sys2Proof.Machine.execIns16 c t d h imm s
  | .movs c t d a b => Sys2Proof.Machine.execMovs c t d a b s
  | .sets c t d a b => Sys2Proof.Machine.execSets c t d a b s
  | .ld c t d a imm => Sys2Proof.Machine.execLd c t d a imm s
  | .lw c t d a imm => Sys2Proof.Machine.execLw c t d a imm s
  | .st c t d a imm => Sys2Proof.Machine.execSt c t d a imm s
  | .sw c t d a imm => Sys2Proof.Machine.execSw c t d a imm s
  | .vld c t d a imm => Sys2Proof.Machine.execVld c t d a imm s
  | .vst c t d a imm => Sys2Proof.Machine.execVst c t d a imm s
  | .beq c t d a imm => Sys2Proof.Machine.execBeq c t d a imm s
  | .bne c t d a imm => Sys2Proof.Machine.execBne c t d a imm s
  | .blt c t d a imm => Sys2Proof.Machine.execBlt c t d a imm s
  | .bge c t d a imm => Sys2Proof.Machine.execBge c t d a imm s
  | .jmp c t offs => Sys2Proof.Machine.execJmp c t offs s
  | .jalr c t d a imm => Sys2Proof.Machine.execJalr c t d a imm s
  | .syncAdd c t d a b => Sys2Proof.Machine.execSyncAdd c t d a b s
  | .syncSet c t d a b => Sys2Proof.Machine.execSyncSet c t d a b s
  | .syncRead c t d a b => Sys2Proof.Machine.execSyncRead c t d a b s
  | .syncWait c t d a b => Sys2Proof.Machine.execSyncWait c t d a b s
  | .syncClaim c t d a b => Sys2Proof.Machine.execSyncClaim c t d a b s
  | .syncClaimSet c t d a b => Sys2Proof.Machine.execSyncClaimSet c t d a b s
  | .post c t d a b => Sys2Proof.Machine.execPost c t d a b s
  | .start c t d a b slot => Sys2Proof.Machine.execStart c t d a b slot s
  | .fence c t d a b => Sys2Proof.Machine.execFence c t d a b s
  | .vadd c t ty d a b => Sys2Proof.Machine.execVadd c t ty d a b s
  | .vsub c t ty d a b => Sys2Proof.Machine.execVsub c t ty d a b s
  | .vmul c t ty d a b => Sys2Proof.Machine.execVmul c t ty d a b s
  | .vfma c t ty d a b => Sys2Proof.Machine.execVfma c t ty d a b s
  | .vmin c t ty d a b => Sys2Proof.Machine.execVmin c t ty d a b s
  | .vmax c t ty d a b => Sys2Proof.Machine.execVmax c t ty d a b s
  | .vabs c t ty d a b => Sys2Proof.Machine.execVabs c t ty d a b s
  | .vneg c t ty d a b => Sys2Proof.Machine.execVneg c t ty d a b s
  | .vdiv c t ty d a b => Sys2Proof.Machine.execVdiv c t ty d a b s
  | .vsqrt c t ty d a b => Sys2Proof.Machine.execVsqrt c t ty d a b s
  | .vcmplt c t ty d a b => Sys2Proof.Machine.execVcmplt c t ty d a b s
  | .vcmple c t ty d a b => Sys2Proof.Machine.execVcmple c t ty d a b s
  | .vcmpeq c t ty d a b => Sys2Proof.Machine.execVcmpeq c t ty d a b s
  | .vsel c t ty d a b => Sys2Proof.Machine.execVsel c t ty d a b s
  | .vand c t ty d a b => Sys2Proof.Machine.execVand c t ty d a b s
  | .vor c t ty d a b => Sys2Proof.Machine.execVor c t ty d a b s
  | .vxor c t ty d a b => Sys2Proof.Machine.execVxor c t ty d a b s
  | .vcvt c t ty fmt d a b => Sys2Proof.Machine.execVcvt c t ty fmt d a b s
  | .vbcast c t ty d a b => Sys2Proof.Machine.execVbcast c t ty d a b s
  | .vredsum c t ty d a b => Sys2Proof.Machine.execVredsum c t ty d a b s
  | .vredmax c t ty d a b => Sys2Proof.Machine.execVredmax c t ty d a b s
  | .vcvtw c t ty fmt d a b => Sys2Proof.Machine.execVcvtw c t ty fmt d a b s
  | .sfuExp c t d a b => Sys2Proof.Machine.execSfuExp c t d a b s
  | .sfuLog c t d a b => Sys2Proof.Machine.execSfuLog c t d a b s
  | .sfuRecip c t d a b => Sys2Proof.Machine.execSfuRecip c t d a b s
  | .sfuRsqrt c t d a b => Sys2Proof.Machine.execSfuRsqrt c t d a b s
  | .progEnd c t d a b status => Sys2Proof.Machine.execEnd c t d a b status s
  | .illegalInstr c t w => Sys2Proof.Machine.execIllegalInstr c t w s
  | .loadDataArrive c t index how => Sys2Proof.Machine.execLoadDataArrive c t index how s
  | .instrLineArrive c t how => Sys2Proof.Machine.execInstrLineArrive c t how s
  | .storeAck c t index => Sys2Proof.Machine.execStoreAck c t index s
  | .syncWaitTimeout c t => Sys2Proof.Machine.execSyncWaitTimeout c t s
  | .syncValueWrite who ctr v => Sys2Proof.Machine.execSyncValueWrite who ctr v s
  | .syncCmdAdd who page v => Sys2Proof.Machine.execSyncCmdAdd who page v s
  | .syncLimitWrite who ctr v => Sys2Proof.Machine.execSyncLimitWrite who ctr v s
  | .galleyShareApply core => Sys2Proof.Machine.execGalleyShareApply core s
  | .postRetry c t => Sys2Proof.Machine.execPostRetry c t s
  | .nop c slot bytes => Sys2Proof.Machine.execNop c slot bytes s
  | .matmul c slot bytes => Sys2Proof.Machine.execMatmul c slot bytes s
  | .gmatmul c slot bytes => Sys2Proof.Machine.execGmatmul c slot bytes s
  | .conv c slot bytes => Sys2Proof.Machine.execConv c slot bytes s
  | .poolMax c slot bytes => Sys2Proof.Machine.execPoolMax c slot bytes s
  | .poolAvg c slot bytes => Sys2Proof.Machine.execPoolAvg c slot bytes s
  | .cropResize c slot bytes => Sys2Proof.Machine.execCropResize c slot bytes s
  | .attentionForward c slot bytes => Sys2Proof.Machine.execAttentionForward c slot bytes s
  | .attentionBackward c slot bytes => Sys2Proof.Machine.execAttentionBackward c slot bytes s
  | .normForward c slot bytes => Sys2Proof.Machine.execNormForward c slot bytes s
  | .normBackward c slot bytes => Sys2Proof.Machine.execNormBackward c slot bytes s
  | .softmaxForward c slot bytes => Sys2Proof.Machine.execSoftmaxForward c slot bytes s
  | .softmaxBackward c slot bytes => Sys2Proof.Machine.execSoftmaxBackward c slot bytes s
  | .loss c slot bytes => Sys2Proof.Machine.execLoss c slot bytes s
  | .elementwise c slot bytes => Sys2Proof.Machine.execElementwise c slot bytes s
  | .copy c slot bytes => Sys2Proof.Machine.execCopy c slot bytes s
  | .gather c slot bytes => Sys2Proof.Machine.execGather c slot bytes s
  | .scatter c slot bytes => Sys2Proof.Machine.execScatter c slot bytes s
  | .allReduce c slot bytes => Sys2Proof.Machine.execAllReduce c slot bytes s
  | .reduceScatter c slot bytes => Sys2Proof.Machine.execReduceScatter c slot bytes s
  | .allGather c slot bytes => Sys2Proof.Machine.execAllGather c slot bytes s
  | .broadcast c slot bytes => Sys2Proof.Machine.execBroadcast c slot bytes s
  | .barrier c slot bytes => Sys2Proof.Machine.execBarrier c slot bytes s
  | .reshard c slot bytes => Sys2Proof.Machine.execReshard c slot bytes s
  | .update c slot bytes => Sys2Proof.Machine.execUpdate c slot bytes s
  | .badOpcode c slot bytes => Sys2Proof.Machine.execBadOpcode c slot bytes s
  | .formeWaitMet n => Sys2Proof.Machine.execFormeWaitMet n s
  | .formeCountersFree n => Sys2Proof.Machine.execFormeCountersFree n s
  | .formePlanned n => Sys2Proof.Machine.execFormePlanned n s
  | .formePostArrive n core => Sys2Proof.Machine.execFormePostArrive n core s
  | .claimReturn n core => Sys2Proof.Machine.execClaimReturn n core s
  | .chunkStaged core n found => Sys2Proof.Machine.execChunkStaged core n found s
  | .tileBegin core unit => Sys2Proof.Machine.execTileBegin core unit s
  | .tileEnd core n => Sys2Proof.Machine.execTileEnd core n s
  | .epilogueStart core n => Sys2Proof.Machine.execEpilogueStart core n s
  | .coreReportEnd n core => Sys2Proof.Machine.execCoreReportEnd n core s
  | .tileFault n core addr write => Sys2Proof.Machine.execTileFault n core addr write s
  | .proofTimeTrigger core => Sys2Proof.Machine.execProofTimeTrigger core s
  | .proofComplete core n upset => Sys2Proof.Machine.execProofComplete core n upset s
  | .planFlush who j => Sys2Proof.Machine.execPlanFlush who j s
  | .reducerUpdate index => Sys2Proof.Machine.execReducerUpdate index s
  | .arenaSpillDone p => Sys2Proof.Machine.execArenaSpillDone p s
  | .cambBlockArrive unit => Sys2Proof.Machine.execCambBlockArrive unit s
  | .cambBlockApply unit => Sys2Proof.Machine.execCambBlockApply unit s
  | .cambBlockWritten unit => Sys2Proof.Machine.execCambBlockWritten unit s
  | .normAllreduceDone p => Sys2Proof.Machine.execNormAllreduceDone p s
  | .updateAbort who unit => Sys2Proof.Machine.execUpdateAbort who unit s
  | .updateTimeout p => Sys2Proof.Machine.execUpdateTimeout p s
  | .cambNormPrevWrite who unit valid value => Sys2Proof.Machine.execCambNormPrevWrite who unit valid value s
  | .kvAdmit p => Sys2Proof.Machine.execAdmit p s
  | .schedule p => Sys2Proof.Machine.execSchedule p s
  | .advance p => Sys2Proof.Machine.execAdvance p s
  | .advanceResume p => Sys2Proof.Machine.execAdvanceResume p s
  | .release p => Sys2Proof.Machine.execRelease p s
  | .outAuto p => Sys2Proof.Machine.execOutAuto p s
  | .inAuto p => Sys2Proof.Machine.execInAuto p s
  | .outSeq p => Sys2Proof.Machine.execOutSeq p s
  | .inSeq p => Sys2Proof.Machine.execInSeq p s
  | .swapOutDone p seq => Sys2Proof.Machine.execSwapOutDone p seq s
  | .swapInDone p seq => Sys2Proof.Machine.execSwapInDone p seq s
  | .prefixLookup p => Sys2Proof.Machine.execPrefixLookup p s
  | .handleOf p => Sys2Proof.Machine.execHandleOf p s
  | .evict p => Sys2Proof.Machine.execEvict p s
  | .trim p => Sys2Proof.Machine.execTrim p s
  | .budgetSet p => Sys2Proof.Machine.execBudgetSet p s
  | .budgetAdd p => Sys2Proof.Machine.execBudgetAdd p s
  | .budgetRead p => Sys2Proof.Machine.execBudgetRead p s
  | .budgetRefillTick p => Sys2Proof.Machine.execBudgetRefillTick p s
  | .ringIrqDelay p vec => Sys2Proof.Machine.execRingIrqDelay p vec s
  | .kvPeekRead who p => Sys2Proof.Machine.execKvPeekRead who p s
  | .coppModeReq who p target => Sys2Proof.Machine.execCoppModeReq who p target s
  | .drainComplete p => Sys2Proof.Machine.execDrainComplete p s
  | .planBarrierComplete p => Sys2Proof.Machine.execPlanBarrierComplete p s
  | .planComplete p => Sys2Proof.Machine.execPlanComplete p s
  | .planTimeout p => Sys2Proof.Machine.execPlanTimeout p s
  | .intakeJobTake p => Sys2Proof.Machine.execIntakeJobTake p s
  | .engineGrant engine isRef => Sys2Proof.Machine.execEngineGrant engine isRef s
  | .decodeUnitDone engine u => Sys2Proof.Machine.execDecodeUnitDone engine u s
  | .decodeBudgetExceeded engine cycles samples => Sys2Proof.Machine.execDecodeBudgetExceeded engine cycles samples s
  | .frameReserve p j hdr => Sys2Proof.Machine.execFrameReserve p j hdr s
  | .postprocessFrame p j cycles => Sys2Proof.Machine.execPostprocessFrame p j cycles s
  | .liveSampleAvailable p j => Sys2Proof.Machine.execLiveSampleAvailable p j s
  | .batchDeliver p j => Sys2Proof.Machine.execBatchDeliver p j s
  | .batchSlotFreed p j => Sys2Proof.Machine.execBatchSlotFreed p j s
  | .linkSignalDetect link cable dm => Sys2Proof.Machine.execLinkSignalDetect link cable dm s
  | .linkTrainConverged link => Sys2Proof.Machine.execLinkTrainConverged link s
  | .linkTrainTimeout link => Sys2Proof.Machine.execLinkTrainTimeout link s
  | .linkAlignLock link => Sys2Proof.Machine.execLinkAlignLock link s
  | .linkAlignTimeout link => Sys2Proof.Machine.execLinkAlignTimeout link s
  | .handshakeTimeout link => Sys2Proof.Machine.execHandshakeTimeout link s
  | .retrainCondition link why => Sys2Proof.Machine.execRetrainCondition link why s
  | .retrainRegained link => Sys2Proof.Machine.execRetrainRegained link s
  | .retrainTimeout link => Sys2Proof.Machine.execRetrainTimeout link s
  | .linkFailedHoldoff link => Sys2Proof.Machine.execLinkFailedHoldoff link s
  | .flitReceive link num bytes corrected uncorrectable => Sys2Proof.Machine.execFlitReceive link num bytes corrected uncorrectable s
  | .ackTimer link => Sys2Proof.Machine.execAckTimer link s
  | .hello link h => Sys2Proof.Machine.execHello link h s
  | .helloTimer link => Sys2Proof.Machine.execHelloTimer link s
  | .ack link num => Sys2Proof.Machine.execAck link num s
  | .nak link num => Sys2Proof.Machine.execNak link num s
  | .credit link cls level pool units => Sys2Proof.Machine.execCredit link cls level pool units s
  | .readReq src p found => Sys2Proof.Machine.execReadReq src p found s
  | .writeReq src p => Sys2Proof.Machine.execWriteReq src p s
  | .readRsp src p => Sys2Proof.Machine.execReadRsp src p s
  | .writeRsp src p => Sys2Proof.Machine.execWriteRsp src p s
  | .collData src p => Sys2Proof.Machine.execCollData src p s
  | .collGrant src p => Sys2Proof.Machine.execCollGrant src p s
  | .collCtrl src p => Sys2Proof.Machine.execCollCtrl src p s
  | .route link p => Sys2Proof.Machine.execRoute link p s
  | .routeAdvertise => Sys2Proof.Machine.execRouteAdvertise s
  | .elect link p => Sys2Proof.Machine.execElect link p s
  | .electSettle => Sys2Proof.Machine.execElectSettle s
  | .cnpyAddrWrite who value => Sys2Proof.Machine.execCnpyAddrWrite who value s
  | .reqTimeout ctx seq => Sys2Proof.Machine.execReqTimeout ctx seq s
  | .collTimeout n => Sys2Proof.Machine.execCollTimeout n s
  | .collectiveComplete n => Sys2Proof.Machine.execCollectiveComplete n s
  | .cnpyTblRead who => Sys2Proof.Machine.execCnpyTblRead who s
  | .cnpyTblWrite who => Sys2Proof.Machine.execCnpyTblWrite who s
  | .timeExchange masters others => Sys2Proof.Machine.execTimeExchange masters others s
  | .time link p => Sys2Proof.Machine.execTime link p s
  | .timeSyncLoss => Sys2Proof.Machine.execTimeSyncLoss s
  | .bmeChange c => Sys2Proof.Machine.execBmeChange c s
  | .powerStateChange f d3 => Sys2Proof.Machine.execPowerStateChange f d3 s
  | .sqEnable who f q v => Sys2Proof.Machine.execSqEnable who f q v s
  | .cqEnable who f q v => Sys2Proof.Machine.execCqEnable who f q v s
  | .cqCtrlWrite who f q v => Sys2Proof.Machine.execCqCtrlWrite who f q v s
  | .sqDoorbell f q tail => Sys2Proof.Machine.execSqDoorbell f q tail s
  | .cqDoorbell f q head => Sys2Proof.Machine.execCqDoorbell f q head s
  | .sqEntryFetch f q n host => Sys2Proof.Machine.execSqEntryFetch f q n host s
  | .sqNop f q => Sys2Proof.Machine.execSqNop f q s
  | .sqForme f q => Sys2Proof.Machine.execSqForme f q s
  | .sqStart f q => Sys2Proof.Machine.execSqStart f q s
  | .sqSyncAdd f q => Sys2Proof.Machine.execSqSyncAdd f q s
  | .sqWait f q => Sys2Proof.Machine.execSqWait f q s
  | .sqWaitMet f q => Sys2Proof.Machine.execSqWaitMet f q s
  | .sqWaitTimeout f q => Sys2Proof.Machine.execSqWaitTimeout f q s
  | .badEntry f q => Sys2Proof.Machine.execBadEntry f q s
  | .cqIrqDelay f q => Sys2Proof.Machine.execCqIrqDelay f q s
  | .msixUnmask f vec mask => Sys2Proof.Machine.execMsixUnmask f vec mask s
  | .bar2Read f off n found => Sys2Proof.Machine.execBar2Read f off n found s
  | .bar2Write f off data => Sys2Proof.Machine.execBar2Write f off data s
  | .hostReadFail p unit addr bus => Sys2Proof.Machine.execHostReadFail p unit addr bus s
  | .snapRequest who p => Sys2Proof.Machine.execSnapRequest who p s
  | .touchCopyDone p => Sys2Proof.Machine.execTouchCopyDone p s
  | .snapshotComplete p => Sys2Proof.Machine.execSnapshotComplete p s
  | .replayStart who unit => Sys2Proof.Machine.execReplayStart who unit s
  | .replayItem p => Sys2Proof.Machine.execReplayItem p s
  | .replayEnd p => Sys2Proof.Machine.execReplayEnd p s
  | .snapIntervalCompute => Sys2Proof.Machine.execSnapIntervalCompute s
  | .fillStart who p => Sys2Proof.Machine.execFillStart who p s
  | .fillAbort who p => Sys2Proof.Machine.execFillAbort who p s
  | .fillCheckDone p => Sys2Proof.Machine.execFillCheckDone p s
  | .fillCopyDone p => Sys2Proof.Machine.execFillCopyDone p s
  | .fillInstallDone p => Sys2Proof.Machine.execFillInstallDone p s
  | .lockstepMismatch => Sys2Proof.Machine.execLockstepMismatch s
  | .ctrlCoreUe n => Sys2Proof.Machine.execCtrlCoreUe n s
  | .auditPeriod => Sys2Proof.Machine.execAuditPeriod s
  | .auditRead page word upset => Sys2Proof.Machine.execAuditRead page word upset s
  | .fhFlush => Sys2Proof.Machine.execFhFlush s
  | .ceSummary => Sys2Proof.Machine.execCeSummary s
  | .fhRead who => Sys2Proof.Machine.execFhRead who s
  | .i3cFhRead n => Sys2Proof.Machine.execI3cFhRead n s
  | .i3cFhNext => Sys2Proof.Machine.execI3cFhNext s
  | .impArm who => Sys2Proof.Machine.execImpArm who s
  | .impCancel who => Sys2Proof.Machine.execImpCancel who s
  | .impressionTake => Sys2Proof.Machine.execImpressionTake s
  | .lcProvision who => Sys2Proof.Machine.execLcProvision who s
  | .lcDeploy who => Sys2Proof.Machine.execLcDeploy who s
  | .lcReturn who => Sys2Proof.Machine.execLcReturn who s
  | .lcDecommission who => Sys2Proof.Machine.execLcDecommission who s
  | .rngHealthFail => Sys2Proof.Machine.execRngHealthFail s
  | .secAttRequest who => Sys2Proof.Machine.execSecAttRequest who s
  | .i3cAttestRequest nonce => Sys2Proof.Machine.execI3cAttestRequest nonce s
  | .reportReady => Sys2Proof.Machine.execReportReady s
  | .fwFetch who host => Sys2Proof.Machine.execFwFetch who host s
  | .i3cFwChunk block chunk data => Sys2Proof.Machine.execI3cFwChunk block chunk data s
  | .fwBlockCheck good => Sys2Proof.Machine.execFwBlockCheck good s
  | .fwActivate who reset => Sys2Proof.Machine.execFwActivate who reset s
  | .fwInstallDone good => Sys2Proof.Machine.execFwInstallDone good s
  | .fwConfirm who => Sys2Proof.Machine.execFwConfirm who s
  | .fwDiscard who => Sys2Proof.Machine.execFwDiscard who s
  | .fwPropagateOffer => Sys2Proof.Machine.execFwPropagateOffer s
  | .fwBitmapResend => Sys2Proof.Machine.execFwBitmapResend s
  | .fwPropagateRetry => Sys2Proof.Machine.execFwPropagateRetry s
  | .secBoot => Sys2Proof.Machine.execSecBoot s
  | .bootWatchdog => Sys2Proof.Machine.execBootWatchdog s
  | .secSetRead who => Sys2Proof.Machine.execSecSetRead who s
  | .secSetWrite who good => Sys2Proof.Machine.execSecSetWrite who good s
  | .secSetDelete who good => Sys2Proof.Machine.execSecSetDelete who good s
  | .fuseProgramKey who key good => Sys2Proof.Machine.execFuseProgramKey who key good s
  | .jtagInstruction n => Sys2Proof.Machine.execJtagInstruction n s
  | .powerOnResetDone => Sys2Proof.Machine.execPowerOnResetDone s
  | .vector0MessageSpacing f => Sys2Proof.Machine.execVector0MessageSpacing f s

end Sys2Proof.Machine
end

