-- ==== Sys2Proof/Machine/Tick.lean ====
section
/-! DEFINITION. What one KCLK cycle does when no command waits (log entry 2): the counts of clocks and device time, what is due at
a common edge, the idle accounting of the cores, the counts per cycle, and the work that goes on by itself (R20 to R24, R30, R90,
R110, R121 to R123, R278, R444, R481, R484, R497). -/

namespace Sys2Proof.Machine

/-! ### Clocks and device time (R30, R444) -/

/-- Device time after one more KCLK count (R444). For the slew a count is added or withheld every 20,000 counts, and withheld every
1,000 while the device is more than 1 µs ahead; for the rate one is added or withheld whenever the error has grown to a count. -/
def Power.advance (p : Power) : Power :=
  let p := if p.commonEdge then { p with edge := max p.edge (max p.time p.high) } else p
  let k := p.kclk + 1
  let acc := p.rateAcc + p.rate
  if 0 < p.slew && k % 20000 == 0 then { p with kclk := k, time := p.time + 2, slew := p.slew - 1, rateAcc := acc }
  else if p.slew < 0 && k % (if p.slew < -1000 then 1000 else 20000) == 0 then { p with kclk := k, slew := p.slew + 1, rateAcc := acc }
  else if 1000000000 ≤ acc then { p with kclk := k, time := p.time + 2, rateAcc := acc - 1000000000 }
  else if acc ≤ -1000000000 then { p with kclk := k, rateAcc := acc + 1000000000 }
  else { p with kclk := k, time := p.time + 1, rateAcc := acc }

/-- The clocks advance; the entries of retrained links are made once in a second (R516). -/
def State.advance (s : State) : State :=
  let was := s.power.time / 1000000000
  let s := s.modPower Power.advance
  if s.power.time / 1000000000 == was then s else s.retrainSummary

/-! ### Idle accounting (R20, R22, R23, R121, R122) -/

/-- Wait cause of an access that reaches a tier, for a peer's galley too (R122). -/
def Tier.waitCause : Tier → Nat
  | .host => 4
  | .remote => 2
  | _ => 3

/-- Wait cause of an access at a thread address; the core's own galley holds none. -/
def State.addrCause (s : State) (c a : Nat) : Option Nat :=
  if bits a 60 4 == 1 then none
  else match s.translate (s.corePart c) (some c) a false with
    | .ok l => some l.tier.waitCause
    | .error _ => none

/-- Idle cause that WAIT_CAUSE of a counter selects (R122, R127). -/
def syncCause (n : Nat) : Nat := [1, 6, 5, 2].getD n 1

/-- Wait causes that a thread of a core holds (R122); a READY thread whose instruction waits for its earlier stores holds those of their
tiers (log entry 165). -/
def State.threadCauses (s : State) (c : Nat) (x : Thread) : List Nat :=
  match x.st with
  | .free => []
  | .ready => if x.word.any fun w => x.waits w then x.stores.filterMap fun w => s.addrCause c w.addr else []
  | .waitSync => (x.wait.map fun w => syncCause (bits (s.ctrAttr w.ctr) 0 2)).toList
  | .waitPost => [1]
  | .waitMem =>
    match x.word with
    | none => (s.addrCause c x.line).toList
    | some w => (x.loads.filter fun l => (wordUses w).contains (l.vec, l.reg)).filterMap fun l => s.addrCause c l.addr

/-- A thread waits only for the result of an earlier instruction of its own core: loads from its own galley (R121). -/
def State.awaitsResult (s : State) (c : Nat) (x : Thread) : Bool :=
  x.st == .waitMem && x.word.isSome && (s.threadCauses c x).isEmpty

/-- A tile whose operands the tile fetch unit still waits for. -/
def State.unstaged (s : State) (t : Tile) : Bool :=
  let x := s.forme t.forme
  t.phase == .claimed || (t.phase == .executing && t.chunks < (x.planOf t).chunkCount x)

/-- Wait causes that a tile of a core holds: the tiers of what it reads while it waits for operands. -/
def State.tileCauses (s : State) (t : Tile) : List Nat :=
  if s.unstaged t then
    let x := s.forme t.forme
    (s.allReads (x.tileAcc t.forme t.core) x (x.planOf t) t.index).filterMap fun d => s.addrCause t.core d.1
  else []

/-- The threads of a core that are not at their values of reset. -/
def State.threadsOf (s : State) (c : Nat) : List Thread := (s.threads.filter fun x => x.1 / 64 == c).map fun x => x.2

/-- The idle cause of a core whose cycle is not gated with work: the first of R121's order, 0 for NO_WORK. -/
def State.waitCause (s : State) (c : Nat) : Nat :=
  let l := (s.threadsOf c).flatMap (s.threadCauses c) ++ (s.tiles.filter fun (t : Tile) => t.core == c).flatMap s.tileCauses ++
    (if s.heldWrites.any (fun h => h.core == some c) then [3] else [])
  ([4, 2, 3, 5, 6, 1].find? fun k => l.contains k).getD 0

/-- The core has work that R20 gates: a tile that can run, a proof, or a ready instruction of a unit. -/
def State.unitWork (s : State) (c : Nat) : Bool :=
  (s.threadsOf c).any (fun x => x.readyFor 1 || x.readyFor 2) || s.proofing c ||
  s.tiles.any fun (t : Tile) => t.core == c && (t.phase == .staged || t.phase == .executing) && !s.unstaged t

/-- The platen of a core computes: a tile executes there with a chunk at hand. -/
def State.platenWorks (s : State) (c : Nat) : Bool :=
  s.tiles.any fun (t : Tile) => t.core == c && t.phase == .executing && !s.unstaged t && tileUnit (s.forme t.forme).opcode == 0

/-- The counter of a core's cycle: none for BUSY, or the idle cause (R121, R123). `work`, `ready` and `wait` are what the core
has throughout the cycle. -/
def State.cycleCause (s : State) (c n : Nat) (work ready : Bool) (wait : Nat) : Option Nat :=
  let x := s.core c
  let own := s.levelOf c
  if x.heldSwitch then some 7
  else if issues own n && (work || ready) && !x.held then none
  else if !issues own n && work then
    some (if !issues s.level n && s.f Pg.pwr F.PWR_THERM_LEVEL ≤ s.f Pg.pwr F.PWR_CAP_LEVEL then 9 else 8)
  else some wait

/-- Count one cycle of a core. -/
def State.countCause (s : State) (c : Nat) (k : Option Nat) : State :=
  match k with
  | none => s.incF2 (Pg.core c) F.CORE_BUSY_LO F.CORE_BUSY_HI
  | some k => s.incF2 (Pg.core c) (F.CORE_IDLE_LO.sh (8 * k)) (F.CORE_IDLE_HI.sh (8 * k))

/-- Cycles of a core that count as BULK_WAIT while a write of it waits for a touch copy (R487). -/
def State.snapWaits (s : State) (p c n : Nat) : State :=
  match AMap.get? p s.snaps with
  | none => s
  | some x =>
    if s.heldWrites.any fun h => h.part == p && bit (s.entry p h.idx) 4 && h.core == some c then
      { s with snaps := AMap.put p { x with waits := x.waits + n } s.snaps }
    else s

/-- Account for the ACLK cycles `l` of one core; a platen that goes on with its tile after 3,000 ACLK of waiting restarts (R22). -/
def State.accountCore (s : State) (p c : Nat) (l : List Nat) : State :=
  let work := s.unitWork c
  let ready := s.coreRuns c && (s.threadsOf c).any fun x => x.readyFor 0 || s.awaitsResult c x
  let s :=
    if work && s.platenWorks c then
      let r := s.idleRestart c
      if r.mayIssue c then r.platenIssues c else r
    else s
  let causes := l.map fun n => s.cycleCause c n work ready (s.waitCause c)
  (causes.foldl (fun s k => s.countCause c k) s).snapWaits p c (causes.filter fun k => k == some 3).length

/-- READY threads of cores that run whose next instruction has not arrived or needs a loading register are in WAIT_MEM (R105). -/
def State.settleThreads (s : State) : State :=
  { s with threads := s.threads.map fun x =>
      if x.2.st == .ready && x.2.blocked && s.coreRuns (x.1 / 64) then (x.1, { x.2 with st := .waitMem }) else x }

/-- Account for the ACLK cycles of one KCLK cycle, for the cores of partitions that are ACTIVE or STOPPED. -/
def State.account (s : State) : State :=
  let a := s.aclk
  let b := { s with power := { s.power with kclk := s.power.kclk + 1 } }.aclk
  let ps := (List.range s.k).filter fun p => (s.part p).st == .active || (s.part p).st == .stopped
  ps.foldl (fun s p => (s.coresOf p).foldl (fun s c => s.accountCore p c (rangeFrom a (b - a))) s) s

/-- Ages of fill slots that have work ready for a unit and are not picked (R110). -/
def State.ageSlots (s : State) : State :=
  let n := { s with power := { s.power with kclk := s.power.kclk + 1 } }.aclk - s.aclk
  let cores := ((s.tiles.map fun (t : Tile) => t.core) ++ (s.threads.map fun (x : Nat × Thread) => x.1 / 64)).eraseDups
  let l : List (Nat × Nat) := cores.flatMap fun c => (List.range 12).filterMap fun j =>
    if s.slotFill c (j % 4) && s.unitReady c (j / 4) (j % 4) then some (c, j) else none
  l.foldl (fun s y => s.modCore y.1 fun x => { x with age := AMap.put y.2 (AMap.getD y.2 0 x.age + n) x.age }) s

/-- NCLK cycles with a full intake (R278). -/
def State.countStalls (s : State) : State :=
  let n := (s.power.kclk + 1) * 12 / 8 - s.power.kclk * 12 / 8
  let full := s.cambs.flatMap fun y => ((y.2.intake.map fun b => b.1).eraseDups).filter fun u =>
    512 ≤ (y.2.intake.filter fun b => b.1 == u).length
  full.foldl (fun s u => s.incF (Pg.camb u) F.CAMB_STALL n) s

/-! ### Work that goes on by itself -/

/-- Pages with a pending application. -/
def State.requestedPages (s : State) : List Nat :=
  s.regs.filterMap fun r => if r.1 % 4096 == oApply && bit r.2.toNat 0 then some (r.1 / 4096) else none

/-- Requested snapshots of partitions in SERVICE begin (R481). -/
def State.serviceSnaps (s : State) : State :=
  ((List.range s.k).filter fun p => s.active p && (s.part p).overlay == .service).foldl (fun s p => s.snapTry p) s

/-- Slots without a forme in their queue or in flight are at their forme boundary (R63). -/
def State.restSlots (s : State) : State :=
  (s.cores.filter fun c => !c.2.arb.isEmpty).foldl (fun s c =>
    (c.2.arb.filter fun a => s.slotIdle c.1 a.1).foldl (fun s a => s.slotPasses c.1 a.1) s) s

/-- Partitions that a failed host read stops, losses, one page of every snapshot and fill, the table engines, plans that move, formes whose work
is over, snapshots of SERVICE, idle slots and applications whose boundary has come. -/
def State.background (s : State) : State :=
  let s := s.hostSweep.sweepLost
  let s := (s.snaps.map fun x => x.1).foldl (fun s p => s.snapStream p) s
  let s := (s.fills.map fun x => x.1).foldl (fun s p => s.fillPage p) s
  let s := (s.kvs.map fun x => x.1).foldl (fun s p => s.kvSettle p) s
  let s := (s.switches.map fun x => x.1).foldl (fun s p => if (s.sw p).st == 3 then s.planPump p else s) s
  let s := s.endFormes.serviceSnaps.restSlots
  let s := (s.refused.map fun x => x.1).foldl (fun s j => s.retryPost j) s
  s.requestedPages.foldl (fun s pg => s.applyIfReady pg) s

/-- What a common edge brings of itself, where no command has brought it: waves that are due, a written WAVE_GAP_NS, an impression whose
time has come (R24, R30, R41, R522). -/
def State.atEdge (s : State) : State :=
  if !s.power.commonEdge then s
  else ((s.power.waves.filter fun w => s.power.reached w.due).foldl (fun s w => s.waveStart w.owner) s).takeGap.impTake

/-- Restart ramps whose next step is due (R22). -/
def State.rampSteps (s : State) : State :=
  (s.cores.filter fun c => c.2.ramp.isSome).foldl (fun s c => s.rampStep c.1) s

/-- One KCLK cycle; nothing happens while no clock runs. -/
def State.tick (s : State) : State :=
  if !s.clocked then s else s.atEdge.rampSteps.settleThreads.account.ageSlots.countStalls.advance.background

end Sys2Proof.Machine
end

