-- ==== Sys2Proof/Machine/ThreadCode.lean ====
section
/-! DEFINITION. The words of the instructions of thread programs, and the instruction that a legal word is (R154 to R159). -/

namespace Sys2Proof.Machine

/-- Core, thread and word of a command that is an instruction of a thread. -/
def threadWord : Instr → Option (Fin 256 × Fin 64 × Nat)
  | .aluAdd c t d a b => some (c, t, encR 0x00 d.toNat a.toNat b.toNat 0)
  | .aluSub c t d a b => some (c, t, encR 0x00 d.toNat a.toNat b.toNat 1)
  | .aluAnd c t d a b => some (c, t, encR 0x00 d.toNat a.toNat b.toNat 2)
  | .aluOr c t d a b => some (c, t, encR 0x00 d.toNat a.toNat b.toNat 3)
  | .aluXor c t d a b => some (c, t, encR 0x00 d.toNat a.toNat b.toNat 4)
  | .aluShl c t d a b => some (c, t, encR 0x00 d.toNat a.toNat b.toNat 5)
  | .aluShrl c t d a b => some (c, t, encR 0x00 d.toNat a.toNat b.toNat 6)
  | .aluShra c t d a b => some (c, t, encR 0x00 d.toNat a.toNat b.toNat 7)
  | .aluMul c t d a b => some (c, t, encR 0x00 d.toNat a.toNat b.toNat 8)
  | .aluSlt c t d a b => some (c, t, encR 0x00 d.toNat a.toNat b.toNat 9)
  | .aluSltu c t d a b => some (c, t, encR 0x00 d.toNat a.toNat b.toNat 10)
  | .aluMin c t d a b => some (c, t, encR 0x00 d.toNat a.toNat b.toNat 11)
  | .aluMax c t d a b => some (c, t, encR 0x00 d.toNat a.toNat b.toNat 12)
  | .addi c t d a imm => some (c, t, encI 0x01 d.toNat a.toNat imm.toNat)
  | .andi c t d a imm => some (c, t, encI 0x02 d.toNat a.toNat imm.toNat)
  | .ori c t d a imm => some (c, t, encI 0x03 d.toNat a.toNat imm.toNat)
  | .xori c t d a imm => some (c, t, encI 0x04 d.toNat a.toNat imm.toNat)
  | .shli c t d a imm => some (c, t, encI 0x05 d.toNat a.toNat imm.toNat)
  | .shrli c t d a imm => some (c, t, encI 0x06 d.toNat a.toNat imm.toNat)
  | .shrai c t d a imm => some (c, t, encI 0x07 d.toNat a.toNat imm.toNat)
  | .ins16 c t d h imm => some (c, t, encI 0x08 d.toNat h.toNat imm.toNat)
  | .ld c t d a imm => some (c, t, encI 0x10 d.toNat a.toNat imm.toNat)
  | .lw c t d a imm => some (c, t, encI 0x11 d.toNat a.toNat imm.toNat)
  | .st c t d a imm => some (c, t, encI 0x12 d.toNat a.toNat imm.toNat)
  | .sw c t d a imm => some (c, t, encI 0x13 d.toNat a.toNat imm.toNat)
  | .vld c t d a imm => some (c, t, encI 0x14 d.toNat a.toNat imm.toNat)
  | .vst c t d a imm => some (c, t, encI 0x15 d.toNat a.toNat imm.toNat)
  | .beq c t d a imm => some (c, t, encI 0x18 d.toNat a.toNat imm.toNat)
  | .bne c t d a imm => some (c, t, encI 0x19 d.toNat a.toNat imm.toNat)
  | .blt c t d a imm => some (c, t, encI 0x1A d.toNat a.toNat imm.toNat)
  | .bge c t d a imm => some (c, t, encI 0x1B d.toNat a.toNat imm.toNat)
  | .jalr c t d a imm => some (c, t, encI 0x1D d.toNat a.toNat imm.toNat)
  | .movs c t d a b => some (c, t, encR 0x09 d.toNat a.toNat b.toNat 0)
  | .sets c t d a b => some (c, t, encR 0x0A d.toNat a.toNat b.toNat 0)
  | .jmp c t offs => some (c, t, encJ 0x1C offs.toNat)
  | .syncAdd c t d a b => some (c, t, encR 0x20 d.toNat a.toNat b.toNat 0)
  | .syncSet c t d a b => some (c, t, encR 0x20 d.toNat a.toNat b.toNat 1)
  | .syncRead c t d a b => some (c, t, encR 0x20 d.toNat a.toNat b.toNat 2)
  | .syncWait c t d a b => some (c, t, encR 0x20 d.toNat a.toNat b.toNat 3)
  | .syncClaim c t d a b => some (c, t, encR 0x20 d.toNat a.toNat b.toNat 4)
  | .syncClaimSet c t d a b => some (c, t, encR 0x20 d.toNat a.toNat b.toNat 5)
  | .post c t d a b => some (c, t, encR 0x21 d.toNat a.toNat b.toNat 0)
  | .start c t d a b slot => some (c, t, encR 0x22 d.toNat a.toNat b.toNat slot.val)
  | .fence c t d a b => some (c, t, encR 0x23 d.toNat a.toNat b.toNat 0)
  | .vadd c t ty d a b => some (c, t, encV 0x00 ty.toNat 0 d.toNat a.toNat b.toNat)
  | .vsub c t ty d a b => some (c, t, encV 0x01 ty.toNat 0 d.toNat a.toNat b.toNat)
  | .vmul c t ty d a b => some (c, t, encV 0x02 ty.toNat 0 d.toNat a.toNat b.toNat)
  | .vfma c t ty d a b => some (c, t, encV 0x03 ty.toNat 0 d.toNat a.toNat b.toNat)
  | .vmin c t ty d a b => some (c, t, encV 0x04 ty.toNat 0 d.toNat a.toNat b.toNat)
  | .vmax c t ty d a b => some (c, t, encV 0x05 ty.toNat 0 d.toNat a.toNat b.toNat)
  | .vabs c t ty d a b => some (c, t, encV 0x06 ty.toNat 0 d.toNat a.toNat b.toNat)
  | .vneg c t ty d a b => some (c, t, encV 0x07 ty.toNat 0 d.toNat a.toNat b.toNat)
  | .vdiv c t ty d a b => some (c, t, encV 0x08 ty.toNat 0 d.toNat a.toNat b.toNat)
  | .vsqrt c t ty d a b => some (c, t, encV 0x09 ty.toNat 0 d.toNat a.toNat b.toNat)
  | .vcmplt c t ty d a b => some (c, t, encV 0x0A ty.toNat 0 d.toNat a.toNat b.toNat)
  | .vcmple c t ty d a b => some (c, t, encV 0x0B ty.toNat 0 d.toNat a.toNat b.toNat)
  | .vcmpeq c t ty d a b => some (c, t, encV 0x0C ty.toNat 0 d.toNat a.toNat b.toNat)
  | .vsel c t ty d a b => some (c, t, encV 0x0D ty.toNat 0 d.toNat a.toNat b.toNat)
  | .vand c t ty d a b => some (c, t, encV 0x0E ty.toNat 0 d.toNat a.toNat b.toNat)
  | .vor c t ty d a b => some (c, t, encV 0x0F ty.toNat 0 d.toNat a.toNat b.toNat)
  | .vxor c t ty d a b => some (c, t, encV 0x10 ty.toNat 0 d.toNat a.toNat b.toNat)
  | .vcvt c t ty fmt d a b => some (c, t, encV 0x11 ty.toNat fmt.toNat d.toNat a.toNat b.toNat)
  | .vbcast c t ty d a b => some (c, t, encV 0x12 ty.toNat 0 d.toNat a.toNat b.toNat)
  | .vredsum c t ty d a b => some (c, t, encV 0x13 ty.toNat 0 d.toNat a.toNat b.toNat)
  | .vredmax c t ty d a b => some (c, t, encV 0x14 ty.toNat 0 d.toNat a.toNat b.toNat)
  | .vcvtw c t ty fmt d a b => some (c, t, encV 0x15 ty.toNat fmt.toNat d.toNat a.toNat b.toNat)
  | .sfuExp c t d a b => some (c, t, encR 0x29 d.toNat a.toNat b.toNat 0)
  | .sfuLog c t d a b => some (c, t, encR 0x29 d.toNat a.toNat b.toNat 1)
  | .sfuRecip c t d a b => some (c, t, encR 0x29 d.toNat a.toNat b.toNat 2)
  | .sfuRsqrt c t d a b => some (c, t, encR 0x29 d.toNat a.toNat b.toNat 3)
  | .progEnd c t d a b status => some (c, t, encR 0x3F d.toNat a.toNat b.toNat status.toNat)
  | .powerUpBegin => none
  | .pwrEnFall => none
  | .railStageComplete _ => none
  | .stageWindowTimeout _ => none
  | .workRailFault _ => none
  | .mgmtRailFault _ => none
  | .inputRange _ => none
  | .inputFault _ => none
  | .rootPllLock => none
  | .governorSample _ _ => none
  | .governorEvaluate => none
  | .coreIdleRestart _ => none
  | .restartRampStep _ => none
  | .waveStart _ => none
  | .waveGapTakeEffect => none
  | .thermalSample _ _ _ => none
  | .thermalTrip _ _ => none
  | .clockFault _ => none
  | .perstFall => none
  | .perstRise => none
  | .coldResetDone => none
  | .warmResetDone => none
  | .pwrResetWarm _ => none
  | .pwrPartReset _ _ => none
  | .vfFlr _ => none
  | .pf0Flr => none
  | .partitionQuiesced _ => none
  | .i3cDynamicAddress _ => none
  | .i3cRegRead _ => none
  | .i3cRegWrite _ _ => none
  | .i3cColdReset => none
  | .i3cWarmReset => none
  | .registerWrite _ _ _ => none
  | .refusedAccess _ _ _ _ => none
  | .applyRequest _ _ => none
  | .applyDiscard _ _ => none
  | .application _ => none
  | .pageLockSet _ _ => none
  | .lockAll _ => none
  | .eventFlagClear _ _ _ _ => none
  | .eventMaskWrite _ _ _ => none
  | .pmapWrite _ _ => none
  | .pmapWriteDone _ => none
  | .pmapRead _ _ => none
  | .divisionWrite _ _ => none
  | .partCreate _ _ => none
  | .partTeardown _ _ => none
  | .createZeroingDone _ => none
  | .teardownZeroingDone _ => none
  | .containmentEvent _ => none
  | .scrubUnit _ _ => none
  | .threadStartRequest _ _ _ _ => none
  | .illegalInstr _ _ _ => none
  | .loadDataArrive _ _ _ _ => none
  | .instrLineArrive _ _ _ => none
  | .storeAck _ _ _ => none
  | .syncWaitTimeout _ _ => none
  | .syncValueWrite _ _ _ => none
  | .syncCmdAdd _ _ _ => none
  | .syncLimitWrite _ _ _ => none
  | .galleyShareApply _ => none
  | .postRetry _ _ => none
  | .nop _ _ _ => none
  | .matmul _ _ _ => none
  | .gmatmul _ _ _ => none
  | .conv _ _ _ => none
  | .poolMax _ _ _ => none
  | .poolAvg _ _ _ => none
  | .cropResize _ _ _ => none
  | .attentionForward _ _ _ => none
  | .attentionBackward _ _ _ => none
  | .normForward _ _ _ => none
  | .normBackward _ _ _ => none
  | .softmaxForward _ _ _ => none
  | .softmaxBackward _ _ _ => none
  | .loss _ _ _ => none
  | .elementwise _ _ _ => none
  | .copy _ _ _ => none
  | .gather _ _ _ => none
  | .scatter _ _ _ => none
  | .allReduce _ _ _ => none
  | .reduceScatter _ _ _ => none
  | .allGather _ _ _ => none
  | .broadcast _ _ _ => none
  | .barrier _ _ _ => none
  | .reshard _ _ _ => none
  | .update _ _ _ => none
  | .badOpcode _ _ _ => none
  | .formeWaitMet _ => none
  | .formeCountersFree _ => none
  | .formePlanned _ => none
  | .formePostArrive _ _ => none
  | .claimReturn _ _ => none
  | .chunkStaged _ _ _ => none
  | .tileBegin _ _ => none
  | .tileEnd _ _ => none
  | .epilogueStart _ _ => none
  | .coreReportEnd _ _ => none
  | .tileFault _ _ _ _ => none
  | .proofTimeTrigger _ => none
  | .proofComplete _ _ _ => none
  | .planFlush _ _ => none
  | .reducerUpdate _ => none
  | .arenaSpillDone _ => none
  | .cambBlockArrive _ => none
  | .cambBlockApply _ => none
  | .cambBlockWritten _ => none
  | .normAllreduceDone _ => none
  | .updateAbort _ _ => none
  | .updateTimeout _ => none
  | .cambNormPrevWrite _ _ _ _ => none
  | .kvAdmit _ => none
  | .schedule _ => none
  | .advance _ => none
  | .advanceResume _ => none
  | .release _ => none
  | .outAuto _ => none
  | .inAuto _ => none
  | .outSeq _ => none
  | .inSeq _ => none
  | .swapOutDone _ _ => none
  | .swapInDone _ _ => none
  | .prefixLookup _ => none
  | .handleOf _ => none
  | .evict _ => none
  | .trim _ => none
  | .budgetSet _ => none
  | .budgetAdd _ => none
  | .budgetRead _ => none
  | .budgetRefillTick _ => none
  | .ringIrqDelay _ _ => none
  | .kvPeekRead _ _ => none
  | .coppModeReq _ _ _ => none
  | .drainComplete _ => none
  | .planBarrierComplete _ => none
  | .planComplete _ => none
  | .planTimeout _ => none
  | .intakeJobTake _ => none
  | .engineGrant _ _ => none
  | .decodeUnitDone _ _ => none
  | .decodeBudgetExceeded _ _ _ => none
  | .frameReserve _ _ _ => none
  | .postprocessFrame _ _ _ => none
  | .liveSampleAvailable _ _ => none
  | .batchDeliver _ _ => none
  | .batchSlotFreed _ _ => none
  | .linkSignalDetect _ _ _ => none
  | .linkTrainConverged _ => none
  | .linkTrainTimeout _ => none
  | .linkAlignLock _ => none
  | .linkAlignTimeout _ => none
  | .handshakeTimeout _ => none
  | .retrainCondition _ _ => none
  | .retrainRegained _ => none
  | .retrainTimeout _ => none
  | .linkFailedHoldoff _ => none
  | .flitReceive _ _ _ _ _ => none
  | .ackTimer _ => none
  | .hello _ _ => none
  | .helloTimer _ => none
  | .ack _ _ => none
  | .nak _ _ => none
  | .credit _ _ _ _ _ => none
  | .readReq _ _ _ => none
  | .writeReq _ _ => none
  | .readRsp _ _ => none
  | .writeRsp _ _ => none
  | .collData _ _ => none
  | .collGrant _ _ => none
  | .collCtrl _ _ => none
  | .route _ _ => none
  | .routeAdvertise => none
  | .elect _ _ => none
  | .electSettle => none
  | .cnpyAddrWrite _ _ => none
  | .reqTimeout _ _ => none
  | .collTimeout _ => none
  | .collectiveComplete _ => none
  | .cnpyTblRead _ => none
  | .cnpyTblWrite _ => none
  | .timeExchange _ _ => none
  | .time _ _ => none
  | .timeSyncLoss => none
  | .bmeChange _ => none
  | .powerStateChange _ _ => none
  | .sqEnable _ _ _ _ => none
  | .cqEnable _ _ _ _ => none
  | .cqCtrlWrite _ _ _ _ => none
  | .sqDoorbell _ _ _ => none
  | .cqDoorbell _ _ _ => none
  | .sqEntryFetch _ _ _ _ => none
  | .sqNop _ _ => none
  | .sqForme _ _ => none
  | .sqStart _ _ => none
  | .sqSyncAdd _ _ => none
  | .sqWait _ _ => none
  | .sqWaitMet _ _ => none
  | .sqWaitTimeout _ _ => none
  | .badEntry _ _ => none
  | .cqIrqDelay _ _ => none
  | .msixUnmask _ _ _ => none
  | .bar2Read _ _ _ _ => none
  | .bar2Write _ _ _ => none
  | .hostReadFail _ _ _ _ => none
  | .snapRequest _ _ => none
  | .touchCopyDone _ => none
  | .snapshotComplete _ => none
  | .replayStart _ _ => none
  | .replayItem _ => none
  | .replayEnd _ => none
  | .snapIntervalCompute => none
  | .fillStart _ _ => none
  | .fillAbort _ _ => none
  | .fillCheckDone _ => none
  | .fillCopyDone _ => none
  | .fillInstallDone _ => none
  | .lockstepMismatch => none
  | .ctrlCoreUe _ => none
  | .auditPeriod => none
  | .auditRead _ _ _ => none
  | .fhFlush => none
  | .ceSummary => none
  | .fhRead _ => none
  | .i3cFhRead _ => none
  | .i3cFhNext => none
  | .impArm _ => none
  | .impCancel _ => none
  | .impressionTake => none
  | .lcProvision _ => none
  | .lcDeploy _ => none
  | .lcReturn _ => none
  | .lcDecommission _ => none
  | .rngHealthFail => none
  | .secAttRequest _ => none
  | .i3cAttestRequest _ => none
  | .reportReady => none
  | .fwFetch _ _ => none
  | .i3cFwChunk _ _ _ => none
  | .fwBlockCheck _ => none
  | .fwActivate _ _ => none
  | .fwInstallDone _ => none
  | .fwConfirm _ => none
  | .fwDiscard _ => none
  | .fwPropagateOffer => none
  | .fwBitmapResend => none
  | .fwPropagateRetry => none
  | .secBoot => none
  | .bootWatchdog => none
  | .secSetRead _ => none
  | .secSetWrite _ _ => none
  | .secSetDelete _ _ => none
  | .fuseProgramKey _ _ _ => none
  | .jtagInstruction _ => none
  | .powerOnResetDone => none
  | .vector0MessageSpacing _ => none

/-- The ALU instruction of a function code (R155). -/
def aluInstr (c : Fin 256) (t : Fin 64) (d a b : BitVec 5) (f : Nat) : Option Instr :=
  match f with
  | 0 => some (.aluAdd c t d a b)
  | 1 => some (.aluSub c t d a b)
  | 2 => some (.aluAnd c t d a b)
  | 3 => some (.aluOr c t d a b)
  | 4 => some (.aluXor c t d a b)
  | 5 => some (.aluShl c t d a b)
  | 6 => some (.aluShrl c t d a b)
  | 7 => some (.aluShra c t d a b)
  | 8 => some (.aluMul c t d a b)
  | 9 => some (.aluSlt c t d a b)
  | 10 => some (.aluSltu c t d a b)
  | 11 => some (.aluMin c t d a b)
  | 12 => some (.aluMax c t d a b)
  | _ => none

/-- The instruction of form I of an operation code (R155). -/
def immInstr (c : Fin 256) (t : Fin 64) (d a : BitVec 5) (imm : BitVec 16) (op : Nat) : Option Instr :=
  match op with
  | 0x01 => some (.addi c t d a imm)
  | 0x02 => some (.andi c t d a imm)
  | 0x03 => some (.ori c t d a imm)
  | 0x04 => some (.xori c t d a imm)
  | 0x05 => some (.shli c t d a imm)
  | 0x06 => some (.shrli c t d a imm)
  | 0x07 => some (.shrai c t d a imm)
  | 0x08 => some (.ins16 c t d a imm)
  | 0x10 => some (.ld c t d a imm)
  | 0x11 => some (.lw c t d a imm)
  | 0x12 => some (.st c t d a imm)
  | 0x13 => some (.sw c t d a imm)
  | 0x14 => some (.vld c t d a imm)
  | 0x15 => some (.vst c t d a imm)
  | 0x18 => some (.beq c t d a imm)
  | 0x19 => some (.bne c t d a imm)
  | 0x1A => some (.blt c t d a imm)
  | 0x1B => some (.bge c t d a imm)
  | 0x1D => some (.jalr c t d a imm)
  | _ => none

/-- The counter operation of a function code (R155). -/
def syncInstr (c : Fin 256) (t : Fin 64) (d a b : BitVec 5) (f : Nat) : Option Instr :=
  match f with
  | 0 => some (.syncAdd c t d a b)
  | 1 => some (.syncSet c t d a b)
  | 2 => some (.syncRead c t d a b)
  | 3 => some (.syncWait c t d a b)
  | 4 => some (.syncClaim c t d a b)
  | 5 => some (.syncClaimSet c t d a b)
  | _ => none

/-- The vector operation of a code, a type and a format field (R159). -/
def vopInstr (c : Fin 256) (t : Fin 64) (ty : BitVec 2) (fmt : BitVec 3) (d a b : BitVec 5) (o : Nat) : Option Instr :=
  match o with
  | 0x00 => some (.vadd c t ty d a b)
  | 0x01 => some (.vsub c t ty d a b)
  | 0x02 => some (.vmul c t ty d a b)
  | 0x03 => some (.vfma c t ty d a b)
  | 0x04 => some (.vmin c t ty d a b)
  | 0x05 => some (.vmax c t ty d a b)
  | 0x06 => some (.vabs c t ty d a b)
  | 0x07 => some (.vneg c t ty d a b)
  | 0x08 => some (.vdiv c t ty d a b)
  | 0x09 => some (.vsqrt c t ty d a b)
  | 0x0A => some (.vcmplt c t ty d a b)
  | 0x0B => some (.vcmple c t ty d a b)
  | 0x0C => some (.vcmpeq c t ty d a b)
  | 0x0D => some (.vsel c t ty d a b)
  | 0x0E => some (.vand c t ty d a b)
  | 0x0F => some (.vor c t ty d a b)
  | 0x10 => some (.vxor c t ty d a b)
  | 0x11 => some (.vcvt c t ty fmt d a b)
  | 0x12 => some (.vbcast c t ty d a b)
  | 0x13 => some (.vredsum c t ty d a b)
  | 0x14 => some (.vredmax c t ty d a b)
  | 0x15 => some (.vcvtw c t ty fmt d a b)
  | _ => none

/-- The special function of a function code (R155). -/
def sfuInstr (c : Fin 256) (t : Fin 64) (d a b : BitVec 5) (f : Nat) : Option Instr :=
  match f with
  | 0 => some (.sfuExp c t d a b)
  | 1 => some (.sfuLog c t d a b)
  | 2 => some (.sfuRecip c t d a b)
  | 3 => some (.sfuRsqrt c t d a b)
  | _ => none

/-- The instruction that a legal word is, executed by thread t of core c; none for any other word. -/
def threadInstr (c : Fin 256) (t : Fin 64) (w : Nat) : Option Instr :=
  let op := bits w 26 6
  let d : BitVec 5 := BitVec.ofNat 5 (bits w 21 5)
  let a : BitVec 5 := BitVec.ofNat 5 (bits w 16 5)
  let b : BitVec 5 := BitVec.ofNat 5 (bits w 11 5)
  let f := bits w 0 11
  if 2 ^ 32 ≤ w || !legalWord w then none
  else if op == 0x00 then aluInstr c t d a b f
  else if op == 0x09 then some (.movs c t d a b)
  else if op == 0x0A then some (.sets c t d a b)
  else if op == 0x1C then some (.jmp c t (BitVec.ofNat 26 (bits w 0 26)))
  else if op == 0x20 then syncInstr c t d a b f
  else if op == 0x21 then some (.post c t d a b)
  else if op == 0x22 then some (.start c t d a b (Fin.ofNat 4 f))
  else if op == 0x23 then some (.fence c t d a b)
  else if op == 0x28 then vopInstr c t (BitVec.ofNat 2 (bits f 6 2)) (BitVec.ofNat 3 (bits f 8 3)) d a b (bits f 0 6)
  else if op == 0x29 then sfuInstr c t d a b f
  else if op == 0x3F then some (.progEnd c t d a b (BitVec.ofNat 8 f))
  else immInstr c t d a (BitVec.ofNat 16 (bits w 0 16)) op

end Sys2Proof.Machine
end

