-- ==== Sys2Proof/Safety.lean ====
section
/-! DEFINITION. The terms that claims use: sound states, commands that find what their rule asks for, and frames. -/

namespace Sys2Proof.Machine

/-! ### Steps and memory -/

/-- Memory is in its canonical form. -/
abbrev State.sound (s : State) : Prop := Memory.wf s.mem

/-! ### Threads -/

/-- Thread t of core c is READY on a core that runs, `w` is its next instruction and legal, and no load into a register of `uses`
(vector or scalar, number) is outstanding (R105, R106, R156, R570). -/
abbrev State.finds (s : State) (c t w : Nat) (uses : List (Bool × Nat)) : Prop :=
  (s.th c t).st = .ready ∧ s.coreRuns c = true ∧ (s.th c t).word = some w ∧ legalWord w = true ∧ (s.th c t).pendingOn uses = false

/-- It is thread t's turn among the threads of its slot that are ready for the unit of word w (R106). -/
abbrev State.turnOf (s : State) (c t w : Nat) : Prop := s.nextReady c (t / 16) (issueUnit w) = some t

/-- The condition on which an instruction executes: its thread finds it, and it is the thread's turn. -/
abbrev State.executes (s : State) (c t w : Nat) (uses : List (Bool × Nat)) : Prop := s.finds c t w uses ∧ s.turnOf c t w

/-- The scalar registers among numbers, as `executes` takes them. -/
def scalars (l : List Nat) : List (Bool × Nat) := l.map fun r => (false, r)

/-- Scalar register r of a thread as 64 bits (R151). -/
def Thread.x (y : Thread) (r : BitVec 5) : Dword := BitVec.ofNat 64 (y.s r.toNat)

/-- The buffer of a thread that goes on at `pc` holds the line of `pc`, and the next line is there or on its way (R570). -/
abbrev Thread.supplied (y : Thread) (pc : Nat) : Prop :=
  let l := pc / 32 * 32
  (AMap.get? l y.buf).isSome = true ∧
  ((AMap.get? ((l + 32) % 2 ^ 64) y.buf).isSome || y.fetching.any fun f => f.line == (l + 32) % 2 ^ 64) = true

/-- Of partitions' tables and functions only what a signal changes differs: unsignalled entries, and vectors held or pending. -/
def State.signalFrame (s u : State) : Prop :=
  (∀ p, ({ u.kv p with rings := (s.kv p).rings } : Kv) = s.kv p) ∧
  (∀ f, ({ u.fn f with cq := (s.fn f).cq, heldIrq := (s.fn f).heldIrq, pba := (s.fn f).pba } : Fn) = s.fn f) ∧
  ∀ f q, ({ u.cqState f q with unsignalled := (s.cqState f q).unsignalled } : CompQueue) = s.cqState f q

/-- Only what a thread's instruction may touch beside the thread itself differs: the core's turns and its translation cache, and what
the fetch of a line through a REMOTE window or from host memory adds to the canopy, the outputs, the counters, the records and a fill
whose source is lost (R75, R76, R106, R497, R570). -/
def State.threadFrame (s u : State) (c t : Nat) : Prop :=
  u.mem = s.mem ∧ u.faulty = s.faulty ∧ u.parts = s.parts ∧ u.formes = s.formes ∧ u.tiles = s.tiles ∧ u.heldWrites = s.heldWrites ∧
  u.reducers = s.reducers ∧ u.cambs = s.cambs ∧ u.switches = s.switches ∧ u.intks = s.intks ∧ u.snaps = s.snaps ∧
  u.replays = s.replays ∧ u.sec = s.sec ∧ u.power = s.power ∧ u.shadow = s.shadow ∧ s.signalFrame u ∧
  (∀ p, (AMap.get? p u.fills).map (fun x => { x with lost := none }) = (AMap.get? p s.fills).map fun x => { x with lost := none }) ∧
  (∀ k, k ≠ c → u.core k = s.core k) ∧ ({ u.core c with last := (s.core c).last, tlb := (s.core c).tlb } : Core) = s.core c ∧
  ∀ c' t', thKey c' t' ≠ thKey c t → u.th c' t' = s.th c' t'

/-- A key that the bytes stored at a thread address go to, where the write resolves (R74, R75). -/
def State.storedAt (s : State) (p : Nat) (core : Option Nat) (addr n k : Nat) : Prop :=
  ∃ x ∈ pieces addr n, ∃ loc key len, s.resolveWrite p core x.1 = .ok loc ∧ s.span p loc x.2 = some (key, len) ∧ key ≤ k ∧ k < key + len

/-! ### Table engines, switches and intake -/

/-- The table engine of partition p serves entry b of forme i next: the forme is at the front of its queue, the engine does not wait,
and the list holds more than it has served (R318). -/
abbrev State.kvServes (s : State) (p i n : Nat) (b : List Byte) : Prop :=
  s.active p = true ∧ (s.kv p).advWaits = false ∧ (s.kv p).queue.head? = some (.entries i) ∧ s.kvCountOf p (s.forme i) = .ok n ∧
  (s.kv p).served < n ∧ s.kvEntry p (s.forme i) (s.kv p).served = .ok b

/-- Job j of partition p works on sample n, whose state is `t`. -/
abbrev State.streams (s : State) (p j n : Nat) (x : IntkJob) (t : IntkStream) : Prop := s.job? p j = some x ∧ x.sample? n = some t

/-! ### The host link and the pages -/

/-- Entry r, with bytes b, at the front of submission queue q of function f is the one that the device hands on next (R465, R466); `arb`
are the credits of the function's draw afterwards. -/
abbrev State.handsOn (s : State) (f q : Nat) (r : HostRef) (b : List Byte) (arb : AMap Int) : Prop :=
  s.sqFront f q = some (r, b) ∧ s.pickSq f = some (q, arb) ∧ s.nextFn = some f

/-- A write of a page by a requester is performed: its accesses reach the pages, no whole-device reset is in progress unless the write is
one of the PWR page over I3C, the clocks of the bus are sure, and it sees the page and may write it (R32, R39, R40, R47, R50). -/
abbrev State.writes (s : State) (who : Requester) (pg : Nat) : Prop :=
  s.reaches who = true ∧ (s.power.reset = none ∨ (who = .i3c ∧ pg = Pg.pwr)) ∧ s.power.busUnsure = false ∧ s.sees who pg = true ∧ s.mayWrite who pg = true

/-- The same, with WL fields open to the requester: LOCK is 0, and the requester is none of a virtual function (R54). -/
abbrev State.writesOpen (s : State) (who : Requester) (pg : Nat) : Prop :=
  s.writes who pg ∧ writesWl who = true ∧ s.f pg fLock = 0

/-- The security core serves a firmware command: it runs and neither a firmware nor a lifecycle command is busy (R535, R548). -/
abbrev State.fwIdle (s : State) : Prop := s.secRuns = true ∧ s.f fwPage F.SEC1_BUSY_028 = 0 ∧ s.f (Pg.sec 0) F.SEC0_BUSY = 0

end Sys2Proof.Machine
end

