-- ==== Sys2Proof/WellFormed.lean ====
section
/-! DEFINITION. Which commands are well formed: what the types of the operands do not say. -/

namespace Sys2Proof

/-- The data of a packet of a kind that carries data, or that carries none, fits its LINES (R413). -/
def Packet.dataFits (p : Packet) (carries : Bool) : Bool :=
  p.data.length == if carries then 32 * p.lines.toNat else 0

/-- Bytes that arrive for a load or a line are at most a vector register's (R155, R570). -/
def Arrival.wf : Arrival → Bool
  | .data b => b.length ≤ 256
  | _ => true

/-- A stream header names a picture or a sound that exists: a shape, a component, and a depth of at most 24 bits (R372, R380). -/
def StreamHeader.wf (h : StreamHeader) : Bool :=
  0 < h.width && 0 < h.height && 0 < h.comps && 0 < h.depth && h.depth ≤ 24 && h.subX ≤ 2 && h.subY ≤ 2 && h.matrix ≤ 3

/-- The checks on a command, by its rule. -/
def Instr.wf : Instr → Bool
  | .thermalSample sensors drams _ => sensors.length == 96 && 0 < drams.length
  | .threadStartRequest _ _ _ args => args.length == 4
  | .loadDataArrive _ _ _ how => how.wf
  | .instrLineArrive _ _ how => how.wf
  | .decodeUnitDone _ u => match u.header with
    | some h => h.wf
    | none => true
  | .frameReserve _ _ h => h.wf
  | .flitReceive _ _ b _ _ => b.length == 1028
  | .readReq _ p _ => p.dataFits false
  | .writeReq _ p => p.dataFits true
  | .readRsp _ p => p.data.length ≤ 4096
  | .writeRsp _ p => p.dataFits false
  | .collData _ p => p.dataFits true
  | .collGrant _ p => p.dataFits false
  | .route _ p => p.data.length ≤ 4096
  | .elect _ p => p.data.length ≤ 4096
  | .time _ p => p.dataFits false
  | .sqEntryFetch _ _ n host => match host with
    | some b => b.length == 128 * (n.val + 1)
    | none => true
  | .bar2Write _ _ data => 0 < data.length && data.length ≤ 4096
  | .fwFetch _ host => host.length == 65536
  | .i3cFwChunk _ _ data => data.length == 256
  | _ => true

end Sys2Proof
end

