-- ==== Sys2Proof/Certificates/Slice0/Obligations.lean ====
section
/-! DEFINITION. The statements for the provers. -/

open Sys2Proof Sys2Proof.Machine

/-! ### The queue and the whole machine -/

/-- A step with a command at the front of the queue is that command's effect on the state with the queue's rest. -/
def Obligations.StepRunsFrontCommand : Prop :=
  ∀ (c : Instr) (rest : List Instr) (s : State), s.pending = c :: rest → step s = exec c { s with pending := rest }

/-- Every command answers a next state from every state. -/
def Obligations.EveryCommandAnswersNext : Prop := ∀ (c : Instr) (s : State), ∃ u, exec c s = .next u

/-- With an empty queue a step is one KCLK cycle where the clocks run, and nothing where they do not (log entry 2, the model's
choice): the KCLK count rises by 1, and device time by 1 ns unless a correction of R444 adds or withholds a count. -/
def Obligations.EmptyQueueIsOneCycle : Prop :=
  ∀ s : State, s.pending = [] →
    (s.clocked = false → step s = .next s) ∧
    (s.clocked = true → ∃ u, step s = .next u ∧ u.power.kclk = s.power.kclk + 1 ∧
      s.power.time ≤ u.power.time ∧ u.power.time ≤ s.power.time + 2 ∧
      (s.power.slew = 0 → s.power.rate = 0 → s.power.rateAcc = 0 → u.power.time = s.power.time + 1))

/-- No command puts a command into the queue or takes one from it. -/
def Obligations.CommandsLeaveTheQueue : Prop :=
  ∀ (c : Instr) (s u : State), exec c s = .next u → u.pending = s.pending

/-- Every step keeps memory in its canonical form: keys rising, and no byte listed that an unlisted key reads as. -/
def Obligations.StepKeepsMemoryCanonical : Prop :=
  ∀ s u : State, s.sound → step s = .next u → u.sound

/-- After reset memory is in its canonical form, and lists nothing. -/
def Obligations.ResetMemoryCanonical : Prop := State.reset.sound ∧ State.reset.mem = []

/-! ### Instructions of thread programs (ch. 05) -/

/-- A legal word is exactly one instruction: the word that a legal instruction is decodes to it with every operand, and every
legal word of 32 bits is the word of the instruction that it decodes to. -/
def Obligations.ThreadWordsAndInstructionsAgree : Prop :=
  (∀ (i : Instr) (c : Fin 256) (t : Fin 64) (w : Nat), threadWord i = some (c, t, w) → legalWord w = true →
    threadInstr c t w = some i) ∧
  (∀ (c : Fin 256) (t : Fin 64) (w : Nat), w < 2 ^ 32 → legalWord w = true →
    ∃ i, threadInstr c t w = some i ∧ threadWord i = some (c, t, w))

/-- The words of the epilogue that the spec works through after R160 are the instructions that it names. -/
def Obligations.EpilogueExampleDecodes : Prop :=
  [0xA0240012, 0xA0400012, 0x18C30028, 0x08C600FF, 0x08E3FFFF, 0x00A63808, 0x50010000, 0xA0001005, 0xA0000802, 0x54010000,
    0x04210100, 0x04A5FFFF, 0x64A0FFFA, 0xFC000000].map (threadInstr 0 0) =
  [.vbcast 0 0 0 1 4 0, .vbcast 0 0 0 2 0 0, .shrli 0 0 6 3 40, .andi 0 0 6 6 0xFF, .andi 0 0 7 3 0xFFFF, .aluMul 0 0 5 6 7,
    .vld 0 0 0 1 0, .vmax 0 0 0 0 0 2, .vmul 0 0 0 0 0 1, .vst 0 0 0 1 0, .addi 0 0 1 1 256, .addi 0 0 5 5 0xFFFF,
    .bne 0 0 5 0 0xFFFA, .progEnd 0 0 0 0 0 0].map some

/-- An instruction that the thread is not about to execute changes nothing: the thread is not READY, its core does not run, or
another word is next, or another thread of its slot has the turn (the model's reading of commands, log entry 1). Where its line
has not arrived, or a register that it needs is being loaded, the thread waits in WAIT_MEM. -/
def Obligations.InstructionsExecuteInOrder : Prop :=
  ∀ (i : Instr) (c : Fin 256) (t : Fin 64) (w : Nat) (s : State), threadWord i = some (c, t, w) →
    (((s.th c t).st ≠ .ready ∨ s.coreRuns c = false ∨ ∃ v, (s.th c t).word = some v ∧ v ≠ w) → exec i s = .next s) ∧
    (s.finds c t w (wordUses w) → ¬ s.turnOf c t w → exec i s = .next s) ∧
    ((s.th c t).st = .ready → s.coreRuns c = true →
      ((s.th c t).word = none ∨ (s.th c t).word = some w ∧ legalWord w = true ∧ (s.th c t).pendingOn (wordUses w) = true) →
      exec i s = .next (s.setTh c t { s.th c t with st := .waitMem }))

/-- The instruction ends the program with ILLEGAL_INSTR in each case of R156: an operation code that R155 does not list, an F
subfield or function value that is not defined or a nonzero F bit that is not used, a vector register field with bits [4:3]
nonzero, the h of INS16 above 3, an exit status of END from 0x01 to 0x7F. -/
def Obligations.IllegalInstructionEndsProgram : Prop :=
  (∀ (c : Fin 256) (t : Fin 64) (w : Word) (s : State), (s.th c t).st = .ready → s.coreRuns c = true →
    (s.th c t).word = some w.toNat → legalWord w.toNat = false → s.turnOf c t w.toNat →
    exec (.illegalInstr c t w) s = .next (s.endProgram c t 0x0D) ∧
    ∀ i, threadWord i = some (c, t, w.toNat) → exec i s = .next (s.endProgram c t 0x0D)) ∧
  ∀ w : Word,
    let op := (w.extractLsb' 26 6).toNat
    let d := (w.extractLsb' 21 5).toNat
    let a := (w.extractLsb' 16 5).toNat
    let b := (w.extractLsb' 11 5).toNat
    let f := (w.extractLsb' 0 11).toNat
    let o := (w.extractLsb' 0 6).toNat
    let ty := (w.extractLsb' 6 2).toNat
    let fm := (w.extractLsb' 8 3).toNat
    (op ∉ [0x00, 0x01, 0x02, 0x03, 0x04, 0x05, 0x06, 0x07, 0x08, 0x09, 0x0A, 0x10, 0x11, 0x12, 0x13, 0x14, 0x15, 0x18, 0x19, 0x1A,
        0x1B, 0x1C, 0x1D, 0x20, 0x21, 0x22, 0x23, 0x28, 0x29, 0x3F] ∨
      (op = 0x00 ∧ 12 < f) ∨ ((op = 0x09 ∨ op = 0x0A ∨ op = 0x21 ∨ op = 0x23) ∧ f ≠ 0) ∨ (op = 0x20 ∧ 5 < f) ∨
      ((op = 0x22 ∨ op = 0x29) ∧ 3 < f) ∨ (op = 0x3F ∧ 0xFF < f) ∨
      (op = 0x28 ∧ (0x15 < o ∨ ty = 3 ∨ (fm ≠ 0 ∧ o ≠ 0x11 ∧ o ≠ 0x15) ∨ (o = 0x11 ∧ fm = 7) ∨ (o = 0x15 ∧ (fm < 3 ∨ fm = 7)) ∨
        ((o = 0x08 ∨ o = 0x09) ∧ ty = 2))) ∨
      ((op = 0x14 ∨ op = 0x15) ∧ 8 ≤ d) ∨ (op = 0x29 ∧ (8 ≤ d ∨ 8 ≤ a)) ∨
      (op = 0x28 ∧ ((8 ≤ d ∧ o ≠ 0x13 ∧ o ≠ 0x14) ∨ (8 ≤ a ∧ o ≠ 0x12) ∨
        (8 ≤ b ∧ (o ≤ 0x05 ∨ o = 0x08 ∨ (0x0A ≤ o ∧ o ≤ 0x10))))) ∨
      (op = 0x08 ∧ 3 < a) ∨ (op = 0x3F ∧ 0x01 ≤ f ∧ f ≤ 0x7F)) → legalWord w.toNat = false

/-- Going on supplies the instruction buffer, moves the slot's turn and changes nothing else: the thread takes the address of the
next instruction, its registers stay, and where the buffer already holds its lines the thread's record and the turn are all that
changes (R106, R570). -/
def Obligations.GoingOnKeepsEverythingElse : Prop :=
  ∀ (s : State) (c t : Nat) (x : Thread) (pc : Nat),
    let u := s.goTo c t x pc
    s.threadFrame u c t ∧ (u.th c t).pc = pc % 2 ^ 64 ∧ (u.th c t).sregs = x.sregs ∧ (u.th c t).vregs = x.vregs ∧
    (u.th c t).fpflags = x.fpflags ∧ (u.th c t).rmode = x.rmode ∧ (u.th c t).loads = x.loads ∧ (u.th c t).stores = x.stores ∧
    AMap.get? (t / 16) (u.core c).last = some t ∧
    (x.supplied (pc % 2 ^ 64) → u = (s.setTh c t { x with pc := pc % 2 ^ 64 }).issued c t)

/-- The ALU instructions of R155: sD takes sA op sB of 64 bits, and the thread goes on at the next instruction. -/
def Obligations.AluInstructions : Prop :=
  ∀ (s : State) (c : Fin 256) (t : Fin 64) (d a b : BitVec 5),
    let x := s.th c t
    let p := x.x a
    let q := x.x b
    let gives (f : Nat) (i : Instr) (v : Dword) : Prop :=
      s.executes c t (encR 0x00 d.toNat a.toNat b.toNat f) (scalars [d.toNat, a.toNat, b.toNat]) →
        exec i s = .next (s.goOn c t (x.setS d.toNat v.toNat))
    gives 0 (.aluAdd c t d a b) (p + q) ∧ gives 1 (.aluSub c t d a b) (p - q) ∧ gives 2 (.aluAnd c t d a b) (p &&& q) ∧
    gives 3 (.aluOr c t d a b) (p ||| q) ∧ gives 4 (.aluXor c t d a b) (p ^^^ q) ∧
    gives 5 (.aluShl c t d a b) (p <<< (q.toNat % 64)) ∧ gives 6 (.aluShrl c t d a b) (p >>> (q.toNat % 64)) ∧
    gives 7 (.aluShra c t d a b) (p.sshiftRight (q.toNat % 64)) ∧ gives 8 (.aluMul c t d a b) (p * q) ∧
    gives 9 (.aluSlt c t d a b) (if p.slt q then 1 else 0) ∧ gives 10 (.aluSltu c t d a b) (if p.ult q then 1 else 0) ∧
    gives 11 (.aluMin c t d a b) (if q.slt p then q else p) ∧ gives 12 (.aluMax c t d a b) (if p.slt q then q else p)

/-- The instructions of R155 on a register and an immediate, and the special registers of R157: IMM is sign-extended by ADDI and
zero-extended by the logic; INS16 replaces one 16-bit part; MOVS reads a special register and SETS writes FPFLAGS or RMODE. -/
def Obligations.ImmediateAndSpecialInstructions : Prop :=
  ∀ (s : State) (c : Fin 256) (t : Fin 64) (d a b : BitVec 5) (imm : BitVec 16),
    let x := s.th c t
    let p := x.x a
    let gives (op : Nat) (i : Instr) (v : Dword) : Prop :=
      s.executes c t (encI op d.toNat a.toNat imm.toNat) (scalars [d.toNat, a.toNat]) →
        exec i s = .next (s.goOn c t (x.setS d.toNat v.toNat))
    gives 0x01 (.addi c t d a imm) (p + imm.signExtend 64) ∧ gives 0x02 (.andi c t d a imm) (p &&& imm.zeroExtend 64) ∧
    gives 0x03 (.ori c t d a imm) (p ||| imm.zeroExtend 64) ∧ gives 0x04 (.xori c t d a imm) (p ^^^ imm.zeroExtend 64) ∧
    gives 0x05 (.shli c t d a imm) (p <<< (imm.toNat % 64)) ∧ gives 0x06 (.shrli c t d a imm) (p >>> (imm.toNat % 64)) ∧
    gives 0x07 (.shrai c t d a imm) (p.sshiftRight (imm.toNat % 64)) ∧
    (s.executes c t (encI 0x08 d.toNat a.toNat imm.toNat) (scalars [d.toNat]) → ∃ v : Dword,
      exec (.ins16 c t d a imm) s = .next (s.goOn c t (x.setS d.toNat v.toNat)) ∧
      ∀ h : Fin 4, v.extractLsb' (16 * h.val) 16 = if h.val = a.toNat then imm else (x.x d).extractLsb' (16 * h.val) 16) ∧
    (s.executes c t (encR 0x09 d.toNat a.toNat b.toNat 0) (scalars [d.toNat]) →
      exec (.movs c t d a b) s = .next (s.goOn c t (x.setS d.toNat (s.special c t x a.toNat)))) ∧
    (s.executes c t (encR 0x0A d.toNat a.toNat b.toNat 0) (scalars [d.toNat]) →
      exec (.sets c t d a b) s = .next (s.goOn c t (if a.toNat = 8 then { x with fpflags := x.s d.toNat % 32 }
        else { x with rmode := x.s d.toNat % 4 })))

/-- The special registers of R157: what MOVS reads of each, what the flags of FPFLAGS and the modes of RMODE are, that SETS writes
these two, that they are 0 at a start and SEED is the start's (0 but for an epilogue, whose forme gives it), and that MOVS and
SETS of other indices are illegal. -/
def Obligations.SpecialRegisterValues : Prop :=
  (∀ (s : State) (c : Fin 256) (t : Fin 64) (x : Thread),
    s.special c t x 0 = t.val ∧ s.special c t x 1 = t.val / 16 ∧ s.special c t x 2 = c.val % s.coresPer ∧
    s.special c t x 3 = s.corePart c ∧
    s.special c t x 4 = (match (s.part (s.corePart c)).overlay with | .train => 0 | .generate => 1 | .service => 2) ∧
    s.special c t x 5 = s.power.time ∧ s.special c t x 6 = s.aclk - x.since ∧ s.special c t x 7 = x.seed ∧
    s.special c t x 8 = x.fpflags ∧ s.special c t x 9 = x.rmode) ∧
  (∀ (s : State) (c : Fin 256) (t : Fin 64) (d a b : BitVec 5),
    (s.executes c t (encR 0x09 d.toNat a.toNat b.toNat 0) (scalars [d.toNat]) →
      exec (.movs c t d a b) s = .next (s.goOn c t ((s.th c t).setS d.toNat (s.special c t (s.th c t) a.toNat)))) ∧
    (s.executes c t (encR 0x0A d.toNat a.toNat b.toNat 0) (scalars [d.toNat]) → a = 8 →
      exec (.sets c t d a b) s = .next (s.goOn c t { s.th c t with fpflags := (s.th c t).s d.toNat % 32 })) ∧
    (s.executes c t (encR 0x0A d.toNat a.toNat b.toNat 0) (scalars [d.toNat]) → a = 9 →
      exec (.sets c t d a b) s = .next (s.goOn c t { s.th c t with rmode := (s.th c t).s d.toNat % 4 }))) ∧
  (∀ (s : State) (c : Fin 256) (t : Fin 64) (r : StartReq), ((s.startThread c t r).th c t).seed = r.seed ∧
    ((s.startThread c t r).th c t).since = s.aclk ∧ ((s.startThread c t r).th c t).fpflags = 0 ∧
    ((s.startThread c t r).th c t).rmode = 0) ∧
  (flInvalid = 1 ∧ flDivZero = 2 ∧ flOverflow = 4 ∧ flUnderflow = 8 ∧ flInexact = 16) ∧
  (Rnd.ofMode 0 = .near ∧ Rnd.ofMode 1 = .zero ∧ Rnd.ofMode 2 = .up ∧ Rnd.ofMode 3 = .down) ∧
  ∀ d a b : BitVec 5, (legalWord (encR 0x09 d.toNat a.toNat b.toNat 0) = true ↔ a.toNat ≤ 9) ∧
    (legalWord (encR 0x0A d.toNat a.toNat b.toNat 0) = true ↔ (a.toNat = 8 ∨ a.toNat = 9))

/-- Register s0 reads 0, and a write of it is discarded; another register reads the low 64 bits of what was written, and the rest
keep their values. -/
def Obligations.RegisterZeroIsHardwired : Prop :=
  ∀ (x : Thread) (r q v : Nat), x.s 0 = 0 ∧ x.setS 0 v = x ∧
    (x.setS r v).s q = if q = r ∧ r ≠ 0 then v % 2 ^ 64 else x.s q

/-- Loads (R155, R158): an aligned load of readable bytes is issued, waits for its data and lets the thread go on; a misaligned
one ends the program with MISALIGNED, a faulting one by R75. -/
def Obligations.LoadInstructions : Prop :=
  ∀ (s : State) (c : Fin 256) (t : Fin 64) (d a : BitVec 5) (imm : BitVec 16),
    let x := s.th c t
    let addr := (x.x a + imm.signExtend 64).toNat
    let p := s.corePart c
    let issues (op n align : Nat) (vec : Bool) (i : Instr) : Prop :=
      s.executes c t (encI op d.toNat a.toNat imm.toNat) [(vec, d.toNat), (false, a.toNat)] →
        (addr % align ≠ 0 → exec i s = .next (s.endProgram c t 0x0C)) ∧
        (addr % align = 0 → ∀ b loc, s.load p (some c.val) addr n = .ok b → s.resolve p (some c.val) addr false = .ok loc →
          ∃ s' : State, exec i s = .next ((s'.tlbUse c addr).goOn c t { x with loads := x.loads ++
            [{ vec := vec, reg := d.toNat, width := n, addr := addr, tier := loc.tier, bytes := s.localBytes c t addr n
               places := s.placesOf p (some c.val) addr n }] }) ∧
          ((∀ k o, loc ≠ .remote k o) → s' = s) ∧ (∀ k o, loc = .remote k o → s' = s.remoteRead p k o n (.load c t))) ∧
        (addr % align = 0 → ∀ f e, s.load p (some c.val) addr n = .error (f, e) → exec i s = .next (s.threadFault c t e f))
    issues 0x10 8 8 false (.ld c t d a imm) ∧ issues 0x11 4 4 false (.lw c t d a imm) ∧ issues 0x14 256 32 true (.vld c t d a imm)

/-- Stores (R155, R158): an aligned store writes the register's bytes at the address and waits for its acknowledgement; a
misaligned one ends the program with MISALIGNED, a faulting one by R75. -/
def Obligations.StoreInstructions : Prop :=
  ∀ (s : State) (c : Fin 256) (t : Fin 64) (d a : BitVec 5) (imm : BitVec 16),
    let x := s.th c t
    let addr := (x.x a + imm.signExtend 64).toNat
    let p := s.corePart c
    let stores (op align : Nat) (vec : Bool) (i : Instr) (b : List Byte) : Prop :=
      s.executes c t (encI op d.toNat a.toNat imm.toNat) [(vec, d.toNat), (false, a.toNat)] →
        (addr % align ≠ 0 → exec i s = .next (s.endProgram c t 0x0C)) ∧
        (addr % align = 0 → ∀ s', s.store p (some c.val) addr b (.thread c t) = (s', none) →
          ∃ tier, exec i s = .next ((s'.tlbUse c addr).goOn c t { x with stores := x.stores ++ [{ addr := addr, n := b.length, tier := tier }] }) ∧
          ∀ loc, s.resolveWrite p (some c.val) addr = .ok loc → tier = loc.tier) ∧
        (addr % align = 0 → ∀ s' f e, s.store p (some c.val) addr b (.thread c t) = (s', some (f, e)) →
          exec i s = .next (s'.threadFault c t e f))
    stores 0x12 8 false (.st c t d a imm) (toBytes 8 (x.s d.toNat)) ∧ stores 0x13 4 false (.sw c t d a imm) (toBytes 4 (x.s d.toNat)) ∧
    stores 0x15 32 true (.vst c t d a imm) (toBytes 256 (x.v d.toNat).toNat)

/-- A store of a thread leaves every byte of memory unchanged but those at the places where the pieces of its address range
resolve (the whole lines where memory is encrypted, R86 and R87), in a partition without managed arenas, where the range lies in one
page, as that of every aligned store does; a store through GALLEY_LOCAL to storage without an error puts its bytes there. -/
def Obligations.StoresLeaveOtherMemory : Prop :=
  ∀ (s s' : State) (p : Nat) (c t : Nat) (addr : Nat) (b : List Byte) (f : Option (AccFault × Nat)),
    (s.camb p).arenas = [] → addr % page2M + b.length ≤ page2M → s.store p (some c) addr b (.thread c t) = (s', f) →
    (∀ k, ¬ s.storedAt p (some c) addr b.length k → s'.byte k = s.byte k) ∧
    (addr / 2 ^ 60 = 1 → addr % 2 ^ 60 + b.length ≤ 2 ^ 20 → s.faultyIn (galleyKey c (addr % 2 ^ 60)) b.length = [] → f = none ∧
      s'.bytes (galleyKey c (addr % 2 ^ 60)) b.length = b)

/-- Branches and jumps (R155, R158): the target counts instructions from the branching one; JALR to an unaligned address ends the
program with MISALIGNED. -/
def Obligations.BranchInstructions : Prop :=
  ∀ (s : State) (c : Fin 256) (t : Fin 64) (d a : BitVec 5) (imm : BitVec 16) (offs : BitVec 26),
    let x := s.th c t
    let pc : Dword := BitVec.ofNat 64 x.pc
    let branches (op : Nat) (i : Instr) (taken : Bool) : Prop :=
      s.executes c t (encI op d.toNat a.toNat imm.toNat) (scalars [d.toNat, a.toNat]) →
        exec i s = .next (if taken then s.goTo c t x (pc + 4 * imm.signExtend 64).toNat else s.goOn c t x)
    branches 0x18 (.beq c t d a imm) (x.x d == x.x a) ∧ branches 0x19 (.bne c t d a imm) (x.x d != x.x a) ∧
    branches 0x1A (.blt c t d a imm) ((x.x d).slt (x.x a)) ∧ branches 0x1B (.bge c t d a imm) ((x.x a).sle (x.x d)) ∧
    (s.executes c t (encJ 0x1C offs.toNat) [] →
      exec (.jmp c t offs) s = .next (s.goTo c t x (pc + 4 * offs.signExtend 64).toNat)) ∧
    (s.executes c t (encI 0x1D d.toNat a.toNat imm.toNat) (scalars [d.toNat, a.toNat]) →
      let target := (x.x a + imm.signExtend 64).toNat
      let y := x.setS d.toNat (x.pc + 4)
      exec (.jalr c t d a imm) s = .next (if target % 4 = 0 then s.goTo c t y target
        else (s.setTh c t { y with pc := target }).endProgram c t 0x0C))

/-- The operations of a sync counter (R115, R117, R148): ADD and SET change VALUE modulo 2^32 and no other counter, and do nothing
to a busy claim counter; CLAIM hands out VALUE and adds 1 while VALUE is below LIMIT, and changes nothing otherwise; a thread that
waits on the counter for a value now met, in time, is READY again, with 0 in its result register. -/
def Obligations.CounterOperations : Prop :=
  ∀ (s : State) (k : Nat) (n : Int) (v : Nat), k < 8192 →
    (s.ctrBusy k = false → (s.opAdd k n).value k = (((s.value k : Int) + n) % 2 ^ 32).toNat ∧
      (s.opSet k v).value k = v % 2 ^ 32) ∧
    (s.ctrBusy k = true → (s.opAdd k n).value k = s.value k ∧ (s.opSet k v).value k = s.value k) ∧
    (s.value k < s.limit k → (s.claimRaw k).2 = some (s.value k) ∧ (s.claimRaw k).1.value k = s.value k + 1) ∧
    (s.limit k ≤ s.value k → (s.claimRaw k).2 = none ∧ (s.claimRaw k).1.value k = s.value k) ∧
    (∀ j, j < 8192 → j ≠ k → (s.opAdd k n).value j = s.value j ∧ (s.opSet k v).value j = s.value j ∧
      (s.claimRaw k).1.value j = s.value j) ∧
    (∀ j, j < 8192 → (s.opAdd k n).limit j = s.limit j ∧ (s.opSet k v).limit j = s.limit j ∧ (s.claimRaw k).1.limit j = s.limit j) ∧
    (∀ c t w, (s.th c t).st = .waitSync → (s.th c t).wait = some w → w.ctr = k → meets (v % 2 ^ 32) w.target = true →
      inTime w.since w.timeout s.power.kclk = true → s.ctrBusy k = false →
      (s.opSet k v).th c t = { (s.th c t).setS w.reg 0 with st := .ready, wait := none })

/-- The counter instructions of R155: a counter out of the partition's range ends the program and sets SYNC_RANGE (R113); ADD and
SET act once every earlier store has completed (R158); READ returns VALUE, CLAIM the tile or all ones for EXHAUSTED; WAIT goes on
with 0 where the value meets the target, and waits with its timeout otherwise; CLAIM_SET draws among its members (R120). -/
def Obligations.SyncInstructions : Prop :=
  ∀ (s : State) (c : Fin 256) (t : Fin 64) (d a b : BitVec 5),
    let x := s.th c t
    let n := (x.x a).toNat % 8192
    let k := s.devCtr (s.corePart c) n
    let w (f : Nat) : Nat := encR 0x20 d.toNat a.toNat b.toNat f
    let ex (f : Nat) : Prop := s.executes c t (w f) (wordUses (w f))
    let waits (f : Nat) : Prop := s.finds c t (w f) (wordUses (w f)) ∧ x.stores ≠ []
    let outOfRange := (s.event (Pg.core c) Ev.CORE_SYNC_RANGE).endProgram c t 0x03
    (ex 0 → exec (.syncAdd c t d a b) s =
      .next (if n < s.ctrsPer then (s.goOn c t x).opAdd k ((x.x b).truncate 32).toInt else outOfRange)) ∧
    (ex 1 → exec (.syncSet c t d a b) s =
      .next (if n < s.ctrsPer then (s.goOn c t x).opSet k (x.x b).toNat else outOfRange)) ∧
    (ex 0 ∨ ex 1 → x.stores = []) ∧ (waits 0 → exec (.syncAdd c t d a b) s = .next s) ∧
    (waits 1 → exec (.syncSet c t d a b) s = .next s) ∧
    (ex 2 → exec (.syncRead c t d a b) s =
      .next (if n < s.ctrsPer then (s.countOp k).goOn c t (x.setS d.toNat (s.value k)) else outOfRange)) ∧
    (ex 3 → ¬ n < s.ctrsPer → exec (.syncWait c t d a b) s = .next outOfRange) ∧
    (ex 3 → n < s.ctrsPer → meets ((s.countOp k).value k) ((x.x b).toNat % 2 ^ 32) = true →
      exec (.syncWait c t d a b) s = .next ((s.countOp k).goOn c t (x.setS d.toNat 0))) ∧
    (ex 3 → n < s.ctrsPer → meets ((s.countOp k).value k) ((x.x b).toNat % 2 ^ 32) = false →
      exec (.syncWait c t d a b) s = .next ((s.countOp k).goOn c t { x with
        st := .waitSync
        wait := some { ctr := k, target := (x.x b).toNat % 2 ^ 32, timeout := (x.x d).toNat, reg := d.toNat, since := s.power.kclk } })) ∧
    (ex 4 → exec (.syncClaim c t d a b) s = .next (if n < s.ctrsPer then
      (s.opClaim k).1.goOn c t (x.setS d.toNat ((s.opClaim k).2.getD (2 ^ 64 - 1))) else outOfRange)) ∧
    (ex 5 → let count := (x.x a).toNat / 2 ^ 16 % 8 + 1
      exec (.syncClaimSet c t d a b) s =
        .next (if n + count ≤ s.ctrsPer then s.claimSetOp c t x d.toNat n count else outOfRange))

/-- A wait of T KCLK may be satisfied up to cycle T from its issue, the cycle of the issue being 0 (R118): a value that meets the
condition by then satisfies it, and no timeout is reported afterwards; once cycle T has ended its report gives 0x04 and
SYNC_TIMEOUT, before then nothing, and a value no longer satisfies it. A host WAIT entry counts 1,000 KCLK for each microsecond of
TIMEOUT_US. -/
def Obligations.WaitTimeouts : Prop :=
  (∀ (s : State) (c : Fin 256) (t : Fin 64) (w : SyncWait), (s.th c t).st = .waitSync → (s.th c t).wait = some w →
    (w.timeout ≠ 0 → w.since + w.timeout < s.power.kclk → exec (.syncWaitTimeout c t) s = .next
      ((s.setTh c t { (s.th c t).setS w.reg 4 with st := .ready, wait := none, status := 4 }).event (Pg.core c) Ev.CORE_SYNC_TIMEOUT)) ∧
    (w.timeout = 0 ∨ s.power.kclk ≤ w.since + w.timeout → exec (.syncWaitTimeout c t) s = .next s ∧
      ∀ v, w.ctr < 8192 → s.ctrBusy w.ctr = false → meets (v % 2 ^ 32) w.target = true →
        (s.opSet w.ctr v).th c t = { (s.th c t).setS w.reg 0 with st := .ready, wait := none } ∧
        exec (.syncWaitTimeout c t) (s.opSet w.ctr v) = .next (s.opSet w.ctr v)) ∧
    (w.timeout ≠ 0 → w.since + w.timeout < s.power.kclk → ∀ v, (s.opSet w.ctr v).th c t = s.th c t)) ∧
  (∀ (s : State) (c : Fin 256) (t : Fin 64) (d a b : BitVec 5), (s.th c t).wait = none → ∀ u, exec (.syncWait c t d a b) s = .next u →
    ∀ w, (u.th c t).wait = some w → w.since = s.power.kclk ∧ w.timeout = (s.th c t).s d.toNat) ∧
  ∀ (s : State) (f : Fin 9) (q : Fin 16) (r r0 : HostRef) (b : List Byte) (arb : AMap Int) (k t since lim : Nat),
    ((s.sqState f q).wait = some (r, k, t, since, lim, false) → lim ≠ 0 → since + lim < s.power.kclk →
      exec (.sqWaitTimeout f q) s = .next (s.sqRelease f q r 0x04)) ∧
    ((s.sqState f q).wait = some (r, k, t, since, lim, false) → (lim = 0 ∨ s.power.kclk ≤ since + lim) →
      exec (.sqWaitTimeout f q) s = .next s) ∧
    ((s.sqState f q).wait = some (r, k, t, since, lim, true) → exec (.sqWaitTimeout f q) s = .next s) ∧
    ((s.sqState f q).wait = some (r, k, t, since, lim, false) → k < 8192 → s.ctrBusy k = false → ∀ v, meets (v % 2 ^ 32) t = true →
      ((s.opSet k v).sqState f q).wait = some (r, k, t, since, lim, decide (lim = 0 ∨ s.power.kclk ≤ since + lim))) ∧
    (s.handsOn f q r0 b arb → (s.sqState f q).wait = none → ∀ u, exec (.sqWait f q) s = .next u →
      (u.sqState f q).wait = some (r, k, t, since, lim, false) → since = s.power.kclk ∧ lim = 1000 * fieldAt b 0x0C 4)

/-- POST, START and FENCE (R129, R155, R158) act once every earlier store has completed, and END ends the program with its status:
a misaligned forme address gives MISALIGNED, a planner with room takes the 64 bytes, a full one refuses and the thread waits;
START makes a start request with four arguments. -/
def Obligations.PostStartFenceEnd : Prop :=
  ∀ (s : State) (c : Fin 256) (t : Fin 64) (d a b : BitVec 5) (slot : Fin 4) (status : BitVec 8),
    let x := s.th c t
    let p := s.corePart c
    let addr := (x.x a).toNat
    let j := plannerOf c (t.val / 16)
    let wPost := encR 0x21 d.toNat a.toNat b.toNat 0
    let wStart := encR 0x22 d.toNat a.toNat b.toNat slot.val
    let wFence := encR 0x23 d.toNat a.toNat b.toNat 0
    let ex (w : Nat) : Prop := s.executes c t w (wordUses w)
    let waits (w : Nat) : Prop := s.finds c t w (wordUses w) ∧ x.stores ≠ []
    (waits wPost → exec (.post c t d a b) s = .next s) ∧ (waits wStart → exec (.start c t d a b slot) s = .next s) ∧
    (waits wFence → exec (.fence c t d a b) s = .next s) ∧ (ex wPost ∨ ex wStart ∨ ex wFence → x.stores = []) ∧
    (ex wPost → (addr % 64 ≠ 0 → exec (.post c t d a b) s = .next (s.endProgram c t 0x0C)) ∧
      (addr % 64 = 0 → s.plannerShut j = false → s.plannerFull j = false → ∀ bytes, s.load p (some c.val) addr 64 = .ok bytes →
        exec (.post c t d a b) s = .next ((s.goOn c t x).takeForme j p (t.val / 16) bytes none (some c.val))) ∧
      (addr % 64 = 0 → s.plannerShut j = false → s.plannerFull j = true → ∃ u, exec (.post c t d a b) s = .next u ∧
        u.th c t = { x with st := .waitPost, post := addr } ∧ 
          AMap.getD j [] u.refused = AMap.getD j [] s.refused ++ [{ core := c.val, thread := some t.val }] ∧
          u.f (Pg.plan j) F.PLAN_REFUSED = (s.f (Pg.plan j) F.PLAN_REFUSED + 1) % 2 ^ 32 ∧ u.formes = s.formes)) ∧
    (ex wStart → let n := (x.x d).toNat % 8192
      exec (.start c t d a b slot) s = .next (if (x.x d).getLsbD 13 && decide (s.ctrsPer ≤ n)
        then (s.event (Pg.core c) Ev.CORE_SYNC_RANGE).endProgram c t 0x03
        else (s.goOn c t x).startReq c slot.val
          { pc := addr
            args := [x.s b.toNat, x.s (b.toNat + 1), x.s (b.toNat + 2), x.s (b.toNat + 3)]
            endCtr := if (x.x d).getLsbD 13 then some (s.devCtr p n) else none
            host := none
            epi := none })) ∧
    (ex wFence → exec (.fence c t d a b) s = .next (s.goOn c t x)) ∧
    (s.executes c t (encR 0x3F d.toNat a.toNat b.toNat status.toNat) [] →
      exec (.progEnd c t d a b status) s = .next (s.endProgram c t status.toNat))

/-- A start request (R105) takes the lowest-numbered FREE thread of its slot, which is READY at the program's address with the
arguments in s1 to s4, every other register, FPFLAGS and RMODE 0, and no access outstanding; where none is FREE it waits behind those
that wait. -/
def Obligations.StartRequests : Prop :=
  ∀ (s : State) (c : Fin 256) (slot : Fin 4) (pc : Dword) (args : List Dword), s.active (s.corePart c) = true → args.length = 4 →
    (∀ t, s.freeThread c slot.val = some t → ∃ u, exec (.threadStartRequest c slot pc args) s = .next u ∧
      (s.th c t).st = .free ∧ 16 * slot.val ≤ t ∧ t < 16 * slot.val + 16 ∧
      (∀ k, 16 * slot.val ≤ k → k < t → (s.th c k).st ≠ .free) ∧
      (u.th c t).st = .ready ∧ (u.th c t).pc = pc.toNat ∧ (u.th c t).stores = [] ∧ (u.th c t).loads = [] ∧
      (∀ r, (u.th c t).s r = if 1 ≤ r ∧ r ≤ 4 then (args.getD (r - 1) 0).toNat else 0) ∧ (∀ r, (u.th c t).v r = 0) ∧
      (u.th c t).fpflags = 0 ∧ (u.th c t).rmode = 0 ∧ u.mem = s.mem) ∧
    (s.freeThread c slot.val = none → exec (.threadStartRequest c slot pc args) s = .next (s.modCore c fun y =>
      { y with starts := AMap.put slot.val (AMap.getD slot.val [] y.starts ++
        [{ pc := pc.toNat, args := args.map fun a => a.toNat, endCtr := none, host := none, epi := none }]) y.starts }))

/-- What arrives for threads (R105, R166, R569, R570): a load's data goes to its register and a line to the buffer, and a thread
in WAIT_MEM that misses nothing more is READY; the fetch that faulted ends the program; an acknowledged store is complete; new
galley shares hold once the core is idle (R103); the first refused post is accepted once its planner has room. -/
def Obligations.ThreadEvents : Prop :=
  ∀ (s : State) (c : Fin 256) (t : Fin 64) (k : Nat),
    let x := s.th c t
    let j := plannerOf c (t.val / 16)
    (x.resume = if x.st = .waitMem ∧ x.blocked = false then { x with st := .ready } else x) ∧
    (∀ l b, x.loads[k]? = some l → wholeBytes l.bytes = some b → s.damageIn l.places 0 = none →
      exec (.loadDataArrive c t k (.read [] [])) s = .next (s.setTh c t
        (let y := { x with loads := x.loads.eraseIdx k }
          if l.vec then y.setV l.reg (BitVec.ofNat 2048 (ofBytes b)) else y.setS l.reg (ofBytes b)).resume)) ∧
    (∀ f loc b rest, x.fetching = f :: rest → f.fault = none → f.loc = some loc → f.bytes = some b → s.damageIn [(loc, 32)] 0 = none →
      x.pc % 4 = 0 → exec (.instrLineArrive c t (.read [] [])) s = .next ((s.setTh c t (Thread.resume { x with
        buf :=
          let wanted (l : Nat) : Bool := l == x.line || l == (x.line + 32) % 2 ^ 64
          let keep := x.buf.filter fun y => y.1 != f.line && wanted y.1
          if wanted f.line then keep ++ [(f.line, b)] else keep
        fetching := rest })).feed c t)) ∧
    (∀ f e rest how, x.fetching = f :: rest → f.fault = some e → x.pc % 4 = 0 →
      exec (.instrLineArrive c t how) s = .next (s.threadFault c t f.line e)) ∧
    (∀ y, x.stores[k]? = some y → y.tier = .galley → s.heldWrites = [] →
      exec (.storeAck c t k) s = .next (s.setTh c t { x with stores := x.stores.eraseIdx k })) ∧
    (∀ m, (s.core c).shares = some m → s.sharesIdle c = true →
      ∃ u, exec (.galleyShareApply c) s = .next u ∧ (u.core c).shares = none) ∧
    (x.st = .waitPost → (s.refusedPosts j).head? = some { core := c.val, thread := some t.val } → s.plannerShut j = false →
    s.plannerFull j = false →
      s.coreRuns c = true →
      exec (.postRetry c t) s =
        .next (State.postOp { s with refused := AMap.put j (s.refusedPosts j).tail s.refused } c t { x with st := .ready } x.post))

/-- The vector instructions of R159: every lane of vD takes the operation on the lanes of vA and vB (and of vD for VFMA and VSEL)
under RMODE, and FPFLAGS collects the flags; VBCAST copies sA to every lane; the reductions write sD. Each executes when the
vector unit's choice falls on its slot; while another slot has the turn nothing happens (R110). -/
def Obligations.VectorInstructions : Prop :=
  ∀ (s : State) (c : Fin 256) (t : Fin 64) (ty : BitVec 2) (d a b : BitVec 5),
    let x := s.th c t
    let v := VType.of ty.toNat
    let r := Rnd.ofMode x.rmode
    let la (k : Nat) : Nat := lane v.width (x.v a.toNat) k
    let lb (k : Nat) : Nat := lane v.width (x.v b.toNat) k
    let ld (k : Nat) : Nat := lane v.width (x.v d.toNat) k
    let turn (o : Nat) (uses : List (Bool × Nat)) (i : Instr) (y : Thread) : Prop :=
      s.executes c t (encV o ty.toNat 0 d.toNat a.toNat b.toNat) uses →
        (∀ s', s.unitTurn c t 1 = some s' → exec i s = .next (s'.goOn c t y)) ∧ (s.unitTurn c t 1 = none → exec i s = .next s)
    let gives (o : Nat) (uses : List (Bool × Nat)) (i : Instr) (f : Nat → Nat × Nat) : Prop :=
      turn o ((true, d.toNat) :: uses) i { x.setV d.toNat (ofLanes v.width ((List.range v.lanes).map fun k => (f k).1)) with
        fpflags := ((List.range v.lanes).map f).foldl (fun n y => n ||| y.2) 0 ||| x.fpflags }
    let two := [(true, a.toNat), (true, b.toNat)]
    let one := [(true, a.toNat)]
    gives 0x00 two (.vadd c t ty d a b) (fun k => v.add r (la k) (lb k)) ∧
    gives 0x01 two (.vsub c t ty d a b) (fun k => v.sub r (la k) (lb k)) ∧
    gives 0x02 two (.vmul c t ty d a b) (fun k => v.mul r (la k) (lb k)) ∧
    gives 0x03 two (.vfma c t ty d a b) (fun k => v.fma r (la k) (lb k) (ld k)) ∧
    gives 0x04 two (.vmin c t ty d a b) (fun k => (v.min (la k) (lb k), 0)) ∧
    gives 0x05 two (.vmax c t ty d a b) (fun k => (v.max (la k) (lb k), 0)) ∧
    gives 0x06 one (.vabs c t ty d a b) (fun k => (v.abs (la k), 0)) ∧
    gives 0x07 one (.vneg c t ty d a b) (fun k => (v.neg (la k), 0)) ∧
    gives 0x08 two (.vdiv c t ty d a b) (fun k => v.fmt.div r (la k) (lb k)) ∧
    gives 0x09 one (.vsqrt c t ty d a b) (fun k => v.fmt.sqrt r (la k)) ∧
    gives 0x0A two (.vcmplt c t ty d a b) (fun k => v.lt (la k) (lb k)) ∧
    gives 0x0B two (.vcmple c t ty d a b) (fun k => v.le (la k) (lb k)) ∧
    gives 0x0C two (.vcmpeq c t ty d a b) (fun k => (v.eq (la k) (lb k), 0)) ∧
    gives 0x0D two (.vsel c t ty d a b) (fun k => (if ld k = 0 then lb k else la k, 0)) ∧
    gives 0x12 [(false, a.toNat)] (.vbcast c t ty d a b) (fun _ => (x.s a.toNat, 0)) ∧
    turn 0x13 [(false, d.toNat), (true, a.toNat)] (.vredsum c t ty d a b) { x.setS d.toNat (v.redsum r (x.v a.toNat)).1 with
      fpflags := (v.redsum r (x.v a.toNat)).2 ||| x.fpflags } ∧
    turn 0x14 [(false, d.toNat), (true, a.toNat)] (.vredmax c t ty d a b) (x.setS d.toNat (v.redmax (x.v a.toNat)))

/-- The vector instructions that take whole registers: the bitwise ones ignore the type; VCVT converts and packs, VCVTW widens
(R159); the special functions work on the FP32 lanes and raise no flag (R212). Each executes when its unit's choice falls on its
slot, as it does where no other slot has work for the unit, the core may issue and no proof keeps the vector unit (R20, R110,
R208). -/
def Obligations.WholeRegisterVectorInstructions : Prop :=
  ∀ (s : State) (c : Fin 256) (t : Fin 64) (ty : BitVec 2) (fmt : BitVec 3) (d a b : BitVec 5),
    let x := s.th c t
    let p := x.v a.toNat
    let q := x.v b.toNat
    let gives (w : Nat) (uses : List (Bool × Nat)) (i : Instr) (v : VReg) (fl : Nat) : Prop :=
      s.executes c t w ((true, d.toNat) :: uses) → ∀ s', s.unitTurn c t (wordUnit w) = some s' →
        exec i s = .next (s'.goOn c t { x.setV d.toNat v with fpflags := x.fpflags ||| fl })
    let two := [(true, a.toNat), (true, b.toNat)]
    let one := [(true, a.toNat)]
    let bitwise (o : Nat) : Nat := encV o ty.toNat 0 d.toNat a.toNat b.toNat
    let cvt := (VType.of ty.toNat).cvt fmt.toNat (Rnd.ofMode x.rmode) p
    let cvtw := (VType.of ty.toNat).cvtw fmt.toNat (Rnd.ofMode x.rmode) p
    let sfu (o : Nat) (i : Instr) (f : Nat → Nat) : Prop :=
      gives (encR 0x29 d.toNat a.toNat b.toNat o) one i (ofLanes 32 ((List.range 64).map fun k => f (lane 32 p k))) 0
    gives (bitwise 0x0E) two (.vand c t ty d a b) (p &&& q) 0 ∧ gives (bitwise 0x0F) two (.vor c t ty d a b) (p ||| q) 0 ∧
    gives (bitwise 0x10) two (.vxor c t ty d a b) (p ^^^ q) 0 ∧
    gives (encV 0x11 ty.toNat fmt.toNat d.toNat a.toNat b.toNat) one (.vcvt c t ty fmt d a b) cvt.1 cvt.2 ∧
    gives (encV 0x15 ty.toNat fmt.toNat d.toNat a.toNat b.toNat) one (.vcvtw c t ty fmt d a b) cvtw.1 cvtw.2 ∧
    sfu 0 (.sfuExp c t d a b) sfuExp ∧ sfu 1 (.sfuLog c t d a b) sfuLog ∧ sfu 2 (.sfuRecip c t d a b) sfuRecip ∧
    sfu 3 (.sfuRsqrt c t d a b) sfuRsqrt ∧
    ∀ unit, s.mayIssue c = true → (unit = 1 → s.proofing c = false) → (∀ k, k < 4 → (s.unitReady c unit k = true ↔ k = t.val / 16)) →
      ∃ s', s.unitTurn c t unit = some s' ∧ ∀ n, s'.th c n = s.th c n

/-- INT32 lanes wrap (R159): lane k of a register made of lanes is lane k of the list, and the INT32 operations are those of
32-bit two's complement, with no flag. -/
def Obligations.Int32LanesWrap : Prop :=
  (∀ (l : List Nat) (k : Nat), l.length ≤ 64 → k < l.length → lane 32 (ofLanes 32 l) k = l.getD k 0 % 2 ^ 32) ∧
  ∀ (r : Rnd) (x y z : BitVec 32),
    VType.i32.add r x.toNat y.toNat = ((x + y).toNat, 0) ∧ VType.i32.sub r x.toNat y.toNat = ((x - y).toNat, 0) ∧
    VType.i32.mul r x.toNat y.toNat = ((x * y).toNat, 0) ∧ VType.i32.fma r x.toNat y.toNat z.toNat = ((x * y + z).toNat, 0) ∧
    VType.i32.min x.toNat y.toNat = (if y.slt x then y else x).toNat ∧
    VType.i32.max x.toNat y.toNat = (if x.slt y then y else x).toNat ∧
    VType.i32.abs x.toNat = (if x.msb then -x else x).toNat ∧ VType.i32.neg x.toNat = (-x).toNat ∧
    VType.i32.lt x.toNat y.toNat = ((if x.slt y then BitVec.allOnes 32 else 0).toNat, 0) ∧
    VType.i32.le x.toNat y.toNat = ((if x.sle y then BitVec.allOnes 32 else 0).toNat, 0) ∧
    VType.i32.eq x.toNat y.toNat = (if x = y then BitVec.allOnes 32 else 0).toNat

/-! ### Formes and tiles (ch. 05, 06) -/

/-- A post of a forme of an active partition to a planner that accepts posts (R129, R130, R147, R165, R166): with room the planner
takes the 64 bytes, of whatever opcode; with 256 formes held it refuses the post, counts it and sets QUEUE_FULL, and the post waits to
be retried. -/
def Obligations.PostedFormesAreTakenOrRefused : Prop :=
  ∀ (s : State) (c : Fin 256) (slot : Fin 4) (b : BitVec 512),
    let op := b.toNat % 256
    let variant := b.toNat / 256 % 256
    let j := plannerOf c slot
    let posts (is : Prop) (i : Instr) : Prop :=
      is → s.active (s.corePart c) = true → s.plannerShut j = false →
        (s.plannerHeld j < 256 → exec i s = .next (s.takeForme j (s.corePart c) slot (toBytes 64 b.toNat) none (some c.val))) ∧
        (256 ≤ s.plannerHeld j → exec i s = .next { (s.incF (Pg.plan j) F.PLAN_REFUSED).event (Pg.plan j) Ev.PLAN_QUEUE_FULL with
          refused := AMap.put j (AMap.getD j [] s.refused ++
            [{ core := c, thread := none, slot := slot, bytes := toBytes 64 b.toNat }]) s.refused })
    posts (op = 0x00) (.nop c slot b) ∧ posts (op = 0x01) (.matmul c slot b) ∧ posts (op = 0x02) (.gmatmul c slot b) ∧
    posts (op = 0x03) (.conv c slot b) ∧ posts (op = 0x04 ∧ variant % 2 = 0) (.poolMax c slot b) ∧
    posts (op = 0x04 ∧ variant % 2 = 1) (.poolAvg c slot b) ∧ posts (op = 0x05) (.cropResize c slot b) ∧
    posts (op = 0x06 ∧ variant / 2 % 2 = 0) (.attentionForward c slot b) ∧
    posts (op = 0x06 ∧ variant / 2 % 2 = 1) (.attentionBackward c slot b) ∧
    posts (op = 0x07 ∧ variant / 2 % 2 = 0) (.normForward c slot b) ∧ posts (op = 0x07 ∧
    variant / 2 % 2 = 1) (.normBackward c slot b) ∧
    posts (op = 0x08 ∧ variant % 2 = 0) (.softmaxForward c slot b) ∧ posts (op = 0x08 ∧ variant % 2 = 1) (.softmaxBackward c slot b) ∧
    posts (op = 0x09) (.loss c slot b) ∧ posts (op = 0x0A) (.elementwise c slot b) ∧ posts (op = 0x0B) (.copy c slot b) ∧
    posts (op = 0x0C) (.gather c slot b) ∧ posts (op = 0x0D) (.scatter c slot b) ∧
    posts (op = 0x10 ∧ variant % 8 = 0) (.allReduce c slot b) ∧ posts (op = 0x10 ∧ variant % 8 = 1) (.reduceScatter c slot b) ∧
    posts (op = 0x10 ∧ variant % 8 = 2) (.allGather c slot b) ∧ posts (op = 0x10 ∧ variant % 8 = 3) (.broadcast c slot b) ∧
    posts (op = 0x10 ∧ variant % 8 = 4) (.barrier c slot b) ∧ posts (op = 0x11) (.reshard c slot b) ∧
    posts (op = 0x12) (.update c slot b) ∧ posts (opListed op = false) (.badOpcode c slot b)

/-- A planner that takes a forme (R146, R147): an opcode that is not listed ends it with BAD_OPCODE, one that the slot does not
take with its status, before anything else; a forme that passes waits for its counter, or goes on to its claim counters; the
planner counts it either way. -/
def Obligations.TakenFormes : Prop :=
  ∀ (s : State) (j p slot : Nat) (bytes : List Byte) (host : Option HostRef) (core : Option Nat),
    let x : Forme :=
      { part := p, slot := slot, planner := j, bytes := bytes, host := host, train := (s.part p).overlay == .train }
    let i := s.nextForme
    let u := s.takeForme j p slot bytes host core
    let counted := ({ s with nextForme := i + 1 }).incF (Pg.plan j) F.PLAN_TAKEN
    (opListed x.opcode = false → u = (counted.setForme i x).finishForme i 0x05) ∧
    (opListed x.opcode = true → slotRoleOk (s.part p).overlay slot x.opcode = false → u = (counted.setForme i x).finishForme i 0x02) ∧
    (counted.takeChecks x = none → x.waitEn = false → u = counted.setForme i { x with st := .claimHeld }) ∧
    (counted.takeChecks x = none → x.waitEn = true → ∃ met,
      AMap.get? i u.formes = some { x with st := .waiting, waitMet := met } ∧ u.nextForme = i + 1 ∧ u.mem = s.mem ∧
      met = meets (counted.value (s.devCtr p x.waitCtr)) x.waitTarget)

/-- A forme's way to RUNNING (R108, R146, R148, R301): its wait, its turn and its claim counters, which are then busy; a NOP ends
with OK and its claim counters at 0, or with NO_GALLEY where a core's share is 0; another is planned, behind what the table engine holds where it reads the cache, and a check
that fails ends it with the check's status; its post joins a core's queue of at most 32. -/
def Obligations.FormesGoOn : Prop :=
  ∀ (s : State) (i : Nat) (x : Forme) (c : Fin 256), AMap.get? i s.formes = some x →
    (x.st = .waiting → x.waitMet = true → exec (.formeWaitMet i) s = .next (s.setForme i { x with st := .claimHeld })) ∧
    (x.st = .claimHeld →
      (∀ f ∈ s.formes, f.1 < i → f.2.planner = x.planner → f.2.slot = x.slot → f.2.st ≠ .waiting ∧ f.2.st ≠ .claimHeld) →
      ((s.sw x.part).st = 0 ∨ (s.sw x.part).on = false) → (∀ k ∈ s.claimCtrs x, s.ctrBusy k = false) → partIdle (s.part x.part).overlay x.opcode = false →
      exec (.formeCountersFree i) s = .next (s.setForme i { x with
        st := .planning
        busy := s.claimCtrs x
        train := (s.part x.part).overlay == .train
        passes := (s.f (Pg.plan x.planner) F.PLAN_PASS1_MULT, s.f (Pg.plan x.planner) F.PLAN_PASS2_MULT)
        armedBefore := (s.camb x.part).upd.isSome })) ∧
    (s.plansNext i x = true → s.ctrlHalted x.planner = false →
      (x.opcode = 0x00 → exec (.formePlanned i) s = .next (if s.minShare x = 0 then s.planFails i { status := 0x01 }
        else (((s.setClaims x []).countPlan x { plans := [], reused := (s.heldPlan x).isSome }).showPlan x 0 {}).finishForme i 0)) ∧
      (opTiled x.opcode = true → .rows i ∉ (s.kv x.part).queue →
        (∀ pl, s.plansOf x = .ok pl → (x.cached = false ∨ (s.kv x.part).queue = []) →
          exec (.formePlanned i) s = .next ((s.runTiles i pl).cacheRows i)) ∧
        (∀ pl, s.plansOf x = .ok pl → x.cached = true → (s.kv x.part).queue ≠ [] →
          exec (.formePlanned i) s = .next (s.modKv x.part fun k => { k with queue := k.queue ++ [.rows i] })) ∧
        (∀ e, s.plansOf x = .error e → exec (.formePlanned i) s = .next (s.planFails i e)))) ∧
    (let q := AMap.getD x.slot [] (s.core c).queue
     x.posts.contains c.val = true → (∀ f ∈ s.formes, f.1 < i → f.2.planner = x.planner → f.2.posts.contains c.val = false) →
      q.length < 32 → ∃ u, exec (.formePostArrive i c) s = .next u ∧
        AMap.getD x.slot [] (u.core c).queue = q ++ [i] ∧ (u.forme i).posts = x.posts.filter fun k => k != c.val)

/-- Tiles (R109, R110, R119, R138, R150): a claim that returns a tile gives it to the core, whose fetch unit asks the peers for what it
reads of them (R427), and EXHAUSTED takes the forme from the slot's queue; once the peers have answered the first chunk makes a claimed tile ready, and the last that an executing tile lacks completes what the platen
computes; a free unit that may issue begins the tile of the slot that R110 picks; a tile that has everything writes its outputs
and is counted, or ends its forme by the fault of its write. -/
def Obligations.TilesRun : Prop :=
  ∀ (s : State) (i : Nat) (c : Fin 256),
    let x := s.forme i
    (s.mayClaim i c = true → (∀ s' b n, s.claimTile i c = (s', some (b, n)) →
        let t : Tile := { forme := i, core := c, slot := x.slot, branch := b, index := n, phase := .claimed }
        exec (.claimReturn i c) s = .next (State.fetchRemote { s' with tiles := s'.tiles ++ [t] } i c t)) ∧
      (∀ s', s.claimTile i c = (s', none) → exec (.claimReturn i c) s = .next (s'.popQueue c x.slot))) ∧
    (∀ t ∈ s.tiles, t.core = c.val → t.forme = i → t.phase = .claimed → t.chunks = 0 → x.ending = false →
      (∀ y ∈ s.tiles, y.core = c.val → y.forme = i → y = t) → 0 < (x.planOf t).chunkCount x → s.remoteHere i c t = true →
      ∀ l, exec (.chunkStaged c i l) s = .next ((s.correctedFor (s.corePart c) l).modTile c i t.code fun y =>
        { y with phase := .staged, chunks := 1 })) ∧
    (∀ t ∈ s.tiles, t.core = c.val → t.forme = i → t.phase = .executing → t.chunks < (x.planOf t).chunkCount x →
      (∀ y ∈ s.tiles, y.core = c.val → y.forme = i → y = t) → s.remoteHere i c t = true →
      ∀ l, exec (.chunkStaged c i l) s = .next ((s.correctedFor (s.corePart c) l).modTile c i t.code fun y =>
        { y with
          chunks := y.chunks + 1
          phase := if y.chunks + 1 = (x.planOf t).chunkCount x then x.computed (x.planOf t) else y.phase })) ∧
    (∀ k s' t, s.coreRuns c = true → s.mayIssue c = true → s.proofing c = false →
      s.arbPick c 1 ((List.range 4).filter fun k => s.unitReady c 1 k) = some (k, s') →
      s'.readyTile c 1 k = some t → exec (.tileBegin c 1) s = .next (s'.beginTile t)) ∧
    (∀ k s' t, s.coreRuns c = true → s.platenFree c = true →
      let r := s.idleRestart c
      r.mayIssue c = true → r.arbPick c 0 ((List.range 4).filter fun k => r.unitReady c 0 k) = some (k, s') →
      s'.readyTile c 0 k = some t → exec (.tileBegin c 0) s = .next ((s'.platenIssues c).beginTile t)) ∧
    (∀ t, s.endingTile c i = some t →
      (∀ s', s.writeTile t = (s', none) → ∃ u, exec (.tileEnd c i) s = .next u ∧
        u.tiles = s'.tiles.filter (fun y => !(y.forme == i && y.core == c.val && y.code == t.code)) ∧
        (u.forme i).tilesDone = (s'.forme i).tilesDone + 1 ∧ u.mem = s'.mem) ∧
      (∀ s' f a, s.writeTile t = (s', some (.fault f a)) → ∃ u, exec (.tileEnd c i) s = .next { u with
        tiles := u.tiles.filter (fun y => !(y.forme == i && y.core == c.val && y.code == t.code)) } ∧ u = s'.tileFault i c f a) ∧
      (∀ s', s.writeTile t = (s', some .tier) → ∃ u, exec (.tileEnd c i) s = .next { u with
        tiles := u.tiles.filter (fun y => !(y.forme == i && y.core == c.val && y.code == t.code)) } ∧ u = s'.formeFault i 0x20 c)) ∧
    (∀ (addr : Dword) (write : Bool) f, (∃ t ∈ s.tiles, t.core = c.val ∧ t.forme = i ∧ t.phase ≠ .claimed ∧ t.phase ≠ .staged) →
      s.firstFault (x.tileAcc i c) [(addr.toNat, 1)] write = some f →
      exec (.tileFault i c addr write) s =
        .next ((if write then s.arenaWrite x.part f.2 (.forme i) else s).tileFault i c f.1 f.2))

/-- Epilogues, ends and updates (R148, R149, R160, R236, R251): where a computed tile waits on a core that runs, with a FREE thread in its
slot and room in the slot's share, its values go to the galley row by row and its epilogue starts with the tile's place, origin and
shape; a core with nothing left of a forme reports its end, and one whose share does not hold its tiles declines it; a reducer
performs an update, which under ORDERED waits for every earlier position of its line, and otherwise only while writes to its page
wait, and marks the zero map; a spill that its unit's arbiter grants ends, and with it every forme whose work is over (R270). -/
def Obligations.EpiloguesReportsAndUpdates : Prop :=
  ∀ (s : State) (i : Nat) (c : Fin 256),
    let x := s.forme i
    let done (v : State) : State := ({ v with tiles := v.tiles.filter fun t => !(t.forme == i && t.core == c) }.modForme i
      fun y => { y with cores := y.cores.filter fun k => k != c.val, reported := y.reported ++ [c.val] }).tryEnd i
    (∀ t, s.tiles.find? (fun t => t.core == c.val && t.forme == i && t.phase == .epilogueWait) = some t →
      s.coreRuns c = true → (s.freeThread c t.slot).isSome = true → t.proof = none →
      let p := x.planOf t
      let a := p.tileArea x t.index
      let pe := p.epiPitch x
      ∀ off, s.epiPlace c t.slot (pe.1 * p.mt) = some off →
        let u := (List.range a.2.2.1).foldl (fun v r => v.poke (galleyKey c ((off + r * pe.1) % 2 ^ 20))
          (((t.out.drop (r * t.cols)).take t.cols).flatMap fun n => toBytes pe.2 ((if pe.2 == 8 then fp64 else fp32).near n))) s
        exec (.epilogueStart c i) s = .next ((u.modTile c i t.code fun y => { y with phase := .epilogue, galley := off }).startReq c t.slot
          { pc := p.ext.epilogue
            args := [2 ^ 60 + off, a.1 + a.2.1 * 2 ^ 32,
              a.2.2.1 + a.2.2.2 * 2 ^ 16 + pe.1 * 2 ^ 32 + (if pe.2 == 8 then 0x09 else 0x08) * 2 ^ 48, p.ext.epiArg]
            endCtr := none, host := none, epi := some (i, t.code), seed := p.ext.seed })) ∧
    (x.st = .running → opTiled x.opcode = true → x.cores.contains c.val = true → x.posts.contains c.val = false →
      (∀ t ∈ s.tiles, ¬ (t.forme = i ∧ t.core = c.val)) →
      let q := AMap.getD x.slot [] (s.core c).queue
      (q.contains i = false → exec (.coreReportEnd i c) s = .next (done s)) ∧
      (q.head? = some i → x.ending = false → s.declines x c = true → exec (.coreReportEnd i c) s = .next (done
        (((s.popQueue c x.slot).takesPart i c).modForme i fun y => { y with status := if y.status == 0 then 0x01 else y.status })))) ∧
    (∀ (index : Nat) u, s.reducers[index]? = some u →
      let f := s.forme u.forme
      let first := u.ordered = false ∨ (∀ v ∈ s.reducers, v.forme = u.forme → v.addr = u.addr → u.j ≤ v.j) ∧
        (f.ending = true ∨ ∀ n, n < f.tilesTotal → n < u.j / 64 → 8 * n ∈ f.doneTiles)
      let row : CodeRow := { d := (f.plans.getD 0 {}).d 2, a0 := u.col, i1 := u.row, codes := s.updateCodes u }
      let v := State.performUpdate { s with reducers := s.reducers.eraseIdx index } u
      (first → s.writeHeld u.part u.place.2 = false → exec (.reducerUpdate index) s = .next ((if row.d.zmap then
        ((v.modForme u.forme fun y => { y with zeros := row.mark y.zeros }).writeZmap u.forme
          { part := u.part, core := none, who := .forme u.forme } row.blocks).1 else v).tryEnd u.forme)) ∧
      (¬ first ∨ s.writeHeld u.part u.place.2 = true → exec (.reducerUpdate index) s = .next s)) ∧
    (∀ p : Fin 8,
      (∀ y, (s.camb p).spills.find? (fun y => s.cambPick (s.lead p + y.unit) == some 1) = some y →
        exec (.arenaSpillDone p) s = .next ((s.cambGrant (s.lead p + y.unit) 1).endSpill p y).endFormes) ∧
      ((∀ y ∈ (s.camb p).spills, s.cambPick (s.lead p + y.unit) ≠ some 1) → exec (.arenaSpillDone p) s = .next s.endFormes))

/-- Proofing (R207 to R211): the time rule marks a core that has issued and has not proofed for 20 ms; a tile begun with the count
at RATE is proofed and resets the count; a proof ends once the tile has its chunks: one whose sampled columns all agree counts in
PROOFS only, and the first column that does not is the mismatch's. -/
def Obligations.Proofing : Prop :=
  ∀ (s : State) (c : Fin 256) (i : Nat),
    let x := s.core c
    (s.active (s.corePart c) = true → x.issuedSince = true → x.lastProof + 20000000 ≤ s.power.time →
      exec (.proofTimeTrigger c) s = .next (s.modCore c fun y => { y with proofDue := true })) ∧
    (s.power.time < x.lastProof + 20000000 → exec (.proofTimeTrigger c) s = .next s) ∧
    (let rate := s.f (Pg.core c) F.CORE_RATE
     (x.proofDue = true ∨ rate ≠ 0 ∧ rate ≤ x.sinceProof + 1) → (s.proofCount c).2 = some (s.proofNow c) ∧
        ((s.proofCount c).1.core c).sinceProof = 0 ∧ ((s.proofCount c).1.core c).proofDue = false) ∧
    (x.proofDue = false → s.f (Pg.core c) F.CORE_RATE = 0 → (s.proofCount c).2 = none) ∧
    (∀ t pr upset, s.tiles.find? (fun t => t.core == c.val && t.forme == i && t.proof.isSome) = some t → t.proof = some pr →
      let f := s.forme i
      let p := f.planOf t
      let a := p.tileArea f t.index
      let sm := proofSample pr.num a.2.2.1 a.2.2.2
      let done := (s.modTile c i t.code fun t => { t with proof := none }).incF (Pg.core c) F.CORE_PROOFS
      let upsets := upset.map fun y => (y.1, y.2.toNat)
      (t.chunks < p.chunkCount f → exec (.proofComplete c i upset) s = .next s) ∧
      (p.chunkCount f ≤ t.chunks → (∀ k < sm.2.2, s.proofCheck c t pr upsets k = none) →
        exec (.proofComplete c i upset) s = .next done) ∧
      (p.chunkCount f ≤ t.chunks → ∀ k n v, k < sm.2.2 → s.proofCheck c t pr upsets k = some (n, v) →
        (∀ j < k, s.proofCheck c t pr upsets j = none) →
        exec (.proofComplete c i upset) s =
          .next (done.proofMismatch c pr.ring f p (a.1 + sm.1 + p.m * (if f.opcode ≤ 0x03 then (p.area t.index).1 else 0)) n v)))

/-! ### The update engine (ch. 10) -/

/-- The gradient blocks of an update (R270, R275 to R278): a block of the armed table reaches a unit that has a free slot and
waits there; it is applied when the unit's arbiter grants it, never while writes of an earlier block with its entry and index
wait; its slot is free when its last write is accepted, and the commit follows the last; a block that the armed update does not take is
counted as an overrun, which the update keeps and CAMB_SHARD_OVERRUN shows, and one that comes with none armed is counted. -/
def Obligations.GradientBlocks : Prop :=
  ∀ (s : State) (unit : Fin 16),
    (∀ i b, s.streamNext unit = some (i, b) → (s.camb b.part).held unit < 512 →
      exec (.cambBlockArrive unit) s = .next (State.blockArrives { s with stream := s.stream.eraseIdx i } b)) ∧
    (∀ i b, s.streamNext unit = some (i, b) → 512 ≤ (s.camb b.part).held unit → exec (.cambBlockArrive unit) s = .next s) ∧
    (∀ b u e, (s.camb b.part).upd = some u → u.entries[b.entry]? = some e → 64 * b.block < e.elems → e.received < e.elems →
      ((s.blockArrives b).camb b.part).intake =
        (s.camb b.part).intake ++ [(s.blockUnit b, { b with since := s.power.time })]) ∧
    (∀ b, (s.camb b.part).upd = none → s.blockArrives b = s.satF (Pg.camb (s.blockUnit b)) F.CAMB_OVERRUN) ∧
    (∀ b u, (s.camb b.part).upd = some u →
      (∀ e, u.entries[b.entry]? = some e → e.elems ≤ 64 * b.block ∨ e.elems ≤ e.received) →
      s.blockArrives b = ((s.satF (Pg.camb (s.blockUnit b)) F.CAMB_OVERRUN).modCamb b.part fun c =>
        { c with upd := some { u with overrun := true } }).event (Pg.camb (s.blockUnit b)) Ev.CAMB_SHARD_OVERRUN) ∧
    (let p := s.unitPart unit
     ∀ b u e, (s.camb p).nextBlock unit = some b → (s.camb p).upd = some u → u.entries[b.entry]? = some e →
      (s.cambPick unit = some 0 → exec (.cambBlockApply unit) s =
        .next (((s.cambGrant unit 0).applyBlock unit b u e).modCamb p fun c => { c with intake := markApplied unit c.intake })) ∧
      (s.cambPick unit ≠ some 0 → exec (.cambBlockApply unit) s = .next s) ∧
      (s.blockHeld unit b = true → s.cambPick unit ≠ some 0) ∧
      (s.blockHeld unit b = false → (s.camb p).spills = [] → s.cambPick unit = some 0)) ∧
    (let p := s.unitPart unit
     ∀ i, (s.camb p).intake.findIdx? (fun x => x.1 == unit.val && x.2.applied && !s.blockHeld unit x.2) = some i →
      let s' := (s.modCamb p fun c => { c with intake := c.intake.eraseIdx i }).showIntake p unit
      (s'.camb p).intake = (s.camb p).intake.eraseIdx i ∧
      exec (.cambBlockWritten unit) s = .next (if s'.commitReady p then s'.beginCommit p else s'))

/-- The end of an update (R275, R291): the norm's scalar all-reduce gives the commit; an update that is not full at its timeout is
aborted with its forme; an armed update that is not committing is aborted by an ABORT. -/
def Obligations.UpdateEnds : Prop :=
  ∀ (s : State) (p : Fin 8),
    (∀ c v, s.normResult p = some (c, v) → exec (.normAllreduceDone p) s = .next ((s.endColl c 0).commit p v)) ∧
    (∀ u, (s.camb p).upd = some u → u.full = false → u.since + u.timeout ≤ s.power.time →
      exec (.updateTimeout p) s = .next (s.abortUpdate p)) ∧
    (∀ u, (s.camb p).upd = some u → (u.full = true ∨ s.power.time < u.since + u.timeout) →
      exec (.updateTimeout p) s = .next s) ∧
    (∀ u, (s.camb p).upd = some u → u.committing = true → s.abortUpdate p = s) ∧
    (∀ u, (s.camb p).upd = some u → u.committing = false → s.abortUpdate p =
      (((s.modForme u.forme fun x => { x with tilesTotal := u.blocks, tilesDone := u.applied }).disarm p).endForme u.forme 0x2D).event (s.leadPage p)
        Ev.CAMB_UPDATE_ABORTED)

/-! ### Generation (ch. 11) -/

/-- The table engine serves the entries of its front forme in order (R318 to R323): each operation answers the entry's result;
ADMIT that finds too few blocks sets KV_NO_BLOCKS; SCHEDULE comes after the batch boundary; ADVANCE of a sequence in the batch
with rows in flight waits, and goes on when it is resumed. -/
def Obligations.DecodeRequests : Prop :=
  ∀ (s : State) (p : Fin 8) (i n : Nat) (b : List Byte), s.kvServes p i n b → (s.forme i).opcode = 0x18 →
    let v := (s.forme i).variant % 4
    let q := s.kvSeq p (ofBytes (b.take 4) % 4096)
    let t := s.kvArm p
    (v = 0 → exec (.kvAdmit p) s = .next ((match t.admitEntry p b with
      | .error (.code c) => if c == kvNoBlocks then t.event (Pg.kv p) Ev.KV_KV_NO_BLOCKS else t
      | _ => t).kvAnswer p i b (t.admitEntry p b))) ∧
    (v = 1 → exec (.schedule p) s = .next ((t.batchBoundary p).kvAnswer p i b ((t.batchBoundary p).scheduleEntry p b))) ∧
    (v = 2 → q.st = 1 → q.inBatch = true → q.busy ≠ 0 →
      exec (.advance p) s = .next (t.modKv p fun k => { k with advWaits := true })) ∧
    (v = 2 → (q.st ≠ 1 ∨ q.inBatch = false ∨ q.busy = 0) →
      exec (.advance p) s = .next (t.kvAnswer p i b (t.advanceEntry p b))) ∧
    (v = 3 → exec (.release p) s = .next (t.kvAnswer p i b (t.releaseEntry p b))) ∧
    (∀ s' : State, (s'.kv p).advWaits = true → (s'.modKv p fun k => { k with advWaits := false }) = s → v = 2 → q.busy = 0 →
      exec (.advanceResume p) s' = .next (t.kvAnswer p i b (t.advanceEntry p b)))

/-- Swaps (R332 to R335): the automatic and the named swap-outs and swap-ins answer their entries; a copy that completes has moved every
block of the sequence that is not yet where it goes, out of the pool with its reference given up and its entry marked, or into its
block again; it makes the sequence SWAPPED or ACTIVE, counts, and tells the ring, or acts as the RELEASE that waits for it (R308,
R323); where a read of it fails so that the partition stops, the fault is recorded instead. -/
def Obligations.Swaps : Prop :=
  ∀ (s : State) (p : Fin 8),
    (∀ i n b, s.kvServes p i n b → (s.forme i).opcode = 0x19 →
      let v := (s.forme i).variant % 4
      let t := s.kvArm p
      (v = 0 → exec (.outAuto p) s = .next (t.kvAnswer p i b (t.outAuto p i))) ∧
      (v = 1 → exec (.inAuto p) s = .next (t.kvAnswer p i b (t.inAuto p i))) ∧
      (v = 2 → exec (.outSeq p) s = .next (t.kvAnswer p i b (t.outSeqEntry p i b))) ∧
      (v = 3 → exec (.inSeq p) s = .next (t.kvAnswer p i b (t.inSeqEntry p i b)))) ∧
    (∀ (q : BitVec 12) c, (s.kv p).copies.find? (fun c => c.seq == q.toNat && c.out) = some c →
      (∀ f, s.copyStops p (s.kvSeq p q.toNat) true = some f → exec (.swapOutDone p q) s = .next (s.faultRecord p (kvUnit p) f.2 f.1)) ∧
      (s.copyStops p (s.kvSeq p q.toNat) true = none → exec (.swapOutDone p q) s =
        .next (State.endCopy ((s.copyJobs p (s.kvSeq p q.toNat) true).foldl (fun v j =>
          ((v.copyOne p (s.kvSeq p q.toNat) true j.1 j.2).modKv p fun k => k.decRef j.2).modSeq p q.toNat fun y =>
            { y with list := y.list.set j.1 (2 ^ 31) }) s) p q.toNat c F.KV_PREEMPTED 2 3))) ∧
    (∀ (q : BitVec 12) c, (s.kv p).copies.find? (fun c => c.seq == q.toNat && !c.out) = some c →
      (∀ f, s.copyStops p (s.kvSeq p q.toNat) false = some f → exec (.swapInDone p q) s = .next (s.faultRecord p (kvUnit p) f.2 f.1)) ∧
      (s.copyStops p (s.kvSeq p q.toNat) false = none → exec (.swapInDone p q) s =
        .next (State.endCopy ((s.copyJobs p (s.kvSeq p q.toNat) false).foldl (fun v j =>
          (v.copyOne p (s.kvSeq p q.toNat) false j.1 j.2).modSeq p q.toNat fun y => { y with list := y.list.set j.1 j.2 }) s)
            p q.toNat c F.KV_RESUMED 3 1))) ∧
    (∀ (q : KvSeq) j b n, n = s.kvS p →
      (s.poolFault (kvAcc p) (s.kvBlock p b) n false = none → s.copyOne p q true j b =
        (s.storeRec p (kvUnit p) none (q.swap + j * n) (s.rdBytes (kvAcc p) (s.kvBlock p b) n)).1) ∧
      (s.firstFault (kvAcc p) [(q.swap + j * n, n)] false = none → s.poolFault (kvAcc p) (s.kvBlock p b) n true = none →
        s.copyOne p q false j b = (s.storeRec p (kvUnit p) none (s.kvBlock p b) (s.rdBytes (kvAcc p) (q.swap + j * n) n)).1)) ∧
    (∀ n c counter kind st, (s.kvSeq p n).cancel = true →
      let u := s.modKv p fun k => { k with copies := k.copies.filter fun d => !(d.seq == n && d.out == c.out) }
      s.endCopy p n c counter kind st = (u.releaseSeq p n 0x80).kvFinish p c.forme) ∧
    ∀ n c counter kind st, (s.kvSeq p n).cancel = false →
      let u := s.modKv p fun k => { k with copies := k.copies.filter fun d => !(d.seq == n && d.out == c.out) }
      let v := (u.modSeq p n fun q => { q with st := st }).incF (Pg.kv p) counter
      s.endCopy p n c counter kind st = (v.ringWrite p n [v.ringEvent p n kind 0]).kvFinish p c.forme

/-- The prefix tree's operations and the budgets' (R330, R341): each entry is served by its OP; a budget SET gives the account its
balance, rate, cap and HARD with REM and CHARGED 0, an ADD adds to the balance, a READ writes the account's record, and an account out
of range is BAD_ACCOUNT. -/
def Obligations.PrefixesAndBudgets : Prop :=
  ∀ (s : State) (p : Fin 8) (i n : Nat) (b : List Byte), s.kvServes p i n b →
    let op := ofBytes (b.take 4) % 4
    let a := ofBytes (b.take 4) / 2 ^ 16 % 2 ^ 16
    let t := s.kvArm p
    ((s.forme i).opcode = 0x1A →
      (op = 0 → exec (.prefixLookup p) s = .next (t.kvAnswer p i b (t.prefixEntry p 0 b))) ∧
      (op = 1 → exec (.handleOf p) s = .next (t.kvAnswer p i b (t.prefixEntry p 1 b))) ∧
      (op = 2 → exec (.evict p) s = .next (t.kvAnswer p i b (t.prefixEntry p 2 b))) ∧
      (op = 3 → exec (.trim p) s = .next (t.kvAnswer p i b (t.prefixEntry p 3 b)))) ∧
    ((s.forme i).opcode = 0x1B → s.hostStops.contains p.val = false →
      (op = 0 → a < s.kvAccounts → exec (.budgetSet p) s = .next ((t.modKv p fun k => { k with
        accounts := AMap.put a { balance := satBalance (sx 32 (fieldAt b 4 4)), rate := fieldAt b 8 4, cap := sx 32 (fieldAt b 12 4)
                                 hard := bit (fieldAt b 16 4) 0 } k.accounts }).kvResult p i 0 0 0 0)) ∧
      (op = 1 → a < s.kvAccounts → exec (.budgetAdd p) s = .next ((t.modKv p fun k => { k with
        accounts := AMap.put a { AMap.getD a {} (t.kv p).accounts with
          balance := satBalance ((AMap.getD a {} (t.kv p).accounts).balance + sx 32 (fieldAt b 4 4)) } k.accounts }).kvResult
            p i 0 0 0 0)) ∧
      (op = 2 → a < s.kvAccounts → ∀ s', t.kvWrite p (fieldAt b 8 8) (AMap.getD a {} (t.kv p).accounts).bytes = .ok s' →
        s'.hostStops = s.hostStops → exec (.budgetRead p) s = .next (s'.kvResult p i 0 0 0 0)) ∧
      (s.kvAccounts ≤ a → (op = 0 → exec (.budgetSet p) s = .next (t.kvResult p i kvAccount 0 0 0)) ∧
        (op = 1 → exec (.budgetAdd p) s = .next (t.kvResult p i kvAccount 0 0 0)) ∧
        (op = 2 → exec (.budgetRead p) s = .next (t.kvResult p i kvAccount 0 0 0))))

/-- The refill of R340: every account of an active partition in GENERATE gains RATE thousandths, the remainder carried, up to CAP;
in the other overlays nothing is refilled. A tick comes after what has reached the table engine before it (R301). A vector whose
oldest unsignalled ring entry is DELAY_US old is signalled (R338). -/
def Obligations.RefillsAndRingDelays : Prop :=
  ∀ (s : State) (p : Fin 8),
    (s.active p = true → (s.part p).overlay = .generate → (s.kv p).queue = [] → ∃ u, exec (.budgetRefillTick p) s = .next u ∧
      (∀ n a, AMap.get? n (s.kv p).accounts = some a → ∃ a', AMap.get? n (u.kv p).accounts = some a' ∧
        a'.rem = (a.rate + a.rem) % 1000 ∧ a'.rate = a.rate ∧ a'.cap = a.cap ∧ a'.hard = a.hard ∧ a'.charged = a.charged ∧
        (a.balance < a.cap → a'.balance = min a.cap (a.balance + ((a.rate + a.rem) / 1000 : Nat))) ∧
        (a.cap ≤ a.balance → a'.balance = a.balance)) ∧
      u.mem = s.mem ∧ u.regs = s.regs) ∧
    (∀ i n b, s.kvServes p i n b → (s.part p).overlay = .generate →
      exec (.budgetRefillTick p) s = .next (s.modKv p fun k => { k with queue := k.queue ++ [.refill] })) ∧
    ((s.part p).overlay ≠ .generate → exec (.budgetRefillTick p) s = .next s) ∧
    (∀ (vec : BitVec 8) r, AMap.get? vec.toNat (s.kv p).rings = some r → r.1 ≠ 0 →
      r.2 + 1000 * max 1 (s.f (Pg.kv p) F.KV_DELAY_US) ≤ s.power.time →
      exec (.ringIrqDelay p vec) s = .next (s.interrupt (p + 1) vec.toNat)) ∧
    (∀ (vec : BitVec 8) r, AMap.get? vec.toNat (s.kv p).rings = some r →
      (r.1 = 0 ∨ s.power.time < r.2 + 1000 * max 1 (s.f (Pg.kv p) F.KV_DELAY_US)) → exec (.ringIrqDelay p vec) s = .next s)

/-! ### Overlay switches (ch. 12) -/

/-- A switch (R350 to R361): a drained partition crosses its mode boundary, to the barrier of its plan or to the rise; a barrier
that all have met lets the plan move; a plan whose moves and receptions are complete ends with 0, one past its time limit with
PLAN_TIMEOUT (0x42). -/
def Obligations.SwitchesAndPlans : Prop :=
  ∀ (s : State) (p : Fin 8),
    (s.drained p = true → let t := s.modeBoundary p (s.sw p).target
      exec (.drainComplete p) s = .next (if (t.sw p).plan.isSome then t.enterBarrier p else t.rise p)) ∧
    (s.drained p = false → exec (.drainComplete p) s = .next s) ∧
    (∀ c, s.canopy.colls.find? (fun c => c.part == p.val && c.scalar && c.purpose == 1 && c.result.isSome) = some c →
      ((s.endColl c 0).sw p).st = 2 →
      exec (.planBarrierComplete p) s = .next (((s.endColl c 0).modSw p fun x => { x with st := 3 }).planPump p)) ∧
    (s.planDone p = true → exec (.planComplete p) s = .next (s.endPlan p 0)) ∧
    (s.planDone p = false → exec (.planComplete p) s = .next s) ∧
    (∀ y, (s.sw p).plan = some y → ((s.sw p).st = 2 ∨ (s.sw p).st = 3) → y.since + y.limit ≤ s.power.time →
      exec (.planTimeout p) s = .next (s.endPlan p 0x42)) ∧
    (∀ y, (s.sw p).plan = some y → s.power.time < y.since + y.limit → exec (.planTimeout p) s = .next s)

/-! ### Media intake (ch. 13) -/

/-- Jobs and engines of the intake (R373 to R387, R397, R398): a ready job is taken; an idle engine takes the waiting unit that R397 gives
it, a decoder with a pool frame for what it begins, or drops a stale picture, or rejects a sample whose data cannot be read; the header
of a stream is checked, and it asks for its frames, or its sample is rejected with the check's code. -/
def Obligations.IntakeJobsAndStreams : Prop :=
  ∀ (s : State) (p : Fin 8) (j : Nat),
    (s.jobReady p = true → exec (.intakeJobTake p) s = .next ((s.takeJob p).applyIntkIdle 0)) ∧
    (s.jobReady p = false → exec (.intakeJobTake p) s = .next s) ∧
    (∀ (e : Fin 35) (isRef : Bool),
      ((e = 0 ∨ (AMap.get? e.val s.engines).isSome = true ∨ s.f (Pg.intk e) F.INTKE_DISABLE = 1 ∨ s.grantChoice (engineKind e) = none) →
        exec (.engineGrant e isRef) s = .next s) ∧
      ∀ q k n x t, e ≠ 0 → AMap.get? e.val s.engines = none → s.f (Pg.intk e) F.INTKE_DISABLE ≠ 1 →
        s.grantChoice (engineKind e) = some (q, k, n) → s.streams q k n x t →
        (5 ≤ engineKind e → exec (.engineGrant e isRef) s =
          .next (if s.dropsAtEnd x t then s.staleSample q k false else s.putEngine e q k n x.cls)) ∧
        (engineKind e ≤ 4 → s.dropsAtStart x t isRef = true → exec (.engineGrant e isRef) s = .next (s.staleSample q k true)) ∧
        (engineKind e ≤ 4 → s.dropsAtStart x t isRef = false →
          (∀ f, s.firstFault (intkAcc q e) [(t.data, t.len)] false = some f →
            exec (.engineGrant e isRef) s = .next (s.sampleFault q k n e f)) ∧
          (s.firstFault (intkAcc q e) [(t.data, t.len)] false = none → exec (.engineGrant e isRef) s =
            .next (((if t.begun = 0 then s.allocFrame q k n else s).putEngine e q k n x.cls).modStream q k n fun y =>
              { y with begun := y.begun + 1 })))) ∧
    (∀ x t h, s.job? p j = some x → x.unstarted = some t →
      (t.len = 0 → exec (.frameReserve p j h) s =
        .next (if x.live && t.ends then s.endSample p j else s.rejectSample p j t.no 0x53)) ∧
      (t.len ≠ 0 → ∀ f, s.firstFault (intkAcc p 0) [(t.data, t.len)] false = some f →
        exec (.frameReserve p j h) s = .next (s.sampleFault p j t.no 0 f)) ∧
      (t.len ≠ 0 → s.firstFault (intkAcc p 0) [(t.data, t.len)] false = none →
        (s.headerRejects p x t h = none → exec (.frameReserve p j h) s =
          .next (((s.modStream p j t.no fun y => { y with header := some h, since := s.power.time }).servePool p).beginSample p j)) ∧
        (∀ st, s.headerRejects p x t h = some st → exec (.frameReserve p j h) s = .next (s.rejectSample p j t.no st))))

/-- Units, budgets, post-processing, samples and batches of the intake (R377, R381 to R400): a decoded unit is counted and kept, or its
sample rejected where the unit's own header shows cause; a part of one is added to what its picture has cost, and one past its budget
abandons the sample; the post-processor and the front end work on the next frame of the job's first sample, or copy it from the cache; a
job takes its next sample when one is there, a slot is free and the partition is not in SERVICE, and is closed after its last; a full
batch whose writes are accepted is recorded, and delivered once the record is accepted too. -/
def Obligations.IntakeUnitsAndBatches : Prop :=
  ∀ (s : State) (p : Fin 8) (j : Nat),
    (∀ (e : Fin 35) (u : DecodedUnit) q k n x t h0, AMap.get? e.val s.engines = some (q, k, n) → s.streams q k n x t →
      t.header = some h0 → engineKind e ≤ 4 →
      let h := u.header.getD h0
      let work := unitWork x.audio h u
      let cycles := t.partVclk + u.cycles
      let v := (s.freeEngine e u.cycles).incF (Pg.intk e) F.INTKE_DAMAGED u.damage.length
      (x.overBudget t cycles work = true → exec (.decodeUnitDone e u) s = .next (s.abandonSample e q k t.no u.cycles)) ∧
      (x.overBudget t cycles work = false → s.decoders q k t.no ≠ 1 → exec (.decodeUnitDone e u) s =
        .next ((v.modStream q k t.no fun y =>
          { y with partVclk := cycles, damage := y.damage ++ u.damage, since := v.power.time }).applyIntkIdle e)) ∧
      (x.overBudget t cycles work = false → s.decoders q k t.no = 1 →
        (∀ st, u.header.isSome = true → v.headerRejects q x t h = some st →
          exec (.decodeUnitDone e u) s = .next ((v.rejectSample q k t.no st).applyIntkIdle e)) ∧
        (u.header = none ∨ v.headerRejects q x t h = none →
          let t' := { t with
            header := some h, spent := t.spent + cycles, begun := 0, partVclk := 0
            costs := if work == 0 then t.costs else t.costs ++ [(cycles, work)] }
          let v' := v.modStream q k t.no fun _ => t'
          exec (.decodeUnitDone e u) s = .next (((if x.audio then v'.soundDone q k t.no e x t' h u
            else v'.pictureDone q k t.no e x t' h u).servePool q).applyIntkIdle e)))) ∧
    (∀ (e : Fin 35) (cycles samples : Nat) q k n x t h, AMap.get? e.val s.engines = some (q, k, n) → s.streams q k n x t →
      t.header = some h → engineKind e ≤ 4 → exec (.decodeBudgetExceeded e cycles samples) s =
        .next (if x.overBudget t (t.partVclk + cycles) (if x.audio then samples else h.width * h.height)
          then s.abandonSample e q k t.no cycles else s)) ∧
    (∀ (cycles e n : Nat) x t rest,
      s.engines.find? (fun e => e.2.1 == p.val && e.2.2.1 == j && 5 ≤ engineKind e.1) = some (e, (p.val, j, n)) →
      s.job? p j = some x → x.streams = t :: rest →
      let v := s.freeEngine e cycles
      (∀ hit, t.hit = some hit → exec (.postprocessFrame p j cycles) s = .next ((if v.hitStands p x t hit
        then v.copyCached p x t hit.1 hit.2 else v.modStream p j t.no fun y => { y with hit := none }).applyIntkIdle e)) ∧
      (∀ h f, t.hit = none → t.header = some h → t.nextOut = some f → exec (.postprocessFrame p j cycles) s =
        .next ((if x.audio then v.postChunk p j e x t f h else v.postPicture p j e x t f h).applyIntkIdle e))) ∧
    (∀ i x, i ∈ [Instr.liveSampleAvailable p j, .batchSlotFreed p j] → s.job? p j = some x →
      let held := (s.part p).overlay == .service
      let done := x.noMore || (!x.live && x.samples ≤ x.taken)
      let index := if x.ordered then x.order.getD x.taken 0 else x.taken
      let a := if x.live then x.listAt + 32 * (x.taken % 2 ^ x.listLog2) else x.listAt + 32 * index
      let there := !x.live || 0 < sx 32 ((s.value (s.devCtr p x.listCtr) + 2 ^ 32 - x.taken % 2 ^ 32) % 2 ^ 32)
      (x.closed = true ∨ s.active p = false → exec i s = .next s) ∧
      (x.closed = false → s.active p = true → done = true → exec i s =
        .next (if x.streams.isEmpty && !(held && x.padding != 0) then s.closeJob p x else s)) ∧
      (x.closed = false → s.active p = true → done = false → (held = true ∨ x.mayBegin = false ∨ s.slotFree p x = false ∨ there = false) →
        exec i s = .next s) ∧
      (∀ e, x.closed = false → s.active p = true → done = false → held = false → x.mayBegin = true → s.slotFree p x = true →
        there = true → s.rd? (intkAcc p 0) (a % 2 ^ 64) 32 = .ok e →
        let t0 : IntkStream := { no := x.taken, index := index % 2 ^ 32, entry := e, since := s.power.time }
        let t : IntkStream := { t0 with hit := (s.lookup p x t0).map fun k => (k.off, k.len) }
        let begins (t : IntkStream) : State :=
          (s.modJob p j fun y => { y with streams := y.streams ++ [t], carry := none, taken := y.taken + 1 }).servePool p
        (x.carry = none → exec i s = .next (begins t)) ∧
        ∀ c, x.carry = some c → exec i s = .next (begins (if c.codec = t.codec ∧ t.len ≠ 0
          then { t with header := c.header, reserved := c.reserved, frames := c.frames, recent := c.recent, nextNum := c.nextNum }
          else t)))) ∧
    (∀ x, s.job? p j = some x →
      let last := x.closed && (x.delivered + 1) * x.batch == x.pos
      let delivers (v : State) : State :=
        let v := ((v.opAdd (s.devCtr p x.doneCtr) 1).incF (Pg.intk 0) F.INTK0_BATCHES).modJob p j fun y =>
          { y with
            delivered := x.delivered + 1, recorded := false, rejected := AMap.del x.delivered y.rejected
            logged := AMap.del x.delivered y.logged
            entries := AMap.drop (x.delivered * y.batch) ((x.delivered + 1) * y.batch) y.entries }
        let v := if last then v.dropJob p j else v
        if v.requested (Pg.intk 0) then v.applyIntake else v
      (s.batchReady p x = false → exec (.batchDeliver p j) s = .next s) ∧
      (s.batchReady p x = true → x.recorded = true → exec (.batchDeliver p j) s = .next (delivers s)) ∧
      (∀ v, s.batchReady p x = true → x.recorded = false → s.recordBatch p j x last = (v, none) →
        exec (.batchDeliver p j) s = .next (if v.intakeWrites p then v else delivers v)))

/-! ### The canopy (ch. 14) -/

/-- The states of a link that its port makes (R408, R409, R412, R424): a signal, a converged training, a lock, a retraining
condition that holds and the end of a retraining each move it to the next state, the middle three touching no other link; a signal
also leaves TYPE and LENGTH_DM; the time limits take it to FAILED, and the hold-off from there to DETECT; before that, and in another
state, the events change nothing. -/
def Obligations.LinkStates : Prop :=
  ∀ (s : State) (l : Fin 36) (cable : BitVec 4) (dm : BitVec 16) (why : Fin 4), s.linkMade l = true →
    let x := s.link l
    let moves (st next : Nat) (i : Instr) : Prop :=
      (x.st = st → ∃ u, exec i s = .next u ∧ (u.link l).st = next ∧ (u.link l).since = s.power.time ∧ u.mem = s.mem ∧
        ∀ k, k ≠ l.val → u.link k = s.link k) ∧
      (x.st ≠ st → exec i s = .next s)
    let expires (st ns : Nat) (i : Instr) : Prop :=
      (x.st = st → x.since + ns ≤ s.power.time → exec i s = .next (s.linkFail l) ∧ ((s.linkFail l).link l).st = 7) ∧
      (x.st ≠ st ∨ s.power.time < x.since + ns → exec i s = .next s)
    let holds : Prop := (why = 0 ∧ (8 ≤ x.nakCount ∨ 8 ≤ x.nakedCount)) ∨ (why = 1 ∧ ∃ t, x.full = some t ∧ t + 100000 ≤ s.power.time) ∨
      why = 2 ∨ (why = 3 ∧ 1000 < s.wordsBad l)
    moves 2 3 (.linkTrainConverged l) ∧ moves 3 4 (.linkAlignLock l) ∧ (holds → moves 5 6 (.retrainCondition l why)) ∧
    (¬ holds → exec (.retrainCondition l why) s = .next s) ∧
    (x.st = 1 ∨ (x.st = 0 ∧ s.f (portPage l) F.CNPYP_EN = 1) → exec (.linkSignalDetect l cable dm) s =
      .next (((s.setF (portPage l) F.CNPYP_TYPE cable.toNat).setF (portPage l) F.CNPYP_LENGTH_DM dm.toNat).setLinkSt l 2)) ∧
    (x.st ≠ 1 → (x.st ≠ 0 ∨ s.f (portPage l) F.CNPYP_EN ≠ 1) → exec (.linkSignalDetect l cable dm) s = .next s) ∧
    (x.st = 6 → exec (.retrainRegained l) s = .next (((s.setLinkSt l 5).resend l x.replay).drain l) ∧
      (((((s.setLinkSt l 5).resend l x.replay).drain l).link l).st = 5)) ∧
    (x.st ≠ 6 → exec (.retrainRegained l) s = .next s) ∧
    expires 2 100000000 (.linkTrainTimeout l) ∧ expires 3 10000000 (.linkAlignTimeout l) ∧ expires 4 1000000 (.handshakeTimeout l) ∧
    expires 6 50000000 (.retrainTimeout l) ∧
    (x.st = 7 → x.since + 1000000000 ≤ s.power.time → exec (.linkFailedHoldoff l) s = .next (s.setLinkSt l 1)) ∧
    (x.st ≠ 7 ∨ s.power.time < x.since + 1000000000 → exec (.linkFailedHoldoff l) s = .next s)

/-- Flits, acknowledgements and credit (R411, R412, R416): on an UP link the flit expected next is taken and counted, and a sixteenth
since the last ACK is acknowledged; a whole one of another number is discarded; one that arrives damaged is counted and answered with
NAK, and the damaged ones after it are discarded; an ACK frees the replay buffer up to its number, a NAK resends from its number; a
CREDIT gives units back to their pool; a HELLO in HANDSHAKE that agrees brings the link UP, one that does not fails it; the timers send
ACK where something is unacknowledged, and HELLO. -/
def Obligations.FlitsAndCredits : Prop :=
  ∀ (s : State) (l : Fin 36) (num : Word) (bytes : List Byte) (c : BitVec 3) (lev : BitVec 4) (n : BitVec 13) (h : Hello)
    (cw uw : BitVec 16),
    let x := s.link l
    let pg := portPage l
    let s0 := s.countWords l uw.toNat
    let x0 := s0.link l
    let fec := (s0.satF pg F.CNPYP_FEC_CORRECTED cw.toNat).satF pg F.CNPYP_FEC_UNCORR uw.toNat
    let y : Link := { x0 with rxNum := (x.rxNum + 1) % 2 ^ 32, discarding := false, unacked := x.unacked + 1, nakedCount := 0 }
    let taken := (fec.setLink l y).incF2 pg F.CNPYP_FLITS_RX ⟨0x03C, 0, 32⟩
    let damaged := fec.satF pg F.CNPYP_CRC_ERRORS
    (x.st = 5 →
      (flitWhole bytes = true → num.toNat = x.rxNum → exec (.flitReceive l num bytes cw uw) s = .next
        (if 16 ≤ x.unacked + 1 then (taken.setLink l { y with unacked := 0 }).sendLink l (linkPkt 0xC num.toNat) else taken)) ∧
      (flitWhole bytes = true → num.toNat ≠ x.rxNum → exec (.flitReceive l num bytes cw uw) s = .next fec) ∧
      (flitWhole bytes = false → x.discarding = true → num.toNat ≠ x.rxNum →
        exec (.flitReceive l num bytes cw uw) s = .next damaged) ∧
      (flitWhole bytes = false → (x.discarding = false ∨ num.toNat = x.rxNum) → exec (.flitReceive l num bytes cw uw) s = .next
        ((damaged.setLink l { x0 with
          discarding := true, nakedNum := x.rxNum, nakedCount := if x.nakedNum = x.rxNum then x.nakedCount + 1 else 1 }).sendLink l
            (linkPkt 0xD x.rxNum))) ∧
      (x.unacked ≠ 0 → exec (.ackTimer l) s =
        .next ((s.setLink l { x with unacked := 0 }).sendLink l (linkPkt 0xC ((x.rxNum + 2 ^ 32 - 1) % 2 ^ 32)))) ∧
      (x.unacked = 0 → exec (.ackTimer l) s = .next s) ∧
      exec (.helloTimer l) s = .next (s.sendLink l (s.helloBytes l)) ∧
      exec (.nak l num) s = .next (((s.setLink l { x with
        nakNum := num.toNat, nakCount := if x.nakNum = num.toNat then x.nakCount + 1 else 1 }).satF pg F.CNPYP_REPLAYS).resend l
          (x.replay.filter fun f => decide (0 ≤ (BitVec.ofNat 32 f.num - num).toInt)))) ∧
    (x.st = 5 ∨ x.st = 6 →
      exec (.ack l num) s = .next ((s.setLink l { s.withReplay l x
        (x.replay.filter fun f => decide (0 < (BitVec.ofNat 32 f.num - num).toInt)) with nakCount := 0 }).drain l) ∧
      exec (.credit l c lev false n) s = .next ((s.setLink l { x with
        sharedUsed := x.sharedUsed - n.toNat
        clsUsed := AMap.put c.toNat (AMap.getD c.toNat 0 x.clsUsed - n.toNat) x.clsUsed }).drain l) ∧
      exec (.credit l c lev true n) s = .next ((s.setLink l { x with
        resUsed := AMap.put (16 * c.toNat + lev.toNat) (AMap.getD (16 * c.toNat + lev.toNat) 0 x.resUsed - n.toNat) x.resUsed }).drain
          l)) ∧
    (x.st = 4 → s.linkMade l = true →
      let conflict (v : State) : State := if h.valid then v.checkConflict h.addr.toNat h.uid.toNat else v
      ((h.split.toNat = s.split (l.val / 4) ∧ h.lanes.toNat = s.lanes l) →
        exec (.hello l h) s = .next (conflict (s.linkUp l h)) ∧ ((s.linkUp l h).link l).st = 5) ∧
      (¬ (h.split.toNat = s.split (l.val / 4) ∧ h.lanes.toNat = s.lanes l) →
        exec (.hello l h) s = .next (conflict (s.linkFail l)) ∧ ((s.linkFail l).link l).st = 7))

/-- Packets that arrive (R418, R422, R426 to R428, R436 to R440): one for the device's own address is served and its buffer units
go back; one for another device goes on at a level one higher, or is counted where it has no route or the level is 15; a device without
an address serves none and counts requests as refused; a request whose context does not accept it is refused with STATUS 1, an accepted
read answers the bytes, or the fault's STATUS, and an accepted write stores them; a response completes the request that it names; a
collective packet goes to its collective. -/
def Obligations.PacketsArrive : Prop :=
  ∀ (s : State) (l : Fin 36) (p : Packet) (e : ReadErrors),
    let serves (kind : BitVec 4) (i : Option (Fin 36) → Instr) (g : State → State) : Prop := p.kind = kind →
      ((s.link l).st = 5 → s.ownAddr = some p.dst.toNat → exec (i (some l)) s = .next ((g s).giveCredit l p p.level p.pool)) ∧
      (s.canopy.loop.contains p = true → exec (i none) s =
        .next (g { s with canopy := { s.canopy with loop := s.canopy.loop.erase p } })) ∧
      ((s.link l).st = 5 → ∀ a, s.ownAddr = some a → a ≠ p.dst.toNat → p.level ≠ 15 →
        (∀ k, s.routeLink p.dst.toNat p.cls.toNat = some k → exec (i (some l)) s = .next (s.sendFrom k
          { pkt := { p with level := p.level + 1 }, since := s.power.time, src := some (l.val, p.level, p.pool) })) ∧
        (s.routeLink p.dst.toNat p.cls.toNat = none → exec (i (some l)) s =
          .next (((s.satF (portPage l) F.CNPYP_UNROUTABLE).event (portPage l) Ev.CNPYP_UNROUTABLE).giveCredit l p p.level p.pool))) ∧
      ((s.link l).st = 5 → ∀ a, s.ownAddr = some a → a ≠ p.dst.toNat → p.level = 15 → exec (i (some l)) s =
        .next (((s.satF (portPage l) F.CNPYP_HOP_LIMIT).event (portPage l) Ev.CNPYP_HOP_LIMIT).giveCredit l p p.level p.pool)) ∧
      ((s.link l).st = 5 → s.ownAddr = none → exec (i (some l)) s =
        .next ((if kind = 1 ∨ kind = 2 then s.ctxRefused else s).giveCredit l p p.level p.pool)) ∧
      ((s.link l).st ≠ 5 → exec (i (some l)) s = .next s)
    serves 1 (fun k => .readReq k p e) (fun s => s.readRequest p e) ∧
    serves 3 (fun k => .readRsp k p) (fun s => s.response p false) ∧
    serves 5 (fun k => .collData k p) (fun s => s.collArrives p) ∧ serves 6 (fun k => .collGrant k p) (fun s => s.collArrives p) ∧
    serves 7 (fun k => .collCtrl k p) (fun s => s.collArrives p) ∧
    (¬ (p.dstCtx = 0 ∧ p.cls = 5) → serves 2 (fun k => .writeReq k p) (fun s => s.writeRequest p)) ∧
    (p.dstCtx ≠ 0 → serves 4 (fun k => .writeRsp k p) (fun s => s.response p true)) ∧
    (s.accepts p = none → s.readRequest p e = s.ctxRefused.answer p 1 [] ∧ s.writeRequest p = s.ctxRefused.answer p 1 [] ∧
      s.response p false = s.ctxRefused ∧ s.response p true = s.ctxRefused ∧ s.collArrives p = s.ctxRefused) ∧
    (∀ k q b, s.accepts p = some (k, q) → s.isDup k p.seq.toNat = false → s.load q none (pktOff p) (32 * p.lines.toNat) = .ok b →
      e.uncorrectable = none →
      s.readRequest p e = (((s.correctedFor q e.corrected).linksFor q e.links).remember k p.seq.toNat).answer p 0 b) ∧
    (∀ k q a f, s.accepts p = some (k, q) → s.isDup k p.seq.toNat = false → s.load q none (pktOff p) (32 * p.lines.toNat) = .error (f, a) →
      s.readRequest p e = (s.faultRecord q k a f).answer p f.rsp []) ∧
    (∀ k q u, s.accepts p = some (k, q) → s.isDup k p.seq.toNat = false → p.w6 = 0 →
      ((pieces (pktOff p) p.data.length).all fun y => !s.writeHeld q (y.1 / page2M)) = true →
      s.store q none (pktOff p) p.data (.unit peerUnit) = (u, none) →
      s.writeRequest p = (u.remember k p.seq.toNat).answer p 0 []) ∧
    (∀ k q, s.accepts p = some (k, q) → s.isDup k p.seq.toNat = true →
      s.writeRequest p = (s.satF (Pg.cnpy 9) F.CNPY9_DUP_DROPPED).answer p 0 []) ∧
    (∀ k q r, s.accepts p = some (k, q) → p.status = 0 →
      s.canopy.reqs.find? (fun r => r.ctx == k && r.seq == p.seq.toNat && r.write == false && r.sent && !r.lost) = some r →
      s.response p false = (s.retire r).readCame r ((p.data.drop (r.off % 32)).take r.n)) ∧
    (∀ k q, s.accepts p = some (k, q) → s.collArrives p = (s.collSweep.collPacket k p).collSweep)

/-- Routing, election and the device's time (R419, R421, R427, R441, R443, R444): advertisements and elections of neighbours are
taken in; an election that has settled gives the address; requests and collectives past their limits end, a collective that has lost a context
before that, and one that is complete ends with status 0; the time master is the lowest address of those with MASTER set, and of all
where none has it; the master asks nobody, another device asks the parent that the time tree gives it; an answer gives OFFSET and DELAY;
the first exchange jumps device time by the offset and sets SYNCED, an offset above 1 µs jumps it, another is slewed; 100 ms without an exchange lose SYNCED. -/
def Obligations.RoutingAndTime : Prop :=
  ∀ (s : State) (l : Fin 36) (p : Packet) (masters others : List (BitVec 16)) (ctx : BitVec 12) (seq : BitVec 16) (i : Nat) (theta : Int),
    let pg := Pg.cnpy 9
    let c := s.canopy
    let heard (kind : BitVec 4) (i : Instr) (g : State) : Prop :=
      (p.kind = kind → (s.link l).st = 5 → exec i s = .next (g.giveCredit l p p.level p.pool)) ∧
      (p.kind ≠ kind ∨ (s.link l).st ≠ 5 → exec i s = .next s)
    heard 8 (.route l p) (s.routeCame l p) ∧ heard 9 (.elect l p) (s.electCame p) ∧ heard 0xB (.time l p) (s.timeCame l p) ∧
    exec .routeAdvertise s = .next s.routeTick ∧ (s.ownAddr = none → s.routeTick = s.advertise) ∧ (s.upLinks = [] → s.advertise = s) ∧
    (c.electing = true → s.autoAddr = true → s.ownAddr = none → c.electSince + 10000000 ≤ s.power.time → s.numbersInUse = [] →
      ((s.uid :: c.ids).eraseDups.filter fun i => i < s.uid).length < 256 →
      exec .electSettle s = .next (s.setF pg F.CNPY9_ADDR (s.f pg F.CNPY9_ADDR / 256 * 256 +
        ((s.uid :: c.ids).eraseDups.filter fun i => i < s.uid).length)).assigned) ∧
    (c.electing = false ∨ s.power.time < c.electSince + 10000000 → exec .electSettle s = .next s) ∧
    ((∃ r ∈ c.reqs, r.ctx = ctx.toNat ∧ r.seq = seq.toNat ∧ r.sent = true ∧ r.lost = false ∧
        r.since + 1000 * s.f pg F.CNPY9_REQ_TIMEOUT_US ≤ s.power.time) →
      exec (.reqTimeout ctx seq) s = .next (s.ctxDown ctx.toNat).sweepLost) ∧
    (∀ y, c.colls[i]? = some y →
      (y.scalar = false → s.collLost y = true →
        exec (.collTimeout i) s = .next (s.endColl y 0x4B) ∧ exec (.collectiveComplete i) s = .next (s.endColl y 0x4B)) ∧
      (y.scalar = false → s.collLost y = false → y.since + y.limit ≤ s.power.time →
        exec (.collTimeout i) s = .next ((s.event pg Ev.CNPY9_COLL_TIMEOUT).endColl y 0x4A)) ∧
      ((y.scalar = true ∨ (s.collLost y = false ∧ s.power.time < y.since + y.limit)) → exec (.collTimeout i) s = .next s) ∧
      ((y.scalar = true ∨ s.collLost y = false) →
        exec (.collectiveComplete i) s = .next (if s.collComplete y then s.endColl y 0 else s))) ∧
    (let ds := masters.map (fun a => (a.toNat, true)) ++ others.map fun a => (a.toNat, false)
      let all := (s.ownAddr.map fun a => (a, s.f pg F.CNPY9_MASTER == 1)).toList ++ ds
      let set := all.filter fun d => d.2
      let t : State := { s.setF pg F.CNPY9_IS_MASTER 0 with canopy := { c with exchange := none } }
      (∀ a, s.timeMaster ds = some a → (∃ d ∈ (if set = [] then all else set), d.1 = a) ∧
        ∀ d ∈ (if set = [] then all else set), a ≤ d.1) ∧
      (∀ a, s.ownAddr = some a → s.timeMaster ds = some a → ∃ u, exec (.timeExchange masters others) s = .next u ∧
        u.f pg F.CNPY9_IS_MASTER = 1 ∧ u.f pg F.CNPY9_HOPS = 0 ∧ u.canopy.exchange = none ∧ u.power = s.power ∧ u.mem = s.mem) ∧
      ∀ m k d, s.timeMaster ds = some m → s.ownAddr ≠ some m → t.timeParent m = some (k, d) →
        exec (.timeExchange masters others) s = .next (State.sendOn { (t.setF pg F.CNPY9_HOPS (d + 1)).setF pg F.CNPY9_PARENT_LINK k with
          canopy := { c with exchange := some (k, s.power.time) } } k (timePacket 0 s.power.time 0 0))) ∧
    (let t1 := fieldAt p.data 0 8
      let a : Int := Int.ofNat (fieldAt p.data 8 8) - Int.ofNat t1
      let b : Int := Int.ofNat s.power.time - Int.ofNat (fieldAt p.data 16 8)
      (p.w4 = 0 → s.timeCame l p = s.sendOn l (timePacket 1 t1 s.power.time s.power.time)) ∧
      (p.w4 ≠ 0 → c.exchange = some (l.val, t1) → s.timeCame l p =
        ((({ s with canopy := { c with exchange := none } } : State).setF pg F.CNPY9_OFFSET (ux 32 ((a - b).tdiv 2))).setF pg
          F.CNPY9_DELAY (ux 32 ((a + b).tdiv 2))).correctTime ((a - b).tdiv 2))) ∧
    (c.everSynced = false → (s.correctTime theta).power.time = ((s.power.time : Int) + theta).toNat ∧
      (s.correctTime theta).f pg F.CNPY9_SYNCED = 1 ∧ (s.correctTime theta).power.slew = 0) ∧
    (c.everSynced = true → theta ≤ 1000 → (s.correctTime theta).power.time = s.power.time ∧ (s.correctTime theta).power.slew = theta) ∧
    (c.everSynced = true → 1000 < theta → (s.correctTime theta).power.time = ((s.power.time : Int) + theta).toNat ∧
      (s.correctTime theta).power.slew = 0) ∧
    (s.f pg F.CNPY9_SYNCED = 1 → c.lastSync + 100000000 ≤ s.power.time →
      exec .timeSyncLoss s = .next (((s.setF pg F.CNPY9_SYNCED 0).modPower fun x => { x with slew := 0, rate := 0, rateAcc := 0 }).event pg
        Ev.CNPY9_TIME_LOST)) ∧
    (s.power.time < c.lastSync + 100000000 → exec .timeSyncLoss s = .next s)

/-! ### The host link (ch. 15) -/

/-- Submission queues (R462 to R466, R118): a doorbell within the size offers entries and one beyond it stops the queue, one of an idle
queue does nothing, and one of a function without a partition is counted; a read that fails stops the queue and a fetched entry joins
it; the entry handed on next acts by its KIND in an ACTIVE partition, ends with 0x61 in another, with 0x60 where it is malformed, with
0x62 for a START of a core and 3 for a counter that the partition does not have; a WAIT entry ends when its counter meets the target or
its timeout passes. -/
def Obligations.SubmissionQueues : Prop :=
  ∀ (s : State) (f : Fin 9) (q : Fin 16) (tail : Word) (d : List Byte),
    let x := s.sqState f q
    let bell := s.modSq f q fun y => { y with tail := tail.toNat }
    let offered := (tail - BitVec.ofNat 32 x.head).toInt
    (s.fnPresent f = true → s.sqF f q F.HOST1_EN = 1 → x.head < 2 ^ 32 →
      (0 ≤ offered ∧ offered ≤ s.sqSize f q → exec (.sqDoorbell f q tail) s = .next bell) ∧
      (offered < 0 ∨ s.sqSize f q < offered → exec (.sqDoorbell f q tail) s = .next (bell.sqStop f q))) ∧
    (s.fnPresent f = true → s.sqF f q F.HOST1_EN = 0 → exec (.sqDoorbell f q tail) s = .next s) ∧
    (s.fnPresent f = false → exec (.sqDoorbell f q tail) s = .next (s.satF Pg.dir F.DIR_COUNT)) ∧
    (s.fnReady f = true → s.sqF f q F.HOST1_EN = 1 → 1 ≤ x.offered → x.offered ≤ s.sqSize f q →
      (∀ n, exec (.sqEntryFetch f q n none) s = .next (s.sqStop f q)) ∧
      (d.length = 128 → (bit (fieldAt d 0 4) 6 = true → s.cqRoom f (s.sqF f q F.HOST1_CQ) = true) →
        ∃ u, exec (.sqEntryFetch f q 0 (some d)) s = .next u ∧ 
          (u.sqState f q).fetched = x.fetched ++ [(s.entryRef f q x.head d, d)] ∧
          (u.sqState f q).head = (x.head + 1) % 2 ^ 32)) ∧
    (∀ r b arb, s.handsOn f q r b arb →
      let p := entryPart f b
      let u := s.sqTake f q arb
      let w := fieldAt b 0 4
      let ctr := fieldAt b 4 4 % 8192
      (entryOk b = false → exec (.badEntry f q) s = .next (u.endEntry r 0x60 0)) ∧
      (entryOk b = true → s.active p = false → ∀ i, ([.sqNop f q, .sqForme f q, .sqStart f q, .sqSyncAdd f q, .sqWait f q] :
        List Instr)[w % 16]? = some i → exec i s = .next (u.endEntry r 0x61 0)) ∧
      (entryOk b = true → s.active p = true →
        (w % 16 = 0 → exec (.sqNop f q) s = .next (u.endEntry r 0 0)) ∧
        (w % 16 = 1 → exec (.sqForme f q) s = .next (u.takeForme (u.sqPlanner p b) p (w / 16 % 4) ((b.drop 0x40).take 64) (some r) none)) ∧
        (w % 16 = 2 → w / 2 ^ 8 % 2 ^ 8 < s.coresPer → (bit w 7 = true → ctr < s.ctrsPer) →
          exec (.sqStart f q) s = .next (u.startReq (u.coresPer * p + w / 2 ^ 8 % 2 ^ 8) (w / 16 % 4)
            { pc := fieldAt b 0x18 8
              args := [fieldAt b 0x20 8, fieldAt b 0x28 8, fieldAt b 0x30 8, fieldAt b 0x38 8]
              endCtr := if bit w 7 then some (u.devCtr p ctr) else none
              host := some r
              epi := none })) ∧
        (w % 16 = 2 → s.coresPer ≤ w / 2 ^ 8 % 2 ^ 8 → exec (.sqStart f q) s = .next (u.endEntry r 0x62 0)) ∧
        (w % 16 = 2 → w / 2 ^ 8 % 2 ^ 8 < s.coresPer → bit w 7 = true → s.ctrsPer ≤ ctr →
          exec (.sqStart f q) s = .next (u.endEntry r 3 0)) ∧
        (w % 16 = 4 → s.ctrsPer ≤ ctr → exec (.sqWait f q) s = .next (u.endEntry r 3 0)) ∧
        (w % 16 = 3 → exec (.sqSyncAdd f q) s =
          .next (if s.ctrsPer ≤ ctr then u.endEntry r 3 0 else (u.opAdd (u.devCtr p ctr) (sx 32 (fieldAt b 8 4))).endEntry r 0 0)) ∧
        (w % 16 = 4 → ctr < s.ctrsPer →
          let v := u.countOp (u.devCtr p ctr)
          (meets (v.value (u.devCtr p ctr)) (fieldAt b 8 4) = true → exec (.sqWait f q) s = .next (v.endEntry r 0 0)) ∧
          (meets (v.value (u.devCtr p ctr)) (fieldAt b 8 4) = false → exec (.sqWait f q) s = .next (v.modSq f q fun y =>
            { y with wait := some (r, u.devCtr p ctr, fieldAt b 8 4, v.power.kclk, 1000 * fieldAt b 0x0C 4, false) }))))) ∧
    (∀ r c t k lim, x.wait = some (r, c, t, k, lim, true) → exec (.sqWaitMet f q) s = .next (s.sqRelease f q r 0) ∧
      exec (.sqWaitTimeout f q) s = .next s) ∧
    (∀ r c t k lim, x.wait = some (r, c, t, k, lim, false) → exec (.sqWaitMet f q) s = .next s ∧
      exec (.sqWaitTimeout f q) s = .next (if lim ≠ 0 ∧ k + lim < s.power.kclk then s.sqRelease f q r 0x04 else s))

/-- Functions, completions, interrupts and windows of the host link (R454 to R459, R468, R472, R473, R90): a change of configuration
space changes what it names, and a function that may issue requests again sends what it held; before the device is ready its
configuration requests are to be retried (R34); a consumer count within what was written is taken, another is an error; the age of an
unsignalled entry signals its vector; unmasking a pending vector sends its message, and masking sends nothing; BAR2 reads and writes the
bytes that the page map finds, and a failing access is recorded and reads zeros; the windows of a function without a partition count
what they are asked. -/
def Obligations.HostFunctions : Prop :=
  ∀ (s : State) (f : Fin 9) (q : Fin 16) (head : Word) (v : BitVec 8) (off : BitVec 36) (n : BitVec 13) (d : List Byte)
    (on : Bool) (k : Fin 9) (bar : Fin 3) (addr : Dword) (pay : Fin 3) (rd tmo : Fin 6) (msg : Option (Dword × Word)),
    let c := s.cqState f q
    let w := s.bar2Addr f off.toNat
    let retry (f : Nat) : State := if s.power.phase = .up ∧ s.power.perstN = true then s.emit (.configRetry f) else s
    (s.configures = true →
      exec (.bmeChange (.bme f on)) s = .next ((s.modFn f fun x => { x with bme := on }).fnRelease f) ∧
      exec (.bmeChange (.bme f false)) s = .next (s.modFn f fun x => { x with bme := false }) ∧
      exec (.bmeChange (.vf on k)) s =
        .next ((rangeFrom 1 8).foldl (fun s f => s.fnRelease f) { s with vfEnable := on, numVfs := k.val }) ∧
      exec (.bmeChange (.vf false k)) s = .next { s with vfEnable := false, numVfs := k.val } ∧
      exec (.bmeChange (.bar f bar addr)) s = .next (s.modFn f fun x => { x with
        bars := AMap.put bar.val (addr.toNat / barBytes bar.val * barBytes bar.val) x.bars }) ∧
      exec (.bmeChange (.limits f pay rd tmo)) s = .next (s.modFn f fun x => { x with
        payload := pay.val, readSize := rd.val, timeout := tmo.val }) ∧
      exec (.powerStateChange f true) s = .next (s.modFn f fun x => { x with d3hot := true }) ∧
      exec (.powerStateChange f false) s = .next ((s.modFn f fun x => { x with d3hot := false }).fnRelease f) ∧
      exec (.msixUnmask f none on) s = .next ((s.modFn f fun x => { x with fnMask := on }).sendPending f)) ∧
    (s.configures = false → (∀ c, exec (.bmeChange c) s = .next (retry (configFn c))) ∧
      exec (.powerStateChange f on) s = .next (retry f) ∧ exec (.msixUnmask f none on) s = .next (retry f)) ∧
    (s.fnReady f = false → s.fnRelease f = s) ∧
    (s.fnPresent f = true → c.head < 2 ^ 32 → c.tail < 2 ^ 32 →
      let got := (head - BitVec.ofNat 32 c.head).toNat
      let had := (BitVec.ofNat 32 c.tail - BitVec.ofNat 32 c.head).toNat
      exec (.cqDoorbell f q head) s =
        .next (if got ≤ had then s.modCq f q fun y => { y with head := head.toNat } else s.event (Pg.host f 0) Ev.HOST0_QUEUE_ERROR)) ∧
    (s.cqF f q F.HOST2_IRQ_EN = 1 → c.unsignalled ≠ 0 → c.oldest + 1000 * max 1 (s.cqF f q F.HOST2_DELAY_US) ≤ s.power.time →
      exec (.cqIrqDelay f q) s = .next (s.interrupt f (s.cqF f q F.HOST2_VECTOR))) ∧
    (s.cqF f q F.HOST2_IRQ_EN = 0 ∨ c.unsignalled = 0 ∨ s.power.time < c.oldest + 1000 * max 1 (s.cqF f q F.HOST2_DELAY_US) →
      exec (.cqIrqDelay f q) s = .next s) ∧
    (s.fnPresent f = true → v.toNat < vectors f →
      ((s.fn f).fnMask = false → (s.fn f).pba = [v.toNat] → s.fnReady f = true → (v ≠ 0 ∨ s.spacedSince f = none) →
        let m := (msg.map fun m => (m.1.toNat, m.2.toNat)).getD (AMap.getD v.toNat (0, 0) (s.fn f).table)
        ∃ u, exec (.msixUnmask f (some (v, msg)) false) s = .next u ∧ u.out = s.out ++ [.msix f v.toNat m.1 m.2] ∧ (u.fn f).pba = []) ∧
      ((s.fn f).pba = [] → ∃ u, exec (.msixUnmask f (some (v, msg)) true) s = .next u ∧ u.out = s.out ∧
        v.toNat ∉ (u.fn f).unmasked)) ∧
    (s.fnPresent f = true → vectors f ≤ v.toNat → exec (.msixUnmask f (some (v, msg)) on) s = .next s) ∧
    (s.fnPresent f = true →
      (s.bar2Fault f off.toNat n.toNat false = none →
        let place (i : Nat) : Nat := bits (s.entry (s.bar2Part f) (bits (w + i) 21 19)) 21 43 * 2 ^ 21 + (w + i) % 2 ^ 21
        (∀ x ∈ pieces w n.toNat, s.faultyIn (place (x.1 - w)) x.2 = []) → ∀ l k,
          let t := (s.correctedFor (s.bar2Part f) l).linksFor (s.bar2Part f) k
          exec (.bar2Read f off n { corrected := l, links := k }) s =
            .next (t.emit (.readData ((pieces w n.toNat).flatMap fun x => t.phys (place (x.1 - w)) x.2)))) ∧
      (∀ e o, s.bar2Fault f off.toNat n.toNat false = some (e, o) →
        ∀ l, exec (.bar2Read f off n l) s = .next ((s.bar2Fail f e o).emit (.readData (List.replicate n.toNat 0)))) ∧
      (s.bar2Fault f off.toNat d.length true = none → ∀ u r, s.store (s.bar2Part f) none w d (.unit (0x340 + f.val)) = (u, r) →
        exec (.bar2Write f off d) s = .next (match r with
          | none => u
          | some (e, a) => u.faultRecord (s.bar2Part f) (0x340 + f.val) a e)) ∧
      (∀ e o, s.bar2Fault f off.toNat d.length true = some (e, o) → exec (.bar2Write f off d) s = .next (s.bar2Fail f e o))) ∧
    (s.fnPresent f = false →
      let t := s.satF Pg.dir F.DIR_COUNT
      exec (.cqDoorbell f q head) s = .next t ∧ exec (.msixUnmask f (some (v, msg)) on) s = .next t ∧
      (∀ l, exec (.bar2Read f off n l) s = .next (t.emit (.readData (List.replicate n.toNat 0)))) ∧
      exec (.bar2Write f off d) s = .next t) ∧
    (∀ (p : Fin 8) (unit : BitVec 16) (a b : Dword), exec (.hostReadFail p unit a b) s =
      .next (s.contain p { cause := 0x06, tier := 3, unit := unit.toNat, addr := a.toNat, phys := b.toNat }))

/-! ### Snapshots, replay and fills (ch. 16) -/

/-- Snapshots, replay and spare fills (R483 to R485, R493 to R499): a touched page is copied to the lowest free staging frame; a
snapshot whose writes are accepted completes; a replay item that is read, matches and fits is reapplied block by block, in SERVICE with
no update armed, and stops the replay elsewhere (R492); a replay that has run its items ends, which is a boundary in SERVICE (R62); a
fill goes from CHECK to COPY, from there to REPLAY or INSTALL, and INSTALL is done as R499 has it. -/
def Obligations.SnapshotsReplaysFills : Prop :=
  ∀ (s : State) (p : Fin 8),
    let pg := Pg.part p
    (∀ x e i k f, AMap.get? p.val s.snaps = some x → s.touched p x = some (i, k) → x.items[i]? = some e →
      ((rangeFrom (s.f pg F.MEMP_FIRST) (s.f pg F.MEMP_COUNT)).filter fun f =>
        f < shareFrames (s.stackShare p) && !(x.staged.any fun y => y.2.2 == f)).head? = some f →
      let idx := e.src / page2M + k
      let v := s.incF pg F.MEMP_TOUCHES
      let src := bits (v.entry p idx) 21 43 * page2M
      let t := v.copyFrame src (v.stageAddr p f)
      v.frameDamage p (v.coppUnit p) idx src = none → exec (.touchCopyDone p) s = .next ({ t with
        snaps := AMap.put p.val { x.took i k with staged := (x.took i k).staged ++ [(i, k, f)] } s.snaps }.unprotect p idx)) ∧
    (∀ x, AMap.get? p.val s.snaps = some x → (s.snapDone p x = true → exec (.snapshotComplete p) s = .next (s.snapComplete p x)) ∧
      (s.snapDone p x = false → exec (.snapshotComplete p) s = .next s)) ∧
    (∀ x it h dw u, AMap.get? p.val s.replays = some x → x.stopped = none → x.next < x.count →
      (s.part p).overlay = .service → (s.camb p).upd = none →
      let w : Acc := { part := p, core := none, who := .unit (0x300 + s.lead p) }
      let done (v : State) : State := ({ v with replays := AMap.put p.val { x with next := x.next + 1 } v.replays }).incF (s.leadPage p)
        F.CAMBL_ITEMS_DONE
      s.readBlock w (x.list + 32 + 32 * x.next) 32 1 = .ok it → s.readBlock w (fieldAt it 0 8) 64 64 = .ok h →
      s.readDesc w (fieldAt it 8 8) = .ok dw → fieldAt it 0x10 8 = 0 →
      (¬ (fieldAt h 0 4 = fieldAt it 0x18 4 ∧ fieldAt h 6 2 = fieldAt it 0x1C 2) →
        exec (.replayItem p) s = .next (s.replayStop p 0x08)) ∧
      (fieldAt h 0 4 = fieldAt it 0x18 4 → fieldAt h 6 2 = fieldAt it 0x1C 2 → weightForm dw = true →
      dw.shard (fieldAt h 0x18 4) = true →
        (dw.fmt = 0x08 ↔ bit (fieldAt h 4 4) 9 = true) → s.shardInFrames p dw = true →
        (bit (fieldAt h 4 4) 8 = true → fieldAt h 4 1 ≠ 0 → exec (.replayItem p) s = .next (done s)) ∧
        (bit (fieldAt h 4 4) 8 = false →
          (List.range (fieldAt h 0x18 4 / 64)).foldl (fun (r : State × Option (AccFault × Nat)) b =>
            match r.2 with
            | some _ => r
            | none => r.1.replayBlock p h dw none (fieldAt it 0 8 + 64) b) (s, none) = (u, none) →
          exec (.replayItem p) s = .next (done u)))) ∧
    (∀ x, AMap.get? p.val s.replays = some x → x.stopped = none → x.next < x.count →
      ((s.part p).overlay ≠ .service ∨ (s.camb p).upd ≠ none) → exec (.replayItem p) s = .next (s.replayStop p 0x09)) ∧
    (∀ x, AMap.get? p.val s.replays = some x → (x.stopped ≠ none ∨ x.count ≤ x.next) → exec (.replayItem p) s = .next s) ∧
    (∀ x, AMap.get? p.val s.replays = some x → (x.stopped ≠ none ∨ x.count ≤ x.next) →
      exec (.replayEnd p) s = .next (if (s.part p).overlay = .service then (s.replayEnd p x).passBoundary p else s.replayEnd p x)) ∧
    (∀ x, AMap.get? p.val s.replays = some x → x.stopped = none → x.next < x.count → exec (.replayEnd p) s = .next s) ∧
    (∀ x, AMap.get? p.val s.fills = some x →
      (s.fillState p = 1 → x.lost = none → x.complete = true → exec (.fillCheckDone p) s =
        .next (if x.passes then s.setFillState p 2 else s.fillHalt p 0x06)) ∧
      (s.fillState p = 2 → x.lost = none → s.fillCopied p x = true → exec (.fillCopyDone p) s =
        .next (if fieldAt x.desc 0x10 8 = 0 then (s.showFillPages p).setFillState p 4
          else ((s.showFillPages p).setFillState p 3).replayBegin p (fieldAt x.desc 0x10 8 / 32 * 32) true)) ∧
      (s.fillState p ≠ 1 ∨ x.lost ≠ none ∨ x.complete = false → exec (.fillCheckDone p) s = .next s) ∧
      (s.fillState p ≠ 2 ∨ x.lost ≠ none ∨ s.fillCopied p x = false → exec (.fillCopyDone p) s = .next s) ∧
      (s.fillState p = 4 → exec (.fillInstallDone p) s = .next (s.install p x)) ∧
      (s.fillState p ≠ 4 → exec (.fillInstallDone p) s = .next s)) ∧
    ((s.setFillState p 4).fillState p = 4 ∧ (s.setFillState p 2).fillState p = 2)

/-! ### Integrity (ch. 17) -/

/-- Control processors, the audit, the fault history and impressions (R495, R507 to R523, R527): the pair that differs is held and
records it; a control processor halts, which is recorded; an audit period compares every core's count anew; an audited word that changed
is recorded as R513 has it; corrected errors become a summary; AUTO_MS takes its value in each partition with AUTO set; the duties rest
while the pair does not run; entries go to flash in order; the history is read over I3C; an armed impression whose time has come copies,
at a common edge, the counters of every core and disarms; messages on vector 0 within 1 µs of one are carried by one that follows. -/
def Obligations.AuditAndFaultHistory : Prop :=
  ∀ (s : State) (n : Fin 12) (page : BitVec 14) (word : BitVec 10) (v : Word) (slot : BitVec 32) (f : Fin 9),
    let a := page.toNat * 4096 + 4 * word.toNat
    (s.mgmtRuns = true →
      exec .lockstepMismatch s = .next (((s.setF Pg.dir F.DIR_LOCKSTEP 1).history 0x0B []).event Pg.dir Ev.DIR_LOCKSTEP_FAULT) ∧
      ((s.setF Pg.dir F.DIR_LOCKSTEP 1).history 0x0B []).integ.gathered = s.integ.gathered ++
        [{ kind := 0x0B, time := s.power.time, boot := s.integ.boot, payload := [] }] ∧
      (s.power.booted = true → n.val ∉ s.integ.halted → ∃ u, exec (.ctrlCoreUe n) s = .next u ∧
      u.integ.halted = s.integ.halted ++ [n.val] ∧
        u.integ.gathered = s.integ.gathered ++ [{ kind := 0x0C, time := s.power.time, boot := s.integ.boot, payload := [n.val] }]) ∧
      (∃ u, exec .auditPeriod s = .next u ∧ u.integ.shortCount = [] ∧
        ∀ c, c < 256 → AMap.getD c 0 u.integ.mismatchBase = s.f (Pg.core c) F.CORE_MISMATCHES) ∧
      (s.f Pg.dir F.DIR_EN ≠ 0 → s.present page.toNat = true → s.audited page.toNat (4 * word.toNat) = true →
        let passed (t : State) : State :=
          if page.toNat * 1024 + word.toNat = t.lastAudited then t.satF Pg.dir F.DIR_PASSES else t
        exec (.auditRead page word none) s = .next (passed s) ∧
        (v.toNat = s.reg a → exec (.auditRead page word (some v)) s = .next (passed s)) ∧
        (v.toNat ≠ s.reg a → exec (.auditRead page word (some v)) s =
          .next (passed ((s.setReg a v.toNat).auditMismatch page.toNat word.toNat (s.reg a) v.toNat)))) ∧
      (∃ u, exec .ceSummary s = .next u ∧ u.integ.ce = [0, 0, 0, 0] ∧ u.integ.gathered = s.integ.gathered ++
        [{ kind := 0x07, time := s.power.time, boot := s.integ.boot, payload := s.integ.ce }]) ∧
      (∃ u, exec .snapIntervalCompute s = .next u ∧ u.mem = s.mem ∧ u.parts = s.parts ∧ ∀ p, p < s.k →
        (s.f (Pg.part p) F.MEMP_AUTO = 1 → ∃ o, u.f (Pg.part p) F.MEMP_AUTO_MS = ({ s with opens := o }).autoMs p) ∧
        (s.f (Pg.part p) F.MEMP_AUTO ≠ 1 → u.f (Pg.part p) F.MEMP_AUTO_MS = s.f (Pg.part p) F.MEMP_AUTO_MS))) ∧
    (s.mgmtRuns = false → exec .lockstepMismatch s = .next s ∧ exec .auditPeriod s = .next s ∧ exec .ceSummary s = .next s ∧
      exec .snapIntervalCompute s = .next s ∧ exec (.auditRead page word (some v)) s = .next s) ∧
    (s.powered = true → s.f Pg.dir F.DIR_LOCKSTEP = 0 → s.integ.next < 2 ^ 32 →
      s.integ.gathered.length ≤ 256 - (if s.integ.second = s.power.time / 1000000000 then s.integ.written else 0) →
      ∃ u, exec .fhFlush s = .next u ∧ u.integ.gathered = [] ∧ u.integ.next = (s.integ.next + s.integ.gathered.length) % 2 ^ 32 ∧
        ∀ e, s.integ.gathered = [e] → AMap.get? (s.integ.next % 65536) u.integ.ring = some (e.bytes s.integ.next)) ∧
    (s.i3cLive = true → exec (.i3cFhRead slot) s = .next (s.emit (.i3cRead (s.fhSlot slot.toNat))) ∧
      exec .i3cFhNext s = .next (s.emit (.i3cRead (toBytes 4 s.integ.next)))) ∧
    (s.i3cLive = false → exec (.i3cFhRead slot) s = .next s ∧ exec .i3cFhNext s = .next s) ∧
    (s.f Pg.dir F.DIR_ARMED = 1 → s.power.commonEdge = true → s.f2 Pg.dir F.DIR_TIME_LO F.DIR_TIME_HI ≤ s.power.time →
    s.power.time < 2 ^ 64 →
      ∃ u, exec .impressionTake s = .next u ∧ u.f Pg.dir F.DIR_ARMED = 0 ∧
        u.f2 Pg.dir F.DIR_TAKEN_LO F.DIR_TAKEN_HI = s.power.time ∧ u.mem = s.mem ∧
        ∀ (c : Fin 256) k, k < 22 → s.present (Pg.core c) = true →
          u.reg (Pg.core c * 4096 + 0x0A0 + 4 * k) = s.reg (Pg.core c * 4096 + 0x040 + 4 * k)) ∧
    (s.f Pg.dir F.DIR_ARMED = 0 ∨ s.power.time < s.f2 Pg.dir F.DIR_TIME_LO F.DIR_TIME_HI ∨ s.power.commonEdge = false →
      exec .impressionTake s = .next s) ∧
    (let t := { s with integ := { s.integ with spacing := AMap.del f.val s.integ.spacing } }
     (∀ n w, AMap.get? f.val s.integ.spacing = some (n, w) →
       (n + 1000 ≤ s.power.time → exec (.vector0MessageSpacing f) s = .next (if w then t.message f 0 else t)) ∧
       (s.power.time < n + 1000 → exec (.vector0MessageSpacing f) s = .next s ∧
         (s.fnReady f = true → (s.fn f).fnMask = false → 0 ∈ (s.fn f).unmasked → s.message f 0 = s.setSpacing f n true))) ∧
     (AMap.get? f.val s.integ.spacing = none → exec (.vector0MessageSpacing f) s = .next s))

/-! ### Security (ch. 18) -/

/-- Events of the security core and JTAG (R533, R534, R538, R539, R546 to R552): a health failure is counted and the sixteenth
within a second halts the generator; a nonce over I3C requests a report, which is signed and stands in the page; chunks assemble
blocks, and an assembled block is treated; an install that verifies makes the slot valid and the trial, one that fails does not; a
start boots once; the watchdog restarts a start; JTAG answers IDCODE, and a debug access only where the level grants it. -/
def Obligations.SecurityEvents : Prop :=
  ∀ (s : State) (nonce : BitVec 256) (block chunk : BitVec 16) (d : List Byte) (good : Bool) (din dout : Nat) (what : DebugAccess),
    let late := s.sec.rngFails.filter fun t => s.power.time < t + 1000000000
    let sec := Pg.sec 3
    (s.powered = true → late.length < 15 → exec .rngHealthFail s =
      .next ((s.satF sec F.SEC3_FAILS).modSec fun x => { x with rngFails := s.power.time :: late })) ∧
    (s.powered = true → 15 ≤ late.length → s.rngHalted = false → ∃ u, exec .rngHealthFail s = .next u ∧ u.rngHalted = true) ∧
    (s.i3cLive = true → s.power.phase = .up → s.secRuns = true → exec (.i3cAttestRequest nonce) s = .next (s.setRegs
      (Pg.sec 2 * 4096 + 0x020) ((List.range 8).map fun w => nonce.toNat / 2 ^ (32 * w) % 2 ^ 32)).attest) ∧
    (s.secRuns = true → s.f (Pg.sec 2) F.SEC2_BUSY = 0 → s.attest.f (Pg.sec 2) F.SEC2_BUSY = 1 ∧
    s.attest.f (Pg.sec 2) F.SEC2_VALID = 0 ∧
      s.attest.sec.report = some s.reportBody) ∧
    (∀ b, s.sec.report = some b → s.secRuns = true → ∃ u, exec .reportReady s = .next u ∧ u.f (Pg.sec 2) F.SEC2_BUSY = 0 ∧
      u.f (Pg.sec 2) F.SEC2_VALID = 1 ∧ u.f (Pg.sec 2) F.SEC2_STATUS = 0 ∧ u.sec.report = none) ∧
    (s.i3cLive = true → s.power.phase = .up → s.secRuns = true → chunk.toNat < 256 → d.length = 256 →
      exec (.i3cFwChunk block chunk d) s = .next (s.piece 1 block.toNat 256 chunk.toNat d)) ∧
    (∀ src b x rest, s.sec.assembled = (src, b, x) :: rest → s.secRuns = true →
      let t := ((s.modSec fun y => { y with assembled := rest }).treatBlock src b x good).fwAfterBlock src b x
      exec (.fwBlockCheck good) s = .next (if src = 0 then (t.setF fwPage F.SEC1_BUSY_028 0).fwStatus 0 else t)) ∧
    (s.secRuns = true → s.f fwPage F.SEC1_STAGE = 3 → s.sec.activating = true → s.sec.resetAfter = false →
      ∃ u, exec (.fwInstallDone good) s = .next u ∧ u.f fwPage F.SEC1_BUSY_028 = 0 ∧
        u.f fwPage F.SEC1_STAGE = (if good then 4 else 2) ∧ u.f fwPage F.SEC1_STATUS = (if good then 0 else 0x0C) ∧
        u.sec.record.valid s.otherSlot = good ∧ u.sec.record.seq = s.sec.record.seq + 1 ∧
        (good = true → u.sec.slot s.otherSlot = .package s.sec.staging ∧ u.sec.record.trial = some s.otherSlot ∧
          u.sec.record.tries = 3)) ∧
    (s.secRuns = true → s.fwSource = true →
      exec .fwPropagateOffer s = .next (s.fwPeers.foldl (fun s x => s.fwSendBlock x.1 x.2 0) s)) ∧
    (∀ l a t, s.sec.sources = [(l, a, t)] → s.secRuns = true →
      (s.power.time < t + 10000000000 → s.f fwPage F.SEC1_STAGE = 1 → exec .fwBitmapResend s = .next (s.fwTell l a)) ∧
      (t + 10000000000 ≤ s.power.time → exec .fwBitmapResend s = .next (s.modSec fun x => { x with sources := [] }))) ∧
    (s.secRuns = true → (∀ x ∈ s.sec.sent, (s.link x.link).st = 5 ∧ s.power.time < x.time + 10000000) →
      exec .fwPropagateRetry s = .next s) ∧
    (∀ x, s.sec.sent = [x] → s.secRuns = true → (s.link x.link).st = 5 → x.time + 10000000 ≤ s.power.time →
      exec .fwPropagateRetry s = .next ((s.modSec fun y => { y with sent := [{ x with time := s.power.time }] }).sendOn x.link
        ((s.modSec fun y => { y with sent := [{ x with time := s.power.time }] }).fwPacket x))) ∧
    (s.power.reset ≠ none → s.power.booted = false → s.power.pllLocked = true → s.powered = true →
      ∃ u, exec .secBoot s = .next u ∧ u.power.booted = true ∧ u.draws = s.draws + 1) ∧
    (s.power.booted = true ∨ s.power.reset = none → exec .secBoot s = .next s) ∧
    (s.powered = true → s.recovery = false → s.power.booted = true →
      (s.power.reset ≠ none → exec .bootWatchdog s = .next (s.clear .warm 8)) ∧
      (s.power.reset = none → exec .bootWatchdog s = .next s)) ∧
    (∀ k i, (k, i) ∈ [(WholeReset.powerOn, Instr.powerOnResetDone), (.warm, .warmResetDone)] →
      (s.startDone k = true → exec i s = .next s.becomeReady) ∧ (s.startDone k = false → exec i s = .next s)) ∧
    (s.becomeReady.power.reset = none ∧ s.becomeReady.power.ready = true) ∧
    (s.powered = true → exec (.jtagInstruction .idcode) s = .next (s.emit (.jtag 0x1009674F)) ∧
      exec (.jtagInstruction (.bypass din)) s = .next (s.emit (.jtag (2 * din))) ∧
      exec (.jtagInstruction (.sample din)) s = .next (s.emit (.jtag din)) ∧
      exec (.jtagInstruction (.debug what din dout)) s = .next (if debugNeeds what ≤ s.debugLevel
        then (s.debugAccess what dout).1.emit (.jtag (s.debugAccess what dout).2) else s.emit (.jtag (2 * din)))) ∧
    (∀ n : Fin 14, debugNeeds (.halt n) = (if n.val < 12 then 2 else 3) ∧ n.val ∈ (s.debugAccess (.halt n) dout).1.integ.debugged) ∧
    (∀ i w x, s.fuse (.keyDigest i w) &&& (s.programFuse (.keyDigest i w) x).fuse (.keyDigest i w) = s.fuse (.keyDigest i w))

/-! ### Power, reset, partitions and errors (ch. 02, 03) -/

/-- Power, rails and resets (R15 to R19, R33 to R39, R83, R90, R95): each event's transition of the module's power, the
whole-device resets that it requests, the partition resets, and the ends of creation and teardown; a fault of a rail that is not
watched changes nothing. -/
def Obligations.PowerAndResets : Prop :=
  ∀ (s : State) (rail : Fin 9) (stage : Fin 6) (mv : BitVec 16) (p : Fin 8) (a : BitVec 7),
    (s.power.phase = .off → exec .powerUpBegin s =
      .next ((s.clear .powerOn 0).modPower fun x => { x with phase := .rising 0, pwrEn := true })) ∧
    (s.power.phase ≠ .off → exec .powerUpBegin s = .next s) ∧
    (s.power.phase = .up → ∃ u, exec .pwrEnFall s = .next u ∧ u.power.phase = .off ∧ u.power.pwrGood = false ∧
    u.power.thermTripN = true) ∧
    (s.power.phase = .off → exec .pwrEnFall s = .next s) ∧
    (∀ n, s.power.phase = .rising n → stage.val = n + 1 → s.stageMayRise stage = true →
      (stage.val ≠ 5 → exec (.railStageComplete stage) s = .next (s.modPower fun x => { x with phase := .rising stage })) ∧
      (stage.val = 5 → ∃ u, exec (.railStageComplete stage) s = .next u ∧ u.power.phase = .up ∧ u.power.pwrGood = true)) ∧
    (∀ n, s.power.phase = .rising n → railStage rail = n + 1 → s.stageMayRise (n + 1) = true →
      exec (.stageWindowTimeout rail) s = .next (if n + 1 ≤ 2 then s.powerGone .lockedOff else s.workFault rail)) ∧
    (s.watched rail = true → 3 ≤ railStage rail → ∃ u, exec (.workRailFault rail) s = .next u ∧ u.power.phase = .workOff ∧
      u.power.pwrGood = false ∧ u.power.alertHeld = true) ∧
    (s.watched rail = true → railStage rail ≤ 2 → exec (.mgmtRailFault rail) s = .next (s.powerGone .lockedOff)) ∧
    (s.watched rail = false → exec (.workRailFault rail) s = .next s ∧ exec (.mgmtRailFault rail) s = .next s) ∧
    (s.anyRail = true → (37000 ≤ mv.toNat ∧ mv.toNat < 40000 ∨ 60000 < mv.toNat ∧ mv.toNat ≤ 63000) → exec (.inputRange mv) s =
      .next ((s.setF Pg.pwr F.PWR_INPUT_OUT 1).event Pg.pwr Ev.PWR_INPUT_RANGE)) ∧
    (s.anyRail = true → (mv.toNat < 37000 ∨ 63000 < mv.toNat) → exec (.inputFault mv) s = .next (s.powerGone .lockedOff)) ∧
    (s.anyRail = true → 37000 ≤ mv.toNat → mv.toNat ≤ 63000 → exec (.inputFault mv) s = .next s) ∧
    (s.powered = true → s.power.pllLocked = false → s.power.reset ≠ none → exec .rootPllLock s =
      .next (s.modPower fun x => { x with
        pllLocked := true, kclk := 0, aclkFrom := 0, time := 0, high := 0, edge := 0, slew := 0, rate := 0, rateAcc := 0 })) ∧
    (s.configures = true → s.power.reset = none → exec (.vfFlr p) s = .next (s.requestReset p true) ∧
      ∃ u, exec .pf0Flr s = .next u ∧ u.power.reset = some .warm ∧ u.power.cause = 6 ∧ u.vfEnable = false) ∧
    (s.configures = true → s.power.reset ≠ none → exec (.vfFlr p) s = .next s) ∧
    (s.configures = false → exec (.vfFlr p) s = .next (s.configRetry (p + 1)) ∧ exec .pf0Flr s = .next (s.configRetry 0)) ∧
    (s.power.phase = .workOff → exec .perstFall s = .next (s.modPower fun x => { x with perstN := false, linked := false }) ∧
      (s.power.i3cAddr ≠ none → exec .i3cColdReset s = .next s ∧ exec .i3cWarmReset s = .next s)) ∧
    (s.powered = true → s.power.phase ≠ .workOff → s.power.reset = none →
      exec .perstFall s = .next ((s.modPower fun x => { x with perstN := false, linked := false }).clear .cold 1) ∧
      (s.power.i3cAddr ≠ none → exec .i3cColdReset s = .next (s.clear .cold 2) ∧ exec .i3cWarmReset s = .next (s.clear .warm 4))) ∧
    (s.power.reset = some .powerOn → s.power.i3cAddr ≠ none → exec .i3cColdReset s = .next s ∧ exec .i3cWarmReset s = .next s) ∧
    exec .perstRise s = .next (s.modPower fun x => { x with perstN := true }) ∧
    (s.power.perstN = true → s.startDone .cold = true → exec .coldResetDone s = .next s.becomeReady) ∧
    (s.power.perstN = false → exec .coldResetDone s = .next s) ∧
    (s.powered = true → exec (.i3cDynamicAddress a) s = .next (s.modPower fun x => { x with i3cAddr := some a.toNat })) ∧
    ((s.part p).quiescing = true → exec (.partitionQuiesced p) s = .next (s.quiesced p)) ∧
    ((s.part p).quiescing = false → exec (.partitionQuiesced p) s = .next s) ∧
    ((s.part p).st = .creating → (s.part p).zeroing = true → (s.part p).keyGen ≠ 0 → exec (.createZeroingDone p) s =
      .next (((s.errorsZeroed p).modPart p fun x => { x with zeroing := false }).beginWaves (some p.val) .create)) ∧
    ((s.part p).st = .tearingDown → (s.part p).zeroing = true → ∃ u, exec (.teardownZeroingDone p) s = .next u ∧
      u.part p = {} ∧ u.f (Pg.part p) F.MEMP_FP_LO = 0 ∧ u.f (Pg.part p) F.MEMP_FP_HI = 0 ∧ u.mem = (s.errorsZeroed p).mem ∧
      u.faulty = (s.errorsZeroed p).faulty) ∧
    (s.memoryUp = true → ∀ e, exec (.containmentEvent e) s = .next (s.containment e)) ∧
    (s.memoryUp = true → ∀ (m : Fin 24), s.f (Pg.mem m) F.MEMD_POS + 1 < scrubUnits m → (∀ u ∈ s.faulty, s.scrubs m u.1 = false) →
      exec (.scrubUnit m { corrected := [], uncorrectable := none }) s =
        .next (s.setF (Pg.mem m) F.MEMD_POS (s.f (Pg.mem m) F.MEMD_POS + 1)))

/-- The governor, waves, temperature and clocks (R20 to R32): a sample enters the averages; an evaluation lowers or raises the cap
level by R21; a core whose platen issued nothing for 3,000 ACLK begins its ramp at level 4 and climbs by 4 every 1,000; a wave
whose grid point device time has reached releases its cores at a common edge, but for those that a mode switch holds through waves of
another kind; the hottest sensor sets the stage; the trip powers the work domain off; a lost clock stops every partition. -/
def Obligations.GovernorAndThermal : Prop :=
  ∀ (s : State) (c : Fin 256) (vin iin : BitVec 16) (sensors drams : List (BitVec 8)) (inlet celsius : BitVec 8) (sensor : Fin 96),
    let cap := s.f Pg.pwr F.PWR_CAP_LEVEL
    let w := s.f Pg.pwr F.PWR_CAP_W
    let peak := s.meanAbove 100 (s.f Pg.pwr F.PWR_PEAK_W)
    (s.clocked = true →
      (∃ u, exec (.governorSample vin iin) s = .next u ∧ u.power.samples = (vin.toNat * iin.toNat :: s.power.samples).take 5000 ∧
        u.f Pg.pwr F.PWR_VIN_MV = vin.toNat ∧ u.f Pg.pwr F.PWR_IIN_10MA = iin.toNat ∧ u.mem = s.mem) ∧
      (∃ u, exec .governorEvaluate s = .next u ∧
        (peak = true → u.f Pg.pwr F.PWR_CAP_LEVEL = cap - 4) ∧
        (peak = false → s.meanAbove 5000 (w - 20) = true → u.f Pg.pwr F.PWR_CAP_LEVEL = cap - 1) ∧
        (peak = false → s.meanAbove 5000 (w - 20) = false → (s.meanBelow 5000 (w - 60) = false ∨ s.power.sinceRaise < 9) →
          u.f Pg.pwr F.PWR_CAP_LEVEL = cap) ∧
        (peak = false → s.meanAbove 5000 (w - 20) = false → s.meanBelow 5000 (w - 60) = true → 9 ≤ s.power.sinceRaise →
          u.f Pg.pwr F.PWR_CAP_LEVEL = min 16 (cap + 1) ∧ u.power.sinceRaise = 0)) ∧
      (s.power.phase = .up → s.power.commonEdge = true → ∀ (o : Option (Fin 8)) x,
        s.power.waves.find? (fun x => x.owner == (o.map fun p => p.val) && s.power.reached x.due) = some x →
        x.next < 7 → ∃ u, exec (.waveStart o) s = .next u ∧
          u.power.waves = s.power.waves.erase x ++ [{ x with next := x.next + 1, due := s.power.nextGrid }] ∧
          ∀ k y, AMap.get? k s.cores = some y → k % 8 = x.next → (∀ p, o = some p → s.corePart k = p.val) →
            (x.kind = .modeSwitch ∨ y.heldSwitch = false) → ∃ z, AMap.get? k u.cores = some z ∧ z.held = false ∧
              z.heldSwitch = false ∧ z.lastIssue = s.aclk ∧ z.ramp = if s.level ≤ 4 then none else some (4, s.aclk)) ∧
      (∀ o : Option (Fin 8), (s.power.commonEdge = false ∨
          ∀ x ∈ s.power.waves, x.owner = o.map (fun p => p.val) → s.power.reached x.due = false) →
        exec (.waveStart o) s = .next s) ∧
      (s.power.waves = [] → s.power.atGrid = true → exec .waveGapTakeEffect s =
        .next (s.modPower fun x => { x with waveGap := max 4000 (s.f Pg.pwr F.PWR_WAVE_GAP_NS) })) ∧
      ((s.power.waves ≠ [] ∨ s.power.atGrid = false) → exec .waveGapTakeEffect s = .next s) ∧
      (∀ i, i ≠ 3 → let t := ({ s with opens := s.opens + 1 }.event Pg.pwr Ev.PWR_CLOCK_FAULT).modPower fun x =>
          { x with alertHeld := true, clockFault := true, busUnsure := x.busUnsure || i == 5 }
        exec (.clockFault (.clock i)) s = .next ((List.range (t.errRecordAll { cause := 0x10 }).k).foldl (fun s p => s.stopPartition p)
          (t.errRecordAll { cause := 0x10 })))) ∧
    ((s.core c).lastIssue + 3000 ≤ s.aclk → exec (.coreIdleRestart c) s = .next (s.modCore c fun x =>
      { x with ramp := if s.level ≤ 4 then none else some (4, s.aclk), lastIssue := s.aclk })) ∧
    (s.aclk < (s.core c).lastIssue + 3000 → exec (.coreIdleRestart c) s = .next s) ∧
    (∀ n a, (s.core c).ramp = some (n, a) →
      (a + 1000 ≤ s.aclk → exec (.restartRampStep c) s =
        .next (s.modCore c fun x => { x with ramp := if s.level ≤ n + 4 then none else some (n + 4, a + 1000) })) ∧
      (s.aclk < a + 1000 → exec (.restartRampStep c) s = .next s)) ∧
    ((s.core c).ramp = none → exec (.restartRampStep c) s = .next s) ∧
    (s.powered = true →
      let hot : Nat := (sensors.map fun v => v.toNat).foldl max 0
      let dram : Nat := (drams.map fun v => v.toNat).foldl max 0
      let stage := if 95 < dram then max 2 (s.stageFor s.power.dieStage hot) else s.stageFor s.power.dieStage hot
      ∃ u, exec (.thermalSample sensors drams inlet) s = .next u ∧ u.f Pg.pwr F.PWR_THERM_STAGE = stage ∧
        u.f Pg.pwr F.PWR_INLET_C = inlet.toNat ∧ u.f Pg.pwr F.PWR_DRAM_MAX_C = dram ∧ u.mem = s.mem) ∧
    (s.powered = true → s.power.thermTripN = true → 118 ≤ celsius.toNat → ∃ u, exec (.thermalTrip sensor celsius) s = .next u ∧
    u.power.phase = .workOff ∧
      u.power.thermTripN = false ∧ u.power.pwrGood = false) ∧
    (celsius.toNat < 118 → exec (.thermalTrip sensor celsius) s = .next s)

/-! ### Register accesses (ch. 02) -/

/-- Accesses of the register file (R39 to R41, R47, R48, R50, R53, R54, R58, R59): an access to a page that the requester does not see,
or one that is not aligned, is refused and counted once, a read of it answering 0; a write that the requester may not make changes
nothing, and in a whole-device reset no write does but one of the PWR page over I3C; an aligned one of 8 bytes is two of 4; a write of the PWR page over the bus or over I3C sets the register within its limits; a write of a page of class PLAN, KV, INTK
or CORE changes the writable live bits of its word alone, its buffered bits in the shadow, no WL bit that lock or requester protects
and no W1C bit that hardware sets in the same PCLK cycle. -/
def Obligations.RegisterAccesses : Prop :=
  ∀ (s : State) (who : Requester) (off : BitVec 26) (off32 v : Word),
    let pg := off.toNat / 4096
    let o := off.toNat % 4096
    let takes := s.power.reset = none ∨ (who = .i3c ∧ pg = Pg.pwr)
    (s.reaches who = true → takes → s.power.busUnsure = false → (off.toNat % 4 ≠ 0 ∨ s.sees who pg = false) →
      exec (.registerWrite who off (.word v)) s = .next (s.refuse who off.toNat)) ∧
    (s.reaches who = true → takes → s.power.busUnsure = false → off.toNat % 4 = 0 → s.sees who pg = true →
      s.mayWrite who pg = false → exec (.registerWrite who off (.word v)) s = .next s) ∧
    ((s.reaches who = false ∨ ¬ takes) → exec (.registerWrite who off (.word v)) s = .next s) ∧
    (off.toNat % 4 ≠ 0 → ∀ h, exec (.registerWrite who off (.pair v h)) s = exec (.registerWrite who off (.word v)) s) ∧
    (∀ (off' : BitVec 26) h u, off.toNat % 4 = 0 → off'.toNat = off.toNat + 4 → exec (.registerWrite who off (.word v)) s = .next u →
      exec (.registerWrite who off (.pair v h)) s = exec (.registerWrite who off' (.word h)) u) ∧
    (s.reaches who = true → off.toNat % 4 = 0 → s.sees who pg = false →
      exec (.refusedAccess who off 4 true) s = .next (s.refuse who off.toNat) ∧
      exec (.refusedAccess who off 4 false) s = .next ((s.refuse who off.toNat).emit (.readData (toBytes 4 0)))) ∧
    (s.reaches who = true → off.toNat % 4 = 0 → s.sees who pg = true → ∀ b, exec (.refusedAccess who off 4 b) s = .next s) ∧
    (off32.toNat = off.toNat → exec (.i3cRegWrite off32 v) s = exec (.registerWrite .i3c off (.word v)) s) ∧
    (∀ i, i = .registerWrite who off (.word v) ∨ (who = .i3c ∧ off32.toNat = off.toNat ∧ i = .i3cRegWrite off32 v) →
      pg = Pg.pwr → s.writesOpen who pg → off.toNat % 4 = 0 → 0x020 ≤ o → o ≠ 0x048 →
      let r := (regAt .pwr 0 o).1
      (v.toNat ^^^ s.reg off.toNat) &&& r.rsvp = 0 → exec i s = .next (s.setReg off.toNat (pwrFix o (s.reg off.toNat)
        ((s.reg off.toNat &&& (0xFFFFFFFF - r.rw)) ||| (v.toNat &&& r.rw))))) ∧
    (s.i3cLive = true → s.power.busUnsure = false → off32.toNat % 4 = 0 → s.sees .i3c (off32.toNat / 4096) = true →
      exec (.i3cRegRead off32) s = .next (s.emit (.i3cRead (toBytes 4 (s.regRead (off32.toNat / 4096) (off32.toNat % 4096)))))) ∧
    (∀ c j, classOf pg = some (c, j) → c ∈ [PClass.plan, .kv, .intk, .core] → off.toNat % 4 = 0 → 0x020 ≤ o → s.writes who pg →
      let r := (regAt c j o).1
      let can (i : Nat) : Bool := (writesWl who && s.f pg fLock == 0) || !bit r.wl i
      r.ov = 0 → r.mw = 0 → (v.toNat ^^^ s.reg (off.toNat - 1024 * (regAt c j o).2)) &&& r.rsvp = 0 →
      ∃ u, exec (.registerWrite who off (.word v)) s = .next u ∧
        (∀ i, i < 32 → bit (u.reg off.toNat) i = (if bit r.w1c i && bit v.toNat i && !bit (s.setNow off.toNat) i then false
          else if bit r.rw i && can i && !bit r.buf i then bit v.toNat i else bit (s.reg off.toNat) i)) ∧
        (∀ i, i < 32 → bit r.rw i = true → can i = true → bit r.buf i = true → bit (u.shadowOf off.toNat) i = bit v.toNat i) ∧
        (∀ a, a ≠ off.toNat → a ≠ pg * 4096 + oLock → u.reg a = s.reg a) ∧ u.mem = s.mem ∧ u.threads = s.threads ∧
        u.parts = s.parts ∧ u.canopy = s.canopy ∧ u.fns = s.fns ∧ u.kvs = s.kvs)

/-- The headers of pages, and the commands of the directory and power pages (R36, R54 to R62, R521, R527): a request and a discard
of an application; PAGE_LOCK, which no virtual function sets; flags that hardware sets in the PCLK cycle of a write, which it does not
clear, and the others, which its ones clear; a mask, which
signals each flag that it newly shows; the resets; an impression is armed 2 µs or more ahead, and counted. -/
def Obligations.HeadersAndDirectory : Prop :=
  ∀ (s : State) (who : Requester) (page : BitVec 14) (clear now mask : Word) (parts : BitVec 8),
    let pg := page.toNat
    (s.writes who pg → exec (.applyRequest who page) s = .next (s.requestApply pg) ∧
      exec (.applyDiscard who page) s = .next (s.discard pg) ∧
      (s.f pg fLock = 0 → exec (.pageLockSet who page) s = .next (if writesWl who then s.setF pg fLock 1 else s)) ∧
      (∀ c j, classOf pg = some (c, j) → ∃ u, exec (.eventFlagClear who page clear now) s = .next u ∧
        ∀ b, b < 32 → bit (eventBits c j) b = true → bit (u.reg (pg * 4096 + oEvent)) b =
          ((bit (s.reg (pg * 4096 + oEvent)) b || bit now.toNat b) &&
            (!bit clear.toNat b || bit now.toNat b || bit (s.setNow (pg * 4096 + oEvent)) b))) ∧
      (let shown := (List.range 32).filter fun b => bit (s.reg (pg * 4096 + oMask)) b && !bit mask.toNat b &&
         bit (s.reg (pg * 4096 + oEvent)) b
       exec (.eventMaskWrite who page mask) s = .next (shown.foldl (fun s _ => s.signal pg) (s.setReg (pg * 4096 + oMask) mask.toNat)))) ∧
    (s.requested pg = false → exec (.application page) s = .next s) ∧
    (s.requested pg = true → pg = Pg.cnpy 9 → exec (.application page) s = .next (s.latch pg)) ∧
    (∀ c, classOf pg = some (.core, c) → s.requested pg = true → (s.core c).arb = [] →
      exec (.application page) s = .next (s.applyCore c)) ∧
    ((s.latch pg).f pg fReq = 0 ∧ (s.latch pg).f pg fSeq = (s.f pg fSeq + 1) % 256) ∧
    (s.writes who Pg.dir →
      (∃ u, exec (.lockAll who) s = .next u ∧ u.mem = s.mem ∧ ∀ q, q ∈ allPages → s.present q = true → u.f q fLock = 1) ∧
      exec (.fhRead who) s = .next s.fhRead ∧
      exec (.impCancel who) s = .next (s.setF Pg.dir F.DIR_ARMED 0) ∧
      (s.f Pg.dir F.DIR_ARMED = 0 → s.power.time + 2000 ≤ s.f2 Pg.dir F.DIR_TIME_LO F.DIR_TIME_HI →
        exec (.impArm who) s = .next ((s.incF Pg.dir F.DIR_SEQ).setF Pg.dir F.DIR_ARMED 1)) ∧
      (s.f Pg.dir F.DIR_ARMED = 0 → s.f2 Pg.dir F.DIR_TIME_LO F.DIR_TIME_HI < s.power.time + 2000 →
        exec (.impArm who) s = .next (s.event Pg.dir Ev.DIR_IMPRESSION_LATE)) ∧
      (s.f Pg.dir F.DIR_ARMED = 1 → exec (.impArm who) s = .next s)) ∧
    (s.writes who Pg.pwr →
      exec (.pwrResetWarm who) s = .next (s.requestWhole .warm (match who with | .i3c => 4 | .mgmt => 9 | _ => 3)) ∧
      exec (.pwrPartReset who parts) s =
        .next ((List.range s.k).foldl (fun s p => if parts.getLsbD p then s.requestReset p false else s) s))

/-- The pages of memory, partitions and sync counters (R78 to R83, R116, R148, R481, R496, R497): a page map WRITE puts a legal
entry and refuses another with its RESULT, and ends once no access by an old entry is outstanding; a READ shows the entry; the
division changes while every partition is ABSENT; the masks create and tear down; a counter's VALUE and LIMIT are written and
added to, a LIMIT not while a claim is busy; snapshots and fills are asked for. -/
def Obligations.PartitionPages : Prop :=
  ∀ (s : State) (who : Requester) (p : Fin 8) (k : BitVec 2) (parts : BitVec 8) (ctr : Fin 8192) (page : Fin 32) (v : Word),
    let pg := Pg.part p
    let idx := s.f pg F.MEMP_INDEX
    let legal := (s.part p).st = .active ∨ (s.part p).st = .stopped
    (s.writes who pg →
      (s.f pg F.MEMP_BUSY = 0 →
        exec (.pmapWrite who p) s = .next (if s.pmapCheck p idx (s.pmapData pg) = 0 then s.pmapPut p pg idx (s.pmapData pg)
          else s.pmapEnds pg (s.pmapCheck p idx (s.pmapData pg))) ∧
        (¬ legal → exec (.pmapRead who p) s = .next (s.pmapEnds pg 4)) ∧
        (legal → s.entryDamage p none idx = none → exec (.pmapRead who p) s = .next (((s.setF pg F.MEMP_DATA_LO (s.entry p idx % 2 ^ 32)).setF pg F.MEMP_DATA_HI
          (s.entry p idx / 2 ^ 32)).pmapEnds pg 0))) ∧
      exec (.snapRequest who p) s = .next (s.snapAsk p) ∧ exec (.fillStart who p) s = .next (s.fillAsk p) ∧
      exec (.fillAbort who p) s = .next (s.fillAbort p)) ∧
    ((s.pmapPut p pg idx (s.pmapData pg)).entry p idx = putBits (putBits (s.pmapData pg) 4 2 0) 7 14 0) ∧
    (s.f pg F.MEMP_BUSY = 1 → s.oldOutstanding p = false → exec (.pmapWriteDone p) s = .next (s.pmapEnds pg 0)) ∧
    (s.oldOutstanding p = true → exec (.pmapWriteDone p) s = .next s) ∧
    (s.f pg F.MEMP_BUSY = 0 → exec (.pmapWriteDone p) s = .next s) ∧
    (s.writesOpen who (Pg.part 0) →
      ((∀ q, q < 8 → (s.part q).st = .absent) → exec (.divisionWrite who k) s = .next (s.setF (Pg.part 0) F.MEMP_LOG2_K k.toNat)) ∧
      (∀ q, q < 8 → (s.part q).st ≠ .absent →
        exec (.divisionWrite who k) s = .next (s.event (Pg.part 0) Ev.MEMP_DIVISION_REFUSED))) ∧
    (s.writes who (Pg.part 0) →
      exec (.partCreate who parts) s = .next ((List.range s.k).foldl (fun s q => if parts.getLsbD q then s.askCreate q else s) s) ∧
      exec (.partTeardown who parts) s = .next ((List.range s.k).foldl (fun s q => if parts.getLsbD q then s.askTeardown q else s) s)) ∧
    ((s.part p).st = .absent → s.lcState ≠ 4 → (s.createPart p).part p = { st := .creating
                                                                           overlay := .service
                                                                           keyGen := if s.rngHalted then 0 else s.draws + 1
                                                                           zeroing := true }) ∧
    (s.writes who (Pg.sync (ctr.val / 256)) →
      exec (.syncValueWrite who ctr v) s = .next (s.opSet ctr v.toNat) ∧
      exec (.syncLimitWrite who ctr v) s = .next (if s.ctrBusy ctr then s.countOp ctr
        else (s.countOp ctr).setReg (Pg.sync (ctr.val / 256) * 4096 + 0xC00 + 4 * (ctr.val % 256)) v.toNat)) ∧
    (s.writes who (Pg.sync page) →
      exec (.syncCmdAdd who page v) s = .next (s.opAdd (256 * page.val + s.f (Pg.sync page) F.SYNC_INDEX) v.toInt))

/-- The pages of planners, cambium units, the table engines, the coppice, the canopy and the host link (R181, R275, R295, R344,
R349, R419, R449, R462, R474, R492): each command acts on its unit; a READ of the table window waits its turn at the table engine;
the registers of a cambium unit that does not lead hold nothing; CAMB_NORM_PREV is not written while an update is armed; an
enabled queue starts empty; a VECTOR beyond the table is refused. -/
def Obligations.UnitPages : Prop :=
  ∀ (s : State) (who : Requester) (j p : Fin 8) (unit : Fin 16) (f : Fin 9) (q : Fin 16) (v : Word) (valid : Bool) (target : BitVec 2),
    let pg := Pg.camb unit
    let leads := s.lead (s.unitPart unit) = unit.val
    let a := Pg.cnpy 9 * 4096 + 0x020
    let d := 16 * q.val
    (s.writes who (Pg.plan j) → exec (.planFlush who j) s = .next (s.flushPlans j)) ∧
    (s.writes who pg →
      (leads → exec (.updateAbort who unit) s = .next (s.abortUpdate (s.unitPart unit)) ∧
        exec (.replayStart who unit) s = .next (s.replayAsk unit) ∧
        ((s.camb (s.unitPart unit)).upd = none → ∃ u, exec (.cambNormPrevWrite who unit valid v) s = .next u ∧
          u.f pg F.CAMBL_NORM_PREV = v.toNat ∧ u.f pg F.CAMBL_PREV_VALID = (if valid then 1 else 0) ∧ u.mem = s.mem ∧
          u.cambs = s.cambs) ∧
        ((s.camb (s.unitPart unit)).upd ≠ none → ∃ u, exec (.cambNormPrevWrite who unit valid v) s = .next u ∧
          u.f pg F.CAMBL_NORM_PREV = s.f pg F.CAMBL_NORM_PREV ∧ u.f pg F.CAMBL_PREV_VALID = s.f pg F.CAMBL_PREV_VALID)) ∧
      (¬ leads → exec (.updateAbort who unit) s = .next s ∧ exec (.replayStart who unit) s = .next s)) ∧
    (s.writes who (Pg.kv p) →
      let t := s.f (Pg.kv p) F.KV_TABLE
      let i := s.f (Pg.kv p) F.KV_INDEX
      (s.f (Pg.kv p) F.KV_BUSY = 1 → exec (.kvPeekRead who p) s = .next s) ∧
      (s.f (Pg.kv p) F.KV_BUSY = 0 → (s.kv p).queue = [] → (s.part p).st ≠ .stopped →
        exec (.kvPeekRead who p) s = .next (s.peekNow p t i)) ∧
      (s.f (Pg.kv p) F.KV_BUSY = 0 → ((s.kv p).queue ≠ [] ∨ (s.part p).st = .stopped) → exec (.kvPeekRead who p) s =
        .next ((s.modKv p fun k => { k with queue := k.queue ++ [.peek t i] }).setF (Pg.kv p) F.KV_BUSY 1))) ∧
    (s.writes who (s.coppPage p) → p.val < s.k → ((s.part p).st = .active ∨ (s.part p).st = .stopped) →
      exec (.coppModeReq who p target) s =
        .next ((s.setF (s.coppPage p) (F.COPP_TARGET.sh (4 * p.val)) target.toNat).requestMode p target.toNat)) ∧
    (s.writesOpen who (Pg.cnpy 9) → (v.toNat ^^^ s.reg a) &&& 0xFFF80000 = 0 →
    ∃ t : State, exec (.cnpyAddrWrite who v) s = .next t.restartAddr ∧
      t.f (Pg.cnpy 9) F.CNPY9_ADDR = v.toNat % 2 ^ 16 ∧ t.f (Pg.cnpy 9) F.CNPY9_MODE = v.toNat / 2 ^ 16 % 2 ∧ t.canopy = s.canopy ∧
      t.mem = s.mem) ∧
    (s.writes who (Pg.cnpy 9) → exec (.cnpyTblRead who) s = .next (s.tblCommand false) ∧
      exec (.cnpyTblWrite who) s = .next (s.tblCommand true)) ∧
    (s.writes who (Pg.host f 1) → (v.toNat ^^^ s.reg (Pg.host f 1 * 4096 + 0x048 + d)) &&& 0xFFF00000 = 0 → s.sqF f q F.HOST1_EN = 0 →
      v.toNat % 2 = 1 → ∃ u, exec (.sqEnable who f q v) s = .next u ∧ u.sqF f q F.HOST1_EN = 1 ∧
        u.sqF f q F.HOST1_LOG2 = v.toNat / 2 % 2 ^ 5 ∧ u.sqF f q F.HOST1_CQ = v.toNat / 2 ^ 6 % 2 ^ 4 ∧ u.sqF f q F.HOST1_ERROR = 0 ∧
        (u.sqState f q).head = 0 ∧ (u.sqState f q).tail = 0 ∧ u.mem = s.mem) ∧
    (s.writes who (Pg.host f 2) → (v.toNat ^^^ s.reg (Pg.host f 2 * 4096 + 0x048 + d)) &&& 0xFFFF8000 = 0 →
      (v.toNat / 2 ^ 6 % 2 ^ 8 < vectors f → s.cqF f q F.HOST2_EN = 0 → v.toNat % 2 = 1 → ∃ u, exec (.cqEnable who f q v) s = .next u ∧
        u.cqF f q F.HOST2_EN = 1 ∧ u.cqF f q F.HOST2_VECTOR = v.toNat / 2 ^ 6 % 2 ^ 8 ∧ (u.cqState f q).head = 0 ∧
        (u.cqState f q).tail = 0) ∧
      (v.toNat / 2 ^ 6 % 2 ^ 8 < vectors f → s.cqF f q F.HOST2_EN = 1 → ∃ u, exec (.cqCtrlWrite who f q v) s = .next u ∧
        u.cqF f q F.HOST2_EN = v.toNat % 2 ∧ u.cqF f q F.HOST2_VECTOR = v.toNat / 2 ^ 6 % 2 ^ 8 ∧
        u.cqF f q F.HOST2_LOG2 = s.cqF f q F.HOST2_LOG2 ∧ u.fns = s.fns) ∧
      (vectors f ≤ v.toNat / 2 ^ 6 % 2 ^ 8 → exec (.cqCtrlWrite who f q v) s =
        .next (s.event (Pg.host f 0) Ev.HOST0_QUEUE_REFUSED)))

/-- The security pages (R535 to R538, R546 to R553, R559, R563): a lifecycle command whose conditions hold blows the fuses of its
target state, keeps or erases the owner's seed, and asks for the cold reset; a request makes a report; firmware and settings
commands act while none is busy, and flash that fails changes nothing; a key is programmed once, in BLANK. -/
def Obligations.SecurityPages : Prop :=
  ∀ (s : State) (who : Requester) (host : List Byte) (reset good : Bool) (key : BitVec 2),
    let sec := Pg.sec 3
    let idle := s.secRuns = true ∧ s.f (Pg.sec 0) F.SEC0_BUSY = 0 ∧ s.f fwPage F.SEC1_BUSY_028 = 0
    let moves (i : Instr) (n : Nat) : Prop := ∃ u, exec i s = .next u ∧ u.lcState = n ∧ u.power.reset = some .cold ∧
    u.power.cause = 5 ∧
      ((n = 3 ∨ n = 4) → u.sec.ownerSeed = none) ∧ (n = 1 → u.sec.uds = some (Config.draw s.draws % 2 ^ 256)) ∧
      (n = 2 → u.sec.ownerSeed = some (Config.draw s.draws % 2 ^ 256))
    (s.writesOpen who (Pg.sec 0) → idle → s.power.phase ≠ .workOff →
      (s.lcState = 0 → s.f sec F.SEC3_KEY_PRESENT ≠ 0 → s.rngHalted = false → moves (.lcProvision who) 1) ∧
      (s.lcState = 1 → s.rngHalted = false → moves (.lcDeploy who) 2) ∧
      ((s.lcState = 1 ∨ s.lcState = 2) → s.tokenGood = true → moves (.lcReturn who) 3) ∧
      ((s.lcState = 1 ∨ s.lcState = 2) → s.tokenGood = false → exec (.lcReturn who) s = .next (s.newChallenge.lcEnds 0x0B)) ∧
      (s.lcState ≠ 4 → moves (.lcDecommission who) 4) ∧
      (s.lcState ≠ 0 → exec (.lcProvision who) s = .next (s.lcEnds 0x02)) ∧
      (s.lcState = 4 → exec (.lcDecommission who) s = .next (s.lcEnds 0x02))) ∧
    (s.writes who (Pg.sec 2) → exec (.secAttRequest who) s = .next s.attest) ∧
    (s.writes who fwPage → s.fwIdle →
      exec (.fwActivate who reset) s = .next (s.fwActivate reset) ∧ exec (.fwConfirm who) s = .next s.fwConfirm ∧
      exec (.fwDiscard who) s = .next s.fwDiscard ∧
      exec (.fwFetch who host) s = .next (s.poke (hostKey ((s.f fwPage F.SEC1_SRC + 2 ^ 32 * s.f fwPage (F.SEC1_SRC.sh 4)) / 4096 * 4096))
        (host.take 65536)).fwFetch) ∧
    (s.writes who fwPage → s.secRuns = true → s.f fwPage F.SEC1_BUSY_0A4 = 0 →
      exec (.secSetRead who) s = .next s.setRead ∧ exec (.secSetWrite who true) s = .next s.setWrite ∧
      exec (.secSetDelete who true) s = .next s.setDelete) ∧
    (∃ u, exec (.secSetWrite who false) s = .next u ∧ u.sec = s.sec) ∧ (∃ u, exec (.secSetDelete who false) s = .next u ∧
    u.sec = s.sec) ∧
    (s.writesOpen who sec → s.secRuns = true → s.f sec F.SEC3_BUSY = 0 →
      (s.lcState = 0 → bit (s.f sec F.SEC3_KEY_PRESENT) key.toNat = false → ∃ u, exec (.fuseProgramKey who key true) s = .next u ∧
        bit (u.f sec F.SEC3_KEY_PRESENT) key.toNat = true ∧ u.f sec F.SEC3_RESULT = 0 ∧
        ∀ w, w < 8 → u.reg (sec * 4096 + 0x060 + 32 * key.toNat + 4 * w) =
          s.f sec (F.SEC3_DIGEST.sh (32 * key.toNat + 4 * w)) ||| s.f sec (F.SEC3_KEY_DATA.sh (4 * w))) ∧
      (s.lcState = 0 → bit (s.f sec F.SEC3_KEY_PRESENT) key.toNat = true → ∃ u, exec (.fuseProgramKey who key good) s = .next u ∧
        u.f sec F.SEC3_RESULT = 2 ∧ u.f sec F.SEC3_KEY_PRESENT = s.f sec F.SEC3_KEY_PRESENT) ∧
      (s.lcState ≠ 0 → ∃ u, exec (.fuseProgramKey who key good) s = .next u ∧ u.f sec F.SEC3_RESULT = 1 ∧
        u.f sec F.SEC3_KEY_PRESENT = s.f sec F.SEC3_KEY_PRESENT))

/-- Reset (R37, R41, R51, R114): right after power-on every partition is ABSENT, every event is masked, every counter holds VALUE
0 and LIMIT 0xFFFF_FFFF, and the power settings hold their reset values; a whole-device reset returns every register that it does
not keep to its reset value, abandons all work, and leaves of memory only the host's, and at a cold or warm reset what the bulk
holds, under keys that are gone. -/
def Obligations.ResetValues : Prop :=
  (∀ p, (State.reset.part p).st = .absent) ∧
  (∀ pg, (classOf pg).isSome = true → State.reset.reg (pg * 4096 + oMask) = 0xFFFFFFFF) ∧
  (∀ k, k < 8192 → State.reset.value k = 0 ∧ State.reset.limit k = 0xFFFFFFFF) ∧
  State.reset.f Pg.pwr F.PWR_CAP_W = 1400 ∧ State.reset.f Pg.pwr F.PWR_PEAK_W = 1700 ∧ State.reset.power.time = 0 ∧
  ∀ (s : State) (k : WholeReset) (cause : Nat),
    let u := s.clear k cause
    (∀ a, keptReg k a = false → u.reg a = resetWord a) ∧ u.parts = [] ∧ u.threads = [] ∧ u.formes = [] ∧ u.tiles = [] ∧ u.kvs = [] ∧
    u.cambs = [] ∧ u.snaps = [] ∧ u.fills = [] ∧ u.replays = [] ∧ u.canopy.ctx = [] ∧ u.canopy.reqs = [] ∧ u.canopy.colls = [] ∧
    u.power.reset = some k ∧ u.power.cause = cause ∧ u.power.ready = false ∧ u.pending = s.pending ∧
    (∀ a, a < 2 ^ 64 → (inBulk a = false ∨ k = .powerOn) → AMap.get? a u.mem = none) ∧
    (∀ a, (2 ^ 64 ≤ a ∨ (inBulk a = true ∧ k ≠ .powerOn)) → AMap.get? a u.mem = AMap.get? a s.mem)
end

