-- ==== Sys2Proof/Laws/Maps.lean ====
section
/-! SUPPORT. What reading a sparse map gives after an update, and that memory stays in its canonical form. -/

namespace Sys2Proof.Machine

/-! ### Sparse maps -/

theorem AMap.get?_put {β : Type} (k j : Nat) (v : β) (m : AMap β) :
    AMap.get? j (AMap.put k v m) = if j = k then some v else AMap.get? j m := by
  induction m with
  | nil => by_cases h : k = j <;> simp [AMap.put, AMap.get?, h, eq_comm]
  | cons x t ih =>
    obtain ⟨k', v'⟩ := x
    simp only [AMap.put]
    split_ifs with h1 h2 <;> simp only [AMap.get?, ih] <;> split_ifs <;> first | rfl | omega

@[simp] theorem AMap.get?_put_self {β : Type} (k : Nat) (v : β) (m : AMap β) : AMap.get? k (AMap.put k v m) = some v := by
  simp [AMap.get?_put]

theorem AMap.get?_put_ne {β : Type} {k j : Nat} (h : j ≠ k) (v : β) (m : AMap β) :
    AMap.get? j (AMap.put k v m) = AMap.get? j m := by
  simp [AMap.get?_put, h]

theorem AMap.get?_filter {β : Type} (p : Nat → Bool) (j : Nat) (m : AMap β) :
    AMap.get? j (m.filter fun x => p x.1) = if p j then AMap.get? j m else none := by
  induction m with
  | nil => simp [AMap.get?]
  | cons x t ih =>
    obtain ⟨k, v⟩ := x
    by_cases hk : k = j
    · subst hk
      by_cases hp : p k <;> simp [AMap.get?, hp, ih]
    · by_cases hp : p k <;> simp [AMap.get?, hp, ih, hk]

theorem AMap.get?_map {β γ : Type} (g : β → γ) (j : Nat) (m : AMap β) :
    AMap.get? j (m.map fun x => (x.1, g x.2)) = (AMap.get? j m).map g := by
  induction m with
  | nil => rfl
  | cons x t ih => obtain ⟨k, v⟩ := x; simp only [List.map_cons, AMap.get?]; split_ifs <;> simp [ih]

@[simp] theorem AMap.get?_del_self {β : Type} (k : Nat) (m : AMap β) : AMap.get? k (AMap.del k m) = none := by
  simp [AMap.del, AMap.get?_filter (fun x => x != k)]

theorem AMap.get?_del {β : Type} (k j : Nat) (m : AMap β) :
    AMap.get? j (AMap.del k m) = if j = k then none else AMap.get? j m := by
  rw [AMap.del, AMap.get?_filter (fun x => x != k)]
  by_cases h : j = k <;> simp [h]

theorem AMap.getD_put {β : Type} (k j : Nat) (v d : β) (m : AMap β) :
    AMap.getD j d (AMap.put k v m) = if j = k then v else AMap.getD j d m := by
  simp only [AMap.getD, AMap.get?_put]
  split_ifs <;> rfl

@[simp] theorem AMap.getD_put_self {β : Type} (k : Nat) (v d : β) (m : AMap β) : AMap.getD k d (AMap.put k v m) = v := by
  simp [AMap.getD_put]

theorem AMap.put_put {β : Type} (k : Nat) (v w : β) (m : AMap β) : AMap.put k v (AMap.put k w m) = AMap.put k v m := by
  induction m with
  | nil => simp [AMap.put]
  | cons x t ih =>
    obtain ⟨k', v'⟩ := x
    simp only [AMap.put]
    split_ifs with h1 h2
    · simp [AMap.put]
    · simp [AMap.put]
    · simp only [AMap.put, if_neg h1, if_neg h2, ih]

/-! ### Memory stays in its canonical form -/

theorem AMap.mem_put {β : Type} {k : Nat} {v : β} {m : AMap β} {x : Nat × β} (h : x ∈ AMap.put k v m) : x = (k, v) ∨ x ∈ m := by
  induction m with
  | nil => simpa [AMap.put] using h
  | cons y t ih =>
    obtain ⟨k', v'⟩ := y
    simp only [AMap.put] at h
    split_ifs at h <;> simp only [List.mem_cons] at h ⊢
    · tauto
    · tauto
    · rcases h with h | h
      · tauto
      · rcases ih h with h | h <;> tauto

theorem AMap.put_rising {β : Type} (k : Nat) (v : β) {m : AMap β} (h : m.Pairwise fun x y => x.1 < y.1) :
    (AMap.put k v m).Pairwise fun x y => x.1 < y.1 := by
  induction m with
  | nil => simp [AMap.put]
  | cons y t ih =>
    obtain ⟨k', v'⟩ := y
    rw [List.pairwise_cons] at h
    simp only [AMap.put]
    split_ifs with h1 h2
    · refine List.pairwise_cons.2 ⟨?_, List.pairwise_cons.2 h⟩
      intro x hx
      rcases List.mem_cons.1 hx with rfl | hx
      · exact h1
      · exact h1.trans (h.1 x hx)
    · subst h2
      exact List.pairwise_cons.2 ⟨fun x hx => h.1 x hx, h.2⟩
    · refine List.pairwise_cons.2 ⟨fun x hx => ?_, ih h.2⟩
      rcases AMap.mem_put hx with rfl | hx
      · simp only; omega
      · exact h.1 x hx

theorem Memory.wf_filter {m : Memory} (h : m.wf) (p : Host.Cell → Bool) : Memory.wf (m.filter p) :=
  ⟨h.1.filter _, fun c hc => h.2 c (List.mem_filter.1 hc).1⟩

theorem Memory.wf_set {m : Memory} (h : m.wf) (a : Nat) (b : Byte) : (m.set a b).wf := by
  unfold Memory.set
  split_ifs with hu
  · exact Memory.wf_filter h _
  · refine ⟨AMap.put_rising a b h.1, fun c hc => ?_⟩
    rcases AMap.mem_put hc with rfl | hc
    · exact hu
    · exact h.2 c hc

theorem Memory.wf_setAll (b : List Byte) {m : Memory} (a : Nat) (h : m.wf) : (m.setAll a b).wf := by
  induction b generalizing a m with
  | nil => exact h
  | cons x t ih => exact ih _ (Memory.wf_set h a x)

theorem State.wf_poke {s : State} (h : Memory.wf s.mem) (a : Nat) (b : List Byte) : Memory.wf (s.poke a b).mem :=
  Memory.wf_setAll b a h

theorem State.wf_wipe {s : State} (h : Memory.wf s.mem) (a n : Nat) : Memory.wf (s.wipe a n).mem := Memory.wf_filter h _

theorem State.wf_reset : Memory.wf State.reset.mem := by decide

/-! ### Reading memory after a write -/

/-- What a key of a memory reads as where a list or the unlisted value gives it. -/
def Memory.shows (m : Memory) (k : Nat) : Option Byte := (AMap.get? k m).or (unlisted k)

theorem Memory.shows_set (m : Memory) (a k : Nat) (b : Byte) :
    (m.set a b).shows k = if k = a then some b else m.shows k := by
  unfold Memory.set Memory.shows
  by_cases hk : k = a
  · subst hk
    by_cases hu : unlisted k = some b <;> simp [hu]
  · split_ifs with hu <;> simp [AMap.get?_put, AMap.get?_del, hk]

theorem Memory.shows_setAll (b : List Byte) (m : Memory) (a k : Nat) :
    (m.setAll a b).shows k = if a ≤ k ∧ k < a + b.length then b[k - a]? else m.shows k := by
  induction b generalizing a m with
  | nil => simp [Memory.setAll]
  | cons x t ih =>
    rw [Memory.setAll, ih, Memory.shows_set]
    simp only [List.length_cons]
    by_cases h1 : k = a
    · subst h1; simp
    · by_cases h2 : a ≤ k
      · have : k - a = (k - (a + 1)) + 1 := by omega
        rw [this, List.getElem?_cons_succ, if_neg h1]
        by_cases h3 : k < a + (t.length + 1)
        · rw [if_pos (by omega), if_pos (by omega)]
        · rw [if_neg (by omega), if_neg (by omega)]
      · rw [if_neg (by omega), if_neg h1, if_neg (by omega)]

theorem State.byte_eq (s : State) (k : Nat) : s.byte k = (Memory.shows s.mem k).getD (if 2 ^ 64 ≤ k then Config.hostByte (k - 2 ^ 64)
    else Config.bulkByte s.bulkLost k) := by
  unfold State.byte Memory.shows
  cases AMap.get? k s.mem <;> cases unlisted k <;> rfl

/-- Reading a byte after a write: a written byte where the write put one, what it read before elsewhere. -/
theorem State.byte_poke (s : State) (a k : Nat) (b : List Byte) :
    (s.poke a b).byte k = if a ≤ k ∧ k < a + b.length then b.getD (k - a) 0 else s.byte k := by
  rw [State.byte_eq, State.byte_eq]
  show (Memory.shows (Memory.setAll a b s.mem) k).getD _ = _
  rw [Memory.shows_setAll]
  split_ifs with h <;> first
    | rfl
    | (rw [List.getD_eq_getElem?_getD, List.getElem?_eq_getElem (by omega)]; rfl)

theorem State.bytes_poke_self (s : State) (a : Nat) (b : List Byte) : (s.poke a b).bytes a b.length = b := by
  refine List.ext_getElem (by simp [State.bytes]) fun i h1 h2 => ?_
  simp only [State.bytes, List.getElem_map, List.getElem_range, State.byte_poke]
  rw [if_pos (by omega), Nat.add_sub_cancel_left, List.getD_eq_getElem?_getD, List.getElem?_eq_getElem h2]; rfl

end Sys2Proof.Machine
end

