-- ==== Sys2Proof/Laws/State.lean ====
section
/-! SUPPORT. What each field of the state holds after each named update, true by unfolding; the updates that are written with others; and
what the accessors read after an update. -/

namespace Sys2Proof.Machine

@[simp] theorem State.setReg_pending (s : State) (a v : Nat) : (s.setReg a v).pending = s.pending := rfl
@[simp] theorem State.setReg_mem (s : State) (a v : Nat) : (s.setReg a v).mem = s.mem := rfl
@[simp] theorem State.setReg_faulty (s : State) (a v : Nat) : (s.setReg a v).faulty = s.faulty := rfl
@[simp] theorem State.setReg_bulkLost (s : State) (a v : Nat) : (s.setReg a v).bulkLost = s.bulkLost := rfl
@[simp] theorem State.setReg_shadow (s : State) (a v : Nat) : (s.setReg a v).shadow = s.shadow := rfl
@[simp] theorem State.setReg_lastSet (s : State) (a v : Nat) : (s.setReg a v).lastSet = s.lastSet := rfl
@[simp] theorem State.setReg_lastClear (s : State) (a v : Nat) : (s.setReg a v).lastClear = s.lastClear := rfl
@[simp] theorem State.setReg_out (s : State) (a v : Nat) : (s.setReg a v).out = s.out := rfl
@[simp] theorem State.setReg_draws (s : State) (a v : Nat) : (s.setReg a v).draws = s.draws := rfl
@[simp] theorem State.setReg_opens (s : State) (a v : Nat) : (s.setReg a v).opens = s.opens := rfl
@[simp] theorem State.setReg_power (s : State) (a v : Nat) : (s.setReg a v).power = s.power := rfl
@[simp] theorem State.setReg_parts (s : State) (a v : Nat) : (s.setReg a v).parts = s.parts := rfl
@[simp] theorem State.setReg_integ (s : State) (a v : Nat) : (s.setReg a v).integ = s.integ := rfl
@[simp] theorem State.setReg_vfEnable (s : State) (a v : Nat) : (s.setReg a v).vfEnable = s.vfEnable := rfl
@[simp] theorem State.setReg_numVfs (s : State) (a v : Nat) : (s.setReg a v).numVfs = s.numVfs := rfl
@[simp] theorem State.setReg_fns (s : State) (a v : Nat) : (s.setReg a v).fns = s.fns := rfl
@[simp] theorem State.setReg_kvs (s : State) (a v : Nat) : (s.setReg a v).kvs = s.kvs := rfl
@[simp] theorem State.setReg_cambs (s : State) (a v : Nat) : (s.setReg a v).cambs = s.cambs := rfl
@[simp] theorem State.setReg_stream (s : State) (a v : Nat) : (s.setReg a v).stream = s.stream := rfl
@[simp] theorem State.setReg_switches (s : State) (a v : Nat) : (s.setReg a v).switches = s.switches := rfl
@[simp] theorem State.setReg_intks (s : State) (a v : Nat) : (s.setReg a v).intks = s.intks := rfl
@[simp] theorem State.setReg_engines (s : State) (a v : Nat) : (s.setReg a v).engines = s.engines := rfl
@[simp] theorem State.setReg_applyPassed (s : State) (a v : Nat) : (s.setReg a v).applyPassed = s.applyPassed := rfl
@[simp] theorem State.setReg_threads (s : State) (a v : Nat) : (s.setReg a v).threads = s.threads := rfl
@[simp] theorem State.setReg_cores (s : State) (a v : Nat) : (s.setReg a v).cores = s.cores := rfl
@[simp] theorem State.setReg_heldWrites (s : State) (a v : Nat) : (s.setReg a v).heldWrites = s.heldWrites := rfl
@[simp] theorem State.setReg_hostStops (s : State) (a v : Nat) : (s.setReg a v).hostStops = s.hostStops := rfl
@[simp] theorem State.setReg_hostTurn (s : State) (a v : Nat) : (s.setReg a v).hostTurn = s.hostTurn := rfl
@[simp] theorem State.setReg_formes (s : State) (a v : Nat) : (s.setReg a v).formes = s.formes := rfl
@[simp] theorem State.setReg_nextForme (s : State) (a v : Nat) : (s.setReg a v).nextForme = s.nextForme := rfl
@[simp] theorem State.setReg_tiles (s : State) (a v : Nat) : (s.setReg a v).tiles = s.tiles := rfl
@[simp] theorem State.setReg_heldPlans (s : State) (a v : Nat) : (s.setReg a v).heldPlans = s.heldPlans := rfl
@[simp] theorem State.setReg_refused (s : State) (a v : Nat) : (s.setReg a v).refused = s.refused := rfl
@[simp] theorem State.setReg_reducers (s : State) (a v : Nat) : (s.setReg a v).reducers = s.reducers := rfl
@[simp] theorem State.setReg_canopy (s : State) (a v : Nat) : (s.setReg a v).canopy = s.canopy := rfl
@[simp] theorem State.setReg_snaps (s : State) (a v : Nat) : (s.setReg a v).snaps = s.snaps := rfl
@[simp] theorem State.setReg_fills (s : State) (a v : Nat) : (s.setReg a v).fills = s.fills := rfl
@[simp] theorem State.setReg_replays (s : State) (a v : Nat) : (s.setReg a v).replays = s.replays := rfl
@[simp] theorem State.setReg_sec (s : State) (a v : Nat) : (s.setReg a v).sec = s.sec := rfl

@[simp] theorem State.setF_pending (s : State) (pg : Nat) (f : Fld) (v : Nat) : (s.setF pg f v).pending = s.pending := rfl
@[simp] theorem State.setF_mem (s : State) (pg : Nat) (f : Fld) (v : Nat) : (s.setF pg f v).mem = s.mem := rfl
@[simp] theorem State.setF_faulty (s : State) (pg : Nat) (f : Fld) (v : Nat) : (s.setF pg f v).faulty = s.faulty := rfl
@[simp] theorem State.setF_bulkLost (s : State) (pg : Nat) (f : Fld) (v : Nat) : (s.setF pg f v).bulkLost = s.bulkLost := rfl
@[simp] theorem State.setF_shadow (s : State) (pg : Nat) (f : Fld) (v : Nat) : (s.setF pg f v).shadow = s.shadow := rfl
@[simp] theorem State.setF_lastSet (s : State) (pg : Nat) (f : Fld) (v : Nat) : (s.setF pg f v).lastSet = s.lastSet := rfl
@[simp] theorem State.setF_lastClear (s : State) (pg : Nat) (f : Fld) (v : Nat) : (s.setF pg f v).lastClear = s.lastClear := rfl
@[simp] theorem State.setF_out (s : State) (pg : Nat) (f : Fld) (v : Nat) : (s.setF pg f v).out = s.out := rfl
@[simp] theorem State.setF_draws (s : State) (pg : Nat) (f : Fld) (v : Nat) : (s.setF pg f v).draws = s.draws := rfl
@[simp] theorem State.setF_opens (s : State) (pg : Nat) (f : Fld) (v : Nat) : (s.setF pg f v).opens = s.opens := rfl
@[simp] theorem State.setF_power (s : State) (pg : Nat) (f : Fld) (v : Nat) : (s.setF pg f v).power = s.power := rfl
@[simp] theorem State.setF_parts (s : State) (pg : Nat) (f : Fld) (v : Nat) : (s.setF pg f v).parts = s.parts := rfl
@[simp] theorem State.setF_integ (s : State) (pg : Nat) (f : Fld) (v : Nat) : (s.setF pg f v).integ = s.integ := rfl
@[simp] theorem State.setF_vfEnable (s : State) (pg : Nat) (f : Fld) (v : Nat) : (s.setF pg f v).vfEnable = s.vfEnable := rfl
@[simp] theorem State.setF_numVfs (s : State) (pg : Nat) (f : Fld) (v : Nat) : (s.setF pg f v).numVfs = s.numVfs := rfl
@[simp] theorem State.setF_fns (s : State) (pg : Nat) (f : Fld) (v : Nat) : (s.setF pg f v).fns = s.fns := rfl
@[simp] theorem State.setF_kvs (s : State) (pg : Nat) (f : Fld) (v : Nat) : (s.setF pg f v).kvs = s.kvs := rfl
@[simp] theorem State.setF_cambs (s : State) (pg : Nat) (f : Fld) (v : Nat) : (s.setF pg f v).cambs = s.cambs := rfl
@[simp] theorem State.setF_stream (s : State) (pg : Nat) (f : Fld) (v : Nat) : (s.setF pg f v).stream = s.stream := rfl
@[simp] theorem State.setF_switches (s : State) (pg : Nat) (f : Fld) (v : Nat) : (s.setF pg f v).switches = s.switches := rfl
@[simp] theorem State.setF_intks (s : State) (pg : Nat) (f : Fld) (v : Nat) : (s.setF pg f v).intks = s.intks := rfl
@[simp] theorem State.setF_engines (s : State) (pg : Nat) (f : Fld) (v : Nat) : (s.setF pg f v).engines = s.engines := rfl
@[simp] theorem State.setF_applyPassed (s : State) (pg : Nat) (f : Fld) (v : Nat) : (s.setF pg f v).applyPassed = s.applyPassed := rfl
@[simp] theorem State.setF_threads (s : State) (pg : Nat) (f : Fld) (v : Nat) : (s.setF pg f v).threads = s.threads := rfl
@[simp] theorem State.setF_cores (s : State) (pg : Nat) (f : Fld) (v : Nat) : (s.setF pg f v).cores = s.cores := rfl
@[simp] theorem State.setF_heldWrites (s : State) (pg : Nat) (f : Fld) (v : Nat) : (s.setF pg f v).heldWrites = s.heldWrites := rfl
@[simp] theorem State.setF_hostStops (s : State) (pg : Nat) (f : Fld) (v : Nat) : (s.setF pg f v).hostStops = s.hostStops := rfl
@[simp] theorem State.setF_hostTurn (s : State) (pg : Nat) (f : Fld) (v : Nat) : (s.setF pg f v).hostTurn = s.hostTurn := rfl
@[simp] theorem State.setF_formes (s : State) (pg : Nat) (f : Fld) (v : Nat) : (s.setF pg f v).formes = s.formes := rfl
@[simp] theorem State.setF_nextForme (s : State) (pg : Nat) (f : Fld) (v : Nat) : (s.setF pg f v).nextForme = s.nextForme := rfl
@[simp] theorem State.setF_tiles (s : State) (pg : Nat) (f : Fld) (v : Nat) : (s.setF pg f v).tiles = s.tiles := rfl
@[simp] theorem State.setF_heldPlans (s : State) (pg : Nat) (f : Fld) (v : Nat) : (s.setF pg f v).heldPlans = s.heldPlans := rfl
@[simp] theorem State.setF_refused (s : State) (pg : Nat) (f : Fld) (v : Nat) : (s.setF pg f v).refused = s.refused := rfl
@[simp] theorem State.setF_reducers (s : State) (pg : Nat) (f : Fld) (v : Nat) : (s.setF pg f v).reducers = s.reducers := rfl
@[simp] theorem State.setF_canopy (s : State) (pg : Nat) (f : Fld) (v : Nat) : (s.setF pg f v).canopy = s.canopy := rfl
@[simp] theorem State.setF_snaps (s : State) (pg : Nat) (f : Fld) (v : Nat) : (s.setF pg f v).snaps = s.snaps := rfl
@[simp] theorem State.setF_fills (s : State) (pg : Nat) (f : Fld) (v : Nat) : (s.setF pg f v).fills = s.fills := rfl
@[simp] theorem State.setF_replays (s : State) (pg : Nat) (f : Fld) (v : Nat) : (s.setF pg f v).replays = s.replays := rfl
@[simp] theorem State.setF_sec (s : State) (pg : Nat) (f : Fld) (v : Nat) : (s.setF pg f v).sec = s.sec := rfl

@[simp] theorem State.emit_pending (s : State) (o : Output) : (s.emit o).pending = s.pending := rfl
@[simp] theorem State.emit_mem (s : State) (o : Output) : (s.emit o).mem = s.mem := rfl
@[simp] theorem State.emit_faulty (s : State) (o : Output) : (s.emit o).faulty = s.faulty := rfl
@[simp] theorem State.emit_bulkLost (s : State) (o : Output) : (s.emit o).bulkLost = s.bulkLost := rfl
@[simp] theorem State.emit_regs (s : State) (o : Output) : (s.emit o).regs = s.regs := rfl
@[simp] theorem State.emit_shadow (s : State) (o : Output) : (s.emit o).shadow = s.shadow := rfl
@[simp] theorem State.emit_lastSet (s : State) (o : Output) : (s.emit o).lastSet = s.lastSet := rfl
@[simp] theorem State.emit_lastClear (s : State) (o : Output) : (s.emit o).lastClear = s.lastClear := rfl
@[simp] theorem State.emit_draws (s : State) (o : Output) : (s.emit o).draws = s.draws := rfl
@[simp] theorem State.emit_opens (s : State) (o : Output) : (s.emit o).opens = s.opens := rfl
@[simp] theorem State.emit_power (s : State) (o : Output) : (s.emit o).power = s.power := rfl
@[simp] theorem State.emit_parts (s : State) (o : Output) : (s.emit o).parts = s.parts := rfl
@[simp] theorem State.emit_integ (s : State) (o : Output) : (s.emit o).integ = s.integ := rfl
@[simp] theorem State.emit_vfEnable (s : State) (o : Output) : (s.emit o).vfEnable = s.vfEnable := rfl
@[simp] theorem State.emit_numVfs (s : State) (o : Output) : (s.emit o).numVfs = s.numVfs := rfl
@[simp] theorem State.emit_fns (s : State) (o : Output) : (s.emit o).fns = s.fns := rfl
@[simp] theorem State.emit_kvs (s : State) (o : Output) : (s.emit o).kvs = s.kvs := rfl
@[simp] theorem State.emit_cambs (s : State) (o : Output) : (s.emit o).cambs = s.cambs := rfl
@[simp] theorem State.emit_stream (s : State) (o : Output) : (s.emit o).stream = s.stream := rfl
@[simp] theorem State.emit_switches (s : State) (o : Output) : (s.emit o).switches = s.switches := rfl
@[simp] theorem State.emit_intks (s : State) (o : Output) : (s.emit o).intks = s.intks := rfl
@[simp] theorem State.emit_engines (s : State) (o : Output) : (s.emit o).engines = s.engines := rfl
@[simp] theorem State.emit_applyPassed (s : State) (o : Output) : (s.emit o).applyPassed = s.applyPassed := rfl
@[simp] theorem State.emit_threads (s : State) (o : Output) : (s.emit o).threads = s.threads := rfl
@[simp] theorem State.emit_cores (s : State) (o : Output) : (s.emit o).cores = s.cores := rfl
@[simp] theorem State.emit_heldWrites (s : State) (o : Output) : (s.emit o).heldWrites = s.heldWrites := rfl
@[simp] theorem State.emit_hostStops (s : State) (o : Output) : (s.emit o).hostStops = s.hostStops := rfl
@[simp] theorem State.emit_hostTurn (s : State) (o : Output) : (s.emit o).hostTurn = s.hostTurn := rfl
@[simp] theorem State.emit_formes (s : State) (o : Output) : (s.emit o).formes = s.formes := rfl
@[simp] theorem State.emit_nextForme (s : State) (o : Output) : (s.emit o).nextForme = s.nextForme := rfl
@[simp] theorem State.emit_tiles (s : State) (o : Output) : (s.emit o).tiles = s.tiles := rfl
@[simp] theorem State.emit_heldPlans (s : State) (o : Output) : (s.emit o).heldPlans = s.heldPlans := rfl
@[simp] theorem State.emit_refused (s : State) (o : Output) : (s.emit o).refused = s.refused := rfl
@[simp] theorem State.emit_reducers (s : State) (o : Output) : (s.emit o).reducers = s.reducers := rfl
@[simp] theorem State.emit_canopy (s : State) (o : Output) : (s.emit o).canopy = s.canopy := rfl
@[simp] theorem State.emit_snaps (s : State) (o : Output) : (s.emit o).snaps = s.snaps := rfl
@[simp] theorem State.emit_fills (s : State) (o : Output) : (s.emit o).fills = s.fills := rfl
@[simp] theorem State.emit_replays (s : State) (o : Output) : (s.emit o).replays = s.replays := rfl
@[simp] theorem State.emit_sec (s : State) (o : Output) : (s.emit o).sec = s.sec := rfl

@[simp] theorem State.poke_pending (s : State) (a : Nat) (b : List Byte) : (s.poke a b).pending = s.pending := rfl
@[simp] theorem State.poke_faulty (s : State) (a : Nat) (b : List Byte) : (s.poke a b).faulty = s.faulty := rfl
@[simp] theorem State.poke_bulkLost (s : State) (a : Nat) (b : List Byte) : (s.poke a b).bulkLost = s.bulkLost := rfl
@[simp] theorem State.poke_regs (s : State) (a : Nat) (b : List Byte) : (s.poke a b).regs = s.regs := rfl
@[simp] theorem State.poke_shadow (s : State) (a : Nat) (b : List Byte) : (s.poke a b).shadow = s.shadow := rfl
@[simp] theorem State.poke_lastSet (s : State) (a : Nat) (b : List Byte) : (s.poke a b).lastSet = s.lastSet := rfl
@[simp] theorem State.poke_lastClear (s : State) (a : Nat) (b : List Byte) : (s.poke a b).lastClear = s.lastClear := rfl
@[simp] theorem State.poke_out (s : State) (a : Nat) (b : List Byte) : (s.poke a b).out = s.out := rfl
@[simp] theorem State.poke_draws (s : State) (a : Nat) (b : List Byte) : (s.poke a b).draws = s.draws := rfl
@[simp] theorem State.poke_opens (s : State) (a : Nat) (b : List Byte) : (s.poke a b).opens = s.opens := rfl
@[simp] theorem State.poke_power (s : State) (a : Nat) (b : List Byte) : (s.poke a b).power = s.power := rfl
@[simp] theorem State.poke_parts (s : State) (a : Nat) (b : List Byte) : (s.poke a b).parts = s.parts := rfl
@[simp] theorem State.poke_integ (s : State) (a : Nat) (b : List Byte) : (s.poke a b).integ = s.integ := rfl
@[simp] theorem State.poke_vfEnable (s : State) (a : Nat) (b : List Byte) : (s.poke a b).vfEnable = s.vfEnable := rfl
@[simp] theorem State.poke_numVfs (s : State) (a : Nat) (b : List Byte) : (s.poke a b).numVfs = s.numVfs := rfl
@[simp] theorem State.poke_fns (s : State) (a : Nat) (b : List Byte) : (s.poke a b).fns = s.fns := rfl
@[simp] theorem State.poke_kvs (s : State) (a : Nat) (b : List Byte) : (s.poke a b).kvs = s.kvs := rfl
@[simp] theorem State.poke_cambs (s : State) (a : Nat) (b : List Byte) : (s.poke a b).cambs = s.cambs := rfl
@[simp] theorem State.poke_stream (s : State) (a : Nat) (b : List Byte) : (s.poke a b).stream = s.stream := rfl
@[simp] theorem State.poke_switches (s : State) (a : Nat) (b : List Byte) : (s.poke a b).switches = s.switches := rfl
@[simp] theorem State.poke_intks (s : State) (a : Nat) (b : List Byte) : (s.poke a b).intks = s.intks := rfl
@[simp] theorem State.poke_engines (s : State) (a : Nat) (b : List Byte) : (s.poke a b).engines = s.engines := rfl
@[simp] theorem State.poke_applyPassed (s : State) (a : Nat) (b : List Byte) : (s.poke a b).applyPassed = s.applyPassed := rfl
@[simp] theorem State.poke_threads (s : State) (a : Nat) (b : List Byte) : (s.poke a b).threads = s.threads := rfl
@[simp] theorem State.poke_cores (s : State) (a : Nat) (b : List Byte) : (s.poke a b).cores = s.cores := rfl
@[simp] theorem State.poke_heldWrites (s : State) (a : Nat) (b : List Byte) : (s.poke a b).heldWrites = s.heldWrites := rfl
@[simp] theorem State.poke_hostStops (s : State) (a : Nat) (b : List Byte) : (s.poke a b).hostStops = s.hostStops := rfl
@[simp] theorem State.poke_hostTurn (s : State) (a : Nat) (b : List Byte) : (s.poke a b).hostTurn = s.hostTurn := rfl
@[simp] theorem State.poke_formes (s : State) (a : Nat) (b : List Byte) : (s.poke a b).formes = s.formes := rfl
@[simp] theorem State.poke_nextForme (s : State) (a : Nat) (b : List Byte) : (s.poke a b).nextForme = s.nextForme := rfl
@[simp] theorem State.poke_tiles (s : State) (a : Nat) (b : List Byte) : (s.poke a b).tiles = s.tiles := rfl
@[simp] theorem State.poke_heldPlans (s : State) (a : Nat) (b : List Byte) : (s.poke a b).heldPlans = s.heldPlans := rfl
@[simp] theorem State.poke_refused (s : State) (a : Nat) (b : List Byte) : (s.poke a b).refused = s.refused := rfl
@[simp] theorem State.poke_reducers (s : State) (a : Nat) (b : List Byte) : (s.poke a b).reducers = s.reducers := rfl
@[simp] theorem State.poke_canopy (s : State) (a : Nat) (b : List Byte) : (s.poke a b).canopy = s.canopy := rfl
@[simp] theorem State.poke_snaps (s : State) (a : Nat) (b : List Byte) : (s.poke a b).snaps = s.snaps := rfl
@[simp] theorem State.poke_fills (s : State) (a : Nat) (b : List Byte) : (s.poke a b).fills = s.fills := rfl
@[simp] theorem State.poke_replays (s : State) (a : Nat) (b : List Byte) : (s.poke a b).replays = s.replays := rfl
@[simp] theorem State.poke_sec (s : State) (a : Nat) (b : List Byte) : (s.poke a b).sec = s.sec := rfl

@[simp] theorem State.wipe_pending (s : State) (a n : Nat) : (s.wipe a n).pending = s.pending := rfl
@[simp] theorem State.wipe_bulkLost (s : State) (a n : Nat) : (s.wipe a n).bulkLost = s.bulkLost := rfl
@[simp] theorem State.wipe_regs (s : State) (a n : Nat) : (s.wipe a n).regs = s.regs := rfl
@[simp] theorem State.wipe_shadow (s : State) (a n : Nat) : (s.wipe a n).shadow = s.shadow := rfl
@[simp] theorem State.wipe_lastSet (s : State) (a n : Nat) : (s.wipe a n).lastSet = s.lastSet := rfl
@[simp] theorem State.wipe_lastClear (s : State) (a n : Nat) : (s.wipe a n).lastClear = s.lastClear := rfl
@[simp] theorem State.wipe_out (s : State) (a n : Nat) : (s.wipe a n).out = s.out := rfl
@[simp] theorem State.wipe_draws (s : State) (a n : Nat) : (s.wipe a n).draws = s.draws := rfl
@[simp] theorem State.wipe_opens (s : State) (a n : Nat) : (s.wipe a n).opens = s.opens := rfl
@[simp] theorem State.wipe_power (s : State) (a n : Nat) : (s.wipe a n).power = s.power := rfl
@[simp] theorem State.wipe_parts (s : State) (a n : Nat) : (s.wipe a n).parts = s.parts := rfl
@[simp] theorem State.wipe_integ (s : State) (a n : Nat) : (s.wipe a n).integ = s.integ := rfl
@[simp] theorem State.wipe_vfEnable (s : State) (a n : Nat) : (s.wipe a n).vfEnable = s.vfEnable := rfl
@[simp] theorem State.wipe_numVfs (s : State) (a n : Nat) : (s.wipe a n).numVfs = s.numVfs := rfl
@[simp] theorem State.wipe_fns (s : State) (a n : Nat) : (s.wipe a n).fns = s.fns := rfl
@[simp] theorem State.wipe_kvs (s : State) (a n : Nat) : (s.wipe a n).kvs = s.kvs := rfl
@[simp] theorem State.wipe_cambs (s : State) (a n : Nat) : (s.wipe a n).cambs = s.cambs := rfl
@[simp] theorem State.wipe_stream (s : State) (a n : Nat) : (s.wipe a n).stream = s.stream := rfl
@[simp] theorem State.wipe_switches (s : State) (a n : Nat) : (s.wipe a n).switches = s.switches := rfl
@[simp] theorem State.wipe_intks (s : State) (a n : Nat) : (s.wipe a n).intks = s.intks := rfl
@[simp] theorem State.wipe_engines (s : State) (a n : Nat) : (s.wipe a n).engines = s.engines := rfl
@[simp] theorem State.wipe_applyPassed (s : State) (a n : Nat) : (s.wipe a n).applyPassed = s.applyPassed := rfl
@[simp] theorem State.wipe_threads (s : State) (a n : Nat) : (s.wipe a n).threads = s.threads := rfl
@[simp] theorem State.wipe_cores (s : State) (a n : Nat) : (s.wipe a n).cores = s.cores := rfl
@[simp] theorem State.wipe_heldWrites (s : State) (a n : Nat) : (s.wipe a n).heldWrites = s.heldWrites := rfl
@[simp] theorem State.wipe_hostStops (s : State) (a n : Nat) : (s.wipe a n).hostStops = s.hostStops := rfl
@[simp] theorem State.wipe_hostTurn (s : State) (a n : Nat) : (s.wipe a n).hostTurn = s.hostTurn := rfl
@[simp] theorem State.wipe_formes (s : State) (a n : Nat) : (s.wipe a n).formes = s.formes := rfl
@[simp] theorem State.wipe_nextForme (s : State) (a n : Nat) : (s.wipe a n).nextForme = s.nextForme := rfl
@[simp] theorem State.wipe_tiles (s : State) (a n : Nat) : (s.wipe a n).tiles = s.tiles := rfl
@[simp] theorem State.wipe_heldPlans (s : State) (a n : Nat) : (s.wipe a n).heldPlans = s.heldPlans := rfl
@[simp] theorem State.wipe_refused (s : State) (a n : Nat) : (s.wipe a n).refused = s.refused := rfl
@[simp] theorem State.wipe_reducers (s : State) (a n : Nat) : (s.wipe a n).reducers = s.reducers := rfl
@[simp] theorem State.wipe_canopy (s : State) (a n : Nat) : (s.wipe a n).canopy = s.canopy := rfl
@[simp] theorem State.wipe_snaps (s : State) (a n : Nat) : (s.wipe a n).snaps = s.snaps := rfl
@[simp] theorem State.wipe_fills (s : State) (a n : Nat) : (s.wipe a n).fills = s.fills := rfl
@[simp] theorem State.wipe_replays (s : State) (a n : Nat) : (s.wipe a n).replays = s.replays := rfl
@[simp] theorem State.wipe_sec (s : State) (a n : Nat) : (s.wipe a n).sec = s.sec := rfl

@[simp] theorem State.setPart_pending (s : State) (p : Nat) (x : Part) : (s.setPart p x).pending = s.pending := rfl
@[simp] theorem State.setPart_mem (s : State) (p : Nat) (x : Part) : (s.setPart p x).mem = s.mem := rfl
@[simp] theorem State.setPart_faulty (s : State) (p : Nat) (x : Part) : (s.setPart p x).faulty = s.faulty := rfl
@[simp] theorem State.setPart_bulkLost (s : State) (p : Nat) (x : Part) : (s.setPart p x).bulkLost = s.bulkLost := rfl
@[simp] theorem State.setPart_regs (s : State) (p : Nat) (x : Part) : (s.setPart p x).regs = s.regs := rfl
@[simp] theorem State.setPart_shadow (s : State) (p : Nat) (x : Part) : (s.setPart p x).shadow = s.shadow := rfl
@[simp] theorem State.setPart_lastSet (s : State) (p : Nat) (x : Part) : (s.setPart p x).lastSet = s.lastSet := rfl
@[simp] theorem State.setPart_lastClear (s : State) (p : Nat) (x : Part) : (s.setPart p x).lastClear = s.lastClear := rfl
@[simp] theorem State.setPart_out (s : State) (p : Nat) (x : Part) : (s.setPart p x).out = s.out := rfl
@[simp] theorem State.setPart_draws (s : State) (p : Nat) (x : Part) : (s.setPart p x).draws = s.draws := rfl
@[simp] theorem State.setPart_opens (s : State) (p : Nat) (x : Part) : (s.setPart p x).opens = s.opens := rfl
@[simp] theorem State.setPart_power (s : State) (p : Nat) (x : Part) : (s.setPart p x).power = s.power := rfl
@[simp] theorem State.setPart_integ (s : State) (p : Nat) (x : Part) : (s.setPart p x).integ = s.integ := rfl
@[simp] theorem State.setPart_vfEnable (s : State) (p : Nat) (x : Part) : (s.setPart p x).vfEnable = s.vfEnable := rfl
@[simp] theorem State.setPart_numVfs (s : State) (p : Nat) (x : Part) : (s.setPart p x).numVfs = s.numVfs := rfl
@[simp] theorem State.setPart_fns (s : State) (p : Nat) (x : Part) : (s.setPart p x).fns = s.fns := rfl
@[simp] theorem State.setPart_kvs (s : State) (p : Nat) (x : Part) : (s.setPart p x).kvs = s.kvs := rfl
@[simp] theorem State.setPart_cambs (s : State) (p : Nat) (x : Part) : (s.setPart p x).cambs = s.cambs := rfl
@[simp] theorem State.setPart_stream (s : State) (p : Nat) (x : Part) : (s.setPart p x).stream = s.stream := rfl
@[simp] theorem State.setPart_switches (s : State) (p : Nat) (x : Part) : (s.setPart p x).switches = s.switches := rfl
@[simp] theorem State.setPart_intks (s : State) (p : Nat) (x : Part) : (s.setPart p x).intks = s.intks := rfl
@[simp] theorem State.setPart_engines (s : State) (p : Nat) (x : Part) : (s.setPart p x).engines = s.engines := rfl
@[simp] theorem State.setPart_applyPassed (s : State) (p : Nat) (x : Part) : (s.setPart p x).applyPassed = s.applyPassed := rfl
@[simp] theorem State.setPart_threads (s : State) (p : Nat) (x : Part) : (s.setPart p x).threads = s.threads := rfl
@[simp] theorem State.setPart_cores (s : State) (p : Nat) (x : Part) : (s.setPart p x).cores = s.cores := rfl
@[simp] theorem State.setPart_heldWrites (s : State) (p : Nat) (x : Part) : (s.setPart p x).heldWrites = s.heldWrites := rfl
@[simp] theorem State.setPart_hostStops (s : State) (p : Nat) (x : Part) : (s.setPart p x).hostStops = s.hostStops := rfl
@[simp] theorem State.setPart_hostTurn (s : State) (p : Nat) (x : Part) : (s.setPart p x).hostTurn = s.hostTurn := rfl
@[simp] theorem State.setPart_formes (s : State) (p : Nat) (x : Part) : (s.setPart p x).formes = s.formes := rfl
@[simp] theorem State.setPart_nextForme (s : State) (p : Nat) (x : Part) : (s.setPart p x).nextForme = s.nextForme := rfl
@[simp] theorem State.setPart_tiles (s : State) (p : Nat) (x : Part) : (s.setPart p x).tiles = s.tiles := rfl
@[simp] theorem State.setPart_heldPlans (s : State) (p : Nat) (x : Part) : (s.setPart p x).heldPlans = s.heldPlans := rfl
@[simp] theorem State.setPart_refused (s : State) (p : Nat) (x : Part) : (s.setPart p x).refused = s.refused := rfl
@[simp] theorem State.setPart_reducers (s : State) (p : Nat) (x : Part) : (s.setPart p x).reducers = s.reducers := rfl
@[simp] theorem State.setPart_canopy (s : State) (p : Nat) (x : Part) : (s.setPart p x).canopy = s.canopy := rfl
@[simp] theorem State.setPart_snaps (s : State) (p : Nat) (x : Part) : (s.setPart p x).snaps = s.snaps := rfl
@[simp] theorem State.setPart_fills (s : State) (p : Nat) (x : Part) : (s.setPart p x).fills = s.fills := rfl
@[simp] theorem State.setPart_replays (s : State) (p : Nat) (x : Part) : (s.setPart p x).replays = s.replays := rfl
@[simp] theorem State.setPart_sec (s : State) (p : Nat) (x : Part) : (s.setPart p x).sec = s.sec := rfl

@[simp] theorem State.setFn_pending (s : State) (f : Nat) (x : Fn) : (s.setFn f x).pending = s.pending := rfl
@[simp] theorem State.setFn_mem (s : State) (f : Nat) (x : Fn) : (s.setFn f x).mem = s.mem := rfl
@[simp] theorem State.setFn_faulty (s : State) (f : Nat) (x : Fn) : (s.setFn f x).faulty = s.faulty := rfl
@[simp] theorem State.setFn_bulkLost (s : State) (f : Nat) (x : Fn) : (s.setFn f x).bulkLost = s.bulkLost := rfl
@[simp] theorem State.setFn_regs (s : State) (f : Nat) (x : Fn) : (s.setFn f x).regs = s.regs := rfl
@[simp] theorem State.setFn_shadow (s : State) (f : Nat) (x : Fn) : (s.setFn f x).shadow = s.shadow := rfl
@[simp] theorem State.setFn_lastSet (s : State) (f : Nat) (x : Fn) : (s.setFn f x).lastSet = s.lastSet := rfl
@[simp] theorem State.setFn_lastClear (s : State) (f : Nat) (x : Fn) : (s.setFn f x).lastClear = s.lastClear := rfl
@[simp] theorem State.setFn_out (s : State) (f : Nat) (x : Fn) : (s.setFn f x).out = s.out := rfl
@[simp] theorem State.setFn_draws (s : State) (f : Nat) (x : Fn) : (s.setFn f x).draws = s.draws := rfl
@[simp] theorem State.setFn_opens (s : State) (f : Nat) (x : Fn) : (s.setFn f x).opens = s.opens := rfl
@[simp] theorem State.setFn_power (s : State) (f : Nat) (x : Fn) : (s.setFn f x).power = s.power := rfl
@[simp] theorem State.setFn_parts (s : State) (f : Nat) (x : Fn) : (s.setFn f x).parts = s.parts := rfl
@[simp] theorem State.setFn_integ (s : State) (f : Nat) (x : Fn) : (s.setFn f x).integ = s.integ := rfl
@[simp] theorem State.setFn_vfEnable (s : State) (f : Nat) (x : Fn) : (s.setFn f x).vfEnable = s.vfEnable := rfl
@[simp] theorem State.setFn_numVfs (s : State) (f : Nat) (x : Fn) : (s.setFn f x).numVfs = s.numVfs := rfl
@[simp] theorem State.setFn_kvs (s : State) (f : Nat) (x : Fn) : (s.setFn f x).kvs = s.kvs := rfl
@[simp] theorem State.setFn_cambs (s : State) (f : Nat) (x : Fn) : (s.setFn f x).cambs = s.cambs := rfl
@[simp] theorem State.setFn_stream (s : State) (f : Nat) (x : Fn) : (s.setFn f x).stream = s.stream := rfl
@[simp] theorem State.setFn_switches (s : State) (f : Nat) (x : Fn) : (s.setFn f x).switches = s.switches := rfl
@[simp] theorem State.setFn_intks (s : State) (f : Nat) (x : Fn) : (s.setFn f x).intks = s.intks := rfl
@[simp] theorem State.setFn_engines (s : State) (f : Nat) (x : Fn) : (s.setFn f x).engines = s.engines := rfl
@[simp] theorem State.setFn_applyPassed (s : State) (f : Nat) (x : Fn) : (s.setFn f x).applyPassed = s.applyPassed := rfl
@[simp] theorem State.setFn_threads (s : State) (f : Nat) (x : Fn) : (s.setFn f x).threads = s.threads := rfl
@[simp] theorem State.setFn_cores (s : State) (f : Nat) (x : Fn) : (s.setFn f x).cores = s.cores := rfl
@[simp] theorem State.setFn_heldWrites (s : State) (f : Nat) (x : Fn) : (s.setFn f x).heldWrites = s.heldWrites := rfl
@[simp] theorem State.setFn_hostStops (s : State) (f : Nat) (x : Fn) : (s.setFn f x).hostStops = s.hostStops := rfl
@[simp] theorem State.setFn_hostTurn (s : State) (f : Nat) (x : Fn) : (s.setFn f x).hostTurn = s.hostTurn := rfl
@[simp] theorem State.setFn_formes (s : State) (f : Nat) (x : Fn) : (s.setFn f x).formes = s.formes := rfl
@[simp] theorem State.setFn_nextForme (s : State) (f : Nat) (x : Fn) : (s.setFn f x).nextForme = s.nextForme := rfl
@[simp] theorem State.setFn_tiles (s : State) (f : Nat) (x : Fn) : (s.setFn f x).tiles = s.tiles := rfl
@[simp] theorem State.setFn_heldPlans (s : State) (f : Nat) (x : Fn) : (s.setFn f x).heldPlans = s.heldPlans := rfl
@[simp] theorem State.setFn_refused (s : State) (f : Nat) (x : Fn) : (s.setFn f x).refused = s.refused := rfl
@[simp] theorem State.setFn_reducers (s : State) (f : Nat) (x : Fn) : (s.setFn f x).reducers = s.reducers := rfl
@[simp] theorem State.setFn_canopy (s : State) (f : Nat) (x : Fn) : (s.setFn f x).canopy = s.canopy := rfl
@[simp] theorem State.setFn_snaps (s : State) (f : Nat) (x : Fn) : (s.setFn f x).snaps = s.snaps := rfl
@[simp] theorem State.setFn_fills (s : State) (f : Nat) (x : Fn) : (s.setFn f x).fills = s.fills := rfl
@[simp] theorem State.setFn_replays (s : State) (f : Nat) (x : Fn) : (s.setFn f x).replays = s.replays := rfl
@[simp] theorem State.setFn_sec (s : State) (f : Nat) (x : Fn) : (s.setFn f x).sec = s.sec := rfl

@[simp] theorem State.setTh_pending (s : State) (c t : Nat) (x : Thread) : (s.setTh c t x).pending = s.pending := rfl
@[simp] theorem State.setTh_mem (s : State) (c t : Nat) (x : Thread) : (s.setTh c t x).mem = s.mem := rfl
@[simp] theorem State.setTh_faulty (s : State) (c t : Nat) (x : Thread) : (s.setTh c t x).faulty = s.faulty := rfl
@[simp] theorem State.setTh_bulkLost (s : State) (c t : Nat) (x : Thread) : (s.setTh c t x).bulkLost = s.bulkLost := rfl
@[simp] theorem State.setTh_regs (s : State) (c t : Nat) (x : Thread) : (s.setTh c t x).regs = s.regs := rfl
@[simp] theorem State.setTh_shadow (s : State) (c t : Nat) (x : Thread) : (s.setTh c t x).shadow = s.shadow := rfl
@[simp] theorem State.setTh_lastSet (s : State) (c t : Nat) (x : Thread) : (s.setTh c t x).lastSet = s.lastSet := rfl
@[simp] theorem State.setTh_lastClear (s : State) (c t : Nat) (x : Thread) : (s.setTh c t x).lastClear = s.lastClear := rfl
@[simp] theorem State.setTh_out (s : State) (c t : Nat) (x : Thread) : (s.setTh c t x).out = s.out := rfl
@[simp] theorem State.setTh_draws (s : State) (c t : Nat) (x : Thread) : (s.setTh c t x).draws = s.draws := rfl
@[simp] theorem State.setTh_opens (s : State) (c t : Nat) (x : Thread) : (s.setTh c t x).opens = s.opens := rfl
@[simp] theorem State.setTh_power (s : State) (c t : Nat) (x : Thread) : (s.setTh c t x).power = s.power := rfl
@[simp] theorem State.setTh_parts (s : State) (c t : Nat) (x : Thread) : (s.setTh c t x).parts = s.parts := rfl
@[simp] theorem State.setTh_integ (s : State) (c t : Nat) (x : Thread) : (s.setTh c t x).integ = s.integ := rfl
@[simp] theorem State.setTh_vfEnable (s : State) (c t : Nat) (x : Thread) : (s.setTh c t x).vfEnable = s.vfEnable := rfl
@[simp] theorem State.setTh_numVfs (s : State) (c t : Nat) (x : Thread) : (s.setTh c t x).numVfs = s.numVfs := rfl
@[simp] theorem State.setTh_fns (s : State) (c t : Nat) (x : Thread) : (s.setTh c t x).fns = s.fns := rfl
@[simp] theorem State.setTh_kvs (s : State) (c t : Nat) (x : Thread) : (s.setTh c t x).kvs = s.kvs := rfl
@[simp] theorem State.setTh_cambs (s : State) (c t : Nat) (x : Thread) : (s.setTh c t x).cambs = s.cambs := rfl
@[simp] theorem State.setTh_stream (s : State) (c t : Nat) (x : Thread) : (s.setTh c t x).stream = s.stream := rfl
@[simp] theorem State.setTh_switches (s : State) (c t : Nat) (x : Thread) : (s.setTh c t x).switches = s.switches := rfl
@[simp] theorem State.setTh_intks (s : State) (c t : Nat) (x : Thread) : (s.setTh c t x).intks = s.intks := rfl
@[simp] theorem State.setTh_engines (s : State) (c t : Nat) (x : Thread) : (s.setTh c t x).engines = s.engines := rfl
@[simp] theorem State.setTh_applyPassed (s : State) (c t : Nat) (x : Thread) : (s.setTh c t x).applyPassed = s.applyPassed := rfl
@[simp] theorem State.setTh_cores (s : State) (c t : Nat) (x : Thread) : (s.setTh c t x).cores = s.cores := rfl
@[simp] theorem State.setTh_heldWrites (s : State) (c t : Nat) (x : Thread) : (s.setTh c t x).heldWrites = s.heldWrites := rfl
@[simp] theorem State.setTh_hostStops (s : State) (c t : Nat) (x : Thread) : (s.setTh c t x).hostStops = s.hostStops := rfl
@[simp] theorem State.setTh_hostTurn (s : State) (c t : Nat) (x : Thread) : (s.setTh c t x).hostTurn = s.hostTurn := rfl
@[simp] theorem State.setTh_formes (s : State) (c t : Nat) (x : Thread) : (s.setTh c t x).formes = s.formes := rfl
@[simp] theorem State.setTh_nextForme (s : State) (c t : Nat) (x : Thread) : (s.setTh c t x).nextForme = s.nextForme := rfl
@[simp] theorem State.setTh_tiles (s : State) (c t : Nat) (x : Thread) : (s.setTh c t x).tiles = s.tiles := rfl
@[simp] theorem State.setTh_heldPlans (s : State) (c t : Nat) (x : Thread) : (s.setTh c t x).heldPlans = s.heldPlans := rfl
@[simp] theorem State.setTh_refused (s : State) (c t : Nat) (x : Thread) : (s.setTh c t x).refused = s.refused := rfl
@[simp] theorem State.setTh_reducers (s : State) (c t : Nat) (x : Thread) : (s.setTh c t x).reducers = s.reducers := rfl
@[simp] theorem State.setTh_canopy (s : State) (c t : Nat) (x : Thread) : (s.setTh c t x).canopy = s.canopy := rfl
@[simp] theorem State.setTh_snaps (s : State) (c t : Nat) (x : Thread) : (s.setTh c t x).snaps = s.snaps := rfl
@[simp] theorem State.setTh_fills (s : State) (c t : Nat) (x : Thread) : (s.setTh c t x).fills = s.fills := rfl
@[simp] theorem State.setTh_replays (s : State) (c t : Nat) (x : Thread) : (s.setTh c t x).replays = s.replays := rfl
@[simp] theorem State.setTh_sec (s : State) (c t : Nat) (x : Thread) : (s.setTh c t x).sec = s.sec := rfl

@[simp] theorem State.setCore_pending (s : State) (n : Nat) (x : Core) : (s.setCore n x).pending = s.pending := rfl
@[simp] theorem State.setCore_mem (s : State) (n : Nat) (x : Core) : (s.setCore n x).mem = s.mem := rfl
@[simp] theorem State.setCore_faulty (s : State) (n : Nat) (x : Core) : (s.setCore n x).faulty = s.faulty := rfl
@[simp] theorem State.setCore_bulkLost (s : State) (n : Nat) (x : Core) : (s.setCore n x).bulkLost = s.bulkLost := rfl
@[simp] theorem State.setCore_regs (s : State) (n : Nat) (x : Core) : (s.setCore n x).regs = s.regs := rfl
@[simp] theorem State.setCore_shadow (s : State) (n : Nat) (x : Core) : (s.setCore n x).shadow = s.shadow := rfl
@[simp] theorem State.setCore_lastSet (s : State) (n : Nat) (x : Core) : (s.setCore n x).lastSet = s.lastSet := rfl
@[simp] theorem State.setCore_lastClear (s : State) (n : Nat) (x : Core) : (s.setCore n x).lastClear = s.lastClear := rfl
@[simp] theorem State.setCore_out (s : State) (n : Nat) (x : Core) : (s.setCore n x).out = s.out := rfl
@[simp] theorem State.setCore_draws (s : State) (n : Nat) (x : Core) : (s.setCore n x).draws = s.draws := rfl
@[simp] theorem State.setCore_opens (s : State) (n : Nat) (x : Core) : (s.setCore n x).opens = s.opens := rfl
@[simp] theorem State.setCore_power (s : State) (n : Nat) (x : Core) : (s.setCore n x).power = s.power := rfl
@[simp] theorem State.setCore_parts (s : State) (n : Nat) (x : Core) : (s.setCore n x).parts = s.parts := rfl
@[simp] theorem State.setCore_integ (s : State) (n : Nat) (x : Core) : (s.setCore n x).integ = s.integ := rfl
@[simp] theorem State.setCore_vfEnable (s : State) (n : Nat) (x : Core) : (s.setCore n x).vfEnable = s.vfEnable := rfl
@[simp] theorem State.setCore_numVfs (s : State) (n : Nat) (x : Core) : (s.setCore n x).numVfs = s.numVfs := rfl
@[simp] theorem State.setCore_fns (s : State) (n : Nat) (x : Core) : (s.setCore n x).fns = s.fns := rfl
@[simp] theorem State.setCore_kvs (s : State) (n : Nat) (x : Core) : (s.setCore n x).kvs = s.kvs := rfl
@[simp] theorem State.setCore_cambs (s : State) (n : Nat) (x : Core) : (s.setCore n x).cambs = s.cambs := rfl
@[simp] theorem State.setCore_stream (s : State) (n : Nat) (x : Core) : (s.setCore n x).stream = s.stream := rfl
@[simp] theorem State.setCore_switches (s : State) (n : Nat) (x : Core) : (s.setCore n x).switches = s.switches := rfl
@[simp] theorem State.setCore_intks (s : State) (n : Nat) (x : Core) : (s.setCore n x).intks = s.intks := rfl
@[simp] theorem State.setCore_engines (s : State) (n : Nat) (x : Core) : (s.setCore n x).engines = s.engines := rfl
@[simp] theorem State.setCore_applyPassed (s : State) (n : Nat) (x : Core) : (s.setCore n x).applyPassed = s.applyPassed := rfl
@[simp] theorem State.setCore_threads (s : State) (n : Nat) (x : Core) : (s.setCore n x).threads = s.threads := rfl
@[simp] theorem State.setCore_heldWrites (s : State) (n : Nat) (x : Core) : (s.setCore n x).heldWrites = s.heldWrites := rfl
@[simp] theorem State.setCore_hostStops (s : State) (n : Nat) (x : Core) : (s.setCore n x).hostStops = s.hostStops := rfl
@[simp] theorem State.setCore_hostTurn (s : State) (n : Nat) (x : Core) : (s.setCore n x).hostTurn = s.hostTurn := rfl
@[simp] theorem State.setCore_formes (s : State) (n : Nat) (x : Core) : (s.setCore n x).formes = s.formes := rfl
@[simp] theorem State.setCore_nextForme (s : State) (n : Nat) (x : Core) : (s.setCore n x).nextForme = s.nextForme := rfl
@[simp] theorem State.setCore_tiles (s : State) (n : Nat) (x : Core) : (s.setCore n x).tiles = s.tiles := rfl
@[simp] theorem State.setCore_heldPlans (s : State) (n : Nat) (x : Core) : (s.setCore n x).heldPlans = s.heldPlans := rfl
@[simp] theorem State.setCore_refused (s : State) (n : Nat) (x : Core) : (s.setCore n x).refused = s.refused := rfl
@[simp] theorem State.setCore_reducers (s : State) (n : Nat) (x : Core) : (s.setCore n x).reducers = s.reducers := rfl
@[simp] theorem State.setCore_canopy (s : State) (n : Nat) (x : Core) : (s.setCore n x).canopy = s.canopy := rfl
@[simp] theorem State.setCore_snaps (s : State) (n : Nat) (x : Core) : (s.setCore n x).snaps = s.snaps := rfl
@[simp] theorem State.setCore_fills (s : State) (n : Nat) (x : Core) : (s.setCore n x).fills = s.fills := rfl
@[simp] theorem State.setCore_replays (s : State) (n : Nat) (x : Core) : (s.setCore n x).replays = s.replays := rfl
@[simp] theorem State.setCore_sec (s : State) (n : Nat) (x : Core) : (s.setCore n x).sec = s.sec := rfl

@[simp] theorem State.setForme_pending (s : State) (i : Nat) (x : Forme) : (s.setForme i x).pending = s.pending := rfl
@[simp] theorem State.setForme_mem (s : State) (i : Nat) (x : Forme) : (s.setForme i x).mem = s.mem := rfl
@[simp] theorem State.setForme_faulty (s : State) (i : Nat) (x : Forme) : (s.setForme i x).faulty = s.faulty := rfl
@[simp] theorem State.setForme_bulkLost (s : State) (i : Nat) (x : Forme) : (s.setForme i x).bulkLost = s.bulkLost := rfl
@[simp] theorem State.setForme_regs (s : State) (i : Nat) (x : Forme) : (s.setForme i x).regs = s.regs := rfl
@[simp] theorem State.setForme_shadow (s : State) (i : Nat) (x : Forme) : (s.setForme i x).shadow = s.shadow := rfl
@[simp] theorem State.setForme_lastSet (s : State) (i : Nat) (x : Forme) : (s.setForme i x).lastSet = s.lastSet := rfl
@[simp] theorem State.setForme_lastClear (s : State) (i : Nat) (x : Forme) : (s.setForme i x).lastClear = s.lastClear := rfl
@[simp] theorem State.setForme_out (s : State) (i : Nat) (x : Forme) : (s.setForme i x).out = s.out := rfl
@[simp] theorem State.setForme_draws (s : State) (i : Nat) (x : Forme) : (s.setForme i x).draws = s.draws := rfl
@[simp] theorem State.setForme_opens (s : State) (i : Nat) (x : Forme) : (s.setForme i x).opens = s.opens := rfl
@[simp] theorem State.setForme_power (s : State) (i : Nat) (x : Forme) : (s.setForme i x).power = s.power := rfl
@[simp] theorem State.setForme_parts (s : State) (i : Nat) (x : Forme) : (s.setForme i x).parts = s.parts := rfl
@[simp] theorem State.setForme_integ (s : State) (i : Nat) (x : Forme) : (s.setForme i x).integ = s.integ := rfl
@[simp] theorem State.setForme_vfEnable (s : State) (i : Nat) (x : Forme) : (s.setForme i x).vfEnable = s.vfEnable := rfl
@[simp] theorem State.setForme_numVfs (s : State) (i : Nat) (x : Forme) : (s.setForme i x).numVfs = s.numVfs := rfl
@[simp] theorem State.setForme_fns (s : State) (i : Nat) (x : Forme) : (s.setForme i x).fns = s.fns := rfl
@[simp] theorem State.setForme_kvs (s : State) (i : Nat) (x : Forme) : (s.setForme i x).kvs = s.kvs := rfl
@[simp] theorem State.setForme_cambs (s : State) (i : Nat) (x : Forme) : (s.setForme i x).cambs = s.cambs := rfl
@[simp] theorem State.setForme_stream (s : State) (i : Nat) (x : Forme) : (s.setForme i x).stream = s.stream := rfl
@[simp] theorem State.setForme_switches (s : State) (i : Nat) (x : Forme) : (s.setForme i x).switches = s.switches := rfl
@[simp] theorem State.setForme_intks (s : State) (i : Nat) (x : Forme) : (s.setForme i x).intks = s.intks := rfl
@[simp] theorem State.setForme_engines (s : State) (i : Nat) (x : Forme) : (s.setForme i x).engines = s.engines := rfl
@[simp] theorem State.setForme_applyPassed (s : State) (i : Nat) (x : Forme) : (s.setForme i x).applyPassed = s.applyPassed := rfl
@[simp] theorem State.setForme_threads (s : State) (i : Nat) (x : Forme) : (s.setForme i x).threads = s.threads := rfl
@[simp] theorem State.setForme_cores (s : State) (i : Nat) (x : Forme) : (s.setForme i x).cores = s.cores := rfl
@[simp] theorem State.setForme_heldWrites (s : State) (i : Nat) (x : Forme) : (s.setForme i x).heldWrites = s.heldWrites := rfl
@[simp] theorem State.setForme_hostStops (s : State) (i : Nat) (x : Forme) : (s.setForme i x).hostStops = s.hostStops := rfl
@[simp] theorem State.setForme_hostTurn (s : State) (i : Nat) (x : Forme) : (s.setForme i x).hostTurn = s.hostTurn := rfl
@[simp] theorem State.setForme_nextForme (s : State) (i : Nat) (x : Forme) : (s.setForme i x).nextForme = s.nextForme := rfl
@[simp] theorem State.setForme_tiles (s : State) (i : Nat) (x : Forme) : (s.setForme i x).tiles = s.tiles := rfl
@[simp] theorem State.setForme_heldPlans (s : State) (i : Nat) (x : Forme) : (s.setForme i x).heldPlans = s.heldPlans := rfl
@[simp] theorem State.setForme_refused (s : State) (i : Nat) (x : Forme) : (s.setForme i x).refused = s.refused := rfl
@[simp] theorem State.setForme_reducers (s : State) (i : Nat) (x : Forme) : (s.setForme i x).reducers = s.reducers := rfl
@[simp] theorem State.setForme_canopy (s : State) (i : Nat) (x : Forme) : (s.setForme i x).canopy = s.canopy := rfl
@[simp] theorem State.setForme_snaps (s : State) (i : Nat) (x : Forme) : (s.setForme i x).snaps = s.snaps := rfl
@[simp] theorem State.setForme_fills (s : State) (i : Nat) (x : Forme) : (s.setForme i x).fills = s.fills := rfl
@[simp] theorem State.setForme_replays (s : State) (i : Nat) (x : Forme) : (s.setForme i x).replays = s.replays := rfl
@[simp] theorem State.setForme_sec (s : State) (i : Nat) (x : Forme) : (s.setForme i x).sec = s.sec := rfl

@[simp] theorem State.setLink_pending (s : State) (l : Nat) (x : Link) : (s.setLink l x).pending = s.pending := rfl
@[simp] theorem State.setLink_mem (s : State) (l : Nat) (x : Link) : (s.setLink l x).mem = s.mem := rfl
@[simp] theorem State.setLink_faulty (s : State) (l : Nat) (x : Link) : (s.setLink l x).faulty = s.faulty := rfl
@[simp] theorem State.setLink_bulkLost (s : State) (l : Nat) (x : Link) : (s.setLink l x).bulkLost = s.bulkLost := rfl
@[simp] theorem State.setLink_regs (s : State) (l : Nat) (x : Link) : (s.setLink l x).regs = s.regs := rfl
@[simp] theorem State.setLink_shadow (s : State) (l : Nat) (x : Link) : (s.setLink l x).shadow = s.shadow := rfl
@[simp] theorem State.setLink_lastSet (s : State) (l : Nat) (x : Link) : (s.setLink l x).lastSet = s.lastSet := rfl
@[simp] theorem State.setLink_lastClear (s : State) (l : Nat) (x : Link) : (s.setLink l x).lastClear = s.lastClear := rfl
@[simp] theorem State.setLink_out (s : State) (l : Nat) (x : Link) : (s.setLink l x).out = s.out := rfl
@[simp] theorem State.setLink_draws (s : State) (l : Nat) (x : Link) : (s.setLink l x).draws = s.draws := rfl
@[simp] theorem State.setLink_opens (s : State) (l : Nat) (x : Link) : (s.setLink l x).opens = s.opens := rfl
@[simp] theorem State.setLink_power (s : State) (l : Nat) (x : Link) : (s.setLink l x).power = s.power := rfl
@[simp] theorem State.setLink_parts (s : State) (l : Nat) (x : Link) : (s.setLink l x).parts = s.parts := rfl
@[simp] theorem State.setLink_integ (s : State) (l : Nat) (x : Link) : (s.setLink l x).integ = s.integ := rfl
@[simp] theorem State.setLink_vfEnable (s : State) (l : Nat) (x : Link) : (s.setLink l x).vfEnable = s.vfEnable := rfl
@[simp] theorem State.setLink_numVfs (s : State) (l : Nat) (x : Link) : (s.setLink l x).numVfs = s.numVfs := rfl
@[simp] theorem State.setLink_fns (s : State) (l : Nat) (x : Link) : (s.setLink l x).fns = s.fns := rfl
@[simp] theorem State.setLink_kvs (s : State) (l : Nat) (x : Link) : (s.setLink l x).kvs = s.kvs := rfl
@[simp] theorem State.setLink_cambs (s : State) (l : Nat) (x : Link) : (s.setLink l x).cambs = s.cambs := rfl
@[simp] theorem State.setLink_stream (s : State) (l : Nat) (x : Link) : (s.setLink l x).stream = s.stream := rfl
@[simp] theorem State.setLink_switches (s : State) (l : Nat) (x : Link) : (s.setLink l x).switches = s.switches := rfl
@[simp] theorem State.setLink_intks (s : State) (l : Nat) (x : Link) : (s.setLink l x).intks = s.intks := rfl
@[simp] theorem State.setLink_engines (s : State) (l : Nat) (x : Link) : (s.setLink l x).engines = s.engines := rfl
@[simp] theorem State.setLink_applyPassed (s : State) (l : Nat) (x : Link) : (s.setLink l x).applyPassed = s.applyPassed := rfl
@[simp] theorem State.setLink_threads (s : State) (l : Nat) (x : Link) : (s.setLink l x).threads = s.threads := rfl
@[simp] theorem State.setLink_cores (s : State) (l : Nat) (x : Link) : (s.setLink l x).cores = s.cores := rfl
@[simp] theorem State.setLink_heldWrites (s : State) (l : Nat) (x : Link) : (s.setLink l x).heldWrites = s.heldWrites := rfl
@[simp] theorem State.setLink_hostStops (s : State) (l : Nat) (x : Link) : (s.setLink l x).hostStops = s.hostStops := rfl
@[simp] theorem State.setLink_hostTurn (s : State) (l : Nat) (x : Link) : (s.setLink l x).hostTurn = s.hostTurn := rfl
@[simp] theorem State.setLink_formes (s : State) (l : Nat) (x : Link) : (s.setLink l x).formes = s.formes := rfl
@[simp] theorem State.setLink_nextForme (s : State) (l : Nat) (x : Link) : (s.setLink l x).nextForme = s.nextForme := rfl
@[simp] theorem State.setLink_tiles (s : State) (l : Nat) (x : Link) : (s.setLink l x).tiles = s.tiles := rfl
@[simp] theorem State.setLink_heldPlans (s : State) (l : Nat) (x : Link) : (s.setLink l x).heldPlans = s.heldPlans := rfl
@[simp] theorem State.setLink_refused (s : State) (l : Nat) (x : Link) : (s.setLink l x).refused = s.refused := rfl
@[simp] theorem State.setLink_reducers (s : State) (l : Nat) (x : Link) : (s.setLink l x).reducers = s.reducers := rfl
@[simp] theorem State.setLink_snaps (s : State) (l : Nat) (x : Link) : (s.setLink l x).snaps = s.snaps := rfl
@[simp] theorem State.setLink_fills (s : State) (l : Nat) (x : Link) : (s.setLink l x).fills = s.fills := rfl
@[simp] theorem State.setLink_replays (s : State) (l : Nat) (x : Link) : (s.setLink l x).replays = s.replays := rfl
@[simp] theorem State.setLink_sec (s : State) (l : Nat) (x : Link) : (s.setLink l x).sec = s.sec := rfl

@[simp] theorem State.setCtx_pending (s : State) (c e : Nat) : (s.setCtx c e).pending = s.pending := rfl
@[simp] theorem State.setCtx_mem (s : State) (c e : Nat) : (s.setCtx c e).mem = s.mem := rfl
@[simp] theorem State.setCtx_faulty (s : State) (c e : Nat) : (s.setCtx c e).faulty = s.faulty := rfl
@[simp] theorem State.setCtx_bulkLost (s : State) (c e : Nat) : (s.setCtx c e).bulkLost = s.bulkLost := rfl
@[simp] theorem State.setCtx_regs (s : State) (c e : Nat) : (s.setCtx c e).regs = s.regs := rfl
@[simp] theorem State.setCtx_shadow (s : State) (c e : Nat) : (s.setCtx c e).shadow = s.shadow := rfl
@[simp] theorem State.setCtx_lastSet (s : State) (c e : Nat) : (s.setCtx c e).lastSet = s.lastSet := rfl
@[simp] theorem State.setCtx_lastClear (s : State) (c e : Nat) : (s.setCtx c e).lastClear = s.lastClear := rfl
@[simp] theorem State.setCtx_out (s : State) (c e : Nat) : (s.setCtx c e).out = s.out := rfl
@[simp] theorem State.setCtx_draws (s : State) (c e : Nat) : (s.setCtx c e).draws = s.draws := rfl
@[simp] theorem State.setCtx_opens (s : State) (c e : Nat) : (s.setCtx c e).opens = s.opens := rfl
@[simp] theorem State.setCtx_power (s : State) (c e : Nat) : (s.setCtx c e).power = s.power := rfl
@[simp] theorem State.setCtx_parts (s : State) (c e : Nat) : (s.setCtx c e).parts = s.parts := rfl
@[simp] theorem State.setCtx_integ (s : State) (c e : Nat) : (s.setCtx c e).integ = s.integ := rfl
@[simp] theorem State.setCtx_vfEnable (s : State) (c e : Nat) : (s.setCtx c e).vfEnable = s.vfEnable := rfl
@[simp] theorem State.setCtx_numVfs (s : State) (c e : Nat) : (s.setCtx c e).numVfs = s.numVfs := rfl
@[simp] theorem State.setCtx_fns (s : State) (c e : Nat) : (s.setCtx c e).fns = s.fns := rfl
@[simp] theorem State.setCtx_kvs (s : State) (c e : Nat) : (s.setCtx c e).kvs = s.kvs := rfl
@[simp] theorem State.setCtx_cambs (s : State) (c e : Nat) : (s.setCtx c e).cambs = s.cambs := rfl
@[simp] theorem State.setCtx_stream (s : State) (c e : Nat) : (s.setCtx c e).stream = s.stream := rfl
@[simp] theorem State.setCtx_switches (s : State) (c e : Nat) : (s.setCtx c e).switches = s.switches := rfl
@[simp] theorem State.setCtx_intks (s : State) (c e : Nat) : (s.setCtx c e).intks = s.intks := rfl
@[simp] theorem State.setCtx_engines (s : State) (c e : Nat) : (s.setCtx c e).engines = s.engines := rfl
@[simp] theorem State.setCtx_applyPassed (s : State) (c e : Nat) : (s.setCtx c e).applyPassed = s.applyPassed := rfl
@[simp] theorem State.setCtx_threads (s : State) (c e : Nat) : (s.setCtx c e).threads = s.threads := rfl
@[simp] theorem State.setCtx_cores (s : State) (c e : Nat) : (s.setCtx c e).cores = s.cores := rfl
@[simp] theorem State.setCtx_heldWrites (s : State) (c e : Nat) : (s.setCtx c e).heldWrites = s.heldWrites := rfl
@[simp] theorem State.setCtx_hostStops (s : State) (c e : Nat) : (s.setCtx c e).hostStops = s.hostStops := rfl
@[simp] theorem State.setCtx_hostTurn (s : State) (c e : Nat) : (s.setCtx c e).hostTurn = s.hostTurn := rfl
@[simp] theorem State.setCtx_formes (s : State) (c e : Nat) : (s.setCtx c e).formes = s.formes := rfl
@[simp] theorem State.setCtx_nextForme (s : State) (c e : Nat) : (s.setCtx c e).nextForme = s.nextForme := rfl
@[simp] theorem State.setCtx_tiles (s : State) (c e : Nat) : (s.setCtx c e).tiles = s.tiles := rfl
@[simp] theorem State.setCtx_heldPlans (s : State) (c e : Nat) : (s.setCtx c e).heldPlans = s.heldPlans := rfl
@[simp] theorem State.setCtx_refused (s : State) (c e : Nat) : (s.setCtx c e).refused = s.refused := rfl
@[simp] theorem State.setCtx_reducers (s : State) (c e : Nat) : (s.setCtx c e).reducers = s.reducers := rfl
@[simp] theorem State.setCtx_snaps (s : State) (c e : Nat) : (s.setCtx c e).snaps = s.snaps := rfl
@[simp] theorem State.setCtx_fills (s : State) (c e : Nat) : (s.setCtx c e).fills = s.fills := rfl
@[simp] theorem State.setCtx_replays (s : State) (c e : Nat) : (s.setCtx c e).replays = s.replays := rfl
@[simp] theorem State.setCtx_sec (s : State) (c e : Nat) : (s.setCtx c e).sec = s.sec := rfl

@[simp] theorem State.setKv_pending (s : State) (p : Nat) (x : Kv) : (s.setKv p x).pending = s.pending := rfl
@[simp] theorem State.setKv_mem (s : State) (p : Nat) (x : Kv) : (s.setKv p x).mem = s.mem := rfl
@[simp] theorem State.setKv_faulty (s : State) (p : Nat) (x : Kv) : (s.setKv p x).faulty = s.faulty := rfl
@[simp] theorem State.setKv_bulkLost (s : State) (p : Nat) (x : Kv) : (s.setKv p x).bulkLost = s.bulkLost := rfl
@[simp] theorem State.setKv_regs (s : State) (p : Nat) (x : Kv) : (s.setKv p x).regs = s.regs := rfl
@[simp] theorem State.setKv_shadow (s : State) (p : Nat) (x : Kv) : (s.setKv p x).shadow = s.shadow := rfl
@[simp] theorem State.setKv_lastSet (s : State) (p : Nat) (x : Kv) : (s.setKv p x).lastSet = s.lastSet := rfl
@[simp] theorem State.setKv_lastClear (s : State) (p : Nat) (x : Kv) : (s.setKv p x).lastClear = s.lastClear := rfl
@[simp] theorem State.setKv_out (s : State) (p : Nat) (x : Kv) : (s.setKv p x).out = s.out := rfl
@[simp] theorem State.setKv_draws (s : State) (p : Nat) (x : Kv) : (s.setKv p x).draws = s.draws := rfl
@[simp] theorem State.setKv_opens (s : State) (p : Nat) (x : Kv) : (s.setKv p x).opens = s.opens := rfl
@[simp] theorem State.setKv_power (s : State) (p : Nat) (x : Kv) : (s.setKv p x).power = s.power := rfl
@[simp] theorem State.setKv_parts (s : State) (p : Nat) (x : Kv) : (s.setKv p x).parts = s.parts := rfl
@[simp] theorem State.setKv_integ (s : State) (p : Nat) (x : Kv) : (s.setKv p x).integ = s.integ := rfl
@[simp] theorem State.setKv_vfEnable (s : State) (p : Nat) (x : Kv) : (s.setKv p x).vfEnable = s.vfEnable := rfl
@[simp] theorem State.setKv_numVfs (s : State) (p : Nat) (x : Kv) : (s.setKv p x).numVfs = s.numVfs := rfl
@[simp] theorem State.setKv_fns (s : State) (p : Nat) (x : Kv) : (s.setKv p x).fns = s.fns := rfl
@[simp] theorem State.setKv_cambs (s : State) (p : Nat) (x : Kv) : (s.setKv p x).cambs = s.cambs := rfl
@[simp] theorem State.setKv_stream (s : State) (p : Nat) (x : Kv) : (s.setKv p x).stream = s.stream := rfl
@[simp] theorem State.setKv_switches (s : State) (p : Nat) (x : Kv) : (s.setKv p x).switches = s.switches := rfl
@[simp] theorem State.setKv_intks (s : State) (p : Nat) (x : Kv) : (s.setKv p x).intks = s.intks := rfl
@[simp] theorem State.setKv_engines (s : State) (p : Nat) (x : Kv) : (s.setKv p x).engines = s.engines := rfl
@[simp] theorem State.setKv_applyPassed (s : State) (p : Nat) (x : Kv) : (s.setKv p x).applyPassed = s.applyPassed := rfl
@[simp] theorem State.setKv_threads (s : State) (p : Nat) (x : Kv) : (s.setKv p x).threads = s.threads := rfl
@[simp] theorem State.setKv_cores (s : State) (p : Nat) (x : Kv) : (s.setKv p x).cores = s.cores := rfl
@[simp] theorem State.setKv_heldWrites (s : State) (p : Nat) (x : Kv) : (s.setKv p x).heldWrites = s.heldWrites := rfl
@[simp] theorem State.setKv_hostStops (s : State) (p : Nat) (x : Kv) : (s.setKv p x).hostStops = s.hostStops := rfl
@[simp] theorem State.setKv_hostTurn (s : State) (p : Nat) (x : Kv) : (s.setKv p x).hostTurn = s.hostTurn := rfl
@[simp] theorem State.setKv_formes (s : State) (p : Nat) (x : Kv) : (s.setKv p x).formes = s.formes := rfl
@[simp] theorem State.setKv_nextForme (s : State) (p : Nat) (x : Kv) : (s.setKv p x).nextForme = s.nextForme := rfl
@[simp] theorem State.setKv_tiles (s : State) (p : Nat) (x : Kv) : (s.setKv p x).tiles = s.tiles := rfl
@[simp] theorem State.setKv_heldPlans (s : State) (p : Nat) (x : Kv) : (s.setKv p x).heldPlans = s.heldPlans := rfl
@[simp] theorem State.setKv_refused (s : State) (p : Nat) (x : Kv) : (s.setKv p x).refused = s.refused := rfl
@[simp] theorem State.setKv_reducers (s : State) (p : Nat) (x : Kv) : (s.setKv p x).reducers = s.reducers := rfl
@[simp] theorem State.setKv_canopy (s : State) (p : Nat) (x : Kv) : (s.setKv p x).canopy = s.canopy := rfl
@[simp] theorem State.setKv_snaps (s : State) (p : Nat) (x : Kv) : (s.setKv p x).snaps = s.snaps := rfl
@[simp] theorem State.setKv_fills (s : State) (p : Nat) (x : Kv) : (s.setKv p x).fills = s.fills := rfl
@[simp] theorem State.setKv_replays (s : State) (p : Nat) (x : Kv) : (s.setKv p x).replays = s.replays := rfl
@[simp] theorem State.setKv_sec (s : State) (p : Nat) (x : Kv) : (s.setKv p x).sec = s.sec := rfl

@[simp] theorem State.setCamb_pending (s : State) (p : Nat) (x : Camb) : (s.setCamb p x).pending = s.pending := rfl
@[simp] theorem State.setCamb_mem (s : State) (p : Nat) (x : Camb) : (s.setCamb p x).mem = s.mem := rfl
@[simp] theorem State.setCamb_faulty (s : State) (p : Nat) (x : Camb) : (s.setCamb p x).faulty = s.faulty := rfl
@[simp] theorem State.setCamb_bulkLost (s : State) (p : Nat) (x : Camb) : (s.setCamb p x).bulkLost = s.bulkLost := rfl
@[simp] theorem State.setCamb_regs (s : State) (p : Nat) (x : Camb) : (s.setCamb p x).regs = s.regs := rfl
@[simp] theorem State.setCamb_shadow (s : State) (p : Nat) (x : Camb) : (s.setCamb p x).shadow = s.shadow := rfl
@[simp] theorem State.setCamb_lastSet (s : State) (p : Nat) (x : Camb) : (s.setCamb p x).lastSet = s.lastSet := rfl
@[simp] theorem State.setCamb_lastClear (s : State) (p : Nat) (x : Camb) : (s.setCamb p x).lastClear = s.lastClear := rfl
@[simp] theorem State.setCamb_out (s : State) (p : Nat) (x : Camb) : (s.setCamb p x).out = s.out := rfl
@[simp] theorem State.setCamb_draws (s : State) (p : Nat) (x : Camb) : (s.setCamb p x).draws = s.draws := rfl
@[simp] theorem State.setCamb_opens (s : State) (p : Nat) (x : Camb) : (s.setCamb p x).opens = s.opens := rfl
@[simp] theorem State.setCamb_power (s : State) (p : Nat) (x : Camb) : (s.setCamb p x).power = s.power := rfl
@[simp] theorem State.setCamb_parts (s : State) (p : Nat) (x : Camb) : (s.setCamb p x).parts = s.parts := rfl
@[simp] theorem State.setCamb_integ (s : State) (p : Nat) (x : Camb) : (s.setCamb p x).integ = s.integ := rfl
@[simp] theorem State.setCamb_vfEnable (s : State) (p : Nat) (x : Camb) : (s.setCamb p x).vfEnable = s.vfEnable := rfl
@[simp] theorem State.setCamb_numVfs (s : State) (p : Nat) (x : Camb) : (s.setCamb p x).numVfs = s.numVfs := rfl
@[simp] theorem State.setCamb_fns (s : State) (p : Nat) (x : Camb) : (s.setCamb p x).fns = s.fns := rfl
@[simp] theorem State.setCamb_kvs (s : State) (p : Nat) (x : Camb) : (s.setCamb p x).kvs = s.kvs := rfl
@[simp] theorem State.setCamb_stream (s : State) (p : Nat) (x : Camb) : (s.setCamb p x).stream = s.stream := rfl
@[simp] theorem State.setCamb_switches (s : State) (p : Nat) (x : Camb) : (s.setCamb p x).switches = s.switches := rfl
@[simp] theorem State.setCamb_intks (s : State) (p : Nat) (x : Camb) : (s.setCamb p x).intks = s.intks := rfl
@[simp] theorem State.setCamb_engines (s : State) (p : Nat) (x : Camb) : (s.setCamb p x).engines = s.engines := rfl
@[simp] theorem State.setCamb_applyPassed (s : State) (p : Nat) (x : Camb) : (s.setCamb p x).applyPassed = s.applyPassed := rfl
@[simp] theorem State.setCamb_threads (s : State) (p : Nat) (x : Camb) : (s.setCamb p x).threads = s.threads := rfl
@[simp] theorem State.setCamb_cores (s : State) (p : Nat) (x : Camb) : (s.setCamb p x).cores = s.cores := rfl
@[simp] theorem State.setCamb_heldWrites (s : State) (p : Nat) (x : Camb) : (s.setCamb p x).heldWrites = s.heldWrites := rfl
@[simp] theorem State.setCamb_hostStops (s : State) (p : Nat) (x : Camb) : (s.setCamb p x).hostStops = s.hostStops := rfl
@[simp] theorem State.setCamb_hostTurn (s : State) (p : Nat) (x : Camb) : (s.setCamb p x).hostTurn = s.hostTurn := rfl
@[simp] theorem State.setCamb_formes (s : State) (p : Nat) (x : Camb) : (s.setCamb p x).formes = s.formes := rfl
@[simp] theorem State.setCamb_nextForme (s : State) (p : Nat) (x : Camb) : (s.setCamb p x).nextForme = s.nextForme := rfl
@[simp] theorem State.setCamb_tiles (s : State) (p : Nat) (x : Camb) : (s.setCamb p x).tiles = s.tiles := rfl
@[simp] theorem State.setCamb_heldPlans (s : State) (p : Nat) (x : Camb) : (s.setCamb p x).heldPlans = s.heldPlans := rfl
@[simp] theorem State.setCamb_refused (s : State) (p : Nat) (x : Camb) : (s.setCamb p x).refused = s.refused := rfl
@[simp] theorem State.setCamb_reducers (s : State) (p : Nat) (x : Camb) : (s.setCamb p x).reducers = s.reducers := rfl
@[simp] theorem State.setCamb_canopy (s : State) (p : Nat) (x : Camb) : (s.setCamb p x).canopy = s.canopy := rfl
@[simp] theorem State.setCamb_snaps (s : State) (p : Nat) (x : Camb) : (s.setCamb p x).snaps = s.snaps := rfl
@[simp] theorem State.setCamb_fills (s : State) (p : Nat) (x : Camb) : (s.setCamb p x).fills = s.fills := rfl
@[simp] theorem State.setCamb_replays (s : State) (p : Nat) (x : Camb) : (s.setCamb p x).replays = s.replays := rfl
@[simp] theorem State.setCamb_sec (s : State) (p : Nat) (x : Camb) : (s.setCamb p x).sec = s.sec := rfl

@[simp] theorem State.setSw_pending (s : State) (p : Nat) (x : Switch) : (s.setSw p x).pending = s.pending := rfl
@[simp] theorem State.setSw_mem (s : State) (p : Nat) (x : Switch) : (s.setSw p x).mem = s.mem := rfl
@[simp] theorem State.setSw_faulty (s : State) (p : Nat) (x : Switch) : (s.setSw p x).faulty = s.faulty := rfl
@[simp] theorem State.setSw_bulkLost (s : State) (p : Nat) (x : Switch) : (s.setSw p x).bulkLost = s.bulkLost := rfl
@[simp] theorem State.setSw_regs (s : State) (p : Nat) (x : Switch) : (s.setSw p x).regs = s.regs := rfl
@[simp] theorem State.setSw_shadow (s : State) (p : Nat) (x : Switch) : (s.setSw p x).shadow = s.shadow := rfl
@[simp] theorem State.setSw_lastSet (s : State) (p : Nat) (x : Switch) : (s.setSw p x).lastSet = s.lastSet := rfl
@[simp] theorem State.setSw_lastClear (s : State) (p : Nat) (x : Switch) : (s.setSw p x).lastClear = s.lastClear := rfl
@[simp] theorem State.setSw_out (s : State) (p : Nat) (x : Switch) : (s.setSw p x).out = s.out := rfl
@[simp] theorem State.setSw_draws (s : State) (p : Nat) (x : Switch) : (s.setSw p x).draws = s.draws := rfl
@[simp] theorem State.setSw_opens (s : State) (p : Nat) (x : Switch) : (s.setSw p x).opens = s.opens := rfl
@[simp] theorem State.setSw_power (s : State) (p : Nat) (x : Switch) : (s.setSw p x).power = s.power := rfl
@[simp] theorem State.setSw_parts (s : State) (p : Nat) (x : Switch) : (s.setSw p x).parts = s.parts := rfl
@[simp] theorem State.setSw_integ (s : State) (p : Nat) (x : Switch) : (s.setSw p x).integ = s.integ := rfl
@[simp] theorem State.setSw_vfEnable (s : State) (p : Nat) (x : Switch) : (s.setSw p x).vfEnable = s.vfEnable := rfl
@[simp] theorem State.setSw_numVfs (s : State) (p : Nat) (x : Switch) : (s.setSw p x).numVfs = s.numVfs := rfl
@[simp] theorem State.setSw_fns (s : State) (p : Nat) (x : Switch) : (s.setSw p x).fns = s.fns := rfl
@[simp] theorem State.setSw_kvs (s : State) (p : Nat) (x : Switch) : (s.setSw p x).kvs = s.kvs := rfl
@[simp] theorem State.setSw_cambs (s : State) (p : Nat) (x : Switch) : (s.setSw p x).cambs = s.cambs := rfl
@[simp] theorem State.setSw_stream (s : State) (p : Nat) (x : Switch) : (s.setSw p x).stream = s.stream := rfl
@[simp] theorem State.setSw_intks (s : State) (p : Nat) (x : Switch) : (s.setSw p x).intks = s.intks := rfl
@[simp] theorem State.setSw_engines (s : State) (p : Nat) (x : Switch) : (s.setSw p x).engines = s.engines := rfl
@[simp] theorem State.setSw_applyPassed (s : State) (p : Nat) (x : Switch) : (s.setSw p x).applyPassed = s.applyPassed := rfl
@[simp] theorem State.setSw_threads (s : State) (p : Nat) (x : Switch) : (s.setSw p x).threads = s.threads := rfl
@[simp] theorem State.setSw_cores (s : State) (p : Nat) (x : Switch) : (s.setSw p x).cores = s.cores := rfl
@[simp] theorem State.setSw_heldWrites (s : State) (p : Nat) (x : Switch) : (s.setSw p x).heldWrites = s.heldWrites := rfl
@[simp] theorem State.setSw_hostStops (s : State) (p : Nat) (x : Switch) : (s.setSw p x).hostStops = s.hostStops := rfl
@[simp] theorem State.setSw_hostTurn (s : State) (p : Nat) (x : Switch) : (s.setSw p x).hostTurn = s.hostTurn := rfl
@[simp] theorem State.setSw_formes (s : State) (p : Nat) (x : Switch) : (s.setSw p x).formes = s.formes := rfl
@[simp] theorem State.setSw_nextForme (s : State) (p : Nat) (x : Switch) : (s.setSw p x).nextForme = s.nextForme := rfl
@[simp] theorem State.setSw_tiles (s : State) (p : Nat) (x : Switch) : (s.setSw p x).tiles = s.tiles := rfl
@[simp] theorem State.setSw_heldPlans (s : State) (p : Nat) (x : Switch) : (s.setSw p x).heldPlans = s.heldPlans := rfl
@[simp] theorem State.setSw_refused (s : State) (p : Nat) (x : Switch) : (s.setSw p x).refused = s.refused := rfl
@[simp] theorem State.setSw_reducers (s : State) (p : Nat) (x : Switch) : (s.setSw p x).reducers = s.reducers := rfl
@[simp] theorem State.setSw_canopy (s : State) (p : Nat) (x : Switch) : (s.setSw p x).canopy = s.canopy := rfl
@[simp] theorem State.setSw_snaps (s : State) (p : Nat) (x : Switch) : (s.setSw p x).snaps = s.snaps := rfl
@[simp] theorem State.setSw_fills (s : State) (p : Nat) (x : Switch) : (s.setSw p x).fills = s.fills := rfl
@[simp] theorem State.setSw_replays (s : State) (p : Nat) (x : Switch) : (s.setSw p x).replays = s.replays := rfl
@[simp] theorem State.setSw_sec (s : State) (p : Nat) (x : Switch) : (s.setSw p x).sec = s.sec := rfl

@[simp] theorem State.modSec_pending (s : State) (g : Sec → Sec) : (s.modSec g).pending = s.pending := rfl
@[simp] theorem State.modSec_mem (s : State) (g : Sec → Sec) : (s.modSec g).mem = s.mem := rfl
@[simp] theorem State.modSec_faulty (s : State) (g : Sec → Sec) : (s.modSec g).faulty = s.faulty := rfl
@[simp] theorem State.modSec_bulkLost (s : State) (g : Sec → Sec) : (s.modSec g).bulkLost = s.bulkLost := rfl
@[simp] theorem State.modSec_regs (s : State) (g : Sec → Sec) : (s.modSec g).regs = s.regs := rfl
@[simp] theorem State.modSec_shadow (s : State) (g : Sec → Sec) : (s.modSec g).shadow = s.shadow := rfl
@[simp] theorem State.modSec_lastSet (s : State) (g : Sec → Sec) : (s.modSec g).lastSet = s.lastSet := rfl
@[simp] theorem State.modSec_lastClear (s : State) (g : Sec → Sec) : (s.modSec g).lastClear = s.lastClear := rfl
@[simp] theorem State.modSec_out (s : State) (g : Sec → Sec) : (s.modSec g).out = s.out := rfl
@[simp] theorem State.modSec_draws (s : State) (g : Sec → Sec) : (s.modSec g).draws = s.draws := rfl
@[simp] theorem State.modSec_opens (s : State) (g : Sec → Sec) : (s.modSec g).opens = s.opens := rfl
@[simp] theorem State.modSec_power (s : State) (g : Sec → Sec) : (s.modSec g).power = s.power := rfl
@[simp] theorem State.modSec_parts (s : State) (g : Sec → Sec) : (s.modSec g).parts = s.parts := rfl
@[simp] theorem State.modSec_integ (s : State) (g : Sec → Sec) : (s.modSec g).integ = s.integ := rfl
@[simp] theorem State.modSec_vfEnable (s : State) (g : Sec → Sec) : (s.modSec g).vfEnable = s.vfEnable := rfl
@[simp] theorem State.modSec_numVfs (s : State) (g : Sec → Sec) : (s.modSec g).numVfs = s.numVfs := rfl
@[simp] theorem State.modSec_fns (s : State) (g : Sec → Sec) : (s.modSec g).fns = s.fns := rfl
@[simp] theorem State.modSec_kvs (s : State) (g : Sec → Sec) : (s.modSec g).kvs = s.kvs := rfl
@[simp] theorem State.modSec_cambs (s : State) (g : Sec → Sec) : (s.modSec g).cambs = s.cambs := rfl
@[simp] theorem State.modSec_stream (s : State) (g : Sec → Sec) : (s.modSec g).stream = s.stream := rfl
@[simp] theorem State.modSec_switches (s : State) (g : Sec → Sec) : (s.modSec g).switches = s.switches := rfl
@[simp] theorem State.modSec_intks (s : State) (g : Sec → Sec) : (s.modSec g).intks = s.intks := rfl
@[simp] theorem State.modSec_engines (s : State) (g : Sec → Sec) : (s.modSec g).engines = s.engines := rfl
@[simp] theorem State.modSec_applyPassed (s : State) (g : Sec → Sec) : (s.modSec g).applyPassed = s.applyPassed := rfl
@[simp] theorem State.modSec_threads (s : State) (g : Sec → Sec) : (s.modSec g).threads = s.threads := rfl
@[simp] theorem State.modSec_cores (s : State) (g : Sec → Sec) : (s.modSec g).cores = s.cores := rfl
@[simp] theorem State.modSec_heldWrites (s : State) (g : Sec → Sec) : (s.modSec g).heldWrites = s.heldWrites := rfl
@[simp] theorem State.modSec_hostStops (s : State) (g : Sec → Sec) : (s.modSec g).hostStops = s.hostStops := rfl
@[simp] theorem State.modSec_hostTurn (s : State) (g : Sec → Sec) : (s.modSec g).hostTurn = s.hostTurn := rfl
@[simp] theorem State.modSec_formes (s : State) (g : Sec → Sec) : (s.modSec g).formes = s.formes := rfl
@[simp] theorem State.modSec_nextForme (s : State) (g : Sec → Sec) : (s.modSec g).nextForme = s.nextForme := rfl
@[simp] theorem State.modSec_tiles (s : State) (g : Sec → Sec) : (s.modSec g).tiles = s.tiles := rfl
@[simp] theorem State.modSec_heldPlans (s : State) (g : Sec → Sec) : (s.modSec g).heldPlans = s.heldPlans := rfl
@[simp] theorem State.modSec_refused (s : State) (g : Sec → Sec) : (s.modSec g).refused = s.refused := rfl
@[simp] theorem State.modSec_reducers (s : State) (g : Sec → Sec) : (s.modSec g).reducers = s.reducers := rfl
@[simp] theorem State.modSec_canopy (s : State) (g : Sec → Sec) : (s.modSec g).canopy = s.canopy := rfl
@[simp] theorem State.modSec_snaps (s : State) (g : Sec → Sec) : (s.modSec g).snaps = s.snaps := rfl
@[simp] theorem State.modSec_fills (s : State) (g : Sec → Sec) : (s.modSec g).fills = s.fills := rfl
@[simp] theorem State.modSec_replays (s : State) (g : Sec → Sec) : (s.modSec g).replays = s.replays := rfl

@[simp] theorem State.modPower_pending (s : State) (g : Power → Power) : (s.modPower g).pending = s.pending := rfl
@[simp] theorem State.modPower_mem (s : State) (g : Power → Power) : (s.modPower g).mem = s.mem := rfl
@[simp] theorem State.modPower_faulty (s : State) (g : Power → Power) : (s.modPower g).faulty = s.faulty := rfl
@[simp] theorem State.modPower_bulkLost (s : State) (g : Power → Power) : (s.modPower g).bulkLost = s.bulkLost := rfl
@[simp] theorem State.modPower_regs (s : State) (g : Power → Power) : (s.modPower g).regs = s.regs := rfl
@[simp] theorem State.modPower_shadow (s : State) (g : Power → Power) : (s.modPower g).shadow = s.shadow := rfl
@[simp] theorem State.modPower_lastSet (s : State) (g : Power → Power) : (s.modPower g).lastSet = s.lastSet := rfl
@[simp] theorem State.modPower_lastClear (s : State) (g : Power → Power) : (s.modPower g).lastClear = s.lastClear := rfl
@[simp] theorem State.modPower_out (s : State) (g : Power → Power) : (s.modPower g).out = s.out := rfl
@[simp] theorem State.modPower_draws (s : State) (g : Power → Power) : (s.modPower g).draws = s.draws := rfl
@[simp] theorem State.modPower_opens (s : State) (g : Power → Power) : (s.modPower g).opens = s.opens := rfl
@[simp] theorem State.modPower_parts (s : State) (g : Power → Power) : (s.modPower g).parts = s.parts := rfl
@[simp] theorem State.modPower_integ (s : State) (g : Power → Power) : (s.modPower g).integ = s.integ := rfl
@[simp] theorem State.modPower_vfEnable (s : State) (g : Power → Power) : (s.modPower g).vfEnable = s.vfEnable := rfl
@[simp] theorem State.modPower_numVfs (s : State) (g : Power → Power) : (s.modPower g).numVfs = s.numVfs := rfl
@[simp] theorem State.modPower_fns (s : State) (g : Power → Power) : (s.modPower g).fns = s.fns := rfl
@[simp] theorem State.modPower_kvs (s : State) (g : Power → Power) : (s.modPower g).kvs = s.kvs := rfl
@[simp] theorem State.modPower_cambs (s : State) (g : Power → Power) : (s.modPower g).cambs = s.cambs := rfl
@[simp] theorem State.modPower_stream (s : State) (g : Power → Power) : (s.modPower g).stream = s.stream := rfl
@[simp] theorem State.modPower_switches (s : State) (g : Power → Power) : (s.modPower g).switches = s.switches := rfl
@[simp] theorem State.modPower_intks (s : State) (g : Power → Power) : (s.modPower g).intks = s.intks := rfl
@[simp] theorem State.modPower_engines (s : State) (g : Power → Power) : (s.modPower g).engines = s.engines := rfl
@[simp] theorem State.modPower_applyPassed (s : State) (g : Power → Power) : (s.modPower g).applyPassed = s.applyPassed := rfl
@[simp] theorem State.modPower_threads (s : State) (g : Power → Power) : (s.modPower g).threads = s.threads := rfl
@[simp] theorem State.modPower_cores (s : State) (g : Power → Power) : (s.modPower g).cores = s.cores := rfl
@[simp] theorem State.modPower_heldWrites (s : State) (g : Power → Power) : (s.modPower g).heldWrites = s.heldWrites := rfl
@[simp] theorem State.modPower_hostStops (s : State) (g : Power → Power) : (s.modPower g).hostStops = s.hostStops := rfl
@[simp] theorem State.modPower_hostTurn (s : State) (g : Power → Power) : (s.modPower g).hostTurn = s.hostTurn := rfl
@[simp] theorem State.modPower_formes (s : State) (g : Power → Power) : (s.modPower g).formes = s.formes := rfl
@[simp] theorem State.modPower_nextForme (s : State) (g : Power → Power) : (s.modPower g).nextForme = s.nextForme := rfl
@[simp] theorem State.modPower_tiles (s : State) (g : Power → Power) : (s.modPower g).tiles = s.tiles := rfl
@[simp] theorem State.modPower_heldPlans (s : State) (g : Power → Power) : (s.modPower g).heldPlans = s.heldPlans := rfl
@[simp] theorem State.modPower_refused (s : State) (g : Power → Power) : (s.modPower g).refused = s.refused := rfl
@[simp] theorem State.modPower_reducers (s : State) (g : Power → Power) : (s.modPower g).reducers = s.reducers := rfl
@[simp] theorem State.modPower_canopy (s : State) (g : Power → Power) : (s.modPower g).canopy = s.canopy := rfl
@[simp] theorem State.modPower_snaps (s : State) (g : Power → Power) : (s.modPower g).snaps = s.snaps := rfl
@[simp] theorem State.modPower_fills (s : State) (g : Power → Power) : (s.modPower g).fills = s.fills := rfl
@[simp] theorem State.modPower_replays (s : State) (g : Power → Power) : (s.modPower g).replays = s.replays := rfl
@[simp] theorem State.modPower_sec (s : State) (g : Power → Power) : (s.modPower g).sec = s.sec := rfl

/-! ### The updated field -/

@[simp] theorem State.setReg_regs (s : State) (a v : Nat) : (s.setReg a v).regs = AMap.put a (BitVec.ofNat 32 v) s.regs := rfl
@[simp] theorem State.emit_out (s : State) (o : Output) : (s.emit o).out = s.out ++ [o] := rfl
@[simp] theorem State.modPower_power (s : State) (g : Power → Power) : (s.modPower g).power = g s.power := rfl
@[simp] theorem State.modSec_sec (s : State) (g : Sec → Sec) : (s.modSec g).sec = g s.sec := rfl

/-! ### Accessors after updates -/

theorem State.part_setPart (s : State) (p q : Nat) (x : Part) : (s.setPart p x).part q = if q = p then x else s.part q :=
  AMap.getD_put ..
@[simp] theorem State.part_setPart_self (s : State) (p : Nat) (x : Part) : (s.setPart p x).part p = x := AMap.getD_put_self ..
theorem State.fn_setFn (s : State) (f g : Nat) (x : Fn) : (s.setFn f x).fn g = if g = f then x else s.fn g := AMap.getD_put ..
@[simp] theorem State.fn_setFn_self (s : State) (f : Nat) (x : Fn) : (s.setFn f x).fn f = x := AMap.getD_put_self ..
theorem State.core_setCore (s : State) (n m : Nat) (x : Core) : (s.setCore n x).core m = if m = n then x else s.core m :=
  AMap.getD_put ..
@[simp] theorem State.core_setCore_self (s : State) (n : Nat) (x : Core) : (s.setCore n x).core n = x := AMap.getD_put_self ..
theorem State.forme_setForme (s : State) (i j : Nat) (x : Forme) : (s.setForme i x).forme j = if j = i then x else s.forme j :=
  AMap.getD_put ..
@[simp] theorem State.forme_setForme_self (s : State) (i : Nat) (x : Forme) : (s.setForme i x).forme i = x := AMap.getD_put_self ..
theorem State.link_setLink (s : State) (l m : Nat) (x : Link) : (s.setLink l x).link m = if m = l then x else s.link m :=
  AMap.getD_put ..
@[simp] theorem State.link_setLink_self (s : State) (l : Nat) (x : Link) : (s.setLink l x).link l = x := AMap.getD_put_self ..
theorem State.ctx_setCtx (s : State) (c d e : Nat) : (s.setCtx c e).ctx d = if d = c then e else s.ctx d := AMap.getD_put ..
@[simp] theorem State.ctx_setCtx_self (s : State) (c e : Nat) : (s.setCtx c e).ctx c = e := AMap.getD_put_self ..
@[simp] theorem State.kv_setKv_self (s : State) (p : Nat) (x : Kv) : (s.setKv p x).kv p = x := AMap.getD_put_self ..
@[simp] theorem State.camb_setCamb_self (s : State) (p : Nat) (x : Camb) : (s.setCamb p x).camb p = x := AMap.getD_put_self ..
@[simp] theorem State.sw_setSw_self (s : State) (p : Nat) (x : Switch) : (s.setSw p x).sw p = x := AMap.getD_put_self ..
theorem State.th_setTh (s : State) (c t d u : Nat) (x : Thread) :
    (s.setTh c t x).th d u = if thKey d u = thKey c t then x else s.th d u := AMap.getD_put ..
@[simp] theorem State.th_setTh_self (s : State) (c t : Nat) (x : Thread) : (s.setTh c t x).th c t = x := AMap.getD_put_self ..

end Sys2Proof.Machine
end

