-- ==== Sys2Proof/Laws/Registers.lean ====
section
/-! SUPPORT. Bit fields, register words and fields after writes, and everything that setting a flag and signalling it can change. -/

namespace Sys2Proof.Machine

/-! ### Bit fields -/

theorem bit_eq_testBit (x i : Nat) : bit x i = x.testBit i := by
  rw [Nat.testBit_eq_decide_div_mod_eq, bit]
  exact Bool.eq_iff_iff.2 (by simp)

theorem bits_lt (x lo w : Nat) : bits x lo w < 2 ^ w := Nat.mod_lt _ (Nat.two_pow_pos w)

theorem testBit_bits (x lo w i : Nat) : (bits x lo w).testBit i = (decide (i < w) && x.testBit (lo + i)) := by
  rw [bits, Nat.testBit_mod_two_pow, Nat.testBit_div_two_pow, Nat.add_comm]

theorem putBits_eq (x lo w v : Nat) :
    putBits x lo w v = 2 ^ lo * (2 ^ w * (x / 2 ^ (lo + w)) + v % 2 ^ w) + x % 2 ^ lo := by
  have h1 := Nat.div_add_mod x (2 ^ lo)
  have h2 := Nat.div_add_mod (x / 2 ^ lo) (2 ^ w)
  rw [Nat.div_div_eq_div_mul, ← pow_add] at h2
  have h3 : x = 2 ^ lo * (2 ^ w * (x / 2 ^ (lo + w))) + 2 ^ lo * (x / 2 ^ lo % 2 ^ w) + x % 2 ^ lo := by
    rw [← Nat.mul_add, h2, h1]
  unfold putBits bits
  rw [Nat.mul_add, Nat.mul_comm (2 ^ lo) (v % 2 ^ w)]
  rw [Nat.mul_comm (2 ^ lo) (x / 2 ^ lo % 2 ^ w)] at h3
  omega

/-- Every bit of a word into which a field is put. -/
theorem testBit_putBits (x lo w v i : Nat) :
    (putBits x lo w v).testBit i = if lo ≤ i ∧ i < lo + w then v.testBit (i - lo) else x.testBit i := by
  rw [putBits_eq, Nat.testBit_two_pow_mul_add _ (Nat.mod_lt _ (Nat.two_pow_pos lo))]
  by_cases h1 : i < lo
  · rw [if_pos h1, if_neg (by omega), Nat.testBit_mod_two_pow]; simp [h1]
  · rw [if_neg h1, Nat.testBit_two_pow_mul_add _ (Nat.mod_lt _ (Nat.two_pow_pos w))]
    by_cases h2 : i - lo < w
    · rw [if_pos h2, if_pos (by omega), Nat.testBit_mod_two_pow]; simp [h2]
    · rw [if_neg h2, if_neg (by omega), Nat.testBit_div_two_pow]
      congr 1; omega

@[simp] theorem bits_putBits_self (x lo w v : Nat) : bits (putBits x lo w v) lo w = v % 2 ^ w := by
  refine Nat.eq_of_testBit_eq fun i => ?_
  rw [testBit_bits, testBit_putBits, Nat.testBit_mod_two_pow]
  by_cases h : i < w
  · rw [if_pos (by omega), Nat.add_sub_cancel_left]
  · simp [h]

/-- A field apart from the one that is put. -/
theorem bits_putBits_apart (x lo w v l k : Nat) (h : l + k ≤ lo ∨ lo + w ≤ l) : bits (putBits x lo w v) l k = bits x l k := by
  refine Nat.eq_of_testBit_eq fun i => ?_
  rw [testBit_bits, testBit_bits, testBit_putBits]
  by_cases hi : i < k
  · rw [if_neg (by omega)]
  · simp [hi]

theorem bits_mod (x lo w n : Nat) (h : lo + w ≤ n) : bits (x % 2 ^ n) lo w = bits x lo w := by
  refine Nat.eq_of_testBit_eq fun i => ?_
  rw [testBit_bits, testBit_bits, Nat.testBit_mod_two_pow]
  by_cases hi : i < w
  · simp [hi, show lo + i < n by omega]
  · simp [hi]

/-! ### Register words and fields -/

theorem State.reg_setReg (s : State) (a b v : Nat) : (s.setReg a v).reg b = if b = a then v % 2 ^ 32 else s.reg b := by
  simp only [State.reg, State.setReg_regs, AMap.get?_put]
  by_cases h : b = a <;> simp [h]

@[simp] theorem State.reg_setReg_self (s : State) (a v : Nat) : (s.setReg a v).reg a = v % 2 ^ 32 := by
  simp [State.reg_setReg]

theorem State.reg_setReg_ne (s : State) {a b : Nat} (v : Nat) (h : b ≠ a) : (s.setReg a v).reg b = s.reg b := by
  simp [State.reg_setReg, h]

/-- A field reads what was put into it, as far as its width goes. -/
theorem State.f_setF_self (s : State) (pg : Nat) (x : Fld) (v : Nat) (h : x.lo + x.w ≤ 32) :
    (s.setF pg x v).f pg x = v % 2 ^ x.w := by
  rw [State.f, State.setF, State.reg_setReg_self, bits_mod _ _ _ _ h, bits_putBits_self]

/-- A field of another word keeps its value. -/
theorem State.f_setF_ne (s : State) (pg q : Nat) (x y : Fld) (v : Nat) (h : q * 4096 + y.off ≠ pg * 4096 + x.off) :
    (s.setF pg x v).f q y = s.f q y := by
  rw [State.f, State.setF, State.reg_setReg_ne _ _ h, State.f]

/-- A field of the same word apart from the one put keeps its value. -/
theorem State.f_setF_apart (s : State) (pg : Nat) (x y : Fld) (v : Nat) (h : x.off = y.off) (h32 : y.lo + y.w ≤ 32)
    (ha : y.lo + y.w ≤ x.lo ∨ x.lo + x.w ≤ y.lo) : (s.setF pg x v).f pg y = s.f pg y := by
  rw [State.f, State.setF, h, State.reg_setReg_self, bits_mod _ _ _ _ h32, bits_putBits_apart _ _ _ _ _ _ ha, State.f]

/-! ### Flags and signals -/

/-- u differs from s in what a signal can change: registers, what goes out, the functions' vectors and queues, the rings' unsignalled
entries, the spacing of vector 0, and when flags were last set. -/
def State.onlySignals (s u : State) : Prop :=
  ∃ r o f k i l, u = { s with regs := r, out := o, fns := f, kvs := k, integ := { s.integ with spacing := i }, lastSet := l }

theorem State.onlySignals_refl (s : State) : s.onlySignals s := ⟨_, _, _, _, _, _, rfl⟩

theorem State.onlySignals_trans {s t u : State} (h : s.onlySignals t) (g : t.onlySignals u) : s.onlySignals u := by
  obtain ⟨_, _, _, _, _, _, rfl⟩ := h
  obtain ⟨_, _, _, _, _, _, rfl⟩ := g
  exact ⟨_, _, _, _, _, _, rfl⟩

theorem State.onlySignals_setReg (s : State) (a v : Nat) : s.onlySignals (s.setReg a v) := ⟨_, _, _, _, _, _, rfl⟩

theorem State.sendMessage_only (s : State) (f v : Nat) : s.onlySignals (s.sendMessage f v) := by
  unfold State.sendMessage State.clearUnsignalled
  simp only
  split_ifs <;> exact ⟨_, _, _, _, _, _, rfl⟩

theorem State.setSpacing_only (s : State) (f t : Nat) (owed : Bool) : s.onlySignals (s.setSpacing f t owed) := ⟨_, _, _, _, _, _, rfl⟩

theorem State.message_only (s : State) (f v : Nat) : s.onlySignals (s.message f v) := by
  unfold State.message
  simp only
  split_ifs
  · exact ⟨_, _, _, _, _, _, rfl⟩
  · exact ⟨_, _, _, _, _, _, rfl⟩
  · split
    · exact s.setSpacing_only ..
    · exact State.onlySignals_trans (s.sendMessage_only f 0) (State.setSpacing_only ..)
  · exact s.sendMessage_only f v

theorem State.signal_only (s : State) (pg : Nat) : s.onlySignals (s.signal pg) := by
  have h1 : s.onlySignals (if s.f Pg.dir F.DIR_PF0_EN == 1 then s.message 0 0 else s) := by
    split_ifs
    · exact s.message_only 0 0
    · exact s.onlySignals_refl
  unfold State.signal
  revert h1
  generalize (if s.f Pg.dir F.DIR_PF0_EN == 1 then s.message 0 0 else s) = t
  intro h1
  have h2 : ∀ v : State, t.onlySignals v → s.onlySignals (if pg == Pg.pwr || (pg == Pg.dir && v.f Pg.dir F.DIR_BMC_EN == 1) then
      v.emit (.ibi pg) else v) := by
    intro v hv
    split_ifs
    · exact State.onlySignals_trans (State.onlySignals_trans h1 hv) ⟨_, _, _, _, _, _, rfl⟩
    · exact State.onlySignals_trans h1 hv
  refine h2 _ ?_
  split
  · split_ifs
    · exact t.message_only _ _
    · exact t.onlySignals_refl
  · exact t.onlySignals_refl

/-- Setting bits of a register. -/
theorem State.raise_only (s : State) (a m : Nat) : s.onlySignals (s.raise a m) := ⟨_, _, _, _, _, _, rfl⟩

/-- Settings of a flag change only what a signal can. -/
theorem State.settings_only (s : State) (pg b n : Nat) : s.onlySignals (s.settings pg b n) := by
  have h := State.onlySignals_trans (s.raise_only (pg * 4096 + oEvent) (2 ^ b)) (State.onlySignals_setReg _ (pg * 4096 + oCount)
    (wrapAdd 32 (s.reg (pg * 4096 + oCount)) n))
  unfold State.settings
  simp only
  split_ifs
  · exact State.onlySignals_trans h (State.signal_only _ _)
  · exact h

/-- Setting a flag changes only what a signal can. -/
theorem State.event_only (s : State) (pg b : Nat) : s.onlySignals (s.event pg b) := s.settings_only ..

/-- An interrupt changes only what a signal can. -/
theorem State.interrupt_only (s : State) (f v : Nat) : s.onlySignals (s.interrupt f v) := by
  unfold State.interrupt
  split_ifs
  · exact s.message_only f v
  · exact State.onlySignals_trans ⟨_, _, _, _, _, _, rfl⟩ (State.event_only _ _ _)

/-! ### Registers that a signal leaves -/

/-- Words of functions' counts of messages, which a signal raises. -/
def irqSentWord (a : Nat) : Prop := ∃ f, a = Pg.host f 0 * 4096 + F.HOST0_IRQ_SENT.off

theorem State.reg_sendMessage (s : State) (f v a : Nat) (h : ¬ irqSentWord a) : (s.sendMessage f v).reg a = s.reg a := by
  have hc : ∀ (t : State) f v, (t.clearUnsignalled f v).reg a = t.reg a := by
    intro t f v
    unfold State.clearUnsignalled
    simp only
    split_ifs <;> rfl
  unfold State.sendMessage
  simp only
  rw [hc, State.incF, State.setF, State.reg_setReg_ne _ _ fun e => h ⟨f, e⟩]
  rfl

theorem State.reg_message (s : State) (f v a : Nat) (h : ¬ irqSentWord a) : (s.message f v).reg a = s.reg a := by
  unfold State.message
  simp only
  split_ifs
  · rfl
  · rfl
  · split
    · rfl
    · exact s.reg_sendMessage f 0 a h
  · exact s.reg_sendMessage f v a h

theorem State.reg_signal (s : State) (pg a : Nat) (h : ¬ irqSentWord a) : (s.signal pg).reg a = s.reg a := by
  have h1 : (if s.f Pg.dir F.DIR_PF0_EN == 1 then s.message 0 0 else s).reg a = s.reg a := by
    split_ifs
    · exact s.reg_message 0 0 a h
    · rfl
  unfold State.signal
  revert h1
  generalize (if s.f Pg.dir F.DIR_PF0_EN == 1 then s.message 0 0 else s) = t
  intro h1
  have h2 : ∀ v : State, v.reg a = t.reg a → (if pg == Pg.pwr || (pg == Pg.dir && v.f Pg.dir F.DIR_BMC_EN == 1) then
      v.emit (.ibi pg) else v).reg a = s.reg a := by
    intro v hv
    rw [← h1, ← hv]
    split_ifs <;> rfl
  refine h2 _ ?_
  split
  · split_ifs
    · exact t.reg_message _ _ a h
    · rfl
  · rfl

/-- Setting a flag leaves every register but the page's flags and count, and the counts of messages. -/
theorem State.reg_event (s : State) (pg b a : Nat) (h : ¬ irqSentWord a) (h1 : a ≠ pg * 4096 + oEvent) (h2 : a ≠ pg * 4096 + oCount) :
    (s.event pg b).reg a = s.reg a := by
  have e : ((s.raise (pg * 4096 + oEvent) (2 ^ b)).setReg (pg * 4096 + oCount) (wrapAdd 32 (s.reg (pg * 4096 + oCount))
      (b2n (!bit (s.setNow (pg * 4096 + oEvent)) b)))).reg a = s.reg a := by
    rw [State.reg_setReg_ne _ _ h2]
    exact State.reg_setReg_ne _ _ h1
  unfold State.event State.settings
  simp only
  split_ifs
  · rw [State.reg_signal _ _ _ h, e]
  · exact e

/-! ### Fields that a flag leaves -/

@[simp] theorem State.event_pending (s : State) (pg b : Nat) : (s.event pg b).pending = s.pending := by
  obtain ⟨_, _, _, _, _, _, h⟩ := s.event_only pg b; rw [h]
@[simp] theorem State.event_mem (s : State) (pg b : Nat) : (s.event pg b).mem = s.mem := by
  obtain ⟨_, _, _, _, _, _, h⟩ := s.event_only pg b; rw [h]
@[simp] theorem State.event_faulty (s : State) (pg b : Nat) : (s.event pg b).faulty = s.faulty := by
  obtain ⟨_, _, _, _, _, _, h⟩ := s.event_only pg b; rw [h]
@[simp] theorem State.event_bulkLost (s : State) (pg b : Nat) : (s.event pg b).bulkLost = s.bulkLost := by
  obtain ⟨_, _, _, _, _, _, h⟩ := s.event_only pg b; rw [h]
@[simp] theorem State.event_shadow (s : State) (pg b : Nat) : (s.event pg b).shadow = s.shadow := by
  obtain ⟨_, _, _, _, _, _, h⟩ := s.event_only pg b; rw [h]
@[simp] theorem State.event_lastClear (s : State) (pg b : Nat) : (s.event pg b).lastClear = s.lastClear := by
  obtain ⟨_, _, _, _, _, _, h⟩ := s.event_only pg b; rw [h]
@[simp] theorem State.event_draws (s : State) (pg b : Nat) : (s.event pg b).draws = s.draws := by
  obtain ⟨_, _, _, _, _, _, h⟩ := s.event_only pg b; rw [h]
@[simp] theorem State.event_opens (s : State) (pg b : Nat) : (s.event pg b).opens = s.opens := by
  obtain ⟨_, _, _, _, _, _, h⟩ := s.event_only pg b; rw [h]
@[simp] theorem State.event_power (s : State) (pg b : Nat) : (s.event pg b).power = s.power := by
  obtain ⟨_, _, _, _, _, _, h⟩ := s.event_only pg b; rw [h]
@[simp] theorem State.event_parts (s : State) (pg b : Nat) : (s.event pg b).parts = s.parts := by
  obtain ⟨_, _, _, _, _, _, h⟩ := s.event_only pg b; rw [h]
@[simp] theorem State.event_vfEnable (s : State) (pg b : Nat) : (s.event pg b).vfEnable = s.vfEnable := by
  obtain ⟨_, _, _, _, _, _, h⟩ := s.event_only pg b; rw [h]
@[simp] theorem State.event_numVfs (s : State) (pg b : Nat) : (s.event pg b).numVfs = s.numVfs := by
  obtain ⟨_, _, _, _, _, _, h⟩ := s.event_only pg b; rw [h]
@[simp] theorem State.event_cambs (s : State) (pg b : Nat) : (s.event pg b).cambs = s.cambs := by
  obtain ⟨_, _, _, _, _, _, h⟩ := s.event_only pg b; rw [h]
@[simp] theorem State.event_stream (s : State) (pg b : Nat) : (s.event pg b).stream = s.stream := by
  obtain ⟨_, _, _, _, _, _, h⟩ := s.event_only pg b; rw [h]
@[simp] theorem State.event_switches (s : State) (pg b : Nat) : (s.event pg b).switches = s.switches := by
  obtain ⟨_, _, _, _, _, _, h⟩ := s.event_only pg b; rw [h]
@[simp] theorem State.event_intks (s : State) (pg b : Nat) : (s.event pg b).intks = s.intks := by
  obtain ⟨_, _, _, _, _, _, h⟩ := s.event_only pg b; rw [h]
@[simp] theorem State.event_engines (s : State) (pg b : Nat) : (s.event pg b).engines = s.engines := by
  obtain ⟨_, _, _, _, _, _, h⟩ := s.event_only pg b; rw [h]
@[simp] theorem State.event_applyPassed (s : State) (pg b : Nat) : (s.event pg b).applyPassed = s.applyPassed := by
  obtain ⟨_, _, _, _, _, _, h⟩ := s.event_only pg b; rw [h]
@[simp] theorem State.event_threads (s : State) (pg b : Nat) : (s.event pg b).threads = s.threads := by
  obtain ⟨_, _, _, _, _, _, h⟩ := s.event_only pg b; rw [h]
@[simp] theorem State.event_cores (s : State) (pg b : Nat) : (s.event pg b).cores = s.cores := by
  obtain ⟨_, _, _, _, _, _, h⟩ := s.event_only pg b; rw [h]
@[simp] theorem State.event_heldWrites (s : State) (pg b : Nat) : (s.event pg b).heldWrites = s.heldWrites := by
  obtain ⟨_, _, _, _, _, _, h⟩ := s.event_only pg b; rw [h]
@[simp] theorem State.event_hostStops (s : State) (pg b : Nat) : (s.event pg b).hostStops = s.hostStops := by
  obtain ⟨_, _, _, _, _, _, h⟩ := s.event_only pg b; rw [h]
@[simp] theorem State.event_hostTurn (s : State) (pg b : Nat) : (s.event pg b).hostTurn = s.hostTurn := by
  obtain ⟨_, _, _, _, _, _, h⟩ := s.event_only pg b; rw [h]
@[simp] theorem State.event_formes (s : State) (pg b : Nat) : (s.event pg b).formes = s.formes := by
  obtain ⟨_, _, _, _, _, _, h⟩ := s.event_only pg b; rw [h]
@[simp] theorem State.event_nextForme (s : State) (pg b : Nat) : (s.event pg b).nextForme = s.nextForme := by
  obtain ⟨_, _, _, _, _, _, h⟩ := s.event_only pg b; rw [h]
@[simp] theorem State.event_tiles (s : State) (pg b : Nat) : (s.event pg b).tiles = s.tiles := by
  obtain ⟨_, _, _, _, _, _, h⟩ := s.event_only pg b; rw [h]
@[simp] theorem State.event_heldPlans (s : State) (pg b : Nat) : (s.event pg b).heldPlans = s.heldPlans := by
  obtain ⟨_, _, _, _, _, _, h⟩ := s.event_only pg b; rw [h]
@[simp] theorem State.event_refused (s : State) (pg b : Nat) : (s.event pg b).refused = s.refused := by
  obtain ⟨_, _, _, _, _, _, h⟩ := s.event_only pg b; rw [h]
@[simp] theorem State.event_reducers (s : State) (pg b : Nat) : (s.event pg b).reducers = s.reducers := by
  obtain ⟨_, _, _, _, _, _, h⟩ := s.event_only pg b; rw [h]
@[simp] theorem State.event_canopy (s : State) (pg b : Nat) : (s.event pg b).canopy = s.canopy := by
  obtain ⟨_, _, _, _, _, _, h⟩ := s.event_only pg b; rw [h]
@[simp] theorem State.event_snaps (s : State) (pg b : Nat) : (s.event pg b).snaps = s.snaps := by
  obtain ⟨_, _, _, _, _, _, h⟩ := s.event_only pg b; rw [h]
@[simp] theorem State.event_fills (s : State) (pg b : Nat) : (s.event pg b).fills = s.fills := by
  obtain ⟨_, _, _, _, _, _, h⟩ := s.event_only pg b; rw [h]
@[simp] theorem State.event_replays (s : State) (pg b : Nat) : (s.event pg b).replays = s.replays := by
  obtain ⟨_, _, _, _, _, _, h⟩ := s.event_only pg b; rw [h]
@[simp] theorem State.event_sec (s : State) (pg b : Nat) : (s.event pg b).sec = s.sec := by
  obtain ⟨_, _, _, _, _, _, h⟩ := s.event_only pg b; rw [h]

end Sys2Proof.Machine
end

