-- ==== Sys2Proof/Laws/Arb.lean ====
section
/-! SUPPORT. What a choice of a unit among the slots of a core leaves unchanged (R110). -/

namespace Sys2Proof.Machine

/-- A choice leaves every thread and all of memory as they were. -/
theorem State.arbPick_keeps {s s' : State} {c unit k : Nat} {ready : List Nat} (h : s.arbPick c unit ready = some (k, s')) :
    s'.threads = s.threads ∧ s'.mem = s.mem := by
  unfold State.arbPick at h
  simp only at h
  split at h
  · cases h; simp [State.incF, State.modCore]
  · split at h
    · simp only [Option.map_eq_some_iff, Prod.mk.injEq] at h
      obtain ⟨_, _, _, rfl⟩ := h
      simp [State.modCore]
    · split at h
      · cases h
      · cases h; simp [State.modCore]

/-- A turn leaves every thread and all of memory as they were. -/
theorem State.unitTurn_keeps {s s' : State} {c t unit : Nat} (h : s.unitTurn c t unit = some s') :
    s'.threads = s.threads ∧ s'.mem = s.mem := by
  unfold State.unitTurn at h
  split at h
  · cases h
  · split at h
    · rename_i hp
      split at h
      · cases h; exact State.arbPick_keeps hp
      · cases h
    · cases h

end Sys2Proof.Machine
end

