-- ==== Sys2Proof/Laws/Net.lean ====
section
/-! SUPPORT. What sending, routing and the ends of links leave: no packet's way changes the state of a link. -/

namespace Sys2Proof.Machine

/-- Every link is in the state in u that it is in in s. -/
def State.sameLinkSt (s u : State) : Prop := ∀ k, (u.link k).st = (s.link k).st

theorem State.sameLinkSt_trans {s t u : State} (h : s.sameLinkSt t) (g : t.sameLinkSt u) : s.sameLinkSt u :=
  fun k => (g k).trans (h k)

theorem State.sameLinkSt_canopy {s u : State} (h : u.canopy.links = s.canopy.links) : s.sameLinkSt u := by
  intro k; simp only [State.link, h]

theorem State.sameLinkSt_setLink (s : State) (l : Nat) (x : Link) (h : x.st = (s.link l).st) : s.sameLinkSt (s.setLink l x) := by
  intro k
  rw [State.link_setLink]
  split_ifs with hk
  · rw [hk, h]
  · rfl

theorem State.sameLinkSt_foldl {α : Type} (g : State → α → State) (h : ∀ (s : State) x, s.sameLinkSt (g s x)) (l : List α)
    (s : State) : s.sameLinkSt (l.foldl g s) := by
  induction l generalizing s with
  | nil => exact State.sameLinkSt_canopy rfl
  | cons x t ih => exact State.sameLinkSt_trans (h s x) (ih _)

theorem State.sameLinkSt_putFlits (s : State) (l : Nat) (fl : List Flit) : s.sameLinkSt (s.putFlits l fl) :=
  State.sameLinkSt_trans (s.sameLinkSt_setLink l { s.link l with lane := ((s.link l).lane + fl.length) % s.lanes l } rfl)
    (State.sameLinkSt_canopy rfl)

theorem State.sameLinkSt_transmit (s : State) (l : Nat) (items : List (List Byte × Option Packet)) : s.sameLinkSt (s.transmit l items) :=
  State.sameLinkSt_trans (s.sameLinkSt_setLink l { s.withReplay l (s.link l) ((s.link l).replay ++ layFlits (s.link l).txNum items) with
    txNum := ((s.link l).txNum + (layFlits (s.link l).txNum items).length) % 2 ^ 32 } rfl) (State.sameLinkSt_putFlits _ _ _)

theorem State.sameLinkSt_sendLink (s : State) (l : Nat) (b : List Byte) : s.sameLinkSt (s.sendLink l b) := by
  unfold State.sendLink State.modLink
  have h : s.sameLinkSt (s.setLink l { s.link l with ctl := (s.link l).ctl ++ [b] }) := s.sameLinkSt_setLink l _ rfl
  simp only
  split_ifs
  · refine State.sameLinkSt_trans h (State.sameLinkSt_trans ?_ (State.sameLinkSt_transmit _ _ _))
    exact State.sameLinkSt_setLink _ l _ rfl
  · exact h

theorem State.sameLinkSt_giveCredit (s : State) (l : Nat) (p : Packet) (level : BitVec 4) (pool : Bool) :
    s.sameLinkSt (s.giveCredit l p level pool) := by
  unfold State.giveCredit
  split_ifs
  · exact s.sameLinkSt_sendLink _ _
  · exact State.sameLinkSt_canopy rfl

theorem State.sameLinkSt_leaves (s : State) (w : Waiting) : s.sameLinkSt (s.leaves w) := by
  unfold State.leaves
  split
  · exact State.sameLinkSt_giveCredit _ _ _ _ _
  · exact State.sameLinkSt_canopy rfl

theorem Link.debit_st (x : Link) (p : Packet) (r : Bool) : (x.debit p r).st = x.st := by
  unfold Link.debit
  simp only
  split_ifs <;> rfl

/-- Picking packets keeps the state of the link. -/
theorem State.pickPackets_st (s : State) (l : Nat) (fuel : Nat) (x : Link) (done : List (Waiting × Bool)) :
    (s.pickPackets l fuel x done).1.st = x.st := by
  induction fuel generalizing x done with
  | zero => rfl
  | succ fuel ih =>
    unfold State.pickPackets
    simp only
    split
    · rfl
    · split
      · rfl
      · rw [ih, Link.debit_st]

theorem State.sameLinkSt_sendWaiting (s : State) (l : Nat) : s.sameLinkSt (s.sendWaiting l).1 := by
  unfold State.sendWaiting
  simp only
  split_ifs
  · exact State.sameLinkSt_canopy rfl
  · exact State.sameLinkSt_canopy rfl
  · refine State.sameLinkSt_trans ?_ (State.sameLinkSt_transmit _ _ _)
    exact State.sameLinkSt_setLink s l _ (s.pickPackets_st ..)

/-- Draining a link's waiting packets keeps the state of every link. -/
theorem State.sameLinkSt_drain (s : State) (l : Nat) : s.sameLinkSt (s.drain l) :=
  State.sameLinkSt_trans (s.sameLinkSt_sendWaiting l) (State.sameLinkSt_foldl _ (fun s w => s.sameLinkSt_leaves w) _ _)

theorem State.sameLinkSt_sendFrom (s : State) (l : Nat) (w : Waiting) : s.sameLinkSt (s.sendFrom l w) := by
  unfold State.sendFrom State.modLink
  exact State.sameLinkSt_trans (t := s.setLink l { s.link l with waiting := (s.link l).waiting ++ [w] })
    (State.sameLinkSt_setLink s l _ rfl) (State.sameLinkSt_drain _ _)

theorem State.sameLinkSt_sendOn (s : State) (l : Nat) (p : Packet) : s.sameLinkSt (s.sendOn l p) := s.sameLinkSt_sendFrom l _

theorem State.sameLinkSt_event (s : State) (pg b : Nat) : s.sameLinkSt (s.event pg b) := State.sameLinkSt_canopy (by rw [State.event_canopy])

theorem State.sameLinkSt_advertiseOn (s : State) (l : Nat) : s.sameLinkSt (s.advertiseOn l) :=
  State.sameLinkSt_trans (s.sameLinkSt_sendOn _ _) (State.sameLinkSt_sendOn _ _ _)

theorem State.sameLinkSt_advertise (s : State) : s.sameLinkSt s.advertise :=
  State.sameLinkSt_foldl _ (fun s l => s.sameLinkSt_advertiseOn l) _ _

theorem State.sameLinkSt_tables (s : State) (g m : AMap Nat) :
    s.sameLinkSt { s with canopy := { s.canopy with groupTbl := g, memberTbl := m } } := State.sameLinkSt_canopy rfl

/-- Recomputing the routes and telling the neighbours keeps the state of every link. -/
theorem State.sameLinkSt_recomputeFrom (s : State) (was : Canopy) : s.sameLinkSt (s.recomputeFrom was) := by
  unfold State.recomputeFrom
  simp only
  split_ifs
  · exact State.sameLinkSt_canopy rfl
  · refine State.sameLinkSt_trans ?_ (State.sameLinkSt_advertise _)
    exact State.sameLinkSt_trans (s.sameLinkSt_tables _ _) (State.sameLinkSt_event _ _ _)

theorem State.sameLinkSt_reroute (s : State) (l : Nat) (w : Waiting) : s.sameLinkSt (s.reroute l w) := by
  unfold State.reroute
  split_ifs
  · exact State.sameLinkSt_canopy rfl
  · split
    · exact State.sameLinkSt_sendFrom _ _ _
    · refine State.sameLinkSt_trans ?_ (State.sameLinkSt_leaves _ _)
      exact State.sameLinkSt_trans (State.sameLinkSt_canopy rfl) (State.sameLinkSt_event _ _ _)

theorem State.setLinkSt_st (s : State) (l st k : Nat) (x : Link) :
    (((s.setLink l x).setLinkSt l st).link k).st = if k = l then st else (s.link k).st := by
  rw [State.setLinkSt, State.modLink, State.link_setLink]
  split_ifs with h
  · rfl
  · rw [State.link_setLink, if_neg h]

/-- A link that goes down is in the state given, and every other link in the state that it was in. -/
theorem State.linkDown_st (s : State) (l st k : Nat) : ((s.linkDown l st).link k).st = if k = l then st else (s.link k).st := by
  unfold State.linkDown
  simp only
  split
  · exact s.setLinkSt_st l st k _
  · refine (State.sameLinkSt_foldl _ (fun s w => State.sameLinkSt_reroute _ _ _) _ _ k).trans ?_
    refine (State.sameLinkSt_recomputeFrom _ _ k).trans
      (Eq.trans ?_ (s.setLinkSt_st l st k { since := s.power.time, retrained := (s.link l).retrained }))
    have h : ∀ (g : Link → Link) (m : AMap Link), (∀ x, (g x).st = x.st) →
        (AMap.getD k {} (m.map fun e => (e.1, g e.2))).st = (AMap.getD k {} m).st := by
      intro g m hg
      rw [AMap.getD, AMap.get?_map, AMap.getD]
      cases AMap.get? k m
      · rfl
      · exact hg _
    exact h (fun x => { x with waiting := x.waiting.map _ }) _ fun _ => rfl

/-- A link that fails is FAILED. -/
theorem State.linkFail_st (s : State) (l : Nat) : ((s.linkFail l).link l).st = 7 := by
  have h : ∀ (t : State) k p, (t.history k p).canopy = t.canopy := by
    intro t k p; unfold State.history; split_ifs <;> rfl
  unfold State.linkFail
  rw [State.link, h, State.event_canopy]
  exact (s.linkDown_st l 7 l).trans (if_pos rfl)

end Sys2Proof.Machine
end

