-- ==== Sys2Proof/Laws/Pages.lean ====
section
/-! SUPPORT. What a performed write of a register comes to, for any register and for masked commands. -/

namespace Sys2Proof.Machine

/-- A page that is seen has a class. -/
theorem State.sees_class {s : State} {who : Requester} {pg : Nat} (h : s.sees who pg = true) : ∃ c j, classOf pg = some (c, j) := by
  unfold State.sees State.present at h
  cases hc : classOf pg with
  | none => simp [hc] at h
  | some x => exact ⟨x.1, x.2, rfl⟩

/-- A write that is performed is the write of a word of its page. -/
theorem State.busWrite_eq {s : State} {who : Requester} {pg o v : Nat} {c : PClass} {j : Nat} (h : s.writes who pg)
    (hc : classOf pg = some (c, j)) (ho : o < 4096) (h4 : o % 4 = 0) :
    s.busWrite who (pg * 4096 + o) v = s.writeWord who c j pg o v := by
  obtain ⟨h1, h2, h3, h5, h6⟩ := h
  have e1 : (pg * 4096 + o) / 4096 = pg := by omega
  have e2 : (pg * 4096 + o) % 4096 = o := by omega
  have e3 : (pg * 4096 + o) % 4 = 0 := by omega
  have hl : s.mayLose = (s, false) := by simp [State.mayLose, h3]
  have ht : s.takesWrites who (pg * 4096 + o) = true := by
    unfold State.takesWrites
    rcases h2 with h2 | ⟨rfl, rfl⟩
    · simp [h2]
    · simp [e1]
  unfold State.busWrite
  simp only [h1, ht, hl, e1, e2, e3, h5, h6, hc]
  simp

/-- A write of the word of a register whose bits without meaning are written as they read is counted and recorded nowhere, where
LOCK does not protect it. -/
theorem State.writeWord_eq {s : State} {who : Requester} {c : PClass} {j pg o v : Nat}
    (hr : (v ^^^ s.reg (pg * 4096 + (o - 1024 * (regAt c j o).2))) &&& ((s.writeReq who pg (regAt c j o) v).row.rsvp &&& (s.writeReq who pg (regAt c j o) v).sel) = 0)
    (hl : writesWl who = true → s.f pg fLock = 1 → (regAt c j o).1.wl = 0) :
    s.writeWord who c j pg o v =
      if o < 0x020 then s.writeHeader pg o (s.writeReq who pg (regAt c j o) v)
      else s.writeBlock who c j pg o (s.writeReq who pg (regAt c j o) v) := by
  have h1 : s.countLocked who pg (s.writeReq who pg (regAt c j o) v) = s := by
    unfold State.countLocked
    rw [if_neg]
    simp only [Bool.and_eq_true, beq_iff_eq, bne_iff_ne, ne_eq, not_and, not_not]
    intro hw
    show (regAt c j o).1.wl &&& _ = 0
    rw [hl hw.1 hw.2, Nat.zero_and]
  have h2 : s.writeRsvp who pg o (s.writeReq who pg (regAt c j o) v) = s := by
    unfold State.writeRsvp
    simp only
    rw [if_pos]
    exact beq_iff_eq.2 hr
  unfold State.writeWord
  simp only [h1, h2]

/-- A masked command with no select on a bit without meaning is the write of its register, whose masked bits are those set, selected
and defined, where lock and requester let them change. -/
theorem State.maskedWrite_eq {s : State} {who : Requester} {c : PClass} {j pg o b sel : Nat} (h : s.writes who pg)
    (hc : classOf pg = some (c, j)) (ho : o < 4096) (h4 : o % 4 = 0) (hb : b < 2 ^ 16) (hs : sel < 2 ^ 16)
    (hm : (regAt c j o).1.mw ≠ 0) (hr : (regAt c j o).1.rsvp &&& sel = 0)
    (hl : writesWl who = true → s.f pg fLock = 1 → (regAt c j o).1.wl = 0) :
    ∃ w : WriteReq, w.row = (regAt c j o).1 ∧ w.sel = sel ∧ w.masked = b &&& sel &&& w.row.mw &&& w.can ∧
      w.can = (if writesWl who && s.f pg fLock == 0 then 0xFFFFFFFF else 0xFFFFFFFF - (regAt c j o).1.wl) ∧
      s.maskedWrite who pg o b sel = if o < 0x020 then s.writeHeader pg o w else s.writeBlock who c j pg o w := by
  have hv : (b + 2 ^ 16 * sel) / 2 ^ 16 % 2 ^ 16 = sel := by omega
  have hsel : (s.writeReq who pg (regAt c j o) (b + 2 ^ 16 * sel)).sel = sel := by
    have : ((regAt c j o).1.mw == 0) = false := by simpa using hm
    simp only [State.writeReq, this, hv]
    rfl
  refine ⟨s.writeReq who pg (regAt c j o) (b + 2 ^ 16 * sel), rfl, hsel, ?_, rfl, ?_⟩
  · have h1 : (b + 2 ^ 16 * sel) &&& sel = b &&& sel := by
      refine Nat.eq_of_testBit_eq fun i => ?_
      rw [Nat.testBit_and, Nat.testBit_and, Nat.add_comm, Nat.testBit_two_pow_mul_add _ hb]
      by_cases hi : i < 16
      · rw [if_pos hi]
      · rw [Nat.testBit_lt_two_pow (lt_of_lt_of_le hs (Nat.pow_le_pow_right (by decide) (Nat.le_of_not_lt hi)))]; simp
    unfold WriteReq.masked
    rw [hsel]
    show (b + 2 ^ 16 * sel) &&& sel &&& _ &&& _ = _
    rw [h1]
  · unfold State.maskedWrite
    rw [State.busWrite_eq h hc ho h4, State.writeWord_eq _ hl]
    rw [hsel]
    show (_ ^^^ _) &&& ((regAt c j o).1.rsvp &&& sel) = 0
    rw [hr, Nat.and_zero]

end Sys2Proof.Machine
end

