-- ==== Sys2Proof/Laws/Xts.lean ====
section
/-! SUPPORT. Encryption of host pages: what a line and a write to it keep (R86, R87). -/

namespace Sys2Proof.Machine

theorem aesXor_length (a b : List Nat) : (aesXor a b).length = min a.length b.length := by simp [aesXor]

theorem aesShift_length (inverse : Bool) (s : List Nat) : (aesShift inverse s).length = 16 := by simp [aesShift]

theorem aesEncrypt_length_le (keys : List (List Nat)) (b : List Nat) : (aesEncrypt keys b).length ≤ 16 := by
  simp [aesEncrypt, aesXor_length, aesShift_length]

theorem toBytes_length (n x : Nat) : (toBytes n x).length = n := by
  induction n generalizing x with
  | zero => rfl
  | succ n ih => simp [toBytes, ih]

theorem xtsNext_length (t : List Nat) : (xtsNext t).length = 16 := by simp [xtsNext, toBytes_length]

/-- A line never grows. -/
theorem xtsLine_length_le (decrypt : Bool) (key : List Byte) (unit : Nat) (b : List Byte) :
    (xtsLine decrypt key unit b).length ≤ 32 := by
  have h1 := aesEncrypt_length_le (aesKeys ((key.map BitVec.toNat).drop 32)) ((toBytes 16 unit).map BitVec.toNat)
  simp only [xtsLine, List.length_map, List.length_append, aesXor_length, xtsNext_length]
  omega

/-- A write to host memory is a write of some bytes at the keys of its span. -/
theorem State.pokeHost_span (s : State) (p a i : Nat) (b : List Byte) :
    ∃ key len v, s.span p (.host a i) b.length = some (key, len) ∧ v.length ≤ len ∧ s.pokeHost p a i b = s.poke key v := by
  cases h : s.hostKeys p i with
  | none => exact ⟨hostKey a, b.length, b, by simp [State.span, h], le_rfl, by simp only [State.pokeHost, h]⟩
  | some k =>
    refine ⟨hostKey (a / 32 * 32), 32, xtsLine false k (a / 32) ((s.hostLine p a i).take (a % 32) ++ b ++ (s.hostLine p a i).drop (a % 32 + b.length)), by simp [State.span, h], xtsLine_length_le _ _ _ _, ?_⟩
    simp only [State.pokeHost, h]

end Sys2Proof.Machine
end

