-- ==== Sys2Proof/Tests/Slice0.lean ====
section
/-! SUPPORT. Small checks on single steps, and for every statement with hypotheses a concrete state and operands that meet them
(`wit_` and the statement's name). Expected values are worked out from the spec's rules and examples. -/

namespace Sys2Proof.Tests

set_option maxRecDepth 20000
set_option exponentiation.threshold 4096
set_option Elab.async false

open Sys2Proof.Machine

/-! ### Well-formedness refuses what it should -/

def pkt : Packet := { kind := 1, cls := 3, dst := 0, src := 0 }

/-- Ill-formed commands, one for each check. -/
theorem test_wf_refuses :
    [Instr.thermalSample (List.replicate 95 0) [0] 0, .thermalSample (List.replicate 96 0) [] 0, .threadStartRequest 0 0 0 [0, 0, 0],
      .loadDataArrive 0 0 0 (.data (List.replicate 257 0)), .instrLineArrive 0 0 (.data (List.replicate 257 0)),
      .decodeUnitDone 1 { header := some { width := 0 } }, .frameReserve 0 0 { depth := 25 }, .flitReceive 0 0 [] 0 0, .readReq none { pkt with data := [0] } {},
      .writeReq none { pkt with lines := 1 }, .readRsp none { pkt with data := List.replicate 4097 0 },
      .writeRsp none { pkt with data := [0] }, .collData none { pkt with lines := 1 }, .collGrant none { pkt with data := [0] },
      .route 0 { pkt with data := List.replicate 4097 0 }, .elect 0 { pkt with data := List.replicate 4097 0 },
      .time 0 { pkt with data := [0] }, .sqEntryFetch 0 0 1 (some []), .bar2Write 0 0 [], .bar2Write 0 0 (List.replicate 4097 0),
      .fwFetch .pf0 [], .i3cFwChunk 0 0 []].all (fun i => !i.wf) = true := by decide

theorem test_wf_accepts :
    [Instr.thermalSample (List.replicate 96 0) [0] 0, .threadStartRequest 0 0 0 [0, 0, 0, 0], .loadDataArrive 0 0 0 (.read [] []),
      .readReq none pkt {}, .bar2Write 0 0 [1], .aluAdd 0 0 1 2 3].all (fun i => i.wf) = true := by decide

/-! ### Encryption of host pages (R86) -/

/-- The AES-256 example of FIPS 197, appendix C.3. -/
theorem test_aes : aesEncrypt (aesKeys (List.range 32)) ((List.range 16).map (17 * ·)) =
    [0x8e, 0xa2, 0xb7, 0xca, 0x51, 0x67, 0x45, 0xbf, 0xea, 0xfc, 0x49, 0x90, 0x4b, 0x49, 0x60, 0x89] := by decide

/-- The first 32 bytes of the XTS-AES-256 example with data unit number 0xFF of IEEE 1619, annex B (vector 10). -/
theorem test_xts :
    xtsLine false ((toBytes 32 0x2718281828459045235360287471352662497757247093699959574966967627).reverse ++
        (toBytes 32 0x3141592653589793238462643383279502884197169399375105820974944592).reverse) 0xFF
      ((List.range 32).map (BitVec.ofNat 8)) =
    (toBytes 32 0x1c3b3a102f770386e4836c99e370cf9bea00803f5e482357a4ae12d414a3e63b).reverse := by decide

/-! ### Small states -/

/-- Partition 0 of a division into one, in an overlay. -/
def on (o : Overlay) : State := State.reset.setPart 0 { st := .active, overlay := o, keyGen := 1 }

/-- The same with thread 0 of core 0 about to execute word w, its line and the next one buffered. -/
def run (w : Nat) (x : Thread) : State :=
  (on .train).setTh 0 0 { x with st := .ready, pc := 0x1000, buf := [(0x1000, toBytes 32 w), (0x1020, toBytes 32 0)] }

/-- The word executes in `run`. -/
abbrev runs (w : Nat) (x : Thread) (uses : List (Bool × Nat)) : Prop := (run w x).executes 0 0 w uses

/-- Memory of partition 0 mapped: page 0 to stack frame 0, writable. -/
def mapped (s : State) : State := s.modPart 0 fun x => { x with pmap := [(0, 9)] }

/-- A load of 8 bytes at stack address 0 whose data is on its way, and a line on its way, good or faulting. -/
def load0 : Load := { vec := false, reg := 1, width := 8, addr := 0, tier := .stack, bytes := List.replicate 8 (some 1), places := [(.phys 0 0, 8)] }
def line0 (e : Option AccFault) : Fetch := { line := 0x1000, bytes := some [1], loc := some (.phys 0 0), fault := e }

/-! ### Thread instructions -/

theorem test_alu_add : (match exec (.aluAdd 0 0 1 2 3) (run (encR 0 1 2 3 0) { sregs := [(2, 5), (3, 2 ^ 64 - 1)] }) with
    | .next u => (u.th 0 0).s 1 == 4 && (u.th 0 0).pc == 0x1004
    | _ => false) = true := by decide
theorem test_alu_shra : (match exec (.aluShra 0 0 1 2 3) (run (encR 0 1 2 3 7) { sregs := [(2, 2 ^ 63), (3, 65)] }) with
    | .next u => (u.th 0 0).s 1 == 3 * 2 ^ 62
    | _ => false) = true := by decide
theorem test_slt_signed : (match exec (.aluSlt 0 0 1 2 3) (run (encR 0 1 2 3 9) { sregs := [(2, 2 ^ 64 - 1), (3, 0)] }) with
    | .next u => (u.th 0 0).s 1 == 1
    | _ => false) = true := by decide
theorem test_addi_sign : (match exec (.addi 0 0 1 0 0xFFFF) (run (encI 1 1 0 0xFFFF) {}) with
    | .next u => (u.th 0 0).s 1 == 2 ^ 64 - 1
    | _ => false) = true := by decide
theorem test_ins16 : (match exec (.ins16 0 0 1 2 0xABCD) (run (encI 8 1 2 0xABCD) { sregs := [(1, 2 ^ 64 - 1)] }) with
    | .next u => (u.th 0 0).s 1 == 0xFFFFABCDFFFFFFFF
    | _ => false) = true := by decide
theorem test_branch_back : (match exec (.bne 0 0 5 0 0xFFFA) (run (encI 0x19 5 0 0xFFFA) { sregs := [(5, 1)] }) with
    | .next u => (u.th 0 0).pc == 0x1000 - 24
    | _ => false) = true := by decide
theorem test_jalr_link : (match exec (.jalr 0 0 31 2 8) (run (encI 0x1D 31 2 8) { sregs := [(2, 0x1000)] }) with
    | .next u => (u.th 0 0).pc == 0x1008 && (u.th 0 0).s 31 == 0x1004
    | _ => false) = true := by decide
theorem test_store_load : (match exec (.st 0 0 1 2 0) (mapped (run (encI 0x12 1 2 0) { sregs := [(1, 0x0102030405060708), (2, 0x40)] })) with
    | .next u => u.bytes 0x40 8 == [8, 7, 6, 5, 4, 3, 2, 1] && (u.th 0 0).stores.length == 1
    | _ => false) = true := by decide
theorem test_misaligned : (match exec (.ld 0 0 1 2 4) (mapped (run (encI 0x10 1 2 4) {})) with
    | .next u => (u.th 0 0).st == .free
    | _ => false) = true := by decide
theorem test_end_frees : (match exec (.progEnd 0 0 0 0 0 0) (run (encR 0x3F 0 0 0 0) {}) with
    | .next u => (u.th 0 0).st == .free
    | _ => false) = true := by decide
/-- 1.0 + 1.0 in every FP32 lane. -/
theorem test_vadd : (match exec (.vadd 0 0 0 1 2 3) (run (encV 0 0 0 1 2 3)
      { vregs := [(2, ofLanes 32 (List.replicate 64 0x3F800000)), (3, ofLanes 32 (List.replicate 64 0x3F800000))] }) with
    | .next u => lane 32 ((u.th 0 0).v 1) 0 == 0x40000000 && lane 32 ((u.th 0 0).v 1) 63 == 0x40000000
    | _ => false) = true := by decide
theorem test_exp_of_zero : sfuExp 0 = 0x3F800000 := by decide
theorem test_philox : philox 0 0 0 0 0 = (0x6627E8D5, 0xE169C58D, 0xBC57AC4C, 0x9B00DBD8) := by decide

/-! ### Witnesses: the queue and the whole machine -/

theorem wit_StepRunsFrontCommand : ({ State.reset with pending := [Instr.routeAdvertise] } : State).pending = [.routeAdvertise] := rfl
theorem wit_EmptyQueueIsOneCycle : State.reset.pending = [] ∧ State.reset.clocked = true ∧ State.reset.power.slew = 0 ∧
    State.reset.power.rate = 0 ∧ State.reset.power.rateAcc = 0 ∧ (State.reset.modPower fun x => { x with phase := .off }).clocked = false := by decide
theorem wit_CommandsLeaveTheQueue : ∃ u, exec .routeAdvertise State.reset = .next u := ⟨_, rfl⟩
theorem wit_StepKeepsMemoryCanonical : (State.reset.poke 5 [1]).sound ∧ ∃ u, step (State.reset.poke 5 [1]) = .next u :=
  ⟨by decide, _, rfl⟩

/-! ### Witnesses: thread instructions -/

theorem wit_ThreadWordsAndInstructionsAgree : threadWord (.aluAdd 0 0 1 2 3) = some (0, 0, encR 0 1 2 3 0) ∧
    legalWord (encR 0 1 2 3 0) = true ∧ legalWord 0xFC0000FF = true ∧ 0xFC0000FF < 2 ^ 32 := by decide
theorem wit_InstructionsExecuteInOrder : threadWord (.fence 0 0 0 0 0) = some (0, 0, encR 0x23 0 0 0 0) ∧
    (State.reset.th 0 0).st ≠ .ready ∧ State.reset.coreRuns 0 = false ∧ ((run 7 {}).th 0 0).word = some 7 ∧ 7 ≠ encR 0x23 0 0 0 0 := by
  decide

/-- Threads 0 and 1 of slot 0 both about to execute w, thread 0 having issued last; a thread without its line; one whose load is on
its way. -/
theorem wit_InstructionsExecuteInOrder_turns : let w := encR 0x00 1 2 3 0
    (let s := ((run w {}).setTh 0 1 ((run w {}).th 0 0)).modCore 0 fun x => { x with last := [(0, 0)] }
     s.finds 0 0 w (wordUses w) ∧ ¬ s.turnOf 0 0 w ∧ s.turnOf 0 1 w) ∧
    (let s := (on .train).setTh 0 0 { st := .ready, pc := 0x1000 }
     (s.th 0 0).st = .ready ∧ s.coreRuns 0 = true ∧ (s.th 0 0).word = none) ∧
    (let s := run w { loads := [{ load0 with reg := 2 }] }
     (s.th 0 0).word = some w ∧ legalWord w = true ∧ (s.th 0 0).pendingOn (wordUses w) = true) ∧
    (run 0xFC000001 {}).turnOf 0 0 0xFC000001 := by decide

/-- END with status 1. -/
theorem wit_IllegalInstructionEndsProgram : let s := run 0xFC000001 {}
    (s.th 0 0).st = .ready ∧ s.coreRuns 0 = true ∧ (s.th 0 0).word = some 0xFC000001 ∧ legalWord 0xFC000001 = false ∧
    threadWord (.progEnd 0 0 0 0 0 1) = some (0, 0, 0xFC000001) := by decide
/-- A word for each case of R156: code 0x0B, ALU function 13, a used bit of FENCE, SYNC 6, SFU 4, END 0x100, VOP 0x16, type 3, VADD with
a format, VCVT 7, VCVTW 2, VDIV of INT32, VLD to v8, SFU of v8, VADD to v8, of v8, by v8, INS16 4, END 1. -/
theorem test_illegal_words :
    [encR 0x0B 0 0 0 0, encR 0 0 0 0 13, encR 0x23 0 0 0 1, encR 0x20 0 0 0 6, encR 0x29 0 0 0 4, encR 0x3F 0 0 0 0x100,
      encV 0x16 0 0 0 0 0, encV 0 3 0 0 0 0, encV 0 0 1 0 0 0, encV 0x11 0 7 0 0 0, encV 0x15 0 2 0 0 0, encV 8 2 0 0 0 0,
      encI 0x14 8 0 0, encR 0x29 0 8 0 0, encV 0 0 0 8 0 0, encV 0 0 0 0 8 0, encV 0 0 0 0 0 8, encI 8 0 4 0,
      encR 0x3F 0 0 0 1].all (fun w => !legalWord w) = true := by decide
theorem wit_GoingOnKeepsEverythingElse : ((run 7 {}).th 0 0).supplied (0x1004 % 2 ^ 64) := by decide
theorem wit_AluInstructions : ∀ f ∈ List.range 13, runs (encR 0x00 31 0 1 f) {} (scalars [31, 0, 1]) := by decide
theorem wit_ImmediateAndSpecialInstructions : (∀ op ∈ [0x01, 0x02, 0x03, 0x04, 0x05, 0x06, 0x07], runs (encI op 1 0 0xFFFF) {} (scalars [1, 0])) ∧
    (∀ h ∈ [0, 3], runs (encI 0x08 1 h 0xFFFF) {} (scalars [1])) ∧ (∀ a ∈ [0, 9], runs (encR 0x09 1 a 31 0) {} (scalars [1])) ∧
    (∀ a ∈ [8, 9], runs (encR 0x0A 1 a 31 0) {} (scalars [1])) := by decide
theorem wit_SpecialRegisterValues : runs (encR 0x09 1 9 0 0) {} (scalars [1]) ∧ runs (encR 0x0A 1 8 0 0) {} (scalars [1]) ∧
    runs (encR 0x0A 1 9 0 0) {} (scalars [1]) := by decide
/-- Page 0 in the stack. -/
theorem wit_LoadInstructions : (∀ op ∈ [0x10, 0x11], (mapped (run (encI op 1 0 0) {})).executes 0 0 (encI op 1 0 0) [(false, 1), (false, 0)]) ∧
    (mapped (run (encI 0x14 7 0 32) {})).executes 0 0 (encI 0x14 7 0 32) [(true, 7), (false, 0)] ∧
    ((mapped (run 0 {})).load 0 (some 0) 32 8).toOption = some (List.replicate 8 0) ∧
    ((mapped (run 0 {})).resolve 0 (some 0) 32 false).isOk = true ∧ 4 % 8 ≠ 0 ∧ 2 % 4 ≠ 0 ∧ 8 % 32 ≠ 0 := by decide

/-- An address that nothing is mapped at, and one in a window on context 0. -/
theorem wit_LoadInstructions_faults :
    ((run 0 {}).load 0 (some 0) 32 8).toOption = none ∧
    (let s := (run 0 {}).setCtx 0 1
     (match s.resolve 0 (some 0) (3 * 2 ^ 60 + 32) false with | .ok (.remote k o) => decide (k = 0 ∧ o = 32) | _ => false) = true ∧
     (s.load 0 (some 0) (3 * 2 ^ 60 + 32) 8).isOk = true) ∧
    (run 0 {}).faultyIn (galleyKey 0 (2 ^ 20 - 4)) 4 = [] := by decide

theorem wit_StoreInstructions : (mapped (run (encI 0x12 1 0 8) {})).executes 0 0 (encI 0x12 1 0 8) [(false, 1), (false, 0)] ∧
    (mapped (run (encI 0x13 1 0 4) {})).executes 0 0 (encI 0x13 1 0 4) [(false, 1), (false, 0)] ∧
    (mapped (run (encI 0x15 1 0 32) {})).executes 0 0 (encI 0x15 1 0 32) [(true, 1), (false, 0)] ∧
    (∀ n ∈ [4, 8, 256], ((mapped (run 0 {})).store 0 (some 0) 32 (List.replicate n 1) (.thread 0 0)).2 = none) ∧
    ((run 0 {}).store 0 (some 0) 32 [1, 2, 3, 4] (.thread 0 0)).2 = some (.translation, 32) := by decide
theorem wit_StoresLeaveOtherMemory : ((mapped (run 0 {})).camb 0).arenas = [] ∧ ¬ (mapped (run 0 {})).storedAt 0 (some 0) 32 0 31 ∧
    (2 ^ 60 + (2 ^ 20 - 4)) / 2 ^ 60 = 1 ∧ (2 ^ 60 + (2 ^ 20 - 4)) % 2 ^ 60 + [(1 : Byte), 2, 3, 4].length ≤ 2 ^ 20 := by
  refine ⟨by decide, ?_, by decide, by decide⟩
  rintro ⟨x, hx, -⟩
  exact List.not_mem_nil (show x ∈ ([] : List (Nat × Nat)) from hx)
theorem wit_BranchInstructions : (∀ op ∈ [0x18, 0x19, 0x1A, 0x1B, 0x1D], runs (encI op 1 2 0x8000) {} (scalars [1, 2])) ∧
    runs (encJ 0x1C (2 ^ 26 - 1)) {} [] := by decide

/-! ### Witnesses: counters, posts and threads -/

/-- Counter 0 with a value and a limit. -/
def ctr (v l : Nat) : State := (on .train).setRegs (Pg.sync 0 * 4096 + 0x800) [v] |>.setRegs (Pg.sync 0 * 4096 + 0xC00) [l]
/-- Thread 0 of core 0 waits on counter 0 for 5 with a timeout of 10 KCLK. -/
def waiting : State := (on .train).setTh 0 0
  { st := .waitSync, wait := some { ctr := 0, target := 5, timeout := 10, reg := 1, since := 0 } }

theorem wit_CounterOperations : (ctr 3 4).ctrBusy 0 = false ∧ (ctr 3 4).value 0 < (ctr 3 4).limit 0 ∧
    (ctr 4 4).limit 0 ≤ (ctr 4 4).value 0 ∧
    ((on .train).setForme 0 { st := .planning, busy := [0] }).ctrBusy 0 = true ∧
    (waiting.th 0 0).st = .waitSync ∧ (waiting.th 0 0).wait = some { ctr := 0, target := 5, timeout := 10, reg := 1, since := 0 } ∧
    meets (5 % 2 ^ 32) 5 = true ∧ waiting.ctrBusy 0 = false := by decide
theorem test_signed_wait : meets 2 (2 ^ 32 - 1) = true ∧ meets (2 ^ 31) 0 = false := by decide
theorem wit_SyncInstructions : (∀ f ∈ [0, 1, 2, 3, 4, 5], runs (encR 0x20 1 2 3 f) {} (scalars [1, 2, 3])) ∧
    ((run 0 { stores := [{ addr := 0, n := 8, tier := .stack }] }).th 0 0).stores ≠ [] ∧ ((run 0 {}).th 0 0).stores = [] ∧
    ¬ 8191 < ((on .train).setF (Pg.part 0) F.MEMP_LOG2_K 1).ctrsPer ∧
    meets (((run 0 {}).countOp 0).value 0) 0 = true ∧ meets (((run 0 {}).countOp 0).value 0) 1 = false := by decide

/-- SYNC ADD, SYNC SET, POST, START and FENCE with a store that is not complete. -/
theorem wit_SyncInstructions_stores : ∀ w ∈ [encR 0x20 1 2 3 0, encR 0x20 1 2 3 1, encR 0x21 0 2 0 0, encR 0x22 3 2 28 3, encR 0x23 0 0 0 0],
    (let s := run w { stores := [{ addr := 0, n := 8, tier := .stack }] }
     s.finds 0 0 w (wordUses w) ∧ (s.th 0 0).stores ≠ []) ∧ runs w {} (wordUses w) := by decide

theorem wit_WaitTimeouts : let w : SyncWait := { ctr := 0, target := 5, timeout := 10, reg := 1, since := 0 }
    (waiting.th 0 0).st = .waitSync ∧ (waiting.th 0 0).wait = some w ∧ waiting.power.kclk ≤ 0 + 10 ∧
    0 + 10 < (waiting.modPower fun x => { x with kclk := 11 }).power.kclk ∧ waiting.ctrBusy 0 = false ∧ meets (5 % 2 ^ 32) 5 = true ∧
    ((run (encR 0x20 1 2 3 3) { sregs := [(1, 7), (3, 1)] }).th 0 0).wait = none ∧
    (match exec (.syncWait 0 0 1 2 3) (run (encR 0x20 1 2 3 3) { sregs := [(1, 7), (3, 1)] }) with
      | .next u => (u.th 0 0).wait == some { ctr := 0, target := 1, timeout := 7, reg := 1, since := 0 }
      | _ => false) = true := by decide
/-- Cycle 10 may still bring the value, cycle 11 is the report's (R118). -/
theorem test_wait_times_out : (match exec (.syncWaitTimeout 0 0) (waiting.modPower fun x => { x with kclk := 10 }) with
    | .next u => (u.th 0 0).st == .waitSync
    | _ => false) = true ∧ (match exec (.syncWaitTimeout 0 0) (waiting.modPower fun x => { x with kclk := 11 }) with
    | .next u => (u.th 0 0).s 1 == 4 && (u.th 0 0).st == .ready
    | _ => false) = true := by decide
theorem wit_PostStartFenceEnd : runs (encR 0x21 0 2 0 0) {} (scalars [2]) ∧
    runs (encR 0x22 3 2 28 3) {} (scalars (3 :: 2 :: rangeFrom 28 4)) ∧
    runs (encR 0x23 0 0 0 0) {} [] ∧ runs (encR 0x3F 0 0 0 0x80) {} [] ∧ (run 0 {}).plannerShut (plannerOf 0 0) = false ∧
    (run 0 {}).plannerFull (plannerOf 0 0) = false ∧ ((mapped (run 0 {})).load 0 (some 0) 64 64).isOk = true ∧
    ({ run 0 {} with formes := (List.range 256).map fun i => (i, {}) } : State).plannerFull (plannerOf 0 0) = true := by decide
theorem wit_StartRequests : (on .train).active ((on .train).corePart 255) = true ∧ [(0 : Dword), 1, 2, 3].length = 4 ∧
    (on .train).freeThread 255 3 = some 48 ∧
    ({ on .train with threads := (List.range 16).map fun t => (thKey 0 t, { st := .ready }) } : State).freeThread 0 0 = none := by decide
/-- A thread with a load, a line on its way, an unacknowledged store, or a held post. -/
theorem wit_ThreadEvents :
    ((run 0 { loads := [load0] }).th 0 0).loads[0]? = some load0 ∧ (wholeBytes load0.bytes).isSome = true ∧ (run 0 {}).damageIn load0.places 0 = none ∧
    (∀ e ∈ [none, some .translation], ((run 0 { fetching := [line0 e] }).th 0 0).fetching = line0 e :: [] ∧ (line0 e).fault = e) ∧
    (run 0 {}).damageIn [(.phys 0 0, 32)] 0 = none ∧ ((run 0 {}).th 0 0).pc % 4 = 0 ∧
    ((run 0 { stores := [{ addr := 0, n := 8, tier := .galley }] }).th 0 0).stores[0]? = some { addr := 0, n := 8, tier := .galley } ∧
    (run 0 {}).heldWrites = [] ∧ (((on .train).modCore 0 fun x => { x with shares := some 0x4444 }).core 0).shares = some 0x4444 ∧
    ((on .train).modCore 0 fun x => { x with shares := some 0x4444 }).sharesIdle 0 = true ∧
    (let s := { (on .train).setTh 0 0 { st := .waitPost, post := 64 } with refused := [(0, [{ core := 0, thread := some 0 }])] }
     (s.th 0 0).st = .waitPost ∧ (s.refusedPosts 0).head? = some { core := 0, thread := some 0 } ∧
     plannerOf 0 0 = 0 ∧ s.plannerShut 0 = false ∧ s.plannerFull 0 = false ∧ s.coreRuns 0 = true) := by decide
theorem wit_VectorInstructions : (∀ o ∈ [0, 1, 2, 3, 4, 5, 8, 10, 11, 12, 13], ∀ ty ∈ [0, 1],
      runs (encV o ty 0 7 6 5) {} [(true, 7), (true, 6), (true, 5)]) ∧
    (∀ o ∈ [6, 7, 9], ∀ ty ∈ [0, 1], runs (encV o ty 0 7 6 0) {} [(true, 7), (true, 6)]) ∧
    runs (encV 0x12 2 0 7 31 0) {} [(true, 7), (false, 31)] ∧ runs (encV 0x13 2 0 31 7 0) {} [(false, 31), (true, 7)] ∧
    runs (encV 0x14 2 0 31 7 0) {} [(false, 31), (true, 7)] := by decide
theorem wit_WholeRegisterVectorInstructions : (∀ o ∈ [0x0E, 0x0F, 0x10], runs (encV o 2 0 7 6 5) {} [(true, 7), (true, 6), (true, 5)]) ∧
    (∀ fm ∈ [0, 6], runs (encV 0x11 0 fm 7 6 0) {} [(true, 7), (true, 6)]) ∧
    (∀ fm ∈ [3, 6], runs (encV 0x15 0 fm 7 6 0) {} [(true, 7), (true, 6)]) ∧
    (∀ o ∈ [0, 1, 2, 3], runs (encR 0x29 7 6 0 o) {} [(true, 7), (true, 6)]) := by decide

/-- Nothing proofs, the core may issue and slot 0 alone is ready for the vector unit and the special functions. -/
theorem wit_WholeRegisterVectorInstructions_turn : ∀ w ∈ [encV 0x0E 2 0 7 6 5, encR 0x29 7 6 0 0],
    (run w {}).mayIssue 0 = true ∧ (run w {}).proofing 0 = false ∧
    (∀ k < 4, (run w {}).unitReady 0 (wordUnit w) k = true ↔ k = 0 / 16) := by decide

theorem wit_Int32LanesWrap : (List.replicate 64 1).length ≤ 64 ∧ 63 < (List.replicate 64 1).length := by decide

/-- Where only slot 0 of core 0 has work for a unit, its thread 0 has the turn; where slot 1, the heavier, has work too, slot 1 has it. -/
theorem wit_UnitTurn : (∀ w ∈ [encV 0 0 0 7 6 5, encR 0x29 7 6 0 0],
      (∀ k < 4, (run w {}).unitReady 0 (wordUnit w) k = true ↔ k = 0) ∧ ((run w {}).unitTurn 0 0 (wordUnit w)).isSome = true) ∧
    (let w := encV 0 0 0 7 6 5
     let s := (run w {}).setTh 0 16 ((run w {}).th 0 0)
     let s := s.modCore 0 fun x => { x with arb := [(1, (9, 0))] }
     s.unitTurn 0 0 1 = none ∧ (s.unitTurn 0 16 1).isSome = true) := by decide

/-! ### Witnesses: formes and tiles -/

theorem wit_PostedFormesAreTakenOrRefused : (on .train).active ((on .train).corePart 255) = true ∧ (on .train).plannerShut 7 = false ∧
    (on .train).plannerHeld 7 < 256 ∧
    256 ≤ ({ on .train with formes := (List.range 256).map fun i => (i, { planner := 7 }) } : State).plannerHeld 7 ∧
    (∀ v ∈ [0, 1, 2, 4, 7], ∀ op ∈ [0, 0x0D, 0x10, 0x12, 0x0E], (BitVec.ofNat 512 (op + 256 * v)).toNat % 256 = op ∧
      (BitVec.ofNat 512 (op + 256 * v)).toNat / 256 % 256 = v) ∧ opListed 0x0E = false := by decide

/-- A COPY forme of slot 1 on core 0 of partition 0: A at 0x100, C at 0x140. -/
def copyForme : Forme :=
  { slot := 1, bytes := [0x0B] ++ List.replicate 31 0 ++ toBytes 8 0x100 ++ toBytes 8 0 ++ toBytes 8 0x140 ++ List.replicate 8 0 }
/-- A descriptor of 8 FP32 elements. -/
def eight (base : Nat) : List Byte :=
  toBytes 8 base ++ toBytes 4 8 ++ toBytes 4 0 ++ toBytes 16 8 ++ toBytes 16 8 ++ List.replicate 16 0
/-- The COPY forme in a state, with both descriptors in memory. -/
def copying (x : Forme) : State :=
  ((mapped (on .train)).poke 0x100 (eight 0x200 ++ eight 0x240)).setForme 0 x
/-- A NOP with a wait for counter 0. -/
def waits : List Byte := List.replicate 9 0 ++ [0x20] ++ List.replicate 54 0

theorem wit_TakenFormes : let x : Forme := { bytes := [0x0E] }
    opListed x.opcode = false ∧
    (let y : Forme := { part := 0, slot := 0, planner := 0, bytes := [0x12], host := none, train := true }
     opListed y.opcode = true ∧ slotRoleOk ((on .train).part 0).overlay 0 y.opcode = false) ∧
    (let s := on .train
     let y : Forme := { part := 0, slot := 0, planner := 0, bytes := waits, host := none, train := true }
     let z : Forme := { part := 0, slot := 0, planner := 0, bytes := List.replicate 64 0, host := none, train := true }
     (({ s with nextForme := s.nextForme + 1 }).incF (Pg.plan 0) F.PLAN_TAKEN).takeChecks y = none ∧ y.waitEn = true ∧
     (({ s with nextForme := s.nextForme + 1 }).incF (Pg.plan 0) F.PLAN_TAKEN).takeChecks z = none ∧ z.waitEn = false) := by decide

theorem wit_FormesGoOn : AMap.get? 0 (copying copyForme).formes = some copyForme ∧
    (let x := { copyForme with st := .waiting, waitMet := true }
     AMap.get? 0 (copying x).formes = some x ∧ x.st = .waiting ∧ x.waitMet = true) ∧
    (let x := { copyForme with st := .claimHeld }
     (∀ f ∈ (copying x).formes, f.1 < 0 → f.2.planner = x.planner → f.2.slot = x.slot → f.2.st ≠ .waiting ∧ f.2.st ≠ .claimHeld) ∧
     ((copying x).sw x.part).st = 0 ∧ (∀ k ∈ (copying x).claimCtrs x, (copying x).ctrBusy k = false)) ∧
    (let x := { copyForme with st := .planning, busy := [0] }
     (copying x).plansNext 0 x = true ∧ (copying x).integ.halted.contains x.planner = false ∧ opTiled x.opcode = true ∧
     ((copying x).plansOf x).isOk = true ∧ (((copying x).poke 0x100 [1]).plansOf x).isOk = false) ∧
    (let x : Forme := { st := .planning }
     (copying x).plansNext 0 x = true ∧ x.opcode = 0x00) ∧
    (let x := { copyForme with st := .running, posts := [0] }
     x.posts.contains 0 = true ∧ (AMap.getD x.slot [] ((copying x).core 0).queue).length < 32 ∧
     (∀ f ∈ (copying x).formes, f.1 < 0 → f.2.planner = x.planner → f.2.posts.contains 0 = false)) := by decide

/-- A cache-mode ATTENTION of one row with REUSE 1 whose plan is held, in GENERATE, with what waits for the table engine. -/
def cached (q : List KvItem) : Forme × State :=
  let x : Forme := { st := .planning, slot := 1, bytes := [0x06, 1, 0, 0, 0, 0, 0, 8] ++ List.replicate 56 0 }
  let d (n : Nat) : TDesc := { fmt := 8, pad := [n, 1, 1, 1], valid := [n, 1, 1, 1] }
  let block := [1, 1, 32, 0] ++ List.replicate 4 0 ++ toBytes 8 0x100 ++ List.replicate 40 0
  let p : Plan := { m := 1, descs := [d 32, d 64, d 32, {}], blocks := [(2, block)] }
  let s := (((mapped (on .generate)).setF (Pg.kv 0) F.KV_HKV 1).setF (Pg.kv 0) F.KV_DH32 1).setF (Pg.kv 0) F.KV_LAYERS 1
  (x, { (s.setForme 0 x).setKv 0 { queue := q } with heldPlans := [(0, [{ key := x.key, part := 0, plans := [p] }])] })

theorem wit_FormesGoOn_cache :
    (let x := { copyForme with st := .claimHeld }
     partIdle ((copying x).part x.part).overlay x.opcode = false ∧ x.cached = false ∧ (copying x).kv 0 = {}) ∧
    (∀ q ∈ [[], [KvItem.refill]], let x := (cached q).1
     let s := (cached q).2
     AMap.get? 0 s.formes = some x ∧ s.plansNext 0 x = true ∧ s.integ.halted.contains x.planner = false ∧ opTiled x.opcode = true ∧
     .rows 0 ∉ (s.kv x.part).queue ∧ x.cached = true ∧ (s.kv x.part).queue = q ∧ (s.plansOf x).isOk = true) := by decide

/-- The COPY forme running on core 0, with a limit and tiles. -/
def running (l : Nat) (ts : List Tile) : State :=
  let d (base : Nat) : TDesc := { base := base, fmt := 8, pad := [8, 1, 1, 1], valid := [8, 1, 1, 1] }
  let s := (copying { copyForme with
    st := .running, busy := [0], cores := [0], tilesTotal := 1
    plans := [{ mt := 64, nt := 64, order := 1, m := 1, n := 8, tiles := 1, descs := [d 0x200, {}, d 0x240], foot := 32768 }] }).modCore 0
      fun x => { x with queue := [(1, [0])] }
  { s.setRegs (Pg.sync 0 * 4096 + 0xC00) [l] with tiles := ts }
/-- A tile of it. -/
def tile (ph : TilePhase) (chunks : Nat) : Tile :=
  { forme := 0, core := 0, slot := 1, branch := 0, index := 0, phase := ph, chunks := chunks }

theorem wit_TilesRun : (running 1 []).mayClaim 0 0 = true ∧ ((running 1 []).claimTile 0 0).2 = some (0, 0) ∧
    ((running 0 []).claimTile 0 0).2 = none ∧ (running 0 []).mayClaim 0 0 = true ∧
    (let s := running 1 [tile .claimed 0]
     (∀ y ∈ s.tiles, y = tile .claimed 0) ∧ (s.forme 0).ending = false ∧
     0 < ((s.forme 0).planOf (tile .claimed 0)).chunkCount (s.forme 0)) ∧
    (let s := running 1 [tile .staged 1]
     s.coreRuns 0 = true ∧ s.f Pg.pwr F.PWR_ISSUE_LEVEL ≠ 0 ∧ s.platenFree 0 = true ∧
     (s.arbPick 0 1 ((List.range 4).filter fun k => s.unitReady 0 1 k)).map (fun r => (r.1, r.2.readyTile 0 1 1)) =
       some (1, some (tile .staged 1))) ∧
    (let s := running 1 [{ tile .executing 1 with out := List.replicate 8 .zero, cols := 8 }]
     (s.endingTile 0 0).isSome = true ∧ (s.endingTile 0 0).map (fun t => (s.writeTile t).2.isNone) = some true ∧
     (s.endingTile 0 0).map (fun t => ((s.modPart 0 fun x => { x with pmap := [(0, 1)] }).writeTile t).2.isSome) = some true ∧
     (s.firstFault ((s.forme 0).tileAcc 0 0) [(2 ^ 40, 1)] false).isSome = true) := by decide

/-- A MATMUL forme of slot 1 running on core 0, one tile of one element and two chunks: A at 0x200, B at 0x240, C at 0x280. -/
def product (ts : List Tile) : State :=
  let d (base n : Nat) : TDesc := { base := base, fmt := 8, pad := [n, 1, 1, 1], valid := [n, 1, 1, 1] }
  let s := (mapped (on .train)).setForme 0
    { st := .running, slot := 1, bytes := [1] ++ List.replicate 63 0, busy := [0], cores := [0], tilesTotal := 1
      plans := [{ mt := 64, nt := 64, kc := 2, m := 1, n := 1, kk := 4, tiles := 1, descs := [d 0x200 4, d 0x240 1, d 0x280 1] }] }
  { s with tiles := ts }

/-- A SCATTER forme with ACCUM: its rows in the stack, its destination in a HOST page. -/
def scattering : State :=
  let d (base f n : Nat) : TDesc := { base := base, fmt := f, pad := [n, 1, 1, 1], valid := [n, 1, 1, 1] }
  let s := ((on .train).modPart 0 fun x => { x with pmap := [(0, 9), (1, 13)] }).setForme 0
    { st := .running, slot := 1, bytes := [0x0D, 2] ++ List.replicate 62 0, cores := [0], tilesTotal := 1
      plans := [{ m := 1, n := 8, tiles := 1, descs := [d 0x200 8 8, d 0x240 0x0B 1, d (2 ^ 21) 8 8] }] }
  { s with tiles := [tile .executing 1] }

theorem wit_TilesRun_products :
    (let t := tile .executing 1
     let s := product [t]
     (∀ y ∈ s.tiles, y = t) ∧ t.phase = .executing ∧ t.chunks < ((s.forme 0).planOf t).chunkCount (s.forme 0)) ∧
    (let t := tile .staged 1
     let r := (product [t]).idleRestart 0
     r.coreRuns 0 = true ∧ r.platenFree 0 = true ∧ r.mayIssue 0 = true ∧
     (r.arbPick 0 0 ((List.range 4).filter fun k => r.unitReady 0 0 k)).map (fun r => (r.1, r.2.readyTile 0 0 1)) = some (1, some t)) ∧
    (let s := running 1 [tile .staged 1]
     s.mayIssue 0 = true ∧ s.proofing 0 = false) ∧
    (scattering.endingTile 0 0).map (fun t => match (scattering.writeTile t).2 with | some .tier => true | _ => false) = some true := by decide

theorem wit_EpiloguesReportsAndUpdates :
    (let x := { copyForme with st := .running, bytes := [0x0A] ++ copyForme.bytes.tail, plans := ((running 1 []).forme 0).plans }
     let s := { (copying x) with tiles := [tile .epilogueWait 1] }
     s.tiles.find? (fun t => t.core == 0 && t.forme == 0 && t.phase == .epilogueWait) = some (tile .epilogueWait 1) ∧
     s.coreRuns 0 = true ∧ (s.freeThread 0 1).isSome = true ∧
     ((s.forme 0).planOf (tile .epilogueWait 1)).chunkCount (s.forme 0) ≤ 1) ∧
    (let s := (running 1 []).modCore 0 fun x => { x with queue := [] }
     let x := s.forme 0
     x.st = .running ∧ opTiled x.opcode = true ∧ x.cores.contains 0 = true ∧ x.posts.contains 0 = false ∧
     (AMap.getD x.slot [] (s.core 0).queue).contains 0 = false) ∧
    (let u : RedUpdate := { forme := 0, part := 0, j := 0, addr := 0x240, fmt := 8, vals := [], ordered := false }
     let s := { running 1 [] with reducers := [u] }
     s.reducers[0]? = some u ∧ (((s.forme u.forme).plans.getD 0 {}).d 2).zmap = false) := by decide

theorem wit_EpiloguesReportsAndUpdates_places :
    (let t := tile .epilogueWait 2
     let s := product [t]
     let p := (s.forme 0).planOf t
     s.tiles.find? (fun t => t.core == 0 && t.forme == 0 && t.phase == .epilogueWait) = some t ∧ s.coreRuns 0 = true ∧
     (s.freeThread 0 t.slot).isSome = true ∧ t.proof = none ∧ (s.epiPlace 0 t.slot ((p.epiPitch (s.forme 0)).1 * p.mt)).isSome = true) ∧
    (mapped (on .train)).writeHeld 0 0 = false ∧ ((on .train).modPart 0 fun x => { x with pmap := [(0, 9 + 16)] }).writeHeld 0 0 = true ∧
    (let y : Spill := { arena := 0, page := 0, dst := 0, waits := 1, unit := 0 }
     let s := (on .train).modCamb 0 fun c => { c with spills := [y] }
     (s.camb 0).spills.find? (fun y => s.cambPick (s.lead 0 + y.unit) == some 1) = some y) ∧
    (∀ y ∈ ((on .train).camb 0).spills, (on .train).cambPick ((on .train).lead 0 + y.unit) ≠ some 1) := by decide

theorem wit_Proofing :
    (let s := (on .train).modCore 0 fun x => { x with issuedSince := true }
     let s := s.modPower fun x => { x with time := 20000000 }
     s.active (s.corePart 0) = true ∧ (s.core 0).issuedSince = true ∧ (s.core 0).lastProof + 20000000 ≤ s.power.time) ∧
    State.reset.power.time < (State.reset.core 0).lastProof + 20000000 ∧
    ((on .train).modCore 0 fun x => { x with proofDue := true }).f (Pg.core 0) F.CORE_RATE ≠ 1 ∧
    (let s := (on .train).setF (Pg.core 0) F.CORE_RATE 1
     s.f (Pg.core 0) F.CORE_RATE ≠ 0 ∧ s.f (Pg.core 0) F.CORE_RATE ≤ (s.core 0).sinceProof + 1) ∧
    (((on .train).setF (Pg.core 0) F.CORE_RATE 0).core 0).proofDue = false ∧
    ((on .train).setF (Pg.core 0) F.CORE_RATE 0).f (Pg.core 0) F.CORE_RATE = 0 ∧
    (let t := { tile .executing 1 with proof := some { num := 0, tol := 0, ring := 0 } }
     (running 1 [t]).tiles.find? (fun t => t.core == 0 && t.forme == 0 && t.proof.isSome) = some t ∧
     (((running 1 [t]).forme 0).planOf t).chunkCount ((running 1 [t]).forme 0) ≤ t.chunks) := by decide

/-- The product's tile proofed, as the platen computes it and with an upset of its only column. -/
theorem wit_Proofing_checks :
    (let pr : Proof := { num := 0, tol := 0, ring := 0 }
     let t := { tile .executing 2 with proof := some pr }
     let s := product [t]
     let f := s.forme 0
     let a := (f.planOf t).tileArea f t.index
     proofSample pr.num a.2.2.1 a.2.2.2 = (0, 0, 1) ∧ (f.planOf t).chunkCount f ≤ t.chunks ∧
     (∀ k < 1, s.proofCheck 0 t pr [] k = none) ∧ (s.proofCheck 0 t pr [(0, 0x3F800000)] 0).isSome = true) := by decide

/-! ### Witnesses: updates -/

/-- Block 0 of entry 0. -/
def block (b : Nat) (applied : Bool) : GradBlock :=
  { part := 0, entry := 0, block := b, fp32 := true, codes := List.replicate 64 0, applied := applied }
/-- An armed update with one entry of 64 elements. -/
def armed (received : Nat) : Update :=
  { forme := 0, table := 0, ext := List.replicate 64 0, clip := 0x3F800000, since := 0
    entries := [{ w := {}, m := {}, c := none, alt := 0, journal := 0, eta := 0, decay := 0, layer := 0, pingPong := false
                  elems := 64, current := false, received := received }] }
/-- Partition 0 in TRAIN with an update, and blocks on their way and in the intakes. -/
def updating (u : Option Update) (stream : List GradBlock) (intake : List (Nat × GradBlock)) : State :=
  { (on .train).modCamb 0 fun c => { c with upd := u, intake := intake } with stream := stream }

theorem wit_GradientBlocks :
    (updating (some (armed 0)) [block 0 false] []).streamNext 0 = some (0, block 0 false) ∧
    ((updating (some (armed 0)) [block 0 false] []).camb 0).held 0 < 512 ∧
    512 ≤ ((updating none [block 0 false] (List.replicate 512 (0, block 0 false))).camb 0).held 0 ∧
    ((updating (some (armed 0)) [] []).camb 0).upd = some (armed 0) ∧
    (armed 0).entries[0]?.map (fun e => (e.elems, e.received)) = some (64, 0) ∧
    ((updating none [] []).camb 0).upd = none ∧ (updating none [] []).unitPart 0 = 0 ∧
    ((updating (some (armed 64)) [] [(0, block 0 false)]).camb 0).nextBlock 0 = some (block 0 false) ∧
    ((updating (some (armed 64)) [] [(0, block 0 true)]).camb 0).intake.findIdx? (fun x => x.1 == 0 && x.2.applied) = some 0 ∧
    (updating (some (armed 64)) [] [(0, block 0 true)]).heldWrites = [] := by decide

theorem wit_GradientBlocks_order :
    (updating (some (armed 64)) [] [(0, block 0 false)]).cambPick 0 = some 0 ∧
    (let w : HeldWrite := { part := 0, idx := 0, off := 0, bytes := [1], who := .block 0 0 0 }
     let s := { updating (some (armed 64)) [] [(0, block 0 true), (0, block 0 false)] with heldWrites := [w] }
     (s.camb 0).nextBlock 0 = some (block 0 false) ∧ s.blockHeld 0 (block 0 false) = true ∧ s.cambPick 0 ≠ some 0) := by decide

theorem wit_UpdateEnds :
    (let c : Coll := { group := 0, seq := 0, part := 0, scalar := true, result := some 0 }
     let s := { State.reset with canopy := { State.reset.canopy with colls := [c] } }
     s.normResult 0 = some (c, 0)) ∧
    (armed 0).full = false ∧ (armed 64).full = true ∧ (armed 0).timeout = 60000000000 ∧
    ((updating (some (armed 0)) [] []).modPower fun x => { x with time := 60000000000 }).power.time = (armed 0).since + (armed 0).timeout ∧
    (updating (some (armed 0)) [] []).power.time < (armed 0).since + (armed 0).timeout ∧
    ((updating (some { armed 64 with committing := true }) [] []).camb 0).upd = some { armed 64 with committing := true } := by decide

/-! ### Witnesses: generation -/

/-- Partition 0 in GENERATE with forme 0, of an opcode and a variant, at the front of its table engine and a list of one entry that
starts with word w. -/
def served (op variant w : Nat) : State :=
  let s := (on .generate).setForme 0
    { st := .running, slot := 1, bytes := [BitVec.ofNat 8 op, BitVec.ofNat 8 variant] ++ List.replicate 30 0 ++ toBytes 8 0x100 ++ List.replicate 24 0 }
  (mapped s).poke 0x100 (toBytes 32 1 ++ toBytes 64 w)
/-- The same with what else the engine holds. -/
def serving (op variant w : Nat) (k : Kv) : State := (served op variant w).setKv 0 { k with queue := [.entries 0] }

/-- A change of what the engine holds leaves the rest. -/
theorem serving_modKv (op variant w : Nat) (k : Kv) (f : Kv → Kv) :
    (serving op variant w k).modKv 0 f = (served op variant w).setKv 0 (f { k with queue := [.entries 0] }) := by
  have m (s : State) : (mapped s).kvs = s.kvs := by simp [mapped, State.modPart]
  have h : (served op variant w).kvs = [] := by rw [served, State.poke_kvs, m, State.setForme_kvs, on, State.setPart_kvs]; rfl
  simp [serving, State.modKv, State.setKv, State.kv, h, AMap.put, AMap.getD, AMap.get?]

/-- `kvServes` as a test, for entry bytes b of forme 0. -/
def serves (s : State) (b : List Byte) : Bool :=
  s.active 0 && !(s.kv 0).advWaits && (s.kv 0).queue.head? == some (.entries 0) && decide ((s.kv 0).served < 1) &&
  (s.kvCountOf 0 (s.forme 0)).toOption == some 1 && (s.kvEntry 0 (s.forme 0) (s.kv 0).served).toOption == some b

theorem serves_iff (s : State) (b : List Byte) (h : serves s b = true) : s.kvServes 0 0 1 b := by
  have ok {α : Type} [DecidableEq α] (r : Except KvErr α) (v : α) (h : (r.toOption == some v) = true) : r = .ok v := by
    cases r <;> simp_all [Except.toOption]
  simp only [serves, Bool.and_eq_true, Bool.not_eq_true', decide_eq_true_eq, beq_iff_eq] at h
  exact ⟨h.1.1.1.1.1, h.1.1.1.1.2, h.1.1.1.2, ok _ _ (by simpa using h.1.2), h.1.1.2, ok _ _ (by simpa using h.2)⟩
theorem wit_DecodeRequests : serves (serving 0x18 0 0 {}) (toBytes 64 0) = true ∧
    serves (serving 0x18 1 0 {}) (toBytes 32 0) = true ∧ serves (serving 0x18 2 0 {}) (toBytes 64 0) = true ∧
    serves (serving 0x18 3 0 {}) (toBytes 8 0) = true ∧ ((serving 0x18 3 0 {}).forme 0).opcode = 0x18 ∧
    (let s := serving 0x18 2 4095 { seqs := [(4095, { st := 1, inBatch := true, busy := 1 })] }
     let q := s.kvSeq 0 (ofBytes ((toBytes 64 4095).take 4) % 4096)
     serves s (toBytes 64 4095) = true ∧ q.st = 1 ∧ q.inBatch = true ∧ q.busy ≠ 0) := by decide

/-- An ADVANCE that waited, and the state in which it goes on. -/
theorem wit_DecodeRequests_resumes : ((serving 0x18 2 0 { advWaits := true }).kv 0).advWaits = true ∧
    ((serving 0x18 2 0 {}).kvSeq 0 0).busy = 0 ∧
    ((serving 0x18 2 0 { advWaits := true }).modKv 0 fun k => { k with advWaits := false }) = serving 0x18 2 0 {} :=
  ⟨by decide, by decide, serving_modKv 0x18 2 0 { advWaits := true } fun k => { k with advWaits := false }⟩

theorem wit_Swaps : (∀ v ∈ [0, 1], serves (serving 0x19 v 0 {}) [] = true) ∧
    (∀ v ∈ [2, 3], serves (serving 0x19 v 0 {}) (toBytes 8 0) = true) ∧
    ((serving 0x19 3 0 {}).forme 0).opcode = 0x19 ∧
    (∀ out ∈ [false, true], let c : KvCopy := { seq := 4095, out := out, forme := 0 }
      let s := serving 0x19 2 0 { copies := [c], seqs := [(4095, { st := 2 })] }
      (s.kv 0).copies.find? (fun c => c.seq == (4095 : BitVec 12).toNat && c.out == out) = some c ∧
      (s.kvSeq 0 (4095 : BitVec 12).toNat).list = []) := by decide

/-- A swapped sequence of no blocks, one whose block is read from a HOST page that faults, and one with a RELEASE that waits. -/
theorem wit_Swaps_copies :
    (∀ out ∈ [false, true], let s := serving 0x19 2 0 { copies := [{ seq := 1, out := out, forme := 0 }], seqs := [(1, { st := 2 })] }
      s.copyStops 0 (s.kvSeq 0 1) out = none ∧ s.copyJobs 0 (s.kvSeq 0 1) out = [] ∧ (s.kvSeq 0 1).cancel = false) ∧
    (let q : KvSeq := { st := 2, list := [0] }
     let s := (serving 0x19 2 0 { seqs := [(1, q)], blocks := [(0, { refs := 1 })] }).modPart 0 fun x => { x with pmap := [(0, 13)] }
     ((s.setF (Pg.kv 0) F.KV_HKV 1).setF (Pg.kv 0) F.KV_LAYERS 1).copyStops 0 q true |>.isSome) = true ∧
    (let q : KvSeq := { st := 3, list := [2 ^ 31], swap := 64 }
     let s := (serving 0x19 3 0 { seqs := [(1, q)] }).modPart 0 fun x => { x with pmap := [(0, 13)] }
     ((s.setF (Pg.kv 0) F.KV_HKV 1).setF (Pg.kv 0) F.KV_LAYERS 1).copyStops 0 q false |>.isSome) = true ∧
    ((serving 0x19 2 0 { seqs := [(1, { cancel := true })] }).kvSeq 0 1).cancel = true := by decide +kernel

theorem wit_PrefixesAndBudgets : (∀ w ∈ [0, 1, 2, 3], serves (serving 0x1A 0 w {}) (toBytes 32 w) = true ∧
    ofBytes ((toBytes 32 w).take 4) % 4 = w) ∧
    (∀ w ∈ [0, 1, 2], serves (serving 0x1B 0 w {}) (toBytes 32 w) = true ∧
    ofBytes ((toBytes 32 w).take 4) / 2 ^ 16 % 2 ^ 16 < (serving 0x1B 0 w {}).kvAccounts ∧
      ((serving 0x1B 0 w {}).kvWrite 0 0x200 (({} : KvAccount).bytes)).toOption.isSome = true) ∧
    (let w := 0xFFFF * 2 ^ 16
     serves (serving 0x1B 0 w {}) (toBytes 32 w) = true ∧ (serving 0x1B 0 w {}).kvAccounts ≤ ofBytes ((toBytes 32 w).take 4) / 2 ^ 16 % 2 ^ 16) := by decide

theorem wit_RefillsAndRingDelays : (on .generate).active 0 = true ∧ ((on .generate).part 0).overlay = .generate ∧
    AMap.get? 3 ((serving 0x1B 0 0 { accounts := [(3, { balance := 4, cap := 5, rate := 2000 })] }).kv 0).accounts =
      some { balance := 4, cap := 5, rate := 2000 } ∧
    ((on .train).part 0).overlay ≠ .generate ∧
    (let s := (serving 0x18 0 0 { rings := [(255, (1, 0))] }).modPower fun x => { x with time := 1000 }
     AMap.get? (255 : BitVec 8).toNat (s.kv 0).rings = some (1, 0) ∧ 0 + 1000 * max 1 (s.f (Pg.kv 0) F.KV_DELAY_US) ≤ 1000000 ∧
     (s.modPower fun x => { x with time := 1000000 }).f (Pg.kv 0) F.KV_DELAY_US = s.f (Pg.kv 0) F.KV_DELAY_US) := by decide

theorem wit_RefillsAndRingDelays_turns : ((on .generate).kv 0).queue = [] ∧ serves (serving 0x1A 0 3 {}) (toBytes 32 3) = true ∧
    ((serving 0x1A 0 3 {}).part 0).overlay = .generate := by decide

/-- A balance below the cap takes RATE thousandths and the remainder, up to the cap. -/
theorem test_refill : ({ balance := 4, cap := 10, rate := 2500, rem := 600 } : KvAccount).refill =
    { balance := 7, cap := 10, rate := 2500, rem := 100 } := by decide

/-! ### Witnesses: switches and intake -/

/-- Partition 0 switches, in a state, with a plan whose time limit is 10 ns. -/
def switching (st : Nat) (y : Option ReshardPlan) : State :=
  (on .train).setSw 0 { st := st, on := true, target := .generate, plan := y }
def plan0 : ReshardPlan := { id := 1, entries := [], expect := 0, group := 0, limit := 10 }

theorem wit_SwitchesAndPlans : (switching 1 (some plan0)).drained 0 = true ∧ State.reset.drained 0 = false ∧
    (let c : Coll := { group := 0, seq := 0, part := 0, scalar := true, purpose := 1, result := some 0 }
     let s := { switching 2 (some plan0) with canopy := { State.reset.canopy with colls := [c] } }
     s.canopy.colls.find? (fun c => c.part == 0 && c.scalar && c.purpose == 1 && c.result.isSome) = some c ∧
     ((s.endColl c 0).sw 0).st = 2) ∧
    (switching 3 (some plan0)).planDone 0 = true ∧ ((switching 2 (some plan0)).sw 0).plan = some plan0 ∧
    (switching 2 (some plan0)).power.time < plan0.since + plan0.limit ∧
    plan0.since + plan0.limit ≤ ((switching 2 (some plan0)).modPower fun x => { x with time := 10 }).power.time := by decide

/-- A picture job 0 of partition 0: two samples of a list at 0x100, batches of one position, records at 0x400. -/
def job (t : List IntkStream) : IntkJob :=
  { num := 0, limits := toBytes 2 8 ++ toBytes 2 8 ++ toBytes 4 10 ++ List.replicate 8 0 ++ toBytes 8 4096 ++ toBytes 8 100, post := List.replicate 64 0, out := {}
    streams := t
    desc := toBytes 4 0 ++ toBytes 4 2 ++ toBytes 8 0x100 ++ List.replicate 24 0 ++ toBytes 8 0x400 ++ List.replicate 12 0 ++
      toBytes 4 0x10000 ++ List.replicate 64 0 }
/-- A PNG sample of 32 bytes at 0x200. -/
def sample (h : Option StreamHeader) : IntkStream :=
  { index := 0, entry := toBytes 8 0x200 ++ toBytes 4 32 ++ toBytes 4 0x11 ++ List.replicate 16 0, header := h, reserved := 1 }
/-- The job at work, engine 25 decoding for it or engine 34 post-processing. -/
def taking (x : IntkJob) (e : AMap (Nat × Nat × Nat)) : State :=
  { (mapped (on .train)).modIntk 0 fun y => { y with jobs := [x], taken := 1 } with engines := e }

theorem wit_IntakeJobsAndStreams :
    (let s := ((on .train).setF (Pg.intk 0) F.INTK0_EN 1).setValue 0 1
     s.jobReady 0 = true) ∧ (on .train).jobReady 0 = false ∧
    (let t := sample (some {})
     let s := taking (job [t]) []
     AMap.get? 25 s.engines = none ∧ s.f (Pg.intk 25) F.INTKE_DISABLE ≠ 1 ∧ s.grantChoice (engineKind 25) = some (0, 0, 0) ∧
     s.streams 0 0 0 (job [t]) t ∧ s.isStale (job [t]) t = false ∧
     s.firstFault (intkAcc 0 25) [(t.data, t.len)] false = none) ∧
    (let t := sample none
     let s := taking (job [t]) []
     s.job? 0 0 = some (job [t]) ∧ (job [t]).unstarted = some t ∧ t.len ≠ 0 ∧
     s.firstFault (intkAcc 0 0) [(t.data, t.len)] false = none ∧
     (s.setF (Pg.intk 0) F.INTK0_FRAMES 1).headerRejects 0 (job [t]) t {} = none ∧
     s.headerRejects 0 (job [t]) t { width := 8 } = some 0x55 ∧ s.headerRejects 0 (job [t]) t { width := 9 } = some 0x50 ∧
     s.headerRejects 0 (job [t]) t { supported := false } = some 0x53) := by decide

theorem wit_IntakeUnitsAndBatches :
    (let t := sample (some {})
     let x := job [t]
     let s := taking x [(25, (0, 0, 0))]
     AMap.get? 25 s.engines = some (0, 0, 0) ∧ s.streams 0 0 0 x t ∧ t.header = some {} ∧ engineKind 25 ≤ 4 ∧
     s.decoders 0 0 0 = 1 ∧ (taking x [(24, (0, 0, 0)), (25, (0, 0, 0))]).decoders 0 0 0 = 2 ∧
     x.overBudget t (t.partVclk + 100) (unitWork x.audio {} {}) = false ∧
     x.overBudget t (t.partVclk + 101) (unitWork x.audio {} {}) = true) ∧
    (let f : IntkFrame := { num := 0, ref := false, out := true, planes := [[0]], width := 1, height := 1 }
     let t := { sample (some {}) with frames := [f] }
     let x := job [t]
     let s := taking x [(34, (0, 0, 0))]
     s.engines.find? (fun e => e.2.1 == 0 && e.2.2.1 == 0 && 5 ≤ engineKind e.1) = some (34, (0, 0, 0)) ∧
     s.job? 0 0 = some x ∧ x.streams = [t] ∧ t.hit = none ∧ x.audio = false ∧ t.nextOut = some f) ∧
    (let x := { job [] with taken := 2 }
     let s := taking x []
     s.job? 0 0 = some x ∧ x.closed = false ∧ x.streams = [] ∧ s.active 0 = true ∧ (s.part 0).overlay ≠ .service ∧ x.live = false ∧
     x.samples ≤ x.taken) ∧
    (let x := { job [sample (some {})] with taken := 1 }
     let s := taking x []
     s.job? 0 0 = some x ∧ x.mayBegin = true ∧ x.taken < x.samples ∧ x.ordered = false ∧ x.cacheUse = false ∧ x.carry = none) ∧
    (let x := { job [] with taken := 1 }
     let s := taking x []
     s.slotFree 0 x = true ∧ x.mayBegin = true ∧ (s.rd? (intkAcc 0 0) ((x.listAt + 32 * x.taken) % 2 ^ 64) 32).isOk = true) ∧
    (let x := { job [] with pos := 1 }
     let s := taking x []
     s.job? 0 0 = some x ∧ s.batchReady 0 x = true ∧ x.closed = false ∧ s.requested (Pg.intk 0) = false ∧
     (s.wr (intkAcc 0 0) (x.recordAt x.delivered) (s.batchRecord x x.delivered false)).2 = none) ∧
    (let x := { job [] with pos := 2, closed := true }
     (x.delivered + 1) * x.batch ≠ x.pos) := by decide

/-! ### Witnesses: the canopy -/

/-- Link 0 in a state since device time 0, at device time t. -/
def linked (st t : Nat) (x : Link) : State :=
  (State.reset.setLink 0 { x with st := st }).modPower fun y => { y with time := t }

theorem wit_LinkStates : (∀ st ∈ [1, 2, 3, 4, 5, 6, 7], (linked st 0 {}).linkMade 0 = true ∧ ((linked st 0 {}).link 0).st = st) ∧
    (∀ x ∈ [(2, 100000000), (3, 10000000), (4, 1000000), (6, 50000000), (7, 1000000000)],
      ((linked x.1 x.2 {}).link 0).since + x.2 ≤ (linked x.1 x.2 {}).power.time ∧
      (linked x.1 (x.2 - 1) {}).power.time < ((linked x.1 (x.2 - 1) {}).link 0).since + x.2) := by decide
theorem test_link_trains : (match exec (.linkSignalDetect 0 1 5) State.reset with
    | .next u => (u.link 0).st == 2 && u.f (portPage 0) F.CNPYP_LENGTH_DM == 5
    | _ => false) = true := by decide

/-- A HELLO of a link of a port split as at reset, and of one that is split otherwise. -/
def hello (lanes : BitVec 3) : Hello :=
  { uid := 1, addr := 0, valid := false, group := 0, split := 0, lanes := lanes, index := 0, reserved := 0, shared := 0 }

theorem wit_FlitsAndCredits : ((linked 5 0 {}).link 0).st = 5 ∧ ((7 : Word).toNat ≠ ((linked 5 0 {}).link 0).rxNum) ∧
    ((0 : Word).toNat = ((linked 5 0 {}).link 0).rxNum) ∧ ((linked 5 0 {}).link 0).discarding = false ∧
    ((linked 5 0 { discarding := true }).link 0).discarding = true ∧ 16 ≤ ((linked 5 0 { unacked := 15 }).link 0).unacked + 1 ∧
    ((linked 5 0 { unacked := 15 }).link 0).unacked ≠ 0 ∧ ((linked 5 0 {}).link 0).unacked = 0 ∧
    ((linked 4 0 {}).link 0).st = 4 ∧ (linked 4 0 {}).linkMade 0 = true ∧ (hello 4).valid = false ∧
    ((hello 4).split.toNat = (linked 4 0 {}).split (0 / 4) ∧ (hello 4).lanes.toNat = (linked 4 0 {}).lanes 0) ∧
    ¬ ((hello 2).split.toNat = (linked 4 0 {}).split (0 / 4) ∧ (hello 2).lanes.toNat = (linked 4 0 {}).lanes 0) := by decide
theorem test_ack_frees : ((match exec (.ack 0 1) (linked 5 0 { replay := [⟨0, [], []⟩, ⟨1, [], []⟩, ⟨2, [], []⟩] }) with
    | .next u => (u.link 0).replay
    | _ => []) = [⟨2, [], []⟩]) := by decide

/-- Link 0 UP on a device of address 5, context 1 bound to partition 0 and to context 7 of address 9, and a route to it. -/
def joined : State :=
  let s := ((mapped (on .train)).setF (Pg.cnpy 9) F.CNPY9_ADDR 5).setF (Pg.cnpy 9) F.CNPY9_VALID 1
  let s := (s.setLink 0 { st := 5 }).setCtx 1 (1 + 9 * 2 ^ 16 + 7 * 2 ^ 32)
  { s with canopy := { s.canopy with memberTbl := [(9, 2 ^ 41 + 1)] } }
/-- A packet from the peer to the context. -/
def fromPeer (kind : BitVec 4) (dst : BitVec 16) : Packet :=
  { kind := kind, cls := 3, dst := dst, src := 9, dstCtx := 1, srcCtx := 7, seq := 3, lines := 1, data := List.replicate 32 1 }

theorem wit_PacketsArrive : (∀ k ∈ [1, 2, 3, 4, 5, 6, 7], (fromPeer k 5).kind = k) ∧ (joined.link 0).st = 5 ∧ joined.ownAddr = some 5 ∧
    ({ joined with canopy := { joined.canopy with loop := [fromPeer 1 5] } } : State).canopy.loop.contains (fromPeer 1 5) = true ∧
    5 ≠ (fromPeer 1 9).dst.toNat ∧ (fromPeer 1 9).level ≠ 15 ∧ joined.routeLink 9 3 = some 0 ∧ joined.routeLink 8 3 = none ∧
    (State.reset.link 0).st ≠ 5 ∧ ¬ ((fromPeer 2 5).dstCtx = 0 ∧ (fromPeer 2 5).cls = 5) ∧ (fromPeer 4 5).dstCtx ≠ 0 ∧
    State.reset.accepts (fromPeer 1 5) = none ∧ joined.accepts (fromPeer 1 5) = some (1, 0) ∧ joined.isDup 1 3 = false ∧
    (joined.load 0 none (pktOff (fromPeer 1 5)) 32).isOk = true ∧ (fromPeer 2 5).w6 = 0 ∧
    ((pieces (pktOff (fromPeer 2 5)) 32).all fun y => !joined.writeHeld 0 (y.1 / page2M)) = true ∧
    (joined.store 0 none (pktOff (fromPeer 2 5)) (fromPeer 2 5).data (.unit peerUnit)).2 = none ∧
    (joined.remember 1 3).isDup 1 3 = true ∧ (fromPeer 3 5).status = 0 ∧
    (let r : RemoteReq := { ctx := 1, seq := 3, write := false, off := 0, n := 32, data := [], part := 0, who := .unit 0, sent := true }
     let s := { joined with canopy := { joined.canopy with reqs := [r] } }
     s.canopy.reqs.find? (fun r => r.ctx == 1 && r.seq == 3 && r.write == false && r.sent && !r.lost) = some r) := by decide

theorem wit_RoutingAndTime : (∀ k ∈ [8, 9, 0xB], (fromPeer k 5).kind = k ∧ (joined.link 0).st = 5) ∧ (fromPeer 1 5).kind ≠ 8 ∧
    State.reset.upLinks = [] ∧
    (let s := State.reset.modPower fun x => { x with time := 10000000 }
     s.canopy.electing = true ∧ (s.setF (Pg.cnpy 9) F.CNPY9_MODE 0).autoAddr = true ∧ s.ownAddr = none ∧
     s.canopy.electSince + 10000000 ≤ s.power.time ∧ s.numbersInUse = [] ∧
     ((s.uid :: s.canopy.ids).eraseDups.filter fun i => i < s.uid).length < 256) ∧
    State.reset.power.time < State.reset.canopy.electSince + 10000000 ∧
    (let r : RemoteReq := { ctx := 4095, seq := 65535, write := false, off := 0, n := 32, data := [], part := 0, who := .unit 0, sent := true }
     let s := ({ State.reset with canopy := { State.reset.canopy with reqs := [r] } } : State).modPower fun x => { x with time := 10000000000 }
     s.canopy.reqs = [r] ∧ r.ctx = (4095 : BitVec 12).toNat ∧ r.seq = (65535 : BitVec 16).toNat ∧
     r.since + 1000 * s.f (Pg.cnpy 9) F.CNPY9_REQ_TIMEOUT_US ≤ s.power.time) ∧
    (let y (b : Bool) : Coll := { group := 0, seq := 0, part := 0, limit := 0, scalar := b }
     let s := { State.reset with canopy := { State.reset.canopy with colls := [y false, y true] } }
     s.canopy.colls[0]? = some (y false) ∧ s.canopy.colls[1]? = some (y true) ∧ (y false).since + (y false).limit ≤ s.power.time) ∧
    State.reset.canopy.everSynced = false ∧
    ({ State.reset with canopy := { State.reset.canopy with everSynced := true } } : State).canopy.everSynced = true ∧
    (let s := (State.reset.setF (Pg.cnpy 9) F.CNPY9_SYNCED 1).modPower fun x => { x with time := 100000000 }
     s.f (Pg.cnpy 9) F.CNPY9_SYNCED = 1 ∧ s.canopy.lastSync + 100000000 ≤ s.power.time) ∧
    State.reset.power.time < State.reset.canopy.lastSync + 100000000 := by decide

/-! ### Witnesses: the host link -/

/-- Function 1 of partition 0 with Bus Master Enable; submission queue 15 enabled with 16 entries, a head and a tail, entries fetched,
and a wait. -/
def hosted (x : SubQueue) : State :=
  let s := { on .train with vfEnable := true, numVfs := 1, fns := [(1, { bme := true, sq := [(15, x)] })] }
  s.setF (Pg.host 1 1) (F.HOST1_EN.sh 240) 1
/-- An entry of a kind, with a word 1 and a word 2. -/
def entry (kind w1 w2 : Nat) : List Byte := toBytes 4 kind ++ toBytes 4 w1 ++ toBytes 4 w2 ++ List.replicate 116 0
/-- Entry 0 of the queue is handed on next. -/
def handing (b : List Byte) : State := hosted { fetched := [((hosted {}).entryRef 1 15 0 b, b)], tail := 1, head := 1 }

theorem wit_SubmissionQueues :
    (let s := hosted { head := 5, tail := 6 }
     s.fnPresent 1 = true ∧ s.sqF 1 15 F.HOST1_EN = 1 ∧ (s.sqState 1 15).head < 2 ^ 32 ∧
     (0 ≤ ((21 : Word) - BitVec.ofNat 32 5).toInt ∧ ((21 : Word) - BitVec.ofNat 32 5).toInt ≤ s.sqSize 1 15) ∧
     s.sqSize 1 15 < ((22 : Word) - BitVec.ofNat 32 5).toInt ∧ ((4 : Word) - BitVec.ofNat 32 5).toInt < 0 ∧
     s.fnReady 1 = true ∧ 1 ≤ (s.sqState 1 15).offered ∧ (s.sqState 1 15).offered ≤ s.sqSize 1 15 ∧ (entry 0 0 0).length = 128 ∧
     (entry 0x40 0 0).length = 128 ∧ bit (fieldAt (entry 0x40 0 0) 0 4) 6 = true ∧ s.cqRoom 1 (s.sqF 1 15 F.HOST1_CQ) = true) ∧
    (∀ k ∈ [0, 1, 2, 3, 4, 5], let b := entry k 0 0
      (handing b).sqFront 1 15 = some ((hosted {}).entryRef 1 15 0 b, b) ∧ ((handing b).pickSq 1).map (fun y => y.1) = some 15 ∧
      (handing b).nextFn = some 1) := by decide

theorem wit_SubmissionQueues_entries : entryOk (entry 5 0 0) = false ∧ entryOk (entry 4 0x2000 0) = false ∧
    (∀ k ∈ [0, 1, 2, 3, 4], entryOk (entry k 0 0) = true) ∧
    entryPart 1 (entry 0 0 0) = 0 ∧ (handing (entry 0 0 0)).active 0 = true ∧
    ((handing (entry 0 0 0)).stopPartition 0).active 0 = false ∧
    fieldAt (entry 2 0 0) 0 4 / 2 ^ 8 % 2 ^ 8 < (handing (entry 2 0 0)).coresPer ∧
    0 < (handing (entry 4 0 0)).ctrsPer ∧ meets (((handing (entry 4 0 0)).countOp 0).value 0) 0 = true ∧
    meets (((handing (entry 4 0 1)).countOp 0).value 0) 1 = false ∧
    (∀ m ∈ [true, false], let w := some ((hosted {}).entryRef 1 15 0 (entry 4 0 0), 0, 1, 0, 1, m)
      ((hosted { wait := w }).sqState 1 15).wait = w) := by decide

/-- A host WAIT of 2 µs for 5 of counter 0, unmet, as its cycle 2,000 comes and as it has passed. -/
theorem wit_WaitTimeouts_host :
    (let w := some ((hosted {}).entryRef 1 15 0 (entry 4 0 5), 0, 5, 0, 2000, false)
     let s := hosted { wait := w }
     (s.sqState 1 15).wait = w ∧ 2000 ≠ 0 ∧ (s.modPower fun x => { x with kclk := 2000 }).power.kclk ≤ 0 + 2000 ∧
     0 + 2000 < (s.modPower fun x => { x with kclk := 2001 }).power.kclk ∧ s.ctrBusy 0 = false ∧ meets (5 % 2 ^ 32) 5 = true) ∧
    ((handing (entry 4 0 0)).sqState 1 15).wait = none ∧ (handing (entry 4 0 0)).sqFront 1 15 = some ((hosted {}).entryRef 1 15 0 (entry 4 0 0), entry 4 0 0) := by decide

theorem wit_HostFunctions : State.reset.fnReady 0 = false ∧ (hosted {}).fnPresent 1 = true ∧ ((hosted {}).cqState 1 15).head < 2 ^ 32 ∧
    ((hosted {}).cqState 1 15).tail < 2 ^ 32 ∧
    (let s := ((((hosted {}).modCq 1 15 fun y => { y with unsignalled := 1 }).setF (Pg.host 1 2) (F.HOST2_IRQ_EN.sh 240) 1).setF
       (Pg.host 1 2) (F.HOST2_DELAY_US.sh 240) 1).modPower fun x => { x with time := 1000 }
     s.cqF 1 15 F.HOST2_IRQ_EN = 1 ∧ (s.cqState 1 15).unsignalled ≠ 0 ∧
     (s.cqState 1 15).oldest + 1000 * max 1 (s.cqF 1 15 F.HOST2_DELAY_US) ≤ s.power.time) ∧
    ((hosted {}).cqState 1 15).unsignalled = 0 ∧
    (let s := (hosted {}).modFn 1 fun x => { x with pba := [223] }
     (223 : BitVec 8).toNat < vectors 1 ∧ (s.fn 1).fnMask = false ∧ (s.fn 1).pba = [(223 : BitVec 8).toNat] ∧ s.fnReady 1 = true) ∧
    ((hosted {}).fn 1).pba = [] ∧ (mapped (hosted {})).bar2Fault 1 0x1FFFFC 4 true = none ∧
    (mapped (hosted {})).bar2Fault 1 0x1FFFFC 5 false = some (0, 0x200000) ∧
    ((hosted {}).modPart 0 fun x => { x with pmap := [(0, 1)] }).bar2Fault 1 0 4 true = some (1, 0) := by decide

/-- The configuration space of a function before the device is ready, and a BAR2 read that meets no error. -/
theorem wit_HostFunctions_configuration : State.reset.configures = true ∧
    (let s := State.reset.modPower fun x => { x with linked := false }
     s.power.phase = .up ∧ s.power.perstN = true ∧ s.configures = false) ∧
    (mapped (hosted {})).faultyIn 0x1FFFFC 4 = [] := by decide

/-! ### Witnesses: snapshots, replays and fills -/

/-- A snapshot of page 0 of partition 0, with pages still to be read. -/
def snapping (todo : List Nat) : Snap :=
  { id := 1, kind := 0, list := 0, alt := 0, record := 0, step := 0, since := 0, normPrev := 0, prevValid := false, imageItems := 0, image := []
    items := [{ src := 0, dst := 0x400000, pages := 1, method := 0, baseArea := false, baseStep := 0, used := 0, area := 0, todo := todo
                copied := 1 }] }
/-- A replay of one item, its header at 0x200, FP32 weights of 64 elements at 0x300, with a step and flags. -/
def replaying (step flags : Nat) (x : Replay) : State :=
  let s := ((mapped (on .service)).poke 0x120 (toBytes 8 0x200 ++ toBytes 8 0x300 ++ toBytes 8 0 ++ toBytes 8 0)).poke 0x200
    (toBytes 4 step ++ toBytes 4 flags ++ List.replicate 16 0 ++ toBytes 8 64 ++ List.replicate 32 0)
  { s.poke 0x300 (toBytes 8 0x400 ++ toBytes 8 8 ++ toBytes 16 64 ++ toBytes 16 64 ++ List.replicate 16 0) with replays := [(0, x)] }
def replay1 : Replay := { list := 0x100, count := 1, ctr := 0, en := false }
/-- A fill in a state, with the record of its source as far as it has come. -/
def filling (st : Nat) (x : Fill) : State := { (on .service).setFillState 0 st with fills := [(0, x)] }
def fill0 : Fill := { desc := List.replicate 72 0, record := [(0, List.replicate 128 0)], asked := true }

theorem wit_SnapshotsReplaysFills :
    (let w : HeldWrite := { part := 0, idx := 0, off := 0, bytes := [1], who := .unit 0 }
     let s := { ((on .train).modPart 0 fun x => { x with pmap := [(0, 9 + 16)] }).setF (Pg.part 0) F.MEMP_COUNT 1 with
       snaps := [(0, snapping [0])], heldWrites := [w] }
     AMap.get? 0 s.snaps = some (snapping [0]) ∧ s.touched 0 (snapping [0]) = some (0, 0) ∧ (snapping [0]).items[0]?.isSome = true ∧
     ((rangeFrom (s.f (Pg.part 0) F.MEMP_FIRST) (s.f (Pg.part 0) F.MEMP_COUNT)).filter fun f =>
       f < shareFrames (s.stackShare 0) && !((snapping [0]).staged.any fun y => y.2.2 == f)).head? = some 0 ∧
     s.snapDone 0 (snapping [0]) = false) ∧
    ({ on .train with snaps := [(0, snapping [])] } : State).snapDone 0 (snapping []) = true ∧
    (∀ y ∈ [(0, 0x200), (1, 0x200), (0, 0x301)], let s := replaying y.1 y.2 replay1
      let w : Acc := { part := 0, core := none, who := .unit (0x300 + s.lead 0) }
      (s.readBlock w 0x120 32 32).isOk = true ∧ (s.readBlock w 0x200 64 64).isOk = true ∧
      (match s.readDesc w 0x300 with
       | .ok d => weightForm d && d.shard 64 && d.fmt == 8 && s.shardInFrames 0 d
       | .error _ => false) = true) ∧
    replay1.stopped = none ∧ replay1.next < replay1.count ∧
    (let x : Replay := { replay1 with stopped := some 2 }
     AMap.get? 0 (replaying 0 0 x).replays = some x ∧ x.stopped ≠ none) ∧
    (filling 1 fill0).fillState 0 = 1 ∧ fill0.lost = none ∧ fill0.complete = true ∧ fill0.passes = false ∧
    (filling 2 fill0).fillState 0 = 2 ∧ (filling 2 fill0).fillCopied 0 fill0 = true ∧ (filling 4 fill0).fillState 0 = 4 ∧
    AMap.get? 0 (filling 4 fill0).fills = some fill0 := by decide

/-! ### Witnesses: integrity, security and power -/

/-- The state after reset at a device time. -/
def later (t : Nat) : State := State.reset.modPower fun x => { x with time := t }
/-- The I3C target has an address. -/
def i3c : State := State.reset.modPower fun x => { x with i3cAddr := some 8 }

theorem wit_AuditAndFaultHistory : State.reset.mgmtRuns = true ∧ State.reset.power.booted = true ∧ 11 ∉ State.reset.integ.halted ∧
    (let s := State.reset.setF Pg.dir F.DIR_EN 1
     s.f Pg.dir F.DIR_EN ≠ 0 ∧ s.present (Pg.core 0) = true ∧ s.audited (Pg.core 0) oMask = true ∧
     (0xFFFFFFFF : Word).toNat = s.reg (Pg.core 0 * 4096 + oMask) ∧ (0 : Word).toNat ≠ s.reg (Pg.core 0 * 4096 + oMask)) ∧
    (let e : FhEntry := { kind := 1, time := 0, boot := 0, payload := [] }
     let s : State := { State.reset with integ := { State.reset.integ with gathered := [e], written := 255, second := 0 } }
     s.powered = true ∧ s.f Pg.dir F.DIR_LOCKSTEP = 0 ∧ s.integ.next < 2 ^ 32 ∧
     s.integ.gathered.length ≤ 256 - (if s.integ.second = s.power.time / 1000000000 then s.integ.written else 0)) ∧
    i3c.i3cLive = true ∧ State.reset.i3cLive = false ∧
    (let s := ((later 5).setF Pg.dir F.DIR_TIME_LO 5).setF Pg.dir F.DIR_ARMED 1
     s.f Pg.dir F.DIR_ARMED = 1 ∧ s.f2 Pg.dir F.DIR_TIME_LO F.DIR_TIME_HI ≤ s.power.time ∧ s.power.time < 2 ^ 64 ∧
     s.present (Pg.core 255) = true) ∧
    ((later 4).setF Pg.dir F.DIR_TIME_LO 5).power.time < ((later 4).setF Pg.dir F.DIR_TIME_LO 5).f2 Pg.dir F.DIR_TIME_LO F.DIR_TIME_HI ∧
    (∀ b ∈ [true, false], AMap.get? 8 ({ State.reset with integ := { State.reset.integ with spacing := [(8, 0, b)] } } : State).integ.spacing =
      some (0, b)) ∧ State.reset.power.time < 0 + 1000 ∧ 0 + 1000 ≤ (later 1000).power.time ∧ AMap.get? 8 State.reset.integ.spacing = none := by decide

theorem wit_AuditAndFaultHistory_edges : ((later 37).modPower fun x => { x with kclk := 37 }).power.commonEdge = false ∧
    (later 5).power.commonEdge = true := by
  decide

/-- The security core with a change. -/
def secured (g : Sec → Sec) : State := State.reset.modSec g

theorem wit_SecurityEvents : State.reset.powered = true ∧
    ((secured fun x => { x with rngFails := List.replicate 14 0 }).sec.rngFails.filter fun t => 0 < t + 1000000000).length < 15 ∧
    15 ≤ ((secured fun x => { x with rngFails := List.replicate 15 0 }).sec.rngFails.filter fun t => 0 < t + 1000000000).length ∧
    State.reset.rngHalted = false ∧ i3c.i3cLive = true ∧ i3c.power.phase = .up ∧ i3c.secRuns = true ∧
    i3c.f (Pg.sec 2) F.SEC2_BUSY = 0 ∧
    (secured fun x => { x with report := some [] }).sec.report = some [] ∧ (255 : BitVec 16).toNat < 256 ∧
    (List.replicate 256 (0 : Byte)).length = 256 ∧
    (secured fun x => { x with assembled := [(0, 1, [])] }).sec.assembled = (0, 1, []) :: [] ∧
    (let s := (secured fun x => { x with activating := true }).setF fwPage F.SEC1_STAGE 3
     s.secRuns = true ∧ s.f fwPage F.SEC1_STAGE = 3 ∧ s.sec.activating = true ∧ s.sec.resetAfter = false) ∧
    (let s := (joined.setF fwPage F.SEC1_STAGE 2).setF fwPage F.SEC1_PROPAGATE 1
     s.secRuns = true ∧ s.fwSource = true) ∧
    (let s := (secured fun x => { x with sources := [(0, 9, 0)] }).setF fwPage F.SEC1_STAGE 1
     s.sec.sources = [(0, 9, 0)] ∧ s.f fwPage F.SEC1_STAGE = 1 ∧ s.power.time < 0 + 10000000000 ∧
     0 + 10000000000 ≤ (s.modPower fun x => { x with time := 10000000000 }).power.time) ∧
    (let x : FwSent := { link := 0, peer := 9, off := 0, time := 0, seq := 0 }
     let s := joined.modSec fun y => { y with sent := [x] }
     s.secRuns = true ∧ s.sec.sent = [x] ∧ (s.link x.link).st = 5 ∧ s.power.time < x.time + 10000000 ∧
     x.time + 10000000 ≤ (s.modPower fun y => { y with time := 10000000 }).power.time) ∧
    (let s := State.reset.modPower fun x => { x with reset := some .cold, booted := false }
     s.power.reset ≠ none ∧ s.power.booted = false ∧ s.power.pllLocked = true ∧ s.powered = true) ∧
    State.reset.power.booted = true ∧ State.reset.recovery = false ∧
    (∀ k ∈ [WholeReset.powerOn, .warm], (State.reset.modPower fun x => { x with reset := some k }).startDone k = true ∧
      State.reset.startDone k = false) := by decide

/-- The module in a phase of its power. -/
def phased (ph : PowerPhase) : State := State.reset.modPower fun x => { x with phase := ph }

theorem wit_PowerAndResets : (phased .off).power.phase = .off ∧ State.reset.power.phase = .up ∧
    (∀ n ∈ [0, 1, 2, 3, 4], (phased (.rising n)).power.phase = .rising n ∧ (phased (.rising n)).stageMayRise (n + 1) = true) ∧
    railStage 0 = 1 ∧ railStage 8 = 5 ∧ State.reset.watched 4 = true ∧ 3 ≤ railStage 4 ∧ State.reset.watched 3 = true ∧
    railStage 3 ≤ 2 ∧
    (phased .off).watched 0 = false ∧ State.reset.anyRail = true ∧ (37000 ≤ (39999 : BitVec 16).toNat ∧
    (39999 : BitVec 16).toNat < 40000) ∧
    (60000 < (63000 : BitVec 16).toNat ∧ (63000 : BitVec 16).toNat ≤ 63000) ∧ (36999 : BitVec 16).toNat < 37000 ∧
    63000 < (63001 : BitVec 16).toNat ∧
    (let s := State.reset.modPower fun x => { x with pllLocked := false, reset := some .powerOn }
     s.powered = true ∧ s.power.pllLocked = false ∧ s.power.reset ≠ none) ∧
    i3c.powered = true ∧ i3c.power.phase ≠ .workOff ∧ i3c.power.reset = none ∧ i3c.power.i3cAddr ≠ none ∧
    (let s := i3c.modPower fun x => { x with reset := some .powerOn }
     s.power.reset = some .powerOn ∧ s.power.i3cAddr ≠ none) ∧
    (State.reset.modPower fun x => { x with reset := some .cold }).power.perstN = true ∧
    (State.reset.modPower fun x => { x with reset := some .cold }).startDone .cold = true ∧
    (State.reset.modPower fun x => { x with perstN := false }).power.perstN = false ∧
    ((State.reset.setPart 7 { quiescing := true }).part 7).quiescing = true ∧ (State.reset.part 7).quiescing = false ∧
    (let x : Part := { st := .creating, zeroing := true, keyGen := 1 }
     ((State.reset.setPart 7 x).part 7).st = .creating ∧ ((State.reset.setPart 7 x).part 7).zeroing = true ∧
     ((State.reset.setPart 7 x).part 7).keyGen ≠ 0) ∧
    ((State.reset.setPart 7 { st := .tearingDown, zeroing := true }).part 7).st = .tearingDown ∧ State.reset.memoryUp = true ∧
    (∀ m ∈ [0, 23], State.reset.f (Pg.mem m) F.MEMD_POS + 1 < scrubUnits m) := by decide

/-- A unit of code 0 of MEM instance 0 in error, elsewhere than the scrubber is. -/
theorem wit_PowerAndResets_requests : State.reset.configures = true ∧ State.reset.power.reset = none ∧
    (phased .workOff).configures = false ∧
    (phased .workOff).power.phase = .workOff ∧ (i3c.modPower fun x => { x with phase := .workOff }).power.i3cAddr ≠ none ∧
    (∀ y ∈ [(0, 0), (1, 1), (4, 2)], (phased (.rising y.2)).power.phase = .rising y.2 ∧ railStage y.1 = y.2 + 1 ∧
      (phased (.rising y.2)).stageMayRise (y.2 + 1) = true) ∧
    State.reset.watched 4 = true ∧ (phased (.rising 1)).watched 8 = false ∧
    (∀ u ∈ ([(16384, 2)] : AMap Nat), State.reset.scrubs 0 u.1 = false) := by decide

theorem wit_GovernorAndThermal : State.reset.clocked = true ∧
    (let s := State.reset.modPower fun x => { x with samples := List.replicate 100 170100000 }
     s.meanAbove 100 (s.f Pg.pwr F.PWR_PEAK_W) = true) ∧
    (let s := State.reset.modPower fun x => { x with samples := List.replicate 5 138100000 }
     s.meanAbove 100 (s.f Pg.pwr F.PWR_PEAK_W) = false ∧ s.meanAbove 5000 (s.f Pg.pwr F.PWR_CAP_W - 20) = true) ∧
    (let s := State.reset.modPower fun x => { x with samples := [0] }
     s.meanAbove 100 (s.f Pg.pwr F.PWR_PEAK_W) = false ∧ s.meanAbove 5000 (s.f Pg.pwr F.PWR_CAP_W - 20) = false ∧
     s.meanBelow 5000 (s.f Pg.pwr F.PWR_CAP_W - 60) = true ∧ 9 ≤ s.power.sinceRaise ∧
     (s.modPower fun x => { x with sinceRaise := 8 }).power.sinceRaise < 9) ∧
    (State.reset.core 255).held = false ∧
    (let x : WaveSet := { owner := some 0, kind := .create, next := 6, due := 8000 }
     let s := (on .service).modPower fun y => { y with waves := [x], kclk := 8004, time := 8000 }
     s.power.phase = .up ∧ s.power.commonEdge = true ∧ s.power.waves.find? (fun x => x.owner == some 0 && s.power.reached x.due) = some x ∧
     x.next < 7 ∧ s.power.waves ≠ [] ∧ (s.modPower fun y => { y with kclk := 8005 }).power.commonEdge = false ∧
     (s.modPower fun y => { y with time := 7999 }).power.reached x.due = false ∧
     AMap.get? 6 (s.modCore 6 fun y => { y with held := true }).cores = some { held := true } ∧ 6 % 8 = x.next ∧ s.corePart 6 = 0) ∧
    State.reset.power.waves = [] ∧ (State.reset.modPower fun x => { x with kclk := 4008, time := 4008, edge := 3996 }).power.atGrid = true ∧
    State.reset.power.atGrid = false ∧
    (let s := State.reset.modPower fun x => { x with kclk := 5000 }
     s.aclk = 15000 ∧ (s.core 255).lastIssue + 3000 ≤ s.aclk ∧ State.reset.aclk < (State.reset.core 255).lastIssue + 3000 ∧
     ((s.modCore 255 fun y => { y with ramp := some (12, 14000) }).core 255).ramp = some (12, 14000) ∧ 14000 + 1000 ≤ s.aclk ∧
     s.aclk < 14001 + 1000) ∧ State.reset.power.thermTripN = true ∧
    (State.reset.core 255).ramp = none ∧ State.reset.powered = true ∧ State.reset.power.phase = .up ∧ 118 ≤ (118 : BitVec 8).toNat ∧
    (117 : BitVec 8).toNat < 118 := by decide

/-! ### Witnesses: registers and pages -/

theorem wit_RegisterAccesses : State.reset.reaches .pf0 = true ∧ State.reset.power.reset = none ∧ State.reset.power.busUnsure = false ∧
    (∃ off : BitVec 26, off.toNat % 4 ≠ 0) ∧ State.reset.sees .pf0 0x3FFF = false ∧ State.reset.sees .pf0 (Pg.core 0) = true ∧
    i3c.sees .i3c (Pg.core 0) = true ∧ i3c.mayWrite .i3c (Pg.core 0) = false ∧ i3c.reaches .i3c = true ∧ i3c.i3cLive = true ∧
    State.reset.reaches .i3c = false ∧ State.reset.sees .pf0 0x3FFF = false ∧
    classOf (Pg.core 0) = some (.core, 0) ∧ 0x020 ≤ 0x400 ∧ State.reset.writes .pf0 (Pg.core 0) ∧ (regAt .core 0 0x400).1.ov = 0 ∧
    (regAt .core 0 0x400).1.mw = 0 ∧
    (0x1234 ^^^ State.reset.reg (Pg.core 0 * 4096 + 0x400)) &&& (regAt .core 0 0x400).1.rsvp = 0 := by decide

/-- PEAK_W written over the bus and over I3C. -/
theorem wit_RegisterAccesses_power : (∀ y ∈ [(Requester.pf0, State.reset), (.i3c, i3c)], y.2.writesOpen y.1 Pg.pwr) ∧
    (0x024 % 4 = 0 ∧ 0x020 ≤ 0x024 ∧ 0x024 ≠ 0x048) ∧ ((Pg.pwr * 4096 + 0x024) / 4096 = Pg.pwr ∧ Pg.pwr * 4096 + 0x024 < 2 ^ 26) ∧
    ((1600 : Word).toNat ^^^ State.reset.reg (Pg.pwr * 4096 + 0x024)) &&& (regAt .pwr 0 0x024).1.rsvp = 0 ∧
    ((1600 : Word).toNat ^^^ i3c.reg (Pg.pwr * 4096 + 0x024)) &&& (regAt .pwr 0 0x024).1.rsvp = 0 ∧
    i3c.i3cLive = true ∧ i3c.power.busUnsure = false ∧ i3c.sees .i3c Pg.pwr = true := by decide

theorem wit_HeadersAndDirectory : State.reset.writes .pf0 (Pg.core 255) ∧ State.reset.writes (.vf 0) (Pg.core 0) = False ∧
    State.reset.f (Pg.core 0) fLock = 0 ∧
    (let s := State.reset.setReg (Pg.core 0 * 4096 + oEvent) 1
     bit (s.reg (Pg.core 0 * 4096 + oMask)) 0 = true ∧ bit (0xFFFFFFFE : Word).toNat 0 = false ∧
     bit (s.reg (Pg.core 0 * 4096 + oEvent)) 0 = true) ∧
    (∀ b ∈ List.range 32, bit (State.reset.reg (Pg.core 0 * 4096 + oEvent)) b = false) ∧ State.reset.requested (Pg.core 0) = false ∧
    (State.reset.setF (Pg.cnpy 9) fReq 1).requested (Pg.cnpy 9) = true ∧
    (State.reset.setF (Pg.core 3) fReq 1).requested (Pg.core 3) = true ∧
    classOf (Pg.core 3) = some (.core, 3) ∧ (State.reset.core 3).arb = [] ∧ State.reset.writes .pf0 Pg.dir ∧
    State.reset.writes .pf0 Pg.pwr ∧
    State.reset.f Pg.dir F.DIR_ARMED = 0 ∧
    State.reset.power.time + 2000 ≤ (State.reset.setF Pg.dir F.DIR_TIME_LO 2000).f2 Pg.dir F.DIR_TIME_LO F.DIR_TIME_HI ∧
    State.reset.f2 Pg.dir F.DIR_TIME_LO F.DIR_TIME_HI < State.reset.power.time + 2000 ∧
    (State.reset.setF Pg.dir F.DIR_ARMED 1).f Pg.dir F.DIR_ARMED = 1 := by decide

theorem wit_PartitionPages : (on .train).writes .pf0 (Pg.part 0) ∧ (on .train).f (Pg.part 0) F.MEMP_BUSY = 0 ∧
    ((on .train).setF (Pg.part 0) F.MEMP_BUSY 1).f (Pg.part 0) F.MEMP_BUSY = 1 ∧ ((on .train).part 0).st = .active ∧
    ((on .train).pmapCheck 0 0 9 = 0) ∧ (State.reset.part 0).st ≠ .active ∧ (State.reset.part 0).st ≠ .stopped ∧
    State.reset.writes .pf0 (Pg.part 0) ∧
    State.reset.writesOpen .pf0 (Pg.part 0) ∧ (∀ q ∈ List.range 8, (State.reset.part q).st = .absent) ∧
    ((on .train).part 0).st ≠ .absent ∧
    (on .train).writesOpen .pf0 (Pg.part 0) ∧ State.reset.lcState ≠ 4 ∧ State.reset.writes .pf0 (Pg.sync (8191 / 256)) ∧
    State.reset.ctrBusy 8191 = false ∧ ((on .train).setForme 0 { busy := [8191] }).ctrBusy 8191 = true := by decide

theorem wit_PartitionPages_old : (on .train).oldOutstanding 0 = false ∧
    (run 0 { loads := [{ load0 with old := true }] }).oldOutstanding 0 = true := by decide

theorem wit_UnitPages : State.reset.writes .pf0 (Pg.plan 7) ∧ State.reset.writes .pf0 (Pg.camb 0) ∧
    State.reset.lead (State.reset.unitPart 0) = 0 ∧ State.reset.lead (State.reset.unitPart 15) ≠ 15 ∧
    State.reset.writes .pf0 (Pg.camb 15) ∧
    (State.reset.camb 0).upd = none ∧ ((updating (some (armed 0)) [] []).camb 0).upd ≠ none ∧
    (updating (some (armed 0)) [] []).writes .pf0 (Pg.camb 0) ∧ (on .train).writes .pf0 (Pg.kv 0) ∧
    (on .train).writes .pf0 ((on .train).coppPage 0) ∧ 0 < (on .train).k ∧ ((on .train).part 0).st = .active := by decide

theorem wit_UnitPages_peek : (on .generate).writes .pf0 (Pg.kv 0) ∧ (on .generate).f (Pg.kv 0) F.KV_BUSY = 0 ∧
    ((on .generate).setF (Pg.kv 0) F.KV_BUSY 1).f (Pg.kv 0) F.KV_BUSY = 1 ∧ ((on .generate).kv 0).queue = [] ∧
    ((on .generate).part 0).st ≠ .stopped ∧ ((serving 0x18 0 0 {}).kv 0).queue ≠ [] ∧
    (((on .generate).modPart 0 fun x => { x with st := .stopped }).part 0).st = .stopped := by decide

theorem wit_UnitPages_queues : State.reset.writesOpen .pf0 (Pg.cnpy 9) ∧
    ((0x12345 : Word).toNat ^^^ State.reset.reg (Pg.cnpy 9 * 4096 + 0x020)) &&& 0xFFF80000 = 0 ∧
    State.reset.writes .pf0 (Pg.host 0 1) ∧ ((1 : Word).toNat ^^^ State.reset.reg (Pg.host 0 1 * 4096 + 0x048 + 240)) &&& 0xFFF00000 = 0 ∧
    State.reset.sqF 0 15 F.HOST1_EN = 0 ∧ State.reset.writes .pf0 (Pg.host 0 2) ∧
    ((0x3FC1 : Word).toNat ^^^ State.reset.reg (Pg.host 0 2 * 4096 + 0x048 + 240)) &&& 0xFFFF8000 = 0 ∧
    (0x3FC1 : Word).toNat / 2 ^ 6 % 2 ^ 8 < vectors 0 ∧ State.reset.cqF 0 15 F.HOST2_EN = 0 ∧
    (let s := (hosted {}).setF (Pg.host 1 2) (F.HOST2_EN.sh 240) 1
     s.cqF 1 15 F.HOST2_EN = 1 ∧ s.writes (.vf 0) (Pg.host 1 2) ∧ vectors 1 ≤ (0x3800 : Word).toNat / 2 ^ 6 % 2 ^ 8 ∧
     ((0x3800 : Word).toNat ^^^ s.reg (Pg.host 1 2 * 4096 + 0x048 + 240)) &&& 0xFFFF8000 = 0) := by decide

/-- The lifecycle fuses up to state n, with vendor key 0 present. -/
def fused (n : Nat) : State :=
  (State.reset.setF (Pg.sec 3) F.SEC3_LC_FUSES (2 ^ n - 1)).setF (Pg.sec 3) F.SEC3_KEY_PRESENT 1
/-- The public key of the first test vector of RFC 8032 (7.4), as a number. -/
def vendorKey : Nat :=
  0x806125e8afbe1afad16c0fe5f13d78d61b06c7469b7624f1ed7867e9805da70e8a1f0ea7852434a11d6ad46a61ec87e72cfd61b4599b44d75f
/-- State 2 with a return token for this device's identity and challenge, signed with that key, whose digest vendor key 0 holds. -/
def tokened : State :=
  let s := (fused 2).setRegs (Pg.sec 0 * 4096 + F.SEC0_CHALLENGE.off) [1, 2, 3, 4]
  let s := s.setRegs (Pg.sec 3 * 4096 + F.SEC3_DIGEST.off) (wordsOf (toBytes 32
    0x11c30055b64084fc23c6440442d53d87a8b0078d99f1afa90280c69372d2492a))
  s.setRegs (Pg.sec 0 * 4096 + F.SEC0_TOKEN.off) (wordsOf (toBytes 8 0x434f5f453cb270d5 ++ toBytes 16 (1 + 2 * 2 ^ 32 + 3 * 2 ^ 64 + 4 * 2 ^ 96) ++
    toBytes 8 3 ++ toBytes 64 vendorKey ++ toBytes 128
    0x135bc8d7a0bad345ef59aa1c5f0e8f425d60a61100a1b568b0ada910366757afc0d2ae317764ffd200a71d475ecca3527e770233f8bbd857006dce171bbd4e9d1bb0302b1eb1661db9e3a01f373d9bdf0f6db997c7f89fde5c6ab26ce8223ccaead5a0afd2583aa8cea0a23ec888ef0118))

theorem test_ed448_order : (EdPoint.base.times edOrder).same .zero = true := by decide +kernel

/-- RFC 8032 (7.4), first test vector: the public key of the private key. -/
theorem test_ed448_public : ofBytes (ed448Public (toBytes 57
    0x5bf99800a249752e038f2f49945bfca3394e042fcc3f8a8c52a348e3f60e96c9639f8cfadd349f926cbf3e51c889be32d6108d80cb62a5826c)) =
    vendorKey := by decide +kernel

theorem wit_SecurityPages : State.reset.writesOpen .pf0 (Pg.sec 0) ∧ State.reset.secRuns = true ∧
    State.reset.f (Pg.sec 0) F.SEC0_BUSY = 0 ∧
    State.reset.f fwPage F.SEC1_BUSY_028 = 0 ∧ (∀ n ∈ [0, 1, 2, 3, 4], (fused n).lcState = n ∧ (fused n).writesOpen .pf0 (Pg.sec 0)) ∧
    (fused 0).f (Pg.sec 3) F.SEC3_KEY_PRESENT ≠ 0 ∧ (fused 0).rngHalted = false ∧ (fused 1).rngHalted = false ∧
    (fused 1).tokenGood = false ∧
    State.reset.writes .pf0 (Pg.sec 2) ∧ State.reset.writes .pf0 fwPage ∧ State.reset.fwIdle ∧
    State.reset.f fwPage F.SEC1_BUSY_0A4 = 0 ∧
    State.reset.writesOpen .pf0 (Pg.sec 3) ∧ State.reset.f (Pg.sec 3) F.SEC3_BUSY = 0 ∧
    bit (State.reset.f (Pg.sec 3) F.SEC3_KEY_PRESENT) (3 : BitVec 2).toNat = false := by decide
theorem wit_SecurityPages_token : tokened.writesOpen .pf0 (Pg.sec 0) ∧ tokened.lcState = 2 ∧ tokened.tokenGood = true ∧
    (tokened.setF (Pg.sec 0) F.SEC0_CHALLENGE 2).tokenGood = false := by decide +kernel

theorem wit_ResetValues : (classOf (Pg.core 255)).isSome = true ∧ 8191 < 8192 ∧
    keptReg .warm (Pg.core 0 * 4096 + oMask) = false := by decide

/-! ### Witnesses: clauses that the ones above do not meet -/

/-- A plan without SWITCH; a NOP whose slot has a share, and has none. -/
theorem wit_FormesGoOn_plans :
    (let x := { copyForme with st := .claimHeld }
     let s := (copying x).setSw 0 { st := 2 }
     (s.sw x.part).st ≠ 0 ∧ (s.sw x.part).on = false) ∧
    (∀ op ∈ [0x00, 0x0B], let x : Forme := { copyForme with st := .planning, bytes := op :: copyForme.bytes.tail }
     (copying x).ctrlHalted x.planner = false ∧ (copying x).plansNext 0 x = true ∧ (copying x).minShare x ≠ 0) ∧
    (let x : Forme := { st := .planning, slot := 3 }
     let s := (copying x).modCore 0 fun y => { y with shares := some 0x0444 }
     AMap.get? 0 s.formes = some x ∧ s.plansNext 0 x = true ∧ s.ctrlHalted x.planner = false ∧ s.minShare x = 0) ∧
    (let s := (cached []).2
     s.ctrlHalted (cached []).1.planner = false) := by decide

/-- The forme 0 that some of the witnesses below hold is first of slot 1's queue on core 0, which has no share there; no operand of
core 0 is at a peer. -/
theorem wit_TilesRun_peers : (running 1 []).remoteHere 0 0 (tile .claimed 0) = true ∧
    (product []).remoteHere 0 0 (tile .executing 1) = true ∧
    (let s := (running 1 []).modCore 0 fun x => { x with shares := some 0 }
     let x := s.forme 0
     (AMap.getD x.slot [] (s.core 0).queue).head? = some 0 ∧ x.ending = false ∧ s.declines x 0 = true ∧ s.tiles = [] ∧
     x.st = .running ∧ x.cores.contains 0 = true ∧ x.posts.contains 0 = false) := by decide

/-- Updates of one line: the first, one behind another, one behind a tile that is not done, and one whose page holds its writes. -/
theorem wit_EpiloguesReportsAndUpdates_ordered :
    let u (j : Nat) : RedUpdate := { forme := 0, part := 0, j := j, addr := 0x240, fmt := 8, vals := [], ordered := true }
    let s := { running 1 [] with reducers := [u 0, u 64] }
    (s.forme 0).tilesTotal = 1 ∧ (∀ v ∈ s.reducers, (u 0).j ≤ v.j) ∧ (∀ n < 1, n < (u 0).j / 64 → 8 * n ∈ (s.forme 0).doneTiles) ∧
    (∃ v ∈ s.reducers, v.addr = (u 64).addr ∧ v.j < (u 64).j) ∧ 0 < (u 64).j / 64 ∧ 8 * 0 ∉ (s.forme 0).doneTiles ∧
    (s.forme 0).ending = false ∧ s.writeHeld 0 0 = false := by decide

/-- A block of an entry that is full, and one that no write of an earlier block keeps back. -/
theorem wit_GradientBlocks_overrun : ((updating (some (armed 64)) [] []).camb 0).upd = some (armed 64) ∧
    (∀ e ∈ (armed 64).entries, e.elems ≤ e.received) ∧
    (updating (some (armed 64)) [] [(0, block 0 false)]).blockHeld 0 (block 0 false) = false ∧
    ((updating (some (armed 64)) [] [(0, block 0 false)]).camb 0).spills = [] ∧
    ((updating (some (armed 0)) [] []).camb 0).upd = some (armed 0) ∧ (armed 0).committing = false := by decide

/-- A block of 32 bytes in the pool and its place in the swap area, both in the stack. -/
theorem wit_Swaps_copyOne :
    let s := (cached []).2
    s.poolFault (kvAcc 0) (s.kvBlock 0 0) (s.kvS 0) false = none ∧ s.poolFault (kvAcc 0) (s.kvBlock 0 0) (s.kvS 0) true = none ∧
    s.firstFault (kvAcc 0) [(0x400 + 0 * s.kvS 0, s.kvS 0)] false = none ∧ s.hostStops.contains 0 = false := by decide +kernel

theorem wit_RefillsAndRingDelays_rings :
    let s := serving 0x18 0 0 { rings := [(255, (1, 0)), (254, (0, 0))] }
    AMap.get? (254 : BitVec 8).toNat (s.kv 0).rings = some (0, 0) ∧
    s.power.time < 0 + 1000 * max 1 (s.f (Pg.kv 0) F.KV_DELAY_US) ∧
    0 + 1000 * max 1 (s.f (Pg.kv 0) F.KV_DELAY_US) ≤ (s.modPower fun x => { x with time := 1000000 }).power.time := by decide +kernel

theorem wit_SwitchesAndPlans_waits : (switching 2 (some plan0)).planDone 0 = false ∧ (switching 1 none).drained 0 = true ∧
    (((switching 1 none).modeBoundary 0 ((switching 1 none).sw 0).target).sw 0).plan.isSome = false := by decide +kernel

/-- A live job of pictures that are stale after 1 µs; its list at 0x100. -/
def liveJob (t : List IntkStream) : IntkJob :=
  { job t with desc := [0x10] ++ (job t).desc.tail, limits := (job t).limits.take 0x1C ++ toBytes 4 1 }
/-- A live video sample with its picture as an output frame, a reference or none. -/
def video (ref : Bool) : IntkStream :=
  { sample (some {}) with
    entry := toBytes 8 0x200 ++ toBytes 4 32 ++ toBytes 4 0 ++ List.replicate 16 0
    frames := [{ num := 0, ref := ref, out := true, planes := [[0]], width := 1, height := 1 }] }
/-- An entry of a live list that brings no data and ends the stream, and one that brings none and does not. -/
def empty (ends : Bool) : IntkStream :=
  { sample none with entry := toBytes 12 0x200 ++ toBytes 4 (if ends then 0x111 else 0x11) ++ List.replicate 16 0 }

/-- Busy, disabled and idle engines; engine 1 finds a live video picture to decode, stale or not, engine 34 a picture to post-process. -/
theorem wit_IntakeJobsAndStreams_engines :
    (AMap.get? 25 (taking (job []) [(25, (0, 0, 0))]).engines).isSome = true ∧
    ((on .train).setF (Pg.intk 25) F.INTKE_DISABLE 1).f (Pg.intk 25) F.INTKE_DISABLE = 1 ∧ (on .train).grantChoice (engineKind 25) = none ∧
    (let t := { video false with frames := [], reserved := 20 }
     let s := taking (liveJob [t]) []
     s.grantChoice (engineKind 1) = some (0, 0, 0) ∧ s.streams 0 0 0 (liveJob [t]) t ∧ s.dropsAtStart (liveJob [t]) t false = false ∧
     s.firstFault (intkAcc 0 1) [(t.data, t.len)] false = none ∧
     (s.modPower fun x => { x with time := 1001 }).dropsAtStart (liveJob [t]) t false = true ∧
     (s.modPart 0 fun x => { x with pmap := [] }).firstFault (intkAcc 0 1) [(t.data, t.len)] false = some (.translation, 0x200)) ∧
    (∀ ref ∈ [true, false], let t := video ref
     let s := taking (liveJob [t]) []
     5 ≤ engineKind 34 ∧ s.grantChoice (engineKind 34) = some (0, 0, 0) ∧ s.streams 0 0 0 (liveJob [t]) t ∧
     (s.modPower fun x => { x with time := 1001 }).dropsAtEnd (liveJob [t]) t = ref) := by decide

theorem wit_IntakeJobsAndStreams_empty : (∀ e ∈ [true, false], let x := liveJob [empty e]
      (taking x []).job? 0 0 = some x ∧ x.unstarted = some (empty e) ∧ (empty e).len = 0 ∧ (x.live && (empty e).ends) = e) ∧
    (let x := job [sample none]
     let s := (taking x []).modPart 0 fun y => { y with pmap := [] }
     x.unstarted = some (sample none) ∧ (sample none).len ≠ 0 ∧
     s.firstFault (intkAcc 0 0) [((sample none).data, (sample none).len)] false = some (.translation, 0x200)) := by decide

/-- A unit that brings a header of its own, within the limits or not, or none; a part that exceeds the budget. -/
theorem wit_IntakeUnitsAndBatches_units :
    (let t := sample (some {})
     let x := job [t]
     let s := (taking x [(25, (0, 0, 0))]).setF (Pg.intk 0) F.INTK0_FRAMES 1
     let v := (s.freeEngine 25 1).incF (Pg.intk 25) F.INTKE_DAMAGED 0
     v.headerRejects 0 x t {} = none ∧ v.headerRejects 0 x t { width := 9 } = some 0x50 ∧
     x.overBudget t (t.partVclk + 100) (({} : StreamHeader).width * ({} : StreamHeader).height) = false ∧
     x.overBudget t (t.partVclk + 101) (({} : StreamHeader).width * ({} : StreamHeader).height) = true) ∧
    (let t := { sample (some {}) with hit := some (0, 1) }
     let x := { job [t] with desc := [0x80] ++ (job []).desc.tail }
     let k : CacheEntry := { id := t.id, digest := x.digest t.codec, off := 0, len := 1, seq := 0 }
     let s := ((taking x [(34, (0, 0, 0))]).setF (Pg.intk 0) F.INTK0_CACHE_FRAMES 1).modIntk 0 fun y => { y with dir := [k] }
     s.hitStands 0 x t (0, 1) = true ∧ (taking x [(34, (0, 0, 0))]).hitStands 0 x t (0, 1) = false ∧ x.streams = [t]) := by decide

/-- The next sample of a live stream that a sample before it left to it: of its codec, and of no data. -/
theorem wit_IntakeUnitsAndBatches_samples :
    (∀ t ∈ [video true, empty true], let x := { liveJob [] with carry := some (video true) }
     let s := ((taking x []).poke 0x100 t.entry).setValue 0 1
     s.job? 0 0 = some x ∧ x.closed = false ∧ s.active 0 = true ∧ x.noMore = false ∧ x.mayBegin = true ∧ s.slotFree 0 x = true ∧
     0 < sx 32 ((s.value (s.devCtr 0 x.listCtr) + 2 ^ 32 - x.taken % 2 ^ 32) % 2 ^ 32) ∧
     (s.rd? (intkAcc 0 0) ((x.listAt + 32 * (x.taken % 2 ^ x.listLog2)) % 2 ^ 64) 32).toOption = some t.entry) ∧
    (let x := liveJob []
     let s := taking x []
     ¬ 0 < sx 32 ((s.value (s.devCtr 0 x.listCtr) + 2 ^ 32 - x.taken % 2 ^ 32) % 2 ^ 32)) ∧
    (let x := { job [] with taken := 2 }
     let s := (taking x []).modPart 0 fun y => { y with overlay := .service }
     (s.part 0).overlay = .service ∧ x.streams = [] ∧ x.padding ≠ 0) ∧
    (job []).closed = false ∧ ({ job [] with closed := true } : IntkJob).closed = true ∧
    (taking (job []) []).batchReady 0 (job []) = false := by decide

/-- A batch whose record is written and accepted, one whose record is still to be written, and one whose record is held. -/
theorem wit_IntakeUnitsAndBatches_batches :
    (let x := { job [] with pos := 1, recorded := true }
     (taking x []).batchReady 0 x = true) ∧
    (let x := { job [] with pos := 1 }
     let r := (taking x []).recordBatch 0 0 x false
     r.2 = none ∧ r.1.intakeWrites 0 = false ∧
     (let s := (taking x []).modPart 0 fun y => { y with pmap := [(0, 9 + 16)] }
      s.batchReady 0 x = true ∧ (s.recordBatch 0 0 x false).2 = none ∧ (s.recordBatch 0 0 x false).1.intakeWrites 0 = true)) := by decide

/-- A signal at a port that is enabled; each condition of a retraining, and none. -/
theorem wit_LinkStates_conditions :
    ((linked 0 0 {}).setF (portPage 0) F.CNPYP_EN 1).f (portPage 0) F.CNPYP_EN = 1 ∧
    (((linked 0 0 {}).setF (portPage 0) F.CNPYP_EN 1).link 0).st = 0 ∧ ((linked 0 0 {}).setF (portPage 0) F.CNPYP_EN 0).f (portPage 0) F.CNPYP_EN ≠ 1 ∧
    8 ≤ ((linked 5 0 { nakCount := 8 }).link 0).nakCount ∧ 8 ≤ ((linked 5 0 { nakedCount := 8 }).link 0).nakedCount ∧
    ((linked 5 100000 { full := some 0 }).link 0).full = some 0 ∧ 0 + 100000 ≤ (linked 5 100000 {}).power.time ∧
    1000 < (linked 5 0 { badWords := [(0, 1001)] }).wordsBad 0 ∧
    ((linked 5 0 {}).link 0).nakCount < 8 ∧ ((linked 5 0 {}).link 0).nakedCount < 8 ∧ ((linked 5 0 {}).link 0).full = none ∧
    (linked 5 0 {}).wordsBad 0 ≤ 1000 := by decide

/-- A flit of NULL packets with its CRC is whole; the same with another byte is not. -/
theorem wit_FlitsAndCredits_flits : flitWhole (flitBytes (List.replicate 1024 0)) = true ∧
    flitWhole (1 :: (flitBytes (List.replicate 1024 0)).tail) = false ∧ ((linked 6 0 {}).link 0).st = 6 ∧
    ({ hello 4 with valid := true } : Hello).valid = true := by decide +kernel

/-- A packet of level 15, a device without an address, and a context whose peers' pages cannot be read or hold their writes back. -/
theorem wit_PacketsArrive_more : ({ fromPeer 1 9 with level := 15 } : Packet).level = 15 ∧
    ((linked 5 0 {}).link 0).st = 5 ∧ (linked 5 0 {}).ownAddr = none ∧
    (match (joined.modPart 0 fun x => { x with pmap := [] }).load 0 none (pktOff (fromPeer 1 5)) 32 with
      | .error e => e == (.translation, pktOff (fromPeer 1 5))
      | .ok _ => false) = true ∧
    (joined.modPart 0 fun x => { x with pmap := [] }).accepts (fromPeer 1 5) = some (1, 0) := by decide

/-- A group of this device and one of context 1, which is DOWN or is not, with a collective of it and a scalar one. -/
def grouped (word : Nat) : State :=
  let y (b : Bool) : Coll := { group := 0, seq := 0, part := 0, limit := 10, scalar := b }
  let s := ((joined.setGrp 0 (1 + 2 ^ 64)).setCtx 1 (1 + word))
  { s with canopy := { s.canopy with members := [(1, 1)], colls := [y false, y true] } }

theorem wit_RoutingAndTime_groups : (∀ y ∈ [(0, false), (16, true)], let s := grouped y.1
      s.canopy.colls.map (fun c => (c.scalar, s.collLost c)) = [(false, y.2), (true, y.2)]) ∧
    (grouped 0).power.time < 0 + 10 := by decide

/-- The device of address 5 beside a master of address 9 that its neighbour of link 0 reaches, and beside one of address 9 that does not
set MASTER; an answer to its exchange. -/
theorem wit_RoutingAndTime_master :
    (let s := (joined.setLink 0 { st := 5, advMember := [(9, 2)] })
     s.ownAddr = some 5 ∧ s.timeMaster [(9, true)] = some 9 ∧ s.timeMaster [(9, false)] = some 5 ∧
     (s.setF (Pg.cnpy 9) F.CNPY9_IS_MASTER 0).timeParent 9 = some (0, 2)) ∧
    (let s : State := { joined with canopy := { joined.canopy with exchange := some (0, 7) } }
     s.canopy.exchange = some (((0 : Fin 36) : Nat), fieldAt (timePacket 1 7 8 9).data 0 8) ∧ (timePacket 1 7 8 9).w4 ≠ 0 ∧
     (timePacket 0 7 0 0).w4 = 0) := by decide

/-- A START of a core and of a counter, and a WAIT and an ADD of a counter, that the partition does not have; a queue that is not enabled;
a function without a partition. -/
theorem wit_SubmissionQueues_bounds :
    (∀ b ∈ [entry (2 + 255 * 256) 0 0, entry (2 + 128) 8191 0, entry 3 8191 0, entry 4 8191 0],
      let s := (handing b).setF (Pg.part 0) F.MEMP_LOG2_K 1
      s.sqFront 1 15 = some ((hosted {}).entryRef 1 15 0 b, b) ∧ (s.pickSq 1).map (fun y => y.1) = some 15 ∧ s.nextFn = some 1 ∧
      entryOk b = true ∧ entryPart 1 b = 0 ∧ s.active 0 = true) ∧
    (let s := (on .train).setF (Pg.part 0) F.MEMP_LOG2_K 1
     s.coresPer ≤ fieldAt (entry (2 + 255 * 256) 0 0) 0 4 / 2 ^ 8 % 2 ^ 8 ∧ fieldAt (entry (2 + 128) 8191 0) 0 4 / 2 ^ 8 % 2 ^ 8 < s.coresPer ∧
     bit (fieldAt (entry (2 + 128) 8191 0) 0 4) 7 = true ∧ s.ctrsPer ≤ fieldAt (entry (2 + 128) 8191 0) 4 4 % 8192) ∧
    ((hosted {}).setF (Pg.host 1 1) (F.HOST1_EN.sh 240) 0).sqF 1 15 F.HOST1_EN = 0 ∧ State.reset.fnPresent 1 = false := by decide

/-- A vector beyond the table, a vector 0 that is not spaced, and a queue whose interrupts are not enabled. -/
theorem wit_HostFunctions_vectors : vectors 1 ≤ (255 : BitVec 8).toNat ∧ (hosted {}).spacedSince 1 = none ∧
    ((hosted {}).setF (Pg.host 1 2) (F.HOST2_IRQ_EN.sh 240) 0).cqF 1 15 F.HOST2_IRQ_EN = 0 ∧
    ((mapped (hosted {})).store 0 none 0x100000 [1] (.unit 0x341)).2 = none ∧ State.reset.fnPresent 1 = false := by decide

/-- A replay in SERVICE with no update armed, in TRAIN, and beside an armed update; a page whose frame has no error; a fill whose source is
lost. -/
theorem wit_SnapshotsReplaysFills_conditions :
    (let s := replaying 0 0 replay1
     (s.part 0).overlay = .service ∧ (s.camb 0).upd = none ∧ AMap.get? 0 s.replays = some replay1 ∧
     (s.readBlock { part := 0, core := none, who := .unit (0x300 + s.lead 0) } 0x120 32 1).isOk = true ∧ 0x120 = 0x100 + 32 + 32 * 0 ∧
     ((s.modPart 0 fun x => { x with overlay := .train }).part 0).overlay ≠ .service ∧
     ((s.modCamb 0 fun c => { c with upd := some (armed 0) }).camb 0).upd ≠ none) ∧
    (on .train).frameDamage 0 ((on .train).coppUnit 0) 0 0 = none ∧
    ({ replay1 with next := 1 } : Replay).count ≤ ({ replay1 with next := 1 } : Replay).next ∧
    ({ fill0 with lost := some 1 } : Fill).lost ≠ none := by decide

/-- The processors do not run; no impression is armed; snapshot intervals with AUTO and without; a message of vector 0 that may go out. -/
theorem wit_AuditAndFaultHistory_more : (State.reset.modPower fun x => { x with ready := false, booted := false }).mgmtRuns = false ∧
    State.reset.f Pg.dir F.DIR_ARMED = 0 ∧ 0 < State.reset.k ∧ ((on .train).setF (Pg.part 0) F.MEMP_AUTO 1).f (Pg.part 0) F.MEMP_AUTO = 1 ∧
    (on .train).f (Pg.part 0) F.MEMP_AUTO ≠ 1 ∧
    (let s := (hosted {}).modFn 1 fun x => { x with unmasked := [0] }
     s.fnReady 1 = true ∧ (s.fn 1).fnMask = false ∧ 0 ∈ (s.fn 1).unmasked) := by decide

/-- A debug access that the level grants, and one that it does not. -/
theorem wit_SecurityEvents_debug : debugNeeds (.halt 0) ≤ (State.reset.setF (Pg.sec 0) F.SEC0_LIMIT 2).debugLevel ∧
    ¬ debugNeeds (.halt 13) ≤ (State.reset.setF (Pg.sec 0) F.SEC0_LIMIT 2).debugLevel := by decide

/-- A reset of a function while a whole-device reset that answers the configuration space runs. -/
theorem wit_PowerAndResets_requests_in_starts : (State.reset.modPower fun x => { x with reset := some .warm }).configures = true ∧
    (State.reset.modPower fun x => { x with reset := some .warm }).power.reset ≠ none := by decide

/-- Accesses in a start, over the bus and over I3C; a pair at an address that is not aligned. -/
theorem wit_RegisterAccesses_starts :
    (let s := i3c.modPower fun x => { x with reset := some .cold, ready := false }
     ¬ (s.power.reset = none ∨ (Requester.pf0 = .i3c ∧ Pg.pwr = Pg.pwr)) ∧ s.writesOpen .i3c Pg.pwr ∧ s.reaches .i3c = true) ∧
    (2 : BitVec 26).toNat % 4 ≠ 0 ∧ (State.reset.sees .pf0 (Pg.core 0)) = true := by decide

/-- A flag that hardware sets in the PCLK cycle of the write. -/
theorem wit_HeadersAndDirectory_now :
    (let s : State := { State.reset with lastSet := [(Pg.core 0 * 4096 + oEvent, (State.reset.pclk, 1))] }
     bit (s.setNow (Pg.core 0 * 4096 + oEvent)) 0 = true ∧ s.writes .pf0 (Pg.core 0)) ∧
    bit (State.reset.setNow (Pg.core 0 * 4096 + oEvent)) 0 = false := by decide

theorem wit_PartitionPages_entry : (on .train).entryDamage 0 none 0 = none ∧ State.reset.power.phase ≠ .workOff ∧
    bit ((fused 0).f (Pg.sec 3) F.SEC3_KEY_PRESENT) (0 : BitVec 2).toNat = true := by decide

end Sys2Proof.Tests
end

