-- ==== Sys2Proof/Proofs/FormeSteps.lean ====
section
/-! SUPPORT. The steps of a forme's way to RUNNING, each on conditions on the state alone (R108, R146, R148, R301). -/

namespace Sys2Proof.Machine

variable {s : State} {i : Nat} {x : Forme}

/-! ### The wait, the turn, the claim counters -/

/-- A waiting forme whose counter has met its target is held for its claim counters. -/
theorem State.waitIsMet_of_met (hx : AMap.get? i s.formes = some x) (hst : x.st = .waiting) (hmet : x.waitMet = true) :
    s.waitIsMet i = s.setForme i { x with st := .claimHeld } := by
  simp [State.waitIsMet, hx, hst, hmet]

/-- No earlier forme of the planner and slot is held back. -/
theorem firstHeld_of_forall
    (h : ∀ f ∈ s.formes, f.1 < i → f.2.planner = x.planner → f.2.slot = x.slot → f.2.st ≠ .waiting ∧ f.2.st ≠ .claimHeld) :
    (s.formes.all fun f => i ≤ f.1 || f.2.planner != x.planner || f.2.slot != x.slot ||
      !(f.2.st == .waiting || f.2.st == .claimHeld)) = true := by
  rw [List.all_eq_true]
  intro f hf
  by_cases hi : f.1 < i <;> by_cases hp : f.2.planner = x.planner <;> by_cases hs : f.2.slot = x.slot
  · obtain ⟨hw, hc⟩ := h f hf hi hp hs
    simp [hw, hc]
  all_goals simp_all

/-- A forme whose turn it is, with its counters free, goes to its planning, and its counters are busy. -/
theorem State.countersFree_of_free (hx : AMap.get? i s.formes = some x) (hst : x.st = .claimHeld)
    (hfirst : ∀ f ∈ s.formes, f.1 < i → f.2.planner = x.planner → f.2.slot = x.slot → f.2.st ≠ .waiting ∧ f.2.st ≠ .claimHeld)
    (hsw : (s.sw x.part).st = 0 ∨ (s.sw x.part).on = false) (hfree : ∀ k ∈ s.claimCtrs x, s.ctrBusy k = false)
    (hidle : partIdle (s.part x.part).overlay x.opcode = false) :
    s.countersFree i = s.setForme i { x with
      st := .planning
      busy := s.claimCtrs x
      train := (s.part x.part).overlay == .train
      passes := (s.f (Pg.plan x.planner) F.PLAN_PASS1_MULT, s.f (Pg.plan x.planner) F.PLAN_PASS2_MULT)
      armedBefore := (s.camb x.part).upd.isSome } := by
  have hall : ((s.claimCtrs x).all fun c => !s.ctrBusy c) = true := by
    rw [List.all_eq_true]
    exact fun c hc => by simp [hfree c hc]
  have hon : ((s.sw x.part).st == 0 || !(s.sw x.part).on) = true := by
    rcases hsw with h | h <;> simp [h]
  unfold State.countersFree
  simp only [hx]
  rw [if_pos]
  simp only [firstHeld_of_forall hfirst, hall, hon, hidle, hst, beq_self_eq_true, Bool.and_true, Bool.not_false]

/-! ### Planning -/

/-- A NOP ends with OK and its claim counters at 0, or with NO_GALLEY. -/
theorem State.formePlanned_nop (hx : AMap.get? i s.formes = some x) (hn : s.plansNext i x = true)
    (hh : s.ctrlHalted x.planner = false) (hop : x.opcode = 0x00) :
    s.formePlanned i = if s.minShare x = 0 then s.planFails i { status := 0x01 }
      else (((s.setClaims x []).countPlan x { plans := [], reused := (s.heldPlan x).isSome }).showPlan x 0 {}).finishForme i 0 := by
  simp [State.formePlanned, hx, hn, hh, hop]

/-- A forme with tiles is planned, unless its rows have to wait for the table engine, or wait already. -/
theorem State.formePlanned_tiled (hx : AMap.get? i s.formes = some x) (hn : s.plansNext i x = true)
    (hh : s.ctrlHalted x.planner = false) (hop : opTiled x.opcode = true) (hq : .rows i ∉ (s.kv x.part).queue) :
    s.formePlanned i =
      if s.rowsWait x then s.modKv x.part fun k => { k with queue := k.queue ++ [.rows i] } else s.planEnds i := by
  unfold State.formePlanned
  simp only [hx, hn, hh, Bool.not_true, Bool.or_self, Bool.false_eq_true, if_false]
  split
  case h_5 => simp [hop, hq]
  all_goals simp_all [opTiled]

theorem State.forme_of_get? (hx : AMap.get? i s.formes = some x) : s.forme i = x := by
  simp [State.forme, AMap.getD, hx]

theorem State.planEnds_of_ok {pl : Planned} (hx : AMap.get? i s.formes = some x) (hp : s.plansOf x = .ok pl) :
    s.planEnds i = (s.runTiles i pl).cacheRows i := by
  simp only [State.planEnds, State.forme_of_get? hx, hp]

theorem State.planEnds_of_error {e : PlanErr} (hx : AMap.get? i s.formes = some x) (hp : s.plansOf x = .error e) :
    s.planEnds i = s.planFails i e := by
  simp only [State.planEnds, State.forme_of_get? hx, hp]

/-- Only the rows of a cache-mode ATTENTION wait, behind what the table engine holds. -/
theorem State.rowsWait_of_ok {pl : Planned} (hp : s.plansOf x = .ok pl) :
    s.rowsWait x = (x.cached && !(s.kv x.part).queue.isEmpty) := by
  simp [State.rowsWait, hp, Except.isOk, Except.toBool]

theorem State.rowsWait_of_error {e : PlanErr} (hp : s.plansOf x = .error e) : s.rowsWait x = false := by
  simp [State.rowsWait, hp, Except.isOk, Except.toBool]

/-! ### The post -/

/-- A slot that passes its boundary leaves every forme as it is. -/
@[simp] theorem State.slotPasses_forme (s : State) (c slot j : Nat) : (s.slotPasses c slot).forme j = s.forme j := by
  unfold State.slotPasses
  split
  · rfl
  · dsimp only
    split_ifs <;> rfl

/-- A post in its turn joins the core's queue, and the core is taken from those that the forme still has to be posted to. -/
theorem State.postArrives_joins {c : Nat}
    (hpost : (s.forme i).posts.contains c = true)
    (hfirst : ∀ f ∈ s.formes, f.1 < i → f.2.planner = (s.forme i).planner → f.2.posts.contains c = false)
    (hroom : (AMap.getD (s.forme i).slot [] (s.core c).queue).length < 32) :
    AMap.getD (s.forme i).slot [] ((s.postArrives i c).core c).queue = AMap.getD (s.forme i).slot [] (s.core c).queue ++ [i] ∧
      ((s.postArrives i c).forme i).posts = (s.forme i).posts.filter fun k => k != c := by
  have hall : (s.formes.all fun f => i ≤ f.1 || f.2.planner != (s.forme i).planner || !f.2.posts.contains c) = true := by
    rw [List.all_eq_true]
    intro f hf
    by_cases hi : f.1 < i <;> by_cases hp : f.2.planner = (s.forme i).planner
    · have := hfirst f hf hi hp
      simp_all
    all_goals simp_all
  unfold State.postArrives
  simp only [hpost, hall, Nat.not_le.2 hroom, Bool.not_true, Bool.false_or, decide_false, Bool.false_eq_true, if_false]
  generalize hv : (if (AMap.getD (s.forme i).slot [] (s.core c).queue).isEmpty then s.slotPasses c (s.forme i).slot else s) = v
  have hforme : v.forme i = s.forme i := by
    rw [← hv]
    split_ifs <;> simp
  refine ⟨?_, ?_⟩
  · simp [State.core, State.incF, State.modForme, State.modCore, State.setCore]
  · rw [← hforme]
    simp [State.forme, State.incF, State.modForme, State.setForme, State.modCore]

end Sys2Proof.Machine
end

