-- ==== Sys2Proof/Proofs/FormesGoOn.lean ====
section
/-! SUPPORT. A forme's way to RUNNING. -/

namespace Sys2Proof.Machine

/-- Settles O31: each command of a forme's way is the state operation of its step, which acts when its conditions are met. -/
theorem formesGoOn : Obligations.FormesGoOn := by
  intro s i x c hx
  refine ⟨fun hst hmet => ?_, fun hst hfirst hsw hfree hidle => ?_, fun hn hh => ⟨fun hop => ?_, fun hop hq => ⟨?_, ?_, ?_⟩⟩, ?_⟩
  · exact congrArg Host.Outcome.next (State.waitIsMet_of_met hx hst hmet)
  · exact congrArg Host.Outcome.next (State.countersFree_of_free hx hst hfirst hsw hfree hidle)
  · exact congrArg Host.Outcome.next (State.formePlanned_nop hx hn hh hop)
  · intro pl hp hnow
    have hw : s.rowsWait x = false := by
      rcases hnow with h | h <;> simp [State.rowsWait_of_ok hp, h]
    refine congrArg Host.Outcome.next ?_
    rw [State.formePlanned_tiled hx hn hh hop hq, hw, if_neg Bool.false_ne_true, State.planEnds_of_ok hx hp]
  · intro pl hp hcached hbusy
    have hw : s.rowsWait x = true := by
      simp [State.rowsWait_of_ok hp, hcached, hbusy]
    refine congrArg Host.Outcome.next ?_
    rw [State.formePlanned_tiled hx hn hh hop hq, hw, if_pos rfl]
  · intro e hp
    refine congrArg Host.Outcome.next ?_
    rw [State.formePlanned_tiled hx hn hh hop hq, State.rowsWait_of_error hp, if_neg Bool.false_ne_true,
      State.planEnds_of_error hx hp]
  · intro q hpost hfirst hroom
    have hxi := State.forme_of_get? hx
    subst hxi
    exact ⟨_, rfl, State.postArrives_joins hpost hfirst hroom⟩

end Sys2Proof.Machine
end

