-- ==== Sys2Proof/Proofs/ResetMemory.lean ====
section
/-! SUPPORT. Memory after reset. -/

namespace Sys2Proof.Machine

/-- Settles O6: the reset state lists no cell. -/
theorem resetMemoryCanonical : Obligations.ResetMemoryCanonical := ⟨State.wf_reset, rfl⟩

end Sys2Proof.Machine
end

