-- ==== Sys2Proof/Proofs/Canonical.lean ====
section
/-! SUPPORT. Memory in its canonical form, under the ways in which the model puts updates together. Every operation
gets one lemma of its name, so that the proof for an update that is a chain of operations is the chain of their lemmas. -/

namespace Sys2Proof.Machine

variable {s : State}

/-- `State.sound` as a definition that neither the unifier nor the kernel unfolds by itself, so that two states are compared
before their memories are. -/
def State.Canonical (s : State) : Prop := s.sound

theorem State.canonical_iff : s.Canonical ↔ s.sound := Iff.rfl

/-- An update that leaves memory alone keeps a state canonical. -/
theorem State.Canonical.of_mem {u : State} (h : s.Canonical) (e : u.mem = s.mem) : u.Canonical := by
  unfold State.Canonical State.sound
  rw [e]
  exact h

/-- What stands in the other fields does not count: an update that takes over the memory of a canonical state is canonical. -/
theorem State.Canonical.mk
    {t : State} {pending faulty bulkLost regs shadow lastSet lastClear out draws opens power parts integ vfEnable numVfs fns
      kvs cambs stream switches intks engines applyPassed threads cores heldWrites hostStops hostTurn formes nextForme tiles
      heldPlans refused reducers canopy snaps fills replays sec} (h : t.Canonical) :
    (State.mk pending t.mem faulty bulkLost regs shadow lastSet lastClear out draws opens power parts integ vfEnable numVfs fns
      kvs cambs stream switches intks engines applyPassed threads cores heldWrites hostStops hostTurn formes nextForme tiles
      heldPlans refused reducers canopy snaps fills replays sec).Canonical := h

theorem State.Canonical.ite {a b : State} {c : Prop} [Decidable c] (ha : a.Canonical) (hb : b.Canonical) :
    (if c then a else b).Canonical := by
  split <;> assumption

theorem State.Canonical.ite_fst {α : Type} {a b : State × α} {c : Prop} [Decidable c] (ha : a.1.Canonical) (hb : b.1.Canonical) :
    (if c then a else b).1.Canonical := by
  split <;> assumption

/-- A fold keeps the state canonical when its step does. -/
theorem State.Canonical.foldl {α : Type} {f : State → α → State} {l : List α} (h : s.Canonical)
    (hf : ∀ t x, t.Canonical → (f t x).Canonical) : (l.foldl f s).Canonical := by
  induction l generalizing s with
  | nil => exact h
  | cons x l ih => exact ih (hf s x h)

theorem State.Canonical.foldl_fst {α β : Type} {f : State × β → α → State × β} {l : List α} {r : State × β} (h : r.1.Canonical)
    (hf : ∀ t x, t.1.Canonical → (f t x).1.Canonical) : (l.foldl f r).1.Canonical := by
  induction l generalizing r with
  | nil => exact h
  | cons x l ih => exact ih (hf r x h)

/-- The state of an answer that is known as a pair. -/
theorem State.Canonical.of_fst {α : Type} {r : State × α} {t : State} {a : α} (h : r.1.Canonical) (e : r = (t, a)) :
    t.Canonical := by
  subst e
  exact h

/-- The state of a pair, carried over to a name for the pair. Where the pair is a fallible access, comparing the projections would
have the kernel evaluate the access. -/
theorem State.Canonical.fst_of_eq {α : Type} {q r : State × α} (h : r.1.Canonical) (e : q = r) : q.1.Canonical := e ▸ h

/-- A match `m` on a state that may be there, known by its two equations: with the alternatives as variables, the kernel never
evaluates what the alternatives hold. -/
theorem State.Canonical.matchOption {m : Option State → (State → State) → (Unit → State) → State} {o : Option State}
    {f : State → State} {g : Unit → State} (hsome : ∀ t f g, m (some t) f g = f t) (hnone : ∀ f g, m none f g = g ())
    (hf : ∀ t, o = some t → (f t).Canonical) (hg : (g ()).Canonical) : (m o f g).Canonical := by
  cases o with
  | some t => exact hsome t f g ▸ hf t rfl
  | none => exact hnone f g ▸ hg

/-- The same for a match on a write's answer: the state, and the status of a write that failed. -/
theorem State.Canonical.matchWritten {m : State × Option Nat → (State → Nat → State) → (State → State) → State}
    {r : State × Option Nat} {f : State → Nat → State} {g : State → State} (hsome : ∀ t n f g, m (t, some n) f g = f t n)
    (hnone : ∀ t f g, m (t, none) f g = g t) (hr : r.1.Canonical) (hf : ∀ t n, t.Canonical → (f t n).Canonical)
    (hg : ∀ t, t.Canonical → (g t).Canonical) : (m r f g).Canonical := by
  obtain ⟨t, _ | n⟩ := r
  · exact hnone t f g ▸ hg t hr
  · exact hsome t n f g ▸ hf t n hr

theorem State.Canonical.wrBind {r : Wr} {g : State → Wr} (h : r.1.Canonical) (hg : ∀ t, t.Canonical → (g t).1.Canonical) :
    (r.bind g).1.Canonical := by
  unfold Wr.bind
  split
  · exact hg _ h
  · exact h

/-- Every next state that an outcome answers is canonical. -/
def outCanonical (o : Out) : Prop := ∀ u, o = .next u → u.Canonical

theorem State.Canonical.next (h : s.Canonical) : outCanonical (.next s) := by
  rintro u ⟨⟩
  exact h

/-! ### Fallible operations of the table engine -/

/-- The state that an error with a mark carries is canonical. -/
def KvErr.Canonical : KvErr → Prop
  | .after _ t => t.Canonical
  | _ => True

/-- What a fallible operation of the table engine answers has `P`, and the error that it may end with is canonical. -/
def KvKept {α : Type} (P : α → Prop) : Except KvErr α → Prop
  | .ok a => P a
  | .error e => e.Canonical

theorem KvKept.of_ok {α : Type} {P : α → Prop} {r : Except KvErr α} {a : α} (h : KvKept P r) (e : r = .ok a) : P a := by
  subst e
  exact h

theorem KvKept.of_error {α : Type} {P : α → Prop} {r : Except KvErr α} {x : KvErr} (h : KvKept P r) (e : r = .error x) :
    x.Canonical := by
  subst e
  exact h

theorem KvKept.bind {α β : Type} {P : α → Prop} {Q : β → Prop} {r : Except KvErr α} {g : α → Except KvErr β} (h : KvKept P r)
    (hg : ∀ a, P a → KvKept Q (g a)) : KvKept Q (r >>= g) := by
  cases r with
  | error e => exact h
  | ok a => exact hg a h

theorem KvKept.foldlM {α β : Type} {P : α → Prop} {f : α → β → Except KvErr α} {l : List β} {a : α} (h : P a)
    (hf : ∀ t x, P t → KvKept P (f t x)) : KvKept P (l.foldlM f a) := by
  induction l generalizing a with
  | nil => exact h
  | cons x l ih => exact (hf a x h).bind fun _ => ih

end Sys2Proof.Machine
end

