-- ==== Sys2Proof/Proofs/CanonicalOps.lean ====
section
/-! SUPPORT. Memory stays canonical under the operations on registers, links, accesses, arenas and operands. -/

namespace Sys2Proof.Machine

variable {s : State}

/-! ### Machine/Ops.lean -/

theorem State.Canonical.setReg {a v : Nat} (h : s.Canonical) : (s.setReg a v).Canonical := h.of_mem rfl

theorem State.Canonical.setF {pg : Nat} {f : Fld} {v : Nat} (h : s.Canonical) : (s.setF pg f v).Canonical := h.setReg

theorem State.Canonical.incF {pg : Nat} {f : Fld} {n : Nat} (h : s.Canonical) : (s.incF pg f n).Canonical := h.setF

theorem State.Canonical.satF {pg : Nat} {f : Fld} {n : Nat} (h : s.Canonical) : (s.satF pg f n).Canonical := h.setF

theorem State.Canonical.incF2 {pg : Nat} {lo hi : Fld} {n : Nat} (h : s.Canonical) : (s.incF2 pg lo hi n).Canonical := h.setF.setF

theorem State.Canonical.latchWords {pg : Nat} (h : s.Canonical) : (s.latchWords pg).Canonical := by
  unfold State.latchWords
  extract_lets _ one _ s1
  have hs1 : s1.Canonical := by
    unfold s1
    refine h.foldl fun t x h => ?_
    unfold one
    split
    · exact h.setReg
    · exact h
  exact .mk hs1

theorem State.Canonical.latch {pg : Nat} (h : s.Canonical) : (s.latch pg).Canonical := by
  unfold State.latch
  extract_lets s1 s2
  have hs1 : s1.Canonical := h.latchWords
  have hs2 : s2.Canonical := .mk hs1
  exact hs2.setF.setF

theorem State.Canonical.emit {o : Output} (h : s.Canonical) : (s.emit o).Canonical := h.of_mem rfl

theorem State.Canonical.setPart {p : Nat} {x : Part} (h : s.Canonical) : (s.setPart p x).Canonical := h.of_mem rfl

theorem State.Canonical.modPart {p : Nat} {f : Part → Part} (h : s.Canonical) : (s.modPart p f).Canonical := h.setPart

theorem State.Canonical.setFn {f : Nat} {x : Fn} (h : s.Canonical) : (s.setFn f x).Canonical := h.of_mem rfl

theorem State.Canonical.modFn {f : Nat} {g : Fn → Fn} (h : s.Canonical) : (s.modFn f g).Canonical := h.setFn

theorem State.Canonical.clearUnsignalled {f vec : Nat} (h : s.Canonical) : (s.clearUnsignalled f vec).Canonical := by
  unfold State.clearUnsignalled
  extract_lets s1
  have hs1 : s1.Canonical := h.modFn
  exact .ite hs1 (.mk hs1)

theorem State.Canonical.setSpacing {f t : Nat} {owed : Bool} (h : s.Canonical) : (s.setSpacing f t owed).Canonical := h.of_mem rfl

theorem State.Canonical.sendMessage {f vec : Nat} (h : s.Canonical) : (s.sendMessage f vec).Canonical :=
  h.emit.incF.clearUnsignalled

theorem State.Canonical.message {f vec : Nat} (h : s.Canonical) : (s.message f vec).Canonical := by
  unfold State.message
  extract_lets
  split
  · exact h.modFn
  · split
    · exact h.modFn
    · split
      · split
        · exact h.setSpacing
        · exact h.sendMessage.setSpacing
      · exact h.sendMessage

theorem State.Canonical.signal {pg : Nat} (h : s.Canonical) : (s.signal pg).Canonical := by
  unfold State.signal
  extract_lets s1 s2
  have hs1 : s1.Canonical := h.message.ite h
  have hs2 : s2.Canonical := by
    unfold s2
    split
    · exact hs1.message.ite hs1
    · exact hs1
  exact hs2.emit.ite hs2

theorem State.Canonical.raise {a m : Nat} (h : s.Canonical) : (s.raise a m).Canonical := by
  unfold State.raise
  extract_lets v1
  have hv1 : v1.Canonical := h.setReg
  exact .mk hv1

theorem State.Canonical.raiseF {pg : Nat} {f : Fld} (h : s.Canonical) : (s.raiseF pg f).Canonical := h.raise

theorem State.Canonical.clearW1c {a m : Nat} (h : s.Canonical) : (s.clearW1c a m).Canonical := by
  unfold State.clearW1c
  extract_lets _ v1
  have hv1 : v1.Canonical := h.setReg
  exact .mk hv1

theorem State.Canonical.settings {pg b n : Nat} (h : s.Canonical) : (s.settings pg b n).Canonical :=
  h.raise.setReg.signal.ite h.raise.setReg

theorem State.Canonical.event {pg b : Nat} (h : s.Canonical) : (s.event pg b).Canonical := h.settings

theorem State.Canonical.interrupt {f vec : Nat} (h : s.Canonical) : (s.interrupt f vec).Canonical := h.message.ite h.satF.event

theorem State.Canonical.history {kind : Nat} {payload : List Nat} (h : s.Canonical) : (s.history kind payload).Canonical := by
  unfold State.history
  exact .ite h (.mk h)

theorem State.Canonical.refuse {who : Requester} {offset : Nat} (h : s.Canonical) : (s.refuse who offset).Canonical :=
  h.satF.ite h.satF.setF.setF.raiseF

theorem State.Canonical.poke {a : Nat} {b : List Byte} (h : s.Canonical) : (s.poke a b).Canonical := State.wf_poke h a b

theorem State.Canonical.wipe {a n : Nat} (h : s.Canonical) : (s.wipe a n).Canonical := State.wf_wipe h a n

theorem State.Canonical.damage {a symbols : Nat} (h : s.Canonical) : (s.damage a symbols).Canonical := h.of_mem rfl

theorem State.Canonical.setRegs {a : Nat} {l : List Nat} (h : s.Canonical) : (s.setRegs a l).Canonical := by
  induction l generalizing s a with
  | nil => exact h
  | cons v l ih => exact ih h.setReg

theorem State.Canonical.fileRecord {p : Nat} {r : ErrRec} {part : Nat} (h : s.Canonical) : (s.fileRecord p r part).Canonical :=
  (h.setRegs.incF.ite h.satF).event

theorem State.Canonical.errRecord {p : Nat} {r : ErrRec} (h : s.Canonical) : (s.errRecord p r).Canonical := h.fileRecord.history

theorem State.Canonical.errRecordAll {r : ErrRec} (h : s.Canonical) : (s.errRecordAll r).Canonical := by
  unfold State.errRecordAll
  extract_lets ps
  clear_value ps
  split
  · exact h.errRecord
  · exact (h.foldl fun _ _ h => h.fileRecord).history

/-! ### Machine/Net.lean -/

theorem State.Canonical.setLink {l : Nat} {x : Link} (h : s.Canonical) : (s.setLink l x).Canonical := h.of_mem rfl

theorem State.Canonical.modLink {l : Nat} {g : Link → Link} (h : s.Canonical) : (s.modLink l g).Canonical := h.setLink

theorem State.Canonical.setLinkSt {l st : Nat} (h : s.Canonical) : (s.setLinkSt l st).Canonical := h.modLink

theorem State.Canonical.putFlits {l : Nat} {fl : List Flit} (h : s.Canonical) : (s.putFlits l fl).Canonical := by
  unfold State.putFlits
  extract_lets _ _ s1 s2
  have hs1 : s1.Canonical := h.setLink
  have hs2 : s2.Canonical := hs1.incF2
  exact .mk hs2

theorem State.Canonical.transmit {l : Nat} {items : List (List Byte × Option Packet)} (h : s.Canonical) :
    (s.transmit l items).Canonical :=
  h.setLink.putFlits

theorem State.Canonical.sendWaiting {l : Nat} (h : s.Canonical) : (s.sendWaiting l).1.Canonical :=
  h.ite_fst (h.ite_fst h.setLink.transmit)

theorem State.Canonical.sendLink {l : Nat} {b : List Byte} (h : s.Canonical) : (s.sendLink l b).Canonical :=
  h.modLink.setLink.transmit.ite h.modLink

theorem State.Canonical.giveCredit {l : Nat} {p : Packet} {level : BitVec 4} {pool : Bool} (h : s.Canonical) :
    (s.giveCredit l p level pool).Canonical :=
  h.sendLink.ite h

theorem State.Canonical.leaves {w : Waiting} (h : s.Canonical) : (s.leaves w).Canonical := by
  unfold State.leaves
  split
  · exact h.giveCredit
  · exact h

theorem State.Canonical.drain {l : Nat} (h : s.Canonical) : (s.drain l).Canonical := h.sendWaiting.foldl fun _ _ h => h.leaves

theorem State.Canonical.sendFrom {l : Nat} {w : Waiting} (h : s.Canonical) : (s.sendFrom l w).Canonical := h.modLink.drain

theorem State.Canonical.sendOn {l : Nat} {p : Packet} (h : s.Canonical) : (s.sendOn l p).Canonical := h.sendFrom

theorem State.Canonical.originate {p : Packet} {u : State} (h : s.Canonical) (e : s.originate p = some u) : u.Canonical := by
  unfold State.originate at e
  split at e
  · cases e
  · dsimp only at e
    split at e
    · cases e
      exact h.of_mem rfl
    · split at e
      · cases e
        exact h.sendOn
      · cases e

theorem State.Canonical.setCtx {c e : Nat} (h : s.Canonical) : (s.setCtx c e).Canonical := h.of_mem rfl

theorem State.Canonical.fillLoses {p c : Nat} (h : s.Canonical) : (s.fillLoses p c).Canonical := by
  unfold State.fillLoses
  extract_lets
  split
  · exact h
  · exact .ite h (.ite (.ite (.mk h) h) h.satF)

theorem State.Canonical.ctxDown {c : Nat} (h : s.Canonical) : (s.ctxDown c).Canonical := h.ite h.setCtx.fillLoses.event.history

theorem State.Canonical.request {r : RemoteReq} (h : s.Canonical) : (s.request r).Canonical := by
  unfold State.request
  extract_lets _ _ _ _ v2 _ s1
  have hv2 : v2.Canonical := h.setCtx
  have hs1 : s1.Canonical := .mk hv2
  split
  · exact .mk h
  · split
    next e => exact hs1.originate e
    · exact hs1.ctxDown

theorem State.Canonical.remoteWrite {p c off : Nat} {b : List Byte} {who : RemoteWho} {plan cls : Nat} (h : s.Canonical) :
    (s.remoteWrite p c off b who plan cls).Canonical :=
  h.request

theorem State.Canonical.remoteRead {p c off n : Nat} {who : RemoteWho} (h : s.Canonical) :
    (s.remoteRead p c off n who).Canonical :=
  h.request

/-! ### Machine/Access.lean -/

theorem State.Canonical.damageRecord {p addr symbols : Nat} {l : Loc} (h : s.Canonical) :
    (s.damageRecord p addr symbols l).Canonical := by
  unfold State.damageRecord
  extract_lets
  split
  · exact h.errRecord
  · exact h.satF.event.errRecord
  · exact h

theorem State.Canonical.faultRecord {p unit addr : Nat} {f : AccFault} (h : s.Canonical) :
    (s.faultRecord p unit addr f).Canonical := by
  unfold State.faultRecord
  extract_lets
  split
  · exact .ite h (.errRecord (.mk h))
  · exact .ite h (.damageRecord (.mk h))
  · exact h.errRecord
  · exact h.errRecord

theorem State.Canonical.pokePhys {a : Nat} {b : List Byte} (h : s.Canonical) : (s.pokePhys a b).Canonical := by
  unfold State.pokePhys
  split
  · exact h.poke
  · refine h.foldl fun t x h => ?_
    extract_lets
    split
    · exact h.poke
    · exact h.poke

theorem State.Canonical.overwrite {l : Loc} {before n after : Nat} {u : State} (h : s.Canonical)
    (e : s.overwrite l before n after = .ok u) : u.Canonical := by
  unfold State.overwrite at e
  split at e
  · cases e
    exact h
  · dsimp only at e
    split at e
    · cases e
    · cases e
      exact h.of_mem rfl

theorem State.Canonical.dirty {p idx : Nat} (h : s.Canonical) : (s.dirty p idx).Canonical := h.modPart

/-! ### Machine/Arena.lean -/

theorem State.Canonical.setCamb {p : Nat} {x : Camb} (h : s.Canonical) : (s.setCamb p x).Canonical := h.of_mem rfl

theorem State.Canonical.modCamb {p : Nat} {g : Camb → Camb} (h : s.Canonical) : (s.modCamb p g).Canonical := h.setCamb

theorem State.Canonical.modArena {p a : Nat} {g : Arena → Arena} (h : s.Canonical) : (s.modArena p a g).Canonical := h.modCamb

theorem State.Canonical.showMapped {p : Nat} (h : s.Canonical) : (s.showMapped p).Canonical := h.setF

theorem State.Canonical.mapWritten {p first n : Nat} (h : s.Canonical) : (s.mapWritten p first n).Canonical := h.of_mem rfl

theorem State.Canonical.setEntry {p idx e : Nat} (h : s.Canonical) : (s.setEntry p idx e).Canonical := by
  unfold State.setEntry
  extract_lets _ v1 s1
  have hv1 : v1.Canonical := h.mapWritten
  have hs1 : s1.Canonical := .mk hv1
  exact hs1.modPart.showMapped

theorem State.Canonical.dropEntries {p first n : Nat} (h : s.Canonical) : (s.dropEntries p first n).Canonical := by
  unfold State.dropEntries
  extract_lets _ v1 s1
  have hv1 : v1.Canonical := h.mapWritten
  have hs1 : s1.Canonical := .mk hv1
  exact hs1.modPart.showMapped

theorem State.Canonical.placeStack {p : Nat} {a : Arena} {x frame layer : Nat} (h : s.Canonical) :
    (s.placeStack p a x frame layer).Canonical :=
  h.modArena.setEntry

theorem State.Canonical.layerBad {p : Nat} {f : Option (AccFault × Nat)} (h : s.Canonical) : (s.layerBad p f).Canonical := by
  unfold State.layerBad
  extract_lets s1
  have hs1 : s1.Canonical := h.modCamb
  split
  · exact hs1.faultRecord
  · exact hs1

theorem State.Canonical.pokeHost {p a idx : Nat} {b : List Byte} (h : s.Canonical) : (s.pokeHost p a idx b).Canonical := by
  unfold State.pokeHost
  split
  · exact h.poke
  · exact h.poke

theorem State.Canonical.perform {p : Nat} {l : Loc} {b : List Byte} {w : Writer} (h : s.Canonical) :
    (s.perform p l b w).Canonical := by
  unfold State.perform
  split
  · exact h.poke
  · exact h.pokePhys.dirty
  · exact h.pokeHost.dirty.ite h.satF.event
  · exact h.remoteWrite

theorem State.Canonical.put {p : Nat} {core : Option Nat} {l : Loc} {b : List Byte} {w : Writer} {before after : Nat}
    (h : s.Canonical) :
    (s.put p core l b w before after).1.Canonical := by
  unfold State.put
  extract_lets now
  have hnow : now.1.Canonical := by
    unfold now
    split
    · exact h
    next e => exact (h.overwrite e).perform
  split
  · exact .ite_fst (.mk h) hnow
  · exact hnow

theorem State.Canonical.modLayer {p l : Nat} {g : List Byte → List Byte} (h : s.Canonical) : (s.modLayer p l g).Canonical := by
  unfold State.modLayer
  split
  · exact h
  · split
    · exact h.incF
    · split
      · exact h
      · split
        · exact h.put
        · exact h.layerBad

theorem State.Canonical.touchArena {p : Nat} {a : Arena} {x : Nat} {w : Writer} (h : s.Canonical) :
    (s.touchArena p a x w).Canonical :=
  h.modArena

theorem State.Canonical.releaseFrom {p : Nat} {a : Arena} (h : s.Canonical) : (s.releaseFrom p a).1.Canonical := by
  unfold State.releaseFrom
  split
  · exact h
  · exact h.faultRecord

theorem State.Canonical.place {p : Nat} {a : Arena} {x : Nat} {w : Writer} (h : s.Canonical) :
    (s.place p a x w).1.Canonical := by
  unfold State.place
  extract_lets _ _ r
  have hr : r.1.Canonical := h.releaseFrom
  split
  · exact h.placeStack
  · split
    · exact hr.modArena.setEntry.placeStack
    · split
      · exact hr
      · split
        · exact hr.modArena.setEntry.incF.modLayer.placeStack
        · split
          · exact hr
          · extract_lets _ s1 _ s2
            have hs1 : s1.Canonical := hr.modArena
            have hs2 : s2.Canonical := .mk hs1
            clear_value s2
            exact hs2.modCamb

theorem State.Canonical.arenaWrite {p addr : Nat} {w : Writer} (h : s.Canonical) : (s.arenaWrite p addr w).Canonical := by
  unfold State.arenaWrite
  extract_lets
  split
  · exact h
  · split
    · exact h
    · extract_lets
      split
      · split
        next e => exact (h.place.of_fst e).touchArena
        next e => exact (h.place.of_fst e).incF.event
      · split
        next e => exact (h.place.of_fst e).touchArena
        next e => exact (h.place.of_fst e).incF.event
      · exact h.touchArena

theorem State.Canonical.releaseWrites {p idx : Nat} (h : s.Canonical) : (s.releaseWrites p idx).Canonical := by
  unfold State.releaseWrites
  extract_lets _ s1
  have hs1 : s1.Canonical := .mk h
  refine hs1.foldl fun t x h => ?_
  extract_lets _ s2
  have hs2 : s2.Canonical := h.arenaWrite
  split
  · exact hs2.faultRecord
  · split
    next e => exact (hs2.put.of_fst e).faultRecord
    next e => exact hs2.put.of_fst e

theorem State.Canonical.store {p : Nat} {core : Option Nat} {addr : Nat} {b : List Byte} {w : Writer} (h : s.Canonical) :
    (s.store p core addr b w).1.Canonical := by
  unfold State.store
  refine h.foldl_fst fun t x h => ?_
  split
  · exact h
  · extract_lets s1
    have hs1 : s1.Canonical := h.arenaWrite
    split
    · exact hs1
    · split
      next e => exact hs1.put.of_fst e
      next e => exact hs1.put.of_fst e

theorem State.Canonical.storeBits {p : Nat} {core : Option Nat} {addr : Nat} {b : List Byte} {m0 m1 : Nat} {w : Writer}
    (h : s.Canonical) :
    (s.storeBits p core addr b m0 m1 w).1.Canonical := by
  unfold State.storeBits
  extract_lets
  refine h.foldl_fst fun t x h => ?_
  split
  · exact h
  · extract_lets s1
    have hs1 : s1.Canonical := h.arenaWrite
    split
    · exact hs1
    · extract_lets
      split
      · exact hs1
      · split
        next e => exact hs1.put.of_fst e
        next e => exact hs1.put.of_fst e

theorem State.Canonical.storeRec {p unit : Nat} {core : Option Nat} {addr : Nat} {b : List Byte} {who : Writer}
    (h : s.Canonical) :
    (s.storeRec p unit core addr b who).1.Canonical := by
  unfold State.storeRec
  split
  next e => exact h.store.of_fst e
  next e => exact (h.store.of_fst e).faultRecord

theorem State.Canonical.readArenas {p : Nat} (h : s.Canonical) : (s.readArenas p).Canonical := by
  unfold State.readArenas
  extract_lets _ _ _ table s1
  have hs1 : s1.Canonical := by
    unfold s1
    split
    · exact h.faultRecord
    · exact h
  clear_value table
  split
  · exact hs1.modCamb.event
  · extract_lets _ _ s3 s4
    have hs3 : s3.Canonical := hs1.modCamb
    have hs4 : s4.Canonical := hs3.foldl fun _ _ h => h.dropEntries
    exact hs4.event.ite hs4

theorem State.Canonical.resetArenas {p : Nat} (h : s.Canonical) : (s.resetArenas p).Canonical :=
  (h.foldl fun _ _ h => h.storeRec.storeRec.storeRec.storeRec.dropEntries.modArena).modCamb

theorem State.Canonical.arenaLose {p idx : Nat} (h : s.Canonical) : (s.arenaLose p idx).Canonical := by
  unfold State.arenaLose
  split
  · exact h
  · exact h.modArena

theorem State.Canonical.copyFrame {src dst : Nat} (h : s.Canonical) : (s.copyFrame src dst).Canonical := by
  unfold State.copyFrame
  extract_lets s1
  have hs1 : s1.Canonical := h.pokePhys
  exact .mk hs1

theorem State.Canonical.frameDamage {p unit idx frame : Nat} {u : State} (h : s.Canonical)
    (e : s.frameDamage p unit idx frame = some u) : u.Canonical := by
  unfold State.frameDamage at e
  obtain ⟨x, _, rfl⟩ := Option.map_eq_some_iff.1 e
  exact h.faultRecord

theorem State.Canonical.spillPage {p : Nat} {a : Arena} {x : Spill} {src : Nat} (h : s.Canonical) :
    (s.spillPage p a x src).Canonical := by
  unfold State.spillPage
  extract_lets _ s1 s2 s3
  have hs1 : s1.Canonical := h.copyFrame.modArena
  have hs2 : s2.Canonical := .mk hs1
  have hs3 : s3.Canonical := hs2.setEntry.incF
  exact hs3.incF

theorem State.Canonical.spillWaiter {p : Nat} {a : Arena} {x : Spill} (h : s.Canonical) : (s.spillWaiter p a x).Canonical :=
  h.modArena.setEntry

theorem State.Canonical.endSpill {p : Nat} {x : Spill} (h : s.Canonical) : (s.endSpill p x).Canonical := by
  unfold State.endSpill
  extract_lets s1
  have hs1 : s1.Canonical := h.modCamb
  split
  · exact hs1
  · extract_lets spills src
    split
    next t e =>
      split_ifs at e
      exact hs1.frameDamage e
    next =>
      exact ((hs1.spillPage.ite hs1.modArena).spillWaiter.ite (hs1.spillPage.ite hs1.modArena)).releaseWrites.releaseWrites

/-! ### Machine/Operands.lean -/

theorem State.Canonical.wr {w : Acc} {a : Nat} {b : List Byte} (h : s.Canonical) : (s.wr w a b).1.Canonical := h.store

theorem State.Canonical.writeRow {w : Acc} {d : TDesc} {a0 i1 i2 i3 : Nat} {codes : List Nat} (h : s.Canonical) :
    (s.writeRow w d a0 i1 i2 i3 codes).1.Canonical := by
  unfold State.writeRow
  extract_lets
  refine h.foldl_fst fun t x h => ?_
  split
  · exact h
  · exact h.storeBits

end Sys2Proof.Machine
end

