-- ==== Sys2Proof/Proofs/CanonicalTraining.lean ====
section
/-! SUPPORT. Memory stays canonical under the operations on programs, cambia, collectives and row data. -/

namespace Sys2Proof.Machine

variable {s : State}

/-! ### Machine/Prog.lean -/

theorem State.Canonical.setTh {core t : Nat} {x : Thread} (h : s.Canonical) : (s.setTh core t x).Canonical := h.of_mem rfl

theorem State.Canonical.modTh {core t : Nat} {g : Thread → Thread} (h : s.Canonical) : (s.modTh core t g).Canonical := h.setTh

theorem State.Canonical.setCore {n : Nat} {x : Core} (h : s.Canonical) : (s.setCore n x).Canonical := h.of_mem rfl

theorem State.Canonical.modCore {n : Nat} {g : Core → Core} (h : s.Canonical) : (s.modCore n g).Canonical := h.setCore

theorem State.Canonical.beginWaves {owner : Option Nat} {kind : WaveKind} (h : s.Canonical) :
    (s.beginWaves owner kind).Canonical :=
  h.of_mem rfl

theorem State.Canonical.stepTime {t : Nat} (h : s.Canonical) : (s.stepTime t).Canonical := by
  unfold State.stepTime
  extract_lets
  exact .mk h

theorem State.Canonical.idleRestart {c : Nat} (h : s.Canonical) : (s.idleRestart c).Canonical := h.ite h.modCore

theorem State.Canonical.rampStep {c : Nat} (h : s.Canonical) : (s.rampStep c).Canonical := by
  unfold State.rampStep
  split
  · exact h
  · exact h.ite h.modCore

theorem State.Canonical.setForme {i : Nat} {x : Forme} (h : s.Canonical) : (s.setForme i x).Canonical := h.of_mem rfl

theorem State.Canonical.modForme {i : Nat} {g : Forme → Forme} (h : s.Canonical) : (s.modForme i g).Canonical := h.setForme

theorem State.Canonical.countOp {c : Nat} (h : s.Canonical) : (s.countOp c).Canonical := h.incF

theorem State.Canonical.setValue {c v : Nat} (h : s.Canonical) : (s.setValue c v).Canonical := by
  unfold State.setValue
  extract_lets _ s1
  have hs1 : s1.Canonical := h.setReg
  exact .mk hs1

theorem State.Canonical.opAddAlways {c : Nat} {n : Int} (h : s.Canonical) : (s.opAddAlways c n).Canonical := h.countOp.setValue

theorem State.Canonical.opAdd {c : Nat} {n : Int} (h : s.Canonical) : (s.opAdd c n).Canonical := h.countOp.ite h.countOp.setValue

theorem State.Canonical.opSet {c v : Nat} (h : s.Canonical) : (s.opSet c v).Canonical := h.countOp.ite h.countOp.setValue

theorem State.Canonical.claimRaw {c : Nat} (h : s.Canonical) : (s.claimRaw c).1.Canonical := h.countOp.setValue.ite_fst h.countOp

theorem State.Canonical.opClaim {c : Nat} (h : s.Canonical) : (s.opClaim c).1.Canonical := h.countOp.ite_fst h.claimRaw

theorem State.Canonical.claimSetLoop {claim : State → Nat → State × Option Nat} {base n : Nat} {x : ClaimSet} (h : s.Canonical)
    (hclaim : ∀ t c, t.Canonical → (claim t c).1.Canonical) : (claimSetLoop claim base n s x).1.Canonical := by
  induction n generalizing s x with
  | zero => exact h
  | succ n ih =>
    unfold Sys2Proof.Machine.claimSetLoop
    extract_lets
    split
    · exact h
    · split
      next t _ e => exact (hclaim _ _ h).of_fst e
      next t e => exact ih ((hclaim _ _ h).of_fst e)

theorem State.Canonical.modCq {f q : Nat} {g : CompQueue → CompQueue} (h : s.Canonical) : (s.modCq f q g).Canonical := h.modFn

theorem State.Canonical.modSq {f q : Nat} {g : SubQueue → SubQueue} (h : s.Canonical) : (s.modSq f q g).Canonical := h.modFn

theorem State.Canonical.writeCqe {r : HostRef} {status detail time : Nat} (h : s.Canonical) :
    (s.writeCqe r status detail time).Canonical :=
  h.modCq.satF.ite (h.modCq.poke.modCq.incF.incF.interrupt.ite h.modCq.poke.modCq.incF.incF)

theorem State.Canonical.endEntry {r : HostRef} {status detail : Nat} (h : s.Canonical) : (s.endEntry r status detail).Canonical :=
  h.ite (h.modFn.ite h.writeCqe)

theorem State.Canonical.dropEntry {r : HostRef} (h : s.Canonical) : (s.dropEntry r).Canonical := h.modCq.ite h

theorem State.Canonical.tlbUse {core addr : Nat} (h : s.Canonical) : (s.tlbUse core addr).Canonical := by
  unfold State.tlbUse
  extract_lets _ _ _ s1
  have hs1 : s1.Canonical := .ite (.mk h) h
  exact h.ite hs1.modCore

theorem State.Canonical.fetchLine {core t line : Nat} (h : s.Canonical) : (s.fetchLine core t line).Canonical := by
  unfold State.fetchLine
  extract_lets r1 _ s1
  have hs1 : s1.Canonical := h.modTh.tlbUse
  clear_value r1
  split
  · exact hs1.remoteRead
  · exact hs1.faultRecord
  · exact hs1

theorem State.Canonical.startThread {core t : Nat} {r : StartReq} (h : s.Canonical) : (s.startThread core t r).Canonical :=
  h.setTh.fetchLine

theorem State.Canonical.startReq {core slot : Nat} {r : StartReq} (h : s.Canonical) : (s.startReq core slot r).Canonical := by
  unfold State.startReq
  split
  · exact h.startThread
  · exact h.modCore

theorem State.Canonical.formeFault {i status detail : Nat} (h : s.Canonical) : (s.formeFault i status detail).Canonical :=
  h.ite (h.setForme.foldl fun _ _ h => h.setValue)

theorem State.Canonical.modTile {core i code : Nat} {g : Tile → Tile} (h : s.Canonical) : (s.modTile core i code g).Canonical :=
  h.of_mem rfl

theorem State.Canonical.setTilePhase {core i code : Nat} {ph : TilePhase} (h : s.Canonical) :
    (s.setTilePhase core i code ph).Canonical :=
  h.modTile

theorem State.Canonical.epilogueEnd {core i tile status : Nat} (h : s.Canonical) :
    (s.epilogueEnd core i tile status).Canonical := by
  unfold State.epilogueEnd
  split
  · exact h.setTilePhase
  · extract_lets s1
    have hs1 : s1.Canonical := .ite (.mk h) h.setTilePhase
    exact hs1.formeFault.ite hs1.formeFault

theorem State.Canonical.progFault {core t status pc : Nat} (h : s.Canonical) : (s.progFault core t status pc).Canonical :=
  h.ite h.setF.setF.raiseF.setF.setF.event

theorem State.Canonical.orphan {core t : Nat} (h : s.Canonical) : (s.orphan core t).Canonical := h.of_mem rfl

theorem State.Canonical.issued {core t : Nat} (h : s.Canonical) : (s.issued core t).Canonical := h.modCore

theorem State.Canonical.endProgram {core t status : Nat} (h : s.Canonical) : (s.endProgram core t status).Canonical := by
  unfold State.endProgram
  extract_lets _ s1 s2 s3 s4 s5
  have hs1 : s1.Canonical := h.issued.ite h
  have hs2 : s2.Canonical := hs1.setTh.orphan
  have hs3 : s3.Canonical := by
    unfold s3
    split
    · exact hs2.opAdd
    · exact hs2
  have hs4 : s4.Canonical := by
    unfold s4
    split
    · exact hs3.epilogueEnd
    · exact hs3.ite hs3.progFault
  have hs5 : s5.Canonical := by
    unfold s5
    split
    · exact hs4.endEntry
    · exact hs4
  split
  · exact hs5
  · exact hs5.modCore.startThread

theorem State.Canonical.threadFault {core t addr : Nat} {f : AccFault} (h : s.Canonical) :
    (s.threadFault core t addr f).Canonical := by
  unfold State.threadFault
  split
  · exact h.faultRecord.modTh
  · exact h.faultRecord.modTh
  · exact h.faultRecord.endProgram

theorem State.Canonical.formeError {core status opcode slot : Nat} (h : s.Canonical) :
    (s.formeError core status opcode slot).Canonical :=
  h.event.ite h.event.setF.setF.setF.raiseF

theorem State.Canonical.endStep1 {i : Nat} {x : Forme} (h : s.Canonical) : (s.endStep1 i x).Canonical := by
  unfold State.endStep1
  extract_lets s1 s2
  have hs1 : s1.Canonical := h.modLayer.ite h
  have hs2 : s2.Canonical := hs1.storeRec.ite hs1
  refine hs2.foldl fun t x h => ?_
  extract_lets
  exact .mk h

theorem State.Canonical.endStep2 {i : Nat} (h : s.Canonical) : (s.endStep2 i).Canonical := by
  unfold State.endStep2
  split
  · exact h
  · exact h.ite (h.setForme.ite h.setForme.storeRec)

theorem State.Canonical.endStep3 {i : Nat} (h : s.Canonical) : (s.endStep3 i).Canonical := by
  unfold State.endStep3
  split
  · exact h
  · split
    · exact h
    · extract_lets s1 s2 s3
      have hs1 : s1.Canonical := .mk h
      have hs2 : s2.Canonical := hs1.opAddAlways.ite hs1
      have hs3 : s3.Canonical := by
        unfold s3
        split
        · exact hs2.endEntry
        · exact hs2
      exact hs3.ite (hs3.foldl fun _ _ h => h.formeError)

theorem State.Canonical.endForme {i status : Nat} (h : s.Canonical) : (s.endForme i status).Canonical := by
  unfold State.endForme
  split
  · exact h
  · extract_lets _ _ s1
    have hs1 : s1.Canonical := .endStep1 (.mk h)
    exact hs1.setForme.endStep2.endStep3

/-! ### Machine/Cambium.lean -/

theorem State.Canonical.showArmed {p : Nat} {armed committing : Bool} (h : s.Canonical) :
    (s.showArmed p armed committing).Canonical :=
  (h.foldl fun _ _ h => h.setF.setF).setF

theorem State.Canonical.arm {p : Nat} {u : Update} (h : s.Canonical) : (s.arm p u).Canonical := h.modCamb.showArmed.setF

theorem State.Canonical.showIntake {p unit : Nat} (h : s.Canonical) : (s.showIntake p unit).Canonical := h.setF

theorem State.Canonical.overrun {b : GradBlock} (h : s.Canonical) : (s.overrun b).Canonical := by
  unfold State.overrun
  extract_lets _ s1
  have hs1 : s1.Canonical := h.satF
  split
  · exact hs1
  · exact hs1.modCamb.event

theorem State.Canonical.blockArrives {b : GradBlock} (h : s.Canonical) : (s.blockArrives b).Canonical := by
  unfold State.blockArrives
  split
  · exact h.overrun
  · split
    · exact h.overrun
    · exact h.overrun.ite h.modCamb.showIntake

theorem State.Canonical.disarm {p : Nat} (h : s.Canonical) : (s.disarm p).Canonical := by
  unfold State.disarm
  extract_lets _ s1 s2 s3
  have hs1 : s1.Canonical := h.foldl fun _ _ h => h.satF
  have hs2 : s2.Canonical := .mk hs1
  have hs3 : s3.Canonical := hs2.modCamb
  exact hs3.showArmed.foldl fun _ _ h => h.showIntake

theorem State.Canonical.abortUpdate {p : Nat} (h : s.Canonical) : (s.abortUpdate p).Canonical := by
  unfold State.abortUpdate
  split
  · exact h
  · exact h.ite h.modForme.disarm.endForme.event

theorem State.Canonical.finishForme {i status : Nat} (h : s.Canonical) : (s.finishForme i status).Canonical :=
  h.endForme.abortUpdate.ite h.endForme

theorem State.Canonical.writeShard {w : Acc} {d : TDesc} {i0 : Nat} {codes : List Nat} {scale : Option Nat} (h : s.Canonical) :
    (s.writeShard w d i0 codes scale).1.Canonical := by
  unfold State.writeShard
  split
  next e => exact h.writeRow.of_fst e
  next e =>
    have ht := h.writeRow.of_fst e
    split
    · exact ht.wr
    · exact ht

theorem State.Canonical.countWeights {unit : Nat} {nw : NewWeights} (h : s.Canonical) : (s.countWeights unit nw).Canonical :=
  ((h.incF.ite h).incF.ite (h.incF.ite h)).satF.event.ite ((h.incF.ite h).incF.ite (h.incF.ite h))

theorem State.Canonical.applyBlock {unit : Nat} {b : GradBlock} {u : Update} {e : UpdEntry} (h : s.Canonical) :
    (s.applyBlock unit b u e).Canonical := by
  unfold State.applyBlock
  extract_lets _ _ _ _ _ _ _ _ _ _ _ _ _ _ _ _ _ _ _ cw s2 _ r2 r3 r4 r5 s3 s4 s5 s6
  have hs2 : s2.Canonical := .mk h
  have hr2 : r2.1.Canonical := hs2.writeShard
  have hr3 : r3.1.Canonical := by
    unfold r3
    split
    · exact hr2
    · exact hr2.writeShard
  have hr4 : r4.1.Canonical := by
    unfold r4
    clear_value cw
    split
    · exact hr3.writeShard
    · exact hr3
  have hr5 : r5.1.Canonical := by
    unfold r5
    split
    · exact hr4.ite_fst hr4.wr
    · exact hr4
  have hs3 : s3.Canonical := by
    unfold s3
    split
    · exact hr5.faultRecord
    · exact hr5
  have hs4 : s4.Canonical := hs3.incF2
  have hs5 : s5.Canonical := hs4.countWeights
  have hs6 : s6.Canonical := hs5.ite hs5.satF.event
  split
  · exact h.faultRecord
  · exact hs6.modCamb

theorem State.Canonical.cambGrant {unit k : Nat} (h : s.Canonical) : (s.cambGrant unit k).Canonical := h.modCamb

theorem State.Canonical.applyNext {unit : Nat} (h : s.Canonical) : (s.applyNext unit).Canonical := by
  unfold State.applyNext
  extract_lets
  split
  · split
    · exact h
    · exact h.ite h.cambGrant.applyBlock.modCamb
  · exact h

theorem State.Canonical.spillDone {p : Nat} (h : s.Canonical) : (s.spillDone p).Canonical := by
  unfold State.spillDone
  split
  · exact h
  · exact h.cambGrant.endSpill

/-! ### Machine/Coll.lean -/

theorem State.Canonical.setGrp {g e : Nat} (h : s.Canonical) : (s.setGrp g e).Canonical := h.of_mem rfl

theorem State.Canonical.modColl {c : Coll} {g : Coll → Coll} (h : s.Canonical) : (s.modColl c g).Canonical := h.of_mem rfl

theorem State.Canonical.collSend {c : Coll} {k kind cls w6 w7 : Nat} {data : List Byte} (h : s.Canonical) :
    (s.collSend c k kind cls w6 w7 data).Canonical := by
  unfold State.collSend
  extract_lets
  split
  next e => exact h.originate e
  · exact h.ctxDown

theorem State.Canonical.endColl {c : Coll} {status : Nat} (h : s.Canonical) : (s.endColl c status).Canonical := by
  unfold State.endColl
  extract_lets _ s1
  have hs1 : s1.Canonical := .mk h
  exact hs1.ite hs1.incF.finishForme

theorem State.Canonical.collFault {c : Coll} {f : AccFault × Nat} (h : s.Canonical) : (s.collFault c f).Canonical :=
  h.faultRecord.endColl

theorem State.Canonical.collSweep (h : s.Canonical) : s.collSweep.Canonical := h.foldl fun _ _ h => h.endColl.ite h

theorem State.Canonical.readOwn {c : Coll} {r k : Nat} (h : s.Canonical) : (s.readOwn c r k).1.Canonical := by
  unfold State.readOwn
  extract_lets _ _ _ _ _ s1
  have hs1 : s1.Canonical := by
    unfold s1
    split
    · exact h
    · split
      · exact h.modCamb
      · exact h
  split
  · exact h
  · exact hs1

theorem State.Canonical.place1 {c : Coll} {r k : Nat} {codes : List Nat} (h : s.Canonical) :
    (s.place1 c r k codes).1.Canonical := by
  unfold State.place1
  extract_lets _ _ _ s1
  have hs1 : s1.Canonical := h.modColl
  exact .ite_fst (.mk hs1) hs1.writeRow

theorem State.Canonical.spreadHere {c : Coll} {r k : Nat} {codes : List Nat} (h : s.Canonical) :
    (s.spreadHere c r k codes).1.Canonical :=
  h.modColl.place1

theorem State.Canonical.reducedHere {c : Coll} {r k : Nat} {acc : List Nat} (h : s.Canonical) :
    (s.reducedHere c r k acc).1.Canonical := by
  unfold State.reducedHere
  extract_lets
  split
  · exact h.modColl
  · exact h.spreadHere.ite_fst h.place1

theorem State.Canonical.reduceChunk {c : Coll} {r k : Nat} (h : s.Canonical) : (s.reduceChunk c r k).1.Canonical := by
  unfold State.reduceChunk
  extract_lets _ _ _ _ _ _ s1 _ _ r01 _ _ _ s2 s3
  have hs1 : s1.Canonical := .mk h
  have hr01 : r01.1.Canonical := hs1.readOwn.ite_fst hs1
  have hs2 : s2.Canonical := hr01.modColl
  have hs3 : s3.Canonical := hs2.modColl
  split
  · exact h
  · split
    · exact h
    · split
      · exact hr01
      · exact hs3.reducedHere.ite_fst hs2

theorem State.Canonical.giveGrants {c0 : Coll} (h : s.Canonical) : (s.giveGrants c0).Canonical := by
  unfold State.giveGrants
  extract_lets
  refine h.foldl fun t x h => ?_
  split
  · exact h
  · exact h.ite h.modColl.collSend

theorem State.Canonical.sendGranted {c0 : Coll} (h : s.Canonical) : (s.sendGranted c0).1.Canonical := by
  unfold State.sendGranted
  refine h.foldl_fst fun t x h => ?_
  extract_lets
  split
  · split
    · exact h
    · extract_lets own s2
      have hown : own.1.Canonical := h.readOwn.ite_fst h
      have hs2 : s2.Canonical := hown.modColl
      split
      · exact hown
      · exact hs2.collSend
  · exact h

theorem State.Canonical.pump {c0 : Coll} (h : s.Canonical) : (s.pump c0).Canonical := by
  unfold State.pump
  split
  · exact h
  · extract_lets _ _ r1 r2
    have hr1 : r1.1.Canonical := by
      unfold r1
      refine h.foldl_fst fun t x h => ?_
      split
      · exact h.ite_fst h.reduceChunk
      · exact h
    have hr2 : r2.1.Canonical := by
      unfold r2
      split
      · exact hr1.sendGranted
      · exact hr1
    split
    · exact hr2.giveGrants
    · exact hr2.collFault
    · exact hr2

theorem State.Canonical.pumpAll (h : s.Canonical) : s.pumpAll.Canonical := by
  unfold State.pumpAll
  refine h.foldl fun t x h => ?_
  split
  · exact h.pump
  · exact h

theorem State.Canonical.pumpCtrl {c : Coll} (h : s.Canonical) : (s.pumpCtrl c).Canonical := by
  unfold State.pumpCtrl
  extract_lets _ _ _ _ _ s2
  have hs2 : s2.Canonical := h.modColl
  split
  · exact h
  · split
    · exact h.modColl.collSend
    · exact hs2.foldl fun _ _ h => h.collSend

theorem State.Canonical.arrive {c : Coll} {w v : Nat} (h : s.Canonical) : (s.arrive c w v).Canonical := by
  unfold State.arrive
  extract_lets s1
  have hs1 : s1.Canonical := h.modColl
  split
  · exact hs1.pumpCtrl
  · exact hs1

theorem State.Canonical.released {c : Coll} {v : Nat} (h : s.Canonical) : (s.released c v).Canonical :=
  (h.modColl.foldl fun _ _ h => h.collSend).ite h.modColl

theorem State.Canonical.staleColl (h : s.Canonical) : s.staleColl.Canonical := h.satF

theorem State.Canonical.collData {c : Coll} {w : Nat} {p : Packet} (h : s.Canonical) : (s.collData c w p).Canonical := by
  unfold State.collData
  extract_lets _ _ _ s1 r1 s2
  have hs1 : s1.Canonical := h.modColl
  have hr1 : r1.1.Canonical := hs1.modColl.ite_fst hs1.spreadHere
  have hs2 : s2.Canonical := hr1.collSend
  split
  · exact h.satF
  · split
    · exact h.staleColl
    · split
      · exact hr1.collFault
      · exact hs2.pumpAll

theorem State.Canonical.collGrant {c : Coll} {w : Nat} {p : Packet} (h : s.Canonical) : (s.collGrant c w p).Canonical :=
  h.collSend.endColl.ite h.modColl.pumpAll

theorem State.Canonical.collCtrl {c : Coll} {w : Nat} {p : Packet} (h : s.Canonical) : (s.collCtrl c w p).Canonical := by
  unfold State.collCtrl
  split
  · exact h.arrive
  · exact h.arrive
  · exact h.released
  · exact h.released
  · exact h.endColl
  · exact h

theorem State.Canonical.collPacket {ctx : Nat} {p : Packet} (h : s.Canonical) : (s.collPacket ctx p).Canonical := by
  unfold State.collPacket
  split
  · exact h.staleColl
  · extract_lets
    split
    · exact h.staleColl
    · split
      · exact h.ite (h.collData.ite (h.collGrant.ite h.collCtrl))
      · exact .ite h.staleColl (.mk h)

theorem State.Canonical.takeEarly (h : s.Canonical) : s.takeEarly.Canonical := by
  unfold State.takeEarly
  extract_lets
  exact .foldl (.mk h) fun _ _ h => h.collPacket

theorem State.Canonical.startColl {c : Coll} (h : s.Canonical) : (s.startColl c).Canonical := by
  unfold State.startColl
  extract_lets _ s1 _ _ _ s2 _ _ r1
  have hs1 : s1.Canonical := h.setGrp
  have hs2 : s2.Canonical := .mk hs1
  have hr1 : r1.1.Canonical := by
    unfold r1
    refine hs2.foldl_fst fun t x h => ?_
    split
    · exact h
    · extract_lets o1
      have ho1 : o1.1.Canonical := h.readOwn
      split
      · exact ho1
      · exact ho1.reducedHere.ite_fst ho1.spreadHere
  split
  · exact hs2
  · split
    · exact hs2.arrive.takeEarly
    · split
      · exact hr1.collFault
      · exact hr1.pumpAll.takeEarly

theorem State.Canonical.joinScalar {p g v purpose : Nat} (h : s.Canonical) : (s.joinScalar p g v purpose).Canonical := by
  unfold State.joinScalar
  extract_lets _ _ s1 _ s2
  have hs1 : s1.Canonical := h.setGrp
  have hs2 : s2.Canonical := .mk hs1
  exact h.ite hs2.arrive.takeEarly

theorem State.Canonical.staleGroup {g : Nat} (h : s.Canonical) : (s.staleGroup g).Canonical := h.foldl fun _ _ h => h.endColl

/-! ### Machine/Rows.lean -/

theorem State.Canonical.saturated {core n : Nat} (h : s.Canonical) : (s.saturated core n).Canonical := h.ite h.incF.event

theorem State.Canonical.writeCodes {i : Nat} {w : Acc} {o : CodeRow} (h : s.Canonical) : (s.writeCodes i w o).1.Canonical := by
  unfold State.writeCodes
  extract_lets s1 s2
  have hs1 : s1.Canonical := h.modForme.ite h
  have hs2 : s2.Canonical := by
    unfold s2
    split
    · exact hs1.tlbUse
    · exact hs1
  exact hs2.writeRow

theorem State.Canonical.writeOut {i core seed : Nat} {o : OutRow} (h : s.Canonical) : (s.writeOut i core seed o).1.Canonical :=
  h.writeCodes.saturated.ite h.writeCodes.saturated.modForme

theorem State.Canonical.writeOuts {i core seed : Nat} {l : List OutRow} (h : s.Canonical) :
    (s.writeOuts i core seed l).1.Canonical := by
  unfold State.writeOuts
  refine h.foldl_fst fun t x h => ?_
  split
  · exact h
  · exact h.writeOut

theorem State.Canonical.writeZmap {i : Nat} {w : Acc} {blocks : List Nat} (h : s.Canonical) :
    (s.writeZmap i w blocks).1.Canonical := by
  unfold State.writeZmap
  refine h.foldl_fst fun t x h => ?_
  split
  · exact h
  · exact h.storeBits

/-! ### Machine/Attention.lean -/

theorem State.Canonical.setKv {p : Nat} {x : Kv} (h : s.Canonical) : (s.setKv p x).Canonical := h.of_mem rfl

theorem State.Canonical.modKv {p : Nat} {g : Kv → Kv} (h : s.Canonical) : (s.modKv p g).Canonical := h.setKv

theorem State.Canonical.modSeq {p n : Nat} {g : KvSeq → KvSeq} (h : s.Canonical) : (s.modSeq p n g).Canonical := h.modKv

theorem State.Canonical.validateRows {i : Nat} {p : Plan} (h : s.Canonical) : (s.validateRows i p).Canonical := by
  unfold State.validateRows
  extract_lets
  refine h.foldl fun t x h => ?_
  extract_lets _ _ _ s1 s2
  have hs1 : s1.Canonical := h.modSeq
  have hs2 : s2.Canonical := by
    unfold s2
    split
    · split
      · exact hs1.modKv
      · exact hs1
    · exact h
  exact h.modForme.ite (hs2.ite hs2.modForme.modSeq)

theorem State.Canonical.writeCache {i : Nat} {w : Acc} {p : Plan} (h : s.Canonical) : (s.writeCache i w p).1.Canonical := by
  unfold State.writeCache
  extract_lets
  refine h.foldl_fst fun t x h => ?_
  split
  · exact h
  · extract_lets
    split
    · exact h
    · extract_lets put
      have hput : ∀ t value v, t.Canonical → (put t value v).1.Canonical := by
        intro t value v h
        unfold put
        extract_lets
        split
        · exact h
        · exact h.wr
      split
      next t _ e => exact (hput _ _ _ h).of_fst e
      next t e => exact hput _ _ _ ((hput _ _ _ h).of_fst e)

end Sys2Proof.Machine
end

