-- ==== Sys2Proof/Proofs/CanonicalTables.lean ====
section
/-! SUPPORT. Memory stays canonical under the operations on the table engine, windows and intake jobs. -/

namespace Sys2Proof.Machine

variable {s : State}

/-! ### Machine/KvTables.lean -/

theorem State.kvRead_kept (s : State) (p a n : Nat) : KvKept (fun _ => True) (s.kvRead p a n) := by
  unfold State.kvRead
  split <;> trivial

theorem State.Canonical.kvWrite {p a : Nat} {b : List Byte} (h : s.Canonical) : KvKept State.Canonical (s.kvWrite p a b) := by
  unfold State.kvWrite
  split
  next t e => exact h.wr.of_fst e
  next => trivial

theorem State.Canonical.poolWrite {p a : Nat} {b : List Byte} (h : s.Canonical) : KvKept State.Canonical (s.poolWrite p a b) := by
  unfold State.poolWrite
  split
  · trivial
  · exact h.kvWrite

theorem State.poolRead_kept (s : State) (p a n : Nat) : KvKept (fun _ => True) (s.poolRead p a n) := by
  unfold State.poolRead
  split
  · trivial
  · exact s.kvRead_kept p a n

theorem State.Canonical.copyBlock {p src dst : Nat} (h : s.Canonical) : KvKept State.Canonical (s.copyBlock p src dst) :=
  (s.poolRead_kept ..).bind fun _ _ => h.poolWrite

theorem State.Canonical.reserve {p : Nat} {q : KvSeq} {n : Nat} (h : s.Canonical) :
    KvKept (fun r => r.1.Canonical) (s.reserve p q n) := by
  unfold State.reserve
  extract_lets pool grow
  have hgrow : ∀ r : State × KvSeq, r.1.Canonical → KvKept (fun r => r.1.Canonical) (grow r) := by
    intro r hr
    unfold grow
    refine KvKept.foldlM (P := fun r : State × KvSeq => r.1.Canonical) hr fun t x h => ?_
    split
    · trivial
    · exact State.Canonical.setKv h
  split
  · split_ifs
    · split
      · trivial
      · exact h.setKv.copyBlock.bind fun _ ht => hgrow _ ht
    · exact hgrow _ h
  · exact hgrow _ h

theorem State.Canonical.writeTokens {p : Nat} {q : KvSeq} {pos : Nat} {toks : List Nat} (h : s.Canonical) :
    KvKept State.Canonical (s.writeTokens p q pos toks) := by
  refine KvKept.foldlM h fun t x h => ?_
  split
  · exact h.poolWrite
  · exact h

theorem State.Canonical.kvArm {p : Nat} (h : s.Canonical) : (s.kvArm p).Canonical := h.modKv

theorem State.Canonical.watermarks {p : Nat} (h : s.Canonical) : (s.watermarks p).Canonical :=
  (h.setKv.event.opAdd.ite h.setKv.event).ite h

theorem State.Canonical.ringPut {p n : Nat} {e : RingEntry} (h : s.Canonical) : (s.ringPut p n e).Canonical := by
  unfold State.ringPut
  extract_lets _ _ s1
  have hs1 : s1.Canonical := h.storeRec
  exact hs1.modSeq

theorem State.Canonical.ringFull {p n : Nat} (h : s.Canonical) : (s.ringFull p n).1.Canonical := by
  unfold State.ringFull
  extract_lets
  split
  · exact h
  · split
    · exact h.faultRecord
    · exact h.modSeq

theorem State.Canonical.ringOffer {p n : Nat} {e : RingEntry} (h : s.Canonical) : (s.ringOffer p n e).1.Canonical :=
  (h.event.ite h).modSeq.ite_fst ((h.ringFull.event.ite h.ringFull).modSeq.ite_fst h.ringFull.ringPut)

theorem State.Canonical.ringProduced {p n count : Nat} {urgent : Bool} (h : s.Canonical) :
    (s.ringProduced p n count urgent).Canonical :=
  h.ite (h.storeRec.modKv.interrupt.ite h.storeRec.modKv)

theorem State.Canonical.ringWrite {p n : Nat} {es : List RingEntry} (h : s.Canonical) : (s.ringWrite p n es).Canonical := by
  unfold State.ringWrite
  extract_lets r
  have hr : r.1.Canonical := by
    refine State.Canonical.foldl_fst h fun t x h => ?_
    extract_lets w
    have hw : w.1.Canonical := h.ringOffer
    split
    · exact hw
    · exact hw
  exact hr.incF2.ringProduced

theorem State.Canonical.freeSeq {p n : Nat} (h : s.Canonical) : (s.freeSeq p n).Canonical := h.modKv

theorem State.Canonical.retryPending {p n : Nat} (h : s.Canonical) : (s.retryPending p n).Canonical := by
  unfold State.retryPending
  extract_lets _ s0 r s1
  have hs0 : s0.Canonical := h.modSeq
  have hr : r.1.Canonical := by
    refine State.Canonical.foldl_fst hs0 fun t x h => ?_
    extract_lets _ w
    have hw : w.1.Canonical := h.ringFull.fst_of_eq rfl
    split
    · exact h.modSeq
    · split
      · exact hw.modSeq
      · exact hw.ringPut
  have hs1 : s1.Canonical := hr.ringProduced
  exact hs1.freeSeq.ite hs1

theorem State.Canonical.commitTo {p n c' : Nat} (h : s.Canonical) : (s.commitTo p n c').Canonical := h.setKv.incF

theorem State.Canonical.releaseSeq {p n reason : Nat} {es : List RingEntry} (h : s.Canonical) :
    (s.releaseSeq p n reason es).Canonical :=
  h.setKv.ringWrite.freeSeq.ite h.setKv.ringWrite

theorem State.Canonical.useNode {p i : Nat} (h : s.Canonical) : (s.useNode p i).Canonical := h.modKv

theorem State.Canonical.collision {p : Nat} (h : s.Canonical) : (s.collision p).Canonical := h.satF.event

theorem State.Canonical.nodeSlot {p i : Nat} {u : State} (h : s.Canonical) (e : s.nodeSlot p = some (i, u)) : u.Canonical := by
  unfold State.nodeSlot at e
  dsimp only at e
  split at e
  · cases e
    exact h
  · split at e
    · cases e
      exact h.setKv
    · cases e

theorem State.Canonical.publish {p n j : Nat} (h : s.Canonical) : KvKept State.Canonical (s.publish p n j) := by
  unfold State.publish
  extract_lets _ stop
  split_ifs
  · exact h.modSeq
  · refine (s.poolRead_kept ..).bind fun _ _ => ?_
    extract_lets
    split
    · refine (s.poolRead_kept ..).bind fun _ _ => ?_
      split_ifs
      · exact h.useNode.modSeq
      · exact h.collision.modSeq
    · split
      next => exact h.modSeq
      next t e => exact (h.nodeSlot e).setKv.modSeq

theorem State.Canonical.matchBlocks {p ns addr n j : Nat} {node : Option Nat} {blocks : List Nat} (h : s.Canonical) :
    KvKept (fun r => r.1.Canonical) (s.matchBlocks p ns addr n j node blocks) := by
  induction n generalizing s j node blocks with
  | zero => exact h
  | succ n ih =>
    unfold State.matchBlocks
    refine (s.kvRead_kept ..).bind fun _ _ => ?_
    extract_lets
    split
    · exact h
    · refine (s.poolRead_kept ..).bind fun _ _ => ?_
      split_ifs
      · exact ih h.useNode
      · exact h.collision

theorem State.Canonical.admitEntry {p : Nat} {b : List Byte} (h : s.Canonical) :
    KvKept (fun r => r.1.Canonical) (s.admitEntry p b) := by
  unfold State.admitEntry
  extract_lets -underBinder
  split
  · trivial
  · split
    · trivial
    · split
      · trivial
      · split
        · trivial
        · extract_lets -underBinder enter
          have henter : ∀ r, r.1.Canonical → KvKept (fun r => r.1.Canonical) (enter r) := by
            intro r hr
            unfold enter
            extract_lets -underBinder s1 _ _ _ _ _ _ _ fill
            have hs1 : s1.Canonical := hr
            split
            · trivial
            · have hfill : ∀ r, r.1.Canonical → KvKept (fun r => r.1.Canonical) (fill r) := by
                intro r hr
                refine (r.1.kvRead_kept ..).bind fun _ _ => ?_
                refine (State.Canonical.writeTokens hr).bind fun _ ht => ?_
                exact ht.modKv.incF.incF.watermarks
              split
              · exact hfill _ hs1.setKv
              · exact hs1.setKv.reserve.bind hfill
          split
          · split
            · trivial
            · exact henter _ h
          · split
            · split
              · trivial
              · exact henter _ h.useNode
            · split
              · exact h.matchBlocks.bind fun _ hr => henter _ hr
              · exact henter _ h

theorem State.Canonical.scheduleEntry {p : Nat} {b : List Byte} (h : s.Canonical) :
    KvKept (fun r => r.1.Canonical) (s.scheduleEntry p b) := by
  unfold State.scheduleEntry
  extract_lets _ _ _ s1
  have hs1 : s1.Canonical := h.foldl fun _ _ h => h.retryPending
  split
  · trivial
  · split
    · trivial
    · refine KvKept.bind (P := fun r => r.1.Canonical) (KvKept.foldlM hs1 fun t x h => ?_) fun r hr =>
      State.Canonical.watermarks hr
      split
      · exact h
      · extract_lets
        split
        · exact State.Canonical.event h
        · split
          next => exact State.Canonical.event h
          next e => exact (State.Canonical.reserve h).of_error e
          next e => exact (State.Canonical.modKv ((State.Canonical.reserve h).of_ok e)).kvWrite.bind fun _ ht => ht

theorem State.Canonical.advanceEntry {p : Nat} {b : List Byte} (h : s.Canonical) :
    KvKept (fun r => r.1.Canonical) (s.advanceEntry p b) := by
  unfold State.advanceEntry
  extract_lets
  split
  · trivial
  · split
    · trivial
    · split
      · trivial
      · refine h.writeTokens.bind fun s1 h1 => ?_
        refine KvKept.bind (P := State.Canonical) (KvKept.foldlM h1.commitTo.modKv fun t j h => ?_) fun s4 h4 => ?_
        · split
          · exact h.publish
          · exact h
        · exact h4.releaseSeq.ite (h4.releaseSeq.ite h4.ringWrite.modSeq)

theorem State.Canonical.releaseEntry {p : Nat} {b : List Byte} (h : s.Canonical) :
    KvKept (fun r => r.1.Canonical) (s.releaseEntry p b) := by
  unfold State.releaseEntry
  extract_lets
  split
  · exact h.releaseSeq
  · split
    · exact h.modSeq
    · trivial

theorem State.Canonical.swapOut {p n forme : Nat} (h : s.Canonical) : KvKept State.Canonical (s.swapOut p n forme) := by
  unfold State.swapOut
  extract_lets _ s1
  have hs1 : s1.Canonical := h.commitTo
  split
  · exact hs1.event
  · exact hs1.modSeq.modKv

theorem State.Canonical.outAuto {p forme : Nat} (h : s.Canonical) : KvKept (fun r => r.1.Canonical) (s.outAuto p forme) := by
  unfold State.outAuto
  extract_lets _ _ _ _ _ s1 _ r
  have hr : r.1.Canonical := by
    refine State.Canonical.foldl_fst h.setKv fun t n h => ?_
    split
    · exact h
    · have ho := h.swapOut (p := p) (n := n) (forme := forme)
      split
      next e => exact ho.of_ok e
      next e => exact ho.of_error e
      next => exact h
  split
  · split
    · trivial
    · exact h.event
  · exact hr

theorem State.Canonical.outSeqEntry {p forme : Nat} {b : List Byte} (h : s.Canonical) :
    KvKept (fun r => r.1.Canonical) (s.outSeqEntry p forme b) := by
  unfold State.outSeqEntry
  extract_lets
  split
  · trivial
  · split
    · split
      · trivial
      · exact h.event
    · split
      next e => exact (h.swapOut.of_ok e :)
      next => exact h.event

theorem State.Canonical.resumeSeq {p n forme : Nat} (h : s.Canonical) : KvKept State.Canonical (s.resumeSeq p n forme) := by
  unfold State.resumeSeq
  extract_lets
  refine KvKept.bind (P := fun _ => True) (KvKept.foldlM trivial fun t j _ => ?_) fun _ _ => h.setKv.modSeq
  extract_lets
  split
  · split <;> trivial
  · trivial

theorem State.Canonical.inSeqEntry {p forme : Nat} {b : List Byte} (h : s.Canonical) :
    KvKept (fun r => r.1.Canonical) (s.inSeqEntry p forme b) := by
  unfold State.inSeqEntry
  extract_lets
  split
  · trivial
  · exact h.resumeSeq.bind fun _ ht => ht.watermarks

theorem State.Canonical.inAuto {p forme : Nat} (h : s.Canonical) : KvKept (fun r => r.1.Canonical) (s.inAuto p forme) := by
  unfold State.inAuto
  extract_lets _ _ _ r
  have hr : r.1.Canonical := by
    refine State.Canonical.foldl_fst h fun t n h => ?_
    split
    · exact h
    · extract_lets
      split
      · exact h
      · split
        next e => exact (h.resumeSeq.of_ok e :)
        next => exact h
  exact hr.watermarks

theorem State.Canonical.prefixEntry {p op : Nat} {b : List Byte} (h : s.Canonical) :
    KvKept (fun r => r.1.Canonical) (s.prefixEntry p op b) := by
  unfold State.prefixEntry
  extract_lets
  split
  · exact h.matchBlocks.bind fun _ hr => hr
  · exact h
  · split
    · trivial
    · split
      · trivial
      · exact h.setKv
  · exact h.setKv

theorem State.Canonical.budgetEntry {p op : Nat} {b : List Byte} (h : s.Canonical) :
    KvKept (fun r => r.1.Canonical) (s.budgetEntry p op b) := by
  unfold State.budgetEntry
  extract_lets
  split
  · trivial
  · split
    · exact h.modKv
    · exact h.modKv
    · exact h.kvWrite.bind fun _ ht => ht
    · trivial

theorem State.Canonical.applyKv {p : Nat} (h : s.Canonical) : (s.applyKv p).Canonical := by
  unfold State.applyKv
  extract_lets _ _ _ _ _ s2
  have hs2 : s2.Canonical := .mk h
  exact hs2.latch.event.ite h.latch.modKv

/-! ### Machine/Windows.lean -/

theorem State.Canonical.outOfRange {i j : Nat} (h : s.Canonical) : (s.outOfRange i j).Canonical := h.modForme

theorem State.Canonical.writePieces {i : Nat} {w : Acc} {p : Plan} {o : CodeRow} (h : s.Canonical) :
    (s.writePieces i w p o).1.Canonical := by
  unfold State.writePieces
  extract_lets
  refine h.foldl_fst fun t x h => ?_
  split
  · exact h
  · exact h.writeCodes

theorem State.Canonical.gatherTile {i core : Nat} {p : Plan} {tile : Nat} (h : s.Canonical) :
    (s.gatherTile i core p tile).1.Canonical := by
  unfold State.gatherTile
  extract_lets
  refine h.foldl_fst fun t x h => ?_
  split
  · exact h
  · extract_lets
    split
    · exact h.writePieces
    · exact h.outOfRange.writePieces

theorem State.Canonical.scatterOrdered {i : Nat} {w : Acc} {p : Plan} {k j : Nat} {codes : List Nat} (h : s.Canonical) :
    (s.scatterOrdered i w p k j codes).1.Canonical := by
  unfold State.scatterOrdered
  extract_lets _ _ s1
  have hs1 : s1.Canonical := h.modForme
  refine hs1.foldl_fst fun t x h => ?_
  split
  · exact h
  · exact h.writeCodes

theorem State.Canonical.scatterAccum {i : Nat} {x : Forme} {w : Acc} {p : Plan} {k j : Nat} (h : s.Canonical) :
    (s.scatterAccum i x w p k j).1.Canonical := by
  unfold State.scatterAccum
  extract_lets
  refine h.foldl_fst fun t x h => ?_
  split
  · exact h
  · extract_lets _ s1
    have hs1 : s1.Canonical := h.arenaWrite
    split
    · exact hs1
    · exact .mk hs1
    · exact hs1

theorem State.Canonical.scatterTile {i core tile : Nat} {p : Plan} (h : s.Canonical) :
    (s.scatterTile i core p tile).1.Canonical := by
  unfold State.scatterTile
  extract_lets _ _ wrap
  refine h.foldl_fst fun t j h => ?_
  split
  · exact h
  · split
    · exact h.outOfRange
    · split_ifs
      · exact h.scatterAccum
      · exact h.scatterOrdered
      · exact h.writePieces

theorem State.Canonical.performUpdate {u : RedUpdate} (h : s.Canonical) : (s.performUpdate u).Canonical := by
  unfold State.performUpdate
  extract_lets
  split
  · exact h.faultRecord
  · exact h.perform

/-! ### Machine/IntakeOps.lean -/

theorem State.Canonical.modIntk {p : Nat} {g : Intk → Intk} (h : s.Canonical) : (s.modIntk p g).Canonical := h.of_mem rfl

theorem State.Canonical.modJob {p j : Nat} {g : IntkJob → IntkJob} (h : s.Canonical) : (s.modJob p j g).Canonical := h.modIntk

theorem State.Canonical.modStream {p j n : Nat} {g : IntkStream → IntkStream} (h : s.Canonical) :
    (s.modStream p j n g).Canonical :=
  h.modJob

theorem State.Canonical.releaseEngines {here : Nat × Nat × Nat → Bool} (h : s.Canonical) : (s.releaseEngines here).Canonical := by
  unfold State.releaseEngines
  refine h.foldl fun t x h => ?_
  extract_lets v1
  have hv1 : v1.Canonical := h.setF
  exact .mk hv1

theorem State.Canonical.writeFrame {w : Acc} {x : IntkJob} {pos f : Nat} {v : Nat → Nat → Nat → Nat} (h : s.Canonical) :
    (s.writeFrame w x pos f v).1.Canonical := by
  unfold State.writeFrame
  extract_lets
  split
  · exact h.foldl_fst fun _ _ h => h.wrBind fun _ h => h.writeRow
  · exact h.foldl_fst fun _ _ h => h.wrBind fun _ h => h.writeRow

theorem State.Canonical.writeSound {w : Acc} {x : IntkJob} {pos : Nat} {v : Nat → Nat → Nat} (h : s.Canonical) :
    (s.writeSound w x pos v).1.Canonical :=
  h.foldl_fst fun _ _ h => h.wrBind fun _ h => h.writeRow

theorem State.Canonical.writeMask {w : Acc} {x : IntkJob} {pos : Nat} {valid : Nat → Bool} (h : s.Canonical) :
    (s.writeMask w x pos valid).1.Canonical :=
  h.ite_fst h.wr

theorem State.Canonical.padPosition {p : Nat} {x : IntkJob} {pos index status box regions : Nat} (h : s.Canonical) :
    (s.padPosition p x pos index status box regions).1.Canonical := by
  unfold State.padPosition
  extract_lets _ r1
  have hr1 : r1.1.Canonical := h.writeSound.ite_fst (h.foldl_fst fun _ _ h => h.wrBind fun _ h => h.writeFrame)
  exact (hr1.wrBind fun _ h => h.writeMask).wrBind fun _ h => h.modJob

theorem State.Canonical.fillCache {p : Nat} {x : IntkJob} {t : IntkStream} {pos : Nat} (h : s.Canonical) :
    (s.fillCache p x t pos).Canonical := by
  unfold State.fillCache
  extract_lets _ _ _ _ _ _ _ _ _ r1 _ _ _ s2
  have hr1 : r1.1.Canonical := h.wr
  have hs2 : s2.Canonical := hr1.modIntk
  split
  · exact h
  · split
    · exact hr1.faultRecord.modIntk
    · exact hs2.incF

theorem State.Canonical.serveFrames {p n : Nat} (h : s.Canonical) : (s.serveFrames p n).Canonical := by
  induction n generalizing s with
  | zero => exact h
  | succ n ih =>
    unfold State.serveFrames
    extract_lets
    split
    · exact h
    · exact h.ite (ih h.modStream)

theorem State.Canonical.servePool {p : Nat} (h : s.Canonical) : (s.servePool p).Canonical := h.serveFrames

theorem State.Canonical.dropJob {p j : Nat} (h : s.Canonical) : (s.dropJob p j).Canonical := h.releaseEngines.modIntk.servePool

theorem State.Canonical.jobFault {p j status : Nat} (h : s.Canonical) : (s.jobFault p j status).Canonical :=
  h.dropJob.event.ite h.dropJob.event.setF.setF.setF.raiseF

theorem State.Canonical.jobAccess {p j e : Nat} {f : AccFault × Nat} (h : s.Canonical) : (s.jobAccess p j e f).Canonical :=
  h.faultRecord.jobFault

theorem State.Canonical.closeJob {p : Nat} {x : IntkJob} (h : s.Canonical) : (s.closeJob p x).Canonical := by
  unfold State.closeJob
  extract_lets _ r1
  have hr1 : r1.1.Canonical := h.foldl_fst fun _ _ h => h.wrBind fun _ h => h.padPosition
  split
  · exact hr1.jobAccess
  · exact hr1.modJob.servePool

theorem State.Canonical.beginSample {p j : Nat} (h : s.Canonical) : (s.beginSample p j).Canonical := by
  unfold State.beginSample
  split
  · exact h
  · extract_lets
    split
    · exact h
    · split
      · exact h.closeJob.ite h
      · split
        · exact h
        · split
          · exact h
          · split
            · exact h.jobAccess
            · exact h.modJob.servePool

theorem State.Canonical.endSample {p j : Nat} (h : s.Canonical) : (s.endSample p j).Canonical := by
  unfold State.endSample
  split
  · exact h
  · split
    · exact h
    · exact h.releaseEngines.modJob.servePool.modJob.beginSample

theorem State.Canonical.rejectHead {p j : Nat} {x : IntkJob} {t : IntkStream} {status : Nat} (h : s.Canonical) :
    (s.rejectHead p j x t status).Canonical := by
  unfold State.rejectHead
  extract_lets _ s1 r1
  have hs1 : s1.Canonical := h.modJob
  have hr1 : r1.1.Canonical := hs1.foldl_fst fun _ _ h => h.wrBind fun _ h => h.padPosition
  split
  · exact hs1.endSample
  · split
    · exact hr1.jobAccess
    · exact hr1.modJob.endSample

theorem State.Canonical.staleSample {p j : Nat} {atStart : Bool} (h : s.Canonical) : (s.staleSample p j atStart).Canonical :=
  h.incF.event.modJob.endSample

theorem State.Canonical.writeDamage {p : Nat} {x : IntkJob} {t : IntkStream} (h : s.Canonical) :
    (s.writeDamage p x t).1.Canonical :=
  h.ite_fst (h.foldl_fst fun _ _ h => h.wrBind fun _ h => h.event.ite_fst (h.wr.wrBind fun _ h => h.modJob))

theorem State.Canonical.learnCosts {p j codec : Nat} {costs : List (Nat × Nat)} (h : s.Canonical) :
    (s.learnCosts p j codec costs).Canonical := by
  unfold State.learnCosts
  extract_lets _ s2
  have hs2 : s2.Canonical := .mk h
  exact hs2.modJob

theorem State.Canonical.deliverHead {p j : Nat} (h : s.Canonical) : (s.deliverHead p j).Canonical := by
  unfold State.deliverHead
  split
  · exact h
  · split
    · exact h
    · extract_lets _ _ _ _ _ _ _ r1 r2 s2 s3 s4
      have hr1 : r1.1.Canonical := by
        unfold r1
        refine h.foldl_fst fun t x h => ?_
        extract_lets r2
        have hr2 : r2.1.Canonical := h.ite_fst (h.foldl_fst fun _ _ h => h.wrBind fun _ h => h.ite_fst h.writeFrame)
        exact (hr2.wrBind fun _ h => h.writeMask).wrBind fun _ h => h.modJob
      have hr2 : r2.1.Canonical := hr1.wrBind fun _ h => h.writeDamage
      have hs2 : s2.Canonical := hr2.incF
      have hs3 : s3.Canonical := hs2.incF.event.ite hs2
      have hs4 : s4.Canonical := hs3.learnCosts
      split
      · exact hr2.jobAccess
      · exact hs4.modJob.endSample

theorem State.Canonical.settleJob {p j n : Nat} (h : s.Canonical) : (s.settleJob p j n).Canonical := by
  induction n generalizing s with
  | zero => exact h
  | succ n ih =>
    unfold State.settleJob
    split
    · exact h
    · split
      · exact h
      · split
        · exact ih h.rejectHead
        · exact (ih h.deliverHead).ite h

theorem State.Canonical.settleSamples {p j : Nat} (h : s.Canonical) : (s.settleSamples p j).Canonical := h.settleJob

theorem State.Canonical.rejectSample {p j n status : Nat} (h : s.Canonical) : (s.rejectSample p j n status).Canonical := by
  unfold State.rejectSample
  extract_lets _ s1 s2 _ s3
  have hs1 : s1.Canonical := h.incF.ite h.incF
  have hs2 : s2.Canonical := by
    unfold s2
    split
    · exact hs1.event
    · exact hs1.event
    · exact hs1.event
    · exact hs1.event
    · exact hs1
  have hs3 : s3.Canonical := hs2.releaseEngines.modStream
  exact hs3.servePool.settleSamples

theorem State.Canonical.copyCached {p : Nat} {x : IntkJob} {t : IntkStream} {off len : Nat} (h : s.Canonical) :
    (s.copyCached p x t off len).Canonical := by
  unfold State.copyCached
  extract_lets
  split
  · exact h.faultRecord.modStream
  · extract_lets _ r1 s2
    have hr1 : r1.1.Canonical := h.wr.wrBind fun _ h => h.writeMask
    have hs2 : s2.Canonical := hr1.incF.incF
    split
    · exact hr1.jobAccess
    · exact hs2.modJob.endSample.settleSamples

theorem State.Canonical.freeEngine {e cycles : Nat} (h : s.Canonical) : (s.freeEngine e cycles).Canonical := by
  unfold State.freeEngine
  extract_lets _ s1
  have hs1 : s1.Canonical := h.setF.incF.incF2
  exact .mk hs1

/-! ### Machine/Tables.lean -/

theorem State.Canonical.writeCtx {i v : Nat} (h : s.Canonical) : (s.writeCtx i v).Canonical := by
  unfold State.writeCtx
  extract_lets
  exact .mk h

theorem State.Canonical.writeGroup {i v : Nat} (h : s.Canonical) : (s.writeGroup i v).Canonical := h.staleGroup.setGrp

theorem State.Canonical.writeMember {i v : Nat} (h : s.Canonical) : (s.writeMember i v).Canonical := h.of_mem rfl

theorem State.Canonical.writeRoute {member : Bool} {i v : Nat} (h : s.Canonical) : (s.writeRoute member i v).Canonical := by
  unfold State.writeRoute
  extract_lets s1
  have hs1 : s1.Canonical := h.ite h.event
  exact .ite (.mk hs1) (.mk hs1)

theorem State.Canonical.tblWrite {t i v : Nat} (h : s.Canonical) : (s.tblWrite t i v).Canonical := by
  unfold State.tblWrite
  split
  · exact h.writeRoute
  · exact h.writeRoute
  · exact h.writeCtx
  · exact h.writeGroup
  · exact h.writeMember

theorem State.Canonical.clearTables {p : Nat} (h : s.Canonical) : (s.clearTables p).Canonical := by
  unfold State.clearTables
  extract_lets _ s1
  have hs1 : s1.Canonical := h.foldl fun _ _ h => h.writeCtx
  exact .mk hs1

end Sys2Proof.Machine
end

