-- ==== Sys2Proof/Proofs/CanonicalPartitions.lean ====
section
/-! SUPPORT. Memory stays canonical under the operations on snapshots and fills, resets of partitions and boundaries. -/

namespace Sys2Proof.Machine

variable {s : State}

/-! ### Machine/Resil.lean -/

theorem State.Canonical.snapWrite {p page a : Nat} {b : List Byte} (h : s.Canonical) : (s.snapWrite p page a b).1.Canonical := by
  unfold State.snapWrite
  split
  · exact h.ite_fst (h.foldl_fst fun _ _ h => h.remoteWrite)
  · split
    next e => exact h.storeRec.of_fst e
    next e => exact h.storeRec.of_fst e

theorem State.Canonical.snapRead {p list : Nat} {auto : Bool} (h : s.Canonical) : (s.snapRead p list auto).1.Canonical := by
  unfold State.snapRead
  split
  · exact h.faultRecord
  · extract_lets
    split
    · exact h.faultRecord
    · exact h

theorem State.Canonical.snapReport {p status kind : Nat} {x : Option Snap} (h : s.Canonical) :
    (s.snapReport p status kind x).Canonical := by
  unfold State.snapReport
  extract_lets _ s1 s2
  have hs1 : s1.Canonical := h.setF.incF.setF
  have hs2 : s2.Canonical := by
    unfold s2
    split
    · exact (hs1.setF.ite hs1).setF.ite (hs1.setF.ite hs1)
    · exact hs1
  exact hs2.opAdd.ite hs2

theorem State.Canonical.unprotect {p idx : Nat} (h : s.Canonical) : (s.unprotect p idx).Canonical :=
  h.setEntry.releaseWrites.ite h

theorem State.Canonical.snapClear {p : Nat} (h : s.Canonical) : (s.snapClear p).Canonical := by
  unfold State.snapClear
  split
  · exact h
  · extract_lets _ s1 s2
    have hs1 : s1.Canonical := .mk h
    have hs2 : s2.Canonical := hs1.foldl fun _ _ h => h.foldl fun _ _ h => h.unprotect
    exact hs2.setF.setF

theorem State.Canonical.snapFail {p status : Nat} (h : s.Canonical) : (s.snapFail p status).Canonical := by
  unfold State.snapFail
  split
  · exact h
  · exact h.snapClear.snapReport

theorem State.Canonical.snapBegin {p list : Nat} {auto : Bool} (h : s.Canonical) : (s.snapBegin p list auto).Canonical := by
  unfold State.snapBegin
  extract_lets _ s1
  have hs1 : s1.Canonical := h.modPart
  split
  next e => exact (hs1.snapRead.of_fst e).snapReport
  next e =>
    have ht := hs1.snapRead.of_fst e
    extract_lets _ _ _ _ _ _ _ s3 s4 w1
    have hs3 : s3.Canonical := .setF (.setF (.mk ht))
    have hs4 : s4.Canonical := .mk hs3
    have hw1 : w1.1.Canonical := hs4.snapWrite
    split
    · exact hw1.snapFail
    · exact hw1.foldl fun _ _ h => h.foldl fun _ _ h => h.setEntry

theorem State.Canonical.snapTry {p : Nat} (h : s.Canonical) : (s.snapTry p).Canonical :=
  h.ite (h.setF.snapBegin.ite (h.snapBegin.ite h))

theorem State.Canonical.streamPage {p : Nat} {x : Snap} {i k : Nat} {frame : Option Nat} (h : s.Canonical) :
    (s.streamPage p x i k frame).Canonical := by
  unfold State.streamPage
  split
  · exact h
  · refine .matchOption (fun _ _ _ => rfl) (fun _ _ => rfl) (fun _ e => h.frameDamage e) ?_
    refine .matchWritten (fun _ _ _ _ => rfl) (fun _ _ _ => rfl) ?_ (fun _ _ h => h.snapFail) fun _ h => h
    exact (State.Canonical.ite (.unprotect (.mk h)) (.mk h)).snapWrite

theorem State.Canonical.snapStream {p : Nat} (h : s.Canonical) : (s.snapStream p).Canonical := by
  unfold State.snapStream
  split
  · exact h
  · split
    · exact h
    · split
      · exact h.streamPage
      · exact h

theorem State.Canonical.touchCopy {p : Nat} (h : s.Canonical) : (s.touchCopy p).Canonical := by
  unfold State.touchCopy
  split
  · exact h
  · split
    · exact h
    · extract_lets _ s1 _ frames
      have hs1 : s1.Canonical := h.incF
      clear_value frames
      split
      · extract_lets _ _ s3
        have hs3 : s3.Canonical := hs1.copyFrame
        split
        next e => exact hs1.frameDamage e
        · exact .unprotect (.mk hs3)
      · exact hs1.streamPage

theorem State.Canonical.snapComplete {p : Nat} {x : Snap} (h : s.Canonical) : (s.snapComplete p x).Canonical := by
  unfold State.snapComplete
  extract_lets _ r1
  have hr1 : r1.1.Canonical := by
    unfold r1
    refine h.foldl_fst fun t x h => ?_
    split
    · exact h
    · extract_lets _ w1
      have hw1 : w1.1.Canonical := h.storeRec
      split
      · exact hw1
      · exact hw1.storeRec
  split
  · exact hr1.snapFail
  · split
    next e => exact (hr1.snapWrite.of_fst e).snapFail
    next e => exact (hr1.snapWrite.of_fst e).snapClear.snapReport

theorem State.Canonical.snapSweep (h : s.Canonical) : s.snapSweep.Canonical := h.foldl fun _ _ h => h.snapFail.ite h

theorem State.Canonical.showReplay {p : Nat} {busy : Bool} (h : s.Canonical) : (s.showReplay p busy).Canonical := h.setF

theorem State.Canonical.replayStart {p list : Nat} {fill : Bool} (h : s.Canonical) : (s.replayStart p list fill).Canonical := by
  unfold State.replayStart
  extract_lets _ s1
  have hs1 : s1.Canonical := h.setF.setF
  split
  · exact .showReplay (.mk hs1)
  · split
    · exact .showReplay (.mk hs1.faultRecord)
    · exact .showReplay (.mk hs1)

theorem State.Canonical.replayStop {p status : Nat} (h : s.Canonical) : (s.replayStop p status).Canonical := by
  unfold State.replayStop
  split
  · exact .mk h
  · exact h

theorem State.Canonical.replayBlock {p : Nat} {hd : List Byte} {dw : TDesc} {dc : Option TDesc} {bitsAt b : Nat}
    (h : s.Canonical) :
    (s.replayBlock p hd dw dc bitsAt b).1.Canonical := by
  unfold State.replayBlock
  extract_lets _ _ _ _ _ _ _ _ _ cw s1 r1
  have hs1 : s1.Canonical := .countWeights (.mk h)
  have hr1 : r1.1.Canonical := hs1.writeShard
  split
  · exact h
  · clear_value cw
    split
    · exact hr1.writeShard
    · exact hr1

theorem State.Canonical.replayItem {p : Nat} (h : s.Canonical) : (s.replayItem p).Canonical := by
  unfold State.replayItem
  split
  · exact h
  · split
    · exact h
    · extract_lets _ _ fail _ head
      split
      · exact h.replayStop
      · clear_value head
        split
        · unfold fail
          split
          · exact h.faultRecord.replayStop
          · exact h.replayStop
        · split
          · exact h.replayStop
          · split
            · exact .incF (.mk h)
            · split
              · unfold fail
                split
                · exact h.faultRecord.replayStop
                · exact h.replayStop
              · extract_lets _ _ r1
                have hr1 : r1.1.Canonical := by
                  unfold r1
                  refine h.foldl_fst fun t x h => ?_
                  split
                  · exact h
                  · exact h.replayBlock
                split
                · exact h.replayStop
                · split
                  · exact hr1.faultRecord.replayStop
                  · exact .incF (.mk hr1)

theorem State.Canonical.replayTell {p : Nat} {x : Replay} {status : Nat} (h : s.Canonical) :
    (s.replayTell p x status).Canonical := by
  unfold State.replayTell
  extract_lets s1
  have hs1 : s1.Canonical := .setF (.showReplay (.mk h))
  exact hs1.opAdd.ite hs1

theorem State.Canonical.replayCut {p status : Nat} (h : s.Canonical) : (s.replayCut p status).Canonical := by
  unfold State.replayCut
  split
  · exact h.replayTell
  · exact h

theorem State.Canonical.setFillState {p st : Nat} (h : s.Canonical) : (s.setFillState p st).Canonical := h.setF

theorem State.Canonical.fillTell {p : Nat} (h : s.Canonical) : (s.fillTell p).Canonical := h.opAdd.ite h

theorem State.Canonical.fillQuiet {p status : Nat} (h : s.Canonical) : (s.fillQuiet p status).Canonical := by
  unfold State.fillQuiet
  extract_lets _ s1
  have hs1 : s1.Canonical := .mk h
  exact hs1.replayCut.ite hs1

theorem State.Canonical.fillHalt {p status : Nat} (h : s.Canonical) : (s.fillHalt p status).Canonical :=
  h.fillQuiet.setFillState.setF.fillTell

theorem State.Canonical.askRecord {p : Nat} {x : Fill} {l : List (Nat × Nat)} (h : s.Canonical) :
    (s.askRecord p x l).Canonical := by
  unfold State.askRecord
  extract_lets
  exact .ite (.mk h) (h.foldl fun _ _ h => h.remoteRead)

theorem State.Canonical.fillStart {p : Nat} (h : s.Canonical) : (s.fillStart p).Canonical := by
  unfold State.fillStart
  extract_lets _ _ s1 s2
  have hs1 : s1.Canonical := h.setF.setF
  have hs2 : s2.Canonical := hs1.setF.setFillState
  split
  · exact hs2.faultRecord.fillHalt
  · extract_lets
    split
    · exact hs2.faultRecord.fillHalt
    · extract_lets
      exact .ite (.fillHalt (.mk hs2)) (.askRecord (.mk hs2))

theorem State.Canonical.fillRecordCame {p off : Nat} {b : List Byte} (h : s.Canonical) :
    (s.fillRecordCame p off b).Canonical := by
  unfold State.fillRecordCame
  split
  · exact h
  · extract_lets
    exact .ite (.askRecord (.mk h)) (.mk h)

theorem State.Canonical.showFillPages {p : Nat} (h : s.Canonical) : (s.showFillPages p).Canonical := by
  unfold State.showFillPages
  split
  · exact h
  · exact h.setF

theorem State.Canonical.fillPut {p dst : Nat} {b : List Byte} (h : s.Canonical) : (s.fillPut p dst b).Canonical := by
  unfold State.fillPut
  split
  next e => exact (h.storeRec.of_fst e).showFillPages
  next e => exact (h.storeRec.of_fst e).fillHalt

theorem State.Canonical.fillPage {p : Nat} (h : s.Canonical) : (s.fillPage p).Canonical := by
  unfold State.fillPage
  split
  · exact h
  · split
    · exact h
    · split
      · exact h
      · split
        · exact .mk h
        · extract_lets _ _ _ s1
          have hs1 : s1.Canonical := .mk h
          split
          · split
            · exact hs1.fillHalt
            · exact .ite (.mk hs1) (hs1.foldl fun _ _ h => h.remoteRead)
          · split
            · exact hs1.faultRecord.fillHalt
            · exact hs1.fillPut

theorem State.Canonical.installGroup {g v : Nat} (h : s.Canonical) : (s.installGroup g v).Canonical := h.writeGroup.setGrp

theorem State.Canonical.install {p : Nat} {x : Fill} (h : s.Canonical) : (s.install p x).Canonical := by
  unfold State.install
  extract_lets _ _ _ s1 _ _ s2
  have hs1 : s1.Canonical := by
    unfold s1
    refine h.foldl fun t x h => ?_
    extract_lets
    split
    · exact h.writeCtx.ite h
    · exact h.installGroup.ite h
    · exact h.writeMember.ite h
    · exact h.writeRoute.ite h
    · exact h.writeRoute.ite h
    · exact h
  have hs2 : s2.Canonical := hs1.setF.setF
  exact h.fillHalt.ite hs2.setFillState.fillTell

theorem State.Canonical.fillSweep (h : s.Canonical) : s.fillSweep.Canonical := by
  unfold State.fillSweep
  refine h.foldl fun t x h => ?_
  split
  · exact h.fillHalt.ite h
  · exact h

theorem State.Canonical.fillClear {p : Nat} (h : s.Canonical) : (s.fillClear p).Canonical := by
  unfold State.fillClear
  extract_lets s1
  have hs1 : s1.Canonical := h.fillQuiet
  exact .setF (.setFillState (.mk hs1))

theorem State.Canonical.replayEnd {p : Nat} {x : Replay} (h : s.Canonical) : (s.replayEnd p x).Canonical :=
  (h.replayTell.setFillState.ite h.replayTell.fillHalt).ite h.replayTell

/-! ### Machine/Copp.lean -/

theorem State.Canonical.setSw {p : Nat} {x : Switch} (h : s.Canonical) : (s.setSw p x).Canonical := h.of_mem rfl

theorem State.Canonical.modSw {p : Nat} {g : Switch → Switch} (h : s.Canonical) : (s.modSw p g).Canonical := h.setSw

theorem State.Canonical.enterBarrier {p : Nat} (h : s.Canonical) : (s.enterBarrier p).Canonical := by
  unfold State.enterBarrier
  split
  · exact h
  · exact h.modSw.setF.joinScalar

theorem State.Canonical.rise {p : Nat} (h : s.Canonical) : (s.rise p).Canonical := h.modSw.beginWaves

theorem State.Canonical.endReshard {p status : Nat} (h : s.Canonical) : (s.endReshard p status).Canonical := by
  unfold State.endReshard
  split
  · exact h
  · exact h.modSw.finishForme

theorem State.Canonical.dropPlan {p : Nat} (h : s.Canonical) : (s.dropPlan p).Canonical := by
  unfold State.dropPlan
  extract_lets
  exact .mk h

theorem State.Canonical.modPlan {p : Nat} {g : ReshardPlan → ReshardPlan} (h : s.Canonical) : (s.modPlan p g).Canonical := h.modSw

theorem State.Canonical.entryDone {p : Nat} (h : s.Canonical) : (s.entryDone p).Canonical := h.modPlan.incF

theorem State.Canonical.movesDone {p : Nat} (h : s.Canonical) : (s.movesDone p).Canonical := by
  unfold State.movesDone
  split
  · exact h
  · exact h.foldl fun _ _ h => h.modPlan.entryDone

theorem State.Canonical.endPlan {p status : Nat} (h : s.Canonical) : (s.endPlan p status).Canonical := by
  unfold State.endPlan
  extract_lets s1 _ _ s2 s3
  have hs1 : s1.Canonical := h.movesDone
  have hs2 : s2.Canonical := hs1.dropPlan
  have hs3 : s3.Canonical := hs2.modSw
  split
  · exact hs1
  · extract_lets s4 s5 s6 s7
    have hs4 : s4.Canonical := by
      unfold s4
      split
      · exact hs3.modForme
      · exact hs3
    have hs5 : s5.Canonical := hs4.incF
    have hs6 : s6.Canonical := hs5.ite hs5.setF.setF.raiseF
    have hs7 : s7.Canonical := hs6.incF.event.ite (hs6.ite hs6.event)
    exact hs7.rise.ite hs7.modSw.endReshard

theorem State.Canonical.planFault {p addr : Nat} {f : AccFault} (h : s.Canonical) : (s.planFault p addr f).Canonical :=
  h.faultRecord.endPlan

theorem State.Canonical.bytesOut {die n : Nat} (h : s.Canonical) : (s.bytesOut die n).Canonical := h.incF2

theorem State.Canonical.copyLines {p die entry src dst n : Nat} (h : s.Canonical) :
    (s.copyLines p die entry src dst n).1.Canonical := by
  induction n generalizing s src dst with
  | zero => exact h
  | succ n ih =>
    unfold State.copyLines
    split
    · exact h
    · split
      next e => exact h.store.of_fst e
      next e => exact ih (h.store.of_fst e).bytesOut

theorem State.Canonical.sendPieces {p die entry ctx src off len plan n : Nat} (h : s.Canonical) :
    (s.sendPieces p die entry ctx src off len plan n).1.Canonical := by
  induction n generalizing s src off len with
  | zero => exact h
  | succ n ih =>
    unfold State.sendPieces
    split
    · exact h
    · exact ih h.remoteWrite.bytesOut

theorem State.Canonical.moveEntry {p die i : Nat} {x : ReshardPlan} {e : Nat × Nat × Nat} (h : s.Canonical) :
    (s.moveEntry p die i x e).Canonical := by
  unfold State.moveEntry
  split
  · extract_lets _ _ s1
    have hs1 : s1.Canonical := h.modPlan
    split
    · exact h.planFault
    · split
      next e => exact (hs1.sendPieces.of_fst e).planFault
      next e => exact hs1.sendPieces.of_fst e
  · split
    next e => exact (h.copyLines.of_fst e).planFault
    next e =>
      have ht := h.copyLines.of_fst e
      exact ht.modPlan.ite ht.entryDone

theorem State.Canonical.pumpDie {p die n : Nat} (h : s.Canonical) : (s.pumpDie p die n).Canonical := by
  induction n generalizing s with
  | zero => exact h
  | succ n ih =>
    unfold State.pumpDie
    extract_lets
    split
    · exact h
    · extract_lets
      split
      · exact h
      · split
        · exact h
        · exact (ih h.modPlan.moveEntry).ite (ih h.modPlan)

theorem State.Canonical.planPump {p : Nat} (h : s.Canonical) : (s.planPump p).Canonical := by
  unfold State.planPump
  extract_lets s1
  have hs1 : s1.Canonical := h.movesDone
  split
  · exact hs1
  · exact hs1.pumpDie.pumpDie.ite hs1.pumpDie

theorem State.Canonical.planAck {p i : Nat} {status : Option Nat} (h : s.Canonical) : (s.planAck p i status).Canonical := by
  unfold State.planAck
  split
  · exact (h.modSw.entryDone.ite h.modSw).planPump
  · exact h.planFault
  · exact h.endPlan
  · exact h

theorem State.Canonical.stray {p : Nat} (h : s.Canonical) : (s.stray p).Canonical := h.satF.event

theorem State.Canonical.planGot {p n : Nat} (h : s.Canonical) : (s.planGot p n).Canonical := h.modPlan.incF2

theorem State.Canonical.beginSwitch {p : Nat} {on : Bool} {target : Overlay} {forme : Option Nat} {plan : Option ReshardPlan}
    (h : s.Canonical) :
    (s.beginSwitch p on target forme plan).Canonical :=
  h.setSw.ite h.setSw.enterBarrier

theorem State.Canonical.requestMode {p target : Nat} (h : s.Canonical) : (s.requestMode p target).Canonical := by
  unfold State.requestMode
  split
  · exact h
  · exact h.event.ite h.beginSwitch

theorem State.Canonical.endSwitch {p : Nat} (h : s.Canonical) : (s.endSwitch p).Canonical := by
  unfold State.endSwitch
  extract_lets _ s1 _ s2 s3
  have hs1 : s1.Canonical := h.modSw
  have hs2 : s2.Canonical := hs1.foldl fun _ _ h => h.finishForme
  have hs3 : s3.Canonical := hs2.incF.event
  split
  · exact h
  · split
    · exact hs3
    · exact hs3.modSw.finishForme

/-! ### Machine/Stop.lean -/

theorem State.Canonical.endEntries {p : Nat} {reset : Bool} (h : s.Canonical) : (s.endEntries p reset).Canonical := by
  unfold State.endEntries
  extract_lets _ s1
  have hs1 : s1.Canonical := .mk h
  exact hs1.foldl fun _ _ h => h.dropEntry.ite h.endEntry

theorem State.Canonical.dropFormes {p : Nat} (h : s.Canonical) : (s.dropFormes p).Canonical := by
  unfold State.dropFormes
  extract_lets
  exact .mk h

theorem State.Canonical.dropFabric {p : Nat} (h : s.Canonical) : (s.dropFabric p).Canonical := by
  unfold State.dropFabric
  extract_lets
  exact .mk h

theorem State.Canonical.dropSwitch {p : Nat} (h : s.Canonical) : (s.dropSwitch p).Canonical := by
  unfold State.dropSwitch
  extract_lets s1
  have hs1 : s1.Canonical := h.dropPlan.setSw
  exact .ite hs1 (.mk hs1)

theorem State.Canonical.dropJobs {p : Nat} (h : s.Canonical) : (s.dropJobs p).Canonical := h.foldl fun _ _ h => h.dropJob

theorem State.Canonical.abandon {p : Nat} {reset : Bool} (h : s.Canonical) : (s.abandon p reset).Canonical := by
  unfold State.abandon
  extract_lets s1 s2 s3 s4 s5
  have hs1 : s1.Canonical := h.foldl fun _ _ h => h.performUpdate
  have hs2 : s2.Canonical := .mk hs1
  have hs3 : s3.Canonical := hs2.endEntries.dropFormes
  have hs4 : s4.Canonical := hs3.disarm.dropFabric.dropJobs
  have hs5 : s5.Canonical := hs4.modKv
  exact hs5.dropSwitch.snapClear.replayCut

theorem State.Canonical.fillStop {p : Nat} (h : s.Canonical) : (s.fillStop p).Canonical := h.fillHalt.ite h

theorem State.Canonical.stopJob {p : Nat} (h : s.Canonical) : (s.stopJob p).Canonical := h.abandon.fillStop

theorem State.Canonical.stopPartition {p : Nat} (h : s.Canonical) : (s.stopPartition p).Canonical := h.ite h.stopJob.modPart.event

theorem State.Canonical.hostSweep (h : s.Canonical) : s.hostSweep.Canonical := by
  unfold State.hostSweep
  extract_lets
  exact .foldl (.mk h) fun _ _ h => h.stopPartition

theorem State.Canonical.resetPages {pgs : List Nat} (h : s.Canonical) : (s.resetPages pgs).Canonical := h.of_mem rfl

theorem State.Canonical.zeroGalleys {p : Nat} (h : s.Canonical) : (s.zeroGalleys p).Canonical := h.foldl fun _ _ h => h.wipe

theorem State.Canonical.zeroStack {p : Nat} (h : s.Canonical) : (s.zeroStack p).Canonical := h.foldl fun _ _ h => h.wipe

theorem State.Canonical.errorsZeroed {p : Nat} (h : s.Canonical) : (s.errorsZeroed p).Canonical :=
  h.zeroStack.zeroGalleys.mapWritten

theorem State.Canonical.dropPlans {p : Nat} (h : s.Canonical) : (s.dropPlans p).Canonical := h.of_mem rfl

theorem State.Canonical.freeWrites {p : Nat} (h : s.Canonical) : (s.freeWrites p).Canonical :=
  h.foldl fun _ _ h => h.releaseWrites

theorem State.Canonical.clearPart {p : Nat} (h : s.Canonical) : (s.clearPart p).Canonical := by
  unfold State.clearPart
  extract_lets s1 s2 s3
  have hs1 : s1.Canonical := .mk h
  have hs2 : s2.Canonical := hs1.freeWrites.clearTables
  have hs3 : s3.Canonical := hs2.dropPlans.zeroGalleys.mapWritten.fillClear
  exact .mk hs3

theorem State.Canonical.clearQueues {f : Nat} (h : s.Canonical) : (s.clearQueues f).Canonical := h.modFn

theorem State.Canonical.flrConfig {p : Nat} (h : s.Canonical) : (s.flrConfig p).Canonical := h.modFn

theorem State.Canonical.beginReset {p : Nat} {flr : Bool} (h : s.Canonical) : (s.beginReset p flr).Canonical := by
  unfold State.beginReset
  extract_lets _ s1 _ s2 s3
  have hs1 : s1.Canonical := h.modPart
  have hs2 : s2.Canonical := .abandon (.mk h)
  have hs3 : s3.Canonical := hs2.fillClear.modPart
  exact (hs1.flrConfig.ite hs1).ite (hs3.foldl fun _ _ h => h.modCore)

theorem State.Canonical.requestReset {p : Nat} {flr : Bool} (h : s.Canonical) : (s.requestReset p flr).Canonical := by
  unfold State.requestReset
  extract_lets done
  have hdone : done.Canonical := h.emit.ite h
  split
  · exact hdone
  · split
    · exact hdone
    · exact hdone
    · exact h.ite h.modPart
    · exact h.beginReset
    · exact h.beginReset

theorem State.Canonical.quiesced {p : Nat} (h : s.Canonical) : (s.quiesced p).Canonical :=
  (h.abandon.clearPart.resetPages.clearQueues.flrConfig.ite h.abandon.clearPart.resetPages.clearQueues).modPart.beginWaves

theorem State.Canonical.createPart {p : Nat} (h : s.Canonical) : (s.createPart p).Canonical := by
  unfold State.createPart
  extract_lets s1 _ s2 s3 _ s4
  have hs1 : s1.Canonical := h.clearPart.zeroStack
  have hs2 : s2.Canonical := hs1.setPart
  have hs3 : s3.Canonical := hs2.setF
  have hs4 : s4.Canonical := .mk hs3
  exact hs3.ite hs4.setF.setF

theorem State.Canonical.tearDown {p : Nat} (h : s.Canonical) : (s.tearDown p).Canonical := by
  unfold State.tearDown
  extract_lets _ s1 _ s2 s3 s4
  have hs1 : s1.Canonical := .mk h
  have hs2 : s2.Canonical := hs1.abandon.clearPart.zeroStack
  have hs3 : s3.Canonical := hs2.clearQueues.resetPages
  have hs4 : s4.Canonical := hs3.emit.ite hs3
  exact hs4.setPart.setF

theorem State.Canonical.takeHeld {p : Nat} (h : s.Canonical) : (s.takeHeld p).Canonical := by
  unfold State.takeHeld
  extract_lets _ s1
  have hs1 : s1.Canonical := h.modPart
  refine hs1.foldl fun t x h => ?_
  split
  · exact h.tearDown.ite h
  · exact h.requestReset
  · exact h.requestReset

/-! ### Machine/Boundary.lean -/

theorem State.Canonical.applyPlan {pg : Nat} (h : s.Canonical) : (s.applyPlan pg).Canonical := by
  unfold State.applyPlan
  extract_lets _ _ v1 s1
  have hv1 : v1.Canonical := h.latch
  have hs1 : s1.Canonical := .mk hv1
  exact hs1.ite hs1.event

theorem State.Canonical.applyCamb {pg : Nat} (h : s.Canonical) : (s.applyCamb pg).Canonical := h.latch.readArenas.ite h.latch

theorem State.Canonical.applyStep {pg : Nat} (h : s.Canonical) : (s.applyStep pg).Canonical := by
  unfold State.applyStep
  exact .ite h (.ite (.mk h) (h.applyPlan.ite h.applyCamb))

theorem State.Canonical.passBoundary {p : Nat} (h : s.Canonical) : (s.passBoundary p).Canonical := by
  unfold State.passBoundary
  extract_lets _ s1
  have hs1 : s1.Canonical := .foldl h fun _ _ h => .mk h
  exact hs1.foldl fun _ _ h => h.applyStep

theorem State.Canonical.clampEvent {c : Nat} (h : s.Canonical) : (s.clampEvent c).Canonical := h.ite h.event

theorem State.Canonical.takeShares {c : Nat} (h : s.Canonical) : (s.takeShares c).Canonical := h.modCore.setF.clampEvent

theorem State.Canonical.newShares {c used : Nat} (h : s.Canonical) : (s.newShares c used).Canonical :=
  (h.ite h.takeShares).ite h.modCore.setF

theorem State.Canonical.applyCore {c : Nat} (h : s.Canonical) : (s.applyCore c).Canonical :=
  h.latch.modCore.newShares.ite h.latch.modCore.newShares.setF

theorem State.Canonical.slotPasses {c slot : Nat} (h : s.Canonical) : (s.slotPasses c slot).Canonical := by
  unfold State.slotPasses
  split
  · exact h
  · exact h.modCore.setF.ite h.modCore

theorem State.Canonical.evalLayer {p l : Nat} (h : s.Canonical) : (s.evalLayer p l).Canonical := by
  unfold State.evalLayer
  extract_lets
  split
  · exact h.layerBad
  · exact h.ite (h.modLayer.ite (h.modLayer.settings.incF.ite h.modLayer.settings.incF.setF.raiseF))

theorem State.Canonical.evalWatch {p : Nat} (h : s.Canonical) : (s.evalWatch p).Canonical :=
  ((h.foldl fun _ _ h => h.ite h.evalLayer).event.ite (h.foldl fun _ _ h => h.ite h.evalLayer)).modCamb

theorem State.Canonical.stepBoundary {p : Nat} (h : s.Canonical) : (s.stepBoundary p).Canonical :=
  (h.foldl fun _ _ h => h.endSpill).evalWatch.resetArenas.readArenas.passBoundary.snapTry

theorem State.Canonical.beginCommit {p : Nat} (h : s.Canonical) : (s.beginCommit p).Canonical := by
  unfold State.beginCommit
  split
  · exact h
  · exact h.modCamb.showArmed.joinScalar

theorem State.Canonical.writeStats {p : Nat} {b : List Byte} (h : s.Canonical) : (s.writeStats p b).Canonical := by
  unfold State.writeStats
  extract_lets
  split
  · exact h.satF.event
  · split
    next e => exact (h.storeRec.of_fst e).incF
    next e => exact (h.storeRec.of_fst e).satF.event

theorem State.Canonical.commit {p n2 : Nat} (h : s.Canonical) : (s.commit p n2).Canonical := by
  unfold State.commit
  split
  · exact h
  · extract_lets _ _ _ _ s1 s2 s3 s4 _ s5 s6 s7 s8 s9 s10 _ s12
    have hs1 : s1.Canonical := h.setF.setF
    have hs2 : s2.Canonical := hs1.setF.setF.ite hs1
    have hs3 : s3.Canonical := hs2.foldl fun _ _ h => h.ite h.modLayer
    have hs4 : s4.Canonical := (hs3.foldl fun _ _ h => h.storeRec.ite h).ite hs3
    have hs5 : s5.Canonical := hs4.writeStats
    have hs6 : s6.Canonical := hs5.foldl fun _ _ h => h.ite h.storeRec
    have hs7 : s7.Canonical := hs6.incF.ite (hs6.incF.event.ite hs6.incF.event)
    have hs8 : s8.Canonical := hs7.event
    have hs9 : s9.Canonical := hs8.modForme.disarm
    have hs10 : s10.Canonical := hs9.modPart
    have hs12 : s12.Canonical := hs10.finishForme
    exact hs12.stepBoundary.ite hs12

theorem State.Canonical.rewindSeq {p n : Nat} (h : s.Canonical) : (s.rewindSeq p n).Canonical :=
  h.ite (h.commitTo.modSeq.releaseSeq.ite h.commitTo.modSeq)

theorem State.Canonical.applyOwn {p : Nat} (h : s.Canonical) : (s.applyOwn p).Canonical := by
  unfold State.applyOwn
  extract_lets s1 s2
  have hs1 : s1.Canonical := h.foldl fun _ _ h => (h.applyCore.ite h).foldl fun _ _ h => h.slotPasses
  have hs2 : s2.Canonical := hs1.applyKv.ite hs1
  exact hs2.foldl fun _ _ h => h.applyCamb.ite h

theorem State.Canonical.modeBoundary {p : Nat} {target : Overlay} (h : s.Canonical) : (s.modeBoundary p target).Canonical := by
  unfold State.modeBoundary
  extract_lets _ s1 s2 s3 s4
  have hs1 : s1.Canonical := (h.foldl fun _ _ h => h.rewindSeq).ite h
  have hs2 : s2.Canonical := hs1.resetArenas.ite hs1
  have hs3 : s3.Canonical := hs2.applyOwn.passBoundary
  have hs4 : s4.Canonical := hs3.modPart
  exact hs4.foldl fun _ _ h => h.modCore.takeShares

theorem State.Canonical.crossBoundary {p : Nat} (h : s.Canonical) : (s.crossBoundary p).Canonical :=
  h.modeBoundary.enterBarrier.ite h.modeBoundary.rise

theorem State.Canonical.batchBoundary {p : Nat} (h : s.Canonical) : (s.batchBoundary p).Canonical :=
  (h.applyKv.ite h).passBoundary.snapTry.ite (h.applyKv.ite h).passBoundary

end Sys2Proof.Machine
end

