-- ==== Sys2Proof/Proofs/CanonicalFormes.lean ====
section
/-! SUPPORT. Memory stays canonical under the operations on posts, threads, tiles and formes. -/

namespace Sys2Proof.Machine

variable {s : State}

/-! ### Machine/Post.lean -/

theorem State.Canonical.refusePost {j : Nat} (h : s.Canonical) : (s.refusePost j).Canonical := h.incF.event

theorem State.Canonical.takeForme {j part slot : Nat} {bytes : List Byte} {host : Option HostRef} {core : Option Nat}
    (h : s.Canonical) :
    (s.takeForme j part slot bytes host core).Canonical := by
  unfold State.takeForme
  extract_lets _ _ s1 _ s2
  have hs1 : s1.Canonical := .incF (.mk h)
  have hs2 : s2.Canonical := hs1.countOp
  split
  · extract_lets s3
    have hs3 : s3.Canonical := by
      unfold s3
      split
      · exact hs1.event.ite hs1
      · exact hs1
    exact hs3.setForme.finishForme
  · exact hs2.setForme.ite hs1.setForme

theorem State.Canonical.waitIsMet {i : Nat} (h : s.Canonical) : (s.waitIsMet i).Canonical := by
  unfold State.waitIsMet
  split
  · exact h
  · exact h.setForme.ite h

theorem State.Canonical.countersFree {i : Nat} (h : s.Canonical) : (s.countersFree i).Canonical := by
  unfold State.countersFree
  split
  · exact h
  · exact h.setForme.ite h

theorem State.Canonical.holdPlan {x : Forme} {ps : List Plan} (h : s.Canonical) : (s.holdPlan x ps).Canonical := by
  unfold State.holdPlan
  extract_lets
  exact .mk h

theorem State.Canonical.showPlan {x : Forme} {b : Nat} {p : Plan} (h : s.Canonical) : (s.showPlan x b p).Canonical :=
  h.setReg.setF

theorem State.Canonical.setClaims {x : Forme} {tiles : List Nat} (h : s.Canonical) : (s.setClaims x tiles).Canonical :=
  h.foldl fun _ _ h => h.countOp.setReg.setValue

theorem State.Canonical.countPlan {x : Forme} {pl : Planned} (h : s.Canonical) : (s.countPlan x pl).Canonical := by
  unfold State.countPlan
  extract_lets _ s1 s2 s3
  have hs1 : s1.Canonical := h.incF.ite h
  have hs2 : s2.Canonical := hs1.ite hs1.incF
  have hs3 : s3.Canonical := hs2.event.ite hs2
  exact hs3.ite hs3.holdPlan

theorem State.Canonical.runTiles {i : Nat} {pl : Planned} (h : s.Canonical) : (s.runTiles i pl).Canonical :=
  ((h.setClaims.foldl fun _ _ h => h.setReg).ite h.setClaims).countPlan.showPlan.modForme

theorem State.Canonical.tileFault {i core : Nat} {f : AccFault} {addr : Nat} (h : s.Canonical) :
    (s.tileFault i core f addr).Canonical :=
  h.faultRecord.formeFault

theorem State.Canonical.cacheRows {i : Nat} (h : s.Canonical) : (s.cacheRows i).Canonical := by
  unfold State.cacheRows
  extract_lets _ _ s1
  have hs1 : s1.Canonical := h.validateRows
  split
  · exact h
  · split
    next e => exact hs1.writeCache.of_fst e
    next e => exact (hs1.writeCache.of_fst e).faultRecord.formeFault

theorem State.Canonical.planFails {i : Nat} {e : PlanErr} (h : s.Canonical) : (s.planFails i e).Canonical := by
  unfold State.planFails
  extract_lets _ s1 s2 s3 s4
  have hs1 : s1.Canonical := by
    unfold s1
    split
    · exact h.faultRecord
    · exact h
  have hs2 : s2.Canonical := hs1.ite hs1.incF
  have hs3 : s3.Canonical := hs2.event.ite hs2
  have hs4 : s4.Canonical := hs3.event.ite hs3
  exact hs4.finishForme

theorem State.Canonical.planEnds {i : Nat} (h : s.Canonical) : (s.planEnds i).Canonical := by
  unfold State.planEnds
  split
  · exact h.planFails
  · exact h.runTiles.cacheRows

theorem State.Canonical.rowsReach {i : Nat} (h : s.Canonical) : (s.rowsReach i).Canonical := by
  unfold State.rowsReach
  split
  · exact h
  · exact h.planEnds.ite h

theorem State.Canonical.formePlanned {i : Nat} (h : s.Canonical) : (s.formePlanned i).Canonical := by
  unfold State.formePlanned
  split
  · exact h
  · split
    · exact h
    · split
      · exact h.planFails.ite h.setClaims.countPlan.showPlan.finishForme
      · split
        · exact h.planFails
        · exact h.ite h.modForme.startColl.collSweep
      · split
        · exact h.planFails
        · exact h.modForme.beginSwitch
      · split
        · exact h.planFails
        · split
          · exact h.planFails
          · exact h.modForme.arm
      · split
        · exact h.ite (h.modKv.ite h.planEnds)
        · extract_lets _ s1
          have hs1 : s1.Canonical := h.setClaims.countPlan.showPlan
          split
          · exact h.planFails
          · exact h.planFails.ite hs1.modForme.modKv

theorem State.Canonical.tryEnd {i : Nat} (h : s.Canonical) : (s.tryEnd i).Canonical := by
  unfold State.tryEnd
  split
  · exact h
  · exact h.endStep2.endStep3.ite (h.finishForme.ite h)

theorem State.Canonical.endFormes (h : s.Canonical) : s.endFormes.Canonical := h.foldl fun _ _ h => h.tryEnd

theorem State.Canonical.flushPlans {j : Nat} (h : s.Canonical) : (s.flushPlans j).Canonical := by
  unfold State.flushPlans
  extract_lets _ s1
  have hs1 : s1.Canonical := .mk h
  exact hs1.event.ite hs1

/-! ### Machine/Errors.lean -/

theorem State.Canonical.countCe {kind : Nat} (h : s.Canonical) : (s.countCe kind).Canonical := h.of_mem rfl

theorem State.Canonical.correctedAt {a : Nat} (h : s.Canonical) : (s.correctedAt a).Canonical :=
  h.satF.setF.setF.countCe.event.ite h.satF.setF.setF.countCe

theorem State.Canonical.correctedGalley {core : Nat} (h : s.Canonical) : (s.correctedGalley core).Canonical :=
  h.satF.event.countCe

theorem State.Canonical.correctedLoc {l : Loc} (h : s.Canonical) : (s.correctedLoc l).Canonical := by
  unfold State.correctedLoc
  split
  · exact h.correctedGalley
  · exact h.correctedAt
  · exact h

theorem State.Canonical.linkAt {a : Nat} {retried : Bool} (h : s.Canonical) : (s.linkAt a retried).Canonical :=
  h.ite (h.countCe.satF.event.ite h.countCe.satF)

theorem State.Canonical.linkLoc {l : Loc} {retried : Bool} (h : s.Canonical) : (s.linkLoc l retried).Canonical := by
  unfold State.linkLoc
  split
  · exact h.linkAt
  · exact h

theorem State.Canonical.recordUnused {p : Nat} {r : ErrRec} (h : s.Canonical) : (s.recordUnused p r).Canonical :=
  h.fileRecord.history

theorem State.Canonical.contain {p : Nat} {r : ErrRec} (h : s.Canonical) : (s.contain p r).Canonical :=
  h.errRecord.stopPartition.ite h.recordUnused

theorem State.Canonical.uncorrectable {a symbols addr : Nat} {link : Bool} (h : s.Canonical) :
    (s.uncorrectable a symbols addr link).Canonical := by
  unfold State.uncorrectable
  extract_lets _ s1 s2 s3 _ s4
  have hs1 : s1.Canonical := h.ite h.damage
  have hs2 : s2.Canonical := hs1.satF.event
  have hs3 : s3.Canonical := hs2.event.ite hs2
  have hs4 : s4.Canonical := hs3.errRecordAll
  split
  · exact hs3.contain
  · exact hs4.foldl fun _ _ h => h.stopPartition

theorem State.Canonical.galleyUe {core off symbols addr : Nat} (h : s.Canonical) : (s.galleyUe core off symbols addr).Canonical :=
  h.damage.contain

theorem State.Canonical.remoteUe {p ctx addr : Nat} (h : s.Canonical) : (s.remoteUe p ctx addr).Canonical := h.contain

theorem State.Canonical.hostFail {p unit addr bus : Nat} (h : s.Canonical) : (s.hostFail p unit addr bus).Canonical := h.contain

theorem State.Canonical.errorAt {p unit : Nat} {l : Loc} {symbols addr : Nat} {link : Bool} (h : s.Canonical) :
    (s.errorAt p unit l symbols addr link).Canonical := by
  unfold State.errorAt
  split
  · exact h.galleyUe
  · exact h.uncorrectable
  · exact h.hostFail
  · exact h.remoteUe

theorem State.Canonical.correctedFor {p : Nat} {l : List (BitVec 48)} (h : s.Canonical) : (s.correctedFor p l).Canonical :=
  h.foldl fun _ _ h => h.correctedAt.ite h

theorem State.Canonical.linksFor {p : Nat} {l : List (BitVec 48 × Bool)} (h : s.Canonical) : (s.linksFor p l).Canonical :=
  h.foldl fun _ _ h => h.linkAt.ite h

theorem State.Canonical.scrub {inst : Nat} {found : ScrubFound} (h : s.Canonical) : (s.scrub inst found).Canonical := by
  unfold State.scrub
  extract_lets _ _ _ s2 s3 _ s4 s5
  have hs2 : s2.Canonical := h.foldl fun _ _ h => h.correctedAt.ite h
  have hs3 : s3.Canonical := hs2.foldl fun _ _ h => h.linkAt.ite h
  have hs4 : s4.Canonical := hs3.setF.incF.event.ite hs3.setF
  have hs5 : s5.Canonical := hs4.foldl fun _ _ h => h.uncorrectable
  split
  · exact hs5.uncorrectable.ite hs5
  · exact hs5

theorem State.Canonical.containment {e : ErrorEvent} (h : s.Canonical) : (s.containment e).Canonical := by
  unfold State.containment
  split
  · exact h.galleyUe
  · exact h.uncorrectable
  · exact h.remoteUe
  · exact h.hostFail
  · exact h.correctedAt
  · exact h.correctedGalley
  · exact h.linkAt

/-! ### Machine/Arb.lean -/

theorem State.Canonical.arbPick {c unit k : Nat} {ready : List Nat} {u : State} (h : s.Canonical)
    (e : s.arbPick c unit ready = some (k, u)) : u.Canonical := by
  unfold State.arbPick at e
  dsimp only at e
  split at e
  · cases e
    exact h.modCore.incF.event
  · split at e
    · obtain ⟨_, _, e⟩ := Option.map_eq_some_iff.1 e
      cases e
      exact h.modCore
    · split at e
      · cases e
      · cases e
        exact h.modCore

theorem State.Canonical.unitTurn {c t unit : Nat} {u : State} (h : s.Canonical) (e : s.unitTurn c t unit = some u) :
    u.Canonical := by
  unfold State.unitTurn at e
  split at e
  · cases e
  · split at e
    next e' =>
      split_ifs at e
      cases e
      exact h.arbPick e'
    next => cases e

/-! ### Machine/Threads.lean -/

theorem State.Canonical.feed {c t : Nat} (h : s.Canonical) : (s.feed c t).Canonical :=
  (h.ite h.fetchLine).ite (h.ite h.modTh.fetchLine)

theorem State.Canonical.goTo {c t : Nat} {x : Thread} {pc : Nat} (h : s.Canonical) : (s.goTo c t x pc).Canonical :=
  h.setTh.issued.feed

theorem State.Canonical.goOn {c t : Nat} {x : Thread} (h : s.Canonical) : (s.goOn c t x).Canonical := h.goTo

theorem State.Canonical.readErrors {at_ : List (Loc × Nat)} {corrected : List Nat} {links : List (Nat × Bool)} (h : s.Canonical) :
    (s.readErrors at_ corrected links).Canonical := by
  unfold State.readErrors
  extract_lets s1
  have hs1 : s1.Canonical := by
    unfold s1
    refine h.foldl fun t x h => ?_
    split
    · exact h.correctedLoc
    · exact h
  refine hs1.foldl fun t x h => ?_
  split
  · exact h.linkLoc
  · exact h

theorem State.Canonical.arrival {p c addr : Nat} {at_ : List (Loc × Nat)} {known : List (Option Byte)} {how : Arrival}
    {take : State → List Byte → State} (h : s.Canonical) (htake : ∀ a0 a1, a0.Canonical → (take a0 a1).Canonical) :
    (s.arrival p c addr at_ known how take).Canonical := by
  unfold State.arrival
  split
  · exact h.errorAt
  · split
    · split
      · exact h
      · exact h.ite h.errorAt
    · split
      · exact htake _ _ h.readErrors
      · exact h
    · split
      · exact htake _ _ h
      · exact (htake _ _ h).ite h

theorem State.Canonical.lineArrives {c t : Nat} {how : Arrival} (h : s.Canonical) : (s.lineArrives c t how).Canonical := by
  unfold State.lineArrives
  extract_lets
  split
  · exact h
  · extract_lets
    split
    · exact h.endProgram
    · split
      · exact h.threadFault
      · exact h
      · exact h.arrival (fun _ _ h => h.setTh.feed)

theorem State.Canonical.stall {c t : Nat} (h : s.Canonical) : (s.stall c t).Canonical := h.modTh

theorem State.Canonical.instr {c t w : Nat} {uses : List (Bool × Nat)} {g : Thread → State} (h : s.Canonical)
    (hg : ∀ a0, (g a0).Canonical) :
    (s.instr c t w uses g).Canonical := by
  unfold State.instr
  extract_lets
  split
  · exact h
  · split
    · exact h.stall
    · exact h.ite (h.stall.ite (h.ite (h.endProgram.ite (hg _))))

theorem State.Canonical.scalar {c t w d : Nat} {uses : List Nat} {f : Thread → Nat} (h : s.Canonical) :
    (s.scalar c t w d uses f).Canonical :=
  h.instr (fun _ => h.goOn)

theorem State.Canonical.unitInstr {c t w : Nat} {uses : List (Bool × Nat)} {g : State → Thread → State} (h : s.Canonical)
    (hg : ∀ a0 a1, a0.Canonical → (g a0 a1).Canonical) :
    (s.unitInstr c t w uses g).Canonical := by
  unfold State.unitInstr
  refine h.instr (fun _ => ?_)
  split
  next e => exact hg _ _ (h.unitTurn e)
  · exact h

theorem State.Canonical.vector {c t w d : Nat} {uses : List (Bool × Nat)} {f : Thread → VReg × Nat} (h : s.Canonical) :
    (s.vector c t w d uses f).Canonical :=
  h.unitInstr (fun _ _ h => h.goOn)

theorem State.Canonical.branch {c t w d a imm : Nat} {test : Nat → Nat → Bool} (h : s.Canonical) :
    (s.branch c t w d a imm test).Canonical :=
  h.instr (fun _ => h.goTo.ite h.goOn)

theorem State.Canonical.issueLoad {c t : Nat} {x : Thread} {vec : Bool} {reg n align addr : Nat} (h : s.Canonical) :
    (s.issueLoad c t x vec reg n align addr).Canonical := by
  unfold State.issueLoad
  extract_lets
  split
  · exact h.endProgram
  · split
    · exact h.threadFault
    · exact h.threadFault
    · extract_lets _ s1
      have hs1 : s1.Canonical := by
        unfold s1
        split
        · exact h.remoteRead
        · exact h
      exact hs1.tlbUse.goOn

theorem State.Canonical.loadArrives {c t k : Nat} {how : Arrival} (h : s.Canonical) : (s.loadArrives c t k how).Canonical := by
  unfold State.loadArrives
  extract_lets
  split
  · exact h
  · exact h.arrival (fun _ _ h => h.setTh)

theorem State.Canonical.issueStore {c t : Nat} {x : Thread} {align addr : Nat} {b : List Byte} (h : s.Canonical) :
    (s.issueStore c t x align addr b).Canonical := by
  unfold State.issueStore
  extract_lets
  split
  · exact h.endProgram
  · split
    next e => exact (h.store.of_fst e).threadFault
    next e => exact (h.store.of_fst e).tlbUse.goOn

theorem State.Canonical.storeAck {c t k : Nat} (h : s.Canonical) : (s.storeAck c t k).Canonical := by
  unfold State.storeAck
  extract_lets
  split
  · exact h
  · exact h.ite h.setTh

theorem State.Canonical.outOfRangeCtr {c t : Nat} (h : s.Canonical) : (s.outOfRangeCtr c t).Canonical := h.event.endProgram

theorem State.Canonical.syncOp {c t d a b f : Nat} {uses : List Nat} {g : Thread → Nat → State} (h : s.Canonical)
    (hg : ∀ a0 a1, (g a0 a1).Canonical) :
    (s.syncOp c t d a b f uses g).Canonical :=
  h.instr (fun _ => h.outOfRangeCtr.ite (hg _ _))

theorem State.Canonical.waitOp {c t : Nat} {x : Thread} {d b ctr : Nat} (h : s.Canonical) : (s.waitOp c t x d b ctr).Canonical :=
  h.countOp.goOn.ite h.countOp.goOn

theorem State.Canonical.waitExpires {c t : Nat} (h : s.Canonical) : (s.waitExpires c t).Canonical := by
  unfold State.waitExpires
  extract_lets
  split
  · exact h.setTh.event.ite h
  · exact h

theorem State.Canonical.claimSetOp {c t : Nat} {x : Thread} {d first count : Nat} (h : s.Canonical) :
    (s.claimSetOp c t x d first count).Canonical := by
  unfold State.claimSetOp
  extract_lets
  split
  next e => exact ((h.claimSetLoop (fun _ _ h => h.opClaim)).of_fst e).goOn
  next e => exact ((h.claimSetLoop (fun _ _ h => h.opClaim)).of_fst e).goOn

theorem State.Canonical.postOp {c t : Nat} {x : Thread} {addr : Nat} (h : s.Canonical) : (s.postOp c t x addr).Canonical := by
  unfold State.postOp
  extract_lets _ _ s1 v1
  have hs1 : s1.Canonical := h.ite h.refusePost
  have hv1 : v1.Canonical := hs1.setTh.issued
  split
  · exact h.endProgram
  · split
    · exact .mk hv1
    · split
      · exact h.threadFault
      · exact h.goOn.takeForme

theorem State.Canonical.postRetry {c t : Nat} (h : s.Canonical) : (s.postRetry c t).Canonical := by
  unfold State.postRetry
  extract_lets
  exact .ite h (.postOp (.mk h))

theorem State.Canonical.startOp {c t : Nat} {x : Thread} {d a b slot : Nat} (h : s.Canonical) :
    (s.startOp c t x d a b slot).Canonical :=
  h.outOfRangeCtr.ite h.goOn.startReq

/-! ### Machine/Tiles.lean -/

theorem State.Canonical.claimTile {i core : Nat} (h : s.Canonical) : (s.claimTile i core).1.Canonical := by
  unfold State.claimTile
  refine .ite_fst (State.Canonical.modForme ?_) h.claimRaw
  exact h.claimSetLoop fun _ _ h => h.claimRaw

theorem State.Canonical.popQueue {core slot : Nat} (h : s.Canonical) : (s.popQueue core slot).Canonical :=
  h.modCore.ite h.modCore.slotPasses

theorem State.Canonical.fetchRemote {i core : Nat} {t : Tile} (h : s.Canonical) : (s.fetchRemote i core t).Canonical := by
  unfold State.fetchRemote
  extract_lets
  refine h.foldl fun t x h => ?_
  split
  · exact h.remoteRead
  · exact h

theorem State.Canonical.claimReturn {i core : Nat} (h : s.Canonical) : (s.claimReturn i core).Canonical := by
  unfold State.claimReturn
  split
  · exact h
  · extract_lets
    split
    next e =>
      have ht := h.claimTile.of_fst e
      extract_lets
      exact .fetchRemote (.mk ht)
    next e => exact (h.claimTile.of_fst e).popQueue

theorem State.Canonical.chunkStaged {core i : Nat} {corrected : List (BitVec 48)} (h : s.Canonical) :
    (s.chunkStaged core i corrected).Canonical := by
  unfold State.chunkStaged
  extract_lets
  split
  · exact h.correctedFor.modTile
  · split
    · exact h.correctedFor.modTile
    · exact h

theorem State.Canonical.raiseFlags {c fl : Nat} (h : s.Canonical) : (s.raiseFlags c fl).Canonical :=
  (h.raise.event.ite h.raise).event.ite (h.raise.event.ite h.raise)

theorem State.Canonical.proofCount {c : Nat} (h : s.Canonical) : (s.proofCount c).1.Canonical := h.modCore.ite_fst h.modCore

theorem State.Canonical.takesPart {i c : Nat} (h : s.Canonical) : (s.takesPart i c).Canonical := h.modForme

theorem State.Canonical.beginTile {t : Tile} (h : s.Canonical) : (s.beginTile t).Canonical := by
  unfold State.beginTile
  extract_lets _ _ _ _ _ s1 bad s2 _ s3 r1 s4
  have hs1 : s1.Canonical := h.modForme.ite h
  have hs2 : s2.Canonical := hs1.foldl fun _ _ h => h.tlbUse.tlbUse
  have hs3 : s3.Canonical := hs2.ite hs2.raiseFlags
  have hr1 : r1.1.Canonical := hs3.proofCount.ite_fst hs3
  have hs4 : s4.Canonical := hr1.takesPart.modTile
  clear_value bad
  split
  · exact hs4.tileFault
  · exact hs4

theorem State.Canonical.platenIssues {c : Nat} (h : s.Canonical) : (s.platenIssues c).Canonical := h.modCore

theorem State.Canonical.pickTile {c unit : Nat} (h : s.Canonical) : (s.pickTile c unit).Canonical := by
  unfold State.pickTile
  split
  · exact h
  · split
    · exact h
    next e =>
      have ht := h.arbPick e
      split
      · exact (ht.platenIssues.ite ht).beginTile
      · exact h

theorem State.Canonical.tileBegin {c unit : Nat} (h : s.Canonical) : (s.tileBegin c unit).Canonical :=
  h.ite (h.pickTile.ite (h.ite h.idleRestart.pickTile))

theorem State.Canonical.epilogueStart {c i : Nat} (h : s.Canonical) : (s.epilogueStart c i).Canonical := by
  unfold State.epilogueStart
  extract_lets
  split
  · exact h
  · extract_lets
    split
    · exact h
    · split
      · exact h
      · exact (h.foldl fun _ _ h => h.poke).modTile.startReq

theorem State.Canonical.writeRuns {i core seed : Nat} {l : List OutRow} (h : s.Canonical) :
    (s.writeRuns i core seed l).1.Canonical := by
  unfold State.writeRuns
  split
  next e => exact h.writeOuts.of_fst e
  next e => exact (h.writeOuts.of_fst e).writeZmap

theorem State.Canonical.countOor {i n : Nat} (h : s.Canonical) : (s.countOor i n).Canonical := h.modForme

theorem State.Canonical.writeTile {t : Tile} (h : s.Canonical) : (s.writeTile t).1.Canonical := by
  unfold State.writeTile
  extract_lets _ _ _ _ maps
  have hmaps : ∀ r, r.1.Canonical → (maps r).1.Canonical := by
    intro r h
    unfold maps
    split
    · exact h
    · exact State.Canonical.writeZmap h
  split
  · exact h.writeRuns
  · exact h.countOor.writeRuns
  · exact h.writeRuns
  · exact h.writeRuns
  · exact h.writeRuns
  · exact h.countOor.writeRuns
  · exact hmaps _ (h.gatherTile :)
  · exact hmaps _ h.scatterTile
  · exact h.writeRuns.ite_fst h.writeRuns

theorem State.Canonical.tileEnd {c i : Nat} (h : s.Canonical) : (s.tileEnd c i).Canonical := by
  unfold State.tileEnd
  split
  · exact h
  · extract_lets
    split
    next e => exact .mk (h.writeTile.of_fst e).tileFault
    next e => exact .mk (h.writeTile.of_fst e).formeFault
    next e =>
      have ht := h.writeTile.of_fst e
      extract_lets s1
      have hs1 : s1.Canonical := .incF (.mk ht)
      exact hs1.modForme

theorem State.Canonical.tileAccessFault {i c addr : Nat} {write : Bool} (h : s.Canonical) :
    (s.tileAccessFault i c addr write).Canonical := by
  unfold State.tileAccessFault
  extract_lets
  split
  · split
    · exact (h.arenaWrite.ite h).tileFault
    · exact h
  · exact h

theorem State.Canonical.reportEnd {i c : Nat} (h : s.Canonical) : (s.reportEnd i c).Canonical := by
  unfold State.reportEnd
  extract_lets _ _ _ _ done s1 s2
  have hs1 : s1.Canonical := h.modCore
  have hs2 : s2.Canonical := h.popQueue
  split
  · exact h
  · split
    · split
      · exact h
      · unfold done
        extract_lets s3
        have hs3 : s3.Canonical := .mk h
        exact hs3.modForme.tryEnd
    · split
      · exact h
      · split
        · unfold done
          extract_lets s3
          have hs3 : s3.Canonical := .mk (hs1.slotPasses.ite hs1)
          exact hs3.modForme.tryEnd
        · split
          · unfold done
            extract_lets s3
            have hs3 : s3.Canonical := .mk hs2.takesPart.modForme
            exact hs3.modForme.tryEnd
          · exact h

theorem State.Canonical.markSuspect {c cause : Nat} (h : s.Canonical) : (s.markSuspect c cause).Canonical :=
  h.ite h.raise.history.event

theorem State.Canonical.proofRecord {c base : Nat} {b : List Byte} (h : s.Canonical) : (s.proofRecord c base b).Canonical := by
  unfold State.proofRecord
  extract_lets
  split
  · exact h.satF.event
  · split
    next e => exact (h.storeRec.of_fst e).incF
    next e => exact (h.storeRec.of_fst e).satF.event

theorem State.Canonical.proofMismatch {c ring : Nat} {x : Forme} {p : Plan} {row col : Nat} {v : Nat × Nat × Nat}
    (h : s.Canonical) :
    (s.proofMismatch c ring x p row col v).Canonical := by
  unfold State.proofMismatch
  extract_lets _ _ s1 s2 s3 _ _ s4
  have hs1 : s1.Canonical := h.satF.event
  have hs2 : s2.Canonical := hs1.ite hs1.setF.setF.raiseF
  have hs3 : s3.Canonical := hs2.modLayer.ite hs2
  have hs4 : s4.Canonical := hs3.proofRecord
  exact .ite hs4.markSuspect (.mk hs4)

theorem State.Canonical.proofComplete {c i : Nat} {upset : List (Nat × Nat)} (h : s.Canonical) :
    (s.proofComplete c i upset).Canonical := by
  unfold State.proofComplete
  extract_lets
  split
  · exact h
  · split
    · exact h
    · extract_lets _ _ _ _ done
      have hdone : done.Canonical := h.modTile.incF
      split
      · exact h
      · split
        · exact hdone
        · exact hdone.proofMismatch

theorem State.Canonical.proofTime {c : Nat} (h : s.Canonical) : (s.proofTime c).Canonical := h.modCore.ite h

theorem State.Canonical.postArrives {i c : Nat} (h : s.Canonical) : (s.postArrives i c).Canonical :=
  h.ite (h.slotPasses.ite h).modCore.modForme.incF

theorem State.Canonical.reducerUpdate {index : Nat} (h : s.Canonical) : (s.reducerUpdate index).Canonical := by
  unfold State.reducerUpdate
  split
  · exact h
  · extract_lets _ _ _ _ s1 s2
    have hs1 : s1.Canonical := .performUpdate (.mk h)
    have hs2 : s2.Canonical := hs1.ite hs1.modForme.writeZmap
    exact h.ite hs2.tryEnd

/-! ### Machine/Formes.lean -/

theorem State.Canonical.postForme {c : Fin 256} {slot : Fin 4} {b : BitVec 512} {is : Bool} (h : s.Canonical) :
    (s.postForme c slot b is).Canonical := by
  unfold State.postForme
  extract_lets _ _ s1
  have hs1 : s1.Canonical := h.refusePost
  exact .ite h (.ite (.mk hs1) h.takeForme)

theorem State.Canonical.retryPost {j : Nat} (h : s.Canonical) : (s.retryPost j).Canonical := by
  unfold State.retryPost
  split
  · extract_lets
    exact .ite h (.takeForme (.mk h))
  · exact h

end Sys2Proof.Machine
end

