-- ==== Sys2Proof/Proofs/CanonicalServices.lean ====
section
/-! SUPPORT. Memory stays canonical under the operations on training, generation, coppice, intake and links. -/

namespace Sys2Proof.Machine

variable {s : State}

/-! ### Machine/Train.lean -/

theorem State.Canonical.blockComes {unit : Nat} (h : s.Canonical) : (s.blockComes unit).Canonical := by
  unfold State.blockComes
  split
  · exact h
  · exact .ite h (.blockArrives (.mk h))

theorem State.Canonical.blockWritten {unit : Nat} (h : s.Canonical) : (s.blockWritten unit).Canonical := by
  unfold State.blockWritten
  extract_lets
  split
  · exact h
  · exact h.modCamb.showIntake.beginCommit.ite h.modCamb.showIntake

theorem State.Canonical.normDone {p : Nat} (h : s.Canonical) : (s.normDone p).Canonical := by
  unfold State.normDone
  split
  · exact h
  · exact h.endColl.commit

theorem State.Canonical.updateExpires {p : Nat} (h : s.Canonical) : (s.updateExpires p).Canonical := by
  unfold State.updateExpires
  split
  · exact h
  · exact h.abortUpdate.ite h

/-! ### Machine/Generate.lean -/

theorem State.Canonical.kvFinish {p i : Nat} (h : s.Canonical) : (s.kvFinish p i).Canonical := by
  unfold State.kvFinish
  extract_lets
  split
  · exact h
  · split
    · exact h.finishForme
    · exact h

theorem State.Canonical.kvPop {p : Nat} (h : s.Canonical) : (s.kvPop p).Canonical := h.modKv

theorem State.Canonical.kvFault {p i : Nat} {f : AccFault} {a : Nat} (h : s.Canonical) : (s.kvFault p i f a).Canonical :=
  h.faultRecord.modKv.finishForme

theorem State.Canonical.refillAll {p : Nat} (h : s.Canonical) : (s.refillAll p).Canonical := h.modKv

theorem State.Canonical.peekNow {p table i : Nat} (h : s.Canonical) : (s.peekNow p table i).Canonical := h.setRegs.setF.setF

theorem State.Canonical.kvFront {p : Nat} (h : s.Canonical) : (s.kvFront p).Canonical := by
  unfold State.kvFront
  split
  · exact h
  · exact h.kvPop.rowsReach
  · exact h.kvPop.refillAll
  · exact h.kvPop.peekNow
  · split
    · exact h.kvPop.kvFinish.ite h
    · exact h.kvFault
    · exact h

theorem State.Canonical.kvSettle {p : Nat} (h : s.Canonical) : (s.kvSettle p).Canonical := h.ite (h.foldl fun _ _ h => h.kvFront)

theorem State.Canonical.kvResult {p i status w1 w2 w3 : Nat} (h : s.Canonical) : (s.kvResult p i status w1 w2 w3).Canonical := by
  unfold State.kvResult
  extract_lets
  split
  next => exact h.kvFault
  next => exact h
  next e =>
    have ht : State.Canonical _ := h.kvWrite.of_ok e
    exact ((ht.incF.ite ht).ite (ht.incF.ite ht).modForme).modKv.kvSettle

theorem State.Canonical.kvAnswer {p i : Nat} {b : List Byte} {r : KvRes} (h : s.Canonical)
    (hr : KvKept (fun r => r.1.Canonical) r) :
    (s.kvAnswer p i b r).Canonical := by
  unfold State.kvAnswer
  extract_lets
  split
  · exact State.Canonical.ite hr (State.Canonical.kvResult hr)
  · exact h.kvResult
  · exact State.Canonical.kvResult hr
  · exact h.kvFault

theorem State.Canonical.kvServe {p : Nat} {is : Forme → List Byte → Bool} {act : State → Nat → List Byte → State}
    (h : s.Canonical) (hact : ∀ a0 a1 a2, a0.Canonical → (act a0 a1 a2).Canonical) :
    (s.kvServe p is act).Canonical := by
  unfold State.kvServe
  extract_lets s1 s2
  have hs1 : s1.Canonical := h.kvSettle
  have hs2 : s2.Canonical := hs1.kvArm
  split
  · split
    · exact hs1
    · split
      · exact hs2.kvFault
      · exact hs2
      · exact (hact _ _ _ hs2).ite hs2
  · exact hs1

theorem State.Canonical.admitNext {p : Nat} (h : s.Canonical) : (s.admitNext p).Canonical := by
  refine h.kvServe fun s i b h => ?_
  extract_lets r1 s1
  have hr1 : KvKept (fun r => r.1.Canonical) r1 := h.admitEntry
  have hs1 : s1.Canonical := by
    unfold s1
    clear_value r1
    split
    · exact h.event.ite h
    · exact h
  exact hs1.kvAnswer hr1

theorem State.Canonical.scheduleNext {p : Nat} (h : s.Canonical) : (s.scheduleNext p).Canonical :=
  h.kvServe (fun _ _ _ h => h.batchBoundary.kvAnswer h.batchBoundary.scheduleEntry)

theorem State.Canonical.advanceNext {p : Nat} (h : s.Canonical) : (s.advanceNext p).Canonical :=
  h.kvServe (fun _ _ _ h => h.modKv.ite (h.kvAnswer h.advanceEntry))

theorem State.Canonical.advanceAgain {p : Nat} (h : s.Canonical) : (s.advanceAgain p).Canonical := h.modKv.advanceNext.ite h

theorem State.Canonical.copyOne {p : Nat} {q : KvSeq} {out : Bool} {j b : Nat} (h : s.Canonical) :
    (s.copyOne p q out j b).Canonical := by
  unfold State.copyOne
  extract_lets
  split
  · exact h.faultRecord
  · exact h.storeRec

theorem State.Canonical.endCopy {p n : Nat} {c : KvCopy} {counter : Fld} {kind st : Nat} (h : s.Canonical) :
    (s.endCopy p n c counter kind st).Canonical :=
  (h.modKv.releaseSeq.ite h.modKv.modSeq.incF.ringWrite).kvFinish

theorem State.Canonical.swapOutDone {p n : Nat} (h : s.Canonical) : (s.swapOutDone p n).Canonical := by
  unfold State.swapOutDone
  split
  · exact h
  · extract_lets _ s1
    have hs1 : s1.Canonical := h.foldl fun _ _ h => h.copyOne.modKv.modSeq
    split
    · exact h.faultRecord
    · exact hs1.endCopy

theorem State.Canonical.swapInDone {p n : Nat} (h : s.Canonical) : (s.swapInDone p n).Canonical := by
  unfold State.swapInDone
  split
  · exact h
  · extract_lets _ s1
    have hs1 : s1.Canonical := h.foldl fun _ _ h => h.copyOne.modSeq
    split
    · exact h.faultRecord
    · exact hs1.endCopy

theorem State.Canonical.refillTick {p : Nat} (h : s.Canonical) : (s.refillTick p).Canonical := h.modKv.kvSettle.ite h

theorem State.Canonical.ringDelay {p vec : Nat} (h : s.Canonical) : (s.ringDelay p vec).Canonical := by
  unfold State.ringDelay
  split
  · exact h
  · exact h.interrupt.ite h

/-! ### Machine/Coppice.lean -/

theorem State.Canonical.barrierDone {p : Nat} (h : s.Canonical) : (s.barrierDone p).Canonical := by
  unfold State.barrierDone
  extract_lets c1
  clear_value c1
  split
  · exact h
  · exact h.endColl.modSw.planPump.ite h.endColl

theorem State.Canonical.planExpires {p : Nat} (h : s.Canonical) : (s.planExpires p).Canonical := by
  unfold State.planExpires
  extract_lets
  split
  · exact h.endPlan.ite h
  · exact h

/-! ### Machine/Intake.lean -/

theorem State.Canonical.applyIntake (h : s.Canonical) : s.applyIntake.Canonical := by
  unfold State.applyIntake
  extract_lets _ s1
  have hs1 : s1.Canonical := by
    unfold s1
    refine h.foldl fun t x h => ?_
    split
    · exact h
    · extract_lets
      exact .event (.mk h)
  exact hs1.latch

theorem State.Canonical.applyIntkIdle {e : Nat} (h : s.Canonical) : (s.applyIntkIdle e).Canonical :=
  (h.applyIntake.ite h.latch).ite h

theorem State.Canonical.writeScratch {w : Acc} {a n : Nat} (h : s.Canonical) : (s.writeScratch w a n).1.Canonical := by
  unfold State.writeScratch
  extract_lets
  exact .wr (.mk h)

theorem State.Canonical.takeJob {p : Nat} (h : s.Canonical) : (s.takeJob p).Canonical := by
  unfold State.takeJob
  extract_lets _ _ _ _ got _ s1 s2
  have hs1 : s1.Canonical := h.modIntk
  have hs2 : s2.Canonical := hs1.opAdd.ite hs1
  clear_value got
  split
  · exact hs2.jobAccess
  · extract_lets _ s3
    have hs3 : s3.Canonical := hs2.modIntk
    split
    · split
      · exact hs3.jobAccess
      · exact hs3.jobFault
    · split
      · extract_lets _ r1
        have hr1 : r1.1.Canonical := hs3.modJob.writeScratch
        split
        · exact hr1.jobAccess
        · exact hr1.beginSample
      · exact hs3.modJob.beginSample

theorem State.Canonical.sampleFault {p j n e : Nat} {f : AccFault × Nat} (h : s.Canonical) :
    (s.sampleFault p j n e f).Canonical :=
  h.faultRecord.rejectSample

theorem State.Canonical.startStream {p j : Nat} {hd : StreamHeader} (h : s.Canonical) : (s.startStream p j hd).Canonical := by
  unfold State.startStream
  split
  · exact h
  · split
    · exact h
    · split
      · exact h.endSample.ite h.rejectSample
      · split
        · exact h.sampleFault
        · split
          · exact h.rejectSample
          · exact h.modStream.servePool.beginSample

theorem State.Canonical.putEngine {e p j n cls : Nat} (h : s.Canonical) : (s.putEngine e p j n cls).Canonical := by
  unfold State.putEngine
  extract_lets _ s1
  have hs1 : s1.Canonical := .mk h
  exact hs1.setF.setF.setF

theorem State.Canonical.allocFrame {p j n : Nat} (h : s.Canonical) : (s.allocFrame p j n).Canonical := h.modStream

theorem State.Canonical.grantEngine {e : Nat} {isRef : Bool} (h : s.Canonical) : (s.grantEngine e isRef).Canonical := by
  unfold State.grantEngine
  split
  · exact h
  · split
    · exact h
    · split
      · exact h
      · split
        · exact h
        · split
          · exact h.staleSample.ite h.putEngine
          · split
            · exact h.staleSample
            · split
              · exact h.sampleFault
              · exact (h.allocFrame.ite h).putEngine.modStream

theorem State.Canonical.abandonSample {e p j n cycles : Nat} (h : s.Canonical) : (s.abandonSample e p j n cycles).Canonical := by
  unfold State.abandonSample
  extract_lets _ s1
  have hs1 : s1.Canonical := h.incF.incF2.setF
  exact .applyIntkIdle (.rejectSample (.mk hs1))

theorem State.Canonical.writeFrameBytes {p e slot : Nat} {b : List Byte} (h : s.Canonical) :
    (s.writeFrameBytes p e slot b).1.Canonical :=
  h.wr.ite_fst h

theorem State.Canonical.holdPicture {p j e : Nat} {x : IntkJob} {t : IntkStream} {hd : StreamHeader} {f : IntkFrame}
    {isRef : Bool} {disp : Option Nat} {planes : List (List Int)} (h : s.Canonical) :
    (s.holdPicture p j e x t hd f isRef disp planes).1.Canonical :=
  h.modStream.ite_fst h.modStream.writeFrameBytes

theorem State.Canonical.holdSound {p j e : Nat} {t : IntkStream} {hd : StreamHeader} {f : IntkFrame}
    {planes : List (List Int)} (h : s.Canonical) :
    (s.holdSound p j e t hd f planes).1.Canonical :=
  h.modStream.writeFrameBytes

theorem State.Canonical.concealMore {p j n e m : Nat} (h : s.Canonical) : (s.concealMore p j n e m).1.Canonical := by
  induction m generalizing s with
  | zero => exact h
  | succ m ih =>
    unfold State.concealMore
    split
    · exact h
    · split
      · split
        · exact h
        · exact h.holdPicture.wrBind fun _ h => ih h
      · exact h

theorem State.Canonical.pictureDone {p j n e : Nat} {x : IntkJob} {t : IntkStream} {hd : StreamHeader} {u : DecodedUnit}
    (h : s.Canonical) :
    (s.pictureDone p j n e x t hd u).Canonical := by
  unfold State.pictureDone
  extract_lets _ _ _ _ _ _ _ _ r1
  have hr1 : r1.1.Canonical := h.holdPicture.wrBind fun _ h => h.concealMore
  split
  · exact hr1.jobAccess
  · exact hr1.settleSamples

theorem State.Canonical.soundDone {p j n e : Nat} {x : IntkJob} {t : IntkStream} {hd : StreamHeader} {u : DecodedUnit}
    (h : s.Canonical) : (s.soundDone p j n e x t hd u).Canonical := by
  -- unfolded as a function, so that the kernel does not evaluate the match of its body
  generalize e : @State.soundDone = f
  unfold State.soundDone at e
  subst e
  beta_reduce
  extract_lets -underBinder _ _ _ _ _ _ _ _ _ r
  have hr : r.1.Canonical := h.holdSound.fst_of_eq rfl
  clear_value r
  split
  · exact hr.jobAccess
  · exact hr.modStream

theorem State.Canonical.unitDone {e : Nat} {u : DecodedUnit} (h : s.Canonical) : (s.unitDone e u).Canonical := by
  unfold State.unitDone
  split
  · exact h
  · extract_lets _ _ _ _ s2 _ s3 s4
    have hs2 : s2.Canonical := h.freeEngine.incF
    have hs3 : s3.Canonical := hs2.modStream
    have hs4 : s4.Canonical := hs3.soundDone.ite hs3.pictureDone
    split
    · exact h.abandonSample
    · split
      · exact hs2.modStream.applyIntkIdle
      · split
        · exact hs2.rejectSample.applyIntkIdle
        · exact hs4.servePool.applyIntkIdle

theorem State.Canonical.budgetExceeded {e cycles samples : Nat} (h : s.Canonical) :
    (s.budgetExceeded e cycles samples).Canonical := by
  unfold State.budgetExceeded
  split
  · exact h
  · exact h.abandonSample.ite h

theorem State.Canonical.postPicture {p j e : Nat} {x : IntkJob} {t : IntkStream} {f : IntkFrame} {hd : StreamHeader}
    (h : s.Canonical) :
    (s.postPicture p j e x t f hd).Canonical := by
  unfold State.postPicture
  extract_lets _ _ r1 r2
  have hr1 : r1.1.Canonical := by
    unfold r1
    refine h.foldl_fst fun t x h => ?_
    refine h.wrBind fun t h => ?_
    extract_lets box
    clear_value box
    split
    · exact h
    · exact h.writeFrame
  have hr2 : r2.1.Canonical := hr1.wrBind fun _ h => h.modStream.concealMore
  split
  · exact hr2.jobAccess
  · exact hr2.settleSamples

theorem State.Canonical.postSound {p j e : Nat} {x : IntkJob} {t : IntkStream} {hd : StreamHeader} (h : s.Canonical) :
    (s.postSound p j e x t hd).Canonical := by
  unfold State.postSound
  extract_lets _ _ _ _ r1
  have hr1 : r1.1.Canonical := h.writeSound
  split
  · exact hr1.jobAccess
  · exact hr1.modStream.deliverHead.settleSamples

theorem State.Canonical.postChunk {p j e : Nat} {x : IntkJob} {t : IntkStream} {f : IntkFrame} {hd : StreamHeader}
    (h : s.Canonical) :
    (s.postChunk p j e x t f hd).Canonical :=
  h.modStream.postSound.ite h.modStream

theorem State.Canonical.postprocess {p j cycles : Nat} (h : s.Canonical) : (s.postprocess p j cycles).Canonical := by
  unfold State.postprocess
  split
  · split
    · exact h
    · extract_lets s1 s2
      have hs1 : s1.Canonical := h.freeEngine
      have hs2 : s2.Canonical := by
        unfold s2
        split
        · exact hs1.copyCached.ite hs1.modStream
        · split
          · exact hs1.postChunk.ite hs1.postPicture
          · exact hs1
        · exact hs1
      exact hs2.applyIntkIdle
  · exact h

theorem State.Canonical.recordBatch {p j : Nat} {x : IntkJob} {last : Bool} (h : s.Canonical) :
    (s.recordBatch p j x last).1.Canonical :=
  (h.foldl fun _ _ h => h.fillCache).wr.wrBind fun _ h => h.modJob

theorem State.Canonical.deliverBatch {p j : Nat} (h : s.Canonical) : (s.deliverBatch p j).Canonical := by
  unfold State.deliverBatch
  split
  · exact h
  · split
    · exact h
    · extract_lets _ _ r1 s1 s2 s3
      have hr1 : r1.1.Canonical := h.ite_fst h.recordBatch
      have hs1 : s1.Canonical := hr1.opAdd.incF
      have hs2 : s2.Canonical := hs1.modJob
      have hs3 : s3.Canonical := hs2.dropJob.ite hs2
      split
      · exact hr1.jobAccess
      · exact hr1.ite (hs3.applyIntake.ite hs3)

/-! ### Machine/Firm.lean -/

theorem State.Canonical.modSec {g : Sec → Sec} (h : s.Canonical) : (s.modSec g).Canonical := h.of_mem rfl

theorem State.Canonical.boot (h : s.Canonical) : s.boot.Canonical := by
  unfold State.boot
  extract_lets _ _ _ s1 s2 s3 _ s4
  have hs1 : s1.Canonical := .mk h
  have hs2 : s2.Canonical := hs1.setF.setF.setF
  have hs3 : s3.Canonical := hs2.setF.setF
  have hs4 : s4.Canonical := hs3.setF
  exact hs4.setRegs

theorem State.Canonical.setBlockBit {b : Nat} (h : s.Canonical) : (s.setBlockBit b).Canonical := h.setF

theorem State.Canonical.refuseBlock {st : Nat} (h : s.Canonical) : (s.refuseBlock st).Canonical := h.setF.incF.event

theorem State.Canonical.takeBlock {src b : Nat} {d : List Byte} (h : s.Canonical) : (s.takeBlock src b d).Canonical := by
  unfold State.takeBlock
  extract_lets s1 s2 s3
  have hs1 : s1.Canonical := h.modSec.setBlockBit
  have hs2 : s2.Canonical := hs1.setF.incF.incF
  have hs3 : s3.Canonical := hs2.incF.ite hs2
  exact hs3.setF.event.ite hs3

theorem State.Canonical.dupBlock (h : s.Canonical) : s.dupBlock.Canonical := h.setF.incF

theorem State.Canonical.emptyStaging (h : s.Canonical) : s.emptyStaging.Canonical := h.modSec.setF.setF.setF.setRegs.setRegs

theorem State.Canonical.treatBlock {src b : Nat} {d : List Byte} {good : Bool} (h : s.Canonical) :
    (s.treatBlock src b d good).Canonical := by
  unfold State.treatBlock
  extract_lets _ _ s2
  have hs2 : s2.Canonical := h.emptyStaging.setF.setF
  split
  · split
    · exact h.refuseBlock.ite (h.refuseBlock.ite hs2.setRegs.takeBlock)
    · exact (h.dupBlock.ite h.refuseBlock).ite h.refuseBlock
  · split
    · exact h.refuseBlock
    · exact h.refuseBlock.ite (h.dupBlock.ite (h.refuseBlock.ite (h.refuseBlock.ite h.takeBlock)))

theorem State.Canonical.piece {src b n i : Nat} {d : List Byte} (h : s.Canonical) : (s.piece src b n i d).Canonical := by
  unfold State.piece
  extract_lets
  exact .ite (.mk h) (.mk h)

theorem State.Canonical.fwSend {l peer off : Nat} (h : s.Canonical) : (s.fwSend l peer off).Canonical := h.modSec.sendOn

theorem State.Canonical.fwSendBlock {l peer b : Nat} (h : s.Canonical) : (s.fwSendBlock l peer b).Canonical :=
  (h.foldl fun _ _ h => h.fwSend).incF

theorem State.Canonical.fwPump {l peer n : Nat} (h : s.Canonical) : (s.fwPump l peer n).Canonical := by
  induction n generalizing s with
  | zero => exact h
  | succ n ih =>
    unfold State.fwPump
    split
    · exact h
    · split
      · exact h
      · split
        · exact h
        · exact ih h.modSec.fwSendBlock

theorem State.Canonical.fwTell {l a : Nat} (h : s.Canonical) : (s.fwTell l a).Canonical := h.fwSend.ite h

theorem State.Canonical.fwReceive {l : Nat} {p : Packet} (h : s.Canonical) : (s.fwReceive l p).1.Canonical :=
  h.ite_fst ((h.ite_fst h.modSec.fwPump).ite_fst (h.ite_fst (h.modSec.ite_fst (h.modSec.ite_fst h.modSec.piece))))

theorem State.Canonical.fwAnswered {seq peer : Nat} (h : s.Canonical) : (s.fwAnswered seq peer).Canonical := by
  unfold State.fwAnswered
  split
  · exact h
  · exact h.modSec.fwPump

theorem State.Canonical.fwAfterBlock {src b : Nat} {d : List Byte} (h : s.Canonical) : (s.fwAfterBlock src b d).Canonical := by
  unfold State.fwAfterBlock
  split
  · exact h
  · split
    · exact h
    · exact h.modSec.fwTell.ite h

end Sys2Proof.Machine
end

