-- ==== Sys2Proof/Proofs/CanonicalFabric.lean ====
section
/-! SUPPORT. Memory stays canonical under the operations on packets of the canopy, resets and the host. -/

namespace Sys2Proof.Machine

variable {s : State}

/-! ### Machine/Fabric.lean -/

theorem State.Canonical.advertiseOn {l : Nat} (h : s.Canonical) : (s.advertiseOn l).Canonical := h.sendOn.sendOn

theorem State.Canonical.advertise (h : s.Canonical) : s.advertise.Canonical := h.foldl fun _ _ h => h.advertiseOn

theorem State.Canonical.recomputeFrom {was : Canopy} (h : s.Canonical) : (s.recomputeFrom was).Canonical := by
  unfold State.recomputeFrom
  extract_lets
  exact .ite h (.advertise (.event (.mk h)))

theorem State.Canonical.recompute (h : s.Canonical) : s.recompute.Canonical := h.recomputeFrom

theorem State.Canonical.routeTick (h : s.Canonical) : s.routeTick.Canonical := h.advertise.ite (h.recompute.ite h)

theorem State.Canonical.electStart (h : s.Canonical) : s.electStart.Canonical := by
  unfold State.electStart
  extract_lets _ s1
  have hs1 : s1.Canonical := .mk h
  exact hs1.foldl fun _ _ h => h.sendOn

theorem State.Canonical.assigned (h : s.Canonical) : s.assigned.Canonical := by
  unfold State.assigned
  extract_lets s1
  have hs1 : s1.Canonical := h.setF.setF
  exact .recompute (.event (.mk hs1))

theorem State.Canonical.restartAddr (h : s.Canonical) : s.restartAddr.Canonical := by
  unfold State.restartAddr
  extract_lets _ _ s1 s2 s3 s4
  have hs1 : s1.Canonical := .mk h
  have hs2 : s2.Canonical := hs1.ite hs1.event
  have hs3 : s3.Canonical := hs2.setF.setF
  have hs4 : s4.Canonical := hs3.ite hs3.advertise
  exact hs4.electStart.ite hs4.assigned

theorem State.Canonical.checkConflict {addr uid : Nat} (h : s.Canonical) : (s.checkConflict addr uid).Canonical :=
  h.ite (h.event.ite (h.event.setF.setF.electStart.ite h.event.setF.setF))

theorem State.Canonical.settle (h : s.Canonical) : s.settle.Canonical := by
  unfold State.settle
  extract_lets _ _ _ s1
  have hs1 : s1.Canonical := .setF (.mk h)
  exact h.ite (hs1.event.ite h.setF.assigned)

theorem State.Canonical.sayHello {l : Nat} (h : s.Canonical) : (s.sayHello l).Canonical := h.transmit.ite h.sendLink

theorem State.Canonical.unroutable {l : Nat} (h : s.Canonical) : (s.unroutable l).Canonical := h.satF.event

theorem State.Canonical.reroute {l : Nat} {w : Waiting} (h : s.Canonical) : (s.reroute l w).Canonical := by
  unfold State.reroute
  split
  · exact h
  · split
    · exact h.sendFrom
    · exact h.unroutable.leaves

theorem State.Canonical.linkDown {l st : Nat} (h : s.Canonical) : (s.linkDown l st).Canonical := by
  unfold State.linkDown
  extract_lets _ _ _ _ s1 _ _ _ s3
  have hs1 : s1.Canonical := h.setLink.setLinkSt
  have hs3 : s3.Canonical := .mk hs1
  exact hs1.ite (hs3.recomputeFrom.foldl fun _ _ h => h.reroute)

theorem State.Canonical.linkFail {l : Nat} (h : s.Canonical) : (s.linkFail l).Canonical := h.linkDown.event.history

theorem State.Canonical.linkMove {l st next : Nat} (h : s.Canonical) : (s.linkMove l st next).Canonical := h.setLinkSt.ite h

theorem State.Canonical.linkExpires {l st ns : Nat} (h : s.Canonical) : (s.linkExpires l st ns).Canonical := h.linkFail.ite h

theorem State.Canonical.applyPort {n : Nat} (h : s.Canonical) : (s.applyPort n).Canonical :=
  ((h.latch.foldl fun _ _ h => h.setLinkSt.ite h).ite h.latch).ite (h.latch.foldl fun _ _ h => h.linkDown)

theorem State.Canonical.linkUp {l : Nat} {hd : Hello} (h : s.Canonical) : (s.linkUp l hd).Canonical := by
  unfold State.linkUp
  extract_lets _ s1 _ s2
  have hs1 : s1.Canonical := h.setLink.event
  have hs2 : s2.Canonical := .ite (.sendOn (.mk hs1)) hs1
  exact hs2.recompute.advertiseOn

theorem State.Canonical.hello {l : Nat} {hd : Hello} (h : s.Canonical) : (s.hello l hd).Canonical := by
  unfold State.hello
  extract_lets _ s1 _ s2 s3
  have hs1 : s1.Canonical := h.linkUp.ite h.linkFail
  have hs2 : s2.Canonical := h.setLink
  have hs3 : s3.Canonical := hs2.recompute.ite hs2
  exact (hs1.checkConflict.ite hs1).ite ((hs3.checkConflict.ite hs3).ite h)

theorem State.Canonical.countWords {l n : Nat} (h : s.Canonical) : (s.countWords l n).Canonical := h.ite h.modLink

theorem State.Canonical.retrain {l why : Nat} (h : s.Canonical) : (s.retrain l why).Canonical :=
  h.ite h.setLinkSt.modLink.satF.event

theorem State.Canonical.resend {l : Nat} {fl : List Flit} (h : s.Canonical) : (s.resend l fl).Canonical := h.ite h.putFlits.event

theorem State.Canonical.regained {l : Nat} (h : s.Canonical) : (s.regained l).Canonical := h.ite h.setLinkSt.resend.drain

theorem State.Canonical.sendAck {l : Nat} (h : s.Canonical) : (s.sendAck l).Canonical := h.ite h.setLink.sendLink

theorem State.Canonical.flit {l num : Nat} {bytes : List Byte} {corr unc : Nat} (h : s.Canonical) :
    (s.flit l num bytes corr unc).Canonical := by
  unfold State.flit
  extract_lets s1 _ _ s2 s3 _ s4 s5
  have hs1 : s1.Canonical := h.countWords.ite h
  have hs2 : s2.Canonical := hs1.satF.satF
  have hs3 : s3.Canonical := hs2.satF
  have hs4 : s4.Canonical := hs2.setLink
  have hs5 : s5.Canonical := hs4.incF2
  exact hs1.ite ((hs3.ite hs3.setLink.sendLink).ite (hs2.ite (hs5.sendAck.ite hs5)))

theorem State.Canonical.acked {l num : Nat} (h : s.Canonical) : (s.acked l num).Canonical := h.ite h.setLink.drain

theorem State.Canonical.naked {l num : Nat} (h : s.Canonical) : (s.naked l num).Canonical := h.ite h.setLink.satF.resend

theorem State.Canonical.credited {l cls level : Nat} {pool : Bool} {n : Nat} (h : s.Canonical) :
    (s.credited l cls level pool n).Canonical :=
  h.ite h.setLink.drain

theorem State.Canonical.ctxRefused (h : s.Canonical) : s.ctxRefused.Canonical := h.satF.event

theorem State.Canonical.forward {l : Nat} {p : Packet} (h : s.Canonical) : (s.forward l p).Canonical := by
  unfold State.forward
  split
  · exact h.satF.event.giveCredit
  · split
    · exact h.sendFrom
    · exact h.unroutable.giveCredit

theorem State.Canonical.receive {src : Option (Fin 36)} {p : Packet} {kind : BitVec 4} {deliver : State → State}
    (h : s.Canonical) (hdeliver : ∀ a0, a0.Canonical → (deliver a0).Canonical) :
    (s.receive src p kind deliver).Canonical := by
  unfold State.receive
  split
  · exact h
  · split
    · exact .ite (hdeliver _ (.mk h)) h
    · split
      · exact h
      · split
        · exact (h.ctxRefused.ite h).giveCredit
        · exact (hdeliver _ h).giveCredit.ite h.forward

theorem State.Canonical.answer {p : Packet} {status : Nat} {data : List Byte} (h : s.Canonical) :
    (s.answer p status data).Canonical := by
  unfold State.answer
  extract_lets r
  cases e : s.originate r with
  | none => exact h
  | some u => exact h.originate e

theorem State.Canonical.remember {c seq : Nat} (h : s.Canonical) : (s.remember c seq).Canonical := h.of_mem rfl

theorem State.Canonical.readRequest {p : Packet} {found : ReadErrors} (h : s.Canonical) : (s.readRequest p found).Canonical := by
  unfold State.readRequest
  split
  · exact h.ctxRefused.answer
  · extract_lets s1 _ s2 ue
    have hs1 : s1.Canonical := h.satF.ite h
    have hs2 : s2.Canonical := hs1.correctedFor.linksFor
    split
    · exact hs1.faultRecord.answer
    · clear_value ue
      split
      · exact hs2.answer.errorAt
      · exact hs2.remember.answer

theorem State.Canonical.writeRequest {p : Packet} (h : s.Canonical) : (s.writeRequest p).Canonical := by
  unfold State.writeRequest
  split
  · exact h.ctxRefused.answer
  · extract_lets
    split
    · exact h.satF.answer
    · split
      · exact .mk h
      · split
        · exact h.stray.answer
        · split
          · exact h.arenaWrite.faultRecord.stray.answer
          · split
            next e => exact (h.store.of_fst e).faultRecord.answer
            next e =>
              have ht := h.store.of_fst e
              exact (ht.planGot.ite ht).remember.answer

theorem State.Canonical.writeArrives {src : Option (Fin 36)} {p : Packet} (h : s.Canonical) :
    (s.writeArrives src p).Canonical := by
  unfold State.writeArrives
  split
  · split
    · exact h.answer
    · split
      next e => exact (h.fwReceive.of_fst e).answer
      next e => exact h.fwReceive.of_fst e
  · exact h.writeRequest

theorem State.Canonical.retire {r : RemoteReq} (h : s.Canonical) : (s.retire r).Canonical := by
  unfold State.retire
  extract_lets _ s1 _ s2
  have hs1 : s1.Canonical := .mk h
  have hs2 : s2.Canonical := hs1.setCtx
  split
  · exact hs1
  · split
    · exact .ite hs2 (.request (.mk hs2))
    · exact hs2

theorem State.Canonical.remoteRecord {r : RemoteReq} {f : AccFault} {byPeer : Bool} (h : s.Canonical) :
    (s.remoteRecord r f byPeer).Canonical :=
  h.errRecord

theorem State.Canonical.remoteFault {r : RemoteReq} {f : AccFault} {byPeer : Bool} (h : s.Canonical) :
    (s.remoteFault r f byPeer).Canonical := by
  unfold State.remoteFault
  split
  · exact h.remoteRecord.endProgram
  · exact h.remoteRecord.endProgram
  · exact h.remoteRecord.endProgram
  · exact h.remoteRecord.formeFault
  · exact h.remoteRecord.formeFault.ite h.remoteRecord
  · exact h.planAck.ite h.planAck
  · exact (h.remoteRecord.ite h).snapFail
  · exact (h.remoteRecord.ite h).fillHalt
  · exact (h.remoteRecord.ite h).fillHalt
  · exact h.remoteRecord
  · exact h.ite h.remoteRecord

theorem State.Canonical.failLost (h : s.Canonical) : s.failLost.Canonical := h.foldl fun _ _ h => h.retire.remoteFault.ite h

theorem State.Canonical.sweepLost (h : s.Canonical) : s.sweepLost.Canonical := h.failLost.collSweep.snapSweep.fillSweep

theorem State.Canonical.readCame {r : RemoteReq} {d : List Byte} (h : s.Canonical) : (s.readCame r d).Canonical := by
  unfold State.readCame
  split
  · extract_lets
    split
    · exact h.setTh
    · exact h
  · extract_lets
    split
    · exact h.setTh
    · exact h
  · exact h.fillRecordCame
  · exact h.fillPut
  · exact h

theorem State.Canonical.response {p : Packet} {write : Bool} (h : s.Canonical) : (s.response p write).Canonical := by
  unfold State.response
  split
  · exact h.ctxRefused
  · split
    · exact h
    · extract_lets s1
      have hs1 : s1.Canonical := h.retire
      split
      · split
        · split
          · exact hs1.planAck
          · exact hs1
        · exact hs1.readCame
      · exact hs1.ctxDown.remoteFault.sweepLost
      · exact hs1.remoteFault
      · exact hs1.remoteFault
      · exact hs1.remoteUe

theorem State.Canonical.writeAnswered {p : Packet} (h : s.Canonical) : (s.writeAnswered p).Canonical :=
  h.fwAnswered.ite h.response

theorem State.Canonical.requestExpires {c seq : Nat} (h : s.Canonical) : (s.requestExpires c seq).Canonical :=
  (h.ctxDown.ite h).sweepLost

theorem State.Canonical.collArrives {p : Packet} (h : s.Canonical) : (s.collArrives p).Canonical := by
  unfold State.collArrives
  split
  · exact h.ctxRefused
  · exact h.collSweep.collPacket.collSweep

theorem State.Canonical.collExpires {i : Nat} (h : s.Canonical) : (s.collExpires i).Canonical := by
  unfold State.collExpires
  split
  · exact h.endColl.ite (h.event.endColl.ite h)
  · exact h

theorem State.Canonical.collEnds {i : Nat} (h : s.Canonical) : (s.collEnds i).Canonical := by
  unfold State.collEnds
  split
  · exact h.endColl.ite (h.endColl.ite h)
  · exact h

theorem State.Canonical.linkLocal {l : Nat} {p : Packet} {kind : BitVec 4} {g : State → State} (h : s.Canonical)
    (hg : ∀ a0, a0.Canonical → (g a0).Canonical) :
    (s.linkLocal l p kind g).Canonical :=
  h.ite (hg _ h).giveCredit

theorem State.Canonical.routeCame {l : Nat} {p : Packet} (h : s.Canonical) : (s.routeCame l p).Canonical := h.modLink.recompute

theorem State.Canonical.electCame {p : Packet} (h : s.Canonical) : (s.electCame p).Canonical := by
  unfold State.electCame
  extract_lets _ _ _ s1 _ s2
  have hs1 : s1.Canonical := h.checkConflict.ite h
  have hs2 : s2.Canonical := .mk hs1
  exact hs1.ite (hs2.foldl fun _ _ h => h.sendOn)

theorem State.Canonical.timeAsk {devices : List (Nat × Bool)} (h : s.Canonical) : (s.timeAsk devices).Canonical := by
  unfold State.timeAsk
  extract_lets _ _ _ v1 _ s1
  have hv1 : v1.Canonical := h.setF
  have hs1 : s1.Canonical := .mk hv1
  split
  · exact hs1.setF.ite hs1
  · extract_lets s2
    have hs2 : s2.Canonical := hs1.setF.setF
    exact .sendOn (.mk hs2)

theorem State.Canonical.correctTime {theta : Int} (h : s.Canonical) : (s.correctTime theta).Canonical := by
  unfold State.correctTime
  extract_lets _ _ _ s1 s2 _ s3 _ _ _ s4 s5
  have hs1 : s1.Canonical := .ite h (.mk h)
  have hs2 : s2.Canonical := hs1.setF
  have hs3 : s3.Canonical := .mk hs2
  have hs4 : s4.Canonical := .mk hs3
  have hs5 : s5.Canonical := by
    unfold s5
    split
    · exact .event (.stepTime (.mk hs3))
    · exact .ite (.event (.satF (.stepTime (.mk hs3)))) (hs4.event.ite hs4)
  exact .mk hs5

theorem State.Canonical.timeCame {l : Nat} {p : Packet} (h : s.Canonical) : (s.timeCame l p).Canonical := by
  unfold State.timeCame
  extract_lets _ _ _ _ _ _ s1 s2
  have hs1 : s1.Canonical := .mk h
  have hs2 : s2.Canonical := hs1.setF.setF
  exact h.sendOn.ite (h.ite hs2.correctTime)

theorem State.Canonical.timeLost (h : s.Canonical) : s.timeLost.Canonical := by
  unfold State.timeLost
  split
  · extract_lets s1
    have hs1 : s1.Canonical := h.setF
    exact .event (.mk hs1)
  · exact h

theorem State.Canonical.tblCommand {write : Bool} (h : s.Canonical) : (s.tblCommand write).Canonical :=
  ((h.tblWrite.ite h).ite_fst (h.ite_fst h.setRegs)).setF.event

/-! ### Machine/Apply.lean -/

theorem State.Canonical.applyIfReady {pg : Nat} (h : s.Canonical) : (s.applyIfReady pg).Canonical := by
  unfold State.applyIfReady
  split
  · exact h
  · split
    · exact h.applyCore.ite h
    · exact h.applyStep
    · exact h.applyStep
    · exact h
    · exact h.applyIntkIdle
    · exact h.latch.ite h.applyPort
    · exact h.ite h.latch
    · exact h

theorem State.Canonical.requestApply {pg : Nat} (h : s.Canonical) : (s.requestApply pg).Canonical := h.ite h.setF.applyIfReady

theorem State.Canonical.discard {pg : Nat} (h : s.Canonical) : (s.discard pg).Canonical := by
  unfold State.discard
  split
  · exact h
  · extract_lets s1
    have hs1 : s1.Canonical := .mk h
    exact .ite hs1 (.setF (.mk hs1))

theorem State.Canonical.lockPages (h : s.Canonical) : s.lockPages.Canonical := h.foldl fun _ _ h => h.setF

theorem State.Canonical.openStore (h : s.Canonical) : s.openStore.Canonical := by
  unfold State.openStore
  extract_lets
  split
  · exact .mk h
  · extract_lets
    exact .ite (.event (.mk h)) h

theorem State.Canonical.setPwr {o mask v : Nat} (h : s.Canonical) : (s.setPwr o mask v).Canonical := h.setReg

theorem State.Canonical.applySettings (h : s.Canonical) : s.applySettings.Canonical := by
  unfold State.applySettings
  extract_lets s1 s2 s3 s4 s5
  have hs1 : s1.Canonical := h.openStore
  have hs2 : s2.Canonical := hs1.setF
  have hs3 : s3.Canonical := by
    unfold s3
    split
    · exact hs2.setReg.restartAddr
    · exact hs2
  have hs4 : s4.Canonical := by
    unfold s4
    split
    · exact hs3.setPwr.setPwr.setPwr
    · exact hs3
  have hs5 : s5.Canonical := by
    unfold s5
    split
    · exact hs4.setReg
    · exact hs4
  split
  · exact hs5.lockPages.ite hs5
  · exact hs5

theorem State.Canonical.snapDefaults {p : Nat} (h : s.Canonical) : (s.snapDefaults p).Canonical := by
  unfold State.snapDefaults
  split
  · exact h.setReg.setReg
  · exact h

/-! ### Machine/Reset.lean -/

theorem State.Canonical.clear {k : WholeReset} {cause : Nat} (h : s.Canonical) : (s.clear k cause).Canonical := by
  unfold State.clear
  extract_lets _ _ t1 t2
  have ht1 : t1.Canonical := Memory.wf_filter h _
  have ht2 : t2.Canonical := ht1.setReg.setF.ite ht1
  exact ht2.setF.ite ht2

theorem State.Canonical.requestWhole {k : WholeReset} {cause : Nat} (h : s.Canonical) : (s.requestWhole k cause).Canonical := by
  unfold State.requestWhole
  split
  · exact h
  · split
    · exact h.ite h.clear
    · exact h.clear

theorem State.Canonical.newChallenge (h : s.Canonical) : s.newChallenge.Canonical := by
  unfold State.newChallenge
  extract_lets
  exact .setRegs (.mk h)

theorem State.Canonical.startWaves (h : s.Canonical) : s.startWaves.Canonical := h.beginWaves.ite h

theorem State.Canonical.secBoot (h : s.Canonical) : s.secBoot.Canonical := by
  unfold State.secBoot
  split
  · exact h
  · extract_lets s1
    have hs1 : s1.Canonical := h.newChallenge.boot
    exact .startWaves (.mk hs1)

theorem State.Canonical.becomeReady (h : s.Canonical) : s.becomeReady.Canonical := by
  unfold State.becomeReady
  extract_lets _ s1 s2 s3
  have hs1 : s1.Canonical := .setF (.mk h)
  have hs2 : s2.Canonical := hs1.ite hs1.applySettings
  have hs3 : s3.Canonical := hs2.history
  exact hs3.event.ite hs3

theorem State.Canonical.endWhole {k : WholeReset} (h : s.Canonical) : (s.endWhole k).Canonical := h.becomeReady.ite h

theorem State.Canonical.watchdog (h : s.Canonical) : s.watchdog.Canonical := by
  unfold State.watchdog
  split
  · exact h
  · split
    · exact h.clear
    · exact h

theorem State.Canonical.configRetry {f : Nat} (h : s.Canonical) : (s.configRetry f).Canonical := h.emit.ite h

/-! ### Machine/HostIf.lean -/

theorem State.Canonical.fnRelease {f : Nat} (h : s.Canonical) : (s.fnRelease f).Canonical :=
  h.ite ((h.modFn.foldl fun _ _ h => h.writeCqe).foldl fun _ _ h => h.message)

theorem State.Canonical.hostConfig {c : HostConfig} (h : s.Canonical) : (s.hostConfig c).Canonical := by
  unfold State.hostConfig
  split
  · exact h.configRetry
  · split
    · exact h.modFn.fnRelease
    · exact .foldl (.mk h) fun _ _ h => h.fnRelease
    · exact h.modFn
    · exact h.modFn

theorem State.Canonical.powerState {f : Nat} {d3 : Bool} (h : s.Canonical) : (s.powerState f d3).Canonical :=
  h.configRetry.ite h.modFn.fnRelease

theorem State.Canonical.sqStop {f q : Nat} (h : s.Canonical) : (s.sqStop f q).Canonical := h.setF.setF.event

theorem State.Canonical.sqBell {f q v : Nat} (h : s.Canonical) : (s.sqBell f q v).Canonical :=
  h.satF.ite (h.ite (h.modSq.sqStop.ite h.modSq))

theorem State.Canonical.sqCtrl {f q v : Nat} (h : s.Canonical) : (s.sqCtrl f q v).Canonical := h.setReg.modSq.setF.ite h.setReg

theorem State.Canonical.cqCtrl {f q v : Nat} (h : s.Canonical) : (s.cqCtrl f q v).Canonical :=
  h.event.ite (h.setReg.modCq.ite h.setReg)

theorem State.Canonical.cqBell {f q v : Nat} (h : s.Canonical) : (s.cqBell f q v).Canonical := h.satF.ite (h.modCq.ite h.event)

theorem State.Canonical.fetchOne {f q : Nat} (h : s.Canonical) : (s.fetchOne f q).Canonical :=
  h.ite (h.ite (h.modCq.ite h).modSq.incF.incF)

theorem State.Canonical.sqFetch {f q n : Nat} {host : Option (List Byte)} (h : s.Canonical) :
    (s.sqFetch f q n host).Canonical := by
  unfold State.sqFetch
  extract_lets
  split
  · exact h
  · split
    · exact h.sqStop
    · exact (h.foldl fun _ _ h => h.poke).foldl fun _ _ h => h.fetchOne

theorem State.Canonical.sqTake {f q : Nat} {arb : AMap Int} (h : s.Canonical) : (s.sqTake f q arb).Canonical := by
  unfold State.sqTake
  extract_lets s1 v1
  have hs1 : s1.Canonical := h.modSq
  have hv1 : v1.Canonical := hs1.modFn
  exact .mk hv1

theorem State.Canonical.handOn {f q kind : Nat} {act : State → Nat → HostRef → List Byte → State} (h : s.Canonical)
    (hact : ∀ a0 a1 a2 a3, a0.Canonical → (act a0 a1 a2 a3).Canonical) :
    (s.handOn f q kind act).Canonical := by
  unfold State.handOn
  split
  · exact h.ite (h.sqTake.endEntry.ite (hact _ _ _ _ h.sqTake))
  · exact h

theorem State.Canonical.sqForme {p : Nat} {r : HostRef} {b : List Byte} (h : s.Canonical) : (s.sqForme p r b).Canonical :=
  h.takeForme

theorem State.Canonical.sqStart {p : Nat} {r : HostRef} {b : List Byte} (h : s.Canonical) : (s.sqStart p r b).Canonical :=
  h.endEntry.ite (h.endEntry.ite h.startReq)

theorem State.Canonical.sqAdd {p : Nat} {r : HostRef} {b : List Byte} (h : s.Canonical) : (s.sqAdd p r b).Canonical :=
  h.endEntry.ite h.opAdd.endEntry

theorem State.Canonical.sqHold {f q p : Nat} {r : HostRef} {b : List Byte} (h : s.Canonical) : (s.sqHold f q p r b).Canonical :=
  h.endEntry.ite (h.countOp.endEntry.ite h.countOp.modSq)

theorem State.Canonical.sqRelease {f q : Nat} {r : HostRef} {status : Nat} (h : s.Canonical) :
    (s.sqRelease f q r status).Canonical :=
  h.modSq.endEntry

theorem State.Canonical.sqMet {f q : Nat} (h : s.Canonical) : (s.sqMet f q).Canonical := by
  unfold State.sqMet
  split
  · exact h.sqRelease
  · exact h

theorem State.Canonical.sqExpires {f q : Nat} (h : s.Canonical) : (s.sqExpires f q).Canonical := by
  unfold State.sqExpires
  split
  · exact h.sqRelease.ite h
  · exact h

theorem State.Canonical.sqBad {f q : Nat} (h : s.Canonical) : (s.sqBad f q).Canonical := by
  unfold State.sqBad
  split
  · exact h.ite h.sqTake.endEntry
  · exact h

theorem State.Canonical.cqDelay {f q : Nat} (h : s.Canonical) : (s.cqDelay f q).Canonical := h.interrupt.ite h

theorem State.Canonical.sendPending {f : Nat} (h : s.Canonical) : (s.sendPending f).Canonical :=
  h.ite (h.modFn.foldl fun _ _ h => h.message)

theorem State.Canonical.msixMask {f : Nat} {vec : Option (Nat × Option (Nat × Nat))} {mask : Bool} (h : s.Canonical) :
    (s.msixMask f vec mask).Canonical := by
  unfold State.msixMask
  split
  · exact h.configRetry.ite h.modFn.sendPending
  · exact h.satF.ite (h.ite h.modFn.sendPending)

theorem State.Canonical.bar2Fail {f cause off : Nat} (h : s.Canonical) : (s.bar2Fail f cause off).Canonical :=
  h.satF.event.ite h.satF.event.setF.setF.setF.raiseF

theorem State.Canonical.bar2Read {f off n : Nat} {found : ReadErrors} (h : s.Canonical) :
    (s.bar2Read f off n found).Canonical := by
  unfold State.bar2Read
  extract_lets _ _ _ _ s1
  have hs1 : s1.Canonical := h.correctedFor.linksFor
  split
  · exact h.satF.emit
  · split
    · exact h.bar2Fail.emit
    · exact hs1.emit.foldl fun _ _ h => h.uncorrectable

theorem State.Canonical.bar2Write {f off : Nat} {b : List Byte} (h : s.Canonical) : (s.bar2Write f off b).Canonical := by
  unfold State.bar2Write
  extract_lets
  split
  · exact h.satF
  · split
    · exact h.bar2Fail
    · split
      next e => exact (h.store.of_fst e).faultRecord
      next e => exact h.store.of_fst e

/-! ### Machine/Failures.lean -/

theorem State.Canonical.snapIntervals (h : s.Canonical) : s.snapIntervals.Canonical := by
  unfold State.snapIntervals
  exact .ite h (.foldl h fun _ _ h => .ite (.setF (.mk h)) h)

theorem State.Canonical.snapAsk {p : Nat} (h : s.Canonical) : (s.snapAsk p).Canonical := h.setF.snapTry.ite h.setF

theorem State.Canonical.snapEnds {p : Nat} (h : s.Canonical) : (s.snapEnds p).Canonical := by
  unfold State.snapEnds
  split
  · exact h.snapComplete.ite h
  · exact h

theorem State.Canonical.replayOver {p : Nat} {x : Replay} (h : s.Canonical) : (s.replayOver p x).Canonical :=
  h.replayEnd.passBoundary.ite h.replayEnd

theorem State.Canonical.replayEnds {p : Nat} (h : s.Canonical) : (s.replayEnds p).Canonical := by
  unfold State.replayEnds
  split
  · exact h.replayOver.ite h
  · exact h

theorem State.Canonical.replayBegin {p list : Nat} {fill : Bool} (h : s.Canonical) : (s.replayBegin p list fill).Canonical := by
  unfold State.replayBegin
  extract_lets s1
  have hs1 : s1.Canonical := h.replayStart
  split
  · exact hs1.replayOver.ite hs1
  · exact hs1

theorem State.Canonical.replayAsk {unit : Nat} (h : s.Canonical) : (s.replayAsk unit).Canonical := h.ite h.replayBegin

theorem State.Canonical.fillAsk {p : Nat} (h : s.Canonical) : (s.fillAsk p).Canonical := h.fillStart.ite h

theorem State.Canonical.fillAbort {p : Nat} (h : s.Canonical) : (s.fillAbort p).Canonical := h.fillHalt.ite h

theorem State.Canonical.fillChecked {p : Nat} (h : s.Canonical) : (s.fillChecked p).Canonical := by
  unfold State.fillChecked
  split
  · exact h.ite (h.setFillState.ite h.fillHalt)
  · exact h

theorem State.Canonical.fillCopyEnds {p : Nat} (h : s.Canonical) : (s.fillCopyEnds p).Canonical := by
  unfold State.fillCopyEnds
  split
  · exact h.ite (h.showFillPages.setFillState.ite h.showFillPages.setFillState.replayBegin)
  · exact h

theorem State.Canonical.fillInstalls {p : Nat} (h : s.Canonical) : (s.fillInstalls p).Canonical := by
  unfold State.fillInstalls
  split
  · exact h.install.ite h
  · exact h

end Sys2Proof.Machine
end

