-- ==== Sys2Proof/Proofs/CanonicalModule.lean ====
section
/-! SUPPORT. Memory stays canonical under the operations on integrity, security, power, the bus and the clock. -/

namespace Sys2Proof.Machine

variable {s : State}

/-! ### Machine/Integrity.lean -/

theorem State.Canonical.lockstep (h : s.Canonical) : s.lockstep.Canonical := h.ite h.setF.history.event

theorem State.Canonical.ctrlUe {n : Nat} (h : s.Canonical) : (s.ctrlUe n).Canonical := by
  unfold State.ctrlUe
  split
  · exact h
  · extract_lets _ s1
    have hs1 : s1.Canonical := .mk h
    exact hs1.ite hs1.history.event

theorem State.Canonical.auditCore {c : Nat} (h : s.Canonical) : (s.auditCore c).Canonical := by
  unfold State.auditCore
  extract_lets _ _ s1 _ s2
  have hs1 : s1.Canonical := h.ite h.history
  have hs2 : s2.Canonical := .mk hs1
  exact hs2.markSuspect.ite hs2

theorem State.Canonical.auditPeriod (h : s.Canonical) : s.auditPeriod.Canonical := by
  unfold State.auditPeriod
  split
  · exact h
  · extract_lets s1
    have hs1 : s1.Canonical := h.foldl fun _ _ h => h.auditCore
    exact .mk hs1

theorem State.Canonical.auditMismatch {pg word ref v : Nat} (h : s.Canonical) : (s.auditMismatch pg word ref v).Canonical :=
  (h.satF.ite h.satF.setF.setF.raiseF).event.history

theorem State.Canonical.auditRead {pg word : Nat} {upset : Option Nat} (h : s.Canonical) :
    (s.auditRead pg word upset).Canonical := by
  unfold State.auditRead
  split
  · exact h
  · extract_lets _ s1
    have hs1 : s1.Canonical := by
      unfold s1
      split
      · exact h.ite h.setReg.auditMismatch
      · exact h
    exact hs1.satF.ite hs1

theorem State.Canonical.fhWrite {l : List FhEntry} (h : s.Canonical) : (s.fhWrite l).Canonical := by
  unfold State.fhWrite
  refine h.foldl fun t x h => ?_
  extract_lets
  exact .mk h

theorem State.Canonical.fhFlush (h : s.Canonical) : s.fhFlush.Canonical := by
  unfold State.fhFlush
  split
  · exact h
  · extract_lets _ _ _ _ _ _ s1
    have hs1 : s1.Canonical := h.fhWrite.satF
    exact .mk hs1

theorem State.Canonical.ceSummary (h : s.Canonical) : s.ceSummary.Canonical := by
  unfold State.ceSummary
  split
  · exact h
  · extract_lets v1
    have hv1 : v1.Canonical := h.history
    exact .mk hv1

theorem State.Canonical.retrainSummary (h : s.Canonical) : s.retrainSummary.Canonical := by
  unfold State.retrainSummary
  split
  · exact h
  · extract_lets _ s1
    have hs1 : s1.Canonical := h.foldl fun _ _ h => h.history
    exact .mk hs1

theorem State.Canonical.fhRead (h : s.Canonical) : s.fhRead.Canonical := h.setRegs.setF

theorem State.Canonical.i3cFhRead {n : Nat} (h : s.Canonical) : (s.i3cFhRead n).Canonical := h.emit.ite h

theorem State.Canonical.i3cFhNext (h : s.Canonical) : s.i3cFhNext.Canonical := h.emit.ite h

theorem State.Canonical.impArm (h : s.Canonical) : s.impArm.Canonical := h.ite (h.event.ite h.incF.setF)

theorem State.Canonical.impCancel (h : s.Canonical) : s.impCancel.Canonical := h.setF

theorem State.Canonical.pageImpression {seq pg : Nat} (h : s.Canonical) : (s.pageImpression seq pg).Canonical := by
  unfold State.pageImpression
  split
  · exact h
  · exact ((h.foldl fun _ _ h => h.setReg).setF.ite (h.foldl fun _ _ h => h.setReg)).setReg

theorem State.Canonical.impTake (h : s.Canonical) : s.impTake.Canonical :=
  h.ite (h.foldl fun _ _ h => h.pageImpression).setF.setF.setF.setF.event

theorem State.Canonical.spacingEnds {f : Nat} (h : s.Canonical) : (s.spacingEnds f).Canonical := by
  unfold State.spacingEnds
  split
  · exact h
  · split
    · exact h
    · extract_lets _ s1
      have hs1 : s1.Canonical := .mk h
      exact hs1.message.ite hs1

/-! ### Machine/Security.lean -/

theorem State.Canonical.rngFail (h : s.Canonical) : s.rngFail.Canonical := h.ite (h.satF.modSec.setF.event.ite h.satF.modSec)

theorem State.Canonical.lcEnds {st : Nat} (h : s.Canonical) : (s.lcEnds st).Canonical := h.setF.event

theorem State.Canonical.lcMove {target : Nat} (h : s.Canonical) : (s.lcMove target).Canonical := h.setF.setF.requestWhole

theorem State.Canonical.lcCommand {op : Nat} (h : s.Canonical) : (s.lcCommand op).Canonical := by
  unfold State.lcCommand
  split
  · exact h
  · extract_lets st1 _ s2
    have hs2 : s2.Canonical := h.newChallenge.ite h
    split
    · exact hs2.lcEnds
    · clear_value st1
      split
      · exact .ite hs2.lcEnds (.ite hs2.lcEnds (.lcMove (.setF (.modSec (.mk hs2)))))
      · exact .ite hs2.lcEnds (.lcMove (.modSec (.mk hs2)))
      · exact hs2.modSec.lcMove.ite hs2.lcEnds
      · exact hs2.modSec.lcMove.ite hs2.lcEnds
      · exact hs2.lcEnds.ite hs2.modSec.emptyStaging.setF.lcMove
      · exact hs2.lcEnds

theorem State.Canonical.attest (h : s.Canonical) : s.attest.Canonical := h.ite (h.satF.ite h.modSec.setF.setF)

theorem State.Canonical.i3cAttest {nonce : Nat} (h : s.Canonical) : (s.i3cAttest nonce).Canonical := h.ite h.setRegs.attest

theorem State.Canonical.reportReady (h : s.Canonical) : s.reportReady.Canonical := by
  unfold State.reportReady
  split
  · exact h
  · exact h.ite h.modSec.setRegs.setF.setF.setF.event

theorem State.Canonical.fwStatus {st : Nat} (h : s.Canonical) : (s.fwStatus st).Canonical := h.setF

theorem State.Canonical.activateRefused {st : Nat} (h : s.Canonical) : (s.activateRefused st).Canonical := h.fwStatus.event

theorem State.Canonical.fwActivate {reset : Bool} (h : s.Canonical) : (s.fwActivate reset).Canonical :=
  h.activateRefused.ite (h.activateRefused.ite h.modSec.setF.setF.fwStatus)

theorem State.Canonical.installDone {good : Bool} (h : s.Canonical) : (s.installDone good).Canonical := by
  unfold State.installDone
  split
  · exact h
  · extract_lets _ _ s1 s2 s3
    have hs1 : s1.Canonical := h.modSec.setF
    have hs2 : s2.Canonical := hs1.modSec
    have hs3 : s3.Canonical := hs2.setF.fwStatus.event
    exact hs1.modSec.setF.activateRefused.ite (hs3.ite (hs3.requestWhole.ite hs3.event))

theorem State.Canonical.fwConfirm (h : s.Canonical) : s.fwConfirm.Canonical := by
  unfold State.fwConfirm
  split
  · exact h.fwStatus
  · extract_lets _ _ _ s1 s2 s3
    have hs1 : s1.Canonical := h.setF.setF
    have hs2 : s2.Canonical := hs1.modSec
    have hs3 : s3.Canonical := by
      unfold s3
      split
      · exact hs2.modSec.ite hs2
      · exact hs2
    exact hs3.setF.fwStatus.event

theorem State.Canonical.fwDiscard (h : s.Canonical) : s.fwDiscard.Canonical := by
  unfold State.fwDiscard
  split
  · exact h.fwStatus
  · exact h.fwStatus
  · exact h.emptyStaging.fwStatus

theorem State.Canonical.fwFetch (h : s.Canonical) : s.fwFetch.Canonical := by
  unfold State.fwFetch
  exact .ite (.fwStatus (.mk h)) h.modSec.setF

theorem State.Canonical.fwCommand {v : Nat} (h : s.Canonical) : (s.fwCommand v).Canonical := by
  unfold State.fwCommand
  extract_lets _ s1 s2 s3
  have hs1 : s1.Canonical := h.ite (h.activateRefused.ite h.fwActivate)
  have hs2 : s2.Canonical := hs1.ite (hs1.fwStatus.ite hs1.fwConfirm)
  have hs3 : s3.Canonical := hs2.ite (hs2.fwStatus.ite hs2.fwDiscard)
  exact hs3.ite (hs3.fwStatus.ite hs3.fwFetch)

theorem State.Canonical.fwChunk {b i : Nat} {d : List Byte} (h : s.Canonical) : (s.fwChunk b i d).Canonical := h.ite h.piece

theorem State.Canonical.fwCheck {good : Bool} (h : s.Canonical) : (s.fwCheck good).Canonical := by
  unfold State.fwCheck
  split
  · exact h
  · exact h.ite (h.modSec.treatBlock.fwAfterBlock.setF.fwStatus.ite h.modSec.treatBlock.fwAfterBlock)

theorem State.Canonical.fwOffer (h : s.Canonical) : s.fwOffer.Canonical := h.ite (h.foldl fun _ _ h => h.fwSendBlock)

theorem State.Canonical.fwResend (h : s.Canonical) : s.fwResend.Canonical := h.ite (h.modSec.foldl fun _ _ h => h.fwTell)

theorem State.Canonical.fwRetry (h : s.Canonical) : s.fwRetry.Canonical := h.ite (h.modSec.foldl fun _ _ h => h.sendOn)

theorem State.Canonical.setResult {r : Nat} (h : s.Canonical) : (s.setResult r).Canonical := h.setF

theorem State.Canonical.putRecord {n : Nat} {r : SetRecord} (h : s.Canonical) : (s.putRecord n r).Canonical :=
  h.modSec.setResult.ite (h.modSec.setResult.ite h.setResult)

theorem State.Canonical.setRead (h : s.Canonical) : s.setRead.Canonical := by
  unfold State.setRead
  split
  · exact h.setResult
  · exact h.setResult.ite h.setRegs.setF.setF.setResult

theorem State.Canonical.setWrite (h : s.Canonical) : s.setWrite.Canonical := by
  unfold State.setWrite
  extract_lets _ s2
  have hs2 : s2.Canonical := h.openStore.ite h
  split
  · exact h.setResult
  · split
    · exact hs2.setResult
    · exact hs2.putRecord

theorem State.Canonical.setDelete (h : s.Canonical) : s.setDelete.Canonical := by
  unfold State.setDelete
  extract_lets
  split
  · exact h.setResult
  · exact h.setResult.ite h.putRecord

theorem State.Canonical.setCommand {v : Nat} (h : s.Canonical) : (s.setCommand v).Canonical :=
  h.ite (h.setDelete.ite (h.setWrite.ite (h.setRead.ite h)))

theorem State.Canonical.programKey (h : s.Canonical) : s.programKey.Canonical :=
  h.ite (h.setF.ite (h.setF.ite h.setRegs.setF.setF)).event

theorem State.Canonical.programFuse {w : FuseWord} {v : Nat} (h : s.Canonical) : (s.programFuse w v).Canonical := by
  unfold State.programFuse
  extract_lets
  split
  · exact h.modSec
  · exact h.setF
  · exact h.setF
  · exact h.setF
  · exact h.setF
  · exact h.setF
  · exact h.setF

theorem State.Canonical.debugAccess {a : DebugAccess} {dout : Nat} (h : s.Canonical) : (s.debugAccess a dout).1.Canonical := by
  unfold State.debugAccess
  split
  · exact .mk h
  · exact .mk h
  · exact h
  · exact h
  · exact h
  · exact h
  · exact h.poke.ite h
  · exact h
  · exact h.programFuse

theorem State.Canonical.jtag {i : Jtag} (h : s.Canonical) : (s.jtag i).Canonical := by
  unfold State.jtag
  split
  · exact h
  · split
    · exact h.emit
    · exact h.emit
    · exact h.emit
    · exact h.emit
    · exact h.debugAccess.emit.ite h.emit

/-! ### Machine/Power.lean -/

theorem State.Canonical.modPower {g : Power → Power} (h : s.Canonical) : (s.modPower g).Canonical := h.of_mem rfl

theorem State.Canonical.setGood {v : Bool} (h : s.Canonical) : (s.setGood v).Canonical := h.ite h.modPower.emit

theorem State.Canonical.setTrip {v : Bool} (h : s.Canonical) : (s.setTrip v).Canonical := h.ite h.modPower.emit

theorem State.Canonical.powerGone {phase : PowerPhase} (h : s.Canonical) : (s.powerGone phase).Canonical := by
  unfold State.powerGone
  extract_lets s1 _ s2
  have hs1 : s1.Canonical := h.setGood.setTrip
  have hs2 : s2.Canonical := hs1.clear
  exact .mk hs2

theorem State.Canonical.powerUp (h : s.Canonical) : s.powerUp.Canonical := h.ite h.clear.modPower

theorem State.Canonical.powerDown (h : s.Canonical) : s.powerDown.Canonical := by
  unfold State.powerDown
  split
  · exact h
  · exact h.modPower
  · exact h.powerGone.modPower

theorem State.Canonical.stageUp {stage : Nat} (h : s.Canonical) : (s.stageUp stage).Canonical := by
  unfold State.stageUp
  split
  · exact h.ite (h.modPower.setGood.startWaves.ite h.modPower)
  · exact h

theorem State.Canonical.workDown (h : s.Canonical) : s.workDown.Canonical := by
  unfold State.workDown
  extract_lets s1 s2
  have hs1 : s1.Canonical := h.foldl fun _ _ h => h.stopJob
  have hs2 : s2.Canonical := Memory.wf_filter hs1 _
  exact hs2.modPower.setGood

theorem State.Canonical.workFault {rail : Nat} (h : s.Canonical) : (s.workFault rail).Canonical := h.workDown.event.history

theorem State.Canonical.stageExpires {rail : Nat} (h : s.Canonical) : (s.stageExpires rail).Canonical := by
  unfold State.stageExpires
  split
  · exact h.ite (h.powerGone.ite h.workFault)
  · exact h

theorem State.Canonical.workRail {rail : Nat} (h : s.Canonical) : (s.workRail rail).Canonical := h.workFault.ite h

theorem State.Canonical.mgmtRail {rail : Nat} (h : s.Canonical) : (s.mgmtRail rail).Canonical := h.powerGone.ite h

theorem State.Canonical.inputEdge {mv : Nat} (h : s.Canonical) : (s.inputEdge mv).Canonical := h.setF.event.ite h

theorem State.Canonical.inputLost {mv : Nat} (h : s.Canonical) : (s.inputLost mv).Canonical := h.powerGone.ite h

theorem State.Canonical.pllLock (h : s.Canonical) : s.pllLock.Canonical := h.modPower.ite h

theorem State.Canonical.govSample {vin iin : Nat} (h : s.Canonical) : (s.govSample vin iin).Canonical :=
  h.ite (h.modPower.modPower.setF.setF.setF.setF.setF.event.ite h.modPower.modPower.setF.setF.setF.setF.setF)

theorem State.Canonical.showLevel (h : s.Canonical) : s.showLevel.Canonical := h.setF

theorem State.Canonical.govEvaluate (h : s.Canonical) : s.govEvaluate.Canonical :=
  h.ite (h.modPower.setF.showLevel.event.ite h.modPower.setF.showLevel)

theorem State.Canonical.wavesEnd {w : WaveSet} (h : s.Canonical) : (s.wavesEnd w).Canonical := by
  unfold State.wavesEnd
  split
  · exact h.modPart.event.takeHeld
  · exact h.modPart.emit.ite h.modPart
  · exact h.endSwitch
  · exact h

theorem State.Canonical.waveStart {owner : Option Nat} (h : s.Canonical) : (s.waveStart owner).Canonical := by
  unfold State.waveStart
  split
  · exact h
  · split
    · exact h
    · extract_lets _ _ s1
      have hs1 : s1.Canonical := .mk h
      exact hs1.modPower.wavesEnd.ite hs1.modPower

theorem State.Canonical.takeGap (h : s.Canonical) : s.takeGap.Canonical := h.modPower.ite h

theorem State.Canonical.thermSample {sensors drams : List Nat} {inlet : Nat} (h : s.Canonical) :
    (s.thermSample sensors drams inlet).Canonical := by
  unfold State.thermSample
  split
  · exact h
  · extract_lets _ _ _ _ _ s1 s2 s3 s4 s5
    have hs1 : s1.Canonical := h.modPower
    have hs2 : s2.Canonical := hs1.setF.setF.setF
    have hs3 : s3.Canonical := hs2.setF.setF.setF
    have hs4 : s4.Canonical := hs3.setF.showLevel
    have hs5 : s5.Canonical := hs4.event.ite hs4
    exact hs5.event.ite hs5

theorem State.Canonical.thermTrip {sensor celsius : Nat} (h : s.Canonical) : (s.thermTrip sensor celsius).Canonical :=
  h.ite h.workDown.setTrip.history

theorem State.Canonical.clockFails {l : ClockLoss} (h : s.Canonical) : (s.clockFails l).Canonical := by
  unfold State.clockFails
  split
  · exact h
  · extract_lets _ _ s1 s2 s3
    have hs1 : s1.Canonical := .event (.mk h)
    have hs2 : s2.Canonical := hs1.modPower
    have hs3 : s3.Canonical := hs2.errRecordAll.ite hs2
    exact hs3.foldl fun _ _ h => h.stopPartition

theorem State.Canonical.perstDown (h : s.Canonical) : s.perstDown.Canonical := h.modPower.requestWhole

theorem State.Canonical.perstUp (h : s.Canonical) : s.perstUp.Canonical := h.modPower

theorem State.Canonical.coldDone (h : s.Canonical) : s.coldDone.Canonical := h.endWhole.ite h

theorem State.Canonical.pf0Flr (h : s.Canonical) : s.pf0Flr.Canonical := by
  unfold State.pf0Flr
  split
  · exact h.configRetry
  · extract_lets s1
    have hs1 : s1.Canonical := h.setFn
    exact .requestWhole (.mk hs1)

theorem State.Canonical.vfFlr {p : Nat} (h : s.Canonical) : (s.vfFlr p).Canonical := h.configRetry.ite (h.ite h.requestReset)

theorem State.Canonical.partQuiet {p : Nat} (h : s.Canonical) : (s.partQuiet p).Canonical := h.quiesced.ite h

theorem State.Canonical.i3cAddress {a : Nat} (h : s.Canonical) : (s.i3cAddress a).Canonical := h.modPower.ite h

theorem State.Canonical.i3cReset {k : WholeReset} {cause : Nat} (h : s.Canonical) : (s.i3cReset k cause).Canonical :=
  h.requestWhole.ite h

theorem State.Canonical.createZeroed {p : Nat} (h : s.Canonical) : (s.createZeroed p).Canonical :=
  h.errorsZeroed.modPart.beginWaves.ite h

theorem State.Canonical.teardownZeroed {p : Nat} (h : s.Canonical) : (s.teardownZeroed p).Canonical :=
  h.errorsZeroed.setPart.setF.setF.event.ite h

/-! ### Machine/Bus.lean -/

theorem State.Canonical.countLocked {who : Requester} {pg : Nat} {w : WriteReq} (h : s.Canonical) :
    (s.countLocked who pg w).Canonical :=
  h.satF.ite h

theorem State.Canonical.writeRsvp {who : Requester} {pg o : Nat} {w : WriteReq} (h : s.Canonical) :
    (s.writeRsvp who pg o w).Canonical :=
  h.ite (h.setReg.ite h.refuse)

theorem State.Canonical.writePlain {pg o : Nat} {w : WriteReq} (h : s.Canonical) : (s.writePlain pg o w).Canonical := by
  unfold State.writePlain
  extract_lets _ _ _ s1 s2
  have hs1 : s1.Canonical := h.ite h.setReg
  have hs2 : s2.Canonical := hs1.ite hs1.clearW1c
  exact .ite hs2 (.mk hs2)

theorem State.Canonical.setMask {pg v : Nat} (h : s.Canonical) : (s.setMask pg v).Canonical :=
  h.setReg.foldl fun _ _ h => h.signal

theorem State.Canonical.writeHeader {pg o : Nat} {w : WriteReq} (h : s.Canonical) : (s.writeHeader pg o w).Canonical :=
  (h.discard.ite (h.requestApply.ite h)).ite ((h.setF.ite h).ite (h.clearW1c.ite (h.setMask.ite h)))

theorem State.Canonical.writeReset {who : Requester} {m : Nat} (h : s.Canonical) : (s.writeReset who m).Canonical :=
  (h.foldl fun _ _ h => h.requestReset.ite h).requestWhole.ite (h.foldl fun _ _ h => h.requestReset.ite h)

theorem State.Canonical.writePwr {who : Requester} {pg o : Nat} {w : WriteReq} (h : s.Canonical) :
    (s.writePwr who pg o w).Canonical :=
  h.writeReset.ite h.setReg

theorem State.Canonical.writeDir {pg o : Nat} {w : WriteReq} (h : s.Canonical) : (s.writeDir pg o w).Canonical :=
  (h.lockPages.ite h).ite (((h.impArm.ite h).impCancel.ite (h.impArm.ite h)).ite ((h.fhRead.ite h).ite h.writePlain))

theorem State.Canonical.writeScrub {j pg : Nat} {w : WriteReq} (h : s.Canonical) : (s.writeScrub j pg w).Canonical := h.setReg

theorem State.Canonical.writeDivision {pg : Nat} {w : WriteReq} (h : s.Canonical) : (s.writeDivision pg w).Canonical :=
  h.ite (h.setF.ite h.event)

theorem State.Canonical.askTeardown {p : Nat} (h : s.Canonical) : (s.askTeardown p).Canonical := by
  unfold State.askTeardown
  split
  · exact h.tearDown
  · exact h.tearDown
  · exact h.ite h.modPart
  · exact h

theorem State.Canonical.askCreate {p : Nat} (h : s.Canonical) : (s.askCreate p).Canonical := h.createPart.snapDefaults.ite h

theorem State.Canonical.writePartCtrl {m : Nat} (h : s.Canonical) : (s.writePartCtrl m).Canonical :=
  h.foldl fun _ _ h => (h.askTeardown.ite h).askCreate.ite (h.askTeardown.ite h)

theorem State.Canonical.pmapEnds {pg r : Nat} (h : s.Canonical) : (s.pmapEnds pg r).Canonical := h.setF.setF.event

theorem State.Canonical.oldAccesses {p idx : Nat} (h : s.Canonical) : (s.oldAccesses p idx).Canonical := by
  unfold State.oldAccesses
  extract_lets
  exact .mk h

theorem State.Canonical.pmapPut {p pg idx e : Nat} (h : s.Canonical) : (s.pmapPut p pg idx e).Canonical :=
  h.oldAccesses.arenaLose.setEntry.setF.setF

theorem State.Canonical.writePmap {p pg m : Nat} (h : s.Canonical) : (s.writePmap p pg m).Canonical := by
  unfold State.writePmap
  extract_lets _ _ _ r2
  have hr2 : r2.1.Canonical := by
    unfold r2
    split
    · exact .faultRecord (.mk h)
    · exact h
  exact h.ite ((h.pmapPut.ite h.pmapEnds).ite ((h.pmapEnds.ite hr2.setF.setF.pmapEnds).ite h))

theorem State.Canonical.writeMem {j pg o : Nat} {w : WriteReq} (h : s.Canonical) : (s.writeMem j pg o w).Canonical := by
  unfold State.writeMem
  split
  · exact h.writeScrub.ite h.writePlain
  · extract_lets _ s1
    have hs1 : s1.Canonical := h.fillAsk.ite h
    split
    · exact h.writeDivision.ite h
    · split
      · exact h.writePartCtrl.ite h
      · exact h.writePmap.ite ((h.snapAsk.ite h).ite ((hs1.fillAbort.ite hs1).ite h.writePlain))

theorem State.Canonical.writeSync {j pg o : Nat} {w : WriteReq} (h : s.Canonical) : (s.writeSync j pg o w).Canonical :=
  h.opAdd.ite ((h.countOp.ite h.countOp.setReg).ite (h.opSet.ite h.writePlain))

theorem State.Canonical.writeCamb {j pg o : Nat} {w : WriteReq} (h : s.Canonical) : (s.writeCamb j pg o w).Canonical :=
  h.ite ((h.abortUpdate.ite h).ite ((h.replayAsk.ite h).ite (h.event.ite h.writePlain)))

theorem State.Canonical.peek {p pg : Nat} (h : s.Canonical) : (s.peek p pg).Canonical := h.ite (h.peekNow.ite h.modKv.setF)

theorem State.Canonical.writeMode {d pg o m sel : Nat} (h : s.Canonical) : (s.writeMode d pg o m sel).Canonical :=
  h.ite (h.setReg.requestMode.ite h.setReg)

theorem State.Canonical.writeFabric {pg o : Nat} {w : WriteReq} (h : s.Canonical) : (s.writeFabric pg o w).Canonical :=
  (h.ite h.setReg.restartAddr).ite ((h.tblCommand.ite (h.tblCommand.ite h)).ite h.writePlain)

theorem State.Canonical.writeHost {j pg o : Nat} {w : WriteReq} (h : s.Canonical) : (s.writeHost j pg o w).Canonical :=
  h.setF.ite ((h.ite h.writePlain).ite (h.sqCtrl.ite (h.cqCtrl.ite h.writePlain)))

theorem State.Canonical.writeSec {j pg o : Nat} {w : WriteReq} (h : s.Canonical) : (s.writeSec j pg o w).Canonical := by
  unfold State.writeSec
  split
  · exact h.lcCommand
  · exact h.fwCommand
  · exact h.setCommand
  · exact h.attest.ite h
  · exact h.setReg.programKey.ite h.setReg
  · exact h.writePlain

theorem State.Canonical.writeBlock {who : Requester} {c : PClass} {j pg o : Nat} {w : WriteReq} (h : s.Canonical) :
    (s.writeBlock who c j pg o w).Canonical := by
  unfold State.writeBlock
  split
  · exact h.writeDir
  · exact h.writePwr
  · exact h.writeSec
  · exact h.writeMem
  · exact (h.flushPlans.ite h).ite h.writePlain
  · exact h.writeCamb
  · exact h.writeMode.ite h.writePlain
  · exact (h.peek.ite h).ite h.writePlain
  · exact h.writePlain
  · exact h.writeFabric.ite h.writePlain
  · exact h.writeHost
  · exact h.writePlain
  · exact h.writeSync

theorem State.Canonical.writeWord {who : Requester} {c : PClass} {j pg o val : Nat} (h : s.Canonical) :
    (s.writeWord who c j pg o val).Canonical :=
  h.countLocked.writeRsvp.writeHeader.ite h.countLocked.writeRsvp.writeBlock

theorem State.Canonical.mayLose (h : s.Canonical) : s.mayLose.1.Canonical := by
  unfold State.mayLose
  exact .ite_fst (.mk h) h

theorem State.Canonical.busWrite {who : Requester} {off val : Nat} (h : s.Canonical) : (s.busWrite who off val).Canonical := by
  unfold State.busWrite
  split
  · exact h
  · extract_lets l1
    have hl1 : l1.1.Canonical := h.mayLose
    split
    · exact hl1
    · split
      · exact hl1.refuse
      · split
        · exact hl1
        · split
          · exact hl1.writeWord
          · exact hl1

theorem State.Canonical.busRead {who : Requester} {off : Nat} (h : s.Canonical) : (s.busRead who off).1.Canonical := by
  unfold State.busRead
  exact .ite_fst (.mk h) (h.refuse.ite_fst h)

/-! ### Machine/Pages.lean -/

theorem State.Canonical.maskedWrite {who : Requester} {pg o bitsSet sel : Nat} (h : s.Canonical) :
    (s.maskedWrite who pg o bitsSet sel).Canonical :=
  h.busWrite

theorem State.Canonical.fieldWrite {who : Requester} {pg : Nat} {x : Fld} {v : Nat} (h : s.Canonical) :
    (s.fieldWrite who pg x v).Canonical :=
  h.busWrite

theorem State.Canonical.i3cReads {off : Nat} (h : s.Canonical) : (s.i3cReads off).Canonical := h.ite h.busRead.emit

theorem State.Canonical.refused_ {who : Requester} {off n : Nat} {write : Bool} (h : s.Canonical) :
    (s.refused_ who off n write).Canonical :=
  h.ite ((h.foldl fun _ _ h => h.refuse).ite (h.foldl fun _ _ h => h.refuse).emit)

theorem State.Canonical.clearEvents {who : Requester} {pg clear now : Nat} (h : s.Canonical) :
    (s.clearEvents who pg clear now).Canonical :=
  (h.foldl fun _ _ h => h.event).busWrite

theorem State.Canonical.pmapWritten {p : Nat} (h : s.Canonical) : (s.pmapWritten p).Canonical := h.pmapEnds.ite h

theorem State.Canonical.normWrite {who : Requester} {unit : Nat} {valid : Bool} {v : Nat} (h : s.Canonical) :
    (s.normWrite who unit valid v).Canonical :=
  h.busWrite.fieldWrite

theorem State.Canonical.fetchWrite {who : Requester} {host : List Byte} (h : s.Canonical) : (s.fetchWrite who host).Canonical :=
  h.poke.maskedWrite

theorem State.Canonical.flashCommand {who : Requester} {b : Nat} {good : Bool} (h : s.Canonical) :
    (s.flashCommand who b good).Canonical := by
  unfold State.flashCommand
  extract_lets t1
  have ht1 : t1.Canonical := h.maskedWrite
  exact .ite ht1 (.setResult (.mk ht1))

theorem State.Canonical.fuseCommand {who : Requester} {key : Nat} {good : Bool} (h : s.Canonical) :
    (s.fuseCommand who key good).Canonical := by
  unfold State.fuseCommand
  extract_lets _ t1 _ t2
  have ht1 : t1.Canonical := h.maskedWrite
  have ht2 : t2.Canonical := .setRegs (.mk ht1)
  exact ht1.ite ht2.setF.setF

/-! ### Machine/Programs.lean -/

theorem State.Canonical.alu {c : Fin 256} {t : Fin 64} {f : Nat} {d a b : BitVec 5} {op : Nat → Nat → Nat} (h : s.Canonical) :
    (s.alu c t f d a b op).Canonical :=
  h.scalar

theorem State.Canonical.immOp {c : Fin 256} {t : Fin 64} {op : Nat} {d a : BitVec 5} {imm : BitVec 16} {f : Nat → Nat}
    (h : s.Canonical) :
    (s.immOp c t op d a imm f).Canonical :=
  h.scalar

theorem State.Canonical.loadOp {c : Fin 256} {t : Fin 64} {op n align : Nat} {vec : Bool} {d a : BitVec 5} {imm : BitVec 16}
    (h : s.Canonical) :
    (s.loadOp c t op n align vec d a imm).Canonical :=
  h.instr (fun _ => h.issueLoad)

theorem State.Canonical.storeOp {c : Fin 256} {t : Fin 64} {op align : Nat} {vec : Bool} {d a : BitVec 5} {imm : BitVec 16}
    {b : Thread → List Byte} (h : s.Canonical) :
    (s.storeOp c t op align vec d a imm b).Canonical :=
  h.instr (fun _ => h.issueStore)

theorem State.Canonical.vop2 {c : Fin 256} {t : Fin 64} {o : Nat} {ty : BitVec 2} {d a b : BitVec 5}
    {f : VType → Rnd → Nat → Nat → Nat × Nat} (h : s.Canonical) :
    (s.vop2 c t o ty d a b f).Canonical :=
  h.vector

theorem State.Canonical.vop1 {c : Fin 256} {t : Fin 64} {o : Nat} {ty : BitVec 2} {d a b : BitVec 5}
    {f : VType → Rnd → Nat → Nat × Nat} (h : s.Canonical) :
    (s.vop1 c t o ty d a b f).Canonical :=
  h.vector

theorem State.Canonical.vbits {c : Fin 256} {t : Fin 64} {o : Nat} {ty : BitVec 2} {d a b : BitVec 5}
    {f : VReg → VReg → VReg} (h : s.Canonical) :
    (s.vbits c t o ty d a b f).Canonical :=
  h.vector

theorem State.Canonical.vred {c : Fin 256} {t : Fin 64} {o : Nat} {ty : BitVec 2} {d a b : BitVec 5}
    {f : VType → Rnd → VReg → Nat × Nat} (h : s.Canonical) :
    (s.vred c t o ty d a b f).Canonical :=
  h.unitInstr (fun _ _ h => h.goOn)

theorem State.Canonical.sfu {c : Fin 256} {t : Fin 64} {o : Nat} {d a b : BitVec 5} {f : Nat → Nat} (h : s.Canonical) :
    (s.sfu c t o d a b f).Canonical :=
  h.vector

/-! ### Machine/Tick.lean -/

theorem State.Canonical.advance (h : s.Canonical) : s.advance.Canonical := h.modPower.ite h.modPower.retrainSummary

theorem State.Canonical.countCause {c : Nat} {k : Option Nat} (h : s.Canonical) : (s.countCause c k).Canonical := by
  unfold State.countCause
  split
  · exact h.incF2
  · exact h.incF2

theorem State.Canonical.snapWaits {p c n : Nat} (h : s.Canonical) : (s.snapWaits p c n).Canonical := by
  unfold State.snapWaits
  split
  · exact h
  · exact .ite (.mk h) h

theorem State.Canonical.accountCore {p c : Nat} {l : List Nat} (h : s.Canonical) : (s.accountCore p c l).Canonical :=
  (((h.idleRestart.platenIssues.ite h.idleRestart).ite h).foldl fun _ _ h => h.countCause).snapWaits

theorem State.Canonical.settleThreads (h : s.Canonical) : s.settleThreads.Canonical := h.of_mem rfl

theorem State.Canonical.account (h : s.Canonical) : s.account.Canonical := h.foldl fun _ _ h => h.foldl fun _ _ h => h.accountCore

theorem State.Canonical.ageSlots (h : s.Canonical) : s.ageSlots.Canonical := h.foldl fun _ _ h => h.modCore

theorem State.Canonical.countStalls (h : s.Canonical) : s.countStalls.Canonical := h.foldl fun _ _ h => h.incF

theorem State.Canonical.serviceSnaps (h : s.Canonical) : s.serviceSnaps.Canonical := h.foldl fun _ _ h => h.snapTry

theorem State.Canonical.restSlots (h : s.Canonical) : s.restSlots.Canonical :=
  h.foldl fun _ _ h => h.foldl fun _ _ h => h.slotPasses

theorem State.Canonical.background (h : s.Canonical) : s.background.Canonical := by
  unfold State.background
  extract_lets s1 s2 s3 s4 s5 s6 s7
  have hs1 : s1.Canonical := h.hostSweep.sweepLost
  have hs2 : s2.Canonical := hs1.foldl fun _ _ h => h.snapStream
  have hs3 : s3.Canonical := hs2.foldl fun _ _ h => h.fillPage
  have hs4 : s4.Canonical := hs3.foldl fun _ _ h => h.kvSettle
  have hs5 : s5.Canonical := hs4.foldl fun _ _ h => h.planPump.ite h
  have hs6 : s6.Canonical := hs5.endFormes.serviceSnaps.restSlots
  have hs7 : s7.Canonical := hs6.foldl fun _ _ h => h.retryPost
  exact hs7.foldl fun _ _ h => h.applyIfReady

theorem State.Canonical.atEdge (h : s.Canonical) : s.atEdge.Canonical := h.ite (h.foldl fun _ _ h => h.waveStart).takeGap.impTake

theorem State.Canonical.rampSteps (h : s.Canonical) : s.rampSteps.Canonical := h.foldl fun _ _ h => h.rampStep

theorem State.Canonical.tick (h : s.Canonical) : s.tick.Canonical :=
  h.ite h.atEdge.rampSteps.settleThreads.account.ageSlots.countStalls.advance.background

end Sys2Proof.Machine
end

