-- ==== Sys2Proof/Proofs/StepCanonical.lean ====
section
/-! SUPPORT. Every command and every step keep memory in its canonical form. -/

namespace Sys2Proof.Machine

variable {s : State}

theorem State.Canonical.execRegisterWrite {who : Requester} {offset : BitVec 26} {value : RegValue} (h : s.Canonical) :
    outCanonical (execRegisterWrite who offset value s) := by
  refine State.Canonical.next ?_
  split
  · exact h.busWrite
  · exact h.busWrite.ite h.busWrite.busWrite

/-- Every command keeps memory in its canonical form: its arm's update, through the operations that make it up. -/
theorem exec_canonical (h : s.Canonical) (i : Instr) : outCanonical (exec i s) :=
  match i with
  | .powerUpBegin => h.powerUp.next
  | .pwrEnFall => h.powerDown.next
  | .railStageComplete .. => h.stageUp.next
  | .stageWindowTimeout .. => h.stageExpires.next
  | .workRailFault .. => h.workRail.next
  | .mgmtRailFault .. => h.mgmtRail.next
  | .inputRange .. => h.inputEdge.next
  | .inputFault .. => h.inputLost.next
  | .rootPllLock => h.pllLock.next
  | .governorSample .. => h.govSample.next
  | .governorEvaluate => h.govEvaluate.next
  | .coreIdleRestart .. => h.idleRestart.next
  | .restartRampStep .. => h.rampStep.next
  | .waveStart .. => h.waveStart.next
  | .waveGapTakeEffect => h.takeGap.next
  | .thermalSample .. => h.thermSample.next
  | .thermalTrip .. => h.thermTrip.next
  | .clockFault .. => h.clockFails.next
  | .perstFall => h.perstDown.next
  | .perstRise => h.perstUp.next
  | .coldResetDone => h.coldDone.next
  | .warmResetDone | .powerOnResetDone => h.endWhole.next
  | .pwrResetWarm .. | .pwrPartReset .. | .applyRequest .. | .applyDiscard .. | .lockAll .. | .pmapWrite .. | .pmapRead ..
  | .partCreate .. | .partTeardown .. | .planFlush .. | .updateAbort .. | .kvPeekRead .. | .coppModeReq .. | .cnpyTblRead ..
  | .cnpyTblWrite .. | .snapRequest .. | .replayStart .. | .fillStart .. | .fillAbort .. | .fhRead .. | .impArm ..
  | .impCancel .. | .lcProvision .. | .lcDeploy .. | .lcReturn .. | .lcDecommission .. | .secAttRequest .. | .fwActivate ..
  | .fwConfirm .. | .fwDiscard .. | .secSetRead .. => h.maskedWrite.next
  | .vfFlr .. => h.vfFlr.next
  | .pf0Flr => h.pf0Flr.next
  | .partitionQuiesced .. => h.partQuiet.next
  | .i3cDynamicAddress .. => h.i3cAddress.next
  | .i3cRegRead .. => h.i3cReads.next
  | .i3cRegWrite .. | .eventMaskWrite .. | .syncValueWrite .. | .syncCmdAdd .. | .syncLimitWrite .. | .cnpyAddrWrite ..
  | .sqEnable .. | .cqEnable .. | .cqCtrlWrite .. => h.busWrite.next
  | .i3cColdReset | .i3cWarmReset => h.i3cReset.next
  | .registerWrite .. => h.execRegisterWrite
  | .refusedAccess .. => h.refused_.next
  | .application .. => h.applyIfReady.next
  | .pageLockSet .. | .divisionWrite .. => h.fieldWrite.next
  | .eventFlagClear .. => h.clearEvents.next
  | .pmapWriteDone .. => h.pmapWritten.next
  | .createZeroingDone .. => h.createZeroed.next
  | .teardownZeroingDone .. => h.teardownZeroed.next
  | .containmentEvent .. => (h.containment.ite h).next
  | .scrubUnit .. => (h.scrub.ite h).next
  | .threadStartRequest .. => (h.startReq.ite h).next
  | .aluAdd .. | .aluSub .. | .aluAnd .. | .aluOr .. | .aluXor .. | .aluShl .. | .aluShrl .. | .aluShra .. | .aluMul ..
  | .aluSlt .. | .aluSltu .. | .aluMin .. | .aluMax .. => h.alu.next
  | .addi .. | .andi .. | .ori .. | .xori .. | .shli .. | .shrli .. | .shrai .. => h.immOp.next
  | .ins16 .. | .movs .. => h.scalar.next
  | .sets .. | .fence .. => (h.instr (fun _ => h.goOn)).next
  | .ld .. | .lw .. | .vld .. => h.loadOp.next
  | .st .. | .sw .. | .vst .. => h.storeOp.next
  | .beq .. | .bne .. | .blt .. | .bge .. => h.branch.next
  | .jmp .. => (h.instr (fun _ => h.goTo)).next
  | .jalr .. => (h.instr (fun _ => h.goTo.ite h.setTh.endProgram)).next
  | .syncAdd .. => (h.syncOp (fun _ _ => h.goOn.opAdd)).next
  | .syncSet .. => (h.syncOp (fun _ _ => h.goOn.opSet)).next
  | .syncRead .. => (h.syncOp (fun _ _ => h.countOp.goOn)).next
  | .syncWait .. => (h.syncOp (fun _ _ => h.waitOp)).next
  | .syncClaim .. => (h.syncOp (fun _ _ => h.opClaim.goOn)).next
  | .syncClaimSet .. => (h.syncOp (fun _ _ => h.outOfRangeCtr.ite h.claimSetOp)).next
  | .post .. => (h.instr (fun _ => h.postOp)).next
  | .start .. => (h.instr (fun _ => h.startOp)).next
  | .vadd .. | .vsub .. | .vmul .. | .vmin .. | .vmax .. | .vdiv .. | .vcmplt .. | .vcmple .. | .vcmpeq .. => h.vop2.next
  | .vfma .. | .vsel .. | .vcvt .. | .vbcast .. | .vcvtw .. => h.vector.next
  | .vabs .. | .vneg .. | .vsqrt .. => h.vop1.next
  | .vand .. | .vor .. | .vxor .. => h.vbits.next
  | .vredsum .. | .vredmax .. => h.vred.next
  | .sfuExp .. | .sfuLog .. | .sfuRecip .. | .sfuRsqrt .. => h.sfu.next
  | .progEnd .. => (h.instr (fun _ => h.endProgram)).next
  | .illegalInstr .. => (h.ite (h.instr (fun _ => h))).next
  | .loadDataArrive .. => h.loadArrives.next
  | .instrLineArrive .. => h.lineArrives.next
  | .storeAck .. => h.storeAck.next
  | .syncWaitTimeout .. => h.waitExpires.next
  | .galleyShareApply .. => (h.takeShares.ite h).next
  | .postRetry .. => h.postRetry.next
  | .nop .. | .matmul .. | .gmatmul .. | .conv .. | .poolMax .. | .poolAvg .. | .cropResize .. | .attentionForward ..
  | .attentionBackward .. | .normForward .. | .normBackward .. | .softmaxForward .. | .softmaxBackward .. | .loss ..
  | .elementwise .. | .copy .. | .gather .. | .scatter .. | .allReduce .. | .reduceScatter .. | .allGather ..
  | .broadcast .. | .barrier .. | .reshard .. | .update .. | .badOpcode .. => h.postForme.next
  | .formeWaitMet .. => h.waitIsMet.next
  | .formeCountersFree .. => h.countersFree.next
  | .formePlanned .. => h.formePlanned.next
  | .formePostArrive .. => h.postArrives.next
  | .claimReturn .. => h.claimReturn.next
  | .chunkStaged .. => h.chunkStaged.next
  | .tileBegin .. => h.tileBegin.next
  | .tileEnd .. => h.tileEnd.next
  | .epilogueStart .. => h.epilogueStart.next
  | .coreReportEnd .. => h.reportEnd.next
  | .tileFault .. => h.tileAccessFault.next
  | .proofTimeTrigger .. => h.proofTime.next
  | .proofComplete .. => h.proofComplete.next
  | .reducerUpdate .. => h.reducerUpdate.next
  | .arenaSpillDone .. => h.spillDone.endFormes.next
  | .cambBlockArrive .. => h.blockComes.next
  | .cambBlockApply .. => h.applyNext.next
  | .cambBlockWritten .. => h.blockWritten.next
  | .normAllreduceDone .. => h.normDone.next
  | .updateTimeout .. => h.updateExpires.next
  | .cambNormPrevWrite .. => h.normWrite.next
  | .kvAdmit .. => h.admitNext.next
  | .schedule .. => h.scheduleNext.next
  | .advance .. => h.advanceNext.next
  | .advanceResume .. => h.advanceAgain.next
  | .release .. => (h.kvServe (fun _ _ _ h => h.kvAnswer h.releaseEntry)).next
  | .outAuto .. => (h.kvServe (fun _ _ _ h => h.kvAnswer h.outAuto)).next
  | .inAuto .. => (h.kvServe (fun _ _ _ h => h.kvAnswer h.inAuto)).next
  | .outSeq .. => (h.kvServe (fun _ _ _ h => h.kvAnswer h.outSeqEntry)).next
  | .inSeq .. => (h.kvServe (fun _ _ _ h => h.kvAnswer h.inSeqEntry)).next
  | .swapOutDone .. => h.swapOutDone.next
  | .swapInDone .. => h.swapInDone.next
  | .prefixLookup .. | .handleOf .. | .evict .. | .trim .. => (h.kvServe (fun _ _ _ h => h.kvAnswer h.prefixEntry)).next
  | .budgetSet .. | .budgetAdd .. | .budgetRead .. => (h.kvServe (fun _ _ _ h => h.kvAnswer h.budgetEntry)).next
  | .budgetRefillTick .. => h.refillTick.next
  | .ringIrqDelay .. => h.ringDelay.next
  | .drainComplete .. => (h.crossBoundary.ite h).next
  | .planBarrierComplete .. => h.barrierDone.next
  | .planComplete .. => (h.endPlan.ite h).next
  | .planTimeout .. => h.planExpires.next
  | .intakeJobTake .. => (h.takeJob.applyIntkIdle.ite h).next
  | .engineGrant .. => h.grantEngine.next
  | .decodeUnitDone .. => h.unitDone.next
  | .decodeBudgetExceeded .. => h.budgetExceeded.next
  | .frameReserve .. => h.startStream.next
  | .postprocessFrame .. => h.postprocess.next
  | .liveSampleAvailable .. | .batchSlotFreed .. => h.beginSample.next
  | .batchDeliver .. => h.deliverBatch.next
  | .linkSignalDetect .. => (h.setF.setF.setLinkSt.ite h).next
  | .linkTrainConverged .. => h.linkMove.next
  | .linkTrainTimeout .. | .linkAlignTimeout .. | .handshakeTimeout .. | .retrainTimeout .. => h.linkExpires.next
  | .linkAlignLock .. => (h.setLinkSt.sayHello.ite h).next
  | .retrainCondition .. => h.retrain.next
  | .retrainRegained .. => h.regained.next
  | .linkFailedHoldoff .. => (h.setLinkSt.ite h).next
  | .flitReceive .. => h.flit.next
  | .ackTimer .. => h.sendAck.next
  | .hello .. => h.hello.next
  | .helloTimer .. => (h.sayHello.ite h).next
  | .ack .. => h.acked.next
  | .nak .. => h.naked.next
  | .credit .. => h.credited.next
  | .readReq .. => (h.receive (fun _ h => h.readRequest)).next
  | .writeReq .. => (h.receive (fun _ h => h.writeArrives)).next
  | .readRsp .. => (h.receive (fun _ h => h.response)).next
  | .writeRsp .. => (h.receive (fun _ h => h.writeAnswered)).next
  | .collData .. | .collGrant .. | .collCtrl .. => (h.receive (fun _ h => h.collArrives)).next
  | .route .. => (h.linkLocal (fun _ h => h.routeCame)).next
  | .routeAdvertise => h.routeTick.next
  | .elect .. => (h.linkLocal (fun _ h => h.electCame)).next
  | .electSettle => h.settle.next
  | .reqTimeout .. => h.requestExpires.next
  | .collTimeout .. => h.collExpires.next
  | .collectiveComplete .. => h.collEnds.next
  | .timeExchange .. => h.timeAsk.next
  | .time .. => (h.linkLocal (fun _ h => h.timeCame)).next
  | .timeSyncLoss => h.timeLost.next
  | .bmeChange .. => h.hostConfig.next
  | .powerStateChange .. => h.powerState.next
  | .sqDoorbell .. => h.sqBell.next
  | .cqDoorbell .. => h.cqBell.next
  | .sqEntryFetch .. => h.sqFetch.next
  | .sqNop .. => (h.handOn (fun _ _ _ _ h => h.endEntry)).next
  | .sqForme .. => (h.handOn (fun _ _ _ _ h => h.sqForme)).next
  | .sqStart .. => (h.handOn (fun _ _ _ _ h => h.sqStart)).next
  | .sqSyncAdd .. => (h.handOn (fun _ _ _ _ h => h.sqAdd)).next
  | .sqWait .. => (h.handOn (fun _ _ _ _ h => h.sqHold)).next
  | .sqWaitMet .. => h.sqMet.next
  | .sqWaitTimeout .. => h.sqExpires.next
  | .badEntry .. => h.sqBad.next
  | .cqIrqDelay .. => h.cqDelay.next
  | .msixUnmask .. => h.msixMask.next
  | .bar2Read .. => h.bar2Read.next
  | .bar2Write .. => h.bar2Write.next
  | .hostReadFail .. => h.hostFail.next
  | .touchCopyDone .. => h.touchCopy.next
  | .snapshotComplete .. => h.snapEnds.next
  | .replayItem .. => h.replayItem.next
  | .replayEnd .. => h.replayEnds.next
  | .snapIntervalCompute => h.snapIntervals.next
  | .fillCheckDone .. => h.fillChecked.next
  | .fillCopyDone .. => h.fillCopyEnds.next
  | .fillInstallDone .. => h.fillInstalls.next
  | .lockstepMismatch => h.lockstep.next
  | .ctrlCoreUe .. => h.ctrlUe.next
  | .auditPeriod => h.auditPeriod.next
  | .auditRead .. => h.auditRead.next
  | .fhFlush => h.fhFlush.next
  | .ceSummary => h.ceSummary.next
  | .i3cFhRead .. => h.i3cFhRead.next
  | .i3cFhNext => h.i3cFhNext.next
  | .impressionTake => h.impTake.next
  | .rngHealthFail => h.rngFail.next
  | .i3cAttestRequest .. => h.i3cAttest.next
  | .reportReady => h.reportReady.next
  | .fwFetch .. => h.fetchWrite.next
  | .i3cFwChunk .. => h.fwChunk.next
  | .fwBlockCheck .. => h.fwCheck.next
  | .fwInstallDone .. => h.installDone.next
  | .fwPropagateOffer => h.fwOffer.next
  | .fwBitmapResend => h.fwResend.next
  | .fwPropagateRetry => h.fwRetry.next
  | .secBoot => h.secBoot.next
  | .bootWatchdog => h.watchdog.next
  | .secSetWrite .. | .secSetDelete .. => h.flashCommand.next
  | .fuseProgramKey .. => h.fuseCommand.next
  | .jtagInstruction .. => h.jtag.next
  | .vector0MessageSpacing .. => h.spacingEnds.next

/-- So does a step: with an empty queue the clock's, otherwise that of the command at the front. -/
theorem step_canonical (h : s.Canonical) : outCanonical (step s) := by
  unfold step
  split
  · exact h.tick.next
  · exact exec_canonical (.mk h) _

/-- Settles O5: every operation of the model keeps memory canonical, so every command does, and so does a step. -/
theorem stepKeepsMemoryCanonical : Obligations.StepKeepsMemoryCanonical := by
  unfold Obligations.StepKeepsMemoryCanonical
  intro s u h e
  exact State.canonical_iff.1 (step_canonical (State.canonical_iff.2 h) u e)

end Sys2Proof.Machine
end

