-- ==== Sys2Proof/Proofs/EveryCommandAnswers.lean ====
section
/-! SUPPORT. Every command has a meaning. -/

namespace Sys2Proof.Machine

/-- Settles O2: the arm of each command answers a next state, whatever the state. -/
theorem everyCommandAnswersNext : Obligations.EveryCommandAnswersNext := by
  intro c s
  cases c <;> exact ⟨_, rfl⟩

end Sys2Proof.Machine
end

