-- ==== Sys2Proof/Proofs/Keeps.lean ====
section
/-! SUPPORT. What a fold of updates leaves as each of them does. -/

namespace Sys2Proof.Machine

/-- A fold leaves what its step leaves. -/
theorem State.foldl_keeps {α β : Type} (g : State → β) {f : State → α → State} (h : ∀ t x, g (f t x) = g t) (l : List α)
    (s : State) : g (l.foldl f s) = g s := by
  induction l generalizing s with
  | nil => rfl
  | cons x l ih => exact (ih _).trans (h s x)

/-- The same for the elements of the list alone. -/
theorem State.foldl_keeps_mem {α β : Type} (g : State → β) {f : State → α → State} {l : List α} (h : ∀ t, ∀ x ∈ l, g (f t x) = g t)
    (s : State) : g (l.foldl f s) = g s := by
  induction l generalizing s with
  | nil => rfl
  | cons x l ih => exact (ih (fun t y hy => h t y (List.mem_cons_of_mem x hy)) _).trans (h s x (List.mem_cons_self ..))

end Sys2Proof.Machine
end

