-- ==== Sys2Proof/Proofs/ResetValues.lean ====
section
/-! SUPPORT. What a whole-device reset leaves of the registers, the work and the memory (R37), and the reset values. -/

namespace Sys2Proof.Machine

variable (s : State) (k : WholeReset) (cause : Nat)

/-! ### The fields after a whole-device reset -/

@[simp] theorem State.clear_pending : (s.clear k cause).pending = s.pending := by
  simp [State.clear, apply_ite State.pending]
@[simp] theorem State.clear_mem : (s.clear k cause).mem = s.mem.filter fun c => 2 ^ 64 ≤ c.1 || (inBulk c.1 && k != .powerOn) := by
  simp [State.clear, apply_ite State.mem]
@[simp] theorem State.clear_power : (s.clear k cause).power = s.power.after k cause (s.f Pg.pwr F.PWR_ACLK_DIV) := by
  simp [State.clear, apply_ite State.power]
@[simp] theorem State.clear_parts : (s.clear k cause).parts = [] := by
  simp [State.clear, apply_ite State.parts]
@[simp] theorem State.clear_vfEnable : (s.clear k cause).vfEnable = (k == .warm && s.vfEnable) := by
  simp [State.clear, apply_ite State.vfEnable]
@[simp] theorem State.clear_threads : (s.clear k cause).threads = [] := by
  simp [State.clear, apply_ite State.threads]
@[simp] theorem State.clear_formes : (s.clear k cause).formes = [] := by
  simp [State.clear, apply_ite State.formes]
@[simp] theorem State.clear_tiles : (s.clear k cause).tiles = [] := by
  simp [State.clear, apply_ite State.tiles]
@[simp] theorem State.clear_kvs : (s.clear k cause).kvs = [] := by
  simp [State.clear, apply_ite State.kvs]
@[simp] theorem State.clear_cambs : (s.clear k cause).cambs = [] := by
  simp [State.clear, apply_ite State.cambs]
@[simp] theorem State.clear_snaps : (s.clear k cause).snaps = [] := by
  simp [State.clear, apply_ite State.snaps]
@[simp] theorem State.clear_fills : (s.clear k cause).fills = [] := by
  simp [State.clear, apply_ite State.fills]
@[simp] theorem State.clear_replays : (s.clear k cause).replays = [] := by
  simp [State.clear, apply_ite State.replays]
@[simp] theorem State.clear_canopy : (s.clear k cause).canopy = s.canopy.after k := by
  simp [State.clear, apply_ite State.canopy]

/-! ### What goes -/

theorem Canopy.after_none (c : Canopy) : (c.after k).ctx = [] ∧ (c.after k).reqs = [] ∧ (c.after k).colls = [] := by
  cases k <;> exact ⟨rfl, rfl, rfl⟩

theorem keptReg_stage : keptReg k (fwPage * 4096 + F.SEC1_STAGE.off) = true := by cases k <;> decide

/-- A register that is not kept is written by no part of the reset: what the reset writes itself is kept. -/
theorem State.reg_clear {a : Nat} (h : keptReg k a = false) : (s.clear k cause).reg a = resetWord a := by
  have hfiltered : ∀ t : State, t.regs = s.regs.filter (fun r => keptReg k r.1) → t.reg a = resetWord a := by
    intro t ht
    simp [State.reg, ht, AMap.get?_filter (keptReg k), h]
  have hne : ∀ {b : Nat}, keptReg k b = true → a ≠ b := by
    rintro _ hb rfl
    simp [h] at hb
  unfold State.clear
  extract_lets regs addr t1 t2
  have ht1 : t1.reg a = resetWord a := hfiltered t1 rfl
  have ht2 : t2.reg a = resetWord a := by
    unfold t2
    split_ifs with hk
    · obtain rfl := beq_iff_eq.1 hk
      rw [State.setF, State.reg_setReg_ne _ _ (hne (by decide)), State.reg_setReg_ne _ _ (hne (by decide)), ht1]
    · exact ht1
  split_ifs
  · rw [State.setF, State.reg_setReg_ne _ _ (hne (keptReg_stage k)), ht2]
  · exact ht2

/-- The memory keys that a reset keeps: the host's, and but at power-on the bulk's. -/
theorem State.get?_clear_mem (a : Nat) : AMap.get? a (s.clear k cause).mem =
    if 2 ^ 64 ≤ a ∨ (inBulk a = true ∧ k ≠ .powerOn) then AMap.get? a s.mem else none := by
  rw [State.clear_mem, AMap.get?_filter fun a => 2 ^ 64 ≤ a || (inBulk a && k != .powerOn)]
  simp

/-! ### Reset values -/

/-- No register that the state after reset lists stands at an offset of a page other than the challenge's. -/
theorem State.reg_reset {a : Nat} (h : a / 4096 ≠ Pg.sec 0 ∨ a % 4096 < 0x030) : State.reset.reg a = resetWord a := by
  have hnone : AMap.get? a State.reset.regs = none := by
    simp only [State.reset, List.range, List.range.loop, List.map, AMap.get?]
    simp only [Pg.sec] at h
    split_ifs <;> first | rfl | omega
  simp [State.reg, hnone]

theorem resetWord_mask {pg : Nat} (h : (classOf pg).isSome = true) : resetWord (pg * 4096 + oMask) = 0xFFFFFFFF := by
  obtain ⟨⟨c, j⟩, hc⟩ := Option.isSome_iff_exists.1 h
  have hpg : (pg * 4096 + oMask) / 4096 = pg := by simp only [oMask]; omega
  have ho : (pg * 4096 + oMask) % 4096 = oMask := by simp only [oMask]; omega
  simp [resetWord, hpg, ho, hc]

theorem classOf_sync : ∀ q : Fin 32, classOf (Pg.sync q) = some (.sync, q.val) := by decide

/-- Every SYNC page holds the reset values of the first. -/
theorem resetWord_sync {q o : Nat} (hq : q < 32) (ho : o < 4096) : resetWord (Pg.sync q * 4096 + o) = resetWord (Pg.sync 0 * 4096 + o) := by
  have hpage : ∀ p, (p * 4096 + o) / 4096 = p := by omega
  have hoff : ∀ p, (p * 4096 + o) % 4096 = o := by omega
  simp only [resetWord, hpage, hoff, classOf_sync ⟨q, hq⟩, classOf_sync ⟨0, by decide⟩]
  rfl

/-- The 256 words of values and of limits, by row and column of 16. -/
theorem resetWord_values : ∀ a b : Fin 16, resetWord (Pg.sync 0 * 4096 + (0x800 + 4 * (16 * a.val + b.val))) = 0 ∧
    resetWord (Pg.sync 0 * 4096 + (0xC00 + 4 * (16 * a.val + b.val))) = 0xFFFFFFFF := by decide

theorem resetWord_counter {r : Nat} (h : r < 256) : resetWord (Pg.sync 0 * 4096 + (0x800 + 4 * r)) = 0 ∧
    resetWord (Pg.sync 0 * 4096 + (0xC00 + 4 * r)) = 0xFFFFFFFF := by
  have hab := resetWord_values ⟨r / 16, by omega⟩ ⟨r % 16, by omega⟩
  rwa [Nat.div_add_mod] at hab

theorem State.reg_reset_sync (q : Nat) {o : Nat} (ho : o < 4096) :
    State.reset.reg (Pg.sync q * 4096 + o) = resetWord (Pg.sync q * 4096 + o) :=
  State.reg_reset (.inl (by simp only [Pg.sync, Pg.sec]; omega))

theorem State.counter_reset {c : Nat} (h : c < 8192) : State.reset.value c = 0 ∧ State.reset.limit c = 0xFFFFFFFF := by
  have hr : c % 256 < 256 := Nat.mod_lt _ (by decide)
  have hq : c / 256 < 32 := by omega
  constructor
  · rw [State.value, Nat.add_assoc, State.reg_reset_sync _ (by omega), resetWord_sync hq (by omega)]
    exact (resetWord_counter hr).1
  · rw [State.limit, Nat.add_assoc, State.reg_reset_sync _ (by omega), resetWord_sync hq (by omega)]
    exact (resetWord_counter hr).2

/-- Settles O60: after a whole-device reset what the reset does not keep is gone, register by register and key by key. -/
theorem resetValues : Obligations.ResetValues := by
  refine ⟨fun _ => rfl, fun pg hpg => ?_, fun c hc => State.counter_reset hc, ?_, ?_, rfl, fun s k cause => ?_⟩
  · rw [State.reg_reset (.inr (by simp only [oMask]; omega)), resetWord_mask hpg]
  · rw [State.f, State.reg_reset (.inl (by decide))]; decide
  · rw [State.f, State.reg_reset (.inl (by decide))]; decide
  · obtain ⟨hctx, hreqs, hcolls⟩ := Canopy.after_none k s.canopy
    refine ⟨fun a ha => s.reg_clear k cause ha, by simp, by simp, by simp, by simp, by simp, by simp, by simp, by simp, by simp,
      by simp [hctx], by simp [hreqs], by simp [hcolls], by simp [Power.after], by simp [Power.after], by simp [Power.after], by simp,
      fun a ha hb => ?_, fun a ha => ?_⟩
    · rw [State.get?_clear_mem, if_neg (by rcases hb with hb | hb <;> simp [hb] <;> exact ha)]
    · rw [State.get?_clear_mem, if_pos ha]

end Sys2Proof.Machine
end

