-- ==== Sys2Proof/Proofs/PowerAndResets.lean ====
section
/-! SUPPORT. The power of the module and the resets: what each event of a rail, an input, a pin or a request comes to, by the state of
power that it meets (R15 to R19, R29, R33 to R39, R83, R90, R95). -/

namespace Sys2Proof.Machine

variable {s : State}

/-! ### Pins and the history -/

@[simp] theorem State.setGood_pwrGood (s : State) (v : Bool) : (s.setGood v).power.pwrGood = v := by
  unfold State.setGood
  split_ifs with h
  · exact beq_iff_eq.1 h
  · rfl

@[simp] theorem State.setGood_phase (s : State) (v : Bool) : (s.setGood v).power.phase = s.power.phase := by
  unfold State.setGood; split_ifs <;> rfl

@[simp] theorem State.setGood_alertHeld (s : State) (v : Bool) : (s.setGood v).power.alertHeld = s.power.alertHeld := by
  unfold State.setGood; split_ifs <;> rfl

@[simp] theorem State.setTrip_thermTripN (s : State) (v : Bool) : (s.setTrip v).power.thermTripN = v := by
  unfold State.setTrip
  split_ifs with h
  · exact beq_iff_eq.1 h
  · rfl

@[simp] theorem State.setTrip_phase (s : State) (v : Bool) : (s.setTrip v).power.phase = s.power.phase := by
  unfold State.setTrip; split_ifs <;> rfl

@[simp] theorem State.setTrip_pwrGood (s : State) (v : Bool) : (s.setTrip v).power.pwrGood = s.power.pwrGood := by
  unfold State.setTrip; split_ifs <;> rfl

@[simp] theorem State.history_power (s : State) (kind : Nat) (l : List Nat) : (s.history kind l).power = s.power := by
  unfold State.history; split_ifs <;> rfl

@[simp] theorem State.beginWaves_phase (s : State) (o : Option Nat) (k : WaveKind) : (s.beginWaves o k).power.phase = s.power.phase := rfl

@[simp] theorem State.beginWaves_pwrGood (s : State) (o : Option Nat) (k : WaveKind) :
    (s.beginWaves o k).power.pwrGood = s.power.pwrGood := rfl

/-- The waves of a start leave the phase and the pin. -/
theorem State.startWaves_keeps (s : State) :
    s.startWaves.power.phase = s.power.phase ∧ s.startWaves.power.pwrGood = s.power.pwrGood := by
  unfold State.startWaves
  split_ifs <;> exact ⟨rfl, rfl⟩

/-! ### Fields that a flag leaves -/

theorem not_irqSentWord {a : Nat} (h : a / 4096 < 0xE0 ∨ a % 4096 ≠ F.HOST0_IRQ_SENT.off) : ¬ irqSentWord a := by
  rintro ⟨f, rfl⟩
  simp only [Pg.host, F.HOST0_IRQ_SENT] at h
  omega

/-- A field of a page below the host link's, but the flags and their count, reads as before after a flag is set. -/
theorem State.f_event {pg q b : Nat} {x : Fld} (hq : q < 0xE0) (ho : x.off < 4096) (h1 : x.off ≠ oEvent) (h2 : x.off ≠ oCount) :
    (s.event pg b).f q x = s.f q x := by
  simp only [oEvent, oCount] at h1 h2
  rw [State.f, State.reg_event _ _ _ _ (not_irqSentWord (.inl (by omega))) (by simp only [oEvent]; omega)
    (by simp only [oCount]; omega), State.f]

/-! ### All power goes, or the work domain's -/

/-- Without power PWR_GOOD is low and THERM_TRIP_N released (R15, R35). -/
theorem State.powerGone_power (s : State) (phase : PowerPhase) : (s.powerGone phase).power.phase = phase ∧
    (s.powerGone phase).power.pwrGood = false ∧ (s.powerGone phase).power.thermTripN = true := by
  simp [State.powerGone, Power.after]

/-- With the work domain off PWR_GOOD is low and ALERT_N held (R18). -/
theorem State.workDown_power (s : State) : s.workDown.power.phase = .workOff ∧ s.workDown.power.pwrGood = false ∧
    s.workDown.power.alertHeld = true := by
  simp [State.workDown]

theorem State.workFault_power (s : State) (rail : Nat) : (s.workFault rail).power = s.workDown.power := by
  simp [State.workFault]

/-! ### Rails -/

theorem State.powerUp_of_off (h : s.power.phase = .off) :
    s.powerUp = (s.clear .powerOn 0).modPower fun x => { x with phase := .rising 0, pwrEn := true } := by
  simp [State.powerUp, h]

theorem State.powerUp_of_on (h : s.power.phase ≠ .off) : s.powerUp = s := by simp [State.powerUp, h]

theorem State.powerDown_of_off (h : s.power.phase = .off) : s.powerDown = s := by simp [State.powerDown, h]

theorem State.powerDown_of_up (h : s.power.phase = .up) :
    s.powerDown = (s.powerGone .off).modPower fun x => { x with pwrEn := false } := by simp [State.powerDown, h]

theorem State.stageUp_of_next {n stage : Nat} (h : s.power.phase = .rising n) (hn : stage = n + 1) (hr : s.stageMayRise stage = true)
    (h5 : stage ≠ 5) : s.stageUp stage = s.modPower fun x => { x with phase := .rising stage } := by
  simp [State.stageUp, h, ← hn, hr, h5]

theorem State.stageUp_of_last {n : Nat} (h : s.power.phase = .rising n) (hn : 5 = n + 1) (hr : s.stageMayRise 5 = true) :
    s.stageUp 5 = ((s.modPower fun x => { x with phase := .up }).setGood true).startWaves := by
  simp [State.stageUp, h, ← hn, hr]

theorem State.stageExpires_of_rising {n rail : Nat} (h : s.power.phase = .rising n) (hn : railStage rail = n + 1)
    (hr : s.stageMayRise (n + 1) = true) :
    s.stageExpires rail = if n + 1 ≤ 2 then s.powerGone .lockedOff else s.workFault rail := by
  simp [State.stageExpires, h, hn, hr]

theorem State.workRail_of_watched {rail : Nat} (h : s.watched rail = true) (h3 : 3 ≤ railStage rail) :
    s.workRail rail = s.workFault rail := by simp [State.workRail, h, h3]

theorem State.mgmtRail_of_watched {rail : Nat} (h : s.watched rail = true) (h2 : railStage rail ≤ 2) :
    s.mgmtRail rail = s.powerGone .lockedOff := by simp [State.mgmtRail, h, h2]

theorem State.rail_of_unwatched {rail : Nat} (h : s.watched rail = false) : s.workRail rail = s ∧ s.mgmtRail rail = s := by
  simp [State.workRail, State.mgmtRail, h]

/-! ### The input and the clocks -/

theorem State.inputEdge_of_near {mv : Nat} (h : s.anyRail = true) (hmv : 37000 ≤ mv ∧ mv < 40000 ∨ 60000 < mv ∧ mv ≤ 63000) :
    s.inputEdge mv = (s.setF Pg.pwr F.PWR_INPUT_OUT 1).event Pg.pwr Ev.PWR_INPUT_RANGE := by
  simp [State.inputEdge, h, hmv]

theorem State.inputLost_of_far {mv : Nat} (h : s.anyRail = true) (hmv : mv < 37000 ∨ 63000 < mv) :
    s.inputLost mv = s.powerGone .lockedOff := by
  simp [State.inputLost, h, hmv]

theorem State.inputLost_of_held {mv : Nat} (h37 : 37000 ≤ mv) (h63 : mv ≤ 63000) : s.inputLost mv = s := by
  simp [State.inputLost, Nat.not_lt.2 h37, Nat.not_lt.2 h63]

theorem State.pllLock_of_start (hp : s.powered = true) (hl : s.power.pllLocked = false) (hr : s.power.reset ≠ none) :
    s.pllLock = s.modPower fun x => { x with
      pllLocked := true, kclk := 0, aclkFrom := 0, time := 0, high := 0, edge := 0, slew := 0, rate := 0, rateAcc := 0 } := by
  simp [State.pllLock, hp, hl, Option.isSome_iff_ne_none.2 hr]

/-! ### Requests of a whole-device reset (R36) -/

theorem State.requestWhole_of_workOff {k : WholeReset} {cause : Nat} (h : s.power.phase = .workOff) : s.requestWhole k cause = s := by
  simp [State.requestWhole, State.resettable, h]

theorem State.requestWhole_of_none {k : WholeReset} {cause : Nat} (hp : s.powered = true) (hw : s.power.phase ≠ .workOff)
    (hr : s.power.reset = none) : s.requestWhole k cause = s.clear k cause := by
  simp [State.requestWhole, State.resettable, hp, hw, hr]

/-- A power-on reset in progress is higher than any that is asked for. -/
theorem State.requestWhole_of_powerOn {k : WholeReset} {cause : Nat} (hr : s.power.reset = some .powerOn) :
    s.requestWhole k cause = s := by
  have hk : k.rank ≤ WholeReset.powerOn.rank := by cases k <;> decide
  simp [State.requestWhole, hr, hk]

theorem State.i3cReset_of_idle {k : WholeReset} {cause : Nat} (h : s.requestWhole k cause = s) : s.i3cReset k cause = s := by
  simp [State.i3cReset, h]

theorem State.i3cReset_of_live {k : WholeReset} {cause : Nat} (hp : s.powered = true) (ha : s.power.i3cAddr ≠ none) :
    s.i3cReset k cause = s.requestWhole k cause := by
  simp [State.i3cReset, State.i3cLive, hp, Option.isSome_iff_ne_none.2 ha]

theorem State.configures_up (h : s.configures = true) : s.power.phase = .up := by
  simp only [State.configures, Bool.and_eq_true, beq_iff_eq] at h
  exact h.1.1

theorem State.powered_of_up (h : s.power.phase = .up) : s.powered = true := by simp [State.powered, h]

theorem State.vfFlr_of_idle {p : Nat} (h : s.configures = true) (hr : s.power.reset = none) : s.vfFlr p = s.requestReset p true := by
  simp [State.vfFlr, h, hr]

theorem State.vfFlr_of_reset {p : Nat} (h : s.configures = true) (hr : s.power.reset ≠ none) : s.vfFlr p = s := by
  simp [State.vfFlr, h, Option.isSome_iff_ne_none.2 hr]

theorem State.vfFlr_of_retry {p : Nat} (h : s.configures = false) : s.vfFlr p = s.configRetry (p + 1) := by
  simp [State.vfFlr, h]

theorem State.pf0Flr_of_retry (h : s.configures = false) : s.pf0Flr = s.configRetry 0 := by
  simp [State.pf0Flr, h]

theorem State.coldDone_of_done (hn : s.power.perstN = true) (hd : s.startDone .cold = true) : s.coldDone = s.becomeReady := by
  simp [State.coldDone, State.endWhole, hn, hd]

theorem State.coldDone_of_low (hn : s.power.perstN = false) : s.coldDone = s := by
  simp [State.coldDone, hn]

/-- The function-level reset of PF0 is a warm reset, which turns the virtual functions off (R470). -/
theorem State.pf0Flr_warm (h : s.configures = true) (hr : s.power.reset = none) :
    s.pf0Flr.power.reset = some .warm ∧ s.pf0Flr.power.cause = 6 ∧ s.pf0Flr.vfEnable = false := by
  have hup := State.configures_up h
  have e : s.pf0Flr = State.clear { s.setFn 0 { payload := (s.fn 0).payload } with vfEnable := false, numVfs := 0 } .warm 6 := by
    unfold State.pf0Flr
    rw [h, if_neg (by decide)]
    exact State.requestWhole_of_none (State.powered_of_up hup) (by simp [hup]) hr
  rw [e]
  simp [Power.after]

/-! ### Partitions and the scrubber -/

theorem State.createZeroed_of_creating {p : Nat} (hst : (s.part p).st = .creating) (hz : (s.part p).zeroing = true)
    (hk : (s.part p).keyGen ≠ 0) :
    s.createZeroed p = ((s.errorsZeroed p).modPart p fun x => { x with zeroing := false }).beginWaves (some p) .create := by
  simp [State.createZeroed, hst, hz, hk]

theorem State.teardownZeroed_of_tearing {p : Nat} (hst : (s.part p).st = .tearingDown) (hz : (s.part p).zeroing = true) :
    s.teardownZeroed p = ((((s.errorsZeroed p).setPart p {}).setF (Pg.part p) F.MEMP_FP_LO 0).setF (Pg.part p) F.MEMP_FP_HI 0).event
      (Pg.part p) Ev.MEMP_TEARDOWN_DONE := by
  simp [State.teardownZeroed, hst, hz]

/-- A partition whose teardown is over is as it was before its creation, its fingerprint gone; memory is what the zeroing left. -/
theorem State.teardownZeroed_leaves {p : Nat} (hp : p < 8) (hst : (s.part p).st = .tearingDown) (hz : (s.part p).zeroing = true) :
    (s.teardownZeroed p).part p = {} ∧ (s.teardownZeroed p).f (Pg.part p) F.MEMP_FP_LO = 0 ∧
    (s.teardownZeroed p).f (Pg.part p) F.MEMP_FP_HI = 0 ∧ (s.teardownZeroed p).mem = (s.errorsZeroed p).mem ∧
    (s.teardownZeroed p).faulty = (s.errorsZeroed p).faulty := by
  have hpg : Pg.part p < 0xE0 := by simp only [Pg.part]; omega
  rw [State.teardownZeroed_of_tearing hst hz]
  refine ⟨?_, ?_, ?_, by simp, by simp⟩
  · rw [State.part, State.event_parts]
    exact AMap.getD_put_self ..
  · rw [State.f_event hpg (by decide) (by decide) (by decide), State.f_setF_ne _ _ _ _ _ _ (by simp [F.MEMP_FP_LO, F.MEMP_FP_HI]),
      State.f_setF_self _ _ _ _ (by decide), Nat.zero_mod]
  · rw [State.f_event hpg (by decide) (by decide) (by decide), State.f_setF_self _ _ _ _ (by decide), Nat.zero_mod]

/-- A visit of a unit of storage that finds nothing moves on to the next one of the pass. -/
theorem State.scrub_of_clean {m : Nat} (hpos : s.f (Pg.mem m) F.MEMD_POS + 1 < scrubUnits m)
    (hclean : ∀ u ∈ s.faulty, s.scrubs m u.1 = false) :
    s.scrub m { corrected := [], uncorrectable := none } = s.setF (Pg.mem m) F.MEMD_POS (s.f (Pg.mem m) F.MEMD_POS + 1) := by
  have hstored : (s.faulty.filter fun u => s.scrubs m u.1) = [] := by
    simpa [List.filter_eq_nil_iff] using hclean
  simp [State.scrub, hstored, Nat.not_le.2 hpos]

/-! ### The settled statement -/

/-- Settles O53: every event acts by the state of power and of the partition that it meets. -/
theorem powerAndResets : Obligations.PowerAndResets := by
  intro s rail stage mv p a
  refine ⟨fun h => ?_, fun h => ?_, fun h => ?_, fun h => ?_, fun n h hn hr => ⟨fun h5 => ?_, fun h5 => ?_⟩, fun n h hn hr => ?_,
    fun h h3 => ?_, fun h h2 => ?_, fun h => ?_, fun h hmv => ?_, fun h hmv => ?_, fun h h37 h63 => ?_, fun hp hl hr => ?_,
    fun h hr => ⟨?_, ?_⟩, fun h hr => ?_, fun h => ⟨?_, ?_⟩, fun h => ⟨?_, fun ha => ⟨?_, ?_⟩⟩, fun hp hw hr => ⟨?_, fun ha => ⟨?_, ?_⟩⟩,
    fun hr _ => ⟨?_, ?_⟩, rfl, fun hn hd => ?_, fun hn => ?_, fun hp => ?_, fun hq => ?_, fun hq => ?_, fun hst hz hk => ?_,
    fun hst hz => ?_, fun hm e => ?_, fun hm m hpos hclean => ?_⟩
  · exact congrArg Host.Outcome.next (State.powerUp_of_off h)
  · exact congrArg Host.Outcome.next (State.powerUp_of_on h)
  · obtain ⟨hphase, hgood, htrip⟩ := s.powerGone_power .off
    exact ⟨_, congrArg Host.Outcome.next (State.powerDown_of_up h), hphase, hgood, htrip⟩
  · exact congrArg Host.Outcome.next (State.powerDown_of_off h)
  · exact congrArg Host.Outcome.next (State.stageUp_of_next h hn hr h5)
  · rw [h5] at hn hr
    obtain ⟨hphase, hgood⟩ := State.startWaves_keeps ((s.modPower fun x => { x with phase := .up }).setGood true)
    refine ⟨_, congrArg Host.Outcome.next (h5 ▸ State.stageUp_of_last h hn hr), ?_, ?_⟩
    · simp [hphase]
    · simp [hgood]
  · exact congrArg Host.Outcome.next (State.stageExpires_of_rising h hn hr)
  · refine ⟨_, congrArg Host.Outcome.next (State.workRail_of_watched h h3), ?_⟩
    rw [State.workFault_power]
    exact s.workDown_power
  · exact congrArg Host.Outcome.next (State.mgmtRail_of_watched h h2)
  · obtain ⟨hwork, hmgmt⟩ := State.rail_of_unwatched h
    exact ⟨congrArg Host.Outcome.next hwork, congrArg Host.Outcome.next hmgmt⟩
  · exact congrArg Host.Outcome.next (State.inputEdge_of_near h hmv)
  · exact congrArg Host.Outcome.next (State.inputLost_of_far h hmv)
  · exact congrArg Host.Outcome.next (State.inputLost_of_held h37 h63)
  · exact congrArg Host.Outcome.next (State.pllLock_of_start hp hl hr)
  · exact congrArg Host.Outcome.next (State.vfFlr_of_idle h hr)
  · exact ⟨_, rfl, State.pf0Flr_warm h hr⟩
  · exact congrArg Host.Outcome.next (State.vfFlr_of_reset h hr)
  · exact congrArg Host.Outcome.next (State.vfFlr_of_retry h)
  · exact congrArg Host.Outcome.next (State.pf0Flr_of_retry h)
  · exact congrArg Host.Outcome.next (State.requestWhole_of_workOff h)
  · exact congrArg Host.Outcome.next (State.i3cReset_of_idle (State.requestWhole_of_workOff h))
  · exact congrArg Host.Outcome.next (State.i3cReset_of_idle (State.requestWhole_of_workOff h))
  · exact congrArg Host.Outcome.next (State.requestWhole_of_none hp hw hr)
  · exact congrArg Host.Outcome.next ((State.i3cReset_of_live hp ha).trans (State.requestWhole_of_none hp hw hr))
  · exact congrArg Host.Outcome.next ((State.i3cReset_of_live hp ha).trans (State.requestWhole_of_none hp hw hr))
  · exact congrArg Host.Outcome.next (State.i3cReset_of_idle (State.requestWhole_of_powerOn hr))
  · exact congrArg Host.Outcome.next (State.i3cReset_of_idle (State.requestWhole_of_powerOn hr))
  · exact congrArg Host.Outcome.next (State.coldDone_of_done hn hd)
  · exact congrArg Host.Outcome.next (State.coldDone_of_low hn)
  · exact congrArg Host.Outcome.next (if_pos hp)
  · exact congrArg Host.Outcome.next (if_pos hq)
  · exact congrArg Host.Outcome.next (if_neg (by simp [hq]))
  · exact congrArg Host.Outcome.next (State.createZeroed_of_creating hst hz hk)
  · exact ⟨_, rfl, State.teardownZeroed_leaves p.isLt hst hz⟩
  · exact congrArg Host.Outcome.next (if_pos hm)
  · exact congrArg Host.Outcome.next ((if_pos hm).trans (State.scrub_of_clean hpos hclean))

end Sys2Proof.Machine
end

