-- ==== Sys2Proof/Proofs/GovernorAndThermal.lean ====
section
/-! SUPPORT. The governor, the waves, the temperature and the clocks (R20 to R32). -/

namespace Sys2Proof.Machine

variable {s : State}

/-! ### Fields of one page -/

/-- A field of the same page apart from the one that is put: of another word, or of other bits of the word. -/
theorem State.f_setF_other {pg : Nat} {x y : Fld} {v : Nat}
    (h : x.off ≠ y.off ∨ y.lo + y.w ≤ 32 ∧ (y.lo + y.w ≤ x.lo ∨ x.lo + x.w ≤ y.lo)) : (s.setF pg x v).f pg y = s.f pg y := by
  by_cases ho : x.off = y.off
  · obtain ⟨h32, hbits⟩ := h.resolve_left (not_not_intro ho)
    exact State.f_setF_apart _ _ _ _ _ ho h32 hbits
  · exact State.f_setF_ne _ _ _ _ _ _ (by omega)

@[simp] theorem State.f_modPower (s : State) (g : Power → Power) (pg : Nat) (x : Fld) : (s.modPower g).f pg x = s.f pg x := rfl

theorem State.f_lt (s : State) (pg : Nat) (x : Fld) : s.f pg x < 2 ^ x.w := bits_lt _ _ _

/-- u shows what s shows in the PWR page but for the flags and their count, with the power and the memory of s. -/
def State.shownBy (s u : State) : Prop :=
  (∀ x : Fld, x.off < 4096 → x.off ≠ oEvent → x.off ≠ oCount → u.f Pg.pwr x = s.f Pg.pwr x) ∧ u.power = s.power ∧ u.mem = s.mem

theorem State.shownBy_refl (s : State) : s.shownBy s := ⟨fun _ _ _ _ => rfl, rfl, rfl⟩

theorem State.shownBy_event {t : State} {b : Nat} (h : s.shownBy t) : s.shownBy (t.event Pg.pwr b) := by
  obtain ⟨hf, hp, hm⟩ := h
  exact ⟨fun x ho h1 h2 => (State.f_event (by decide) ho h1 h2).trans (hf x ho h1 h2), (t.event_power _ _).trans hp,
    (t.event_mem _ _).trans hm⟩

theorem State.shownBy_ite {a b : State} {c : Prop} [Decidable c] (ha : s.shownBy a) (hb : s.shownBy b) :
    s.shownBy (if c then a else b) := by
  split_ifs
  · exact ha
  · exact hb

/-! ### The governor (R20, R21) -/

@[simp] theorem State.showLevel_power (s : State) : s.showLevel.power = s.power := rfl

theorem State.f_showLevel {x : Fld} (h : F.PWR_ISSUE_LEVEL.off ≠ x.off ∨ x.lo + x.w ≤ 32 ∧ (x.lo + x.w ≤ 0 ∨ 5 ≤ x.lo)) :
    s.showLevel.f Pg.pwr x = s.f Pg.pwr x := State.f_setF_other h

/-- A sample enters the averages, and its voltage and current are shown. -/
theorem State.govSample_clocked (h : s.clocked = true) {vin iin : Nat} (hv : vin < 2 ^ 16) (hi : iin < 2 ^ 16) :
    (s.govSample vin iin).power.samples = (vin * iin :: s.power.samples).take 5000 ∧
    (s.govSample vin iin).f Pg.pwr F.PWR_VIN_MV = vin ∧ (s.govSample vin iin).f Pg.pwr F.PWR_IIN_10MA = iin ∧
    (s.govSample vin iin).mem = s.mem := by
  unfold State.govSample
  rw [h, if_neg (by decide)]
  extract_lets was s1 above s2 s3 s4 s5
  have hvin : s5.f Pg.pwr F.PWR_VIN_MV = vin := by
    simp (disch := decide) only [s5, s4, s3, State.f_setF_other]
    rw [State.f_setF_self _ _ _ _ (by decide)]
    exact Nat.mod_eq_of_lt hv
  have hiin : s5.f Pg.pwr F.PWR_IIN_10MA = iin := by
    simp (disch := decide) only [s5, s4, s3, State.f_setF_other]
    rw [State.f_setF_self _ _ _ _ (by decide)]
    exact Nat.mod_eq_of_lt hi
  have hsamples : s5.power.samples = (vin * iin :: s.power.samples).take 5000 := by simp [s5, s4, s3, s2, s1]
  have hmem : s5.mem = s.mem := by simp [s5, s4, s3, s2, s1]
  obtain ⟨hf, hp, hm⟩ := State.shownBy_ite (c := (!was && above) = true) (State.shownBy_event s5.shownBy_refl) s5.shownBy_refl
  rw [hp, hm, hf F.PWR_VIN_MV (by decide) (by decide) (by decide), hf F.PWR_IIN_10MA (by decide) (by decide) (by decide)]
  exact ⟨hsamples, hvin, hiin, hmem⟩

/-- An evaluation raises the cap level: neither mean is too high, the longer one is low, and the last raise is ten evaluations ago. -/
def State.raisesCap (s : State) : Bool :=
  !s.meanAbove 100 (s.f Pg.pwr F.PWR_PEAK_W) && !s.meanAbove 5000 (s.f Pg.pwr F.PWR_CAP_W - 20) &&
    s.meanBelow 5000 (s.f Pg.pwr F.PWR_CAP_W - 60) && 10 ≤ min 10 (s.power.sinceRaise + 1)

theorem State.raisesCap_of_low (hpeak : s.meanAbove 100 (s.f Pg.pwr F.PWR_PEAK_W) = false)
    (hhigh : s.meanAbove 5000 (s.f Pg.pwr F.PWR_CAP_W - 20) = false) (hlow : s.meanBelow 5000 (s.f Pg.pwr F.PWR_CAP_W - 60) = true)
    (hten : 9 ≤ s.power.sinceRaise) : s.raisesCap = true := by
  simp [State.raisesCap, hpeak, hhigh, hlow, hten]

/-- The cap level that an evaluation leaves (R21). -/
def State.newCap (s : State) : Nat :=
  if s.meanAbove 100 (s.f Pg.pwr F.PWR_PEAK_W) then s.f Pg.pwr F.PWR_CAP_LEVEL - 4
  else if s.meanAbove 5000 (s.f Pg.pwr F.PWR_CAP_W - 20) then s.f Pg.pwr F.PWR_CAP_LEVEL - 1
  else if s.raisesCap then min 16 (s.f Pg.pwr F.PWR_CAP_LEVEL + 1)
  else s.f Pg.pwr F.PWR_CAP_LEVEL

theorem State.newCap_lt (s : State) : s.newCap < 2 ^ 5 := by
  have hcap : s.f Pg.pwr F.PWR_CAP_LEVEL < 2 ^ 5 := s.f_lt _ _
  unfold State.newCap
  split_ifs <;> omega

theorem State.govEvaluate_clocked (h : s.clocked = true) : s.govEvaluate.f Pg.pwr F.PWR_CAP_LEVEL = s.newCap ∧
    (s.raisesCap = true → s.govEvaluate.power.sinceRaise = 0) := by
  unfold State.govEvaluate
  rw [h, if_neg (by decide)]
  extract_lets cap capW since raise new s1 s2
  have hcap : s2.f Pg.pwr F.PWR_CAP_LEVEL = s.newCap := by
    rw [State.f_showLevel (by decide), State.f_setF_self _ _ _ _ (by decide)]
    exact Nat.mod_eq_of_lt s.newCap_lt
  have hsince : s.raisesCap = true → s2.power.sinceRaise = 0 := fun hr => by
    simp only [s2, s1, State.showLevel_power, State.setF_power, State.modPower_power]
    exact if_pos hr
  obtain ⟨hf, hp, _⟩ := State.shownBy_ite (c := (cap == 16 && decide (new < 16)) = true) (State.shownBy_event s2.shownBy_refl) s2.shownBy_refl
  rw [hp, hf F.PWR_CAP_LEVEL (by decide) (by decide) (by decide)]
  exact ⟨hcap, hsince⟩

/-! ### Waves (R24 to R26) -/

theorem AMap.get?_mapKey {β γ : Type} (g : Nat → β → γ) (j : Nat) (m : AMap β) :
    AMap.get? j (m.map fun x => (x.1, g x.1 x.2)) = (AMap.get? j m).map (g j) := by
  induction m with
  | nil => rfl
  | cons x t ih =>
    obtain ⟨k, v⟩ := x
    by_cases hk : k = j
    · simp [AMap.get?, hk]
    · simp [AMap.get?, hk, ih]

/-- A core is released by wave `w` of an owner's set: it stands in the wave, in the owner's partition, and no switch holds it through a
wave of another kind. -/
def State.inWave (s : State) (owner : Option Nat) (w : WaveSet) (c : Nat × Core) : Bool :=
  c.1 % 8 == w.next && (w.kind == .modeSwitch || !c.2.heldSwitch) && (match owner with
    | some p => s.corePart c.1 == p
    | none => true)

/-- A core as its wave releases it. -/
def Core.released (x : Core) (s : State) : Core :=
  { x with held := false, heldSwitch := false, ramp := s.rampStart, lastIssue := s.aclk }

/-- The cores after wave `w` of an owner's set. -/
def State.waveCores (s : State) (owner : Option Nat) (w : WaveSet) : AMap Core :=
  s.cores.map fun c => (c.1, if s.inWave owner w c then c.2.released s else c.2)

/-- A wave that is due and not the last of its set releases its cores; the next one is due at the next grid point. -/
theorem State.waveStart_of_due {owner : Option Nat} {w : WaveSet} (h : s.clocked = true) (hup : s.power.phase = .up)
    (he : s.power.commonEdge = true) (hw : s.power.waves.find? (fun w => w.owner == owner && s.power.reached w.due) = some w)
    (h7 : w.next < 7) : s.waveStart owner = { s with cores := s.waveCores owner w }.modPower fun x =>
      { x with waves := s.power.waves.erase w ++ [{ w with next := w.next + 1, due := x.nextGrid }] } := by
  have hcores : (s.cores.map fun (c : Nat × Core) => if s.inWave owner w c then (c.1, c.2.released s) else c) = s.waveCores owner w := by
    refine List.map_congr_left fun c _ => ?_
    split_ifs <;> rfl
  unfold State.waveStart
  simp only [h, hup, he, hw, Nat.not_le.2 h7, ← hcores]
  rfl

theorem State.waveStart_of_none {owner : Option Nat} (h : s.power.commonEdge = false ∨
    ∀ x ∈ s.power.waves, x.owner = owner → s.power.reached x.due = false) : s.waveStart owner = s := by
  unfold State.waveStart
  split
  · rfl
  · next hrun =>
    have he : s.power.commonEdge = true := by simp_all
    have hnone : s.power.waves.find? (fun w => w.owner == owner && s.power.reached w.due) = none := by
      simpa using h.resolve_left (by simp [he])
    rw [hnone]

/-- A core of the wave is released, under the ramp of a start. -/
theorem State.get?_waveCores {owner : Option Nat} {w : WaveSet} {k : Nat} {y : Core} (hk : AMap.get? k s.cores = some y)
    (hin : s.inWave owner w (k, y) = true) : AMap.get? k (s.waveCores owner w) = some (y.released s) := by
  rw [State.waveCores, AMap.get?_mapKey fun k y => if s.inWave owner w (k, y) then y.released s else y, hk]
  simp [hin]

theorem State.takeGap_of_grid (h : s.clocked = true) (hw : s.power.waves = []) (hg : s.power.atGrid = true) :
    s.takeGap = s.modPower fun x => { x with waveGap := max 4000 (s.f Pg.pwr F.PWR_WAVE_GAP_NS) } := by
  simp [State.takeGap, h, hw, hg]

theorem State.takeGap_of_busy (h : s.power.waves ≠ [] ∨ s.power.atGrid = false) : s.takeGap = s := by
  rcases h with h | h <;> simp [State.takeGap, h]

/-! ### Restarts (R22) -/

theorem State.rampStep_of_due {c n a : Nat} (h : (s.core c).ramp = some (n, a)) (ha : a + 1000 ≤ s.aclk) :
    s.rampStep c = s.modCore c fun x => { x with ramp := if s.level ≤ n + 4 then none else some (n + 4, a + 1000) } := by
  simp [State.rampStep, h, Nat.not_lt.2 ha]

theorem State.rampStep_of_early {c n a : Nat} (h : (s.core c).ramp = some (n, a)) (ha : s.aclk < a + 1000) : s.rampStep c = s := by
  simp [State.rampStep, h, ha]

theorem State.rampStep_of_none {c : Nat} (h : (s.core c).ramp = none) : s.rampStep c = s := by
  simp [State.rampStep, h]

/-! ### Temperature (R27 to R29) -/

theorem maxOf_lt {l : List Nat} {n : Nat} (h : ∀ x ∈ l, x < n) (hn : 0 < n) : maxOf l < n := by
  have hfold : ∀ (l : List Nat) (a : Nat), a < n → (∀ x ∈ l, x < n) → l.foldl max a < n := by
    intro l
    induction l with
    | nil => exact fun a ha _ => ha
    | cons x t ih => exact fun a ha hl => ih _ (max_lt ha (hl x (by simp))) fun y hy => hl y (by simp [hy])
  exact hfold l 0 hn h

theorem maxOf_bytes_lt (l : List (BitVec 8)) : maxOf (l.map fun v => v.toNat) < 2 ^ 8 := by
  refine maxOf_lt (fun x hx => ?_) (by decide)
  obtain ⟨v, _, rfl⟩ := List.mem_map.1 hx
  exact v.isLt

theorem State.stageFor_le (s : State) (now hot : Nat) : s.stageFor now hot ≤ 3 := by
  have hfind : ∀ q : Nat → Bool, ([3, 2, 1].find? q).getD 0 ≤ 3 := by
    intro q
    cases h : [3, 2, 1].find? q with
    | none => exact Nat.zero_le _
    | some i => have hi := List.mem_of_find?_eq_some h; simp at hi ⊢; omega
  exact max_le (hfind _) (hfind _)

/-- The thermal stage after a sample: by the dice, and no lower than 2 while a package is above 95 °C. -/
def State.newStage (s : State) (sensors drams : List Nat) : Nat :=
  if 95 < maxOf drams then max 2 (s.stageFor s.power.dieStage (maxOf sensors)) else s.stageFor s.power.dieStage (maxOf sensors)

theorem State.newStage_lt (s : State) (sensors drams : List Nat) : s.newStage sensors drams < 2 ^ 3 := by
  have hdie := s.stageFor_le s.power.dieStage (maxOf sensors)
  unfold State.newStage
  split_ifs <;> omega

theorem State.thermSample_powered (h : s.powered = true) {sensors drams : List Nat} {inlet : Nat} (hd : maxOf drams < 2 ^ 8)
    (hi : inlet < 2 ^ 8) : (s.thermSample sensors drams inlet).f Pg.pwr F.PWR_THERM_STAGE = s.newStage sensors drams ∧
    (s.thermSample sensors drams inlet).f Pg.pwr F.PWR_INLET_C = inlet ∧
    (s.thermSample sensors drams inlet).f Pg.pwr F.PWR_DRAM_MAX_C = maxOf drams ∧ (s.thermSample sensors drams inlet).mem = s.mem := by
  unfold State.thermSample
  rw [h, if_neg (by decide)]
  extract_lets dram old die new hot s1 s2 s3 s4 s5
  have hstage : s4.f Pg.pwr F.PWR_THERM_STAGE = s.newStage sensors drams := by
    simp (disch := decide) only [s4, s3, State.f_showLevel, State.f_setF_other]
    rw [State.f_setF_self _ _ _ _ (by decide)]
    exact Nat.mod_eq_of_lt (s.newStage_lt sensors drams)
  have hinlet : s4.f Pg.pwr F.PWR_INLET_C = inlet := by
    simp (disch := decide) only [s4, s3, State.f_showLevel, State.f_setF_other]
    rw [State.f_setF_self _ _ _ _ (by decide)]
    exact Nat.mod_eq_of_lt hi
  have hdram : s4.f Pg.pwr F.PWR_DRAM_MAX_C = dram := by
    simp (disch := decide) only [s4, s3, s2, State.f_showLevel, State.f_setF_other]
    rw [State.f_setF_self _ _ _ _ (by decide)]
    exact Nat.mod_eq_of_lt hd
  have hmem : s4.mem = s.mem := by simp [s4, s3, s2, s1, State.showLevel]
  have hs5 : s4.shownBy s5 := State.shownBy_ite (State.shownBy_event s4.shownBy_refl) s4.shownBy_refl
  obtain ⟨hf, _, hm⟩ := State.shownBy_ite (c := old < new) (b := s5) (State.shownBy_event (b := Ev.PWR_THERM_STAGE1 + new - 1) hs5) hs5
  rw [hm, hf F.PWR_THERM_STAGE (by decide) (by decide) (by decide), hf F.PWR_INLET_C (by decide) (by decide) (by decide),
    hf F.PWR_DRAM_MAX_C (by decide) (by decide) (by decide)]
  exact ⟨hstage, hinlet, hdram, hmem⟩

/-- At the trip the work domain goes off and THERM_TRIP_N falls (R29). -/
theorem State.thermTrip_of_hot (h : s.powered = true) (ht : s.power.thermTripN = true) {sensor celsius : Nat} (hc : 118 ≤ celsius) :
    (s.thermTrip sensor celsius).power.phase = .workOff ∧ (s.thermTrip sensor celsius).power.thermTripN = false ∧
    (s.thermTrip sensor celsius).power.pwrGood = false := by
  obtain ⟨hphase, hgood, _⟩ := s.workDown_power
  simp [State.thermTrip, h, ht, Nat.not_lt.2 hc, hphase, hgood]

theorem State.thermTrip_of_cool {sensor celsius : Nat} (hc : celsius < 118) : s.thermTrip sensor celsius = s := by
  simp [State.thermTrip, hc]

/-! ### A lost clock (R32) -/

/-- A clock other than KCLK that is lost is an error of every partition, and stops them all. -/
theorem State.clockFails_of_clock (h : s.clocked = true) {i : Fin 6} (hi : i ≠ 3) :
    let t := ({ s with opens := s.opens + 1 }.event Pg.pwr Ev.PWR_CLOCK_FAULT).modPower fun x =>
      { x with alertHeld := true, clockFault := true, busUnsure := x.busUnsure || i == 5 }
    s.clockFails (.clock i) = (List.range (t.errRecordAll { cause := 0x10 }).k).foldl (fun s p => s.stopPartition p)
      (t.errRecordAll { cause := 0x10 }) := by
  have h3 : (i.val == 3) = false := by simpa [Fin.ext_iff] using hi
  have h5 : (i.val == 5) = (i == 5) := by simp [Fin.ext_iff]
  simp only [State.clockFails, h, bne, h3, h5]
  simp

/-! ### The settled statement -/

/-- Settles O54: the governor, the waves, the temperature and the clocks act by what the sample, the edge or the fault finds. -/
theorem governorAndThermal : Obligations.GovernorAndThermal := by
  intro s c vin iin sensors drams inlet celsius sensor
  refine ⟨fun h => ⟨?_, ?_, fun hup he o x hx h7 => ?_, fun o ho => ?_, fun hw hg => ?_, fun hb => ?_, fun i hi => ?_⟩,
    fun hc => ?_, fun hc => ?_, fun n a hr => ⟨fun ha => ?_, fun ha => ?_⟩, fun hr => ?_, fun hp => ?_, fun hp ht hc => ?_, fun hc => ?_⟩
  · exact ⟨_, rfl, State.govSample_clocked h vin.isLt iin.isLt⟩
  · obtain ⟨hcap, hsince⟩ := State.govEvaluate_clocked h
    refine ⟨_, rfl, fun hpeak => ?_, fun hpeak hhigh => ?_, fun hpeak hhigh hno => ?_, fun hpeak hhigh hlow hten => ⟨?_, hsince ?_⟩⟩
    · rw [hcap, State.newCap, if_pos hpeak]
    · rw [hcap, State.newCap, if_neg (by simp [hpeak]), if_pos hhigh]
    · have hr : s.raisesCap = false := by
        rcases hno with hno | hno
        · simp [State.raisesCap, hno]
        · simp [State.raisesCap]; omega
      rw [hcap, State.newCap, if_neg (by simp [hpeak]), if_neg (by simp [hhigh]), if_neg (by simp [hr])]
    · rw [hcap, State.newCap, if_neg (by simp [hpeak]), if_neg (by simp [hhigh]), if_pos (State.raisesCap_of_low hpeak hhigh hlow hten)]
    · exact State.raisesCap_of_low hpeak hhigh hlow hten
  · refine ⟨_, congrArg Host.Outcome.next (State.waveStart_of_due h hup he hx h7), rfl, fun k y hk hmod hp hsw => ?_⟩
    refine ⟨_, State.get?_waveCores hk ?_, rfl, rfl, rfl, rfl⟩
    cases o with
    | none => rcases hsw with hsw | hsw <;> simp [State.inWave, hmod, hsw]
    | some p => rcases hsw with hsw | hsw <;> simp [State.inWave, hmod, hsw, hp p rfl]
  · exact congrArg Host.Outcome.next (State.waveStart_of_none ho)
  · exact congrArg Host.Outcome.next (State.takeGap_of_grid h hw hg)
  · exact congrArg Host.Outcome.next (State.takeGap_of_busy hb)
  · exact congrArg Host.Outcome.next (State.clockFails_of_clock h hi)
  · exact congrArg Host.Outcome.next (if_neg (Nat.not_lt.2 hc))
  · exact congrArg Host.Outcome.next (if_pos hc)
  · exact congrArg Host.Outcome.next (State.rampStep_of_due hr ha)
  · exact congrArg Host.Outcome.next (State.rampStep_of_early hr ha)
  · exact congrArg Host.Outcome.next (State.rampStep_of_none hr)
  · exact ⟨_, rfl, State.thermSample_powered hp (maxOf_bytes_lt drams) inlet.isLt⟩
  · exact ⟨_, rfl, State.thermTrip_of_hot hp ht hc⟩
  · exact congrArg Host.Outcome.next (State.thermTrip_of_cool hc)

end Sys2Proof.Machine
end

