-- ==== Sys2Proof/Proofs/StrayFlags.lean ====
section
/-! SUPPORT. Writes of W1C bits in a state whose record of the bits that hardware has set in the PCLK cycle goes beyond the register's 32
bits. The model takes the complement of that record by subtracting it from 0xFFFFFFFF (`State.clearW1c`), so that a bit of weight 2^32
keeps a write from clearing any bit. No hardware sets such a bit, but the statements on writes hold for no less than every state. -/

namespace Sys2Proof.Machine

/-- The register at a BAR0 offset reads `w`, and hardware has, by the record, set a bit beyond its 32 in the present PCLK cycle. -/
def State.beyond (a : Nat) (w : Word) : State := { regs := [(a, w)], lastSet := [(a, (1, 2 ^ 32))] }

/-- Refutes O56: flag 0 of the PWR page is 1, hardware sets none of its flags, and a write of 1 to the flag leaves it 1. -/
theorem not_headersAndDirectory : ¬ Obligations.HeadersAndDirectory := by
  unfold Obligations.HeadersAndDirectory
  intro h
  let a := Pg.pwr * 4096 + oEvent
  have hw : (State.beyond a 1).writes .pf0 Pg.pwr := by decide
  obtain ⟨_, _, _, hclear, _⟩ := (h (State.beyond a 1) .pf0 1 1 0 0 0).1 hw
  obtain ⟨u, hu, hbits⟩ := hclear .pwr 0 rfl
  cases hu
  have hflag := hbits 0 (by decide) (by decide)
  revert hflag
  decide

/-- Refutes O55: PROG_VALID of core 0 is 1, hardware does not set it in the PCLK cycle, and a write of 1 leaves it 1. -/
theorem not_registerAccesses : ¬ Obligations.RegisterAccesses := by
  unfold Obligations.RegisterAccesses
  intro h
  let a := Pg.core 0 * 4096 + 0x034
  have hw : (State.beyond a 0x80000000).writes .pf0 ((BitVec.ofNat 26 a).toNat / 4096) := by decide
  obtain ⟨_, _, _, _, _, _, _, _, _, _, hplain⟩ := h (State.beyond a 0x80000000) .pf0 (BitVec.ofNat 26 a) 0 0x80000000
  obtain ⟨u, hu, hbits, _⟩ := hplain .core 0 (by decide) (by decide) (by decide) (by decide) hw (by decide) (by decide) (by decide)
  cases hu
  have hvalid := hbits 31 (by decide)
  revert hvalid
  decide

end Sys2Proof.Machine
end

