-- ==== Sys2Proof/Proofs/TilesRun.lean ====
section
/-! SUPPORT. Tiles on a core: claimed, staged, begun, ended, and ended by a fault (R109, R110, R119, R150). -/

namespace Sys2Proof.Machine

variable {s : State}

/-! ### Corrected errors leave tiles and errors in storage -/

@[simp] theorem State.correctedAt_tiles (s : State) (a : Nat) : (s.correctedAt a).tiles = s.tiles := by
  simp only [State.correctedAt]
  split_ifs <;> simp [State.countCe, State.satF]

@[simp] theorem State.correctedFor_tiles (s : State) (p : Nat) (l : List (BitVec 48)) : (s.correctedFor p l).tiles = s.tiles := by
  refine State.foldl_keeps State.tiles (fun t a => ?_) l s
  split_ifs
  · exact t.correctedAt_tiles _
  · rfl

/-! ### Claims (R109, R119) -/

theorem State.claimReturn_of_tile {i c b n : Nat} {s' : State} (h : s.mayClaim i c = true) (hc : s.claimTile i c = (s', some (b, n))) :
    s.claimReturn i c =
      let t : Tile := { forme := i, core := c, slot := (s.forme i).slot, branch := b, index := n, phase := .claimed }
      State.fetchRemote { s' with tiles := s'.tiles ++ [t] } i c t := by
  simp [State.claimReturn, h, hc]

theorem State.claimReturn_of_exhausted {i c : Nat} {s' : State} (h : s.mayClaim i c = true) (hc : s.claimTile i c = (s', none)) :
    s.claimReturn i c = s'.popQueue c (s.forme i).slot := by
  simp [State.claimReturn, h, hc]

/-! ### Chunks (R119, R224) -/

/-- Two changes of a core's tile of a forme are one where they agree on each tile that is meant. -/
theorem State.modTile_congr {core i code : Nat} {g k : Tile → Tile}
    (h : ∀ y ∈ s.tiles, y.core = core → y.forme = i → g y = k y) : s.modTile core i code g = s.modTile core i code k := by
  have htiles : (s.tiles.map fun (x : Tile) => if x.forme == i && x.core == core && x.code == code then g x else x) =
      s.tiles.map fun (x : Tile) => if x.forme == i && x.core == core && x.code == code then k x else x := by
    refine List.map_congr_left fun y hy => ?_
    split_ifs with hm
    · simp only [Bool.and_eq_true, beq_iff_eq] at hm
      obtain ⟨⟨hi, hc⟩, _⟩ := hm
      exact h y hy hc hi
    · rfl
  simp only [State.modTile, htiles]

/-- The only tile of a forme on a core is the one that a search among them finds, where it passes. -/
theorem find?_only_tile {l : List Tile} {t : Tile} {c i : Nat} {q : Tile → Bool} (ht : t ∈ l)
    (hq : ∀ y, q y = true → y.core = c ∧ y.forme = i) (honly : ∀ y ∈ l, y.core = c → y.forme = i → y = t) :
    l.find? q = if q t then some t else none := by
  split_ifs with h
  · cases hf : l.find? q with
    | none => exact absurd h (by simpa using List.find?_eq_none.1 hf t ht)
    | some y =>
      obtain ⟨hc, hi⟩ := hq y (List.find?_some hf)
      rw [honly y (List.mem_of_find?_eq_some hf) hc hi]
  · refine List.find?_eq_none.2 fun y hy hqy => h ?_
    obtain ⟨hc, hi⟩ := hq y hqy
    exact honly y hy hc hi ▸ hqy

/-- A tile of forme i on core c that lacks a chunk which can come, its peers having answered. -/
def State.lacksChunk (s : State) (c i : Nat) (t : Tile) : Bool :=
  t.core == c && t.forme == i && t.chunks < ((s.forme i).planOf t).chunkCount (s.forme i) && s.remoteHere i c t

theorem State.lacksChunk_place {c i : Nat} {t : Tile} (h : s.lacksChunk c i t = true) : t.core = c ∧ t.forme = i := by
  simp only [State.lacksChunk, Bool.and_eq_true, beq_iff_eq] at h
  exact h.1.1

/-- What a staged chunk does, by the tiles that the two searches find. -/
theorem State.chunkStaged_eq (c i : Nat) (l : List (BitVec 48)) : s.chunkStaged c i l =
    match s.tiles.find? fun t => s.lacksChunk c i t && t.phase == .executing with
    | some t => (s.correctedFor (s.corePart c) l).modTile c i t.code fun t => { t with
        chunks := t.chunks + 1
        phase := if t.chunks + 1 == ((s.forme i).planOf t).chunkCount (s.forme i) then (s.forme i).computed ((s.forme i).planOf t)
          else t.phase }
    | none =>
      match s.tiles.find? fun t => s.lacksChunk c i t && t.phase == .claimed && !(s.forme i).ending with
      | some t => (s.correctedFor (s.corePart c) l).modTile c i t.code fun t => { t with phase := .staged, chunks := 1 }
      | none => s := rfl

/-- The first chunk makes the claimed tile of a core ready. -/
theorem State.chunkStaged_of_claimed {c i : Nat} {t : Tile} (l : List (BitVec 48)) (ht : t ∈ s.tiles) (hph : t.phase = .claimed)
    (hend : (s.forme i).ending = false) (honly : ∀ y ∈ s.tiles, y.core = c → y.forme = i → y = t) (hl : s.lacksChunk c i t = true) :
    s.chunkStaged c i l = (s.correctedFor (s.corePart c) l).modTile c i t.code fun y => { y with phase := .staged, chunks := 1 } := by
  have hexec : s.tiles.find? (fun t => s.lacksChunk c i t && t.phase == .executing) = none := by
    rw [find?_only_tile ht (fun y hy => State.lacksChunk_place (Bool.and_eq_true_iff.1 hy).1) honly, if_neg (by simp [hph])]
  have hclaim : s.tiles.find? (fun t => s.lacksChunk c i t && t.phase == .claimed && !(s.forme i).ending) = some t := by
    rw [find?_only_tile ht (fun y hy => State.lacksChunk_place (Bool.and_eq_true_iff.1 (Bool.and_eq_true_iff.1 hy).1).1) honly,
      if_pos (by simp [hl, hph, hend])]
  rw [State.chunkStaged_eq, hexec, hclaim]

/-- A chunk of the executing tile of a core is counted, and the last completes what the platen computes. -/
theorem State.chunkStaged_of_executing {c i : Nat} {t : Tile} (l : List (BitVec 48)) (ht : t ∈ s.tiles) (hph : t.phase = .executing)
    (honly : ∀ y ∈ s.tiles, y.core = c → y.forme = i → y = t) (hl : s.lacksChunk c i t = true) :
    s.chunkStaged c i l = (s.correctedFor (s.corePart c) l).modTile c i t.code fun y => { y with
      chunks := y.chunks + 1
      phase := if y.chunks + 1 = ((s.forme i).planOf t).chunkCount (s.forme i) then (s.forme i).computed ((s.forme i).planOf t)
        else y.phase } := by
  have hexec : s.tiles.find? (fun t => s.lacksChunk c i t && t.phase == .executing) = some t := by
    rw [find?_only_tile ht (fun y hy => State.lacksChunk_place (Bool.and_eq_true_iff.1 hy).1) honly, if_pos (by simp [hl, hph])]
  rw [State.chunkStaged_eq, hexec]
  refine State.modTile_congr fun y hy hc hi => ?_
  rw [honly y (by simpa using hy) hc hi]
  simp

/-! ### A tile begins (R110) -/

@[simp] theorem State.idleRestart_tiles (s : State) (c : Nat) : (s.idleRestart c).tiles = s.tiles := by
  unfold State.idleRestart; split_ifs <;> rfl

@[simp] theorem State.idleRestart_formes (s : State) (c : Nat) : (s.idleRestart c).formes = s.formes := by
  unfold State.idleRestart; split_ifs <;> rfl

/-- A restart leaves which slots have a tile ready for the platen. -/
theorem State.unitReady_idleRestart (s : State) (c k : Nat) : (s.idleRestart c).unitReady c 0 k = s.unitReady c 0 k := by
  simp [State.unitReady, State.readyTile, State.forme]

/-- A choice among slots of which none is ready picks none. -/
theorem State.arbPick_nil (c unit : Nat) : s.arbPick c unit [] = none := rfl

theorem State.pickTile_of_pick {c unit k : Nat} {s' : State} {t : Tile} (hissue : s.mayIssue c = true)
    (hproof : unit = 1 → s.proofing c = false)
    (hpick : s.arbPick c unit ((List.range 4).filter fun k => s.unitReady c unit k) = some (k, s'))
    (ht : s'.readyTile c unit k = some t) : s.pickTile c unit = (if unit == 0 then s'.platenIssues c else s').beginTile t := by
  have hwaits : (!s.mayIssue c || (unit == 1 && s.proofing c)) = false := by
    by_cases h1 : unit = 1 <;> simp [hissue, h1, hproof]
  simp [State.pickTile, hwaits, hpick, ht]

/-- A choice point of the vector unit of a core that runs. -/
theorem State.tileBegin_vector {c : Nat} (h : s.coreRuns c = true) : s.tileBegin c 1 = s.pickTile c 1 := by
  simp [State.tileBegin, h]

/-- A choice point of a free platen with a tile to begin: it restarts where it has been idle (R22). -/
theorem State.tileBegin_platen {c k : Nat} (h : s.coreRuns c = true) (hfree : s.platenFree c = true) (hk : k < 4)
    (hready : s.unitReady c 0 k = true) : s.tileBegin c 0 = (s.idleRestart c).pickTile c 0 := by
  have hall : ((List.range 4).all fun k => !s.unitReady c 0 k) = false := by
    rw [List.all_eq_false]
    exact ⟨k, List.mem_range.2 hk, by simp [hready]⟩
  simp [State.tileBegin, h, hfree, hall]

/-- Where the platen picks a slot, some slot has a tile ready. -/
theorem State.unitReady_of_pick {c : Nat} {x : Nat × State}
    (h : s.arbPick c 0 ((List.range 4).filter fun k => s.unitReady c 0 k) = some x) : ∃ k, k < 4 ∧ s.unitReady c 0 k = true := by
  cases hl : (List.range 4).filter fun k => s.unitReady c 0 k with
  | nil => rw [hl, State.arbPick_nil] at h; cases h
  | cons k l =>
    have hk : k ∈ (List.range 4).filter fun k => s.unitReady c 0 k := by simp [hl]
    obtain ⟨hlt, hready⟩ := List.mem_filter.1 hk
    exact ⟨k, List.mem_range.1 hlt, hready⟩

/-! ### A tile ends (R119, R150, R237) -/

/-- The tiles without those of forme i on core c of a code. -/
def tilesWithout (l : List Tile) (i c code : Nat) : List Tile := l.filter fun (y : Tile) => !(y.forme == i && y.core == c && y.code == code)

/-- A tile that is written leaves its core, and is counted. -/
theorem State.tileEnd_of_written {c i : Nat} {t : Tile} {s' : State} (h : s.endingTile c i = some t) (hw : s.writeTile t = (s', none)) :
    (s.tileEnd c i).tiles = tilesWithout s'.tiles i c t.code ∧ ((s.tileEnd c i).forme i).tilesDone = (s'.forme i).tilesDone + 1 ∧
    (s.tileEnd c i).mem = s'.mem := by
  simp only [State.tileEnd, h, hw]
  refine ⟨by simp [State.modForme, State.incF, tilesWithout], ?_, by simp [State.modForme, State.incF]⟩
  rw [State.modForme, State.forme_setForme_self]
  rfl

/-- A tile whose own write faults ends its forme by that fault. -/
theorem State.tileEnd_of_fault {c i a : Nat} {f : AccFault} {t : Tile} {s' : State} (h : s.endingTile c i = some t)
    (hw : s.writeTile t = (s', some (.fault f a))) :
    s.tileEnd c i = { s'.tileFault i c f a with tiles := tilesWithout (s'.tileFault i c f a).tiles i c t.code } := by
  simp only [State.tileEnd, h, hw]
  rfl

/-- A tile whose destination lies outside stack and bulk ends its forme (R237). -/
theorem State.tileEnd_of_tier {c i : Nat} {t : Tile} {s' : State} (h : s.endingTile c i = some t)
    (hw : s.writeTile t = (s', some .tier)) :
    s.tileEnd c i = { s'.formeFault i 0x20 c with tiles := tilesWithout (s'.formeFault i 0x20 c).tiles i c t.code } := by
  simp only [State.tileEnd, h, hw]
  rfl

/-- An access of a begun tile that does fault ends the forme. -/
theorem State.tileAccessFault_of_begun {i c addr : Nat} {write : Bool} {t : Tile} {f : AccFault × Nat} (ht : t ∈ s.tiles)
    (hc : t.core = c) (hi : t.forme = i) (hclaimed : t.phase ≠ .claimed) (hstaged : t.phase ≠ .staged)
    (hf : s.firstFault ((s.forme i).tileAcc i c) [(addr, 1)] write = some f) : s.tileAccessFault i c addr write =
      (if write then s.arenaWrite (s.forme i).part f.2 (.forme i) else s).tileFault i c f.1 f.2 := by
  have hany : (s.tiles.any fun (t : Tile) => t.core == c && t.forme == i && !t.unbegun) = true :=
    List.any_eq_true.2 ⟨t, ht, by simp [Tile.unbegun, hc, hi, hclaimed, hstaged]⟩
  simp [State.tileAccessFault, hany, hf]

/-! ### The settled statement -/

/-- Settles O32: each command of a tile's way is the state operation of its step, on the tile that its search finds. -/
theorem tilesRun : Obligations.TilesRun := by
  intro s i c
  refine ⟨fun hm => ⟨fun s' b n hc => ?_, fun s' hc => ?_⟩, fun t ht hc hi hph hch hend honly h0 hr l => ?_,
    fun t ht hc hi hph hlt honly hr l => ?_, fun k s' t hrun hissue hproof hpick ht => ?_, fun k s' t hrun hfree => ?_,
    fun t ht => ⟨fun s' hw => ?_, fun s' f a hw => ?_, fun s' hw => ?_⟩, fun addr write f hb hf => ?_⟩
  · exact congrArg Host.Outcome.next (State.claimReturn_of_tile hm hc)
  · exact congrArg Host.Outcome.next (State.claimReturn_of_exhausted hm hc)
  · have hl : s.lacksChunk c i t = true := by simp [State.lacksChunk, hc, hi, hch, h0, hr]
    exact congrArg Host.Outcome.next (State.chunkStaged_of_claimed l ht hph hend honly hl)
  · have hl : s.lacksChunk c i t = true := by simp [State.lacksChunk, hc, hi, hlt, hr]
    exact congrArg Host.Outcome.next (State.chunkStaged_of_executing l ht hph honly hl)
  · exact congrArg Host.Outcome.next
      ((State.tileBegin_vector hrun).trans (State.pickTile_of_pick hissue (fun _ => hproof) hpick ht))
  · intro r hissue hpick ht
    obtain ⟨k', hk', hready⟩ := State.unitReady_of_pick hpick
    rw [State.unitReady_idleRestart] at hready
    exact congrArg Host.Outcome.next ((State.tileBegin_platen hrun hfree hk' hready).trans
      (State.pickTile_of_pick hissue (fun h => absurd h (by decide)) hpick ht))
  · exact ⟨_, rfl, State.tileEnd_of_written ht hw⟩
  · exact ⟨_, congrArg Host.Outcome.next (State.tileEnd_of_fault ht hw), rfl⟩
  · exact ⟨_, congrArg Host.Outcome.next (State.tileEnd_of_tier ht hw), rfl⟩
  · obtain ⟨t, ht, hc, hi, hclaimed, hstaged⟩ := hb
    exact congrArg Host.Outcome.next (State.tileAccessFault_of_begun ht hc hi hclaimed hstaged hf)

end Sys2Proof.Machine
end

