-- ==== Sys2Proof/Proofs/HostFunctions.lean ====
section
/-! SUPPORT. Functions of the host link: configuration, doorbells of completion queues, interrupts, and the windows of BAR2 (R34, R90,
R454 to R459, R468, R471 to R473). -/

namespace Sys2Proof.Machine

variable {s : State}

/-! ### Configuration requests (R34, R454, R455) -/

theorem State.configRetry_eq (s : State) (f : Nat) :
    s.configRetry f = if s.power.phase = .up ∧ s.power.perstN = true then s.emit (.configRetry f) else s := by
  simp [State.configRetry]

theorem State.fnRelease_of_unready {f : Nat} (h : s.fnReady f = false) : s.fnRelease f = s := by
  simp [State.fnRelease, h]

theorem State.fnReady_of_bme {f : Nat} (h : (s.fn f).bme = false) : s.fnReady f = false := by simp [State.fnReady, h]

theorem State.fnReady_of_d3hot {f : Nat} (h : (s.fn f).d3hot = true) : s.fnReady f = false := by simp [State.fnReady, h]

theorem State.fnReady_of_disabled {f : Nat} (hf : f ≠ 0) (h : s.vfEnable = false) : s.fnReady f = false := by
  simp [State.fnReady, h, hf]

/-- With VF Enable 0 no virtual function releases anything. -/
theorem State.foldl_fnRelease_of_disabled (h : s.vfEnable = false) (a n : Nat) (ha : a ≠ 0) :
    (rangeFrom a n).foldl (fun s f => s.fnRelease f) s = s := by
  induction n generalizing a with
  | zero => rfl
  | succ n ih =>
    rw [rangeFrom, List.foldl_cons, State.fnRelease_of_unready (State.fnReady_of_disabled ha h)]
    exact ih (a + 1) (by omega)

theorem State.hostConfig_of_configures (h : s.configures = true) (c : HostConfig) : s.hostConfig c = match c with
    | .bme f on => (s.modFn f.val fun x => { x with bme := on }).fnRelease f.val
    | .vf e n => (rangeFrom 1 8).foldl (fun s f => s.fnRelease f) { s with vfEnable := e, numVfs := n.val }
    | .bar f n a => s.modFn f.val fun x => { x with bars := AMap.put n.val (a.toNat / barBytes n.val * barBytes n.val) x.bars }
    | .limits f pay rd tmo => s.modFn f.val fun x => { x with payload := pay.val, readSize := rd.val, timeout := tmo.val } := by
  cases c <;> simp [State.hostConfig, h]

theorem State.hostConfig_of_retry (h : s.configures = false) (c : HostConfig) : s.hostConfig c = s.configRetry (configFn c) := by
  simp [State.hostConfig, h]

theorem State.powerState_of_configures (h : s.configures = true) (f : Nat) (d3 : Bool) :
    s.powerState f d3 = (s.modFn f fun x => { x with d3hot := d3 }).fnRelease f := by
  simp [State.powerState, h]

theorem State.powerState_of_retry (h : s.configures = false) (f : Nat) (d3 : Bool) : s.powerState f d3 = s.configRetry f := by
  simp [State.powerState, h]

/-! ### Completion queues (R468, R472) -/

/-- The distance of two counts of 32 bits, as words and as numbers. -/
theorem toNat_sub_ofNat (v : Word) {n : Nat} (hn : n < 2 ^ 32) : (v - BitVec.ofNat 32 n).toNat = (v.toNat + 2 ^ 32 - n) % 2 ^ 32 := by
  have hv := v.isLt
  simp only [BitVec.toNat_sub, BitVec.toNat_ofNat]
  omega

theorem State.cqBell_of_present {f q : Nat} (v : Word) (h : s.fnPresent f = true) (hhead : (s.cqState f q).head < 2 ^ 32)
    (htail : (s.cqState f q).tail < 2 ^ 32) : s.cqBell f q v.toNat =
      if (v - BitVec.ofNat 32 (s.cqState f q).head).toNat ≤
        (BitVec.ofNat 32 (s.cqState f q).tail - BitVec.ofNat 32 (s.cqState f q).head).toNat
      then s.modCq f q fun y => { y with head := v.toNat } else s.event (Pg.host f 0) Ev.HOST0_QUEUE_ERROR := by
  rw [toNat_sub_ofNat _ hhead, toNat_sub_ofNat _ hhead, BitVec.toNat_ofNat, Nat.mod_eq_of_lt htail]
  simp [State.cqBell, h]

theorem State.cqDelay_of_old {f q : Nat} (hen : s.cqF f q F.HOST2_IRQ_EN = 1) (hu : (s.cqState f q).unsignalled ≠ 0)
    (ht : (s.cqState f q).oldest + 1000 * max 1 (s.cqF f q F.HOST2_DELAY_US) ≤ s.power.time) :
    s.cqDelay f q = s.interrupt f (s.cqF f q F.HOST2_VECTOR) := by
  simp [State.cqDelay, hen, hu, ht]

theorem State.cqDelay_of_young {f q : Nat} (h : s.cqF f q F.HOST2_IRQ_EN = 0 ∨ (s.cqState f q).unsignalled = 0 ∨
    s.power.time < (s.cqState f q).oldest + 1000 * max 1 (s.cqF f q F.HOST2_DELAY_US)) : s.cqDelay f q = s := by
  unfold State.cqDelay
  rcases h with h | h | h
  · simp [h]
  · simp [h]
  · simp only [Nat.not_le.2 h, decide_false, Bool.and_false, Bool.false_eq_true, if_false]

/-! ### Messages (R471 to R473) -/

theorem State.sendMessage_out (s : State) (f v : Nat) : (s.sendMessage f v).out =
    s.out ++ [.msix f v (AMap.getD v (0, 0) (s.fn f).table).1 (AMap.getD v (0, 0) (s.fn f).table).2] := by
  unfold State.sendMessage State.clearUnsignalled
  simp only
  split_ifs <;> rfl

@[simp] theorem State.fn_modFn_self (s : State) (f : Nat) (g : Fn → Fn) : (s.modFn f g).fn f = g (s.fn f) := State.fn_setFn_self ..

@[simp] theorem State.modFn_out (s : State) (f : Nat) (g : Fn → Fn) : (s.modFn f g).out = s.out := rfl

theorem State.clearUnsignalled_pba (s : State) (f v : Nat) : ((s.clearUnsignalled f v).fn f).pba = (s.fn f).pba := by
  have h : ∃ cq, (s.clearUnsignalled f v).fns = AMap.put f { s.fn f with cq := cq } s.fns := by
    unfold State.clearUnsignalled
    simp only
    split_ifs
    · exact ⟨_, rfl⟩
    · exact ⟨_, rfl⟩
  obtain ⟨cq, h⟩ := h
  rw [State.fn, h, AMap.getD_put_self]

/-- A message leaves which vectors are pending. -/
theorem State.sendMessage_pba (s : State) (f v : Nat) : ((s.sendMessage f v).fn f).pba = (s.fn f).pba :=
  State.clearUnsignalled_pba _ f v

/-- A vector that nothing holds back sends its message at once. -/
theorem State.message_of_open {f v : Nat} (hr : s.fnReady f = true) (hm : (s.fn f).fnMask = false) (hu : v ∈ (s.fn f).unmasked)
    (hv : v ≠ 0 ∨ s.spacedSince f = none) : (s.message f v).out =
      s.out ++ [.msix f v (AMap.getD v (0, 0) (s.fn f).table).1 (AMap.getD v (0, 0) (s.fn f).table).2] ∧
    ((s.message f v).fn f).pba = (s.fn f).pba := by
  have hmessage : (s.message f v).out = (s.sendMessage f v).out ∧ ((s.message f v).fn f).pba = ((s.sendMessage f v).fn f).pba := by
    unfold State.message
    by_cases h0 : v = 0
    · subst h0
      simp [hr, hm, hu, hv.resolve_left (by simp)]
      exact ⟨rfl, rfl⟩
    · simp [hr, hm, hu, h0]
  rw [hmessage.1, hmessage.2]
  exact ⟨s.sendMessage_out f v, s.sendMessage_pba f v⟩

/-- A function's record once a vector's entry of its table has been written. -/
def Fn.entered (x : Fn) (v : Nat) (msg : Option (Nat × Nat)) (mask : Bool) : Fn :=
  { x with
    unmasked := if mask then x.unmasked.filter fun y => y != v else if x.unmasked.contains v then x.unmasked else v :: x.unmasked
    table := match msg with
      | some m => AMap.put v m x.table
      | none => x.table }

theorem State.msixMask_entry {f v : Nat} (msg : Option (Nat × Nat)) (mask : Bool) (h : s.fnPresent f = true) (hv : v < vectors f) :
    s.msixMask f (some (v, msg)) mask = (s.modFn f fun x => x.entered v msg mask).sendPending f := by
  simp only [State.msixMask, h, Nat.not_le.2 hv, if_false, Bool.not_true, Bool.false_eq_true]
  rfl

theorem State.msixMask_beyond {f v : Nat} (msg : Option (Nat × Nat)) (mask : Bool) (h : s.fnPresent f = true) (hv : vectors f ≤ v) :
    s.msixMask f (some (v, msg)) mask = s := by
  simp [State.msixMask, h, hv]

theorem Fn.mem_unmasked_entered (x : Fn) (v : Nat) (msg : Option (Nat × Nat)) : v ∈ (x.entered v msg false).unmasked := by
  simp only [Fn.entered, Bool.false_eq_true, if_false]
  split_ifs with h
  · simpa using h
  · simp

/-- What the entry of a vector holds after a write of it. -/
theorem Fn.table_entered (x : Fn) (v : Nat) (msg : Option (Nat × Nat)) (mask : Bool) :
    AMap.getD v (0, 0) (x.entered v msg mask).table = msg.getD (AMap.getD v (0, 0) x.table) := by
  cases msg
  · rfl
  · exact AMap.getD_put_self ..

/-- A function's record once the message of a vector is no longer pending. -/
def Fn.sent (x : Fn) (v : Nat) : Fn := { x with pba := x.pba.filter fun w => w != v }

/-- With one pending vector, which nothing masks, the pending messages are that one. -/
theorem State.sendPending_of_one {f v : Nat} (hm : (s.fn f).fnMask = false) (hp : (s.fn f).pba = [v]) (hu : v ∈ (s.fn f).unmasked) :
    s.sendPending f = (s.modFn f fun x => x.sent v).message f v := by
  have hgo : (s.fn f).pba.filter (fun w => (s.fn f).unmasked.contains w) = [v] := by simp [hp, hu]
  have hsent : (fun w => !([v] : List Nat).contains w) = fun w => w != v := by funext w; simp [bne]; rfl
  simp only [State.sendPending, hm, hgo, hsent, Bool.false_eq_true, if_false]
  rfl

theorem State.sendPending_of_none {f : Nat} (hp : (s.fn f).pba = []) :
    s.sendPending f = s ∨ s.sendPending f = s.modFn f fun y => { y with pba := y.pba.filter fun _ => true } := by
  unfold State.sendPending
  simp only [hp, List.filter_nil, List.foldl_nil, List.contains_nil, Bool.not_false]
  split_ifs
  · exact .inl rfl
  · exact .inr rfl

theorem State.fnReady_modFn {f : Nat} {g : Fn → Fn} (hb : ∀ x, (g x).bme = x.bme) (hd : ∀ x, (g x).d3hot = x.d3hot) :
    (s.modFn f g).fnReady f = s.fnReady f := by
  simp only [State.fnReady, State.fn_modFn_self, hb, hd]
  rfl

/-- Unmasking the one pending vector sends its message. -/
theorem State.msixMask_sends {f v : Nat} {msg : Option (Nat × Nat)} (h : s.fnPresent f = true) (hv : v < vectors f)
    (hm : (s.fn f).fnMask = false) (hp : (s.fn f).pba = [v]) (hr : s.fnReady f = true) (h0 : v ≠ 0 ∨ s.spacedSince f = none) :
    (s.msixMask f (some (v, msg)) false).out = s.out ++ [.msix f v (msg.getD (AMap.getD v (0, 0) (s.fn f).table)).1
      (msg.getD (AMap.getD v (0, 0) (s.fn f).table)).2] ∧ ((s.msixMask f (some (v, msg)) false).fn f).pba = [] := by
  have hu := Fn.mem_unmasked_entered (s.fn f) v msg
  rw [State.msixMask_entry msg false h hv, State.sendPending_of_one (by simpa [Fn.entered] using hm) (by simpa [Fn.entered] using hp)
    (by simpa using hu)]
  obtain ⟨hout, hpba⟩ := State.message_of_open (v := v)
    (s := (s.modFn f fun x => x.entered v msg false).modFn f fun x => x.sent v)
    ((State.fnReady_modFn (g := fun x => x.sent v) (fun _ => rfl) fun _ => rfl).trans
      ((State.fnReady_modFn (g := fun x => x.entered v msg false) (fun _ => rfl) fun _ => rfl).trans hr))
    (by simpa [Fn.entered, Fn.sent] using hm) (by simpa [Fn.sent] using hu) h0
  rw [hout, hpba]
  constructor
  · rw [← Fn.table_entered (s.fn f) v msg false, State.fn_modFn_self, State.fn_modFn_self]
    rfl
  · simp [Fn.entered, Fn.sent, hp]

/-- Masking a vector sends nothing. -/
theorem State.msixMask_masks {f v : Nat} {msg : Option (Nat × Nat)} (h : s.fnPresent f = true) (hv : v < vectors f)
    (hp : (s.fn f).pba = []) : (s.msixMask f (some (v, msg)) true).out = s.out ∧
      v ∉ ((s.msixMask f (some (v, msg)) true).fn f).unmasked := by
  rw [State.msixMask_entry msg true h hv]
  rcases State.sendPending_of_none (s := s.modFn f fun x => x.entered v msg true) (f := f) (by simpa [Fn.entered] using hp) with e | e
  · rw [e]; exact ⟨rfl, by simp [Fn.entered]⟩
  · rw [e]; exact ⟨rfl, by simp [Fn.entered]⟩

/-! ### BAR2 (R458, R459) -/

@[simp] theorem State.correctedAt_faulty (s : State) (a : Nat) : (s.correctedAt a).faulty = s.faulty := by
  unfold State.correctedAt
  simp only [apply_ite State.faulty, State.event_faulty, ite_self]
  rfl

@[simp] theorem State.linkAt_faulty (s : State) (a : Nat) (retried : Bool) : (s.linkAt a retried).faulty = s.faulty := by
  unfold State.linkAt
  simp only [apply_ite State.faulty, State.event_faulty, State.satF, State.setF_faulty, State.countCe, ite_self]

/-- What a read finds and corrects leaves the units in error. -/
@[simp] theorem State.correctedFor_faulty (s : State) (p : Nat) (l : List (BitVec 48)) : (s.correctedFor p l).faulty = s.faulty := by
  refine State.foldl_keeps State.faulty (fun t a => ?_) l s
  split_ifs
  · exact t.correctedAt_faulty _
  · rfl

@[simp] theorem State.linksFor_faulty (s : State) (p : Nat) (l : List (BitVec 48 × Bool)) : (s.linksFor p l).faulty = s.faulty := by
  refine State.foldl_keeps State.faulty (fun t a => ?_) l s
  split_ifs
  · exact t.linkAt_faulty _ _
  · rfl

/-- The device physical address of the byte of a BAR2 access that lies i bytes after its first. -/
def State.bar2Place (s : State) (f off i : Nat) : Nat :=
  bits (s.entry (s.bar2Part f) (bits (s.bar2Addr f off + i) 21 19)) 21 43 * 2 ^ 21 + (s.bar2Addr f off + i) % 2 ^ 21

/-- A read that the page map lets pass, and that finds no unit in error, shows the bytes of its places. -/
theorem State.bar2Read_of_sound {f off n : Nat} (l : List (BitVec 48)) (k : List (BitVec 48 × Bool)) (h : s.fnPresent f = true)
    (hf : s.bar2Fault f off n false = none)
    (hs : ∀ x ∈ pieces (s.bar2Addr f off) n, s.faultyIn (s.bar2Place f off (x.1 - s.bar2Addr f off)) x.2 = []) :
    s.bar2Read f off n { corrected := l, links := k } =
      ((s.correctedFor (s.bar2Part f) l).linksFor (s.bar2Part f) k).emit (.readData ((pieces (s.bar2Addr f off) n).flatMap fun x =>
        ((s.correctedFor (s.bar2Part f) l).linksFor (s.bar2Part f) k).phys (s.bar2Place f off (x.1 - s.bar2Addr f off)) x.2)) := by
  have hplace : ∀ i, bits (s.entry (s.bar2Part f) (bits (s.bar2Addr f off + i) 21 19)) 21 43 * 2 ^ 21 +
      bits (s.bar2Addr f off + i) 0 21 = s.bar2Place f off i := fun i => by simp [State.bar2Place, bits]
  have hfaulty : ∀ a m, ((s.correctedFor (s.bar2Part f) l).linksFor (s.bar2Part f) k).faultyIn a m = s.faultyIn a m := by
    intro a m
    simp only [State.faultyIn, State.linksFor_faulty, State.correctedFor_faulty]
  have hstored : ((pieces (s.bar2Addr f off) n).flatMap fun x =>
      (s.faultyIn (s.bar2Place f off (x.1 - s.bar2Addr f off)) x.2).map fun u => (x.1 - s.bar2Addr f off, u.1, u.2, false)) = [] :=
    List.flatMap_eq_nil_iff.2 fun x hx => by rw [hs x hx]; rfl
  unfold State.bar2Read
  simp only [h, hf, hplace, hfaulty, hstored, Bool.not_true, Bool.false_eq_true, if_false, List.nil_append, List.foldl_nil, List.any_nil]
  congr 2
  exact List.mapIdx_eq_iff.2 (by simp)

theorem State.bar2Read_of_fault {f off n e o : Nat} (l : ReadErrors) (h : s.fnPresent f = true)
    (hf : s.bar2Fault f off n false = some (e, o)) :
    s.bar2Read f off n l = (s.bar2Fail f e o).emit (.readData (List.replicate n 0)) := by
  simp [State.bar2Read, h, hf]

theorem State.bar2Write_of_fault {f off e o : Nat} {d : List Byte} (h : s.fnPresent f = true)
    (hf : s.bar2Fault f off d.length true = some (e, o)) : s.bar2Write f off d = s.bar2Fail f e o := by
  simp [State.bar2Write, h, hf]

theorem State.bar2Write_of_store {f off : Nat} {d : List Byte} {u : State} {r} (h : s.fnPresent f = true)
    (hf : s.bar2Fault f off d.length true = none) :
    s.store (s.bar2Part f) none (s.bar2Addr f off) d (.unit (0x340 + f)) = (u, r) → s.bar2Write f off d = match r with
      | none => u
      | some (e, a) => u.faultRecord (s.bar2Part f) (0x340 + f) a e := by
  intro hu
  simp only [State.bar2Write, h, hf, hu, Bool.not_true, Bool.false_eq_true, if_false]
  cases r <;> rfl

/-! ### Windows of a function without a partition (R47, R456) -/

theorem State.cqBell_of_absent {f : Nat} (q v : Nat) (h : s.fnPresent f = false) : s.cqBell f q v = s.satF Pg.dir F.DIR_COUNT := by
  simp [State.cqBell, h]

theorem State.msixMask_of_absent {f v : Nat} (msg : Option (Nat × Nat)) (mask : Bool) (h : s.fnPresent f = false) :
    s.msixMask f (some (v, msg)) mask = s.satF Pg.dir F.DIR_COUNT := by
  simp [State.msixMask, h]

theorem State.msixMask_fnMask (f : Nat) (mask : Bool) (h : s.configures = true) :
    s.msixMask f none mask = (s.modFn f fun x => { x with fnMask := mask }).sendPending f := by
  simp [State.msixMask, h]

theorem State.msixMask_of_retry (f : Nat) (mask : Bool) (h : s.configures = false) : s.msixMask f none mask = s.configRetry f := by
  simp [State.msixMask, h]

theorem State.bar2Read_of_absent {f : Nat} (off n : Nat) (l : ReadErrors) (h : s.fnPresent f = false) :
    s.bar2Read f off n l = (s.satF Pg.dir F.DIR_COUNT).emit (.readData (List.replicate n 0)) := by
  simp [State.bar2Read, h]

theorem State.bar2Write_of_absent {f : Nat} (off : Nat) (d : List Byte) (h : s.fnPresent f = false) :
    s.bar2Write f off d = s.satF Pg.dir F.DIR_COUNT := by
  simp [State.bar2Write, h]

/-- A function that may no longer issue requests releases nothing. -/
theorem State.bme_off (h : s.configures = true) (f : Fin 9) :
    s.hostConfig (.bme f false) = s.modFn f fun x => { x with bme := false } := by
  rw [State.hostConfig_of_configures h]
  exact State.fnRelease_of_unready (State.fnReady_of_bme (by rw [State.fn_modFn_self]))

theorem State.vf_off (h : s.configures = true) (k : Fin 9) :
    s.hostConfig (.vf false k) = { s with vfEnable := false, numVfs := k.val } := by
  rw [State.hostConfig_of_configures h]
  exact State.foldl_fnRelease_of_disabled rfl 1 8 (by decide)

theorem State.d3hot_on (h : s.configures = true) (f : Nat) : s.powerState f true = s.modFn f fun x => { x with d3hot := true } := by
  rw [State.powerState_of_configures h]
  exact State.fnRelease_of_unready (State.fnReady_of_d3hot (by rw [State.fn_modFn_self]))

/-- Settles O49: each command is the function of the model that its case above describes. -/
theorem hostFunctions : Obligations.HostFunctions := by
  unfold Obligations.HostFunctions
  intro s f q head v off n d on k bar addr pay rd tmo msg c w retry
  have next {t u : State} (h : t = u) : (Host.Outcome.next t : Out) = .next u := congrArg _ h
  refine ⟨fun h => ⟨?_, ?_, ?_, ?_, ?_, ?_, ?_, ?_, ?_⟩, fun h => ⟨fun c => ?_, ?_, ?_⟩, State.fnRelease_of_unready, ?_, ?_, ?_, ?_, ?_,
    fun h => ⟨?_, ?_, ?_, ?_⟩, fun h => ⟨?_, ?_, fun l => ?_, ?_⟩, fun _ _ _ _ => rfl⟩
  · exact next (State.hostConfig_of_configures h _)
  · exact next (State.bme_off h f)
  · exact next (State.hostConfig_of_configures h _)
  · exact next (State.vf_off h k)
  · exact next (State.hostConfig_of_configures h _)
  · exact next (State.hostConfig_of_configures h _)
  · exact next (State.d3hot_on h f)
  · exact next (State.powerState_of_configures h f false)
  · exact next (State.msixMask_fnMask f on h)
  · exact next ((State.hostConfig_of_retry h c).trans (s.configRetry_eq _))
  · exact next ((State.powerState_of_retry h f on).trans (s.configRetry_eq _))
  · exact next ((State.msixMask_of_retry f on h).trans (s.configRetry_eq _))
  · exact fun h hhead htail => next (State.cqBell_of_present head h hhead htail)
  · exact fun hen hu ht => next (State.cqDelay_of_old hen hu ht)
  · exact fun h => next (State.cqDelay_of_young h)
  · refine fun h hv => ⟨?_, fun hp => ⟨_, rfl, State.msixMask_masks h hv hp⟩⟩
    intro hm hp hr h0 m
    exact ⟨_, rfl, State.msixMask_sends h hv hm hp hr (h0.imp_left fun h0 e => h0 (BitVec.eq_of_toNat_eq e))⟩
  · exact fun h hv => next (State.msixMask_beyond _ on h hv)
  · intro hf place hs l k
    exact next (State.bar2Read_of_sound l k h hf hs)
  · exact fun e o hf l => next (State.bar2Read_of_fault l h hf)
  · exact fun hf u r hu => next (State.bar2Write_of_store h hf hu)
  · exact fun e o hf => next (State.bar2Write_of_fault h hf)
  · exact next (State.cqBell_of_absent q head.toNat h)
  · exact next (State.msixMask_of_absent _ on h)
  · exact next (State.bar2Read_of_absent off.toNat n.toNat l h)
  · exact next (State.bar2Write_of_absent off.toNat d h)

end Sys2Proof.Machine
end

