-- ==== Sys2Proof/Proofs/AuditAndFaultHistory.lean ====
section
/-! SUPPORT. The management pair, the audit, the fault history and the impressions (R495, R507 to R523, R527). -/

namespace Sys2Proof.Machine

variable {s : State}

/-! ### One step of a fold -/

/-- What a fold comes to at one of its elements, where the other elements leave what is looked at: its own step, on a state that
still looks as the first. -/
theorem State.foldl_turn {f : State → Nat → State} {l : List Nat} (hl : l.Nodup) {i : Nat} (hi : i ∈ l) (s : State) :
    ∃ t, ∀ {β : Type} (g : State → β), (∀ u j, j ∈ l → j ≠ i → g (f u j) = g u) → g t = g s ∧ g (l.foldl f s) = g (f t i) := by
  obtain ⟨l₁, l₂, rfl⟩ := List.append_of_mem hi
  have hn := List.nodup_append.1 hl
  have h₁ : i ∉ l₁ := fun h => hn.2.2 i h i (List.mem_cons_self ..) rfl
  have h₂ : i ∉ l₂ := (List.nodup_cons.1 hn.2.1).1
  refine ⟨l₁.foldl f s, fun g hg => ⟨?_, ?_⟩⟩
  · exact State.foldl_keeps_mem g (fun u j hj => hg u j (by simp [hj]) fun e => h₁ (e ▸ hj)) s
  · rw [List.foldl_append, List.foldl_cons]
    exact State.foldl_keeps_mem g (fun u j hj => hg u j (by simp [hj]) fun e => h₂ (e ▸ hj)) _

/-! ### The fault history (R515 to R517) -/

/-- An entry as the history gathers it now. -/
def State.entryNow (s : State) (kind : Nat) (payload : List Nat) : FhEntry :=
  { kind := kind, time := s.power.time, boot := s.integ.boot, payload := payload }

/-- An entry is gathered, where the pair is not held or the kind is the security core's. -/
theorem State.history_gathers (kind : Nat) (l : List Nat) (h : s.f Pg.dir F.DIR_LOCKSTEP ≠ 1 ∨ [0x02, 0x03, 0x0B].contains kind = true) :
    s.history kind l = { s with integ := { s.integ with gathered := s.integ.gathered ++ [s.entryNow kind l] } } := by
  unfold State.history
  rw [if_neg]
  · rfl
  · rcases h with h | h
    · simp [h]
    · rw [h]; simp

theorem State.mgmtRuns_lockstep (h : s.mgmtRuns = true) : s.f Pg.dir F.DIR_LOCKSTEP = 0 := by
  simp only [State.mgmtRuns, Bool.and_eq_true, beq_iff_eq] at h
  exact h.1.2

theorem State.history_of_runs (h : s.mgmtRuns = true) (kind : Nat) (l : List Nat) :
    s.history kind l = { s with integ := { s.integ with gathered := s.integ.gathered ++ [s.entryNow kind l] } } :=
  State.history_gathers kind l (.inl (by rw [State.mgmtRuns_lockstep h]; decide))

@[simp] theorem State.history_reg (s : State) (kind : Nat) (l : List Nat) (a : Nat) : (s.history kind l).reg a = s.reg a := by
  unfold State.history; split_ifs <;> rfl

@[simp] theorem State.history_mismatchBase (s : State) (kind : Nat) (l : List Nat) :
    (s.history kind l).integ.mismatchBase = s.integ.mismatchBase := by
  unfold State.history; split_ifs <;> rfl

/-- Of the record of the integrity duties a flag changes the spacing alone. -/
theorem State.event_integ (s : State) (pg b : Nat) : ∃ i, (s.event pg b).integ = { s.integ with spacing := i } := by
  obtain ⟨_, _, _, _, i, _, h⟩ := s.event_only pg b
  exact ⟨i, by rw [h]⟩

@[simp] theorem State.event_gathered (s : State) (pg b : Nat) : (s.event pg b).integ.gathered = s.integ.gathered := by
  obtain ⟨i, h⟩ := s.event_integ pg b; rw [h]

@[simp] theorem State.event_halted (s : State) (pg b : Nat) : (s.event pg b).integ.halted = s.integ.halted := by
  obtain ⟨i, h⟩ := s.event_integ pg b; rw [h]

@[simp] theorem State.event_mismatchBase (s : State) (pg b : Nat) : (s.event pg b).integ.mismatchBase = s.integ.mismatchBase := by
  obtain ⟨i, h⟩ := s.event_integ pg b; rw [h]

/-! ### Control processors (R507, R508) -/

theorem State.lockstep_of_runs (h : s.mgmtRuns = true) :
    s.lockstep = ((s.setF Pg.dir F.DIR_LOCKSTEP 1).history 0x0B []).event Pg.dir Ev.DIR_LOCKSTEP_FAULT := by
  simp [State.lockstep, h]

/-- A control processor halts, which the pair, another processor, records. -/
theorem State.ctrlUe_of_runs {n : Nat} (h : s.mgmtRuns = true) (hb : s.power.booted = true) (hn : n ∉ s.integ.halted) (h12 : n < 12) :
    (s.ctrlUe n).integ.halted = s.integ.halted ++ [n] ∧
    (s.ctrlUe n).integ.gathered = s.integ.gathered ++ [s.entryNow 0x0C [n]] := by
  have hruns : { s with integ := { s.integ with halted := s.integ.halted ++ [n] } }.mgmtRuns = true := by
    have hhalted : (s.integ.halted ++ [n]).contains 12 = s.integ.halted.contains 12 := by
      have : ¬ 12 = n := by omega
      simp [this]
    exact (congrArg (fun b => s.powered && s.power.booted && !s.recovery && s.f Pg.dir F.DIR_LOCKSTEP == 0 &&
      !(b || s.integ.debugged.contains 12)) hhalted).trans h
  simp only [State.ctrlUe, hb, List.contains_iff_mem, hn, hruns, Bool.not_true, Bool.false_or, Bool.false_eq_true, if_false,
    State.event_halted, State.event_gathered, State.history_of_runs hruns]
  exact ⟨trivial, rfl⟩

/-! ### The audit period (R510) -/

theorem State.markSuspect_keeps {c d : Nat} (hc : c < 256) (cause : Nat) :
    (s.markSuspect c cause).f (Pg.core d) F.CORE_MISMATCHES = s.f (Pg.core d) F.CORE_MISMATCHES ∧
    (s.markSuspect c cause).integ.mismatchBase = s.integ.mismatchBase := by
  unfold State.markSuspect
  simp only
  split_ifs
  · exact ⟨rfl, rfl⟩
  · refine ⟨?_, by simp; rfl⟩
    rw [State.f, State.reg_event _ _ _ _ (not_irqSentWord (.inr ?_)) ?_ ?_, State.history_reg]
    · rw [State.raise]
      exact congrArg (bits · _ _) (State.reg_setReg_ne _ _ (by simp only [Pg.core, Pg.dir, F.CORE_MISMATCHES, Fld.sh, F.DIR_SUSPECT]; omega))
    all_goals simp only [Pg.core, Pg.dir, F.CORE_MISMATCHES, F.HOST0_IRQ_SENT, oEvent, oCount]; omega

/-- A core's count is taken as it stands, and every core's count stays. -/
theorem State.auditCore_keeps {c : Nat} (hc : c < 256) :
    (∀ d, (s.auditCore c).f (Pg.core d) F.CORE_MISMATCHES = s.f (Pg.core d) F.CORE_MISMATCHES) ∧
    (s.auditCore c).integ.mismatchBase = AMap.put c (s.f (Pg.core c) F.CORE_MISMATCHES) s.integ.mismatchBase := by
  unfold State.auditCore
  extract_lets n b s1 i s2
  have h1 : (∀ a, s1.reg a = s.reg a) ∧ s1.integ.mismatchBase = s.integ.mismatchBase := by
    by_cases hn : (n == b) = true
    · exact ⟨fun a => by rw [show s1 = s from if_pos hn], by rw [show s1 = s from if_pos hn]⟩
    · exact ⟨fun a => by rw [show s1 = _ from if_neg hn, State.history_reg], by rw [show s1 = _ from if_neg hn, State.history_mismatchBase]⟩
  have hf : ∀ d, s2.f (Pg.core d) F.CORE_MISMATCHES = s.f (Pg.core d) F.CORE_MISMATCHES := fun d => congrArg (bits · _ _) (h1.1 _)
  have hb : s2.integ.mismatchBase = AMap.put c (s.f (Pg.core c) F.CORE_MISMATCHES) s.integ.mismatchBase := congrArg (AMap.put c _) h1.2
  split_ifs
  · exact ⟨fun d => (State.markSuspect_keeps hc 1).1.trans (hf d), (State.markSuspect_keeps (d := 0) hc 1).2.trans hb⟩
  · exact ⟨hf, hb⟩

/-- The counts that a comparison of cores leaves to compare the next with. -/
theorem State.mismatchBase_auditCores {l : List Nat} (hl : l.Nodup) (h256 : ∀ c ∈ l, c < 256) {c : Nat} (hc : c ∈ l) (s : State) :
    AMap.getD c 0 (l.foldl (fun s c => s.auditCore c) s).integ.mismatchBase = s.f (Pg.core c) F.CORE_MISMATCHES := by
  obtain ⟨t, ht⟩ := State.foldl_turn (f := fun s c => s.auditCore c) hl hc s
  have hcount := (ht (fun u => u.f (Pg.core c) F.CORE_MISMATCHES) fun u j hj _ => (State.auditCore_keeps (h256 j hj)).1 c).1
  have hbase := (ht (fun u => AMap.getD c 0 u.integ.mismatchBase) fun u j hj hne => by
    rw [(State.auditCore_keeps (h256 j hj)).2, AMap.getD_put, if_neg hne.symm]).2
  rw [hbase, (State.auditCore_keeps (h256 c hc)).2, AMap.getD_put_self, hcount]

/-- An audit period that compares the cores of a list. -/
def State.auditCores (s : State) (l : List Nat) : State :=
  if !s.mgmtRuns then s
  else
    let s := l.foldl (fun s c => s.auditCore c) s
    { s with integ := { s.integ with shortCount := [] } }

theorem State.auditPeriod_eq (s : State) : s.auditPeriod = s.auditCores (List.range 256) := rfl

theorem State.auditCores_of_runs (h : s.mgmtRuns = true) {l : List Nat} (hl : l.Nodup) (h256 : ∀ c ∈ l, c < 256) :
    (s.auditCores l).integ.shortCount = [] ∧
    ∀ c ∈ l, AMap.getD c 0 (s.auditCores l).integ.mismatchBase = s.f (Pg.core c) F.CORE_MISMATCHES := by
  rw [State.auditCores, h, if_neg (by decide)]
  exact ⟨rfl, fun c hc => State.mismatchBase_auditCores hl h256 hc s⟩

/-- Every core's count is compared anew. -/
theorem State.auditPeriod_of_runs (h : s.mgmtRuns = true) : s.auditPeriod.integ.shortCount = [] ∧
    ∀ c, c < 256 → AMap.getD c 0 s.auditPeriod.integ.mismatchBase = s.f (Pg.core c) F.CORE_MISMATCHES := by
  obtain ⟨hs, hb⟩ := State.auditCores_of_runs h List.nodup_range fun c => List.mem_range.1
  rw [s.auditPeriod_eq]
  exact ⟨hs, fun c hc => hb c (List.mem_range.2 hc)⟩

/-! ### The audit (R511 to R514) -/

/-- A pass of the audit is counted at its last word. -/
def State.passed (s : State) (pg word : Nat) : State :=
  if pg * 1024 + word = s.lastAudited then s.satF Pg.dir F.DIR_PASSES else s

theorem State.auditRead_of_audited {pg word : Nat} (upset : Option Nat) (h : s.mgmtRuns = true) (he : s.f Pg.dir F.DIR_EN ≠ 0)
    (hp : s.present pg = true) (ha : s.audited pg (4 * word) = true) : s.auditRead pg word upset =
      (match upset with
        | some v => if v = s.reg (pg * 4096 + 4 * word) then s
          else (s.setReg (pg * 4096 + 4 * word) v).auditMismatch pg word (s.reg (pg * 4096 + 4 * word)) v
        | none => s).passed pg word := by
  cases upset <;> simp [State.auditRead, State.passed, h, he, hp, ha]

/-! ### Entries go to flash (R517) -/

/-- The numbers of entries that are written go on by one each. -/
theorem State.fhWrite_next (l : List FhEntry) (h : s.integ.next < 2 ^ 32) :
    (s.fhWrite l).integ.next = (s.integ.next + l.length) % 2 ^ 32 := by
  unfold State.fhWrite
  induction l generalizing s with
  | nil => simpa using (Nat.mod_eq_of_lt h).symm
  | cons e l ih =>
    rw [List.foldl_cons, ih (Nat.mod_lt _ (by decide)), List.length_cons]
    simp only
    omega

theorem State.fhFlush_of_room (hp : s.powered = true) (hl : s.f Pg.dir F.DIR_LOCKSTEP = 0)
    (hr : s.integ.gathered.length ≤ 256 - (if s.integ.second = s.power.time / 1000000000 then s.integ.written else 0)) :
    s.fhFlush.integ.gathered = [] ∧ s.fhFlush.integ.next = (s.fhWrite s.integ.gathered).integ.next ∧
    s.fhFlush.integ.ring = (s.fhWrite s.integ.gathered).integ.ring := by
  simp only [State.fhFlush, hp, hl, Bool.not_true, Bool.false_eq_true, if_false]
  simp [hr, State.satF]

/-! ### The snapshot interval (R495) -/

/-- The interval of a partition is read off its page, the history and the time. -/
theorem State.autoMs_congr {t : State} {p : Nat} (hi : t.integ = s.integ) (hp : t.power = s.power)
    (hf : ∀ x : Fld, x.off < 4096 → t.f (Pg.part p) x = s.f (Pg.part p) x) :
    t.autoMs p = ({ s with opens := t.opens }).autoMs p := by
  have hs : ∀ x, ({ s with opens := t.opens } : State).f (Pg.part p) x = s.f (Pg.part p) x := fun _ => rfl
  unfold State.autoMs
  simp only [hs, hi, hp, hf F.MEMP_WINDOW_H (by decide), hf F.MEMP_COST_US (by decide), hf F.MEMP_SCALE (by decide),
    hf F.MEMP_MAX_S (by decide), hf F.MEMP_MIN_S (by decide)]

theorem State.autoMs_lt (s : State) (p : Nat) : s.autoMs p < 2 ^ 32 := by
  have h : s.f (Pg.part p) F.MEMP_MAX_S < 2 ^ 16 := s.f_lt _ _
  have hm : s.autoMs p ≤ 1000 * s.f (Pg.part p) F.MEMP_MAX_S := Nat.min_le_left _ _
  omega

/-- AUTO_MS of one partition takes its value where AUTO is set. -/
def State.snapInterval (s : State) (p : Nat) : State :=
  if s.f (Pg.part p) F.MEMP_AUTO == 1 then { s with opens := s.opens + 1 }.setF (Pg.part p) F.MEMP_AUTO_MS (s.autoMs p) else s

theorem State.snapIntervals_of_runs (h : s.mgmtRuns = true) :
    s.snapIntervals = (List.range s.k).foldl (fun s p => s.snapInterval p) s := by
  simp only [State.snapIntervals, h, Bool.not_true, Bool.false_eq_true, if_false]
  rfl

theorem State.snapInterval_keeps (s : State) (p : Nat) : (s.snapInterval p).mem = s.mem ∧ (s.snapInterval p).parts = s.parts ∧
    (s.snapInterval p).integ = s.integ ∧ (s.snapInterval p).power = s.power ∧
    ∀ q, q ≠ p → ∀ o : Fin 4096, (s.snapInterval p).reg (Pg.part q * 4096 + o) = s.reg (Pg.part q * 4096 + o) := by
  unfold State.snapInterval
  split_ifs
  · refine ⟨rfl, rfl, rfl, rfl, fun q hq o => State.reg_setReg_ne _ _ ?_⟩
    simp only [Pg.part, F.MEMP_AUTO_MS]
    omega
  · exact ⟨rfl, rfl, rfl, rfl, fun _ _ _ => rfl⟩

theorem State.snapIntervals_interval (h : s.mgmtRuns = true) {p : Nat} (hp : p < s.k) :
    (s.f (Pg.part p) F.MEMP_AUTO = 1 → ∃ o, s.snapIntervals.f (Pg.part p) F.MEMP_AUTO_MS = ({ s with opens := o }).autoMs p) ∧
    (s.f (Pg.part p) F.MEMP_AUTO ≠ 1 → s.snapIntervals.f (Pg.part p) F.MEMP_AUTO_MS = s.f (Pg.part p) F.MEMP_AUTO_MS) := by
  rw [State.snapIntervals_of_runs h]
  obtain ⟨t, ht⟩ := State.foldl_turn (f := fun s p => s.snapInterval p) (l := List.range s.k) List.nodup_range (List.mem_range.2 hp) s
  obtain ⟨hi, -⟩ := ht State.integ fun u j _ _ => (u.snapInterval_keeps j).2.2.1
  obtain ⟨hpw, -⟩ := ht State.power fun u j _ _ => (u.snapInterval_keeps j).2.2.2.1
  obtain ⟨hreg, hend⟩ := ht (fun u (o : Fin 4096) => u.reg (Pg.part p * 4096 + o)) fun u j _ hj =>
    funext fun o => (u.snapInterval_keeps j).2.2.2.2 p (Ne.symm hj) o
  have hf : ∀ x : Fld, x.off < 4096 → t.f (Pg.part p) x = s.f (Pg.part p) x := fun x hx =>
    congrArg (bits · x.lo x.w) (congrFun hreg ⟨x.off, hx⟩)
  have hlast : ((List.range s.k).foldl (fun s p => s.snapInterval p) s).f (Pg.part p) F.MEMP_AUTO_MS =
      (t.snapInterval p).f (Pg.part p) F.MEMP_AUTO_MS := congrArg (bits · _ _) (congrFun hend ⟨F.MEMP_AUTO_MS.off, by decide⟩)
  rw [hlast, State.snapInterval, hf F.MEMP_AUTO (by decide)]
  constructor
  · intro ha
    refine ⟨t.opens, ?_⟩
    rw [ha, if_pos (beq_self_eq_true 1), State.f_setF_self _ _ _ _ (by decide), ← State.autoMs_congr hi hpw hf]
    exact Nat.mod_eq_of_lt (t.autoMs_lt p)
  · intro ha
    rw [if_neg (by simpa using ha)]
    exact hf F.MEMP_AUTO_MS (by decide)

/-! ### Impressions (R521 to R523) -/

/-- Registers of one page are copied, each to a place that no copy reads. -/
def State.copyRegs (s : State) (b : Nat) (l : List (Nat × Nat)) : State :=
  l.foldl (fun s x => s.setReg (b + x.1) (s.reg (b + x.2))) s

theorem State.copyRegs_other {b a : Nat} {l : List (Nat × Nat)} (h : ∀ x ∈ l, a ≠ b + x.1) : (s.copyRegs b l).reg a = s.reg a :=
  State.foldl_keeps_mem (fun t => t.reg a) (fun _ x hx => State.reg_setReg_ne _ _ (h x hx)) s

theorem State.copyRegs_copy {b : Nat} {l : List (Nat × Nat)} (hd : (l.map Prod.fst).Nodup) (hs : ∀ x ∈ l, ∀ y ∈ l, x.2 ≠ y.1)
    {x : Nat × Nat} (hx : x ∈ l) : (s.copyRegs b l).reg (b + x.1) = s.reg (b + x.2) % 2 ^ 32 := by
  induction l generalizing s with
  | nil => cases hx
  | cons y l ih =>
    obtain ⟨hy, hd⟩ := List.nodup_cons.1 hd
    rw [State.copyRegs, List.foldl_cons]
    rcases List.mem_cons.1 hx with rfl | hx
    · refine (State.copyRegs_other fun z hz e => hy ?_).trans (State.reg_setReg_self ..)
      exact List.mem_map.2 ⟨z, hz, (Nat.add_left_cancel e).symm⟩
    · refine (ih hd (fun u hu v hv => hs u (List.mem_cons_of_mem _ hu) v (List.mem_cons_of_mem _ hv)) hx).trans ?_
      rw [State.reg_setReg_ne]
      exact fun e => hs x (List.mem_cons_of_mem _ hx) y (List.mem_cons_self ..) (Nat.add_left_cancel e)

theorem State.copyRegs_stays (s : State) (b : Nat) (l : List (Nat × Nat)) :
    (s.copyRegs b l).power = s.power ∧ (s.copyRegs b l).mem = s.mem := by
  unfold State.copyRegs
  exact ⟨State.foldl_keeps State.power (fun _ _ => by rfl) l s, State.foldl_keeps State.mem (fun _ _ => by rfl) l s⟩

theorem impCopies_lt (c : PClass) (j : Nat) : ∀ x ∈ impCopies c j, x.1 < 4096 := by
  unfold impCopies
  split
  case h_7 | h_8 | h_9 => split_ifs <;> decide
  all_goals decide

/-- An impression of a page writes registers of that page alone. -/
theorem State.pageImpression_keeps (s : State) (seq : Nat) {pg a : Nat} (h : a / 4096 ≠ pg) :
    (s.pageImpression seq pg).reg a = s.reg a := by
  unfold State.pageImpression
  split
  · rfl
  · next c j _ =>
    have hcopy : (s.copyRegs (pg * 4096) (impCopies c j)).reg a = s.reg a :=
      State.copyRegs_other fun x hx => by have := impCopies_lt c j x hx; omega
    rw [State.reg_setReg_ne _ _ (by simp only [oSeq]; omega)]
    split_ifs
    · exact (State.reg_setReg_ne _ _ (by simp only [F.KV_IMP_FREE]; omega)).trans hcopy
    · exact hcopy

theorem classOf_core {c : Nat} (h : c < 256) : classOf (Pg.core c) = some (.core, c) := by
  have h1 : ∀ n, n < 0x200 → ¬ 0x200 + c ≤ n := fun n hn => by omega
  have h2 : ∀ n, n < 0x200 → ¬ 0x200 + c = n := fun n hn => by omega
  have h3 : 0x200 + c ≤ 0x2FF := by omega
  simp [classOf, Pg.core, h1, h2, h3]

/-- The counters of a core hold words. -/
theorem State.reg_core_lt {c k : Nat} (hc : c < 256) (hk : k < 22) : s.reg (Pg.core c * 4096 + (0x040 + 4 * k)) < 2 ^ 32 := by
  unfold State.reg
  split
  · exact BitVec.isLt _
  · have hpage : (Pg.core c * 4096 + (0x040 + 4 * k)) / 4096 = Pg.core c := by omega
    have hoff : (Pg.core c * 4096 + (0x040 + 4 * k)) % 4096 = 0x040 + 4 * k := by omega
    have hzero : ∀ k < 22, (rowAt rowsCORE (0x040 + 4 * k)).all (fun x => x.1.resetG = 0 && x.1.resetT = 0 && x.1.resetS = 0) := by
      decide
    have hrow : ∀ r v, rowAt rowsCORE (0x040 + 4 * k) = some (r, v) → r.resetG = 0 ∧ r.resetT = 0 ∧ r.resetS = 0 := fun r v hr => by
      simpa [hr, and_assoc] using hzero k hk
    have hmask : (0x040 + 4 * k == oMask) = false := by simp [oMask]; omega
    have hmem : (PClass.core == PClass.mem) = false := rfl
    unfold resetWord
    simp only [hpage, hoff, classOf_core hc, hmask, hmem, rowsOf, Bool.false_and, Bool.false_eq_true, if_false]
    split
    · next hr => rw [(hrow _ _ hr).1]; decide
    · next hr => rw [(hrow _ _ hr).2.2]; decide
    · next hr => rw [(hrow _ _ hr).2.1]; decide
    · decide

/-- No two copies of a core's counters go to one place. -/
theorem impCopies_core_nodup (c : Nat) : ((impCopies .core c).map Prod.fst).Nodup := by simp only [impCopies]; decide

/-- No copy of a core's counters is a counter. -/
theorem impCopies_core_apart (c : Nat) : ∀ x ∈ impCopies .core c, ∀ y ∈ impCopies .core c, x.2 ≠ y.1 := by
  simp only [impCopies]; decide

theorem State.pageImpression_of_core {c : Nat} (seq : Nat) (hc : c < 256) : s.pageImpression seq (Pg.core c) =
    (s.copyRegs (Pg.core c * 4096) (impCopies .core c)).setReg (Pg.core c * 4096 + oSeq) seq := by
  simp only [State.pageImpression, classOf_core hc]
  rfl

/-- An impression of a core's page copies its counters. -/
theorem State.pageImpression_core {c k : Nat} (seq : Nat) (hc : c < 256) (hk : k < 22) :
    (s.pageImpression seq (Pg.core c)).reg (Pg.core c * 4096 + (0x0A0 + 4 * k)) = s.reg (Pg.core c * 4096 + (0x040 + 4 * k)) := by
  have hx : (0x0A0 + 4 * k, 0x040 + 4 * k) ∈ impCopies .core c := by
    rw [impCopies]
    exact List.mem_append_left _ (List.mem_map.2 ⟨k, List.mem_range.2 hk, rfl⟩)
  have hne : Pg.core c * 4096 + (0x0A0 + 4 * k) ≠ Pg.core c * 4096 + oSeq := by simp only [oSeq]; omega
  rw [State.pageImpression_of_core seq hc, State.reg_setReg_ne _ _ hne]
  have hcopy := State.copyRegs_copy (s := s) (b := Pg.core c * 4096) (impCopies_core_nodup c) (impCopies_core_apart c) hx
  rw [Nat.mod_eq_of_lt (State.reg_core_lt hc hk)] at hcopy
  exact hcopy

/-- The pages that take an impression. -/
def State.impPages (s : State) : List Nat :=
  allPages.filter fun pg => s.present pg && match classOf pg with
    | some (c, _) => c.impression
    | none => false

theorem State.impPages_nodup (s : State) : s.impPages.Nodup := (List.nodup_range.filter _).filter _

theorem State.core_mem_impPages {c : Nat} (hc : c < 256) (hp : s.present (Pg.core c) = true) : Pg.core c ∈ s.impPages := by
  refine List.mem_filter.2 ⟨List.mem_filter.2 ⟨List.mem_range.2 (by simp only [Pg.core]; omega), ?_⟩, ?_⟩
  · rw [classOf_core hc]; rfl
  · rw [hp, classOf_core hc]; rfl

/-- The impression of every page that takes one. -/
def State.pageImpressions (s : State) : State := s.impPages.foldl (fun s pg => s.pageImpression (s.f Pg.dir F.DIR_SEQ) pg) s

/-- An impression is taken: every page of it copies, and the directory shows when, and of how many pages. -/
def State.impression (s : State) : State :=
  let t := ((s.pageImpressions.setF Pg.dir F.DIR_ARMED 0).setF Pg.dir F.DIR_TAKEN_LO (s.power.time % 2 ^ 32)).setF Pg.dir F.DIR_TAKEN_HI
    (s.power.time / 2 ^ 32)
  (t.setF Pg.dir F.DIR_PAGES s.impPages.length).event Pg.dir Ev.DIR_IMPRESSION_TAKEN

theorem State.pageImpression_stays (s : State) (seq pg : Nat) :
    (s.pageImpression seq pg).power = s.power ∧ (s.pageImpression seq pg).mem = s.mem := by
  unfold State.pageImpression
  split
  · exact ⟨rfl, rfl⟩
  · next c j _ =>
    split_ifs <;> exact s.copyRegs_stays (pg * 4096) (impCopies c j)

theorem State.impTake_of_due (ha : s.f Pg.dir F.DIR_ARMED = 1) (he : s.power.commonEdge = true)
    (ht : s.f2 Pg.dir F.DIR_TIME_LO F.DIR_TIME_HI ≤ s.power.time) : s.impTake = s.impression := by
  have hpower : s.pageImpressions.power = s.power :=
    State.foldl_keeps State.power (fun t pg => (t.pageImpression_stays _ pg).1) _ s
  unfold State.impression
  rw [← hpower]
  unfold State.impTake
  rw [if_neg (by simp [ha, he, ht])]
  unfold State.pageImpressions State.impPages
  generalize allPages = l
  rfl

theorem State.impTake_of_rest (h : s.f Pg.dir F.DIR_ARMED = 0 ∨ s.power.time < s.f2 Pg.dir F.DIR_TIME_LO F.DIR_TIME_HI ∨
    s.power.commonEdge = false) : s.impTake = s := by
  unfold State.impTake
  rw [if_pos]
  rcases h with h | h | h <;> simp [h]

/-- What the directory shows of an impression, which leaves the memory. -/
theorem State.impression_shows (h : s.power.time < 2 ^ 64) : s.impression.f Pg.dir F.DIR_ARMED = 0 ∧
    s.impression.f2 Pg.dir F.DIR_TAKEN_LO F.DIR_TAKEN_HI = s.power.time ∧ s.impression.mem = s.mem := by
  have hmem : s.pageImpressions.mem = s.mem := State.foldl_keeps State.mem (fun t pg => (t.pageImpression_stays _ pg).2) _ s
  unfold State.impression
  extract_lets t
  refine ⟨?_, ?_, by simp [t, hmem]⟩
  · rw [State.f_event (by decide) (by decide) (by decide) (by decide)]
    simp (disch := decide) only [t, State.f_setF_other]
    exact State.f_setF_self _ _ _ _ (by decide)
  · have hlo : t.f Pg.dir F.DIR_TAKEN_LO = s.power.time % 2 ^ 32 := by
      rw [State.f_setF_other (by decide), State.f_setF_self _ _ _ _ (by decide)]
      exact Nat.mod_mod _ _
    have hhi : t.f Pg.dir F.DIR_TAKEN_HI = s.power.time / 2 ^ 32 := by
      rw [State.f_setF_self _ _ _ _ (by decide)]
      exact Nat.mod_eq_of_lt (Nat.div_lt_of_lt_mul h)
    rw [State.f2, State.f_event (by decide) (by decide) (by decide) (by decide),
      State.f_event (by decide) (by decide) (by decide) (by decide)]
    exact (congrArg₂ (fun a b => a + 2 ^ 32 * b) ((State.f_setF_other (by decide)).trans hlo) ((State.f_setF_other (by decide)).trans hhi)).trans
      (Nat.mod_add_div _ _)

/-- Every core's counters stand in its page as they were. -/
theorem State.impression_core {c k : Nat} (hc : c < 256) (hk : k < 22) (hp : s.present (Pg.core c) = true) :
    s.impression.reg (Pg.core c * 4096 + (0x0A0 + 4 * k)) = s.reg (Pg.core c * 4096 + (0x040 + 4 * k)) := by
  have hpages : s.pageImpressions.reg (Pg.core c * 4096 + (0x0A0 + 4 * k)) = s.reg (Pg.core c * 4096 + (0x040 + 4 * k)) := by
    obtain ⟨t, ht⟩ := State.foldl_turn (f := fun s pg => s.pageImpression (s.f Pg.dir F.DIR_SEQ) pg) s.impPages_nodup
      (State.core_mem_impPages hc hp) s
    have hkeep : ∀ o, o < 4096 → ∀ (u : State) j, j ∈ s.impPages → j ≠ Pg.core c →
        (u.pageImpression (u.f Pg.dir F.DIR_SEQ) j).reg (Pg.core c * 4096 + o) = u.reg (Pg.core c * 4096 + o) :=
      fun o ho u j _ hj => u.pageImpression_keeps _ (by omega)
    refine (ht (fun u => u.reg _) (hkeep (0x0A0 + 4 * k) (by omega))).2.trans ?_
    rw [State.pageImpression_core _ hc hk]
    exact (ht (fun u => u.reg _) (hkeep (0x040 + 4 * k) (by omega))).1
  have hdir : ∀ (u : State) (x : Fld) v, x.off < 4096 → (u.setF Pg.dir x v).reg (Pg.core c * 4096 + (0x0A0 + 4 * k)) =
      u.reg (Pg.core c * 4096 + (0x0A0 + 4 * k)) :=
    fun u x v hx => State.reg_setReg_ne _ _ (by simp only [Pg.core, Pg.dir]; omega)
  unfold State.impression
  rw [State.reg_event _ _ _ _ (not_irqSentWord (.inr ?_)) ?_ ?_]
  · simp (disch := decide) only [hdir, hpages]
  all_goals simp only [Pg.core, Pg.dir, F.HOST0_IRQ_SENT, oEvent, oCount]; omega

/-! ### Messages on vector 0 (R518) -/

theorem State.spacingEnds_of_over {f n : Nat} {w : Bool} (h : AMap.get? f s.integ.spacing = some (n, w)) (ht : n + 1000 ≤ s.power.time) :
    s.spacingEnds f = if w then ({ s with integ := { s.integ with spacing := AMap.del f s.integ.spacing } } : State).message f 0
      else { s with integ := { s.integ with spacing := AMap.del f s.integ.spacing } } := by
  simp [State.spacingEnds, State.spacedSince, h, Nat.not_lt.2 ht]

theorem State.spacingEnds_of_within {f n : Nat} {w : Bool} (h : AMap.get? f s.integ.spacing = some (n, w)) (ht : s.power.time < n + 1000) :
    s.spacingEnds f = s := by
  simp [State.spacingEnds, State.spacedSince, h, ht]

theorem State.spacingEnds_of_none {f : Nat} (h : AMap.get? f s.integ.spacing = none) : s.spacingEnds f = s := by
  simp [State.spacingEnds, h]

/-- A message within the spacing is owed. -/
theorem State.message_of_spaced {f n : Nat} {w : Bool} (h : AMap.get? f s.integ.spacing = some (n, w)) (ht : s.power.time < n + 1000)
    (hr : s.fnReady f = true) (hm : (s.fn f).fnMask = false) (hu : 0 ∈ (s.fn f).unmasked) : s.message f 0 = s.setSpacing f n true := by
  simp [State.message, State.spacedSince, h, ht, hr, hm, hu]

/-! ### Duties rest while the pair does not run (R507, R508) -/

theorem State.duties_rest (h : s.mgmtRuns = false) : s.lockstep = s ∧ s.auditPeriod = s ∧ s.ceSummary = s ∧ s.snapIntervals = s ∧
    ∀ pg word upset, s.auditRead pg word upset = s := by
  refine ⟨?_, ?_, ?_, ?_, fun _ _ _ => ?_⟩
  · simp [State.lockstep, h]
  · simp [State.auditPeriod, h]
  · simp [State.ceSummary, h]
  · simp [State.snapIntervals, h]
  · simp [State.auditRead, h]

theorem State.ceSummary_of_runs (h : s.mgmtRuns = true) : s.ceSummary.integ.ce = [0, 0, 0, 0] ∧
    s.ceSummary.integ.gathered = s.integ.gathered ++ [s.entryNow 0x07 s.integ.ce] := by
  simp only [State.ceSummary, h, Bool.not_true, Bool.false_eq_true, if_false, State.history_of_runs h]
  exact ⟨trivial, trivial⟩

theorem State.snapIntervals_stays (h : s.mgmtRuns = true) : s.snapIntervals.mem = s.mem ∧ s.snapIntervals.parts = s.parts := by
  rw [State.snapIntervals_of_runs h]
  exact ⟨State.foldl_keeps State.mem (fun t p => (t.snapInterval_keeps p).1) _ s,
    State.foldl_keeps State.parts (fun t p => (t.snapInterval_keeps p).2.1) _ s⟩

theorem State.fhWrite_one (e : FhEntry) : AMap.get? (s.integ.next % 65536) (s.fhWrite [e]).integ.ring = some (e.bytes s.integ.next) :=
  AMap.get?_put_self ..

theorem State.i3cFh_of_live (h : s.i3cLive = true) : (∀ n, s.i3cFhRead n = s.emit (.i3cRead (s.fhSlot n))) ∧
    s.i3cFhNext = s.emit (.i3cRead (toBytes 4 s.integ.next)) := by
  simp [State.i3cFhRead, State.i3cFhNext, h]

theorem State.i3cFh_of_dead (h : s.i3cLive = false) : (∀ n, s.i3cFhRead n = s) ∧ s.i3cFhNext = s := by
  simp [State.i3cFhRead, State.i3cFhNext, h]

/-- Settles O51: each duty by its own lemma above; those of every core and every partition are folds, which are looked at in the turn of
the one core or partition. -/
theorem auditAndFaultHistory : Obligations.AuditAndFaultHistory := by
  unfold Obligations.AuditAndFaultHistory
  intro s n page word v slot f a
  have next {t u : State} (h : t = u) : (Host.Outcome.next t : Out) = .next u := congrArg _ h
  refine ⟨fun h => ⟨next (State.lockstep_of_runs h), ?_, fun hb hn => ⟨_, rfl, State.ctrlUe_of_runs h hb hn n.isLt⟩,
    ⟨_, rfl, State.auditPeriod_of_runs h⟩, fun he hp ha => ⟨?_, fun hv => ?_, fun hv => ?_⟩, ⟨_, rfl, State.ceSummary_of_runs h⟩,
    ⟨_, rfl, (State.snapIntervals_stays h).1, (State.snapIntervals_stays h).2, fun p hp => State.snapIntervals_interval h hp⟩⟩,
    fun h => ?_, fun hp hl hnext hroom => ?_, fun h => ?_, fun h => ?_, fun ha he ht h64 => ?_, fun h => next (State.impTake_of_rest h), ?_⟩
  · rw [State.history_gathers _ _ (.inr rfl)]
    rfl
  · exact next (State.auditRead_of_audited none h he hp ha)
  · exact next ((State.auditRead_of_audited (some v.toNat) h he hp ha).trans (congrArg (State.passed · _ _) (if_pos hv)))
  · exact next ((State.auditRead_of_audited (some v.toNat) h he hp ha).trans (congrArg (State.passed · _ _) (if_neg hv)))
  · obtain ⟨hlock, hperiod, hce, hsnap, hread⟩ := State.duties_rest h
    exact ⟨next hlock, next hperiod, next hce, next hsnap, next (hread _ _ _)⟩
  · obtain ⟨hgathered, hnumber, hring⟩ := State.fhFlush_of_room hp hl hroom
    refine ⟨_, rfl, hgathered, hnumber.trans (State.fhWrite_next _ hnext), fun e he => ?_⟩
    rw [hring, he]
    exact State.fhWrite_one e
  · exact ⟨next ((State.i3cFh_of_live h).1 _), next (State.i3cFh_of_live h).2⟩
  · exact ⟨next ((State.i3cFh_of_dead h).1 _), next (State.i3cFh_of_dead h).2⟩
  · obtain ⟨harmed, htaken, hmem⟩ := State.impression_shows h64
    refine ⟨_, next (State.impTake_of_due ha he ht), harmed, htaken, hmem, fun c k hk hp => ?_⟩
    rw [Nat.add_assoc, Nat.add_assoc]
    exact State.impression_core c.isLt hk hp
  · refine ⟨fun n w h => ⟨fun ht => next (State.spacingEnds_of_over h ht), fun ht => ⟨next (State.spacingEnds_of_within h ht),
      State.message_of_spaced h ht⟩⟩, fun h => next (State.spacingEnds_of_none h)⟩

end Sys2Proof.Machine
end

