-- ==== Sys2Proof/Proofs/Paced.lean ====
section
/-! SUPPORT. The clocks under what a KCLK cycle brings (R30, R444): but for their advance, every operation of a cycle leaves the counts of
the clocks, device time and its corrections. Every operation gets one lemma of its name, as in the layer of memory's canonical form. -/

namespace Sys2Proof.Machine

variable {s : State} {clk : Power}

/-- The counts of the clocks, device time and its corrections stand as in a record of the power's. -/
def State.Paced (s : State) (clk : Power) : Prop :=
  s.power.kclk = clk.kclk ∧ s.power.time = clk.time ∧ s.power.slew = clk.slew ∧ s.power.rate = clk.rate ∧ s.power.rateAcc = clk.rateAcc

theorem State.paced_self (s : State) : s.Paced s.power := ⟨rfl, rfl, rfl, rfl, rfl⟩

theorem State.Paced.of_power {u : State} (h : s.Paced clk) (e : u.power = s.power) : u.Paced clk := by
  unfold State.Paced
  rw [e]
  exact h

/-- What stands in the other fields does not count. -/
theorem State.Paced.mk
    {t : State} {pending mem faulty bulkLost regs shadow lastSet lastClear out draws opens parts integ vfEnable numVfs fns
      kvs cambs stream switches intks engines applyPassed threads cores heldWrites hostStops hostTurn formes nextForme tiles
      heldPlans refused reducers canopy snaps fills replays sec} (h : t.Paced clk) :
    (State.mk pending mem faulty bulkLost regs shadow lastSet lastClear out draws opens t.power parts integ vfEnable numVfs fns
      kvs cambs stream switches intks engines applyPassed threads cores heldWrites hostStops hostTurn formes nextForme tiles
      heldPlans refused reducers canopy snaps fills replays sec).Paced clk := h

theorem State.Paced.ite {a b : State} {c : Prop} [Decidable c] (ha : a.Paced clk) (hb : b.Paced clk) :
    (if c then a else b).Paced clk := by
  split <;> assumption

theorem State.Paced.ite_fst {α : Type} {a b : State × α} {c : Prop} [Decidable c] (ha : a.1.Paced clk) (hb : b.1.Paced clk) :
    (if c then a else b).1.Paced clk := by
  split <;> assumption

/-- A fold leaves the clocks when its step does. -/
theorem State.Paced.foldl {α : Type} {f : State → α → State} {l : List α} (h : s.Paced clk)
    (hf : ∀ t x, t.Paced clk → (f t x).Paced clk) : (l.foldl f s).Paced clk := by
  induction l generalizing s with
  | nil => exact h
  | cons x l ih => exact ih (hf s x h)

theorem State.Paced.foldl_fst {α β : Type} {f : State × β → α → State × β} {l : List α} {r : State × β} (h : r.1.Paced clk)
    (hf : ∀ t x, t.1.Paced clk → (f t x).1.Paced clk) : (l.foldl f r).1.Paced clk := by
  induction l generalizing r with
  | nil => exact h
  | cons x l ih => exact ih (hf r x h)

/-- The state of an answer that is known as a pair. -/
theorem State.Paced.of_fst {α : Type} {r : State × α} {t : State} {a : α} (h : r.1.Paced clk) (e : r = (t, a)) :
    t.Paced clk := by
  subst e
  exact h

/-- A match `m` on a state that may be there, known by its two equations: with the alternatives as variables, the kernel never
evaluates what the alternatives hold. -/
theorem State.Paced.matchOption {m : Option State → (State → State) → (Unit → State) → State} {o : Option State}
    {f : State → State} {g : Unit → State} (hsome : ∀ t f g, m (some t) f g = f t) (hnone : ∀ f g, m none f g = g ())
    (hf : ∀ t, o = some t → (f t).Paced clk) (hg : (g ()).Paced clk) : (m o f g).Paced clk := by
  cases o with
  | some t => exact hsome t f g ▸ hf t rfl
  | none => exact hnone f g ▸ hg

/-- The same for a match on a write's answer: the state, and the status of a write that failed. -/
theorem State.Paced.matchWritten {m : State × Option Nat → (State → Nat → State) → (State → State) → State}
    {r : State × Option Nat} {f : State → Nat → State} {g : State → State} (hsome : ∀ t n f g, m (t, some n) f g = f t n)
    (hnone : ∀ t f g, m (t, none) f g = g t) (hr : r.1.Paced clk) (hf : ∀ t n, t.Paced clk → (f t n).Paced clk)
    (hg : ∀ t, t.Paced clk → (g t).Paced clk) : (m r f g).Paced clk := by
  obtain ⟨t, _ | n⟩ := r
  · exact hnone t f g ▸ hg t hr
  · exact hsome t n f g ▸ hf t n hr

end Sys2Proof.Machine
end

