-- ==== Sys2Proof/Proofs/PacedOps.lean ====
section
/-! SUPPORT. The clocks stand still under the operations on registers, links, accesses, threads and tables. -/

namespace Sys2Proof.Machine

variable {s : State} {clk : Power}

/-! ### Machine/Ops.lean -/

theorem State.Paced.setReg {a v : Nat} (h : s.Paced clk) : (s.setReg a v).Paced clk := h.of_power rfl

theorem State.Paced.setF {pg : Nat} {f : Fld} {v : Nat} (h : s.Paced clk) : (s.setF pg f v).Paced clk := h.setReg

theorem State.Paced.incF {pg : Nat} {f : Fld} {n : Nat} (h : s.Paced clk) : (s.incF pg f n).Paced clk := h.setF

theorem State.Paced.satF {pg : Nat} {f : Fld} {n : Nat} (h : s.Paced clk) : (s.satF pg f n).Paced clk := h.setF

theorem State.Paced.incF2 {pg : Nat} {lo hi : Fld} {n : Nat} (h : s.Paced clk) : (s.incF2 pg lo hi n).Paced clk := h.setF.setF

theorem State.Paced.latchWords {pg : Nat} (h : s.Paced clk) : (s.latchWords pg).Paced clk := by
  unfold State.latchWords
  extract_lets _ one _ s1
  have hs1 : s1.Paced clk := by
    unfold s1
    refine h.foldl fun t x h => ?_
    unfold one
    split
    · exact h.setReg
    · exact h
  exact .mk hs1

theorem State.Paced.latch {pg : Nat} (h : s.Paced clk) : (s.latch pg).Paced clk := by
  unfold State.latch
  extract_lets s1 s2
  have hs1 : s1.Paced clk := h.latchWords
  have hs2 : s2.Paced clk := .mk hs1
  exact hs2.setF.setF

theorem State.Paced.emit {o : Output} (h : s.Paced clk) : (s.emit o).Paced clk := h.of_power rfl

theorem State.Paced.setPart {p : Nat} {x : Part} (h : s.Paced clk) : (s.setPart p x).Paced clk := h.of_power rfl

theorem State.Paced.modPart {p : Nat} {f : Part → Part} (h : s.Paced clk) : (s.modPart p f).Paced clk := h.setPart

theorem State.Paced.setFn {f : Nat} {x : Fn} (h : s.Paced clk) : (s.setFn f x).Paced clk := h.of_power rfl

theorem State.Paced.modFn {f : Nat} {g : Fn → Fn} (h : s.Paced clk) : (s.modFn f g).Paced clk := h.setFn

theorem State.Paced.clearUnsignalled {f vec : Nat} (h : s.Paced clk) : (s.clearUnsignalled f vec).Paced clk := by
  unfold State.clearUnsignalled
  extract_lets s1
  have hs1 : s1.Paced clk := h.modFn
  exact .ite hs1 (.mk hs1)

theorem State.Paced.setSpacing {f t : Nat} {owed : Bool} (h : s.Paced clk) : (s.setSpacing f t owed).Paced clk := h.of_power rfl

theorem State.Paced.sendMessage {f vec : Nat} (h : s.Paced clk) : (s.sendMessage f vec).Paced clk :=
  h.emit.incF.clearUnsignalled

theorem State.Paced.message {f vec : Nat} (h : s.Paced clk) : (s.message f vec).Paced clk := by
  unfold State.message
  extract_lets
  split
  · exact h.modFn
  · split
    · exact h.modFn
    · split
      · split
        · exact h.setSpacing
        · exact h.sendMessage.setSpacing
      · exact h.sendMessage

theorem State.Paced.signal {pg : Nat} (h : s.Paced clk) : (s.signal pg).Paced clk := by
  unfold State.signal
  extract_lets s1 s2
  have hs1 : s1.Paced clk := h.message.ite h
  have hs2 : s2.Paced clk := by
    unfold s2
    split
    · exact hs1.message.ite hs1
    · exact hs1
  exact hs2.emit.ite hs2

theorem State.Paced.raise {a m : Nat} (h : s.Paced clk) : (s.raise a m).Paced clk := h.of_power rfl

theorem State.Paced.raiseF {pg : Nat} {f : Fld} (h : s.Paced clk) : (s.raiseF pg f).Paced clk := h.raise

theorem State.Paced.settings {pg b n : Nat} (h : s.Paced clk) : (s.settings pg b n).Paced clk :=
  h.raise.setReg.signal.ite h.raise.setReg

theorem State.Paced.event {pg b : Nat} (h : s.Paced clk) : (s.event pg b).Paced clk := h.settings

theorem State.Paced.interrupt {f vec : Nat} (h : s.Paced clk) : (s.interrupt f vec).Paced clk := h.message.ite h.satF.event

theorem State.Paced.history {kind : Nat} {payload : List Nat} (h : s.Paced clk) : (s.history kind payload).Paced clk := by
  unfold State.history
  exact .ite h (.mk h)

theorem State.Paced.poke {a : Nat} {b : List Byte} (h : s.Paced clk) : (s.poke a b).Paced clk := h.of_power rfl

theorem State.Paced.wipe {a n : Nat} (h : s.Paced clk) : (s.wipe a n).Paced clk := h.of_power rfl

theorem State.Paced.setRegs {a : Nat} {l : List Nat} (h : s.Paced clk) : (s.setRegs a l).Paced clk := by
  induction l generalizing s a with
  | nil => exact h
  | cons v l ih => exact ih h.setReg

theorem State.Paced.fileRecord {p : Nat} {r : ErrRec} {part : Nat} (h : s.Paced clk) : (s.fileRecord p r part).Paced clk :=
  (h.setRegs.incF.ite h.satF).event

theorem State.Paced.errRecord {p : Nat} {r : ErrRec} (h : s.Paced clk) : (s.errRecord p r).Paced clk := h.fileRecord.history

/-! ### Machine/Net.lean -/

theorem State.Paced.setLink {l : Nat} {x : Link} (h : s.Paced clk) : (s.setLink l x).Paced clk := h.of_power rfl

theorem State.Paced.modLink {l : Nat} {g : Link → Link} (h : s.Paced clk) : (s.modLink l g).Paced clk := h.setLink

theorem State.Paced.setLinkSt {l st : Nat} (h : s.Paced clk) : (s.setLinkSt l st).Paced clk := h.modLink

theorem State.Paced.putFlits {l : Nat} {fl : List Flit} (h : s.Paced clk) : (s.putFlits l fl).Paced clk := h.of_power rfl

theorem State.Paced.transmit {l : Nat} {items : List (List Byte × Option Packet)} (h : s.Paced clk) :
    (s.transmit l items).Paced clk :=
  h.setLink.putFlits

theorem State.Paced.sendWaiting {l : Nat} (h : s.Paced clk) : (s.sendWaiting l).1.Paced clk :=
  h.ite_fst (h.ite_fst h.setLink.transmit)

theorem State.Paced.sendLink {l : Nat} {b : List Byte} (h : s.Paced clk) : (s.sendLink l b).Paced clk :=
  h.modLink.setLink.transmit.ite h.modLink

theorem State.Paced.giveCredit {l : Nat} {p : Packet} {level : BitVec 4} {pool : Bool} (h : s.Paced clk) :
    (s.giveCredit l p level pool).Paced clk :=
  h.sendLink.ite h

theorem State.Paced.leaves {w : Waiting} (h : s.Paced clk) : (s.leaves w).Paced clk := by
  unfold State.leaves
  split
  · exact h.giveCredit
  · exact h

theorem State.Paced.drain {l : Nat} (h : s.Paced clk) : (s.drain l).Paced clk := h.sendWaiting.foldl fun _ _ h => h.leaves

theorem State.Paced.sendFrom {l : Nat} {w : Waiting} (h : s.Paced clk) : (s.sendFrom l w).Paced clk := h.modLink.drain

theorem State.Paced.sendOn {l : Nat} {p : Packet} (h : s.Paced clk) : (s.sendOn l p).Paced clk := h.sendFrom

theorem State.Paced.originate {p : Packet} {u : State} (h : s.Paced clk) (e : s.originate p = some u) : u.Paced clk := by
  unfold State.originate at e
  split at e
  · cases e
  · dsimp only at e
    split at e
    · cases e
      exact h.of_power rfl
    · split at e
      · cases e
        exact h.sendOn
      · cases e

theorem State.Paced.setCtx {c e : Nat} (h : s.Paced clk) : (s.setCtx c e).Paced clk := h.of_power rfl

theorem State.Paced.fillLoses {p c : Nat} (h : s.Paced clk) : (s.fillLoses p c).Paced clk := by
  unfold State.fillLoses
  extract_lets
  split
  · exact h
  · exact .ite h (.ite (.ite (.mk h) h) h.satF)

theorem State.Paced.ctxDown {c : Nat} (h : s.Paced clk) : (s.ctxDown c).Paced clk := h.ite h.setCtx.fillLoses.event.history

theorem State.Paced.request {r : RemoteReq} (h : s.Paced clk) : (s.request r).Paced clk := by
  unfold State.request
  extract_lets _ _ _ _ v2 _ s1
  have hv2 : v2.Paced clk := h.setCtx
  have hs1 : s1.Paced clk := .mk hv2
  split
  · exact .mk h
  · split
    next e => exact hs1.originate e
    · exact hs1.ctxDown

theorem State.Paced.remoteWrite {p c off : Nat} {b : List Byte} {who : RemoteWho} {plan cls : Nat} (h : s.Paced clk) :
    (s.remoteWrite p c off b who plan cls).Paced clk :=
  h.request

theorem State.Paced.remoteRead {p c off n : Nat} {who : RemoteWho} (h : s.Paced clk) :
    (s.remoteRead p c off n who).Paced clk :=
  h.request

/-! ### Machine/Access.lean -/

theorem State.Paced.damageRecord {p addr symbols : Nat} {l : Loc} (h : s.Paced clk) :
    (s.damageRecord p addr symbols l).Paced clk := by
  unfold State.damageRecord
  extract_lets
  split
  · exact h.errRecord
  · exact h.satF.event.errRecord
  · exact h

theorem State.Paced.faultRecord {p unit addr : Nat} {f : AccFault} (h : s.Paced clk) :
    (s.faultRecord p unit addr f).Paced clk := by
  unfold State.faultRecord
  extract_lets
  split
  · exact .ite h (.errRecord (.mk h))
  · exact .ite h (.damageRecord (.mk h))
  · exact h.errRecord
  · exact h.errRecord

theorem State.Paced.pokePhys {a : Nat} {b : List Byte} (h : s.Paced clk) : (s.pokePhys a b).Paced clk := by
  unfold State.pokePhys
  split
  · exact h.poke
  · refine h.foldl fun t x h => ?_
    extract_lets
    split
    · exact h.poke
    · exact h.poke

theorem State.Paced.overwrite {l : Loc} {before n after : Nat} {u : State} (h : s.Paced clk)
    (e : s.overwrite l before n after = .ok u) : u.Paced clk := by
  unfold State.overwrite at e
  split at e
  · cases e
    exact h
  · dsimp only at e
    split at e
    · cases e
    · cases e
      exact h.of_power rfl

theorem State.Paced.dirty {p idx : Nat} (h : s.Paced clk) : (s.dirty p idx).Paced clk := h.modPart

/-! ### Machine/Arena.lean -/

theorem State.Paced.setCamb {p : Nat} {x : Camb} (h : s.Paced clk) : (s.setCamb p x).Paced clk := h.of_power rfl

theorem State.Paced.modCamb {p : Nat} {g : Camb → Camb} (h : s.Paced clk) : (s.modCamb p g).Paced clk := h.setCamb

theorem State.Paced.modArena {p a : Nat} {g : Arena → Arena} (h : s.Paced clk) : (s.modArena p a g).Paced clk := h.modCamb

theorem State.Paced.showMapped {p : Nat} (h : s.Paced clk) : (s.showMapped p).Paced clk := h.setF

theorem State.Paced.mapWritten {p first n : Nat} (h : s.Paced clk) : (s.mapWritten p first n).Paced clk := h.of_power rfl

theorem State.Paced.setEntry {p idx e : Nat} (h : s.Paced clk) : (s.setEntry p idx e).Paced clk := h.of_power rfl

theorem State.Paced.dropEntries {p first n : Nat} (h : s.Paced clk) : (s.dropEntries p first n).Paced clk := h.of_power rfl

theorem State.Paced.placeStack {p : Nat} {a : Arena} {x frame layer : Nat} (h : s.Paced clk) :
    (s.placeStack p a x frame layer).Paced clk :=
  h.modArena.setEntry

theorem State.Paced.layerBad {p : Nat} {f : Option (AccFault × Nat)} (h : s.Paced clk) : (s.layerBad p f).Paced clk := by
  unfold State.layerBad
  extract_lets s1
  have hs1 : s1.Paced clk := h.modCamb
  split
  · exact hs1.faultRecord
  · exact hs1

theorem State.Paced.pokeHost {p a idx : Nat} {b : List Byte} (h : s.Paced clk) : (s.pokeHost p a idx b).Paced clk := by
  unfold State.pokeHost
  split
  · exact h.poke
  · exact h.poke

theorem State.Paced.perform {p : Nat} {l : Loc} {b : List Byte} {w : Writer} (h : s.Paced clk) :
    (s.perform p l b w).Paced clk := by
  unfold State.perform
  split
  · exact h.poke
  · exact h.pokePhys.dirty
  · exact h.pokeHost.dirty.ite h.satF.event
  · exact h.remoteWrite

theorem State.Paced.put {p : Nat} {core : Option Nat} {l : Loc} {b : List Byte} {w : Writer} {before after : Nat}
    (h : s.Paced clk) :
    (s.put p core l b w before after).1.Paced clk := by
  unfold State.put
  extract_lets now
  have hnow : now.1.Paced clk := by
    unfold now
    split
    · exact h
    next e => exact (h.overwrite e).perform
  split
  · exact .ite_fst (.mk h) hnow
  · exact hnow

theorem State.Paced.modLayer {p l : Nat} {g : List Byte → List Byte} (h : s.Paced clk) : (s.modLayer p l g).Paced clk := by
  unfold State.modLayer
  split
  · exact h
  · split
    · exact h.incF
    · split
      · exact h
      · split
        · exact h.put
        · exact h.layerBad

theorem State.Paced.touchArena {p : Nat} {a : Arena} {x : Nat} {w : Writer} (h : s.Paced clk) :
    (s.touchArena p a x w).Paced clk :=
  h.modArena

theorem State.Paced.releaseFrom {p : Nat} {a : Arena} (h : s.Paced clk) : (s.releaseFrom p a).1.Paced clk := by
  unfold State.releaseFrom
  split
  · exact h
  · exact h.faultRecord

theorem State.Paced.place {p : Nat} {a : Arena} {x : Nat} {w : Writer} (h : s.Paced clk) :
    (s.place p a x w).1.Paced clk := by
  unfold State.place
  extract_lets _ _ r
  have hr : r.1.Paced clk := h.releaseFrom
  split
  · exact h.placeStack
  · split
    · exact hr.modArena.setEntry.placeStack
    · split
      · exact hr
      · split
        · exact hr.modArena.setEntry.incF.modLayer.placeStack
        · split
          · exact hr
          · extract_lets _ s1 _ s2
            have hs1 : s1.Paced clk := hr.modArena
            have hs2 : s2.Paced clk := .mk hs1
            clear_value s2
            exact hs2.modCamb

theorem State.Paced.arenaWrite {p addr : Nat} {w : Writer} (h : s.Paced clk) : (s.arenaWrite p addr w).Paced clk := by
  unfold State.arenaWrite
  extract_lets
  split
  · exact h
  · split
    · exact h
    · extract_lets
      split
      · split
        next e => exact (h.place.of_fst e).touchArena
        next e => exact (h.place.of_fst e).incF.event
      · split
        next e => exact (h.place.of_fst e).touchArena
        next e => exact (h.place.of_fst e).incF.event
      · exact h.touchArena

theorem State.Paced.releaseWrites {p idx : Nat} (h : s.Paced clk) : (s.releaseWrites p idx).Paced clk := by
  unfold State.releaseWrites
  extract_lets _ s1
  have hs1 : s1.Paced clk := .mk h
  refine hs1.foldl fun t x h => ?_
  extract_lets _ s2
  have hs2 : s2.Paced clk := h.arenaWrite
  split
  · exact hs2.faultRecord
  · split
    next e => exact (hs2.put.of_fst e).faultRecord
    next e => exact hs2.put.of_fst e

theorem State.Paced.store {p : Nat} {core : Option Nat} {addr : Nat} {b : List Byte} {w : Writer} (h : s.Paced clk) :
    (s.store p core addr b w).1.Paced clk := by
  unfold State.store
  refine h.foldl_fst fun t x h => ?_
  split
  · exact h
  · extract_lets s1
    have hs1 : s1.Paced clk := h.arenaWrite
    split
    · exact hs1
    · split
      next e => exact hs1.put.of_fst e
      next e => exact hs1.put.of_fst e

theorem State.Paced.storeRec {p unit : Nat} {core : Option Nat} {addr : Nat} {b : List Byte} {who : Writer}
    (h : s.Paced clk) :
    (s.storeRec p unit core addr b who).1.Paced clk := by
  unfold State.storeRec
  split
  next e => exact h.store.of_fst e
  next e => exact (h.store.of_fst e).faultRecord

theorem State.Paced.readArenas {p : Nat} (h : s.Paced clk) : (s.readArenas p).Paced clk := by
  unfold State.readArenas
  extract_lets _ _ _ table s1
  have hs1 : s1.Paced clk := by
    unfold s1
    split
    · exact h.faultRecord
    · exact h
  clear_value table
  split
  · exact hs1.modCamb.event
  · extract_lets _ _ s3 s4
    have hs3 : s3.Paced clk := hs1.modCamb
    have hs4 : s4.Paced clk := hs3.foldl fun _ _ h => h.dropEntries
    exact hs4.event.ite hs4

theorem State.Paced.frameDamage {p unit idx frame : Nat} {u : State} (h : s.Paced clk)
    (e : s.frameDamage p unit idx frame = some u) : u.Paced clk := by
  unfold State.frameDamage at e
  obtain ⟨x, _, rfl⟩ := Option.map_eq_some_iff.1 e
  exact h.faultRecord

/-! ### Machine/Operands.lean -/

theorem State.Paced.wr {w : Acc} {a : Nat} {b : List Byte} (h : s.Paced clk) : (s.wr w a b).1.Paced clk := h.store

/-! ### Machine/Prog.lean -/

theorem State.Paced.setTh {core t : Nat} {x : Thread} (h : s.Paced clk) : (s.setTh core t x).Paced clk := h.of_power rfl

theorem State.Paced.modTh {core t : Nat} {g : Thread → Thread} (h : s.Paced clk) : (s.modTh core t g).Paced clk := h.setTh

theorem State.Paced.setCore {n : Nat} {x : Core} (h : s.Paced clk) : (s.setCore n x).Paced clk := h.of_power rfl

theorem State.Paced.modCore {n : Nat} {g : Core → Core} (h : s.Paced clk) : (s.modCore n g).Paced clk := h.setCore

theorem State.Paced.beginWaves {owner : Option Nat} {kind : WaveKind} (h : s.Paced clk) :
    (s.beginWaves owner kind).Paced clk := h

theorem State.Paced.idleRestart {c : Nat} (h : s.Paced clk) : (s.idleRestart c).Paced clk := h.ite h.modCore

theorem State.Paced.rampStep {c : Nat} (h : s.Paced clk) : (s.rampStep c).Paced clk := by
  unfold State.rampStep
  split
  · exact h
  · exact h.ite h.modCore

theorem State.Paced.setForme {i : Nat} {x : Forme} (h : s.Paced clk) : (s.setForme i x).Paced clk := h.of_power rfl

theorem State.Paced.modForme {i : Nat} {g : Forme → Forme} (h : s.Paced clk) : (s.modForme i g).Paced clk := h.setForme

theorem State.Paced.countOp {c : Nat} (h : s.Paced clk) : (s.countOp c).Paced clk := h.incF

theorem State.Paced.setValue {c v : Nat} (h : s.Paced clk) : (s.setValue c v).Paced clk := h.of_power rfl

theorem State.Paced.opAddAlways {c : Nat} {n : Int} (h : s.Paced clk) : (s.opAddAlways c n).Paced clk := h.countOp.setValue

theorem State.Paced.opAdd {c : Nat} {n : Int} (h : s.Paced clk) : (s.opAdd c n).Paced clk := h.countOp.ite h.countOp.setValue

theorem State.Paced.modCq {f q : Nat} {g : CompQueue → CompQueue} (h : s.Paced clk) : (s.modCq f q g).Paced clk := h.modFn

theorem State.Paced.writeCqe {r : HostRef} {status detail time : Nat} (h : s.Paced clk) :
    (s.writeCqe r status detail time).Paced clk :=
  h.modCq.satF.ite (h.modCq.poke.modCq.incF.incF.interrupt.ite h.modCq.poke.modCq.incF.incF)

theorem State.Paced.endEntry {r : HostRef} {status detail : Nat} (h : s.Paced clk) : (s.endEntry r status detail).Paced clk :=
  h.ite (h.modFn.ite h.writeCqe)

theorem State.Paced.dropEntry {r : HostRef} (h : s.Paced clk) : (s.dropEntry r).Paced clk := h.modCq.ite h

theorem State.Paced.tlbUse {core addr : Nat} (h : s.Paced clk) : (s.tlbUse core addr).Paced clk := by
  unfold State.tlbUse
  extract_lets _ _ _ s1
  have hs1 : s1.Paced clk := .ite (.mk h) h
  exact h.ite hs1.modCore

theorem State.Paced.fetchLine {core t line : Nat} (h : s.Paced clk) : (s.fetchLine core t line).Paced clk := by
  unfold State.fetchLine
  extract_lets r1 _ s1
  have hs1 : s1.Paced clk := h.modTh.tlbUse
  clear_value r1
  split
  · exact hs1.remoteRead
  · exact hs1.faultRecord
  · exact hs1

theorem State.Paced.startThread {core t : Nat} {r : StartReq} (h : s.Paced clk) : (s.startThread core t r).Paced clk :=
  h.setTh.fetchLine

theorem State.Paced.formeFault {i status detail : Nat} (h : s.Paced clk) : (s.formeFault i status detail).Paced clk :=
  h.ite (h.setForme.foldl fun _ _ h => h.setValue)

theorem State.Paced.modTile {core i code : Nat} {g : Tile → Tile} (h : s.Paced clk) : (s.modTile core i code g).Paced clk :=
  h.of_power rfl

theorem State.Paced.setTilePhase {core i code : Nat} {ph : TilePhase} (h : s.Paced clk) :
    (s.setTilePhase core i code ph).Paced clk :=
  h.modTile

theorem State.Paced.epilogueEnd {core i tile status : Nat} (h : s.Paced clk) :
    (s.epilogueEnd core i tile status).Paced clk := by
  unfold State.epilogueEnd
  split
  · exact h.setTilePhase
  · extract_lets s1
    have hs1 : s1.Paced clk := .ite (.mk h) h.setTilePhase
    exact hs1.formeFault.ite hs1.formeFault

theorem State.Paced.progFault {core t status pc : Nat} (h : s.Paced clk) : (s.progFault core t status pc).Paced clk :=
  h.ite h.setF.setF.raiseF.setF.setF.event

theorem State.Paced.orphan {core t : Nat} (h : s.Paced clk) : (s.orphan core t).Paced clk := h.of_power rfl

theorem State.Paced.issued {core t : Nat} (h : s.Paced clk) : (s.issued core t).Paced clk := h.modCore

theorem State.Paced.endProgram {core t status : Nat} (h : s.Paced clk) : (s.endProgram core t status).Paced clk := by
  unfold State.endProgram
  extract_lets _ s1 s2 s3 s4 s5
  have hs1 : s1.Paced clk := h.issued.ite h
  have hs2 : s2.Paced clk := hs1.setTh.orphan
  have hs3 : s3.Paced clk := by
    unfold s3
    split
    · exact hs2.opAdd
    · exact hs2
  have hs4 : s4.Paced clk := by
    unfold s4
    split
    · exact hs3.epilogueEnd
    · exact hs3.ite hs3.progFault
  have hs5 : s5.Paced clk := by
    unfold s5
    split
    · exact hs4.endEntry
    · exact hs4
  split
  · exact hs5
  · exact hs5.modCore.startThread

theorem State.Paced.formeError {core status opcode slot : Nat} (h : s.Paced clk) :
    (s.formeError core status opcode slot).Paced clk :=
  h.event.ite h.event.setF.setF.setF.raiseF

theorem State.Paced.endStep1 {i : Nat} {x : Forme} (h : s.Paced clk) : (s.endStep1 i x).Paced clk := by
  unfold State.endStep1
  extract_lets s1 s2
  have hs1 : s1.Paced clk := h.modLayer.ite h
  have hs2 : s2.Paced clk := hs1.storeRec.ite hs1
  refine hs2.foldl fun t x h => ?_
  extract_lets
  exact .mk h

theorem State.Paced.endStep2 {i : Nat} (h : s.Paced clk) : (s.endStep2 i).Paced clk := by
  unfold State.endStep2
  split
  · exact h
  · exact h.ite (h.setForme.ite h.setForme.storeRec)

theorem State.Paced.endStep3 {i : Nat} (h : s.Paced clk) : (s.endStep3 i).Paced clk := by
  unfold State.endStep3
  split
  · exact h
  · split
    · exact h
    · extract_lets s1 s2 s3
      have hs1 : s1.Paced clk := .mk h
      have hs2 : s2.Paced clk := hs1.opAddAlways.ite hs1
      have hs3 : s3.Paced clk := by
        unfold s3
        split
        · exact hs2.endEntry
        · exact hs2
      exact hs3.ite (hs3.foldl fun _ _ h => h.formeError)

theorem State.Paced.endForme {i status : Nat} (h : s.Paced clk) : (s.endForme i status).Paced clk := by
  unfold State.endForme
  split
  · exact h
  · extract_lets _ _ s1
    have hs1 : s1.Paced clk := .endStep1 (.mk h)
    exact hs1.setForme.endStep2.endStep3

/-! ### Machine/Cambium.lean -/

theorem State.Paced.showArmed {p : Nat} {armed committing : Bool} (h : s.Paced clk) :
    (s.showArmed p armed committing).Paced clk :=
  (h.foldl fun _ _ h => h.setF.setF).setF

theorem State.Paced.showIntake {p unit : Nat} (h : s.Paced clk) : (s.showIntake p unit).Paced clk := h.setF

theorem State.Paced.disarm {p : Nat} (h : s.Paced clk) : (s.disarm p).Paced clk := by
  unfold State.disarm
  extract_lets _ s1 s2 s3
  have hs1 : s1.Paced clk := h.foldl fun _ _ h => h.satF
  have hs2 : s2.Paced clk := .mk hs1
  have hs3 : s3.Paced clk := hs2.modCamb
  exact hs3.showArmed.foldl fun _ _ h => h.showIntake

theorem State.Paced.abortUpdate {p : Nat} (h : s.Paced clk) : (s.abortUpdate p).Paced clk := by
  unfold State.abortUpdate
  split
  · exact h
  · exact h.ite h.modForme.disarm.endForme.event

theorem State.Paced.finishForme {i status : Nat} (h : s.Paced clk) : (s.finishForme i status).Paced clk :=
  h.endForme.abortUpdate.ite h.endForme

/-! ### Machine/Coll.lean -/

theorem State.Paced.endColl {c : Coll} {status : Nat} (h : s.Paced clk) : (s.endColl c status).Paced clk := by
  unfold State.endColl
  extract_lets _ s1
  have hs1 : s1.Paced clk := .mk h
  exact hs1.ite hs1.incF.finishForme

theorem State.Paced.collSweep (h : s.Paced clk) : s.collSweep.Paced clk := h.foldl fun _ _ h => h.endColl.ite h

/-! ### Machine/Attention.lean -/

theorem State.Paced.setKv {p : Nat} {x : Kv} (h : s.Paced clk) : (s.setKv p x).Paced clk := h.of_power rfl

theorem State.Paced.modKv {p : Nat} {g : Kv → Kv} (h : s.Paced clk) : (s.modKv p g).Paced clk := h.setKv

theorem State.Paced.modSeq {p n : Nat} {g : KvSeq → KvSeq} (h : s.Paced clk) : (s.modSeq p n g).Paced clk := h.modKv

theorem State.Paced.validateRows {i : Nat} {p : Plan} (h : s.Paced clk) : (s.validateRows i p).Paced clk := by
  unfold State.validateRows
  extract_lets
  refine h.foldl fun t x h => ?_
  extract_lets _ _ _ s1 s2
  have hs1 : s1.Paced clk := h.modSeq
  have hs2 : s2.Paced clk := by
    unfold s2
    split
    · split
      · exact hs1.modKv
      · exact hs1
    · exact h
  exact h.modForme.ite (hs2.ite hs2.modForme.modSeq)

theorem State.Paced.writeCache {i : Nat} {w : Acc} {p : Plan} (h : s.Paced clk) : (s.writeCache i w p).1.Paced clk := by
  unfold State.writeCache
  extract_lets
  refine h.foldl_fst fun t x h => ?_
  split
  · exact h
  · extract_lets
    split
    · exact h
    · extract_lets put
      have hput : ∀ t value v, t.Paced clk → (put t value v).1.Paced clk := by
        intro t value v h
        unfold put
        extract_lets
        split
        · exact h
        · exact h.wr
      split
      next t _ e => exact (hput _ _ _ h).of_fst e
      next t e => exact hput _ _ _ ((hput _ _ _ h).of_fst e)

/-! ### Machine/Windows.lean -/

theorem State.Paced.performUpdate {u : RedUpdate} (h : s.Paced clk) : (s.performUpdate u).Paced clk := by
  unfold State.performUpdate
  extract_lets
  split
  · exact h.faultRecord
  · exact h.perform

/-! ### Machine/IntakeOps.lean -/

theorem State.Paced.modIntk {p : Nat} {g : Intk → Intk} (h : s.Paced clk) : (s.modIntk p g).Paced clk := h.of_power rfl

theorem State.Paced.modJob {p j : Nat} {g : IntkJob → IntkJob} (h : s.Paced clk) : (s.modJob p j g).Paced clk := h.modIntk

theorem State.Paced.modStream {p j n : Nat} {g : IntkStream → IntkStream} (h : s.Paced clk) :
    (s.modStream p j n g).Paced clk :=
  h.modJob

theorem State.Paced.releaseEngines {here : Nat × Nat × Nat → Bool} (h : s.Paced clk) : (s.releaseEngines here).Paced clk := by
  unfold State.releaseEngines
  refine h.foldl fun t x h => ?_
  extract_lets v1
  have hv1 : v1.Paced clk := h.setF
  exact .mk hv1

theorem State.Paced.serveFrames {p n : Nat} (h : s.Paced clk) : (s.serveFrames p n).Paced clk := by
  induction n generalizing s with
  | zero => exact h
  | succ n ih =>
    unfold State.serveFrames
    extract_lets
    split
    · exact h
    · exact h.ite (ih h.modStream)

theorem State.Paced.servePool {p : Nat} (h : s.Paced clk) : (s.servePool p).Paced clk := h.serveFrames

theorem State.Paced.dropJob {p j : Nat} (h : s.Paced clk) : (s.dropJob p j).Paced clk := h.releaseEngines.modIntk.servePool

/-! ### Machine/Tables.lean -/

theorem State.Paced.writeCtx {i v : Nat} (h : s.Paced clk) : (s.writeCtx i v).Paced clk := by
  unfold State.writeCtx
  extract_lets
  exact .mk h

theorem State.Paced.clearTables {p : Nat} (h : s.Paced clk) : (s.clearTables p).Paced clk := by
  unfold State.clearTables
  extract_lets _ s1
  have hs1 : s1.Paced clk := h.foldl fun _ _ h => h.writeCtx
  exact .mk hs1

end Sys2Proof.Machine
end

