-- ==== Sys2Proof/Proofs/PacedWork.lean ====
section
/-! SUPPORT. The clocks stand still under what goes on by itself in a cycle. -/

namespace Sys2Proof.Machine

variable {s : State} {clk : Power}

/-! ### Machine/Resil.lean -/

theorem State.Paced.snapWrite {p page a : Nat} {b : List Byte} (h : s.Paced clk) : (s.snapWrite p page a b).1.Paced clk := by
  unfold State.snapWrite
  split
  · exact h.ite_fst (h.foldl_fst fun _ _ h => h.remoteWrite)
  · split
    next e => exact h.storeRec.of_fst e
    next e => exact h.storeRec.of_fst e

theorem State.Paced.snapRead {p list : Nat} {auto : Bool} (h : s.Paced clk) : (s.snapRead p list auto).1.Paced clk := by
  unfold State.snapRead
  split
  · exact h.faultRecord
  · extract_lets
    split
    · exact h.faultRecord
    · exact h

theorem State.Paced.snapReport {p status kind : Nat} {x : Option Snap} (h : s.Paced clk) :
    (s.snapReport p status kind x).Paced clk := by
  unfold State.snapReport
  extract_lets _ s1 s2
  have hs1 : s1.Paced clk := h.setF.incF.setF
  have hs2 : s2.Paced clk := by
    unfold s2
    split
    · exact (hs1.setF.ite hs1).setF.ite (hs1.setF.ite hs1)
    · exact hs1
  exact hs2.opAdd.ite hs2

theorem State.Paced.unprotect {p idx : Nat} (h : s.Paced clk) : (s.unprotect p idx).Paced clk :=
  h.setEntry.releaseWrites.ite h

theorem State.Paced.snapClear {p : Nat} (h : s.Paced clk) : (s.snapClear p).Paced clk := by
  unfold State.snapClear
  split
  · exact h
  · extract_lets _ s1 s2
    have hs1 : s1.Paced clk := .mk h
    have hs2 : s2.Paced clk := hs1.foldl fun _ _ h => h.foldl fun _ _ h => h.unprotect
    exact hs2.setF.setF

theorem State.Paced.snapFail {p status : Nat} (h : s.Paced clk) : (s.snapFail p status).Paced clk := by
  unfold State.snapFail
  split
  · exact h
  · exact h.snapClear.snapReport

theorem State.Paced.snapBegin {p list : Nat} {auto : Bool} (h : s.Paced clk) : (s.snapBegin p list auto).Paced clk := by
  unfold State.snapBegin
  extract_lets _ s1
  have hs1 : s1.Paced clk := h.modPart
  split
  next e => exact (hs1.snapRead.of_fst e).snapReport
  next e =>
    have ht := hs1.snapRead.of_fst e
    extract_lets _ _ _ _ _ _ _ s3 s4 w1
    have hs3 : s3.Paced clk := .setF (.setF (.mk ht))
    have hs4 : s4.Paced clk := .mk hs3
    have hw1 : w1.1.Paced clk := hs4.snapWrite
    split
    · exact hw1.snapFail
    · exact hw1.foldl fun _ _ h => h.foldl fun _ _ h => h.setEntry

theorem State.Paced.snapTry {p : Nat} (h : s.Paced clk) : (s.snapTry p).Paced clk :=
  h.ite (h.setF.snapBegin.ite (h.snapBegin.ite h))

theorem State.Paced.streamPage {p : Nat} {x : Snap} {i k : Nat} {frame : Option Nat} (h : s.Paced clk) :
    (s.streamPage p x i k frame).Paced clk := by
  unfold State.streamPage
  split
  · exact h
  · refine .matchOption (fun _ _ _ => rfl) (fun _ _ => rfl) (fun _ e => h.frameDamage e) ?_
    refine .matchWritten (fun _ _ _ _ => rfl) (fun _ _ _ => rfl) ?_ (fun _ _ h => h.snapFail) fun _ h => h
    exact (State.Paced.ite (.unprotect (.mk h)) (.mk h)).snapWrite

theorem State.Paced.snapStream {p : Nat} (h : s.Paced clk) : (s.snapStream p).Paced clk := by
  unfold State.snapStream
  split
  · exact h
  · split
    · exact h
    · split
      · exact h.streamPage
      · exact h

theorem State.Paced.snapSweep (h : s.Paced clk) : s.snapSweep.Paced clk := h.foldl fun _ _ h => h.snapFail.ite h

theorem State.Paced.showReplay {p : Nat} {busy : Bool} (h : s.Paced clk) : (s.showReplay p busy).Paced clk := h.setF

theorem State.Paced.replayTell {p : Nat} {x : Replay} {status : Nat} (h : s.Paced clk) :
    (s.replayTell p x status).Paced clk := by
  unfold State.replayTell
  extract_lets s1
  have hs1 : s1.Paced clk := .setF (.showReplay (.mk h))
  exact hs1.opAdd.ite hs1

theorem State.Paced.replayCut {p status : Nat} (h : s.Paced clk) : (s.replayCut p status).Paced clk := by
  unfold State.replayCut
  split
  · exact h.replayTell
  · exact h

theorem State.Paced.setFillState {p st : Nat} (h : s.Paced clk) : (s.setFillState p st).Paced clk := h.setF

theorem State.Paced.fillTell {p : Nat} (h : s.Paced clk) : (s.fillTell p).Paced clk := h.opAdd.ite h

theorem State.Paced.fillQuiet {p status : Nat} (h : s.Paced clk) : (s.fillQuiet p status).Paced clk := by
  unfold State.fillQuiet
  extract_lets _ s1
  have hs1 : s1.Paced clk := .mk h
  exact hs1.replayCut.ite hs1

theorem State.Paced.fillHalt {p status : Nat} (h : s.Paced clk) : (s.fillHalt p status).Paced clk :=
  h.fillQuiet.setFillState.setF.fillTell

theorem State.Paced.showFillPages {p : Nat} (h : s.Paced clk) : (s.showFillPages p).Paced clk := by
  unfold State.showFillPages
  split
  · exact h
  · exact h.setF

theorem State.Paced.fillPut {p dst : Nat} {b : List Byte} (h : s.Paced clk) : (s.fillPut p dst b).Paced clk := by
  unfold State.fillPut
  split
  next e => exact (h.storeRec.of_fst e).showFillPages
  next e => exact (h.storeRec.of_fst e).fillHalt

theorem State.Paced.fillPage {p : Nat} (h : s.Paced clk) : (s.fillPage p).Paced clk := by
  unfold State.fillPage
  split
  · exact h
  · split
    · exact h
    · split
      · exact h
      · split
        · exact .mk h
        · extract_lets _ _ _ s1
          have hs1 : s1.Paced clk := .mk h
          split
          · split
            · exact hs1.fillHalt
            · exact .ite (.mk hs1) (hs1.foldl fun _ _ h => h.remoteRead)
          · split
            · exact hs1.faultRecord.fillHalt
            · exact hs1.fillPut

theorem State.Paced.fillSweep (h : s.Paced clk) : s.fillSweep.Paced clk := by
  unfold State.fillSweep
  refine h.foldl fun t x h => ?_
  split
  · exact h.fillHalt.ite h
  · exact h

theorem State.Paced.fillClear {p : Nat} (h : s.Paced clk) : (s.fillClear p).Paced clk := by
  unfold State.fillClear
  extract_lets s1
  have hs1 : s1.Paced clk := h.fillQuiet
  exact .setF (.setFillState (.mk hs1))

/-! ### Machine/Copp.lean -/

theorem State.Paced.setSw {p : Nat} {x : Switch} (h : s.Paced clk) : (s.setSw p x).Paced clk := h.of_power rfl

theorem State.Paced.modSw {p : Nat} {g : Switch → Switch} (h : s.Paced clk) : (s.modSw p g).Paced clk := h.setSw

theorem State.Paced.rise {p : Nat} (h : s.Paced clk) : (s.rise p).Paced clk := h.modSw.beginWaves

theorem State.Paced.endReshard {p status : Nat} (h : s.Paced clk) : (s.endReshard p status).Paced clk := by
  unfold State.endReshard
  split
  · exact h
  · exact h.modSw.finishForme

theorem State.Paced.dropPlan {p : Nat} (h : s.Paced clk) : (s.dropPlan p).Paced clk := h.of_power rfl

theorem State.Paced.modPlan {p : Nat} {g : ReshardPlan → ReshardPlan} (h : s.Paced clk) : (s.modPlan p g).Paced clk := h.modSw

theorem State.Paced.entryDone {p : Nat} (h : s.Paced clk) : (s.entryDone p).Paced clk := h.modPlan.incF

theorem State.Paced.movesDone {p : Nat} (h : s.Paced clk) : (s.movesDone p).Paced clk := by
  unfold State.movesDone
  split
  · exact h
  · exact h.foldl fun _ _ h => h.modPlan.entryDone

theorem State.Paced.endPlan {p status : Nat} (h : s.Paced clk) : (s.endPlan p status).Paced clk := by
  unfold State.endPlan
  extract_lets s1 _ _ s2 s3
  have hs1 : s1.Paced clk := h.movesDone
  have hs2 : s2.Paced clk := hs1.dropPlan
  have hs3 : s3.Paced clk := hs2.modSw
  split
  · exact hs1
  · extract_lets s4 s5 s6 s7
    have hs4 : s4.Paced clk := by
      unfold s4
      split
      · exact hs3.modForme
      · exact hs3
    have hs5 : s5.Paced clk := hs4.incF
    have hs6 : s6.Paced clk := hs5.ite hs5.setF.setF.raiseF
    have hs7 : s7.Paced clk := hs6.incF.event.ite (hs6.ite hs6.event)
    exact hs7.rise.ite hs7.modSw.endReshard

theorem State.Paced.planFault {p addr : Nat} {f : AccFault} (h : s.Paced clk) : (s.planFault p addr f).Paced clk :=
  h.faultRecord.endPlan

theorem State.Paced.bytesOut {die n : Nat} (h : s.Paced clk) : (s.bytesOut die n).Paced clk := h.incF2

theorem State.Paced.copyLines {p die entry src dst n : Nat} (h : s.Paced clk) :
    (s.copyLines p die entry src dst n).1.Paced clk := by
  induction n generalizing s src dst with
  | zero => exact h
  | succ n ih =>
    unfold State.copyLines
    split
    · exact h
    · split
      next e => exact h.store.of_fst e
      next e => exact ih (h.store.of_fst e).bytesOut

theorem State.Paced.sendPieces {p die entry ctx src off len plan n : Nat} (h : s.Paced clk) :
    (s.sendPieces p die entry ctx src off len plan n).1.Paced clk := by
  induction n generalizing s src off len with
  | zero => exact h
  | succ n ih =>
    unfold State.sendPieces
    split
    · exact h
    · exact ih h.remoteWrite.bytesOut

theorem State.Paced.moveEntry {p die i : Nat} {x : ReshardPlan} {e : Nat × Nat × Nat} (h : s.Paced clk) :
    (s.moveEntry p die i x e).Paced clk := by
  unfold State.moveEntry
  split
  · extract_lets _ _ s1
    have hs1 : s1.Paced clk := h.modPlan
    split
    · exact h.planFault
    · split
      next e => exact (hs1.sendPieces.of_fst e).planFault
      next e => exact hs1.sendPieces.of_fst e
  · split
    next e => exact (h.copyLines.of_fst e).planFault
    next e =>
      have ht := h.copyLines.of_fst e
      exact ht.modPlan.ite ht.entryDone

theorem State.Paced.pumpDie {p die n : Nat} (h : s.Paced clk) : (s.pumpDie p die n).Paced clk := by
  induction n generalizing s with
  | zero => exact h
  | succ n ih =>
    unfold State.pumpDie
    extract_lets
    split
    · exact h
    · extract_lets
      split
      · exact h
      · split
        · exact h
        · exact (ih h.modPlan.moveEntry).ite (ih h.modPlan)

theorem State.Paced.planPump {p : Nat} (h : s.Paced clk) : (s.planPump p).Paced clk := by
  unfold State.planPump
  extract_lets s1
  have hs1 : s1.Paced clk := h.movesDone
  split
  · exact hs1
  · exact hs1.pumpDie.pumpDie.ite hs1.pumpDie

theorem State.Paced.planAck {p i : Nat} {status : Option Nat} (h : s.Paced clk) : (s.planAck p i status).Paced clk := by
  unfold State.planAck
  split
  · exact (h.modSw.entryDone.ite h.modSw).planPump
  · exact h.planFault
  · exact h.endPlan
  · exact h

theorem State.Paced.endSwitch {p : Nat} (h : s.Paced clk) : (s.endSwitch p).Paced clk := by
  unfold State.endSwitch
  extract_lets _ s1 _ s2 s3
  have hs1 : s1.Paced clk := h.modSw
  have hs2 : s2.Paced clk := hs1.foldl fun _ _ h => h.finishForme
  have hs3 : s3.Paced clk := hs2.incF.event
  split
  · exact h
  · split
    · exact hs3
    · exact hs3.modSw.finishForme

/-! ### Machine/Stop.lean -/

theorem State.Paced.endEntries {p : Nat} {reset : Bool} (h : s.Paced clk) : (s.endEntries p reset).Paced clk := by
  unfold State.endEntries
  extract_lets _ s1
  have hs1 : s1.Paced clk := .mk h
  exact hs1.foldl fun _ _ h => h.dropEntry.ite h.endEntry

theorem State.Paced.dropFormes {p : Nat} (h : s.Paced clk) : (s.dropFormes p).Paced clk := h.of_power rfl

theorem State.Paced.dropFabric {p : Nat} (h : s.Paced clk) : (s.dropFabric p).Paced clk := h.of_power rfl

theorem State.Paced.dropSwitch {p : Nat} (h : s.Paced clk) : (s.dropSwitch p).Paced clk := by
  unfold State.dropSwitch
  extract_lets s1
  have hs1 : s1.Paced clk := h.dropPlan.setSw
  exact .ite hs1 (.mk hs1)

theorem State.Paced.dropJobs {p : Nat} (h : s.Paced clk) : (s.dropJobs p).Paced clk := h.foldl fun _ _ h => h.dropJob

theorem State.Paced.abandon {p : Nat} {reset : Bool} (h : s.Paced clk) : (s.abandon p reset).Paced clk := by
  unfold State.abandon
  extract_lets s1 s2 s3 s4 s5
  have hs1 : s1.Paced clk := h.foldl fun _ _ h => h.performUpdate
  have hs2 : s2.Paced clk := .mk hs1
  have hs3 : s3.Paced clk := hs2.endEntries.dropFormes
  have hs4 : s4.Paced clk := hs3.disarm.dropFabric.dropJobs
  have hs5 : s5.Paced clk := hs4.modKv
  exact hs5.dropSwitch.snapClear.replayCut

theorem State.Paced.fillStop {p : Nat} (h : s.Paced clk) : (s.fillStop p).Paced clk := h.fillHalt.ite h

theorem State.Paced.stopJob {p : Nat} (h : s.Paced clk) : (s.stopJob p).Paced clk := h.abandon.fillStop

theorem State.Paced.stopPartition {p : Nat} (h : s.Paced clk) : (s.stopPartition p).Paced clk := h.ite h.stopJob.modPart.event

theorem State.Paced.hostSweep (h : s.Paced clk) : s.hostSweep.Paced clk := by
  unfold State.hostSweep
  extract_lets
  exact .foldl (.mk h) fun _ _ h => h.stopPartition

theorem State.Paced.resetPages {pgs : List Nat} (h : s.Paced clk) : (s.resetPages pgs).Paced clk := h.of_power rfl

theorem State.Paced.zeroGalleys {p : Nat} (h : s.Paced clk) : (s.zeroGalleys p).Paced clk := h.foldl fun _ _ h => h.wipe

theorem State.Paced.zeroStack {p : Nat} (h : s.Paced clk) : (s.zeroStack p).Paced clk := h.foldl fun _ _ h => h.wipe

theorem State.Paced.dropPlans {p : Nat} (h : s.Paced clk) : (s.dropPlans p).Paced clk := h.of_power rfl

theorem State.Paced.freeWrites {p : Nat} (h : s.Paced clk) : (s.freeWrites p).Paced clk :=
  h.foldl fun _ _ h => h.releaseWrites

theorem State.Paced.clearPart {p : Nat} (h : s.Paced clk) : (s.clearPart p).Paced clk := by
  unfold State.clearPart
  extract_lets s1 s2 s3
  have hs1 : s1.Paced clk := .mk h
  have hs2 : s2.Paced clk := hs1.freeWrites.clearTables
  have hs3 : s3.Paced clk := hs2.dropPlans.zeroGalleys.mapWritten.fillClear
  exact .mk hs3

theorem State.Paced.clearQueues {f : Nat} (h : s.Paced clk) : (s.clearQueues f).Paced clk := h.modFn

theorem State.Paced.flrConfig {p : Nat} (h : s.Paced clk) : (s.flrConfig p).Paced clk := h.modFn

theorem State.Paced.beginReset {p : Nat} {flr : Bool} (h : s.Paced clk) : (s.beginReset p flr).Paced clk := by
  unfold State.beginReset
  extract_lets _ s1 _ s2 s3
  have hs1 : s1.Paced clk := h.modPart
  have hs2 : s2.Paced clk := .abandon (.mk h)
  have hs3 : s3.Paced clk := hs2.fillClear.modPart
  exact (hs1.flrConfig.ite hs1).ite (hs3.foldl fun _ _ h => h.modCore)

theorem State.Paced.requestReset {p : Nat} {flr : Bool} (h : s.Paced clk) : (s.requestReset p flr).Paced clk := by
  unfold State.requestReset
  extract_lets done
  have hdone : done.Paced clk := h.emit.ite h
  split
  · exact hdone
  · split
    · exact hdone
    · exact hdone
    · exact h.ite h.modPart
    · exact h.beginReset
    · exact h.beginReset

theorem State.Paced.tearDown {p : Nat} (h : s.Paced clk) : (s.tearDown p).Paced clk := by
  unfold State.tearDown
  extract_lets _ s1 _ s2 s3 s4
  have hs1 : s1.Paced clk := .mk h
  have hs2 : s2.Paced clk := hs1.abandon.clearPart.zeroStack
  have hs3 : s3.Paced clk := hs2.clearQueues.resetPages
  have hs4 : s4.Paced clk := hs3.emit.ite hs3
  exact hs4.setPart.setF

theorem State.Paced.takeHeld {p : Nat} (h : s.Paced clk) : (s.takeHeld p).Paced clk := by
  unfold State.takeHeld
  extract_lets _ s1
  have hs1 : s1.Paced clk := h.modPart
  refine hs1.foldl fun t x h => ?_
  split
  · exact h.tearDown.ite h
  · exact h.requestReset
  · exact h.requestReset

/-! ### Machine/Boundary.lean -/

theorem State.Paced.applyPlan {pg : Nat} (h : s.Paced clk) : (s.applyPlan pg).Paced clk := by
  unfold State.applyPlan
  extract_lets _ _ v1 s1
  have hv1 : v1.Paced clk := h.latch
  have hs1 : s1.Paced clk := .mk hv1
  exact hs1.ite hs1.event

theorem State.Paced.applyCamb {pg : Nat} (h : s.Paced clk) : (s.applyCamb pg).Paced clk := h.latch.readArenas.ite h.latch

theorem State.Paced.applyStep {pg : Nat} (h : s.Paced clk) : (s.applyStep pg).Paced clk := by
  unfold State.applyStep
  exact .ite h (.ite (.mk h) (h.applyPlan.ite h.applyCamb))

theorem State.Paced.clampEvent {c : Nat} (h : s.Paced clk) : (s.clampEvent c).Paced clk := h.ite h.event

theorem State.Paced.takeShares {c : Nat} (h : s.Paced clk) : (s.takeShares c).Paced clk := h.modCore.setF.clampEvent

theorem State.Paced.newShares {c used : Nat} (h : s.Paced clk) : (s.newShares c used).Paced clk :=
  (h.ite h.takeShares).ite h.modCore.setF

theorem State.Paced.applyCore {c : Nat} (h : s.Paced clk) : (s.applyCore c).Paced clk :=
  h.latch.modCore.newShares.ite h.latch.modCore.newShares.setF

theorem State.Paced.slotPasses {c slot : Nat} (h : s.Paced clk) : (s.slotPasses c slot).Paced clk := by
  unfold State.slotPasses
  split
  · exact h
  · exact h.modCore.setF.ite h.modCore

/-! ### Machine/Post.lean -/

theorem State.Paced.takeForme {j part slot : Nat} {bytes : List Byte} {host : Option HostRef} {core : Option Nat}
    (h : s.Paced clk) :
    (s.takeForme j part slot bytes host core).Paced clk := by
  unfold State.takeForme
  extract_lets _ _ s1 _ s2
  have hs1 : s1.Paced clk := .incF (.mk h)
  have hs2 : s2.Paced clk := hs1.countOp
  split
  · extract_lets s3
    have hs3 : s3.Paced clk := by
      unfold s3
      split
      · exact hs1.event.ite hs1
      · exact hs1
    exact hs3.setForme.finishForme
  · exact hs2.setForme.ite hs1.setForme

theorem State.Paced.holdPlan {x : Forme} {ps : List Plan} (h : s.Paced clk) : (s.holdPlan x ps).Paced clk := h.of_power rfl

theorem State.Paced.showPlan {x : Forme} {b : Nat} {p : Plan} (h : s.Paced clk) : (s.showPlan x b p).Paced clk :=
  h.setReg.setF

theorem State.Paced.setClaims {x : Forme} {tiles : List Nat} (h : s.Paced clk) : (s.setClaims x tiles).Paced clk :=
  h.foldl fun _ _ h => h.countOp.setReg.setValue

theorem State.Paced.countPlan {x : Forme} {pl : Planned} (h : s.Paced clk) : (s.countPlan x pl).Paced clk := by
  unfold State.countPlan
  extract_lets _ s1 s2 s3
  have hs1 : s1.Paced clk := h.incF.ite h
  have hs2 : s2.Paced clk := hs1.ite hs1.incF
  have hs3 : s3.Paced clk := hs2.event.ite hs2
  exact hs3.ite hs3.holdPlan

theorem State.Paced.runTiles {i : Nat} {pl : Planned} (h : s.Paced clk) : (s.runTiles i pl).Paced clk :=
  ((h.setClaims.foldl fun _ _ h => h.setReg).ite h.setClaims).countPlan.showPlan.modForme

theorem State.Paced.cacheRows {i : Nat} (h : s.Paced clk) : (s.cacheRows i).Paced clk := by
  unfold State.cacheRows
  extract_lets _ _ s1
  have hs1 : s1.Paced clk := h.validateRows
  split
  · exact h
  · split
    next e => exact hs1.writeCache.of_fst e
    next e => exact (hs1.writeCache.of_fst e).faultRecord.formeFault

theorem State.Paced.planFails {i : Nat} {e : PlanErr} (h : s.Paced clk) : (s.planFails i e).Paced clk := by
  unfold State.planFails
  extract_lets _ s1 s2 s3 s4
  have hs1 : s1.Paced clk := by
    unfold s1
    split
    · exact h.faultRecord
    · exact h
  have hs2 : s2.Paced clk := hs1.ite hs1.incF
  have hs3 : s3.Paced clk := hs2.event.ite hs2
  have hs4 : s4.Paced clk := hs3.event.ite hs3
  exact hs4.finishForme

theorem State.Paced.planEnds {i : Nat} (h : s.Paced clk) : (s.planEnds i).Paced clk := by
  unfold State.planEnds
  split
  · exact h.planFails
  · exact h.runTiles.cacheRows

theorem State.Paced.rowsReach {i : Nat} (h : s.Paced clk) : (s.rowsReach i).Paced clk := by
  unfold State.rowsReach
  split
  · exact h
  · exact h.planEnds.ite h

theorem State.Paced.tryEnd {i : Nat} (h : s.Paced clk) : (s.tryEnd i).Paced clk := by
  unfold State.tryEnd
  split
  · exact h
  · exact h.endStep2.endStep3.ite (h.finishForme.ite h)

theorem State.Paced.endFormes (h : s.Paced clk) : s.endFormes.Paced clk := h.foldl fun _ _ h => h.tryEnd

/-! ### Machine/Tiles.lean -/

theorem State.Paced.platenIssues {c : Nat} (h : s.Paced clk) : (s.platenIssues c).Paced clk := h.modCore

/-! ### Machine/Formes.lean -/

theorem State.Paced.retryPost {j : Nat} (h : s.Paced clk) : (s.retryPost j).Paced clk := by
  unfold State.retryPost
  split
  · extract_lets
    exact .ite h (.takeForme (.mk h))
  · exact h

/-! ### Machine/Generate.lean -/

theorem State.Paced.kvFinish {p i : Nat} (h : s.Paced clk) : (s.kvFinish p i).Paced clk := by
  unfold State.kvFinish
  extract_lets
  split
  · exact h
  · split
    · exact h.finishForme
    · exact h

theorem State.Paced.kvPop {p : Nat} (h : s.Paced clk) : (s.kvPop p).Paced clk := h.modKv

theorem State.Paced.kvFault {p i : Nat} {f : AccFault} {a : Nat} (h : s.Paced clk) : (s.kvFault p i f a).Paced clk :=
  h.faultRecord.modKv.finishForme

theorem State.Paced.refillAll {p : Nat} (h : s.Paced clk) : (s.refillAll p).Paced clk := h.modKv

theorem State.Paced.peekNow {p table i : Nat} (h : s.Paced clk) : (s.peekNow p table i).Paced clk := h.setRegs.setF.setF

theorem State.Paced.kvFront {p : Nat} (h : s.Paced clk) : (s.kvFront p).Paced clk := by
  unfold State.kvFront
  split
  · exact h
  · exact h.kvPop.rowsReach
  · exact h.kvPop.refillAll
  · exact h.kvPop.peekNow
  · split
    · exact h.kvPop.kvFinish.ite h
    · exact h.kvFault
    · exact h

theorem State.Paced.kvSettle {p : Nat} (h : s.Paced clk) : (s.kvSettle p).Paced clk := h.ite (h.foldl fun _ _ h => h.kvFront)

/-! ### Machine/Intake.lean -/

theorem State.Paced.applyIntake (h : s.Paced clk) : s.applyIntake.Paced clk := by
  unfold State.applyIntake
  extract_lets _ s1
  have hs1 : s1.Paced clk := by
    unfold s1
    refine h.foldl fun t x h => ?_
    split
    · exact h
    · extract_lets
      exact .event (.mk h)
  exact hs1.latch

theorem State.Paced.applyIntkIdle {e : Nat} (h : s.Paced clk) : (s.applyIntkIdle e).Paced clk :=
  (h.applyIntake.ite h.latch).ite h

/-! ### Machine/Fabric.lean -/

theorem State.Paced.advertiseOn {l : Nat} (h : s.Paced clk) : (s.advertiseOn l).Paced clk := h.sendOn.sendOn

theorem State.Paced.advertise (h : s.Paced clk) : s.advertise.Paced clk := h.foldl fun _ _ h => h.advertiseOn

theorem State.Paced.recomputeFrom {was : Canopy} (h : s.Paced clk) : (s.recomputeFrom was).Paced clk := by
  unfold State.recomputeFrom
  extract_lets
  exact .ite h (.advertise (.event (.mk h)))

theorem State.Paced.unroutable {l : Nat} (h : s.Paced clk) : (s.unroutable l).Paced clk := h.satF.event

theorem State.Paced.reroute {l : Nat} {w : Waiting} (h : s.Paced clk) : (s.reroute l w).Paced clk := by
  unfold State.reroute
  split
  · exact h
  · split
    · exact h.sendFrom
    · exact h.unroutable.leaves

theorem State.Paced.linkDown {l st : Nat} (h : s.Paced clk) : (s.linkDown l st).Paced clk := by
  unfold State.linkDown
  extract_lets _ _ _ _ s1 _ _ _ s3
  have hs1 : s1.Paced clk := h.setLink.setLinkSt
  have hs3 : s3.Paced clk := .mk hs1
  exact hs1.ite (hs3.recomputeFrom.foldl fun _ _ h => h.reroute)

theorem State.Paced.applyPort {n : Nat} (h : s.Paced clk) : (s.applyPort n).Paced clk :=
  ((h.latch.foldl fun _ _ h => h.setLinkSt.ite h).ite h.latch).ite (h.latch.foldl fun _ _ h => h.linkDown)

theorem State.Paced.retire {r : RemoteReq} (h : s.Paced clk) : (s.retire r).Paced clk := by
  unfold State.retire
  extract_lets _ s1 _ s2
  have hs1 : s1.Paced clk := .mk h
  have hs2 : s2.Paced clk := hs1.setCtx
  split
  · exact hs1
  · split
    · exact .ite hs2 (.request (.mk hs2))
    · exact hs2

theorem State.Paced.remoteRecord {r : RemoteReq} {f : AccFault} {byPeer : Bool} (h : s.Paced clk) :
    (s.remoteRecord r f byPeer).Paced clk :=
  h.errRecord

theorem State.Paced.remoteFault {r : RemoteReq} {f : AccFault} {byPeer : Bool} (h : s.Paced clk) :
    (s.remoteFault r f byPeer).Paced clk := by
  unfold State.remoteFault
  split
  · exact h.remoteRecord.endProgram
  · exact h.remoteRecord.endProgram
  · exact h.remoteRecord.endProgram
  · exact h.remoteRecord.formeFault
  · exact h.remoteRecord.formeFault.ite h.remoteRecord
  · exact h.planAck.ite h.planAck
  · exact (h.remoteRecord.ite h).snapFail
  · exact (h.remoteRecord.ite h).fillHalt
  · exact (h.remoteRecord.ite h).fillHalt
  · exact h.remoteRecord
  · exact h.ite h.remoteRecord

theorem State.Paced.failLost (h : s.Paced clk) : s.failLost.Paced clk := h.foldl fun _ _ h => h.retire.remoteFault.ite h

theorem State.Paced.sweepLost (h : s.Paced clk) : s.sweepLost.Paced clk := h.failLost.collSweep.snapSweep.fillSweep

/-! ### Machine/Apply.lean -/

theorem State.Paced.applyIfReady {pg : Nat} (h : s.Paced clk) : (s.applyIfReady pg).Paced clk := by
  unfold State.applyIfReady
  split
  · exact h
  · split
    · exact h.applyCore.ite h
    · exact h.applyStep
    · exact h.applyStep
    · exact h
    · exact h.applyIntkIdle
    · exact h.latch.ite h.applyPort
    · exact h.ite h.latch
    · exact h

/-! ### Machine/Integrity.lean -/

theorem State.Paced.retrainSummary (h : s.Paced clk) : s.retrainSummary.Paced clk := by
  unfold State.retrainSummary
  split
  · exact h
  · extract_lets _ s1
    have hs1 : s1.Paced clk := h.foldl fun _ _ h => h.history
    exact .mk hs1

theorem State.Paced.pageImpression {seq pg : Nat} (h : s.Paced clk) : (s.pageImpression seq pg).Paced clk := by
  unfold State.pageImpression
  split
  · exact h
  · exact ((h.foldl fun _ _ h => h.setReg).setF.ite (h.foldl fun _ _ h => h.setReg)).setReg

theorem State.Paced.impTake (h : s.Paced clk) : s.impTake.Paced clk :=
  h.ite (h.foldl fun _ _ h => h.pageImpression).setF.setF.setF.setF.event

/-- The waves and their gap are no clocks. -/
theorem State.Paced.modWaves {w : Power → List WaveSet} (h : s.Paced clk) :
    (s.modPower fun p => { p with waves := w p }).Paced clk := h

theorem State.Paced.modGap {n : Power → Nat} (h : s.Paced clk) : (s.modPower fun p => { p with waveGap := n p }).Paced clk := h

/-! ### Machine/Power.lean -/

theorem State.Paced.wavesEnd {w : WaveSet} (h : s.Paced clk) : (s.wavesEnd w).Paced clk := by
  unfold State.wavesEnd
  split
  · exact h.modPart.event.takeHeld
  · exact h.modPart.emit.ite h.modPart
  · exact h.endSwitch
  · exact h

theorem State.Paced.waveStart {owner : Option Nat} (h : s.Paced clk) : (s.waveStart owner).Paced clk := by
  unfold State.waveStart
  split
  · exact h
  · split
    · exact h
    · extract_lets _ _ s1
      have hs1 : s1.Paced clk := .mk h
      exact hs1.modWaves.wavesEnd.ite hs1.modWaves

theorem State.Paced.takeGap (h : s.Paced clk) : s.takeGap.Paced clk := h.modGap.ite h

/-! ### Machine/Tick.lean -/

theorem State.Paced.countCause {c : Nat} {k : Option Nat} (h : s.Paced clk) : (s.countCause c k).Paced clk := by
  unfold State.countCause
  split
  · exact h.incF2
  · exact h.incF2

theorem State.Paced.snapWaits {p c n : Nat} (h : s.Paced clk) : (s.snapWaits p c n).Paced clk := by
  unfold State.snapWaits
  split
  · exact h
  · exact .ite (.mk h) h

theorem State.Paced.accountCore {p c : Nat} {l : List Nat} (h : s.Paced clk) : (s.accountCore p c l).Paced clk :=
  (((h.idleRestart.platenIssues.ite h.idleRestart).ite h).foldl fun _ _ h => h.countCause).snapWaits

theorem State.Paced.settleThreads (h : s.Paced clk) : s.settleThreads.Paced clk := h.of_power rfl

theorem State.Paced.account (h : s.Paced clk) : s.account.Paced clk := h.foldl fun _ _ h => h.foldl fun _ _ h => h.accountCore

theorem State.Paced.ageSlots (h : s.Paced clk) : s.ageSlots.Paced clk := h.foldl fun _ _ h => h.modCore

theorem State.Paced.countStalls (h : s.Paced clk) : s.countStalls.Paced clk := h.foldl fun _ _ h => h.incF

theorem State.Paced.serviceSnaps (h : s.Paced clk) : s.serviceSnaps.Paced clk := h.foldl fun _ _ h => h.snapTry

theorem State.Paced.restSlots (h : s.Paced clk) : s.restSlots.Paced clk :=
  h.foldl fun _ _ h => h.foldl fun _ _ h => h.slotPasses

theorem State.Paced.background (h : s.Paced clk) : s.background.Paced clk := by
  unfold State.background
  extract_lets s1 s2 s3 s4 s5 s6 s7
  have hs1 : s1.Paced clk := h.hostSweep.sweepLost
  have hs2 : s2.Paced clk := hs1.foldl fun _ _ h => h.snapStream
  have hs3 : s3.Paced clk := hs2.foldl fun _ _ h => h.fillPage
  have hs4 : s4.Paced clk := hs3.foldl fun _ _ h => h.kvSettle
  have hs5 : s5.Paced clk := hs4.foldl fun _ _ h => h.planPump.ite h
  have hs6 : s6.Paced clk := hs5.endFormes.serviceSnaps.restSlots
  have hs7 : s7.Paced clk := hs6.foldl fun _ _ h => h.retryPost
  exact hs7.foldl fun _ _ h => h.applyIfReady

theorem State.Paced.atEdge (h : s.Paced clk) : s.atEdge.Paced clk := h.ite (h.foldl fun _ _ h => h.waveStart).takeGap.impTake

theorem State.Paced.rampSteps (h : s.Paced clk) : s.rampSteps.Paced clk := h.foldl fun _ _ h => h.rampStep

end Sys2Proof.Machine
end

