-- ==== Sys2Proof/Proofs/EmptyQueueIsOneCycle.lean ====
section
/-! SUPPORT. One KCLK cycle with an empty queue (R30, R31, R444). -/

namespace Sys2Proof.Machine

variable {s : State} {clk : Power}

/-! ### A KCLK cycle (R30, R444) -/

/-- What is looked at of an advance of the clocks: one KCLK count, and device time by 0, 1 or 2 counts, by 1 without a correction. -/
theorem Power.advance_counts (p : Power) : p.advance.kclk = p.kclk + 1 ∧ p.time ≤ p.advance.time ∧ p.advance.time ≤ p.time + 2 ∧
    (p.slew = 0 → p.rate = 0 → p.rateAcc = 0 → p.advance.time = p.time + 1) := by
  unfold Power.advance
  extract_lets q k acc
  have hq : q.kclk = p.kclk ∧ q.time = p.time ∧ q.slew = p.slew ∧ q.rate = p.rate ∧ q.rateAcc = p.rateAcc := by
    unfold q
    split_ifs <;> exact ⟨rfl, rfl, rfl, rfl, rfl⟩
  obtain ⟨hkclk, htime, hslew, hrate, hacc⟩ := hq
  have hk : k = p.kclk + 1 := by rw [← hkclk]
  have hsum : acc = p.rateAcc + p.rate := by rw [← hacc, ← hrate]
  clear_value q k acc
  simp only [Bool.and_eq_true, decide_eq_true_eq]
  split_ifs with hup hdown hadd hdrop
  all_goals
    refine ⟨hk, ?_, ?_, fun h0 hr ha => ?_⟩
    all_goals simp only; omega

theorem State.advance_paced (s : State) : s.advance.Paced s.power.advance := by
  have h : (s.modPower Power.advance).Paced s.power.advance := (s.modPower Power.advance).paced_self
  exact h.ite h.retrainSummary

/-- A cycle up to the advance of its clocks, which leaves them. -/
theorem State.Paced.beforeAdvance (h : s.Paced clk) : s.atEdge.rampSteps.settleThreads.account.ageSlots.countStalls.Paced clk :=
  h.atEdge.rampSteps.settleThreads.account.ageSlots.countStalls

theorem State.tick_counts (h : s.clocked = true) : s.tick.power.kclk = s.power.kclk + 1 ∧ s.power.time ≤ s.tick.power.time ∧
    s.tick.power.time ≤ s.power.time + 2 ∧
    (s.power.slew = 0 → s.power.rate = 0 → s.power.rateAcc = 0 → s.tick.power.time = s.power.time + 1) := by
  rw [State.tick, h, if_neg (by decide)]
  obtain ⟨hk, ht, hs, hr, ha⟩ := s.paced_self.beforeAdvance
  generalize s.atEdge.rampSteps.settleThreads.account.ageSlots.countStalls = u at *
  obtain ⟨hk', ht', -, -, -⟩ := u.advance_paced.background
  have hcounts := u.power.advance_counts
  rwa [hk, ht, hs, hr, ha, ← hk', ← ht'] at hcounts

/-- Settles O3: but for their advance, no operation of a cycle changes the clocks. -/
theorem emptyQueueIsOneCycle : Obligations.EmptyQueueIsOneCycle := by
  unfold Obligations.EmptyQueueIsOneCycle
  intro s hs
  have hstep : step s = .next s.tick := by rw [step, hs]
  refine ⟨fun h => ?_, fun h => ⟨s.tick, hstep, State.tick_counts h⟩⟩
  rw [hstep, State.tick, h]
  rfl

end Sys2Proof.Machine
end

