-- ==== Sys2Proof/Proofs/DivisionStays.lean ====
section
/-! SUPPORT. The division into partitions (R6) stands still under stores and under a replay's blocks: no register that they write has the
offset of LOG2_K. Every operation on a store's way gets one lemma of its name, as in the layer of the clocks. -/

namespace Sys2Proof.Machine

variable {s : State} {w : Nat}

/-- The register that holds LOG2_K (R6) reads `w`. -/
def State.Divided (s : State) (w : Nat) : Prop := s.reg (Pg.part 0 * 4096 + F.MEMP_LOG2_K.off) = w

theorem State.divided_self (s : State) : s.Divided (s.reg (Pg.part 0 * 4096 + F.MEMP_LOG2_K.off)) := rfl

theorem State.Divided.k {u : State} (h : s.Divided w) (g : u.Divided w) : u.k = s.k := by
  rw [State.k, State.k, State.log2k, State.log2k, State.f, State.f, h, g]

theorem State.Divided.leadPage {u : State} (h : s.Divided w) (g : u.Divided w) (p : Nat) : u.leadPage p = s.leadPage p := by
  rw [State.leadPage, State.leadPage, State.lead, State.lead, State.unitsPer, State.unitsPer, h.k g]

theorem State.Divided.stackShare {u : State} (h : s.Divided w) (g : u.Divided w) (p : Nat) : u.stackShare p = s.stackShare p := by
  rw [State.stackShare, State.stackShare, h.k g]

theorem State.Divided.of_regs {u : State} (h : s.Divided w) (e : u.regs = s.regs) : u.Divided w := by
  rw [State.Divided, State.reg, e]
  exact h

theorem State.Divided.ite {a b : State} {c : Prop} [Decidable c] (ha : a.Divided w) (hb : b.Divided w) :
    (if c then a else b).Divided w := by
  split <;> assumption

theorem State.Divided.ite_fst {α : Type} {a b : State × α} {c : Prop} [Decidable c] (ha : a.1.Divided w) (hb : b.1.Divided w) :
    (if c then a else b).1.Divided w := by
  split <;> assumption

/-- A fold leaves the division when its step does. -/
theorem State.Divided.foldl {α : Type} {f : State → α → State} {l : List α} (h : s.Divided w)
    (hf : ∀ t x, t.Divided w → (f t x).Divided w) : (l.foldl f s).Divided w := by
  induction l generalizing s with
  | nil => exact h
  | cons x l ih => exact ih (hf s x h)

theorem State.Divided.foldl_fst {α β : Type} {f : State × β → α → State × β} {l : List α} {r : State × β} (h : r.1.Divided w)
    (hf : ∀ t x, t.1.Divided w → (f t x).1.Divided w) : (l.foldl f r).1.Divided w := by
  induction l generalizing r with
  | nil => exact h
  | cons x l ih => exact ih (hf r x h)

/-- The state of an answer that is known as a pair. -/
theorem State.Divided.of_fst {α : Type} {r : State × α} {t : State} {a : α} (h : r.1.Divided w) (e : r = (t, a)) : t.Divided w := by
  subst e
  exact h

/-! ### Registers -/

/-- A register with another offset within its page is not that of LOG2_K. -/
theorem State.Divided.setReg {a v : Nat} (h : s.Divided w) (ha : a % 4096 ≠ F.MEMP_LOG2_K.off) : (s.setReg a v).Divided w := by
  refine (State.reg_setReg_ne s v fun e => ha ?_).trans h
  rw [← e]
  decide

theorem State.Divided.setF {pg v : Nat} {f : Fld} (h : s.Divided w) (hf : f.off % 4096 ≠ F.MEMP_LOG2_K.off) :
    (s.setF pg f v).Divided w :=
  h.setReg (by rwa [Nat.mul_add_mod_self_right])

theorem State.Divided.incF {pg n : Nat} {f : Fld} (h : s.Divided w) (hf : f.off % 4096 ≠ F.MEMP_LOG2_K.off) :
    (s.incF pg f n).Divided w :=
  h.setF hf

theorem State.Divided.satF {pg n : Nat} {f : Fld} (h : s.Divided w) (hf : f.off % 4096 ≠ F.MEMP_LOG2_K.off) :
    (s.satF pg f n).Divided w :=
  h.setF hf

theorem State.Divided.event {pg b : Nat} (h : s.Divided w) : (s.event pg b).Divided w := by
  refine (State.reg_event s pg b _ (not_irqSentWord (.inl (by decide))) ?_ ?_).trans h
  · simp only [Pg.part, F.MEMP_LOG2_K, oEvent]
    omega
  · simp only [Pg.part, F.MEMP_LOG2_K, oCount]
    omega

theorem State.Divided.history {kind : Nat} {payload : List Nat} (h : s.Divided w) : (s.history kind payload).Divided w := by
  unfold State.history
  exact .ite h (h.of_regs rfl)

/-- Registers in a row that begins and ends between two words of that offset. -/
theorem State.Divided.setRegs {a : Nat} {l : List Nat} (h : s.Divided w) (hlo : F.MEMP_LOG2_K.off < a % 4096)
    (hhi : a % 4096 + 4 * l.length < 4096) : (s.setRegs a l).Divided w := by
  induction l generalizing s a with
  | nil => exact h
  | cons v l ih =>
    rw [List.length_cons] at hhi
    exact ih (h.setReg (by omega)) (by omega) (by omega)

theorem State.Divided.fileRecord {p part : Nat} {r : ErrRec} (h : s.Divided w) : (s.fileRecord p r part).Divided w := by
  refine .event (.ite (.incF (h.setRegs ?_ ?_) (by decide)) (h.satF (by decide)))
  · simp only [F.MEMP_LOG2_K]
    omega
  · simp only [ErrRec.words, List.length_cons, List.length_nil]
    omega

theorem State.Divided.errRecord {p : Nat} {r : ErrRec} (h : s.Divided w) : (s.errRecord p r).Divided w := h.fileRecord.history

/-! ### Packets to peers -/

theorem State.Divided.setLink {l : Nat} {x : Link} (h : s.Divided w) : (s.setLink l x).Divided w := h.of_regs rfl

theorem State.Divided.putFlits {l : Nat} {fl : List Flit} (h : s.Divided w) : (s.putFlits l fl).Divided w := by
  unfold State.putFlits
  extract_lets x n s1 s2
  have hs2 : s2.Divided w := (h.setLink.setF (by dsimp only; decide)).setF (by dsimp only; decide)
  exact hs2.of_regs rfl

theorem State.Divided.transmit {l : Nat} {items : List (List Byte × Option Packet)} (h : s.Divided w) :
    (s.transmit l items).Divided w :=
  h.setLink.putFlits

theorem State.Divided.sendWaiting {l : Nat} (h : s.Divided w) : (s.sendWaiting l).1.Divided w :=
  h.ite_fst (h.ite_fst h.setLink.transmit)

theorem State.Divided.sendLink {l : Nat} {b : List Byte} (h : s.Divided w) : (s.sendLink l b).Divided w :=
  h.setLink.setLink.transmit.ite h.setLink

theorem State.Divided.leaves {x : Waiting} (h : s.Divided w) : (s.leaves x).Divided w := by
  unfold State.leaves
  split
  · exact h.sendLink.ite h
  · exact h

theorem State.Divided.sendOn {l : Nat} {p : Packet} (h : s.Divided w) : (s.sendOn l p).Divided w :=
  h.setLink.sendWaiting.foldl fun _ _ h => h.leaves

theorem State.Divided.originate {p : Packet} {u : State} (h : s.Divided w) (e : s.originate p = some u) : u.Divided w := by
  unfold State.originate at e
  split at e
  · cases e
  · dsimp only at e
    split at e
    · cases e
      exact h.of_regs rfl
    · split at e
      · cases e
        exact h.sendOn
      · cases e

theorem State.Divided.fillLoses {p c : Nat} (h : s.Divided w) : (s.fillLoses p c).Divided w := by
  unfold State.fillLoses
  extract_lets
  split
  · exact h
  · exact .ite h (.ite (.ite (h.of_regs rfl) h) (h.satF (by decide)))

theorem State.Divided.setCtx {c e : Nat} (h : s.Divided w) : (s.setCtx c e).Divided w := h.of_regs rfl

theorem State.Divided.ctxDown {c : Nat} (h : s.Divided w) : (s.ctxDown c).Divided w := h.ite h.setCtx.fillLoses.event.history

theorem State.Divided.request {r : RemoteReq} (h : s.Divided w) : (s.request r).Divided w := by
  unfold State.request
  extract_lets _ _ _ _ s1 _ s2
  have hs2 : s2.Divided w := h.of_regs rfl
  split
  · exact h.of_regs rfl
  · split
    next e => exact hs2.originate e
    · exact hs2.ctxDown

/-! ### Accesses that fault -/

theorem State.Divided.damageRecord {p addr symbols : Nat} {l : Loc} (h : s.Divided w) : (s.damageRecord p addr symbols l).Divided w := by
  unfold State.damageRecord
  extract_lets
  split
  · exact h.errRecord
  · exact (h.satF (by decide)).event.errRecord
  · exact h

theorem State.Divided.faultRecord {p unit addr : Nat} {f : AccFault} (h : s.Divided w) : (s.faultRecord p unit addr f).Divided w := by
  have hstop : ({ s with hostStops := s.hostStops ++ [p] } : State).Divided w := h.of_regs rfl
  unfold State.faultRecord
  extract_lets
  split
  · exact h.ite hstop.errRecord
  · exact h.ite hstop.damageRecord
  · exact h.errRecord
  · exact h.errRecord

/-! ### Memory and the page map -/

theorem State.Divided.poke {a : Nat} {b : List Byte} (h : s.Divided w) : (s.poke a b).Divided w := h.of_regs rfl

theorem State.Divided.pokePhys {a : Nat} {b : List Byte} (h : s.Divided w) : (s.pokePhys a b).Divided w := by
  unfold State.pokePhys
  split
  · exact h.poke
  · refine h.foldl fun t x h => ?_
    extract_lets
    split
    · exact h.poke
    · exact h.poke

theorem State.Divided.overwrite {l : Loc} {before n after : Nat} {u : State} (h : s.Divided w)
    (e : s.overwrite l before n after = .ok u) : u.Divided w := by
  unfold State.overwrite at e
  split at e
  · cases e
    exact h
  · dsimp only at e
    split at e
    · cases e
    · cases e
      exact h.of_regs rfl

theorem State.Divided.dirty {p idx : Nat} (h : s.Divided w) : (s.dirty p idx).Divided w := h.of_regs rfl

theorem State.Divided.setEntry {p idx e : Nat} (h : s.Divided w) : (s.setEntry p idx e).Divided w :=
  State.Divided.setF (h.of_regs rfl) (by decide)

theorem State.Divided.pokeHost {p a idx : Nat} {b : List Byte} (h : s.Divided w) : (s.pokeHost p a idx b).Divided w := by
  unfold State.pokeHost
  split
  · exact h.poke
  · exact h.poke

theorem State.Divided.perform {p : Nat} {l : Loc} {b : List Byte} {x : Writer} (h : s.Divided w) : (s.perform p l b x).Divided w := by
  unfold State.perform
  split
  · exact h.poke
  · exact h.pokePhys.dirty
  · exact h.pokeHost.dirty.ite (h.satF (by decide)).event
  · exact h.request

theorem State.Divided.put {p : Nat} {core : Option Nat} {l : Loc} {b : List Byte} {x : Writer} {before after : Nat}
    (h : s.Divided w) : (s.put p core l b x before after).1.Divided w := by
  unfold State.put
  extract_lets now
  have hnow : now.1.Divided w := by
    unfold now
    split
    · exact h
    next e => exact (h.overwrite e).perform
  split
  · exact .ite_fst (h.of_regs rfl) hnow
  · exact hnow

/-! ### Managed arenas -/

theorem State.Divided.modCamb {p : Nat} {g : Camb → Camb} (h : s.Divided w) : (s.modCamb p g).Divided w := h.of_regs rfl

theorem State.Divided.modArena {p a : Nat} {g : Arena → Arena} (h : s.Divided w) : (s.modArena p a g).Divided w := h.modCamb

theorem State.Divided.layerBad {p : Nat} {f : Option (AccFault × Nat)} (h : s.Divided w) : (s.layerBad p f).Divided w := by
  unfold State.layerBad
  extract_lets s1
  have hs1 : s1.Divided w := h.modCamb
  split
  · exact hs1.faultRecord
  · exact hs1

theorem State.Divided.modLayer {p l : Nat} {g : List Byte → List Byte} (h : s.Divided w) : (s.modLayer p l g).Divided w := by
  unfold State.modLayer
  refine h.ite (.ite (h.incF (by decide)) (h.ite ?_))
  split
  · exact h.put
  · exact h.layerBad

theorem State.Divided.placeStack {p : Nat} {a : Arena} {x frame layer : Nat} (h : s.Divided w) :
    (s.placeStack p a x frame layer).Divided w :=
  h.modArena.setEntry

theorem State.Divided.releaseFrom {p : Nat} {a : Arena} (h : s.Divided w) : (s.releaseFrom p a).1.Divided w := by
  unfold State.releaseFrom
  split
  · exact h
  · exact h.faultRecord

theorem State.Divided.place {p : Nat} {a : Arena} {x : Nat} {who : Writer} (h : s.Divided w) : (s.place p a x who).1.Divided w := by
  unfold State.place
  extract_lets _ _ r
  have hr : r.1.Divided w := h.releaseFrom
  split
  · exact h.placeStack
  · split
    · exact hr.modArena.setEntry.placeStack
    · split
      · exact hr
      · split
        · exact (hr.modArena.setEntry.incF (by decide)).modLayer.placeStack
        · split
          · exact hr
          · extract_lets _ s1 _ s2
            have hs1 : s1.Divided w := hr.modArena
            clear_value s1
            have hs2 : s2.Divided w := hs1.of_regs rfl
            exact hs2.modCamb

theorem State.Divided.arenaWrite {p addr : Nat} {who : Writer} (h : s.Divided w) : (s.arenaWrite p addr who).Divided w := by
  have hplace : ∀ a x, (match s.place p a x who with
      | (t, true) => t.touchArena p a x who
      | (t, false) => (t.incF (t.leadPage p) F.CAMBL_FULLS).event (t.leadPage p) Ev.CAMB_ARENA_FULL).Divided w := by
    intro a x
    split
    next e => exact (h.place.of_fst e).modArena
    next e => exact ((h.place.of_fst e).incF (by decide)).event
  unfold State.arenaWrite
  extract_lets
  refine h.ite ?_
  split
  · exact h
  · extract_lets
    split
    · exact hplace _ _
    · exact hplace _ _
    · exact h.modArena

/-! ### Stores -/

theorem State.Divided.store {p : Nat} {core : Option Nat} {addr : Nat} {b : List Byte} {who : Writer} (h : s.Divided w) :
    (s.store p core addr b who).1.Divided w := by
  unfold State.store
  refine h.foldl_fst fun t x h => ?_
  split
  · exact h
  · extract_lets s1
    have hs1 : s1.Divided w := h.arenaWrite
    split
    · exact hs1
    · split
      next e => exact hs1.put.of_fst e
      next e => exact hs1.put.of_fst e

theorem State.Divided.storeBits {p : Nat} {core : Option Nat} {addr : Nat} {b : List Byte} {m0 m1 : Nat} {who : Writer}
    (h : s.Divided w) : (s.storeBits p core addr b m0 m1 who).1.Divided w := by
  unfold State.storeBits
  extract_lets
  refine h.foldl_fst fun t x h => ?_
  split
  · exact h
  · extract_lets s1
    have hs1 : s1.Divided w := h.arenaWrite
    split
    · exact hs1
    · extract_lets
      split
      · exact hs1
      · split
        next e => exact hs1.put.of_fst e
        next e => exact hs1.put.of_fst e

theorem State.Divided.writeRow {a : Acc} {d : TDesc} {a0 i1 i2 i3 : Nat} {codes : List Nat} (h : s.Divided w) :
    (s.writeRow a d a0 i1 i2 i3 codes).1.Divided w := by
  unfold State.writeRow
  extract_lets
  refine h.foldl_fst fun t x h => ?_
  split
  · exact h
  · exact h.storeBits

theorem State.Divided.writeShard {a : Acc} {d : TDesc} {i0 : Nat} {codes : List Nat} {scale : Option Nat} (h : s.Divided w) :
    (s.writeShard a d i0 codes scale).1.Divided w := by
  unfold State.writeShard
  split
  next e => exact h.writeRow.of_fst e
  next e =>
    have ht := h.writeRow.of_fst e
    split
    · exact ht.store
    · exact ht

/-! ### A replay's blocks (R493) -/

theorem State.Divided.countWeights {unit : Nat} {nw : NewWeights} (h : s.Divided w) : (s.countWeights unit nw).Divided w := by
  unfold State.countWeights
  extract_lets pg s1 s2
  have hs1 : s1.Divided w := .ite (h.incF (by decide)) h
  have hs2 : s2.Divided w := .ite (hs1.incF (by decide)) hs1
  exact .ite (hs2.satF (by decide)).event hs2

theorem State.Divided.replayBlock {p : Nat} {hd : List Byte} {dw : TDesc} {dc : Option TDesc} {bitsAt b : Nat} (h : s.Divided w) :
    (s.replayBlock p hd dw dc bitsAt b).1.Divided w := by
  unfold State.replayBlock
  extract_lets _ _ _ _ _ _ _ _ _ cw s1 r1
  have hs1 : s1.Divided w := .countWeights (h.of_regs rfl)
  have hr1 : r1.1.Divided w := hs1.writeShard
  split
  · exact h
  · clear_value cw
    split
    · exact hr1.writeShard
    · exact hr1

end Sys2Proof.Machine
end

