-- ==== Sys2Proof/Proofs/SnapshotsReplaysFills.lean ====
section
/-! SUPPORT. Touch copies, the items of a replay, and the steps of a fill, each on conditions on the state alone (R483 to R499). -/

namespace Sys2Proof.Machine

variable {s : State} {p : Nat}

/-! ### Touch copies and the end of a snapshot (R483, R485) -/

/-- A touch that is counted leaves the frames for staging. -/
theorem State.incTouches_frames (s : State) (p : Nat) :
    (s.incF (Pg.part p) F.MEMP_TOUCHES).f (Pg.part p) F.MEMP_FIRST = s.f (Pg.part p) F.MEMP_FIRST ∧
    (s.incF (Pg.part p) F.MEMP_TOUCHES).f (Pg.part p) F.MEMP_COUNT = s.f (Pg.part p) F.MEMP_COUNT ∧
    (s.incF (Pg.part p) F.MEMP_TOUCHES).stackShare p = s.stackShare p :=
  ⟨State.f_setF_ne _ _ _ _ _ _ (by simp [F.MEMP_TOUCHES, F.MEMP_FIRST]),
    State.f_setF_ne _ _ _ _ _ _ (by simp [F.MEMP_TOUCHES, F.MEMP_COUNT]),
    s.divided_self.stackShare (s.divided_self.incF (by decide)) p⟩

@[simp] theorem State.pokePhys_snaps (s : State) (a : Nat) (b : List Byte) : (s.pokePhys a b).snaps = s.snaps := by
  unfold State.pokePhys
  split
  · exact State.poke_snaps ..
  · refine State.foldl_keeps State.snaps (fun t x => ?_) _ _
    extract_lets
    split
    · exact State.poke_snaps ..
    · exact State.poke_snaps ..

@[simp] theorem State.copyFrame_snaps (s : State) (src dst : Nat) : (s.copyFrame src dst).snaps = s.snaps := by
  simp only [State.copyFrame, State.pokePhys_snaps]

/-- A page that a write waits for is copied to the first of the free staging frames. -/
theorem State.touchCopy_of_frame {x : Snap} {e : SnapItem} {i k f : Nat} (hx : AMap.get? p s.snaps = some x)
    (ht : s.touched p x = some (i, k)) (he : x.items[i]? = some e)
    (hf : ((rangeFrom (s.f (Pg.part p) F.MEMP_FIRST) (s.f (Pg.part p) F.MEMP_COUNT)).filter fun f =>
      f < shareFrames (s.stackShare p) && !(x.staged.any fun y => y.2.2 == f)).head? = some f)
    (hd : (s.incF (Pg.part p) F.MEMP_TOUCHES).frameDamage p ((s.incF (Pg.part p) F.MEMP_TOUCHES).coppUnit p) (e.src / page2M + k)
      (bits ((s.incF (Pg.part p) F.MEMP_TOUCHES).entry p (e.src / page2M + k)) 21 43 * page2M) = none) :
    s.touchCopy p =
      ({ (s.incF (Pg.part p) F.MEMP_TOUCHES).copyFrame
          (bits ((s.incF (Pg.part p) F.MEMP_TOUCHES).entry p (e.src / page2M + k)) 21 43 * page2M)
          ((s.incF (Pg.part p) F.MEMP_TOUCHES).stageAddr p f) with
        snaps := AMap.put p { x.took i k with staged := (x.took i k).staged ++ [(i, k, f)] } s.snaps } : State).unprotect p
          (e.src / page2M + k) := by
  obtain ⟨rest, hcons⟩ := List.head?_eq_some_iff.1 hf
  obtain ⟨hfirst, hcount, hshare⟩ := s.incTouches_frames p
  have hsnaps : (s.incF (Pg.part p) F.MEMP_TOUCHES).snaps = s.snaps := rfl
  simp only [State.touchCopy, hx, ht, hfirst, hcount, hshare, hcons, he, hd, State.copyFrame_snaps, hsnaps]

theorem State.snapEnds_of_get? {x : Snap} (hx : AMap.get? p s.snaps = some x) :
    s.snapEnds p = if s.snapDone p x = true then s.snapComplete p x else s := by
  simp only [State.snapEnds, hx]

/-! ### The items of a replay (R492, R493) -/

/-- The reads of a replay's items. -/
def State.replayAcc (s : State) (p : Nat) : Acc := { part := p, core := none, who := .unit (0x300 + s.lead p) }

/-- A replay goes on to its next item, counted on a lead page. -/
def State.itemDone (s : State) (p lead : Nat) (x : Replay) : State :=
  ({ s with replays := AMap.put p { x with next := x.next + 1 } s.replays }).incF lead F.CAMBL_ITEMS_DONE

/-- The blocks of an item, up to the first that faults. -/
def State.replayBlocks (s : State) (p : Nat) (h : List Byte) (dw : TDesc) (bitsAt : Nat) : State × Option (AccFault × Nat) :=
  (List.range (fieldAt h 0x18 4 / 64)).foldl (fun (r : State × Option (AccFault × Nat)) b =>
    match r.2 with
    | some _ => r
    | none => r.1.replayBlock p h dw none bitsAt b) (s, none)

theorem State.Divided.replayBlocks {h : List Byte} {dw : TDesc} {bitsAt w : Nat} (hs : s.Divided w) :
    (s.replayBlocks p h dw bitsAt).1.Divided w := by
  refine hs.foldl_fst fun r b hr => ?_
  split
  · exact hr
  · exact hr.replayBlock

/-- A replay is over when it has stopped or has run its items. -/
theorem Replay.over_iff (x : Replay) :
    (x.stopped.isSome || decide (x.count ≤ x.next)) = true ↔ x.stopped ≠ none ∨ x.count ≤ x.next := by
  simp [Option.isSome_iff_ne_none]

theorem Replay.not_over {x : Replay} (hrun : x.stopped = none) (hnext : x.next < x.count) :
    (x.stopped.isSome || decide (x.count ≤ x.next)) = false := by
  simp [hrun, hnext]

section
variable {x : Replay} (hx : AMap.get? p s.replays = some x)
include hx

theorem State.replayItem_of_over (h : x.stopped ≠ none ∨ x.count ≤ x.next) : s.replayItem p = s := by
  simp only [State.replayItem, hx, x.over_iff.2 h, if_true]

theorem State.replayEnds_of_over (h : x.stopped ≠ none ∨ x.count ≤ x.next) : s.replayEnds p =
    if (s.part p).overlay = .service then (s.replayEnd p x).passBoundary p else s.replayEnd p x := by
  simp only [State.replayEnds, hx, x.over_iff.2 h, if_true, State.replayOver, beq_iff_eq]

variable (hrun : x.stopped = none) (hnext : x.next < x.count)
include hrun hnext

theorem State.replayEnds_of_running : s.replayEnds p = s := by
  simp only [State.replayEnds, hx, Replay.not_over hrun hnext, Bool.false_eq_true, if_false]

/-- Outside SERVICE, or with an update armed, a replay stops (R492). -/
theorem State.replayItem_of_unserved (h : (s.part p).overlay ≠ .service ∨ (s.camb p).upd ≠ none) :
    s.replayItem p = s.replayStop p 0x09 := by
  have : ((s.part p).overlay != .service || (s.camb p).upd.isSome) = true := by
    simpa [Option.isSome_iff_ne_none] using h
  simp only [State.replayItem, hx, Replay.not_over hrun hnext, this, Bool.false_eq_true, if_false, if_true]

variable {it h : List Byte} (hover : (s.part p).overlay = .service) (hupd : (s.camb p).upd = none)
  (hit : s.readBlock (s.replayAcc p) (x.list + 32 + 32 * x.next) 32 1 = .ok it)
  (hh : s.readBlock (s.replayAcc p) (fieldAt it 0 8) 64 64 = .ok h)
include hover hupd hit hh

/-- A record of another step or entry than the item's stops the replay. -/
theorem State.replayItem_of_other (hne : ¬ (fieldAt h 0 4 = fieldAt it 0x18 4 ∧ fieldAt h 6 2 = fieldAt it 0x1C 2)) :
    s.replayItem p = s.replayStop p 0x08 := by
  have hother : (fieldAt h 0 4 != fieldAt it 0x18 4 || fieldAt h 6 2 != fieldAt it 0x1C 2) = true := by
    simpa [Decidable.imp_iff_not_or] using hne
  unfold State.replayAcc at hit hh
  simp [State.replayItem, hx, Replay.not_over hrun hnext, hover, hupd, hit, hh, hother, bind, Except.bind, pure, Except.pure]

variable (hstep : fieldAt h 0 4 = fieldAt it 0x18 4) (hentry : fieldAt h 6 2 = fieldAt it 0x1C 2)
include hstep hentry

/-- The record of a step that was discarded is passed over. -/
theorem State.replayItem_of_discarded (hpair : bit (fieldAt h 4 4) 8 = true) (hout : fieldAt h 4 1 ≠ 0) :
    s.replayItem p = s.itemDone p (s.leadPage p) x := by
  unfold State.replayAcc at hit hh
  simp only [State.replayItem, hx, Replay.not_over hrun hnext, Bool.false_eq_true, if_false, hover, bne_self_eq_false, hupd,
    Option.isSome_none, Bool.or_self, bind, Except.bind, hit, hh, pure, Except.pure, hstep, hentry, hpair, Bool.true_and, bne_iff_ne,
    ne_eq, hout, not_false_eq_true, if_true]
  rfl

variable {dw : TDesc} (hdw : s.readDesc (s.replayAcc p) (fieldAt it 8 8) = .ok dw) (hcopy : fieldAt it 0x10 8 = 0)
  (hform : weightForm dw = true) (hshard : dw.shard (fieldAt h 0x18 4) = true)
  (hfmt : dw.fmt = 0x08 ↔ bit (fieldAt h 4 4) 9 = true) (hin : s.shardInFrames p dw = true) (hpair : bit (fieldAt h 4 4) 8 = false)
include hdw hcopy hform hshard hfmt hin hpair

/-- An item without a copy, whose weights fit, is reapplied block by block; a block that faults stops the replay. -/
theorem State.replayItem_of_fits : s.replayItem p = (s.replayBlocks p h dw (fieldAt it 0 8 + 64)).2.elim
    ((s.replayBlocks p h dw (fieldAt it 0 8 + 64)).1.itemDone p ((s.replayBlocks p h dw (fieldAt it 0 8 + 64)).1.leadPage p) x)
    fun f => ((s.replayBlocks p h dw (fieldAt it 0 8 + 64)).1.faultRecord p (0x300 + s.lead p) f.2 f.1).replayStop p 0x02 := by
  have hform32 : ((dw.fmt == 0x08) == bit (fieldAt h 4 4) 9) = true := by
    rw [beq_iff_eq, Bool.eq_iff_iff, beq_iff_eq, hfmt]
  unfold State.replayAcc at hit hh hdw
  simp only [State.replayItem, hx, Replay.not_over hrun hnext, Bool.false_eq_true, if_false, hover, bne_self_eq_false, hupd,
    Option.isSome_none, Bool.or_self, bind, Except.bind, hit, hh, pure, Except.pure, hstep, hentry, hpair, Bool.false_and, hdw, hcopy,
    BEq.rfl, if_true, hform, hshard, Bool.and_self, hform32, hin, Bool.not_true]
  generalize hr : List.foldl _ (s, none) _ = r
  have hblocks : s.replayBlocks p h dw (fieldAt it 0 8 + 64) = r := hr
  rw [hblocks]
  obtain ⟨u, _ | f⟩ := r <;> rfl

/-- A replay's blocks leave the division, and with it the lead page that counts the item. -/
theorem State.replayItem_of_applied {u : State} (hu : s.replayBlocks p h dw (fieldAt it 0 8 + 64) = (u, none)) :
    s.replayItem p = u.itemDone p (s.leadPage p) x := by
  have hlead : u.leadPage p = s.leadPage p := s.divided_self.leadPage (s.divided_self.replayBlocks.of_fst hu) p
  rw [State.replayItem_of_fits hx hrun hnext hover hupd hit hh hstep hentry hdw hcopy hform hshard hfmt hin hpair, hu, ← hlead]
  rfl

end

/-! ### The steps of a fill (R497, R499) -/

/-- The state of a fill reads as it was set. -/
theorem State.fillState_setFillState (s : State) (p : Nat) {n : Nat} (hn : n < 8) : (s.setFillState p n).fillState p = n :=
  (State.f_setF_self s (Pg.part p) F.MEMP_STATE n (by decide)).trans (Nat.mod_eq_of_lt hn)

section
variable {x : Fill} (hx : AMap.get? p s.fills = some x)
include hx

theorem State.fillChecked_of_check (hst : s.fillState p = 1) (hlost : x.lost = none) (hall : x.complete = true) :
    s.fillChecked p = if x.passes then s.setFillState p 2 else s.fillHalt p 0x06 := by
  simp [State.fillChecked, hx, hst, hlost, hall]

theorem State.fillChecked_of_not_check (h : s.fillState p ≠ 1 ∨ x.lost ≠ none ∨ x.complete = false) : s.fillChecked p = s := by
  have : (s.fillState p != 1 || x.lost.isSome || !x.complete) = true := by
    simpa [Option.isSome_iff_ne_none, or_assoc] using h
  simp only [State.fillChecked, hx, this, if_true]

theorem State.fillCopyEnds_of_copied (hst : s.fillState p = 2) (hlost : x.lost = none) (hall : s.fillCopied p x = true) :
    s.fillCopyEnds p = if fieldAt x.desc 0x10 8 = 0 then (s.showFillPages p).setFillState p 4
      else ((s.showFillPages p).setFillState p 3).replayBegin p (fieldAt x.desc 0x10 8 / 32 * 32) true := by
  simp [State.fillCopyEnds, hx, hst, hlost, hall]

theorem State.fillCopyEnds_of_not_copied (h : s.fillState p ≠ 2 ∨ x.lost ≠ none ∨ s.fillCopied p x = false) :
    s.fillCopyEnds p = s := by
  have : (s.fillState p != 2 || x.lost.isSome || !s.fillCopied p x) = true := by
    simpa [Option.isSome_iff_ne_none, or_assoc] using h
  simp only [State.fillCopyEnds, hx, this, if_true]

theorem State.fillInstalls_of_get? : s.fillInstalls p = if s.fillState p = 4 then s.install p x else s := by
  simp only [State.fillInstalls, hx, beq_iff_eq]

end

/-! ### The settled statement -/

/-- Settles O50: each command is the operation of its step, and a replay's blocks leave the division by which its lead page is counted
on. -/
theorem snapshotsReplaysFills : Obligations.SnapshotsReplaysFills := by
  intro s p
  refine ⟨fun x e i k f hx ht he hf hd => ?_, fun x hx => ⟨fun h => ?_, fun h => ?_⟩,
    fun x it h dw u hx hrun hnext hover hupd hit hh hdw hcopy => ⟨fun hne => ?_, fun hstep hentry hform hshard hfmt hin =>
      ⟨fun hpair hout => ?_, fun hpair hu => ?_⟩⟩,
    fun x hx hrun hnext h => ?_, fun x hx h => ?_, fun x hx h => ?_, fun x hx hrun hnext => ?_,
    fun x hx => ⟨fun hst hlost hall => ?_, fun hst hlost hall => ?_, fun h => ?_, fun h => ?_, fun h => ?_, fun h => ?_⟩,
    s.fillState_setFillState p (by decide), s.fillState_setFillState p (by decide)⟩
  · exact congrArg Host.Outcome.next (State.touchCopy_of_frame hx ht he hf hd)
  · exact congrArg Host.Outcome.next ((State.snapEnds_of_get? hx).trans (if_pos h))
  · exact congrArg Host.Outcome.next ((State.snapEnds_of_get? hx).trans (if_neg (by simp [h])))
  · exact congrArg Host.Outcome.next (State.replayItem_of_other hx hrun hnext hover hupd hit hh hne)
  · exact congrArg Host.Outcome.next (State.replayItem_of_discarded hx hrun hnext hover hupd hit hh hstep hentry hpair hout)
  · exact congrArg Host.Outcome.next (State.replayItem_of_applied hx hrun hnext hover hupd hit hh hstep hentry hdw hcopy hform hshard
      hfmt hin hpair hu)
  · exact congrArg Host.Outcome.next (State.replayItem_of_unserved hx hrun hnext h)
  · exact congrArg Host.Outcome.next (State.replayItem_of_over hx h)
  · exact congrArg Host.Outcome.next (State.replayEnds_of_over hx h)
  · exact congrArg Host.Outcome.next (State.replayEnds_of_running hx hrun hnext)
  · exact congrArg Host.Outcome.next (State.fillChecked_of_check hx hst hlost hall)
  · exact congrArg Host.Outcome.next (State.fillCopyEnds_of_copied hx hst hlost hall)
  · exact congrArg Host.Outcome.next (State.fillChecked_of_not_check hx h)
  · exact congrArg Host.Outcome.next (State.fillCopyEnds_of_not_copied hx h)
  · exact congrArg Host.Outcome.next ((State.fillInstalls_of_get? hx).trans (if_pos h))
  · exact congrArg Host.Outcome.next ((State.fillInstalls_of_get? hx).trans (if_neg h))

end Sys2Proof.Machine
end

