-- ==== Sys2Proof/Proofs/ThreadWords.lean ====
section
/-! SUPPORT. The words of instructions and their fields: an instruction's word decodes to it, and a legal word is the word of the
instruction that it decodes to (R154 to R156, R159). -/

namespace Sys2Proof.Machine

variable {op f : Nat} {c : Fin 256} {t : Fin 64} {d a b : BitVec 5} {imm : BitVec 16} {offs : BitVec 26} {w : Nat}

/-! ### Fields of words of the three forms (R154) -/

theorem encR_lt (hop : op < 64) (hf : f < 2 ^ 11) : encR op d.toNat a.toNat b.toNat f < 2 ^ 32 := by
  have := d.isLt; have := a.isLt; have := b.isLt
  unfold encR; omega

theorem encI_lt (hop : op < 64) : encI op d.toNat a.toNat imm.toNat < 2 ^ 32 := by
  have := d.isLt; have := a.isLt; have := imm.isLt
  unfold encI; omega

theorem encJ_lt (hop : op < 64) : encJ op offs.toNat < 2 ^ 32 := by
  have := offs.isLt
  unfold encJ; omega

/-- The fields of a word of form R are its operands. -/
theorem fields_encR (hop : op < 64) (hf : f < 2 ^ 11) : let w := encR op d.toNat a.toNat b.toNat f
    bits w 26 6 = op ∧ bits w 21 5 = d.toNat ∧ bits w 16 5 = a.toNat ∧ bits w 11 5 = b.toNat ∧ bits w 0 11 = f := by
  have := d.isLt; have := a.isLt; have := b.isLt
  simp only [encR, bits]
  omega

/-- The fields of a word of form I are its operands. -/
theorem fields_encI (hop : op < 64) : let w := encI op d.toNat a.toNat imm.toNat
    bits w 26 6 = op ∧ bits w 21 5 = d.toNat ∧ bits w 16 5 = a.toNat ∧ bits w 0 16 = imm.toNat := by
  have := d.isLt; have := a.isLt; have := imm.isLt
  simp only [encI, bits]
  omega

/-- The fields of a word of form J are its operands. -/
theorem fields_encJ (hop : op < 64) : let w := encJ op offs.toNat
    bits w 26 6 = op ∧ bits w 0 26 = offs.toNat := by
  have := offs.isLt
  simp only [encJ, bits]
  omega

/-- The subfields of F of a vector operation (R159). -/
theorem fields_vopF {o ty fm : Nat} (ho : o < 64) (hty : ty < 4) (hfm : fm < 8) : let f := o + ty * 64 + fm * 256
    f < 2 ^ 11 ∧ bits f 0 6 = o ∧ bits f 6 2 = ty ∧ bits f 8 3 = fm := by
  simp only [bits]
  omega

/-- A word is the word of form R of its fields. -/
theorem encR_bits (hw : w < 2 ^ 32) : encR (bits w 26 6) (bits w 21 5) (bits w 16 5) (bits w 11 5) (bits w 0 11) = w := by
  simp only [encR, bits]
  omega

/-- A word is the word of form I of its fields. -/
theorem encI_bits (hw : w < 2 ^ 32) : encI (bits w 26 6) (bits w 21 5) (bits w 16 5) (bits w 0 16) = w := by
  simp only [encI, bits]
  omega

/-- A word is the word of form J of its fields. -/
theorem encJ_bits (hw : w < 2 ^ 32) : encJ (bits w 26 6) (bits w 0 26) = w := by
  simp only [encJ, bits]
  omega

/-- F of a vector operation is made of its subfields. -/
theorem vopF_bits (hf : f < 2 ^ 11) : bits f 0 6 + bits f 6 2 * 64 + bits f 8 3 * 256 = f := by
  simp only [bits]
  omega

/-- A field as an operand. -/
theorem toNat_bits (w lo n : Nat) : (BitVec.ofNat n (bits w lo n)).toNat = bits w lo n := by
  rw [BitVec.toNat_ofNat, Nat.mod_eq_of_lt (bits_lt w lo n)]

/-! ### What the words of each operation code decode to -/

/-- A legal word of form R, by its operation code: the decoder reads the operands that it is made of. -/
theorem threadInstr_encR (hop : op < 64) (hf : f < 2 ^ 11) (hl : legalWord (encR op d.toNat a.toNat b.toNat f) = true) :
    threadInstr c t (encR op d.toNat a.toNat b.toNat f) =
      if op = 0x00 then aluInstr c t d a b f
      else if op = 0x09 then some (.movs c t d a b)
      else if op = 0x0A then some (.sets c t d a b)
      else if op = 0x1C then some (.jmp c t (BitVec.ofNat 26 (bits (encR op d.toNat a.toNat b.toNat f) 0 26)))
      else if op = 0x20 then syncInstr c t d a b f
      else if op = 0x21 then some (.post c t d a b)
      else if op = 0x22 then some (.start c t d a b (Fin.ofNat 4 f))
      else if op = 0x23 then some (.fence c t d a b)
      else if op = 0x28 then vopInstr c t (BitVec.ofNat 2 (bits f 6 2)) (BitVec.ofNat 3 (bits f 8 3)) d a b (bits f 0 6)
      else if op = 0x29 then sfuInstr c t d a b f
      else if op = 0x3F then some (.progEnd c t d a b (BitVec.ofNat 8 f))
      else immInstr c t d a (BitVec.ofNat 16 (bits (encR op d.toNat a.toNat b.toNat f) 0 16)) op := by
  obtain ⟨h1, h2, h3, h4, h5⟩ := fields_encR (d := d) (a := a) (b := b) hop hf
  have hlt := encR_lt (d := d) (a := a) (b := b) hop hf
  unfold threadInstr
  simp only [h1, h2, h3, h4, h5, hl, Nat.not_le.2 hlt, BitVec.ofNat_toNat, BitVec.setWidth_eq, beq_iff_eq, decide_false, Bool.not_true,
    Bool.or_self, Bool.false_eq_true, if_false]

/-- The operation codes of form I (R155). -/
def immOps : List Nat :=
  [0x01, 0x02, 0x03, 0x04, 0x05, 0x06, 0x07, 0x08, 0x10, 0x11, 0x12, 0x13, 0x14, 0x15, 0x18, 0x19, 0x1A, 0x1B, 0x1D]

theorem threadInstr_encI (hop : op ∈ immOps) (hl : legalWord (encI op d.toNat a.toNat imm.toNat) = true) :
    threadInstr c t (encI op d.toNat a.toNat imm.toNat) = immInstr c t d a imm op := by
  have hlt64 : op < 64 := by simp only [immOps, List.mem_cons, List.not_mem_nil, or_false] at hop; omega
  have hother : op ≠ 0x00 ∧ op ≠ 0x09 ∧ op ≠ 0x0A ∧ op ≠ 0x1C ∧ op ≠ 0x20 ∧ op ≠ 0x21 ∧ op ≠ 0x22 ∧ op ≠ 0x23 ∧ op ≠ 0x28 ∧
      op ≠ 0x29 ∧ op ≠ 0x3F := by
    simp only [immOps, List.mem_cons, List.not_mem_nil, or_false] at hop; omega
  obtain ⟨h1, h2, h3, h4⟩ := fields_encI (d := d) (a := a) (imm := imm) hlt64
  have hlt := encI_lt (d := d) (a := a) (imm := imm) hlt64
  unfold threadInstr
  simp only [h1, h2, h3, h4, hl, Nat.not_le.2 hlt, BitVec.ofNat_toNat, BitVec.setWidth_eq, beq_iff_eq, decide_false, Bool.not_true,
    Bool.or_self, Bool.false_eq_true, if_false, hother]

theorem threadInstr_encJ (hl : legalWord (encJ 0x1C offs.toNat) = true) :
    threadInstr c t (encJ 0x1C offs.toNat) = some (.jmp c t offs) := by
  obtain ⟨h1, h2⟩ := fields_encJ (op := 0x1C) (offs := offs) (by decide)
  have hlt := encJ_lt (op := 0x1C) (offs := offs) (by decide)
  unfold threadInstr
  simp only [h1, h2, hl, Nat.not_le.2 hlt, BitVec.ofNat_toNat, BitVec.setWidth_eq, decide_false, Bool.not_true, Bool.or_self,
    Bool.false_eq_true, if_false]
  rfl

theorem threadInstr_encV {o : Nat} {ty : BitVec 2} {fm : BitVec 3} (ho : o < 64)
    (hl : legalWord (encV o ty.toNat fm.toNat d.toNat a.toNat b.toNat) = true) :
    threadInstr c t (encV o ty.toNat fm.toNat d.toNat a.toNat b.toNat) = vopInstr c t ty fm d a b o := by
  obtain ⟨hf, h1, h2, h3⟩ := fields_vopF ho ty.isLt fm.isLt
  have h := threadInstr_encR (c := c) (t := t) (by decide) hf hl
  simpa [encV, h1, h2, h3] using h

theorem threadInstr_encEnd {status : BitVec 8} (hl : legalWord (encR 0x3F d.toNat a.toNat b.toNat status.toNat) = true) :
    threadInstr c t (encR 0x3F d.toNat a.toNat b.toNat status.toNat) = some (.progEnd c t d a b status) := by
  have hf : status.toNat < 2 ^ 11 := status.isLt.trans (by decide)
  simpa using threadInstr_encR (c := c) (t := t) (by decide) hf hl

theorem threadInstr_encStart {slot : Fin 4} (hl : legalWord (encR 0x22 d.toNat a.toNat b.toNat slot.val) = true) :
    threadInstr c t (encR 0x22 d.toNat a.toNat b.toNat slot.val) = some (.start c t d a b slot) := by
  have hf : slot.val < 2 ^ 11 := slot.isLt.trans (by decide)
  simpa using threadInstr_encR (c := c) (t := t) (by decide) hf hl

/-- The word of an instruction, where it is legal, decodes to it. -/
theorem threadInstr_of_threadWord {i : Instr} (h : threadWord i = some (c, t, w)) (hl : legalWord w = true) :
    threadInstr c t w = some i := by
  cases i <;> cases h
  case jmp => exact threadInstr_encJ hl
  case start => exact threadInstr_encStart hl
  case progEnd => exact threadInstr_encEnd hl
  case addi | andi | ori | xori | shli | shrli | shrai | ins16 | ld | lw | st | sw | vld | vst | beq | bne | blt | bge | jalr =>
    exact threadInstr_encI (by decide) hl
  case vcvt | vcvtw => exact threadInstr_encV (by decide) hl
  case vadd | vsub | vmul | vfma | vmin | vmax | vabs | vneg | vdiv | vsqrt | vcmplt | vcmple | vcmpeq | vsel | vand | vor | vxor | vbcast
      | vredsum | vredmax =>
    exact threadInstr_encV (fm := 0) (by decide) hl
  all_goals exact threadInstr_encR (by decide) (by decide) hl

/-! ### What each part of the decoder gives has the word that it is given -/

theorem aluInstr_word (hf : f ≤ 12) : (aluInstr c t d a b f).bind threadWord = some (c, t, encR 0x00 d.toNat a.toNat b.toNat f) := by
  interval_cases f <;> rfl

theorem immInstr_word (hop : op ∈ immOps) :
    (immInstr c t d a imm op).bind threadWord = some (c, t, encI op d.toNat a.toNat imm.toNat) := by
  simp only [immOps, List.mem_cons, List.not_mem_nil, or_false] at hop
  rcases hop with rfl | rfl | rfl | rfl | rfl | rfl | rfl | rfl | rfl | rfl | rfl | rfl | rfl | rfl | rfl | rfl | rfl | rfl | rfl <;> rfl

theorem syncInstr_word (hf : f ≤ 5) : (syncInstr c t d a b f).bind threadWord = some (c, t, encR 0x20 d.toNat a.toNat b.toNat f) := by
  interval_cases f <;> rfl

theorem sfuInstr_word (hf : f ≤ 3) : (sfuInstr c t d a b f).bind threadWord = some (c, t, encR 0x29 d.toNat a.toNat b.toNat f) := by
  interval_cases f <;> rfl

/-- Only the conversions have a format. -/
theorem vopInstr_word {o : Nat} {ty : BitVec 2} {fm : BitVec 3} (ho : o ≤ 0x15) (hfm : o = 0x11 ∨ o = 0x15 ∨ fm = 0) :
    (vopInstr c t ty fm d a b o).bind threadWord = some (c, t, encV o ty.toNat fm.toNat d.toNat a.toNat b.toNat) := by
  rcases hfm with rfl | rfl | rfl
  · rfl
  · rfl
  · interval_cases o <;> rfl

/-! ### Every legal word -/

/-- The operation code of a legal word, with what R156 asks of its other fields there. -/
theorem op_of_legalWord (hl : legalWord w = true) : let op := bits w 26 6; let d := bits w 21 5; let a := bits w 16 5; let f := bits w 0 11
    op ∈ immOps ∧ (op = 0x08 → a ≤ 3) ∧ (op = 0x14 ∨ op = 0x15 → d < 8) ∨ op = 0x1C ∨ op = 0x00 ∧ f ≤ 12 ∨
    (op = 0x09 ∨ op = 0x0A ∨ op = 0x21 ∨ op = 0x23) ∧ f = 0 ∨ op = 0x20 ∧ f ≤ 5 ∨ op = 0x22 ∧ f ≤ 3 ∨
    op = 0x29 ∧ f ≤ 3 ∧ d < 8 ∧ a < 8 ∨ op = 0x3F ∧ (f = 0 ∨ 0x80 ≤ f ∧ f ≤ 0xFF) ∨
    op = 0x28 ∧ legalVop d a (bits w 11 5) f = true := by
  have hop := bits_lt w 26 6
  unfold legalWord at hl
  generalize bits w 26 6 = op at *
  interval_cases op <;> simp_all [immOps]

/-- The operation, type, format and registers of a legal vector operation (R156, R159). -/
theorem vop_of_legalVop {d a b f : Nat} (hl : legalVop d a b f = true) : let o := bits f 0 6; let ty := bits f 6 2; let fm := bits f 8 3
    o ≤ 0x15 ∧ ty ≠ 3 ∧ (o = 0x11 ∨ o = 0x15 ∨ fm = 0) ∧ (o = 0x11 → fm ≤ 6) ∧ (o = 0x15 → 3 ≤ fm ∧ fm ≤ 6) ∧
    (o = 0x08 ∨ o = 0x09 → ty ≠ 2) ∧ (o = 0x13 ∨ o = 0x14 ∨ d < 8) ∧ (o = 0x12 ∨ a < 8) ∧
    (o ≤ 0x05 ∨ o = 0x08 ∨ 0x0A ≤ o ∧ o ≤ 0x10 → b < 8) := by
  simp only [legalVop, Bool.and_eq_true, Bool.or_eq_true, decide_eq_true_eq, beq_iff_eq, bne_iff_ne, Bool.not_eq_true',
    Bool.or_eq_false_iff, Bool.and_eq_false_iff, beq_eq_false_iff_ne, decide_eq_false_iff_not] at hl
  omega

/-- A legal word of 32 bits is the word of an instruction of every thread. -/
theorem threadWord_of_legalWord (c : Fin 256) (t : Fin 64) (hw : w < 2 ^ 32) (hl : legalWord w = true) :
    ∃ i, threadWord i = some (c, t, w) := by
  obtain ⟨d, hd⟩ : ∃ d : BitVec 5, d.toNat = bits w 21 5 := ⟨_, toNat_bits w 21 5⟩
  obtain ⟨a, ha⟩ : ∃ a : BitVec 5, a.toNat = bits w 16 5 := ⟨_, toNat_bits w 16 5⟩
  obtain ⟨b, hb⟩ : ∃ b : BitVec 5, b.toNat = bits w 11 5 := ⟨_, toNat_bits w 11 5⟩
  have hR : encR (bits w 26 6) d.toNat a.toNat b.toNat (bits w 0 11) = w := by rw [hd, ha, hb, encR_bits hw]
  have is {v : Nat} (i : Instr) (hi : threadWord i = some (c, t, v)) (hv : v = w) : ∃ i, threadWord i = some (c, t, w) := ⟨i, hv ▸ hi⟩
  have found {o : Option Instr} {v : Nat} (ho : o.bind threadWord = some (c, t, v)) (hv : v = w) : ∃ i, threadWord i = some (c, t, w) := by
    obtain ⟨i, -, hi⟩ := Option.bind_eq_some_iff.1 ho
    exact is i hi hv
  rcases op_of_legalWord hl with ⟨hop, -⟩ | hop | ⟨hop, hf⟩ | ⟨hop, hf⟩ | ⟨hop, hf⟩ | ⟨hop, hf⟩ | ⟨hop, hf, -⟩ | ⟨hop, hf⟩ | ⟨hop, hv⟩
  · obtain ⟨imm, himm⟩ : ∃ imm : BitVec 16, imm.toNat = bits w 0 16 := ⟨_, toNat_bits w 0 16⟩
    exact found (immInstr_word (d := d) (a := a) (imm := imm) hop) (by rw [hd, ha, himm, encI_bits hw])
  · obtain ⟨offs, hoffs⟩ : ∃ offs : BitVec 26, offs.toNat = bits w 0 26 := ⟨_, toNat_bits w 0 26⟩
    exact is (.jmp c t offs) rfl (by rw [hoffs, ← hop, encJ_bits hw])
  · exact found (aluInstr_word hf) (hop ▸ hR)
  · rw [hf] at hR
    rcases hop with hop | hop | hop | hop <;> rw [hop] at hR
    · exact is (.movs c t d a b) rfl hR
    · exact is (.sets c t d a b) rfl hR
    · exact is (.post c t d a b) rfl hR
    · exact is (.fence c t d a b) rfl hR
  · exact found (syncInstr_word hf) (hop ▸ hR)
  · exact is (.start c t d a b ⟨bits w 0 11, by omega⟩) rfl (hop ▸ hR)
  · exact found (sfuInstr_word hf) (hop ▸ hR)
  · refine is (.progEnd c t d a b (BitVec.ofNat 8 (bits w 0 11))) rfl ?_
    rw [BitVec.toNat_ofNat, Nat.mod_eq_of_lt (by omega), ← hop, hR]
  · obtain ⟨ty, hty⟩ : ∃ ty : BitVec 2, ty.toNat = bits (bits w 0 11) 6 2 := ⟨_, toNat_bits _ 6 2⟩
    obtain ⟨fm, hfm⟩ : ∃ fm : BitVec 3, fm.toNat = bits (bits w 0 11) 8 3 := ⟨_, toNat_bits _ 8 3⟩
    obtain ⟨ho, -, hconv, -⟩ := vop_of_legalVop hv
    rw [← hfm] at hconv
    refine found (vopInstr_word (ty := ty) (d := d) (a := a) (b := b) ho (hconv.imp_right (.imp_right BitVec.eq_of_toNat_eq))) ?_
    rw [encV, hty, hfm, vopF_bits (bits_lt w 0 11), ← hop, hR]

/-! ### The settled statements -/

/-- Settles O7: the fields of an instruction's word are its operands, and a legal word is the word of its fields. -/
theorem threadWordsAndInstructionsAgree : Obligations.ThreadWordsAndInstructionsAgree := by
  refine ⟨fun i c t w h hl => threadInstr_of_threadWord h hl, fun c t w hw hl => ?_⟩
  obtain ⟨i, hi⟩ := threadWord_of_legalWord c t hw hl
  exact ⟨i, threadInstr_of_threadWord hi hl, hi⟩

/-- Settles O8: the words are those of the instructions, and legal. -/
theorem epilogueExampleDecodes : Obligations.EpilogueExampleDecodes := by
  unfold Obligations.EpilogueExampleDecodes
  decide

end Sys2Proof.Machine
end

