-- ==== Sys2Proof/Proofs/ThreadIssue.lean ====
section
/-! SUPPORT. When an instruction of a thread executes, waits or ends its program (R105, R106, R156, R158), and the registers of a thread
as words of 64 bits. -/

namespace Sys2Proof.Machine

variable {s : State} {c t w : Nat} {uses : List (Bool × Nat)} {g : Thread → State}

/-! ### An instruction at its turn -/

/-- An instruction that its thread is about to execute has its effect. -/
theorem State.instr_of_executes (h : s.executes c t w uses) : s.instr c t w uses g = g (s.th c t) := by
  obtain ⟨⟨hst, hrun, hword, hlegal, hpend⟩, hturn⟩ := h
  simp [State.instr, hst, hrun, hword, hlegal, hpend, hturn]

/-- An instruction that waits for its turn changes nothing. -/
theorem State.instr_of_not_turn (h : s.finds c t w uses) (hturn : ¬ s.turnOf c t w) : s.instr c t w uses g = s := by
  obtain ⟨hst, hrun, hword, hlegal, hpend⟩ := h
  simp [State.instr, hst, hrun, hword, hlegal, hpend, hturn]

/-- An illegal word ends the program at its turn, whatever it is taken for. -/
theorem State.instr_of_illegal (hst : (s.th c t).st = .ready) (hrun : s.coreRuns c = true) (hword : (s.th c t).word = some w)
    (hlegal : legalWord w = false) (hturn : s.turnOf c t w) : s.instr c t w uses g = s.endProgram c t 0x0D := by
  simp [State.instr, hst, hrun, hword, hlegal, hturn]

/-- The thread whose turn it is has an instruction that waits for nothing. -/
theorem State.not_waits_of_turn (hword : (s.th c t).word = some w) (hturn : s.turnOf c t w) : (s.th c t).waits w = false := by
  have hready := List.find?_some hturn
  simp only [Thread.readyFor, hword, Bool.and_eq_true, Bool.not_eq_true'] at hready
  exact hready.2.2

/-- An instruction that takes effect after the earlier stores of its thread executes when none is left (R158). -/
theorem State.stores_nil_of_executes (h : s.executes c t w uses) (ho : wordOrdered w = true) : (s.th c t).stores = [] := by
  obtain ⟨⟨_, _, hword, hlegal, _⟩, hturn⟩ := h
  have hwaits := State.not_waits_of_turn hword hturn
  simp only [Thread.waits, hlegal, ho, Bool.true_and, Bool.or_eq_false_iff, Bool.not_eq_false', List.isEmpty_iff] at hwaits
  exact hwaits.2

/-- While a store is left it changes nothing. -/
theorem State.instr_of_stores (h : s.finds c t w uses) (ho : wordOrdered w = true) (hs : (s.th c t).stores ≠ []) :
    s.instr c t w uses g = s :=
  State.instr_of_not_turn h fun hturn => hs (State.stores_nil_of_executes ⟨h, hturn⟩ ho)

/-- `u` is what an instruction with word w of thread t of core c makes of s, whatever registers it uses and whatever its effect. -/
def State.IsInstr (s : State) (c t w : Nat) (u : State) : Prop := ∃ uses g, u = s.instr c t w uses g

theorem State.isInstr_instr : s.IsInstr c t w (s.instr c t w uses g) := ⟨_, _, rfl⟩

theorem State.isInstr_scalar {d : Nat} {l : List Nat} {f : Thread → Nat} : s.IsInstr c t w (s.scalar c t w d l f) := ⟨_, _, rfl⟩

theorem State.isInstr_branch {d a imm : Nat} {test : Nat → Nat → Bool} : s.IsInstr c t w (s.branch c t w d a imm test) := ⟨_, _, rfl⟩

theorem State.isInstr_syncOp {d a b f : Nat} {l : List Nat} {k : Thread → Nat → State} :
    s.IsInstr c t (encR 0x20 d a b f) (s.syncOp c t d a b f l k) := ⟨_, _, rfl⟩

theorem State.isInstr_unitInstr {k : State → Thread → State} : s.IsInstr c t w (s.unitInstr c t w uses k) := ⟨_, _, rfl⟩

theorem State.isInstr_vector {d : Nat} {f : Thread → VReg × Nat} : 
    s.IsInstr c t w (s.vector c t w d uses f) := State.isInstr_unitInstr

/-- Every command that is an instruction of a thread executes as its word does. -/
theorem exec_of_threadWord {i : Instr} {c : Fin 256} {t : Fin 64} (h : threadWord i = some (c, t, w)) (s : State) :
    ∃ u, exec i s = .next u ∧ s.IsInstr c t w u := by
  cases i <;> cases h
  case aluAdd | aluSub | aluAnd | aluOr | aluXor | aluShl | aluShrl | aluShra | aluMul | aluSlt | aluSltu | aluMin | aluMax
      | addi | andi | ori | xori | shli | shrli | shrai | ins16 | movs =>
    exact ⟨_, rfl, State.isInstr_scalar⟩
  case beq | bne | blt | bge => exact ⟨_, rfl, State.isInstr_branch⟩
  case syncAdd | syncSet | syncRead | syncWait | syncClaim | syncClaimSet => exact ⟨_, rfl, State.isInstr_syncOp⟩
  case vredsum | vredmax => exact ⟨_, rfl, State.isInstr_unitInstr⟩
  case vadd | vsub | vmul | vfma | vmin | vmax | vabs | vneg | vdiv | vsqrt | vcmplt | vcmple | vcmpeq | vsel | vand | vor | vxor | vcvt
      | vbcast | vcvtw | sfuExp | sfuLog | sfuRecip | sfuRsqrt =>
    exact ⟨_, rfl, State.isInstr_vector⟩
  all_goals exact ⟨_, rfl, State.isInstr_instr⟩

/-! ### Registers (R151) -/

theorem Thread.s_lt (x : Thread) (r : Nat) : x.s r < 2 ^ 64 := by
  unfold Thread.s
  split_ifs
  · exact Nat.two_pow_pos 64
  · exact Nat.mod_lt _ (Nat.two_pow_pos 64)

@[simp] theorem Thread.toNat_x (x : Thread) (r : BitVec 5) : (x.x r).toNat = x.s r.toNat := by
  rw [Thread.x, BitVec.toNat_ofNat, Nat.mod_eq_of_lt (x.s_lt _)]

@[simp] theorem Thread.s_zero (x : Thread) : x.s 0 = 0 := rfl

@[simp] theorem Thread.setS_zero (x : Thread) (v : Nat) : x.setS 0 v = x := rfl

/-- What a register reads after a write of a register. -/
theorem Thread.s_setS (x : Thread) (r q v : Nat) : (x.setS r v).s q = if q = r ∧ r ≠ 0 then v % 2 ^ 64 else x.s q := by
  by_cases hr : r = 0
  · simp [hr]
  · by_cases hq : q = r
    · simp [Thread.s, Thread.setS, hr, hq]
    · simp [Thread.s, Thread.setS, hr, hq, AMap.getD_put]

/-- A write of a register takes the low 64 bits. -/
theorem Thread.setS_of_mod (x : Thread) (r : Nat) {v u : Nat} (h : v % 2 ^ 64 = u) : x.setS r v = x.setS r u := by
  have hu : u % 2 ^ 64 = v % 2 ^ 64 := by rw [← h, Nat.mod_mod]
  simp only [Thread.setS, hu]

/-! ### Signed values -/

/-- The sign bit of a word. -/
theorem bit_toNat_msb {n : Nat} (x : BitVec n) : bit x.toNat (n - 1) = x.msb := by
  rw [bit_eq_testBit, BitVec.msb_eq_getLsbD_last, BitVec.getLsbD]

/-- The signed value of a word. -/
theorem sx_toNat {n : Nat} (x : BitVec n) : sx n x.toNat = x.toInt := by
  rw [sx, bit_toNat_msb, BitVec.toInt_eq_msb_cond, Nat.mod_eq_of_lt x.isLt]

/-- A difference of words, taken from above. -/
theorem toNat_sub_eq {n : Nat} (x y : BitVec n) : (x.toNat + 2 ^ n - y.toNat) % 2 ^ n = (x - y).toNat := by
  rw [BitVec.toNat_sub]
  have := y.isLt
  congr 1
  omega

/-- A choice by the signed order. -/
theorem ite_sx_lt {n : Nat} (p q x y : BitVec n) :
    (if sx n p.toNat < sx n q.toNat then x.toNat else y.toNat) = (if p.slt q then x else y).toNat := by
  simp only [sx_toNat, BitVec.slt, decide_eq_true_eq, apply_ite BitVec.toNat]

/-- The low bits of an integer are the word that it is cut to. -/
theorem ux_eq (n : Nat) (i : Int) : ux n i = (BitVec.ofInt n i).toNat := (BitVec.toNat_ofInt ..).symm

/-- A natural number and a signed immediate give the sum of words. -/
theorem ux_add_signExtend {n : Nat} (p : Nat) (imm : BitVec n) :
    ux 64 (Int.ofNat p + sx n imm.toNat) = (BitVec.ofNat 64 p + imm.signExtend 64).toNat := by
  rw [ux_eq, sx_toNat, BitVec.ofInt_add]
  rfl

/-- A target counts instructions from the branching one. -/
theorem ux_target {n : Nat} (pc : Nat) (imm : BitVec n) :
    ux 64 (Int.ofNat pc + 4 * sx n imm.toNat) = (BitVec.ofNat 64 pc + 4 * imm.signExtend 64).toNat := by
  rw [ux_eq, sx_toNat, BitVec.ofInt_add, BitVec.ofInt_mul]
  rfl

/-- The address of a memory access or a jump. -/
theorem Thread.address_eq (x : Thread) (a : BitVec 5) (imm : BitVec 16) :
    x.address a.toNat imm.toNat = (x.x a + imm.signExtend 64).toNat :=
  ux_add_signExtend ..

/-- Settles O15: s0 is no register of its own. -/
theorem registerZeroIsHardwired : Obligations.RegisterZeroIsHardwired :=
  fun x r q v => ⟨x.s_zero, x.setS_zero v, x.s_setS r q v⟩

end Sys2Proof.Machine
end

