-- ==== Sys2Proof/Proofs/IllegalWords.lean ====
section
/-! SUPPORT. The words that are no legal instruction end the program (R156). -/

namespace Sys2Proof.Machine

/-! ### Fields of a word of 32 bits -/

theorem toNat_extractLsb' (w : Word) (lo n : Nat) : (w.extractLsb' lo n).toNat = bits w.toNat lo n := by
  rw [BitVec.extractLsb'_toNat, Nat.shiftRight_eq_div_pow, bits]

/-- A field of a field. -/
theorem bits_bits (x lo n l k : Nat) (h : l + k ≤ n) : bits (bits x lo n) l k = bits x (lo + l) k := by
  refine Nat.eq_of_testBit_eq fun i => ?_
  simp only [testBit_bits, Nat.add_assoc]
  by_cases hi : i < k
  · simp [hi, show l + i < n by omega]
  · simp [hi]

/-- Settles O10: an illegal word ends the program whatever it is executed as, and a word of each case of R156 is illegal. -/
theorem illegalInstructionEndsProgram : Obligations.IllegalInstructionEndsProgram := by
  refine ⟨fun c t w s hst hrun hword hlegal hturn => ⟨?_, fun i hi => ?_⟩, fun w => ?_⟩
  · refine congrArg Host.Outcome.next ?_
    rw [hlegal, if_neg Bool.false_ne_true]
    exact State.instr_of_illegal hst hrun hword hlegal hturn
  · obtain ⟨_, hu, uses, g, rfl⟩ := exec_of_threadWord hi s
    rw [hu, State.instr_of_illegal hst hrun hword hlegal hturn]
  · have ho : bits w.toNat 0 6 = bits (bits w.toNat 0 11) 0 6 := (bits_bits _ 0 11 0 6 (by decide)).symm
    have hty : bits w.toNat 6 2 = bits (bits w.toNat 0 11) 6 2 := (bits_bits _ 0 11 6 2 (by decide)).symm
    have hfm : bits w.toNat 8 3 = bits (bits w.toNat 0 11) 8 3 := (bits_bits _ 0 11 8 3 (by decide)).symm
    simp only [toNat_extractLsb', ho, hty, hfm]
    intro h
    rw [Bool.eq_false_iff]
    intro hlegal
    have hfields := op_of_legalWord hlegal
    simp only [immOps, List.mem_cons, List.not_mem_nil, or_false] at hfields h
    by_cases hop : bits w.toNat 26 6 = 0x28
    · have hv : legalVop (bits w.toNat 21 5) (bits w.toNat 16 5) (bits w.toNat 11 5) (bits w.toNat 0 11) = true := by
        simpa [hop] using hfields
      have hvop := vop_of_legalVop hv
      omega
    · omega

end Sys2Proof.Machine
end

