-- ==== Sys2Proof/Proofs/SendsOnly.lean ====
section
/-! SUPPORT. What sending on the canopy and recording an error can change, and what the fetch of a line changes of the threads (R76, R92,
R411, R416, R427, R570). -/

namespace Sys2Proof.Machine

variable {s u : State}

/-- u differs from s in what a signal, a packet that is sent or a record of an error can change: what a signal can, the canopy, what fills
have lost, and the partitions that a failed access stops. -/
def State.onlySends (s u : State) : Prop :=
  ∃ r o f k i l y x h, u = { s with regs := r, out := o, fns := f, kvs := k, integ := i, lastSet := l, canopy := y, fills := x, hostStops := h }

namespace State.onlySends

theorem refl (s : State) : s.onlySends s := ⟨_, _, _, _, _, _, _, _, _, rfl⟩

theorem threads (h : s.onlySends u) : u.threads = s.threads := by
  obtain ⟨_, _, _, _, _, _, _, _, _, rfl⟩ := h
  rfl

theorem ite {v : State} {c : Prop} [Decidable c] (h : s.onlySends u) (g : s.onlySends v) : s.onlySends (if c then u else v) := by
  split <;> assumption

/-! ### Registers, signals and records -/

theorem setReg {a v : Nat} (h : s.onlySends u) : s.onlySends (u.setReg a v) := by
  obtain ⟨_, _, _, _, _, _, _, _, _, rfl⟩ := h
  exact ⟨_, _, _, _, _, _, _, _, _, rfl⟩

theorem incF {pg n : Nat} {f : Fld} (h : s.onlySends u) : s.onlySends (u.incF pg f n) := h.setReg

theorem satF {pg n : Nat} {f : Fld} (h : s.onlySends u) : s.onlySends (u.satF pg f n) := h.setReg

theorem event {pg b : Nat} (h : s.onlySends u) : s.onlySends (u.event pg b) := by
  obtain ⟨_, _, _, _, _, _, e⟩ := u.event_only pg b
  obtain ⟨_, _, _, _, _, _, _, _, _, rfl⟩ := h
  exact ⟨_, _, _, _, _, _, _, _, _, e⟩

theorem history {kind : Nat} {l : List Nat} (h : s.onlySends u) : s.onlySends (u.history kind l) := by
  unfold State.history
  refine ite h ?_
  obtain ⟨_, _, _, _, _, _, _, _, _, rfl⟩ := h
  exact ⟨_, _, _, _, _, _, _, _, _, rfl⟩

theorem setRegs {a : Nat} {l : List Nat} (h : s.onlySends u) : s.onlySends (u.setRegs a l) := by
  induction l generalizing u a with
  | nil => exact h
  | cons v l ih => exact ih h.setReg

theorem errRecord {p : Nat} {r : ErrRec} (h : s.onlySends u) : s.onlySends (u.errRecord p r) :=
  (h.setRegs.incF.ite h.satF).event.history

theorem damageRecord {p a n : Nat} {l : Loc} (h : s.onlySends u) : s.onlySends (u.damageRecord p a n l) := by
  unfold State.damageRecord
  extract_lets
  split
  · exact h.errRecord
  · exact h.satF.event.errRecord
  · exact h

theorem faultRecord {p unit a : Nat} {f : AccFault} (h : s.onlySends u) : s.onlySends (u.faultRecord p unit a f) := by
  have hstop : s.onlySends { u with hostStops := u.hostStops ++ [p] } := by
    obtain ⟨_, _, _, _, _, _, _, _, _, rfl⟩ := h
    exact ⟨_, _, _, _, _, _, _, _, _, rfl⟩
  unfold State.faultRecord
  extract_lets
  split
  · exact h.ite hstop.errRecord
  · exact h.ite hstop.damageRecord
  · exact h.errRecord
  · exact h.errRecord

/-! ### Packets -/

theorem canopy {y : Canopy} (h : s.onlySends u) : s.onlySends { u with canopy := y } := by
  obtain ⟨_, _, _, _, _, _, _, _, _, rfl⟩ := h
  exact ⟨_, _, _, _, _, _, _, _, _, rfl⟩

theorem fills {x : AMap Fill} (h : s.onlySends u) : s.onlySends { u with fills := x } := by
  obtain ⟨_, _, _, _, _, _, _, _, _, rfl⟩ := h
  exact ⟨_, _, _, _, _, _, _, _, _, rfl⟩

theorem transmit {l : Nat} {items : List (List Byte × Option Packet)} (h : s.onlySends u) : s.onlySends (u.transmit l items) := by
  obtain ⟨_, _, _, _, _, _, _, _, _, rfl⟩ := h
  exact ⟨_, _, _, _, _, _, _, _, _, rfl⟩

theorem setLink {l : Nat} {x : Link} (h : s.onlySends u) : s.onlySends (u.setLink l x) := h.canopy

theorem sendLink {l : Nat} {b : List Byte} (h : s.onlySends u) : s.onlySends (u.sendLink l b) := h.setLink.setLink.transmit.ite h.setLink

theorem leaves {w : Waiting} (h : s.onlySends u) : s.onlySends (u.leaves w) := by
  unfold State.leaves
  split
  · exact h.sendLink.ite h
  · exact h

theorem sendWaiting {l : Nat} (h : s.onlySends u) : s.onlySends (u.sendWaiting l).1 := by
  unfold State.sendWaiting
  extract_lets
  split
  · exact h
  · split
    · exact h
    · exact h.setLink.transmit

theorem foldl {α : Type} {f : State → α → State} {l : List α} (h : s.onlySends u) (hf : ∀ v x, s.onlySends v → s.onlySends (f v x)) :
    s.onlySends (l.foldl f u) := by
  induction l generalizing u with
  | nil => exact h
  | cons x l ih => exact ih (hf u x h)

theorem sendOn {l : Nat} {p : Packet} (h : s.onlySends u) : s.onlySends (u.sendOn l p) :=
  h.setLink.sendWaiting.foldl fun _ _ h => h.leaves

theorem originate {v : State} {p : Packet} (h : s.onlySends u) (e : u.originate p = some v) : s.onlySends v := by
  unfold State.originate at e
  split at e
  · cases e
  · dsimp only at e
    split at e
    · cases e
      exact h.canopy
    · split at e
      · cases e
        exact h.sendOn
      · cases e

theorem ctxDown {c : Nat} (h : s.onlySends u) : s.onlySends (u.ctxDown c) := by
  have hlost {v : State} {p c : Nat} (hv : s.onlySends v) : s.onlySends (v.fillLoses p c) := by
    unfold State.fillLoses
    extract_lets
    split
    · exact hv
    · exact .ite hv (.ite (.ite hv.fills hv) hv.satF)
  exact h.ite (hlost h.canopy).event.history

theorem remoteRead {p c off n : Nat} {who : RemoteWho} (h : s.onlySends u) : s.onlySends (u.remoteRead p c off n who) := by
  unfold State.remoteRead State.request
  extract_lets _ _ _ _ v _ s1
  have hv : s.onlySends v := h.canopy
  have hs1 : s.onlySends s1 := hv.canopy
  split
  · exact h.canopy
  · split
    next e => exact hs1.originate e
    · exact hs1.ctxDown

end State.onlySends

/-! ### The fetch of a line (R76, R570) -/

@[simp] theorem State.tlbUse_threads (s : State) (c addr : Nat) : (s.tlbUse c addr).threads = s.threads := by
  unfold State.tlbUse
  extract_lets _ _ full v
  have hv : v.threads = s.threads := by
    unfold v
    split <;> rfl
  split
  · rfl
  · exact hv

/-- The fetch of a line joins those of its thread that are on their way, and changes no other thread. -/
theorem State.fetchLine_threads (s : State) (c t line : Nat) : ∃ f : Fetch, f.line = line ∧
    (s.fetchLine c t line).threads = (s.modTh c t fun x => { x with fetching := x.fetching ++ [f] }).threads := by
  unfold State.fetchLine
  extract_lets r f v
  refine ⟨f, rfl, ?_⟩
  have hv : v.threads = (s.modTh c t fun x => { x with fetching := x.fetching ++ [f] }).threads := State.tlbUse_threads ..
  clear_value r
  rw [← hv]
  split
  · exact (State.onlySends.refl v).remoteRead.threads
  · exact (State.onlySends.refl v).faultRecord.threads
  · rfl

theorem State.th_of_threads (h : u.threads = s.threads) (c t : Nat) : u.th c t = s.th c t := by
  rw [State.th, State.th, h]

end Sys2Proof.Machine
end

