-- ==== Sys2Proof/Proofs/ThreadArithmetic.lean ====
section
/-! SUPPORT. The instructions on scalar registers: what they write, and where branches and jumps go (R155, R157, R158). -/

namespace Sys2Proof.Machine

variable {s : State} {c : Fin 256} {t : Fin 64} {d a b : BitVec 5} {imm : BitVec 16}

/-! ### Values of 64 bits -/

/-- A right shift that copies the sign. -/
theorem ux_sx_div (p : Dword) (n : Nat) : ux 64 (sx 64 p.toNat / Int.ofNat (2 ^ n)) = (p.sshiftRight n).toNat := by
  rw [ux_eq, sx_toNat, BitVec.sshiftRight, Int.shiftRight_eq_div_pow]
  rfl

theorem b2n_eq (q : Bool) : b2n q = (if q then (1 : Dword) else 0).toNat := by
  cases q <;> rfl

/-! ### Instructions that write a scalar register -/

/-- An instruction on scalar registers writes a word and goes on. -/
theorem State.scalar_of_executes {w : Nat} {l : List Nat} {f : Thread → Nat} {v : Dword}
    (h : s.executes c t w (scalars (d.toNat :: l))) (hv : f (s.th c t) % 2 ^ 64 = v.toNat) :
    s.scalar c t w d.toNat l f = s.goOn c t ((s.th c t).setS d.toNat v.toNat) := by
  rw [State.scalar]
  refine (State.instr_of_executes h).trans ?_
  rw [Thread.setS_of_mod _ _ hv]

theorem State.alu_of_executes {f : Nat} {op : Nat → Nat → Nat} {v : Dword}
    (h : s.executes c t (encR 0x00 d.toNat a.toNat b.toNat f) (scalars [d.toNat, a.toNat, b.toNat]))
    (hv : op ((s.th c t).x a).toNat ((s.th c t).x b).toNat % 2 ^ 64 = v.toNat) :
    s.alu c t f d a b op = s.goOn c t ((s.th c t).setS d.toNat v.toNat) := by
  rw [Thread.toNat_x, Thread.toNat_x] at hv
  exact State.scalar_of_executes h hv

theorem State.immOp_of_executes {op : Nat} {f : Nat → Nat} {v : Dword}
    (h : s.executes c t (encI op d.toNat a.toNat imm.toNat) (scalars [d.toNat, a.toNat]))
    (hv : f ((s.th c t).x a).toNat % 2 ^ 64 = v.toNat) :
    s.immOp c t op d a imm f = s.goOn c t ((s.th c t).setS d.toNat v.toNat) := by
  rw [Thread.toNat_x] at hv
  exact State.scalar_of_executes h hv

/-- Settles O12: each operation on the registers' numbers is the operation on words of 64 bits. -/
theorem aluInstructions : Obligations.AluInstructions := by
  intro s c t d a b x p q gives
  have alu {f : Nat} {i : Instr} {op : Nat → Nat → Nat} {v : Dword} (hi : exec i s = .next (s.alu c t f d a b op))
      (hv : op p.toNat q.toNat % 2 ^ 64 = v.toNat) : gives f i v :=
    fun h => hi.trans (congrArg Host.Outcome.next (State.alu_of_executes h hv))
  refine ⟨alu rfl ?_, alu rfl ?_, alu rfl ?_, alu rfl ?_, alu rfl ?_, alu rfl ?_, alu rfl ?_, alu rfl ?_, alu rfl ?_, alu rfl ?_,
    alu rfl ?_, alu rfl ?_, alu rfl ?_⟩
  · exact (BitVec.toNat_add p q).symm
  · exact toNat_sub_eq p q
  · exact BitVec.toNat_mod_cancel (p &&& q)
  · exact BitVec.toNat_mod_cancel (p ||| q)
  · exact BitVec.toNat_mod_cancel (p ^^^ q)
  · rw [BitVec.toNat_shiftLeft, Nat.shiftLeft_eq]
  · rw [BitVec.toNat_ushiftRight, Nat.shiftRight_eq_div_pow]
    exact Nat.mod_eq_of_lt ((Nat.div_le_self ..).trans_lt p.isLt)
  · rw [ux_sx_div, BitVec.toNat_mod_cancel]
  · exact (BitVec.toNat_mul p q).symm
  · rw [sx_toNat, sx_toNat, b2n_eq, BitVec.toNat_mod_cancel]
    rfl
  · rw [b2n_eq, BitVec.toNat_mod_cancel]
    rfl
  · rw [ite_sx_lt, BitVec.toNat_mod_cancel]
  · rw [ite_sx_lt, BitVec.toNat_mod_cancel]

/-! ### Immediates and special registers -/

/-- INS16 replaces the part that h names. -/
theorem putBits_part (p : Dword) (imm : BitVec 16) (k : Nat) (h : Fin 4) :
    (BitVec.ofNat 64 (putBits p.toNat (16 * k) 16 imm.toNat)).extractLsb' (16 * h.val) 16 =
      if h.val = k then imm else p.extractLsb' (16 * h.val) 16 := by
  refine BitVec.eq_of_toNat_eq ?_
  have hfield : ((BitVec.ofNat 64 (putBits p.toNat (16 * k) 16 imm.toNat)).extractLsb' (16 * h.val) 16).toNat =
      bits (putBits p.toNat (16 * k) 16 imm.toNat) (16 * h.val) 16 := by
    rw [BitVec.extractLsb'_toNat, BitVec.toNat_ofNat, Nat.shiftRight_eq_div_pow]
    exact bits_mod _ _ _ 64 (by omega)
  rw [hfield]
  split_ifs with hh
  · rw [hh, bits_putBits_self, BitVec.toNat_mod_cancel]
  · rw [bits_putBits_apart _ _ _ _ _ _ (by omega), BitVec.extractLsb'_toNat, Nat.shiftRight_eq_div_pow, bits]

/-- The fields of MOVS and SETS that R156 limits. -/
theorem legalWord_movs (d a b : BitVec 5) : legalWord (encR 0x09 d.toNat a.toNat b.toNat 0) = true ↔ a.toNat ≤ 9 := by
  obtain ⟨h1, h2, h3, h4, h5⟩ := fields_encR (op := 0x09) (f := 0) (d := d) (a := a) (b := b) (by decide) (by decide)
  simp [legalWord, h1, h3, h5]

theorem legalWord_sets (d a b : BitVec 5) : legalWord (encR 0x0A d.toNat a.toNat b.toNat 0) = true ↔ (a.toNat = 8 ∨ a.toNat = 9) := by
  obtain ⟨h1, h2, h3, h4, h5⟩ := fields_encR (op := 0x0A) (f := 0) (d := d) (a := a) (b := b) (by decide) (by decide)
  simp [legalWord, h1, h3, h5]

/-- MOVS reads a special register. -/
theorem exec_movs (h : s.executes c t (encR 0x09 d.toNat a.toNat b.toNat 0) (scalars [d.toNat])) :
    exec (.movs c t d a b) s = .next (s.goOn c t ((s.th c t).setS d.toNat (s.special c t (s.th c t) a.toNat))) :=
  congrArg Host.Outcome.next (State.instr_of_executes h)

/-- SETS writes FPFLAGS or RMODE. -/
theorem exec_sets (h : s.executes c t (encR 0x0A d.toNat a.toNat b.toNat 0) (scalars [d.toNat])) :
    exec (.sets c t d a b) s = .next (s.goOn c t (if a.toNat = 8 then { s.th c t with fpflags := (s.th c t).s d.toNat % 32 }
      else { s.th c t with rmode := (s.th c t).s d.toNat % 4 })) := by
  refine congrArg Host.Outcome.next ((State.instr_of_executes h).trans ?_)
  rw [Thread.setSpecial]
  simp only [beq_iff_eq]

/-- Settles O13: each operation on the register's number and the immediate's is the operation on words of 64 bits. -/
theorem immediateAndSpecialInstructions : Obligations.ImmediateAndSpecialInstructions := by
  intro s c t d a b imm x p gives
  have imm_lt : imm.toNat < 2 ^ 64 := imm.isLt.trans (by decide)
  have himm : (imm.zeroExtend 64).toNat = imm.toNat := by
    rw [BitVec.zeroExtend, BitVec.toNat_setWidth, Nat.mod_eq_of_lt imm_lt]
  have on {op : Nat} {i : Instr} {f : Nat → Nat} {v : Dword} (hi : exec i s = .next (s.immOp c t op d a imm f))
      (hv : f p.toNat % 2 ^ 64 = v.toNat) : gives op i v :=
    fun h => hi.trans (congrArg Host.Outcome.next (State.immOp_of_executes h hv))
  refine ⟨on rfl ?_, on rfl ?_, on rfl ?_, on rfl ?_, on rfl ?_, on rfl ?_, on rfl ?_, fun h => ?_, exec_movs, exec_sets⟩
  · rw [ux_add_signExtend, BitVec.ofNat_toNat, BitVec.setWidth_eq, BitVec.toNat_mod_cancel]
  · rw [← himm, ← BitVec.toNat_and, BitVec.toNat_mod_cancel]
  · rw [← himm, ← BitVec.toNat_or, BitVec.toNat_mod_cancel]
  · rw [← himm, ← BitVec.toNat_xor, BitVec.toNat_mod_cancel]
  · rw [BitVec.toNat_shiftLeft, Nat.shiftLeft_eq]
  · rw [BitVec.toNat_ushiftRight, Nat.shiftRight_eq_div_pow]
    exact Nat.mod_eq_of_lt ((Nat.div_le_self ..).trans_lt p.isLt)
  · rw [ux_sx_div, BitVec.toNat_mod_cancel]
  · refine ⟨BitVec.ofNat 64 (putBits (x.x d).toNat (16 * a.toNat) 16 imm.toNat),
      congrArg Host.Outcome.next (State.scalar_of_executes h ?_), putBits_part _ _ _⟩
    rw [BitVec.toNat_ofNat, Thread.toNat_x]

/-- A thread that a start request takes has the request's seed, the present time and no flags, and rounds to nearest. -/
theorem State.th_startThread (s : State) (c t : Nat) (r : StartReq) :
    ((s.startThread c t r).th c t).seed = r.seed ∧ ((s.startThread c t r).th c t).since = s.aclk ∧
    ((s.startThread c t r).th c t).fpflags = 0 ∧ ((s.startThread c t r).th c t).rmode = 0 := by
  unfold State.startThread
  simp only
  obtain ⟨f, -, h⟩ := State.fetchLine_threads (s.setTh c t _) c t _
  rw [State.th_of_threads h, State.modTh, State.th_setTh_self, State.th_setTh_self]
  exact ⟨rfl, rfl, rfl, rfl⟩

/-- Settles O14: the special registers are read and written as they are listed, and a start gives a thread new ones. -/
theorem specialRegisterValues : Obligations.SpecialRegisterValues := by
  refine ⟨fun s c t x => ⟨rfl, rfl, rfl, rfl, rfl, rfl, rfl, rfl, rfl, rfl⟩, fun s c t d a b => ⟨exec_movs, ?_, ?_⟩,
    fun s c t r => State.th_startThread s c t r, by decide, by decide, fun d a b => ⟨legalWord_movs d a b, legalWord_sets d a b⟩⟩
  · rintro h rfl
    exact exec_sets h
  · rintro h rfl
    exact exec_sets h

/-! ### Branches and jumps -/

theorem State.branch_of_executes {w : Nat} {test : Nat → Nat → Bool} {taken : Bool}
    (h : s.executes c t w (scalars [d.toNat, a.toNat])) (htest : test ((s.th c t).x d).toNat ((s.th c t).x a).toNat = taken) :
    s.branch c t w d.toNat a.toNat imm.toNat test = if taken then
      s.goTo c t (s.th c t) (BitVec.ofNat 64 (s.th c t).pc + 4 * imm.signExtend 64).toNat else s.goOn c t (s.th c t) := by
  rw [Thread.toNat_x, Thread.toNat_x] at htest
  refine (State.instr_of_executes h).trans ?_
  simp only [htest, ux_target]

/-- Settles O19: the tests on registers' numbers are those on words, and the targets are sums of words. -/
theorem branchInstructions : Obligations.BranchInstructions := by
  intro s c t d a imm offs x pc branches
  have on {op : Nat} {i : Instr} {test : Nat → Nat → Bool} {taken : Bool}
      (hi : exec i s = .next (s.branch c t (encImm op d a imm) d.toNat a.toNat imm.toNat test))
      (htest : test (x.x d).toNat (x.x a).toNat = taken) : branches op i taken :=
    fun h => hi.trans (congrArg Host.Outcome.next (State.branch_of_executes h htest))
  refine ⟨on rfl ?_, on rfl ?_, on rfl ?_, on rfl ?_, fun h => ?_, fun h => ?_⟩
  · exact Bool.eq_iff_iff.2 (by simp only [beq_iff_eq, BitVec.toNat_inj])
  · exact Bool.eq_iff_iff.2 (by simp only [bne_iff_ne, ne_eq, BitVec.toNat_inj])
  · rw [sx_toNat, sx_toNat, BitVec.slt]
  · rw [sx_toNat, sx_toNat, BitVec.sle]
  · refine congrArg Host.Outcome.next ((State.instr_of_executes h).trans ?_)
    rw [ux_target]
  · refine congrArg Host.Outcome.next ((State.instr_of_executes h).trans ?_)
    simp only [Thread.address_eq, beq_iff_eq]
    rfl

end Sys2Proof.Machine
end

