-- ==== Sys2Proof/Proofs/PostsAndStarts.lean ====
section
/-! SUPPORT. POST, START, FENCE and END (R129, R155, R158, R166). -/

namespace Sys2Proof.Machine

variable {s : State} {c : Fin 256} {t : Fin 64} {d a b : BitVec 5}

/-! ### The registers of the words, and that they wait for earlier stores (R158) -/

theorem wordUses_post (d a b : BitVec 5) : wordUses (encR 0x21 d.toNat a.toNat b.toNat 0) = [(false, a.toNat)] := by
  obtain ⟨h1, h2, h3, h4, h5⟩ := fields_encR (op := 0x21) (f := 0) (d := d) (a := a) (b := b) (by decide) (by decide)
  simp [wordUses, h1, h3]

theorem wordUses_start (d a b : BitVec 5) (slot : Fin 4) : wordUses (encR 0x22 d.toNat a.toNat b.toNat slot.val) =
    (false, d.toNat) :: (false, a.toNat) :: (rangeFrom b.toNat 4).map fun r => (false, r) := by
  obtain ⟨h1, h2, h3, h4, h5⟩ := fields_encR (op := 0x22) (f := slot.val) (d := d) (a := a) (b := b) (by decide) (by omega)
  simp [wordUses, h1, h2, h3, h4]

theorem wordUses_fence (d a b : BitVec 5) : wordUses (encR 0x23 d.toNat a.toNat b.toNat 0) = [] := by
  obtain ⟨h1, h2, h3, h4, h5⟩ := fields_encR (op := 0x23) (f := 0) (d := d) (a := a) (b := b) (by decide) (by decide)
  simp [wordUses, h1]

/-- POST, START and FENCE take effect after every earlier store. -/
theorem wordOrdered_encR {op f : Nat} (hop : op = 0x21 ∨ op = 0x22 ∨ op = 0x23) (hf : f < 2 ^ 11) :
    wordOrdered (encR op d.toNat a.toNat b.toNat f) = true := by
  obtain ⟨h1, h2, h3, h4, h5⟩ := fields_encR (op := op) (d := d) (a := a) (b := b) (by omega) hf
  rcases hop with rfl | rfl | rfl <;> simp [wordOrdered, h1]

/-! ### Posts -/

theorem State.postOp_of_misaligned {x : Thread} {c t addr : Nat} (h : addr % 64 ≠ 0) : s.postOp c t x addr = s.endProgram c t 0x0C := by
  simp [State.postOp, h]

/-- A planner with room takes the forme's 64 bytes. -/
theorem State.postOp_of_room {x : Thread} {c t addr : Nat} {l : List Byte} (h : addr % 64 = 0)
    (hshut : s.plannerShut (plannerOf c (t / 16)) = false) (hroom : s.plannerFull (plannerOf c (t / 16)) = false)
    (hl : s.load (s.corePart c) (some c) addr 64 = .ok l) :
    s.postOp c t x addr = (s.goOn c t x).takeForme (plannerOf c (t / 16)) (s.corePart c) (t / 16) l none (some c) := by
  simp [State.postOp, h, hshut, hroom, hl]

/-- A full planner counts the post as refused, and the thread waits with it. -/
theorem State.postOp_of_full {x : Thread} {c t addr : Nat} (h : addr % 64 = 0)
    (hshut : s.plannerShut (plannerOf c (t / 16)) = false) (hfull : s.plannerFull (plannerOf c (t / 16)) = true) :
    s.postOp c t x addr = { ((s.refusePost (plannerOf c (t / 16))).setTh c t { x with st := .waitPost, post := addr }).issued c t with
      refused := AMap.put (plannerOf c (t / 16)) (AMap.getD (plannerOf c (t / 16)) [] s.refused ++ [{ core := c, thread := some t }])
        s.refused } := by
  have hrefused : (s.refusePost (plannerOf c (t / 16))).refused = s.refused := State.event_refused ..
  simp [State.postOp, h, hshut, hfull, hrefused]

/-- A field that counts a refusal wraps at its width. -/
theorem State.refused_refusePost {j : Nat} (hj : j < 0x80) :
    (s.refusePost j).f (Pg.plan j) F.PLAN_REFUSED = (s.f (Pg.plan j) F.PLAN_REFUSED + 1) % 2 ^ 32 := by
  rw [State.refusePost, State.f_event (by unfold Pg.plan; omega) (by decide) (by decide) (by decide), State.incF,
    State.f_setF_self _ _ _ _ (by decide)]
  exact Nat.mod_mod ..

/-! ### Starts -/

/-- START reads the counter's number and its use from sD, and the address and the arguments from sA and four registers from sB on. -/
theorem State.startOp_eq (s : State) (x : Thread) (c t slot : Nat) (d a b : BitVec 5) : let n := (x.x d).toNat % 8192
    s.startOp c t x d.toNat a.toNat b.toNat slot = if (x.x d).getLsbD 13 && decide (s.ctrsPer ≤ n)
      then (s.event (Pg.core c) Ev.CORE_SYNC_RANGE).endProgram c t 0x03
      else (s.goOn c t x).startReq c slot
        { pc := (x.x a).toNat
          args := [x.s b.toNat, x.s (b.toNat + 1), x.s (b.toNat + 2), x.s (b.toNat + 3)]
          endCtr := if (x.x d).getLsbD 13 then some (s.devCtr (s.corePart c) n) else none
          host := none
          epi := none } := by
  have hbit : (x.x d).getLsbD 13 = bit (x.s d.toNat) 13 := by rw [bit_eq_testBit, BitVec.getLsbD, x.toNat_x]
  have hn : x.s d.toNat % 8192 = bits (x.s d.toNat) 0 13 := by simp only [bits, pow_zero, Nat.div_one, Nat.reducePow]
  simp only [hbit, x.toNat_x, hn]
  rfl

/-! ### The settled statement -/

/-- Settles O23: each of the four acts at its turn, which three of them have only once no store is left. -/
theorem postStartFenceEnd : Obligations.PostStartFenceEnd := by
  intro s c t d a b slot status x p addr j wPost wStart wFence ex waits
  have hPost : wordOrdered wPost = true := wordOrdered_encR (by decide) (by decide)
  have hStart : wordOrdered wStart = true := wordOrdered_encR (by decide) (by omega)
  have hFence : wordOrdered wFence = true := wordOrdered_encR (by decide) (by decide)
  have hj : j < 0x80 := by have := c.isLt; have := t.isLt; simp only [j, plannerOf]; omega
  have haddr : addr = x.s a.toNat := x.toNat_x a
  refine ⟨fun h => ?_, fun h => ?_, fun h => ?_, ?_, fun h => ?_, fun h => ?_, fun h => ?_, fun h => ?_⟩
  · exact congrArg Host.Outcome.next (State.instr_of_stores (wordUses_post d a b ▸ h.1) hPost h.2)
  · exact congrArg Host.Outcome.next (State.instr_of_stores (wordUses_start d a b slot ▸ h.1) hStart h.2)
  · exact congrArg Host.Outcome.next (State.instr_of_stores (wordUses_fence d a b ▸ h.1) hFence h.2)
  · rintro (h | h | h)
    · exact State.stores_nil_of_executes h hPost
    · exact State.stores_nil_of_executes h hStart
    · exact State.stores_nil_of_executes h hFence
  · have hpost : exec (.post c t d a b) s = .next (s.postOp c t x addr) := by
      rw [haddr]
      exact congrArg Host.Outcome.next (State.instr_of_executes (wordUses_post d a b ▸ h))
    rw [hpost]
    refine ⟨fun hal => ?_, fun hal hshut hroom l hl => ?_, fun hal hshut hfull => ⟨_, rfl, ?_⟩⟩
    · exact congrArg Host.Outcome.next (State.postOp_of_misaligned hal)
    · exact congrArg Host.Outcome.next (State.postOp_of_room hal hshut hroom hl)
    · have hcount := State.refused_refusePost (s := s) hj
      have hformes : (s.refusePost j).formes = s.formes := State.event_formes ..
      rw [State.postOp_of_full hal hshut hfull]
      generalize s.refusePost j = v at hcount hformes ⊢
      exact ⟨State.th_setTh_self .., AMap.getD_put_self .., hcount, hformes⟩
  · exact congrArg Host.Outcome.next ((State.instr_of_executes (wordUses_start d a b slot ▸ h)).trans (State.startOp_eq ..))
  · exact congrArg Host.Outcome.next (State.instr_of_executes (wordUses_fence d a b ▸ h))
  · exact congrArg Host.Outcome.next (State.instr_of_executes h)

end Sys2Proof.Machine
end

