-- ==== Sys2Proof/Proofs/Int32Lanes.lean ====
section
/-! SUPPORT. Lanes of a vector register, and the operations of the type INT32 (R159). -/

namespace Sys2Proof.Machine

/-! ### Lanes -/

/-- The number that lanes make holds each of them in its place. -/
theorem bits_foldr_lanes (w : Nat) (l : List Nat) (k : Nat) :
    bits (l.foldr (fun c n => c % 2 ^ w + 2 ^ w * n) 0) (w * k) w = l.getD k 0 % 2 ^ w := by
  induction l generalizing k with
  | nil => simp [bits]
  | cons c l ih =>
    cases k with
    | zero => simp [bits]
    | succ k =>
      rw [List.foldr_cons, List.getD_cons_succ, ← ih k, bits, bits, Nat.mul_succ, Nat.add_comm (w * k), pow_add,
        ← Nat.div_div_eq_div_mul, Nat.add_mul_div_left _ _ (Nat.two_pow_pos w), Nat.div_eq_of_lt (Nat.mod_lt _ (Nat.two_pow_pos w)),
        Nat.zero_add]

/-- A lane of a register made of lanes that it has room for. -/
theorem lane_ofLanes {w k : Nat} (l : List Nat) (hk : w * k + w ≤ 2048) : lane w (ofLanes w l) k = l.getD k 0 % 2 ^ w := by
  rw [lane, ofLanes, BitVec.toNat_ofNat, bits_mod _ _ _ 2048 hk, bits_foldr_lanes]

/-! ### INT32 -/

theorem VType.mask_i32 (q : Bool) : VType.i32.mask q = (if q then BitVec.allOnes 32 else 0).toNat := by
  cases q <;> rfl

/-- Settles O28: lanes keep their places, and each INT32 operation on lanes is the operation on words of 32 bits. -/
theorem int32LanesWrap : Obligations.Int32LanesWrap := by
  refine ⟨fun l k hl hk => lane_ofLanes l (by omega), fun r x y z => ⟨?_, ?_, ?_, ?_, ?_, ?_, ?_, ?_, ?_, ?_, ?_⟩⟩
  · exact congrArg (·, 0) (BitVec.toNat_add x y).symm
  · exact congrArg (·, 0) (toNat_sub_eq x y)
  · exact congrArg (·, 0) (BitVec.toNat_mul x y).symm
  · rw [BitVec.toNat_add, BitVec.toNat_mul, Nat.mod_add_mod]
    rfl
  · exact ite_sx_lt y x y x
  · exact ite_sx_lt x y y x
  · rw [VType.abs, show bit x.toNat 31 = x.msb from bit_toNat_msb x, ← BitVec.toNat_neg, ← apply_ite BitVec.toNat]
  · exact (BitVec.toNat_neg x).symm
  · rw [VType.lt, VType.mask_i32, sx_toNat, sx_toNat]
    rfl
  · rw [VType.le, VType.mask_i32, sx_toNat, sx_toNat]
    rfl
  · rw [VType.eq, VType.mask_i32]
    simp only [beq_iff_eq, BitVec.toNat_inj]

end Sys2Proof.Machine
end

