-- ==== Sys2Proof/Proofs/PostedFormes.lean ====
section
/-! SUPPORT. Formes that are posted to a planner, and what the planner does with one that it takes (R129, R130, R146, R147, R165, R166). -/

namespace Sys2Proof.Machine

variable {s : State} {c : Fin 256} {slot : Fin 4} {b : BitVec 512}

/-! ### Posts of formes -/

theorem opOf_eq (b : BitVec 512) : opOf b = b.toNat % 256 := by
  simp [opOf, bits]

theorem varOf_eq (b : BitVec 512) : varOf b = b.toNat / 256 % 256 := by
  simp [varOf, bits]

theorem State.plannerFull_iff {j : Nat} : s.plannerFull j = true ↔ 256 ≤ s.plannerHeld j := by
  simp [State.plannerFull]

/-- A planner with room takes the 64 bytes. -/
theorem State.postForme_of_room (ha : s.active (s.corePart c) = true) (hshut : s.plannerShut (plannerOf c slot) = false)
    (hroom : s.plannerHeld (plannerOf c slot) < 256) : s.postForme c slot b true =
      s.takeForme (plannerOf c slot) (s.corePart c) slot (toBytes 64 b.toNat) none (some c.val) := by
  have hfull : s.plannerFull (plannerOf c slot) = false := by
    rw [Bool.eq_false_iff, ne_eq, State.plannerFull_iff]
    omega
  simp [State.postForme, ha, hshut, hfull]

/-- A full planner refuses the post, which waits. -/
theorem State.postForme_of_full (ha : s.active (s.corePart c) = true) (hshut : s.plannerShut (plannerOf c slot) = false)
    (hfull : 256 ≤ s.plannerHeld (plannerOf c slot)) : s.postForme c slot b true =
      { s.refusePost (plannerOf c slot) with
        refused := AMap.put (plannerOf c slot) (AMap.getD (plannerOf c slot) [] s.refused ++
          [{ core := c, thread := none, slot := slot, bytes := toBytes 64 b.toNat }]) s.refused } := by
  have hrefused : (s.refusePost (plannerOf c slot)).refused = s.refused := State.event_refused ..
  simp [State.postForme, ha, hshut, State.plannerFull_iff.2 hfull, hrefused]

/-- Settles O29: the command of each forme is its post where the bytes name it. -/
theorem postedFormesAreTakenOrRefused : Obligations.PostedFormesAreTakenOrRefused := by
  intro s c slot b op variant j posts
  have on {is : Prop} {i : Instr} {q : Bool} (hi : exec i s = .next (s.postForme c slot b q)) (hq : is → q = true) : posts is i := by
    intro h ha hshut
    rw [hq h] at hi
    exact ⟨fun hroom => hi.trans (congrArg Host.Outcome.next (State.postForme_of_room ha hshut hroom)),
      fun hfull => hi.trans (congrArg Host.Outcome.next (State.postForme_of_full ha hshut hfull))⟩
  have hop : opOf b = op := opOf_eq b
  have hvar : varOf b = variant := varOf_eq b
  refine ⟨on rfl ?_, on rfl ?_, on rfl ?_, on rfl ?_, on rfl ?_, on rfl ?_, on rfl ?_, on rfl ?_, on rfl ?_, on rfl ?_, on rfl ?_,
    on rfl ?_, on rfl ?_, on rfl ?_, on rfl ?_, on rfl ?_, on rfl ?_, on rfl ?_, on rfl ?_, on rfl ?_, on rfl ?_, on rfl ?_,
    on rfl ?_, on rfl ?_, on rfl ?_, on rfl ?_⟩
  all_goals
    intro h
    simp [hop, hvar, h, bit, bits]

/-! ### Formes that are taken -/

/-- The record of a forme that a planner takes, before its checks. -/
def State.takenForme (s : State) (j p slot : Nat) (bytes : List Byte) (host : Option HostRef) : Forme :=
  { part := p, slot := slot, planner := j, bytes := bytes, host := host, train := (s.part p).overlay == .train }

/-- The state in which a planner checks a forme that it takes: the forme has its number and is counted. -/
def State.countTaken (s : State) (j : Nat) : State := ({ s with nextForme := s.nextForme + 1 }).incF (Pg.plan j) F.PLAN_TAKEN

section

variable {j p : Nat} {slot : Nat} {bytes : List Byte} {host : Option HostRef} {core : Option Nat}

/-- A check that fails ends the forme with its status; a counter out of range has a flag besides. -/
theorem State.takeForme_of_fail {status : Nat} (h : (s.countTaken j).takeChecks (s.takenForme j p slot bytes host) = some status)
    (hflag : status ≠ 0x03) : s.takeForme j p slot bytes host core =
      ((s.countTaken j).setForme s.nextForme (s.takenForme j p slot bytes host)).finishForme s.nextForme status := by
  unfold State.countTaken State.takenForme at *
  simp only [State.takeForme, h]
  cases core <;> simp [hflag]

/-- A forme that passes and waits for nothing is held for its claim counters. -/
theorem State.takeForme_of_held (h : (s.countTaken j).takeChecks (s.takenForme j p slot bytes host) = none)
    (hwait : (s.takenForme j p slot bytes host).waitEn = false) : s.takeForme j p slot bytes host core =
      (s.countTaken j).setForme s.nextForme { s.takenForme j p slot bytes host with st := .claimHeld } := by
  unfold State.countTaken State.takenForme at *
  simp only [State.takeForme, h, hwait]
  rfl

/-- A forme that passes waits for its counter, whose operation is counted. -/
theorem State.takeForme_of_waiting (h : (s.countTaken j).takeChecks (s.takenForme j p slot bytes host) = none)
    (hwait : (s.takenForme j p slot bytes host).waitEn = true) :
    let x := s.takenForme j p slot bytes host
    let k := (s.countTaken j).devCtr p x.waitCtr
    s.takeForme j p slot bytes host core = ((s.countTaken j).countOp k).setForme s.nextForme
      { x with st := .waiting, waitMet := meets (((s.countTaken j).countOp k).value k) x.waitTarget } := by
  unfold State.countTaken State.takenForme at *
  simp only [State.takeForme, h, hwait]
  rfl

end

/-- Counting a forme leaves the division into partitions. -/
theorem State.devCtr_countTaken (s : State) (j p k : Nat) : (s.countTaken j).devCtr p k = s.devCtr p k := by
  have h : ({ s with nextForme := s.nextForme + 1 } : State).Divided _ := s.divided_self.of_regs rfl
  have g : (s.countTaken j).Divided _ := h.incF (by decide)
  rw [State.devCtr, State.devCtr, State.ctrsPer, State.ctrsPer, s.divided_self.k g]

/-- The count of a counter's operations is none of the counters' values. -/
@[simp] theorem State.value_countOp (s : State) (c k : Nat) : (s.countOp c).value k = s.value k := by
  refine State.reg_setReg_ne _ _ ?_
  simp only [Pg.sync, F.SYNC_OPS]
  omega

/-- Settles O30: the first check that fails ends the forme, and one that passes waits or is held for its claim counters. -/
theorem takenFormes : Obligations.TakenFormes := by
  intro s j p slot bytes host core x i u counted
  refine ⟨fun hop => ?_, fun hop hrole => ?_, fun hpass hwait => ?_, fun hpass hwait => ?_⟩
  · have hcheck : counted.takeChecks x = some 0x05 := by simp [State.takeChecks, hop]
    exact State.takeForme_of_fail hcheck (by decide)
  · have hrole' : slotRoleOk (counted.part x.part).overlay x.slot x.opcode = false := hrole
    have hcheck : counted.takeChecks x = some 0x02 := by simp [State.takeChecks, hop, hrole']
    exact State.takeForme_of_fail hcheck (by decide)
  · exact State.takeForme_of_held hpass hwait
  · have hu : u = _ := State.takeForme_of_waiting hpass hwait
    rw [hu, State.value_countOp, State.devCtr_countTaken]
    exact ⟨_, AMap.get?_put_self .., rfl, rfl, rfl⟩

end Sys2Proof.Machine
end

