-- ==== Sys2Proof/Proofs/EpiloguesAndReports.lean ====
section
/-! SUPPORT. Epilogues, the ends that cores report, reducer updates and spills (R148, R149, R160, R236, R251, R270). -/

namespace Sys2Proof.Machine

variable {s : State} {c i : Nat}

/-! ### Epilogues (R160) -/

/-- The values of a tile of forme x are in the galley of core c, row by row from an offset, for its epilogue. -/
def State.stageTile (s : State) (c off : Nat) (x : Forme) (t : Tile) : State :=
  let p := x.planOf t
  let pe := p.epiPitch x
  (List.range (p.tileArea x t.index).2.2.1).foldl (fun v r => v.poke (galleyKey c ((off + r * pe.1) % 2 ^ 20))
    (((t.out.drop (r * t.cols)).take t.cols).flatMap fun n => toBytes pe.2 ((if pe.2 == 8 then fp64 else fp32).near n))) s

/-- The start request of a tile's epilogue: the tile's place, its origin and its shape, and the argument of the forme. -/
def Tile.epiRequest (t : Tile) (i : Nat) (x : Forme) (off : Nat) : StartReq :=
  let p := x.planOf t
  let a := p.tileArea x t.index
  let pe := p.epiPitch x
  { pc := p.ext.epilogue
    args := [2 ^ 60 + off, a.1 + a.2.1 * 2 ^ 32,
      a.2.2.1 + a.2.2.2 * 2 ^ 16 + pe.1 * 2 ^ 32 + (if pe.2 == 8 then 0x09 else 0x08) * 2 ^ 48, p.ext.epiArg]
    endCtr := none, host := none, epi := some (i, t.code), seed := p.ext.seed }

/-- A computed tile with a place in its slot's share goes to the galley, and its epilogue starts. -/
theorem State.epilogueStart_of_place {t : Tile} {off : Nat}
    (hfind : s.tiles.find? (fun t => t.core == c && t.forme == i && t.phase == .epilogueWait) = some t) (hrun : s.coreRuns c = true)
    (hfree : (s.freeThread c t.slot).isSome = true) (hproof : t.proof = none)
    (hplace : s.epiPlace c t.slot ((((s.forme i).planOf t).epiPitch (s.forme i)).1 * ((s.forme i).planOf t).mt) = some off) :
    s.epilogueStart c i = ((s.stageTile c off (s.forme i) t).modTile c i t.code fun y => { y with phase := .epilogue, galley := off }).startReq
      c t.slot (t.epiRequest i (s.forme i) off) := by
  have hi : t.forme = i := by
    have ht := List.find?_some hfind
    simp only [Bool.and_eq_true, beq_iff_eq] at ht
    exact ht.1.2
  have hsize : s.epiPlace c t.slot (s.epiSize t) = some off := by
    rw [State.epiSize, hi]
    exact hplace
  have hnone : (s.freeThread c t.slot).isNone = false := by rw [Option.isNone_eq_false_iff, hfree]
  simp only [State.epilogueStart, hfind, hrun, hnone, hproof, hsize, Bool.not_true, Option.isSome_none, Bool.or_self, Bool.false_eq_true,
    if_false]
  rfl

/-! ### The ends that cores report (R148, R149) -/

/-- Core c is done with forme i, which ends where nothing of it is left. -/
def State.coreDone (s : State) (i c : Nat) : State :=
  ({ s with tiles := s.tiles.filter fun t => !(t.forme == i && t.core == c) }.modForme i
    fun y => { y with cores := y.cores.filter fun k => k != c, reported := y.reported ++ [c] }).tryEnd i

section

variable (hst : (s.forme i).st = .running) (htiled : opTiled (s.forme i).opcode = true) (hcore : (s.forme i).cores.contains c = true)
  (hpost : (s.forme i).posts.contains c = false) (hnone : ∀ t ∈ s.tiles, ¬ (t.forme = i ∧ t.core = c))
include hst htiled hcore hpost hnone

/-- A core that has left the forme's queue and holds none of its tiles is done with it. -/
theorem State.reportEnd_of_left (hq : (AMap.getD (s.forme i).slot [] (s.core c).queue).contains i = false) :
    s.reportEnd i c = s.coreDone i c := by
  have hmine : (s.tiles.any fun t => t.forme == i && t.core == c) = false := by simpa [List.any_eq_false] using hnone
  simp only [State.reportEnd, hst, htiled, hcore, hpost, hq, hmine]
  rfl

/-- A core whose share does not hold the forme's tiles declines it, which gives the forme's first fault. -/
theorem State.reportEnd_of_declined (hq : (AMap.getD (s.forme i).slot [] (s.core c).queue).head? = some i)
    (hend : (s.forme i).ending = false) (hdecl : s.declines (s.forme i) c = true) : s.reportEnd i c =
      (((s.popQueue c (s.forme i).slot).takesPart i c).modForme i fun y =>
        { y with status := if y.status == 0 then 0x01 else y.status }).coreDone i c := by
  have hin : (AMap.getD (s.forme i).slot [] (s.core c).queue).contains i = true := by
    simpa using List.mem_of_head? hq
  have hmine : (s.tiles.any fun t => t.forme == i && t.core == c) = false := by simpa [List.any_eq_false] using hnone
  have hbegun : (s.tiles.any fun t => t.forme == i && t.core == c && !t.unbegun) = false := by
    rw [List.any_eq_false] at hmine ⊢
    intro t ht
    simp [hmine t ht]
  simp only [State.reportEnd, hst, htiled, hcore, hpost, hin, hq, hmine, hbegun, hend, hdecl, beq_self_eq_true]
  rfl

end

/-! ### Reducer updates (R236, R251) -/

/-- An ordered update waits for an earlier position of its line that waits, or that a tile of its forme may still bring. -/
def State.waitsForEarlier (s : State) (u : RedUpdate) : Bool :=
  u.ordered && ((s.reducers.any fun v => v.forme == u.forme && v.addr == u.addr && v.j < u.j) ||
    (List.range (s.forme u.forme).tilesTotal).any fun n => n < u.j / 64 && !(s.forme u.forme).doneTiles.contains (8 * n) &&
      !(s.forme u.forme).ending)

/-- An update that does not wait for an earlier one is the first of its line. -/
theorem State.waitsForEarlier_eq_false {u : RedUpdate} : s.waitsForEarlier u = false ↔
    u.ordered = false ∨ (∀ v ∈ s.reducers, v.forme = u.forme → v.addr = u.addr → u.j ≤ v.j) ∧
      ((s.forme u.forme).ending = true ∨
        ∀ n, n < (s.forme u.forme).tilesTotal → n < u.j / 64 → 8 * n ∈ (s.forme u.forme).doneTiles) := by
  have hlower : (s.reducers.any fun v => v.forme == u.forme && v.addr == u.addr && v.j < u.j) = false ↔
      ∀ v ∈ s.reducers, v.forme = u.forme → v.addr = u.addr → u.j ≤ v.j := by
    simp [List.any_eq_false]
  have hbrings : ((List.range (s.forme u.forme).tilesTotal).any fun n => n < u.j / 64 && !(s.forme u.forme).doneTiles.contains (8 * n) &&
      !(s.forme u.forme).ending) = false ↔ (s.forme u.forme).ending = true ∨
        ∀ n, n < (s.forme u.forme).tilesTotal → n < u.j / 64 → 8 * n ∈ (s.forme u.forme).doneTiles := by
    cases (s.forme u.forme).ending <;> simp [List.any_eq_false]
  rw [State.waitsForEarlier, Bool.and_eq_false_iff, Bool.or_eq_false_iff, hlower, hbrings]

/-- An update of the first position of its line, to a page that no write waits for, is performed, and marks the zero map. -/
theorem State.reducerUpdate_of_first {index : Nat} {u : RedUpdate} (hu : s.reducers[index]? = some u)
    (hfirst : s.waitsForEarlier u = false) (hheld : s.writeHeld u.part u.place.2 = false) :
    let row : CodeRow := { d := ((s.forme u.forme).plans.getD 0 {}).d 2, a0 := u.col, i1 := u.row, codes := s.updateCodes u }
    let v := State.performUpdate { s with reducers := s.reducers.eraseIdx index } u
    s.reducerUpdate index = (if row.d.zmap then ((v.modForme u.forme fun y => { y with zeros := row.mark y.zeros }).writeZmap u.forme
      { part := u.part, core := none, who := .forme u.forme } row.blocks).1 else v).tryEnd u.forme := by
  unfold State.waitsForEarlier at hfirst
  simp only [State.reducerUpdate, hu, hfirst, hheld, Bool.or_self, Bool.false_eq_true, if_false]
  cases (((s.forme u.forme).plans.getD 0 {}).d 2).zmap <;> rfl

theorem State.reducerUpdate_of_waiting {index : Nat} {u : RedUpdate} (hu : s.reducers[index]? = some u)
    (h : s.waitsForEarlier u = true ∨ s.writeHeld u.part u.place.2 = true) : s.reducerUpdate index = s := by
  have hwait : (s.waitsForEarlier u || s.writeHeld u.part u.place.2) = true := Bool.or_eq_true_iff.2 h
  unfold State.waitsForEarlier at hwait
  simp only [State.reducerUpdate, hu, hwait, if_true]

/-! ### Spills (R251, R270) -/

theorem State.spillDone_of_granted {p : Nat} {y : Spill}
    (h : (s.camb p).spills.find? (fun y => s.cambPick (s.lead p + y.unit) == some 1) = some y) :
    s.spillDone p = (s.cambGrant (s.lead p + y.unit) 1).endSpill p y := by
  simp only [State.spillDone, h]

theorem State.spillDone_of_none {p : Nat} (h : ∀ y ∈ (s.camb p).spills, s.cambPick (s.lead p + y.unit) ≠ some 1) :
    s.spillDone p = s := by
  have hfind : (s.camb p).spills.find? (fun y => s.cambPick (s.lead p + y.unit) == some 1) = none := by
    simpa [List.find?_eq_none] using h
  simp only [State.spillDone, hfind]

/-! ### The settled statement -/

/-- Settles O33: each command is the operation of its step, which acts where its conditions are met. -/
theorem epiloguesReportsAndUpdates : Obligations.EpiloguesReportsAndUpdates := by
  intro s i c x done
  refine ⟨fun t hfind hrun hfree hproof off hplace => ?_, fun hst htiled hcore hpost hnone => ⟨fun hq => ?_, fun hq hend hdecl => ?_⟩,
    fun index u hu => ⟨fun hfirst hheld => ?_, fun hwait => ?_⟩, fun p => ⟨fun y hy => ?_, fun hnone => ?_⟩⟩
  · exact congrArg Host.Outcome.next (State.epilogueStart_of_place hfind hrun hfree hproof hplace)
  · exact congrArg Host.Outcome.next (State.reportEnd_of_left hst htiled hcore hpost hnone hq)
  · exact congrArg Host.Outcome.next (State.reportEnd_of_declined hst htiled hcore hpost hnone hq hend hdecl)
  · exact congrArg Host.Outcome.next (State.reducerUpdate_of_first hu (State.waitsForEarlier_eq_false.2 hfirst) hheld)
  · refine congrArg Host.Outcome.next (State.reducerUpdate_of_waiting hu (hwait.imp_left fun hnot => ?_))
    rw [← Bool.not_eq_false, State.waitsForEarlier_eq_false]; exact hnot
  · exact congrArg (fun v => Host.Outcome.next (State.endFormes v)) (State.spillDone_of_granted hy)
  · exact congrArg (fun v => Host.Outcome.next (State.endFormes v)) (State.spillDone_of_none hnone)

end Sys2Proof.Machine
end

