-- ==== Sys2Proof/Proofs/RegisterWrites.lean ====
section
/-! SUPPORT. Writes of command registers and of plain registers, for any page, and updates after which a requester writes pages as before
(R47, R50, R52 to R54). -/

namespace Sys2Proof.Machine

variable {s u : State} {who : Requester} {pg j o : Nat} {c : PClass}

/-! ### Words composed of an old and a written one (R53) -/

/-- The word in which the bits of `mask` are those written, and the others those of the old word. -/
def composed (mask old v : Nat) : Nat := (old &&& (0xFFFFFFFF - mask)) ||| (v &&& mask)

theorem testBit_composed {mask : Nat} (hm : mask < 2 ^ 32) (old v i : Nat) :
    (composed mask old v).testBit i = if mask.testBit i then v.testBit i else decide (i < 32) && old.testBit i := by
  have hnot : (0xFFFFFFFF - mask).testBit i = (decide (i < 32) && !mask.testBit i) := by
    rw [show 0xFFFFFFFF - mask = 2 ^ 32 - (mask + 1) by omega, Nat.testBit_two_pow_sub_succ hm]
  rw [composed, Nat.testBit_or, Nat.testBit_and, Nat.testBit_and, hnot]
  cases mask.testBit i <;> simp [Bool.and_comm]

/-- A field of written bits. -/
theorem bits_composed {mask lo w : Nat} (hm : mask < 2 ^ 32) (old v : Nat) (h : ∀ i, i < w → mask.testBit (lo + i) = true) :
    bits (composed mask old v) lo w = bits v lo w := by
  refine Nat.eq_of_testBit_eq fun i => ?_
  rw [testBit_bits, testBit_bits, testBit_composed hm]
  by_cases hi : i < w
  · rw [h i hi, if_pos rfl]
  · simp [hi]

theorem bit_composed_zero {mask : Nat} (hm : mask < 2 ^ 32) (old : Nat) {v : Nat} (h : mask.testBit 0 = true) (hv : v % 2 = 1) :
    bit (composed mask old v) 0 = true := by
  rw [bit_eq_testBit, testBit_composed hm, if_pos h, Nat.testBit_zero, decide_eq_true hv]

/-- A register whose written bits are one field gets that field. -/
theorem State.setReg_composed_field {lo w : Nat} (s : State) (a old v : Nat) (h : lo + w ≤ 32) :
    s.setReg a (composed (2 ^ lo * (2 ^ w - 1)) old v) = s.setReg a (putBits old lo w (v / 2 ^ lo)) := by
  have hm : 2 ^ lo * (2 ^ w - 1) < 2 ^ 32 := calc
    2 ^ lo * (2 ^ w - 1) < 2 ^ lo * 2 ^ w := Nat.mul_lt_mul_of_pos_left (Nat.sub_lt (Nat.two_pow_pos w) one_pos) (Nat.two_pow_pos lo)
    _ = 2 ^ (lo + w) := (pow_add 2 lo w).symm
    _ ≤ 2 ^ 32 := Nat.pow_le_pow_right two_pos h
  have hword : BitVec.ofNat 32 (composed (2 ^ lo * (2 ^ w - 1)) old v) = BitVec.ofNat 32 (putBits old lo w (v / 2 ^ lo)) := by
    refine BitVec.eq_of_getLsbD_eq fun i hi => ?_
    rw [BitVec.getLsbD_ofNat, BitVec.getLsbD_ofNat, testBit_composed hm, testBit_putBits, Nat.testBit_two_pow_mul,
      Nat.testBit_two_pow_sub_one]
    by_cases hlo : lo ≤ i
    · by_cases hw : i < lo + w
      · simp [hlo, hw, show i - lo < w by omega, Nat.testBit_div_two_pow]
      · simp [hw, hi, show ¬ i - lo < w by omega]
    · simp [hlo, hi]
  rw [State.setReg, State.setReg, hword]

/-- A word with a field put into it differs from the old one in no bit outside the field. -/
theorem putBits_xor_and {x lo w v mask : Nat} (h : ∀ i, lo ≤ i → i < lo + w → mask.testBit i = false) :
    (putBits x lo w v ^^^ x) &&& mask = 0 := by
  refine Nat.eq_of_testBit_eq fun i => ?_
  rw [Nat.testBit_and, Nat.testBit_xor, testBit_putBits, Nat.zero_testBit]
  split_ifs with hi
  · rw [h i hi.1 hi.2, Bool.and_false]
  · rw [Bool.xor_self, Bool.false_and]

theorem bits_zero (v w : Nat) : bits v 0 w = v % 2 ^ w := congrArg (· % 2 ^ w) (Nat.div_one v)

/-- A field of a register that has been written. -/
theorem State.f_setReg_self (s : State) (pg v : Nat) {x : Fld} (ho : x.off = o) (h : x.lo + x.w ≤ 32) :
    (s.setReg (pg * 4096 + o) v).f pg x = bits v x.lo x.w := by
  rw [State.f, ho, State.reg_setReg_self, bits_mod _ _ _ _ h]

/-- A field of a register whose bits are those written, among others. -/
theorem State.f_setReg_composed (s : State) (pg : Nat) {mask : Nat} (old v : Nat) {x : Fld} (hm : mask < 2 ^ 32) (ho : x.off = o)
    (h : x.lo + x.w ≤ 32) (hx : ∀ i, i < x.w → mask.testBit (x.lo + i) = true) :
    (s.setReg (pg * 4096 + o) (composed mask old v)).f pg x = bits v x.lo x.w :=
  (s.f_setReg_self pg _ ho h).trans (bits_composed hm old v hx)

theorem State.f_setReg_ne (s : State) {pg a : Nat} {x : Fld} (v : Nat) (h : pg * 4096 + x.off ≠ a) :
    (s.setReg a v).f pg x = s.f pg x := by
  rw [State.f, State.reg_setReg_ne _ _ h, State.f]

/-- A word under the mask of all bits. -/
theorem and_all_bits {x : Nat} (h : x < 2 ^ 32) : x &&& 0xFFFFFFFF = x := Nat.and_two_pow_sub_one_of_lt_two_pow h

/-! ### Writes of command registers and of plain registers (R53, R54) -/

/-- The register at an offset is one of commands that no LOCK protects: the bits `b` are commands, and no bit of `sel` is reserved. -/
abbrev CommandAt (c : PClass) (j o b sel : Nat) : Prop :=
  0x020 ≤ o ∧ o < 4096 ∧ o % 4 = 0 ∧ sel < 2 ^ 16 ∧ (regAt c j o).1.mw ≠ 0 ∧ (regAt c j o).1.wl = 0 ∧
  (regAt c j o).1.rsvp &&& sel = 0 ∧ b &&& sel &&& (regAt c j o).1.mw = b

/-- A command reaches its page as the bits that are set. -/
theorem State.maskedWrite_command {b sel : Nat} (h : s.writes who pg) (hc : classOf pg = some (c, j)) (hat : CommandAt c j o b sel) :
    ∃ w : WriteReq, w.masked = b ∧ w.sel = sel ∧ s.maskedWrite who pg o b sel = s.writeBlock who c j pg o w := by
  obtain ⟨hlow, hhigh, halign, hsel, hmw, hwl, hrsvp, hb⟩ := hat
  have hb16 : b < 2 ^ 16 := calc
    b = b &&& sel &&& (regAt c j o).1.mw := hb.symm
    _ ≤ sel := Nat.and_le_left.trans Nat.and_le_right
    _ < 2 ^ 16 := hsel
  obtain ⟨w, hrow, hwsel, hmasked, hcan, hw⟩ := State.maskedWrite_eq h hc hhigh halign hb16 hsel hmw hrsvp fun _ _ => hwl
  refine ⟨w, ?_, hwsel, hw.trans (if_neg (by omega))⟩
  have hall : w.can = 0xFFFFFFFF := by rw [hcan, hwl, Nat.sub_zero, ite_self]
  rw [hmasked, hrow, hb, hall, and_all_bits (hb16.trans (by decide))]

/-- The register at an offset is one of plain RW bits, with reserved ones and ones that LOCK protects. -/
abbrev PlainAt (c : PClass) (j o rw rsvp wl : Nat) : Prop :=
  0x020 ≤ o ∧ o < 4096 ∧ o % 4 = 0 ∧ (regAt c j o).2 = 0 ∧ (regAt c j o).1.mw = 0 ∧ (regAt c j o).1.w1c = 0 ∧
  (regAt c j o).1.ov = 0 ∧ (regAt c j o).1.buf = 0 ∧ (regAt c j o).1.rw = rw ∧ (regAt c j o).1.rsvp = rsvp ∧
  (regAt c j o).1.wl = wl ∧ 0 < rw ∧ rw < 2 ^ 32 ∧ rsvp < 2 ^ 32

/-- A write of a plain register, open to the requester and with its reserved bits as they read, reaches its page as the whole word. -/
theorem State.busWrite_plain {v rw rsvp wl : Nat} (h : s.writes who pg) (hc : classOf pg = some (c, j)) (hat : PlainAt c j o rw rsvp wl)
    (hrsvp : (v ^^^ s.reg (pg * 4096 + o)) &&& rsvp = 0) (hopen : wl = 0 ∨ (writesWl who = true ∧ s.f pg fLock = 0)) :
    ∃ w : WriteReq, w.can = 0xFFFFFFFF ∧ (∀ old, w.compose old = composed rw old v) ∧
      s.writePlain pg o w = s.setReg (pg * 4096 + o) (composed rw (s.reg (pg * 4096 + o)) v) ∧
      s.busWrite who (pg * 4096 + o) v = s.writeBlock who c j pg o w := by
  obtain ⟨hlow, hhigh, halign, hview, hmw, hw1c, hov, hbuf, hrw, hres, hwl, hpos, hlt, hrlt⟩ := hat
  have hsel : (s.writeReq who pg (regAt c j o) v).sel = 0xFFFFFFFF := by simp [State.writeReq, hmw]
  have hcan : (s.writeReq who pg (regAt c j o) v).can = 0xFFFFFFFF := by
    rcases hopen with h0 | ⟨hwho, hlock⟩
    · simp [State.writeReq, hwl, h0]
    · simp [State.writeReq, hwho, hlock]
  have hkept : (v ^^^ s.reg (pg * 4096 + (o - 1024 * (regAt c j o).2))) &&& ((regAt c j o).1.rsvp &&& 0xFFFFFFFF) = 0 := by
    rw [hview, hres, and_all_bits hrlt]
    exact hrsvp
  have hfree : writesWl who = true → s.f pg fLock = 1 → (regAt c j o).1.wl = 0 := fun _ hset =>
    hwl.trans (hopen.resolve_right fun hopen => one_ne_zero (hset.symm.trans hopen.2))
  refine ⟨s.writeReq who pg (regAt c j o) v, hcan, fun old => ?_, ?_, ?_⟩
  · have hbits : (s.writeReq who pg (regAt c j o) v).row.rw &&& (s.writeReq who pg (regAt c j o) v).can = rw := by
      rw [hcan, ← and_all_bits hlt, ← hrw]; rfl
    simp only [WriteReq.compose, hbits]
    rfl
  · rw [State.writePlain, hcan]
    simp [State.writeReq, hov, hw1c, hbuf, hrw, and_all_bits hlt, hpos.ne', composed]
  · rw [State.busWrite_eq h hc hhigh halign, State.writeWord_eq (by rw [hsel]; exact hkept) hfree, if_neg (by omega)]

/-! ### Updates that leave the control pages (R39, R40, R47, R50) -/

/-- u differs from s in what a signal can change, and in no register of the DIR, PWR, SEC and MEM pages. -/
def State.keepsControl (s u : State) : Prop := s.onlySignals u ∧ ∀ a, a / 4096 < 0x40 → u.reg a = s.reg a

theorem State.keepsControl_setReg {a v : Nat} (h : 0x40 ≤ a / 4096) : s.keepsControl (s.setReg a v) :=
  ⟨s.onlySignals_setReg a v, fun _ hb => State.reg_setReg_ne s v fun e => by omega⟩

theorem State.keepsControl_event {b : Nat} (h : 0x40 ≤ pg) : s.keepsControl (s.event pg b) :=
  ⟨s.event_only pg b, fun a ha => s.reg_event pg b a (not_irqSentWord (.inl (by omega))) (by simp only [oEvent]; omega)
    (by simp only [oCount]; omega)⟩

theorem State.keepsControl.f (h : s.keepsControl u) {q : Nat} {x : Fld} (hq : q < 0x40) (hx : x.off < 4096) : u.f q x = s.f q x := by
  rw [State.f, h.2 _ (by omega), State.f]

theorem State.keepsControl.k (h : s.keepsControl u) : u.k = s.k := by
  rw [State.k, State.log2k, h.f (by decide) (by decide), State.k, State.log2k]

theorem State.keepsControl.unitsPer (h : s.keepsControl u) : u.unitsPer = s.unitsPer := by
  rw [State.unitsPer, h.k, State.unitsPer]

theorem State.keepsControl.leads (h : s.keepsControl u) : u.lead (u.unitPart j) = s.lead (s.unitPart j) := by
  simp only [State.lead, State.unitPart, h.unitsPer]

theorem State.keepsControl.power (h : s.keepsControl u) : u.power = s.power := by
  obtain ⟨_, _, _, _, _, _, hu⟩ := h.1
  rw [hu]

theorem State.keepsControl.partHere (h : s.keepsControl u) (p : Nat) : u.partHere p = s.partHere p := by
  have hpart : u.part p = s.part p := by
    obtain ⟨_, _, _, _, _, _, hu⟩ := h.1
    rw [hu]; rfl
  rw [State.partHere, h.k, hpart, State.partHere]

theorem State.keepsControl.pageOwner (h : s.keepsControl u) (q : Nat) : u.pageOwner q = s.pageOwner q := by
  simp only [State.pageOwner, State.corePart, State.coresPer, h.k]

theorem State.keepsControl.recovery (h : s.keepsControl u) : u.f (Pg.sec 1) F.SEC1_RECOVERY = s.f (Pg.sec 1) F.SEC1_RECOVERY :=
  h.f (by decide) (by decide)

theorem State.keepsControl.present (h : s.keepsControl u) (q : Nat) : u.present q = s.present q := by
  simp only [State.present, h.recovery, h.pageOwner, h.k]

theorem State.keepsControl.mgmtRuns (h : s.keepsControl u) : u.mgmtRuns = s.mgmtRuns := by
  have hlock : u.f Pg.dir F.DIR_LOCKSTEP = s.f Pg.dir F.DIR_LOCKSTEP := h.f (by decide) (by decide)
  have hrec : u.recovery = s.recovery := congrArg (· == 1) h.recovery
  have hhalted : u.ctrlHalted 12 = s.ctrlHalted 12 := by
    obtain ⟨_, _, _, _, _, _, hu⟩ := h.1
    rw [hu]; rfl
  simp only [State.mgmtRuns, State.powered, h.power, hrec, hlock, hhalted]

theorem State.keepsControl.reaches (h : s.keepsControl u) : u.reaches who = s.reaches who := by
  cases who <;> simp only [State.reaches, State.i3cLive, State.powered, h.power, h.mgmtRuns]

theorem State.keepsControl.sees (h : s.keepsControl u) : u.sees who pg = s.sees who pg := by
  cases who <;> simp only [State.sees, h.present, h.power, h.partHere, h.pageOwner]

/-- The requester writes pages as before. -/
theorem State.keepsControl.writes (h : s.keepsControl u) (hs : s.writes who pg) : u.writes who pg := by
  have hmay : u.mayWrite who pg = s.mayWrite who pg := by
    cases who <;> simp only [State.mayWrite, h.sees]
  simpa only [State.writes, h.reaches, h.power, h.sees, hmay] using hs

end Sys2Proof.Machine
end

