-- ==== Sys2Proof/Proofs/UnitPages.lean ====
section
/-! SUPPORT. Commands and control registers on the pages of units: planners, cambium units, table engines, the coppice, the canopy and the
host link (R181, R275, R295, R301, R344, R349, R366, R419, R449, R462, R474, R492). -/

namespace Sys2Proof.Machine

variable {s : State} {who : Requester} {pg j o : Nat}

/-! ### Pages and their classes (R45) -/

theorem classOf_plan : ∀ j : Fin 8, classOf (Pg.plan j) = some (.plan, j.val) := by decide
theorem classOf_camb : ∀ unit : Fin 16, classOf (Pg.camb unit) = some (.camb, unit.val) := by decide
theorem classOf_kv : ∀ p : Fin 8, classOf (Pg.kv p) = some (.kv, p.val) := by decide
theorem classOf_host : ∀ (f : Fin 9) (i : Fin 4), classOf (Pg.host f i) = some (.host, 4 * f.val + i.val) := by decide

theorem State.dieOf_lt_two (s : State) (p : Nat) : s.dieOf p < 2 := by
  unfold State.dieOf
  split_ifs <;> decide

theorem classOf_copp {d : Nat} (h : d < 2) : classOf (Pg.copp d) = some (.copp, d) := by
  interval_cases d <;> rfl

/-! ### Planners (R181) -/

theorem State.planFlush_of_writes {j : Fin 8} (h : s.writes who (Pg.plan j)) :
    s.maskedWrite who (Pg.plan j) 0x024 1 1 = s.flushPlans j := by
  have hat : ∀ j : Fin 8, CommandAt .plan j 0x024 1 1 := by decide
  obtain ⟨w, hmasked, -, hw⟩ := State.maskedWrite_command h (classOf_plan j) (hat j)
  rw [hw]
  simp [State.writeBlock, hmasked, bit]

/-! ### Cambium units (R275, R295, R297, R492) -/

theorem State.writeCamb_of_follower {w : WriteReq} (ho : 0x080 ≤ o) (h : s.lead (s.unitPart j) ≠ j) : s.writeCamb j pg o w = s := by
  simp [State.writeCamb, ho, h]

theorem State.writeCamb_abort {w : WriteReq} (h : s.lead (s.unitPart j) = j) (hw : w.masked = 1) :
    s.writeCamb j pg 0x0B0 w = s.abortUpdate (s.unitPart j) := by
  simp [State.writeCamb, h, hw, bit]

theorem State.writeCamb_replay {w : WriteReq} (h : s.lead (s.unitPart j) = j) (hw : w.masked = 1) :
    s.writeCamb j pg 0x0F8 w = s.replayAsk j := by
  simp [State.writeCamb, h, hw, bit]

/-- The registers of the reference norm. -/
theorem State.writeCamb_norm {w : WriteReq} (h : s.lead (s.unitPart j) = j) (ho : o = 0x080 ∨ o = 0x084) :
    s.writeCamb j pg o w = if (s.camb (s.unitPart j)).upd.isSome then s.event pg Ev.CAMB_NORM_WRITE_IGNORED else s.writePlain pg o w := by
  rcases ho with rfl | rfl <;> simp [State.writeCamb, h]

theorem State.maskedWrite_camb {unit : Fin 16} (h : s.writes who (Pg.camb unit)) (ho : o = 0x0B0 ∨ o = 0x0F8) :
    ∃ w : WriteReq, w.masked = 1 ∧ s.maskedWrite who (Pg.camb unit) o 1 1 = s.writeCamb unit (Pg.camb unit) o w := by
  have habort : ∀ unit : Fin 16, CommandAt .camb unit 0x0B0 1 1 := by decide
  have hreplay : ∀ unit : Fin 16, CommandAt .camb unit 0x0F8 1 1 := by decide
  have hat : CommandAt .camb unit o 1 1 := by
    rcases ho with rfl | rfl
    exacts [habort unit, hreplay unit]
  obtain ⟨w, hmasked, -, hw⟩ := State.maskedWrite_command h (classOf_camb unit) hat
  exact ⟨w, hmasked, hw⟩

/-- A write of CAMB_NORM_PREV on the page of a lead unit. -/
theorem State.busWrite_normPrev {unit : Fin 16} (h : s.writes who (Pg.camb unit)) (hlead : s.lead (s.unitPart unit) = unit) (v : Nat) :
    s.busWrite who (Pg.camb unit * 4096 + 0x080) v = if (s.camb (s.unitPart unit)).upd.isSome
      then s.event (Pg.camb unit) Ev.CAMB_NORM_WRITE_IGNORED
      else s.setReg (Pg.camb unit * 4096 + 0x080) (composed 0xFFFFFFFF (s.reg (Pg.camb unit * 4096 + 0x080)) v) := by
  have hat : ∀ unit : Fin 16, PlainAt .camb unit 0x080 0xFFFFFFFF 0 0 := by decide
  obtain ⟨w, -, -, hplain, hw⟩ := State.busWrite_plain h (classOf_camb unit) (hat unit) (v := v) (Nat.and_zero _) (.inl rfl)
  exact hw.trans ((State.writeCamb_norm hlead (.inl rfl)).trans (by rw [hplain]))

/-- A write of PREV_VALID on the page of a lead unit. -/
theorem State.fieldWrite_prevValid {unit : Fin 16} (h : s.writes who (Pg.camb unit)) (hlead : s.lead (s.unitPart unit) = unit) (v : Nat) :
    s.fieldWrite who (Pg.camb unit) F.CAMBL_PREV_VALID v = if (s.camb (s.unitPart unit)).upd.isSome
      then s.event (Pg.camb unit) Ev.CAMB_NORM_WRITE_IGNORED
      else s.setReg (Pg.camb unit * 4096 + 0x084) (composed 1 (s.reg (Pg.camb unit * 4096 + 0x084))
        (putBits (s.reg (Pg.camb unit * 4096 + 0x084)) 0 1 v)) := by
  have hat : ∀ unit : Fin 16, PlainAt .camb unit 0x084 1 0xFFFF00FC 0 := by decide
  have hrsvp : (putBits (s.reg (Pg.camb unit * 4096 + 0x084)) 0 1 v ^^^ s.reg (Pg.camb unit * 4096 + 0x084)) &&& 0xFFFF00FC = 0 :=
    putBits_xor_and fun i _ hi => by rw [show i = 0 by omega]; rfl
  obtain ⟨w, -, -, hplain, hw⟩ := State.busWrite_plain h (classOf_camb unit) (hat unit) hrsvp (.inl rfl)
  exact hw.trans ((State.writeCamb_norm hlead (.inr rfl)).trans (by rw [hplain]))

/-- With no update armed the reference norm and its valid bit are written, each in its own register (R295). -/
theorem State.normWrite_of_idle {unit : Fin 16} (h : s.writes who (Pg.camb unit)) (hlead : s.lead (s.unitPart unit) = unit)
    (hidle : (s.camb (s.unitPart unit)).upd = none) (valid : Bool) (v : Nat) :
    let norm := Pg.camb unit * 4096 + F.CAMBL_NORM_PREV.off
    let flag := Pg.camb unit * 4096 + F.CAMBL_PREV_VALID.off
    s.normWrite who unit valid v = (s.setReg norm (composed 0xFFFFFFFF (s.reg norm) v)).setReg flag
      (composed 1 (s.reg flag) (putBits (s.reg flag) 0 1 (b2n valid))) := by
  intro norm flag
  have hkeeps : s.keepsControl (s.setReg norm (composed 0xFFFFFFFF (s.reg norm) v)) :=
    State.keepsControl_setReg (by simp only [norm, Pg.camb, F.CAMBL_NORM_PREV]; omega)
  have hflag : (s.setReg norm (composed 0xFFFFFFFF (s.reg norm) v)).reg flag = s.reg flag :=
    State.reg_setReg_ne _ _ (by simp only [norm, flag, F.CAMBL_NORM_PREV, F.CAMBL_PREV_VALID]; omega)
  have hfirst : s.busWrite who (Pg.camb unit * 4096 + 0x080) v = s.setReg norm (composed 0xFFFFFFFF (s.reg norm) v) :=
    (State.busWrite_normPrev h hlead v).trans (if_neg (by simp [hidle]))
  rw [State.normWrite, hfirst, State.fieldWrite_prevValid (hkeeps.writes h) (hkeeps.leads.trans hlead), if_neg]
  · exact congrArg (fun x => State.setReg _ flag (composed 1 x (putBits x 0 1 (b2n valid)))) hflag
  · simpa [State.unitPart, hkeeps.unitsPer, State.camb] using hidle

/-- The reference norm and its valid bit then read as they were written. -/
theorem State.normWrite_reads {unit : Fin 16} (h : s.writes who (Pg.camb unit)) (hlead : s.lead (s.unitPart unit) = unit)
    (hidle : (s.camb (s.unitPart unit)).upd = none) (valid : Bool) (v : Word) :
    let u := s.normWrite who unit valid v.toNat
    u.f (Pg.camb unit) F.CAMBL_NORM_PREV = v.toNat ∧ u.f (Pg.camb unit) F.CAMBL_PREV_VALID = (if valid then 1 else 0) ∧
      u.mem = s.mem ∧ u.cambs = s.cambs := by
  intro u
  rw [show u = _ from State.normWrite_of_idle h hlead hidle valid v.toNat]
  refine ⟨?_, ?_, rfl, rfl⟩
  · rw [State.f_setReg_ne _ _ (by simp only [F.CAMBL_NORM_PREV, F.CAMBL_PREV_VALID]; omega),
      State.f_setReg_composed _ _ _ _ (by decide) rfl (by decide) (by decide)]
    exact (bits_zero _ 32).trans (Nat.mod_eq_of_lt v.isLt)
  · rw [State.f_setReg_composed _ _ _ _ (by decide) rfl (by decide) (by decide)]
    exact (bits_putBits_self _ 0 1 _).trans (by cases valid <;> rfl)

/-- While an update is armed both writes raise the flag instead. -/
theorem State.normWrite_of_armed {unit : Fin 16} (h : s.writes who (Pg.camb unit)) (hlead : s.lead (s.unitPart unit) = unit)
    (harmed : (s.camb (s.unitPart unit)).upd ≠ none) (valid : Bool) (v : Nat) :
    s.normWrite who unit valid v =
      (s.event (Pg.camb unit) Ev.CAMB_NORM_WRITE_IGNORED).event (Pg.camb unit) Ev.CAMB_NORM_WRITE_IGNORED := by
  have hkeeps : s.keepsControl (s.event (Pg.camb unit) Ev.CAMB_NORM_WRITE_IGNORED) :=
    State.keepsControl_event (by simp only [Pg.camb]; omega)
  have hsome : (s.camb (s.unitPart unit)).upd.isSome := Option.isSome_iff_ne_none.2 harmed
  rw [State.normWrite, State.busWrite_normPrev h hlead, if_pos hsome,
    State.fieldWrite_prevValid (hkeeps.writes h) (hkeeps.leads.trans hlead), if_pos]
  simpa only [State.unitPart, hkeeps.unitsPer, State.camb, State.event_cambs] using hsome

/-- While an update is armed no block register of the page changes. -/
theorem State.normWrite_keeps {unit : Fin 16} (h : s.writes who (Pg.camb unit)) (hlead : s.lead (s.unitPart unit) = unit)
    (harmed : (s.camb (s.unitPart unit)).upd ≠ none) (valid : Bool) (v : Nat) {x : Fld} (hlow : 0x020 ≤ x.off) (hhigh : x.off < 4096) :
    (s.normWrite who unit valid v).f (Pg.camb unit) x = s.f (Pg.camb unit) x := by
  have hevent : ∀ t : State, (t.event (Pg.camb unit) Ev.CAMB_NORM_WRITE_IGNORED).f (Pg.camb unit) x = t.f (Pg.camb unit) x := fun t =>
    State.f_event (by simp only [Pg.camb]; omega) hhigh (by simp only [oEvent]; omega) (by simp only [oCount]; omega)
  rw [State.normWrite_of_armed h hlead harmed, hevent, hevent]

/-! ### Table engines (R301, R344) -/

theorem State.peekRead_of_writes {p : Fin 8} (h : s.writes who (Pg.kv p)) :
    s.maskedWrite who (Pg.kv p) 0x0C4 1 1 = s.peek p (Pg.kv p) := by
  have hat : ∀ p : Fin 8, CommandAt .kv p 0x0C4 1 1 := by decide
  obtain ⟨w, hmasked, -, hw⟩ := State.maskedWrite_command h (classOf_kv p) (hat p)
  rw [hw]
  simp [State.writeBlock, hmasked, bit]

theorem State.peek_of_busy {p : Nat} (h : s.f pg F.KV_BUSY = 1) : s.peek p pg = s := by
  simp [State.peek, h]

theorem State.peek_of_free {p : Nat} (h : s.f pg F.KV_BUSY = 0) (hq : (s.kv p).queue = []) (hst : (s.part p).st ≠ .stopped) :
    s.peek p pg = s.peekNow p (s.f pg F.KV_TABLE) (s.f pg F.KV_INDEX) := by
  simp [State.peek, h, hq, hst]

theorem State.peek_of_waits {p : Nat} (h : s.f pg F.KV_BUSY = 0) (hw : (s.kv p).queue ≠ [] ∨ (s.part p).st = .stopped) :
    s.peek p pg = (s.modKv p fun k => { k with queue := k.queue ++ [.peek (s.f pg F.KV_TABLE) (s.f pg F.KV_INDEX)] }).setF pg F.KV_BUSY 1 := by
  have hnot : ((s.kv p).queue.isEmpty && (s.part p).st != .stopped) = false := by
    rcases hw with hq | hst
    · simp [hq]
    · simp [hst]
  simp [State.peek, h, hnot]

/-! ### The coppice (R349, R351, R366) -/

/-- The TARGET bits of a request, in its register. -/
theorem State.setReg_coppTarget (s : State) (pg p : Nat) (target : BitVec 2) :
    s.setReg (pg * 4096 + (0x020 + 4 * p)) (composed 0xC (s.reg (pg * 4096 + (0x020 + 4 * p))) (4 * target.toNat + 16)) =
      s.setF pg (F.COPP_TARGET.sh (4 * p)) target.toNat := by
  have htarget : ∀ x, putBits x 2 2 ((4 * target.toNat + 16) / 2 ^ 2) = putBits x 2 2 target.toNat := by
    intro x
    rw [putBits, putBits]
    omega
  refine (State.setReg_composed_field s _ _ _ (lo := 2) (w := 2) (by decide)).trans ?_
  rw [htarget]
  rfl

theorem State.f_setF_coppTarget (s : State) (pg p : Nat) (target : BitVec 2) :
    (s.setF pg (F.COPP_TARGET.sh (4 * p)) target.toNat).f pg (F.COPP_TARGET.sh (4 * p)) = target.toNat := by
  rw [State.f_setF_self _ _ _ _ (by simp only [F.COPP_TARGET, Fld.sh]; decide)]
  exact Nat.mod_eq_of_lt target.isLt

/-- TARGET is stored, and REQ asks for the mode. -/
theorem State.writeMode_of_request {d p : Nat} {w : WriteReq} (target : BitVec 2) (hhas : s.coppHas d p = true)
    (hst : (s.part p).st = .active ∨ (s.part p).st = .stopped) (hmasked : w.masked = 4 * target.toNat + 16) (hsel : w.sel = 0x1C) :
    s.writeMode d pg (0x020 + 4 * p) w.masked w.sel =
      (s.setF pg (F.COPP_TARGET.sh (4 * p)) target.toNat).requestMode p target.toNat := by
  have hreq : bit (4 * target.toNat + 16) 4 = true := by
    have := target.isLt
    simp only [bit, beq_iff_eq]
    omega
  have hplace : (0x020 + 4 * p - 0x020) / 4 = p := by omega
  have hacts : ((s.part p).st == .active || (s.part p).st == .stopped) = true := by simpa using hst
  rw [State.writeMode, hmasked, hsel, hplace, if_neg (by simp [hhas])]
  show (if bit (4 * target.toNat + 16) 4 && ((s.part p).st == .active || (s.part p).st == .stopped) then
    (s.setReg _ (composed 0xC _ _)).requestMode p ((s.setReg _ (composed 0xC _ _)).f _ _) else _) = _
  rw [State.setReg_coppTarget, State.f_setF_coppTarget, hreq, hacts]
  rfl

theorem State.coppModeReq_of_writes {p : Fin 8} (target : BitVec 2) (h : s.writes who (s.coppPage p)) :
    ∃ w : WriteReq, w.masked = 4 * target.toNat + 16 ∧ w.sel = 0x1C ∧
      s.maskedWrite who (s.coppPage p) (0x020 + 4 * p) (4 * target.toNat + 16) 0x1C =
        s.writeMode (s.dieOf p) (s.coppPage p) (0x020 + 4 * p) w.masked w.sel := by
  have hat : ∀ (d : Fin 2) (p : Fin 8) (target : BitVec 2), CommandAt .copp d (0x020 + 4 * p) (4 * target.toNat + 16) 0x1C := by decide
  have hdie := s.dieOf_lt_two p
  obtain ⟨w, hmasked, hsel, hw⟩ := State.maskedWrite_command h (classOf_copp hdie) (hat ⟨_, hdie⟩ p target)
  exact ⟨w, hmasked, hsel, hw.trans (if_pos (by simp only [Bool.and_eq_true, decide_eq_true_eq]; omega))⟩

/-! ### The canopy (R419, R449) -/

/-- A write of CNPY_ADDR that LOCK lets through. -/
theorem State.busWrite_cnpyAddr {v : Nat} (h : s.writesOpen who (Pg.cnpy 9))
    (hrsvp : (v ^^^ s.reg (Pg.cnpy 9 * 4096 + 0x020)) &&& 0xFFF80000 = 0) :
    s.busWrite who (Pg.cnpy 9 * 4096 + 0x020) v =
      (s.setReg (Pg.cnpy 9 * 4096 + 0x020) (composed 0x1FFFF (s.reg (Pg.cnpy 9 * 4096 + 0x020)) v)).restartAddr := by
  have hat : PlainAt .cnpy 9 0x020 0x1FFFF 0xFFF80000 0x1FFFF := by decide
  obtain ⟨w, hcan, hcompose, -, hw⟩ := State.busWrite_plain h.1 (by decide) hat hrsvp (.inr h.2)
  rw [hw]
  simp [State.writeBlock, State.writeFabric, hcan, hcompose]

/-- The commands READ and WRITE of the tables. -/
theorem State.tblCommand_of_writes (h : s.writes who (Pg.cnpy 9)) (write : Bool) :
    s.maskedWrite who (Pg.cnpy 9) 0x044 (1 + b2n write) (1 + b2n write) = s.tblCommand write := by
  have hat : ∀ write : Bool, CommandAt .cnpy 9 0x044 (1 + b2n write) (1 + b2n write) := by decide
  obtain ⟨w, hmasked, -, hw⟩ := State.maskedWrite_command h (by decide) (hat write)
  rw [hw]
  cases write <;> simp [State.writeBlock, State.writeFabric, hmasked, bit, b2n]

/-! ### Queues of the host link (R462, R474) -/

/-- Function, page kind and queue of a queue's control register. -/
theorem queueControl_place (f q : Nat) {i : Nat} (hi : i < 4) : (4 * f + i) / 4 = f ∧ (4 * f + i) % 4 = i ∧
    (0x048 + 16 * q - 0x040) / 16 = q ∧ (0x048 + 16 * q) % 16 = 8 ∧ 0x040 ≤ 0x048 + 16 * q := by
  omega

theorem State.writeHost_sqCtrl {f q : Nat} {w : WriteReq} : s.writeHost (4 * f + 1) pg (0x048 + 16 * q) w =
    s.sqCtrl f q (w.compose (s.reg (pg * 4096 + (0x048 + 16 * q)))) := by
  obtain ⟨hf, hi, hq, ho, hlow⟩ := queueControl_place f q (i := 1) (by decide)
  simp [State.writeHost, hf, hi, hq, ho, hlow]

theorem State.writeHost_cqCtrl {f q : Nat} {w : WriteReq} : s.writeHost (4 * f + 2) pg (0x048 + 16 * q) w =
    s.cqCtrl f q (w.compose (s.reg (pg * 4096 + (0x048 + 16 * q)))) := by
  obtain ⟨hf, hi, hq, ho, hlow⟩ := queueControl_place f q (i := 2) (by decide)
  simp [State.writeHost, hf, hi, hq, ho, hlow]

theorem State.busWrite_sqCtrl {f : Fin 9} {q : Fin 16} {v : Nat} (h : s.writes who (Pg.host f 1))
    (hrsvp : (v ^^^ s.reg (Pg.host f 1 * 4096 + 0x048 + 16 * q)) &&& 0xFFF00000 = 0) :
    s.busWrite who (Pg.host f 1 * 4096 + 0x048 + 16 * q) v =
      s.sqCtrl f q (composed 0xFFFFF (s.reg (Pg.host f 1 * 4096 + 0x048 + 16 * q)) v) := by
  have hat : ∀ (f : Fin 9) (q : Fin 16), PlainAt .host (4 * f + 1) (0x048 + 16 * q) 0xFFFFF 0xFFF00000 0 := by decide
  rw [Nat.add_assoc] at hrsvp ⊢
  obtain ⟨w, -, hcompose, -, hw⟩ := State.busWrite_plain h (classOf_host f 1) (hat f q) hrsvp (.inl rfl)
  rw [hw, ← hcompose]
  exact State.writeHost_sqCtrl

theorem State.busWrite_cqCtrl {f : Fin 9} {q : Fin 16} {v : Nat} (h : s.writes who (Pg.host f 2))
    (hrsvp : (v ^^^ s.reg (Pg.host f 2 * 4096 + 0x048 + 16 * q)) &&& 0xFFFF8000 = 0) :
    s.busWrite who (Pg.host f 2 * 4096 + 0x048 + 16 * q) v =
      s.cqCtrl f q (composed 0x7FFF (s.reg (Pg.host f 2 * 4096 + 0x048 + 16 * q)) v) := by
  have hat : ∀ (f : Fin 9) (q : Fin 16), PlainAt .host (4 * f + 2) (0x048 + 16 * q) 0x7FFF 0xFFFF8000 0 := by decide
  rw [Nat.add_assoc] at hrsvp ⊢
  obtain ⟨w, -, hcompose, -, hw⟩ := State.busWrite_plain h (classOf_host f 2) (hat f q) hrsvp (.inl rfl)
  rw [hw, ← hcompose]
  exact State.writeHost_cqCtrl

/-- A submission queue that a write enables starts empty and without error. -/
theorem State.sqCtrl_of_enabled {f q v : Nat} (hoff : s.sqF f q F.HOST1_EN = 0) (hon : bit v 0 = true) : s.sqCtrl f q v =
    ((s.setReg (Pg.host f 1 * 4096 + 0x048 + 16 * q) v).modSq f q fun x => { x with head := 0, tail := 0 }).setF
      (Pg.host f 1) (F.HOST1_ERROR.sh (16 * q)) 0 := by
  simp [State.sqCtrl, hoff, hon]

theorem State.cqCtrl_of_refused {f q v : Nat} (h : vectors f ≤ bits v 6 8) :
    s.cqCtrl f q v = s.event (Pg.host f 0) Ev.HOST0_QUEUE_REFUSED := by
  simp [State.cqCtrl, h]

/-- A completion queue that a write enables starts empty. -/
theorem State.cqCtrl_of_enabled {f q v : Nat} (hv : bits v 6 8 < vectors f) (hoff : s.cqF f q F.HOST2_EN = 0) (hon : bit v 0 = true) :
    s.cqCtrl f q v =
      (s.setReg (Pg.host f 2 * 4096 + 0x048 + 16 * q) v).modCq f q fun c => { c with head := 0, tail := 0 } := by
  simp [State.cqCtrl, hv, hoff, hon]

/-- An enabled completion queue keeps its size. -/
theorem State.cqCtrl_of_running {f q v : Nat} (hv : bits v 6 8 < vectors f) (hon : s.cqF f q F.HOST2_EN = 1) :
    s.cqCtrl f q v = s.setReg (Pg.host f 2 * 4096 + 0x048 + 16 * q) (putBits v 1 5 (s.cqF f q F.HOST2_LOG2)) := by
  simp [State.cqCtrl, hv, hon]

@[simp] theorem State.sqState_setReg (s : State) (a v f q : Nat) : (s.setReg a v).sqState f q = s.sqState f q := rfl
@[simp] theorem State.sqState_setF (s : State) (pg : Nat) (x : Fld) (v f q : Nat) : (s.setF pg x v).sqState f q = s.sqState f q := rfl

@[simp] theorem State.sqState_modSq_self (s : State) (f q : Nat) (g : SubQueue → SubQueue) :
    (s.modSq f q g).sqState f q = g (s.sqState f q) := by
  simp [State.sqState, State.modSq, State.modFn]

@[simp] theorem State.cqState_modCq_self (s : State) (f q : Nat) (g : CompQueue → CompQueue) :
    (s.modCq f q g).cqState f q = g (s.cqState f q) := by
  simp [State.cqState, State.modCq, State.modFn]

theorem State.sqF_setReg {f q v : Nat} {x : Fld} (hoff : x.off = 0x048) (h32 : x.lo + x.w ≤ 32) :
    (s.setReg (Pg.host f 1 * 4096 + 0x048 + 16 * q) v).sqF f q x = bits v x.lo x.w := by
  rw [Nat.add_assoc]
  exact State.f_setReg_self s (Pg.host f 1) v (x := x.sh (16 * q)) (congrArg (· + 16 * q) hoff) h32

theorem State.cqF_setReg {f q v : Nat} {x : Fld} (hoff : x.off = 0x048) (h32 : x.lo + x.w ≤ 32) :
    (s.setReg (Pg.host f 2 * 4096 + 0x048 + 16 * q) v).cqF f q x = bits v x.lo x.w := by
  rw [Nat.add_assoc]
  exact State.f_setReg_self s (Pg.host f 2) v (x := x.sh (16 * q)) (congrArg (· + 16 * q) hoff) h32

/-- A submission queue that a write enables has the settings written. -/
theorem State.sqF_sqCtrl_of_enabled {f q v : Nat} {x : Fld} (hoff : s.sqF f q F.HOST1_EN = 0) (hon : bit v 0 = true)
    (hx : x.off = 0x048) (h32 : x.lo + x.w ≤ 32) : (s.sqCtrl f q v).sqF f q x = bits v x.lo x.w := by
  rw [State.sqCtrl_of_enabled hoff hon, State.sqF, State.f_setF_ne _ _ _ _ _ _ (by simp only [Fld.sh, hx, F.HOST1_ERROR]; omega)]
  exact State.sqF_setReg hx h32

theorem State.sqError_sqCtrl_of_enabled {f q v : Nat} (hoff : s.sqF f q F.HOST1_EN = 0) (hon : bit v 0 = true) :
    (s.sqCtrl f q v).sqF f q F.HOST1_ERROR = 0 := by
  rw [State.sqCtrl_of_enabled hoff hon]
  exact State.f_setF_self _ _ (F.HOST1_ERROR.sh (16 * q)) 0 (by decide : (0 : Nat) + 1 ≤ 32)

theorem State.sqState_sqCtrl_of_enabled {f q v : Nat} (hoff : s.sqF f q F.HOST1_EN = 0) (hon : bit v 0 = true) :
    (s.sqCtrl f q v).sqState f q = { s.sqState f q with head := 0, tail := 0 } := by
  rw [State.sqCtrl_of_enabled hoff hon, State.sqState_setF, State.sqState_modSq_self, State.sqState_setReg]

/-- What an enabled submission queue starts with (R462). -/
theorem State.sqEnable_starts {f : Fin 9} {q : Fin 16} {v : Nat} (h : s.writes who (Pg.host f 1))
    (hrsvp : (v ^^^ s.reg (Pg.host f 1 * 4096 + 0x048 + 16 * q)) &&& 0xFFF00000 = 0) (hoff : s.sqF f q F.HOST1_EN = 0)
    (hon : v % 2 = 1) :
    let u := s.busWrite who (Pg.host f 1 * 4096 + 0x048 + 16 * q) v
    u.sqF f q F.HOST1_EN = 1 ∧ u.sqF f q F.HOST1_LOG2 = v / 2 % 2 ^ 5 ∧ u.sqF f q F.HOST1_CQ = v / 2 ^ 6 % 2 ^ 4 ∧
      u.sqF f q F.HOST1_ERROR = 0 ∧ (u.sqState f q).head = 0 ∧ (u.sqState f q).tail = 0 ∧ u.mem = s.mem := by
  intro u
  have hen := bit_composed_zero (mask := 0xFFFFF) (by decide) (s.reg (Pg.host f 1 * 4096 + 0x048 + 16 * q)) (by decide) hon
  have hu : u = s.sqCtrl f q _ := State.busWrite_sqCtrl h hrsvp
  have hfield : ∀ x : Fld, x.off = 0x048 → x.lo + x.w ≤ 32 → (∀ i, i < x.w → (0xFFFFF : Nat).testBit (x.lo + i) = true) →
      u.sqF f q x = bits v x.lo x.w := fun x hx h32 hbits => by
    rw [hu, State.sqF_sqCtrl_of_enabled hoff hen hx h32, bits_composed (by decide) _ _ hbits]
  refine ⟨?_, hfield F.HOST1_LOG2 rfl (by decide) (by decide), hfield F.HOST1_CQ rfl (by decide) (by decide), ?_⟩
  · exact (hfield F.HOST1_EN rfl (by decide) (by decide)).trans ((bits_zero v 1).trans hon)
  · rw [hu, State.sqState_sqCtrl_of_enabled hoff hen]
    exact ⟨State.sqError_sqCtrl_of_enabled hoff hen, rfl, rfl, by rw [State.sqCtrl_of_enabled hoff hen]; rfl⟩

theorem vector_composed (old v : Nat) : bits (composed 0x7FFF old v) 6 8 = v / 2 ^ 6 % 2 ^ 8 :=
  bits_composed (by decide) _ _ (by decide)

/-- What an enabled completion queue starts with (R474). -/
theorem State.cqEnable_starts {f : Fin 9} {q : Fin 16} {v : Nat} (h : s.writes who (Pg.host f 2))
    (hrsvp : (v ^^^ s.reg (Pg.host f 2 * 4096 + 0x048 + 16 * q)) &&& 0xFFFF8000 = 0) (hv : v / 2 ^ 6 % 2 ^ 8 < vectors f)
    (hoff : s.cqF f q F.HOST2_EN = 0) (hon : v % 2 = 1) :
    let u := s.busWrite who (Pg.host f 2 * 4096 + 0x048 + 16 * q) v
    u.cqF f q F.HOST2_EN = 1 ∧ u.cqF f q F.HOST2_VECTOR = v / 2 ^ 6 % 2 ^ 8 ∧ (u.cqState f q).head = 0 ∧ (u.cqState f q).tail = 0 := by
  intro u
  have hen := bit_composed_zero (mask := 0x7FFF) (by decide) (s.reg (Pg.host f 2 * 4096 + 0x048 + 16 * q)) (by decide) hon
  rw [show u = _ from (State.busWrite_cqCtrl h hrsvp).trans (State.cqCtrl_of_enabled (vector_composed _ v ▸ hv) hoff hen),
    State.cqState_modCq_self]
  refine ⟨?_, (State.cqF_setReg (x := F.HOST2_VECTOR) rfl (by decide)).trans (vector_composed _ v), rfl, rfl⟩
  exact (State.cqF_setReg (x := F.HOST2_EN) rfl (by decide)).trans ((bits_composed (by decide) _ _ (by decide)).trans
    ((bits_zero v 1).trans hon))

/-- A write of an enabled completion queue's control register sets all but its size (R474). -/
theorem State.cqCtrlWrite_keeps_log2 {f : Fin 9} {q : Fin 16} {v : Nat} (h : s.writes who (Pg.host f 2))
    (hrsvp : (v ^^^ s.reg (Pg.host f 2 * 4096 + 0x048 + 16 * q)) &&& 0xFFFF8000 = 0) (hv : v / 2 ^ 6 % 2 ^ 8 < vectors f)
    (hon : s.cqF f q F.HOST2_EN = 1) :
    let u := s.busWrite who (Pg.host f 2 * 4096 + 0x048 + 16 * q) v
    u.cqF f q F.HOST2_EN = v % 2 ∧ u.cqF f q F.HOST2_VECTOR = v / 2 ^ 6 % 2 ^ 8 ∧
      u.cqF f q F.HOST2_LOG2 = s.cqF f q F.HOST2_LOG2 ∧ u.fns = s.fns := by
  intro u
  rw [show u = _ from (State.busWrite_cqCtrl h hrsvp).trans (State.cqCtrl_of_running (vector_composed _ v ▸ hv) hon)]
  refine ⟨?_, ?_, ?_, rfl⟩
  · exact (State.cqF_setReg (x := F.HOST2_EN) rfl (by decide)).trans ((bits_putBits_apart _ 1 5 _ 0 1 (by decide)).trans
      ((bits_composed (by decide) _ _ (by decide)).trans (bits_zero v 1)))
  · exact (State.cqF_setReg (x := F.HOST2_VECTOR) rfl (by decide)).trans ((bits_putBits_apart _ 1 5 _ 6 8 (by decide)).trans
      (vector_composed _ v))
  · exact (State.cqF_setReg (x := F.HOST2_LOG2) rfl (by decide)).trans ((bits_putBits_self _ 1 5 _).trans
      (Nat.mod_eq_of_lt (bits_lt _ 1 5)))

/-- A VECTOR beyond the table is refused (R474). -/
theorem State.cqCtrlWrite_refused {f : Fin 9} {q : Fin 16} {v : Nat} (h : s.writes who (Pg.host f 2))
    (hrsvp : (v ^^^ s.reg (Pg.host f 2 * 4096 + 0x048 + 16 * q)) &&& 0xFFFF8000 = 0) (hv : vectors f ≤ v / 2 ^ 6 % 2 ^ 8) :
    s.busWrite who (Pg.host f 2 * 4096 + 0x048 + 16 * q) v = s.event (Pg.host f 0) Ev.HOST0_QUEUE_REFUSED :=
  (State.busWrite_cqCtrl h hrsvp).trans (State.cqCtrl_of_refused (vector_composed _ v ▸ hv))

/-! ### The settled statement -/

/-- Settles O58: each command reaches its unit as the write of its register, and what the unit does with it is said above. -/
theorem unitPages : Obligations.UnitPages := by
  intro s who j p unit f q v valid target pg leads a d
  refine ⟨?planner, ?cambium, ?tables, ?coppice, ?address, ?routes, ?submission, ?completion⟩
  case planner => exact fun h => congrArg Host.Outcome.next (State.planFlush_of_writes h)
  case cambium =>
    intro h
    obtain ⟨_, habort, habortWrite⟩ := State.maskedWrite_camb h (.inl rfl)
    obtain ⟨_, hreplay, hreplayWrite⟩ := State.maskedWrite_camb h (.inr rfl)
    refine ⟨fun hlead => ⟨?_, ?_, fun hidle => ?_, fun harmed => ?_⟩, fun hfollow => ⟨?_, ?_⟩⟩
    · exact congrArg Host.Outcome.next (habortWrite.trans (State.writeCamb_abort hlead habort))
    · exact congrArg Host.Outcome.next (hreplayWrite.trans (State.writeCamb_replay hlead hreplay))
    · exact ⟨_, rfl, State.normWrite_reads h hlead hidle valid v⟩
    · exact ⟨_, rfl, State.normWrite_keeps h hlead harmed valid v.toNat (by decide) (by decide),
        State.normWrite_keeps h hlead harmed valid v.toNat (by decide) (by decide)⟩
    · exact congrArg Host.Outcome.next (habortWrite.trans (State.writeCamb_of_follower (by decide) hfollow))
    · exact congrArg Host.Outcome.next (hreplayWrite.trans (State.writeCamb_of_follower (by decide) hfollow))
  case tables =>
    intro h t i
    have hcommand := State.peekRead_of_writes h
    exact ⟨fun hbusy => congrArg Host.Outcome.next (hcommand.trans (State.peek_of_busy hbusy)),
      fun hfree hq hst => congrArg Host.Outcome.next (hcommand.trans (State.peek_of_free hfree hq hst)),
      fun hfree hwaits => congrArg Host.Outcome.next (hcommand.trans (State.peek_of_waits hfree hwaits))⟩
  case coppice =>
    intro h hp hst
    obtain ⟨w, hmasked, hsel, hw⟩ := State.coppModeReq_of_writes (p := p) target h
    exact congrArg Host.Outcome.next (hw.trans (State.writeMode_of_request target (by simp [State.coppHas, hp]) hst hmasked hsel))
  case address =>
    intro h hrsvp
    refine ⟨_, congrArg Host.Outcome.next (State.busWrite_cnpyAddr h hrsvp), ?_, ?_, rfl, rfl⟩
    · exact (s.f_setReg_composed (Pg.cnpy 9) (x := F.CNPY9_ADDR) _ _ (by decide) rfl (by decide) (by decide)).trans (bits_zero _ 16)
    · exact s.f_setReg_composed (Pg.cnpy 9) (x := F.CNPY9_MODE) _ _ (by decide) rfl (by decide) (by decide)
  case routes =>
    exact fun h => ⟨congrArg Host.Outcome.next (State.tblCommand_of_writes h false),
      congrArg Host.Outcome.next (State.tblCommand_of_writes h true)⟩
  case submission => exact fun h hrsvp hoff hon => ⟨_, rfl, State.sqEnable_starts h hrsvp hoff hon⟩
  case completion =>
    exact fun h hrsvp => ⟨fun hv hoff hon => ⟨_, rfl, State.cqEnable_starts h hrsvp hv hoff hon⟩,
      fun hv hon => ⟨_, rfl, State.cqCtrlWrite_keeps_log2 h hrsvp hv hon⟩,
      fun hv => congrArg Host.Outcome.next (State.cqCtrlWrite_refused h hrsvp hv)⟩

end Sys2Proof.Machine
end

