-- ==== Sys2Proof/Proofs/Proofing.lean ====
section
/-! SUPPORT. Proofing: the time rule, the count of a core's tiles, and the end of a proof (R207 to R210). -/

namespace Sys2Proof.Machine

variable {s : State} {c i : Nat}

@[simp] theorem State.modCore_core (s : State) (n : Nat) (g : Core → Core) : (s.modCore n g).core n = g (s.core n) :=
  AMap.getD_put_self ..

/-! ### When a tile is proofed (R207, R208) -/

theorem State.proofTime_of_due (ha : s.active (s.corePart c) = true) (hi : (s.core c).issuedSince = true)
    (ht : (s.core c).lastProof + 20000000 ≤ s.power.time) : s.proofTime c = s.modCore c fun y => { y with proofDue := true } := by
  simp [State.proofTime, ha, hi, ht]

theorem State.proofTime_of_early (ht : s.power.time < (s.core c).lastProof + 20000000) : s.proofTime c = s := by
  simp [State.proofTime, Nat.not_le.2 ht]

/-- The tile that begins next on the core's platen is proofed: the time rule asks for it, or it brings the count to RATE. -/
def State.proofsNext (s : State) (c : Nat) : Prop :=
  (s.core c).proofDue = true ∨ s.f (Pg.core c) F.CORE_RATE ≠ 0 ∧ s.f (Pg.core c) F.CORE_RATE ≤ (s.core c).sinceProof + 1

theorem State.proofCount_of_proofsNext (h : s.proofsNext c) :
    s.proofCount c = (s.modCore c fun x => { x with sinceProof := 0, lastProof := s.power.time, issuedSince := true, proofDue := false },
      some (s.proofNow c)) := by
  unfold State.proofCount
  exact if_pos (by simpa [State.proofsNext] using h)

theorem State.proofCount_of_not_proofsNext (h : ¬ s.proofsNext c) :
    s.proofCount c = (s.modCore c fun x => { x with sinceProof := (s.core c).sinceProof + 1, issuedSince := true }, none) := by
  unfold State.proofCount
  exact if_neg (by simpa [State.proofsNext] using h)

/-! ### A proof that ends (R208 to R210) -/

/-- A search by number stops at the first number that answers. -/
theorem findSome?_range_of_first {α : Type} {f : Nat → Option α} {n k : Nat} {v : α} (hk : k < n) (hv : f k = some v)
    (hfirst : ∀ j < k, f j = none) : (List.range n).findSome? f = some v := by
  obtain ⟨m, rfl⟩ := Nat.exists_eq_add_of_lt hk
  have hbefore : (List.range k).findSome? f = none := by
    simpa [List.findSome?_eq_none_iff] using hfirst
  rw [Nat.add_assoc, List.range_add, List.range_succ_eq_map, List.findSome?_append, hbefore]
  simp [hv]

section
variable {t : Tile} {pr : Proof} {upset : List (Nat × Nat)}
  (hfind : s.tiles.find? (fun t => t.core == c && t.forme == i && t.proof.isSome) = some t) (hpr : t.proof = some pr)
include hfind hpr

theorem State.proofComplete_of_chunksLeft (hlt : t.chunks < ((s.forme i).planOf t).chunkCount (s.forme i)) :
    s.proofComplete c i upset = s := by
  simp only [State.proofComplete, hfind, hpr, hlt, if_true]

/-- A proof that ends counts, its tile is no more proofed, and what the search for a column that does not agree finds is a mismatch. -/
theorem State.proofComplete_of_staged (hle : ((s.forme i).planOf t).chunkCount (s.forme i) ≤ t.chunks) :
    let f := s.forme i
    let p := f.planOf t
    let a := p.tileArea f t.index
    let sm := proofSample pr.num a.2.2.1 a.2.2.2
    let done := (s.modTile c i t.code fun t => { t with proof := none }).incF (Pg.core c) F.CORE_PROOFS
    s.proofComplete c i upset = ((List.range sm.2.2).findSome? (s.proofCheck c t pr upset)).elim done fun r =>
      done.proofMismatch c pr.ring f p (a.1 + sm.1 + p.m * (if f.opcode ≤ 0x03 then (p.area t.index).1 else 0)) r.1 r.2 := by
  intro f p a sm done
  have hstaged : ¬ t.chunks < p.chunkCount f := Nat.not_lt.2 hle
  simp only [State.proofComplete, hfind, hpr]
  rw [if_neg hstaged]
  cases (List.range sm.2.2).findSome? (s.proofCheck c t pr upset) <;> rfl

end

/-! ### The settled statement -/

/-- Settles O34: each command is the state operation of its rule; a proof ends as the search through its sample's columns does. -/
theorem proofing : Obligations.Proofing := by
  intro s c i x
  refine ⟨fun ha hi ht => ?due, fun ht => ?early, fun h => ?proofed, fun hdue hrate => ?spared, fun t pr upset hfind hpr => ?ends⟩
  case due => exact congrArg Host.Outcome.next (State.proofTime_of_due ha hi ht)
  case early => exact congrArg Host.Outcome.next (State.proofTime_of_early ht)
  case proofed =>
    rw [State.proofCount_of_proofsNext h]
    exact ⟨rfl, by simp, by simp⟩
  case spared =>
    have hnot : ¬ s.proofsNext c := by
      rintro (hnow | ⟨hne, -⟩)
      · exact Bool.false_ne_true (hdue.symm.trans hnow)
      · exact hne hrate
    rw [State.proofCount_of_not_proofsNext hnot]
  case ends =>
    intro f p a sm done upsets
    refine ⟨fun hleft => ?_, fun hstaged hagree => ?_, fun hstaged k n v hk hv hfirst => ?_⟩
    · exact congrArg Host.Outcome.next (State.proofComplete_of_chunksLeft hfind hpr hleft)
    · have hnone : (List.range sm.2.2).findSome? (s.proofCheck c t pr upsets) = none := by
        simpa [List.findSome?_eq_none_iff] using hagree
      exact congrArg Host.Outcome.next ((State.proofComplete_of_staged hfind hpr hstaged).trans (by rw [hnone]; rfl))
    · have hsome : (List.range sm.2.2).findSome? (s.proofCheck c t pr upsets) = some (n, v) :=
        findSome?_range_of_first hk hv hfirst
      exact congrArg Host.Outcome.next ((State.proofComplete_of_staged hfind hpr hstaged).trans (by rw [hsome]; rfl))

end Sys2Proof.Machine
end

