-- ==== Sys2Proof/Proofs/GradientBlocks.lean ====
section
/-! SUPPORT. The gradient blocks of an update: their arrival, the grant of a unit's arbiter, and the slot that the last write frees
(R270, R275 to R278, R429). -/

namespace Sys2Proof.Machine

variable {s : State} {unit p : Nat} {b : GradBlock} {u : Update} {e : UpdEntry}

@[simp] theorem State.satF_camb (s : State) (pg : Nat) (f : Fld) (n p : Nat) : (s.satF pg f n).camb p = s.camb p := rfl
@[simp] theorem State.modCamb_camb (s : State) (p : Nat) (g : Camb → Camb) : (s.modCamb p g).camb p = g (s.camb p) :=
  AMap.getD_put_self ..
@[simp] theorem State.showIntake_camb (s : State) (p unit q : Nat) : (s.showIntake p unit).camb q = s.camb q := rfl

/-! ### Arrival (R275 to R277) -/

/-- The armed update takes a block: its table has the block's entry, the block lies in the entry's shard, and the entry still lacks
elements. -/
def Update.takes (u : Update) (b : GradBlock) (e : UpdEntry) : Prop :=
  u.entries[b.entry]? = some e ∧ 64 * b.block < e.elems ∧ e.received < e.elems

theorem State.overrun_of_unarmed (hupd : (s.camb b.part).upd = none) :
    s.overrun b = s.satF (Pg.camb (s.blockUnit b)) F.CAMB_OVERRUN := by
  simp only [State.overrun, State.satF_camb, hupd]

theorem State.overrun_of_armed (hupd : (s.camb b.part).upd = some u) :
    s.overrun b = ((s.satF (Pg.camb (s.blockUnit b)) F.CAMB_OVERRUN).modCamb b.part fun c =>
      { c with upd := some { u with overrun := true } }).event (Pg.camb (s.blockUnit b)) Ev.CAMB_SHARD_OVERRUN := by
  simp only [State.overrun, State.satF_camb, hupd]

theorem State.blockArrives_of_unarmed (hupd : (s.camb b.part).upd = none) : s.blockArrives b = s.overrun b := by
  simp only [State.blockArrives, hupd]

theorem State.blockArrives_of_not_takes (hupd : (s.camb b.part).upd = some u) (hnot : ∀ e, ¬ u.takes b e) :
    s.blockArrives b = s.overrun b := by
  cases hentry : u.entries[b.entry]? with
  | none => simp only [State.blockArrives, hupd, hentry]
  | some e =>
    have hfull : (decide (e.elems ≤ 64 * b.block) || decide (e.elems ≤ e.received)) = true := by
      have hlt : ¬ (64 * b.block < e.elems ∧ e.received < e.elems) := fun h => hnot e ⟨hentry, h⟩
      simp only [Bool.or_eq_true, decide_eq_true_eq]
      omega
    simp only [State.blockArrives, hupd, hentry, hfull, if_true]

/-- A block that the armed update takes counts for its entry and waits in its unit's intake, with the time of its arrival. -/
theorem State.blockArrives_of_takes (hupd : (s.camb b.part).upd = some u) (htakes : u.takes b e) :
    s.blockArrives b = (s.modCamb b.part fun c => { c with
      upd := some { u with entries := u.entries.set b.entry { e with received := e.received + 64 } }
      intake := c.intake ++ [(s.blockUnit b, { b with since := s.power.time })] }).showIntake b.part (s.blockUnit b) := by
  obtain ⟨hentry, hblock, hlacks⟩ := htakes
  simp [State.blockArrives, hupd, hentry, Nat.not_le.2 hblock, Nat.not_le.2 hlacks]

theorem State.blockComes_of_free {i : Nat} (hnext : s.streamNext unit = some (i, b)) (hfree : (s.camb b.part).held unit < 512) :
    s.blockComes unit = State.blockArrives { s with stream := s.stream.eraseIdx i } b := by
  simp only [State.blockComes, hnext, Nat.not_le.2 hfree, if_false]

theorem State.blockComes_of_full {i : Nat} (hnext : s.streamNext unit = some (i, b)) (hfull : 512 ≤ (s.camb b.part).held unit) :
    s.blockComes unit = s := by
  simp only [State.blockComes, hnext, hfull, if_true]

/-! ### The grant of a unit's arbiter (R270, R429) -/

/-- One member alone is drawn, whatever the credits. -/
theorem weightedDraw_singleton (x : Nat × Nat) (credit : AMap Int) : (weightedDraw [x] credit).map Prod.fst = some x.1 := by
  simp [weightedDraw]

/-- One ready class alone is granted, urgent or not. -/
theorem arbitrate_singleton (x : Nat × Nat × Nat × Nat × Nat) (credit : AMap Int) :
    (arbitrate [x] credit).map Prod.fst = some x.1 := by
  by_cases hurgent : x.2.2.2.2 ≤ x.2.2.2.1
  · simp [arbitrate, hurgent]
  · simpa [arbitrate, hurgent] using weightedDraw_singleton (x.1, x.2.2.1) credit

/-- A block whose writes wait for an earlier one leaves its class out of the arbiter's choice: at most a spill is granted. -/
theorem State.cambPick_of_held (hnext : (s.camb (s.unitPart unit)).nextBlock unit = some b) (hheld : s.blockHeld unit b = true) :
    s.cambPick unit ≠ some 0 := by
  simp only [State.cambPick, hnext, hheld, if_true, List.nil_append]
  cases (s.camb (s.unitPart unit)).spills.find? fun x => s.lead (s.unitPart unit) + x.unit == unit with
  | none => simp [arbitrate, weightedDraw]
  | some x => simp [arbitrate_singleton]

/-- With no spill to copy, a block that waits for no other is granted. -/
theorem State.cambPick_of_alone (hnext : (s.camb (s.unitPart unit)).nextBlock unit = some b) (hheld : s.blockHeld unit b = false)
    (hspills : (s.camb (s.unitPart unit)).spills = []) : s.cambPick unit = some 0 := by
  simp only [State.cambPick, hnext, hheld, hspills, List.find?_nil, List.append_nil, Bool.false_eq_true, if_false]
  exact arbitrate_singleton ..

section

variable (hnext : (s.camb (s.unitPart unit)).nextBlock unit = some b) (hupd : (s.camb (s.unitPart unit)).upd = some u)
  (hentry : u.entries[b.entry]? = some e)
include hnext hupd hentry

theorem State.applyNext_of_granted (hpick : s.cambPick unit = some 0) : s.applyNext unit =
    ((s.cambGrant unit 0).applyBlock unit b u e).modCamb (s.unitPart unit) fun c => { c with intake := markApplied unit c.intake } := by
  simp only [State.applyNext, hnext, hupd, hentry, hpick, bne_self_eq_false, Bool.false_eq_true, if_false]

theorem State.applyNext_of_not_granted (hpick : s.cambPick unit ≠ some 0) : s.applyNext unit = s := by
  simp only [State.applyNext, hnext, hupd, hentry, bne_iff_ne.2 hpick, if_true]

end

/-! ### The slot that the last write frees (R278, R291) -/

/-- The state in which place i of the intake of a unit's partition is free. -/
def State.freeSlot (s : State) (unit i : Nat) : State :=
  (s.modCamb (s.unitPart unit) fun c => { c with intake := c.intake.eraseIdx i }).showIntake (s.unitPart unit) unit

theorem State.freeSlot_intake (s : State) (unit i : Nat) :
    ((s.freeSlot unit i).camb (s.unitPart unit)).intake = (s.camb (s.unitPart unit)).intake.eraseIdx i := by
  simp [State.freeSlot]

/-- The slot is free, and the commit begins where it was the last that the update waited for. -/
theorem State.blockWritten_of_found {i : Nat}
    (hfind : (s.camb (s.unitPart unit)).intake.findIdx? (fun x => x.1 == unit && x.2.applied && !s.blockHeld unit x.2) = some i) :
    s.blockWritten unit = if (s.freeSlot unit i).commitReady (s.unitPart unit) then (s.freeSlot unit i).beginCommit (s.unitPart unit)
      else s.freeSlot unit i := by
  simp only [State.blockWritten, hfind]
  rfl

/-! ### The settled statement -/

/-- Settles O35: each command is the operation of its step, and what a block meets (no update, one that does not take it, one that
does) says how it arrives. -/
theorem gradientBlocks : Obligations.GradientBlocks := by
  intro s unit
  refine ⟨fun i b hnext hfree => ?comes, fun i b hnext hfull => ?waits, fun b u e hupd hentry hblock hlacks => ?taken,
    fun b hupd => ?unarmed, fun b u hupd hover => ?overrun, ?applied, ?written⟩
  case comes => exact congrArg Host.Outcome.next (State.blockComes_of_free hnext hfree)
  case waits => exact congrArg Host.Outcome.next (State.blockComes_of_full hnext hfull)
  case taken => simp [State.blockArrives_of_takes hupd ⟨hentry, hblock, hlacks⟩]
  case unarmed => rw [State.blockArrives_of_unarmed hupd, State.overrun_of_unarmed hupd]
  case overrun =>
    have hnot : ∀ e, ¬ u.takes b e := by
      rintro e ⟨hentry, hblock, hlacks⟩
      rcases hover e hentry with h | h <;> omega
    rw [State.blockArrives_of_not_takes hupd hnot, State.overrun_of_armed hupd]
  case applied =>
    intro p b u e hnext hupd hentry
    refine ⟨fun hpick => ?_, fun hpick => ?_, State.cambPick_of_held hnext, State.cambPick_of_alone hnext⟩
    · exact congrArg Host.Outcome.next (State.applyNext_of_granted hnext hupd hentry hpick)
    · exact congrArg Host.Outcome.next (State.applyNext_of_not_granted hnext hupd hentry hpick)
  case written =>
    intro p i hfind
    exact ⟨s.freeSlot_intake unit i, congrArg Host.Outcome.next (State.blockWritten_of_found hfind)⟩

end Sys2Proof.Machine
end

