-- ==== Sys2Proof/Proofs/UpdateEnds.lean ====
section
/-! SUPPORT. The end of an update: the commit that its norm gives, its timeout, and its abort (R275, R291). -/

namespace Sys2Proof.Machine

variable {s : State} {p : Nat} {u : Update}

theorem State.normDone_of_result {c : Coll} {v : Nat} (hresult : s.normResult p = some (c, v)) :
    s.normDone p = (s.endColl c 0).commit p v := by
  simp only [State.normDone, hresult]

section

variable (hupd : (s.camb p).upd = some u)
include hupd

theorem State.updateExpires_of_late (hfull : u.full = false) (hlate : u.since + u.timeout ≤ s.power.time) :
    s.updateExpires p = s.abortUpdate p := by
  simp [State.updateExpires, hupd, hfull, hlate]

theorem State.updateExpires_of_full_or_early (h : u.full = true ∨ s.power.time < u.since + u.timeout) : s.updateExpires p = s := by
  have hnot : (!u.full && decide (u.since + u.timeout ≤ s.power.time)) = false := by
    rcases h with hfull | hearly
    · simp [hfull]
    · simp [Nat.not_le.2 hearly]
  simp only [State.updateExpires, hupd, hnot, Bool.false_eq_true, if_false]

theorem State.abortUpdate_of_committing (hcommit : u.committing = true) : s.abortUpdate p = s := by
  simp only [State.abortUpdate, hupd, hcommit, if_true]

/-- An abort ends the UPDATE forme with the blocks that it had applied, disarms the units and raises the event on the lead page. -/
theorem State.abortUpdate_of_not_committing (hcommit : u.committing = false) : s.abortUpdate p =
    (((s.modForme u.forme fun x => { x with tilesTotal := u.blocks, tilesDone := u.applied }).disarm p).endForme u.forme 0x2D).event
      (s.leadPage p) Ev.CAMB_UPDATE_ABORTED := by
  simp only [State.abortUpdate, hupd, hcommit, Bool.false_eq_true, if_false]
  rfl

end

/-! ### The settled statement -/

/-- Settles O36: the norm's result, the time and the state of the commit say how the update ends. -/
theorem updateEnds : Obligations.UpdateEnds := by
  intro s p
  refine ⟨fun c v hresult => ?commit, fun u hupd hfull hlate => ?late, fun u hupd hgoesOn => ?goesOn, fun u => ?committing, fun u => ?aborted⟩
  case commit => exact congrArg Host.Outcome.next (State.normDone_of_result hresult)
  case late => exact congrArg Host.Outcome.next (State.updateExpires_of_late hupd hfull hlate)
  case goesOn => exact congrArg Host.Outcome.next (State.updateExpires_of_full_or_early hupd hgoesOn)
  case committing => exact State.abortUpdate_of_committing
  case aborted => exact State.abortUpdate_of_not_committing

end Sys2Proof.Machine
end

