-- ==== Sys2Proof/Proofs/TableEngine.lean ====
section
/-! SUPPORT. The table engine: what a change of a partition's tables leaves alone, and the entry that the engine serves next (R301,
R318). -/

namespace Sys2Proof.Machine

/-! ### What a change of a partition's tables leaves alone -/

section

variable (s : State) (p : Nat) (g : Kv → Kv) (q : Nat)

@[simp] theorem State.modKv_kv : (s.modKv p g).kv p = g (s.kv p) := s.kv_setKv_self p _
@[simp] theorem State.modKv_forme (i : Nat) : (s.modKv p g).forme i = s.forme i := rfl
@[simp] theorem State.modKv_part : (s.modKv p g).part q = s.part q := rfl
theorem State.modKv_resolve (c : Option Nat) (a : Nat) (w : Bool) : (s.modKv p g).resolve q c a w = s.resolve q c a w := rfl
theorem State.modKv_damageAt (l : Loc) (n : Nat) : (s.modKv p g).damageAt l n = s.damageAt l n := rfl
theorem State.modKv_bytes (a n : Nat) : (s.modKv p g).bytes a n = s.bytes a n := rfl
theorem State.modKv_hostKeys (a : Nat) : (s.modKv p g).hostKeys q a = s.hostKeys q a := rfl
theorem State.modKv_physKey (a : Nat) : (s.modKv p g).physKey a = s.physKey a := rfl

theorem State.modKv_hostLine (a i : Nat) : (s.modKv p g).hostLine q a i = s.hostLine q a i := by
  simp only [State.hostLine, s.modKv_bytes, s.modKv_hostKeys]

theorem State.modKv_physLine (a : Nat) : (s.modKv p g).physLine a = s.physLine a := by
  simp only [State.physLine, s.modKv_bytes, s.modKv_physKey]

theorem State.modKv_phys (a n : Nat) : (s.modKv p g).phys a n = s.phys a n := by
  unfold State.phys
  rw [s.modKv_bytes, funext (s.modKv_physLine p g)]

theorem State.modKv_locBytes (l : Loc) (n : Nat) : (s.modKv p g).locBytes q l n = s.locBytes q l n := by
  cases l with
  | galley c o => exact s.modKv_bytes p g (galleyKey c o) n
  | phys a i => exact s.modKv_phys p g a n
  | host a i => exact congrArg (fun b => (b.drop (a % 32)).take n) (s.modKv_hostLine p g q a i)
  | remote c o => rfl

theorem State.modKv_load (c : Option Nat) (a n : Nat) : (s.modKv p g).load q c a n = s.load q c a n := by
  simp only [State.load, s.modKv_resolve, s.modKv_damageAt, s.modKv_locBytes]

theorem State.modKv_kvRead (a n : Nat) : (s.modKv p g).kvRead q a n = s.kvRead q a n := by
  simp only [State.kvRead, State.rd?, s.modKv_load]

@[simp] theorem State.modKv_kvCountOf (x : Forme) : (s.modKv p g).kvCountOf q x = s.kvCountOf q x := by
  simp only [State.kvCountOf, s.modKv_kvRead]

@[simp] theorem State.modKv_kvEntry (x : Forme) (n : Nat) : (s.modKv p g).kvEntry q x n = s.kvEntry q x n := by
  simp only [State.kvEntry, s.modKv_kvRead]

end

/-! ### The engine's next entry -/

section

variable {s : State} {p i n : Nat} {b : List Byte}

theorem State.kvArm_kvSeq (s : State) (p m : Nat) : (s.kvArm p).kvSeq p m = s.kvSeq p m := by
  simp only [State.kvSeq, State.kvArm, State.modKv_kv]
  rfl

/-- A forme with entries left stays at the front of the queue. -/
theorem State.kvFront_of_entryLeft (hq : (s.kv p).queue.head? = some (.entries i)) (hcount : s.kvCountOf p (s.forme i) = .ok n)
    (hleft : (s.kv p).served < n) : s.kvFront p = s := by
  obtain ⟨rest, hq⟩ := List.head?_eq_some_iff.1 hq
  simp only [State.kvFront, hq, hcount, Nat.not_le.2 hleft, if_false]

theorem State.kvSettle_of_entryLeft (hq : (s.kv p).queue.head? = some (.entries i)) (hcount : s.kvCountOf p (s.forme i) = .ok n)
    (hleft : (s.kv p).served < n) : s.kvSettle p = s := by
  unfold State.kvSettle
  split
  · rfl
  · exact List.foldl_fixed' (f := fun (t : State) _ => t.kvFront p) (fun _ => State.kvFront_of_entryLeft hq hcount hleft) _

/-- The command whose operation the next entry is acts on it. -/
theorem State.kvServe_of_serves {is : Forme → List Byte → Bool} {act : State → Nat → List Byte → State} (h : s.kvServes p i n b)
    (his : is (s.forme i) b = true) : s.kvServe p is act = act (s.kvArm p) i b := by
  obtain ⟨hactive, hwaits, hq, hcount, hleft, hentry⟩ := h
  have harmed : (s.kvArm p).kvEntry p ((s.kvArm p).forme i) ((s.kvArm p).kv p).served = .ok b := by
    simp only [State.kvArm, State.modKv_kvEntry, State.modKv_forme, State.modKv_kv, hentry]
  obtain ⟨rest, hrest⟩ := List.head?_eq_some_iff.1 hq
  simp only [State.kvServe, State.kvSettle_of_entryLeft hq hcount hleft, hrest, hwaits, hactive, harmed, Bool.not_true, Bool.or_false,
    Bool.false_eq_true, if_false]
  exact if_pos his

theorem kvVariant_of_eq {x : Forme} {op v : Nat} (hop : x.opcode = op) (hv : x.variant % 4 = v) : kvVariant op v x b = true := by
  simp [kvVariant, hop, bits_zero, hv]

theorem kvOp_of_eq {x : Forme} {op v : Nat} (hop : x.opcode = op) (hv : ofBytes (b.take 4) % 4 = v) : kvOp op v x b = true := by
  simp [kvOp, hop, bits_zero, fieldAt, hv]

end

end Sys2Proof.Machine
end

