-- ==== Sys2Proof/Proofs/DecodeRequests.lean ====
section
/-! SUPPORT. The entries of DECODE_REQ (R318 to R323). -/

namespace Sys2Proof.Machine

variable {s : State} {p i n : Nat} {b : List Byte}

section

variable (h : s.kvServes p i n b) (hop : (s.forme i).opcode = 0x18)
include h hop

theorem State.admitNext_of_serves (hv : (s.forme i).variant % 4 = 0) :
    s.admitNext p = (match (s.kvArm p).admitEntry p b with
      | .error (.code c) => if c == kvNoBlocks then (s.kvArm p).event (Pg.kv p) Ev.KV_KV_NO_BLOCKS else s.kvArm p
      | _ => s.kvArm p).kvAnswer p i b ((s.kvArm p).admitEntry p b) :=
  State.kvServe_of_serves h (kvVariant_of_eq hop hv)

theorem State.scheduleNext_of_serves (hv : (s.forme i).variant % 4 = 1) : s.scheduleNext p =
    ((s.kvArm p).batchBoundary p).kvAnswer p i b (((s.kvArm p).batchBoundary p).scheduleEntry p b) :=
  State.kvServe_of_serves h (kvVariant_of_eq hop hv)

/-- ADVANCE waits for the rows in flight of a sequence in the batch, and goes on otherwise. -/
theorem State.advanceNext_of_serves (hv : (s.forme i).variant % 4 = 2) : s.advanceNext p =
    if (s.kvSeq p (ofBytes (b.take 4) % 4096)).st = 1 ∧ (s.kvSeq p (ofBytes (b.take 4) % 4096)).inBatch = true ∧
      (s.kvSeq p (ofBytes (b.take 4) % 4096)).busy ≠ 0
    then (s.kvArm p).modKv p fun k => { k with advWaits := true }
    else (s.kvArm p).kvAnswer p i b ((s.kvArm p).advanceEntry p b) := by
  have hnamed : bits (fieldAt b 0 4) 0 12 = ofBytes (b.take 4) % 4096 := bits_zero _ 12
  rw [State.advanceNext, State.kvServe_of_serves h (kvVariant_of_eq hop hv), State.kvArm_kvSeq, hnamed]
  simp only [Bool.and_eq_true, beq_iff_eq, bne_iff_ne, and_assoc]

end

theorem State.advanceAgain_of_waits (hwaits : (s.kv p).advWaits = true) :
    s.advanceAgain p = (s.modKv p fun k => { k with advWaits := false }).advanceNext p := if_pos hwaits

/-- Settles O37: each operation acts on the entry that the engine serves next; ADVANCE asks first whether rows are in flight. -/
theorem decodeRequests : Obligations.DecodeRequests := by
  intro s p i n b h hop v q t
  have hrelease (hv : v = 3) : s.kvServe p (kvVariant 0x18 3) (fun s i b => s.kvAnswer p i b (s.releaseEntry p b)) =
      t.kvAnswer p i b (t.releaseEntry p b) := State.kvServe_of_serves h (kvVariant_of_eq hop hv)
  have hadvance (hv : v = 2) (hq : ¬ (q.st = 1 ∧ q.inBatch = true ∧ q.busy ≠ 0)) :
      s.advanceNext p = t.kvAnswer p i b (t.advanceEntry p b) :=
    (State.advanceNext_of_serves h hop hv).trans (if_neg hq)
  refine ⟨fun hv => ?admission, fun hv => ?schedule, fun hv hst hin hbusy => ?waits, fun hv hq => ?goesOn, fun hv => ?release,
    fun s' hwaits hs hv hbusy => ?resumes⟩
  case admission => exact congrArg Host.Outcome.next (State.admitNext_of_serves h hop hv)
  case schedule => exact congrArg Host.Outcome.next (State.scheduleNext_of_serves h hop hv)
  case waits => exact congrArg Host.Outcome.next ((State.advanceNext_of_serves h hop hv).trans (if_pos ⟨hst, hin, hbusy⟩))
  case goesOn =>
    refine congrArg Host.Outcome.next (hadvance hv fun ⟨hst, hin, hbusy⟩ => ?_)
    rcases hq with hq | hq | hq
    · exact hq hst
    · exact Bool.false_ne_true (hq.symm.trans hin)
    · exact hbusy hq
  case release => exact congrArg Host.Outcome.next (hrelease hv)
  case resumes =>
    refine congrArg Host.Outcome.next ((State.advanceAgain_of_waits hwaits).trans ?_)
    rw [hs]
    exact hadvance hv fun ⟨_, _, hrows⟩ => hrows hbusy

end Sys2Proof.Machine
end

