-- ==== Sys2Proof/Proofs/Swaps.lean ====
section
/-! SUPPORT. The entries of KV_SWAP, and the end of their copies (R308, R323, R332 to R335). -/

namespace Sys2Proof.Machine

variable {s : State} {p m : Nat} {c : KvCopy}

/-! ### A copy that is done -/

section

variable (hcopy : (s.kv p).copies.find? (fun c => c.seq == m && c.out) = some c)
include hcopy

theorem State.swapOutDone_of_stops {f : AccFault × Nat} (hstop : s.copyStops p (s.kvSeq p m) true = some f) :
    s.swapOutDone p m = s.faultRecord p (kvUnit p) f.2 f.1 := by
  simp only [State.swapOutDone, hcopy, hstop]

theorem State.swapOutDone_of_reads (hreads : s.copyStops p (s.kvSeq p m) true = none) : s.swapOutDone p m =
    State.endCopy ((s.copyJobs p (s.kvSeq p m) true).foldl (fun v j =>
      ((v.copyOne p (s.kvSeq p m) true j.1 j.2).modKv p fun k => k.decRef j.2).modSeq p m fun y =>
        { y with list := y.list.set j.1 (2 ^ 31) }) s) p m c F.KV_PREEMPTED 2 3 := by
  simp only [State.swapOutDone, hcopy, hreads]

end

section

variable (hcopy : (s.kv p).copies.find? (fun c => c.seq == m && !c.out) = some c)
include hcopy

theorem State.swapInDone_of_stops {f : AccFault × Nat} (hstop : s.copyStops p (s.kvSeq p m) false = some f) :
    s.swapInDone p m = s.faultRecord p (kvUnit p) f.2 f.1 := by
  simp only [State.swapInDone, hcopy, hstop]

theorem State.swapInDone_of_reads (hreads : s.copyStops p (s.kvSeq p m) false = none) : s.swapInDone p m =
    State.endCopy ((s.copyJobs p (s.kvSeq p m) false).foldl (fun v j =>
      (v.copyOne p (s.kvSeq p m) false j.1 j.2).modSeq p m fun y => { y with list := y.list.set j.1 j.2 }) s)
        p m c F.KV_RESUMED 3 1 := by
  simp only [State.swapInDone, hcopy, hreads]

end

/-! ### One block's copy -/

theorem State.copyOne_out {q : KvSeq} {j k : Nat} (hpool : s.poolFault (kvAcc p) (s.kvBlock p k) (s.kvS p) false = none) :
    s.copyOne p q true j k =
      (s.storeRec p (kvUnit p) none (q.swap + j * s.kvS p) (s.rdBytes (kvAcc p) (s.kvBlock p k) (s.kvS p))).1 := by
  simp only [State.copyOne, hpool, if_true]

theorem State.copyOne_in {q : KvSeq} {j k : Nat} (harea : s.firstFault (kvAcc p) [(q.swap + j * s.kvS p, s.kvS p)] false = none)
    (hpool : s.poolFault (kvAcc p) (s.kvBlock p k) (s.kvS p) true = none) : s.copyOne p q false j k =
      (s.storeRec p (kvUnit p) none (s.kvBlock p k) (s.rdBytes (kvAcc p) (q.swap + j * s.kvS p) (s.kvS p))).1 := by
  simp only [State.copyOne, harea, hpool, Option.or_none, Bool.false_eq_true, if_false]

/-! ### The end of a copy -/

/-- The tables without the copy of a sequence in one direction. -/
abbrev State.withoutCopy (s : State) (p n : Nat) (c : KvCopy) : State :=
  s.modKv p fun k => { k with copies := k.copies.filter fun d => !(d.seq == n && d.out == c.out) }

theorem State.withoutCopy_kvSeq (s : State) (p n : Nat) (c : KvCopy) (j : Nat) : (s.withoutCopy p n c).kvSeq p j = s.kvSeq p j := by
  simp only [State.kvSeq, State.modKv_kv]
  rfl

theorem State.endCopy_of_cancelled {n kind st : Nat} {counter : Fld} (hcancel : (s.kvSeq p n).cancel = true) :
    s.endCopy p n c counter kind st = ((s.withoutCopy p n c).releaseSeq p n 0x80).kvFinish p c.forme := by
  have hwaiting : ((s.withoutCopy p n c).kvSeq p n).cancel = true := by rw [State.withoutCopy_kvSeq, hcancel]
  simp only [State.endCopy, hwaiting, if_true]

theorem State.endCopy_of_kept {n kind st : Nat} {counter : Fld} (hcancel : (s.kvSeq p n).cancel = false) :
    let v := ((s.withoutCopy p n c).modSeq p n fun q => { q with st := st }).incF (Pg.kv p) counter
    s.endCopy p n c counter kind st = (v.ringWrite p n [v.ringEvent p n kind 0]).kvFinish p c.forme := by
  have hkept : ((s.withoutCopy p n c).kvSeq p n).cancel = false := by rw [State.withoutCopy_kvSeq, hcancel]
  simp only [State.endCopy, hkept, Bool.false_eq_true, if_false]

/-! ### The settled statement -/

/-- Settles O38: the four entries are served by their variant, and a copy that is done is told by its reads and by the release that may
wait for it. -/
theorem swaps : Obligations.Swaps := by
  intro s p
  refine ⟨?entries, fun q c hcopy => ?outs, fun q c hcopy => ?ins, ?blocks, ?cancelled, ?kept⟩
  case entries =>
    intro i n b h hop v t
    have serves {is : Nat} {act : State → Nat → List Byte → State} (hv : v = is) :
        Host.Outcome.next (s.kvServe p (kvVariant 0x19 is) act) = (.next (act t i b) : Out) :=
      congrArg Host.Outcome.next (State.kvServe_of_serves h (kvVariant_of_eq hop hv))
    exact ⟨serves, serves, serves, serves⟩
  case outs =>
    exact ⟨fun f hstop => congrArg Host.Outcome.next (State.swapOutDone_of_stops hcopy hstop),
      fun hreads => congrArg Host.Outcome.next (State.swapOutDone_of_reads hcopy hreads)⟩
  case ins =>
    exact ⟨fun f hstop => congrArg Host.Outcome.next (State.swapInDone_of_stops hcopy hstop),
      fun hreads => congrArg Host.Outcome.next (State.swapInDone_of_reads hcopy hreads)⟩
  case blocks =>
    intro q j b n hn
    subst hn
    exact ⟨State.copyOne_out, State.copyOne_in⟩
  case cancelled => exact fun n c counter kind st => State.endCopy_of_cancelled
  case kept => exact fun n c counter kind st => State.endCopy_of_kept

end Sys2Proof.Machine
end

