-- ==== Sys2Proof/Proofs/PrefixesAndBudgets.lean ====
section
/-! SUPPORT. The entries of PREFIX and BUDGET (R330, R341). -/

namespace Sys2Proof.Machine

variable {s : State} {p i : Nat} {b : List Byte}

/-! ### From an entry's answer to its result -/

theorem State.kvAnswer_of_ok {r : KvRes} {u : State} {w1 w2 w3 : Nat} (hr : r = .ok (u, w1, w2, w3))
    (hgoes : u.hostStops.contains p = false) : s.kvAnswer p i b r = u.kvResult p i 0 w1 w2 w3 := by
  simp only [hr, State.kvAnswer, hgoes, Bool.false_eq_true, if_false]

/-- An entry of BUDGET names no sequence in the result of one that fails. -/
theorem kvNamed_budget {x : Forme} (hop : x.opcode = 0x1B) : kvNamed x b = 0 := by
  simp [kvNamed, hop]

/-- The account that a BUDGET entry names. -/
abbrev budgetOf (b : List Byte) : Nat := ofBytes (b.take 4) / 2 ^ 16 % 2 ^ 16

/-! ### BUDGET -/

theorem State.budgetEntry_of_no_account {op : Nat} (hno : s.kvAccounts ≤ budgetOf b) :
    s.budgetEntry p op b = .error (.code kvAccount) := if_pos hno

section

variable (ha : budgetOf b < s.kvAccounts)
include ha

theorem State.budgetEntry_set : s.budgetEntry p 0 b = .ok (s.modKv p fun k => { k with
    accounts := AMap.put (budgetOf b) { balance := satBalance (sx 32 (fieldAt b 4 4)), rate := fieldAt b 8 4, cap := sx 32 (fieldAt b 12 4)
                                        hard := bit (fieldAt b 16 4) 0 } k.accounts }, 0, 0, 0) := if_neg (Nat.not_le.2 ha)

theorem State.budgetEntry_add : s.budgetEntry p 1 b = .ok (s.modKv p fun k => { k with
    accounts := AMap.put (budgetOf b) { AMap.getD (budgetOf b) {} (s.kv p).accounts with
      balance := satBalance ((AMap.getD (budgetOf b) {} (s.kv p).accounts).balance + sx 32 (fieldAt b 4 4)) } k.accounts }, 0, 0, 0) :=
  if_neg (Nat.not_le.2 ha)

theorem State.budgetEntry_read {u : State}
    (hwrite : s.kvWrite p (fieldAt b 8 8) (AMap.getD (budgetOf b) {} (s.kv p).accounts).bytes = .ok u) :
    s.budgetEntry p 2 b = .ok (u, 0, 0, 0) := by
  have hentry : s.budgetEntry p 2 b = (s.kvWrite p (fieldAt b 8 8) (AMap.getD (budgetOf b) {} (s.kv p).accounts).bytes >>=
      fun u => pure (u, 0, 0, 0)) := if_neg (Nat.not_le.2 ha)
  rw [hentry, hwrite]
  rfl

end

/-! ### The settled statement -/

/-- Settles O39: each operation acts on the entry that the engine serves next, and BUDGET's answer is the entry's result. -/
theorem prefixesAndBudgets : Obligations.PrefixesAndBudgets := by
  intro s p i n b h op a t
  refine ⟨fun hopcode => ?tree, fun hopcode hgoes => ?accounts⟩
  case tree =>
    have serves {o : Nat} {act : State → Nat → List Byte → State} (ho : op = o) :
        Host.Outcome.next (s.kvServe p (kvOp 0x1A o) act) = (.next (act t i b) : Out) :=
      congrArg Host.Outcome.next (State.kvServe_of_serves h (kvOp_of_eq hopcode ho))
    exact ⟨serves, serves, serves, serves⟩
  case accounts =>
    have hnamed : kvNamed (t.forme i) b = 0 := kvNamed_budget hopcode
    have hset (ho : op = 0) : exec (.budgetSet p) s = .next (t.kvAnswer p i b (t.budgetEntry p 0 b)) :=
      congrArg Host.Outcome.next (State.kvServe_of_serves h (kvOp_of_eq hopcode ho))
    have hadd (ho : op = 1) : exec (.budgetAdd p) s = .next (t.kvAnswer p i b (t.budgetEntry p 1 b)) :=
      congrArg Host.Outcome.next (State.kvServe_of_serves h (kvOp_of_eq hopcode ho))
    have hread (ho : op = 2) : exec (.budgetRead p) s = .next (t.kvAnswer p i b (t.budgetEntry p 2 b)) := by
      have hop : bits (fieldAt b 0 4) 0 2 = 2 := (bits_zero _ 2).trans ho
      refine congrArg Host.Outcome.next ((State.kvServe_of_serves h ?_).trans ?_)
      · rw [kvOp_of_eq hopcode ho, Bool.true_or]
      · rw [hop]
    have hfails : t.kvAnswer p i b (.error (.code kvAccount)) = t.kvResult p i kvAccount 0 0 0 := by
      simp only [State.kvAnswer, hnamed]
    refine ⟨fun ho ha => ?_, fun ho ha => ?_, fun ho ha u hwrite hstops => ?_, fun hno => ?_⟩
    · exact (hset ho).trans (congrArg Host.Outcome.next (State.kvAnswer_of_ok (State.budgetEntry_set (s := t) ha) hgoes))
    · exact (hadd ho).trans (congrArg Host.Outcome.next (State.kvAnswer_of_ok (State.budgetEntry_add (s := t) ha) hgoes))
    · exact (hread ho).trans
        (congrArg Host.Outcome.next (State.kvAnswer_of_ok (State.budgetEntry_read (s := t) ha hwrite) (hstops ▸ hgoes)))
    · have hnone (o : Nat) : t.budgetEntry p o b = .error (.code kvAccount) := State.budgetEntry_of_no_account hno
      rw [← hfails]
      exact ⟨fun ho => hnone 0 ▸ hset ho, fun ho => hnone 1 ▸ hadd ho, fun ho => hnone 2 ▸ hread ho⟩

end Sys2Proof.Machine
end

