-- ==== Sys2Proof/Proofs/RefillsAndRingDelays.lean ====
section
/-! SUPPORT. The refill of budgets and the delay of ring interrupts (R301, R338, R340). -/

namespace Sys2Proof.Machine

variable {s : State} {p i n : Nat} {b : List Byte}

/-! ### A refill -/

/-- The state after a refill that the table engine takes at once. -/
def State.refilled (s : State) (p : Nat) : State := ((s.modKv p fun k => { k with queue := [.refill] }).kvPop p).refillAll p

theorem State.refilled_account {a : KvAccount} (ha : AMap.get? n (s.kv p).accounts = some a) :
    AMap.get? n ((s.refilled p).kv p).accounts = some a.refill := by
  simp only [State.refilled, State.refillAll, State.kvPop, State.modKv_kv, AMap.get?_map, ha, Option.map_some]

theorem KvAccount.refill_balance_of_below {a : KvAccount} (h : a.balance < a.cap) :
    a.refill.balance = min a.cap (a.balance + ((a.rate + a.rem) / 1000 : Nat)) := if_pos h

theorem KvAccount.refill_balance_of_full {a : KvAccount} (h : a.cap ≤ a.balance) : a.refill.balance = a.balance :=
  if_neg (Int.not_lt.2 h)

theorem State.part_not_stopped (ha : s.active p = true) : ((s.part p).st == .stopped) = false := by
  simp only [State.active, Bool.and_eq_true, beq_iff_eq] at ha
  obtain ⟨⟨-, hst⟩, -⟩ := ha
  rw [hst]
  rfl

theorem State.refillTick_of_idle (ha : s.active p = true) (ho : (s.part p).overlay = .generate) (hq : (s.kv p).queue = []) :
    s.refillTick p = s.refilled p := by
  have hqueued : (s.modKv p fun k => { k with queue := k.queue ++ [.refill] }) = s.modKv p fun k => { k with queue := [.refill] } := by
    simp only [State.modKv, hq, List.nil_append]
  simp [State.refillTick, ha, ho, hqueued, State.kvSettle, State.part_not_stopped ha, List.range_one, State.kvFront, State.refilled]

/-- A tick behind an entry that the engine is at waits its turn. -/
theorem State.refillTick_of_serves (h : s.kvServes p i n b) (ho : (s.part p).overlay = .generate) :
    s.refillTick p = s.modKv p fun k => { k with queue := k.queue ++ [.refill] } := by
  obtain ⟨hactive, -, hq, hcount, hleft, -⟩ := h
  obtain ⟨rest, hrest⟩ := List.head?_eq_some_iff.1 hq
  have hsettled : (s.modKv p fun k => { k with queue := k.queue ++ [.refill] }).kvSettle p =
      s.modKv p fun k => { k with queue := k.queue ++ [.refill] } :=
    State.kvSettle_of_entryLeft (i := i) (n := n) (by simp [hrest]) (by simpa using hcount) (by simpa using hleft)
  simp [State.refillTick, hactive, ho, hsettled]

theorem State.refillTick_of_other (ho : (s.part p).overlay ≠ .generate) : s.refillTick p = s := by
  simp [State.refillTick, ho]

/-! ### The delay of a vector -/

section

variable {vec : Nat} {r : Nat × Nat} (hr : AMap.get? vec (s.kv p).rings = some r)
include hr

theorem State.ringDelay_of_due (hn : r.1 ≠ 0) (hdue : r.2 + 1000 * max 1 (s.f (Pg.kv p) F.KV_DELAY_US) ≤ s.power.time) :
    s.ringDelay p vec = s.interrupt (p + 1) vec := by
  simp [State.ringDelay, hr, hn, hdue]

theorem State.ringDelay_of_early (h : r.1 = 0 ∨ s.power.time < r.2 + 1000 * max 1 (s.f (Pg.kv p) F.KV_DELAY_US)) :
    s.ringDelay p vec = s := by
  have hnot : (r.1 != 0 && decide (r.2 + 1000 * max 1 (s.f (Pg.kv p) F.KV_DELAY_US) ≤ s.power.time)) = false := by
    rcases h with hnone | hearly
    · simp [hnone]
    · simp [Nat.not_le.2 hearly]
  simp only [State.ringDelay, hr, hnot, Bool.false_eq_true, if_false]

end

/-! ### The settled statement -/

/-- Settles O40: a tick acts at once on an idle engine and waits behind an entry, and a vector is signalled when its delay is over. -/
theorem refillsAndRingDelays : Obligations.RefillsAndRingDelays := by
  intro s p
  refine ⟨fun ha ho hq => ?idle, fun i n b h ho => ?behind, fun ho => ?other, fun vec r hr hn hdue => ?due,
    fun vec r hr hearly => ?early⟩
  case idle =>
    refine ⟨s.refilled p, congrArg Host.Outcome.next (State.refillTick_of_idle ha ho hq), fun n a hget => ?_, rfl, rfl⟩
    exact ⟨a.refill, State.refilled_account hget, rfl, rfl, rfl, rfl, rfl, KvAccount.refill_balance_of_below,
      KvAccount.refill_balance_of_full⟩
  case behind => exact congrArg Host.Outcome.next (State.refillTick_of_serves h ho)
  case other => exact congrArg Host.Outcome.next (State.refillTick_of_other ho)
  case due => exact congrArg Host.Outcome.next (State.ringDelay_of_due hr hn hdue)
  case early => exact congrArg Host.Outcome.next (State.ringDelay_of_early hr hearly)

end Sys2Proof.Machine
end

