-- ==== Sys2Proof/Proofs/SwitchesAndPlans.lean ====
section
/-! SUPPORT. Drains, plan barriers, and the ends of reshard plans (R351 to R353, R357, R358, R361). -/

namespace Sys2Proof.Machine

variable {s : State} {p : Nat}

/-! ### The barrier -/

/-- A barrier that all have met, of a plan that is still in BARRIER. -/
theorem State.barrierDone_of_met {c : Coll}
    (hmet : s.canopy.colls.find? (fun c => c.part == p && c.scalar && c.purpose == 1 && c.result.isSome) = some c)
    (hbarrier : ((s.endColl c 0).sw p).st = 2) :
    s.barrierDone p = ((s.endColl c 0).modSw p fun x => { x with st := 3 }).planPump p := by
  simp only [State.barrierDone, hmet, hbarrier, beq_self_eq_true, if_true]

/-! ### The time limit -/

section

variable {y : ReshardPlan} (hplan : (s.sw p).plan = some y)
include hplan

theorem State.planExpires_of_late (hst : (s.sw p).st = 2 ∨ (s.sw p).st = 3) (hlate : y.since + y.limit ≤ s.power.time) :
    s.planExpires p = s.endPlan p 0x42 := by
  have hends : (((s.sw p).st == 2 || (s.sw p).st == 3) && decide (y.since + y.limit ≤ s.power.time)) = true := by
    simp only [Bool.and_eq_true, Bool.or_eq_true, beq_iff_eq, decide_eq_true_eq]
    exact ⟨hst, hlate⟩
  simp only [State.planExpires, hplan, hends, if_true]

theorem State.planExpires_of_inTime (htime : s.power.time < y.since + y.limit) : s.planExpires p = s := by
  have hgoes : decide (y.since + y.limit ≤ s.power.time) = false := decide_eq_false (Nat.not_le.2 htime)
  simp only [State.planExpires, hplan, hgoes, Bool.and_false, Bool.false_eq_true, if_false]

end

/-! ### The settled statement -/

/-- Settles O41: the drain and the plan are each told by their own test, the barrier by its exchange, and the timeout by the plan's
time limit. -/
theorem switchesAndPlans : Obligations.SwitchesAndPlans := by
  intro s p
  have tested {b : Bool} {u v : State} (hb : b = true) : Host.Outcome.next (if b then u else v) = (.next u : Out) :=
    congrArg Host.Outcome.next (if_pos hb)
  have untested {b : Bool} {u v : State} (hb : b = false) : Host.Outcome.next (if b then u else v) = (.next v : Out) :=
    congrArg Host.Outcome.next (if_neg (Bool.eq_false_iff.1 hb))
  refine ⟨?drains, ?undrained, fun c hmet hbarrier => ?barrier, ?completes, ?incomplete, fun y hplan hst hlate => ?late,
    fun y hplan htime => ?inTime⟩
  case drains => exact tested
  case undrained => exact untested
  case barrier => exact congrArg Host.Outcome.next (State.barrierDone_of_met hmet hbarrier)
  case completes => exact tested
  case incomplete => exact untested
  case late => exact congrArg Host.Outcome.next (State.planExpires_of_late hplan hst hlate)
  case inTime => exact congrArg Host.Outcome.next (State.planExpires_of_inTime hplan htime)

end Sys2Proof.Machine
end

