-- ==== Sys2Proof/Proofs/LinkStates.lean ====
section
/-! SUPPORT. A link's way through its states (R408, R409, R412, R424). -/

namespace Sys2Proof.Machine

variable {s u : State} {l st next ns : Nat}

/-! ### A link moves on -/

/-- u has link l in a state that it has entered now, with the memory and the other links of s. -/
def State.linkEnters (s : State) (l next : Nat) (u : State) : Prop :=
  (u.link l).st = next ∧ (u.link l).since = s.power.time ∧ u.mem = s.mem ∧ ∀ k, k ≠ l → u.link k = s.link k

namespace State.linkEnters

theorem setLinkSt (s : State) (l next : Nat) : s.linkEnters l next (s.setLinkSt l next) := by
  refine ⟨?_, ?_, rfl, fun k hk => ?_⟩
  · rw [State.setLinkSt, State.modLink, State.link_setLink_self]
  · rw [State.setLinkSt, State.modLink, State.link_setLink_self]
  · rw [State.setLinkSt, State.modLink, State.link_setLink, if_neg hk]

/-- What else changes of the link leaves its state. -/
theorem setLink {x : Link} (h : s.linkEnters l next u) (hst : x.st = (u.link l).st) (hsince : x.since = (u.link l).since) :
    s.linkEnters l next (u.setLink l x) := by
  obtain ⟨hn, ht, hm, hk⟩ := h
  refine ⟨?_, ?_, hm, fun k hne => ?_⟩
  · rw [State.link_setLink_self, hst, hn]
  · rw [State.link_setLink_self, hsince, ht]
  · rw [State.link_setLink, if_neg hne, hk k hne]

/-- So does what changes no link and no memory. -/
theorem of_links {v : State} (h : s.linkEnters l next u) (hlinks : v.canopy.links = u.canopy.links) (hmem : v.mem = u.mem) :
    s.linkEnters l next v := by
  have hlink : v.link = u.link := funext fun k => by rw [State.link, hlinks, State.link]
  simpa only [State.linkEnters, hlink, hmem] using h

theorem modLink {g : Link → Link} (h : s.linkEnters l next u) (hst : ∀ x, (g x).st = x.st) (hsince : ∀ x, (g x).since = x.since) :
    s.linkEnters l next (u.modLink l g) :=
  h.setLink (hst _) (hsince _)

theorem putFlits {fl : List Flit} (h : s.linkEnters l next u) : s.linkEnters l next (u.putFlits l fl) :=
  (h.setLink (x := { u.link l with lane := ((u.link l).lane + fl.length) % u.lanes l }) rfl rfl).of_links rfl rfl

theorem transmit {items : List (List Byte × Option Packet)} (h : s.linkEnters l next u) : s.linkEnters l next (u.transmit l items) :=
  putFlits (h.setLink rfl rfl)

end State.linkEnters

section

variable (hmade : s.linkMade l = true)
include hmade

theorem State.linkMove_of_st (hst : (s.link l).st = st) : s.linkMove l st next = s.setLinkSt l next := by
  simp only [State.linkMove, hst, hmade, beq_self_eq_true, Bool.and_self, if_true]

/-- A link that has been long enough in a state with a time limit fails. -/
theorem State.linkExpires_of_late (hst : (s.link l).st = st) (hlate : (s.link l).since + ns ≤ s.power.time) :
    s.linkExpires l st ns = s.linkFail l := by
  simp only [State.linkExpires, hst, hmade, hlate, beq_self_eq_true, Bool.and_self, decide_true, if_true]

end

theorem State.linkMove_of_ne (hst : (s.link l).st ≠ st) : s.linkMove l st next = s := by
  simp only [State.linkMove, beq_false_of_ne hst, Bool.false_and, Bool.false_eq_true, if_false]

theorem State.linkExpires_of_waits (h : (s.link l).st ≠ st ∨ s.power.time < (s.link l).since + ns) : s.linkExpires l st ns = s := by
  have hwaits : ((s.link l).st == st && s.linkMade l && decide ((s.link l).since + ns ≤ s.power.time)) = false := by
    rcases h with hst | hearly
    · rw [beq_false_of_ne hst, Bool.false_and, Bool.false_and]
    · rw [decide_eq_false (Nat.not_le.2 hearly), Bool.and_false]
  simp only [State.linkExpires, hwaits, Bool.false_eq_true, if_false]

/-! ### Retraining -/

/-- A condition of R412 that sends an UP link to RETRAIN, by its number. -/
def State.mustRetrain (s : State) (l : Nat) (why : Fin 4) : Prop :=
  (why = 0 ∧ (8 ≤ (s.link l).nakCount ∨ 8 ≤ (s.link l).nakedCount)) ∨
  (why = 1 ∧ ∃ t, (s.link l).full = some t ∧ t + 100000 ≤ s.power.time) ∨ why = 2 ∨ (why = 3 ∧ 1000 < s.wordsBad l)

/-- The state with a link in RETRAIN, counted and told. -/
def State.retrains (s : State) (l : Nat) : State :=
  ((((s.setLinkSt l 6).modLink l fun y => { y with nakCount := 0, nakedCount := 0, retrained := y.retrained + 1 }).satF (portPage l)
    F.CNPYP_RETRAINS).event (portPage l) Ev.CNPYP_RETRAIN)

theorem State.linkEnters.retrains (s : State) (l : Nat) : s.linkEnters l 6 (s.retrains l) :=
  ((State.linkEnters.setLinkSt s l 6).modLink (g := fun y => { y with nakCount := 0, nakedCount := 0, retrained := y.retrained + 1 })
    (fun _ => rfl) fun _ => rfl).of_links (congrArg Canopy.links (State.event_canopy _ _ _)) (State.event_mem _ _ _)

theorem State.retrain_of_must {why : Fin 4} (hst : (s.link l).st = 5) (hmust : s.mustRetrain l why) :
    s.retrain l why = s.retrains l := by
  rcases hmust with ⟨rfl, hnaks⟩ | ⟨rfl, t, hfull, hlate⟩ | rfl | ⟨rfl, hbad⟩
  · have htest : (decide (8 ≤ (s.link l).nakCount) || decide (8 ≤ (s.link l).nakedCount)) = true := by simpa using hnaks
    simp [State.retrain, hst, htest, State.retrains]
  · simp [State.retrain, hst, hfull, hlate, State.retrains]
  · simp [State.retrain, hst, State.retrains]
  · simp [State.retrain, hst, hbad, State.retrains]

theorem State.retrain_of_ne {why : Fin 4} (hst : (s.link l).st ≠ 5) : s.retrain l why = s := by
  simp [State.retrain, hst]

theorem State.retrain_of_not_must {why : Fin 4} (hnot : ¬ s.mustRetrain l why) : s.retrain l why = s := by
  unfold State.mustRetrain at hnot
  match why with
  | 0 =>
    have htest : (decide (8 ≤ (s.link l).nakCount) || decide (8 ≤ (s.link l).nakedCount)) = false := by simpa using hnot
    simp [State.retrain, htest]
  | 1 =>
    have htest : ((s.link l).full.any fun t => decide (t + 100000 ≤ s.power.time)) = false := by
      rw [Option.any_eq_false]
      simpa using hnot
    simp [State.retrain, htest]
  | 2 => exact absurd (.inr (.inr (.inl rfl))) hnot
  | 3 =>
    have htest : decide (1000 < s.wordsBad l) = false := by simpa using hnot
    simp [State.retrain, htest]

theorem State.sameLinkSt_resend (s : State) (l : Nat) (fl : List Flit) : s.sameLinkSt (s.resend l fl) := by
  unfold State.resend
  split_ifs
  · exact State.sameLinkSt_canopy rfl
  · exact State.sameLinkSt_trans (s.sameLinkSt_putFlits l fl) (State.sameLinkSt_event _ _ _)

theorem State.regained_of_st (hst : (s.link l).st = 6) :
    s.regained l = ((s.setLinkSt l 5).resend l (s.link l).replay).drain l := by
  have hreplay : ((s.setLinkSt l 5).link l).replay = (s.link l).replay := by
    rw [State.setLinkSt, State.modLink, State.link_setLink_self]
  simp only [State.regained, hst, hreplay, bne_self_eq_false, Bool.false_eq_true, if_false]

theorem State.regained_of_ne (hst : (s.link l).st ≠ 6) : s.regained l = s := by
  simp [State.regained, hst]

/-- A link whose flits are resent after a retraining is UP. -/
theorem State.st_resent (s : State) (l : Nat) (fl : List Flit) : ((((s.setLinkSt l 5).resend l fl).drain l).link l).st = 5 := by
  rw [State.sameLinkSt_drain _ l l, State.sameLinkSt_resend _ l fl l]
  exact (State.linkEnters.setLinkSt s l 5).1

/-! ### Signal, lock and hold-off -/

theorem State.detecting_of_made (hmade : s.linkMade l = true)
    (h : (s.link l).st = 1 ∨ ((s.link l).st = 0 ∧ s.f (portPage l) F.CNPYP_EN = 1)) : s.detecting l = true := by
  simpa [State.detecting, hmade] using h

theorem State.not_detecting (h1 : (s.link l).st ≠ 1) (h0 : (s.link l).st ≠ 0 ∨ s.f (portPage l) F.CNPYP_EN ≠ 1) :
    s.detecting l = false := by
  simp only [State.detecting, Bool.and_eq_false_iff, Bool.or_eq_false_iff, beq_eq_false_iff_ne]
  exact .inr ⟨h1, h0⟩

/-- A link in alignment that has locked says HELLO in HANDSHAKE. -/
theorem State.linkEnters.sayHello (s : State) (l : Nat) : s.linkEnters l 4 ((s.setLinkSt l 4).sayHello l) := by
  have h := State.linkEnters.setLinkSt s l 4
  have hst := h.1
  simp only [State.sayHello, hst, beq_self_eq_true, if_true]
  exact h.transmit

/-! ### The settled statement -/

/-- Settles O44: a link in the state that an event names enters the next one, and stays as it is in any other. -/
theorem linkStates : Obligations.LinkStates := by
  intro s l cable dm why hmade x moves expires holds
  have expiry (st ns : Nat) : (x.st = st → x.since + ns ≤ s.power.time →
      Host.Outcome.next (s.linkExpires l st ns) = (.next (s.linkFail l) : Out) ∧ ((s.linkFail l).link l).st = 7) ∧
      (x.st ≠ st ∨ s.power.time < x.since + ns → Host.Outcome.next (s.linkExpires l st ns) = (.next s : Out)) :=
    ⟨fun hst hlate => ⟨congrArg _ (State.linkExpires_of_late hmade hst hlate), s.linkFail_st l⟩,
      fun h => congrArg _ (State.linkExpires_of_waits h)⟩
  refine ⟨⟨fun hst => ?converged, fun hst => ?unconverged⟩, ⟨fun hst => ?locked, fun hst => ?unlocked⟩,
    fun h => ⟨fun hst => ?retrains, fun hst => ?notUp⟩, fun h => ?noCondition, fun h => ?signal, fun h1 h0 => ?noSignal,
    fun hst => ?regained, fun hst => ?notRetraining, expiry 2 _, expiry 3 _, expiry 4 _, expiry 6 _, fun hst hlate => ?heldOff,
    fun h => ?holding⟩
  case converged =>
    exact ⟨_, congrArg Host.Outcome.next (State.linkMove_of_st hmade hst), State.linkEnters.setLinkSt s l 3⟩
  case unconverged => exact congrArg Host.Outcome.next (State.linkMove_of_ne hst)
  case locked => exact ⟨_, congrArg Host.Outcome.next (if_pos (Bool.and_eq_true_iff.2 ⟨beq_iff_eq.2 hst, hmade⟩)), State.linkEnters.sayHello s l⟩
  case unlocked => exact congrArg Host.Outcome.next (if_neg fun h => hst (beq_iff_eq.1 (Bool.and_eq_true_iff.1 h).1))
  case retrains => exact ⟨_, congrArg Host.Outcome.next (State.retrain_of_must hst h), State.linkEnters.retrains s l⟩
  case notUp => exact congrArg Host.Outcome.next (State.retrain_of_ne hst)
  case noCondition => exact congrArg Host.Outcome.next (State.retrain_of_not_must h)
  case signal => exact congrArg Host.Outcome.next (if_pos (State.detecting_of_made hmade h))
  case noSignal => exact congrArg Host.Outcome.next (if_neg (Bool.eq_false_iff.1 (State.not_detecting h1 h0)))
  case regained => exact ⟨congrArg Host.Outcome.next (State.regained_of_st hst), s.st_resent l _⟩
  case notRetraining => exact congrArg Host.Outcome.next (State.regained_of_ne hst)
  case heldOff => exact congrArg Host.Outcome.next (if_pos (Bool.and_eq_true_iff.2 ⟨beq_iff_eq.2 hst, decide_eq_true hlate⟩))
  case holding =>
    refine congrArg Host.Outcome.next (if_neg fun hends => ?_)
    obtain ⟨hst, hlate⟩ := Bool.and_eq_true_iff.1 hends
    exact h.elim (· (beq_iff_eq.1 hst)) (Nat.not_lt.2 (of_decide_eq_true hlate))

end Sys2Proof.Machine
end

