-- ==== Sys2Proof/Proofs/FlitsAndCredits.lean ====
section
/-! SUPPORT. Flits, acknowledgements, credit and HELLO (R411, R412, R416). -/

namespace Sys2Proof.Machine

variable {s : State} {l : Nat}

/-! ### Numbers of flits -/

/-- The distance of a flit's number from another, as a signed word. -/
theorem sx_flit_distance (n : Nat) (num : Word) : sx 32 ((n + 2 ^ 32 - num.toNat) % 2 ^ 32) = (BitVec.ofNat 32 n - num).toInt := by
  rw [← sx_toNat, BitVec.toNat_sub, BitVec.toNat_ofNat]
  have := num.isLt
  congr 1
  omega

/-! ### A flit arrives -/

/-- Counting codewords touches nothing of a link but their list. -/
theorem State.link_countWords (s : State) (l n : Nat) : ∃ b, (s.countWords l n).link l = { s.link l with badWords := b } := by
  unfold State.countWords
  split_ifs
  · exact ⟨_, rfl⟩
  · exact ⟨_, State.link_setLink_self ..⟩

theorem State.link_incF2 (s : State) (pg n m : Nat) (lo hi : Fld) : (s.incF2 pg lo hi n).link m = s.link m := rfl

/-- The state with the codewords of a flit that arrived on an UP link counted. -/
abbrev State.fecCounted (s : State) (l corr unc : Nat) : State :=
  ((s.countWords l unc).satF (portPage l) F.CNPYP_FEC_CORRECTED corr).satF (portPage l) F.CNPYP_FEC_UNCORR unc

/-- The link after the flit that it expected. -/
abbrev Link.takesFlit (x : Link) : Link :=
  { x with rxNum := (x.rxNum + 1) % 2 ^ 32, discarding := false, unacked := x.unacked + 1, nakedCount := 0 }

/-- The link after a damaged flit that it answers with NAK. -/
abbrev Link.naksFlit (x : Link) : Link :=
  { x with discarding := true, nakedNum := x.rxNum, nakedCount := if x.nakedNum = x.rxNum then x.nakedCount + 1 else 1 }

section

variable {num corr unc : Nat} {bytes : List Byte} (hup : (s.link l).st = 5)
include hup

/-- A flit that arrives on an UP link, told by its CRC and its number. -/
theorem State.flit_up : s.flit l num bytes corr unc =
    let x := (s.countWords l unc).link l
    let v := s.fecCounted l corr unc
    if flitWhole bytes = false then
      if (x.discarding && num != x.rxNum) = true then v.satF (portPage l) F.CNPYP_CRC_ERRORS
      else ((v.satF (portPage l) F.CNPYP_CRC_ERRORS).setLink l x.naksFlit).sendLink l (linkPkt 0xD x.rxNum)
    else if num ≠ x.rxNum then v
    else
      let t := (v.setLink l x.takesFlit).incF2 (portPage l) F.CNPYP_FLITS_RX ⟨0x03C, 0, 32⟩
      if 16 ≤ x.unacked + 1 then t.sendAck l else t := by
  have hst : ((s.link l).st == 5) = true := beq_iff_eq.2 hup
  have hcounted : (((s.countWords l unc).link l).st != 5) = false := by
    obtain ⟨b, hb⟩ := s.link_countWords l unc
    rw [hb, hup]
    rfl
  simp only [State.flit, hst, hcounted, Bool.false_eq_true, if_true, if_false, Bool.not_eq_true', bne_iff_ne, ne_eq, beq_iff_eq]

theorem State.flit_of_unexpected (hwhole : flitWhole bytes = true) (hnum : num ≠ ((s.countWords l unc).link l).rxNum) :
    s.flit l num bytes corr unc = s.fecCounted l corr unc := by
  rw [State.flit_up hup, if_neg (Bool.not_eq_false _ ▸ hwhole), if_pos hnum]

theorem State.flit_of_discarded (hdamaged : flitWhole bytes = false) (hdisc : ((s.countWords l unc).link l).discarding = true)
    (hnum : num ≠ ((s.countWords l unc).link l).rxNum) :
    s.flit l num bytes corr unc = (s.fecCounted l corr unc).satF (portPage l) F.CNPYP_CRC_ERRORS := by
  rw [State.flit_up hup, if_pos hdamaged, if_pos (Bool.and_eq_true_iff.2 ⟨hdisc, bne_iff_ne.2 hnum⟩)]

theorem State.flit_of_naked (hdamaged : flitWhole bytes = false)
    (h : ((s.countWords l unc).link l).discarding = false ∨ num = ((s.countWords l unc).link l).rxNum) :
    s.flit l num bytes corr unc =
      (((s.fecCounted l corr unc).satF (portPage l) F.CNPYP_CRC_ERRORS).setLink l ((s.countWords l unc).link l).naksFlit).sendLink l
        (linkPkt 0xD ((s.countWords l unc).link l).rxNum) := by
  rw [State.flit_up hup, if_pos hdamaged, if_neg fun hboth => ?_]
  obtain ⟨hdisc, hnum⟩ := Bool.and_eq_true_iff.1 hboth
  exact h.elim (Bool.eq_false_iff.1 · hdisc) (bne_iff_ne.1 hnum)

/-- The state after the flit expected next, before an acknowledgement. -/
abbrev State.flitTaken (s : State) (l corr unc : Nat) : State :=
  ((s.fecCounted l corr unc).setLink l ((s.countWords l unc).link l).takesFlit).incF2 (portPage l) F.CNPYP_FLITS_RX ⟨0x03C, 0, 32⟩

theorem State.flit_of_expected (hwhole : flitWhole bytes = true) (hnum : num = ((s.countWords l unc).link l).rxNum) :
    s.flit l num bytes corr unc = if 16 ≤ ((s.countWords l unc).link l).unacked + 1 then (s.flitTaken l corr unc).sendAck l
      else s.flitTaken l corr unc := by
  rw [State.flit_up hup, if_neg (Bool.not_eq_false _ ▸ hwhole), if_neg (not_not_intro hnum)]

end

/-! ### ACK, NAK and CREDIT -/

theorem State.sendAck_of_none (hun : (s.link l).unacked = 0) : s.sendAck l = s := by
  simp only [State.sendAck, hun, beq_self_eq_true, Bool.or_true, if_true]

section

variable (hup : (s.link l).st = 5)
include hup

theorem State.sendAck_of_unacked (hun : (s.link l).unacked ≠ 0) : s.sendAck l =
    (s.setLink l { s.link l with unacked := 0 }).sendLink l (linkPkt 0xC (((s.link l).rxNum + 2 ^ 32 - 1) % 2 ^ 32)) := by
  have hacks : ((s.link l).st != 5 || (s.link l).unacked == 0) = false := by
    rw [hup, bne_self_eq_false, Bool.false_or, beq_eq_false_iff_ne]
    exact hun
  simp only [State.sendAck, hacks, Bool.false_eq_true, if_false]

theorem State.sayHello_up : s.sayHello l = s.sendLink l (s.helloBytes l) := by
  have hst : ((s.link l).st == 4) = false := by rw [hup]; rfl
  simp only [State.sayHello, hst, Bool.false_eq_true, if_false]

theorem State.naked_up (num : Word) : s.naked l num.toNat = ((s.setLink l { s.link l with
    nakNum := num.toNat, nakCount := if (s.link l).nakNum = num.toNat then (s.link l).nakCount + 1 else 1 }).satF (portPage l)
      F.CNPYP_REPLAYS).resend l ((s.link l).replay.filter fun f => decide (0 ≤ (BitVec.ofNat 32 f.num - num).toInt)) := by
  have hst : ((s.link l).st != 5) = false := by rw [hup]; rfl
  simp only [State.naked, hst, sx_flit_distance, beq_iff_eq, Bool.false_eq_true, if_false]

end

/-- The sixteenth flit is acknowledged by its number. -/
theorem State.sendAck_flitTaken {corr unc : Nat} {num : Word} (hup : (s.link l).st = 5)
    (hnum : num.toNat = ((s.countWords l unc).link l).rxNum) : (s.flitTaken l corr unc).sendAck l =
      ((s.flitTaken l corr unc).setLink l { ((s.countWords l unc).link l).takesFlit with unacked := 0 }).sendLink l
        (linkPkt 0xC num.toNat) := by
  have hlink : (s.flitTaken l corr unc).link l = ((s.countWords l unc).link l).takesFlit := by
    rw [State.link_incF2, State.link_setLink_self]
  have hst : ((s.flitTaken l corr unc).link l).st = 5 := by
    obtain ⟨b, hb⟩ := s.link_countWords l unc
    rw [hlink, hb]
    exact hup
  have hnumber : (((s.countWords l unc).link l).takesFlit.rxNum + 2 ^ 32 - 1) % 2 ^ 32 = num.toNat := by
    have := num.isLt
    simp only [← hnum]
    omega
  rw [State.sendAck_of_unacked hst (hlink ▸ Nat.succ_ne_zero _), hlink, hnumber]

section

variable (hcarries : (s.link l).st = 5 ∨ (s.link l).st = 6)
include hcarries

theorem State.not_carries_eq_false : ((s.link l).st != 5 && (s.link l).st != 6) = false := by
  rcases hcarries with h | h <;> rw [h] <;> rfl

theorem State.acked_of_carries (num : Word) : s.acked l num.toNat = (s.setLink l { s.withReplay l (s.link l)
    ((s.link l).replay.filter fun f => decide (0 < (BitVec.ofNat 32 f.num - num).toInt)) with nakCount := 0 }).drain l := by
  simp only [State.acked, State.not_carries_eq_false hcarries, sx_flit_distance, Bool.false_eq_true, if_false]

theorem State.credited_shared (c lev n : Nat) : s.credited l c lev false n = (s.setLink l { s.link l with
    sharedUsed := (s.link l).sharedUsed - n
    clsUsed := AMap.put c (AMap.getD c 0 (s.link l).clsUsed - n) (s.link l).clsUsed }).drain l := by
  simp only [State.credited, State.not_carries_eq_false hcarries, Bool.false_eq_true, if_false]

theorem State.credited_reserved (c lev n : Nat) : s.credited l c lev true n = (s.setLink l { s.link l with
    resUsed := AMap.put (16 * c + lev) (AMap.getD (16 * c + lev) 0 (s.link l).resUsed - n) (s.link l).resUsed }).drain l := by
  simp only [State.credited, State.not_carries_eq_false hcarries, Bool.false_eq_true, if_false, if_true]

end

/-! ### HELLO -/

theorem State.sameLinkSt_recompute (s : State) : s.sameLinkSt s.recompute := s.sameLinkSt_recomputeFrom _

/-- A link whose ends agree is UP. -/
theorem State.linkUp_st (s : State) (l : Nat) (h : Hello) : ((s.linkUp l h).link l).st = 5 := by
  unfold State.linkUp
  extract_lets x t _ v
  have ht : (t.link l).st = 5 := (State.sameLinkSt_event _ _ _ l).trans (by rw [State.link_setLink_self])
  have hv : t.sameLinkSt v := by
    unfold v
    split_ifs
    · exact State.sameLinkSt_trans (State.sameLinkSt_canopy rfl) (State.sameLinkSt_sendOn _ _ _)
    · exact State.sameLinkSt_canopy rfl
  exact (State.sameLinkSt_advertiseOn _ l l).trans ((State.sameLinkSt_recompute _ l).trans ((hv l).trans ht))

/-- What a HELLO in HANDSHAKE leaves, after the link itself. -/
abbrev State.afterHello (v : State) (h : Hello) : State := if h.valid then v.checkConflict h.addr.toNat h.uid.toNat else v

/-- The ends of a link agree on its split and its lanes. -/
abbrev State.agrees (s : State) (l : Nat) (h : Hello) : Prop := h.split.toNat = s.split (l / 4) ∧ h.lanes.toNat = s.lanes l

section

variable {h : Hello} (hst : (s.link l).st = 4) (hmade : s.linkMade l = true)
include hst hmade

theorem State.hello_of_agrees (ha : s.agrees l h) : s.hello l h = (s.linkUp l h).afterHello h := by
  simp [State.hello, hst, hmade, ha.1, ha.2]

theorem State.hello_of_differs (ha : ¬ s.agrees l h) : s.hello l h = (s.linkFail l).afterHello h := by
  have hnot : (h.split.toNat == s.split (l / 4) && h.lanes.toNat == s.lanes l) = false := by
    rw [Bool.eq_false_iff]
    simpa only [ne_eq, Bool.and_eq_true, beq_iff_eq] using ha
  simp only [State.hello, hst, hmade, hnot, beq_self_eq_true, Bool.and_self, Bool.false_eq_true, if_true, if_false]

end

/-! ### The settled statement -/

/-- Settles O45: what the CRC and the number say of a flit, and the state of the link of the rest. -/
theorem flitsAndCredits : Obligations.FlitsAndCredits := by
  intro s l num bytes c lev n h cw uw x pg s0 x0 fec y taken damaged
  obtain ⟨b, hx0⟩ : ∃ b, x0 = { x with badWords := b } := s.link_countWords l uw.toNat
  have hrx : x0.rxNum = x.rxNum := by rw [hx0]
  have hdisc : x0.discarding = x.discarding := by rw [hx0]
  have hunacked : x0.unacked = x.unacked := by rw [hx0]
  have hy : x0.takesFlit = y := by
    rw [Link.takesFlit, hrx, hunacked]
  have htaken : s.flitTaken l cw.toNat uw.toNat = taken :=
    congrArg (fun z => (fec.setLink l z).incF2 pg F.CNPYP_FLITS_RX ⟨0x03C, 0, 32⟩) hy
  have hnaks : x0.naksFlit = { x0 with
      discarding := true, nakedNum := x.rxNum, nakedCount := if x.nakedNum = x.rxNum then x.nakedCount + 1 else 1 } := by
    rw [Link.naksFlit, hx0]
  refine ⟨fun hup => ⟨fun hw hn => ?taken, fun hw hn => ?unexpected, fun hd hdis hn => ?discarded, fun hd hnak => ?naked, fun hun => ?acks,
    fun hun => ?acked, ?hello, ?resends⟩, fun hc => ⟨?frees, ?shared, ?reserved⟩,
    fun hst hmade => ⟨fun ha => ⟨?up, ?isUp⟩, fun ha => ⟨?fails, ?isFailed⟩⟩⟩
  case taken =>
    refine congrArg Host.Outcome.next ((State.flit_of_expected hup hw (hn.trans hrx.symm)).trans ?_)
    rw [State.sendAck_flitTaken hup (hn.trans hrx.symm), htaken, ← hunacked, ← hy]
  case unexpected => exact congrArg Host.Outcome.next (State.flit_of_unexpected hup hw (hrx ▸ hn))
  case discarded => exact congrArg Host.Outcome.next (State.flit_of_discarded hup hd (hdisc ▸ hdis) (hrx ▸ hn))
  case naked =>
    refine congrArg Host.Outcome.next ((State.flit_of_naked hup hd (hdisc ▸ hrx ▸ hnak)).trans ?_)
    rw [← hnaks, ← hrx]
  case acks => exact congrArg Host.Outcome.next (State.sendAck_of_unacked hup hun)
  case acked => exact congrArg Host.Outcome.next (State.sendAck_of_none hun)
  case hello => exact congrArg Host.Outcome.next ((if_pos (beq_iff_eq.2 hup)).trans (State.sayHello_up hup))
  case resends => exact congrArg Host.Outcome.next (State.naked_up hup num)
  case frees => exact congrArg Host.Outcome.next (State.acked_of_carries hc num)
  case shared => exact congrArg Host.Outcome.next (State.credited_shared hc ..)
  case reserved => exact congrArg Host.Outcome.next (State.credited_reserved hc ..)
  case up => exact congrArg Host.Outcome.next (State.hello_of_agrees hst hmade ha)
  case isUp => exact s.linkUp_st l h
  case fails => exact congrArg Host.Outcome.next (State.hello_of_differs hst hmade ha)
  case isFailed => exact s.linkFail_st l

end Sys2Proof.Machine
end

