-- ==== Sys2Proof/Proofs/StepRunsFrontCommand.lean ====
section
/-! SUPPORT. A step with a command in the queue. -/

namespace Sys2Proof.Machine

/-- Settles O1: the queue that the step looks at is known. -/
theorem stepRunsFrontCommand : Obligations.StepRunsFrontCommand := by
  intro c rest s h
  rw [step, h]

end Sys2Proof.Machine
end

