-- ==== Sys2Proof/Proofs/PacketsArrive.lean ====
section
/-! SUPPORT. Packets that arrive: whom they are for, and what requests, responses and collective packets for the device do (R418, R422,
R426 to R428, R436 to R440). -/

namespace Sys2Proof.Machine

variable {s : State} {l : Fin 36} {p : Packet} {kind : BitVec 4} {g : State → State}

/-! ### Whom a packet is for -/

section

variable (hkind : p.kind = kind)
include hkind

theorem State.receive_looped (hloop : s.canopy.loop.contains p = true) :
    s.receive none p kind g = g { s with canopy := { s.canopy with loop := s.canopy.loop.erase p } } := by
  simp only [State.receive, hkind, hloop, bne_self_eq_false, Bool.false_eq_true, if_true, if_false]

theorem State.receive_notUp (hst : (s.link l).st ≠ 5) : s.receive (some l) p kind g = s := by
  simp only [State.receive, hkind, bne_iff_ne.2 hst, bne_self_eq_false, Bool.false_eq_true, if_true, if_false]

section

variable (hup : (s.link l).st = 5)
include hup

theorem State.receive_own (ha : s.ownAddr = some p.dst.toNat) :
    s.receive (some l) p kind g = (g s).giveCredit l p p.level p.pool := by
  simp only [State.receive, hkind, hup, ha, bne_self_eq_false, beq_self_eq_true, Bool.false_eq_true, if_true, if_false]

theorem State.receive_other {a : Nat} (ha : s.ownAddr = some a) (hne : a ≠ p.dst.toNat) :
    s.receive (some l) p kind g = s.forward l p := by
  simp only [State.receive, hkind, hup, ha, beq_false_of_ne hne.symm, bne_self_eq_false, Bool.false_eq_true, if_false]

/-- Without an address the device serves nothing, and refuses requests. -/
theorem State.receive_without_address (ha : s.ownAddr = none) : s.receive (some l) p kind g =
    (if kind = 1 ∨ kind = 2 then s.ctxRefused else s).giveCredit l p p.level p.pool := by
  simp only [State.receive, hkind, hup, ha, bne_self_eq_false, Bool.false_eq_true, if_false, Bool.or_eq_true, beq_iff_eq]

end

end

/-! ### A packet for another device -/

theorem State.forward_of_hopLimit (hlevel : p.level = 15) : s.forward l p =
    ((s.satF (portPage l) F.CNPYP_HOP_LIMIT).event (portPage l) Ev.CNPYP_HOP_LIMIT).giveCredit l p p.level p.pool :=
  if_pos (beq_iff_eq.2 hlevel)

section

variable (hlevel : p.level ≠ 15)
include hlevel

theorem State.forward_of_route {k : Nat} (hroute : s.routeLink p.dst.toNat p.cls.toNat = some k) : s.forward l p =
    s.sendFrom k { pkt := { p with level := p.level + 1 }, since := s.power.time, src := some (l.val, p.level, p.pool) } := by
  simp only [State.forward, beq_false_of_ne hlevel, hroute, Bool.false_eq_true, if_false]

theorem State.forward_of_no_route (hroute : s.routeLink p.dst.toNat p.cls.toNat = none) : s.forward l p =
    ((s.satF (portPage l) F.CNPYP_UNROUTABLE).event (portPage l) Ev.CNPYP_UNROUTABLE).giveCredit l p p.level p.pool := by
  simp only [State.forward, beq_false_of_ne hlevel, hroute, Bool.false_eq_true, if_false]
  rfl

end

/-! ### Requests for this device -/

section

variable (hno : s.accepts p = none)
include hno

theorem State.readRequest_of_refused (e : ReadErrors) : s.readRequest p e = s.ctxRefused.answer p 1 [] := by
  simp only [State.readRequest, hno]

theorem State.writeRequest_of_refused : s.writeRequest p = s.ctxRefused.answer p 1 [] := by
  simp only [State.writeRequest, hno]

theorem State.response_of_refused (write : Bool) : s.response p write = s.ctxRefused := by
  simp only [State.response, hno]

theorem State.collArrives_of_refused : s.collArrives p = s.ctxRefused := by
  simp only [State.collArrives, hno]

end

section

variable {k q : Nat} (hacc : s.accepts p = some (k, q))
include hacc

theorem State.collArrives_of_accepted : s.collArrives p = (s.collSweep.collPacket k p).collSweep := by
  simp only [State.collArrives, hacc]

theorem State.writeRequest_of_dup (hdup : s.isDup k p.seq.toNat = true) :
    s.writeRequest p = (s.satF (Pg.cnpy 9) F.CNPY9_DUP_DROPPED).answer p 0 [] := by
  simp only [State.writeRequest, hacc, hdup, if_true]

/-- A read's response brings its bytes to whoever asked. -/
theorem State.response_of_read {r : RemoteReq} (hstatus : p.status = 0) (hreq : s.canopy.reqs.find?
      (fun r => r.ctx == k && r.seq == p.seq.toNat && r.write == false && r.sent && !r.lost) = some r) :
    s.response p false = (s.retire r).readCame r ((p.data.drop (r.off % 32)).take r.n) := by
  have hok : p.status.toNat = 0 := by rw [hstatus]; rfl
  simp only [State.response, hacc, hreq, hok, Bool.false_eq_true, if_false]

section

variable (hnew : s.isDup k p.seq.toNat = false)
include hnew

theorem State.readRequest_of_load {e : ReadErrors} {b : List Byte} (hload : s.load q none (pktOff p) (32 * p.lines.toNat) = .ok b)
    (hclean : e.uncorrectable = none) : s.readRequest p e =
      (((s.correctedFor q e.corrected).linksFor q e.links).remember k p.seq.toNat).answer p 0 b := by
  simp only [State.readRequest, hacc, hnew, hload, hclean, Bool.false_eq_true, if_false]

theorem State.readRequest_of_fault {e : ReadErrors} {f : AccFault} {a : Nat}
    (hload : s.load q none (pktOff p) (32 * p.lines.toNat) = .error (f, a)) :
    s.readRequest p e = (s.faultRecord q k a f).answer p f.rsp [] := by
  simp only [State.readRequest, hacc, hnew, hload, Bool.false_eq_true, if_false]

/-- A write outside a plan whose pages are not held is stored. -/
theorem State.writeRequest_of_store {u : State} (hplan : p.w6 = 0)
    (hfree : ((pieces (pktOff p) p.data.length).all fun y => !s.writeHeld q (y.1 / page2M)) = true)
    (hstore : s.store q none (pktOff p) p.data (.unit peerUnit) = (u, none)) :
    s.writeRequest p = (u.remember k p.seq.toNat).answer p 0 [] := by
  have hheld : (((pieces (pktOff p) p.data.length).map fun x => x.1 / page2M).eraseDups.any fun i => s.writeHeld q i) = false := by
    simp only [List.any_eq_false, List.mem_eraseDups, List.mem_map]
    rintro _ ⟨y, hy, rfl⟩
    simpa using List.all_eq_true.1 hfree y hy
  have hzero : p.w6.toNat = 0 := by rw [hplan]; rfl
  simp only [State.writeRequest, hacc, hnew, hheld, hzero, hstore, bne_self_eq_false, Bool.false_and, Bool.false_eq_true, if_false]

end

end

/-! ### The packets of a kind -/

/-- What the packet `p` does as it arrives on link l or from the device itself, by `i`, where `g` is its service for this device. -/
def State.deliversBy (s : State) (l : Fin 36) (p : Packet) (kind : BitVec 4) (i : Option (Fin 36) → Out) (g : State → State) : Prop :=
  ((s.link l).st = 5 → s.ownAddr = some p.dst.toNat → i (some l) = .next ((g s).giveCredit l p p.level p.pool)) ∧
  (s.canopy.loop.contains p = true → i none = .next (g { s with canopy := { s.canopy with loop := s.canopy.loop.erase p } })) ∧
  ((s.link l).st = 5 → ∀ a, s.ownAddr = some a → a ≠ p.dst.toNat → p.level ≠ 15 →
    (∀ k, s.routeLink p.dst.toNat p.cls.toNat = some k → i (some l) = .next (s.sendFrom k
      { pkt := { p with level := p.level + 1 }, since := s.power.time, src := some (l.val, p.level, p.pool) })) ∧
    (s.routeLink p.dst.toNat p.cls.toNat = none → i (some l) =
      .next (((s.satF (portPage l) F.CNPYP_UNROUTABLE).event (portPage l) Ev.CNPYP_UNROUTABLE).giveCredit l p p.level p.pool))) ∧
  ((s.link l).st = 5 → ∀ a, s.ownAddr = some a → a ≠ p.dst.toNat → p.level = 15 → i (some l) =
    .next (((s.satF (portPage l) F.CNPYP_HOP_LIMIT).event (portPage l) Ev.CNPYP_HOP_LIMIT).giveCredit l p p.level p.pool)) ∧
  ((s.link l).st = 5 → s.ownAddr = none → i (some l) =
    .next ((if kind = 1 ∨ kind = 2 then s.ctxRefused else s).giveCredit l p p.level p.pool)) ∧
  ((s.link l).st ≠ 5 → i (some l) = .next s)

theorem State.deliversBy_receive (hkind : p.kind = kind) :
    s.deliversBy l p kind (fun k => .next (s.receive k p kind g)) g := by
  refine ⟨fun hup ha => ?own, fun hloop => ?looped, fun hup a ha hne hlevel => ⟨fun k hk => ?routed, fun hno => ?unrouted⟩,
    fun hup a ha hne hlevel => ?hopLimit, fun hup ha => ?noAddress, fun hst => ?notUp⟩
  case own => exact congrArg _ (State.receive_own hkind hup ha)
  case looped => exact congrArg _ (State.receive_looped hkind hloop)
  case routed => exact congrArg _ ((State.receive_other hkind hup ha hne).trans (State.forward_of_route hlevel hk))
  case unrouted => exact congrArg _ ((State.receive_other hkind hup ha hne).trans (State.forward_of_no_route hlevel hno))
  case hopLimit => exact congrArg _ ((State.receive_other hkind hup ha hne).trans (State.forward_of_hopLimit hlevel))
  case noAddress => exact congrArg _ (State.receive_without_address hkind hup ha)
  case notUp => exact congrArg _ (State.receive_notUp hkind hst)

/-- A write with a context, or not of firmware's class, is a request to a partition. -/
theorem State.writeArrives_eq (hfw : ¬ (p.dstCtx = 0 ∧ p.cls = 5)) (src : Option (Fin 36)) :
    (fun s : State => s.writeArrives src p) = fun s => s.writeRequest p := by
  have hnot : ¬ (p.dstCtx == 0 && p.cls == 5) = true := by simpa using hfw
  exact funext fun _ => if_neg hnot

theorem State.writeAnswered_eq (hctx : p.dstCtx ≠ 0) :
    (fun s : State => s.writeAnswered p) = fun s => s.response p true :=
  funext fun _ => if_neg (mt beq_iff_eq.1 hctx)

/-! ### The settled statement -/

/-- Settles O46: the kind of a packet names its service, the device's address whether it acts, and the context what it does. -/
theorem packetsArrive : Obligations.PacketsArrive := by
  intro s l p e
  refine ⟨fun hkind => ?read, fun hkind => ?readAnswer, fun hkind => ?data, fun hkind => ?grant, fun hkind => ?ctrl,
    fun hfw hkind => ?write, fun hctx hkind => ?writeAnswer, fun hno => ?refused, fun k q b hacc hnew hload hclean => ?reads,
    fun k q a f hacc hnew hload => ?faults, fun k q u hacc hnew hplan hfree hstore => ?stores, fun k q hacc hdup => ?dup,
    fun k q r hacc hstatus hreq => ?comes, fun k q hacc => ?collective⟩
  case read => exact State.deliversBy_receive (g := fun s => s.readRequest p e) hkind
  case readAnswer => exact State.deliversBy_receive (g := fun s => s.response p false) hkind
  case data => exact State.deliversBy_receive (g := fun s => s.collArrives p) hkind
  case grant => exact State.deliversBy_receive (g := fun s => s.collArrives p) hkind
  case ctrl => exact State.deliversBy_receive (g := fun s => s.collArrives p) hkind
  case write =>
    have harm : (fun k => exec (.writeReq k p) s) = fun k => .next (s.receive k p 2 fun s => s.writeRequest p) :=
      funext fun k => congrArg (fun g => Host.Outcome.next (s.receive k p 2 g)) (State.writeArrives_eq hfw k)
    have h := State.deliversBy_receive (s := s) (l := l) (g := fun s => s.writeRequest p) hkind
    rw [← harm] at h
    exact h
  case writeAnswer =>
    have harm : (fun k => exec (.writeRsp k p) s) = fun k => .next (s.receive k p 4 fun s => s.response p true) :=
      funext fun k => congrArg (fun g => Host.Outcome.next (s.receive k p 4 g)) (State.writeAnswered_eq hctx)
    have h := State.deliversBy_receive (s := s) (l := l) (g := fun s => s.response p true) hkind
    rw [← harm] at h
    exact h
  case refused =>
    exact ⟨State.readRequest_of_refused hno e, State.writeRequest_of_refused hno, State.response_of_refused hno false,
      State.response_of_refused hno true, State.collArrives_of_refused hno⟩
  case reads => exact State.readRequest_of_load hacc hnew hload hclean
  case faults => exact State.readRequest_of_fault hacc hnew hload
  case stores => exact State.writeRequest_of_store hacc hnew hplan hfree hstore
  case dup => exact State.writeRequest_of_dup hacc hdup
  case comes => exact State.response_of_read hacc hstatus hreq
  case collective => exact State.collArrives_of_accepted hacc

end Sys2Proof.Machine
end

