-- ==== Sys2Proof/Proofs/RoutingAndTime.lean ====
section
/-! SUPPORT. Link-local packets, the election of an address, the limits of requests and collectives, and device time over the canopy
(R419, R421, R427, R441, R443, R444). -/

namespace Sys2Proof.Machine

variable {s : State} {l : Fin 36} {p : Packet}

/-! ### Packets of neighbours -/

theorem State.linkLocal_of_heard {kind : BitVec 4} {g : State → State} (hkind : p.kind = kind) (hup : (s.link l).st = 5) :
    s.linkLocal l p kind g = (g s).giveCredit l p p.level p.pool := by
  simp only [State.linkLocal, hkind, hup, bne_self_eq_false, Bool.or_self, Bool.false_eq_true, if_false]

theorem State.linkLocal_of_not_heard {kind : BitVec 4} {g : State → State} (h : p.kind ≠ kind ∨ (s.link l).st ≠ 5) :
    s.linkLocal l p kind g = s := by
  have hnot : (p.kind != kind || (s.link l).st != 5) = true := by simpa using h
  simp only [State.linkLocal, hnot, if_true]

/-! ### Routes and the election -/

theorem State.routeTick_of_no_address (ha : s.ownAddr = none) : s.routeTick = s.advertise := by
  simp [State.routeTick, ha]

theorem State.advertise_of_no_links (hlinks : s.upLinks = []) : s.advertise = s := by
  rw [State.advertise, hlinks, List.foldl_nil]

theorem State.settle_of_waits (h : s.canopy.electing = false ∨ s.power.time < s.canopy.electSince + 10000000) : s.settle = s := by
  have hwaits : (!s.canopy.electing || !s.autoAddr || s.ownAddr.isSome || decide (s.power.time < s.canopy.electSince + 10000000)) = true := by
    rcases h with h | h <;> simp [h]
  simp only [State.settle, hwaits, if_true]

/-- With no number in use the device takes the rank of its ID among those heard. -/
theorem State.settle_of_rank (helects : s.canopy.electing = true) (hauto : s.autoAddr = true) (ha : s.ownAddr = none)
    (hsettled : s.canopy.electSince + 10000000 ≤ s.power.time) (hused : s.numbersInUse = [])
    (hrank : ((s.uid :: s.canopy.ids).eraseDups.filter fun i => i < s.uid).length < 256) :
    s.settle = (s.setF (Pg.cnpy 9) F.CNPY9_ADDR (s.f (Pg.cnpy 9) F.CNPY9_ADDR / 256 * 256 +
      ((s.uid :: s.canopy.ids).eraseDups.filter fun i => i < s.uid).length)).assigned := by
  simp only [State.settle, helects, hauto, ha, hused, Nat.not_lt.2 hsettled, Nat.not_le.2 hrank, decide_false, Option.isSome_none,
    Bool.not_true, Bool.or_self, Bool.false_eq_true, List.isEmpty_nil, if_true, if_false]

/-! ### The limits of requests and collectives -/

theorem State.requestExpires_of_late {c seq : Nat} (h : ∃ r ∈ s.canopy.reqs, r.ctx = c ∧ r.seq = seq ∧ r.sent = true ∧ r.lost = false ∧
      r.since + 1000 * s.f (Pg.cnpy 9) F.CNPY9_REQ_TIMEOUT_US ≤ s.power.time) :
    s.requestExpires c seq = (s.ctxDown c).sweepLost := by
  obtain ⟨r, hr, hctx, hseq, hsent, hlost, hlate⟩ := h
  have hany : (s.canopy.reqs.any fun r => r.ctx == c && r.seq == seq && r.sent && !r.lost &&
      decide (r.since + 1000 * s.f (Pg.cnpy 9) F.CNPY9_REQ_TIMEOUT_US ≤ s.power.time)) = true :=
    List.any_eq_true.2 ⟨r, hr, by simp [hctx, hseq, hsent, hlost, hlate]⟩
  simp only [State.requestExpires, hany, if_true]

section

variable {i : Nat} {y : Coll} (hget : s.canopy.colls[i]? = some y)
include hget

theorem State.collEnds_of_kept (hkept : y.scalar = true ∨ s.collLost y = false) :
    s.collEnds i = if s.collComplete y then s.endColl y 0 else s := by
  have hnot : (!y.scalar && s.collLost y) = false := by rcases hkept with h | h <;> simp [h]
  simp only [State.collEnds, hget, hnot, Bool.false_eq_true, if_false]

theorem State.collExpires_of_goesOn (h : y.scalar = true ∨ (s.collLost y = false ∧ s.power.time < y.since + y.limit)) :
    s.collExpires i = s := by
  have hnot : (!y.scalar && s.collLost y) = false ∧ (!y.scalar && decide (y.since + y.limit ≤ s.power.time)) = false := by
    rcases h with h | ⟨hlost, htime⟩
    · simp [h]
    · simp [hlost, Nat.not_le.2 htime]
  simp only [State.collExpires, hget, hnot.1, hnot.2, Bool.false_eq_true, if_false]

section

variable (hplain : y.scalar = false)
include hplain

theorem State.coll_of_lost (hlost : s.collLost y = true) : s.collExpires i = s.endColl y 0x4B ∧ s.collEnds i = s.endColl y 0x4B := by
  simp only [State.collExpires, State.collEnds, hget, hplain, hlost, Bool.not_false, Bool.and_self, if_true, and_self]

theorem State.collExpires_of_late (hkept : s.collLost y = false) (hlate : y.since + y.limit ≤ s.power.time) :
    s.collExpires i = (s.event (Pg.cnpy 9) Ev.CNPY9_COLL_TIMEOUT).endColl y 0x4A := by
  simp only [State.collExpires, hget, hplain, hkept, hlate, Bool.not_false, Bool.and_self, Bool.and_false, Bool.false_eq_true,
    decide_true, if_true, if_false]

end

end

/-! ### The time master -/

/-- The least of what has been seen and a list of numbers. -/
theorem foldl_least {l : List Nat} {m : Option Nat} {a : Nat}
    (h : l.foldl (fun (m : Option Nat) a => some (match m with | some b => min a b | none => a)) m = some a) :
    (a ∈ l ∨ m = some a) ∧ (∀ b ∈ l, a ≤ b) ∧ ∀ b, m = some b → a ≤ b := by
  induction l generalizing m with
  | nil =>
    rw [List.foldl_nil] at h
    subst h
    exact ⟨.inr rfl, by simp, by simp⟩
  | cons x l ih =>
    obtain ⟨hmem, hall, hle⟩ := ih h
    cases m with
    | none =>
      have hx : a ≤ x := hle x rfl
      refine ⟨.inl ?_, fun b hb => ?_, by simp⟩
      · rcases hmem with hmem | hmem
        · exact List.mem_cons_of_mem _ hmem
        · cases hmem; exact List.mem_cons_self ..
      · rcases List.mem_cons.1 hb with rfl | hb
        · exact hx
        · exact hall b hb
    | some b =>
      have hmin : a ≤ min x b := hle (min x b) rfl
      refine ⟨?_, fun c hc => ?_, fun c hc => ?_⟩
      · rcases hmem with hmem | hmem
        · exact .inl (List.mem_cons_of_mem _ hmem)
        · have hval : min x b = a := Option.some.inj hmem
          rcases Nat.le_total x b with hxb | hbx
          · exact .inl (List.mem_cons.2 (.inl (by omega)))
          · exact .inr (congrArg some (by omega))
      · rcases List.mem_cons.1 hc with rfl | hc
        · omega
        · exact hall c hc
      · cases hc; omega

/-- The devices among which the time master is chosen. -/
abbrev State.timeDevices (s : State) (ds : List (Nat × Bool)) : List (Nat × Bool) :=
  let all := (s.ownAddr.map fun a => (a, s.f (Pg.cnpy 9) F.CNPY9_MASTER == 1)).toList ++ ds
  if all.filter (fun d => d.2) = [] then all else all.filter fun d => d.2

theorem State.timeMaster_least {ds : List (Nat × Bool)} {a : Nat} (h : s.timeMaster ds = some a) :
    (∃ d ∈ s.timeDevices ds, d.1 = a) ∧ ∀ d ∈ s.timeDevices ds, a ≤ d.1 := by
  unfold State.timeMaster at h
  simp only [List.isEmpty_iff] at h
  obtain ⟨hmem, hall, -⟩ := foldl_least h
  refine ⟨?_, fun d hd => hall _ (List.mem_map_of_mem hd)⟩
  rcases hmem with hmem | hmem
  · obtain ⟨d, hd, rfl⟩ := List.mem_map.1 hmem
    exact ⟨d, hd, rfl⟩
  · cases hmem

section

variable {ds : List (Nat × Bool)} {m : Nat} (hmaster : s.timeMaster ds = some m)
include hmaster

/-- The master asks nobody. -/
theorem State.timeAsk_of_master (hown : s.ownAddr = some m) : s.timeAsk ds =
    ({ s.setF (Pg.cnpy 9) F.CNPY9_IS_MASTER 1 with canopy := { s.canopy with exchange := none } } : State).setF (Pg.cnpy 9)
      F.CNPY9_HOPS 0 := by
  simp only [State.timeAsk, hmaster, hown, Option.isSome_some, beq_self_eq_true, Bool.and_self, if_true]
  rfl

theorem State.timeAsk_of_parent {k d : Nat} (hother : s.ownAddr ≠ some m)
    (hparent : State.timeParent { s.setF (Pg.cnpy 9) F.CNPY9_IS_MASTER 0 with canopy := { s.canopy with exchange := none } } m = some (k, d)) :
    s.timeAsk ds = State.sendOn { ((({ s.setF (Pg.cnpy 9) F.CNPY9_IS_MASTER 0 with
      canopy := { s.canopy with exchange := none } } : State).setF (Pg.cnpy 9) F.CNPY9_HOPS (d + 1)).setF (Pg.cnpy 9) F.CNPY9_PARENT_LINK k)
        with canopy := { s.canopy with exchange := some (k, s.power.time) } } k (timePacket 0 s.power.time 0 0) := by
  have hown : (s.ownAddr.isSome && some m == s.ownAddr) = false := by
    rw [beq_false_of_ne hother.symm, Bool.and_false]
  have hzero : b2n false = 0 := rfl
  simp only [State.timeAsk, hmaster, hown, hzero, hparent, Option.bind_some, Bool.false_eq_true, if_false]
  rfl

end

/-! ### Exchanges -/

theorem State.timeCame_of_request (hasks : p.w4 = 0) :
    s.timeCame l p = s.sendOn l (timePacket 1 (fieldAt p.data 0 8) s.power.time s.power.time) :=
  if_pos (beq_iff_eq.2 hasks)

theorem State.timeCame_of_answer (hanswers : p.w4 ≠ 0) (hex : s.canopy.exchange = some (l.val, fieldAt p.data 0 8)) :
    let a : Int := Int.ofNat (fieldAt p.data 8 8) - Int.ofNat (fieldAt p.data 0 8)
    let b : Int := Int.ofNat s.power.time - Int.ofNat (fieldAt p.data 16 8)
    s.timeCame l p = ((({ s with canopy := { s.canopy with exchange := none } } : State).setF (Pg.cnpy 9) F.CNPY9_OFFSET
      (ux 32 ((a - b).tdiv 2))).setF (Pg.cnpy 9) F.CNPY9_DELAY (ux 32 ((a + b).tdiv 2))).correctTime ((a - b).tdiv 2) := by
  simp only [State.timeCame, beq_false_of_ne hanswers, hex, bne_self_eq_false, Bool.false_eq_true, if_false]

/-! ### Corrections of device time -/

/-- Time is moved by an offset at once, and nothing is left to slew. -/
abbrev State.jumpsTime (s : State) (theta : Int) : State :=
  { s with power := { s.power with slew := 0 } }.stepTime (Int.ofNat s.power.time + theta).toNat

/-- The state in which a correction begins: SYNCED, with the rate measured where time was synchronized before. -/
def State.correcting (s : State) (theta : Int) : State :=
  let u := if !s.canopy.everSynced || s.f (Pg.cnpy 9) F.CNPY9_SYNCED == 0 then s
    else { s with power := { s.power with rate := s.measuredRate theta } }
  { u.setF (Pg.cnpy 9) F.CNPY9_SYNCED 1 with canopy := { u.canopy with everSynced := true } }

theorem State.correcting_time (s : State) (theta : Int) : (s.correcting theta).power.time = s.power.time := by
  unfold State.correcting
  dsimp only
  split_ifs <;> rfl

theorem State.correcting_synced (s : State) (theta : Int) : (s.correcting theta).f (Pg.cnpy 9) F.CNPY9_SYNCED = 1 :=
  State.f_setF_self _ _ _ _ (by decide)

theorem State.correctTime_first (h : s.canopy.everSynced = false) (theta : Int) :
    let u := ((s.correcting theta).jumpsTime theta).event (Pg.cnpy 9) Ev.CNPY9_TIME_SYNCED
    s.correctTime theta = { u with canopy := { u.canopy with lastSync := u.power.time } } := by
  simp only [State.correctTime, State.correcting, h, Bool.not_false, Bool.true_or, if_true]
  rfl

theorem State.correctTime_large (h : s.canopy.everSynced = true) {theta : Int} (hlarge : 1000 < theta) :
    let u := (((s.correcting theta).jumpsTime theta).satF (Pg.cnpy 9) F.CNPY9_TIME_STEPS).event (Pg.cnpy 9) Ev.CNPY9_TIME_SYNCED
    s.correctTime theta = { u with canopy := { u.canopy with lastSync := u.power.time } } := by
  simp only [State.correctTime, State.correcting, h, hlarge, Bool.not_true, Bool.false_or, Bool.false_eq_true, if_true, if_false]
  rfl

theorem State.correctTime_small (h : s.canopy.everSynced = true) {theta : Int} (hsmall : theta ≤ 1000) :
    let u := s.correcting theta
    let v := u.modPower fun x => { x with slew := theta }
    let w := if theta < -1000 && !decide (u.power.slew < -1000) then v.event (Pg.cnpy 9) Ev.CNPY9_TIME_SYNCED else v
    s.correctTime theta = { w with canopy := { w.canopy with lastSync := w.power.time } } := by
  simp only [State.correctTime, State.correcting, h, Int.not_lt.2 hsmall, Bool.not_true, Bool.false_or, Bool.false_eq_true, if_false]
  rfl

theorem State.correctTime_first_shows (h : s.canopy.everSynced = false) (theta : Int) :
    (s.correctTime theta).power.time = ((s.power.time : Int) + theta).toNat ∧
    (s.correctTime theta).f (Pg.cnpy 9) F.CNPY9_SYNCED = 1 ∧ (s.correctTime theta).power.slew = 0 := by
  rw [State.correctTime_first h]
  refine ⟨?_, ?_, ?_⟩
  · rw [State.event_power, ← s.correcting_time theta]
    rfl
  · exact (State.f_event (by decide) (by decide) (by decide) (by decide)).trans (s.correcting_synced theta)
  · rw [State.event_power]
    rfl

theorem State.correctTime_large_shows (h : s.canopy.everSynced = true) {theta : Int} (hlarge : 1000 < theta) :
    (s.correctTime theta).power.time = ((s.power.time : Int) + theta).toNat ∧ (s.correctTime theta).power.slew = 0 := by
  rw [State.correctTime_large h hlarge]
  refine ⟨?_, ?_⟩
  · rw [State.event_power, ← s.correcting_time theta]
    rfl
  · rw [State.event_power]
    rfl

theorem State.correctTime_small_shows (h : s.canopy.everSynced = true) {theta : Int} (hsmall : theta ≤ 1000) :
    (s.correctTime theta).power.time = s.power.time ∧ (s.correctTime theta).power.slew = theta := by
  rw [State.correctTime_small h hsmall, ← s.correcting_time theta]
  dsimp only
  split_ifs
  · rw [State.event_power]
    exact ⟨rfl, rfl⟩
  · exact ⟨rfl, rfl⟩

/-! ### The loss of time -/

theorem State.timeLost_of_late (hsynced : s.f (Pg.cnpy 9) F.CNPY9_SYNCED = 1) (hlate : s.canopy.lastSync + 100000000 ≤ s.power.time) :
    s.timeLost = (((s.setF (Pg.cnpy 9) F.CNPY9_SYNCED 0).modPower fun x => { x with slew := 0, rate := 0, rateAcc := 0 }).event (Pg.cnpy 9)
      Ev.CNPY9_TIME_LOST) := by
  simp only [State.timeLost, hsynced, hlate, beq_self_eq_true, decide_true, Bool.and_self, if_true]
  rfl

theorem State.timeLost_of_early (hearly : s.power.time < s.canopy.lastSync + 100000000) : s.timeLost = s := by
  simp only [State.timeLost, Nat.not_le.2 hearly, decide_false, Bool.and_false, Bool.false_eq_true, if_false]

/-! ### The settled statement -/

/-- Settles O47: packets of neighbours act on UP links, limits and the settling time by the clock, and a correction by its size. -/
theorem routingAndTime : Obligations.RoutingAndTime := by
  intro s l p masters others ctx seq i theta pg c heard
  have hears (kind : BitVec 4) (g : State → State) :
      (p.kind = kind → (s.link l).st = 5 → Host.Outcome.next (s.linkLocal l p kind g) = (.next ((g s).giveCredit l p p.level p.pool) : Out)) ∧
      (p.kind ≠ kind ∨ (s.link l).st ≠ 5 → Host.Outcome.next (s.linkLocal l p kind g) = (.next s : Out)) :=
    ⟨fun hkind hup => congrArg _ (State.linkLocal_of_heard hkind hup), fun h => congrArg _ (State.linkLocal_of_not_heard h)⟩
  refine ⟨hears 8 fun s => s.routeCame l p, hears 9 fun s => s.electCame p, hears 0xB fun s => s.timeCame l p, rfl,
    State.routeTick_of_no_address, State.advertise_of_no_links, fun helects hauto ha hsettled hused hrank => ?rank, fun h => ?waits,
    fun h => ?request, fun y hget => ⟨fun hplain hlost => ?lost, fun hplain hkept hlate => ?late, fun h => ?goesOn, fun h => ?complete⟩,
    ⟨fun a => State.timeMaster_least, fun a ha hmaster => ?master, fun m k d hmaster hother hparent => ?parent⟩,
    ⟨State.timeCame_of_request, State.timeCame_of_answer⟩, fun h => State.correctTime_first_shows h theta,
    fun h => State.correctTime_small_shows h, fun h => State.correctTime_large_shows h, fun hsynced hlate => ?unsynced, fun h => ?inTime⟩
  case rank => exact congrArg Host.Outcome.next (State.settle_of_rank helects hauto ha hsettled hused hrank)
  case waits => exact congrArg Host.Outcome.next (State.settle_of_waits h)
  case request => exact congrArg Host.Outcome.next (State.requestExpires_of_late h)
  case lost =>
    obtain ⟨hexpires, hends⟩ := State.coll_of_lost hget hplain hlost
    exact ⟨congrArg Host.Outcome.next hexpires, congrArg Host.Outcome.next hends⟩
  case late => exact congrArg Host.Outcome.next (State.collExpires_of_late hget hplain hkept hlate)
  case goesOn => exact congrArg Host.Outcome.next (State.collExpires_of_goesOn hget h)
  case complete => exact congrArg Host.Outcome.next (State.collEnds_of_kept hget h)
  case master =>
    refine ⟨_, congrArg Host.Outcome.next (State.timeAsk_of_master hmaster ha), ?_, ?_, rfl, rfl, rfl⟩
    · exact (State.f_setF_other (.inr (by decide))).trans (State.f_setF_self s _ _ _ (by decide))
    · exact State.f_setF_self _ _ _ _ (by decide)
  case parent => exact congrArg Host.Outcome.next (State.timeAsk_of_parent hmaster hother hparent)
  case unsynced => exact congrArg Host.Outcome.next (State.timeLost_of_late hsynced hlate)
  case inTime => exact congrArg Host.Outcome.next (State.timeLost_of_early h)

end Sys2Proof.Machine
end

