-- ==== Sys2Proof/Proofs/SecurityEvents.lean ====
section
/-! SUPPORT. Events of the security core: the generator's health, reports, firmware delivery, starts, and JTAG (R533, R534, R538, R539,
R546 to R552). -/

namespace Sys2Proof.Machine

variable {s : State}

/-! ### The generator (R533) -/

/-- Health failures of the last second. -/
abbrev State.recentFails (s : State) : List Nat := s.sec.rngFails.filter fun t => s.power.time < t + 1000000000

section

variable (hpow : s.powered = true)
include hpow

theorem State.rngFail_of_few (hfew : s.recentFails.length < 15) : s.rngFail =
    (s.satF (Pg.sec 3) F.SEC3_FAILS).modSec fun x => { x with rngFails := s.power.time :: s.recentFails } := by
  have hlen : (s.power.time :: s.recentFails).length ≤ 15 := hfew
  have htake : (s.power.time :: s.recentFails).take 16 = s.power.time :: s.recentFails := List.take_of_length_le (by omega)
  have hnot : ¬ 16 ≤ (s.power.time :: s.recentFails).length := by omega
  unfold State.rngFail
  rw [if_neg (by simp [hpow])]
  refine (if_neg fun h => hnot ?_).trans ?_
  · exact of_decide_eq_true (Bool.and_eq_true_iff.1 h).1
  · exact congrArg (fun l => (s.satF (Pg.sec 3) F.SEC3_FAILS).modSec fun x => { x with rngFails := l }) htake

/-- The sixteenth failure within a second halts the generator. -/
theorem State.rngFail_of_many (hmany : 15 ≤ s.recentFails.length) (hruns : s.rngHalted = false) : s.rngFail.rngHalted = true := by
  have hlen : 16 ≤ (s.power.time :: s.recentFails).length := Nat.succ_le_succ hmany
  have hstill : (s.satF (Pg.sec 3) F.SEC3_FAILS).f (Pg.sec 3) F.SEC3_HALTED = s.f (Pg.sec 3) F.SEC3_HALTED :=
    State.f_setF_other (.inr (by decide))
  unfold State.rngFail
  rw [if_neg (by simp [hpow])]
  dsimp only
  rw [if_pos]
  · rw [State.rngHalted, beq_iff_eq, State.f_event (by decide) (by decide) (by decide) (by decide),
      State.f_setF_self _ _ _ _ (by decide)]
    rfl
  · refine Bool.and_eq_true_iff.2 ⟨decide_eq_true hlen, ?_⟩
    rw [Bool.not_eq_true', ← hruns]
    exact congrArg (· == 1) hstill

end

/-! ### Reports (R538, R539) -/

theorem State.i3cAttest_of_live (hlive : s.i3cLive = true) (hup : s.power.phase = .up) (hruns : s.secRuns = true) (n : Nat) :
    s.i3cAttest n = (s.setRegs (Pg.sec 2 * 4096 + 0x020) ((List.range 8).map fun w => n / 2 ^ (32 * w) % 2 ^ 32)).attest := by
  simp only [State.i3cAttest, hlive, hup, hruns, bne_self_eq_false, Bool.not_true, Bool.or_self, Bool.false_eq_true, if_false]

/-- A request makes a report, which is busy and not valid. -/
theorem State.attest_of_idle (hruns : s.secRuns = true) (hidle : s.f (Pg.sec 2) F.SEC2_BUSY = 0) :
    s.attest = ((s.modSec fun x => { x with report := some s.reportBody }).setF (Pg.sec 2) F.SEC2_BUSY 1).setF (Pg.sec 2)
      F.SEC2_VALID 0 := by
  simp [State.attest, hruns, hidle]

theorem State.attest_shows (hruns : s.secRuns = true) (hidle : s.f (Pg.sec 2) F.SEC2_BUSY = 0) :
    s.attest.f (Pg.sec 2) F.SEC2_BUSY = 1 ∧ s.attest.f (Pg.sec 2) F.SEC2_VALID = 0 ∧ s.attest.sec.report = some s.reportBody := by
  rw [State.attest_of_idle hruns hidle]
  refine ⟨?_, State.f_setF_self _ _ _ _ (by decide), rfl⟩
  rw [State.f_setF_other (.inr (by decide)), State.f_setF_self _ _ _ _ (by decide)]
  rfl

/-- The report stands in the page, valid, and the core is idle again. -/
theorem State.reportReady_shows {b : List Byte} (hrep : s.sec.report = some b) (hruns : s.secRuns = true) :
    s.reportReady.f (Pg.sec 2) F.SEC2_BUSY = 0 ∧ s.reportReady.f (Pg.sec 2) F.SEC2_VALID = 1 ∧
    s.reportReady.f (Pg.sec 2) F.SEC2_STATUS = 0 ∧ s.reportReady.sec.report = none := by
  have hnot : (!s.secRuns) = false := by rw [hruns]; rfl
  have hsec (v : State) (a : Nat) (l : List Nat) : (v.setRegs a l).sec = v.sec := by
    induction l generalizing v a with
    | nil => rfl
    | cons x l ih => exact (ih _ _).trans rfl
  simp only [State.reportReady, hrep, hnot, Bool.false_eq_true, if_false]
  refine ⟨?_, ?_, ?_, ?_⟩
  · rw [State.f_event (by decide) (by decide) (by decide) (by decide), State.f_setF_other (.inl (by decide)),
      State.f_setF_other (.inr (by decide)), State.f_setF_self _ _ _ _ (by decide)]
    rfl
  · rw [State.f_event (by decide) (by decide) (by decide) (by decide), State.f_setF_other (.inl (by decide)),
      State.f_setF_self _ _ _ _ (by decide)]
    rfl
  · rw [State.f_event (by decide) (by decide) (by decide) (by decide), State.f_setF_self _ _ _ _ (by decide)]
    rfl
  · rw [State.event_sec, State.setF_sec, State.setF_sec, State.setF_sec, hsec]
    rfl

/-! ### Firmware delivery (R546 to R551) -/

theorem State.fwChunk_of_live {b i : Nat} {d : List Byte} (hlive : s.i3cLive = true) (hup : s.power.phase = .up)
    (hruns : s.secRuns = true) (hi : i < 256) (hd : d.length = 256) : s.fwChunk b i d = s.piece 1 b 256 i d := by
  simp [State.fwChunk, hlive, hup, hruns, hi, hd]

theorem State.fwCheck_of_assembled {src b : Nat} {x : List Byte} {rest : List (Nat × Nat × List Byte)} {good : Bool}
    (hfront : s.sec.assembled = (src, b, x) :: rest) (hruns : s.secRuns = true) :
    let t := ((s.modSec fun y => { y with assembled := rest }).treatBlock src b x good).fwAfterBlock src b x
    s.fwCheck good = if src = 0 then (t.setF fwPage F.SEC1_BUSY_028 0).fwStatus 0 else t := by
  have hnot : (!s.secRuns) = false := by rw [hruns]; rfl
  simp only [State.fwCheck, hfront, hnot, Bool.false_eq_true, if_false, beq_iff_eq]

theorem Sec.record_of_second {x : Sec} (hgood : x.boot1.crcGood = true) (hnewer : x.boot0.seq < x.boot1.seq) :
    x.record = x.boot1 := by
  simp [Sec.record, Sec.bootCopy, hgood, hnewer]

theorem Sec.record_of_first {x : Sec} (hgood : x.boot0.crcGood = true) (hnewer : x.boot1.seq ≤ x.boot0.seq) :
    x.record = x.boot0 := by
  simp [Sec.record, Sec.bootCopy, hgood, Nat.not_lt.2 hnewer]

/-- A write of the boot record is the record in use afterwards: it goes to the other copy, with the next sequence number. -/
theorem Sec.record_modRecord (x : Sec) (g : BootRecord → BootRecord) :
    (x.modRecord g).record = { g x.record with seq := x.record.seq + 1, crcGood := true } := by
  by_cases hcopy : (x.bootCopy == 1) = true
  · have hrecord : x.record = x.boot1 := if_pos hcopy
    rw [Sec.modRecord, if_pos hcopy]
    exact Sec.record_of_first rfl (by rw [hrecord]; exact Nat.le_succ _)
  · have hrecord : x.record = x.boot0 := if_neg hcopy
    rw [Sec.modRecord, if_neg hcopy]
    exact Sec.record_of_second rfl (by rw [hrecord]; exact Nat.lt_succ_self _)

theorem Sec.slot_modRecord (x : Sec) (g : BootRecord → BootRecord) (n : Nat) : (x.modRecord g).slot n = x.slot n := by
  unfold Sec.modRecord
  dsimp only
  split_ifs <;> rfl

theorem Sec.record_setSlot (x : Sec) (n : Nat) (i : Image) : (x.setSlot n i).record = x.record := by
  unfold Sec.setSlot
  split_ifs <;> rfl

theorem Sec.slot_setSlot (x : Sec) (n : Nat) (i : Image) : (x.setSlot n i).slot n = i := by
  unfold Sec.setSlot Sec.slot
  split_ifs <;> rfl

theorem BootRecord.valid_setValid (r : BootRecord) (n : Nat) (v : Bool) : (r.setValid n v).valid n = v := by
  unfold BootRecord.setValid BootRecord.valid
  split_ifs <;> rfl

/-- The marks with which an install ends: STAGE, STATUS and the event, each apart from the others. -/
theorem State.installMarks_shows (u : State) (stage status e : Nat) :
    let t := ((u.setF fwPage F.SEC1_STAGE stage).fwStatus status).event fwPage e
    t.f fwPage F.SEC1_BUSY_028 = u.f fwPage F.SEC1_BUSY_028 ∧ t.f fwPage F.SEC1_STAGE = stage % 2 ^ F.SEC1_STAGE.w ∧
      t.f fwPage F.SEC1_STATUS = status % 2 ^ F.SEC1_STATUS.w ∧ t.sec = u.sec := by
  refine ⟨?_, ?_, ?_, State.event_sec ..⟩ <;> rw [State.f_event (by decide) (by decide) (by decide) (by decide), State.fwStatus]
  · rw [State.f_setF_other (by decide), State.f_setF_other (by decide)]
  · rw [State.f_setF_other (by decide), State.f_setF_self _ _ _ _ (by decide)]
  · rw [State.f_setF_self _ _ _ _ (by decide)]

/-- A change of the core's record that leaves it as it is. -/
theorem State.modSec_of_eq {g : Sec → Sec} (h : g s.sec = s.sec) : s.modSec g = s := by
  rw [State.modSec, h]

section

variable (hruns : s.secRuns = true)
include hruns

section

variable (hstage : s.f fwPage F.SEC1_STAGE = 3) (hact : s.sec.activating = true)
include hstage hact

/-- The state in which an install ends, whatever its outcome. -/
abbrev State.installEnded (s : State) : State :=
  (s.modSec fun x => { x with activating := false, resetAfter := false }).setF fwPage F.SEC1_BUSY_028 0

theorem State.installDone_good (hstay : s.sec.resetAfter = false) : s.installDone true = ((((s.installEnded.modSec fun x =>
    (x.setSlot s.otherSlot (.package x.staging)).modRecord fun r => { r.setValid s.otherSlot true with
      trial := some s.otherSlot, tries := 3 }).setF fwPage F.SEC1_STAGE 4).fwStatus 0).event fwPage Ev.SEC1_INSTALL_DONE) := by
  simp [State.installDone, hruns, hstage, hact, hstay]

theorem State.installDone_bad : s.installDone false = ((s.installEnded.modSec fun x => x.modRecord fun r =>
    r.setValid s.otherSlot false).setF fwPage F.SEC1_STAGE 2).activateRefused 0x0C := by
  simp [State.installDone, hruns, hstage, hact]

/-- What an install leaves: the slot is valid as it verified, and a good one is the trial. -/
theorem State.installDone_shows (hstay : s.sec.resetAfter = false) {good : Bool} :
    (s.installDone good).f fwPage F.SEC1_BUSY_028 = 0 ∧ (s.installDone good).f fwPage F.SEC1_STAGE = (if good then 4 else 2) ∧
    (s.installDone good).f fwPage F.SEC1_STATUS = (if good then 0 else 0x0C) ∧
    (s.installDone good).sec.record.valid s.otherSlot = good ∧ (s.installDone good).sec.record.seq = s.sec.record.seq + 1 ∧
    (good = true → (s.installDone good).sec.slot s.otherSlot = .package s.sec.staging ∧
      (s.installDone good).sec.record.trial = some s.otherSlot ∧ (s.installDone good).sec.record.tries = 3) := by
  have hidle (g : Sec → Sec) : (s.installEnded.modSec g).f fwPage F.SEC1_BUSY_028 = 0 := State.f_setF_self _ _ _ _ (by decide)
  cases good with
  | false =>
    rw [State.installDone_bad hruns hstage hact]
    obtain ⟨hbusy, hst, hcode, hsec⟩ := (s.installEnded.modSec fun x => x.modRecord fun r =>
      r.setValid s.otherSlot false).installMarks_shows 2 0x0C Ev.SEC1_ACTIVATE_REFUSED
    refine ⟨hbusy.trans (hidle _), hst, hcode, ?_, ?_, nofun⟩ <;> rw [State.activateRefused, hsec, State.modSec, Sec.record_modRecord]
    · exact BootRecord.valid_setValid ..
    · rfl
  | true =>
    rw [State.installDone_good hruns hstage hact hstay]
    obtain ⟨hbusy, hst, hcode, hsec⟩ := (s.installEnded.modSec fun x =>
      (x.setSlot s.otherSlot (.package x.staging)).modRecord fun r => { r.setValid s.otherSlot true with
        trial := some s.otherSlot, tries := 3 }).installMarks_shows 4 0 Ev.SEC1_INSTALL_DONE
    refine ⟨hbusy.trans (hidle _), hst, hcode, ?_, ?_, fun _ => ⟨?_, ?_, ?_⟩⟩ <;> rw [hsec, State.modSec]
    · rw [Sec.record_modRecord]; exact BootRecord.valid_setValid ..
    · rw [Sec.record_modRecord, Sec.record_setSlot]; rfl
    · rw [Sec.slot_modRecord, Sec.slot_setSlot]; rfl
    · rw [Sec.record_modRecord]
    · rw [Sec.record_modRecord]

end

/-! ### Propagation (R549) -/

theorem State.fwOffer_of_source (hsource : s.fwSource = true) :
    s.fwOffer = s.fwPeers.foldl (fun s x => s.fwSendBlock x.1 x.2 0) s := by
  simp [State.fwOffer, hruns, hsource]

section

variable {l a t : Nat} (hsources : s.sec.sources = [(l, a, t)])
include hsources

theorem State.fwResend_of_live (hlive : s.power.time < t + 10000000000) (hstage : s.f fwPage F.SEC1_STAGE = 1) :
    s.fwResend = s.fwTell l a := by
  have hsame : s.liveSources = [(l, a, t)] := by simp [State.liveSources, hstage, hsources, hlive]
  have hsec : s.modSec (fun y => { y with sources := s.liveSources }) = s := by
    rw [hsame, ← hsources]
    rfl
  simp only [State.fwResend, hruns, hsec, Bool.not_true, Bool.false_eq_true, if_false]
  rw [hsame, List.foldl_cons, List.foldl_nil]

theorem State.fwResend_of_silent (hsilent : t + 10000000000 ≤ s.power.time) :
    s.fwResend = s.modSec fun x => { x with sources := [] } := by
  have hnone : s.liveSources = [] := by simp [State.liveSources, hsources, hsilent]
  simp [State.fwResend, hruns, hnone]

end

/-- Packets that are late go out again, and the times of those that stay are taken anew. -/
theorem State.fwRetry_eq {late kept : List FwSent}
    (hlate : (s.sec.sent.filter fun x => (s.link x.link).st == 5 && decide (x.time + 10000000 ≤ s.power.time)) = late)
    (hkept : ((s.sec.sent.filter fun x => (s.link x.link).st == 5).map fun y =>
      if y.time + 10000000 ≤ s.power.time then { y with time := s.power.time } else y) = kept) :
    s.fwRetry = late.foldl (fun s x => s.sendOn x.link (s.fwPacket x)) (s.modSec fun y => { y with sent := kept }) := by
  subst hlate hkept
  simp only [State.fwRetry, hruns, Bool.not_true, Bool.false_eq_true, if_false, decide_eq_true_eq]
  rfl

theorem State.fwRetry_of_fresh (hfresh : ∀ x ∈ s.sec.sent, (s.link x.link).st = 5 ∧ s.power.time < x.time + 10000000) :
    s.fwRetry = s := by
  have hlate : (s.sec.sent.filter fun x => (s.link x.link).st == 5 && decide (x.time + 10000000 ≤ s.power.time)) = [] := by
    refine List.filter_eq_nil_iff.2 fun x hx => ?_
    simp [Nat.not_le.2 (hfresh x hx).2]
  have hup : (s.sec.sent.filter fun x => (s.link x.link).st == 5) = s.sec.sent :=
    List.filter_eq_self.2 fun x hx => beq_iff_eq.2 (hfresh x hx).1
  have hkept : ((s.sec.sent.filter fun x => (s.link x.link).st == 5).map fun y =>
      if y.time + 10000000 ≤ s.power.time then { y with time := s.power.time } else y) = s.sec.sent := by
    rw [hup]
    exact (List.map_congr_left fun y hy => if_neg (Nat.not_le.2 (hfresh y hy).2)).trans (List.map_id _)
  rw [State.fwRetry_eq hruns hlate hkept, List.foldl_nil]
  exact State.modSec_of_eq rfl

theorem State.fwRetry_of_due {x : FwSent} (hsent : s.sec.sent = [x]) (hup : (s.link x.link).st = 5)
    (hdue : x.time + 10000000 ≤ s.power.time) :
    let u := s.modSec fun y => { y with sent := [{ x with time := s.power.time }] }
    s.fwRetry = u.sendOn x.link (u.fwPacket x) :=
  State.fwRetry_eq hruns (late := [x]) (by simp [hsent, hup, hdue]) (by simp [hsent, hup, hdue])

end

/-! ### Starts (R33, R552) -/

theorem State.setRegs_power (s : State) (a : Nat) (l : List Nat) : (s.setRegs a l).power = s.power := by
  induction l generalizing s a with
  | nil => rfl
  | cons x l ih => exact (ih _ _).trans rfl

theorem State.setRegs_draws (s : State) (a : Nat) (l : List Nat) : (s.setRegs a l).draws = s.draws := by
  induction l generalizing s a with
  | nil => rfl
  | cons x l ih => exact (ih _ _).trans rfl

theorem State.startWaves_booted (s : State) : s.startWaves.power.booted = s.power.booted ∧ s.startWaves.draws = s.draws := by
  unfold State.startWaves
  split_ifs <;> exact ⟨rfl, rfl⟩

/-- The challenge of a start is a draw of its own. -/
theorem State.boot_draws (s : State) : s.newChallenge.boot.draws = s.draws + 1 := by
  simp only [State.boot, State.newChallenge, State.setRegs_draws, State.setF_draws]

theorem State.secBoot_of_start (hreset : s.power.reset ≠ none) (hbooted : s.power.booted = false) (hpll : s.power.pllLocked = true)
    (hpow : s.powered = true) : s.secBoot.power.booted = true ∧ s.secBoot.draws = s.draws + 1 := by
  have hstart : (s.power.reset.isNone || s.power.booted || !s.power.pllLocked || !s.powered) = false := by
    simp [hbooted, hpll, hpow, Option.isSome_iff_ne_none, hreset]
  rw [State.secBoot, hstart, if_neg Bool.false_ne_true]
  obtain ⟨hb, hd⟩ := State.startWaves_booted (s.newChallenge.boot.modPower fun x => { x with booted := true })
  exact ⟨hb, hd.trans s.boot_draws⟩

theorem State.secBoot_of_booted_or_none (h : s.power.booted = true ∨ s.power.reset = none) : s.secBoot = s := by
  have hno : (s.power.reset.isNone || s.power.booted || !s.power.pllLocked || !s.powered) = true := by
    rcases h with h | h <;> simp [h]
  rw [State.secBoot, hno, if_pos rfl]

theorem State.watchdog_of_none (hreset : s.power.reset = none) : s.watchdog = s := by
  simp [State.watchdog, hreset]

section

variable (hpow : s.powered = true) (hrec : s.recovery = false) (hbooted : s.power.booted = true)
include hpow hrec hbooted

theorem State.watchdog_of_start (hreset : s.power.reset ≠ none) : s.watchdog = s.clear .warm 8 := by
  obtain ⟨k, hk⟩ := Option.ne_none_iff_exists'.1 hreset
  simp [State.watchdog, hpow, hrec, hbooted, hk]

end

/-! ### Readiness leaves the power as it is (R33, R556) -/

namespace State.onlySends

variable {u : State}

theorem advertise (h : s.onlySends u) : s.onlySends u.advertise := h.foldl fun _ _ h => h.sendOn.sendOn

theorem recompute (h : s.onlySends u) : s.onlySends u.recompute := by
  unfold State.recompute State.recomputeFrom
  extract_lets
  exact h.ite h.canopy.event.advertise

theorem electStart (h : s.onlySends u) : s.onlySends u.electStart := by
  unfold State.electStart
  extract_lets
  exact h.canopy.foldl fun _ _ h => h.sendOn

theorem assigned (h : s.onlySends u) : s.onlySends u.assigned := by
  unfold State.assigned
  extract_lets
  exact h.setReg.setReg.canopy.event.recompute

theorem restartAddr (h : s.onlySends u) : s.onlySends u.restartAddr := by
  unfold State.restartAddr
  extract_lets _ _ t1 t2 t3 t4
  have h1 : s.onlySends t1 := h.canopy
  have h2 : s.onlySends t2 := h1.ite h1.event
  have h3 : s.onlySends t3 := h2.setReg.setReg
  have h4 : s.onlySends t4 := h3.ite h3.advertise
  exact h4.electStart.ite h4.assigned

theorem power (h : s.onlySends u) : u.power = s.power := by
  obtain ⟨_, _, _, _, _, _, _, _, _, rfl⟩ := h
  rfl

end State.onlySends

theorem State.openStore_power (s : State) : s.openStore.power = s.power := by
  unfold State.openStore
  extract_lets
  split
  · rfl
  · dsimp only
    split_ifs
    · rw [State.event_power]
    · rfl

theorem State.lockPages_power (s : State) : s.lockPages.power = s.power := by
  unfold State.lockPages
  exact State.foldl_keeps State.power (fun t pg => t.setF_power pg fLock 1) _ s

theorem State.applySettings_power (s : State) : s.applySettings.power = s.power := by
  unfold State.applySettings
  extract_lets t1 t2 t3 t4 t5
  have h2 : t2.power = s.power := s.openStore_power
  have h3 : t3.power = t2.power := by
    unfold t3
    split
    · exact (State.onlySends.refl t2).setReg.restartAddr.power
    · rfl
  have h4 : t4.power = t3.power := by
    unfold t4
    split <;> rfl
  have h5 : t5.power = t4.power := by
    unfold t5
    split <;> rfl
  rw [← h2, ← h3, ← h4, ← h5]
  split
  · split_ifs
    · exact State.lockPages_power t5
    · rfl
  · rfl

theorem State.becomeReady_power (s : State) : s.becomeReady.power = { s.power with reset := none, ready := true, linked := true } := by
  unfold State.becomeReady
  extract_lets _ t1 t2 t3
  have h2 : t2.power = t1.power := by
    unfold t2
    split_ifs
    · rfl
    · exact t1.applySettings_power
  have h3 : t3.power = t2.power := (State.onlySends.refl t2).history.power
  split_ifs
  · exact (State.event_power _ _ _).trans (h3.trans h2)
  · exact h3.trans h2

/-! ### JTAG (R534) -/

theorem State.jtag_of_powered (hpow : s.powered = true) (i : Jtag) : s.jtag i = match i with
    | .bypass din => s.emit (.jtag (2 * din))
    | .idcode => s.emit (.jtag 0x1009674F)
    | .sample pins => s.emit (.jtag pins)
    | .extest pins => s.emit (.jtag pins)
    | .debug a din dout =>
      if debugNeeds a ≤ s.debugLevel then (s.debugAccess a dout).1.emit (.jtag (s.debugAccess a dout).2) else s.emit (.jtag (2 * din)) :=
  if_neg (by simp [hpow])

theorem State.debugAccess_halts (s : State) (n : Fin 14) (dout : Nat) : n.val ∈ (s.debugAccess (.halt n) dout).1.integ.debugged := by
  show n.val ∈ if s.integ.debugged.contains n.val then s.integ.debugged else n.val :: s.integ.debugged
  split_ifs with h
  · exact List.contains_iff_mem.1 h
  · exact List.mem_cons_self ..

/-- Fuse bits go from 0 to 1 alone (R531). -/
theorem State.fuse_programFuse_keyDigest (s : State) (i : Fin 4) (w : Fin 8) (x : Nat) :
    s.fuse (.keyDigest i w) &&& (s.programFuse (.keyDigest i w) x).fuse (.keyDigest i w) = s.fuse (.keyDigest i w) := by
  have hlt : s.fuse (.keyDigest i w) < 2 ^ 32 := State.f_lt s _ _
  have hset : (s.programFuse (.keyDigest i w) x).fuse (.keyDigest i w) = (s.fuse (.keyDigest i w) ||| x) % 2 ^ 32 :=
    State.f_setF_self s _ _ _ (Nat.le_refl 32)
  rw [hset, Nat.or_mod_two_pow, Nat.mod_eq_of_lt hlt]
  refine Nat.eq_of_testBit_eq fun n => ?_
  rw [Nat.testBit_and, Nat.testBit_or]
  exact inf_sup_self

/-! ### The settled statement -/

/-- Settles O52: each event finds its condition in the security core's own state, and acts by its equation. -/
theorem securityEvents : Obligations.SecurityEvents := by
  intro s nonce block chunk d good din dout what late sec
  refine ⟨fun hpow hfew => ?counted, fun hpow hmany hruns => ?halts, fun hlive hup hruns => ?asked, State.attest_shows,
    fun b hrep hruns => ?ready, fun hlive hup hruns hi hd => ?chunk, fun src b x rest hfront hruns => ?block,
    fun hruns hstage hact hstay => ?install, fun hruns hsource => ?offer, fun l a t hsources hruns => ⟨fun hlive hstage => ?tells, fun hsilent => ?silent⟩,
    fun hruns hfresh => ?fresh, fun x hsent hruns hup hdue => ?again, fun hreset hbooted hpll hpow => ?boots, fun h => ?noBoot,
    fun hpow hrec hbooted => ⟨fun hreset => ?restarts, fun hreset => ?noStart⟩, fun k i hki => ?done, ?becomes,
    fun hpow => ?jtag, fun n => ⟨?level, s.debugAccess_halts n dout⟩, s.fuse_programFuse_keyDigest⟩
  case counted => exact congrArg Host.Outcome.next (State.rngFail_of_few hpow hfew)
  case halts => exact ⟨_, rfl, State.rngFail_of_many hpow hmany hruns⟩
  case asked => exact congrArg Host.Outcome.next (State.i3cAttest_of_live hlive hup hruns _)
  case ready => exact ⟨_, rfl, State.reportReady_shows hrep hruns⟩
  case chunk => exact congrArg Host.Outcome.next (State.fwChunk_of_live hlive hup hruns hi hd)
  case block => exact congrArg Host.Outcome.next (State.fwCheck_of_assembled hfront hruns)
  case install => exact ⟨_, rfl, State.installDone_shows hruns hstage hact hstay⟩
  case offer => exact congrArg Host.Outcome.next (State.fwOffer_of_source hruns hsource)
  case tells => exact congrArg Host.Outcome.next (State.fwResend_of_live hruns hsources hlive hstage)
  case silent => exact congrArg Host.Outcome.next (State.fwResend_of_silent hruns hsources hsilent)
  case fresh => exact congrArg Host.Outcome.next (State.fwRetry_of_fresh hruns hfresh)
  case again => exact congrArg Host.Outcome.next (State.fwRetry_of_due hruns hsent hup hdue)
  case boots => exact ⟨_, rfl, State.secBoot_of_start hreset hbooted hpll hpow⟩
  case noBoot => exact congrArg Host.Outcome.next (State.secBoot_of_booted_or_none h)
  case restarts => exact congrArg Host.Outcome.next (State.watchdog_of_start hpow hrec hbooted hreset)
  case noStart => exact congrArg Host.Outcome.next (State.watchdog_of_none hreset)
  case done =>
    have harm : exec i s = .next (s.endWhole k) := by
      simp only [List.mem_cons, Prod.mk.injEq, List.not_mem_nil, or_false] at hki
      rcases hki with ⟨rfl, rfl⟩ | ⟨rfl, rfl⟩ <;> rfl
    rw [harm]
    exact ⟨fun hdone => congrArg Host.Outcome.next (if_pos hdone),
      fun hgoesOn => congrArg Host.Outcome.next (if_neg (Bool.eq_false_iff.1 hgoesOn))⟩
  case becomes =>
    rw [State.becomeReady_power]
    exact ⟨rfl, rfl⟩
  case jtag =>
    have shifts (i : Jtag) := congrArg (Host.Outcome.next (φ := Fault) (ρ := Refusal)) (State.jtag_of_powered hpow i)
    exact ⟨shifts .idcode, shifts (.bypass din), shifts (.sample din), shifts (.debug what din dout)⟩
  case level => rfl

end Sys2Proof.Machine
end

