-- ==== Sys2Proof/Proofs/SecurityPages.lean ====
section
/-! SUPPORT. The commands of the security pages: lifecycle, reports, firmware, settings and fuses (R535 to R538, R546 to R553, R559,
R563). -/

namespace Sys2Proof.Machine

variable {s : State} {who : Requester} {n : Nat}

/-! ### Commands reach the security core (R560 to R563) -/

/-- A lifecycle command, whose OP bits LOCK protects. -/
theorem State.lcWrite_of_open {op : Nat} (h : s.writesOpen who (Pg.sec 0)) (hop : op < 8) :
    s.maskedWrite who (Pg.sec 0) 0x028 op 7 = s.lcCommand op := by
  obtain ⟨hwrites, hwho, hlock⟩ := h
  obtain ⟨w, hrow, -, hmasked, hcan, hw⟩ := State.maskedWrite_eq hwrites (c := .sec) (j := 0) (o := 0x028) (b := op) (sel := 7)
    (by decide) (by decide) (by decide) (by omega) (by decide) (by decide) (by decide) (by simp [hlock])
  have hall : w.can = 0xFFFFFFFF := by rw [hcan, hwho, hlock]; rfl
  have hbits : ∀ op : Fin 8, op.val &&& 7 &&& (regAt .sec 0 0x028).1.mw &&& 0xFFFFFFFF = op.val := by decide
  have hop' : w.masked = op := by rw [hmasked, hrow, hall]; exact hbits ⟨op, hop⟩
  rw [hw, if_neg (by decide)]
  exact congrArg s.lcCommand hop'

theorem State.attWrite_of_writes (h : s.writes who (Pg.sec 2)) : s.maskedWrite who (Pg.sec 2) 0x040 1 1 = s.attest := by
  have hat : CommandAt .sec 2 0x040 1 1 := by decide
  obtain ⟨w, hmasked, -, hw⟩ := State.maskedWrite_command h (by decide) hat
  rw [hw]
  simp [State.writeBlock, State.writeSec, hmasked, bit]

theorem State.fwWrite_of_writes {b sel : Nat} (h : s.writes who fwPage) (hat : CommandAt .sec 1 0x028 b sel) :
    s.maskedWrite who fwPage 0x028 b sel = s.fwCommand b := by
  obtain ⟨w, hmasked, -, hw⟩ := State.maskedWrite_command h (c := .sec) (j := 1) (by decide) hat
  rw [hw]
  exact congrArg s.fwCommand hmasked

theorem State.setWrite_of_writes {b : Nat} (h : s.writes who fwPage) (hat : CommandAt .sec 1 0x0A4 b b) :
    s.maskedWrite who fwPage 0x0A4 b b = s.setCommand b := by
  obtain ⟨w, hmasked, -, hw⟩ := State.maskedWrite_command h (c := .sec) (j := 1) (by decide) hat
  rw [hw]
  exact congrArg s.setCommand hmasked

/-- PROGRAM_KEY stores KEY and acts; LOCK protects both. -/
theorem State.fuseWrite_of_open (key : BitVec 2) (h : s.writesOpen who (Pg.sec 3)) :
    s.maskedWrite who (Pg.sec 3) 0x028 (key.toNat + 4) 7 = (s.setF (Pg.sec 3) F.SEC3_KEY key.toNat).programKey := by
  obtain ⟨hwrites, hwho, hlock⟩ := h
  have hkey := key.isLt
  obtain ⟨w, hrow, hsel, hmasked, hcan, hw⟩ := State.maskedWrite_eq hwrites (c := .sec) (j := 3) (o := 0x028) (b := key.toNat + 4)
    (sel := 7) (by decide) (by decide) (by decide) (by omega) (by decide) (by decide) (by decide) (by simp [hlock])
  have hall : w.can = 0xFFFFFFFF := by rw [hcan, hwho, hlock]; rfl
  have hbits : ∀ key : BitVec 2, (key.toNat + 4) &&& 7 &&& (regAt .sec 3 0x028).1.mw &&& 0xFFFFFFFF = key.toNat + 4 := by decide
  have hprog : ∀ key : BitVec 2, bit (key.toNat + 4) 2 = true := by decide
  have hput (x : Nat) : putBits x 0 2 ((key.toNat + 4) / 2 ^ 0) = putBits x 0 2 key.toNat := by
    rw [putBits, putBits]
    omega
  have hset (a : Nat) : s.setReg a (composed 3 (s.reg a) (key.toNat + 4)) = s.setReg a (putBits (s.reg a) 0 2 key.toNat) :=
    (State.setReg_composed_field s a _ _ (lo := 0) (w := 2) (by decide)).trans (congrArg (s.setReg a) (hput _))
  have hmasked' : w.masked = key.toNat + 4 := by rw [hmasked, hrow, hall]; exact hbits key
  rw [hw, if_neg (by decide)]
  show (if bit w.masked 2 then (s.setReg _ (composed (w.sel &&& w.can &&& 3) _ w.masked)).programKey else _) = _
  rw [hmasked', hsel, hall, if_pos (hprog key)]
  exact congrArg State.programKey (hset _)

/-! ### Words of a list of registers -/

theorem State.reg_setRegs_apart {a b : Nat} {l : List Nat} (h : b < a ∨ a + 4 * l.length ≤ b) : (s.setRegs a l).reg b = s.reg b := by
  induction l generalizing s a with
  | nil => rfl
  | cons v l ih =>
    rw [List.length_cons] at h
    rw [State.setRegs, ih (by omega), State.reg_setReg_ne _ _ (by omega)]

theorem State.reg_setRegs_word {a i : Nat} {l : List Nat} (hi : i < l.length) : (s.setRegs a l).reg (a + 4 * i) = l[i] % 2 ^ 32 := by
  induction l generalizing s a i with
  | nil => cases hi
  | cons v l ih =>
    cases i with
    | zero => rw [State.setRegs, State.reg_setRegs_apart (by omega)]; exact State.reg_setReg_self ..
    | succ i =>
      have hword := ih (s := s.setReg a v) (a := a + 4) (Nat.lt_of_succ_lt_succ hi)
      rw [show a + 4 + 4 * i = a + 4 * (i + 1) by omega] at hword
      exact hword

theorem State.setRegs_sec (s : State) (a : Nat) (l : List Nat) : (s.setRegs a l).sec = s.sec := by
  induction l generalizing s a with
  | nil => rfl
  | cons v l ih => exact ih ..

/-! ### Transitions of the lifecycle (R535) -/

theorem State.secRuns_iff : s.secRuns = true ↔ s.powered = true ∧ s.power.reset = none ∧ s.ctrlHalted 13 = false := by
  simp [State.secRuns, and_assoc]

theorem State.clear_sec (s : State) (k : WholeReset) (cause : Nat) : (s.clear k cause).sec = s.sec.after k := by
  simp [State.clear, apply_ite State.sec]

/-- A cold reset keeps the word of the fuses. -/
theorem State.lcState_clear (s : State) (cause : Nat) : (s.clear .cold cause).lcState = s.lcState := by
  have hkept : (s.clear .cold cause).f (Pg.sec 3) F.SEC3_LC_FUSES = s.f (Pg.sec 3) F.SEC3_LC_FUSES := by
    have hword (t : State) (ht : t.regs = s.regs.filter fun r => keptReg .cold r.1) :
        t.f (Pg.sec 3) F.SEC3_LC_FUSES = s.f (Pg.sec 3) F.SEC3_LC_FUSES := by
      have hlc : keptReg .cold (Pg.sec 3 * 4096 + F.SEC3_LC_FUSES.off) = true := by decide
      simp only [State.f, State.reg, ht, AMap.get?_filter (keptReg .cold), hlc, if_true]
    unfold State.clear
    extract_lets regs addr t1 t2
    have hsame : t2 = t1 := if_neg (by decide)
    rw [hsame]
    split_ifs
    · rw [State.f_setF_ne _ _ _ _ _ _ (by decide), hword t1 rfl]
    · exact hword t1 rfl
  simp only [State.lcState, hkept]

theorem State.lcState_of_fuses (h : s.f (Pg.sec 3) F.SEC3_LC_FUSES = 2 ^ n - 1) (hn : n ≤ 4) : s.lcState = n := by
  rw [State.lcState, h]
  interval_cases n <;> rfl

/-- The state u is one of lifecycle n, whose cold reset has begun, with the seeds of x. -/
def State.movedTo (x : Sec) (n : Nat) (u : State) : Prop :=
  u.lcState = n ∧ u.power.reset = some .cold ∧ u.power.cause = 5 ∧ u.sec.ownerSeed = x.ownerSeed ∧ u.sec.uds = x.uds

/-- A transition blows the fuses of its target and begins the cold reset; the seeds stay as the command left them. -/
theorem State.lcMove_movedTo {u : State} (hruns : s.secRuns = true) (hon : s.power.phase ≠ .workOff) (hu : u.power = s.power)
    (hn : n ≤ 4) : State.movedTo u.sec n (u.lcMove n) := by
  obtain ⟨hpow, hreset, -⟩ := State.secRuns_iff.1 hruns
  have hmove : u.lcMove n = State.clear _ .cold 5 := State.requestWhole_of_none
    (by rw [← hpow, State.powered, State.powered, ← hu]; rfl) (by rw [← hu] at hon; exact hon) (by rw [← hu] at hreset; exact hreset)
  rw [State.movedTo, hmove, State.lcState_clear, State.clear_power, State.clear_sec]
  refine ⟨State.lcState_of_fuses ?_ hn, rfl, rfl, rfl, rfl⟩
  rw [State.f_setF_ne _ _ _ _ _ _ (by decide), State.f_setF_self _ _ _ _ (by decide)]
  interval_cases n <;> rfl

theorem State.newChallenge_power (s : State) : s.newChallenge.power = s.power := State.setRegs_power ..

theorem State.newChallenge_sec (s : State) : s.newChallenge.sec = s.sec := State.setRegs_sec ..

/-- A challenge is no part of the words of commands. -/
theorem State.newChallenge_f {pg : Nat} {x : Fld} (h : pg * 4096 + x.off < Pg.sec 0 * 4096 + 0x030 ∨
    Pg.sec 0 * 4096 + 0x040 ≤ pg * 4096 + x.off) : s.newChallenge.f pg x = s.f pg x := by
  rw [State.f, State.newChallenge, State.reg_setRegs_apart (by simpa using h)]
  rfl

theorem State.emptyStaging_power (s : State) : s.emptyStaging.power = s.power := by
  simp only [State.emptyStaging, State.setRegs_power]
  rfl

theorem State.emptyStaging_sec (s : State) : s.emptyStaging.sec = { s.sec with staging := [] } := by
  simp only [State.emptyStaging, State.setRegs_sec]
  rfl

section

variable (hruns : s.secRuns = true) (hlc : s.f (Pg.sec 0) F.SEC0_BUSY = 0) (hfw : s.f fwPage F.SEC1_BUSY_028 = 0)
include hruns hlc hfw

theorem State.lcProvision_of_later (h : s.lcState ≠ 0) : s.lcCommand 1 = s.lcEnds 0x02 := by
  obtain ⟨st, hst⟩ := Nat.exists_eq_succ_of_ne_zero h
  simp [State.lcCommand, hruns, hlc, hfw, hst]

theorem State.lcDecommission_of_last (h : s.lcState = 4) : s.lcCommand 4 = s.lcEnds 0x02 := by
  simp [State.lcCommand, hruns, hlc, hfw, h]

/-- RETURN takes the challenge, and acts as its token is. -/
theorem State.lcReturn_eq (h : s.lcState = 1 ∨ s.lcState = 2) : s.lcCommand 3 =
    if s.tokenGood then (s.newChallenge.modSec Sec.eraseOwner).lcMove 3 else s.newChallenge.lcEnds 0x0B := by
  have hlc' : s.newChallenge.f (Pg.sec 0) F.SEC0_BUSY = 0 := (State.newChallenge_f (by decide)).trans hlc
  have hfw' : s.newChallenge.f fwPage F.SEC1_BUSY_028 = 0 := (State.newChallenge_f (by decide)).trans hfw
  rcases h with h | h <;> simp [State.lcCommand, hruns, hlc', hfw', h]

variable (hon : s.power.phase ≠ .workOff)
include hon

theorem State.lcProvision_movedTo (hblank : s.lcState = 0) (hkey : s.f (Pg.sec 3) F.SEC3_KEY_PRESENT ≠ 0) (hrng : s.rngHalted = false) :
    State.movedTo { s.sec with uds := some (Config.draw s.draws % 2 ^ 256) } 1 (s.lcCommand 1) := by
  have hcommand : s.lcCommand 1 = (({ s with draws := s.draws + 1 }.modSec fun x =>
      { x with uds := some (Config.draw s.draws % 2 ^ 256) }).setF (Pg.sec 3) F.SEC3_UDS_SET 1).lcMove 1 := by
    simp [State.lcCommand, hruns, hlc, hfw, hblank, hkey, hrng]
  rw [hcommand]
  exact State.lcMove_movedTo hruns hon rfl (by decide)

theorem State.lcDeploy_movedTo (hone : s.lcState = 1) (hrng : s.rngHalted = false) :
    State.movedTo { s.sec with ownerSeed := some (Config.draw s.draws % 2 ^ 256) } 2 (s.lcCommand 2) := by
  have hcommand : s.lcCommand 2 = ({ s with draws := s.draws + 1 }.modSec fun x =>
      { x with ownerSeed := some (Config.draw s.draws % 2 ^ 256) }).lcMove 2 := by
    simp [State.lcCommand, hruns, hlc, hfw, hone, hrng]
  rw [hcommand]
  exact State.lcMove_movedTo hruns hon rfl (by decide)

theorem State.lcReturn_movedTo (h : s.lcState = 1 ∨ s.lcState = 2) (hgood : s.tokenGood = true) :
    State.movedTo s.sec.eraseOwner 3 (s.lcCommand 3) := by
  have hmoved := State.lcMove_movedTo hruns hon (u := s.newChallenge.modSec Sec.eraseOwner) s.newChallenge_power (n := 3) (by decide)
  rw [State.lcReturn_eq hruns hlc hfw h, if_pos hgood]
  rwa [State.modSec, State.newChallenge_sec] at hmoved

theorem State.lcDecommission_movedTo (h : s.lcState ≠ 4) : State.movedTo s.sec.eraseOwner 4 (s.lcCommand 4) := by
  have hcommand : s.lcCommand 4 = (((s.modSec Sec.eraseOwner).emptyStaging).setF (Pg.sec 3) F.SEC3_DERIVE_DISABLE 1).lcMove 4 := by
    simp [State.lcCommand, hruns, hlc, hfw, h]
  have hpower : (((s.modSec Sec.eraseOwner).emptyStaging).setF (Pg.sec 3) F.SEC3_DERIVE_DISABLE 1).power = s.power := by
    rw [State.setF_power, State.emptyStaging_power]
    rfl
  have hmoved := State.lcMove_movedTo hruns hon hpower (n := 4) (Nat.le_refl 4)
  rw [State.setF_sec, State.emptyStaging_sec] at hmoved
  rw [hcommand]
  exact hmoved

end

/-! ### Firmware and settings commands (R546 to R559) -/

section

variable (hidle : s.fwIdle)
include hidle

theorem State.fwCommand_activate (reset : Bool) : s.fwCommand (1 + 2 * b2n reset) = s.fwActivate reset := by
  obtain ⟨hruns, hfw, hlc⟩ := hidle
  cases reset <;> simp [State.fwCommand, hruns, hfw, hlc, bit, b2n]

theorem State.fwCommand_confirm : s.fwCommand 4 = s.fwConfirm := by
  obtain ⟨hruns, hfw, hlc⟩ := hidle
  simp [State.fwCommand, hruns, hfw, hlc, bit]

theorem State.fwCommand_discard : s.fwCommand 8 = s.fwDiscard := by
  obtain ⟨hruns, hfw, hlc⟩ := hidle
  simp [State.fwCommand, hruns, hfw, hlc, bit]

theorem State.fwCommand_fetch : s.fwCommand 0x10 = s.fwFetch := by
  obtain ⟨hruns, hfw, hlc⟩ := hidle
  simp [State.fwCommand, hruns, hfw, hlc, bit]

end

/-- One command of the settings acts while the core runs and none is busy. -/
theorem State.setCommand_eq (hruns : s.secRuns = true) (hidle : s.f fwPage F.SEC1_BUSY_0A4 = 0) :
    s.setCommand 1 = s.setRead ∧ s.setCommand 2 = s.setWrite ∧ s.setCommand 4 = s.setDelete := by
  simp [State.setCommand, hruns, hidle, bit]

theorem State.flashCommand_of_good {b : Nat} : s.flashCommand who b true = s.maskedWrite who fwPage 0x0A4 b b := by
  simp [State.flashCommand]

/-- Flash that fails is as it was. -/
theorem State.flashCommand_bad_sec (b : Nat) : (s.flashCommand who b false).sec = s.sec := by
  unfold State.flashCommand
  extract_lets t
  by_cases hsame : (t.sec == s.sec) = true
  · rw [hsame, Bool.or_true, if_pos rfl]
    exact eq_of_beq hsame
  · rw [Bool.not_eq_true] at hsame
    rw [hsame, Bool.or_false, if_neg (by decide)]
    rfl

/-! ### Fuses (R531, R563) -/

/-- The state in which PROGRAM_KEY finds its key, and what it leaves of the register. -/
abbrev State.keyed (s : State) (key : BitVec 2) : State := s.setF (Pg.sec 3) F.SEC3_KEY key.toNat

/-- KEY is a field of its own. -/
theorem State.keyed_f {key : BitVec 2} {x : Fld} (h : F.SEC3_KEY.off ≠ x.off ∨ x.lo + x.w ≤ 32 ∧
    (x.lo + x.w ≤ F.SEC3_KEY.lo ∨ F.SEC3_KEY.lo + F.SEC3_KEY.w ≤ x.lo)) : (s.keyed key).f (Pg.sec 3) x = s.f (Pg.sec 3) x :=
  State.f_setF_other h

theorem State.keyed_secRuns (s : State) (key : BitVec 2) : (s.keyed key).secRuns = s.secRuns := rfl

theorem State.keyed_lcState (s : State) (key : BitVec 2) : (s.keyed key).lcState = s.lcState := by
  have hfuses : (s.keyed key).f (Pg.sec 3) F.SEC3_LC_FUSES = s.f (Pg.sec 3) F.SEC3_LC_FUSES := State.keyed_f (by decide)
  rw [State.lcState, hfuses, State.lcState]

theorem State.keyed_key (s : State) (key : BitVec 2) : (s.keyed key).f (Pg.sec 3) F.SEC3_KEY = key.toNat := by
  rw [State.f_setF_self _ _ _ _ (by decide)]
  exact Nat.mod_eq_of_lt key.isLt

/-- The end of PROGRAM_KEY without programming. -/
abbrev State.keyRefused (s : State) (r : Nat) : State := (s.setF (Pg.sec 3) F.SEC3_RESULT r).event (Pg.sec 3) Ev.SEC3_FUSE_PROGRAMMED

theorem State.keyRefused_shows {r : Nat} (hr : r < 8) : (s.keyRefused r).f (Pg.sec 3) F.SEC3_RESULT = r ∧
    (s.keyRefused r).f (Pg.sec 3) F.SEC3_KEY_PRESENT = s.f (Pg.sec 3) F.SEC3_KEY_PRESENT := by
  rw [State.f_event (by decide) (by decide) (by decide) (by decide), State.f_event (by decide) (by decide) (by decide) (by decide)]
  exact ⟨(State.f_setF_self _ _ _ _ (by decide)).trans (Nat.mod_eq_of_lt hr), State.f_setF_other (by decide)⟩

/-- The digest that PROGRAM_KEY blows into the fuses of key i. -/
abbrev State.keyWords (s : State) (i : Nat) : List Nat := (List.range 8).map fun w =>
  s.f (Pg.sec 3) (F.SEC3_DIGEST.sh (32 * i + 4 * w)) ||| s.f (Pg.sec 3) (F.SEC3_KEY_DATA.sh (4 * w))

/-- The state in which the fuses of key i have been programmed. -/
abbrev State.keyProgrammed (s : State) (i : Nat) : State :=
  let t := s.setRegs (Pg.sec 3 * 4096 + 0x060 + 32 * i) (s.keyWords i)
  ((t.setF (Pg.sec 3) F.SEC3_KEY_PRESENT (t.f (Pg.sec 3) F.SEC3_KEY_PRESENT ||| 2 ^ i)).setF (Pg.sec 3) F.SEC3_RESULT 0).event
    (Pg.sec 3) Ev.SEC3_FUSE_PROGRAMMED

theorem testBit_or_two_pow (x i : Nat) : (x ||| 2 ^ i).testBit i = true := by
  rw [Nat.testBit_or, Nat.testBit_two_pow_self, Bool.or_true]

theorem State.keyProgrammed_shows {i : Nat} (hi : i < 4) : bit ((s.keyProgrammed i).f (Pg.sec 3) F.SEC3_KEY_PRESENT) i = true ∧
    (s.keyProgrammed i).f (Pg.sec 3) F.SEC3_RESULT = 0 ∧ ∀ w, w < 8 →
      (s.keyProgrammed i).reg (Pg.sec 3 * 4096 + 0x060 + 32 * i + 4 * w) =
        s.f (Pg.sec 3) (F.SEC3_DIGEST.sh (32 * i + 4 * w)) ||| s.f (Pg.sec 3) (F.SEC3_KEY_DATA.sh (4 * w)) := by
  refine ⟨?_, ?_, fun w hw => ?_⟩
  · rw [State.f_event (by decide) (by decide) (by decide) (by decide), State.f_setF_other (by decide),
      State.f_setF_self _ _ _ _ (by decide), bit_eq_testBit, Nat.testBit_mod_two_pow, testBit_or_two_pow, Bool.and_true]
    exact decide_eq_true hi
  · rw [State.f_event (by decide) (by decide) (by decide) (by decide)]
    exact State.f_setF_self _ _ _ _ (by decide)
  · rw [State.reg_event _ _ _ _ (not_irqSentWord (.inl ?_)) ?_ ?_, State.setF, State.reg_setReg_ne _ _ ?_, State.setF,
      State.reg_setReg_ne _ _ ?_, State.reg_setRegs_word (by simpa using hw), List.getElem_map, List.getElem_range]
    · exact Nat.mod_eq_of_lt (Nat.or_lt_two_pow (State.f_lt ..) (State.f_lt ..))
    all_goals simp only [Pg.sec, oEvent, oCount, F.SEC3_KEY_PRESENT, F.SEC3_RESULT]; omega

theorem State.fuseCommand_of_good (key : Nat) :
    s.fuseCommand who key true = s.maskedWrite who (Pg.sec 3) 0x028 (key + 4) 7 := by
  rw [State.fuseCommand, Bool.true_or, if_pos rfl]

/-- A key that is not programmed ends as the register's write does. -/
theorem State.fuseCommand_of_kept {key : Nat} {good : Bool} (hkept : (s.maskedWrite who (Pg.sec 3) 0x028 (key + 4) 7).f (Pg.sec 3)
    F.SEC3_KEY_PRESENT = s.f (Pg.sec 3) F.SEC3_KEY_PRESENT) :
    s.fuseCommand who key good = s.maskedWrite who (Pg.sec 3) 0x028 (key + 4) 7 := by
  rw [State.fuseCommand, hkept, beq_self_eq_true, Bool.or_true, if_pos rfl]

section

variable (hruns : s.secRuns = true) (hidle : s.f (Pg.sec 3) F.SEC3_BUSY = 0) (key : BitVec 2)
include hruns hidle

theorem State.programKey_of_later (h : s.lcState ≠ 0) : (s.keyed key).programKey = (s.keyed key).keyRefused 1 := by
  have hbusy : (s.keyed key).f (Pg.sec 3) F.SEC3_BUSY = 0 := (State.keyed_f (by decide)).trans hidle
  simp [State.programKey, State.keyed_secRuns, State.keyed_lcState, hruns, hbusy, h]

theorem State.programKey_of_present (hblank : s.lcState = 0) (h : bit (s.f (Pg.sec 3) F.SEC3_KEY_PRESENT) key.toNat = true) :
    (s.keyed key).programKey = (s.keyed key).keyRefused 2 := by
  have hbusy : (s.keyed key).f (Pg.sec 3) F.SEC3_BUSY = 0 := (State.keyed_f (by decide)).trans hidle
  have hpresent : bit ((s.keyed key).f (Pg.sec 3) F.SEC3_KEY_PRESENT) key.toNat = true := by rwa [State.keyed_f (by decide)]
  simp [State.programKey, State.keyed_secRuns, State.keyed_lcState, State.keyed_key, hruns, hbusy, hblank, hpresent]

theorem State.programKey_of_absent (hblank : s.lcState = 0) (h : bit (s.f (Pg.sec 3) F.SEC3_KEY_PRESENT) key.toNat = false) :
    (s.keyed key).programKey = (s.keyed key).keyProgrammed key.toNat := by
  have hbusy : (s.keyed key).f (Pg.sec 3) F.SEC3_BUSY = 0 := (State.keyed_f (by decide)).trans hidle
  have habsent : bit ((s.keyed key).f (Pg.sec 3) F.SEC3_KEY_PRESENT) key.toNat = false := by rwa [State.keyed_f (by decide)]
  simp [State.programKey, State.keyed_secRuns, State.keyed_lcState, State.keyed_key, hruns, hbusy, hblank, habsent]

end

/-! ### The settled statement -/

/-- Settles O59: each command reaches the security core, which finds its conditions met and acts. -/
theorem securityPages : Obligations.SecurityPages := by
  intro s who host reset good key sec idle moves
  refine ⟨fun hopen ⟨hruns, hlc, hfw⟩ hon => ?_, fun hwrites => ?_, fun hwrites hidle => ?_, fun hwrites hruns hidle => ?_,
    ⟨_, rfl, State.flashCommand_bad_sec 2⟩, ⟨_, rfl, State.flashCommand_bad_sec 4⟩, fun hopen hruns hidle => ?_⟩
  · have hmoves {i : Instr} {n op : Nat} {x : Sec} (hi : exec i s = .next (s.maskedWrite who (Pg.sec 0) 0x028 op 7)) (hop : op < 8)
        (hmoved : State.movedTo x n (s.lcCommand op)) (hwiped : n = 3 ∨ n = 4 → x.ownerSeed = none)
        (huds : n = 1 → x.uds = some (Config.draw s.draws % 2 ^ 256))
        (howner : n = 2 → x.ownerSeed = some (Config.draw s.draws % 2 ^ 256)) : moves i n := by
      obtain ⟨hstate, hreset, hcause, hseed, hsecret⟩ := hmoved
      exact ⟨_, hi.trans (congrArg _ (State.lcWrite_of_open hopen hop)), hstate, hreset, hcause, fun h => hseed.trans (hwiped h),
        fun h => hsecret.trans (huds h), fun h => hseed.trans (howner h)⟩
    refine ⟨fun hblank hkey hrng => ?_, fun hone hrng => ?_, fun hst hgood => ?_, fun hst hbad => ?_, fun hlast => ?_, fun hlater => ?_,
      fun hlast => ?_⟩
    · exact hmoves rfl (by decide) (State.lcProvision_movedTo hruns hlc hfw hon hblank hkey hrng) nofun (fun _ => rfl) nofun
    · exact hmoves rfl (by decide) (State.lcDeploy_movedTo hruns hlc hfw hon hone hrng) nofun nofun fun _ => rfl
    · exact hmoves rfl (by decide) (State.lcReturn_movedTo hruns hlc hfw hon hst hgood) (fun _ => rfl) nofun nofun
    · refine congrArg Host.Outcome.next ((State.lcWrite_of_open hopen (by decide)).trans ?_)
      rw [State.lcReturn_eq hruns hlc hfw hst, hbad]
      rfl
    · exact hmoves rfl (by decide) (State.lcDecommission_movedTo hruns hlc hfw hon hlast) (fun _ => rfl) nofun nofun
    · exact congrArg Host.Outcome.next
        ((State.lcWrite_of_open hopen (by decide)).trans (State.lcProvision_of_later hruns hlc hfw hlater))
    · exact congrArg Host.Outcome.next
        ((State.lcWrite_of_open hopen (by decide)).trans (State.lcDecommission_of_last hruns hlc hfw hlast))
  · exact congrArg Host.Outcome.next (State.attWrite_of_writes hwrites)
  · have hactivate : CommandAt .sec 1 0x028 (1 + 2 * b2n reset) 3 := by cases reset <;> decide
    refine ⟨congrArg Host.Outcome.next ?_, congrArg Host.Outcome.next ?_, congrArg Host.Outcome.next ?_, congrArg Host.Outcome.next ?_⟩
    · exact (State.fwWrite_of_writes hwrites hactivate).trans (State.fwCommand_activate hidle reset)
    · exact (State.fwWrite_of_writes hwrites (by decide)).trans (State.fwCommand_confirm hidle)
    · exact (State.fwWrite_of_writes hwrites (by decide)).trans (State.fwCommand_discard hidle)
    · exact (State.fwWrite_of_writes (s := s.poke _ _) hwrites (by decide)).trans (State.fwCommand_fetch hidle)
  · obtain ⟨hread, hwrite, hdelete⟩ := State.setCommand_eq hruns hidle
    refine ⟨congrArg Host.Outcome.next ?_, congrArg Host.Outcome.next ?_, congrArg Host.Outcome.next ?_⟩
    · exact (State.setWrite_of_writes hwrites (by decide)).trans hread
    · exact State.flashCommand_of_good.trans ((State.setWrite_of_writes hwrites (by decide)).trans hwrite)
    · exact State.flashCommand_of_good.trans ((State.setWrite_of_writes hwrites (by decide)).trans hdelete)
  · have hpresent : (s.keyed key).f sec F.SEC3_KEY_PRESENT = s.f sec F.SEC3_KEY_PRESENT := State.keyed_f (by decide)
    have hrefused {r : Nat} (hr : r < 8) (hprogram : (s.keyed key).programKey = (s.keyed key).keyRefused r) :
        ∃ u, exec (.fuseProgramKey who key good) s = .next u ∧ u.f sec F.SEC3_RESULT = r ∧
          u.f sec F.SEC3_KEY_PRESENT = s.f sec F.SEC3_KEY_PRESENT := by
      obtain ⟨hresult, hkept⟩ := State.keyRefused_shows (s := s.keyed key) hr
      have hwrite := (State.fuseWrite_of_open key hopen).trans hprogram
      refine ⟨_, congrArg Host.Outcome.next (State.fuseCommand_of_kept ?_), ?_, ?_⟩ <;> rw [hwrite]
      exacts [hkept.trans hpresent, hresult, hkept.trans hpresent]
    refine ⟨fun hblank habsent => ?_, fun hblank hset => ?_, fun hlater => ?_⟩
    · have hwrite := (State.fuseWrite_of_open key hopen).trans (State.programKey_of_absent hruns hidle key hblank habsent)
      obtain ⟨hbit, hresult, hwords⟩ := State.keyProgrammed_shows (s := s.keyed key) key.isLt
      refine ⟨_, congrArg Host.Outcome.next ((State.fuseCommand_of_good _).trans hwrite), hbit, hresult, fun w hw => (hwords w hw).trans ?_⟩
      rw [State.keyed_f (.inl ?_), State.keyed_f (.inl ?_)] <;> simp only [F.SEC3_KEY, F.SEC3_DIGEST, F.SEC3_KEY_DATA, Fld.sh] <;> omega
    · exact hrefused (by decide) (State.programKey_of_present hruns hidle key hblank hset)
    · exact hrefused (by decide) (State.programKey_of_later hruns hidle key hlater)

end Sys2Proof.Machine
end

