-- ==== Sys2Proof/Proofs/IntakeJobs.lean ====
section
/-! SUPPORT. Jobs, engines and streams of the intake: what an engine takes, and how a stream starts (R373 to R387, R397, R398). -/

namespace Sys2Proof.Machine

variable {s : State} {p j : Nat}

/-! ### Engines (R384, R387, R397, R398) -/

section

variable {e : Nat} {isRef : Bool}

/-- An engine that serves no unit, is busy, disabled, or finds no unit waiting takes none. -/
theorem State.grantEngine_of_none (h : e = 0 ∨ (AMap.get? e s.engines).isSome = true ∨ s.f (Pg.intk e) F.INTKE_DISABLE = 1 ∨
    s.grantChoice (engineKind e) = none) : s.grantEngine e isRef = s := by
  rcases h with h | h | h | h
  · simp [State.grantEngine, h]
  · simp [State.grantEngine, h]
  · simp [State.grantEngine, h]
  · simp [State.grantEngine, h]

variable {q k n : Nat} {x : IntkJob} {t : IntkStream} (hserves : e ≠ 0) (hfree : AMap.get? e s.engines = none)
  (hon : s.f (Pg.intk e) F.INTKE_DISABLE ≠ 1) (hchoice : s.grantChoice (engineKind e) = some (q, k, n)) (hstream : s.streams q k n x t)
include hserves hfree hon hchoice hstream

/-- A post-processor or the front end takes its sample, or drops a reference picture that has become stale. -/
theorem State.grantEngine_of_post (hkind : 5 ≤ engineKind e) :
    s.grantEngine e isRef = if s.dropsAtEnd x t then s.staleSample q k false else s.putEngine e q k n x.cls := by
  obtain ⟨hjob, hsample⟩ := hstream
  simp [State.grantEngine, hserves, hfree, hon, hchoice, hjob, hsample, hkind]

section

variable (hkind : engineKind e ≤ 4)
include hkind

/-- A decoder drops a stale picture that is no reference. -/
theorem State.grantEngine_of_stale (hdrops : s.dropsAtStart x t isRef = true) : s.grantEngine e isRef = s.staleSample q k true := by
  obtain ⟨hjob, hsample⟩ := hstream
  have hnot : ¬ 5 ≤ engineKind e := by omega
  simp [State.grantEngine, hserves, hfree, hon, hchoice, hjob, hsample, hnot, hdrops]

variable (hkeeps : s.dropsAtStart x t isRef = false)
include hkeeps

theorem State.grantEngine_of_fault {f : AccFault × Nat} (hfault : s.firstFault (intkAcc q e) [(t.data, t.len)] false = some f) :
    s.grantEngine e isRef = s.sampleFault q k n e f := by
  obtain ⟨hjob, hsample⟩ := hstream
  have hnot : ¬ 5 ≤ engineKind e := by omega
  simp [State.grantEngine, hserves, hfree, hon, hchoice, hjob, hsample, hnot, hkeeps, hfault]

/-- A decoder begins a picture in a pool frame, or goes on with the one that another has begun. -/
theorem State.grantEngine_of_unit (hread : s.firstFault (intkAcc q e) [(t.data, t.len)] false = none) : s.grantEngine e isRef =
    ((if t.begun = 0 then s.allocFrame q k n else s).putEngine e q k n x.cls).modStream q k n fun y => { y with begun := y.begun + 1 } := by
  obtain ⟨hjob, hsample⟩ := hstream
  have hnot : ¬ 5 ≤ engineKind e := by omega
  simp [State.grantEngine, hserves, hfree, hon, hchoice, hjob, hsample, hnot, hkeeps, hread]

end

end

/-! ### The start of a stream (R377, R380, R386) -/

section

variable {x : IntkJob} {t : IntkStream} (hjob : s.job? p j = some x) (hwaits : x.unstarted = some t) (h : StreamHeader)
include hjob hwaits

/-- A stream of no data ends its live job, or rejects its sample. -/
theorem State.startStream_of_empty (hlen : t.len = 0) :
    s.startStream p j h = if x.live && t.ends then s.endSample p j else s.rejectSample p j t.no 0x53 := by
  simp [State.startStream, hjob, hwaits, hlen]

variable (hlen : t.len ≠ 0)
include hlen

theorem State.startStream_of_fault {f : AccFault × Nat} (hfault : s.firstFault (intkAcc p 0) [(t.data, t.len)] false = some f) :
    s.startStream p j h = s.sampleFault p j t.no 0 f := by
  simp [State.startStream, hjob, hwaits, hlen, hfault]

variable (hread : s.firstFault (intkAcc p 0) [(t.data, t.len)] false = none)
include hread

theorem State.startStream_of_accepted (hok : s.headerRejects p x t h = none) : s.startStream p j h =
    ((s.modStream p j t.no fun y => { y with header := some h, since := s.power.time }).servePool p).beginSample p j := by
  simp [State.startStream, hjob, hwaits, hlen, hread, hok]

theorem State.startStream_of_rejected {st : Nat} (hbad : s.headerRejects p x t h = some st) :
    s.startStream p j h = s.rejectSample p j t.no st := by
  simp [State.startStream, hjob, hwaits, hlen, hread, hbad]

end

/-! ### The settled statement -/

/-- Settles O42: a job is taken where it is ready, an engine acts by its kind, and a stream starts as its header's check ends. -/
theorem intakeJobsAndStreams : Obligations.IntakeJobsAndStreams := by
  intro s p j
  refine ⟨fun hready => ?_, fun hnot => ?_, fun e isRef => ⟨fun hnone => ?_, fun q k n x t hserves hfree hon hchoice hstream => ?_⟩,
    fun x t h hjob hwaits => ⟨fun hlen => ?_, fun hlen f hfault => ?_, fun hlen hread => ⟨fun hok => ?_, fun st hbad => ?_⟩⟩⟩
  · exact congrArg Host.Outcome.next (if_pos hready)
  · exact congrArg Host.Outcome.next (if_neg (Bool.eq_false_iff.1 hnot))
  · exact congrArg Host.Outcome.next (State.grantEngine_of_none (hnone.imp_left fun h => congrArg Fin.val h))
  · have hval : e.val ≠ 0 := fun h => hserves (Fin.ext h)
    refine ⟨fun hkind => ?_, fun hkind hdrops => ?_, fun hkind hkeeps => ⟨fun f hfault => ?_, fun hread => ?_⟩⟩
    · exact congrArg Host.Outcome.next (State.grantEngine_of_post hval hfree hon hchoice hstream hkind)
    · exact congrArg Host.Outcome.next (State.grantEngine_of_stale hval hfree hon hchoice hstream hkind hdrops)
    · exact congrArg Host.Outcome.next (State.grantEngine_of_fault hval hfree hon hchoice hstream hkind hkeeps hfault)
    · exact congrArg Host.Outcome.next (State.grantEngine_of_unit hval hfree hon hchoice hstream hkind hkeeps hread)
  · exact congrArg Host.Outcome.next (State.startStream_of_empty hjob hwaits h hlen)
  · exact congrArg Host.Outcome.next (State.startStream_of_fault hjob hwaits h hlen hfault)
  · exact congrArg Host.Outcome.next (State.startStream_of_accepted hjob hwaits h hlen hread hok)
  · exact congrArg Host.Outcome.next (State.startStream_of_rejected hjob hwaits h hlen hread hbad)

end Sys2Proof.Machine
end

