-- ==== Sys2Proof/Proofs/IntakeUnits.lean ====
section
/-! SUPPORT. Decoded units, budgets, post-processing, samples and batches of the intake (R377, R381 to R400). -/

namespace Sys2Proof.Machine

variable {s : State} {p j e : Nat}

/-! ### Decoded units (R381 to R383) -/

section

variable {q k n : Nat} {x : IntkJob} {t : IntkStream} {h0 : StreamHeader} (hengine : AMap.get? e s.engines = some (q, k, n))
  (hstream : s.streams q k n x t) (hheader : t.header = some h0) (hkind : engineKind e ≤ 4)
include hengine hstream hheader hkind

/-- What an engine that decodes works on. -/
theorem State.decoding_eq : s.decoding e = some (q, k, x, t, h0) := by
  obtain ⟨hjob, hsample⟩ := hstream
  simp [State.decoding, hengine, hjob, hsample, hheader, hkind]

theorem State.budgetExceeded_eq (cycles samples : Nat) : s.budgetExceeded e cycles samples =
    if x.overBudget t (t.partVclk + cycles) (if x.audio then samples else h0.width * h0.height) then s.abandonSample e q k t.no cycles
    else s := by
  simp only [State.budgetExceeded, State.decoding_eq hengine hstream hheader hkind]

variable {u : DecodedUnit}

/-- A unit that ran past its budget takes its sample with it. -/
theorem State.unitDone_of_over (hover : x.overBudget t (t.partVclk + u.cycles) (Machine.unitWork x.audio (u.header.getD h0) u) = true) :
    s.unitDone e u = s.abandonSample e q k t.no u.cycles := by
  simp only [State.unitDone, State.decoding_eq hengine hstream hheader hkind, hover, if_true]

variable (hwithin : x.overBudget t (t.partVclk + u.cycles) (Machine.unitWork x.audio (u.header.getD h0) u) = false)
include hwithin

/-- The state in which an engine has ended its unit. -/
abbrev State.unitEnded (s : State) (e : Nat) (u : DecodedUnit) : State :=
  (s.freeEngine e u.cycles).incF (Pg.intk e) F.INTKE_DAMAGED u.damage.length

/-- A part of a picture is added to what the picture has cost. -/
theorem State.unitDone_of_part (hshared : s.decoders q k t.no ≠ 1) : s.unitDone e u =
    ((s.unitEnded e u).modStream q k t.no fun y => { y with
      partVclk := t.partVclk + u.cycles, damage := y.damage ++ u.damage, since := (s.unitEnded e u).power.time }).applyIntkIdle e := by
  simp [State.unitDone, State.decoding_eq hengine hstream hheader hkind, hwithin, hshared]

variable (hlast : s.decoders q k t.no = 1)
include hlast

theorem State.unitDone_of_rejected {st : Nat} (hhas : u.header.isSome = true)
    (hbad : (s.unitEnded e u).headerRejects q x t (u.header.getD h0) = some st) :
    s.unitDone e u = ((s.unitEnded e u).rejectSample q k t.no st).applyIntkIdle e := by
  simp [State.unitDone, State.decoding_eq hengine hstream hheader hkind, hwithin, hlast, hhas, hbad]

/-- The stream after a whole unit: its header, and what the unit cost. -/
abbrev IntkStream.afterUnit (t : IntkStream) (audio : Bool) (h : StreamHeader) (u : DecodedUnit) : IntkStream :=
  { t with
    header := some h, spent := t.spent + (t.partVclk + u.cycles), begun := 0, partVclk := 0
    costs := if unitWork audio h u == 0 then t.costs else t.costs ++ [(t.partVclk + u.cycles, unitWork audio h u)] }

/-- A whole unit is a picture or a frame of sound of its sample. -/
theorem State.unitDone_of_kept (hok : u.header = none ∨ (s.unitEnded e u).headerRejects q x t (u.header.getD h0) = none) :
    let h := u.header.getD h0
    let t' := t.afterUnit x.audio h u
    let v := (s.unitEnded e u).modStream q k t.no fun _ => t'
    s.unitDone e u = ((if x.audio then v.soundDone q k t.no e x t' h u
      else v.pictureDone q k t.no e x t' h u).servePool q).applyIntkIdle e := by
  have hcheck : (if u.header.isSome then (s.unitEnded e u).headerRejects q x t (u.header.getD h0) else none) = none := by
    rcases hok with h | h <;> simp [h]
  simp only [State.unitDone, State.decoding_eq hengine hstream hheader hkind, hwithin, hlast, bne_self_eq_false, Bool.false_eq_true,
    if_false, hcheck]

end

/-! ### Post-processing (R391, R392, R400) -/

section

variable {cycles n : Nat} {x : IntkJob} {t : IntkStream} {rest : List IntkStream}
  (hengine : s.engines.find? (fun e => e.2.1 == p && e.2.2.1 == j && 5 ≤ engineKind e.1) = some (e, (p, j, n)))
  (hjob : s.job? p j = some x) (hfirst : x.streams = t :: rest)
include hengine hjob hfirst

/-- The front end copies a sample that the cache holds; one whose record has gone is decoded. -/
theorem State.postprocess_of_hit {hit : Nat × Nat} (hhit : t.hit = some hit) : s.postprocess p j cycles =
    (if (s.freeEngine e cycles).hitStands p x t hit then (s.freeEngine e cycles).copyCached p x t hit.1 hit.2
      else (s.freeEngine e cycles).modStream p j t.no fun y => { y with hit := none }).applyIntkIdle e := by
  simp only [State.postprocess, hengine, hjob, hfirst, hhit]

/-- The post-processor works on the next frame. -/
theorem State.postprocess_of_frame {h : StreamHeader} {f : IntkFrame} (hhit : t.hit = none) (hheader : t.header = some h)
    (hnext : t.nextOut = some f) : s.postprocess p j cycles = (if x.audio then (s.freeEngine e cycles).postChunk p j e x t f h
      else (s.freeEngine e cycles).postPicture p j e x t f h).applyIntkIdle e := by
  simp only [State.postprocess, hengine, hjob, hfirst, hhit, hheader, hnext]

end

/-! ### Samples (R376, R395, R398) -/

/-- A sample is there to be taken: that of a job of a list always, a live one once its counter has come to it. -/
abbrev State.sampleThere (s : State) (p : Nat) (x : IntkJob) : Bool :=
  !x.live || 0 < sx 32 ((s.value (s.devCtr p x.listCtr) + 2 ^ 32 - x.taken % 2 ^ 32) % 2 ^ 32)

theorem State.not_sampleThere (s : State) (p : Nat) (x : IntkJob) :
    (x.live && decide (sx 32 ((s.value (s.devCtr p x.listCtr) + 2 ^ 32 - x.taken % 2 ^ 32) % 2 ^ 32) ≤ 0)) = !s.sampleThere p x := by
  rw [State.sampleThere, Bool.not_or, Bool.not_not, ← decide_not]
  simp only [not_lt]

section

variable {x : IntkJob} (hjob : s.job? p j = some x)
include hjob

/-- A job that is closed, or whose partition does not run, takes no sample. -/
theorem State.beginSample_of_closed (h : x.closed = true ∨ s.active p = false) : s.beginSample p j = s := by
  simp only [State.beginSample, hjob]
  rcases h with h | h <;> simp [h]

variable (hopen : x.closed = false) (hactive : s.active p = true)
include hopen hactive

/-- After its last sample a job is closed once its streams have gone. -/
theorem State.beginSample_of_done (hdone : (x.noMore || (!x.live && x.samples ≤ x.taken)) = true) : s.beginSample p j =
    if x.streams.isEmpty && !((s.part p).overlay == .service && x.padding != 0) then s.closeJob p x else s := by
  simp only [State.beginSample, hjob, hopen, hactive, hdone, if_true]
  rfl

variable (hmore : (x.noMore || (!x.live && x.samples ≤ x.taken)) = false)
include hmore

theorem State.beginSample_of_waiting (h : ((s.part p).overlay == .service) = true ∨ x.mayBegin = false ∨ s.slotFree p x = false ∨
    s.sampleThere p x = false) : s.beginSample p j = s := by
  simp only [State.beginSample, hjob, hopen, hactive, hmore, State.not_sampleThere]
  rcases h with h | h | h | h <;> simp only [h] <;> simp

/-- The index of the sample that a job takes next, and the address of its entry. -/
abbrev IntkJob.nextIndex (x : IntkJob) : Nat := if x.ordered then x.order.getD x.taken 0 else x.taken
abbrev IntkJob.nextEntry (x : IntkJob) : Nat :=
  if x.live then x.listAt + 32 * (x.taken % 2 ^ x.listLog2) else x.listAt + 32 * x.nextIndex

/-- The stream of the sample that a job takes next, as its entry and the cache give it. -/
abbrev State.nextStream (s : State) (p : Nat) (x : IntkJob) (entry : List Byte) : IntkStream :=
  let t : IntkStream := { no := x.taken, index := x.nextIndex % 2 ^ 32, entry := entry, since := s.power.time }
  { t with hit := (s.lookup p x t).map fun k => (k.off, k.len) }

/-- The job has taken a sample. -/
abbrev State.taken (s : State) (p j : Nat) (t : IntkStream) : State :=
  (s.modJob p j fun y => { y with streams := y.streams ++ [t], carry := none, taken := y.taken + 1 }).servePool p

section

variable (hheld : ((s.part p).overlay == .service) = false) (hmay : x.mayBegin = true) (hslot : s.slotFree p x = true)
  (hthere : s.sampleThere p x = true) {entry : List Byte} (hread : s.rd? (intkAcc p 0) (x.nextEntry % 2 ^ 64) 32 = .ok entry)
include hheld hmay hslot hthere hread

theorem State.beginSample_of_fresh (hcarry : x.carry = none) : s.beginSample p j = s.taken p j (s.nextStream p x entry) := by
  simp only [State.beginSample, hjob, hopen, hactive, hmore, hheld, hmay, hslot, State.not_sampleThere, hthere, hread, hcarry]
  rfl

/-- A live stream's sample goes on with what the job carries of the one before it, if it has data in the same codec. -/
theorem State.beginSample_of_carried {c : IntkStream} (hcarry : x.carry = some c) : s.beginSample p j =
    let t := s.nextStream p x entry
    s.taken p j (if c.codec = t.codec ∧ t.len ≠ 0 then
      { t with header := c.header, reserved := c.reserved, frames := c.frames, recent := c.recent, nextNum := c.nextNum } else t) := by
  simp only [State.beginSample, hjob, hopen, hactive, hmore, hheld, hmay, hslot, State.not_sampleThere, hthere, hread, hcarry,
    Bool.and_eq_true, beq_iff_eq, bne_iff_ne]
  rfl

end

end

/-! ### Batches (R393, R395, R396) -/

section

variable {x : IntkJob} (hjob : s.job? p j = some x)
include hjob

theorem State.deliverBatch_of_unready (h : s.batchReady p x = false) : s.deliverBatch p j = s := by
  simp [State.deliverBatch, hjob, h]

variable (hready : s.batchReady p x = true)
include hready

/-- The batch that is next is the job's last. -/
abbrev IntkJob.lastNext (x : IntkJob) : Bool := x.closed && (x.delivered + 1) * x.batch == x.pos

/-- The batch of job j of partition p that is next, delivered in state v. -/
abbrev State.delivered (s : State) (p j : Nat) (x : IntkJob) (v : State) : State :=
  let v := ((v.opAdd (s.devCtr p x.doneCtr) 1).incF (Pg.intk 0) F.INTK0_BATCHES).modJob p j fun y =>
    { y with
      delivered := x.delivered + 1, recorded := false, rejected := AMap.del x.delivered y.rejected
      logged := AMap.del x.delivered y.logged
      entries := AMap.drop (x.delivered * y.batch) ((x.delivered + 1) * y.batch) y.entries }
  let v := if x.lastNext then v.dropJob p j else v
  if v.requested (Pg.intk 0) then v.applyIntake else v

/-- A batch with its record accepted is delivered. -/
theorem State.deliverBatch_of_recorded (hrec : x.recorded = true) : s.deliverBatch p j = s.delivered p j x s := by
  obtain ⟨-, hwrites⟩ := Bool.and_eq_true_iff.1 hready
  rw [Bool.not_eq_true'] at hwrites
  simp only [State.deliverBatch, hjob, hready, hrec, hwrites, Bool.not_true, Bool.false_eq_true, if_false, if_true]

/-- A batch is recorded, and delivered if its record is accepted at once. -/
theorem State.deliverBatch_of_written {v : State} (hrec : x.recorded = false) (hwr : s.recordBatch p j x x.lastNext = (v, none)) :
    s.deliverBatch p j = if v.intakeWrites p then v else s.delivered p j x v := by
  simp only [State.deliverBatch, hjob, hready, hrec, hwr, Bool.not_true, Bool.false_eq_true, if_false]

end

/-! ### The settled statement -/

/-- Settles O43: each command finds its unit, its sample or its batch, and acts by the equation of its case. -/
theorem intakeUnitsAndBatches : Obligations.IntakeUnitsAndBatches := by
  intro s p j
  refine ⟨fun e u q k n x t h0 hengine hstream hheader hkind => ⟨fun hover => ?_, fun hwithin hshared => ?_,
      fun hwithin hlast => ⟨fun st hhas hbad => ?_, fun hok => ?_⟩⟩,
    fun e cycles samples q k n x t h hengine hstream hheader hkind => ?_,
    fun cycles e n x t rest hengine hjob hfirst => ⟨fun hit hhit => ?_, fun h f hhit hheader hnext => ?_⟩,
    fun i x hi hjob => ?_, fun x hjob => ⟨fun hunready => ?_, fun hready hrec => ?_, fun v hready hrec hwr => ?_⟩⟩
  · exact congrArg Host.Outcome.next (State.unitDone_of_over hengine hstream hheader hkind hover)
  · exact congrArg Host.Outcome.next (State.unitDone_of_part hengine hstream hheader hkind hwithin hshared)
  · exact congrArg Host.Outcome.next (State.unitDone_of_rejected hengine hstream hheader hkind hwithin hlast hhas hbad)
  · exact congrArg Host.Outcome.next (State.unitDone_of_kept hengine hstream hheader hkind hwithin hlast hok)
  · exact congrArg Host.Outcome.next (State.budgetExceeded_eq hengine hstream hheader hkind cycles samples)
  · exact congrArg Host.Outcome.next (State.postprocess_of_hit hengine hjob hfirst hhit)
  · exact congrArg Host.Outcome.next (State.postprocess_of_frame hengine hjob hfirst hhit hheader hnext)
  · have hexec : exec i s = .next (s.beginSample p j) := by
      rcases List.mem_pair.1 hi with rfl | rfl <;> rfl
    rw [hexec]
    refine ⟨fun h => ?_, fun hopen hactive hdone => ?_, fun hopen hactive hmore hwaits => ?_,
      fun entry hopen hactive hmore hheld hmay hslot hthere hread => ⟨fun hcarry => ?_, fun c hcarry => ?_⟩⟩
    · exact congrArg Host.Outcome.next (State.beginSample_of_closed hjob h)
    · exact congrArg Host.Outcome.next (State.beginSample_of_done hjob hopen hactive hdone)
    · exact congrArg Host.Outcome.next (State.beginSample_of_waiting hjob hopen hactive hmore hwaits)
    · exact congrArg Host.Outcome.next (State.beginSample_of_fresh hjob hopen hactive hmore hheld hmay hslot hthere hread hcarry)
    · exact congrArg Host.Outcome.next (State.beginSample_of_carried hjob hopen hactive hmore hheld hmay hslot hthere hread hcarry)
  · exact congrArg Host.Outcome.next (State.deliverBatch_of_unready hjob hunready)
  · exact congrArg Host.Outcome.next (State.deliverBatch_of_recorded hjob hready hrec)
  · exact congrArg Host.Outcome.next (State.deliverBatch_of_written hjob hready hrec hwr)

end Sys2Proof.Machine
end

