-- ==== Sys2Proof/Proofs/Queue.lean ====
section
/-! SUPPORT. The queue of commands, under the ways in which the model puts updates together. As in the layer of memory's canonical
form, every operation gets one lemma of its name, and the proof for a chain of operations is the chain of their lemmas. -/

namespace Sys2Proof.Machine

variable {s : State} {cmds : List Instr}

/-- The queue holds the commands `cmds`. The definition is unfolded by neither the unifier nor the kernel by itself, so that two states
are compared before their queues are. -/
def State.Queued (cmds : List Instr) (s : State) : Prop := s.pending = cmds

theorem State.queued_self (s : State) : s.Queued s.pending := rfl

/-- An update that leaves the field alone leaves the queue. -/
theorem State.Queued.of_pending {u : State} (h : s.Queued cmds) (e : u.pending = s.pending) : u.Queued cmds := e.trans h

/-- What stands in the other fields does not count. -/
theorem State.Queued.mk
    {t : State} {mem faulty bulkLost regs shadow lastSet lastClear out draws opens power parts integ vfEnable numVfs fns
      kvs cambs stream switches intks engines applyPassed threads cores heldWrites hostStops hostTurn formes nextForme tiles
      heldPlans refused reducers canopy snaps fills replays sec} (h : t.Queued cmds) :
    (State.mk t.pending mem faulty bulkLost regs shadow lastSet lastClear out draws opens power parts integ vfEnable numVfs fns
      kvs cambs stream switches intks engines applyPassed threads cores heldWrites hostStops hostTurn formes nextForme tiles
      heldPlans refused reducers canopy snaps fills replays sec).Queued cmds := h

theorem State.Queued.ite {a b : State} {c : Prop} [Decidable c] (ha : a.Queued cmds) (hb : b.Queued cmds) :
    (if c then a else b).Queued cmds := by
  split <;> assumption

theorem State.Queued.ite_fst {α : Type} {a b : State × α} {c : Prop} [Decidable c] (ha : a.1.Queued cmds) (hb : b.1.Queued cmds) :
    (if c then a else b).1.Queued cmds := by
  split <;> assumption

/-- A fold leaves the queue when its step does. -/
theorem State.Queued.foldl {α : Type} {f : State → α → State} {l : List α} (h : s.Queued cmds)
    (hf : ∀ t x, t.Queued cmds → (f t x).Queued cmds) : (l.foldl f s).Queued cmds := by
  induction l generalizing s with
  | nil => exact h
  | cons x l ih => exact ih (hf s x h)

theorem State.Queued.foldl_fst {α β : Type} {f : State × β → α → State × β} {l : List α} {r : State × β} (h : r.1.Queued cmds)
    (hf : ∀ t x, t.1.Queued cmds → (f t x).1.Queued cmds) : (l.foldl f r).1.Queued cmds := by
  induction l generalizing r with
  | nil => exact h
  | cons x l ih => exact ih (hf r x h)

/-- The state of an answer that is known as a pair. -/
theorem State.Queued.of_fst {α : Type} {r : State × α} {t : State} {a : α} (h : r.1.Queued cmds) (e : r = (t, a)) :
    t.Queued cmds := by
  subst e
  exact h

/-- The state of a pair, carried over to a name for the pair. Where the pair is a fallible access, comparing the projections would
have the kernel evaluate the access. -/
theorem State.Queued.fst_of_eq {α : Type} {q r : State × α} (h : r.1.Queued cmds) (e : q = r) : q.1.Queued cmds := e ▸ h

/-- A match `m` on a state that may be there, known by its two equations: with the alternatives as variables, the kernel never
evaluates what the alternatives hold. -/
theorem State.Queued.matchOption {m : Option State → (State → State) → (Unit → State) → State} {o : Option State}
    {f : State → State} {g : Unit → State} (hsome : ∀ t f g, m (some t) f g = f t) (hnone : ∀ f g, m none f g = g ())
    (hf : ∀ t, o = some t → (f t).Queued cmds) (hg : (g ()).Queued cmds) : (m o f g).Queued cmds := by
  cases o with
  | some t => exact hsome t f g ▸ hf t rfl
  | none => exact hnone f g ▸ hg

/-- The same for a match on a write's answer: the state, and the status of a write that failed. -/
theorem State.Queued.matchWritten {m : State × Option Nat → (State → Nat → State) → (State → State) → State}
    {r : State × Option Nat} {f : State → Nat → State} {g : State → State} (hsome : ∀ t n f g, m (t, some n) f g = f t n)
    (hnone : ∀ t f g, m (t, none) f g = g t) (hr : r.1.Queued cmds) (hf : ∀ t n, t.Queued cmds → (f t n).Queued cmds)
    (hg : ∀ t, t.Queued cmds → (g t).Queued cmds) : (m r f g).Queued cmds := by
  obtain ⟨t, _ | n⟩ := r
  · exact hnone t f g ▸ hg t hr
  · exact hsome t n f g ▸ hf t n hr

theorem State.Queued.wrBind {r : Wr} {g : State → Wr} (h : r.1.Queued cmds) (hg : ∀ t, t.Queued cmds → (g t).1.Queued cmds) :
    (r.bind g).1.Queued cmds := by
  unfold Wr.bind
  split
  · exact hg _ h
  · exact h

/-- Every next state that an outcome answers holds the commands. -/
def outQueued (cmds : List Instr) (o : Out) : Prop := ∀ u, o = .next u → u.Queued cmds

theorem State.Queued.next (h : s.Queued cmds) : outQueued cmds (.next s) := by
  rintro u ⟨⟩
  exact h

/-! ### Fallible operations of the table engine -/

/-- The state that an error with a mark carries holds the commands. -/
def KvErr.Queued (cmds : List Instr) : KvErr → Prop
  | .after _ t => t.Queued cmds
  | _ => True

/-- What a fallible operation of the table engine answers has `P`, and the error that it may end with holds the commands. -/
def KvHolds {α : Type} (cmds : List Instr) (P : α → Prop) : Except KvErr α → Prop
  | .ok a => P a
  | .error e => e.Queued cmds

theorem KvHolds.of_ok {α : Type} {P : α → Prop} {r : Except KvErr α} {a : α} (h : KvHolds cmds P r) (e : r = .ok a) : P a := by
  subst e
  exact h

theorem KvHolds.of_error {α : Type} {P : α → Prop} {r : Except KvErr α} {x : KvErr} (h : KvHolds cmds P r) (e : r = .error x) :
    x.Queued cmds := by
  subst e
  exact h

theorem KvHolds.bind {α β : Type} {P : α → Prop} {Q : β → Prop} {r : Except KvErr α} {g : α → Except KvErr β} (h : KvHolds cmds P r)
    (hg : ∀ a, P a → KvHolds cmds Q (g a)) : KvHolds cmds Q (r >>= g) := by
  cases r with
  | error e => exact h
  | ok a => exact hg a h

theorem KvHolds.foldlM {α β : Type} {P : α → Prop} {f : α → β → Except KvErr α} {l : List β} {a : α} (h : P a)
    (hf : ∀ t x, P t → KvHolds cmds P (f t x)) : KvHolds cmds P (l.foldlM f a) := by
  induction l generalizing a with
  | nil => exact h
  | cons x l ih => exact (hf a x h).bind fun _ => ih

end Sys2Proof.Machine
end

