-- ==== Sys2Proof/Proofs/QueueOps.lean ====
section
/-! SUPPORT. The queue of commands stands still under the operations on registers, links, accesses, arenas and operands. -/

namespace Sys2Proof.Machine

variable {s : State} {cmds : List Instr}

/-! ### Machine/Ops.lean -/

theorem State.Queued.setReg {a v : Nat} (h : s.Queued cmds) : (s.setReg a v).Queued cmds := h.of_pending rfl

theorem State.Queued.setF {pg : Nat} {f : Fld} {v : Nat} (h : s.Queued cmds) : (s.setF pg f v).Queued cmds := h.setReg

theorem State.Queued.incF {pg : Nat} {f : Fld} {n : Nat} (h : s.Queued cmds) : (s.incF pg f n).Queued cmds := h.setF

theorem State.Queued.satF {pg : Nat} {f : Fld} {n : Nat} (h : s.Queued cmds) : (s.satF pg f n).Queued cmds := h.setF

theorem State.Queued.incF2 {pg : Nat} {lo hi : Fld} {n : Nat} (h : s.Queued cmds) : (s.incF2 pg lo hi n).Queued cmds := h.setF.setF

theorem State.Queued.latchWords {pg : Nat} (h : s.Queued cmds) : (s.latchWords pg).Queued cmds := by
  unfold State.latchWords
  extract_lets _ one _ s1
  have hs1 : s1.Queued cmds := by
    unfold s1
    refine h.foldl fun t x h => ?_
    unfold one
    split
    · exact h.setReg
    · exact h
  exact .mk hs1

theorem State.Queued.latch {pg : Nat} (h : s.Queued cmds) : (s.latch pg).Queued cmds := by
  unfold State.latch
  extract_lets s1 s2
  have hs1 : s1.Queued cmds := h.latchWords
  have hs2 : s2.Queued cmds := .mk hs1
  exact hs2.setF.setF

theorem State.Queued.emit {o : Output} (h : s.Queued cmds) : (s.emit o).Queued cmds := h.of_pending rfl

theorem State.Queued.setPart {p : Nat} {x : Part} (h : s.Queued cmds) : (s.setPart p x).Queued cmds := h.of_pending rfl

theorem State.Queued.modPart {p : Nat} {f : Part → Part} (h : s.Queued cmds) : (s.modPart p f).Queued cmds := h.setPart

theorem State.Queued.setFn {f : Nat} {x : Fn} (h : s.Queued cmds) : (s.setFn f x).Queued cmds := h.of_pending rfl

theorem State.Queued.modFn {f : Nat} {g : Fn → Fn} (h : s.Queued cmds) : (s.modFn f g).Queued cmds := h.setFn

theorem State.Queued.clearUnsignalled {f vec : Nat} (h : s.Queued cmds) : (s.clearUnsignalled f vec).Queued cmds := by
  unfold State.clearUnsignalled
  extract_lets s1
  have hs1 : s1.Queued cmds := h.modFn
  exact .ite hs1 (.mk hs1)

theorem State.Queued.setSpacing {f t : Nat} {owed : Bool} (h : s.Queued cmds) : (s.setSpacing f t owed).Queued cmds := h.of_pending rfl

theorem State.Queued.sendMessage {f vec : Nat} (h : s.Queued cmds) : (s.sendMessage f vec).Queued cmds :=
  h.emit.incF.clearUnsignalled

theorem State.Queued.message {f vec : Nat} (h : s.Queued cmds) : (s.message f vec).Queued cmds := by
  unfold State.message
  extract_lets
  split
  · exact h.modFn
  · split
    · exact h.modFn
    · split
      · split
        · exact h.setSpacing
        · exact h.sendMessage.setSpacing
      · exact h.sendMessage

theorem State.Queued.signal {pg : Nat} (h : s.Queued cmds) : (s.signal pg).Queued cmds := by
  unfold State.signal
  extract_lets s1 s2
  have hs1 : s1.Queued cmds := h.message.ite h
  have hs2 : s2.Queued cmds := by
    unfold s2
    split
    · exact hs1.message.ite hs1
    · exact hs1
  exact hs2.emit.ite hs2

theorem State.Queued.raise {a m : Nat} (h : s.Queued cmds) : (s.raise a m).Queued cmds := by
  unfold State.raise
  extract_lets v1
  have hv1 : v1.Queued cmds := h.setReg
  exact .mk hv1

theorem State.Queued.raiseF {pg : Nat} {f : Fld} (h : s.Queued cmds) : (s.raiseF pg f).Queued cmds := h.raise

theorem State.Queued.clearW1c {a m : Nat} (h : s.Queued cmds) : (s.clearW1c a m).Queued cmds := by
  unfold State.clearW1c
  extract_lets _ v1
  have hv1 : v1.Queued cmds := h.setReg
  exact .mk hv1

theorem State.Queued.settings {pg b n : Nat} (h : s.Queued cmds) : (s.settings pg b n).Queued cmds :=
  h.raise.setReg.signal.ite h.raise.setReg

theorem State.Queued.event {pg b : Nat} (h : s.Queued cmds) : (s.event pg b).Queued cmds := h.settings

theorem State.Queued.interrupt {f vec : Nat} (h : s.Queued cmds) : (s.interrupt f vec).Queued cmds := h.message.ite h.satF.event

theorem State.Queued.history {kind : Nat} {payload : List Nat} (h : s.Queued cmds) : (s.history kind payload).Queued cmds := by
  unfold State.history
  exact .ite h (.mk h)

theorem State.Queued.refuse {who : Requester} {offset : Nat} (h : s.Queued cmds) : (s.refuse who offset).Queued cmds :=
  h.satF.ite h.satF.setF.setF.raiseF

theorem State.Queued.poke {a : Nat} {b : List Byte} (h : s.Queued cmds) : (s.poke a b).Queued cmds := h.of_pending rfl

theorem State.Queued.wipe {a n : Nat} (h : s.Queued cmds) : (s.wipe a n).Queued cmds := h.of_pending rfl

theorem State.Queued.damage {a symbols : Nat} (h : s.Queued cmds) : (s.damage a symbols).Queued cmds := h.of_pending rfl

theorem State.Queued.setRegs {a : Nat} {l : List Nat} (h : s.Queued cmds) : (s.setRegs a l).Queued cmds := by
  induction l generalizing s a with
  | nil => exact h
  | cons v l ih => exact ih h.setReg

theorem State.Queued.fileRecord {p : Nat} {r : ErrRec} {part : Nat} (h : s.Queued cmds) : (s.fileRecord p r part).Queued cmds :=
  (h.setRegs.incF.ite h.satF).event

theorem State.Queued.errRecord {p : Nat} {r : ErrRec} (h : s.Queued cmds) : (s.errRecord p r).Queued cmds := h.fileRecord.history

theorem State.Queued.errRecordAll {r : ErrRec} (h : s.Queued cmds) : (s.errRecordAll r).Queued cmds := by
  unfold State.errRecordAll
  extract_lets ps
  clear_value ps
  split
  · exact h.errRecord
  · exact (h.foldl fun _ _ h => h.fileRecord).history

/-! ### Machine/Net.lean -/

theorem State.Queued.setLink {l : Nat} {x : Link} (h : s.Queued cmds) : (s.setLink l x).Queued cmds := h.of_pending rfl

theorem State.Queued.modLink {l : Nat} {g : Link → Link} (h : s.Queued cmds) : (s.modLink l g).Queued cmds := h.setLink

theorem State.Queued.setLinkSt {l st : Nat} (h : s.Queued cmds) : (s.setLinkSt l st).Queued cmds := h.modLink

theorem State.Queued.putFlits {l : Nat} {fl : List Flit} (h : s.Queued cmds) : (s.putFlits l fl).Queued cmds := by
  unfold State.putFlits
  extract_lets _ _ s1 s2
  have hs1 : s1.Queued cmds := h.setLink
  have hs2 : s2.Queued cmds := hs1.incF2
  exact .mk hs2

theorem State.Queued.transmit {l : Nat} {items : List (List Byte × Option Packet)} (h : s.Queued cmds) :
    (s.transmit l items).Queued cmds :=
  h.setLink.putFlits

theorem State.Queued.sendWaiting {l : Nat} (h : s.Queued cmds) : (s.sendWaiting l).1.Queued cmds :=
  h.ite_fst (h.ite_fst h.setLink.transmit)

theorem State.Queued.sendLink {l : Nat} {b : List Byte} (h : s.Queued cmds) : (s.sendLink l b).Queued cmds :=
  h.modLink.setLink.transmit.ite h.modLink

theorem State.Queued.giveCredit {l : Nat} {p : Packet} {level : BitVec 4} {pool : Bool} (h : s.Queued cmds) :
    (s.giveCredit l p level pool).Queued cmds :=
  h.sendLink.ite h

theorem State.Queued.leaves {w : Waiting} (h : s.Queued cmds) : (s.leaves w).Queued cmds := by
  unfold State.leaves
  split
  · exact h.giveCredit
  · exact h

theorem State.Queued.drain {l : Nat} (h : s.Queued cmds) : (s.drain l).Queued cmds := h.sendWaiting.foldl fun _ _ h => h.leaves

theorem State.Queued.sendFrom {l : Nat} {w : Waiting} (h : s.Queued cmds) : (s.sendFrom l w).Queued cmds := h.modLink.drain

theorem State.Queued.sendOn {l : Nat} {p : Packet} (h : s.Queued cmds) : (s.sendOn l p).Queued cmds := h.sendFrom

theorem State.Queued.originate {p : Packet} {u : State} (h : s.Queued cmds) (e : s.originate p = some u) : u.Queued cmds := by
  unfold State.originate at e
  split at e
  · cases e
  · dsimp only at e
    split at e
    · cases e
      exact h.of_pending rfl
    · split at e
      · cases e
        exact h.sendOn
      · cases e

theorem State.Queued.setCtx {c e : Nat} (h : s.Queued cmds) : (s.setCtx c e).Queued cmds := h.of_pending rfl

theorem State.Queued.fillLoses {p c : Nat} (h : s.Queued cmds) : (s.fillLoses p c).Queued cmds := by
  unfold State.fillLoses
  extract_lets
  split
  · exact h
  · exact .ite h (.ite (.ite (.mk h) h) h.satF)

theorem State.Queued.ctxDown {c : Nat} (h : s.Queued cmds) : (s.ctxDown c).Queued cmds := h.ite h.setCtx.fillLoses.event.history

theorem State.Queued.request {r : RemoteReq} (h : s.Queued cmds) : (s.request r).Queued cmds := by
  unfold State.request
  extract_lets _ _ _ _ v2 _ s1
  have hv2 : v2.Queued cmds := h.setCtx
  have hs1 : s1.Queued cmds := .mk hv2
  split
  · exact .mk h
  · split
    next e => exact hs1.originate e
    · exact hs1.ctxDown

theorem State.Queued.remoteWrite {p c off : Nat} {b : List Byte} {who : RemoteWho} {plan cls : Nat} (h : s.Queued cmds) :
    (s.remoteWrite p c off b who plan cls).Queued cmds :=
  h.request

theorem State.Queued.remoteRead {p c off n : Nat} {who : RemoteWho} (h : s.Queued cmds) :
    (s.remoteRead p c off n who).Queued cmds :=
  h.request

/-! ### Machine/Access.lean -/

theorem State.Queued.damageRecord {p addr symbols : Nat} {l : Loc} (h : s.Queued cmds) :
    (s.damageRecord p addr symbols l).Queued cmds := by
  unfold State.damageRecord
  extract_lets
  split
  · exact h.errRecord
  · exact h.satF.event.errRecord
  · exact h

theorem State.Queued.faultRecord {p unit addr : Nat} {f : AccFault} (h : s.Queued cmds) :
    (s.faultRecord p unit addr f).Queued cmds := by
  unfold State.faultRecord
  extract_lets
  split
  · exact .ite h (.errRecord (.mk h))
  · exact .ite h (.damageRecord (.mk h))
  · exact h.errRecord
  · exact h.errRecord

theorem State.Queued.pokePhys {a : Nat} {b : List Byte} (h : s.Queued cmds) : (s.pokePhys a b).Queued cmds := by
  unfold State.pokePhys
  split
  · exact h.poke
  · refine h.foldl fun t x h => ?_
    extract_lets
    split
    · exact h.poke
    · exact h.poke

theorem State.Queued.overwrite {l : Loc} {before n after : Nat} {u : State} (h : s.Queued cmds)
    (e : s.overwrite l before n after = .ok u) : u.Queued cmds := by
  unfold State.overwrite at e
  split at e
  · cases e
    exact h
  · dsimp only at e
    split at e
    · cases e
    · cases e
      exact h.of_pending rfl

theorem State.Queued.dirty {p idx : Nat} (h : s.Queued cmds) : (s.dirty p idx).Queued cmds := h.modPart

/-! ### Machine/Arena.lean -/

theorem State.Queued.setCamb {p : Nat} {x : Camb} (h : s.Queued cmds) : (s.setCamb p x).Queued cmds := h.of_pending rfl

theorem State.Queued.modCamb {p : Nat} {g : Camb → Camb} (h : s.Queued cmds) : (s.modCamb p g).Queued cmds := h.setCamb

theorem State.Queued.modArena {p a : Nat} {g : Arena → Arena} (h : s.Queued cmds) : (s.modArena p a g).Queued cmds := h.modCamb

theorem State.Queued.showMapped {p : Nat} (h : s.Queued cmds) : (s.showMapped p).Queued cmds := h.setF

theorem State.Queued.mapWritten {p first n : Nat} (h : s.Queued cmds) : (s.mapWritten p first n).Queued cmds := h.of_pending rfl

theorem State.Queued.setEntry {p idx e : Nat} (h : s.Queued cmds) : (s.setEntry p idx e).Queued cmds := by
  unfold State.setEntry
  extract_lets _ v1 s1
  have hv1 : v1.Queued cmds := h.mapWritten
  have hs1 : s1.Queued cmds := .mk hv1
  exact hs1.modPart.showMapped

theorem State.Queued.dropEntries {p first n : Nat} (h : s.Queued cmds) : (s.dropEntries p first n).Queued cmds := by
  unfold State.dropEntries
  extract_lets _ v1 s1
  have hv1 : v1.Queued cmds := h.mapWritten
  have hs1 : s1.Queued cmds := .mk hv1
  exact hs1.modPart.showMapped

theorem State.Queued.placeStack {p : Nat} {a : Arena} {x frame layer : Nat} (h : s.Queued cmds) :
    (s.placeStack p a x frame layer).Queued cmds :=
  h.modArena.setEntry

theorem State.Queued.layerBad {p : Nat} {f : Option (AccFault × Nat)} (h : s.Queued cmds) : (s.layerBad p f).Queued cmds := by
  unfold State.layerBad
  extract_lets s1
  have hs1 : s1.Queued cmds := h.modCamb
  split
  · exact hs1.faultRecord
  · exact hs1

theorem State.Queued.pokeHost {p a idx : Nat} {b : List Byte} (h : s.Queued cmds) : (s.pokeHost p a idx b).Queued cmds := by
  unfold State.pokeHost
  split
  · exact h.poke
  · exact h.poke

theorem State.Queued.perform {p : Nat} {l : Loc} {b : List Byte} {w : Writer} (h : s.Queued cmds) :
    (s.perform p l b w).Queued cmds := by
  unfold State.perform
  split
  · exact h.poke
  · exact h.pokePhys.dirty
  · exact h.pokeHost.dirty.ite h.satF.event
  · exact h.remoteWrite

theorem State.Queued.put {p : Nat} {core : Option Nat} {l : Loc} {b : List Byte} {w : Writer} {before after : Nat}
    (h : s.Queued cmds) :
    (s.put p core l b w before after).1.Queued cmds := by
  unfold State.put
  extract_lets now
  have hnow : now.1.Queued cmds := by
    unfold now
    split
    · exact h
    next e => exact (h.overwrite e).perform
  split
  · exact .ite_fst (.mk h) hnow
  · exact hnow

theorem State.Queued.modLayer {p l : Nat} {g : List Byte → List Byte} (h : s.Queued cmds) : (s.modLayer p l g).Queued cmds := by
  unfold State.modLayer
  split
  · exact h
  · split
    · exact h.incF
    · split
      · exact h
      · split
        · exact h.put
        · exact h.layerBad

theorem State.Queued.touchArena {p : Nat} {a : Arena} {x : Nat} {w : Writer} (h : s.Queued cmds) :
    (s.touchArena p a x w).Queued cmds :=
  h.modArena

theorem State.Queued.releaseFrom {p : Nat} {a : Arena} (h : s.Queued cmds) : (s.releaseFrom p a).1.Queued cmds := by
  unfold State.releaseFrom
  split
  · exact h
  · exact h.faultRecord

theorem State.Queued.place {p : Nat} {a : Arena} {x : Nat} {w : Writer} (h : s.Queued cmds) :
    (s.place p a x w).1.Queued cmds := by
  unfold State.place
  extract_lets _ _ r
  have hr : r.1.Queued cmds := h.releaseFrom
  split
  · exact h.placeStack
  · split
    · exact hr.modArena.setEntry.placeStack
    · split
      · exact hr
      · split
        · exact hr.modArena.setEntry.incF.modLayer.placeStack
        · split
          · exact hr
          · extract_lets _ s1 _ s2
            have hs1 : s1.Queued cmds := hr.modArena
            have hs2 : s2.Queued cmds := .mk hs1
            clear_value s2
            exact hs2.modCamb

theorem State.Queued.arenaWrite {p addr : Nat} {w : Writer} (h : s.Queued cmds) : (s.arenaWrite p addr w).Queued cmds := by
  unfold State.arenaWrite
  extract_lets
  split
  · exact h
  · split
    · exact h
    · extract_lets
      split
      · split
        next e => exact (h.place.of_fst e).touchArena
        next e => exact (h.place.of_fst e).incF.event
      · split
        next e => exact (h.place.of_fst e).touchArena
        next e => exact (h.place.of_fst e).incF.event
      · exact h.touchArena

theorem State.Queued.releaseWrites {p idx : Nat} (h : s.Queued cmds) : (s.releaseWrites p idx).Queued cmds := by
  unfold State.releaseWrites
  extract_lets _ s1
  have hs1 : s1.Queued cmds := .mk h
  refine hs1.foldl fun t x h => ?_
  extract_lets _ s2
  have hs2 : s2.Queued cmds := h.arenaWrite
  split
  · exact hs2.faultRecord
  · split
    next e => exact (hs2.put.of_fst e).faultRecord
    next e => exact hs2.put.of_fst e

theorem State.Queued.store {p : Nat} {core : Option Nat} {addr : Nat} {b : List Byte} {w : Writer} (h : s.Queued cmds) :
    (s.store p core addr b w).1.Queued cmds := by
  unfold State.store
  refine h.foldl_fst fun t x h => ?_
  split
  · exact h
  · extract_lets s1
    have hs1 : s1.Queued cmds := h.arenaWrite
    split
    · exact hs1
    · split
      next e => exact hs1.put.of_fst e
      next e => exact hs1.put.of_fst e

theorem State.Queued.storeBits {p : Nat} {core : Option Nat} {addr : Nat} {b : List Byte} {m0 m1 : Nat} {w : Writer}
    (h : s.Queued cmds) :
    (s.storeBits p core addr b m0 m1 w).1.Queued cmds := by
  unfold State.storeBits
  extract_lets
  refine h.foldl_fst fun t x h => ?_
  split
  · exact h
  · extract_lets s1
    have hs1 : s1.Queued cmds := h.arenaWrite
    split
    · exact hs1
    · extract_lets
      split
      · exact hs1
      · split
        next e => exact hs1.put.of_fst e
        next e => exact hs1.put.of_fst e

theorem State.Queued.storeRec {p unit : Nat} {core : Option Nat} {addr : Nat} {b : List Byte} {who : Writer}
    (h : s.Queued cmds) :
    (s.storeRec p unit core addr b who).1.Queued cmds := by
  unfold State.storeRec
  split
  next e => exact h.store.of_fst e
  next e => exact (h.store.of_fst e).faultRecord

theorem State.Queued.readArenas {p : Nat} (h : s.Queued cmds) : (s.readArenas p).Queued cmds := by
  unfold State.readArenas
  extract_lets _ _ _ table s1
  have hs1 : s1.Queued cmds := by
    unfold s1
    split
    · exact h.faultRecord
    · exact h
  clear_value table
  split
  · exact hs1.modCamb.event
  · extract_lets _ _ s3 s4
    have hs3 : s3.Queued cmds := hs1.modCamb
    have hs4 : s4.Queued cmds := hs3.foldl fun _ _ h => h.dropEntries
    exact hs4.event.ite hs4

theorem State.Queued.resetArenas {p : Nat} (h : s.Queued cmds) : (s.resetArenas p).Queued cmds :=
  (h.foldl fun _ _ h => h.storeRec.storeRec.storeRec.storeRec.dropEntries.modArena).modCamb

theorem State.Queued.arenaLose {p idx : Nat} (h : s.Queued cmds) : (s.arenaLose p idx).Queued cmds := by
  unfold State.arenaLose
  split
  · exact h
  · exact h.modArena

theorem State.Queued.copyFrame {src dst : Nat} (h : s.Queued cmds) : (s.copyFrame src dst).Queued cmds := by
  unfold State.copyFrame
  extract_lets s1
  have hs1 : s1.Queued cmds := h.pokePhys
  exact .mk hs1

theorem State.Queued.frameDamage {p unit idx frame : Nat} {u : State} (h : s.Queued cmds)
    (e : s.frameDamage p unit idx frame = some u) : u.Queued cmds := by
  unfold State.frameDamage at e
  obtain ⟨x, _, rfl⟩ := Option.map_eq_some_iff.1 e
  exact h.faultRecord

theorem State.Queued.spillPage {p : Nat} {a : Arena} {x : Spill} {src : Nat} (h : s.Queued cmds) :
    (s.spillPage p a x src).Queued cmds := by
  unfold State.spillPage
  extract_lets _ s1 s2 s3
  have hs1 : s1.Queued cmds := h.copyFrame.modArena
  have hs2 : s2.Queued cmds := .mk hs1
  have hs3 : s3.Queued cmds := hs2.setEntry.incF
  exact hs3.incF

theorem State.Queued.spillWaiter {p : Nat} {a : Arena} {x : Spill} (h : s.Queued cmds) : (s.spillWaiter p a x).Queued cmds :=
  h.modArena.setEntry

theorem State.Queued.endSpill {p : Nat} {x : Spill} (h : s.Queued cmds) : (s.endSpill p x).Queued cmds := by
  unfold State.endSpill
  extract_lets s1
  have hs1 : s1.Queued cmds := h.modCamb
  split
  · exact hs1
  · extract_lets spills src
    split
    next t e =>
      split_ifs at e
      exact hs1.frameDamage e
    next =>
      exact ((hs1.spillPage.ite hs1.modArena).spillWaiter.ite (hs1.spillPage.ite hs1.modArena)).releaseWrites.releaseWrites

/-! ### Machine/Operands.lean -/

theorem State.Queued.wr {w : Acc} {a : Nat} {b : List Byte} (h : s.Queued cmds) : (s.wr w a b).1.Queued cmds := h.store

theorem State.Queued.writeRow {w : Acc} {d : TDesc} {a0 i1 i2 i3 : Nat} {codes : List Nat} (h : s.Queued cmds) :
    (s.writeRow w d a0 i1 i2 i3 codes).1.Queued cmds := by
  unfold State.writeRow
  extract_lets
  refine h.foldl_fst fun t x h => ?_
  split
  · exact h
  · exact h.storeBits

end Sys2Proof.Machine
end

