-- ==== Sys2Proof/Proofs/QueueTraining.lean ====
section
/-! SUPPORT. The queue of commands stands still under the operations on programs, cambia, collectives and row data. -/

namespace Sys2Proof.Machine

variable {s : State} {cmds : List Instr}

/-! ### Machine/Prog.lean -/

theorem State.Queued.setTh {core t : Nat} {x : Thread} (h : s.Queued cmds) : (s.setTh core t x).Queued cmds := h.of_pending rfl

theorem State.Queued.modTh {core t : Nat} {g : Thread → Thread} (h : s.Queued cmds) : (s.modTh core t g).Queued cmds := h.setTh

theorem State.Queued.setCore {n : Nat} {x : Core} (h : s.Queued cmds) : (s.setCore n x).Queued cmds := h.of_pending rfl

theorem State.Queued.modCore {n : Nat} {g : Core → Core} (h : s.Queued cmds) : (s.modCore n g).Queued cmds := h.setCore

theorem State.Queued.beginWaves {owner : Option Nat} {kind : WaveKind} (h : s.Queued cmds) :
    (s.beginWaves owner kind).Queued cmds :=
  h.of_pending rfl

theorem State.Queued.stepTime {t : Nat} (h : s.Queued cmds) : (s.stepTime t).Queued cmds := by
  unfold State.stepTime
  extract_lets
  exact .mk h

theorem State.Queued.idleRestart {c : Nat} (h : s.Queued cmds) : (s.idleRestart c).Queued cmds := h.ite h.modCore

theorem State.Queued.rampStep {c : Nat} (h : s.Queued cmds) : (s.rampStep c).Queued cmds := by
  unfold State.rampStep
  split
  · exact h
  · exact h.ite h.modCore

theorem State.Queued.setForme {i : Nat} {x : Forme} (h : s.Queued cmds) : (s.setForme i x).Queued cmds := h.of_pending rfl

theorem State.Queued.modForme {i : Nat} {g : Forme → Forme} (h : s.Queued cmds) : (s.modForme i g).Queued cmds := h.setForme

theorem State.Queued.countOp {c : Nat} (h : s.Queued cmds) : (s.countOp c).Queued cmds := h.incF

theorem State.Queued.setValue {c v : Nat} (h : s.Queued cmds) : (s.setValue c v).Queued cmds := by
  unfold State.setValue
  extract_lets _ s1
  have hs1 : s1.Queued cmds := h.setReg
  exact .mk hs1

theorem State.Queued.opAddAlways {c : Nat} {n : Int} (h : s.Queued cmds) : (s.opAddAlways c n).Queued cmds := h.countOp.setValue

theorem State.Queued.opAdd {c : Nat} {n : Int} (h : s.Queued cmds) : (s.opAdd c n).Queued cmds := h.countOp.ite h.countOp.setValue

theorem State.Queued.opSet {c v : Nat} (h : s.Queued cmds) : (s.opSet c v).Queued cmds := h.countOp.ite h.countOp.setValue

theorem State.Queued.claimRaw {c : Nat} (h : s.Queued cmds) : (s.claimRaw c).1.Queued cmds := h.countOp.setValue.ite_fst h.countOp

theorem State.Queued.opClaim {c : Nat} (h : s.Queued cmds) : (s.opClaim c).1.Queued cmds := h.countOp.ite_fst h.claimRaw

theorem State.Queued.claimSetLoop {claim : State → Nat → State × Option Nat} {base n : Nat} {x : ClaimSet} (h : s.Queued cmds)
    (hclaim : ∀ t c, t.Queued cmds → (claim t c).1.Queued cmds) : (claimSetLoop claim base n s x).1.Queued cmds := by
  induction n generalizing s x with
  | zero => exact h
  | succ n ih =>
    unfold Sys2Proof.Machine.claimSetLoop
    extract_lets
    split
    · exact h
    · split
      next t _ e => exact (hclaim _ _ h).of_fst e
      next t e => exact ih ((hclaim _ _ h).of_fst e)

theorem State.Queued.modCq {f q : Nat} {g : CompQueue → CompQueue} (h : s.Queued cmds) : (s.modCq f q g).Queued cmds := h.modFn

theorem State.Queued.modSq {f q : Nat} {g : SubQueue → SubQueue} (h : s.Queued cmds) : (s.modSq f q g).Queued cmds := h.modFn

theorem State.Queued.writeCqe {r : HostRef} {status detail time : Nat} (h : s.Queued cmds) :
    (s.writeCqe r status detail time).Queued cmds :=
  h.modCq.satF.ite (h.modCq.poke.modCq.incF.incF.interrupt.ite h.modCq.poke.modCq.incF.incF)

theorem State.Queued.endEntry {r : HostRef} {status detail : Nat} (h : s.Queued cmds) : (s.endEntry r status detail).Queued cmds :=
  h.ite (h.modFn.ite h.writeCqe)

theorem State.Queued.dropEntry {r : HostRef} (h : s.Queued cmds) : (s.dropEntry r).Queued cmds := h.modCq.ite h

theorem State.Queued.tlbUse {core addr : Nat} (h : s.Queued cmds) : (s.tlbUse core addr).Queued cmds := by
  unfold State.tlbUse
  extract_lets _ _ _ s1
  have hs1 : s1.Queued cmds := .ite (.mk h) h
  exact h.ite hs1.modCore

theorem State.Queued.fetchLine {core t line : Nat} (h : s.Queued cmds) : (s.fetchLine core t line).Queued cmds := by
  unfold State.fetchLine
  extract_lets r1 _ s1
  have hs1 : s1.Queued cmds := h.modTh.tlbUse
  clear_value r1
  split
  · exact hs1.remoteRead
  · exact hs1.faultRecord
  · exact hs1

theorem State.Queued.startThread {core t : Nat} {r : StartReq} (h : s.Queued cmds) : (s.startThread core t r).Queued cmds :=
  h.setTh.fetchLine

theorem State.Queued.startReq {core slot : Nat} {r : StartReq} (h : s.Queued cmds) : (s.startReq core slot r).Queued cmds := by
  unfold State.startReq
  split
  · exact h.startThread
  · exact h.modCore

theorem State.Queued.formeFault {i status detail : Nat} (h : s.Queued cmds) : (s.formeFault i status detail).Queued cmds :=
  h.ite (h.setForme.foldl fun _ _ h => h.setValue)

theorem State.Queued.modTile {core i code : Nat} {g : Tile → Tile} (h : s.Queued cmds) : (s.modTile core i code g).Queued cmds :=
  h.of_pending rfl

theorem State.Queued.setTilePhase {core i code : Nat} {ph : TilePhase} (h : s.Queued cmds) :
    (s.setTilePhase core i code ph).Queued cmds :=
  h.modTile

theorem State.Queued.epilogueEnd {core i tile status : Nat} (h : s.Queued cmds) :
    (s.epilogueEnd core i tile status).Queued cmds := by
  unfold State.epilogueEnd
  split
  · exact h.setTilePhase
  · extract_lets s1
    have hs1 : s1.Queued cmds := .ite (.mk h) h.setTilePhase
    exact hs1.formeFault.ite hs1.formeFault

theorem State.Queued.progFault {core t status pc : Nat} (h : s.Queued cmds) : (s.progFault core t status pc).Queued cmds :=
  h.ite h.setF.setF.raiseF.setF.setF.event

theorem State.Queued.orphan {core t : Nat} (h : s.Queued cmds) : (s.orphan core t).Queued cmds := h.of_pending rfl

theorem State.Queued.issued {core t : Nat} (h : s.Queued cmds) : (s.issued core t).Queued cmds := h.modCore

theorem State.Queued.endProgram {core t status : Nat} (h : s.Queued cmds) : (s.endProgram core t status).Queued cmds := by
  unfold State.endProgram
  extract_lets _ s1 s2 s3 s4 s5
  have hs1 : s1.Queued cmds := h.issued.ite h
  have hs2 : s2.Queued cmds := hs1.setTh.orphan
  have hs3 : s3.Queued cmds := by
    unfold s3
    split
    · exact hs2.opAdd
    · exact hs2
  have hs4 : s4.Queued cmds := by
    unfold s4
    split
    · exact hs3.epilogueEnd
    · exact hs3.ite hs3.progFault
  have hs5 : s5.Queued cmds := by
    unfold s5
    split
    · exact hs4.endEntry
    · exact hs4
  split
  · exact hs5
  · exact hs5.modCore.startThread

theorem State.Queued.threadFault {core t addr : Nat} {f : AccFault} (h : s.Queued cmds) :
    (s.threadFault core t addr f).Queued cmds := by
  unfold State.threadFault
  split
  · exact h.faultRecord.modTh
  · exact h.faultRecord.modTh
  · exact h.faultRecord.endProgram

theorem State.Queued.formeError {core status opcode slot : Nat} (h : s.Queued cmds) :
    (s.formeError core status opcode slot).Queued cmds :=
  h.event.ite h.event.setF.setF.setF.raiseF

theorem State.Queued.endStep1 {i : Nat} {x : Forme} (h : s.Queued cmds) : (s.endStep1 i x).Queued cmds := by
  unfold State.endStep1
  extract_lets s1 s2
  have hs1 : s1.Queued cmds := h.modLayer.ite h
  have hs2 : s2.Queued cmds := hs1.storeRec.ite hs1
  refine hs2.foldl fun t x h => ?_
  extract_lets
  exact .mk h

theorem State.Queued.endStep2 {i : Nat} (h : s.Queued cmds) : (s.endStep2 i).Queued cmds := by
  unfold State.endStep2
  split
  · exact h
  · exact h.ite (h.setForme.ite h.setForme.storeRec)

theorem State.Queued.endStep3 {i : Nat} (h : s.Queued cmds) : (s.endStep3 i).Queued cmds := by
  unfold State.endStep3
  split
  · exact h
  · split
    · exact h
    · extract_lets s1 s2 s3
      have hs1 : s1.Queued cmds := .mk h
      have hs2 : s2.Queued cmds := hs1.opAddAlways.ite hs1
      have hs3 : s3.Queued cmds := by
        unfold s3
        split
        · exact hs2.endEntry
        · exact hs2
      exact hs3.ite (hs3.foldl fun _ _ h => h.formeError)

theorem State.Queued.endForme {i status : Nat} (h : s.Queued cmds) : (s.endForme i status).Queued cmds := by
  unfold State.endForme
  split
  · exact h
  · extract_lets _ _ s1
    have hs1 : s1.Queued cmds := .endStep1 (.mk h)
    exact hs1.setForme.endStep2.endStep3

/-! ### Machine/Cambium.lean -/

theorem State.Queued.showArmed {p : Nat} {armed committing : Bool} (h : s.Queued cmds) :
    (s.showArmed p armed committing).Queued cmds :=
  (h.foldl fun _ _ h => h.setF.setF).setF

theorem State.Queued.arm {p : Nat} {u : Update} (h : s.Queued cmds) : (s.arm p u).Queued cmds := h.modCamb.showArmed.setF

theorem State.Queued.showIntake {p unit : Nat} (h : s.Queued cmds) : (s.showIntake p unit).Queued cmds := h.setF

theorem State.Queued.overrun {b : GradBlock} (h : s.Queued cmds) : (s.overrun b).Queued cmds := by
  unfold State.overrun
  extract_lets _ s1
  have hs1 : s1.Queued cmds := h.satF
  split
  · exact hs1
  · exact hs1.modCamb.event

theorem State.Queued.blockArrives {b : GradBlock} (h : s.Queued cmds) : (s.blockArrives b).Queued cmds := by
  unfold State.blockArrives
  split
  · exact h.overrun
  · split
    · exact h.overrun
    · exact h.overrun.ite h.modCamb.showIntake

theorem State.Queued.disarm {p : Nat} (h : s.Queued cmds) : (s.disarm p).Queued cmds := by
  unfold State.disarm
  extract_lets _ s1 s2 s3
  have hs1 : s1.Queued cmds := h.foldl fun _ _ h => h.satF
  have hs2 : s2.Queued cmds := .mk hs1
  have hs3 : s3.Queued cmds := hs2.modCamb
  exact hs3.showArmed.foldl fun _ _ h => h.showIntake

theorem State.Queued.abortUpdate {p : Nat} (h : s.Queued cmds) : (s.abortUpdate p).Queued cmds := by
  unfold State.abortUpdate
  split
  · exact h
  · exact h.ite h.modForme.disarm.endForme.event

theorem State.Queued.finishForme {i status : Nat} (h : s.Queued cmds) : (s.finishForme i status).Queued cmds :=
  h.endForme.abortUpdate.ite h.endForme

theorem State.Queued.writeShard {w : Acc} {d : TDesc} {i0 : Nat} {codes : List Nat} {scale : Option Nat} (h : s.Queued cmds) :
    (s.writeShard w d i0 codes scale).1.Queued cmds := by
  unfold State.writeShard
  split
  next e => exact h.writeRow.of_fst e
  next e =>
    have ht := h.writeRow.of_fst e
    split
    · exact ht.wr
    · exact ht

theorem State.Queued.countWeights {unit : Nat} {nw : NewWeights} (h : s.Queued cmds) : (s.countWeights unit nw).Queued cmds :=
  ((h.incF.ite h).incF.ite (h.incF.ite h)).satF.event.ite ((h.incF.ite h).incF.ite (h.incF.ite h))

theorem State.Queued.applyBlock {unit : Nat} {b : GradBlock} {u : Update} {e : UpdEntry} (h : s.Queued cmds) :
    (s.applyBlock unit b u e).Queued cmds := by
  unfold State.applyBlock
  extract_lets _ _ _ _ _ _ _ _ _ _ _ _ _ _ _ _ _ _ _ cw s2 _ r2 r3 r4 r5 s3 s4 s5 s6
  have hs2 : s2.Queued cmds := .mk h
  have hr2 : r2.1.Queued cmds := hs2.writeShard
  have hr3 : r3.1.Queued cmds := by
    unfold r3
    split
    · exact hr2
    · exact hr2.writeShard
  have hr4 : r4.1.Queued cmds := by
    unfold r4
    clear_value cw
    split
    · exact hr3.writeShard
    · exact hr3
  have hr5 : r5.1.Queued cmds := by
    unfold r5
    split
    · exact hr4.ite_fst hr4.wr
    · exact hr4
  have hs3 : s3.Queued cmds := by
    unfold s3
    split
    · exact hr5.faultRecord
    · exact hr5
  have hs4 : s4.Queued cmds := hs3.incF2
  have hs5 : s5.Queued cmds := hs4.countWeights
  have hs6 : s6.Queued cmds := hs5.ite hs5.satF.event
  split
  · exact h.faultRecord
  · exact hs6.modCamb

theorem State.Queued.cambGrant {unit k : Nat} (h : s.Queued cmds) : (s.cambGrant unit k).Queued cmds := h.modCamb

theorem State.Queued.applyNext {unit : Nat} (h : s.Queued cmds) : (s.applyNext unit).Queued cmds := by
  unfold State.applyNext
  extract_lets
  split
  · split
    · exact h
    · exact h.ite h.cambGrant.applyBlock.modCamb
  · exact h

theorem State.Queued.spillDone {p : Nat} (h : s.Queued cmds) : (s.spillDone p).Queued cmds := by
  unfold State.spillDone
  split
  · exact h
  · exact h.cambGrant.endSpill

/-! ### Machine/Coll.lean -/

theorem State.Queued.setGrp {g e : Nat} (h : s.Queued cmds) : (s.setGrp g e).Queued cmds := h.of_pending rfl

theorem State.Queued.modColl {c : Coll} {g : Coll → Coll} (h : s.Queued cmds) : (s.modColl c g).Queued cmds := h.of_pending rfl

theorem State.Queued.collSend {c : Coll} {k kind cls w6 w7 : Nat} {data : List Byte} (h : s.Queued cmds) :
    (s.collSend c k kind cls w6 w7 data).Queued cmds := by
  unfold State.collSend
  extract_lets
  split
  next e => exact h.originate e
  · exact h.ctxDown

theorem State.Queued.endColl {c : Coll} {status : Nat} (h : s.Queued cmds) : (s.endColl c status).Queued cmds := by
  unfold State.endColl
  extract_lets _ s1
  have hs1 : s1.Queued cmds := .mk h
  exact hs1.ite hs1.incF.finishForme

theorem State.Queued.collFault {c : Coll} {f : AccFault × Nat} (h : s.Queued cmds) : (s.collFault c f).Queued cmds :=
  h.faultRecord.endColl

theorem State.Queued.collSweep (h : s.Queued cmds) : s.collSweep.Queued cmds := h.foldl fun _ _ h => h.endColl.ite h

theorem State.Queued.readOwn {c : Coll} {r k : Nat} (h : s.Queued cmds) : (s.readOwn c r k).1.Queued cmds := by
  unfold State.readOwn
  extract_lets _ _ _ _ _ s1
  have hs1 : s1.Queued cmds := by
    unfold s1
    split
    · exact h
    · split
      · exact h.modCamb
      · exact h
  split
  · exact h
  · exact hs1

theorem State.Queued.place1 {c : Coll} {r k : Nat} {codes : List Nat} (h : s.Queued cmds) :
    (s.place1 c r k codes).1.Queued cmds := by
  unfold State.place1
  extract_lets _ _ _ s1
  have hs1 : s1.Queued cmds := h.modColl
  exact .ite_fst (.mk hs1) hs1.writeRow

theorem State.Queued.spreadHere {c : Coll} {r k : Nat} {codes : List Nat} (h : s.Queued cmds) :
    (s.spreadHere c r k codes).1.Queued cmds :=
  h.modColl.place1

theorem State.Queued.reducedHere {c : Coll} {r k : Nat} {acc : List Nat} (h : s.Queued cmds) :
    (s.reducedHere c r k acc).1.Queued cmds := by
  unfold State.reducedHere
  extract_lets
  split
  · exact h.modColl
  · exact h.spreadHere.ite_fst h.place1

theorem State.Queued.reduceChunk {c : Coll} {r k : Nat} (h : s.Queued cmds) : (s.reduceChunk c r k).1.Queued cmds := by
  unfold State.reduceChunk
  extract_lets _ _ _ _ _ _ s1 _ _ r01 _ _ _ s2 s3
  have hs1 : s1.Queued cmds := .mk h
  have hr01 : r01.1.Queued cmds := hs1.readOwn.ite_fst hs1
  have hs2 : s2.Queued cmds := hr01.modColl
  have hs3 : s3.Queued cmds := hs2.modColl
  split
  · exact h
  · split
    · exact h
    · split
      · exact hr01
      · exact hs3.reducedHere.ite_fst hs2

theorem State.Queued.giveGrants {c0 : Coll} (h : s.Queued cmds) : (s.giveGrants c0).Queued cmds := by
  unfold State.giveGrants
  extract_lets
  refine h.foldl fun t x h => ?_
  split
  · exact h
  · exact h.ite h.modColl.collSend

theorem State.Queued.sendGranted {c0 : Coll} (h : s.Queued cmds) : (s.sendGranted c0).1.Queued cmds := by
  unfold State.sendGranted
  refine h.foldl_fst fun t x h => ?_
  extract_lets
  split
  · split
    · exact h
    · extract_lets own s2
      have hown : own.1.Queued cmds := h.readOwn.ite_fst h
      have hs2 : s2.Queued cmds := hown.modColl
      split
      · exact hown
      · exact hs2.collSend
  · exact h

theorem State.Queued.pump {c0 : Coll} (h : s.Queued cmds) : (s.pump c0).Queued cmds := by
  unfold State.pump
  split
  · exact h
  · extract_lets _ _ r1 r2
    have hr1 : r1.1.Queued cmds := by
      unfold r1
      refine h.foldl_fst fun t x h => ?_
      split
      · exact h.ite_fst h.reduceChunk
      · exact h
    have hr2 : r2.1.Queued cmds := by
      unfold r2
      split
      · exact hr1.sendGranted
      · exact hr1
    split
    · exact hr2.giveGrants
    · exact hr2.collFault
    · exact hr2

theorem State.Queued.pumpAll (h : s.Queued cmds) : s.pumpAll.Queued cmds := by
  unfold State.pumpAll
  refine h.foldl fun t x h => ?_
  split
  · exact h.pump
  · exact h

theorem State.Queued.pumpCtrl {c : Coll} (h : s.Queued cmds) : (s.pumpCtrl c).Queued cmds := by
  unfold State.pumpCtrl
  extract_lets _ _ _ _ _ s2
  have hs2 : s2.Queued cmds := h.modColl
  split
  · exact h
  · split
    · exact h.modColl.collSend
    · exact hs2.foldl fun _ _ h => h.collSend

theorem State.Queued.arrive {c : Coll} {w v : Nat} (h : s.Queued cmds) : (s.arrive c w v).Queued cmds := by
  unfold State.arrive
  extract_lets s1
  have hs1 : s1.Queued cmds := h.modColl
  split
  · exact hs1.pumpCtrl
  · exact hs1

theorem State.Queued.released {c : Coll} {v : Nat} (h : s.Queued cmds) : (s.released c v).Queued cmds :=
  (h.modColl.foldl fun _ _ h => h.collSend).ite h.modColl

theorem State.Queued.staleColl (h : s.Queued cmds) : s.staleColl.Queued cmds := h.satF

theorem State.Queued.collData {c : Coll} {w : Nat} {p : Packet} (h : s.Queued cmds) : (s.collData c w p).Queued cmds := by
  unfold State.collData
  extract_lets _ _ _ s1 r1 s2
  have hs1 : s1.Queued cmds := h.modColl
  have hr1 : r1.1.Queued cmds := hs1.modColl.ite_fst hs1.spreadHere
  have hs2 : s2.Queued cmds := hr1.collSend
  split
  · exact h.satF
  · split
    · exact h.staleColl
    · split
      · exact hr1.collFault
      · exact hs2.pumpAll

theorem State.Queued.collGrant {c : Coll} {w : Nat} {p : Packet} (h : s.Queued cmds) : (s.collGrant c w p).Queued cmds :=
  h.collSend.endColl.ite h.modColl.pumpAll

theorem State.Queued.collCtrl {c : Coll} {w : Nat} {p : Packet} (h : s.Queued cmds) : (s.collCtrl c w p).Queued cmds := by
  unfold State.collCtrl
  split
  · exact h.arrive
  · exact h.arrive
  · exact h.released
  · exact h.released
  · exact h.endColl
  · exact h

theorem State.Queued.collPacket {ctx : Nat} {p : Packet} (h : s.Queued cmds) : (s.collPacket ctx p).Queued cmds := by
  unfold State.collPacket
  split
  · exact h.staleColl
  · extract_lets
    split
    · exact h.staleColl
    · split
      · exact h.ite (h.collData.ite (h.collGrant.ite h.collCtrl))
      · exact .ite h.staleColl (.mk h)

theorem State.Queued.takeEarly (h : s.Queued cmds) : s.takeEarly.Queued cmds := by
  unfold State.takeEarly
  extract_lets
  exact .foldl (.mk h) fun _ _ h => h.collPacket

theorem State.Queued.startColl {c : Coll} (h : s.Queued cmds) : (s.startColl c).Queued cmds := by
  unfold State.startColl
  extract_lets _ s1 _ _ _ s2 _ _ r1
  have hs1 : s1.Queued cmds := h.setGrp
  have hs2 : s2.Queued cmds := .mk hs1
  have hr1 : r1.1.Queued cmds := by
    unfold r1
    refine hs2.foldl_fst fun t x h => ?_
    split
    · exact h
    · extract_lets o1
      have ho1 : o1.1.Queued cmds := h.readOwn
      split
      · exact ho1
      · exact ho1.reducedHere.ite_fst ho1.spreadHere
  split
  · exact hs2
  · split
    · exact hs2.arrive.takeEarly
    · split
      · exact hr1.collFault
      · exact hr1.pumpAll.takeEarly

theorem State.Queued.joinScalar {p g v purpose : Nat} (h : s.Queued cmds) : (s.joinScalar p g v purpose).Queued cmds := by
  unfold State.joinScalar
  extract_lets _ _ s1 _ s2
  have hs1 : s1.Queued cmds := h.setGrp
  have hs2 : s2.Queued cmds := .mk hs1
  exact h.ite hs2.arrive.takeEarly

theorem State.Queued.staleGroup {g : Nat} (h : s.Queued cmds) : (s.staleGroup g).Queued cmds := h.foldl fun _ _ h => h.endColl

/-! ### Machine/Rows.lean -/

theorem State.Queued.saturated {core n : Nat} (h : s.Queued cmds) : (s.saturated core n).Queued cmds := h.ite h.incF.event

theorem State.Queued.writeCodes {i : Nat} {w : Acc} {o : CodeRow} (h : s.Queued cmds) : (s.writeCodes i w o).1.Queued cmds := by
  unfold State.writeCodes
  extract_lets s1 s2
  have hs1 : s1.Queued cmds := h.modForme.ite h
  have hs2 : s2.Queued cmds := by
    unfold s2
    split
    · exact hs1.tlbUse
    · exact hs1
  exact hs2.writeRow

theorem State.Queued.writeOut {i core seed : Nat} {o : OutRow} (h : s.Queued cmds) : (s.writeOut i core seed o).1.Queued cmds :=
  h.writeCodes.saturated.ite h.writeCodes.saturated.modForme

theorem State.Queued.writeOuts {i core seed : Nat} {l : List OutRow} (h : s.Queued cmds) :
    (s.writeOuts i core seed l).1.Queued cmds := by
  unfold State.writeOuts
  refine h.foldl_fst fun t x h => ?_
  split
  · exact h
  · exact h.writeOut

theorem State.Queued.writeZmap {i : Nat} {w : Acc} {blocks : List Nat} (h : s.Queued cmds) :
    (s.writeZmap i w blocks).1.Queued cmds := by
  unfold State.writeZmap
  refine h.foldl_fst fun t x h => ?_
  split
  · exact h
  · exact h.storeBits

/-! ### Machine/Attention.lean -/

theorem State.Queued.setKv {p : Nat} {x : Kv} (h : s.Queued cmds) : (s.setKv p x).Queued cmds := h.of_pending rfl

theorem State.Queued.modKv {p : Nat} {g : Kv → Kv} (h : s.Queued cmds) : (s.modKv p g).Queued cmds := h.setKv

theorem State.Queued.modSeq {p n : Nat} {g : KvSeq → KvSeq} (h : s.Queued cmds) : (s.modSeq p n g).Queued cmds := h.modKv

theorem State.Queued.validateRows {i : Nat} {p : Plan} (h : s.Queued cmds) : (s.validateRows i p).Queued cmds := by
  unfold State.validateRows
  extract_lets
  refine h.foldl fun t x h => ?_
  extract_lets _ _ _ s1 s2
  have hs1 : s1.Queued cmds := h.modSeq
  have hs2 : s2.Queued cmds := by
    unfold s2
    split
    · split
      · exact hs1.modKv
      · exact hs1
    · exact h
  exact h.modForme.ite (hs2.ite hs2.modForme.modSeq)

theorem State.Queued.writeCache {i : Nat} {w : Acc} {p : Plan} (h : s.Queued cmds) : (s.writeCache i w p).1.Queued cmds := by
  unfold State.writeCache
  extract_lets
  refine h.foldl_fst fun t x h => ?_
  split
  · exact h
  · extract_lets
    split
    · exact h
    · extract_lets put
      have hput : ∀ t value v, t.Queued cmds → (put t value v).1.Queued cmds := by
        intro t value v h
        unfold put
        extract_lets
        split
        · exact h
        · exact h.wr
      split
      next t _ e => exact (hput _ _ _ h).of_fst e
      next t e => exact hput _ _ _ ((hput _ _ _ h).of_fst e)

end Sys2Proof.Machine
end

