-- ==== Sys2Proof/Proofs/QueueTables.lean ====
section
/-! SUPPORT. The queue of commands stands still under the operations on the table engine, windows and intake jobs. -/

namespace Sys2Proof.Machine

variable {s : State} {cmds : List Instr}

/-! ### Machine/KvTables.lean -/

theorem State.kvRead_holds (s : State) (p a n : Nat) : KvHolds cmds (fun _ => True) (s.kvRead p a n) := by
  unfold State.kvRead
  split <;> trivial

theorem State.Queued.kvWrite {p a : Nat} {b : List Byte} (h : s.Queued cmds) : KvHolds cmds (State.Queued cmds) (s.kvWrite p a b) := by
  unfold State.kvWrite
  split
  next t e => exact h.wr.of_fst e
  next => trivial

theorem State.Queued.poolWrite {p a : Nat} {b : List Byte} (h : s.Queued cmds) : KvHolds cmds (State.Queued cmds) (s.poolWrite p a b) := by
  unfold State.poolWrite
  split
  · trivial
  · exact h.kvWrite

theorem State.poolRead_holds (s : State) (p a n : Nat) : KvHolds cmds (fun _ => True) (s.poolRead p a n) := by
  unfold State.poolRead
  split
  · trivial
  · exact s.kvRead_holds p a n

theorem State.Queued.copyBlock {p src dst : Nat} (h : s.Queued cmds) : KvHolds cmds (State.Queued cmds) (s.copyBlock p src dst) :=
  (s.poolRead_holds ..).bind fun _ _ => h.poolWrite

theorem State.Queued.reserve {p : Nat} {q : KvSeq} {n : Nat} (h : s.Queued cmds) :
    KvHolds cmds (fun r => r.1.Queued cmds) (s.reserve p q n) := by
  unfold State.reserve
  extract_lets pool grow
  have hgrow : ∀ r : State × KvSeq, r.1.Queued cmds → KvHolds cmds (fun r => r.1.Queued cmds) (grow r) := by
    intro r hr
    unfold grow
    refine KvHolds.foldlM (P := fun r : State × KvSeq => r.1.Queued cmds) hr fun t x h => ?_
    split
    · trivial
    · exact State.Queued.setKv h
  split
  · split_ifs
    · split
      · trivial
      · exact h.setKv.copyBlock.bind fun _ ht => hgrow _ ht
    · exact hgrow _ h
  · exact hgrow _ h

theorem State.Queued.writeTokens {p : Nat} {q : KvSeq} {pos : Nat} {toks : List Nat} (h : s.Queued cmds) :
    KvHolds cmds (State.Queued cmds) (s.writeTokens p q pos toks) := by
  refine KvHolds.foldlM h fun t x h => ?_
  split
  · exact h.poolWrite
  · exact h

theorem State.Queued.kvArm {p : Nat} (h : s.Queued cmds) : (s.kvArm p).Queued cmds := h.modKv

theorem State.Queued.watermarks {p : Nat} (h : s.Queued cmds) : (s.watermarks p).Queued cmds :=
  (h.setKv.event.opAdd.ite h.setKv.event).ite h

theorem State.Queued.ringPut {p n : Nat} {e : RingEntry} (h : s.Queued cmds) : (s.ringPut p n e).Queued cmds := by
  unfold State.ringPut
  extract_lets _ _ s1
  have hs1 : s1.Queued cmds := h.storeRec
  exact hs1.modSeq

theorem State.Queued.ringFull {p n : Nat} (h : s.Queued cmds) : (s.ringFull p n).1.Queued cmds := by
  unfold State.ringFull
  extract_lets
  split
  · exact h
  · split
    · exact h.faultRecord
    · exact h.modSeq

theorem State.Queued.ringOffer {p n : Nat} {e : RingEntry} (h : s.Queued cmds) : (s.ringOffer p n e).1.Queued cmds :=
  (h.event.ite h).modSeq.ite_fst ((h.ringFull.event.ite h.ringFull).modSeq.ite_fst h.ringFull.ringPut)

theorem State.Queued.ringProduced {p n count : Nat} {urgent : Bool} (h : s.Queued cmds) :
    (s.ringProduced p n count urgent).Queued cmds :=
  h.ite (h.storeRec.modKv.interrupt.ite h.storeRec.modKv)

theorem State.Queued.ringWrite {p n : Nat} {es : List RingEntry} (h : s.Queued cmds) : (s.ringWrite p n es).Queued cmds := by
  unfold State.ringWrite
  extract_lets r
  have hr : r.1.Queued cmds := by
    refine State.Queued.foldl_fst h fun t x h => ?_
    extract_lets w
    have hw : w.1.Queued cmds := h.ringOffer
    split
    · exact hw
    · exact hw
  exact hr.incF2.ringProduced

theorem State.Queued.freeSeq {p n : Nat} (h : s.Queued cmds) : (s.freeSeq p n).Queued cmds := h.modKv

theorem State.Queued.retryPending {p n : Nat} (h : s.Queued cmds) : (s.retryPending p n).Queued cmds := by
  unfold State.retryPending
  extract_lets _ s0 r s1
  have hs0 : s0.Queued cmds := h.modSeq
  have hr : r.1.Queued cmds := by
    refine State.Queued.foldl_fst hs0 fun t x h => ?_
    extract_lets _ w
    have hw : w.1.Queued cmds := h.ringFull.fst_of_eq rfl
    split
    · exact h.modSeq
    · split
      · exact hw.modSeq
      · exact hw.ringPut
  have hs1 : s1.Queued cmds := hr.ringProduced
  exact hs1.freeSeq.ite hs1

theorem State.Queued.commitTo {p n c' : Nat} (h : s.Queued cmds) : (s.commitTo p n c').Queued cmds := h.setKv.incF

theorem State.Queued.releaseSeq {p n reason : Nat} {es : List RingEntry} (h : s.Queued cmds) :
    (s.releaseSeq p n reason es).Queued cmds :=
  h.setKv.ringWrite.freeSeq.ite h.setKv.ringWrite

theorem State.Queued.useNode {p i : Nat} (h : s.Queued cmds) : (s.useNode p i).Queued cmds := h.modKv

theorem State.Queued.collision {p : Nat} (h : s.Queued cmds) : (s.collision p).Queued cmds := h.satF.event

theorem State.Queued.nodeSlot {p i : Nat} {u : State} (h : s.Queued cmds) (e : s.nodeSlot p = some (i, u)) : u.Queued cmds := by
  unfold State.nodeSlot at e
  dsimp only at e
  split at e
  · cases e
    exact h
  · split at e
    · cases e
      exact h.setKv
    · cases e

theorem State.Queued.publish {p n j : Nat} (h : s.Queued cmds) : KvHolds cmds (State.Queued cmds) (s.publish p n j) := by
  unfold State.publish
  extract_lets _ stop
  split_ifs
  · exact h.modSeq
  · refine (s.poolRead_holds ..).bind fun _ _ => ?_
    extract_lets
    split
    · refine (s.poolRead_holds ..).bind fun _ _ => ?_
      split_ifs
      · exact h.useNode.modSeq
      · exact h.collision.modSeq
    · split
      next => exact h.modSeq
      next t e => exact (h.nodeSlot e).setKv.modSeq

theorem State.Queued.matchBlocks {p ns addr n j : Nat} {node : Option Nat} {blocks : List Nat} (h : s.Queued cmds) :
    KvHolds cmds (fun r => r.1.Queued cmds) (s.matchBlocks p ns addr n j node blocks) := by
  induction n generalizing s j node blocks with
  | zero => exact h
  | succ n ih =>
    unfold State.matchBlocks
    refine (s.kvRead_holds ..).bind fun _ _ => ?_
    extract_lets
    split
    · exact h
    · refine (s.poolRead_holds ..).bind fun _ _ => ?_
      split_ifs
      · exact ih h.useNode
      · exact h.collision

theorem State.Queued.admitEntry {p : Nat} {b : List Byte} (h : s.Queued cmds) :
    KvHolds cmds (fun r => r.1.Queued cmds) (s.admitEntry p b) := by
  unfold State.admitEntry
  extract_lets -underBinder
  split
  · trivial
  · split
    · trivial
    · split
      · trivial
      · split
        · trivial
        · extract_lets -underBinder enter
          have henter : ∀ r, r.1.Queued cmds → KvHolds cmds (fun r => r.1.Queued cmds) (enter r) := by
            intro r hr
            unfold enter
            extract_lets -underBinder s1 _ _ _ _ _ _ _ fill
            have hs1 : s1.Queued cmds := hr
            split
            · trivial
            · have hfill : ∀ r, r.1.Queued cmds → KvHolds cmds (fun r => r.1.Queued cmds) (fill r) := by
                intro r hr
                refine (r.1.kvRead_holds ..).bind fun _ _ => ?_
                refine (State.Queued.writeTokens hr).bind fun _ ht => ?_
                exact ht.modKv.incF.incF.watermarks
              split
              · exact hfill _ hs1.setKv
              · exact hs1.setKv.reserve.bind hfill
          split
          · split
            · trivial
            · exact henter _ h
          · split
            · split
              · trivial
              · exact henter _ h.useNode
            · split
              · exact h.matchBlocks.bind fun _ hr => henter _ hr
              · exact henter _ h

theorem State.Queued.scheduleEntry {p : Nat} {b : List Byte} (h : s.Queued cmds) :
    KvHolds cmds (fun r => r.1.Queued cmds) (s.scheduleEntry p b) := by
  unfold State.scheduleEntry
  extract_lets _ _ _ s1
  have hs1 : s1.Queued cmds := h.foldl fun _ _ h => h.retryPending
  split
  · trivial
  · split
    · trivial
    · refine KvHolds.bind (P := fun r => r.1.Queued cmds) (KvHolds.foldlM hs1 fun t x h => ?_) fun r hr =>
      State.Queued.watermarks hr
      split
      · exact h
      · extract_lets
        split
        · exact State.Queued.event h
        · split
          next => exact State.Queued.event h
          next e => exact (State.Queued.reserve h).of_error e
          next e => exact (State.Queued.modKv ((State.Queued.reserve h).of_ok e)).kvWrite.bind fun _ ht => ht

theorem State.Queued.advanceEntry {p : Nat} {b : List Byte} (h : s.Queued cmds) :
    KvHolds cmds (fun r => r.1.Queued cmds) (s.advanceEntry p b) := by
  unfold State.advanceEntry
  extract_lets
  split
  · trivial
  · split
    · trivial
    · split
      · trivial
      · refine h.writeTokens.bind fun s1 h1 => ?_
        refine KvHolds.bind (P := (State.Queued cmds)) (KvHolds.foldlM h1.commitTo.modKv fun t j h => ?_) fun s4 h4 => ?_
        · split
          · exact h.publish
          · exact h
        · exact h4.releaseSeq.ite (h4.releaseSeq.ite h4.ringWrite.modSeq)

theorem State.Queued.releaseEntry {p : Nat} {b : List Byte} (h : s.Queued cmds) :
    KvHolds cmds (fun r => r.1.Queued cmds) (s.releaseEntry p b) := by
  unfold State.releaseEntry
  extract_lets
  split
  · exact h.releaseSeq
  · split
    · exact h.modSeq
    · trivial

theorem State.Queued.swapOut {p n forme : Nat} (h : s.Queued cmds) : KvHolds cmds (State.Queued cmds) (s.swapOut p n forme) := by
  unfold State.swapOut
  extract_lets _ s1
  have hs1 : s1.Queued cmds := h.commitTo
  split
  · exact hs1.event
  · exact hs1.modSeq.modKv

theorem State.Queued.outAuto {p forme : Nat} (h : s.Queued cmds) : KvHolds cmds (fun r => r.1.Queued cmds) (s.outAuto p forme) := by
  unfold State.outAuto
  extract_lets _ _ _ _ _ s1 _ r
  have hr : r.1.Queued cmds := by
    refine State.Queued.foldl_fst h.setKv fun t n h => ?_
    split
    · exact h
    · have ho := h.swapOut (p := p) (n := n) (forme := forme)
      split
      next e => exact ho.of_ok e
      next e => exact ho.of_error e
      next => exact h
  split
  · split
    · trivial
    · exact h.event
  · exact hr

theorem State.Queued.outSeqEntry {p forme : Nat} {b : List Byte} (h : s.Queued cmds) :
    KvHolds cmds (fun r => r.1.Queued cmds) (s.outSeqEntry p forme b) := by
  unfold State.outSeqEntry
  extract_lets
  split
  · trivial
  · split
    · split
      · trivial
      · exact h.event
    · split
      next e => exact (h.swapOut.of_ok e :)
      next => exact h.event

theorem State.Queued.resumeSeq {p n forme : Nat} (h : s.Queued cmds) : KvHolds cmds (State.Queued cmds) (s.resumeSeq p n forme) := by
  unfold State.resumeSeq
  extract_lets
  refine KvHolds.bind (P := fun _ => True) (KvHolds.foldlM trivial fun t j _ => ?_) fun _ _ => h.setKv.modSeq
  extract_lets
  split
  · split <;> trivial
  · trivial

theorem State.Queued.inSeqEntry {p forme : Nat} {b : List Byte} (h : s.Queued cmds) :
    KvHolds cmds (fun r => r.1.Queued cmds) (s.inSeqEntry p forme b) := by
  unfold State.inSeqEntry
  extract_lets
  split
  · trivial
  · exact h.resumeSeq.bind fun _ ht => ht.watermarks

theorem State.Queued.inAuto {p forme : Nat} (h : s.Queued cmds) : KvHolds cmds (fun r => r.1.Queued cmds) (s.inAuto p forme) := by
  unfold State.inAuto
  extract_lets _ _ _ r
  have hr : r.1.Queued cmds := by
    refine State.Queued.foldl_fst h fun t n h => ?_
    split
    · exact h
    · extract_lets
      split
      · exact h
      · split
        next e => exact (h.resumeSeq.of_ok e :)
        next => exact h
  exact hr.watermarks

theorem State.Queued.prefixEntry {p op : Nat} {b : List Byte} (h : s.Queued cmds) :
    KvHolds cmds (fun r => r.1.Queued cmds) (s.prefixEntry p op b) := by
  unfold State.prefixEntry
  extract_lets
  split
  · exact h.matchBlocks.bind fun _ hr => hr
  · exact h
  · split
    · trivial
    · split
      · trivial
      · exact h.setKv
  · exact h.setKv

theorem State.Queued.budgetEntry {p op : Nat} {b : List Byte} (h : s.Queued cmds) :
    KvHolds cmds (fun r => r.1.Queued cmds) (s.budgetEntry p op b) := by
  unfold State.budgetEntry
  extract_lets
  split
  · trivial
  · split
    · exact h.modKv
    · exact h.modKv
    · exact h.kvWrite.bind fun _ ht => ht
    · trivial

theorem State.Queued.applyKv {p : Nat} (h : s.Queued cmds) : (s.applyKv p).Queued cmds := by
  unfold State.applyKv
  extract_lets _ _ _ _ _ s2
  have hs2 : s2.Queued cmds := .mk h
  exact hs2.latch.event.ite h.latch.modKv

/-! ### Machine/Windows.lean -/

theorem State.Queued.outOfRange {i j : Nat} (h : s.Queued cmds) : (s.outOfRange i j).Queued cmds := h.modForme

theorem State.Queued.writePieces {i : Nat} {w : Acc} {p : Plan} {o : CodeRow} (h : s.Queued cmds) :
    (s.writePieces i w p o).1.Queued cmds := by
  unfold State.writePieces
  extract_lets
  refine h.foldl_fst fun t x h => ?_
  split
  · exact h
  · exact h.writeCodes

theorem State.Queued.gatherTile {i core : Nat} {p : Plan} {tile : Nat} (h : s.Queued cmds) :
    (s.gatherTile i core p tile).1.Queued cmds := by
  unfold State.gatherTile
  extract_lets
  refine h.foldl_fst fun t x h => ?_
  split
  · exact h
  · extract_lets
    split
    · exact h.writePieces
    · exact h.outOfRange.writePieces

theorem State.Queued.scatterOrdered {i : Nat} {w : Acc} {p : Plan} {k j : Nat} {codes : List Nat} (h : s.Queued cmds) :
    (s.scatterOrdered i w p k j codes).1.Queued cmds := by
  unfold State.scatterOrdered
  extract_lets _ _ s1
  have hs1 : s1.Queued cmds := h.modForme
  refine hs1.foldl_fst fun t x h => ?_
  split
  · exact h
  · exact h.writeCodes

theorem State.Queued.scatterAccum {i : Nat} {x : Forme} {w : Acc} {p : Plan} {k j : Nat} (h : s.Queued cmds) :
    (s.scatterAccum i x w p k j).1.Queued cmds := by
  unfold State.scatterAccum
  extract_lets
  refine h.foldl_fst fun t x h => ?_
  split
  · exact h
  · extract_lets _ s1
    have hs1 : s1.Queued cmds := h.arenaWrite
    split
    · exact hs1
    · exact .mk hs1
    · exact hs1

theorem State.Queued.scatterTile {i core tile : Nat} {p : Plan} (h : s.Queued cmds) :
    (s.scatterTile i core p tile).1.Queued cmds := by
  unfold State.scatterTile
  extract_lets _ _ wrap
  refine h.foldl_fst fun t j h => ?_
  split
  · exact h
  · split
    · exact h.outOfRange
    · split_ifs
      · exact h.scatterAccum
      · exact h.scatterOrdered
      · exact h.writePieces

theorem State.Queued.performUpdate {u : RedUpdate} (h : s.Queued cmds) : (s.performUpdate u).Queued cmds := by
  unfold State.performUpdate
  extract_lets
  split
  · exact h.faultRecord
  · exact h.perform

/-! ### Machine/IntakeOps.lean -/

theorem State.Queued.modIntk {p : Nat} {g : Intk → Intk} (h : s.Queued cmds) : (s.modIntk p g).Queued cmds := h.of_pending rfl

theorem State.Queued.modJob {p j : Nat} {g : IntkJob → IntkJob} (h : s.Queued cmds) : (s.modJob p j g).Queued cmds := h.modIntk

theorem State.Queued.modStream {p j n : Nat} {g : IntkStream → IntkStream} (h : s.Queued cmds) :
    (s.modStream p j n g).Queued cmds :=
  h.modJob

theorem State.Queued.releaseEngines {here : Nat × Nat × Nat → Bool} (h : s.Queued cmds) : (s.releaseEngines here).Queued cmds := by
  unfold State.releaseEngines
  refine h.foldl fun t x h => ?_
  extract_lets v1
  have hv1 : v1.Queued cmds := h.setF
  exact .mk hv1

theorem State.Queued.writeFrame {w : Acc} {x : IntkJob} {pos f : Nat} {v : Nat → Nat → Nat → Nat} (h : s.Queued cmds) :
    (s.writeFrame w x pos f v).1.Queued cmds := by
  unfold State.writeFrame
  extract_lets
  split
  · exact h.foldl_fst fun _ _ h => h.wrBind fun _ h => h.writeRow
  · exact h.foldl_fst fun _ _ h => h.wrBind fun _ h => h.writeRow

theorem State.Queued.writeSound {w : Acc} {x : IntkJob} {pos : Nat} {v : Nat → Nat → Nat} (h : s.Queued cmds) :
    (s.writeSound w x pos v).1.Queued cmds :=
  h.foldl_fst fun _ _ h => h.wrBind fun _ h => h.writeRow

theorem State.Queued.writeMask {w : Acc} {x : IntkJob} {pos : Nat} {valid : Nat → Bool} (h : s.Queued cmds) :
    (s.writeMask w x pos valid).1.Queued cmds :=
  h.ite_fst h.wr

theorem State.Queued.padPosition {p : Nat} {x : IntkJob} {pos index status box regions : Nat} (h : s.Queued cmds) :
    (s.padPosition p x pos index status box regions).1.Queued cmds := by
  unfold State.padPosition
  extract_lets _ r1
  have hr1 : r1.1.Queued cmds := h.writeSound.ite_fst (h.foldl_fst fun _ _ h => h.wrBind fun _ h => h.writeFrame)
  exact (hr1.wrBind fun _ h => h.writeMask).wrBind fun _ h => h.modJob

theorem State.Queued.fillCache {p : Nat} {x : IntkJob} {t : IntkStream} {pos : Nat} (h : s.Queued cmds) :
    (s.fillCache p x t pos).Queued cmds := by
  unfold State.fillCache
  extract_lets _ _ _ _ _ _ _ _ _ r1 _ _ _ s2
  have hr1 : r1.1.Queued cmds := h.wr
  have hs2 : s2.Queued cmds := hr1.modIntk
  split
  · exact h
  · split
    · exact hr1.faultRecord.modIntk
    · exact hs2.incF

theorem State.Queued.serveFrames {p n : Nat} (h : s.Queued cmds) : (s.serveFrames p n).Queued cmds := by
  induction n generalizing s with
  | zero => exact h
  | succ n ih =>
    unfold State.serveFrames
    extract_lets
    split
    · exact h
    · exact h.ite (ih h.modStream)

theorem State.Queued.servePool {p : Nat} (h : s.Queued cmds) : (s.servePool p).Queued cmds := h.serveFrames

theorem State.Queued.dropJob {p j : Nat} (h : s.Queued cmds) : (s.dropJob p j).Queued cmds := h.releaseEngines.modIntk.servePool

theorem State.Queued.jobFault {p j status : Nat} (h : s.Queued cmds) : (s.jobFault p j status).Queued cmds :=
  h.dropJob.event.ite h.dropJob.event.setF.setF.setF.raiseF

theorem State.Queued.jobAccess {p j e : Nat} {f : AccFault × Nat} (h : s.Queued cmds) : (s.jobAccess p j e f).Queued cmds :=
  h.faultRecord.jobFault

theorem State.Queued.closeJob {p : Nat} {x : IntkJob} (h : s.Queued cmds) : (s.closeJob p x).Queued cmds := by
  unfold State.closeJob
  extract_lets _ r1
  have hr1 : r1.1.Queued cmds := h.foldl_fst fun _ _ h => h.wrBind fun _ h => h.padPosition
  split
  · exact hr1.jobAccess
  · exact hr1.modJob.servePool

theorem State.Queued.beginSample {p j : Nat} (h : s.Queued cmds) : (s.beginSample p j).Queued cmds := by
  unfold State.beginSample
  split
  · exact h
  · extract_lets
    split
    · exact h
    · split
      · exact h.closeJob.ite h
      · split
        · exact h
        · split
          · exact h
          · split
            · exact h.jobAccess
            · exact h.modJob.servePool

theorem State.Queued.endSample {p j : Nat} (h : s.Queued cmds) : (s.endSample p j).Queued cmds := by
  unfold State.endSample
  split
  · exact h
  · split
    · exact h
    · exact h.releaseEngines.modJob.servePool.modJob.beginSample

theorem State.Queued.rejectHead {p j : Nat} {x : IntkJob} {t : IntkStream} {status : Nat} (h : s.Queued cmds) :
    (s.rejectHead p j x t status).Queued cmds := by
  unfold State.rejectHead
  extract_lets _ s1 r1
  have hs1 : s1.Queued cmds := h.modJob
  have hr1 : r1.1.Queued cmds := hs1.foldl_fst fun _ _ h => h.wrBind fun _ h => h.padPosition
  split
  · exact hs1.endSample
  · split
    · exact hr1.jobAccess
    · exact hr1.modJob.endSample

theorem State.Queued.staleSample {p j : Nat} {atStart : Bool} (h : s.Queued cmds) : (s.staleSample p j atStart).Queued cmds :=
  h.incF.event.modJob.endSample

theorem State.Queued.writeDamage {p : Nat} {x : IntkJob} {t : IntkStream} (h : s.Queued cmds) :
    (s.writeDamage p x t).1.Queued cmds :=
  h.ite_fst (h.foldl_fst fun _ _ h => h.wrBind fun _ h => h.event.ite_fst (h.wr.wrBind fun _ h => h.modJob))

theorem State.Queued.learnCosts {p j codec : Nat} {costs : List (Nat × Nat)} (h : s.Queued cmds) :
    (s.learnCosts p j codec costs).Queued cmds := by
  unfold State.learnCosts
  extract_lets _ s2
  have hs2 : s2.Queued cmds := .mk h
  exact hs2.modJob

theorem State.Queued.deliverHead {p j : Nat} (h : s.Queued cmds) : (s.deliverHead p j).Queued cmds := by
  unfold State.deliverHead
  split
  · exact h
  · split
    · exact h
    · extract_lets _ _ _ _ _ _ _ r1 r2 s2 s3 s4
      have hr1 : r1.1.Queued cmds := by
        unfold r1
        refine h.foldl_fst fun t x h => ?_
        extract_lets r2
        have hr2 : r2.1.Queued cmds := h.ite_fst (h.foldl_fst fun _ _ h => h.wrBind fun _ h => h.ite_fst h.writeFrame)
        exact (hr2.wrBind fun _ h => h.writeMask).wrBind fun _ h => h.modJob
      have hr2 : r2.1.Queued cmds := hr1.wrBind fun _ h => h.writeDamage
      have hs2 : s2.Queued cmds := hr2.incF
      have hs3 : s3.Queued cmds := hs2.incF.event.ite hs2
      have hs4 : s4.Queued cmds := hs3.learnCosts
      split
      · exact hr2.jobAccess
      · exact hs4.modJob.endSample

theorem State.Queued.settleJob {p j n : Nat} (h : s.Queued cmds) : (s.settleJob p j n).Queued cmds := by
  induction n generalizing s with
  | zero => exact h
  | succ n ih =>
    unfold State.settleJob
    split
    · exact h
    · split
      · exact h
      · split
        · exact ih h.rejectHead
        · exact (ih h.deliverHead).ite h

theorem State.Queued.settleSamples {p j : Nat} (h : s.Queued cmds) : (s.settleSamples p j).Queued cmds := h.settleJob

theorem State.Queued.rejectSample {p j n status : Nat} (h : s.Queued cmds) : (s.rejectSample p j n status).Queued cmds := by
  unfold State.rejectSample
  extract_lets _ s1 s2 _ s3
  have hs1 : s1.Queued cmds := h.incF.ite h.incF
  have hs2 : s2.Queued cmds := by
    unfold s2
    split
    · exact hs1.event
    · exact hs1.event
    · exact hs1.event
    · exact hs1.event
    · exact hs1
  have hs3 : s3.Queued cmds := hs2.releaseEngines.modStream
  exact hs3.servePool.settleSamples

theorem State.Queued.copyCached {p : Nat} {x : IntkJob} {t : IntkStream} {off len : Nat} (h : s.Queued cmds) :
    (s.copyCached p x t off len).Queued cmds := by
  unfold State.copyCached
  extract_lets
  split
  · exact h.faultRecord.modStream
  · extract_lets _ r1 s2
    have hr1 : r1.1.Queued cmds := h.wr.wrBind fun _ h => h.writeMask
    have hs2 : s2.Queued cmds := hr1.incF.incF
    split
    · exact hr1.jobAccess
    · exact hs2.modJob.endSample.settleSamples

theorem State.Queued.freeEngine {e cycles : Nat} (h : s.Queued cmds) : (s.freeEngine e cycles).Queued cmds := by
  unfold State.freeEngine
  extract_lets _ s1
  have hs1 : s1.Queued cmds := h.setF.incF.incF2
  exact .mk hs1

/-! ### Machine/Tables.lean -/

theorem State.Queued.writeCtx {i v : Nat} (h : s.Queued cmds) : (s.writeCtx i v).Queued cmds := by
  unfold State.writeCtx
  extract_lets
  exact .mk h

theorem State.Queued.writeGroup {i v : Nat} (h : s.Queued cmds) : (s.writeGroup i v).Queued cmds := h.staleGroup.setGrp

theorem State.Queued.writeMember {i v : Nat} (h : s.Queued cmds) : (s.writeMember i v).Queued cmds := h.of_pending rfl

theorem State.Queued.writeRoute {member : Bool} {i v : Nat} (h : s.Queued cmds) : (s.writeRoute member i v).Queued cmds := by
  unfold State.writeRoute
  extract_lets s1
  have hs1 : s1.Queued cmds := h.ite h.event
  exact .ite (.mk hs1) (.mk hs1)

theorem State.Queued.tblWrite {t i v : Nat} (h : s.Queued cmds) : (s.tblWrite t i v).Queued cmds := by
  unfold State.tblWrite
  split
  · exact h.writeRoute
  · exact h.writeRoute
  · exact h.writeCtx
  · exact h.writeGroup
  · exact h.writeMember

theorem State.Queued.clearTables {p : Nat} (h : s.Queued cmds) : (s.clearTables p).Queued cmds := by
  unfold State.clearTables
  extract_lets _ s1
  have hs1 : s1.Queued cmds := h.foldl fun _ _ h => h.writeCtx
  exact .mk hs1

end Sys2Proof.Machine
end

