-- ==== Sys2Proof/Proofs/QueuePartitions.lean ====
section
/-! SUPPORT. The queue of commands stands still under the operations on snapshots and fills, resets of partitions and boundaries. -/

namespace Sys2Proof.Machine

variable {s : State} {cmds : List Instr}

/-! ### Machine/Resil.lean -/

theorem State.Queued.snapWrite {p page a : Nat} {b : List Byte} (h : s.Queued cmds) : (s.snapWrite p page a b).1.Queued cmds := by
  unfold State.snapWrite
  split
  · exact h.ite_fst (h.foldl_fst fun _ _ h => h.remoteWrite)
  · split
    next e => exact h.storeRec.of_fst e
    next e => exact h.storeRec.of_fst e

theorem State.Queued.snapRead {p list : Nat} {auto : Bool} (h : s.Queued cmds) : (s.snapRead p list auto).1.Queued cmds := by
  unfold State.snapRead
  split
  · exact h.faultRecord
  · extract_lets
    split
    · exact h.faultRecord
    · exact h

theorem State.Queued.snapReport {p status kind : Nat} {x : Option Snap} (h : s.Queued cmds) :
    (s.snapReport p status kind x).Queued cmds := by
  unfold State.snapReport
  extract_lets _ s1 s2
  have hs1 : s1.Queued cmds := h.setF.incF.setF
  have hs2 : s2.Queued cmds := by
    unfold s2
    split
    · exact (hs1.setF.ite hs1).setF.ite (hs1.setF.ite hs1)
    · exact hs1
  exact hs2.opAdd.ite hs2

theorem State.Queued.unprotect {p idx : Nat} (h : s.Queued cmds) : (s.unprotect p idx).Queued cmds :=
  h.setEntry.releaseWrites.ite h

theorem State.Queued.snapClear {p : Nat} (h : s.Queued cmds) : (s.snapClear p).Queued cmds := by
  unfold State.snapClear
  split
  · exact h
  · extract_lets _ s1 s2
    have hs1 : s1.Queued cmds := .mk h
    have hs2 : s2.Queued cmds := hs1.foldl fun _ _ h => h.foldl fun _ _ h => h.unprotect
    exact hs2.setF.setF

theorem State.Queued.snapFail {p status : Nat} (h : s.Queued cmds) : (s.snapFail p status).Queued cmds := by
  unfold State.snapFail
  split
  · exact h
  · exact h.snapClear.snapReport

theorem State.Queued.snapBegin {p list : Nat} {auto : Bool} (h : s.Queued cmds) : (s.snapBegin p list auto).Queued cmds := by
  unfold State.snapBegin
  extract_lets _ s1
  have hs1 : s1.Queued cmds := h.modPart
  split
  next e => exact (hs1.snapRead.of_fst e).snapReport
  next e =>
    have ht := hs1.snapRead.of_fst e
    extract_lets _ _ _ _ _ _ _ s3 s4 w1
    have hs3 : s3.Queued cmds := .setF (.setF (.mk ht))
    have hs4 : s4.Queued cmds := .mk hs3
    have hw1 : w1.1.Queued cmds := hs4.snapWrite
    split
    · exact hw1.snapFail
    · exact hw1.foldl fun _ _ h => h.foldl fun _ _ h => h.setEntry

theorem State.Queued.snapTry {p : Nat} (h : s.Queued cmds) : (s.snapTry p).Queued cmds :=
  h.ite (h.setF.snapBegin.ite (h.snapBegin.ite h))

theorem State.Queued.streamPage {p : Nat} {x : Snap} {i k : Nat} {frame : Option Nat} (h : s.Queued cmds) :
    (s.streamPage p x i k frame).Queued cmds := by
  unfold State.streamPage
  split
  · exact h
  · refine .matchOption (fun _ _ _ => rfl) (fun _ _ => rfl) (fun _ e => h.frameDamage e) ?_
    refine .matchWritten (fun _ _ _ _ => rfl) (fun _ _ _ => rfl) ?_ (fun _ _ h => h.snapFail) fun _ h => h
    exact (State.Queued.ite (.unprotect (.mk h)) (.mk h)).snapWrite

theorem State.Queued.touchCopy {p : Nat} (h : s.Queued cmds) : (s.touchCopy p).Queued cmds := by
  unfold State.touchCopy
  split
  · exact h
  · split
    · exact h
    · extract_lets _ s1 _ frames
      have hs1 : s1.Queued cmds := h.incF
      clear_value frames
      split
      · extract_lets _ _ s3
        have hs3 : s3.Queued cmds := hs1.copyFrame
        split
        next e => exact hs1.frameDamage e
        · exact .unprotect (.mk hs3)
      · exact hs1.streamPage

theorem State.Queued.snapComplete {p : Nat} {x : Snap} (h : s.Queued cmds) : (s.snapComplete p x).Queued cmds := by
  unfold State.snapComplete
  extract_lets _ r1
  have hr1 : r1.1.Queued cmds := by
    unfold r1
    refine h.foldl_fst fun t x h => ?_
    split
    · exact h
    · extract_lets _ w1
      have hw1 : w1.1.Queued cmds := h.storeRec
      split
      · exact hw1
      · exact hw1.storeRec
  split
  · exact hr1.snapFail
  · split
    next e => exact (hr1.snapWrite.of_fst e).snapFail
    next e => exact (hr1.snapWrite.of_fst e).snapClear.snapReport

theorem State.Queued.snapSweep (h : s.Queued cmds) : s.snapSweep.Queued cmds := h.foldl fun _ _ h => h.snapFail.ite h

theorem State.Queued.showReplay {p : Nat} {busy : Bool} (h : s.Queued cmds) : (s.showReplay p busy).Queued cmds := h.setF

theorem State.Queued.replayStart {p list : Nat} {fill : Bool} (h : s.Queued cmds) : (s.replayStart p list fill).Queued cmds := by
  unfold State.replayStart
  extract_lets _ s1
  have hs1 : s1.Queued cmds := h.setF.setF
  split
  · exact .showReplay (.mk hs1)
  · split
    · exact .showReplay (.mk hs1.faultRecord)
    · exact .showReplay (.mk hs1)

theorem State.Queued.replayStop {p status : Nat} (h : s.Queued cmds) : (s.replayStop p status).Queued cmds := by
  unfold State.replayStop
  split
  · exact .mk h
  · exact h

theorem State.Queued.replayBlock {p : Nat} {hd : List Byte} {dw : TDesc} {dc : Option TDesc} {bitsAt b : Nat}
    (h : s.Queued cmds) :
    (s.replayBlock p hd dw dc bitsAt b).1.Queued cmds := by
  unfold State.replayBlock
  extract_lets _ _ _ _ _ _ _ _ _ cw s1 r1
  have hs1 : s1.Queued cmds := .countWeights (.mk h)
  have hr1 : r1.1.Queued cmds := hs1.writeShard
  split
  · exact h
  · clear_value cw
    split
    · exact hr1.writeShard
    · exact hr1

theorem State.Queued.replayItem {p : Nat} (h : s.Queued cmds) : (s.replayItem p).Queued cmds := by
  unfold State.replayItem
  split
  · exact h
  · split
    · exact h
    · extract_lets _ _ fail _ head
      split
      · exact h.replayStop
      · clear_value head
        split
        · unfold fail
          split
          · exact h.faultRecord.replayStop
          · exact h.replayStop
        · split
          · exact h.replayStop
          · split
            · exact .incF (.mk h)
            · split
              · unfold fail
                split
                · exact h.faultRecord.replayStop
                · exact h.replayStop
              · extract_lets _ _ r1
                have hr1 : r1.1.Queued cmds := by
                  unfold r1
                  refine h.foldl_fst fun t x h => ?_
                  split
                  · exact h
                  · exact h.replayBlock
                split
                · exact h.replayStop
                · split
                  · exact hr1.faultRecord.replayStop
                  · exact .incF (.mk hr1)

theorem State.Queued.replayTell {p : Nat} {x : Replay} {status : Nat} (h : s.Queued cmds) :
    (s.replayTell p x status).Queued cmds := by
  unfold State.replayTell
  extract_lets s1
  have hs1 : s1.Queued cmds := .setF (.showReplay (.mk h))
  exact hs1.opAdd.ite hs1

theorem State.Queued.replayCut {p status : Nat} (h : s.Queued cmds) : (s.replayCut p status).Queued cmds := by
  unfold State.replayCut
  split
  · exact h.replayTell
  · exact h

theorem State.Queued.setFillState {p st : Nat} (h : s.Queued cmds) : (s.setFillState p st).Queued cmds := h.setF

theorem State.Queued.fillTell {p : Nat} (h : s.Queued cmds) : (s.fillTell p).Queued cmds := h.opAdd.ite h

theorem State.Queued.fillQuiet {p status : Nat} (h : s.Queued cmds) : (s.fillQuiet p status).Queued cmds := by
  unfold State.fillQuiet
  extract_lets _ s1
  have hs1 : s1.Queued cmds := .mk h
  exact hs1.replayCut.ite hs1

theorem State.Queued.fillHalt {p status : Nat} (h : s.Queued cmds) : (s.fillHalt p status).Queued cmds :=
  h.fillQuiet.setFillState.setF.fillTell

theorem State.Queued.askRecord {p : Nat} {x : Fill} {l : List (Nat × Nat)} (h : s.Queued cmds) :
    (s.askRecord p x l).Queued cmds := by
  unfold State.askRecord
  extract_lets
  exact .ite (.mk h) (h.foldl fun _ _ h => h.remoteRead)

theorem State.Queued.fillStart {p : Nat} (h : s.Queued cmds) : (s.fillStart p).Queued cmds := by
  unfold State.fillStart
  extract_lets _ _ s1 s2
  have hs1 : s1.Queued cmds := h.setF.setF
  have hs2 : s2.Queued cmds := hs1.setF.setFillState
  split
  · exact hs2.faultRecord.fillHalt
  · extract_lets
    split
    · exact hs2.faultRecord.fillHalt
    · extract_lets
      exact .ite (.fillHalt (.mk hs2)) (.askRecord (.mk hs2))

theorem State.Queued.fillRecordCame {p off : Nat} {b : List Byte} (h : s.Queued cmds) :
    (s.fillRecordCame p off b).Queued cmds := by
  unfold State.fillRecordCame
  split
  · exact h
  · extract_lets
    exact .ite (.askRecord (.mk h)) (.mk h)

theorem State.Queued.showFillPages {p : Nat} (h : s.Queued cmds) : (s.showFillPages p).Queued cmds := by
  unfold State.showFillPages
  split
  · exact h
  · exact h.setF

theorem State.Queued.fillPut {p dst : Nat} {b : List Byte} (h : s.Queued cmds) : (s.fillPut p dst b).Queued cmds := by
  unfold State.fillPut
  split
  next e => exact (h.storeRec.of_fst e).showFillPages
  next e => exact (h.storeRec.of_fst e).fillHalt

theorem State.Queued.installGroup {g v : Nat} (h : s.Queued cmds) : (s.installGroup g v).Queued cmds := h.writeGroup.setGrp

theorem State.Queued.install {p : Nat} {x : Fill} (h : s.Queued cmds) : (s.install p x).Queued cmds := by
  unfold State.install
  extract_lets _ _ _ s1 _ _ s2
  have hs1 : s1.Queued cmds := by
    unfold s1
    refine h.foldl fun t x h => ?_
    extract_lets
    split
    · exact h.writeCtx.ite h
    · exact h.installGroup.ite h
    · exact h.writeMember.ite h
    · exact h.writeRoute.ite h
    · exact h.writeRoute.ite h
    · exact h
  have hs2 : s2.Queued cmds := hs1.setF.setF
  exact h.fillHalt.ite hs2.setFillState.fillTell

theorem State.Queued.fillSweep (h : s.Queued cmds) : s.fillSweep.Queued cmds := by
  unfold State.fillSweep
  refine h.foldl fun t x h => ?_
  split
  · exact h.fillHalt.ite h
  · exact h

theorem State.Queued.fillClear {p : Nat} (h : s.Queued cmds) : (s.fillClear p).Queued cmds := by
  unfold State.fillClear
  extract_lets s1
  have hs1 : s1.Queued cmds := h.fillQuiet
  exact .setF (.setFillState (.mk hs1))

theorem State.Queued.replayEnd {p : Nat} {x : Replay} (h : s.Queued cmds) : (s.replayEnd p x).Queued cmds :=
  (h.replayTell.setFillState.ite h.replayTell.fillHalt).ite h.replayTell

/-! ### Machine/Copp.lean -/

theorem State.Queued.setSw {p : Nat} {x : Switch} (h : s.Queued cmds) : (s.setSw p x).Queued cmds := h.of_pending rfl

theorem State.Queued.modSw {p : Nat} {g : Switch → Switch} (h : s.Queued cmds) : (s.modSw p g).Queued cmds := h.setSw

theorem State.Queued.enterBarrier {p : Nat} (h : s.Queued cmds) : (s.enterBarrier p).Queued cmds := by
  unfold State.enterBarrier
  split
  · exact h
  · exact h.modSw.setF.joinScalar

theorem State.Queued.rise {p : Nat} (h : s.Queued cmds) : (s.rise p).Queued cmds := h.modSw.beginWaves

theorem State.Queued.endReshard {p status : Nat} (h : s.Queued cmds) : (s.endReshard p status).Queued cmds := by
  unfold State.endReshard
  split
  · exact h
  · exact h.modSw.finishForme

theorem State.Queued.dropPlan {p : Nat} (h : s.Queued cmds) : (s.dropPlan p).Queued cmds := by
  unfold State.dropPlan
  extract_lets
  exact .mk h

theorem State.Queued.modPlan {p : Nat} {g : ReshardPlan → ReshardPlan} (h : s.Queued cmds) : (s.modPlan p g).Queued cmds := h.modSw

theorem State.Queued.entryDone {p : Nat} (h : s.Queued cmds) : (s.entryDone p).Queued cmds := h.modPlan.incF

theorem State.Queued.movesDone {p : Nat} (h : s.Queued cmds) : (s.movesDone p).Queued cmds := by
  unfold State.movesDone
  split
  · exact h
  · exact h.foldl fun _ _ h => h.modPlan.entryDone

theorem State.Queued.endPlan {p status : Nat} (h : s.Queued cmds) : (s.endPlan p status).Queued cmds := by
  unfold State.endPlan
  extract_lets s1 _ _ s2 s3
  have hs1 : s1.Queued cmds := h.movesDone
  have hs2 : s2.Queued cmds := hs1.dropPlan
  have hs3 : s3.Queued cmds := hs2.modSw
  split
  · exact hs1
  · extract_lets s4 s5 s6 s7
    have hs4 : s4.Queued cmds := by
      unfold s4
      split
      · exact hs3.modForme
      · exact hs3
    have hs5 : s5.Queued cmds := hs4.incF
    have hs6 : s6.Queued cmds := hs5.ite hs5.setF.setF.raiseF
    have hs7 : s7.Queued cmds := hs6.incF.event.ite (hs6.ite hs6.event)
    exact hs7.rise.ite hs7.modSw.endReshard

theorem State.Queued.planFault {p addr : Nat} {f : AccFault} (h : s.Queued cmds) : (s.planFault p addr f).Queued cmds :=
  h.faultRecord.endPlan

theorem State.Queued.bytesOut {die n : Nat} (h : s.Queued cmds) : (s.bytesOut die n).Queued cmds := h.incF2

theorem State.Queued.copyLines {p die entry src dst n : Nat} (h : s.Queued cmds) :
    (s.copyLines p die entry src dst n).1.Queued cmds := by
  induction n generalizing s src dst with
  | zero => exact h
  | succ n ih =>
    unfold State.copyLines
    split
    · exact h
    · split
      next e => exact h.store.of_fst e
      next e => exact ih (h.store.of_fst e).bytesOut

theorem State.Queued.sendPieces {p die entry ctx src off len plan n : Nat} (h : s.Queued cmds) :
    (s.sendPieces p die entry ctx src off len plan n).1.Queued cmds := by
  induction n generalizing s src off len with
  | zero => exact h
  | succ n ih =>
    unfold State.sendPieces
    split
    · exact h
    · exact ih h.remoteWrite.bytesOut

theorem State.Queued.moveEntry {p die i : Nat} {x : ReshardPlan} {e : Nat × Nat × Nat} (h : s.Queued cmds) :
    (s.moveEntry p die i x e).Queued cmds := by
  unfold State.moveEntry
  split
  · extract_lets _ _ s1
    have hs1 : s1.Queued cmds := h.modPlan
    split
    · exact h.planFault
    · split
      next e => exact (hs1.sendPieces.of_fst e).planFault
      next e => exact hs1.sendPieces.of_fst e
  · split
    next e => exact (h.copyLines.of_fst e).planFault
    next e =>
      have ht := h.copyLines.of_fst e
      exact ht.modPlan.ite ht.entryDone

theorem State.Queued.pumpDie {p die n : Nat} (h : s.Queued cmds) : (s.pumpDie p die n).Queued cmds := by
  induction n generalizing s with
  | zero => exact h
  | succ n ih =>
    unfold State.pumpDie
    extract_lets
    split
    · exact h
    · extract_lets
      split
      · exact h
      · split
        · exact h
        · exact (ih h.modPlan.moveEntry).ite (ih h.modPlan)

theorem State.Queued.planPump {p : Nat} (h : s.Queued cmds) : (s.planPump p).Queued cmds := by
  unfold State.planPump
  extract_lets s1
  have hs1 : s1.Queued cmds := h.movesDone
  split
  · exact hs1
  · exact hs1.pumpDie.pumpDie.ite hs1.pumpDie

theorem State.Queued.planAck {p i : Nat} {status : Option Nat} (h : s.Queued cmds) : (s.planAck p i status).Queued cmds := by
  unfold State.planAck
  split
  · exact (h.modSw.entryDone.ite h.modSw).planPump
  · exact h.planFault
  · exact h.endPlan
  · exact h

theorem State.Queued.stray {p : Nat} (h : s.Queued cmds) : (s.stray p).Queued cmds := h.satF.event

theorem State.Queued.planGot {p n : Nat} (h : s.Queued cmds) : (s.planGot p n).Queued cmds := h.modPlan.incF2

theorem State.Queued.beginSwitch {p : Nat} {on : Bool} {target : Overlay} {forme : Option Nat} {plan : Option ReshardPlan}
    (h : s.Queued cmds) :
    (s.beginSwitch p on target forme plan).Queued cmds :=
  h.setSw.ite h.setSw.enterBarrier

theorem State.Queued.requestMode {p target : Nat} (h : s.Queued cmds) : (s.requestMode p target).Queued cmds := by
  unfold State.requestMode
  split
  · exact h
  · exact h.event.ite h.beginSwitch

theorem State.Queued.endSwitch {p : Nat} (h : s.Queued cmds) : (s.endSwitch p).Queued cmds := by
  unfold State.endSwitch
  extract_lets _ s1 _ s2 s3
  have hs1 : s1.Queued cmds := h.modSw
  have hs2 : s2.Queued cmds := hs1.foldl fun _ _ h => h.finishForme
  have hs3 : s3.Queued cmds := hs2.incF.event
  split
  · exact h
  · split
    · exact hs3
    · exact hs3.modSw.finishForme

/-! ### Machine/Stop.lean -/

theorem State.Queued.endEntries {p : Nat} {reset : Bool} (h : s.Queued cmds) : (s.endEntries p reset).Queued cmds := by
  unfold State.endEntries
  extract_lets _ s1
  have hs1 : s1.Queued cmds := .mk h
  exact hs1.foldl fun _ _ h => h.dropEntry.ite h.endEntry

theorem State.Queued.dropFormes {p : Nat} (h : s.Queued cmds) : (s.dropFormes p).Queued cmds := by
  unfold State.dropFormes
  extract_lets
  exact .mk h

theorem State.Queued.dropFabric {p : Nat} (h : s.Queued cmds) : (s.dropFabric p).Queued cmds := by
  unfold State.dropFabric
  extract_lets
  exact .mk h

theorem State.Queued.dropSwitch {p : Nat} (h : s.Queued cmds) : (s.dropSwitch p).Queued cmds := by
  unfold State.dropSwitch
  extract_lets s1
  have hs1 : s1.Queued cmds := h.dropPlan.setSw
  exact .ite hs1 (.mk hs1)

theorem State.Queued.dropJobs {p : Nat} (h : s.Queued cmds) : (s.dropJobs p).Queued cmds := h.foldl fun _ _ h => h.dropJob

theorem State.Queued.abandon {p : Nat} {reset : Bool} (h : s.Queued cmds) : (s.abandon p reset).Queued cmds := by
  unfold State.abandon
  extract_lets s1 s2 s3 s4 s5
  have hs1 : s1.Queued cmds := h.foldl fun _ _ h => h.performUpdate
  have hs2 : s2.Queued cmds := .mk hs1
  have hs3 : s3.Queued cmds := hs2.endEntries.dropFormes
  have hs4 : s4.Queued cmds := hs3.disarm.dropFabric.dropJobs
  have hs5 : s5.Queued cmds := hs4.modKv
  exact hs5.dropSwitch.snapClear.replayCut

theorem State.Queued.fillStop {p : Nat} (h : s.Queued cmds) : (s.fillStop p).Queued cmds := h.fillHalt.ite h

theorem State.Queued.stopJob {p : Nat} (h : s.Queued cmds) : (s.stopJob p).Queued cmds := h.abandon.fillStop

theorem State.Queued.stopPartition {p : Nat} (h : s.Queued cmds) : (s.stopPartition p).Queued cmds := h.ite h.stopJob.modPart.event

theorem State.Queued.resetPages {pgs : List Nat} (h : s.Queued cmds) : (s.resetPages pgs).Queued cmds := h.of_pending rfl

theorem State.Queued.zeroGalleys {p : Nat} (h : s.Queued cmds) : (s.zeroGalleys p).Queued cmds := h.foldl fun _ _ h => h.wipe

theorem State.Queued.zeroStack {p : Nat} (h : s.Queued cmds) : (s.zeroStack p).Queued cmds := h.foldl fun _ _ h => h.wipe

theorem State.Queued.errorsZeroed {p : Nat} (h : s.Queued cmds) : (s.errorsZeroed p).Queued cmds :=
  h.zeroStack.zeroGalleys.mapWritten

theorem State.Queued.dropPlans {p : Nat} (h : s.Queued cmds) : (s.dropPlans p).Queued cmds := h.of_pending rfl

theorem State.Queued.freeWrites {p : Nat} (h : s.Queued cmds) : (s.freeWrites p).Queued cmds :=
  h.foldl fun _ _ h => h.releaseWrites

theorem State.Queued.clearPart {p : Nat} (h : s.Queued cmds) : (s.clearPart p).Queued cmds := by
  unfold State.clearPart
  extract_lets s1 s2 s3
  have hs1 : s1.Queued cmds := .mk h
  have hs2 : s2.Queued cmds := hs1.freeWrites.clearTables
  have hs3 : s3.Queued cmds := hs2.dropPlans.zeroGalleys.mapWritten.fillClear
  exact .mk hs3

theorem State.Queued.clearQueues {f : Nat} (h : s.Queued cmds) : (s.clearQueues f).Queued cmds := h.modFn

theorem State.Queued.flrConfig {p : Nat} (h : s.Queued cmds) : (s.flrConfig p).Queued cmds := h.modFn

theorem State.Queued.beginReset {p : Nat} {flr : Bool} (h : s.Queued cmds) : (s.beginReset p flr).Queued cmds := by
  unfold State.beginReset
  extract_lets _ s1 _ s2 s3
  have hs1 : s1.Queued cmds := h.modPart
  have hs2 : s2.Queued cmds := .abandon (.mk h)
  have hs3 : s3.Queued cmds := hs2.fillClear.modPart
  exact (hs1.flrConfig.ite hs1).ite (hs3.foldl fun _ _ h => h.modCore)

theorem State.Queued.requestReset {p : Nat} {flr : Bool} (h : s.Queued cmds) : (s.requestReset p flr).Queued cmds := by
  unfold State.requestReset
  extract_lets done
  have hdone : done.Queued cmds := h.emit.ite h
  split
  · exact hdone
  · split
    · exact hdone
    · exact hdone
    · exact h.ite h.modPart
    · exact h.beginReset
    · exact h.beginReset

theorem State.Queued.quiesced {p : Nat} (h : s.Queued cmds) : (s.quiesced p).Queued cmds :=
  (h.abandon.clearPart.resetPages.clearQueues.flrConfig.ite h.abandon.clearPart.resetPages.clearQueues).modPart.beginWaves

theorem State.Queued.createPart {p : Nat} (h : s.Queued cmds) : (s.createPart p).Queued cmds := by
  unfold State.createPart
  extract_lets s1 _ s2 s3 _ s4
  have hs1 : s1.Queued cmds := h.clearPart.zeroStack
  have hs2 : s2.Queued cmds := hs1.setPart
  have hs3 : s3.Queued cmds := hs2.setF
  have hs4 : s4.Queued cmds := .mk hs3
  exact hs3.ite hs4.setF.setF

theorem State.Queued.tearDown {p : Nat} (h : s.Queued cmds) : (s.tearDown p).Queued cmds := by
  unfold State.tearDown
  extract_lets _ s1 _ s2 s3 s4
  have hs1 : s1.Queued cmds := .mk h
  have hs2 : s2.Queued cmds := hs1.abandon.clearPart.zeroStack
  have hs3 : s3.Queued cmds := hs2.clearQueues.resetPages
  have hs4 : s4.Queued cmds := hs3.emit.ite hs3
  exact hs4.setPart.setF

theorem State.Queued.takeHeld {p : Nat} (h : s.Queued cmds) : (s.takeHeld p).Queued cmds := by
  unfold State.takeHeld
  extract_lets _ s1
  have hs1 : s1.Queued cmds := h.modPart
  refine hs1.foldl fun t x h => ?_
  split
  · exact h.tearDown.ite h
  · exact h.requestReset
  · exact h.requestReset

/-! ### Machine/Boundary.lean -/

theorem State.Queued.applyPlan {pg : Nat} (h : s.Queued cmds) : (s.applyPlan pg).Queued cmds := by
  unfold State.applyPlan
  extract_lets _ _ v1 s1
  have hv1 : v1.Queued cmds := h.latch
  have hs1 : s1.Queued cmds := .mk hv1
  exact hs1.ite hs1.event

theorem State.Queued.applyCamb {pg : Nat} (h : s.Queued cmds) : (s.applyCamb pg).Queued cmds := h.latch.readArenas.ite h.latch

theorem State.Queued.applyStep {pg : Nat} (h : s.Queued cmds) : (s.applyStep pg).Queued cmds := by
  unfold State.applyStep
  exact .ite h (.ite (.mk h) (h.applyPlan.ite h.applyCamb))

theorem State.Queued.passBoundary {p : Nat} (h : s.Queued cmds) : (s.passBoundary p).Queued cmds := by
  unfold State.passBoundary
  extract_lets _ s1
  have hs1 : s1.Queued cmds := .foldl h fun _ _ h => .mk h
  exact hs1.foldl fun _ _ h => h.applyStep

theorem State.Queued.clampEvent {c : Nat} (h : s.Queued cmds) : (s.clampEvent c).Queued cmds := h.ite h.event

theorem State.Queued.takeShares {c : Nat} (h : s.Queued cmds) : (s.takeShares c).Queued cmds := h.modCore.setF.clampEvent

theorem State.Queued.newShares {c used : Nat} (h : s.Queued cmds) : (s.newShares c used).Queued cmds :=
  (h.ite h.takeShares).ite h.modCore.setF

theorem State.Queued.applyCore {c : Nat} (h : s.Queued cmds) : (s.applyCore c).Queued cmds :=
  h.latch.modCore.newShares.ite h.latch.modCore.newShares.setF

theorem State.Queued.slotPasses {c slot : Nat} (h : s.Queued cmds) : (s.slotPasses c slot).Queued cmds := by
  unfold State.slotPasses
  split
  · exact h
  · exact h.modCore.setF.ite h.modCore

theorem State.Queued.evalLayer {p l : Nat} (h : s.Queued cmds) : (s.evalLayer p l).Queued cmds := by
  unfold State.evalLayer
  extract_lets
  split
  · exact h.layerBad
  · exact h.ite (h.modLayer.ite (h.modLayer.settings.incF.ite h.modLayer.settings.incF.setF.raiseF))

theorem State.Queued.evalWatch {p : Nat} (h : s.Queued cmds) : (s.evalWatch p).Queued cmds :=
  ((h.foldl fun _ _ h => h.ite h.evalLayer).event.ite (h.foldl fun _ _ h => h.ite h.evalLayer)).modCamb

theorem State.Queued.stepBoundary {p : Nat} (h : s.Queued cmds) : (s.stepBoundary p).Queued cmds :=
  (h.foldl fun _ _ h => h.endSpill).evalWatch.resetArenas.readArenas.passBoundary.snapTry

theorem State.Queued.beginCommit {p : Nat} (h : s.Queued cmds) : (s.beginCommit p).Queued cmds := by
  unfold State.beginCommit
  split
  · exact h
  · exact h.modCamb.showArmed.joinScalar

theorem State.Queued.writeStats {p : Nat} {b : List Byte} (h : s.Queued cmds) : (s.writeStats p b).Queued cmds := by
  unfold State.writeStats
  extract_lets
  split
  · exact h.satF.event
  · split
    next e => exact (h.storeRec.of_fst e).incF
    next e => exact (h.storeRec.of_fst e).satF.event

theorem State.Queued.commit {p n2 : Nat} (h : s.Queued cmds) : (s.commit p n2).Queued cmds := by
  unfold State.commit
  split
  · exact h
  · extract_lets _ _ _ _ s1 s2 s3 s4 _ s5 s6 s7 s8 s9 s10 _ s12
    have hs1 : s1.Queued cmds := h.setF.setF
    have hs2 : s2.Queued cmds := hs1.setF.setF.ite hs1
    have hs3 : s3.Queued cmds := hs2.foldl fun _ _ h => h.ite h.modLayer
    have hs4 : s4.Queued cmds := (hs3.foldl fun _ _ h => h.storeRec.ite h).ite hs3
    have hs5 : s5.Queued cmds := hs4.writeStats
    have hs6 : s6.Queued cmds := hs5.foldl fun _ _ h => h.ite h.storeRec
    have hs7 : s7.Queued cmds := hs6.incF.ite (hs6.incF.event.ite hs6.incF.event)
    have hs8 : s8.Queued cmds := hs7.event
    have hs9 : s9.Queued cmds := hs8.modForme.disarm
    have hs10 : s10.Queued cmds := hs9.modPart
    have hs12 : s12.Queued cmds := hs10.finishForme
    exact hs12.stepBoundary.ite hs12

theorem State.Queued.rewindSeq {p n : Nat} (h : s.Queued cmds) : (s.rewindSeq p n).Queued cmds :=
  h.ite (h.commitTo.modSeq.releaseSeq.ite h.commitTo.modSeq)

theorem State.Queued.applyOwn {p : Nat} (h : s.Queued cmds) : (s.applyOwn p).Queued cmds := by
  unfold State.applyOwn
  extract_lets s1 s2
  have hs1 : s1.Queued cmds := h.foldl fun _ _ h => (h.applyCore.ite h).foldl fun _ _ h => h.slotPasses
  have hs2 : s2.Queued cmds := hs1.applyKv.ite hs1
  exact hs2.foldl fun _ _ h => h.applyCamb.ite h

theorem State.Queued.modeBoundary {p : Nat} {target : Overlay} (h : s.Queued cmds) : (s.modeBoundary p target).Queued cmds := by
  unfold State.modeBoundary
  extract_lets _ s1 s2 s3 s4
  have hs1 : s1.Queued cmds := (h.foldl fun _ _ h => h.rewindSeq).ite h
  have hs2 : s2.Queued cmds := hs1.resetArenas.ite hs1
  have hs3 : s3.Queued cmds := hs2.applyOwn.passBoundary
  have hs4 : s4.Queued cmds := hs3.modPart
  exact hs4.foldl fun _ _ h => h.modCore.takeShares

theorem State.Queued.crossBoundary {p : Nat} (h : s.Queued cmds) : (s.crossBoundary p).Queued cmds :=
  h.modeBoundary.enterBarrier.ite h.modeBoundary.rise

theorem State.Queued.batchBoundary {p : Nat} (h : s.Queued cmds) : (s.batchBoundary p).Queued cmds :=
  (h.applyKv.ite h).passBoundary.snapTry.ite (h.applyKv.ite h).passBoundary

end Sys2Proof.Machine
end

