-- ==== Sys2Proof/Proofs/QueueFormes.lean ====
section
/-! SUPPORT. The queue of commands stands still under the operations on posts, threads, tiles and formes. -/

namespace Sys2Proof.Machine

variable {s : State} {cmds : List Instr}

/-! ### Machine/Post.lean -/

theorem State.Queued.refusePost {j : Nat} (h : s.Queued cmds) : (s.refusePost j).Queued cmds := h.incF.event

theorem State.Queued.takeForme {j part slot : Nat} {bytes : List Byte} {host : Option HostRef} {core : Option Nat}
    (h : s.Queued cmds) :
    (s.takeForme j part slot bytes host core).Queued cmds := by
  unfold State.takeForme
  extract_lets _ _ s1 _ s2
  have hs1 : s1.Queued cmds := .incF (.mk h)
  have hs2 : s2.Queued cmds := hs1.countOp
  split
  · extract_lets s3
    have hs3 : s3.Queued cmds := by
      unfold s3
      split
      · exact hs1.event.ite hs1
      · exact hs1
    exact hs3.setForme.finishForme
  · exact hs2.setForme.ite hs1.setForme

theorem State.Queued.waitIsMet {i : Nat} (h : s.Queued cmds) : (s.waitIsMet i).Queued cmds := by
  unfold State.waitIsMet
  split
  · exact h
  · exact h.setForme.ite h

theorem State.Queued.countersFree {i : Nat} (h : s.Queued cmds) : (s.countersFree i).Queued cmds := by
  unfold State.countersFree
  split
  · exact h
  · exact h.setForme.ite h

theorem State.Queued.holdPlan {x : Forme} {ps : List Plan} (h : s.Queued cmds) : (s.holdPlan x ps).Queued cmds := by
  unfold State.holdPlan
  extract_lets
  exact .mk h

theorem State.Queued.showPlan {x : Forme} {b : Nat} {p : Plan} (h : s.Queued cmds) : (s.showPlan x b p).Queued cmds :=
  h.setReg.setF

theorem State.Queued.setClaims {x : Forme} {tiles : List Nat} (h : s.Queued cmds) : (s.setClaims x tiles).Queued cmds :=
  h.foldl fun _ _ h => h.countOp.setReg.setValue

theorem State.Queued.countPlan {x : Forme} {pl : Planned} (h : s.Queued cmds) : (s.countPlan x pl).Queued cmds := by
  unfold State.countPlan
  extract_lets _ s1 s2 s3
  have hs1 : s1.Queued cmds := h.incF.ite h
  have hs2 : s2.Queued cmds := hs1.ite hs1.incF
  have hs3 : s3.Queued cmds := hs2.event.ite hs2
  exact hs3.ite hs3.holdPlan

theorem State.Queued.runTiles {i : Nat} {pl : Planned} (h : s.Queued cmds) : (s.runTiles i pl).Queued cmds :=
  ((h.setClaims.foldl fun _ _ h => h.setReg).ite h.setClaims).countPlan.showPlan.modForme

theorem State.Queued.tileFault {i core : Nat} {f : AccFault} {addr : Nat} (h : s.Queued cmds) :
    (s.tileFault i core f addr).Queued cmds :=
  h.faultRecord.formeFault

theorem State.Queued.cacheRows {i : Nat} (h : s.Queued cmds) : (s.cacheRows i).Queued cmds := by
  unfold State.cacheRows
  extract_lets _ _ s1
  have hs1 : s1.Queued cmds := h.validateRows
  split
  · exact h
  · split
    next e => exact hs1.writeCache.of_fst e
    next e => exact (hs1.writeCache.of_fst e).faultRecord.formeFault

theorem State.Queued.planFails {i : Nat} {e : PlanErr} (h : s.Queued cmds) : (s.planFails i e).Queued cmds := by
  unfold State.planFails
  extract_lets _ s1 s2 s3 s4
  have hs1 : s1.Queued cmds := by
    unfold s1
    split
    · exact h.faultRecord
    · exact h
  have hs2 : s2.Queued cmds := hs1.ite hs1.incF
  have hs3 : s3.Queued cmds := hs2.event.ite hs2
  have hs4 : s4.Queued cmds := hs3.event.ite hs3
  exact hs4.finishForme

theorem State.Queued.planEnds {i : Nat} (h : s.Queued cmds) : (s.planEnds i).Queued cmds := by
  unfold State.planEnds
  split
  · exact h.planFails
  · exact h.runTiles.cacheRows

theorem State.Queued.rowsReach {i : Nat} (h : s.Queued cmds) : (s.rowsReach i).Queued cmds := by
  unfold State.rowsReach
  split
  · exact h
  · exact h.planEnds.ite h

theorem State.Queued.formePlanned {i : Nat} (h : s.Queued cmds) : (s.formePlanned i).Queued cmds := by
  unfold State.formePlanned
  split
  · exact h
  · split
    · exact h
    · split
      · exact h.planFails.ite h.setClaims.countPlan.showPlan.finishForme
      · split
        · exact h.planFails
        · exact h.ite h.modForme.startColl.collSweep
      · split
        · exact h.planFails
        · exact h.modForme.beginSwitch
      · split
        · exact h.planFails
        · split
          · exact h.planFails
          · exact h.modForme.arm
      · split
        · exact h.ite (h.modKv.ite h.planEnds)
        · extract_lets _ s1
          have hs1 : s1.Queued cmds := h.setClaims.countPlan.showPlan
          split
          · exact h.planFails
          · exact h.planFails.ite hs1.modForme.modKv

theorem State.Queued.tryEnd {i : Nat} (h : s.Queued cmds) : (s.tryEnd i).Queued cmds := by
  unfold State.tryEnd
  split
  · exact h
  · exact h.endStep2.endStep3.ite (h.finishForme.ite h)

theorem State.Queued.endFormes (h : s.Queued cmds) : s.endFormes.Queued cmds := h.foldl fun _ _ h => h.tryEnd

theorem State.Queued.flushPlans {j : Nat} (h : s.Queued cmds) : (s.flushPlans j).Queued cmds := by
  unfold State.flushPlans
  extract_lets _ s1
  have hs1 : s1.Queued cmds := .mk h
  exact hs1.event.ite hs1

/-! ### Machine/Errors.lean -/

theorem State.Queued.countCe {kind : Nat} (h : s.Queued cmds) : (s.countCe kind).Queued cmds := h.of_pending rfl

theorem State.Queued.correctedAt {a : Nat} (h : s.Queued cmds) : (s.correctedAt a).Queued cmds :=
  h.satF.setF.setF.countCe.event.ite h.satF.setF.setF.countCe

theorem State.Queued.correctedGalley {core : Nat} (h : s.Queued cmds) : (s.correctedGalley core).Queued cmds :=
  h.satF.event.countCe

theorem State.Queued.correctedLoc {l : Loc} (h : s.Queued cmds) : (s.correctedLoc l).Queued cmds := by
  unfold State.correctedLoc
  split
  · exact h.correctedGalley
  · exact h.correctedAt
  · exact h

theorem State.Queued.linkAt {a : Nat} {retried : Bool} (h : s.Queued cmds) : (s.linkAt a retried).Queued cmds :=
  h.ite (h.countCe.satF.event.ite h.countCe.satF)

theorem State.Queued.linkLoc {l : Loc} {retried : Bool} (h : s.Queued cmds) : (s.linkLoc l retried).Queued cmds := by
  unfold State.linkLoc
  split
  · exact h.linkAt
  · exact h

theorem State.Queued.recordUnused {p : Nat} {r : ErrRec} (h : s.Queued cmds) : (s.recordUnused p r).Queued cmds :=
  h.fileRecord.history

theorem State.Queued.contain {p : Nat} {r : ErrRec} (h : s.Queued cmds) : (s.contain p r).Queued cmds :=
  h.errRecord.stopPartition.ite h.recordUnused

theorem State.Queued.uncorrectable {a symbols addr : Nat} {link : Bool} (h : s.Queued cmds) :
    (s.uncorrectable a symbols addr link).Queued cmds := by
  unfold State.uncorrectable
  extract_lets _ s1 s2 s3 _ s4
  have hs1 : s1.Queued cmds := h.ite h.damage
  have hs2 : s2.Queued cmds := hs1.satF.event
  have hs3 : s3.Queued cmds := hs2.event.ite hs2
  have hs4 : s4.Queued cmds := hs3.errRecordAll
  split
  · exact hs3.contain
  · exact hs4.foldl fun _ _ h => h.stopPartition

theorem State.Queued.galleyUe {core off symbols addr : Nat} (h : s.Queued cmds) : (s.galleyUe core off symbols addr).Queued cmds :=
  h.damage.contain

theorem State.Queued.remoteUe {p ctx addr : Nat} (h : s.Queued cmds) : (s.remoteUe p ctx addr).Queued cmds := h.contain

theorem State.Queued.hostFail {p unit addr bus : Nat} (h : s.Queued cmds) : (s.hostFail p unit addr bus).Queued cmds := h.contain

theorem State.Queued.errorAt {p unit : Nat} {l : Loc} {symbols addr : Nat} {link : Bool} (h : s.Queued cmds) :
    (s.errorAt p unit l symbols addr link).Queued cmds := by
  unfold State.errorAt
  split
  · exact h.galleyUe
  · exact h.uncorrectable
  · exact h.hostFail
  · exact h.remoteUe

theorem State.Queued.correctedFor {p : Nat} {l : List (BitVec 48)} (h : s.Queued cmds) : (s.correctedFor p l).Queued cmds :=
  h.foldl fun _ _ h => h.correctedAt.ite h

theorem State.Queued.linksFor {p : Nat} {l : List (BitVec 48 × Bool)} (h : s.Queued cmds) : (s.linksFor p l).Queued cmds :=
  h.foldl fun _ _ h => h.linkAt.ite h

theorem State.Queued.scrub {inst : Nat} {found : ScrubFound} (h : s.Queued cmds) : (s.scrub inst found).Queued cmds := by
  unfold State.scrub
  extract_lets _ _ _ s2 s3 _ s4 s5
  have hs2 : s2.Queued cmds := h.foldl fun _ _ h => h.correctedAt.ite h
  have hs3 : s3.Queued cmds := hs2.foldl fun _ _ h => h.linkAt.ite h
  have hs4 : s4.Queued cmds := hs3.setF.incF.event.ite hs3.setF
  have hs5 : s5.Queued cmds := hs4.foldl fun _ _ h => h.uncorrectable
  split
  · exact hs5.uncorrectable.ite hs5
  · exact hs5

theorem State.Queued.containment {e : ErrorEvent} (h : s.Queued cmds) : (s.containment e).Queued cmds := by
  unfold State.containment
  split
  · exact h.galleyUe
  · exact h.uncorrectable
  · exact h.remoteUe
  · exact h.hostFail
  · exact h.correctedAt
  · exact h.correctedGalley
  · exact h.linkAt

/-! ### Machine/Arb.lean -/

theorem State.Queued.arbPick {c unit k : Nat} {ready : List Nat} {u : State} (h : s.Queued cmds)
    (e : s.arbPick c unit ready = some (k, u)) : u.Queued cmds := by
  unfold State.arbPick at e
  dsimp only at e
  split at e
  · cases e
    exact h.modCore.incF.event
  · split at e
    · obtain ⟨_, _, e⟩ := Option.map_eq_some_iff.1 e
      cases e
      exact h.modCore
    · split at e
      · cases e
      · cases e
        exact h.modCore

theorem State.Queued.unitTurn {c t unit : Nat} {u : State} (h : s.Queued cmds) (e : s.unitTurn c t unit = some u) :
    u.Queued cmds := by
  unfold State.unitTurn at e
  split at e
  · cases e
  · split at e
    next e' =>
      split_ifs at e
      cases e
      exact h.arbPick e'
    next => cases e

/-! ### Machine/Threads.lean -/

theorem State.Queued.feed {c t : Nat} (h : s.Queued cmds) : (s.feed c t).Queued cmds :=
  (h.ite h.fetchLine).ite (h.ite h.modTh.fetchLine)

theorem State.Queued.goTo {c t : Nat} {x : Thread} {pc : Nat} (h : s.Queued cmds) : (s.goTo c t x pc).Queued cmds :=
  h.setTh.issued.feed

theorem State.Queued.goOn {c t : Nat} {x : Thread} (h : s.Queued cmds) : (s.goOn c t x).Queued cmds := h.goTo

theorem State.Queued.readErrors {at_ : List (Loc × Nat)} {corrected : List Nat} {links : List (Nat × Bool)} (h : s.Queued cmds) :
    (s.readErrors at_ corrected links).Queued cmds := by
  unfold State.readErrors
  extract_lets s1
  have hs1 : s1.Queued cmds := by
    unfold s1
    refine h.foldl fun t x h => ?_
    split
    · exact h.correctedLoc
    · exact h
  refine hs1.foldl fun t x h => ?_
  split
  · exact h.linkLoc
  · exact h

theorem State.Queued.arrival {p c addr : Nat} {at_ : List (Loc × Nat)} {known : List (Option Byte)} {how : Arrival}
    {take : State → List Byte → State} (h : s.Queued cmds) (htake : ∀ a0 a1, a0.Queued cmds → (take a0 a1).Queued cmds) :
    (s.arrival p c addr at_ known how take).Queued cmds := by
  unfold State.arrival
  split
  · exact h.errorAt
  · split
    · split
      · exact h
      · exact h.ite h.errorAt
    · split
      · exact htake _ _ h.readErrors
      · exact h
    · split
      · exact htake _ _ h
      · exact (htake _ _ h).ite h

theorem State.Queued.lineArrives {c t : Nat} {how : Arrival} (h : s.Queued cmds) : (s.lineArrives c t how).Queued cmds := by
  unfold State.lineArrives
  extract_lets
  split
  · exact h
  · extract_lets
    split
    · exact h.endProgram
    · split
      · exact h.threadFault
      · exact h
      · exact h.arrival (fun _ _ h => h.setTh.feed)

theorem State.Queued.stall {c t : Nat} (h : s.Queued cmds) : (s.stall c t).Queued cmds := h.modTh

theorem State.Queued.instr {c t w : Nat} {uses : List (Bool × Nat)} {g : Thread → State} (h : s.Queued cmds)
    (hg : ∀ a0, (g a0).Queued cmds) :
    (s.instr c t w uses g).Queued cmds := by
  unfold State.instr
  extract_lets
  split
  · exact h
  · split
    · exact h.stall
    · exact h.ite (h.stall.ite (h.ite (h.endProgram.ite (hg _))))

theorem State.Queued.scalar {c t w d : Nat} {uses : List Nat} {f : Thread → Nat} (h : s.Queued cmds) :
    (s.scalar c t w d uses f).Queued cmds :=
  h.instr (fun _ => h.goOn)

theorem State.Queued.unitInstr {c t w : Nat} {uses : List (Bool × Nat)} {g : State → Thread → State} (h : s.Queued cmds)
    (hg : ∀ a0 a1, a0.Queued cmds → (g a0 a1).Queued cmds) :
    (s.unitInstr c t w uses g).Queued cmds := by
  unfold State.unitInstr
  refine h.instr (fun _ => ?_)
  split
  next e => exact hg _ _ (h.unitTurn e)
  · exact h

theorem State.Queued.vector {c t w d : Nat} {uses : List (Bool × Nat)} {f : Thread → VReg × Nat} (h : s.Queued cmds) :
    (s.vector c t w d uses f).Queued cmds :=
  h.unitInstr (fun _ _ h => h.goOn)

theorem State.Queued.branch {c t w d a imm : Nat} {test : Nat → Nat → Bool} (h : s.Queued cmds) :
    (s.branch c t w d a imm test).Queued cmds :=
  h.instr (fun _ => h.goTo.ite h.goOn)

theorem State.Queued.issueLoad {c t : Nat} {x : Thread} {vec : Bool} {reg n align addr : Nat} (h : s.Queued cmds) :
    (s.issueLoad c t x vec reg n align addr).Queued cmds := by
  unfold State.issueLoad
  extract_lets
  split
  · exact h.endProgram
  · split
    · exact h.threadFault
    · exact h.threadFault
    · extract_lets _ s1
      have hs1 : s1.Queued cmds := by
        unfold s1
        split
        · exact h.remoteRead
        · exact h
      exact hs1.tlbUse.goOn

theorem State.Queued.loadArrives {c t k : Nat} {how : Arrival} (h : s.Queued cmds) : (s.loadArrives c t k how).Queued cmds := by
  unfold State.loadArrives
  extract_lets
  split
  · exact h
  · exact h.arrival (fun _ _ h => h.setTh)

theorem State.Queued.issueStore {c t : Nat} {x : Thread} {align addr : Nat} {b : List Byte} (h : s.Queued cmds) :
    (s.issueStore c t x align addr b).Queued cmds := by
  unfold State.issueStore
  extract_lets
  split
  · exact h.endProgram
  · split
    next e => exact (h.store.of_fst e).threadFault
    next e => exact (h.store.of_fst e).tlbUse.goOn

theorem State.Queued.storeAck {c t k : Nat} (h : s.Queued cmds) : (s.storeAck c t k).Queued cmds := by
  unfold State.storeAck
  extract_lets
  split
  · exact h
  · exact h.ite h.setTh

theorem State.Queued.outOfRangeCtr {c t : Nat} (h : s.Queued cmds) : (s.outOfRangeCtr c t).Queued cmds := h.event.endProgram

theorem State.Queued.syncOp {c t d a b f : Nat} {uses : List Nat} {g : Thread → Nat → State} (h : s.Queued cmds)
    (hg : ∀ a0 a1, (g a0 a1).Queued cmds) :
    (s.syncOp c t d a b f uses g).Queued cmds :=
  h.instr (fun _ => h.outOfRangeCtr.ite (hg _ _))

theorem State.Queued.waitOp {c t : Nat} {x : Thread} {d b ctr : Nat} (h : s.Queued cmds) : (s.waitOp c t x d b ctr).Queued cmds :=
  h.countOp.goOn.ite h.countOp.goOn

theorem State.Queued.waitExpires {c t : Nat} (h : s.Queued cmds) : (s.waitExpires c t).Queued cmds := by
  unfold State.waitExpires
  extract_lets
  split
  · exact h.setTh.event.ite h
  · exact h

theorem State.Queued.claimSetOp {c t : Nat} {x : Thread} {d first count : Nat} (h : s.Queued cmds) :
    (s.claimSetOp c t x d first count).Queued cmds := by
  unfold State.claimSetOp
  extract_lets
  split
  next e => exact ((h.claimSetLoop (fun _ _ h => h.opClaim)).of_fst e).goOn
  next e => exact ((h.claimSetLoop (fun _ _ h => h.opClaim)).of_fst e).goOn

theorem State.Queued.postOp {c t : Nat} {x : Thread} {addr : Nat} (h : s.Queued cmds) : (s.postOp c t x addr).Queued cmds := by
  unfold State.postOp
  extract_lets _ _ s1 v1
  have hs1 : s1.Queued cmds := h.ite h.refusePost
  have hv1 : v1.Queued cmds := hs1.setTh.issued
  split
  · exact h.endProgram
  · split
    · exact .mk hv1
    · split
      · exact h.threadFault
      · exact h.goOn.takeForme

theorem State.Queued.postRetry {c t : Nat} (h : s.Queued cmds) : (s.postRetry c t).Queued cmds := by
  unfold State.postRetry
  extract_lets
  exact .ite h (.postOp (.mk h))

theorem State.Queued.startOp {c t : Nat} {x : Thread} {d a b slot : Nat} (h : s.Queued cmds) :
    (s.startOp c t x d a b slot).Queued cmds :=
  h.outOfRangeCtr.ite h.goOn.startReq

/-! ### Machine/Tiles.lean -/

theorem State.Queued.claimTile {i core : Nat} (h : s.Queued cmds) : (s.claimTile i core).1.Queued cmds := by
  unfold State.claimTile
  refine .ite_fst (State.Queued.modForme ?_) h.claimRaw
  exact h.claimSetLoop fun _ _ h => h.claimRaw

theorem State.Queued.popQueue {core slot : Nat} (h : s.Queued cmds) : (s.popQueue core slot).Queued cmds :=
  h.modCore.ite h.modCore.slotPasses

theorem State.Queued.fetchRemote {i core : Nat} {t : Tile} (h : s.Queued cmds) : (s.fetchRemote i core t).Queued cmds := by
  unfold State.fetchRemote
  extract_lets
  refine h.foldl fun t x h => ?_
  split
  · exact h.remoteRead
  · exact h

theorem State.Queued.claimReturn {i core : Nat} (h : s.Queued cmds) : (s.claimReturn i core).Queued cmds := by
  unfold State.claimReturn
  split
  · exact h
  · extract_lets
    split
    next e =>
      have ht := h.claimTile.of_fst e
      extract_lets
      exact .fetchRemote (.mk ht)
    next e => exact (h.claimTile.of_fst e).popQueue

theorem State.Queued.chunkStaged {core i : Nat} {corrected : List (BitVec 48)} (h : s.Queued cmds) :
    (s.chunkStaged core i corrected).Queued cmds := by
  unfold State.chunkStaged
  extract_lets
  split
  · exact h.correctedFor.modTile
  · split
    · exact h.correctedFor.modTile
    · exact h

theorem State.Queued.raiseFlags {c fl : Nat} (h : s.Queued cmds) : (s.raiseFlags c fl).Queued cmds :=
  (h.raise.event.ite h.raise).event.ite (h.raise.event.ite h.raise)

theorem State.Queued.proofCount {c : Nat} (h : s.Queued cmds) : (s.proofCount c).1.Queued cmds := h.modCore.ite_fst h.modCore

theorem State.Queued.takesPart {i c : Nat} (h : s.Queued cmds) : (s.takesPart i c).Queued cmds := h.modForme

theorem State.Queued.beginTile {t : Tile} (h : s.Queued cmds) : (s.beginTile t).Queued cmds := by
  unfold State.beginTile
  extract_lets _ _ _ _ _ s1 bad s2 _ s3 r1 s4
  have hs1 : s1.Queued cmds := h.modForme.ite h
  have hs2 : s2.Queued cmds := hs1.foldl fun _ _ h => h.tlbUse.tlbUse
  have hs3 : s3.Queued cmds := hs2.ite hs2.raiseFlags
  have hr1 : r1.1.Queued cmds := hs3.proofCount.ite_fst hs3
  have hs4 : s4.Queued cmds := hr1.takesPart.modTile
  clear_value bad
  split
  · exact hs4.tileFault
  · exact hs4

theorem State.Queued.platenIssues {c : Nat} (h : s.Queued cmds) : (s.platenIssues c).Queued cmds := h.modCore

theorem State.Queued.pickTile {c unit : Nat} (h : s.Queued cmds) : (s.pickTile c unit).Queued cmds := by
  unfold State.pickTile
  split
  · exact h
  · split
    · exact h
    next e =>
      have ht := h.arbPick e
      split
      · exact (ht.platenIssues.ite ht).beginTile
      · exact h

theorem State.Queued.tileBegin {c unit : Nat} (h : s.Queued cmds) : (s.tileBegin c unit).Queued cmds :=
  h.ite (h.pickTile.ite (h.ite h.idleRestart.pickTile))

theorem State.Queued.epilogueStart {c i : Nat} (h : s.Queued cmds) : (s.epilogueStart c i).Queued cmds := by
  unfold State.epilogueStart
  extract_lets
  split
  · exact h
  · extract_lets
    split
    · exact h
    · split
      · exact h
      · exact (h.foldl fun _ _ h => h.poke).modTile.startReq

theorem State.Queued.writeRuns {i core seed : Nat} {l : List OutRow} (h : s.Queued cmds) :
    (s.writeRuns i core seed l).1.Queued cmds := by
  unfold State.writeRuns
  split
  next e => exact h.writeOuts.of_fst e
  next e => exact (h.writeOuts.of_fst e).writeZmap

theorem State.Queued.countOor {i n : Nat} (h : s.Queued cmds) : (s.countOor i n).Queued cmds := h.modForme

theorem State.Queued.writeTile {t : Tile} (h : s.Queued cmds) : (s.writeTile t).1.Queued cmds := by
  unfold State.writeTile
  extract_lets _ _ _ _ maps
  have hmaps : ∀ r, r.1.Queued cmds → (maps r).1.Queued cmds := by
    intro r h
    unfold maps
    split
    · exact h
    · exact State.Queued.writeZmap h
  split
  · exact h.writeRuns
  · exact h.countOor.writeRuns
  · exact h.writeRuns
  · exact h.writeRuns
  · exact h.writeRuns
  · exact h.countOor.writeRuns
  · exact hmaps _ (h.gatherTile :)
  · exact hmaps _ h.scatterTile
  · exact h.writeRuns.ite_fst h.writeRuns

theorem State.Queued.tileEnd {c i : Nat} (h : s.Queued cmds) : (s.tileEnd c i).Queued cmds := by
  unfold State.tileEnd
  split
  · exact h
  · extract_lets
    split
    next e => exact .mk (h.writeTile.of_fst e).tileFault
    next e => exact .mk (h.writeTile.of_fst e).formeFault
    next e =>
      have ht := h.writeTile.of_fst e
      extract_lets s1
      have hs1 : s1.Queued cmds := .incF (.mk ht)
      exact hs1.modForme

theorem State.Queued.tileAccessFault {i c addr : Nat} {write : Bool} (h : s.Queued cmds) :
    (s.tileAccessFault i c addr write).Queued cmds := by
  unfold State.tileAccessFault
  extract_lets
  split
  · split
    · exact (h.arenaWrite.ite h).tileFault
    · exact h
  · exact h

theorem State.Queued.reportEnd {i c : Nat} (h : s.Queued cmds) : (s.reportEnd i c).Queued cmds := by
  unfold State.reportEnd
  extract_lets _ _ _ _ done s1 s2
  have hs1 : s1.Queued cmds := h.modCore
  have hs2 : s2.Queued cmds := h.popQueue
  split
  · exact h
  · split
    · split
      · exact h
      · unfold done
        extract_lets s3
        have hs3 : s3.Queued cmds := .mk h
        exact hs3.modForme.tryEnd
    · split
      · exact h
      · split
        · unfold done
          extract_lets s3
          have hs3 : s3.Queued cmds := .mk (hs1.slotPasses.ite hs1)
          exact hs3.modForme.tryEnd
        · split
          · unfold done
            extract_lets s3
            have hs3 : s3.Queued cmds := .mk hs2.takesPart.modForme
            exact hs3.modForme.tryEnd
          · exact h

theorem State.Queued.markSuspect {c cause : Nat} (h : s.Queued cmds) : (s.markSuspect c cause).Queued cmds :=
  h.ite h.raise.history.event

theorem State.Queued.proofRecord {c base : Nat} {b : List Byte} (h : s.Queued cmds) : (s.proofRecord c base b).Queued cmds := by
  unfold State.proofRecord
  extract_lets
  split
  · exact h.satF.event
  · split
    next e => exact (h.storeRec.of_fst e).incF
    next e => exact (h.storeRec.of_fst e).satF.event

theorem State.Queued.proofMismatch {c ring : Nat} {x : Forme} {p : Plan} {row col : Nat} {v : Nat × Nat × Nat}
    (h : s.Queued cmds) :
    (s.proofMismatch c ring x p row col v).Queued cmds := by
  unfold State.proofMismatch
  extract_lets _ _ s1 s2 s3 _ _ s4
  have hs1 : s1.Queued cmds := h.satF.event
  have hs2 : s2.Queued cmds := hs1.ite hs1.setF.setF.raiseF
  have hs3 : s3.Queued cmds := hs2.modLayer.ite hs2
  have hs4 : s4.Queued cmds := hs3.proofRecord
  exact .ite hs4.markSuspect (.mk hs4)

theorem State.Queued.proofComplete {c i : Nat} {upset : List (Nat × Nat)} (h : s.Queued cmds) :
    (s.proofComplete c i upset).Queued cmds := by
  unfold State.proofComplete
  extract_lets
  split
  · exact h
  · split
    · exact h
    · extract_lets _ _ _ _ done
      have hdone : done.Queued cmds := h.modTile.incF
      split
      · exact h
      · split
        · exact hdone
        · exact hdone.proofMismatch

theorem State.Queued.proofTime {c : Nat} (h : s.Queued cmds) : (s.proofTime c).Queued cmds := h.modCore.ite h

theorem State.Queued.postArrives {i c : Nat} (h : s.Queued cmds) : (s.postArrives i c).Queued cmds :=
  h.ite (h.slotPasses.ite h).modCore.modForme.incF

theorem State.Queued.reducerUpdate {index : Nat} (h : s.Queued cmds) : (s.reducerUpdate index).Queued cmds := by
  unfold State.reducerUpdate
  split
  · exact h
  · extract_lets _ _ _ _ s1 s2
    have hs1 : s1.Queued cmds := .performUpdate (.mk h)
    have hs2 : s2.Queued cmds := hs1.ite hs1.modForme.writeZmap
    exact h.ite hs2.tryEnd

/-! ### Machine/Formes.lean -/

theorem State.Queued.postForme {c : Fin 256} {slot : Fin 4} {b : BitVec 512} {is : Bool} (h : s.Queued cmds) :
    (s.postForme c slot b is).Queued cmds := by
  unfold State.postForme
  extract_lets _ _ s1
  have hs1 : s1.Queued cmds := h.refusePost
  exact .ite h (.ite (.mk hs1) h.takeForme)

end Sys2Proof.Machine
end

