-- ==== Sys2Proof/Proofs/QueueServices.lean ====
section
/-! SUPPORT. The queue of commands stands still under the operations on training, generation, coppice, intake and links. -/

namespace Sys2Proof.Machine

variable {s : State} {cmds : List Instr}

/-! ### Machine/Train.lean -/

theorem State.Queued.blockComes {unit : Nat} (h : s.Queued cmds) : (s.blockComes unit).Queued cmds := by
  unfold State.blockComes
  split
  · exact h
  · exact .ite h (.blockArrives (.mk h))

theorem State.Queued.blockWritten {unit : Nat} (h : s.Queued cmds) : (s.blockWritten unit).Queued cmds := by
  unfold State.blockWritten
  extract_lets
  split
  · exact h
  · exact h.modCamb.showIntake.beginCommit.ite h.modCamb.showIntake

theorem State.Queued.normDone {p : Nat} (h : s.Queued cmds) : (s.normDone p).Queued cmds := by
  unfold State.normDone
  split
  · exact h
  · exact h.endColl.commit

theorem State.Queued.updateExpires {p : Nat} (h : s.Queued cmds) : (s.updateExpires p).Queued cmds := by
  unfold State.updateExpires
  split
  · exact h
  · exact h.abortUpdate.ite h

/-! ### Machine/Generate.lean -/

theorem State.Queued.kvFinish {p i : Nat} (h : s.Queued cmds) : (s.kvFinish p i).Queued cmds := by
  unfold State.kvFinish
  extract_lets
  split
  · exact h
  · split
    · exact h.finishForme
    · exact h

theorem State.Queued.kvPop {p : Nat} (h : s.Queued cmds) : (s.kvPop p).Queued cmds := h.modKv

theorem State.Queued.kvFault {p i : Nat} {f : AccFault} {a : Nat} (h : s.Queued cmds) : (s.kvFault p i f a).Queued cmds :=
  h.faultRecord.modKv.finishForme

theorem State.Queued.refillAll {p : Nat} (h : s.Queued cmds) : (s.refillAll p).Queued cmds := h.modKv

theorem State.Queued.peekNow {p table i : Nat} (h : s.Queued cmds) : (s.peekNow p table i).Queued cmds := h.setRegs.setF.setF

theorem State.Queued.kvFront {p : Nat} (h : s.Queued cmds) : (s.kvFront p).Queued cmds := by
  unfold State.kvFront
  split
  · exact h
  · exact h.kvPop.rowsReach
  · exact h.kvPop.refillAll
  · exact h.kvPop.peekNow
  · split
    · exact h.kvPop.kvFinish.ite h
    · exact h.kvFault
    · exact h

theorem State.Queued.kvSettle {p : Nat} (h : s.Queued cmds) : (s.kvSettle p).Queued cmds := h.ite (h.foldl fun _ _ h => h.kvFront)

theorem State.Queued.kvResult {p i status w1 w2 w3 : Nat} (h : s.Queued cmds) : (s.kvResult p i status w1 w2 w3).Queued cmds := by
  unfold State.kvResult
  extract_lets
  split
  next => exact h.kvFault
  next => exact h
  next e =>
    have ht : (State.Queued cmds) _ := h.kvWrite.of_ok e
    exact ((ht.incF.ite ht).ite (ht.incF.ite ht).modForme).modKv.kvSettle

theorem State.Queued.kvAnswer {p i : Nat} {b : List Byte} {r : KvRes} (h : s.Queued cmds)
    (hr : KvHolds cmds (fun r => r.1.Queued cmds) r) :
    (s.kvAnswer p i b r).Queued cmds := by
  unfold State.kvAnswer
  extract_lets
  split
  · exact State.Queued.ite hr (State.Queued.kvResult hr)
  · exact h.kvResult
  · exact State.Queued.kvResult hr
  · exact h.kvFault

theorem State.Queued.kvServe {p : Nat} {is : Forme → List Byte → Bool} {act : State → Nat → List Byte → State}
    (h : s.Queued cmds) (hact : ∀ a0 a1 a2, a0.Queued cmds → (act a0 a1 a2).Queued cmds) :
    (s.kvServe p is act).Queued cmds := by
  unfold State.kvServe
  extract_lets s1 s2
  have hs1 : s1.Queued cmds := h.kvSettle
  have hs2 : s2.Queued cmds := hs1.kvArm
  split
  · split
    · exact hs1
    · split
      · exact hs2.kvFault
      · exact hs2
      · exact (hact _ _ _ hs2).ite hs2
  · exact hs1

theorem State.Queued.admitNext {p : Nat} (h : s.Queued cmds) : (s.admitNext p).Queued cmds := by
  refine h.kvServe fun s i b h => ?_
  extract_lets r1 s1
  have hr1 : KvHolds cmds (fun r => r.1.Queued cmds) r1 := h.admitEntry
  have hs1 : s1.Queued cmds := by
    unfold s1
    clear_value r1
    split
    · exact h.event.ite h
    · exact h
  exact hs1.kvAnswer hr1

theorem State.Queued.scheduleNext {p : Nat} (h : s.Queued cmds) : (s.scheduleNext p).Queued cmds :=
  h.kvServe (fun _ _ _ h => h.batchBoundary.kvAnswer h.batchBoundary.scheduleEntry)

theorem State.Queued.advanceNext {p : Nat} (h : s.Queued cmds) : (s.advanceNext p).Queued cmds :=
  h.kvServe (fun _ _ _ h => h.modKv.ite (h.kvAnswer h.advanceEntry))

theorem State.Queued.advanceAgain {p : Nat} (h : s.Queued cmds) : (s.advanceAgain p).Queued cmds := h.modKv.advanceNext.ite h

theorem State.Queued.copyOne {p : Nat} {q : KvSeq} {out : Bool} {j b : Nat} (h : s.Queued cmds) :
    (s.copyOne p q out j b).Queued cmds := by
  unfold State.copyOne
  extract_lets
  split
  · exact h.faultRecord
  · exact h.storeRec

theorem State.Queued.endCopy {p n : Nat} {c : KvCopy} {counter : Fld} {kind st : Nat} (h : s.Queued cmds) :
    (s.endCopy p n c counter kind st).Queued cmds :=
  (h.modKv.releaseSeq.ite h.modKv.modSeq.incF.ringWrite).kvFinish

theorem State.Queued.swapOutDone {p n : Nat} (h : s.Queued cmds) : (s.swapOutDone p n).Queued cmds := by
  unfold State.swapOutDone
  split
  · exact h
  · extract_lets _ s1
    have hs1 : s1.Queued cmds := h.foldl fun _ _ h => h.copyOne.modKv.modSeq
    split
    · exact h.faultRecord
    · exact hs1.endCopy

theorem State.Queued.swapInDone {p n : Nat} (h : s.Queued cmds) : (s.swapInDone p n).Queued cmds := by
  unfold State.swapInDone
  split
  · exact h
  · extract_lets _ s1
    have hs1 : s1.Queued cmds := h.foldl fun _ _ h => h.copyOne.modSeq
    split
    · exact h.faultRecord
    · exact hs1.endCopy

theorem State.Queued.refillTick {p : Nat} (h : s.Queued cmds) : (s.refillTick p).Queued cmds := h.modKv.kvSettle.ite h

theorem State.Queued.ringDelay {p vec : Nat} (h : s.Queued cmds) : (s.ringDelay p vec).Queued cmds := by
  unfold State.ringDelay
  split
  · exact h
  · exact h.interrupt.ite h

/-! ### Machine/Coppice.lean -/

theorem State.Queued.barrierDone {p : Nat} (h : s.Queued cmds) : (s.barrierDone p).Queued cmds := by
  unfold State.barrierDone
  extract_lets c1
  clear_value c1
  split
  · exact h
  · exact h.endColl.modSw.planPump.ite h.endColl

theorem State.Queued.planExpires {p : Nat} (h : s.Queued cmds) : (s.planExpires p).Queued cmds := by
  unfold State.planExpires
  extract_lets
  split
  · exact h.endPlan.ite h
  · exact h

/-! ### Machine/Intake.lean -/

theorem State.Queued.applyIntake (h : s.Queued cmds) : s.applyIntake.Queued cmds := by
  unfold State.applyIntake
  extract_lets _ s1
  have hs1 : s1.Queued cmds := by
    unfold s1
    refine h.foldl fun t x h => ?_
    split
    · exact h
    · extract_lets
      exact .event (.mk h)
  exact hs1.latch

theorem State.Queued.applyIntkIdle {e : Nat} (h : s.Queued cmds) : (s.applyIntkIdle e).Queued cmds :=
  (h.applyIntake.ite h.latch).ite h

theorem State.Queued.writeScratch {w : Acc} {a n : Nat} (h : s.Queued cmds) : (s.writeScratch w a n).1.Queued cmds := by
  unfold State.writeScratch
  extract_lets
  exact .wr (.mk h)

theorem State.Queued.takeJob {p : Nat} (h : s.Queued cmds) : (s.takeJob p).Queued cmds := by
  unfold State.takeJob
  extract_lets _ _ _ _ got _ s1 s2
  have hs1 : s1.Queued cmds := h.modIntk
  have hs2 : s2.Queued cmds := hs1.opAdd.ite hs1
  clear_value got
  split
  · exact hs2.jobAccess
  · extract_lets _ s3
    have hs3 : s3.Queued cmds := hs2.modIntk
    split
    · split
      · exact hs3.jobAccess
      · exact hs3.jobFault
    · split
      · extract_lets _ r1
        have hr1 : r1.1.Queued cmds := hs3.modJob.writeScratch
        split
        · exact hr1.jobAccess
        · exact hr1.beginSample
      · exact hs3.modJob.beginSample

theorem State.Queued.sampleFault {p j n e : Nat} {f : AccFault × Nat} (h : s.Queued cmds) :
    (s.sampleFault p j n e f).Queued cmds :=
  h.faultRecord.rejectSample

theorem State.Queued.startStream {p j : Nat} {hd : StreamHeader} (h : s.Queued cmds) : (s.startStream p j hd).Queued cmds := by
  unfold State.startStream
  split
  · exact h
  · split
    · exact h
    · split
      · exact h.endSample.ite h.rejectSample
      · split
        · exact h.sampleFault
        · split
          · exact h.rejectSample
          · exact h.modStream.servePool.beginSample

theorem State.Queued.putEngine {e p j n cls : Nat} (h : s.Queued cmds) : (s.putEngine e p j n cls).Queued cmds := by
  unfold State.putEngine
  extract_lets _ s1
  have hs1 : s1.Queued cmds := .mk h
  exact hs1.setF.setF.setF

theorem State.Queued.allocFrame {p j n : Nat} (h : s.Queued cmds) : (s.allocFrame p j n).Queued cmds := h.modStream

theorem State.Queued.grantEngine {e : Nat} {isRef : Bool} (h : s.Queued cmds) : (s.grantEngine e isRef).Queued cmds := by
  unfold State.grantEngine
  split
  · exact h
  · split
    · exact h
    · split
      · exact h
      · split
        · exact h
        · split
          · exact h.staleSample.ite h.putEngine
          · split
            · exact h.staleSample
            · split
              · exact h.sampleFault
              · exact (h.allocFrame.ite h).putEngine.modStream

theorem State.Queued.abandonSample {e p j n cycles : Nat} (h : s.Queued cmds) : (s.abandonSample e p j n cycles).Queued cmds := by
  unfold State.abandonSample
  extract_lets _ s1
  have hs1 : s1.Queued cmds := h.incF.incF2.setF
  exact .applyIntkIdle (.rejectSample (.mk hs1))

theorem State.Queued.writeFrameBytes {p e slot : Nat} {b : List Byte} (h : s.Queued cmds) :
    (s.writeFrameBytes p e slot b).1.Queued cmds :=
  h.wr.ite_fst h

theorem State.Queued.holdPicture {p j e : Nat} {x : IntkJob} {t : IntkStream} {hd : StreamHeader} {f : IntkFrame}
    {isRef : Bool} {disp : Option Nat} {planes : List (List Int)} (h : s.Queued cmds) :
    (s.holdPicture p j e x t hd f isRef disp planes).1.Queued cmds :=
  h.modStream.ite_fst h.modStream.writeFrameBytes

theorem State.Queued.holdSound {p j e : Nat} {t : IntkStream} {hd : StreamHeader} {f : IntkFrame}
    {planes : List (List Int)} (h : s.Queued cmds) :
    (s.holdSound p j e t hd f planes).1.Queued cmds :=
  h.modStream.writeFrameBytes

theorem State.Queued.concealMore {p j n e m : Nat} (h : s.Queued cmds) : (s.concealMore p j n e m).1.Queued cmds := by
  induction m generalizing s with
  | zero => exact h
  | succ m ih =>
    unfold State.concealMore
    split
    · exact h
    · split
      · split
        · exact h
        · exact h.holdPicture.wrBind fun _ h => ih h
      · exact h

theorem State.Queued.pictureDone {p j n e : Nat} {x : IntkJob} {t : IntkStream} {hd : StreamHeader} {u : DecodedUnit}
    (h : s.Queued cmds) :
    (s.pictureDone p j n e x t hd u).Queued cmds := by
  unfold State.pictureDone
  extract_lets _ _ _ _ _ _ _ _ r1
  have hr1 : r1.1.Queued cmds := h.holdPicture.wrBind fun _ h => h.concealMore
  split
  · exact hr1.jobAccess
  · exact hr1.settleSamples

theorem State.Queued.soundDone {p j n e : Nat} {x : IntkJob} {t : IntkStream} {hd : StreamHeader} {u : DecodedUnit}
    (h : s.Queued cmds) : (s.soundDone p j n e x t hd u).Queued cmds := by
  -- unfolded as a function, so that the kernel does not evaluate the match of its body
  generalize e : @State.soundDone = f
  unfold State.soundDone at e
  subst e
  beta_reduce
  extract_lets -underBinder _ _ _ _ _ _ _ _ _ r
  have hr : r.1.Queued cmds := h.holdSound.fst_of_eq rfl
  clear_value r
  split
  · exact hr.jobAccess
  · exact hr.modStream

theorem State.Queued.unitDone {e : Nat} {u : DecodedUnit} (h : s.Queued cmds) : (s.unitDone e u).Queued cmds := by
  unfold State.unitDone
  split
  · exact h
  · extract_lets _ _ _ _ s2 _ s3 s4
    have hs2 : s2.Queued cmds := h.freeEngine.incF
    have hs3 : s3.Queued cmds := hs2.modStream
    have hs4 : s4.Queued cmds := hs3.soundDone.ite hs3.pictureDone
    split
    · exact h.abandonSample
    · split
      · exact hs2.modStream.applyIntkIdle
      · split
        · exact hs2.rejectSample.applyIntkIdle
        · exact hs4.servePool.applyIntkIdle

theorem State.Queued.budgetExceeded {e cycles samples : Nat} (h : s.Queued cmds) :
    (s.budgetExceeded e cycles samples).Queued cmds := by
  unfold State.budgetExceeded
  split
  · exact h
  · exact h.abandonSample.ite h

theorem State.Queued.postPicture {p j e : Nat} {x : IntkJob} {t : IntkStream} {f : IntkFrame} {hd : StreamHeader}
    (h : s.Queued cmds) :
    (s.postPicture p j e x t f hd).Queued cmds := by
  unfold State.postPicture
  extract_lets _ _ r1 r2
  have hr1 : r1.1.Queued cmds := by
    unfold r1
    refine h.foldl_fst fun t x h => ?_
    refine h.wrBind fun t h => ?_
    extract_lets box
    clear_value box
    split
    · exact h
    · exact h.writeFrame
  have hr2 : r2.1.Queued cmds := hr1.wrBind fun _ h => h.modStream.concealMore
  split
  · exact hr2.jobAccess
  · exact hr2.settleSamples

theorem State.Queued.postSound {p j e : Nat} {x : IntkJob} {t : IntkStream} {hd : StreamHeader} (h : s.Queued cmds) :
    (s.postSound p j e x t hd).Queued cmds := by
  unfold State.postSound
  extract_lets _ _ _ _ r1
  have hr1 : r1.1.Queued cmds := h.writeSound
  split
  · exact hr1.jobAccess
  · exact hr1.modStream.deliverHead.settleSamples

theorem State.Queued.postChunk {p j e : Nat} {x : IntkJob} {t : IntkStream} {f : IntkFrame} {hd : StreamHeader}
    (h : s.Queued cmds) :
    (s.postChunk p j e x t f hd).Queued cmds :=
  h.modStream.postSound.ite h.modStream

theorem State.Queued.postprocess {p j cycles : Nat} (h : s.Queued cmds) : (s.postprocess p j cycles).Queued cmds := by
  unfold State.postprocess
  split
  · split
    · exact h
    · extract_lets s1 s2
      have hs1 : s1.Queued cmds := h.freeEngine
      have hs2 : s2.Queued cmds := by
        unfold s2
        split
        · exact hs1.copyCached.ite hs1.modStream
        · split
          · exact hs1.postChunk.ite hs1.postPicture
          · exact hs1
        · exact hs1
      exact hs2.applyIntkIdle
  · exact h

theorem State.Queued.recordBatch {p j : Nat} {x : IntkJob} {last : Bool} (h : s.Queued cmds) :
    (s.recordBatch p j x last).1.Queued cmds :=
  (h.foldl fun _ _ h => h.fillCache).wr.wrBind fun _ h => h.modJob

theorem State.Queued.deliverBatch {p j : Nat} (h : s.Queued cmds) : (s.deliverBatch p j).Queued cmds := by
  unfold State.deliverBatch
  split
  · exact h
  · split
    · exact h
    · extract_lets _ _ r1 s1 s2 s3
      have hr1 : r1.1.Queued cmds := h.ite_fst h.recordBatch
      have hs1 : s1.Queued cmds := hr1.opAdd.incF
      have hs2 : s2.Queued cmds := hs1.modJob
      have hs3 : s3.Queued cmds := hs2.dropJob.ite hs2
      split
      · exact hr1.jobAccess
      · exact hr1.ite (hs3.applyIntake.ite hs3)

/-! ### Machine/Firm.lean -/

theorem State.Queued.modSec {g : Sec → Sec} (h : s.Queued cmds) : (s.modSec g).Queued cmds := h.of_pending rfl

theorem State.Queued.boot (h : s.Queued cmds) : s.boot.Queued cmds := by
  unfold State.boot
  extract_lets _ _ _ s1 s2 s3 _ s4
  have hs1 : s1.Queued cmds := .mk h
  have hs2 : s2.Queued cmds := hs1.setF.setF.setF
  have hs3 : s3.Queued cmds := hs2.setF.setF
  have hs4 : s4.Queued cmds := hs3.setF
  exact hs4.setRegs

theorem State.Queued.setBlockBit {b : Nat} (h : s.Queued cmds) : (s.setBlockBit b).Queued cmds := h.setF

theorem State.Queued.refuseBlock {st : Nat} (h : s.Queued cmds) : (s.refuseBlock st).Queued cmds := h.setF.incF.event

theorem State.Queued.takeBlock {src b : Nat} {d : List Byte} (h : s.Queued cmds) : (s.takeBlock src b d).Queued cmds := by
  unfold State.takeBlock
  extract_lets s1 s2 s3
  have hs1 : s1.Queued cmds := h.modSec.setBlockBit
  have hs2 : s2.Queued cmds := hs1.setF.incF.incF
  have hs3 : s3.Queued cmds := hs2.incF.ite hs2
  exact hs3.setF.event.ite hs3

theorem State.Queued.dupBlock (h : s.Queued cmds) : s.dupBlock.Queued cmds := h.setF.incF

theorem State.Queued.emptyStaging (h : s.Queued cmds) : s.emptyStaging.Queued cmds := h.modSec.setF.setF.setF.setRegs.setRegs

theorem State.Queued.treatBlock {src b : Nat} {d : List Byte} {good : Bool} (h : s.Queued cmds) :
    (s.treatBlock src b d good).Queued cmds := by
  unfold State.treatBlock
  extract_lets _ _ s2
  have hs2 : s2.Queued cmds := h.emptyStaging.setF.setF
  split
  · split
    · exact h.refuseBlock.ite (h.refuseBlock.ite hs2.setRegs.takeBlock)
    · exact (h.dupBlock.ite h.refuseBlock).ite h.refuseBlock
  · split
    · exact h.refuseBlock
    · exact h.refuseBlock.ite (h.dupBlock.ite (h.refuseBlock.ite (h.refuseBlock.ite h.takeBlock)))

theorem State.Queued.piece {src b n i : Nat} {d : List Byte} (h : s.Queued cmds) : (s.piece src b n i d).Queued cmds := by
  unfold State.piece
  extract_lets
  exact .ite (.mk h) (.mk h)

theorem State.Queued.fwSend {l peer off : Nat} (h : s.Queued cmds) : (s.fwSend l peer off).Queued cmds := h.modSec.sendOn

theorem State.Queued.fwSendBlock {l peer b : Nat} (h : s.Queued cmds) : (s.fwSendBlock l peer b).Queued cmds :=
  (h.foldl fun _ _ h => h.fwSend).incF

theorem State.Queued.fwPump {l peer n : Nat} (h : s.Queued cmds) : (s.fwPump l peer n).Queued cmds := by
  induction n generalizing s with
  | zero => exact h
  | succ n ih =>
    unfold State.fwPump
    split
    · exact h
    · split
      · exact h
      · split
        · exact h
        · exact ih h.modSec.fwSendBlock

theorem State.Queued.fwTell {l a : Nat} (h : s.Queued cmds) : (s.fwTell l a).Queued cmds := h.fwSend.ite h

theorem State.Queued.fwReceive {l : Nat} {p : Packet} (h : s.Queued cmds) : (s.fwReceive l p).1.Queued cmds :=
  h.ite_fst ((h.ite_fst h.modSec.fwPump).ite_fst (h.ite_fst (h.modSec.ite_fst (h.modSec.ite_fst h.modSec.piece))))

theorem State.Queued.fwAnswered {seq peer : Nat} (h : s.Queued cmds) : (s.fwAnswered seq peer).Queued cmds := by
  unfold State.fwAnswered
  split
  · exact h
  · exact h.modSec.fwPump

theorem State.Queued.fwAfterBlock {src b : Nat} {d : List Byte} (h : s.Queued cmds) : (s.fwAfterBlock src b d).Queued cmds := by
  unfold State.fwAfterBlock
  split
  · exact h
  · split
    · exact h
    · exact h.modSec.fwTell.ite h

end Sys2Proof.Machine
end

