-- ==== Sys2Proof/Proofs/QueueFabric.lean ====
section
/-! SUPPORT. The queue of commands stands still under the operations on packets of the canopy, resets and the host. -/

namespace Sys2Proof.Machine

variable {s : State} {cmds : List Instr}

/-! ### Machine/Fabric.lean -/

theorem State.Queued.advertiseOn {l : Nat} (h : s.Queued cmds) : (s.advertiseOn l).Queued cmds := h.sendOn.sendOn

theorem State.Queued.advertise (h : s.Queued cmds) : s.advertise.Queued cmds := h.foldl fun _ _ h => h.advertiseOn

theorem State.Queued.recomputeFrom {was : Canopy} (h : s.Queued cmds) : (s.recomputeFrom was).Queued cmds := by
  unfold State.recomputeFrom
  extract_lets
  exact .ite h (.advertise (.event (.mk h)))

theorem State.Queued.recompute (h : s.Queued cmds) : s.recompute.Queued cmds := h.recomputeFrom

theorem State.Queued.routeTick (h : s.Queued cmds) : s.routeTick.Queued cmds := h.advertise.ite (h.recompute.ite h)

theorem State.Queued.electStart (h : s.Queued cmds) : s.electStart.Queued cmds := by
  unfold State.electStart
  extract_lets _ s1
  have hs1 : s1.Queued cmds := .mk h
  exact hs1.foldl fun _ _ h => h.sendOn

theorem State.Queued.assigned (h : s.Queued cmds) : s.assigned.Queued cmds := by
  unfold State.assigned
  extract_lets s1
  have hs1 : s1.Queued cmds := h.setF.setF
  exact .recompute (.event (.mk hs1))

theorem State.Queued.restartAddr (h : s.Queued cmds) : s.restartAddr.Queued cmds := by
  unfold State.restartAddr
  extract_lets _ _ s1 s2 s3 s4
  have hs1 : s1.Queued cmds := .mk h
  have hs2 : s2.Queued cmds := hs1.ite hs1.event
  have hs3 : s3.Queued cmds := hs2.setF.setF
  have hs4 : s4.Queued cmds := hs3.ite hs3.advertise
  exact hs4.electStart.ite hs4.assigned

theorem State.Queued.checkConflict {addr uid : Nat} (h : s.Queued cmds) : (s.checkConflict addr uid).Queued cmds :=
  h.ite (h.event.ite (h.event.setF.setF.electStart.ite h.event.setF.setF))

theorem State.Queued.settle (h : s.Queued cmds) : s.settle.Queued cmds := by
  unfold State.settle
  extract_lets _ _ _ s1
  have hs1 : s1.Queued cmds := .setF (.mk h)
  exact h.ite (hs1.event.ite h.setF.assigned)

theorem State.Queued.sayHello {l : Nat} (h : s.Queued cmds) : (s.sayHello l).Queued cmds := h.transmit.ite h.sendLink

theorem State.Queued.unroutable {l : Nat} (h : s.Queued cmds) : (s.unroutable l).Queued cmds := h.satF.event

theorem State.Queued.reroute {l : Nat} {w : Waiting} (h : s.Queued cmds) : (s.reroute l w).Queued cmds := by
  unfold State.reroute
  split
  · exact h
  · split
    · exact h.sendFrom
    · exact h.unroutable.leaves

theorem State.Queued.linkDown {l st : Nat} (h : s.Queued cmds) : (s.linkDown l st).Queued cmds := by
  unfold State.linkDown
  extract_lets _ _ _ _ s1 _ _ _ s3
  have hs1 : s1.Queued cmds := h.setLink.setLinkSt
  have hs3 : s3.Queued cmds := .mk hs1
  exact hs1.ite (hs3.recomputeFrom.foldl fun _ _ h => h.reroute)

theorem State.Queued.linkFail {l : Nat} (h : s.Queued cmds) : (s.linkFail l).Queued cmds := h.linkDown.event.history

theorem State.Queued.linkMove {l st next : Nat} (h : s.Queued cmds) : (s.linkMove l st next).Queued cmds := h.setLinkSt.ite h

theorem State.Queued.linkExpires {l st ns : Nat} (h : s.Queued cmds) : (s.linkExpires l st ns).Queued cmds := h.linkFail.ite h

theorem State.Queued.applyPort {n : Nat} (h : s.Queued cmds) : (s.applyPort n).Queued cmds :=
  ((h.latch.foldl fun _ _ h => h.setLinkSt.ite h).ite h.latch).ite (h.latch.foldl fun _ _ h => h.linkDown)

theorem State.Queued.linkUp {l : Nat} {hd : Hello} (h : s.Queued cmds) : (s.linkUp l hd).Queued cmds := by
  unfold State.linkUp
  extract_lets _ s1 _ s2
  have hs1 : s1.Queued cmds := h.setLink.event
  have hs2 : s2.Queued cmds := .ite (.sendOn (.mk hs1)) hs1
  exact hs2.recompute.advertiseOn

theorem State.Queued.hello {l : Nat} {hd : Hello} (h : s.Queued cmds) : (s.hello l hd).Queued cmds := by
  unfold State.hello
  extract_lets _ s1 _ s2 s3
  have hs1 : s1.Queued cmds := h.linkUp.ite h.linkFail
  have hs2 : s2.Queued cmds := h.setLink
  have hs3 : s3.Queued cmds := hs2.recompute.ite hs2
  exact (hs1.checkConflict.ite hs1).ite ((hs3.checkConflict.ite hs3).ite h)

theorem State.Queued.countWords {l n : Nat} (h : s.Queued cmds) : (s.countWords l n).Queued cmds := h.ite h.modLink

theorem State.Queued.retrain {l why : Nat} (h : s.Queued cmds) : (s.retrain l why).Queued cmds :=
  h.ite h.setLinkSt.modLink.satF.event

theorem State.Queued.resend {l : Nat} {fl : List Flit} (h : s.Queued cmds) : (s.resend l fl).Queued cmds := h.ite h.putFlits.event

theorem State.Queued.regained {l : Nat} (h : s.Queued cmds) : (s.regained l).Queued cmds := h.ite h.setLinkSt.resend.drain

theorem State.Queued.sendAck {l : Nat} (h : s.Queued cmds) : (s.sendAck l).Queued cmds := h.ite h.setLink.sendLink

theorem State.Queued.flit {l num : Nat} {bytes : List Byte} {corr unc : Nat} (h : s.Queued cmds) :
    (s.flit l num bytes corr unc).Queued cmds := by
  unfold State.flit
  extract_lets s1 _ _ s2 s3 _ s4 s5
  have hs1 : s1.Queued cmds := h.countWords.ite h
  have hs2 : s2.Queued cmds := hs1.satF.satF
  have hs3 : s3.Queued cmds := hs2.satF
  have hs4 : s4.Queued cmds := hs2.setLink
  have hs5 : s5.Queued cmds := hs4.incF2
  exact hs1.ite ((hs3.ite hs3.setLink.sendLink).ite (hs2.ite (hs5.sendAck.ite hs5)))

theorem State.Queued.acked {l num : Nat} (h : s.Queued cmds) : (s.acked l num).Queued cmds := h.ite h.setLink.drain

theorem State.Queued.naked {l num : Nat} (h : s.Queued cmds) : (s.naked l num).Queued cmds := h.ite h.setLink.satF.resend

theorem State.Queued.credited {l cls level : Nat} {pool : Bool} {n : Nat} (h : s.Queued cmds) :
    (s.credited l cls level pool n).Queued cmds :=
  h.ite h.setLink.drain

theorem State.Queued.ctxRefused (h : s.Queued cmds) : s.ctxRefused.Queued cmds := h.satF.event

theorem State.Queued.forward {l : Nat} {p : Packet} (h : s.Queued cmds) : (s.forward l p).Queued cmds := by
  unfold State.forward
  split
  · exact h.satF.event.giveCredit
  · split
    · exact h.sendFrom
    · exact h.unroutable.giveCredit

theorem State.Queued.receive {src : Option (Fin 36)} {p : Packet} {kind : BitVec 4} {deliver : State → State}
    (h : s.Queued cmds) (hdeliver : ∀ a0, a0.Queued cmds → (deliver a0).Queued cmds) :
    (s.receive src p kind deliver).Queued cmds := by
  unfold State.receive
  split
  · exact h
  · split
    · exact .ite (hdeliver _ (.mk h)) h
    · split
      · exact h
      · split
        · exact (h.ctxRefused.ite h).giveCredit
        · exact (hdeliver _ h).giveCredit.ite h.forward

theorem State.Queued.answer {p : Packet} {status : Nat} {data : List Byte} (h : s.Queued cmds) :
    (s.answer p status data).Queued cmds := by
  unfold State.answer
  extract_lets r
  cases e : s.originate r with
  | none => exact h
  | some u => exact h.originate e

theorem State.Queued.remember {c seq : Nat} (h : s.Queued cmds) : (s.remember c seq).Queued cmds := h.of_pending rfl

theorem State.Queued.readRequest {p : Packet} {found : ReadErrors} (h : s.Queued cmds) : (s.readRequest p found).Queued cmds := by
  unfold State.readRequest
  split
  · exact h.ctxRefused.answer
  · extract_lets s1 _ s2 ue
    have hs1 : s1.Queued cmds := h.satF.ite h
    have hs2 : s2.Queued cmds := hs1.correctedFor.linksFor
    split
    · exact hs1.faultRecord.answer
    · clear_value ue
      split
      · exact hs2.answer.errorAt
      · exact hs2.remember.answer

theorem State.Queued.writeRequest {p : Packet} (h : s.Queued cmds) : (s.writeRequest p).Queued cmds := by
  unfold State.writeRequest
  split
  · exact h.ctxRefused.answer
  · extract_lets
    split
    · exact h.satF.answer
    · split
      · exact .mk h
      · split
        · exact h.stray.answer
        · split
          · exact h.arenaWrite.faultRecord.stray.answer
          · split
            next e => exact (h.store.of_fst e).faultRecord.answer
            next e =>
              have ht := h.store.of_fst e
              exact (ht.planGot.ite ht).remember.answer

theorem State.Queued.writeArrives {src : Option (Fin 36)} {p : Packet} (h : s.Queued cmds) :
    (s.writeArrives src p).Queued cmds := by
  unfold State.writeArrives
  split
  · split
    · exact h.answer
    · split
      next e => exact (h.fwReceive.of_fst e).answer
      next e => exact h.fwReceive.of_fst e
  · exact h.writeRequest

theorem State.Queued.retire {r : RemoteReq} (h : s.Queued cmds) : (s.retire r).Queued cmds := by
  unfold State.retire
  extract_lets _ s1 _ s2
  have hs1 : s1.Queued cmds := .mk h
  have hs2 : s2.Queued cmds := hs1.setCtx
  split
  · exact hs1
  · split
    · exact .ite hs2 (.request (.mk hs2))
    · exact hs2

theorem State.Queued.remoteRecord {r : RemoteReq} {f : AccFault} {byPeer : Bool} (h : s.Queued cmds) :
    (s.remoteRecord r f byPeer).Queued cmds :=
  h.errRecord

theorem State.Queued.remoteFault {r : RemoteReq} {f : AccFault} {byPeer : Bool} (h : s.Queued cmds) :
    (s.remoteFault r f byPeer).Queued cmds := by
  unfold State.remoteFault
  split
  · exact h.remoteRecord.endProgram
  · exact h.remoteRecord.endProgram
  · exact h.remoteRecord.endProgram
  · exact h.remoteRecord.formeFault
  · exact h.remoteRecord.formeFault.ite h.remoteRecord
  · exact h.planAck.ite h.planAck
  · exact (h.remoteRecord.ite h).snapFail
  · exact (h.remoteRecord.ite h).fillHalt
  · exact (h.remoteRecord.ite h).fillHalt
  · exact h.remoteRecord
  · exact h.ite h.remoteRecord

theorem State.Queued.failLost (h : s.Queued cmds) : s.failLost.Queued cmds := h.foldl fun _ _ h => h.retire.remoteFault.ite h

theorem State.Queued.sweepLost (h : s.Queued cmds) : s.sweepLost.Queued cmds := h.failLost.collSweep.snapSweep.fillSweep

theorem State.Queued.readCame {r : RemoteReq} {d : List Byte} (h : s.Queued cmds) : (s.readCame r d).Queued cmds := by
  unfold State.readCame
  split
  · extract_lets
    split
    · exact h.setTh
    · exact h
  · extract_lets
    split
    · exact h.setTh
    · exact h
  · exact h.fillRecordCame
  · exact h.fillPut
  · exact h

theorem State.Queued.response {p : Packet} {write : Bool} (h : s.Queued cmds) : (s.response p write).Queued cmds := by
  unfold State.response
  split
  · exact h.ctxRefused
  · split
    · exact h
    · extract_lets s1
      have hs1 : s1.Queued cmds := h.retire
      split
      · split
        · split
          · exact hs1.planAck
          · exact hs1
        · exact hs1.readCame
      · exact hs1.ctxDown.remoteFault.sweepLost
      · exact hs1.remoteFault
      · exact hs1.remoteFault
      · exact hs1.remoteUe

theorem State.Queued.writeAnswered {p : Packet} (h : s.Queued cmds) : (s.writeAnswered p).Queued cmds :=
  h.fwAnswered.ite h.response

theorem State.Queued.requestExpires {c seq : Nat} (h : s.Queued cmds) : (s.requestExpires c seq).Queued cmds :=
  (h.ctxDown.ite h).sweepLost

theorem State.Queued.collArrives {p : Packet} (h : s.Queued cmds) : (s.collArrives p).Queued cmds := by
  unfold State.collArrives
  split
  · exact h.ctxRefused
  · exact h.collSweep.collPacket.collSweep

theorem State.Queued.collExpires {i : Nat} (h : s.Queued cmds) : (s.collExpires i).Queued cmds := by
  unfold State.collExpires
  split
  · exact h.endColl.ite (h.event.endColl.ite h)
  · exact h

theorem State.Queued.collEnds {i : Nat} (h : s.Queued cmds) : (s.collEnds i).Queued cmds := by
  unfold State.collEnds
  split
  · exact h.endColl.ite (h.endColl.ite h)
  · exact h

theorem State.Queued.linkLocal {l : Nat} {p : Packet} {kind : BitVec 4} {g : State → State} (h : s.Queued cmds)
    (hg : ∀ a0, a0.Queued cmds → (g a0).Queued cmds) :
    (s.linkLocal l p kind g).Queued cmds :=
  h.ite (hg _ h).giveCredit

theorem State.Queued.routeCame {l : Nat} {p : Packet} (h : s.Queued cmds) : (s.routeCame l p).Queued cmds := h.modLink.recompute

theorem State.Queued.electCame {p : Packet} (h : s.Queued cmds) : (s.electCame p).Queued cmds := by
  unfold State.electCame
  extract_lets _ _ _ s1 _ s2
  have hs1 : s1.Queued cmds := h.checkConflict.ite h
  have hs2 : s2.Queued cmds := .mk hs1
  exact hs1.ite (hs2.foldl fun _ _ h => h.sendOn)

theorem State.Queued.timeAsk {devices : List (Nat × Bool)} (h : s.Queued cmds) : (s.timeAsk devices).Queued cmds := by
  unfold State.timeAsk
  extract_lets _ _ _ v1 _ s1
  have hv1 : v1.Queued cmds := h.setF
  have hs1 : s1.Queued cmds := .mk hv1
  split
  · exact hs1.setF.ite hs1
  · extract_lets s2
    have hs2 : s2.Queued cmds := hs1.setF.setF
    exact .sendOn (.mk hs2)

theorem State.Queued.correctTime {theta : Int} (h : s.Queued cmds) : (s.correctTime theta).Queued cmds := by
  unfold State.correctTime
  extract_lets _ _ _ s1 s2 _ s3 _ _ _ s4 s5
  have hs1 : s1.Queued cmds := .ite h (.mk h)
  have hs2 : s2.Queued cmds := hs1.setF
  have hs3 : s3.Queued cmds := .mk hs2
  have hs4 : s4.Queued cmds := .mk hs3
  have hs5 : s5.Queued cmds := by
    unfold s5
    split
    · exact .event (.stepTime (.mk hs3))
    · exact .ite (.event (.satF (.stepTime (.mk hs3)))) (hs4.event.ite hs4)
  exact .mk hs5

theorem State.Queued.timeCame {l : Nat} {p : Packet} (h : s.Queued cmds) : (s.timeCame l p).Queued cmds := by
  unfold State.timeCame
  extract_lets _ _ _ _ _ _ s1 s2
  have hs1 : s1.Queued cmds := .mk h
  have hs2 : s2.Queued cmds := hs1.setF.setF
  exact h.sendOn.ite (h.ite hs2.correctTime)

theorem State.Queued.timeLost (h : s.Queued cmds) : s.timeLost.Queued cmds := by
  unfold State.timeLost
  split
  · extract_lets s1
    have hs1 : s1.Queued cmds := h.setF
    exact .event (.mk hs1)
  · exact h

theorem State.Queued.tblCommand {write : Bool} (h : s.Queued cmds) : (s.tblCommand write).Queued cmds :=
  ((h.tblWrite.ite h).ite_fst (h.ite_fst h.setRegs)).setF.event

/-! ### Machine/Apply.lean -/

theorem State.Queued.applyIfReady {pg : Nat} (h : s.Queued cmds) : (s.applyIfReady pg).Queued cmds := by
  unfold State.applyIfReady
  split
  · exact h
  · split
    · exact h.applyCore.ite h
    · exact h.applyStep
    · exact h.applyStep
    · exact h
    · exact h.applyIntkIdle
    · exact h.latch.ite h.applyPort
    · exact h.ite h.latch
    · exact h

theorem State.Queued.requestApply {pg : Nat} (h : s.Queued cmds) : (s.requestApply pg).Queued cmds := h.ite h.setF.applyIfReady

theorem State.Queued.discard {pg : Nat} (h : s.Queued cmds) : (s.discard pg).Queued cmds := by
  unfold State.discard
  split
  · exact h
  · extract_lets s1
    have hs1 : s1.Queued cmds := .mk h
    exact .ite hs1 (.setF (.mk hs1))

theorem State.Queued.lockPages (h : s.Queued cmds) : s.lockPages.Queued cmds := h.foldl fun _ _ h => h.setF

theorem State.Queued.openStore (h : s.Queued cmds) : s.openStore.Queued cmds := by
  unfold State.openStore
  extract_lets
  split
  · exact .mk h
  · extract_lets
    exact .ite (.event (.mk h)) h

theorem State.Queued.setPwr {o mask v : Nat} (h : s.Queued cmds) : (s.setPwr o mask v).Queued cmds := h.setReg

theorem State.Queued.applySettings (h : s.Queued cmds) : s.applySettings.Queued cmds := by
  unfold State.applySettings
  extract_lets s1 s2 s3 s4 s5
  have hs1 : s1.Queued cmds := h.openStore
  have hs2 : s2.Queued cmds := hs1.setF
  have hs3 : s3.Queued cmds := by
    unfold s3
    split
    · exact hs2.setReg.restartAddr
    · exact hs2
  have hs4 : s4.Queued cmds := by
    unfold s4
    split
    · exact hs3.setPwr.setPwr.setPwr
    · exact hs3
  have hs5 : s5.Queued cmds := by
    unfold s5
    split
    · exact hs4.setReg
    · exact hs4
  split
  · exact hs5.lockPages.ite hs5
  · exact hs5

theorem State.Queued.snapDefaults {p : Nat} (h : s.Queued cmds) : (s.snapDefaults p).Queued cmds := by
  unfold State.snapDefaults
  split
  · exact h.setReg.setReg
  · exact h

/-! ### Machine/Reset.lean -/

theorem State.Queued.clear {k : WholeReset} {cause : Nat} (h : s.Queued cmds) : (s.clear k cause).Queued cmds := by
  unfold State.clear
  extract_lets _ _ t1 t2
  have ht1 : t1.Queued cmds := h.of_pending rfl
  have ht2 : t2.Queued cmds := ht1.setReg.setF.ite ht1
  exact ht2.setF.ite ht2

theorem State.Queued.requestWhole {k : WholeReset} {cause : Nat} (h : s.Queued cmds) : (s.requestWhole k cause).Queued cmds := by
  unfold State.requestWhole
  split
  · exact h
  · split
    · exact h.ite h.clear
    · exact h.clear

theorem State.Queued.newChallenge (h : s.Queued cmds) : s.newChallenge.Queued cmds := by
  unfold State.newChallenge
  extract_lets
  exact .setRegs (.mk h)

theorem State.Queued.startWaves (h : s.Queued cmds) : s.startWaves.Queued cmds := h.beginWaves.ite h

theorem State.Queued.secBoot (h : s.Queued cmds) : s.secBoot.Queued cmds := by
  unfold State.secBoot
  split
  · exact h
  · extract_lets s1
    have hs1 : s1.Queued cmds := h.newChallenge.boot
    exact .startWaves (.mk hs1)

theorem State.Queued.becomeReady (h : s.Queued cmds) : s.becomeReady.Queued cmds := by
  unfold State.becomeReady
  extract_lets _ s1 s2 s3
  have hs1 : s1.Queued cmds := .setF (.mk h)
  have hs2 : s2.Queued cmds := hs1.ite hs1.applySettings
  have hs3 : s3.Queued cmds := hs2.history
  exact hs3.event.ite hs3

theorem State.Queued.endWhole {k : WholeReset} (h : s.Queued cmds) : (s.endWhole k).Queued cmds := h.becomeReady.ite h

theorem State.Queued.watchdog (h : s.Queued cmds) : s.watchdog.Queued cmds := by
  unfold State.watchdog
  split
  · exact h
  · split
    · exact h.clear
    · exact h

theorem State.Queued.configRetry {f : Nat} (h : s.Queued cmds) : (s.configRetry f).Queued cmds := h.emit.ite h

/-! ### Machine/HostIf.lean -/

theorem State.Queued.fnRelease {f : Nat} (h : s.Queued cmds) : (s.fnRelease f).Queued cmds :=
  h.ite ((h.modFn.foldl fun _ _ h => h.writeCqe).foldl fun _ _ h => h.message)

theorem State.Queued.hostConfig {c : HostConfig} (h : s.Queued cmds) : (s.hostConfig c).Queued cmds := by
  unfold State.hostConfig
  split
  · exact h.configRetry
  · split
    · exact h.modFn.fnRelease
    · exact .foldl (.mk h) fun _ _ h => h.fnRelease
    · exact h.modFn
    · exact h.modFn

theorem State.Queued.powerState {f : Nat} {d3 : Bool} (h : s.Queued cmds) : (s.powerState f d3).Queued cmds :=
  h.configRetry.ite h.modFn.fnRelease

theorem State.Queued.sqStop {f q : Nat} (h : s.Queued cmds) : (s.sqStop f q).Queued cmds := h.setF.setF.event

theorem State.Queued.sqBell {f q v : Nat} (h : s.Queued cmds) : (s.sqBell f q v).Queued cmds :=
  h.satF.ite (h.ite (h.modSq.sqStop.ite h.modSq))

theorem State.Queued.sqCtrl {f q v : Nat} (h : s.Queued cmds) : (s.sqCtrl f q v).Queued cmds := h.setReg.modSq.setF.ite h.setReg

theorem State.Queued.cqCtrl {f q v : Nat} (h : s.Queued cmds) : (s.cqCtrl f q v).Queued cmds :=
  h.event.ite (h.setReg.modCq.ite h.setReg)

theorem State.Queued.cqBell {f q v : Nat} (h : s.Queued cmds) : (s.cqBell f q v).Queued cmds := h.satF.ite (h.modCq.ite h.event)

theorem State.Queued.fetchOne {f q : Nat} (h : s.Queued cmds) : (s.fetchOne f q).Queued cmds :=
  h.ite (h.ite (h.modCq.ite h).modSq.incF.incF)

theorem State.Queued.sqFetch {f q n : Nat} {host : Option (List Byte)} (h : s.Queued cmds) :
    (s.sqFetch f q n host).Queued cmds := by
  unfold State.sqFetch
  extract_lets
  split
  · exact h
  · split
    · exact h.sqStop
    · exact (h.foldl fun _ _ h => h.poke).foldl fun _ _ h => h.fetchOne

theorem State.Queued.sqTake {f q : Nat} {arb : AMap Int} (h : s.Queued cmds) : (s.sqTake f q arb).Queued cmds := by
  unfold State.sqTake
  extract_lets s1 v1
  have hs1 : s1.Queued cmds := h.modSq
  have hv1 : v1.Queued cmds := hs1.modFn
  exact .mk hv1

theorem State.Queued.handOn {f q kind : Nat} {act : State → Nat → HostRef → List Byte → State} (h : s.Queued cmds)
    (hact : ∀ a0 a1 a2 a3, a0.Queued cmds → (act a0 a1 a2 a3).Queued cmds) :
    (s.handOn f q kind act).Queued cmds := by
  unfold State.handOn
  split
  · exact h.ite (h.sqTake.endEntry.ite (hact _ _ _ _ h.sqTake))
  · exact h

theorem State.Queued.sqForme {p : Nat} {r : HostRef} {b : List Byte} (h : s.Queued cmds) : (s.sqForme p r b).Queued cmds :=
  h.takeForme

theorem State.Queued.sqStart {p : Nat} {r : HostRef} {b : List Byte} (h : s.Queued cmds) : (s.sqStart p r b).Queued cmds :=
  h.endEntry.ite (h.endEntry.ite h.startReq)

theorem State.Queued.sqAdd {p : Nat} {r : HostRef} {b : List Byte} (h : s.Queued cmds) : (s.sqAdd p r b).Queued cmds :=
  h.endEntry.ite h.opAdd.endEntry

theorem State.Queued.sqHold {f q p : Nat} {r : HostRef} {b : List Byte} (h : s.Queued cmds) : (s.sqHold f q p r b).Queued cmds :=
  h.endEntry.ite (h.countOp.endEntry.ite h.countOp.modSq)

theorem State.Queued.sqRelease {f q : Nat} {r : HostRef} {status : Nat} (h : s.Queued cmds) :
    (s.sqRelease f q r status).Queued cmds :=
  h.modSq.endEntry

theorem State.Queued.sqMet {f q : Nat} (h : s.Queued cmds) : (s.sqMet f q).Queued cmds := by
  unfold State.sqMet
  split
  · exact h.sqRelease
  · exact h

theorem State.Queued.sqExpires {f q : Nat} (h : s.Queued cmds) : (s.sqExpires f q).Queued cmds := by
  unfold State.sqExpires
  split
  · exact h.sqRelease.ite h
  · exact h

theorem State.Queued.sqBad {f q : Nat} (h : s.Queued cmds) : (s.sqBad f q).Queued cmds := by
  unfold State.sqBad
  split
  · exact h.ite h.sqTake.endEntry
  · exact h

theorem State.Queued.cqDelay {f q : Nat} (h : s.Queued cmds) : (s.cqDelay f q).Queued cmds := h.interrupt.ite h

theorem State.Queued.sendPending {f : Nat} (h : s.Queued cmds) : (s.sendPending f).Queued cmds :=
  h.ite (h.modFn.foldl fun _ _ h => h.message)

theorem State.Queued.msixMask {f : Nat} {vec : Option (Nat × Option (Nat × Nat))} {mask : Bool} (h : s.Queued cmds) :
    (s.msixMask f vec mask).Queued cmds := by
  unfold State.msixMask
  split
  · exact h.configRetry.ite h.modFn.sendPending
  · exact h.satF.ite (h.ite h.modFn.sendPending)

theorem State.Queued.bar2Fail {f cause off : Nat} (h : s.Queued cmds) : (s.bar2Fail f cause off).Queued cmds :=
  h.satF.event.ite h.satF.event.setF.setF.setF.raiseF

theorem State.Queued.bar2Read {f off n : Nat} {found : ReadErrors} (h : s.Queued cmds) :
    (s.bar2Read f off n found).Queued cmds := by
  unfold State.bar2Read
  extract_lets _ _ _ _ s1
  have hs1 : s1.Queued cmds := h.correctedFor.linksFor
  split
  · exact h.satF.emit
  · split
    · exact h.bar2Fail.emit
    · exact hs1.emit.foldl fun _ _ h => h.uncorrectable

theorem State.Queued.bar2Write {f off : Nat} {b : List Byte} (h : s.Queued cmds) : (s.bar2Write f off b).Queued cmds := by
  unfold State.bar2Write
  extract_lets
  split
  · exact h.satF
  · split
    · exact h.bar2Fail
    · split
      next e => exact (h.store.of_fst e).faultRecord
      next e => exact h.store.of_fst e

/-! ### Machine/Failures.lean -/

theorem State.Queued.snapIntervals (h : s.Queued cmds) : s.snapIntervals.Queued cmds := by
  unfold State.snapIntervals
  exact .ite h (.foldl h fun _ _ h => .ite (.setF (.mk h)) h)

theorem State.Queued.snapAsk {p : Nat} (h : s.Queued cmds) : (s.snapAsk p).Queued cmds := h.setF.snapTry.ite h.setF

theorem State.Queued.snapEnds {p : Nat} (h : s.Queued cmds) : (s.snapEnds p).Queued cmds := by
  unfold State.snapEnds
  split
  · exact h.snapComplete.ite h
  · exact h

theorem State.Queued.replayOver {p : Nat} {x : Replay} (h : s.Queued cmds) : (s.replayOver p x).Queued cmds :=
  h.replayEnd.passBoundary.ite h.replayEnd

theorem State.Queued.replayEnds {p : Nat} (h : s.Queued cmds) : (s.replayEnds p).Queued cmds := by
  unfold State.replayEnds
  split
  · exact h.replayOver.ite h
  · exact h

theorem State.Queued.replayBegin {p list : Nat} {fill : Bool} (h : s.Queued cmds) : (s.replayBegin p list fill).Queued cmds := by
  unfold State.replayBegin
  extract_lets s1
  have hs1 : s1.Queued cmds := h.replayStart
  split
  · exact hs1.replayOver.ite hs1
  · exact hs1

theorem State.Queued.replayAsk {unit : Nat} (h : s.Queued cmds) : (s.replayAsk unit).Queued cmds := h.ite h.replayBegin

theorem State.Queued.fillAsk {p : Nat} (h : s.Queued cmds) : (s.fillAsk p).Queued cmds := h.fillStart.ite h

theorem State.Queued.fillAbort {p : Nat} (h : s.Queued cmds) : (s.fillAbort p).Queued cmds := h.fillHalt.ite h

theorem State.Queued.fillChecked {p : Nat} (h : s.Queued cmds) : (s.fillChecked p).Queued cmds := by
  unfold State.fillChecked
  split
  · exact h.ite (h.setFillState.ite h.fillHalt)
  · exact h

theorem State.Queued.fillCopyEnds {p : Nat} (h : s.Queued cmds) : (s.fillCopyEnds p).Queued cmds := by
  unfold State.fillCopyEnds
  split
  · exact h.ite (h.showFillPages.setFillState.ite h.showFillPages.setFillState.replayBegin)
  · exact h

theorem State.Queued.fillInstalls {p : Nat} (h : s.Queued cmds) : (s.fillInstalls p).Queued cmds := by
  unfold State.fillInstalls
  split
  · exact h.install.ite h
  · exact h

end Sys2Proof.Machine
end

