-- ==== Sys2Proof/Proofs/QueueModule.lean ====
section
/-! SUPPORT. The queue of commands stands still under the operations on integrity, security, power, the bus and the clock. -/

namespace Sys2Proof.Machine

variable {s : State} {cmds : List Instr}

/-! ### Machine/Integrity.lean -/

theorem State.Queued.lockstep (h : s.Queued cmds) : s.lockstep.Queued cmds := h.ite h.setF.history.event

theorem State.Queued.ctrlUe {n : Nat} (h : s.Queued cmds) : (s.ctrlUe n).Queued cmds := by
  unfold State.ctrlUe
  split
  · exact h
  · extract_lets _ s1
    have hs1 : s1.Queued cmds := .mk h
    exact hs1.ite hs1.history.event

theorem State.Queued.auditCore {c : Nat} (h : s.Queued cmds) : (s.auditCore c).Queued cmds := by
  unfold State.auditCore
  extract_lets _ _ s1 _ s2
  have hs1 : s1.Queued cmds := h.ite h.history
  have hs2 : s2.Queued cmds := .mk hs1
  exact hs2.markSuspect.ite hs2

theorem State.Queued.auditPeriod (h : s.Queued cmds) : s.auditPeriod.Queued cmds := by
  unfold State.auditPeriod
  split
  · exact h
  · extract_lets s1
    have hs1 : s1.Queued cmds := h.foldl fun _ _ h => h.auditCore
    exact .mk hs1

theorem State.Queued.auditMismatch {pg word ref v : Nat} (h : s.Queued cmds) : (s.auditMismatch pg word ref v).Queued cmds :=
  (h.satF.ite h.satF.setF.setF.raiseF).event.history

theorem State.Queued.auditRead {pg word : Nat} {upset : Option Nat} (h : s.Queued cmds) :
    (s.auditRead pg word upset).Queued cmds := by
  unfold State.auditRead
  split
  · exact h
  · extract_lets _ s1
    have hs1 : s1.Queued cmds := by
      unfold s1
      split
      · exact h.ite h.setReg.auditMismatch
      · exact h
    exact hs1.satF.ite hs1

theorem State.Queued.fhWrite {l : List FhEntry} (h : s.Queued cmds) : (s.fhWrite l).Queued cmds := by
  unfold State.fhWrite
  refine h.foldl fun t x h => ?_
  extract_lets
  exact .mk h

theorem State.Queued.fhFlush (h : s.Queued cmds) : s.fhFlush.Queued cmds := by
  unfold State.fhFlush
  split
  · exact h
  · extract_lets _ _ _ _ _ _ s1
    have hs1 : s1.Queued cmds := h.fhWrite.satF
    exact .mk hs1

theorem State.Queued.ceSummary (h : s.Queued cmds) : s.ceSummary.Queued cmds := by
  unfold State.ceSummary
  split
  · exact h
  · extract_lets v1
    have hv1 : v1.Queued cmds := h.history
    exact .mk hv1

theorem State.Queued.retrainSummary (h : s.Queued cmds) : s.retrainSummary.Queued cmds := by
  unfold State.retrainSummary
  split
  · exact h
  · extract_lets _ s1
    have hs1 : s1.Queued cmds := h.foldl fun _ _ h => h.history
    exact .mk hs1

theorem State.Queued.fhRead (h : s.Queued cmds) : s.fhRead.Queued cmds := h.setRegs.setF

theorem State.Queued.i3cFhRead {n : Nat} (h : s.Queued cmds) : (s.i3cFhRead n).Queued cmds := h.emit.ite h

theorem State.Queued.i3cFhNext (h : s.Queued cmds) : s.i3cFhNext.Queued cmds := h.emit.ite h

theorem State.Queued.impArm (h : s.Queued cmds) : s.impArm.Queued cmds := h.ite (h.event.ite h.incF.setF)

theorem State.Queued.impCancel (h : s.Queued cmds) : s.impCancel.Queued cmds := h.setF

theorem State.Queued.pageImpression {seq pg : Nat} (h : s.Queued cmds) : (s.pageImpression seq pg).Queued cmds := by
  unfold State.pageImpression
  split
  · exact h
  · exact ((h.foldl fun _ _ h => h.setReg).setF.ite (h.foldl fun _ _ h => h.setReg)).setReg

theorem State.Queued.impTake (h : s.Queued cmds) : s.impTake.Queued cmds :=
  h.ite (h.foldl fun _ _ h => h.pageImpression).setF.setF.setF.setF.event

theorem State.Queued.spacingEnds {f : Nat} (h : s.Queued cmds) : (s.spacingEnds f).Queued cmds := by
  unfold State.spacingEnds
  split
  · exact h
  · split
    · exact h
    · extract_lets _ s1
      have hs1 : s1.Queued cmds := .mk h
      exact hs1.message.ite hs1

/-! ### Machine/Security.lean -/

theorem State.Queued.rngFail (h : s.Queued cmds) : s.rngFail.Queued cmds := h.ite (h.satF.modSec.setF.event.ite h.satF.modSec)

theorem State.Queued.lcEnds {st : Nat} (h : s.Queued cmds) : (s.lcEnds st).Queued cmds := h.setF.event

theorem State.Queued.lcMove {target : Nat} (h : s.Queued cmds) : (s.lcMove target).Queued cmds := h.setF.setF.requestWhole

theorem State.Queued.lcCommand {op : Nat} (h : s.Queued cmds) : (s.lcCommand op).Queued cmds := by
  unfold State.lcCommand
  split
  · exact h
  · extract_lets st1 _ s2
    have hs2 : s2.Queued cmds := h.newChallenge.ite h
    split
    · exact hs2.lcEnds
    · clear_value st1
      split
      · exact .ite hs2.lcEnds (.ite hs2.lcEnds (.lcMove (.setF (.modSec (.mk hs2)))))
      · exact .ite hs2.lcEnds (.lcMove (.modSec (.mk hs2)))
      · exact hs2.modSec.lcMove.ite hs2.lcEnds
      · exact hs2.modSec.lcMove.ite hs2.lcEnds
      · exact hs2.lcEnds.ite hs2.modSec.emptyStaging.setF.lcMove
      · exact hs2.lcEnds

theorem State.Queued.attest (h : s.Queued cmds) : s.attest.Queued cmds := h.ite (h.satF.ite h.modSec.setF.setF)

theorem State.Queued.i3cAttest {nonce : Nat} (h : s.Queued cmds) : (s.i3cAttest nonce).Queued cmds := h.ite h.setRegs.attest

theorem State.Queued.reportReady (h : s.Queued cmds) : s.reportReady.Queued cmds := by
  unfold State.reportReady
  split
  · exact h
  · exact h.ite h.modSec.setRegs.setF.setF.setF.event

theorem State.Queued.fwStatus {st : Nat} (h : s.Queued cmds) : (s.fwStatus st).Queued cmds := h.setF

theorem State.Queued.activateRefused {st : Nat} (h : s.Queued cmds) : (s.activateRefused st).Queued cmds := h.fwStatus.event

theorem State.Queued.fwActivate {reset : Bool} (h : s.Queued cmds) : (s.fwActivate reset).Queued cmds :=
  h.activateRefused.ite (h.activateRefused.ite h.modSec.setF.setF.fwStatus)

theorem State.Queued.installDone {good : Bool} (h : s.Queued cmds) : (s.installDone good).Queued cmds := by
  unfold State.installDone
  split
  · exact h
  · extract_lets _ _ s1 s2 s3
    have hs1 : s1.Queued cmds := h.modSec.setF
    have hs2 : s2.Queued cmds := hs1.modSec
    have hs3 : s3.Queued cmds := hs2.setF.fwStatus.event
    exact hs1.modSec.setF.activateRefused.ite (hs3.ite (hs3.requestWhole.ite hs3.event))

theorem State.Queued.fwConfirm (h : s.Queued cmds) : s.fwConfirm.Queued cmds := by
  unfold State.fwConfirm
  split
  · exact h.fwStatus
  · extract_lets _ _ _ s1 s2 s3
    have hs1 : s1.Queued cmds := h.setF.setF
    have hs2 : s2.Queued cmds := hs1.modSec
    have hs3 : s3.Queued cmds := by
      unfold s3
      split
      · exact hs2.modSec.ite hs2
      · exact hs2
    exact hs3.setF.fwStatus.event

theorem State.Queued.fwDiscard (h : s.Queued cmds) : s.fwDiscard.Queued cmds := by
  unfold State.fwDiscard
  split
  · exact h.fwStatus
  · exact h.fwStatus
  · exact h.emptyStaging.fwStatus

theorem State.Queued.fwFetch (h : s.Queued cmds) : s.fwFetch.Queued cmds := by
  unfold State.fwFetch
  exact .ite (.fwStatus (.mk h)) h.modSec.setF

theorem State.Queued.fwCommand {v : Nat} (h : s.Queued cmds) : (s.fwCommand v).Queued cmds := by
  unfold State.fwCommand
  extract_lets _ s1 s2 s3
  have hs1 : s1.Queued cmds := h.ite (h.activateRefused.ite h.fwActivate)
  have hs2 : s2.Queued cmds := hs1.ite (hs1.fwStatus.ite hs1.fwConfirm)
  have hs3 : s3.Queued cmds := hs2.ite (hs2.fwStatus.ite hs2.fwDiscard)
  exact hs3.ite (hs3.fwStatus.ite hs3.fwFetch)

theorem State.Queued.fwChunk {b i : Nat} {d : List Byte} (h : s.Queued cmds) : (s.fwChunk b i d).Queued cmds := h.ite h.piece

theorem State.Queued.fwCheck {good : Bool} (h : s.Queued cmds) : (s.fwCheck good).Queued cmds := by
  unfold State.fwCheck
  split
  · exact h
  · exact h.ite (h.modSec.treatBlock.fwAfterBlock.setF.fwStatus.ite h.modSec.treatBlock.fwAfterBlock)

theorem State.Queued.fwOffer (h : s.Queued cmds) : s.fwOffer.Queued cmds := h.ite (h.foldl fun _ _ h => h.fwSendBlock)

theorem State.Queued.fwResend (h : s.Queued cmds) : s.fwResend.Queued cmds := h.ite (h.modSec.foldl fun _ _ h => h.fwTell)

theorem State.Queued.fwRetry (h : s.Queued cmds) : s.fwRetry.Queued cmds := h.ite (h.modSec.foldl fun _ _ h => h.sendOn)

theorem State.Queued.setResult {r : Nat} (h : s.Queued cmds) : (s.setResult r).Queued cmds := h.setF

theorem State.Queued.putRecord {n : Nat} {r : SetRecord} (h : s.Queued cmds) : (s.putRecord n r).Queued cmds :=
  h.modSec.setResult.ite (h.modSec.setResult.ite h.setResult)

theorem State.Queued.setRead (h : s.Queued cmds) : s.setRead.Queued cmds := by
  unfold State.setRead
  split
  · exact h.setResult
  · exact h.setResult.ite h.setRegs.setF.setF.setResult

theorem State.Queued.setWrite (h : s.Queued cmds) : s.setWrite.Queued cmds := by
  unfold State.setWrite
  extract_lets _ s2
  have hs2 : s2.Queued cmds := h.openStore.ite h
  split
  · exact h.setResult
  · split
    · exact hs2.setResult
    · exact hs2.putRecord

theorem State.Queued.setDelete (h : s.Queued cmds) : s.setDelete.Queued cmds := by
  unfold State.setDelete
  extract_lets
  split
  · exact h.setResult
  · exact h.setResult.ite h.putRecord

theorem State.Queued.setCommand {v : Nat} (h : s.Queued cmds) : (s.setCommand v).Queued cmds :=
  h.ite (h.setDelete.ite (h.setWrite.ite (h.setRead.ite h)))

theorem State.Queued.programKey (h : s.Queued cmds) : s.programKey.Queued cmds :=
  h.ite (h.setF.ite (h.setF.ite h.setRegs.setF.setF)).event

theorem State.Queued.programFuse {w : FuseWord} {v : Nat} (h : s.Queued cmds) : (s.programFuse w v).Queued cmds := by
  unfold State.programFuse
  extract_lets
  split
  · exact h.modSec
  · exact h.setF
  · exact h.setF
  · exact h.setF
  · exact h.setF
  · exact h.setF
  · exact h.setF

theorem State.Queued.debugAccess {a : DebugAccess} {dout : Nat} (h : s.Queued cmds) : (s.debugAccess a dout).1.Queued cmds := by
  unfold State.debugAccess
  split
  · exact .mk h
  · exact .mk h
  · exact h
  · exact h
  · exact h
  · exact h
  · exact h.poke.ite h
  · exact h
  · exact h.programFuse

theorem State.Queued.jtag {i : Jtag} (h : s.Queued cmds) : (s.jtag i).Queued cmds := by
  unfold State.jtag
  split
  · exact h
  · split
    · exact h.emit
    · exact h.emit
    · exact h.emit
    · exact h.emit
    · exact h.debugAccess.emit.ite h.emit

/-! ### Machine/Power.lean -/

theorem State.Queued.modPower {g : Power → Power} (h : s.Queued cmds) : (s.modPower g).Queued cmds := h.of_pending rfl

theorem State.Queued.setGood {v : Bool} (h : s.Queued cmds) : (s.setGood v).Queued cmds := h.ite h.modPower.emit

theorem State.Queued.setTrip {v : Bool} (h : s.Queued cmds) : (s.setTrip v).Queued cmds := h.ite h.modPower.emit

theorem State.Queued.powerGone {phase : PowerPhase} (h : s.Queued cmds) : (s.powerGone phase).Queued cmds := by
  unfold State.powerGone
  extract_lets s1 _ s2
  have hs1 : s1.Queued cmds := h.setGood.setTrip
  have hs2 : s2.Queued cmds := hs1.clear
  exact .mk hs2

theorem State.Queued.powerUp (h : s.Queued cmds) : s.powerUp.Queued cmds := h.ite h.clear.modPower

theorem State.Queued.powerDown (h : s.Queued cmds) : s.powerDown.Queued cmds := by
  unfold State.powerDown
  split
  · exact h
  · exact h.modPower
  · exact h.powerGone.modPower

theorem State.Queued.stageUp {stage : Nat} (h : s.Queued cmds) : (s.stageUp stage).Queued cmds := by
  unfold State.stageUp
  split
  · exact h.ite (h.modPower.setGood.startWaves.ite h.modPower)
  · exact h

theorem State.Queued.workDown (h : s.Queued cmds) : s.workDown.Queued cmds := by
  unfold State.workDown
  extract_lets s1 s2
  have hs1 : s1.Queued cmds := h.foldl fun _ _ h => h.stopJob
  have hs2 : s2.Queued cmds := hs1.of_pending rfl
  exact hs2.modPower.setGood

theorem State.Queued.workFault {rail : Nat} (h : s.Queued cmds) : (s.workFault rail).Queued cmds := h.workDown.event.history

theorem State.Queued.stageExpires {rail : Nat} (h : s.Queued cmds) : (s.stageExpires rail).Queued cmds := by
  unfold State.stageExpires
  split
  · exact h.ite (h.powerGone.ite h.workFault)
  · exact h

theorem State.Queued.workRail {rail : Nat} (h : s.Queued cmds) : (s.workRail rail).Queued cmds := h.workFault.ite h

theorem State.Queued.mgmtRail {rail : Nat} (h : s.Queued cmds) : (s.mgmtRail rail).Queued cmds := h.powerGone.ite h

theorem State.Queued.inputEdge {mv : Nat} (h : s.Queued cmds) : (s.inputEdge mv).Queued cmds := h.setF.event.ite h

theorem State.Queued.inputLost {mv : Nat} (h : s.Queued cmds) : (s.inputLost mv).Queued cmds := h.powerGone.ite h

theorem State.Queued.pllLock (h : s.Queued cmds) : s.pllLock.Queued cmds := h.modPower.ite h

theorem State.Queued.govSample {vin iin : Nat} (h : s.Queued cmds) : (s.govSample vin iin).Queued cmds :=
  h.ite (h.modPower.modPower.setF.setF.setF.setF.setF.event.ite h.modPower.modPower.setF.setF.setF.setF.setF)

theorem State.Queued.showLevel (h : s.Queued cmds) : s.showLevel.Queued cmds := h.setF

theorem State.Queued.govEvaluate (h : s.Queued cmds) : s.govEvaluate.Queued cmds :=
  h.ite (h.modPower.setF.showLevel.event.ite h.modPower.setF.showLevel)

theorem State.Queued.wavesEnd {w : WaveSet} (h : s.Queued cmds) : (s.wavesEnd w).Queued cmds := by
  unfold State.wavesEnd
  split
  · exact h.modPart.event.takeHeld
  · exact h.modPart.emit.ite h.modPart
  · exact h.endSwitch
  · exact h

theorem State.Queued.waveStart {owner : Option Nat} (h : s.Queued cmds) : (s.waveStart owner).Queued cmds := by
  unfold State.waveStart
  split
  · exact h
  · split
    · exact h
    · extract_lets _ _ s1
      have hs1 : s1.Queued cmds := .mk h
      exact hs1.modPower.wavesEnd.ite hs1.modPower

theorem State.Queued.takeGap (h : s.Queued cmds) : s.takeGap.Queued cmds := h.modPower.ite h

theorem State.Queued.thermSample {sensors drams : List Nat} {inlet : Nat} (h : s.Queued cmds) :
    (s.thermSample sensors drams inlet).Queued cmds := by
  unfold State.thermSample
  split
  · exact h
  · extract_lets _ _ _ _ _ s1 s2 s3 s4 s5
    have hs1 : s1.Queued cmds := h.modPower
    have hs2 : s2.Queued cmds := hs1.setF.setF.setF
    have hs3 : s3.Queued cmds := hs2.setF.setF.setF
    have hs4 : s4.Queued cmds := hs3.setF.showLevel
    have hs5 : s5.Queued cmds := hs4.event.ite hs4
    exact hs5.event.ite hs5

theorem State.Queued.thermTrip {sensor celsius : Nat} (h : s.Queued cmds) : (s.thermTrip sensor celsius).Queued cmds :=
  h.ite h.workDown.setTrip.history

theorem State.Queued.clockFails {l : ClockLoss} (h : s.Queued cmds) : (s.clockFails l).Queued cmds := by
  unfold State.clockFails
  split
  · exact h
  · extract_lets _ _ s1 s2 s3
    have hs1 : s1.Queued cmds := .event (.mk h)
    have hs2 : s2.Queued cmds := hs1.modPower
    have hs3 : s3.Queued cmds := hs2.errRecordAll.ite hs2
    exact hs3.foldl fun _ _ h => h.stopPartition

theorem State.Queued.perstDown (h : s.Queued cmds) : s.perstDown.Queued cmds := h.modPower.requestWhole

theorem State.Queued.perstUp (h : s.Queued cmds) : s.perstUp.Queued cmds := h.modPower

theorem State.Queued.coldDone (h : s.Queued cmds) : s.coldDone.Queued cmds := h.endWhole.ite h

theorem State.Queued.pf0Flr (h : s.Queued cmds) : s.pf0Flr.Queued cmds := by
  unfold State.pf0Flr
  split
  · exact h.configRetry
  · extract_lets s1
    have hs1 : s1.Queued cmds := h.setFn
    exact .requestWhole (.mk hs1)

theorem State.Queued.vfFlr {p : Nat} (h : s.Queued cmds) : (s.vfFlr p).Queued cmds := h.configRetry.ite (h.ite h.requestReset)

theorem State.Queued.partQuiet {p : Nat} (h : s.Queued cmds) : (s.partQuiet p).Queued cmds := h.quiesced.ite h

theorem State.Queued.i3cAddress {a : Nat} (h : s.Queued cmds) : (s.i3cAddress a).Queued cmds := h.modPower.ite h

theorem State.Queued.i3cReset {k : WholeReset} {cause : Nat} (h : s.Queued cmds) : (s.i3cReset k cause).Queued cmds :=
  h.requestWhole.ite h

theorem State.Queued.createZeroed {p : Nat} (h : s.Queued cmds) : (s.createZeroed p).Queued cmds :=
  h.errorsZeroed.modPart.beginWaves.ite h

theorem State.Queued.teardownZeroed {p : Nat} (h : s.Queued cmds) : (s.teardownZeroed p).Queued cmds :=
  h.errorsZeroed.setPart.setF.setF.event.ite h

/-! ### Machine/Bus.lean -/

theorem State.Queued.countLocked {who : Requester} {pg : Nat} {w : WriteReq} (h : s.Queued cmds) :
    (s.countLocked who pg w).Queued cmds :=
  h.satF.ite h

theorem State.Queued.writeRsvp {who : Requester} {pg o : Nat} {w : WriteReq} (h : s.Queued cmds) :
    (s.writeRsvp who pg o w).Queued cmds :=
  h.ite (h.setReg.ite h.refuse)

theorem State.Queued.writePlain {pg o : Nat} {w : WriteReq} (h : s.Queued cmds) : (s.writePlain pg o w).Queued cmds := by
  unfold State.writePlain
  extract_lets _ _ _ s1 s2
  have hs1 : s1.Queued cmds := h.ite h.setReg
  have hs2 : s2.Queued cmds := hs1.ite hs1.clearW1c
  exact .ite hs2 (.mk hs2)

theorem State.Queued.setMask {pg v : Nat} (h : s.Queued cmds) : (s.setMask pg v).Queued cmds :=
  h.setReg.foldl fun _ _ h => h.signal

theorem State.Queued.writeHeader {pg o : Nat} {w : WriteReq} (h : s.Queued cmds) : (s.writeHeader pg o w).Queued cmds :=
  (h.discard.ite (h.requestApply.ite h)).ite ((h.setF.ite h).ite (h.clearW1c.ite (h.setMask.ite h)))

theorem State.Queued.writeReset {who : Requester} {m : Nat} (h : s.Queued cmds) : (s.writeReset who m).Queued cmds :=
  (h.foldl fun _ _ h => h.requestReset.ite h).requestWhole.ite (h.foldl fun _ _ h => h.requestReset.ite h)

theorem State.Queued.writePwr {who : Requester} {pg o : Nat} {w : WriteReq} (h : s.Queued cmds) :
    (s.writePwr who pg o w).Queued cmds :=
  h.writeReset.ite h.setReg

theorem State.Queued.writeDir {pg o : Nat} {w : WriteReq} (h : s.Queued cmds) : (s.writeDir pg o w).Queued cmds :=
  (h.lockPages.ite h).ite (((h.impArm.ite h).impCancel.ite (h.impArm.ite h)).ite ((h.fhRead.ite h).ite h.writePlain))

theorem State.Queued.writeScrub {j pg : Nat} {w : WriteReq} (h : s.Queued cmds) : (s.writeScrub j pg w).Queued cmds := h.setReg

theorem State.Queued.writeDivision {pg : Nat} {w : WriteReq} (h : s.Queued cmds) : (s.writeDivision pg w).Queued cmds :=
  h.ite (h.setF.ite h.event)

theorem State.Queued.askTeardown {p : Nat} (h : s.Queued cmds) : (s.askTeardown p).Queued cmds := by
  unfold State.askTeardown
  split
  · exact h.tearDown
  · exact h.tearDown
  · exact h.ite h.modPart
  · exact h

theorem State.Queued.askCreate {p : Nat} (h : s.Queued cmds) : (s.askCreate p).Queued cmds := h.createPart.snapDefaults.ite h

theorem State.Queued.writePartCtrl {m : Nat} (h : s.Queued cmds) : (s.writePartCtrl m).Queued cmds :=
  h.foldl fun _ _ h => (h.askTeardown.ite h).askCreate.ite (h.askTeardown.ite h)

theorem State.Queued.pmapEnds {pg r : Nat} (h : s.Queued cmds) : (s.pmapEnds pg r).Queued cmds := h.setF.setF.event

theorem State.Queued.oldAccesses {p idx : Nat} (h : s.Queued cmds) : (s.oldAccesses p idx).Queued cmds := by
  unfold State.oldAccesses
  extract_lets
  exact .mk h

theorem State.Queued.pmapPut {p pg idx e : Nat} (h : s.Queued cmds) : (s.pmapPut p pg idx e).Queued cmds :=
  h.oldAccesses.arenaLose.setEntry.setF.setF

theorem State.Queued.writePmap {p pg m : Nat} (h : s.Queued cmds) : (s.writePmap p pg m).Queued cmds := by
  unfold State.writePmap
  extract_lets _ _ _ r2
  have hr2 : r2.1.Queued cmds := by
    unfold r2
    split
    · exact .faultRecord (.mk h)
    · exact h
  exact h.ite ((h.pmapPut.ite h.pmapEnds).ite ((h.pmapEnds.ite hr2.setF.setF.pmapEnds).ite h))

theorem State.Queued.writeMem {j pg o : Nat} {w : WriteReq} (h : s.Queued cmds) : (s.writeMem j pg o w).Queued cmds := by
  unfold State.writeMem
  split
  · exact h.writeScrub.ite h.writePlain
  · extract_lets _ s1
    have hs1 : s1.Queued cmds := h.fillAsk.ite h
    split
    · exact h.writeDivision.ite h
    · split
      · exact h.writePartCtrl.ite h
      · exact h.writePmap.ite ((h.snapAsk.ite h).ite ((hs1.fillAbort.ite hs1).ite h.writePlain))

theorem State.Queued.writeSync {j pg o : Nat} {w : WriteReq} (h : s.Queued cmds) : (s.writeSync j pg o w).Queued cmds :=
  h.opAdd.ite ((h.countOp.ite h.countOp.setReg).ite (h.opSet.ite h.writePlain))

theorem State.Queued.writeCamb {j pg o : Nat} {w : WriteReq} (h : s.Queued cmds) : (s.writeCamb j pg o w).Queued cmds :=
  h.ite ((h.abortUpdate.ite h).ite ((h.replayAsk.ite h).ite (h.event.ite h.writePlain)))

theorem State.Queued.peek {p pg : Nat} (h : s.Queued cmds) : (s.peek p pg).Queued cmds := h.ite (h.peekNow.ite h.modKv.setF)

theorem State.Queued.writeMode {d pg o m sel : Nat} (h : s.Queued cmds) : (s.writeMode d pg o m sel).Queued cmds :=
  h.ite (h.setReg.requestMode.ite h.setReg)

theorem State.Queued.writeFabric {pg o : Nat} {w : WriteReq} (h : s.Queued cmds) : (s.writeFabric pg o w).Queued cmds :=
  (h.ite h.setReg.restartAddr).ite ((h.tblCommand.ite (h.tblCommand.ite h)).ite h.writePlain)

theorem State.Queued.writeHost {j pg o : Nat} {w : WriteReq} (h : s.Queued cmds) : (s.writeHost j pg o w).Queued cmds :=
  h.setF.ite ((h.ite h.writePlain).ite (h.sqCtrl.ite (h.cqCtrl.ite h.writePlain)))

theorem State.Queued.writeSec {j pg o : Nat} {w : WriteReq} (h : s.Queued cmds) : (s.writeSec j pg o w).Queued cmds := by
  unfold State.writeSec
  split
  · exact h.lcCommand
  · exact h.fwCommand
  · exact h.setCommand
  · exact h.attest.ite h
  · exact h.setReg.programKey.ite h.setReg
  · exact h.writePlain

theorem State.Queued.writeBlock {who : Requester} {c : PClass} {j pg o : Nat} {w : WriteReq} (h : s.Queued cmds) :
    (s.writeBlock who c j pg o w).Queued cmds := by
  unfold State.writeBlock
  split
  · exact h.writeDir
  · exact h.writePwr
  · exact h.writeSec
  · exact h.writeMem
  · exact (h.flushPlans.ite h).ite h.writePlain
  · exact h.writeCamb
  · exact h.writeMode.ite h.writePlain
  · exact (h.peek.ite h).ite h.writePlain
  · exact h.writePlain
  · exact h.writeFabric.ite h.writePlain
  · exact h.writeHost
  · exact h.writePlain
  · exact h.writeSync

theorem State.Queued.writeWord {who : Requester} {c : PClass} {j pg o val : Nat} (h : s.Queued cmds) :
    (s.writeWord who c j pg o val).Queued cmds :=
  h.countLocked.writeRsvp.writeHeader.ite h.countLocked.writeRsvp.writeBlock

theorem State.Queued.mayLose (h : s.Queued cmds) : s.mayLose.1.Queued cmds := by
  unfold State.mayLose
  exact .ite_fst (.mk h) h

theorem State.Queued.busWrite {who : Requester} {off val : Nat} (h : s.Queued cmds) : (s.busWrite who off val).Queued cmds := by
  unfold State.busWrite
  split
  · exact h
  · extract_lets l1
    have hl1 : l1.1.Queued cmds := h.mayLose
    split
    · exact hl1
    · split
      · exact hl1.refuse
      · split
        · exact hl1
        · split
          · exact hl1.writeWord
          · exact hl1

theorem State.Queued.busRead {who : Requester} {off : Nat} (h : s.Queued cmds) : (s.busRead who off).1.Queued cmds := by
  unfold State.busRead
  exact .ite_fst (.mk h) (h.refuse.ite_fst h)

/-! ### Machine/Pages.lean -/

theorem State.Queued.maskedWrite {who : Requester} {pg o bitsSet sel : Nat} (h : s.Queued cmds) :
    (s.maskedWrite who pg o bitsSet sel).Queued cmds :=
  h.busWrite

theorem State.Queued.fieldWrite {who : Requester} {pg : Nat} {x : Fld} {v : Nat} (h : s.Queued cmds) :
    (s.fieldWrite who pg x v).Queued cmds :=
  h.busWrite

theorem State.Queued.i3cReads {off : Nat} (h : s.Queued cmds) : (s.i3cReads off).Queued cmds := h.ite h.busRead.emit

theorem State.Queued.refused_ {who : Requester} {off n : Nat} {write : Bool} (h : s.Queued cmds) :
    (s.refused_ who off n write).Queued cmds :=
  h.ite ((h.foldl fun _ _ h => h.refuse).ite (h.foldl fun _ _ h => h.refuse).emit)

theorem State.Queued.clearEvents {who : Requester} {pg clear now : Nat} (h : s.Queued cmds) :
    (s.clearEvents who pg clear now).Queued cmds :=
  (h.foldl fun _ _ h => h.event).busWrite

theorem State.Queued.pmapWritten {p : Nat} (h : s.Queued cmds) : (s.pmapWritten p).Queued cmds := h.pmapEnds.ite h

theorem State.Queued.normWrite {who : Requester} {unit : Nat} {valid : Bool} {v : Nat} (h : s.Queued cmds) :
    (s.normWrite who unit valid v).Queued cmds :=
  h.busWrite.fieldWrite

theorem State.Queued.fetchWrite {who : Requester} {host : List Byte} (h : s.Queued cmds) : (s.fetchWrite who host).Queued cmds :=
  h.poke.maskedWrite

theorem State.Queued.flashCommand {who : Requester} {b : Nat} {good : Bool} (h : s.Queued cmds) :
    (s.flashCommand who b good).Queued cmds := by
  unfold State.flashCommand
  extract_lets t1
  have ht1 : t1.Queued cmds := h.maskedWrite
  exact .ite ht1 (.setResult (.mk ht1))

theorem State.Queued.fuseCommand {who : Requester} {key : Nat} {good : Bool} (h : s.Queued cmds) :
    (s.fuseCommand who key good).Queued cmds := by
  unfold State.fuseCommand
  extract_lets _ t1 _ t2
  have ht1 : t1.Queued cmds := h.maskedWrite
  have ht2 : t2.Queued cmds := .setRegs (.mk ht1)
  exact ht1.ite ht2.setF.setF

/-! ### Machine/Programs.lean -/

theorem State.Queued.alu {c : Fin 256} {t : Fin 64} {f : Nat} {d a b : BitVec 5} {op : Nat → Nat → Nat} (h : s.Queued cmds) :
    (s.alu c t f d a b op).Queued cmds :=
  h.scalar

theorem State.Queued.immOp {c : Fin 256} {t : Fin 64} {op : Nat} {d a : BitVec 5} {imm : BitVec 16} {f : Nat → Nat}
    (h : s.Queued cmds) :
    (s.immOp c t op d a imm f).Queued cmds :=
  h.scalar

theorem State.Queued.loadOp {c : Fin 256} {t : Fin 64} {op n align : Nat} {vec : Bool} {d a : BitVec 5} {imm : BitVec 16}
    (h : s.Queued cmds) :
    (s.loadOp c t op n align vec d a imm).Queued cmds :=
  h.instr (fun _ => h.issueLoad)

theorem State.Queued.storeOp {c : Fin 256} {t : Fin 64} {op align : Nat} {vec : Bool} {d a : BitVec 5} {imm : BitVec 16}
    {b : Thread → List Byte} (h : s.Queued cmds) :
    (s.storeOp c t op align vec d a imm b).Queued cmds :=
  h.instr (fun _ => h.issueStore)

theorem State.Queued.vop2 {c : Fin 256} {t : Fin 64} {o : Nat} {ty : BitVec 2} {d a b : BitVec 5}
    {f : VType → Rnd → Nat → Nat → Nat × Nat} (h : s.Queued cmds) :
    (s.vop2 c t o ty d a b f).Queued cmds :=
  h.vector

theorem State.Queued.vop1 {c : Fin 256} {t : Fin 64} {o : Nat} {ty : BitVec 2} {d a b : BitVec 5}
    {f : VType → Rnd → Nat → Nat × Nat} (h : s.Queued cmds) :
    (s.vop1 c t o ty d a b f).Queued cmds :=
  h.vector

theorem State.Queued.vbits {c : Fin 256} {t : Fin 64} {o : Nat} {ty : BitVec 2} {d a b : BitVec 5}
    {f : VReg → VReg → VReg} (h : s.Queued cmds) :
    (s.vbits c t o ty d a b f).Queued cmds :=
  h.vector

theorem State.Queued.vred {c : Fin 256} {t : Fin 64} {o : Nat} {ty : BitVec 2} {d a b : BitVec 5}
    {f : VType → Rnd → VReg → Nat × Nat} (h : s.Queued cmds) :
    (s.vred c t o ty d a b f).Queued cmds :=
  h.unitInstr (fun _ _ h => h.goOn)

theorem State.Queued.sfu {c : Fin 256} {t : Fin 64} {o : Nat} {d a b : BitVec 5} {f : Nat → Nat} (h : s.Queued cmds) :
    (s.sfu c t o d a b f).Queued cmds :=
  h.vector

/-! ### Machine/Tick.lean -/

theorem State.Queued.advance (h : s.Queued cmds) : s.advance.Queued cmds := h.modPower.ite h.modPower.retrainSummary

end Sys2Proof.Machine
end

